-- ==== Sys2Proof/Word.lean ====
section
/-! DEFINITION. The word types of the machine (R4, R13, R15 of the spec). -/

namespace Sys2Proof

/-- A byte. -/
abbrev Byte := BitVec 8
/-- A 32-bit register or instruction word. -/
abbrev W32 := BitVec 32
/-- A 64-bit pair, address or control register. -/
abbrev W64 := BitVec 64
/-- A 7-bit register name (R13, R18). -/
abbrev RName := BitVec 7
/-- A set of the 32 lanes of a wave (R19). -/
abbrev Lanes := BitVec 32

end Sys2Proof
end

