-- ==== Sys2Proof/Syntax.lean ====
section
/-! DEFINITION. The instructions: one constructor for each row of spec/opcode_table.json.
The first 294 are the encoded words (R26 to R42 of 01_words.md and the instruction chapters);
the last 134 are the steps of the machine that have no encoding (95_what_each_step_holds.md),
with the numbers that say which object of the state the step concerns. -/

namespace Sys2Proof

/-- Operand kinds (R25). -/
inductive Kind where
  | vec
  | sca
  | cst
  | lit
  deriving DecidableEq, Repr

/-- A source operand: its kind tag and its 7-bit name (R25, R26). -/
structure Src where
  kind : Kind
  name : RName
  deriving DecidableEq, Repr

/-- ORD field of memory words and fences (R26). -/
inductive Ord where
  | plain
  | acq
  | rel
  | acqrel
  deriving DecidableEq, Repr

/-- Memory scopes (R3). -/
inductive Scope where
  | wave
  | group
  | cluster
  | plate
  | die
  | pkg
  | sys
  | host
  deriving DecidableEq, Repr

/-- Replacement hints (R26). -/
inductive Hint where
  | normal
  | evictFirst
  | evictLast
  | stream
  deriving DecidableEq, Repr

/-- Floating-point types in MOD (R102). -/
inductive FTy where
  | f32
  | f64
  | f16
  | bf16
  deriving DecidableEq, Repr

/-- Rounding modifiers of conversions in MOD (R106); `cur` takes FPMODE.RM. -/
inductive Rm where
  | cur
  | rz
  | ru
  | rd
  deriving DecidableEq, Repr

/-- The instructions and steps, in the order of the opcode table. -/
inductive Instr where
  | clause (w : BitVec 12) (a : BitVec 4) (b : BitVec 4) (l : BitVec 3) (n : BitVec 3)
  | iadd (d : RName) (a : Src) (b : Src)
  | isub (d : RName) (a : Src) (b : Src)
  | imul (d : RName) (a : Src) (b : Src)
  | imulhS32 (d : RName) (a : Src) (b : Src)
  | imulhZ32 (d : RName) (a : Src) (b : Src)
  | imad (d : RName) (a : Src) (b : Src)
  | iminS32 (d : RName) (a : Src) (b : Src)
  | iminZ32 (d : RName) (a : Src) (b : Src)
  | imaxS32 (d : RName) (a : Src) (b : Src)
  | imaxZ32 (d : RName) (a : Src) (b : Src)
  | andB (d : RName) (a : Src) (b : Src)
  | orB (d : RName) (a : Src) (b : Src)
  | xorB (d : RName) (a : Src) (b : Src)
  | andn (d : RName) (a : Src) (b : Src)
  | shl (d : RName) (a : Src) (b : Src)
  | shr (d : RName) (a : Src) (b : Src)
  | shra (d : RName) (a : Src) (b : Src)
  | rotl (d : RName) (a : Src) (b : Src)
  | bfx (d : RName) (a : Src) (b : Src)
  | bfi (d : RName) (a : Src) (b : Src)
  | cmpEq (d : RName) (a : Src) (b : Src)
  | cmpNe (d : RName) (a : Src) (b : Src)
  | cmpLtS32 (d : RName) (a : Src) (b : Src)
  | cmpLtZ32 (d : RName) (a : Src) (b : Src)
  | cmpLeS32 (d : RName) (a : Src) (b : Src)
  | cmpLeZ32 (d : RName) (a : Src) (b : Src)
  | sel (d : RName) (a : Src) (b : Src)
  | iaddSatS32 (d : RName) (a : Src) (b : Src)
  | adda (d : RName) (a : Src) (b : Src)
  | adda64 (d : RName) (a : Src) (b : Src)
  | suba (d : RName) (a : Src) (b : Src)
  | cmpaLt (d : RName) (a : Src) (b : Src)
  | faddF32 (d : RName) (a : Src) (b : Src)
  | faddF64 (d : RName) (a : Src) (b : Src)
  | faddF16 (d : RName) (a : Src) (b : Src)
  | faddBf16 (d : RName) (a : Src) (b : Src)
  | fsubF32 (d : RName) (a : Src) (b : Src)
  | fsubF64 (d : RName) (a : Src) (b : Src)
  | fsubF16 (d : RName) (a : Src) (b : Src)
  | fsubBf16 (d : RName) (a : Src) (b : Src)
  | fmulF32 (d : RName) (a : Src) (b : Src)
  | fmulF64 (d : RName) (a : Src) (b : Src)
  | fmulF16 (d : RName) (a : Src) (b : Src)
  | fmulBf16 (d : RName) (a : Src) (b : Src)
  | ffmaF32 (d : RName) (a : Src) (b : Src)
  | ffmaF64 (d : RName) (a : Src) (b : Src)
  | ffmaF16 (d : RName) (a : Src) (b : Src)
  | ffmaBf16 (d : RName) (a : Src) (b : Src)
  | ffmalF32 (d : RName) (a : Src) (b : Src)
  | ffmalF64 (d : RName) (a : Src) (b : Src)
  | ffmalF16 (d : RName) (a : Src) (b : Src)
  | ffmalBf16 (d : RName) (a : Src) (b : Src)
  | fminF32 (d : RName) (a : Src) (b : Src)
  | fminF64 (d : RName) (a : Src) (b : Src)
  | fminF16 (d : RName) (a : Src) (b : Src)
  | fminBf16 (d : RName) (a : Src) (b : Src)
  | fmaxF32 (d : RName) (a : Src) (b : Src)
  | fmaxF64 (d : RName) (a : Src) (b : Src)
  | fmaxF16 (d : RName) (a : Src) (b : Src)
  | fmaxBf16 (d : RName) (a : Src) (b : Src)
  | sadd (d : RName) (a : Src) (b : Src)
  | ssub (d : RName) (a : Src) (b : Src)
  | smul (d : RName) (a : Src) (b : Src)
  | sand (d : RName) (a : Src) (b : Src)
  | sor (d : RName) (a : Src) (b : Src)
  | sxor (d : RName) (a : Src) (b : Src)
  | sshl (d : RName) (a : Src) (b : Src)
  | sshr (d : RName) (a : Src) (b : Src)
  | scmpEq (d : RName) (a : Src) (b : Src)
  | scmpLtS32 (d : RName) (a : Src) (b : Src)
  | scmpLtZ32 (d : RName) (a : Src) (b : Src)
  | sadda (d : RName) (a : Src) (b : Src)
  | vldEq (d : RName) (a : RName) (b : Src) (o : Ord)
  | vldLe (d : RName) (a : RName) (b : Src) (o : Ord)
  | vst (d : RName) (a : RName) (b : Src) (o : Ord)
  | vfloor (a : Src) (b : Src)
  | spld (d : RName) (a : Src) (b : Src)
  | spst (d : RName) (a : Src) (b : Src)
  | mov (d : RName) (a : Src)
  | mov64 (d : RName) (a : Src)
  | notB (d : RName) (a : Src)
  | ineg (d : RName) (a : Src) (s : Bool)
  | iabsS32 (d : RName) (a : Src) (s : Bool)
  | popc (d : RName) (a : Src)
  | clz (d : RName) (a : Src)
  | ctz (d : RName) (a : Src)
  | brev (d : RName) (a : Src)
  | bswap (d : RName) (a : Src)
  | sextS8 (d : RName) (a : Src)
  | sextS16 (d : RName) (a : Src)
  | zextZ8 (d : RName) (a : Src)
  | zextZ16 (d : RName) (a : Src)
  | fneg (d : RName) (a : Src) (t : FTy)
  | fabs (d : RName) (a : Src) (t : FTy)
  | fsqrt (d : RName) (a : Src) (t : FTy)
  | frcp (d : RName) (a : Src) (t : FTy)
  | frsqrt (d : RName) (a : Src) (t : FTy)
  | fexp2 (d : RName) (a : Src) (t : FTy)
  | flog2 (d : RName) (a : Src) (t : FTy)
  | fsinpi (d : RName) (a : Src) (t : FTy)
  | fcospi (d : RName) (a : Src) (t : FTy)
  | ftanh (d : RName) (a : Src) (t : FTy)
  | frint (d : RName) (a : Src) (t : FTy)
  | ftrunc (d : RName) (a : Src) (t : FTy)
  | ffloor (d : RName) (a : Src) (t : FTy)
  | fceil (d : RName) (a : Src) (t : FTy)
  | smov (d : RName) (a : Src)
  | smov64 (d : RName) (a : Src)
  | snot (d : RName) (a : Src)
  | sneg (d : RName) (a : Src) (s : Bool)
  | sabsS32 (d : RName) (a : Src) (s : Bool)
  | spopc (d : RName) (a : Src)
  | sclz (d : RName) (a : Src)
  | sctz (d : RName) (a : Src)
  | sbrev (d : RName) (a : Src)
  | sbswap (d : RName) (a : Src)
  | ssextS8 (d : RName) (a : Src)
  | ssextS16 (d : RName) (a : Src)
  | szextZ8 (d : RName) (a : Src)
  | szextZ16 (d : RName) (a : Src)
  | cvtF64F32 (d : RName) (a : Src)
  | cvtF32F64 (d : RName) (a : Src) (r : Rm)
  | cvtF32F16 (d : RName) (a : Src)
  | cvtF32Bf16 (d : RName) (a : Src)
  | cvtF16F32 (d : RName) (a : Src) (r : Rm)
  | cvtBf16F32 (d : RName) (a : Src) (r : Rm)
  | cvtF32E4m3Lo (d : RName) (a : Src)
  | cvtF32E4m3Hi (d : RName) (a : Src)
  | cvtF32E5m2Lo (d : RName) (a : Src)
  | cvtF32E5m2Hi (d : RName) (a : Src)
  | cvtE4m3F32Lo (d : RName) (a : Src) (r : Rm)
  | cvtE4m3F32Hi (d : RName) (a : Src) (r : Rm)
  | cvtE4m3F32NsatLo (d : RName) (a : Src) (r : Rm)
  | cvtE4m3F32NsatHi (d : RName) (a : Src) (r : Rm)
  | cvtE5m2F32Lo (d : RName) (a : Src) (r : Rm)
  | cvtE5m2F32Hi (d : RName) (a : Src) (r : Rm)
  | cvtF32E5m3 (d : RName) (a : Src)
  | cvtE5m3F32 (d : RName) (a : Src)
  | cvtS32F32 (d : RName) (a : Src) (r : Rm)
  | cvtZ32F32 (d : RName) (a : Src) (r : Rm)
  | cvtS64F32 (d : RName) (a : Src) (r : Rm)
  | cvtZ64F32 (d : RName) (a : Src) (r : Rm)
  | cvtS32F64 (d : RName) (a : Src) (r : Rm)
  | cvtZ32F64 (d : RName) (a : Src) (r : Rm)
  | cvtS64F64 (d : RName) (a : Src) (r : Rm)
  | cvtZ64F64 (d : RName) (a : Src) (r : Rm)
  | cvtF32S32 (d : RName) (a : Src) (r : Rm)
  | cvtF32Z32 (d : RName) (a : Src) (r : Rm)
  | cvtF32S64 (d : RName) (a : Src) (r : Rm)
  | cvtF32Z64 (d : RName) (a : Src) (r : Rm)
  | cvtF64S32 (d : RName) (a : Src)
  | cvtF64Z32 (d : RName) (a : Src)
  | cvtF64S64 (d : RName) (a : Src) (r : Rm)
  | cvtF64Z64 (d : RName) (a : Src) (r : Rm)
  | qpack (d : RName) (a : Src)
  | qunpk (d : RName) (a : Src)
  | fcmpEq (d : RName) (a : Src) (t : FTy)
  | fcmpNe (d : RName) (a : Src) (t : FTy)
  | fcmpLt (d : RName) (a : Src) (t : FTy)
  | fcmpLe (d : RName) (a : Src) (t : FTy)
  | fcmpUn (d : RName) (a : Src) (t : FTy)
  | fclass (d : RName) (a : Src) (t : FTy)
  | xall (d : RName) (a : RName)
  | xany (d : RName) (a : RName)
  | xeq (d : RName) (a : RName)
  | xbits (d : RName) (a : RName)
  | xget (d : RName) (a : RName)
  | xspread (d : RName) (a : RName)
  | xpermAbs (d : RName) (a : RName)
  | xpermLo (d : RName) (a : RName) (w : Bool)
  | xpermHi (d : RName) (a : RName) (w : Bool)
  | xpermFlip (d : RName) (a : RName)
  | xsame (d : RName) (a : RName)
  | scanAdd (d : RName) (a : RName) (e : Bool)
  | scanMinS32 (d : RName) (a : RName) (e : Bool)
  | scanMinZ32 (d : RName) (a : RName) (e : Bool)
  | scanMaxS32 (d : RName) (a : RName) (e : Bool)
  | scanMaxZ32 (d : RName) (a : RName) (e : Bool)
  | scanAnd (d : RName) (a : RName) (e : Bool)
  | scanOr (d : RName) (a : RName) (e : Bool)
  | scanXor (d : RName) (a : RName) (e : Bool)
  | scanFaddF32 (d : RName) (a : RName) (e : Bool)
  | scanFminF32 (d : RName) (a : RName) (e : Bool)
  | scanFmaxF32 (d : RName) (a : RName) (e : Bool)
  | redAdd (d : RName) (a : RName)
  | redMinS32 (d : RName) (a : RName)
  | redMinZ32 (d : RName) (a : RName)
  | redMaxS32 (d : RName) (a : RName)
  | redMaxZ32 (d : RName) (a : RName)
  | redAnd (d : RName) (a : RName)
  | redOr (d : RName) (a : RName)
  | redXor (d : RName) (a : RName)
  | redFaddF32 (d : RName) (a : RName)
  | redFminF32 (d : RName) (a : RName)
  | redFmaxF32 (d : RName) (a : RName)
  | spawn (d : RName) (a : Src)
  | spawnTry (d : RName) (a : Src)
  | join (a : Src)
  | mon (a : Src)
  | mwait
  | qinit (q : BitVec 3) (a : Src)
  | qpush (q : BitVec 3) (a : Src)
  | qpop (d : RName) (a : Src)
  | qtry (d : RName) (a : Src)
  | allow (q : BitVec 3) (a : Src)
  | stagepush (d : RName) (a : Src)
  | amsg (d : RName) (a : Src)
  | mma (b : BitVec 4) (c : BitVec 2) (i : BitVec 3) (a : BitVec 4)
  | mzero (c : BitVec 2)
  | obres (n : BitVec 4) (a : Src)
  | obrel (n : BitVec 4)
  | obimp (n : BitVec 4) (a : Src)
  | mdrainF32Sp (a : RName) (m : Bool) (c : Bool)
  | mdrainBf16Sp (a : RName) (m : Bool) (c : Bool)
  | mdrainE4m3Sp (a : RName) (m : Bool) (c : Bool)
  | mdrainE5m2Sp (a : RName) (m : Bool) (c : Bool)
  | mdrainF32 (d : RName) (a : RName) (m : Bool) (c : Bool)
  | mdrainBf16 (d : RName) (a : RName) (m : Bool) (c : Bool)
  | mtake
  | mpass
  | cpy (d : RName) (a : RName) (k : Bool)
  | cpym (d : RName) (a : RName) (k : Bool)
  | gath (d : RName) (a : RName) (k : Bool)
  | xred (d : RName) (a : RName) (k : Bool)
  | tagwaitAny (a : Src)
  | tagwaitAll (a : Src)
  | tagff (d : RName) (a : Src)
  | fence (s : Scope) (o : Ord)
  | fencex (p : BitVec 5) (q : BitVec 5) (s : Scope)
  | prefL1 (a : RName) (h : Hint) (x : Bool)
  | prefLlc (a : RName) (h : Hint) (x : Bool)
  | prefDemote (a : RName) (x : Bool)
  | cld (d : RName) (a : Src)
  | trap (a : Src)
  | bkpt
  | eret
  | eretKill
  | rdsr (d : RName) (n : BitVec 7)
  | wrsr (n : BitVec 7) (a : Src)
  | gsave (a : RName)
  | grest (a : RName)
  | isync
  | yield
  | ldS8 (t : RName) (b : RName) (o : BitVec 4) (r : Ord) (s : Scope) (h : Hint)
  | ldZ8 (t : RName) (b : RName) (o : BitVec 4) (r : Ord) (s : Scope) (h : Hint)
  | ldS16 (t : RName) (b : RName) (o : BitVec 4) (r : Ord) (s : Scope) (h : Hint)
  | ldZ16 (t : RName) (b : RName) (o : BitVec 4) (r : Ord) (s : Scope) (h : Hint)
  | ldS32 (t : RName) (b : RName) (o : BitVec 4) (r : Ord) (s : Scope) (h : Hint)
  | ld64 (t : RName) (b : RName) (o : BitVec 4) (r : Ord) (s : Scope) (h : Hint)
  | st8 (t : RName) (b : RName) (o : BitVec 4) (r : Ord) (s : Scope) (h : Hint)
  | st16 (t : RName) (b : RName) (o : BitVec 4) (r : Ord) (s : Scope) (h : Hint)
  | st32 (t : RName) (b : RName) (o : BitVec 4) (r : Ord) (s : Scope) (h : Hint)
  | st64 (t : RName) (b : RName) (o : BitVec 4) (r : Ord) (s : Scope) (h : Hint)
  | sld32 (t : RName) (b : RName) (o : BitVec 4) (r : Ord) (s : Scope) (h : Hint)
  | sld64 (t : RName) (b : RName) (o : BitVec 4) (r : Ord) (s : Scope) (h : Hint)
  | sst32 (t : RName) (b : RName) (o : BitVec 4) (r : Ord) (s : Scope) (h : Hint)
  | sst64 (t : RName) (b : RName) (o : BitVec 4) (r : Ord) (s : Scope) (h : Hint)
  | atomAdd32 (t : RName) (b : RName) (r : Ord) (s : Scope) (h : Hint)
  | atomMinS32 (t : RName) (b : RName) (r : Ord) (s : Scope) (h : Hint)
  | atomMinZ32 (t : RName) (b : RName) (r : Ord) (s : Scope) (h : Hint)
  | atomMaxS32 (t : RName) (b : RName) (r : Ord) (s : Scope) (h : Hint)
  | atomMaxZ32 (t : RName) (b : RName) (r : Ord) (s : Scope) (h : Hint)
  | atomAnd32 (t : RName) (b : RName) (r : Ord) (s : Scope) (h : Hint)
  | atomOr32 (t : RName) (b : RName) (r : Ord) (s : Scope) (h : Hint)
  | atomXor32 (t : RName) (b : RName) (r : Ord) (s : Scope) (h : Hint)
  | atomSwap32 (t : RName) (b : RName) (r : Ord) (s : Scope) (h : Hint)
  | atomCas32 (t : RName) (b : RName) (r : Ord) (s : Scope) (h : Hint)
  | atomAdd64 (t : RName) (b : RName) (r : Ord) (s : Scope) (h : Hint)
  | atomMinS64 (t : RName) (b : RName) (r : Ord) (s : Scope) (h : Hint)
  | atomMinZ64 (t : RName) (b : RName) (r : Ord) (s : Scope) (h : Hint)
  | atomMaxS64 (t : RName) (b : RName) (r : Ord) (s : Scope) (h : Hint)
  | atomMaxZ64 (t : RName) (b : RName) (r : Ord) (s : Scope) (h : Hint)
  | atomAnd64 (t : RName) (b : RName) (r : Ord) (s : Scope) (h : Hint)
  | atomOr64 (t : RName) (b : RName) (r : Ord) (s : Scope) (h : Hint)
  | atomXor64 (t : RName) (b : RName) (r : Ord) (s : Scope) (h : Hint)
  | atomSwap64 (t : RName) (b : RName) (r : Ord) (s : Scope) (h : Hint)
  | atomCas64 (t : RName) (b : RName) (r : Ord) (s : Scope) (h : Hint)
  | movi (d : RName) (i : BitVec 18)
  | movhi (d : RName) (i : BitVec 18)
  | smovi (d : RName) (i : BitVec 18)
  | smovhi (d : RName) (i : BitVec 18)
  | wbase (i : BitVec 18)
  | cbase (i : BitVec 9)
  | bar (k : BitVec 5) (n : BitVec 18)
  | rcv (s : RName) (b : BitVec 4)
  | bnz (c : RName) (o : BitVec 18)
  | bra (o : BitVec 18)
  | bz (c : RName) (o : BitVec 18)
  | call (c : RName) (o : BitVec 18)
  | jmpi (c : RName)
  | calli (c : RName)
  | ret (c : RName)
  | exit (c : RName)
  | longLatencyComplete (id : Nat)
  | storeAcknowledge (id : Nat) (lane : Nat)
  | orderingPointAccess (id : Nat) (lane : Nat)
  | leaseRequest (id : Nat) (lane : Nat)
  | leaseRecall (core : Nat) (line : Nat)
  | readHoldExpiry (die : Nat) (line : Nat)
  | rds (k : Nat)
  | rdx (k : Nat)
  | fwd (k : Nat)
  | inv (k : Nat)
  | ack (k : Nat)
  | data (k : Nat)
  | grant (k : Nat)
  | binv (k : Nat)
  | wb (k : Nat)
  | pageWalk (core : Nat) (page : Nat)
  | pageWalkTimeout (core : Nat) (slot : Nat) (lane : Nat)
  | frespResolve (die : Nat) (rec : Nat)
  | frespRefuse (die : Nat) (rec : Nat)
  | vldEqAtSlice (id : Nat) (lane : Nat)
  | vldLeAtSlice (id : Nat) (lane : Nat)
  | vstAtSlice (id : Nat) (lane : Nat)
  | versionWaitTimeout (id : Nat) (lane : Nat)
  | vldReturnRetry (id : Nat) (lane : Nat)
  | vfloorApply (id : Nat) (place : Nat)
  | mwaitWake (core : Nat) (slot : Nat) (lane : Nat)
  | joinZero (core : Nat) (slot : Nat) (lane : Nat)
  | tagwaitSatisfied (core : Nat) (slot : Nat) (lane : Nat)
  | queueWordPerform (core : Nat) (slot : Nat) (lane : Nat)
  | ringSpaceResume (core : Nat) (slot : Nat) (lane : Nat)
  | monitorTimeout (core : Nat) (slot : Nat) (lane : Nat)
  | waveHaltStop (core : Nat) (slot : Nat)
  | handlerEntry (gid : Nat)
  | groupRetire (gid : Nat)
  | groupEnd (gid : Nat)
  | engineEntryStart (core : Nat) (cls : Nat)
  | engineBeat (core : Nat) (cls : Nat) (seq : Nat) (beat : Nat)
  | engineCommandComplete (core : Nat) (cls : Nat) (seq : Nat)
  | xredElement (core : Nat) (seq : Nat) (elem : Nat)
  | reductionContribution (die : Nat) (tree : Nat) (k : Nat)
  | reductionUnitTimeout (die : Nat) (tree : Nat) (router : Nat)
  | followOnIssue (core : Nat)
  | mmaStart (core : Nat)
  | mmaCheck (core : Nat) (pass : Bool)
  | drainPortOperation (core : Nat) (id : Nat)
  | binWindowExpiry (core : Nat) (k : Nat)
  | binAdmit (core : Nat) (k : Nat)
  | dispatchDecision (die : Nat)
  | coreContextPass (core : Nat) (ctx : Nat)
  | spawnDeadlockEviction (die : Nat) (ctx : Nat)
  | amsgDelivery (die : Nat)
  | stageGovernorTick (die : Nat)
  | stagePartialTake (die : Nat) (key : Nat) (stage : Nat)
  | wridx (die : Nat) (q : Nat) (size : Nat) (val : Nat)
  | queueDescriptorWrite (die : Nat) (off : Nat) (val : Nat)
  | mapperSlotFill (die : Nat)
  | queuePriorityAge (die : Nat) (q : Nat)
  | idleQuantumExpiry (die : Nat) (q : Nat)
  | launch (die : Nat) (q : Nat)
  | jobCard (die : Nat) (q : Nat)
  | pipeline (die : Nat) (q : Nat)
  | waitOnWord (die : Nat) (q : Nat)
  | signal (die : Nat) (q : Nat)
  | pad (die : Nat) (q : Nat)
  | launchTranslation (die : Nat) (key : Nat)
  | regionArming (die : Nat) (key : Nat)
  | launchComplete (die : Nat) (key : Nat)
  | waitOnWordRecheck (die : Nat) (q : Nat)
  | waitOnWordTimeout (die : Nat) (q : Nat)
  | cardReady (die : Nat) (key : Nat)
  | cardComplete (die : Nat) (key : Nat)
  | pageClassCommand (die : Nat) (val : Nat)
  | invalidationCommand (die : Nat) (val : Nat)
  | regionDisarm (die : Nat) (val : Nat)
  | heapGrant (die : Nat) (ctx : Nat) (val : Nat)
  | pageZero (die : Nat) (val : Nat)
  | keyLoad (die : Nat) (val : Nat)
  | keyErase (die : Nat) (val : Nat)
  | contextRecordWrite (die : Nat) (off : Nat) (val : Nat)
  | preemptDrain (die : Nat) (ctx : Nat)
  | preemptSave (die : Nat) (ctx : Nat)
  | contextResume (die : Nat) (ctx : Nat)
  | contextReset (die : Nat) (ctx : Nat)
  | preemptDeadlineExpiry (die : Nat) (ctx : Nat)
  | plateWatchdogExpiry (plate : Nat)
  | platePortError (plate : Nat)
  | thermalTrip (plate : Nat)
  | plateDeclareLost (plate : Nat)
  | plateResetReturn (plate : Nat) (pass : Bool)
  | sliceRetireNow (die : Nat) (slice : Nat)
  | bucketHandover (die : Nat)
  | treeEnable (die : Nat) (tree : Nat) (val : Nat)
  | fedBarrierArrival (die : Nat) (k : Nat) (ctx : Nat) (n : Nat)
  | fedAnnounce (die : Nat) (key : Nat)
  | controlRegisterWrite (die : Nat) (off : Nat) (size : Nat) (val : Nat)
  | scrub (die : Nat) (array : Nat) (index : Nat)
  | uncorrectableError (die : Nat) (array : Nat) (index : Nat)
  | meshFlitRetry (die : Nat)
  | meshLinkDown (die : Nat) (router : Nat) (dir : Nat)
  | d2dPacket (src : Nat) (dst : Nat) (seq : Nat)
  | linkRetrain (src : Nat) (dst : Nat)
  | linkDown (src : Nat) (dst : Nat)
  | crossDieTimeout (id : Nat)
  | hostBar4Read (die : Nat) (addr : Nat) (size : Nat)
  | hostPostedWrite (die : Nat) (addr : Nat) (size : Nat) (val : Nat)
  | hostAtomicop (die : Nat) (addr : Nat) (size : Nat) (op : Nat) (val : Nat) (cmp : Nat)
  | hostCompletion (id : Nat) (good : Bool)
  | fabricPacket (port : Nat) (flits : Nat)
  | wavelengthPark (port : Nat)
  | wavelengthRelock (port : Nat)
  | wavelengthCrcFail (port : Nat) (wave : Nat)
  | getStatus
  | readPower (die : Nat)
  | readLog (die : Nat) (which : Nat) (index : Nat)
  | resetDie (die : Nat)
  | fetchCrashRecord (die : Nat)
  | enterDebugHalt (die : Nat)
  | leaveDebugHalt (die : Nat)
  | getVersion (die : Nat)
  | getCapabilities (die : Nat)
  | negotiateAlgorithms (die : Nat)
  | getDigests (die : Nat)
  | getCertificate (die : Nat)
  | challenge (die : Nat) (nonce : Nat)
  | getMeasurements (die : Nat) (index : Nat)
  | moduleReset
  | imageCheck (die : Nat) (rsa : Bool) (slh : Bool) (version : Nat) (hash : Nat)
  | memoryTraining (die : Nat) (gib : Nat)
  | plateSelfTest (die : Nat) (failed : Nat)
  | regulatorSample (die : Nat) (power : Nat)
  | watchRecord (core : Nat) (slot : Nat) (lane : Nat)
  | fhead (die : Nat) (val : Nat)
  | faultDeliveryEnable (die : Nat) (val : Nat)
  | fedBarrierEn (die : Nat) (k : Nat) (val : Nat)
  deriving DecidableEq, Repr

end Sys2Proof
end

