-- ==== Sys2Proof/WellFormed.lean ====
section
/-! DEFINITION. Which words are legal as words: the register names, kinds, orders and fields that
R15 to R18, R25, R27, R29, R43, R77, R78, R113, R119, R142, R171 and R200 allow. What depends on the
state (the group's grant, the mode, the place in the clause, ownership) is checked by the meanings. -/

namespace Sys2Proof

/-- An even name. -/
def evenN (n : RName) : Bool := n.toNat % 2 == 0
/-- A vector name that may be read: 124 to 127 are reserved (R17). -/
def vname (n : RName) : Bool := n.toNat < 124
/-- A vector name that may be read as a 64-bit value: a pair, or a vector special of any number, whose 32 bits are read zero-extended. R99
and R113 exempt l0 to l3 from the even-name rule and do not speak of the other specials, which R15 and R17 read whole (log 119). -/
def vname64 (n : RName) : Bool := (n.toNat < 112 && evenN n) || (112 ≤ n.toNat && n.toNat < 124)
/-- A scalar name that may be read: 118 to 127 are reserved (R18). -/
def sname (n : RName) : Bool := n.toNat < 118
/-- A scalar name that may be read as a 64-bit value (R18, R83). -/
def sname64 (n : RName) : Bool :=
  (n.toNat < 96 && evenN n) || (96 ≤ n.toNat && n.toNat < 118 && n.toNat != 99 && n.toNat != 103)
/-- A 32-bit source of any kind (R25). -/
def src32 (s : Src) : Bool :=
  match s.kind with
  | .vec => vname s.name
  | .sca => sname s.name
  | .cst | .lit => true
/-- A 64-bit source of any kind (R15, R25). -/
def src64 (s : Src) : Bool :=
  match s.kind with
  | .vec => vname64 s.name
  | .sca => sname64 s.name
  | .cst => evenN s.name
  | .lit => true
/-- A source that may not be a vector register (R78). -/
def ssrc32 (s : Src) : Bool := s.kind != .vec && src32 s
/-- A 64-bit source that may not be a vector register (R78). -/
def ssrc64 (s : Src) : Bool := s.kind != .vec && src64 s
/-- A source that must be a scalar register or a literal (R141, R159, R161, R172, R186). -/
def scaLit (s : Src) : Bool := (s.kind == .sca || s.kind == .lit) && src32 s
/-- A source whose element type chooses its width (R97, R102). -/
def srcTy (t : FTy) (s : Src) : Bool := if t = .f64 then src64 s else src32 s
/-- Destination of a vector form that only writes D (R77). -/
def dst32 (d : RName) : Bool := d.toNat ≤ 112
/-- 64-bit destination of a vector form that only writes D (R77). -/
def dst64 (d : RName) : Bool := d.toNat == 112 || (d.toNat < 112 && evenN d)
/-- Destination of a vector form that also reads D (R77). -/
def dstR (d : RName) : Bool := d.toNat < 112
/-- 64-bit destination of a vector form that also reads D (R77, R99). -/
def dstR64 (d : RName) : Bool := d.toNat < 112 && evenN d
/-- Destination by element type, written only. -/
def dstTy (t : FTy) (d : RName) : Bool := if t = .f64 then dst64 d else dst32 d
/-- Destination by element type, also read. -/
def dstRTy (t : FTy) (d : RName) : Bool := if t = .f64 then dstR64 d else dstR d
/-- Destination of a scalar form: s0 to s95, xstat, fpmode or fpstat (R78). -/
def sdst32 (d : RName) : Bool := d.toNat < 96 || d.toNat == 97 || d.toNat == 100 || d.toNat == 101
/-- Destination of a scalar form with a 64-bit result (R78). -/
def sdst64 (d : RName) : Bool := d.toNat < 96 && evenN d
/-- A general scalar register s0 to s95. -/
def sgen (d : RName) : Bool := d.toNat < 96
/-- An even general scalar pair s0 to s94. -/
def spair (d : RName) : Bool := d.toNat < 96 && evenN d
/-- An even vector pair 0 to 110 (R135). -/
def vpair (n : RName) : Bool := n.toNat < 112 && evenN n
/-- A vector address: an even pair 0 to 110 or l0 to l3 read whole (R91, R114). -/
def vaddr (n : RName) : Bool := (n.toNat < 112 && evenN n) || (112 ≤ n.toNat && n.toNat < 116)
/-- The address operand of SPAWN, JOIN and MON (R149). -/
def addrSrc (s : Src) : Bool :=
  match s.kind with
  | .vec => vaddr s.name
  | .sca => spair s.name
  | .cst | .lit => false
/-- The mask operand of the tag waits (R182). -/
def tagSrc (s : Src) : Bool :=
  match s.kind with
  | .vec => false
  | .sca => spair s.name
  | .cst => evenN s.name
  | .lit => true
/-- Eight registers: 0 to 88 in the main file, 96 or 104, a multiple of 8 (R135, R149, R195). -/
def oct (d : RName) : Bool := d.toNat % 8 == 0 && d.toNat ≤ 104
/-- Four registers for STAGEPUSH (R161). -/
def quad (d : RName) : Bool := d.toNat % 4 == 0 && d.toNat ≤ 108
/-- Sixteen registers for AMSG (R162). -/
def hexa (d : RName) : Bool := d.toNat % 16 == 0 && d.toNat ≤ 96
/-- Four scalar registers for a drain's descriptor (R195). -/
def squad (a : RName) : Bool := a.toNat % 4 == 0 && a.toNat ≤ 92
/-- First register of an engine descriptor (R172). -/
def engD (d : RName) : Bool := d.toNat % 16 == 0 && d.toNat ≤ 80
/-- Data register of a 32-bit load or atomic (R119). -/
def ldst (t : RName) : Bool := t.toNat < 112
/-- Data register of a 64-bit load or atomic, and of a 32-bit CAS (R119, R126). -/
def ldst64 (t : RName) : Bool := t.toNat < 112 && evenN t
/-- Data register of a 64-bit store (R119). -/
def stsrc64 (t : RName) : Bool := (t.toNat < 112 && evenN t) || (112 ≤ t.toNat && t.toNat < 116)
/-- Data register of a 64-bit CAS, whose new value is in the pair two names on (R126). -/
def cas64 (t : RName) : Bool := t.toNat < 110 && evenN t
/-- Orders that a load may carry (R27). -/
def loadOrd (o : Ord) : Bool := o == .plain || o == .acq
/-- Orders that a store may carry (R27). -/
def storeOrd (o : Ord) : Bool := o == .plain || o == .rel
/-- A SETA or SETB value that names a flag or none (R29). -/
def okSet (a : BitVec 4) : Bool := a.toNat < 12 || a.toNat == 15

/-- Well-formed instructions: no field that the spec forbids in the word itself. -/
def Instr.wf : Instr → Bool
  | .clause _ a b _ _ => okSet a && okSet b
  | .iadd d a b => dst32 d && src32 a && src32 b
  | .isub d a b => dst32 d && src32 a && src32 b
  | .imul d a b => dst32 d && src32 a && src32 b
  | .imulhS32 d a b => dst32 d && src32 a && src32 b
  | .imulhZ32 d a b => dst32 d && src32 a && src32 b
  | .imad d a b => dstR d && src32 a && src32 b
  | .iminS32 d a b => dst32 d && src32 a && src32 b
  | .iminZ32 d a b => dst32 d && src32 a && src32 b
  | .imaxS32 d a b => dst32 d && src32 a && src32 b
  | .imaxZ32 d a b => dst32 d && src32 a && src32 b
  | .andB d a b => dst32 d && src32 a && src32 b
  | .orB d a b => dst32 d && src32 a && src32 b
  | .xorB d a b => dst32 d && src32 a && src32 b
  | .andn d a b => dst32 d && src32 a && src32 b
  | .shl d a b => dst32 d && src32 a && src32 b
  | .shr d a b => dst32 d && src32 a && src32 b
  | .shra d a b => dst32 d && src32 a && src32 b
  | .rotl d a b => dst32 d && src32 a && src32 b
  | .bfx d a b => dst32 d && src32 a && src32 b
  | .bfi d a b => dstR d && src32 a && src32 b
  | .cmpEq d a b => dst32 d && src32 a && src32 b
  | .cmpNe d a b => dst32 d && src32 a && src32 b
  | .cmpLtS32 d a b => dst32 d && src32 a && src32 b
  | .cmpLtZ32 d a b => dst32 d && src32 a && src32 b
  | .cmpLeS32 d a b => dst32 d && src32 a && src32 b
  | .cmpLeZ32 d a b => dst32 d && src32 a && src32 b
  | .sel d a b => dstR d && src32 a && src32 b
  | .iaddSatS32 d a b => dst32 d && src32 a && src32 b
  | .adda d a b => dst64 d && src64 a && src32 b
  | .adda64 d a b => dst64 d && src64 a && src64 b
  | .suba d a b => dst64 d && src64 a && src64 b
  | .cmpaLt d a b => dst32 d && src64 a && src64 b
  | .faddF32 d a b => dst32 d && src32 a && src32 b
  | .faddF64 d a b => dst64 d && src64 a && src64 b
  | .faddF16 d a b => dst32 d && src32 a && src32 b
  | .faddBf16 d a b => dst32 d && src32 a && src32 b
  | .fsubF32 d a b => dst32 d && src32 a && src32 b
  | .fsubF64 d a b => dst64 d && src64 a && src64 b
  | .fsubF16 d a b => dst32 d && src32 a && src32 b
  | .fsubBf16 d a b => dst32 d && src32 a && src32 b
  | .fmulF32 d a b => dst32 d && src32 a && src32 b
  | .fmulF64 d a b => dst64 d && src64 a && src64 b
  | .fmulF16 d a b => dst32 d && src32 a && src32 b
  | .fmulBf16 d a b => dst32 d && src32 a && src32 b
  | .ffmaF32 d a b => dstR d && src32 a && src32 b
  | .ffmaF64 d a b => dstR64 d && src64 a && src64 b
  | .ffmaF16 d a b => dstR d && src32 a && src32 b
  | .ffmaBf16 d a b => dstR d && src32 a && src32 b
  | .ffmalF32 d a b => dst32 d && src32 a && src32 b
  | .ffmalF64 d a b => dst64 d && src64 a && src64 b
  | .ffmalF16 d a b => dst32 d && src32 a && src32 b
  | .ffmalBf16 d a b => dst32 d && src32 a && src32 b
  | .fminF32 d a b => dst32 d && src32 a && src32 b
  | .fminF64 d a b => dst64 d && src64 a && src64 b
  | .fminF16 d a b => dst32 d && src32 a && src32 b
  | .fminBf16 d a b => dst32 d && src32 a && src32 b
  | .fmaxF32 d a b => dst32 d && src32 a && src32 b
  | .fmaxF64 d a b => dst64 d && src64 a && src64 b
  | .fmaxF16 d a b => dst32 d && src32 a && src32 b
  | .fmaxBf16 d a b => dst32 d && src32 a && src32 b
  | .sadd d a b => sdst32 d && ssrc32 a && ssrc32 b
  | .ssub d a b => sdst32 d && ssrc32 a && ssrc32 b
  | .smul d a b => sdst32 d && ssrc32 a && ssrc32 b
  | .sand d a b => sdst32 d && ssrc32 a && ssrc32 b
  | .sor d a b => sdst32 d && ssrc32 a && ssrc32 b
  | .sxor d a b => sdst32 d && ssrc32 a && ssrc32 b
  | .sshl d a b => sdst32 d && ssrc32 a && ssrc32 b
  | .sshr d a b => sdst32 d && ssrc32 a && ssrc32 b
  | .scmpEq d a b => sdst32 d && ssrc32 a && ssrc32 b
  | .scmpLtS32 d a b => sdst32 d && ssrc32 a && ssrc32 b
  | .scmpLtZ32 d a b => sdst32 d && ssrc32 a && ssrc32 b
  | .sadda d a b => sdst64 d && ssrc64 a && ssrc32 b
  | .vldEq d a b o => oct d && vpair a && src32 b && loadOrd o
  | .vldLe d a b o => oct d && vpair a && src32 b && loadOrd o
  | .vst d a b o => oct d && vpair a && src32 b && storeOrd o
  | .vfloor a b => scaLit a && ssrc32 b
  | .spld d a b => ldst d && src32 a && src32 b
  | .spst d a b => vname d && src32 a && src32 b
  | .mov d a => dst32 d && src32 a
  | .mov64 d a => dst64 d && src64 a
  | .notB d a => dst32 d && src32 a
  | .ineg d a _ => dst32 d && src32 a
  | .iabsS32 d a _ => dst32 d && src32 a
  | .popc d a => dst32 d && src32 a
  | .clz d a => dst32 d && src32 a
  | .ctz d a => dst32 d && src32 a
  | .brev d a => dst32 d && src32 a
  | .bswap d a => dst32 d && src32 a
  | .sextS8 d a => dst32 d && src32 a
  | .sextS16 d a => dst32 d && src32 a
  | .zextZ8 d a => dst32 d && src32 a
  | .zextZ16 d a => dst32 d && src32 a
  | .fneg d a t => dstTy t d && srcTy t a
  | .fabs d a t => dstTy t d && srcTy t a
  | .fsqrt d a t => dstTy t d && srcTy t a
  | .frcp d a t => dstTy t d && srcTy t a
  | .frsqrt d a t => dst32 d && src32 a && t != .f64
  | .fexp2 d a t => dst32 d && src32 a && t != .f64
  | .flog2 d a t => dst32 d && src32 a && t != .f64
  | .fsinpi d a t => dst32 d && src32 a && t != .f64
  | .fcospi d a t => dst32 d && src32 a && t != .f64
  | .ftanh d a t => dst32 d && src32 a && t != .f64
  | .frint d a t => dstTy t d && srcTy t a
  | .ftrunc d a t => dstTy t d && srcTy t a
  | .ffloor d a t => dstTy t d && srcTy t a
  | .fceil d a t => dstTy t d && srcTy t a
  | .smov d a => sdst32 d && ssrc32 a
  | .smov64 d a => sdst64 d && ssrc64 a
  | .snot d a => sdst32 d && ssrc32 a
  | .sneg d a _ => sdst32 d && ssrc32 a
  | .sabsS32 d a _ => sdst32 d && ssrc32 a
  | .spopc d a => sdst32 d && ssrc32 a
  | .sclz d a => sdst32 d && ssrc32 a
  | .sctz d a => sdst32 d && ssrc32 a
  | .sbrev d a => sdst32 d && ssrc32 a
  | .sbswap d a => sdst32 d && ssrc32 a
  | .ssextS8 d a => sdst32 d && ssrc32 a
  | .ssextS16 d a => sdst32 d && ssrc32 a
  | .szextZ8 d a => sdst32 d && ssrc32 a
  | .szextZ16 d a => sdst32 d && ssrc32 a
  | .cvtF64F32 d a => dst64 d && src32 a
  | .cvtF32F64 d a _ => dst32 d && src64 a
  | .cvtF32F16 d a => dst64 d && src32 a
  | .cvtF32Bf16 d a => dst64 d && src32 a
  | .cvtF16F32 d a _ => dst32 d && src64 a
  | .cvtBf16F32 d a _ => dst32 d && src64 a
  | .cvtF32E4m3Lo d a => dst64 d && src32 a
  | .cvtF32E4m3Hi d a => dst64 d && src32 a
  | .cvtF32E5m2Lo d a => dst64 d && src32 a
  | .cvtF32E5m2Hi d a => dst64 d && src32 a
  | .cvtE4m3F32Lo d a _ => dstR d && src64 a
  | .cvtE4m3F32Hi d a _ => dstR d && src64 a
  | .cvtE4m3F32NsatLo d a _ => dstR d && src64 a
  | .cvtE4m3F32NsatHi d a _ => dstR d && src64 a
  | .cvtE5m2F32Lo d a _ => dstR d && src64 a
  | .cvtE5m2F32Hi d a _ => dstR d && src64 a
  | .cvtF32E5m3 d a => dst32 d && src32 a
  | .cvtE5m3F32 d a => dst32 d && src32 a
  | .cvtS32F32 d a _ => dst32 d && src32 a
  | .cvtZ32F32 d a _ => dst32 d && src32 a
  | .cvtS64F32 d a _ => dst64 d && src32 a
  | .cvtZ64F32 d a _ => dst64 d && src32 a
  | .cvtS32F64 d a _ => dst32 d && src64 a
  | .cvtZ32F64 d a _ => dst32 d && src64 a
  | .cvtS64F64 d a _ => dst64 d && src64 a
  | .cvtZ64F64 d a _ => dst64 d && src64 a
  | .cvtF32S32 d a _ => dst32 d && src32 a
  | .cvtF32Z32 d a _ => dst32 d && src32 a
  | .cvtF32S64 d a _ => dst32 d && src64 a
  | .cvtF32Z64 d a _ => dst32 d && src64 a
  | .cvtF64S32 d a => dst64 d && src32 a
  | .cvtF64Z32 d a => dst64 d && src32 a
  | .cvtF64S64 d a _ => dst64 d && src64 a
  | .cvtF64Z64 d a _ => dst64 d && src64 a
  | .qpack d a => dst64 d && src32 a
  | .qunpk d a => dst32 d && src64 a
  | .fcmpEq d a t => dstRTy t d && srcTy t a
  | .fcmpNe d a t => dstRTy t d && srcTy t a
  | .fcmpLt d a t => dstRTy t d && srcTy t a
  | .fcmpLe d a t => dstRTy t d && srcTy t a
  | .fcmpUn d a t => dstRTy t d && srcTy t a
  | .fclass d a t => dst32 d && srcTy t a
  | .xall d a => sgen d && vname a
  | .xany d a => sgen d && vname a
  | .xeq d a => sgen d && vname a
  | .xbits d a => sgen d && vname a
  | .xget d a => sgen d && vname a
  | .xspread d a => dst32 d && vname a
  | .xpermAbs d a => dstR d && vname a
  | .xpermLo d a _ => dstR d && vname a
  | .xpermHi d a _ => dstR d && vname a
  | .xpermFlip d a => dstR d && vname a
  | .xsame d a => dst32 d && vname a
  | .scanAdd d a _ => dst32 d && vname a
  | .scanMinS32 d a _ => dst32 d && vname a
  | .scanMinZ32 d a _ => dst32 d && vname a
  | .scanMaxS32 d a _ => dst32 d && vname a
  | .scanMaxZ32 d a _ => dst32 d && vname a
  | .scanAnd d a _ => dst32 d && vname a
  | .scanOr d a _ => dst32 d && vname a
  | .scanXor d a _ => dst32 d && vname a
  | .scanFaddF32 d a _ => dst32 d && vname a
  | .scanFminF32 d a _ => dst32 d && vname a
  | .scanFmaxF32 d a _ => dst32 d && vname a
  | .redAdd d a => dst32 d && vname a
  | .redMinS32 d a => dst32 d && vname a
  | .redMinZ32 d a => dst32 d && vname a
  | .redMaxS32 d a => dst32 d && vname a
  | .redMaxZ32 d a => dst32 d && vname a
  | .redAnd d a => dst32 d && vname a
  | .redOr d a => dst32 d && vname a
  | .redXor d a => dst32 d && vname a
  | .redFaddF32 d a => dst32 d && vname a
  | .redFminF32 d a => dst32 d && vname a
  | .redFmaxF32 d a => dst32 d && vname a
  | .spawn d a => oct d && addrSrc a
  | .spawnTry d a => oct d && addrSrc a
  | .join a => addrSrc a
  | .mon a => addrSrc a
  | .mwait => true
  | .qinit _ a => src32 a
  | .qpush _ a => src32 a
  | .qpop d a => ldst d && scaLit a
  | .qtry d a => ldst d && scaLit a
  | .allow _ a => src32 a
  | .stagepush d a => quad d && scaLit a
  | .amsg d a => hexa d && src32 a
  | .mma _ _ _ _ => true
  | .mzero _ => true
  | .obres _ a => ssrc32 a
  | .obrel _ => true
  | .obimp _ a => scaLit a
  | .mdrainF32Sp a _ _ => squad a
  | .mdrainBf16Sp a _ _ => squad a
  | .mdrainE4m3Sp a _ _ => squad a
  | .mdrainE5m2Sp a _ _ => squad a
  | .mdrainF32 d a _ _ => oct d && squad a
  | .mdrainBf16 d a _ _ => oct d && squad a
  | .mtake => true
  | .mpass => true
  | .cpy d a k => engD d && (k || sname a)
  | .cpym d a k => engD d && (k || sname a)
  | .gath d a k => engD d && (k || sname a)
  | .xred d a k => engD d && (k || sname a)
  | .tagwaitAny a => tagSrc a
  | .tagwaitAll a => tagSrc a
  | .tagff d a => sgen d && tagSrc a
  | .fence _ o => o != .plain
  | .fencex p q _ => p != 0 && q != 0
  | .prefL1 a _ x => if x then spair a else vaddr a
  | .prefLlc a _ x => if x then spair a else vaddr a
  | .prefDemote a x => if x then spair a else vaddr a
  | .cld d a => ldst d && src32 a
  | .trap a => src32 a
  | .bkpt => true
  | .eret => true
  | .eretKill => true
  | .rdsr d _ => sgen d
  | .wrsr _ a => ssrc32 a
  | .gsave a => spair a
  | .grest a => spair a
  | .isync => true
  | .yield => true
  | .ldS8 t b _ r _ _ => ldst t && vaddr b && loadOrd r
  | .ldZ8 t b _ r _ _ => ldst t && vaddr b && loadOrd r
  | .ldS16 t b _ r _ _ => ldst t && vaddr b && loadOrd r
  | .ldZ16 t b _ r _ _ => ldst t && vaddr b && loadOrd r
  | .ldS32 t b _ r _ _ => ldst t && vaddr b && loadOrd r
  | .ld64 t b _ r _ _ => ldst64 t && vaddr b && loadOrd r
  | .st8 t b _ r _ _ => vname t && vaddr b && storeOrd r
  | .st16 t b _ r _ _ => vname t && vaddr b && storeOrd r
  | .st32 t b _ r _ _ => vname t && vaddr b && storeOrd r
  | .st64 t b _ r _ _ => stsrc64 t && vaddr b && storeOrd r
  | .sld32 t b _ r _ _ => sgen t && spair b && loadOrd r
  | .sld64 t b _ r _ _ => spair t && spair b && loadOrd r
  | .sst32 t b _ r _ _ => sgen t && spair b && storeOrd r
  | .sst64 t b _ r _ _ => spair t && spair b && storeOrd r
  | .atomAdd32 t b _ _ _ => ldst t && vaddr b
  | .atomMinS32 t b _ _ _ => ldst t && vaddr b
  | .atomMinZ32 t b _ _ _ => ldst t && vaddr b
  | .atomMaxS32 t b _ _ _ => ldst t && vaddr b
  | .atomMaxZ32 t b _ _ _ => ldst t && vaddr b
  | .atomAnd32 t b _ _ _ => ldst t && vaddr b
  | .atomOr32 t b _ _ _ => ldst t && vaddr b
  | .atomXor32 t b _ _ _ => ldst t && vaddr b
  | .atomSwap32 t b _ _ _ => ldst t && vaddr b
  | .atomCas32 t b _ _ _ => ldst64 t && vaddr b
  | .atomAdd64 t b _ _ _ => ldst64 t && vaddr b
  | .atomMinS64 t b _ _ _ => ldst64 t && vaddr b
  | .atomMinZ64 t b _ _ _ => ldst64 t && vaddr b
  | .atomMaxS64 t b _ _ _ => ldst64 t && vaddr b
  | .atomMaxZ64 t b _ _ _ => ldst64 t && vaddr b
  | .atomAnd64 t b _ _ _ => ldst64 t && vaddr b
  | .atomOr64 t b _ _ _ => ldst64 t && vaddr b
  | .atomXor64 t b _ _ _ => ldst64 t && vaddr b
  | .atomSwap64 t b _ _ _ => ldst64 t && vaddr b
  | .atomCas64 t b _ _ _ => cas64 t && vaddr b
  | .movi d _ => dst32 d
  | .movhi d _ => dstR d
  | .smovi d _ => sdst32 d
  | .smovhi d _ => sdst32 d
  | .wbase _ => true
  | .cbase _ => true
  | .bar _ _ => true
  | .rcv s _ => s.toNat ≤ 96
  | .bnz c _ => vname c
  | .bra _ => true
  | .bz c _ => vname c
  | .call c _ => vname c || c == 127
  | .jmpi c => vaddr c
  | .calli c => vaddr c
  | .ret c => vaddr c
  | .exit c => vname c || c == 127
  | .longLatencyComplete _ => true
  | .storeAcknowledge _ _ => true
  | .orderingPointAccess _ _ => true
  | .leaseRequest _ _ => true
  | .leaseRecall _ _ => true
  | .readHoldExpiry _ _ => true
  | .rds _ => true
  | .rdx _ => true
  | .fwd _ => true
  | .inv _ => true
  | .ack _ => true
  | .data _ => true
  | .grant _ => true
  | .binv _ => true
  | .wb _ => true
  | .pageWalk _ _ => true
  | .pageWalkTimeout _ _ _ => true
  | .frespResolve _ _ => true
  | .frespRefuse _ _ => true
  | .vldEqAtSlice _ _ => true
  | .vldLeAtSlice _ _ => true
  | .vstAtSlice _ _ => true
  | .versionWaitTimeout _ _ => true
  | .vldReturnRetry _ _ => true
  | .vfloorApply _ _ => true
  | .mwaitWake _ _ _ => true
  | .joinZero _ _ _ => true
  | .tagwaitSatisfied _ _ _ => true
  | .queueWordPerform _ _ _ => true
  | .ringSpaceResume _ _ _ => true
  | .monitorTimeout _ _ _ => true
  | .waveHaltStop _ _ => true
  | .handlerEntry _ => true
  | .groupRetire _ => true
  | .groupEnd _ => true
  | .engineEntryStart _ _ => true
  | .engineBeat _ _ _ _ => true
  | .engineCommandComplete _ _ _ => true
  | .xredElement _ _ _ => true
  | .reductionContribution _ _ _ => true
  | .reductionUnitTimeout _ _ _ => true
  | .followOnIssue _ => true
  | .mmaStart _ => true
  | .mmaCheck _ _ => true
  | .drainPortOperation _ _ => true
  | .binWindowExpiry _ _ => true
  | .binAdmit _ _ => true
  | .dispatchDecision _ => true
  | .coreContextPass _ _ => true
  | .spawnDeadlockEviction _ _ => true
  | .amsgDelivery _ => true
  | .stageGovernorTick _ => true
  | .stagePartialTake _ _ _ => true
  | .wridx _ _ _ _ => true
  | .queueDescriptorWrite _ _ _ => true
  | .mapperSlotFill _ => true
  | .queuePriorityAge _ _ => true
  | .idleQuantumExpiry _ _ => true
  | .launch _ _ => true
  | .jobCard _ _ => true
  | .pipeline _ _ => true
  | .waitOnWord _ _ => true
  | .signal _ _ => true
  | .pad _ _ => true
  | .launchTranslation _ _ => true
  | .regionArming _ _ => true
  | .launchComplete _ _ => true
  | .waitOnWordRecheck _ _ => true
  | .waitOnWordTimeout _ _ => true
  | .cardReady _ _ => true
  | .cardComplete _ _ => true
  | .pageClassCommand _ _ => true
  | .invalidationCommand _ _ => true
  | .regionDisarm _ _ => true
  | .heapGrant _ _ _ => true
  | .pageZero _ _ => true
  | .keyLoad _ _ => true
  | .keyErase _ _ => true
  | .contextRecordWrite _ _ _ => true
  | .preemptDrain _ _ => true
  | .preemptSave _ _ => true
  | .contextResume _ _ => true
  | .contextReset _ _ => true
  | .preemptDeadlineExpiry _ _ => true
  | .plateWatchdogExpiry _ => true
  | .platePortError _ => true
  | .thermalTrip _ => true
  | .plateDeclareLost _ => true
  | .plateResetReturn _ _ => true
  | .sliceRetireNow _ _ => true
  | .bucketHandover _ => true
  | .treeEnable _ _ _ => true
  | .fedBarrierArrival _ _ _ _ => true
  | .fedAnnounce _ _ => true
  | .controlRegisterWrite _ _ _ _ => true
  | .scrub _ _ _ => true
  | .uncorrectableError _ _ _ => true
  | .meshFlitRetry _ => true
  | .meshLinkDown _ _ _ => true
  | .d2dPacket _ _ _ => true
  | .linkRetrain _ _ => true
  | .linkDown _ _ => true
  | .crossDieTimeout _ => true
  | .hostBar4Read _ _ _ => true
  | .hostPostedWrite _ _ _ _ => true
  | .hostAtomicop _ _ _ _ _ _ => true
  | .hostCompletion _ _ => true
  | .fabricPacket _ _ => true
  | .wavelengthPark _ => true
  | .wavelengthRelock _ => true
  | .wavelengthCrcFail _ _ => true
  | .getStatus => true
  | .readPower _ => true
  | .readLog _ _ _ => true
  | .resetDie _ => true
  | .fetchCrashRecord _ => true
  | .enterDebugHalt _ => true
  | .leaveDebugHalt _ => true
  | .getVersion _ => true
  | .getCapabilities _ => true
  | .negotiateAlgorithms _ => true
  | .getDigests _ => true
  | .getCertificate _ => true
  | .challenge _ _ => true
  | .getMeasurements _ _ => true
  | .moduleReset => true
  | .imageCheck _ _ _ _ _ => true
  | .memoryTraining _ _ => true
  | .plateSelfTest _ _ => true
  | .regulatorSample _ _ => true
  | .watchRecord _ _ _ => true
  | .fhead _ _ => true
  | .faultDeliveryEnable _ _ => true
  | .fedBarrierEn _ _ _ => true

end Sys2Proof
end

