-- ==== Sys2Proof/Decode.lean ====
section
/-! DEFINITION. The decoder, total on any word and rejecting by `none`, and the encoder, both written
from the encoding tables of the spec (R26, R29, R36 to R42 and the instruction chapters). A word is a
number below 2^32; bit n of the word is bit n of the number (R4).
`noncomputable` stands here only because Lean's compiler has no code for an inductive with this many
constructors; the kernel evaluates every definition. -/

namespace Sys2Proof

/-- Kind tag (R25). -/
def kindOf (n : Nat) : Kind :=
  match n % 4 with
  | 0 => .vec
  | 1 => .sca
  | 2 => .cst
  | _ => .lit
/-- ORD code (R26). -/
def ordOf (n : Nat) : Ord :=
  match n % 4 with
  | 0 => .plain
  | 1 => .acq
  | 2 => .rel
  | _ => .acqrel
/-- Scope code (R3). -/
def scopeOf (n : Nat) : Scope :=
  match n % 8 with
  | 0 => .wave
  | 1 => .group
  | 2 => .cluster
  | 3 => .plate
  | 4 => .die
  | 5 => .pkg
  | 6 => .sys
  | _ => .host
/-- Hint code (R26). -/
def hintOf (n : Nat) : Hint :=
  match n % 4 with
  | 0 => .normal
  | 1 => .evictFirst
  | 2 => .evictLast
  | _ => .stream
/-- Type code in MOD (R102). -/
def ftyOf (n : Nat) : FTy :=
  match n % 4 with
  | 0 => .f32
  | 1 => .f64
  | 2 => .f16
  | _ => .bf16
/-- Rounding code in MOD (R106). -/
def rmOf (n : Nat) : Rm :=
  match n % 4 with
  | 0 => .cur
  | 1 => .rz
  | 2 => .ru
  | _ => .rd
/-- A one-bit field. -/
def boolOf (n : Nat) : Bool := n % 2 == 1
/-- A source from the number whose low bits are its name and the one whose low bits are its tag. -/
def srcOf (name tag : Nat) : Src := ⟨kindOf tag, BitVec.ofNat 7 name⟩

/-- Tag of a kind (R25). -/
def Kind.code : Kind → Nat
  | .vec => 0
  | .sca => 1
  | .cst => 2
  | .lit => 3
/-- Code of an ORD (R26). -/
def Ord.code : Ord → Nat
  | .plain => 0
  | .acq => 1
  | .rel => 2
  | .acqrel => 3
/-- Code of a scope (R3). -/
def Scope.code : Scope → Nat
  | .wave => 0
  | .group => 1
  | .cluster => 2
  | .plate => 3
  | .die => 4
  | .pkg => 5
  | .sys => 6
  | .host => 7
/-- Code of a hint (R26). -/
def Hint.code : Hint → Nat
  | .normal => 0
  | .evictFirst => 1
  | .evictLast => 2
  | .stream => 3
/-- Code of a type (R102). -/
def FTy.code : FTy → Nat
  | .f32 => 0
  | .f64 => 1
  | .f16 => 2
  | .bf16 => 3
/-- Code of a rounding modifier (R106). -/
def Rm.code : Rm → Nat
  | .cur => 0
  | .rz => 1
  | .ru => 2
  | .rd => 3
/-- A one-bit field as a number. -/
def boolCode (b : Bool) : Nat := if b then 1 else 0

/-- Class 0x4E by its function code (R40). -/
def decode4E (w : Nat) : Option Instr :=
  match w / 16 % 128 with
  | 0 => if w / 4 % 4 = 0 then some (.mov (BitVec.ofNat 7 (w / 262144)) (srcOf (w / 2048) (w / 1))) else none
  | 1 => if w / 4 % 4 = 0 then some (.mov64 (BitVec.ofNat 7 (w / 262144)) (srcOf (w / 2048) (w / 1))) else none
  | 2 => if w / 4 % 4 = 0 then some (.notB (BitVec.ofNat 7 (w / 262144)) (srcOf (w / 2048) (w / 1))) else none
  | 3 => if w / 8 % 2 = 0 then some (.ineg (BitVec.ofNat 7 (w / 262144)) (srcOf (w / 2048) (w / 1)) (boolOf (w / 4))) else none
  | 4 => if w / 8 % 2 = 0 then some (.iabsS32 (BitVec.ofNat 7 (w / 262144)) (srcOf (w / 2048) (w / 1)) (boolOf (w / 4))) else none
  | 5 => if w / 4 % 4 = 0 then some (.popc (BitVec.ofNat 7 (w / 262144)) (srcOf (w / 2048) (w / 1))) else none
  | 6 => if w / 4 % 4 = 0 then some (.clz (BitVec.ofNat 7 (w / 262144)) (srcOf (w / 2048) (w / 1))) else none
  | 7 => if w / 4 % 4 = 0 then some (.ctz (BitVec.ofNat 7 (w / 262144)) (srcOf (w / 2048) (w / 1))) else none
  | 8 => if w / 4 % 4 = 0 then some (.brev (BitVec.ofNat 7 (w / 262144)) (srcOf (w / 2048) (w / 1))) else none
  | 9 => if w / 4 % 4 = 0 then some (.bswap (BitVec.ofNat 7 (w / 262144)) (srcOf (w / 2048) (w / 1))) else none
  | 10 => if w / 4 % 4 = 0 then some (.sextS8 (BitVec.ofNat 7 (w / 262144)) (srcOf (w / 2048) (w / 1))) else none
  | 11 => if w / 4 % 4 = 0 then some (.sextS16 (BitVec.ofNat 7 (w / 262144)) (srcOf (w / 2048) (w / 1))) else none
  | 12 => if w / 4 % 4 = 0 then some (.zextZ8 (BitVec.ofNat 7 (w / 262144)) (srcOf (w / 2048) (w / 1))) else none
  | 13 => if w / 4 % 4 = 0 then some (.zextZ16 (BitVec.ofNat 7 (w / 262144)) (srcOf (w / 2048) (w / 1))) else none
  | 32 => some (.fneg (BitVec.ofNat 7 (w / 262144)) (srcOf (w / 2048) (w / 1)) (ftyOf (w / 4)))
  | 33 => some (.fabs (BitVec.ofNat 7 (w / 262144)) (srcOf (w / 2048) (w / 1)) (ftyOf (w / 4)))
  | 34 => some (.fsqrt (BitVec.ofNat 7 (w / 262144)) (srcOf (w / 2048) (w / 1)) (ftyOf (w / 4)))
  | 35 => some (.frcp (BitVec.ofNat 7 (w / 262144)) (srcOf (w / 2048) (w / 1)) (ftyOf (w / 4)))
  | 36 => some (.frsqrt (BitVec.ofNat 7 (w / 262144)) (srcOf (w / 2048) (w / 1)) (ftyOf (w / 4)))
  | 37 => some (.fexp2 (BitVec.ofNat 7 (w / 262144)) (srcOf (w / 2048) (w / 1)) (ftyOf (w / 4)))
  | 38 => some (.flog2 (BitVec.ofNat 7 (w / 262144)) (srcOf (w / 2048) (w / 1)) (ftyOf (w / 4)))
  | 39 => some (.fsinpi (BitVec.ofNat 7 (w / 262144)) (srcOf (w / 2048) (w / 1)) (ftyOf (w / 4)))
  | 40 => some (.fcospi (BitVec.ofNat 7 (w / 262144)) (srcOf (w / 2048) (w / 1)) (ftyOf (w / 4)))
  | 41 => some (.ftanh (BitVec.ofNat 7 (w / 262144)) (srcOf (w / 2048) (w / 1)) (ftyOf (w / 4)))
  | 42 => some (.frint (BitVec.ofNat 7 (w / 262144)) (srcOf (w / 2048) (w / 1)) (ftyOf (w / 4)))
  | 43 => some (.ftrunc (BitVec.ofNat 7 (w / 262144)) (srcOf (w / 2048) (w / 1)) (ftyOf (w / 4)))
  | 44 => some (.ffloor (BitVec.ofNat 7 (w / 262144)) (srcOf (w / 2048) (w / 1)) (ftyOf (w / 4)))
  | 45 => some (.fceil (BitVec.ofNat 7 (w / 262144)) (srcOf (w / 2048) (w / 1)) (ftyOf (w / 4)))
  | _ => none

/-- Class 0x4F by its function code (R40). -/
def decode4F (w : Nat) : Option Instr :=
  match w / 16 % 128 with
  | 0 => if w / 4 % 4 = 0 then some (.smov (BitVec.ofNat 7 (w / 262144)) (srcOf (w / 2048) (w / 1))) else none
  | 1 => if w / 4 % 4 = 0 then some (.smov64 (BitVec.ofNat 7 (w / 262144)) (srcOf (w / 2048) (w / 1))) else none
  | 2 => if w / 4 % 4 = 0 then some (.snot (BitVec.ofNat 7 (w / 262144)) (srcOf (w / 2048) (w / 1))) else none
  | 3 => if w / 8 % 2 = 0 then some (.sneg (BitVec.ofNat 7 (w / 262144)) (srcOf (w / 2048) (w / 1)) (boolOf (w / 4))) else none
  | 4 => if w / 8 % 2 = 0 then some (.sabsS32 (BitVec.ofNat 7 (w / 262144)) (srcOf (w / 2048) (w / 1)) (boolOf (w / 4))) else none
  | 5 => if w / 4 % 4 = 0 then some (.spopc (BitVec.ofNat 7 (w / 262144)) (srcOf (w / 2048) (w / 1))) else none
  | 6 => if w / 4 % 4 = 0 then some (.sclz (BitVec.ofNat 7 (w / 262144)) (srcOf (w / 2048) (w / 1))) else none
  | 7 => if w / 4 % 4 = 0 then some (.sctz (BitVec.ofNat 7 (w / 262144)) (srcOf (w / 2048) (w / 1))) else none
  | 8 => if w / 4 % 4 = 0 then some (.sbrev (BitVec.ofNat 7 (w / 262144)) (srcOf (w / 2048) (w / 1))) else none
  | 9 => if w / 4 % 4 = 0 then some (.sbswap (BitVec.ofNat 7 (w / 262144)) (srcOf (w / 2048) (w / 1))) else none
  | 10 => if w / 4 % 4 = 0 then some (.ssextS8 (BitVec.ofNat 7 (w / 262144)) (srcOf (w / 2048) (w / 1))) else none
  | 11 => if w / 4 % 4 = 0 then some (.ssextS16 (BitVec.ofNat 7 (w / 262144)) (srcOf (w / 2048) (w / 1))) else none
  | 12 => if w / 4 % 4 = 0 then some (.szextZ8 (BitVec.ofNat 7 (w / 262144)) (srcOf (w / 2048) (w / 1))) else none
  | 13 => if w / 4 % 4 = 0 then some (.szextZ16 (BitVec.ofNat 7 (w / 262144)) (srcOf (w / 2048) (w / 1))) else none
  | _ => none

/-- Class 0x50 by its function code (R40). -/
def decode50 (w : Nat) : Option Instr :=
  match w / 16 % 128 with
  | 0 => if w / 4 % 4 = 0 then some (.cvtF64F32 (BitVec.ofNat 7 (w / 262144)) (srcOf (w / 2048) (w / 1))) else none
  | 1 => some (.cvtF32F64 (BitVec.ofNat 7 (w / 262144)) (srcOf (w / 2048) (w / 1)) (rmOf (w / 4)))
  | 2 => if w / 4 % 4 = 0 then some (.cvtF32F16 (BitVec.ofNat 7 (w / 262144)) (srcOf (w / 2048) (w / 1))) else none
  | 3 => if w / 4 % 4 = 0 then some (.cvtF32Bf16 (BitVec.ofNat 7 (w / 262144)) (srcOf (w / 2048) (w / 1))) else none
  | 4 => some (.cvtF16F32 (BitVec.ofNat 7 (w / 262144)) (srcOf (w / 2048) (w / 1)) (rmOf (w / 4)))
  | 5 => some (.cvtBf16F32 (BitVec.ofNat 7 (w / 262144)) (srcOf (w / 2048) (w / 1)) (rmOf (w / 4)))
  | 6 => if w / 4 % 4 = 0 then some (.cvtF32E4m3Lo (BitVec.ofNat 7 (w / 262144)) (srcOf (w / 2048) (w / 1))) else none
  | 7 => if w / 4 % 4 = 0 then some (.cvtF32E4m3Hi (BitVec.ofNat 7 (w / 262144)) (srcOf (w / 2048) (w / 1))) else none
  | 8 => if w / 4 % 4 = 0 then some (.cvtF32E5m2Lo (BitVec.ofNat 7 (w / 262144)) (srcOf (w / 2048) (w / 1))) else none
  | 9 => if w / 4 % 4 = 0 then some (.cvtF32E5m2Hi (BitVec.ofNat 7 (w / 262144)) (srcOf (w / 2048) (w / 1))) else none
  | 10 => some (.cvtE4m3F32Lo (BitVec.ofNat 7 (w / 262144)) (srcOf (w / 2048) (w / 1)) (rmOf (w / 4)))
  | 11 => some (.cvtE4m3F32Hi (BitVec.ofNat 7 (w / 262144)) (srcOf (w / 2048) (w / 1)) (rmOf (w / 4)))
  | 12 => some (.cvtE4m3F32NsatLo (BitVec.ofNat 7 (w / 262144)) (srcOf (w / 2048) (w / 1)) (rmOf (w / 4)))
  | 13 => some (.cvtE4m3F32NsatHi (BitVec.ofNat 7 (w / 262144)) (srcOf (w / 2048) (w / 1)) (rmOf (w / 4)))
  | 14 => some (.cvtE5m2F32Lo (BitVec.ofNat 7 (w / 262144)) (srcOf (w / 2048) (w / 1)) (rmOf (w / 4)))
  | 15 => some (.cvtE5m2F32Hi (BitVec.ofNat 7 (w / 262144)) (srcOf (w / 2048) (w / 1)) (rmOf (w / 4)))
  | 16 => if w / 4 % 4 = 0 then some (.cvtF32E5m3 (BitVec.ofNat 7 (w / 262144)) (srcOf (w / 2048) (w / 1))) else none
  | 17 => if w / 4 % 4 = 0 then some (.cvtE5m3F32 (BitVec.ofNat 7 (w / 262144)) (srcOf (w / 2048) (w / 1))) else none
  | 18 => some (.cvtS32F32 (BitVec.ofNat 7 (w / 262144)) (srcOf (w / 2048) (w / 1)) (rmOf (w / 4)))
  | 19 => some (.cvtZ32F32 (BitVec.ofNat 7 (w / 262144)) (srcOf (w / 2048) (w / 1)) (rmOf (w / 4)))
  | 20 => some (.cvtS64F32 (BitVec.ofNat 7 (w / 262144)) (srcOf (w / 2048) (w / 1)) (rmOf (w / 4)))
  | 21 => some (.cvtZ64F32 (BitVec.ofNat 7 (w / 262144)) (srcOf (w / 2048) (w / 1)) (rmOf (w / 4)))
  | 22 => some (.cvtS32F64 (BitVec.ofNat 7 (w / 262144)) (srcOf (w / 2048) (w / 1)) (rmOf (w / 4)))
  | 23 => some (.cvtZ32F64 (BitVec.ofNat 7 (w / 262144)) (srcOf (w / 2048) (w / 1)) (rmOf (w / 4)))
  | 24 => some (.cvtS64F64 (BitVec.ofNat 7 (w / 262144)) (srcOf (w / 2048) (w / 1)) (rmOf (w / 4)))
  | 25 => some (.cvtZ64F64 (BitVec.ofNat 7 (w / 262144)) (srcOf (w / 2048) (w / 1)) (rmOf (w / 4)))
  | 26 => some (.cvtF32S32 (BitVec.ofNat 7 (w / 262144)) (srcOf (w / 2048) (w / 1)) (rmOf (w / 4)))
  | 27 => some (.cvtF32Z32 (BitVec.ofNat 7 (w / 262144)) (srcOf (w / 2048) (w / 1)) (rmOf (w / 4)))
  | 28 => some (.cvtF32S64 (BitVec.ofNat 7 (w / 262144)) (srcOf (w / 2048) (w / 1)) (rmOf (w / 4)))
  | 29 => some (.cvtF32Z64 (BitVec.ofNat 7 (w / 262144)) (srcOf (w / 2048) (w / 1)) (rmOf (w / 4)))
  | 30 => if w / 4 % 4 = 0 then some (.cvtF64S32 (BitVec.ofNat 7 (w / 262144)) (srcOf (w / 2048) (w / 1))) else none
  | 31 => if w / 4 % 4 = 0 then some (.cvtF64Z32 (BitVec.ofNat 7 (w / 262144)) (srcOf (w / 2048) (w / 1))) else none
  | 32 => some (.cvtF64S64 (BitVec.ofNat 7 (w / 262144)) (srcOf (w / 2048) (w / 1)) (rmOf (w / 4)))
  | 33 => some (.cvtF64Z64 (BitVec.ofNat 7 (w / 262144)) (srcOf (w / 2048) (w / 1)) (rmOf (w / 4)))
  | 34 => if w / 4 % 4 = 0 then some (.qpack (BitVec.ofNat 7 (w / 262144)) (srcOf (w / 2048) (w / 1))) else none
  | 35 => if w / 4 % 4 = 0 then some (.qunpk (BitVec.ofNat 7 (w / 262144)) (srcOf (w / 2048) (w / 1))) else none
  | 64 => some (.fcmpEq (BitVec.ofNat 7 (w / 262144)) (srcOf (w / 2048) (w / 1)) (ftyOf (w / 4)))
  | 65 => some (.fcmpNe (BitVec.ofNat 7 (w / 262144)) (srcOf (w / 2048) (w / 1)) (ftyOf (w / 4)))
  | 66 => some (.fcmpLt (BitVec.ofNat 7 (w / 262144)) (srcOf (w / 2048) (w / 1)) (ftyOf (w / 4)))
  | 67 => some (.fcmpLe (BitVec.ofNat 7 (w / 262144)) (srcOf (w / 2048) (w / 1)) (ftyOf (w / 4)))
  | 68 => some (.fcmpUn (BitVec.ofNat 7 (w / 262144)) (srcOf (w / 2048) (w / 1)) (ftyOf (w / 4)))
  | 72 => some (.fclass (BitVec.ofNat 7 (w / 262144)) (srcOf (w / 2048) (w / 1)) (ftyOf (w / 4)))
  | _ => none

/-- Class 0x51 by its function code (R40). -/
def decode51 (w : Nat) : Option Instr :=
  match w / 16 % 128 with
  | 0 => if w / 1 % 16 = 0 then some (.xall (BitVec.ofNat 7 (w / 262144)) (BitVec.ofNat 7 (w / 2048))) else none
  | 1 => if w / 1 % 16 = 0 then some (.xany (BitVec.ofNat 7 (w / 262144)) (BitVec.ofNat 7 (w / 2048))) else none
  | 2 => if w / 1 % 16 = 0 then some (.xeq (BitVec.ofNat 7 (w / 262144)) (BitVec.ofNat 7 (w / 2048))) else none
  | 3 => if w / 1 % 16 = 0 then some (.xbits (BitVec.ofNat 7 (w / 262144)) (BitVec.ofNat 7 (w / 2048))) else none
  | 4 => if w / 1 % 16 = 0 then some (.xget (BitVec.ofNat 7 (w / 262144)) (BitVec.ofNat 7 (w / 2048))) else none
  | 5 => if w / 1 % 16 = 0 then some (.xspread (BitVec.ofNat 7 (w / 262144)) (BitVec.ofNat 7 (w / 2048))) else none
  | 8 => if w / 1 % 16 = 0 then some (.xpermAbs (BitVec.ofNat 7 (w / 262144)) (BitVec.ofNat 7 (w / 2048))) else none
  | 9 => if w / 1 % 4 = 0 ∧ w / 8 % 2 = 0 then some (.xpermLo (BitVec.ofNat 7 (w / 262144)) (BitVec.ofNat 7 (w / 2048)) (boolOf (w / 4))) else none
  | 10 => if w / 1 % 4 = 0 ∧ w / 8 % 2 = 0 then some (.xpermHi (BitVec.ofNat 7 (w / 262144)) (BitVec.ofNat 7 (w / 2048)) (boolOf (w / 4))) else none
  | 11 => if w / 1 % 16 = 0 then some (.xpermFlip (BitVec.ofNat 7 (w / 262144)) (BitVec.ofNat 7 (w / 2048))) else none
  | 12 => if w / 1 % 16 = 0 then some (.xsame (BitVec.ofNat 7 (w / 262144)) (BitVec.ofNat 7 (w / 2048))) else none
  | 16 => if w / 1 % 4 = 0 ∧ w / 8 % 2 = 0 then some (.scanAdd (BitVec.ofNat 7 (w / 262144)) (BitVec.ofNat 7 (w / 2048)) (boolOf (w / 4))) else none
  | 17 => if w / 1 % 4 = 0 ∧ w / 8 % 2 = 0 then some (.scanMinS32 (BitVec.ofNat 7 (w / 262144)) (BitVec.ofNat 7 (w / 2048)) (boolOf (w / 4))) else none
  | 18 => if w / 1 % 4 = 0 ∧ w / 8 % 2 = 0 then some (.scanMinZ32 (BitVec.ofNat 7 (w / 262144)) (BitVec.ofNat 7 (w / 2048)) (boolOf (w / 4))) else none
  | 19 => if w / 1 % 4 = 0 ∧ w / 8 % 2 = 0 then some (.scanMaxS32 (BitVec.ofNat 7 (w / 262144)) (BitVec.ofNat 7 (w / 2048)) (boolOf (w / 4))) else none
  | 20 => if w / 1 % 4 = 0 ∧ w / 8 % 2 = 0 then some (.scanMaxZ32 (BitVec.ofNat 7 (w / 262144)) (BitVec.ofNat 7 (w / 2048)) (boolOf (w / 4))) else none
  | 21 => if w / 1 % 4 = 0 ∧ w / 8 % 2 = 0 then some (.scanAnd (BitVec.ofNat 7 (w / 262144)) (BitVec.ofNat 7 (w / 2048)) (boolOf (w / 4))) else none
  | 22 => if w / 1 % 4 = 0 ∧ w / 8 % 2 = 0 then some (.scanOr (BitVec.ofNat 7 (w / 262144)) (BitVec.ofNat 7 (w / 2048)) (boolOf (w / 4))) else none
  | 23 => if w / 1 % 4 = 0 ∧ w / 8 % 2 = 0 then some (.scanXor (BitVec.ofNat 7 (w / 262144)) (BitVec.ofNat 7 (w / 2048)) (boolOf (w / 4))) else none
  | 24 => if w / 1 % 4 = 0 ∧ w / 8 % 2 = 0 then some (.scanFaddF32 (BitVec.ofNat 7 (w / 262144)) (BitVec.ofNat 7 (w / 2048)) (boolOf (w / 4))) else none
  | 25 => if w / 1 % 4 = 0 ∧ w / 8 % 2 = 0 then some (.scanFminF32 (BitVec.ofNat 7 (w / 262144)) (BitVec.ofNat 7 (w / 2048)) (boolOf (w / 4))) else none
  | 26 => if w / 1 % 4 = 0 ∧ w / 8 % 2 = 0 then some (.scanFmaxF32 (BitVec.ofNat 7 (w / 262144)) (BitVec.ofNat 7 (w / 2048)) (boolOf (w / 4))) else none
  | 32 => if w / 1 % 16 = 0 then some (.redAdd (BitVec.ofNat 7 (w / 262144)) (BitVec.ofNat 7 (w / 2048))) else none
  | 33 => if w / 1 % 16 = 0 then some (.redMinS32 (BitVec.ofNat 7 (w / 262144)) (BitVec.ofNat 7 (w / 2048))) else none
  | 34 => if w / 1 % 16 = 0 then some (.redMinZ32 (BitVec.ofNat 7 (w / 262144)) (BitVec.ofNat 7 (w / 2048))) else none
  | 35 => if w / 1 % 16 = 0 then some (.redMaxS32 (BitVec.ofNat 7 (w / 262144)) (BitVec.ofNat 7 (w / 2048))) else none
  | 36 => if w / 1 % 16 = 0 then some (.redMaxZ32 (BitVec.ofNat 7 (w / 262144)) (BitVec.ofNat 7 (w / 2048))) else none
  | 37 => if w / 1 % 16 = 0 then some (.redAnd (BitVec.ofNat 7 (w / 262144)) (BitVec.ofNat 7 (w / 2048))) else none
  | 38 => if w / 1 % 16 = 0 then some (.redOr (BitVec.ofNat 7 (w / 262144)) (BitVec.ofNat 7 (w / 2048))) else none
  | 39 => if w / 1 % 16 = 0 then some (.redXor (BitVec.ofNat 7 (w / 262144)) (BitVec.ofNat 7 (w / 2048))) else none
  | 40 => if w / 1 % 16 = 0 then some (.redFaddF32 (BitVec.ofNat 7 (w / 262144)) (BitVec.ofNat 7 (w / 2048))) else none
  | 41 => if w / 1 % 16 = 0 then some (.redFminF32 (BitVec.ofNat 7 (w / 262144)) (BitVec.ofNat 7 (w / 2048))) else none
  | 42 => if w / 1 % 16 = 0 then some (.redFmaxF32 (BitVec.ofNat 7 (w / 262144)) (BitVec.ofNat 7 (w / 2048))) else none
  | _ => none

/-- Class 0x52 by its function code (R40). -/
def decode52 (w : Nat) : Option Instr :=
  match w / 16 % 128 with
  | 0 => if w / 4 % 4 = 0 then some (.spawn (BitVec.ofNat 7 (w / 262144)) (srcOf (w / 2048) (w / 1))) else none
  | 1 => if w / 4 % 4 = 0 then some (.spawnTry (BitVec.ofNat 7 (w / 262144)) (srcOf (w / 2048) (w / 1))) else none
  | 2 => if w / 4 % 4 = 0 ∧ w / 262144 % 128 = 0 then some (.join (srcOf (w / 2048) (w / 1))) else none
  | 8 => if w / 4 % 4 = 0 ∧ w / 262144 % 128 = 0 then some (.mon (srcOf (w / 2048) (w / 1))) else none
  | 9 => if w / 1 % 16 = 0 ∧ w / 2048 % 16384 = 0 then some .mwait else none
  | 16 => if w / 4 % 4 = 0 ∧ w / 2097152 % 16 = 0 then some (.qinit (BitVec.ofNat 3 (w / 262144)) (srcOf (w / 2048) (w / 1))) else none
  | 17 => if w / 4 % 4 = 0 ∧ w / 2097152 % 16 = 0 then some (.qpush (BitVec.ofNat 3 (w / 262144)) (srcOf (w / 2048) (w / 1))) else none
  | 18 => if w / 4 % 4 = 0 then some (.qpop (BitVec.ofNat 7 (w / 262144)) (srcOf (w / 2048) (w / 1))) else none
  | 19 => if w / 4 % 4 = 0 then some (.qtry (BitVec.ofNat 7 (w / 262144)) (srcOf (w / 2048) (w / 1))) else none
  | 20 => if w / 4 % 4 = 0 ∧ w / 2097152 % 16 = 0 then some (.allow (BitVec.ofNat 3 (w / 262144)) (srcOf (w / 2048) (w / 1))) else none
  | 24 => if w / 4 % 4 = 0 then some (.stagepush (BitVec.ofNat 7 (w / 262144)) (srcOf (w / 2048) (w / 1))) else none
  | 25 => if w / 4 % 4 = 0 then some (.amsg (BitVec.ofNat 7 (w / 262144)) (srcOf (w / 2048) (w / 1))) else none
  | _ => none

/-- Class 0x53 by its function code (R40). -/
def decode53 (w : Nat) : Option Instr :=
  match w / 16 % 128 with
  | 0 => if w / 1 % 16 = 0 ∧ w / 16777216 % 2 = 0 then some (.mma (BitVec.ofNat 4 (w / 1048576)) (BitVec.ofNat 2 (w / 262144)) (BitVec.ofNat 3 (w / 32768)) (BitVec.ofNat 4 (w / 2048))) else none
  | 1 => if w / 1 % 16 = 0 ∧ w / 2048 % 128 = 0 ∧ w / 1048576 % 32 = 0 then some (.mzero (BitVec.ofNat 2 (w / 262144))) else none
  | 16 => if w / 4 % 4 = 0 ∧ w / 4194304 % 8 = 0 then some (.obres (BitVec.ofNat 4 (w / 262144)) (srcOf (w / 2048) (w / 1))) else none
  | 17 => if w / 1 % 16 = 0 ∧ w / 2048 % 128 = 0 ∧ w / 4194304 % 8 = 0 then some (.obrel (BitVec.ofNat 4 (w / 262144))) else none
  | 18 => if w / 4 % 4 = 0 ∧ w / 4194304 % 8 = 0 then some (.obimp (BitVec.ofNat 4 (w / 262144)) (srcOf (w / 2048) (w / 1))) else none
  | 32 => if w / 1 % 4 = 1 ∧ w / 262144 % 128 = 0 then some (.mdrainF32Sp (BitVec.ofNat 7 (w / 2048)) (boolOf (w / 8)) (boolOf (w / 4))) else none
  | 33 => if w / 1 % 4 = 1 ∧ w / 262144 % 128 = 0 then some (.mdrainBf16Sp (BitVec.ofNat 7 (w / 2048)) (boolOf (w / 8)) (boolOf (w / 4))) else none
  | 34 => if w / 1 % 4 = 1 ∧ w / 262144 % 128 = 0 then some (.mdrainE4m3Sp (BitVec.ofNat 7 (w / 2048)) (boolOf (w / 8)) (boolOf (w / 4))) else none
  | 35 => if w / 1 % 4 = 1 ∧ w / 262144 % 128 = 0 then some (.mdrainE5m2Sp (BitVec.ofNat 7 (w / 2048)) (boolOf (w / 8)) (boolOf (w / 4))) else none
  | 36 => if w / 1 % 4 = 1 then some (.mdrainF32 (BitVec.ofNat 7 (w / 262144)) (BitVec.ofNat 7 (w / 2048)) (boolOf (w / 8)) (boolOf (w / 4))) else none
  | 37 => if w / 1 % 4 = 1 then some (.mdrainBf16 (BitVec.ofNat 7 (w / 262144)) (BitVec.ofNat 7 (w / 2048)) (boolOf (w / 8)) (boolOf (w / 4))) else none
  | 48 => if w / 1 % 16 = 0 ∧ w / 2048 % 16384 = 0 then some .mtake else none
  | 49 => if w / 1 % 16 = 0 ∧ w / 2048 % 16384 = 0 then some .mpass else none
  | _ => none

/-- Class 0x54 by its function code (R40). -/
def decode54 (w : Nat) : Option Instr :=
  match w / 16 % 128 with
  | 0 => if w / 1 % 2 = 1 ∧ w / 4 % 4 = 0 then some (.cpy (BitVec.ofNat 7 (w / 262144)) (BitVec.ofNat 7 (w / 2048)) (boolOf (w / 2))) else none
  | 1 => if w / 1 % 2 = 1 ∧ w / 4 % 4 = 0 then some (.cpym (BitVec.ofNat 7 (w / 262144)) (BitVec.ofNat 7 (w / 2048)) (boolOf (w / 2))) else none
  | 2 => if w / 1 % 2 = 1 ∧ w / 4 % 4 = 0 then some (.gath (BitVec.ofNat 7 (w / 262144)) (BitVec.ofNat 7 (w / 2048)) (boolOf (w / 2))) else none
  | 3 => if w / 1 % 2 = 1 ∧ w / 4 % 4 = 0 then some (.xred (BitVec.ofNat 7 (w / 262144)) (BitVec.ofNat 7 (w / 2048)) (boolOf (w / 2))) else none
  | 8 => if w / 4 % 4 = 0 ∧ w / 262144 % 128 = 0 then some (.tagwaitAny (srcOf (w / 2048) (w / 1))) else none
  | 9 => if w / 4 % 4 = 0 ∧ w / 262144 % 128 = 0 then some (.tagwaitAll (srcOf (w / 2048) (w / 1))) else none
  | 10 => if w / 4 % 4 = 0 then some (.tagff (BitVec.ofNat 7 (w / 262144)) (srcOf (w / 2048) (w / 1))) else none
  | 64 => if w / 1 % 4 = 0 ∧ w / 2048 % 16384 = 0 then some (.fence (scopeOf (w / 16)) (ordOf (w / 4))) else none
  | 65 => if w / 1 % 4 = 0 ∧ w / 2048 % 16384 = 0 then some (.fence (scopeOf (w / 16)) (ordOf (w / 4))) else none
  | 66 => if w / 1 % 4 = 0 ∧ w / 2048 % 16384 = 0 then some (.fence (scopeOf (w / 16)) (ordOf (w / 4))) else none
  | 67 => if w / 1 % 4 = 0 ∧ w / 2048 % 16384 = 0 then some (.fence (scopeOf (w / 16)) (ordOf (w / 4))) else none
  | 68 => if w / 1 % 4 = 0 ∧ w / 2048 % 16384 = 0 then some (.fence (scopeOf (w / 16)) (ordOf (w / 4))) else none
  | 69 => if w / 1 % 4 = 0 ∧ w / 2048 % 16384 = 0 then some (.fence (scopeOf (w / 16)) (ordOf (w / 4))) else none
  | 70 => if w / 1 % 4 = 0 ∧ w / 2048 % 16384 = 0 then some (.fence (scopeOf (w / 16)) (ordOf (w / 4))) else none
  | 71 => if w / 1 % 4 = 0 ∧ w / 2048 % 16384 = 0 then some (.fence (scopeOf (w / 16)) (ordOf (w / 4))) else none
  | 72 => if w / 1 % 16 = 0 ∧ w / 65536 % 4 = 0 ∧ w / 8388608 % 4 = 0 then some (.fencex (BitVec.ofNat 5 (w / 262144)) (BitVec.ofNat 5 (w / 2048)) (scopeOf (w / 16))) else none
  | 73 => if w / 1 % 16 = 0 ∧ w / 65536 % 4 = 0 ∧ w / 8388608 % 4 = 0 then some (.fencex (BitVec.ofNat 5 (w / 262144)) (BitVec.ofNat 5 (w / 2048)) (scopeOf (w / 16))) else none
  | 74 => if w / 1 % 16 = 0 ∧ w / 65536 % 4 = 0 ∧ w / 8388608 % 4 = 0 then some (.fencex (BitVec.ofNat 5 (w / 262144)) (BitVec.ofNat 5 (w / 2048)) (scopeOf (w / 16))) else none
  | 75 => if w / 1 % 16 = 0 ∧ w / 65536 % 4 = 0 ∧ w / 8388608 % 4 = 0 then some (.fencex (BitVec.ofNat 5 (w / 262144)) (BitVec.ofNat 5 (w / 2048)) (scopeOf (w / 16))) else none
  | 76 => if w / 1 % 16 = 0 ∧ w / 65536 % 4 = 0 ∧ w / 8388608 % 4 = 0 then some (.fencex (BitVec.ofNat 5 (w / 262144)) (BitVec.ofNat 5 (w / 2048)) (scopeOf (w / 16))) else none
  | 77 => if w / 1 % 16 = 0 ∧ w / 65536 % 4 = 0 ∧ w / 8388608 % 4 = 0 then some (.fencex (BitVec.ofNat 5 (w / 262144)) (BitVec.ofNat 5 (w / 2048)) (scopeOf (w / 16))) else none
  | 78 => if w / 1 % 16 = 0 ∧ w / 65536 % 4 = 0 ∧ w / 8388608 % 4 = 0 then some (.fencex (BitVec.ofNat 5 (w / 262144)) (BitVec.ofNat 5 (w / 2048)) (scopeOf (w / 16))) else none
  | 79 => if w / 1 % 16 = 0 ∧ w / 65536 % 4 = 0 ∧ w / 8388608 % 4 = 0 then some (.fencex (BitVec.ofNat 5 (w / 262144)) (BitVec.ofNat 5 (w / 2048)) (scopeOf (w / 16))) else none
  | 80 => if w / 2 % 2 = 0 ∧ w / 262144 % 128 = 0 then some (.prefL1 (BitVec.ofNat 7 (w / 2048)) (hintOf (w / 4)) (boolOf (w / 1))) else none
  | 81 => if w / 2 % 2 = 0 ∧ w / 262144 % 128 = 0 then some (.prefLlc (BitVec.ofNat 7 (w / 2048)) (hintOf (w / 4)) (boolOf (w / 1))) else none
  | 82 => if w / 2 % 8 = 0 ∧ w / 262144 % 128 = 0 then some (.prefDemote (BitVec.ofNat 7 (w / 2048)) (boolOf (w / 1))) else none
  | 88 => if w / 4 % 4 = 0 then some (.cld (BitVec.ofNat 7 (w / 262144)) (srcOf (w / 2048) (w / 1))) else none
  | _ => none

/-- Class 0x55 by its function code (R40). -/
def decode55 (w : Nat) : Option Instr :=
  match w / 16 % 128 with
  | 0 => if w / 4 % 4 = 0 ∧ w / 262144 % 128 = 0 then some (.trap (srcOf (w / 2048) (w / 1))) else none
  | 1 => if w / 1 % 16 = 0 ∧ w / 2048 % 16384 = 0 then some .bkpt else none
  | 2 => if w / 1 % 16 = 0 ∧ w / 2048 % 16384 = 0 then some .eret else if w / 1 % 16 = 4 ∧ w / 2048 % 16384 = 0 then some .eretKill else none
  | 3 => if w / 1 % 16 = 0 then some (.rdsr (BitVec.ofNat 7 (w / 262144)) (BitVec.ofNat 7 (w / 2048))) else none
  | 4 => if w / 4 % 4 = 0 then some (.wrsr (BitVec.ofNat 7 (w / 262144)) (srcOf (w / 2048) (w / 1))) else none
  | 5 => if w / 1 % 16 = 1 ∧ w / 262144 % 128 = 0 then some (.gsave (BitVec.ofNat 7 (w / 2048))) else none
  | 6 => if w / 1 % 16 = 1 ∧ w / 262144 % 128 = 0 then some (.grest (BitVec.ofNat 7 (w / 2048))) else none
  | 7 => if w / 1 % 16 = 0 ∧ w / 2048 % 16384 = 0 then some .isync else none
  | 8 => if w / 1 % 16 = 0 ∧ w / 2048 % 16384 = 0 then some .yield else none
  | _ => none

/-- Atomics by the operation in OFF (R41). -/
noncomputable def decode64 (w : Nat) : Option Instr :=
  match w / 128 % 16 with
  | 0 => some (.atomAdd32 (BitVec.ofNat 7 (w / 262144)) (BitVec.ofNat 7 (w / 2048)) (ordOf (w / 32)) (scopeOf (w / 4)) (hintOf (w / 1)))
  | 1 => some (.atomMinS32 (BitVec.ofNat 7 (w / 262144)) (BitVec.ofNat 7 (w / 2048)) (ordOf (w / 32)) (scopeOf (w / 4)) (hintOf (w / 1)))
  | 2 => some (.atomMinZ32 (BitVec.ofNat 7 (w / 262144)) (BitVec.ofNat 7 (w / 2048)) (ordOf (w / 32)) (scopeOf (w / 4)) (hintOf (w / 1)))
  | 3 => some (.atomMaxS32 (BitVec.ofNat 7 (w / 262144)) (BitVec.ofNat 7 (w / 2048)) (ordOf (w / 32)) (scopeOf (w / 4)) (hintOf (w / 1)))
  | 4 => some (.atomMaxZ32 (BitVec.ofNat 7 (w / 262144)) (BitVec.ofNat 7 (w / 2048)) (ordOf (w / 32)) (scopeOf (w / 4)) (hintOf (w / 1)))
  | 5 => some (.atomAnd32 (BitVec.ofNat 7 (w / 262144)) (BitVec.ofNat 7 (w / 2048)) (ordOf (w / 32)) (scopeOf (w / 4)) (hintOf (w / 1)))
  | 6 => some (.atomOr32 (BitVec.ofNat 7 (w / 262144)) (BitVec.ofNat 7 (w / 2048)) (ordOf (w / 32)) (scopeOf (w / 4)) (hintOf (w / 1)))
  | 7 => some (.atomXor32 (BitVec.ofNat 7 (w / 262144)) (BitVec.ofNat 7 (w / 2048)) (ordOf (w / 32)) (scopeOf (w / 4)) (hintOf (w / 1)))
  | 8 => some (.atomSwap32 (BitVec.ofNat 7 (w / 262144)) (BitVec.ofNat 7 (w / 2048)) (ordOf (w / 32)) (scopeOf (w / 4)) (hintOf (w / 1)))
  | 9 => some (.atomCas32 (BitVec.ofNat 7 (w / 262144)) (BitVec.ofNat 7 (w / 2048)) (ordOf (w / 32)) (scopeOf (w / 4)) (hintOf (w / 1)))
  | _ => none

/-- Atomics by the operation in OFF (R41). -/
noncomputable def decode65 (w : Nat) : Option Instr :=
  match w / 128 % 16 with
  | 0 => some (.atomAdd64 (BitVec.ofNat 7 (w / 262144)) (BitVec.ofNat 7 (w / 2048)) (ordOf (w / 32)) (scopeOf (w / 4)) (hintOf (w / 1)))
  | 1 => some (.atomMinS64 (BitVec.ofNat 7 (w / 262144)) (BitVec.ofNat 7 (w / 2048)) (ordOf (w / 32)) (scopeOf (w / 4)) (hintOf (w / 1)))
  | 2 => some (.atomMinZ64 (BitVec.ofNat 7 (w / 262144)) (BitVec.ofNat 7 (w / 2048)) (ordOf (w / 32)) (scopeOf (w / 4)) (hintOf (w / 1)))
  | 3 => some (.atomMaxS64 (BitVec.ofNat 7 (w / 262144)) (BitVec.ofNat 7 (w / 2048)) (ordOf (w / 32)) (scopeOf (w / 4)) (hintOf (w / 1)))
  | 4 => some (.atomMaxZ64 (BitVec.ofNat 7 (w / 262144)) (BitVec.ofNat 7 (w / 2048)) (ordOf (w / 32)) (scopeOf (w / 4)) (hintOf (w / 1)))
  | 5 => some (.atomAnd64 (BitVec.ofNat 7 (w / 262144)) (BitVec.ofNat 7 (w / 2048)) (ordOf (w / 32)) (scopeOf (w / 4)) (hintOf (w / 1)))
  | 6 => some (.atomOr64 (BitVec.ofNat 7 (w / 262144)) (BitVec.ofNat 7 (w / 2048)) (ordOf (w / 32)) (scopeOf (w / 4)) (hintOf (w / 1)))
  | 7 => some (.atomXor64 (BitVec.ofNat 7 (w / 262144)) (BitVec.ofNat 7 (w / 2048)) (ordOf (w / 32)) (scopeOf (w / 4)) (hintOf (w / 1)))
  | 8 => some (.atomSwap64 (BitVec.ofNat 7 (w / 262144)) (BitVec.ofNat 7 (w / 2048)) (ordOf (w / 32)) (scopeOf (w / 4)) (hintOf (w / 1)))
  | 9 => some (.atomCas64 (BitVec.ofNat 7 (w / 262144)) (BitVec.ofNat 7 (w / 2048)) (ordOf (w / 32)) (scopeOf (w / 4)) (hintOf (w / 1)))
  | _ => none

/-- The instruction of a 32-bit word given as a number: a clause header (R29), else by major opcode (R36);
an unassigned word is refused (R43). -/
noncomputable def decodeNat (w : Nat) : Option Instr :=
  match w / 33554432 with
  | 0 => some (.iadd (BitVec.ofNat 7 (w / 262144)) (srcOf (w / 2048) (w / 1)) (srcOf (w / 16) (w / 4)))
  | 1 => some (.isub (BitVec.ofNat 7 (w / 262144)) (srcOf (w / 2048) (w / 1)) (srcOf (w / 16) (w / 4)))
  | 2 => some (.imul (BitVec.ofNat 7 (w / 262144)) (srcOf (w / 2048) (w / 1)) (srcOf (w / 16) (w / 4)))
  | 3 => some (.imulhS32 (BitVec.ofNat 7 (w / 262144)) (srcOf (w / 2048) (w / 1)) (srcOf (w / 16) (w / 4)))
  | 4 => some (.imulhZ32 (BitVec.ofNat 7 (w / 262144)) (srcOf (w / 2048) (w / 1)) (srcOf (w / 16) (w / 4)))
  | 5 => some (.imad (BitVec.ofNat 7 (w / 262144)) (srcOf (w / 2048) (w / 1)) (srcOf (w / 16) (w / 4)))
  | 6 => some (.iminS32 (BitVec.ofNat 7 (w / 262144)) (srcOf (w / 2048) (w / 1)) (srcOf (w / 16) (w / 4)))
  | 7 => some (.iminZ32 (BitVec.ofNat 7 (w / 262144)) (srcOf (w / 2048) (w / 1)) (srcOf (w / 16) (w / 4)))
  | 8 => some (.imaxS32 (BitVec.ofNat 7 (w / 262144)) (srcOf (w / 2048) (w / 1)) (srcOf (w / 16) (w / 4)))
  | 9 => some (.imaxZ32 (BitVec.ofNat 7 (w / 262144)) (srcOf (w / 2048) (w / 1)) (srcOf (w / 16) (w / 4)))
  | 10 => some (.andB (BitVec.ofNat 7 (w / 262144)) (srcOf (w / 2048) (w / 1)) (srcOf (w / 16) (w / 4)))
  | 11 => some (.orB (BitVec.ofNat 7 (w / 262144)) (srcOf (w / 2048) (w / 1)) (srcOf (w / 16) (w / 4)))
  | 12 => some (.xorB (BitVec.ofNat 7 (w / 262144)) (srcOf (w / 2048) (w / 1)) (srcOf (w / 16) (w / 4)))
  | 13 => some (.andn (BitVec.ofNat 7 (w / 262144)) (srcOf (w / 2048) (w / 1)) (srcOf (w / 16) (w / 4)))
  | 14 => some (.shl (BitVec.ofNat 7 (w / 262144)) (srcOf (w / 2048) (w / 1)) (srcOf (w / 16) (w / 4)))
  | 15 => some (.shr (BitVec.ofNat 7 (w / 262144)) (srcOf (w / 2048) (w / 1)) (srcOf (w / 16) (w / 4)))
  | 16 => some (.shra (BitVec.ofNat 7 (w / 262144)) (srcOf (w / 2048) (w / 1)) (srcOf (w / 16) (w / 4)))
  | 17 => some (.rotl (BitVec.ofNat 7 (w / 262144)) (srcOf (w / 2048) (w / 1)) (srcOf (w / 16) (w / 4)))
  | 18 => some (.bfx (BitVec.ofNat 7 (w / 262144)) (srcOf (w / 2048) (w / 1)) (srcOf (w / 16) (w / 4)))
  | 19 => some (.bfi (BitVec.ofNat 7 (w / 262144)) (srcOf (w / 2048) (w / 1)) (srcOf (w / 16) (w / 4)))
  | 20 => some (.cmpEq (BitVec.ofNat 7 (w / 262144)) (srcOf (w / 2048) (w / 1)) (srcOf (w / 16) (w / 4)))
  | 21 => some (.cmpNe (BitVec.ofNat 7 (w / 262144)) (srcOf (w / 2048) (w / 1)) (srcOf (w / 16) (w / 4)))
  | 22 => some (.cmpLtS32 (BitVec.ofNat 7 (w / 262144)) (srcOf (w / 2048) (w / 1)) (srcOf (w / 16) (w / 4)))
  | 23 => some (.cmpLtZ32 (BitVec.ofNat 7 (w / 262144)) (srcOf (w / 2048) (w / 1)) (srcOf (w / 16) (w / 4)))
  | 24 => some (.cmpLeS32 (BitVec.ofNat 7 (w / 262144)) (srcOf (w / 2048) (w / 1)) (srcOf (w / 16) (w / 4)))
  | 25 => some (.cmpLeZ32 (BitVec.ofNat 7 (w / 262144)) (srcOf (w / 2048) (w / 1)) (srcOf (w / 16) (w / 4)))
  | 26 => some (.sel (BitVec.ofNat 7 (w / 262144)) (srcOf (w / 2048) (w / 1)) (srcOf (w / 16) (w / 4)))
  | 27 => some (.iaddSatS32 (BitVec.ofNat 7 (w / 262144)) (srcOf (w / 2048) (w / 1)) (srcOf (w / 16) (w / 4)))
  | 28 => some (.adda (BitVec.ofNat 7 (w / 262144)) (srcOf (w / 2048) (w / 1)) (srcOf (w / 16) (w / 4)))
  | 29 => some (.adda64 (BitVec.ofNat 7 (w / 262144)) (srcOf (w / 2048) (w / 1)) (srcOf (w / 16) (w / 4)))
  | 30 => some (.suba (BitVec.ofNat 7 (w / 262144)) (srcOf (w / 2048) (w / 1)) (srcOf (w / 16) (w / 4)))
  | 31 => some (.cmpaLt (BitVec.ofNat 7 (w / 262144)) (srcOf (w / 2048) (w / 1)) (srcOf (w / 16) (w / 4)))
  | 32 => some (.faddF32 (BitVec.ofNat 7 (w / 262144)) (srcOf (w / 2048) (w / 1)) (srcOf (w / 16) (w / 4)))
  | 33 => some (.faddF64 (BitVec.ofNat 7 (w / 262144)) (srcOf (w / 2048) (w / 1)) (srcOf (w / 16) (w / 4)))
  | 34 => some (.faddF16 (BitVec.ofNat 7 (w / 262144)) (srcOf (w / 2048) (w / 1)) (srcOf (w / 16) (w / 4)))
  | 35 => some (.faddBf16 (BitVec.ofNat 7 (w / 262144)) (srcOf (w / 2048) (w / 1)) (srcOf (w / 16) (w / 4)))
  | 36 => some (.fsubF32 (BitVec.ofNat 7 (w / 262144)) (srcOf (w / 2048) (w / 1)) (srcOf (w / 16) (w / 4)))
  | 37 => some (.fsubF64 (BitVec.ofNat 7 (w / 262144)) (srcOf (w / 2048) (w / 1)) (srcOf (w / 16) (w / 4)))
  | 38 => some (.fsubF16 (BitVec.ofNat 7 (w / 262144)) (srcOf (w / 2048) (w / 1)) (srcOf (w / 16) (w / 4)))
  | 39 => some (.fsubBf16 (BitVec.ofNat 7 (w / 262144)) (srcOf (w / 2048) (w / 1)) (srcOf (w / 16) (w / 4)))
  | 40 => some (.fmulF32 (BitVec.ofNat 7 (w / 262144)) (srcOf (w / 2048) (w / 1)) (srcOf (w / 16) (w / 4)))
  | 41 => some (.fmulF64 (BitVec.ofNat 7 (w / 262144)) (srcOf (w / 2048) (w / 1)) (srcOf (w / 16) (w / 4)))
  | 42 => some (.fmulF16 (BitVec.ofNat 7 (w / 262144)) (srcOf (w / 2048) (w / 1)) (srcOf (w / 16) (w / 4)))
  | 43 => some (.fmulBf16 (BitVec.ofNat 7 (w / 262144)) (srcOf (w / 2048) (w / 1)) (srcOf (w / 16) (w / 4)))
  | 44 => some (.ffmaF32 (BitVec.ofNat 7 (w / 262144)) (srcOf (w / 2048) (w / 1)) (srcOf (w / 16) (w / 4)))
  | 45 => some (.ffmaF64 (BitVec.ofNat 7 (w / 262144)) (srcOf (w / 2048) (w / 1)) (srcOf (w / 16) (w / 4)))
  | 46 => some (.ffmaF16 (BitVec.ofNat 7 (w / 262144)) (srcOf (w / 2048) (w / 1)) (srcOf (w / 16) (w / 4)))
  | 47 => some (.ffmaBf16 (BitVec.ofNat 7 (w / 262144)) (srcOf (w / 2048) (w / 1)) (srcOf (w / 16) (w / 4)))
  | 48 => some (.ffmalF32 (BitVec.ofNat 7 (w / 262144)) (srcOf (w / 2048) (w / 1)) (srcOf (w / 16) (w / 4)))
  | 49 => some (.ffmalF64 (BitVec.ofNat 7 (w / 262144)) (srcOf (w / 2048) (w / 1)) (srcOf (w / 16) (w / 4)))
  | 50 => some (.ffmalF16 (BitVec.ofNat 7 (w / 262144)) (srcOf (w / 2048) (w / 1)) (srcOf (w / 16) (w / 4)))
  | 51 => some (.ffmalBf16 (BitVec.ofNat 7 (w / 262144)) (srcOf (w / 2048) (w / 1)) (srcOf (w / 16) (w / 4)))
  | 52 => some (.fminF32 (BitVec.ofNat 7 (w / 262144)) (srcOf (w / 2048) (w / 1)) (srcOf (w / 16) (w / 4)))
  | 53 => some (.fminF64 (BitVec.ofNat 7 (w / 262144)) (srcOf (w / 2048) (w / 1)) (srcOf (w / 16) (w / 4)))
  | 54 => some (.fminF16 (BitVec.ofNat 7 (w / 262144)) (srcOf (w / 2048) (w / 1)) (srcOf (w / 16) (w / 4)))
  | 55 => some (.fminBf16 (BitVec.ofNat 7 (w / 262144)) (srcOf (w / 2048) (w / 1)) (srcOf (w / 16) (w / 4)))
  | 56 => some (.fmaxF32 (BitVec.ofNat 7 (w / 262144)) (srcOf (w / 2048) (w / 1)) (srcOf (w / 16) (w / 4)))
  | 57 => some (.fmaxF64 (BitVec.ofNat 7 (w / 262144)) (srcOf (w / 2048) (w / 1)) (srcOf (w / 16) (w / 4)))
  | 58 => some (.fmaxF16 (BitVec.ofNat 7 (w / 262144)) (srcOf (w / 2048) (w / 1)) (srcOf (w / 16) (w / 4)))
  | 59 => some (.fmaxBf16 (BitVec.ofNat 7 (w / 262144)) (srcOf (w / 2048) (w / 1)) (srcOf (w / 16) (w / 4)))
  | 60 => some (.sadd (BitVec.ofNat 7 (w / 262144)) (srcOf (w / 2048) (w / 1)) (srcOf (w / 16) (w / 4)))
  | 61 => some (.ssub (BitVec.ofNat 7 (w / 262144)) (srcOf (w / 2048) (w / 1)) (srcOf (w / 16) (w / 4)))
  | 62 => some (.smul (BitVec.ofNat 7 (w / 262144)) (srcOf (w / 2048) (w / 1)) (srcOf (w / 16) (w / 4)))
  | 63 => some (.sand (BitVec.ofNat 7 (w / 262144)) (srcOf (w / 2048) (w / 1)) (srcOf (w / 16) (w / 4)))
  | 64 => some (.sor (BitVec.ofNat 7 (w / 262144)) (srcOf (w / 2048) (w / 1)) (srcOf (w / 16) (w / 4)))
  | 65 => some (.sxor (BitVec.ofNat 7 (w / 262144)) (srcOf (w / 2048) (w / 1)) (srcOf (w / 16) (w / 4)))
  | 66 => some (.sshl (BitVec.ofNat 7 (w / 262144)) (srcOf (w / 2048) (w / 1)) (srcOf (w / 16) (w / 4)))
  | 67 => some (.sshr (BitVec.ofNat 7 (w / 262144)) (srcOf (w / 2048) (w / 1)) (srcOf (w / 16) (w / 4)))
  | 68 => some (.scmpEq (BitVec.ofNat 7 (w / 262144)) (srcOf (w / 2048) (w / 1)) (srcOf (w / 16) (w / 4)))
  | 69 => some (.scmpLtS32 (BitVec.ofNat 7 (w / 262144)) (srcOf (w / 2048) (w / 1)) (srcOf (w / 16) (w / 4)))
  | 70 => some (.scmpLtZ32 (BitVec.ofNat 7 (w / 262144)) (srcOf (w / 2048) (w / 1)) (srcOf (w / 16) (w / 4)))
  | 71 => some (.sadda (BitVec.ofNat 7 (w / 262144)) (srcOf (w / 2048) (w / 1)) (srcOf (w / 16) (w / 4)))
  | 72 => some (.vldEq (BitVec.ofNat 7 (w / 262144)) (BitVec.ofNat 7 (w / 2048)) (srcOf (w / 16) (w / 4)) (ordOf (w / 1)))
  | 73 => some (.vldLe (BitVec.ofNat 7 (w / 262144)) (BitVec.ofNat 7 (w / 2048)) (srcOf (w / 16) (w / 4)) (ordOf (w / 1)))
  | 74 => some (.vst (BitVec.ofNat 7 (w / 262144)) (BitVec.ofNat 7 (w / 2048)) (srcOf (w / 16) (w / 4)) (ordOf (w / 1)))
  | 75 => if w / 262144 % 128 = 0 then some (.vfloor (srcOf (w / 2048) (w / 1)) (srcOf (w / 16) (w / 4))) else none
  | 76 => some (.spld (BitVec.ofNat 7 (w / 262144)) (srcOf (w / 2048) (w / 1)) (srcOf (w / 16) (w / 4)))
  | 77 => some (.spst (BitVec.ofNat 7 (w / 262144)) (srcOf (w / 2048) (w / 1)) (srcOf (w / 16) (w / 4)))
  | 78 => decode4E w
  | 79 => decode4F w
  | 80 => decode50 w
  | 81 => decode51 w
  | 82 => decode52 w
  | 83 => decode53 w
  | 84 => decode54 w
  | 85 => decode55 w
  | 86 => some (.ldS8 (BitVec.ofNat 7 (w / 262144)) (BitVec.ofNat 7 (w / 2048)) (BitVec.ofNat 4 (w / 128)) (ordOf (w / 32)) (scopeOf (w / 4)) (hintOf (w / 1)))
  | 87 => some (.ldZ8 (BitVec.ofNat 7 (w / 262144)) (BitVec.ofNat 7 (w / 2048)) (BitVec.ofNat 4 (w / 128)) (ordOf (w / 32)) (scopeOf (w / 4)) (hintOf (w / 1)))
  | 88 => some (.ldS16 (BitVec.ofNat 7 (w / 262144)) (BitVec.ofNat 7 (w / 2048)) (BitVec.ofNat 4 (w / 128)) (ordOf (w / 32)) (scopeOf (w / 4)) (hintOf (w / 1)))
  | 89 => some (.ldZ16 (BitVec.ofNat 7 (w / 262144)) (BitVec.ofNat 7 (w / 2048)) (BitVec.ofNat 4 (w / 128)) (ordOf (w / 32)) (scopeOf (w / 4)) (hintOf (w / 1)))
  | 90 => some (.ldS32 (BitVec.ofNat 7 (w / 262144)) (BitVec.ofNat 7 (w / 2048)) (BitVec.ofNat 4 (w / 128)) (ordOf (w / 32)) (scopeOf (w / 4)) (hintOf (w / 1)))
  | 91 => some (.ld64 (BitVec.ofNat 7 (w / 262144)) (BitVec.ofNat 7 (w / 2048)) (BitVec.ofNat 4 (w / 128)) (ordOf (w / 32)) (scopeOf (w / 4)) (hintOf (w / 1)))
  | 92 => some (.st8 (BitVec.ofNat 7 (w / 262144)) (BitVec.ofNat 7 (w / 2048)) (BitVec.ofNat 4 (w / 128)) (ordOf (w / 32)) (scopeOf (w / 4)) (hintOf (w / 1)))
  | 93 => some (.st16 (BitVec.ofNat 7 (w / 262144)) (BitVec.ofNat 7 (w / 2048)) (BitVec.ofNat 4 (w / 128)) (ordOf (w / 32)) (scopeOf (w / 4)) (hintOf (w / 1)))
  | 94 => some (.st32 (BitVec.ofNat 7 (w / 262144)) (BitVec.ofNat 7 (w / 2048)) (BitVec.ofNat 4 (w / 128)) (ordOf (w / 32)) (scopeOf (w / 4)) (hintOf (w / 1)))
  | 95 => some (.st64 (BitVec.ofNat 7 (w / 262144)) (BitVec.ofNat 7 (w / 2048)) (BitVec.ofNat 4 (w / 128)) (ordOf (w / 32)) (scopeOf (w / 4)) (hintOf (w / 1)))
  | 96 => some (.sld32 (BitVec.ofNat 7 (w / 262144)) (BitVec.ofNat 7 (w / 2048)) (BitVec.ofNat 4 (w / 128)) (ordOf (w / 32)) (scopeOf (w / 4)) (hintOf (w / 1)))
  | 97 => some (.sld64 (BitVec.ofNat 7 (w / 262144)) (BitVec.ofNat 7 (w / 2048)) (BitVec.ofNat 4 (w / 128)) (ordOf (w / 32)) (scopeOf (w / 4)) (hintOf (w / 1)))
  | 98 => some (.sst32 (BitVec.ofNat 7 (w / 262144)) (BitVec.ofNat 7 (w / 2048)) (BitVec.ofNat 4 (w / 128)) (ordOf (w / 32)) (scopeOf (w / 4)) (hintOf (w / 1)))
  | 99 => some (.sst64 (BitVec.ofNat 7 (w / 262144)) (BitVec.ofNat 7 (w / 2048)) (BitVec.ofNat 4 (w / 128)) (ordOf (w / 32)) (scopeOf (w / 4)) (hintOf (w / 1)))
  | 100 => decode64 w
  | 101 => decode65 w
  | 102 => some (.movi (BitVec.ofNat 7 (w / 262144)) (BitVec.ofNat 18 (w / 1)))
  | 103 => some (.movhi (BitVec.ofNat 7 (w / 262144)) (BitVec.ofNat 18 (w / 1)))
  | 104 => some (.smovi (BitVec.ofNat 7 (w / 262144)) (BitVec.ofNat 18 (w / 1)))
  | 105 => some (.smovhi (BitVec.ofNat 7 (w / 262144)) (BitVec.ofNat 18 (w / 1)))
  | 106 => if w / 262144 % 128 = 0 then some (.wbase (BitVec.ofNat 18 (w / 1))) else none
  | 107 => if w / 512 % 65536 = 0 then some (.cbase (BitVec.ofNat 9 (w / 1))) else none
  | 108 => if w / 8388608 % 4 = 0 then some (.bar (BitVec.ofNat 5 (w / 262144)) (BitVec.ofNat 18 (w / 1))) else none
  | 109 => if w / 16 % 16384 = 0 then some (.rcv (BitVec.ofNat 7 (w / 262144)) (BitVec.ofNat 4 (w / 1))) else none
  | 110 => if w / 262144 % 128 = 127 then some (.bra (BitVec.ofNat 18 (w / 1))) else some (.bnz (BitVec.ofNat 7 (w / 262144)) (BitVec.ofNat 18 (w / 1)))
  | 111 => some (.bz (BitVec.ofNat 7 (w / 262144)) (BitVec.ofNat 18 (w / 1)))
  | 112 => some (.call (BitVec.ofNat 7 (w / 262144)) (BitVec.ofNat 18 (w / 1)))
  | 113 => if w / 1 % 262144 = 0 then some (.jmpi (BitVec.ofNat 7 (w / 262144))) else none
  | 114 => if w / 1 % 262144 = 0 then some (.calli (BitVec.ofNat 7 (w / 262144))) else none
  | 115 => if w / 1 % 262144 = 0 then some (.ret (BitVec.ofNat 7 (w / 262144))) else none
  | 116 => if w / 1 % 262144 = 0 then some (.exit (BitVec.ofNat 7 (w / 262144))) else none
  | 126 => some (.clause (BitVec.ofNat 12 (w / 16384)) (BitVec.ofNat 4 (w / 1024)) (BitVec.ofNat 4 (w / 64)) (BitVec.ofNat 3 (w / 8)) (BitVec.ofNat 3 (w / 1)))
  | 127 => some (.clause (BitVec.ofNat 12 (w / 16384)) (BitVec.ofNat 4 (w / 1024)) (BitVec.ofNat 4 (w / 64)) (BitVec.ofNat 3 (w / 8)) (BitVec.ofNat 3 (w / 1)))
  | _ => none

/-- The instruction of a word. -/
noncomputable def decode (w : W32) : Option Instr := decodeNat w.toNat

/-- The word of an instruction as a number; a step without an encoding has none. -/
def encodeNat : Instr → Option Nat
  | .clause w a b l n => some (0xFC000000 + w.toNat * 16384 + a.toNat * 1024 + b.toNat * 64 + l.toNat * 8 + n.toNat * 1)
  | .iadd d a b => some (0x0 + d.toNat * 262144 + a.name.toNat * 2048 + a.kind.code * 1 + b.name.toNat * 16 + b.kind.code * 4)
  | .isub d a b => some (0x2000000 + d.toNat * 262144 + a.name.toNat * 2048 + a.kind.code * 1 + b.name.toNat * 16 + b.kind.code * 4)
  | .imul d a b => some (0x4000000 + d.toNat * 262144 + a.name.toNat * 2048 + a.kind.code * 1 + b.name.toNat * 16 + b.kind.code * 4)
  | .imulhS32 d a b => some (0x6000000 + d.toNat * 262144 + a.name.toNat * 2048 + a.kind.code * 1 + b.name.toNat * 16 + b.kind.code * 4)
  | .imulhZ32 d a b => some (0x8000000 + d.toNat * 262144 + a.name.toNat * 2048 + a.kind.code * 1 + b.name.toNat * 16 + b.kind.code * 4)
  | .imad d a b => some (0xA000000 + d.toNat * 262144 + a.name.toNat * 2048 + a.kind.code * 1 + b.name.toNat * 16 + b.kind.code * 4)
  | .iminS32 d a b => some (0xC000000 + d.toNat * 262144 + a.name.toNat * 2048 + a.kind.code * 1 + b.name.toNat * 16 + b.kind.code * 4)
  | .iminZ32 d a b => some (0xE000000 + d.toNat * 262144 + a.name.toNat * 2048 + a.kind.code * 1 + b.name.toNat * 16 + b.kind.code * 4)
  | .imaxS32 d a b => some (0x10000000 + d.toNat * 262144 + a.name.toNat * 2048 + a.kind.code * 1 + b.name.toNat * 16 + b.kind.code * 4)
  | .imaxZ32 d a b => some (0x12000000 + d.toNat * 262144 + a.name.toNat * 2048 + a.kind.code * 1 + b.name.toNat * 16 + b.kind.code * 4)
  | .andB d a b => some (0x14000000 + d.toNat * 262144 + a.name.toNat * 2048 + a.kind.code * 1 + b.name.toNat * 16 + b.kind.code * 4)
  | .orB d a b => some (0x16000000 + d.toNat * 262144 + a.name.toNat * 2048 + a.kind.code * 1 + b.name.toNat * 16 + b.kind.code * 4)
  | .xorB d a b => some (0x18000000 + d.toNat * 262144 + a.name.toNat * 2048 + a.kind.code * 1 + b.name.toNat * 16 + b.kind.code * 4)
  | .andn d a b => some (0x1A000000 + d.toNat * 262144 + a.name.toNat * 2048 + a.kind.code * 1 + b.name.toNat * 16 + b.kind.code * 4)
  | .shl d a b => some (0x1C000000 + d.toNat * 262144 + a.name.toNat * 2048 + a.kind.code * 1 + b.name.toNat * 16 + b.kind.code * 4)
  | .shr d a b => some (0x1E000000 + d.toNat * 262144 + a.name.toNat * 2048 + a.kind.code * 1 + b.name.toNat * 16 + b.kind.code * 4)
  | .shra d a b => some (0x20000000 + d.toNat * 262144 + a.name.toNat * 2048 + a.kind.code * 1 + b.name.toNat * 16 + b.kind.code * 4)
  | .rotl d a b => some (0x22000000 + d.toNat * 262144 + a.name.toNat * 2048 + a.kind.code * 1 + b.name.toNat * 16 + b.kind.code * 4)
  | .bfx d a b => some (0x24000000 + d.toNat * 262144 + a.name.toNat * 2048 + a.kind.code * 1 + b.name.toNat * 16 + b.kind.code * 4)
  | .bfi d a b => some (0x26000000 + d.toNat * 262144 + a.name.toNat * 2048 + a.kind.code * 1 + b.name.toNat * 16 + b.kind.code * 4)
  | .cmpEq d a b => some (0x28000000 + d.toNat * 262144 + a.name.toNat * 2048 + a.kind.code * 1 + b.name.toNat * 16 + b.kind.code * 4)
  | .cmpNe d a b => some (0x2A000000 + d.toNat * 262144 + a.name.toNat * 2048 + a.kind.code * 1 + b.name.toNat * 16 + b.kind.code * 4)
  | .cmpLtS32 d a b => some (0x2C000000 + d.toNat * 262144 + a.name.toNat * 2048 + a.kind.code * 1 + b.name.toNat * 16 + b.kind.code * 4)
  | .cmpLtZ32 d a b => some (0x2E000000 + d.toNat * 262144 + a.name.toNat * 2048 + a.kind.code * 1 + b.name.toNat * 16 + b.kind.code * 4)
  | .cmpLeS32 d a b => some (0x30000000 + d.toNat * 262144 + a.name.toNat * 2048 + a.kind.code * 1 + b.name.toNat * 16 + b.kind.code * 4)
  | .cmpLeZ32 d a b => some (0x32000000 + d.toNat * 262144 + a.name.toNat * 2048 + a.kind.code * 1 + b.name.toNat * 16 + b.kind.code * 4)
  | .sel d a b => some (0x34000000 + d.toNat * 262144 + a.name.toNat * 2048 + a.kind.code * 1 + b.name.toNat * 16 + b.kind.code * 4)
  | .iaddSatS32 d a b => some (0x36000000 + d.toNat * 262144 + a.name.toNat * 2048 + a.kind.code * 1 + b.name.toNat * 16 + b.kind.code * 4)
  | .adda d a b => some (0x38000000 + d.toNat * 262144 + a.name.toNat * 2048 + a.kind.code * 1 + b.name.toNat * 16 + b.kind.code * 4)
  | .adda64 d a b => some (0x3A000000 + d.toNat * 262144 + a.name.toNat * 2048 + a.kind.code * 1 + b.name.toNat * 16 + b.kind.code * 4)
  | .suba d a b => some (0x3C000000 + d.toNat * 262144 + a.name.toNat * 2048 + a.kind.code * 1 + b.name.toNat * 16 + b.kind.code * 4)
  | .cmpaLt d a b => some (0x3E000000 + d.toNat * 262144 + a.name.toNat * 2048 + a.kind.code * 1 + b.name.toNat * 16 + b.kind.code * 4)
  | .faddF32 d a b => some (0x40000000 + d.toNat * 262144 + a.name.toNat * 2048 + a.kind.code * 1 + b.name.toNat * 16 + b.kind.code * 4)
  | .faddF64 d a b => some (0x42000000 + d.toNat * 262144 + a.name.toNat * 2048 + a.kind.code * 1 + b.name.toNat * 16 + b.kind.code * 4)
  | .faddF16 d a b => some (0x44000000 + d.toNat * 262144 + a.name.toNat * 2048 + a.kind.code * 1 + b.name.toNat * 16 + b.kind.code * 4)
  | .faddBf16 d a b => some (0x46000000 + d.toNat * 262144 + a.name.toNat * 2048 + a.kind.code * 1 + b.name.toNat * 16 + b.kind.code * 4)
  | .fsubF32 d a b => some (0x48000000 + d.toNat * 262144 + a.name.toNat * 2048 + a.kind.code * 1 + b.name.toNat * 16 + b.kind.code * 4)
  | .fsubF64 d a b => some (0x4A000000 + d.toNat * 262144 + a.name.toNat * 2048 + a.kind.code * 1 + b.name.toNat * 16 + b.kind.code * 4)
  | .fsubF16 d a b => some (0x4C000000 + d.toNat * 262144 + a.name.toNat * 2048 + a.kind.code * 1 + b.name.toNat * 16 + b.kind.code * 4)
  | .fsubBf16 d a b => some (0x4E000000 + d.toNat * 262144 + a.name.toNat * 2048 + a.kind.code * 1 + b.name.toNat * 16 + b.kind.code * 4)
  | .fmulF32 d a b => some (0x50000000 + d.toNat * 262144 + a.name.toNat * 2048 + a.kind.code * 1 + b.name.toNat * 16 + b.kind.code * 4)
  | .fmulF64 d a b => some (0x52000000 + d.toNat * 262144 + a.name.toNat * 2048 + a.kind.code * 1 + b.name.toNat * 16 + b.kind.code * 4)
  | .fmulF16 d a b => some (0x54000000 + d.toNat * 262144 + a.name.toNat * 2048 + a.kind.code * 1 + b.name.toNat * 16 + b.kind.code * 4)
  | .fmulBf16 d a b => some (0x56000000 + d.toNat * 262144 + a.name.toNat * 2048 + a.kind.code * 1 + b.name.toNat * 16 + b.kind.code * 4)
  | .ffmaF32 d a b => some (0x58000000 + d.toNat * 262144 + a.name.toNat * 2048 + a.kind.code * 1 + b.name.toNat * 16 + b.kind.code * 4)
  | .ffmaF64 d a b => some (0x5A000000 + d.toNat * 262144 + a.name.toNat * 2048 + a.kind.code * 1 + b.name.toNat * 16 + b.kind.code * 4)
  | .ffmaF16 d a b => some (0x5C000000 + d.toNat * 262144 + a.name.toNat * 2048 + a.kind.code * 1 + b.name.toNat * 16 + b.kind.code * 4)
  | .ffmaBf16 d a b => some (0x5E000000 + d.toNat * 262144 + a.name.toNat * 2048 + a.kind.code * 1 + b.name.toNat * 16 + b.kind.code * 4)
  | .ffmalF32 d a b => some (0x60000000 + d.toNat * 262144 + a.name.toNat * 2048 + a.kind.code * 1 + b.name.toNat * 16 + b.kind.code * 4)
  | .ffmalF64 d a b => some (0x62000000 + d.toNat * 262144 + a.name.toNat * 2048 + a.kind.code * 1 + b.name.toNat * 16 + b.kind.code * 4)
  | .ffmalF16 d a b => some (0x64000000 + d.toNat * 262144 + a.name.toNat * 2048 + a.kind.code * 1 + b.name.toNat * 16 + b.kind.code * 4)
  | .ffmalBf16 d a b => some (0x66000000 + d.toNat * 262144 + a.name.toNat * 2048 + a.kind.code * 1 + b.name.toNat * 16 + b.kind.code * 4)
  | .fminF32 d a b => some (0x68000000 + d.toNat * 262144 + a.name.toNat * 2048 + a.kind.code * 1 + b.name.toNat * 16 + b.kind.code * 4)
  | .fminF64 d a b => some (0x6A000000 + d.toNat * 262144 + a.name.toNat * 2048 + a.kind.code * 1 + b.name.toNat * 16 + b.kind.code * 4)
  | .fminF16 d a b => some (0x6C000000 + d.toNat * 262144 + a.name.toNat * 2048 + a.kind.code * 1 + b.name.toNat * 16 + b.kind.code * 4)
  | .fminBf16 d a b => some (0x6E000000 + d.toNat * 262144 + a.name.toNat * 2048 + a.kind.code * 1 + b.name.toNat * 16 + b.kind.code * 4)
  | .fmaxF32 d a b => some (0x70000000 + d.toNat * 262144 + a.name.toNat * 2048 + a.kind.code * 1 + b.name.toNat * 16 + b.kind.code * 4)
  | .fmaxF64 d a b => some (0x72000000 + d.toNat * 262144 + a.name.toNat * 2048 + a.kind.code * 1 + b.name.toNat * 16 + b.kind.code * 4)
  | .fmaxF16 d a b => some (0x74000000 + d.toNat * 262144 + a.name.toNat * 2048 + a.kind.code * 1 + b.name.toNat * 16 + b.kind.code * 4)
  | .fmaxBf16 d a b => some (0x76000000 + d.toNat * 262144 + a.name.toNat * 2048 + a.kind.code * 1 + b.name.toNat * 16 + b.kind.code * 4)
  | .sadd d a b => some (0x78000000 + d.toNat * 262144 + a.name.toNat * 2048 + a.kind.code * 1 + b.name.toNat * 16 + b.kind.code * 4)
  | .ssub d a b => some (0x7A000000 + d.toNat * 262144 + a.name.toNat * 2048 + a.kind.code * 1 + b.name.toNat * 16 + b.kind.code * 4)
  | .smul d a b => some (0x7C000000 + d.toNat * 262144 + a.name.toNat * 2048 + a.kind.code * 1 + b.name.toNat * 16 + b.kind.code * 4)
  | .sand d a b => some (0x7E000000 + d.toNat * 262144 + a.name.toNat * 2048 + a.kind.code * 1 + b.name.toNat * 16 + b.kind.code * 4)
  | .sor d a b => some (0x80000000 + d.toNat * 262144 + a.name.toNat * 2048 + a.kind.code * 1 + b.name.toNat * 16 + b.kind.code * 4)
  | .sxor d a b => some (0x82000000 + d.toNat * 262144 + a.name.toNat * 2048 + a.kind.code * 1 + b.name.toNat * 16 + b.kind.code * 4)
  | .sshl d a b => some (0x84000000 + d.toNat * 262144 + a.name.toNat * 2048 + a.kind.code * 1 + b.name.toNat * 16 + b.kind.code * 4)
  | .sshr d a b => some (0x86000000 + d.toNat * 262144 + a.name.toNat * 2048 + a.kind.code * 1 + b.name.toNat * 16 + b.kind.code * 4)
  | .scmpEq d a b => some (0x88000000 + d.toNat * 262144 + a.name.toNat * 2048 + a.kind.code * 1 + b.name.toNat * 16 + b.kind.code * 4)
  | .scmpLtS32 d a b => some (0x8A000000 + d.toNat * 262144 + a.name.toNat * 2048 + a.kind.code * 1 + b.name.toNat * 16 + b.kind.code * 4)
  | .scmpLtZ32 d a b => some (0x8C000000 + d.toNat * 262144 + a.name.toNat * 2048 + a.kind.code * 1 + b.name.toNat * 16 + b.kind.code * 4)
  | .sadda d a b => some (0x8E000000 + d.toNat * 262144 + a.name.toNat * 2048 + a.kind.code * 1 + b.name.toNat * 16 + b.kind.code * 4)
  | .vldEq d a b o => some (0x90000000 + d.toNat * 262144 + a.toNat * 2048 + b.name.toNat * 16 + b.kind.code * 4 + o.code * 1)
  | .vldLe d a b o => some (0x92000000 + d.toNat * 262144 + a.toNat * 2048 + b.name.toNat * 16 + b.kind.code * 4 + o.code * 1)
  | .vst d a b o => some (0x94000000 + d.toNat * 262144 + a.toNat * 2048 + b.name.toNat * 16 + b.kind.code * 4 + o.code * 1)
  | .vfloor a b => some (0x96000000 + a.name.toNat * 2048 + a.kind.code * 1 + b.name.toNat * 16 + b.kind.code * 4)
  | .spld d a b => some (0x98000000 + d.toNat * 262144 + a.name.toNat * 2048 + a.kind.code * 1 + b.name.toNat * 16 + b.kind.code * 4)
  | .spst d a b => some (0x9A000000 + d.toNat * 262144 + a.name.toNat * 2048 + a.kind.code * 1 + b.name.toNat * 16 + b.kind.code * 4)
  | .mov d a => some (0x9C000000 + d.toNat * 262144 + a.name.toNat * 2048 + a.kind.code * 1)
  | .mov64 d a => some (0x9C000010 + d.toNat * 262144 + a.name.toNat * 2048 + a.kind.code * 1)
  | .notB d a => some (0x9C000020 + d.toNat * 262144 + a.name.toNat * 2048 + a.kind.code * 1)
  | .ineg d a s => some (0x9C000030 + d.toNat * 262144 + a.name.toNat * 2048 + a.kind.code * 1 + boolCode s * 4)
  | .iabsS32 d a s => some (0x9C000040 + d.toNat * 262144 + a.name.toNat * 2048 + a.kind.code * 1 + boolCode s * 4)
  | .popc d a => some (0x9C000050 + d.toNat * 262144 + a.name.toNat * 2048 + a.kind.code * 1)
  | .clz d a => some (0x9C000060 + d.toNat * 262144 + a.name.toNat * 2048 + a.kind.code * 1)
  | .ctz d a => some (0x9C000070 + d.toNat * 262144 + a.name.toNat * 2048 + a.kind.code * 1)
  | .brev d a => some (0x9C000080 + d.toNat * 262144 + a.name.toNat * 2048 + a.kind.code * 1)
  | .bswap d a => some (0x9C000090 + d.toNat * 262144 + a.name.toNat * 2048 + a.kind.code * 1)
  | .sextS8 d a => some (0x9C0000A0 + d.toNat * 262144 + a.name.toNat * 2048 + a.kind.code * 1)
  | .sextS16 d a => some (0x9C0000B0 + d.toNat * 262144 + a.name.toNat * 2048 + a.kind.code * 1)
  | .zextZ8 d a => some (0x9C0000C0 + d.toNat * 262144 + a.name.toNat * 2048 + a.kind.code * 1)
  | .zextZ16 d a => some (0x9C0000D0 + d.toNat * 262144 + a.name.toNat * 2048 + a.kind.code * 1)
  | .fneg d a t => some (0x9C000200 + d.toNat * 262144 + a.name.toNat * 2048 + a.kind.code * 1 + t.code * 4)
  | .fabs d a t => some (0x9C000210 + d.toNat * 262144 + a.name.toNat * 2048 + a.kind.code * 1 + t.code * 4)
  | .fsqrt d a t => some (0x9C000220 + d.toNat * 262144 + a.name.toNat * 2048 + a.kind.code * 1 + t.code * 4)
  | .frcp d a t => some (0x9C000230 + d.toNat * 262144 + a.name.toNat * 2048 + a.kind.code * 1 + t.code * 4)
  | .frsqrt d a t => some (0x9C000240 + d.toNat * 262144 + a.name.toNat * 2048 + a.kind.code * 1 + t.code * 4)
  | .fexp2 d a t => some (0x9C000250 + d.toNat * 262144 + a.name.toNat * 2048 + a.kind.code * 1 + t.code * 4)
  | .flog2 d a t => some (0x9C000260 + d.toNat * 262144 + a.name.toNat * 2048 + a.kind.code * 1 + t.code * 4)
  | .fsinpi d a t => some (0x9C000270 + d.toNat * 262144 + a.name.toNat * 2048 + a.kind.code * 1 + t.code * 4)
  | .fcospi d a t => some (0x9C000280 + d.toNat * 262144 + a.name.toNat * 2048 + a.kind.code * 1 + t.code * 4)
  | .ftanh d a t => some (0x9C000290 + d.toNat * 262144 + a.name.toNat * 2048 + a.kind.code * 1 + t.code * 4)
  | .frint d a t => some (0x9C0002A0 + d.toNat * 262144 + a.name.toNat * 2048 + a.kind.code * 1 + t.code * 4)
  | .ftrunc d a t => some (0x9C0002B0 + d.toNat * 262144 + a.name.toNat * 2048 + a.kind.code * 1 + t.code * 4)
  | .ffloor d a t => some (0x9C0002C0 + d.toNat * 262144 + a.name.toNat * 2048 + a.kind.code * 1 + t.code * 4)
  | .fceil d a t => some (0x9C0002D0 + d.toNat * 262144 + a.name.toNat * 2048 + a.kind.code * 1 + t.code * 4)
  | .smov d a => some (0x9E000000 + d.toNat * 262144 + a.name.toNat * 2048 + a.kind.code * 1)
  | .smov64 d a => some (0x9E000010 + d.toNat * 262144 + a.name.toNat * 2048 + a.kind.code * 1)
  | .snot d a => some (0x9E000020 + d.toNat * 262144 + a.name.toNat * 2048 + a.kind.code * 1)
  | .sneg d a s => some (0x9E000030 + d.toNat * 262144 + a.name.toNat * 2048 + a.kind.code * 1 + boolCode s * 4)
  | .sabsS32 d a s => some (0x9E000040 + d.toNat * 262144 + a.name.toNat * 2048 + a.kind.code * 1 + boolCode s * 4)
  | .spopc d a => some (0x9E000050 + d.toNat * 262144 + a.name.toNat * 2048 + a.kind.code * 1)
  | .sclz d a => some (0x9E000060 + d.toNat * 262144 + a.name.toNat * 2048 + a.kind.code * 1)
  | .sctz d a => some (0x9E000070 + d.toNat * 262144 + a.name.toNat * 2048 + a.kind.code * 1)
  | .sbrev d a => some (0x9E000080 + d.toNat * 262144 + a.name.toNat * 2048 + a.kind.code * 1)
  | .sbswap d a => some (0x9E000090 + d.toNat * 262144 + a.name.toNat * 2048 + a.kind.code * 1)
  | .ssextS8 d a => some (0x9E0000A0 + d.toNat * 262144 + a.name.toNat * 2048 + a.kind.code * 1)
  | .ssextS16 d a => some (0x9E0000B0 + d.toNat * 262144 + a.name.toNat * 2048 + a.kind.code * 1)
  | .szextZ8 d a => some (0x9E0000C0 + d.toNat * 262144 + a.name.toNat * 2048 + a.kind.code * 1)
  | .szextZ16 d a => some (0x9E0000D0 + d.toNat * 262144 + a.name.toNat * 2048 + a.kind.code * 1)
  | .cvtF64F32 d a => some (0xA0000000 + d.toNat * 262144 + a.name.toNat * 2048 + a.kind.code * 1)
  | .cvtF32F64 d a r => some (0xA0000010 + d.toNat * 262144 + a.name.toNat * 2048 + a.kind.code * 1 + r.code * 4)
  | .cvtF32F16 d a => some (0xA0000020 + d.toNat * 262144 + a.name.toNat * 2048 + a.kind.code * 1)
  | .cvtF32Bf16 d a => some (0xA0000030 + d.toNat * 262144 + a.name.toNat * 2048 + a.kind.code * 1)
  | .cvtF16F32 d a r => some (0xA0000040 + d.toNat * 262144 + a.name.toNat * 2048 + a.kind.code * 1 + r.code * 4)
  | .cvtBf16F32 d a r => some (0xA0000050 + d.toNat * 262144 + a.name.toNat * 2048 + a.kind.code * 1 + r.code * 4)
  | .cvtF32E4m3Lo d a => some (0xA0000060 + d.toNat * 262144 + a.name.toNat * 2048 + a.kind.code * 1)
  | .cvtF32E4m3Hi d a => some (0xA0000070 + d.toNat * 262144 + a.name.toNat * 2048 + a.kind.code * 1)
  | .cvtF32E5m2Lo d a => some (0xA0000080 + d.toNat * 262144 + a.name.toNat * 2048 + a.kind.code * 1)
  | .cvtF32E5m2Hi d a => some (0xA0000090 + d.toNat * 262144 + a.name.toNat * 2048 + a.kind.code * 1)
  | .cvtE4m3F32Lo d a r => some (0xA00000A0 + d.toNat * 262144 + a.name.toNat * 2048 + a.kind.code * 1 + r.code * 4)
  | .cvtE4m3F32Hi d a r => some (0xA00000B0 + d.toNat * 262144 + a.name.toNat * 2048 + a.kind.code * 1 + r.code * 4)
  | .cvtE4m3F32NsatLo d a r => some (0xA00000C0 + d.toNat * 262144 + a.name.toNat * 2048 + a.kind.code * 1 + r.code * 4)
  | .cvtE4m3F32NsatHi d a r => some (0xA00000D0 + d.toNat * 262144 + a.name.toNat * 2048 + a.kind.code * 1 + r.code * 4)
  | .cvtE5m2F32Lo d a r => some (0xA00000E0 + d.toNat * 262144 + a.name.toNat * 2048 + a.kind.code * 1 + r.code * 4)
  | .cvtE5m2F32Hi d a r => some (0xA00000F0 + d.toNat * 262144 + a.name.toNat * 2048 + a.kind.code * 1 + r.code * 4)
  | .cvtF32E5m3 d a => some (0xA0000100 + d.toNat * 262144 + a.name.toNat * 2048 + a.kind.code * 1)
  | .cvtE5m3F32 d a => some (0xA0000110 + d.toNat * 262144 + a.name.toNat * 2048 + a.kind.code * 1)
  | .cvtS32F32 d a r => some (0xA0000120 + d.toNat * 262144 + a.name.toNat * 2048 + a.kind.code * 1 + r.code * 4)
  | .cvtZ32F32 d a r => some (0xA0000130 + d.toNat * 262144 + a.name.toNat * 2048 + a.kind.code * 1 + r.code * 4)
  | .cvtS64F32 d a r => some (0xA0000140 + d.toNat * 262144 + a.name.toNat * 2048 + a.kind.code * 1 + r.code * 4)
  | .cvtZ64F32 d a r => some (0xA0000150 + d.toNat * 262144 + a.name.toNat * 2048 + a.kind.code * 1 + r.code * 4)
  | .cvtS32F64 d a r => some (0xA0000160 + d.toNat * 262144 + a.name.toNat * 2048 + a.kind.code * 1 + r.code * 4)
  | .cvtZ32F64 d a r => some (0xA0000170 + d.toNat * 262144 + a.name.toNat * 2048 + a.kind.code * 1 + r.code * 4)
  | .cvtS64F64 d a r => some (0xA0000180 + d.toNat * 262144 + a.name.toNat * 2048 + a.kind.code * 1 + r.code * 4)
  | .cvtZ64F64 d a r => some (0xA0000190 + d.toNat * 262144 + a.name.toNat * 2048 + a.kind.code * 1 + r.code * 4)
  | .cvtF32S32 d a r => some (0xA00001A0 + d.toNat * 262144 + a.name.toNat * 2048 + a.kind.code * 1 + r.code * 4)
  | .cvtF32Z32 d a r => some (0xA00001B0 + d.toNat * 262144 + a.name.toNat * 2048 + a.kind.code * 1 + r.code * 4)
  | .cvtF32S64 d a r => some (0xA00001C0 + d.toNat * 262144 + a.name.toNat * 2048 + a.kind.code * 1 + r.code * 4)
  | .cvtF32Z64 d a r => some (0xA00001D0 + d.toNat * 262144 + a.name.toNat * 2048 + a.kind.code * 1 + r.code * 4)
  | .cvtF64S32 d a => some (0xA00001E0 + d.toNat * 262144 + a.name.toNat * 2048 + a.kind.code * 1)
  | .cvtF64Z32 d a => some (0xA00001F0 + d.toNat * 262144 + a.name.toNat * 2048 + a.kind.code * 1)
  | .cvtF64S64 d a r => some (0xA0000200 + d.toNat * 262144 + a.name.toNat * 2048 + a.kind.code * 1 + r.code * 4)
  | .cvtF64Z64 d a r => some (0xA0000210 + d.toNat * 262144 + a.name.toNat * 2048 + a.kind.code * 1 + r.code * 4)
  | .qpack d a => some (0xA0000220 + d.toNat * 262144 + a.name.toNat * 2048 + a.kind.code * 1)
  | .qunpk d a => some (0xA0000230 + d.toNat * 262144 + a.name.toNat * 2048 + a.kind.code * 1)
  | .fcmpEq d a t => some (0xA0000400 + d.toNat * 262144 + a.name.toNat * 2048 + a.kind.code * 1 + t.code * 4)
  | .fcmpNe d a t => some (0xA0000410 + d.toNat * 262144 + a.name.toNat * 2048 + a.kind.code * 1 + t.code * 4)
  | .fcmpLt d a t => some (0xA0000420 + d.toNat * 262144 + a.name.toNat * 2048 + a.kind.code * 1 + t.code * 4)
  | .fcmpLe d a t => some (0xA0000430 + d.toNat * 262144 + a.name.toNat * 2048 + a.kind.code * 1 + t.code * 4)
  | .fcmpUn d a t => some (0xA0000440 + d.toNat * 262144 + a.name.toNat * 2048 + a.kind.code * 1 + t.code * 4)
  | .fclass d a t => some (0xA0000480 + d.toNat * 262144 + a.name.toNat * 2048 + a.kind.code * 1 + t.code * 4)
  | .xall d a => some (0xA2000000 + d.toNat * 262144 + a.toNat * 2048)
  | .xany d a => some (0xA2000010 + d.toNat * 262144 + a.toNat * 2048)
  | .xeq d a => some (0xA2000020 + d.toNat * 262144 + a.toNat * 2048)
  | .xbits d a => some (0xA2000030 + d.toNat * 262144 + a.toNat * 2048)
  | .xget d a => some (0xA2000040 + d.toNat * 262144 + a.toNat * 2048)
  | .xspread d a => some (0xA2000050 + d.toNat * 262144 + a.toNat * 2048)
  | .xpermAbs d a => some (0xA2000080 + d.toNat * 262144 + a.toNat * 2048)
  | .xpermLo d a w => some (0xA2000090 + d.toNat * 262144 + a.toNat * 2048 + boolCode w * 4)
  | .xpermHi d a w => some (0xA20000A0 + d.toNat * 262144 + a.toNat * 2048 + boolCode w * 4)
  | .xpermFlip d a => some (0xA20000B0 + d.toNat * 262144 + a.toNat * 2048)
  | .xsame d a => some (0xA20000C0 + d.toNat * 262144 + a.toNat * 2048)
  | .scanAdd d a e => some (0xA2000100 + d.toNat * 262144 + a.toNat * 2048 + boolCode e * 4)
  | .scanMinS32 d a e => some (0xA2000110 + d.toNat * 262144 + a.toNat * 2048 + boolCode e * 4)
  | .scanMinZ32 d a e => some (0xA2000120 + d.toNat * 262144 + a.toNat * 2048 + boolCode e * 4)
  | .scanMaxS32 d a e => some (0xA2000130 + d.toNat * 262144 + a.toNat * 2048 + boolCode e * 4)
  | .scanMaxZ32 d a e => some (0xA2000140 + d.toNat * 262144 + a.toNat * 2048 + boolCode e * 4)
  | .scanAnd d a e => some (0xA2000150 + d.toNat * 262144 + a.toNat * 2048 + boolCode e * 4)
  | .scanOr d a e => some (0xA2000160 + d.toNat * 262144 + a.toNat * 2048 + boolCode e * 4)
  | .scanXor d a e => some (0xA2000170 + d.toNat * 262144 + a.toNat * 2048 + boolCode e * 4)
  | .scanFaddF32 d a e => some (0xA2000180 + d.toNat * 262144 + a.toNat * 2048 + boolCode e * 4)
  | .scanFminF32 d a e => some (0xA2000190 + d.toNat * 262144 + a.toNat * 2048 + boolCode e * 4)
  | .scanFmaxF32 d a e => some (0xA20001A0 + d.toNat * 262144 + a.toNat * 2048 + boolCode e * 4)
  | .redAdd d a => some (0xA2000200 + d.toNat * 262144 + a.toNat * 2048)
  | .redMinS32 d a => some (0xA2000210 + d.toNat * 262144 + a.toNat * 2048)
  | .redMinZ32 d a => some (0xA2000220 + d.toNat * 262144 + a.toNat * 2048)
  | .redMaxS32 d a => some (0xA2000230 + d.toNat * 262144 + a.toNat * 2048)
  | .redMaxZ32 d a => some (0xA2000240 + d.toNat * 262144 + a.toNat * 2048)
  | .redAnd d a => some (0xA2000250 + d.toNat * 262144 + a.toNat * 2048)
  | .redOr d a => some (0xA2000260 + d.toNat * 262144 + a.toNat * 2048)
  | .redXor d a => some (0xA2000270 + d.toNat * 262144 + a.toNat * 2048)
  | .redFaddF32 d a => some (0xA2000280 + d.toNat * 262144 + a.toNat * 2048)
  | .redFminF32 d a => some (0xA2000290 + d.toNat * 262144 + a.toNat * 2048)
  | .redFmaxF32 d a => some (0xA20002A0 + d.toNat * 262144 + a.toNat * 2048)
  | .spawn d a => some (0xA4000000 + d.toNat * 262144 + a.name.toNat * 2048 + a.kind.code * 1)
  | .spawnTry d a => some (0xA4000010 + d.toNat * 262144 + a.name.toNat * 2048 + a.kind.code * 1)
  | .join a => some (0xA4000020 + a.name.toNat * 2048 + a.kind.code * 1)
  | .mon a => some (0xA4000080 + a.name.toNat * 2048 + a.kind.code * 1)
  | .mwait => some (0xA4000090)
  | .qinit q a => some (0xA4000100 + q.toNat * 262144 + a.name.toNat * 2048 + a.kind.code * 1)
  | .qpush q a => some (0xA4000110 + q.toNat * 262144 + a.name.toNat * 2048 + a.kind.code * 1)
  | .qpop d a => some (0xA4000120 + d.toNat * 262144 + a.name.toNat * 2048 + a.kind.code * 1)
  | .qtry d a => some (0xA4000130 + d.toNat * 262144 + a.name.toNat * 2048 + a.kind.code * 1)
  | .allow q a => some (0xA4000140 + q.toNat * 262144 + a.name.toNat * 2048 + a.kind.code * 1)
  | .stagepush d a => some (0xA4000180 + d.toNat * 262144 + a.name.toNat * 2048 + a.kind.code * 1)
  | .amsg d a => some (0xA4000190 + d.toNat * 262144 + a.name.toNat * 2048 + a.kind.code * 1)
  | .mma b c i a => some (0xA6000000 + b.toNat * 1048576 + c.toNat * 262144 + i.toNat * 32768 + a.toNat * 2048)
  | .mzero c => some (0xA6000010 + c.toNat * 262144)
  | .obres n a => some (0xA6000100 + n.toNat * 262144 + a.name.toNat * 2048 + a.kind.code * 1)
  | .obrel n => some (0xA6000110 + n.toNat * 262144)
  | .obimp n a => some (0xA6000120 + n.toNat * 262144 + a.name.toNat * 2048 + a.kind.code * 1)
  | .mdrainF32Sp a m c => some (0xA6000201 + a.toNat * 2048 + boolCode m * 8 + boolCode c * 4)
  | .mdrainBf16Sp a m c => some (0xA6000211 + a.toNat * 2048 + boolCode m * 8 + boolCode c * 4)
  | .mdrainE4m3Sp a m c => some (0xA6000221 + a.toNat * 2048 + boolCode m * 8 + boolCode c * 4)
  | .mdrainE5m2Sp a m c => some (0xA6000231 + a.toNat * 2048 + boolCode m * 8 + boolCode c * 4)
  | .mdrainF32 d a m c => some (0xA6000241 + d.toNat * 262144 + a.toNat * 2048 + boolCode m * 8 + boolCode c * 4)
  | .mdrainBf16 d a m c => some (0xA6000251 + d.toNat * 262144 + a.toNat * 2048 + boolCode m * 8 + boolCode c * 4)
  | .mtake => some (0xA6000300)
  | .mpass => some (0xA6000310)
  | .cpy d a k => some (0xA8000001 + d.toNat * 262144 + a.toNat * 2048 + boolCode k * 2)
  | .cpym d a k => some (0xA8000011 + d.toNat * 262144 + a.toNat * 2048 + boolCode k * 2)
  | .gath d a k => some (0xA8000021 + d.toNat * 262144 + a.toNat * 2048 + boolCode k * 2)
  | .xred d a k => some (0xA8000031 + d.toNat * 262144 + a.toNat * 2048 + boolCode k * 2)
  | .tagwaitAny a => some (0xA8000080 + a.name.toNat * 2048 + a.kind.code * 1)
  | .tagwaitAll a => some (0xA8000090 + a.name.toNat * 2048 + a.kind.code * 1)
  | .tagff d a => some (0xA80000A0 + d.toNat * 262144 + a.name.toNat * 2048 + a.kind.code * 1)
  | .fence s o => some (0xA8000400 + s.code * 16 + o.code * 4)
  | .fencex p q s => some (0xA8000480 + p.toNat * 262144 + q.toNat * 2048 + s.code * 16)
  | .prefL1 a h x => some (0xA8000500 + a.toNat * 2048 + h.code * 4 + boolCode x * 1)
  | .prefLlc a h x => some (0xA8000510 + a.toNat * 2048 + h.code * 4 + boolCode x * 1)
  | .prefDemote a x => some (0xA8000520 + a.toNat * 2048 + boolCode x * 1)
  | .cld d a => some (0xA8000580 + d.toNat * 262144 + a.name.toNat * 2048 + a.kind.code * 1)
  | .trap a => some (0xAA000000 + a.name.toNat * 2048 + a.kind.code * 1)
  | .bkpt => some (0xAA000010)
  | .eret => some (0xAA000020)
  | .eretKill => some (0xAA000024)
  | .rdsr d n => some (0xAA000030 + d.toNat * 262144 + n.toNat * 2048)
  | .wrsr n a => some (0xAA000040 + n.toNat * 262144 + a.name.toNat * 2048 + a.kind.code * 1)
  | .gsave a => some (0xAA000051 + a.toNat * 2048)
  | .grest a => some (0xAA000061 + a.toNat * 2048)
  | .isync => some (0xAA000070)
  | .yield => some (0xAA000080)
  | .ldS8 t b o r s h => some (0xAC000000 + t.toNat * 262144 + b.toNat * 2048 + o.toNat * 128 + r.code * 32 + s.code * 4 + h.code * 1)
  | .ldZ8 t b o r s h => some (0xAE000000 + t.toNat * 262144 + b.toNat * 2048 + o.toNat * 128 + r.code * 32 + s.code * 4 + h.code * 1)
  | .ldS16 t b o r s h => some (0xB0000000 + t.toNat * 262144 + b.toNat * 2048 + o.toNat * 128 + r.code * 32 + s.code * 4 + h.code * 1)
  | .ldZ16 t b o r s h => some (0xB2000000 + t.toNat * 262144 + b.toNat * 2048 + o.toNat * 128 + r.code * 32 + s.code * 4 + h.code * 1)
  | .ldS32 t b o r s h => some (0xB4000000 + t.toNat * 262144 + b.toNat * 2048 + o.toNat * 128 + r.code * 32 + s.code * 4 + h.code * 1)
  | .ld64 t b o r s h => some (0xB6000000 + t.toNat * 262144 + b.toNat * 2048 + o.toNat * 128 + r.code * 32 + s.code * 4 + h.code * 1)
  | .st8 t b o r s h => some (0xB8000000 + t.toNat * 262144 + b.toNat * 2048 + o.toNat * 128 + r.code * 32 + s.code * 4 + h.code * 1)
  | .st16 t b o r s h => some (0xBA000000 + t.toNat * 262144 + b.toNat * 2048 + o.toNat * 128 + r.code * 32 + s.code * 4 + h.code * 1)
  | .st32 t b o r s h => some (0xBC000000 + t.toNat * 262144 + b.toNat * 2048 + o.toNat * 128 + r.code * 32 + s.code * 4 + h.code * 1)
  | .st64 t b o r s h => some (0xBE000000 + t.toNat * 262144 + b.toNat * 2048 + o.toNat * 128 + r.code * 32 + s.code * 4 + h.code * 1)
  | .sld32 t b o r s h => some (0xC0000000 + t.toNat * 262144 + b.toNat * 2048 + o.toNat * 128 + r.code * 32 + s.code * 4 + h.code * 1)
  | .sld64 t b o r s h => some (0xC2000000 + t.toNat * 262144 + b.toNat * 2048 + o.toNat * 128 + r.code * 32 + s.code * 4 + h.code * 1)
  | .sst32 t b o r s h => some (0xC4000000 + t.toNat * 262144 + b.toNat * 2048 + o.toNat * 128 + r.code * 32 + s.code * 4 + h.code * 1)
  | .sst64 t b o r s h => some (0xC6000000 + t.toNat * 262144 + b.toNat * 2048 + o.toNat * 128 + r.code * 32 + s.code * 4 + h.code * 1)
  | .atomAdd32 t b r s h => some (0xC8000000 + t.toNat * 262144 + b.toNat * 2048 + r.code * 32 + s.code * 4 + h.code * 1)
  | .atomMinS32 t b r s h => some (0xC8000080 + t.toNat * 262144 + b.toNat * 2048 + r.code * 32 + s.code * 4 + h.code * 1)
  | .atomMinZ32 t b r s h => some (0xC8000100 + t.toNat * 262144 + b.toNat * 2048 + r.code * 32 + s.code * 4 + h.code * 1)
  | .atomMaxS32 t b r s h => some (0xC8000180 + t.toNat * 262144 + b.toNat * 2048 + r.code * 32 + s.code * 4 + h.code * 1)
  | .atomMaxZ32 t b r s h => some (0xC8000200 + t.toNat * 262144 + b.toNat * 2048 + r.code * 32 + s.code * 4 + h.code * 1)
  | .atomAnd32 t b r s h => some (0xC8000280 + t.toNat * 262144 + b.toNat * 2048 + r.code * 32 + s.code * 4 + h.code * 1)
  | .atomOr32 t b r s h => some (0xC8000300 + t.toNat * 262144 + b.toNat * 2048 + r.code * 32 + s.code * 4 + h.code * 1)
  | .atomXor32 t b r s h => some (0xC8000380 + t.toNat * 262144 + b.toNat * 2048 + r.code * 32 + s.code * 4 + h.code * 1)
  | .atomSwap32 t b r s h => some (0xC8000400 + t.toNat * 262144 + b.toNat * 2048 + r.code * 32 + s.code * 4 + h.code * 1)
  | .atomCas32 t b r s h => some (0xC8000480 + t.toNat * 262144 + b.toNat * 2048 + r.code * 32 + s.code * 4 + h.code * 1)
  | .atomAdd64 t b r s h => some (0xCA000000 + t.toNat * 262144 + b.toNat * 2048 + r.code * 32 + s.code * 4 + h.code * 1)
  | .atomMinS64 t b r s h => some (0xCA000080 + t.toNat * 262144 + b.toNat * 2048 + r.code * 32 + s.code * 4 + h.code * 1)
  | .atomMinZ64 t b r s h => some (0xCA000100 + t.toNat * 262144 + b.toNat * 2048 + r.code * 32 + s.code * 4 + h.code * 1)
  | .atomMaxS64 t b r s h => some (0xCA000180 + t.toNat * 262144 + b.toNat * 2048 + r.code * 32 + s.code * 4 + h.code * 1)
  | .atomMaxZ64 t b r s h => some (0xCA000200 + t.toNat * 262144 + b.toNat * 2048 + r.code * 32 + s.code * 4 + h.code * 1)
  | .atomAnd64 t b r s h => some (0xCA000280 + t.toNat * 262144 + b.toNat * 2048 + r.code * 32 + s.code * 4 + h.code * 1)
  | .atomOr64 t b r s h => some (0xCA000300 + t.toNat * 262144 + b.toNat * 2048 + r.code * 32 + s.code * 4 + h.code * 1)
  | .atomXor64 t b r s h => some (0xCA000380 + t.toNat * 262144 + b.toNat * 2048 + r.code * 32 + s.code * 4 + h.code * 1)
  | .atomSwap64 t b r s h => some (0xCA000400 + t.toNat * 262144 + b.toNat * 2048 + r.code * 32 + s.code * 4 + h.code * 1)
  | .atomCas64 t b r s h => some (0xCA000480 + t.toNat * 262144 + b.toNat * 2048 + r.code * 32 + s.code * 4 + h.code * 1)
  | .movi d i => some (0xCC000000 + d.toNat * 262144 + i.toNat * 1)
  | .movhi d i => some (0xCE000000 + d.toNat * 262144 + i.toNat * 1)
  | .smovi d i => some (0xD0000000 + d.toNat * 262144 + i.toNat * 1)
  | .smovhi d i => some (0xD2000000 + d.toNat * 262144 + i.toNat * 1)
  | .wbase i => some (0xD4000000 + i.toNat * 1)
  | .cbase i => some (0xD6000000 + i.toNat * 1)
  | .bar k n => some (0xD8000000 + k.toNat * 262144 + n.toNat * 1)
  | .rcv s b => some (0xDA000000 + s.toNat * 262144 + b.toNat * 1)
  | .bnz c o => some (0xDC000000 + c.toNat * 262144 + o.toNat * 1)
  | .bra o => some (0xDDFC0000 + o.toNat * 1)
  | .bz c o => some (0xDE000000 + c.toNat * 262144 + o.toNat * 1)
  | .call c o => some (0xE0000000 + c.toNat * 262144 + o.toNat * 1)
  | .jmpi c => some (0xE2000000 + c.toNat * 262144)
  | .calli c => some (0xE4000000 + c.toNat * 262144)
  | .ret c => some (0xE6000000 + c.toNat * 262144)
  | .exit c => some (0xE8000000 + c.toNat * 262144)
  | .longLatencyComplete _ => none
  | .storeAcknowledge _ _ => none
  | .orderingPointAccess _ _ => none
  | .leaseRequest _ _ => none
  | .leaseRecall _ _ => none
  | .readHoldExpiry _ _ => none
  | .rds _ => none
  | .rdx _ => none
  | .fwd _ => none
  | .inv _ => none
  | .ack _ => none
  | .data _ => none
  | .grant _ => none
  | .binv _ => none
  | .wb _ => none
  | .pageWalk _ _ => none
  | .pageWalkTimeout _ _ _ => none
  | .frespResolve _ _ => none
  | .frespRefuse _ _ => none
  | .vldEqAtSlice _ _ => none
  | .vldLeAtSlice _ _ => none
  | .vstAtSlice _ _ => none
  | .versionWaitTimeout _ _ => none
  | .vldReturnRetry _ _ => none
  | .vfloorApply _ _ => none
  | .mwaitWake _ _ _ => none
  | .joinZero _ _ _ => none
  | .tagwaitSatisfied _ _ _ => none
  | .queueWordPerform _ _ _ => none
  | .ringSpaceResume _ _ _ => none
  | .monitorTimeout _ _ _ => none
  | .waveHaltStop _ _ => none
  | .handlerEntry _ => none
  | .groupRetire _ => none
  | .groupEnd _ => none
  | .engineEntryStart _ _ => none
  | .engineBeat _ _ _ _ => none
  | .engineCommandComplete _ _ _ => none
  | .xredElement _ _ _ => none
  | .reductionContribution _ _ _ => none
  | .reductionUnitTimeout _ _ _ => none
  | .followOnIssue _ => none
  | .mmaStart _ => none
  | .mmaCheck _ _ => none
  | .drainPortOperation _ _ => none
  | .binWindowExpiry _ _ => none
  | .binAdmit _ _ => none
  | .dispatchDecision _ => none
  | .coreContextPass _ _ => none
  | .spawnDeadlockEviction _ _ => none
  | .amsgDelivery _ => none
  | .stageGovernorTick _ => none
  | .stagePartialTake _ _ _ => none
  | .wridx _ _ _ _ => none
  | .queueDescriptorWrite _ _ _ => none
  | .mapperSlotFill _ => none
  | .queuePriorityAge _ _ => none
  | .idleQuantumExpiry _ _ => none
  | .launch _ _ => none
  | .jobCard _ _ => none
  | .pipeline _ _ => none
  | .waitOnWord _ _ => none
  | .signal _ _ => none
  | .pad _ _ => none
  | .launchTranslation _ _ => none
  | .regionArming _ _ => none
  | .launchComplete _ _ => none
  | .waitOnWordRecheck _ _ => none
  | .waitOnWordTimeout _ _ => none
  | .cardReady _ _ => none
  | .cardComplete _ _ => none
  | .pageClassCommand _ _ => none
  | .invalidationCommand _ _ => none
  | .regionDisarm _ _ => none
  | .heapGrant _ _ _ => none
  | .pageZero _ _ => none
  | .keyLoad _ _ => none
  | .keyErase _ _ => none
  | .contextRecordWrite _ _ _ => none
  | .preemptDrain _ _ => none
  | .preemptSave _ _ => none
  | .contextResume _ _ => none
  | .contextReset _ _ => none
  | .preemptDeadlineExpiry _ _ => none
  | .plateWatchdogExpiry _ => none
  | .platePortError _ => none
  | .thermalTrip _ => none
  | .plateDeclareLost _ => none
  | .plateResetReturn _ _ => none
  | .sliceRetireNow _ _ => none
  | .bucketHandover _ => none
  | .treeEnable _ _ _ => none
  | .fedBarrierArrival _ _ _ _ => none
  | .fedAnnounce _ _ => none
  | .controlRegisterWrite _ _ _ _ => none
  | .scrub _ _ _ => none
  | .uncorrectableError _ _ _ => none
  | .meshFlitRetry _ => none
  | .meshLinkDown _ _ _ => none
  | .d2dPacket _ _ _ => none
  | .linkRetrain _ _ => none
  | .linkDown _ _ => none
  | .crossDieTimeout _ => none
  | .hostBar4Read _ _ _ => none
  | .hostPostedWrite _ _ _ _ => none
  | .hostAtomicop _ _ _ _ _ _ => none
  | .hostCompletion _ _ => none
  | .fabricPacket _ _ => none
  | .wavelengthPark _ => none
  | .wavelengthRelock _ => none
  | .wavelengthCrcFail _ _ => none
  | .getStatus => none
  | .readPower _ => none
  | .readLog _ _ _ => none
  | .resetDie _ => none
  | .fetchCrashRecord _ => none
  | .enterDebugHalt _ => none
  | .leaveDebugHalt _ => none
  | .getVersion _ => none
  | .getCapabilities _ => none
  | .negotiateAlgorithms _ => none
  | .getDigests _ => none
  | .getCertificate _ => none
  | .challenge _ _ => none
  | .getMeasurements _ _ => none
  | .moduleReset => none
  | .imageCheck _ _ _ _ _ => none
  | .memoryTraining _ _ => none
  | .plateSelfTest _ _ => none
  | .regulatorSample _ _ => none
  | .watchRecord _ _ _ => none
  | .fhead _ _ => none
  | .faultDeliveryEnable _ _ => none
  | .fedBarrierEn _ _ _ => none

/-- The word of an instruction. -/
def encode (i : Instr) : Option W32 := (encodeNat i).map (BitVec.ofNat 32)

/-- What the decoder reads from an instruction whose bits are `w`, numbered as the opcode table
numbers them: one 32-bit word, little-endian (R4); a row without bits has no word. -/
noncomputable def decodeTableWord (nbits w : Nat) : Option Instr :=
  if nbits = 0 then none else decodeNat (w % 4294967296)

end Sys2Proof
end

