-- ==== Sys2Proof/Config.lean ====
section
/-! DEFINITION. What one module fixes and the spec does not say: free values, each an opaque constant
with no body, so that no proof can see it. Each has its row in notes/assumptions. -/

namespace Sys2Proof

/-- The moves that can be made next (log 1). Everything that happens in the package between two
instructions, and everything that reaches it from outside, is one of these. -/
inductive Move where
  /-- One word of the chosen path is issued by a pipe of a core (R361, R216). -/
  | issue (core pipe pick : Nat)
  /-- One of the steps of the opcode table that have no encoding happens. -/
  | event (i : Instr)
  /-- `rc` reference ticks and `ac` arithmetic cycles pass (R2). -/
  | pass (rc ac : Nat)
  /-- A waiting word whose condition holds completes (R132, R143). -/
  | resume (core slot lane : Nat)
  /-- One register of one lane of a performed load is written before its flag falls (R33). -/
  | deliver (id lane reg : Nat)
  /-- A cached copy leaves an L1, a TLB, an instruction cache or a slice (R240, R252). -/
  | evict (what unit key : Nat)
  /-- A page-table page starts or ends a migration (R255). -/
  | migrate (die page : Nat) (on : Bool)
  /-- A store of a core or an engine takes effect on the control registers (R6). -/
  | ctl (die off size val : Nat)
  /-- An arrival store of a context reaches a federation barrier's unit (R419). -/
  | arrive (die k ctx n : Nat)
  /-- The home of a directory line gives its transaction up (R422). -/
  | homeTimeout (line : Nat)
  /-- The host answers an access of an engine's beat with an error status (R415). -/
  | hostFail (core cls seq beat : Nat)
  /-- The host writes its own memory, or another package its own (R235, R257, R273). -/
  | outside (pa n val : Nat)
  /-- The host (0) or package n (1 + n) stops or starts again to answer requests (R415, R422). -/
  | quiet (who : Nat) (on : Bool)
  /-- An entry of an optical die's route table is set: the mask of its ports that leads to a package (R426). -/
  | route (oid pkg mask : Nat)
  /-- The die writes a record of its own behind the reply to held reads of the line (R245). -/
  | own (pa n val : Nat)
  deriving DecidableEq, Repr, Inhabited

/-- The next move when nothing else is due: which agent moves, and what reaches the module from
outside (log 1). -/
opaque Config.move : Nat → Move

/-- A choice that the spec leaves to the machine: the n-th one asked for (log 1). -/
opaque Config.choice : Nat → Nat

/-- Which of the results within its bound an approximated function gives for a bit pattern; the same
input gives the same result on every core (R104; log 5). -/
opaque Config.approx : (fn ty x : Nat) → Nat

/-- KEY slot of a context on a die, under which the scheduler writes its ring records: no register names it (R305; log 90). -/
opaque Config.ctxKey : (die ctx : Nat) → Nat

/-- Route table of an optical die as it stands at reset: the mask of its ports that leads to a package (R426; log 24). -/
opaque Config.route : (oid pkg : Nat) → BitVec 16

/-- Optical die by which a package's lines go (R426; log 24). -/
opaque Config.oidOf : (pkg line : Nat) → Nat

/-- What a cipher block of 16 bytes reads as under one key identity when it was written under another: decryption of one
key's ciphertext by the other key; the block's address / 16 fixes its sector and its place there (R239, R435; log 6). -/
opaque Config.recrypt : (written read block : Nat) → BitVec 128 → BitVec 128

/-- What a register or scratchpad byte that no word of the group has written holds on a core that has run
earlier groups of its context (R14; log 2). -/
opaque Config.leftover : (seed file key : Nat) → W32

/-- The identity word of a die (R439; log 7). -/
opaque Config.identity : Nat → W64

/-- The data of an SPDM response beside the measurements that it carries, its signatures among them: die, command, argument,
conversation, image hash and those measurements (R438; log 7). -/
opaque Config.spdm : (die cmd arg conv hash : Nat) → (values : List Nat) → List Nat

/-- Hash of a die's boot ROM (R437, R438; log 7). -/
opaque Config.bootHash : Nat → Nat

/-- Fuse configuration of a die, but for its rollback counter (R437, R438; log 7). -/
opaque Config.fuses : Nat → Nat

/-- The bytes of a crash record beyond its event and time (R431; log 7). -/
opaque Config.crash : (die event time : Nat) → List Nat

/-- Number of this package in its domain, which the home package of a federation barrier names (R418; log 7). -/
opaque Config.package : Nat

/-- Result of a self-test or of a link's retraining is an input; this is the power of the optical dies
in mW, which the spec lets the side-band port read (R431; log 7). -/
opaque Config.oidPower : Nat → Nat

end Sys2Proof
end

