-- ==== Sys2Proof/Machine/FMap.lean ====
section
/-! DEFINITION. Finite maps as lists of key and value, keys strictly rising, and byte memory as a list
of cells in canonical form: addresses strictly rising and no cell equal to what an unlisted address
reads as (log 3: zero). -/

namespace Sys2Proof.Machine

/-- A finite map by numeric key. -/
abbrev FMap (α : Type) := List (Nat × α)

/-- The value at a key, or the default. -/
def FMap.get {α : Type} (m : FMap α) (k : Nat) (d : α) : α :=
  match m with
  | [] => d
  | (j, v) :: r => if j = k then v else FMap.get r k d

/-- Put a value at a key, keeping the keys in order. -/
def FMap.set {α : Type} (m : FMap α) (k : Nat) (v : α) : FMap α :=
  match m with
  | [] => [(k, v)]
  | (j, u) :: r => if k < j then (k, v) :: (j, u) :: r else if j = k then (k, v) :: r else (j, u) :: FMap.set r k v

/-- Drop a key. -/
def FMap.del {α : Type} (m : FMap α) (k : Nat) : FMap α := m.filter (fun e => e.1 != k)

/-- Whether a key is listed. -/
def FMap.has {α : Type} (m : FMap α) (k : Nat) : Bool := m.any (fun e => e.1 == k)

/-- Change the value at a key. -/
def FMap.upd {α : Type} (m : FMap α) (k : Nat) (d : α) (f : α → α) : FMap α := m.set k (f (m.get k d))

/-- The values at `n` keys from `k` of the part of a map that holds no smaller key. -/
def FMap.run {α : Type} (d : α) : (n k : Nat) → FMap α → List α
  | 0, _, _ => []
  | n + 1, k, [] => d :: FMap.run d n (k + 1) []
  | n + 1, k, (j, v) :: r => if j = k then v :: FMap.run d n (k + 1) r else d :: FMap.run d n (k + 1) ((j, v) :: r)

/-- The values at `n` keys from `k`. -/
def FMap.row {α : Type} (m : FMap α) (k n : Nat) (d : α) : List α := FMap.run d n k (m.filter fun e => k ≤ e.1)

/-- Put values at the keys from `k` on. -/
def FMap.setRow {α : Type} (m : FMap α) (k : Nat) (vs : List α) : FMap α :=
  m.filter (fun e => e.1 < k) ++ ((List.range' k vs.length).zip vs ++ m.filter (fun e => k + vs.length ≤ e.1))

/-- The byte at an address; an unlisted address reads 0 (log 3). -/
def Mem.get (m : List Host.Cell) (a : Nat) : Byte :=
  match m with
  | [] => 0
  | (j, v) :: r => if j = a then v else if a < j then 0 else Mem.get r a

/-- Write one byte, keeping the canonical form: writing 0 removes the cell. -/
def Mem.put (m : List Host.Cell) (a : Nat) (b : Byte) : List Host.Cell :=
  match m with
  | [] => if b = 0 then [] else [(a, b)]
  | (j, v) :: r =>
    if a < j then (if b = 0 then (j, v) :: r else (a, b) :: (j, v) :: r)
    else if j = a then (if b = 0 then r else (a, b) :: r)
    else (j, v) :: Mem.put r a b

/-- The canonical form of memory. -/
def Memory.wf (m : List Host.Cell) : Bool :=
  match m with
  | [] => true
  | (a, b) :: r => b != 0 && (match r with | [] => true | (c, _) :: _ => a < c) && Memory.wf r

/-- `n` bytes from `a` as a little-endian number (R4). -/
def Mem.load (m : List Host.Cell) (a : Nat) : Nat → Nat
  | 0 => 0
  | n + 1 => (Mem.get m a).toNat + 256 * Mem.load m (a + 1) n

/-- Write the low `n` bytes of a number from `a`, little-endian (R4). -/
def Mem.store (m : List Host.Cell) (a : Nat) : Nat → Nat → List Host.Cell
  | 0, _ => m
  | n + 1, v => Mem.store (Mem.put m a (BitVec.ofNat 8 v)) (a + 1) n (v / 256)

end Sys2Proof.Machine
end

