-- ==== Sys2Proof/Machine/State.lean ====
section
/-! DEFINITION. The state of one package as plain data, every piece the spec gives it, and reset.
The list of all pieces with their reset values is INVENTORY.md, '## State'. -/

namespace Sys2Proof.Machine

/-- Why the machine stops with a fault. No meaning raises one: every trap, fault and error of the spec is
a next state, and an address that the spec says does not exist takes the access-violation trap of R115
or the error status of R414. -/
inductive Fault where
  /-- Raised by nothing; kept because the host's interface names a fault type. Safe. -/
  | absent (pa : Nat)
  deriving DecidableEq, Repr

/-- Why a step has no meaning. -/
inductive Refusal where
  /-- Raised by an arm of `exec` whose instruction has no meaning yet. Safe. -/
  | notModelled (mnemonic : String)
  deriving DecidableEq, Repr

/-- LLC replacement priority of a line (R125); `absent` when no slice holds it. -/
inductive Prio where
  | normal
  | evictFirst
  | evictLast
  | absent
  deriving DecidableEq, Repr

/-- State of one die's copy of a hardware-coherent line (R249): I, S, E, O, M. -/
inductive Moesi where
  | inv
  | sh
  | ex
  | ow
  | mo
  deriving DecidableEq, Repr

/-- What made a group: a launch or card (R349, R352), SPAWN threads (R302), active messages (R312), a stage ring (R354). -/
inductive GKind where
  | launch
  | spawned
  | message
  | stage
  deriving DecidableEq, Repr

/-- The group states of R226. -/
inductive GPhase where
  | admitted
  | running
  | halting
  | halted
  | handler
  | ending
  | retiring
  deriving DecidableEq, Repr

/-- One lane's access: on its way, waiting for a version at the slice (R138), returned by a full slice (R294), performed at its ordering point, complete (acknowledged, R122), ended by a trap that is held or taken (R139). -/
inductive AccSt where
  | pend
  | waitVer
  | back
  | perf
  | done
  | failed
  deriving DecidableEq, Repr

/-- What a pending memory word does. -/
inductive OpKind where
  | load
  | store
  | atom
  | vldEq
  | vldLe
  | vst
  | vfloor
  | pref
  | spld
  | spst
  | cld
  deriving DecidableEq, Repr

/-- A chain entry: unstarted, running, paused on a page fault (R180), waiting for its reduction tree (R178), all beats moved. -/
inductive EntSt where
  | queued
  | running
  | paused
  | tree
  | landed
  deriving DecidableEq, Repr

/-- Operations of a matrix chain (R332). -/
inductive MxKind where
  | mma
  | mzero
  | drain
  deriving DecidableEq, Repr

/-- Phases of an accepted launch (R347): translation, arming, dispatching, complete. -/
inductive LPhase where
  | translate
  | arm
  | ready
  | done
  deriving DecidableEq, Repr

/-- Entries that dispatch groups (R341). -/
inductive LKind where
  | launch
  | card
  | pipeline
  deriving DecidableEq, Repr

/-- STATE of a user queue (R339). -/
inductive QSt where
  | disabled
  | idle
  | pending
  | resident
  deriving DecidableEq, Repr

/-- State of a die-to-die link (R420, R421). -/
inductive LinkSt where
  | up
  | retraining
  | down
  deriving DecidableEq, Repr

/-- One lane's part of a memory word. -/
structure Acc where
  /-- The lane, 0 for a scalar word (R114). -/
  lane : Nat := 0
  /-- Virtual address (R114). -/
  va : W64 := 0
  /-- Package physical address (R234, R235). -/
  pa : Nat := 0
  /-- Table entry that translated it (class, key, VER) (R237). -/
  leaf : W64 := 0
  /-- Data to store or data loaded (R118, R126, R135). -/
  data : BitVec 256 := 0
  /-- CAS compare value, or the version (R126, R135). -/
  aux : W64 := 0
  /-- Progress (R122, R263). -/
  st : AccSt := .pend
  /-- Rc ticks left of a version wait (R138). -/
  left : Nat := 0
  /-- Rc ticks left before a returned access is sent again (R294). -/
  back : Nat := 0
  /-- Trap code of a failed access (R139, R373). -/
  code : Nat := 0
  /-- Destination registers already delivered (R33) (R33). -/
  gone : BitVec 8 := 0
  /-- Rc ticks its reply has waited at a plate port (R365). -/
  port : Nat := 0
  /-- The flit that brings its data down to the core: 1 + 32 * word + lane of the first access that it answers, 0 for data that
  comes by none (R365, R369, R407). -/
  flit : Nat := 0
  /-- Rc ticks left of the cross-die time-out of its request, counted down to 1; 0 for none (R422). -/
  cross : Nat := 0
  /-- Rc ticks left of the walk that its check waits for when GREST issued it again, counted down to 1; 0 for none (R255, R384). -/
  walk : Nat := 0
  deriving DecidableEq, Repr

/-- A spawned thread or an active message (R149, R162). -/
structure Thread where
  /-- Entry address, or handler number (R299, R312). -/
  key : Nat := 0
  /-- An active message (R312). -/
  msg : Bool := false
  /-- Launch identifier (R299). -/
  lid : Nat := 0
  /-- Join-counter address (R149). -/
  join : W64 := 0
  /-- Payload words (R149, R162). -/
  pay : List W32 := []
  /-- Issuing lane while it waits (R150). -/
  lane : Nat := 0
  /-- Wave key of the sender while it waits (R150). -/
  wave : Nat := 0
  /-- Descriptor of an active message (R162). -/
  desc : W32 := 0
  /-- Target die of an active message (R312). -/
  tdie : Nat := 0
  /-- Context (R299). -/
  ctx : Nat := 0
  /-- When it was spawned, by which the oldest queued work is told (R310). -/
  born : Nat := 0
  deriving DecidableEq, Repr

/-- The waiting word a path stands at, with what its completion tests (R132, R133, R134, R143). `fence` holds the ids of the operations it waits for, and for the chains of paths C, G, X and M how far they have to be done; `wide` says that its acquire is at .CLUSTER or wider. `spawn`, `stagePush` and `amsg` hold the lanes' threads, records and messages that are not placed yet. -/
inductive WaitWord where
  | fence (rel acq wide : Bool) (ids tails : List Nat)
  | spawn (ts : List Thread)
  | join (as : List Acc)
  | mon (as : List Acc)
  | mwait
  | tagAny (m : W64)
  | tagAll (m : W64)
  | qpush (q : Nat) (v : W32) (ticket : Nat)
  | qpop (q : Nat) (opf : Bool) (reg : Nat) (ticket : Nat)
  | stagePush (n : Nat) (ts : List Thread)
  | amsg (ts : List Thread)
  | obrel (n : Nat)
  | mtake
  | mpass
  | gsave (a : W64)
  deriving DecidableEq, Repr

/-- Lane states of R213 that a path's lanes share; `fetch` of a parked one says that an instruction fetch met the fault; `stay` is a lane that has been answered while its group is halted or while its trap is still to be taken, and that issues nothing before ERET (R220, R221); `left` of a wait is what remains of MWTIME, 0 for no time-out (R381). -/
inductive Status where
  | run
  | bar (slot : Nat)
  | rcv (b : Nat)
  | parked (va : Nat) (fetch : Bool)
  | stay
  | walk (va left : Nat)
  | wait (w : WaitWord) (pend : Lanes) (left : Nat)
  deriving DecidableEq, Repr

/-- The part of a clause header that its words still need (R29, R30, R34). -/
structure Clause where
  /-- WAIT: flags that must be zero before the clause starts (R29). -/
  waitM : BitVec 12 := 0
  /-- SETA flag or 15 (R29). -/
  setA : Nat := 15
  /-- SETB flag or 15 (R29). -/
  setB : Nat := 15
  /-- Words of the clause, 1 to 8 (R29). -/
  len : Nat := 1
  /-- Long-latency words bound to SETA (R29). -/
  bind : Nat := 0
  /-- Index of the next word (R30). -/
  pos : Nat := 0
  /-- Long-latency words issued so far (n of R30) (R30). -/
  nLong : Nat := 0
  /-- Its words as they were fetched at its header; a word not listed is fetched when it issues (R169). -/
  words : List W32 := []
  deriving DecidableEq, Repr

/-- A path: the lanes that issue together (R76), all in one state of R213. -/
structure Path where
  /-- Executing set (R76, R213). -/
  lanes : Lanes := 0
  /-- PC of the lanes (R28, R213). -/
  pc : W64 := 0
  /-- Place in the clause, none at a header (R30, R34). -/
  clause : Option Clause := none
  /-- 8-bit saturating age (R216). -/
  age : Nat := 0
  /-- Issued YIELD since its last issue (R170, R216). -/
  yielded : Bool := false
  /-- Lane state (R213). -/
  status : Status := .run
  /-- Acquire accesses that hold the path's later L-path words (R123). -/
  hold : List Nat := []
  /-- Its place in the clause has still to be found from the code page (R34) (R34). -/
  seek : Bool := false
  deriving DecidableEq, Repr

/-- A lane's monitor (R155). -/
structure Mon where
  /-- Physical line watched (R155). -/
  line : Nat := 0
  /-- Watched virtual address, for EADDR of a time-out (R373). -/
  va : W64 := 0
  /-- Die whose slice records the watch (R155, R411). -/
  die : Nat := 0
  /-- PIN of the watched page, for that slice (R244). -/
  pin : Nat := 0
  /-- Armed (R155). -/
  armed : Bool := false
  /-- Triggered (R155). -/
  trig : Bool := false
  deriving DecidableEq, Repr

/-- A reconvergence barrier of a wave (R93). -/
structure RBar where
  /-- RB.mask (R93). -/
  mask : Lanes := 0
  /-- RB.arrived (R93). -/
  arrived : Lanes := 0
  /-- RB.withdrawn (R93, R94). -/
  withdrawn : Lanes := 0
  deriving DecidableEq, Repr

/-- What handler entry puts aside for the wave that runs the handler (R225). -/
structure Saved where
  /-- Program paths kept apart until ERET (R225). -/
  paths : List Path := []
  /-- Saved FPMODE (R225). -/
  fpmode : W32 := 0
  /-- Saved FPSTAT (R225). -/
  fpstat : W32 := 0
  /-- Saved XSTAT (R225). -/
  xstat : W32 := 0
  /-- Saved WBASE (R225). -/
  wbase : Nat := 0
  /-- Saved CBASE (R225). -/
  cbase : BitVec 9 := 0
  deriving DecidableEq, Repr

/-- A wave slot: registers, modes, flags, paths and halt state of the wave it holds. -/
structure Wave where
  /-- Group whose wave occupies the slot (R210, R361). -/
  gid : Option Nat := none
  /-- Wave index in the group (wix, vwave) (R17, R18). -/
  wix : Nat := 0
  /-- Lanes ever launched (R205, R213). -/
  launched : Lanes := 0
  /-- Lanes that have exited (R92, R213). -/
  exited : Lanes := 0
  /-- Paths of the wave, the issuing one first (R76). -/
  paths : List Path := []
  /-- 0 when the core's registers are clear, else which earlier contents its unwritten registers hold (R14, R433). -/
  seed : Nat := 0
  /-- Main register file, key 32*physical register + lane (R13, R14). -/
  main : FMap W32 := []
  /-- Operand file o0-o15, key 32*r + lane (R13). -/
  opf : FMap W32 := []
  /-- Last-result queue l0-l3, key 32*e + lane (R16). -/
  lastq : FMap W64 := []
  /-- Scalar registers s0-s95 (R18). -/
  sregs : FMap W32 := []
  /-- XSTAT (R20). -/
  xstat : W32 := 0
  /-- FPMODE: FTZ, RM (R21). -/
  fpmode : W32 := 0
  /-- FPSTAT: NX UF OF DZ NV (R21). -/
  fpstat : W32 := 0
  /-- WBASE window base (R14). -/
  wbase : Nat := 0
  /-- CBASE constant window (R24). -/
  cbase : BitVec 9 := 0
  /-- MWTIME in rc ticks (R23, R212). -/
  mwtime : W32 := 100000#32
  /-- Completion flags f0-f11, counters 0 to 63 (R22, R30). -/
  flags : FMap Nat := []
  /-- Reconvergence barriers 0-15 (R93). -/
  rbs : FMap RBar := []
  /-- Monitors, one per lane (R155). -/
  mons : FMap Mon := []
  /-- Issue order stamp, 0 for never issued (R361). -/
  lastIssue : Nat := 0
  /-- SKID of the wave in the present halt (R23, R222). -/
  skid : Nat := 0
  /-- The wave has stopped for the halt (R222). -/
  stopped : Bool := false
  /-- Ac left in which the wave may issue skid words (R222). -/
  skidAc : Nat := 0
  /-- Program state put aside while the wave runs the handler (R225). -/
  saved : Option Saved := none
  deriving DecidableEq, Repr

/-- A group barrier slot (R95). -/
structure Bar where
  /-- B.count (R95). -/
  count : Nat := 0
  /-- B.arrived (R95). -/
  arrived : Nat := 0
  /-- B.phase (R95). -/
  phase : Bool := false
  deriving DecidableEq, Repr

/-- A scratchpad queue of a group (R157). -/
structure Queue where
  /-- Initialised (R157). -/
  init : Bool := false
  /-- BASE (R158). -/
  base : Nat := 0
  /-- LOGN (R158). -/
  logn : Nat := 0
  /-- Head (R159, R382). -/
  head : W32 := 0
  /-- Tail (R159, R382). -/
  tail : W32 := 0
  /-- Allowance (R159). -/
  allow : Nat := 0
  /-- Next ticket of a waiting push (order of arrival) (R160). -/
  pushed : Nat := 0
  /-- Next ticket of a waiting pop (R160). -/
  popped : Nat := 0
  deriving DecidableEq, Repr

/-- An operand-buffer reservation record ob0-ob15 of a group (R183, R186). -/
structure Resv where
  /-- EXP (R183). -/
  exp : Bool := false
  /-- FMT (R183). -/
  fmt : Nat := 0
  /-- ROLE (R183). -/
  roleB : Bool := false
  /-- SC (R183). -/
  sc : Bool := false
  /-- Tiles, 1 to 8 (R183). -/
  nt : Nat := 0
  /-- Start in 256-byte units (R183). -/
  base : Nat := 0
  /-- Exporting core of an import (R186). -/
  imp : Option Nat := none
  /-- Imported reservation: allocation stamp it names (R186). -/
  impOf : Nat := 0
  /-- Allocation stamp, so that an import can be found stale (R185, R186). -/
  stamp : Nat := 0
  deriving DecidableEq, Repr

/-- A trap taken or held (R222, R224, R373, R374). -/
structure Trap where
  /-- CAUSE.CODE (R374). -/
  code : Nat := 0
  /-- EPCH:EPCL (R23, R373). -/
  epc : W64 := 0
  /-- EADDRH:EADDRL (R23, R373). -/
  eaddr : W64 := 0
  /-- EMASK (R23). -/
  emask : Lanes := 0
  /-- Lanes it was raised for, whatever the handler writes to EMASK (R139). -/
  own : Lanes := 0
  /-- CAUSE.REDIR (R374). -/
  redir : Bool := true
  /-- Raising wave (R222). -/
  wave : Nat := 0
  /-- Memory word whose flag stays raised (R139), 0 for none (R139, R224). -/
  op : Nat := 0
  /-- The handler wrote EPC or EMASK (R374). -/
  moved : Bool := false
  /-- It arose from a handler's own word while its die was in debug halt, and ends the group as soon as the halt ends (R225, R423). -/
  late : Bool := false
  /-- Flag that its ended command keeps raised while the trap is held, 15 for none (R224, R393). -/
  flag : Nat := 15
  deriving DecidableEq, Repr

/-- A resident group (R210, R226). -/
structure Group where
  /-- Context (CTXN) (R23). -/
  ctx : Nat := 0
  /-- Core it runs on (R210). -/
  core : Nat := 0
  /-- Launch identifier (R299). -/
  lid : Nat := 0
  /-- What made it (R226, R302). -/
  kind : GKind := .launch
  /-- Stage number of a stage group (R354). -/
  stage : Nat := 0
  /-- Group index (R207). -/
  index : Nat := 0
  /-- Wave slots of its waves in wave order (R210, R361). -/
  slots : List Nat := []
  /-- Registers per lane granted (ALLOC) (R23, R210). -/
  regs : Nat := 96
  /-- Scratchpad bytes granted (SPSIZE) (R23, R210). -/
  spsize : Nat := 0
  /-- Barrier slots granted (R210). -/
  nbar : Nat := 0
  /-- Matrix role (R187). -/
  role : Option Nat := none
  /-- Element indices of the levels outside the wave levels (R18, R207). -/
  lvix : FMap Nat := []
  /-- State of R226 (R226). -/
  phase : GPhase := .admitted
  /-- The trap being handled: CAUSE, EPC, EADDR, EMASK (R23, R222). -/
  trap : Option Trap := none
  /-- SKIDSEL (R23). -/
  skidsel : Nat := 0
  /-- Wave that runs the handler (R225). -/
  hwave : Nat := 0
  /-- Held traps in the order they arose (R224). -/
  held : List Trap := []
  /-- 0 when the core's scratchpad is clear, else which earlier contents its unwritten bytes hold (R433). -/
  seed : Nat := 0
  /-- Scratchpad, byte by byte (R129, R233). -/
  scratch : FMap Byte := []
  /-- Group barrier slots 0-31 (R95, R210). -/
  bars : FMap Bar := []
  /-- Scratchpad queues 0-7 (R157). -/
  queues : FMap Queue := []
  /-- Allocated reservations ob0-ob15 (R22, R183). -/
  resv : FMap Resv := []
  /-- Pending follow-ons (R193). -/
  follow : Nat := 0
  /-- Join-counter address of each lane's thread (R152). -/
  joins : FMap W64 := []
  /-- The group's first word must be GREST (R168, R349). -/
  restore : Bool := false
  /-- No word of the group has issued (R168, R226). -/
  fresh : Bool := true
  /-- Admission order, for eviction (R310). -/
  started : Nat := 0
  /-- The group is a chunk of a job card (R352). -/
  card : Bool := false
  /-- Image address of a restore group (R349). -/
  img : W64 := 0
  /-- Rc ticks left of what its join decrements wait for, counted down to 1; 0 for none (R247, R422). -/
  wleft : Nat := 0
  /-- Place whose answer that wait is for; none for a walk (R422, R424). -/
  wfar : Option Nat := none
  /-- Chunk of a card: first record and number of records (R352). -/
  recs : Nat × Nat := (0, 0)
  deriving DecidableEq, Repr

/-- A memory word in flight (R30, R122). -/
structure MemOp where
  /-- Identity (R30). -/
  id : Nat := 0
  /-- Issuing core (R256). -/
  core : Nat := 0
  /-- Issuing wave slot (R256). -/
  slot : Nat := 0
  /-- Issuing group (R256). -/
  gid : Nat := 0
  /-- Context of the issuing group (R122). -/
  ctx : Nat := 0
  /-- What the word does (R118). -/
  kind : OpKind := .load
  /-- Atomic operation, or the load extension (R41). -/
  fn : Nat := 0
  /-- Access size in bytes (R41). -/
  size : Nat := 4
  /-- Sign-extending load (R118). -/
  signed : Bool := false
  /-- Address of the word (R139). -/
  pc : W64 := 0
  /-- Flag bound, 15 for none (R30). -/
  flag : Nat := 15
  /-- Carries acquire (R123). -/
  acq : Bool := false
  /-- Scope (R3). -/
  scope : Nat := 0
  /-- Hint (R125). -/
  hint : Nat := 0
  /-- Scalar word: destination is a scalar register (R120). -/
  sca : Bool := false
  /-- Destination lies in the operand file (R119). -/
  opfile : Bool := false
  /-- Physical first destination register (R87). -/
  reg : Nat := 0
  /-- The lanes' accesses, ascending (R115). -/
  accs : List Acc := []
  /-- Region of a VFLOOR (R141). -/
  region : Nat := 0
  /-- Home slices that have still to apply the floor (R141). -/
  pendSl : List Nat := []
  /-- Rc ticks left of the cross-die time-outs of a VFLOOR's requests, by the die they go to, counted down to 1 (R422). -/
  left : FMap Nat := []
  /-- Issue order among the wave's words (R117). -/
  seq : Nat := 0
  /-- One of its lanes' traps is being handled (R139). -/
  halted : Bool := false
  /-- Executing set of the word, less the lanes that parked (R76, R256). -/
  lanes : Lanes := 0
  /-- Issued by a trap handler (R225). -/
  own : Bool := false
  /-- Issued again by GREST (R384). -/
  reiss : Bool := false
  /-- The absmax atomic of a drain: on path M, not on path L (R196, R271). -/
  mpath : Bool := false
  /-- Rc ticks left of the zero-length read of a release at .HOST, counted down to 1; 0 when none is outstanding (R415, R422). -/
  zread : Nat := 0
  deriving DecidableEq, Repr

/-- A line of a core's L1 (R233, R240). -/
structure L1Line where
  /-- Contents (R240). -/
  data : BitVec 1024 := 0
  /-- Dirty bytes (core-private lines) (R240, R241). -/
  dirty : BitVec 128 := 0
  /-- Line of a core-private page (R240). -/
  priv : Bool := false
  /-- KEY identity of its page (R239). -/
  key : Nat := 0
  deriving DecidableEq, Repr

/-- A huddle bin (R299). -/
structure Bin where
  /-- Key: LID (R299). -/
  lid : Nat := 0
  /-- Key: entry address or handler number (R299, R312). -/
  key : Nat := 0
  /-- Bin of messages (R312). -/
  msg : Bool := false
  /-- Threads in arrival order (R299). -/
  threads : List Thread := []
  /-- Ac left in the gathering window (R301). -/
  left : Nat := 0
  /-- The window ended in an earlier ac (R301). -/
  ended : Bool := false
  /-- Closed (R301). -/
  closed : Bool := false
  deriving DecidableEq, Repr

/-- An entry of a command chain (R173). -/
structure Entry where
  /-- Sequence number (R179). -/
  seq : Nat := 0
  /-- Issuing group (R173). -/
  gid : Nat := 0
  /-- Issuing wave slot (R173). -/
  slot : Nat := 0
  /-- Flag it took (R172). -/
  flag : Nat := 15
  /-- Copy tag, 64 for none (R172). -/
  tag : Nat := 64
  /-- The entry is a CPYM (R193). -/
  cpym : Bool := false
  /-- Descriptor words 0 to 13 (R173). -/
  desc : List W32 := []
  /-- Progress (R321). -/
  st : EntSt := .queued
  /-- Rc ticks left of what its access waits for, counted down to 1; 0 for none (R247, R255, R422). -/
  wleft : Nat := 0
  /-- Place whose answer that wait is for; none for a walk (R422, R424). -/
  wfar : Option Nat := none
  /-- Address whose page it is paused on (R180). -/
  page : Nat := 0
  /-- Beats or elements moved (R176, R177, R178). -/
  done : FMap Bool := []
  /-- First operand-buffer byte of its reservation (R330). -/
  base : Nat := 0
  /-- Round number of a tree contribution (R404). -/
  round : Nat := 0
  /-- Tree units completed (R405). -/
  retn : Nat := 0
  /-- Context, for its translations (R180). -/
  ctx : Nat := 0
  /-- Launch whose extents it uses (R254). -/
  lid : Nat := 0
  /-- Issued by a trap handler (R225). -/
  own : Bool := false
  /-- Its core is gone: neither tag nor flag (R337, R367). -/
  orphan : Bool := false
  /-- A unit of it timed out or came late (R178, R393). -/
  late : Bool := false
  /-- Rc ticks since the plate last accepted a beat of it (R365). -/
  port : Nat := 0
  deriving DecidableEq, Repr

/-- A completed entry whose completion word is not yet written (R179). -/
structure Done where
  /-- Sequence number (R179). -/
  seq : Nat := 0
  /-- Completion-word address (R179). -/
  cmpl : W64 := 0
  /-- Issuing group (R179). -/
  gid : Nat := 0
  /-- Issuing wave slot (R179). -/
  slot : Nat := 0
  /-- Issued by a trap handler (R225). -/
  own : Bool := false
  /-- Value to be written, 0 while an earlier entry is not complete (R179). -/
  val : Nat := 0
  /-- CTL.HINT, with which the completion word is written (R322). -/
  hint : Nat := 0
  /-- Context (R179). -/
  ctx : Nat := 0
  /-- Launch whose extents it uses (R254). -/
  lid : Nat := 0
  deriving DecidableEq, Repr

/-- A core's chain of one engine class (R173, R323). -/
structure Chain where
  /-- Sequence number of the last entry appended (CHTAIL) (R323). -/
  tail : Nat := 0
  /-- Entries 1 to n complete (CHDONE) (R323). -/
  done : Nat := 0
  /-- Entries in flight, oldest first, at most 256 (R173). -/
  entries : List Entry := []
  /-- Completed entries above CHDONE (R179). -/
  fin : List Done := []
  /-- CHSTAT.ERR (R323). -/
  err : Bool := false
  /-- Page on which the next completion-word write is paused (R179). -/
  cmplPage : Option Nat := none
  /-- Rc ticks left of what the next completion-word write waits for, counted down to 1; 0 for none (R247, R255, R422). -/
  wleft : Nat := 0
  /-- Place whose answer that wait is for; none for a walk (R422, R424). -/
  wfar : Option Nat := none
  /-- The completion words that completed entries have named (R179). -/
  named : List Done := []
  deriving DecidableEq, Repr

/-- An operation of a matrix chain (R332). -/
structure MxOp where
  /-- Identity (R332). -/
  id : Nat := 0
  /-- MMA, MZERO or MDRAIN (R332). -/
  kind : MxKind := .mma
  /-- Owning group (R189). -/
  gid : Nat := 0
  /-- Issuing wave slot (R189). -/
  slot : Nat := 0
  /-- Flag it took (R443). -/
  flag : Nat := 15
  /-- Accumulator (R189). -/
  acc : Nat := 0
  /-- Reservation of A (R189). -/
  oba : Nat := 0
  /-- Reservation of B (R189). -/
  obb : Nat := 0
  /-- Tile index (R189). -/
  tile : Nat := 0
  /-- Drain form, FN 0x20 to 0x25 (R195). -/
  fn : Nat := 0
  /-- .AMX (R195). -/
  amx : Bool := false
  /-- .CLR (R195). -/
  clr : Bool := false
  /-- Row quad (R195). -/
  quad : Nat := 0
  /-- Scratchpad address of a drain (R195). -/
  sp : Nat := 0
  /-- Absmax-word address (R195). -/
  amxVa : W64 := 0
  /-- Absmax scope (R195). -/
  amxScope : Nat := 0
  /-- Executing set of a register drain (R195). -/
  lanes : Lanes := 0
  /-- Destination in the operand file (R195). -/
  opfile : Bool := false
  /-- Physical first destination register (R87, R195). -/
  reg : Nat := 0
  /-- Issue order of the word that created it (R191). -/
  seq : Nat := 0
  /-- Started in the array (R332). -/
  started : Bool := false
  /-- Order of its start or rerun among those of the array (R332, R335). -/
  turn : Nat := 0
  /-- Its check has mismatched once (R198). -/
  rerun : Bool := false
  /-- A tile read at the start (R189, R191). -/
  a : List Byte := []
  /-- B tile read at the start (R189, R191). -/
  b : List Byte := []
  /-- Format of A as read (R190). -/
  fa : Resv := {}
  /-- Format of B as read (R190). -/
  fb : Resv := {}
  /-- Issued by a trap handler (R225). -/
  own : Bool := false
  /-- A follow-on MMA (R194). -/
  isFollow : Bool := false
  /-- Page its absmax atomic waits on (R197). -/
  paged : Option Nat := none
  /-- Rc ticks left of a walk that its absmax atomic waits for, counted down to 1; 0 for none (R247, R255). -/
  wleft : Nat := 0
  /-- The word in flight that is its absmax atomic, once sent; 0 for none (R196). -/
  amxOp : Nat := 0
  /-- A drain has read its accumulator and has registers still to write (R33, R195). -/
  ran : Bool := false
  /-- Registers that a drain has still to write, key 32*register + lane (R33, R195). -/
  out : FMap W32 := []
  /-- Absmax word of the values a drain has read (R73, R196). -/
  amax : W32 := 0
  deriving DecidableEq, Repr

/-- Pending follow-ons of one CPYM (R193, R194). -/
structure Follow where
  /-- Group (R193). -/
  gid : Nat := 0
  /-- Wave slot (R193). -/
  slot : Nat := 0
  /-- Sequence number of its CPYM (R194). -/
  chainSeq : Nat := 0
  /-- FOLLOW word (R193). -/
  word : W32 := 0
  /-- Follow-ons already issued (R194). -/
  next : Nat := 0
  /-- The copy has landed (R194). -/
  landed : Bool := false
  /-- Issue order of its CPYM (R191). -/
  seq : Nat := 0
  /-- Discarded by a matrix error (R198) or a failed copy (R194) (R194, R198). -/
  dead : Bool := false
  deriving DecidableEq, Repr

/-- A core: what its waves share, its engines' chains, its huddle. -/
structure Core where
  /-- Context the core belongs to (R211, R433). -/
  ctx : Option Nat := none
  /-- Cleared, and no group has started on it since (R433). -/
  zeroed : Bool := true
  /-- TAGS copy-tag bitmap (R18, R181). -/
  tags : W64 := 0
  /-- L1 data cache, by physical line (R233). -/
  l1 : FMap L1Line := []
  /-- Lines held under a lease, oldest first, at most 128 (R242, R243). -/
  leases : List Nat := []
  /-- Leases whose grant the core has not used yet: line, and the rc ticks that the grant has waited at the plate's port (R365). -/
  grants : FMap Nat := []
  /-- Of the waves that placed threads (key 0) or reached a queue (key 1 + 64*group + queue) in this ac, the highest: 1 + 32*wave index + lowest lane (R160, R300). -/
  acOrder : FMap Nat := []
  /-- L1 TLB: virtual page to leaf entry (R252). -/
  tlb : FMap W64 := []
  /-- Fetched clauses, header first, by header address (instruction cache, broadcast fetch, loop buffers) (R169, R214). -/
  icache : FMap (List W32) := []
  /-- Operand buffer (R233, R328). -/
  opbuf : FMap Byte := []
  /-- Accumulators a0-a3, key 4096*a + 64*i + j (R22, R187). -/
  acc : FMap W32 := []
  /-- Accumulators with an uncorrectable error (R333). -/
  accBad : List Nat := []
  /-- Group and accumulator whose later operations a second mismatch discards until the group has halted for it (R198). -/
  doomed : List (Nat × Nat) := []
  /-- Group that holds possession (R188). -/
  poss : Option Nat := none
  /-- Matrix chain, at most 32 (R332). -/
  mchain : List MxOp := []
  /-- Pending follow-ons at the copy engine (R193, R194). -/
  follows : List Follow := []
  /-- Copy chain (R173). -/
  copy : Chain := {}
  /-- Gather chain (R173). -/
  gath : Chain := {}
  /-- Collective chain (R173). -/
  coll : Chain := {}
  /-- Huddle: open and closed bins, at most 16 (R299). -/
  bins : List Bin := []
  /-- Words issued by the core, for lastIssue (R361). -/
  stamp : Nat := 0
  /-- Ac for which pipe p is occupied by a .F64 word (R361). -/
  f64Busy : FMap Nat := []
  /-- MXERR.SOFT (R336). -/
  mxSoft : W32 := 0
  /-- MXERR.HARD (R336). -/
  mxHard : BitVec 16 := 0
  deriving DecidableEq, Repr

/-- A page-fault record (R219, R379). -/
structure Frec where
  /-- ID (R379). -/
  id : Nat := 0
  /-- CTX (R379). -/
  ctx : Nat := 0
  /-- VPAGE (R379). -/
  page : Nat := 0
  /-- SRC (R379). -/
  src : Nat := 0
  /-- FETCH (R379). -/
  fetch : Bool := false
  /-- WRITE (R379). -/
  write : Bool := false
  /-- RTIME of the first fault (R379). -/
  time : Nat := 0
  /-- Written to the ring (R379). -/
  written : Bool := false
  /-- Count of records written before it, its place in the ring (R379). -/
  place : W32 := 0
  deriving DecidableEq, Repr

/-- A wait-on-word entry at which a queue stands (R344). -/
structure WaitE where
  /-- TAG of the entry (R341). -/
  tag : Nat := 0
  /-- ADDR (R344). -/
  va : W64 := 0
  /-- Physical address once translated (R344). -/
  pa : Nat := 0
  /-- Entry that translated it (R344). -/
  leaf : W64 := 0
  /-- VALUE (R344). -/
  value : W64 := 0
  /-- MASK (R344). -/
  mask : W64 := 0
  /-- CMP (R344). -/
  cmp : Nat := 0
  /-- SCOPE (R344). -/
  scope : Nat := 0
  /-- Rc ticks left of TOUT, 0 for none (R344). -/
  left : Nat := 0
  /-- The word has been written since it was read (R344). -/
  hit : Bool := false
  deriving DecidableEq, Repr

/-- Run state of a user queue; its descriptor stands in the control registers (R338, R339). -/
structure UQueue where
  /-- WRIDX (R339). -/
  wridx : Nat := 0
  /-- RDIDX (R339). -/
  rdidx : Nat := 0
  /-- ERR (R339). -/
  err : Bool := false
  /-- STATE (R339). -/
  st : QSt := .disabled
  /-- Wait-on-word entry it stands at (WAIT) (R339, R344). -/
  waitE : Option WaitE := none
  /-- Levels gained by waiting (R340). -/
  boost : Nat := 0
  /-- Rc ticks for which it has been pending beyond the levels that it has risen (R340). -/
  pendFor : Nat := 0
  /-- Rc ticks left of the idle quantum (R340). -/
  idleLeft : Nat := 0
  /-- Page that an access of the queue waits on: twice the page for a ring slot, one more for an address that an entry names (R341, R344). -/
  fault : Option Nat := none
  /-- Rc ticks left of what an access of the queue waits for, counted down to 1; 0 for none (R247, R255, R422). -/
  wleft : Nat := 0
  /-- Place whose answer that wait is for; none for a walk (R422, R424). -/
  wfar : Option Nat := none
  /-- A wait-on-word of the queue has performed an acquire at .CLUSTER or wider (R344). -/
  acq : Bool := false
  /-- EN = 0 was written while an entry is being taken (R338). -/
  closing : Bool := false
  deriving DecidableEq, Repr

/-- An extent of a launch (R345). -/
structure Extent where
  /-- EXTVA (R345). -/
  va : W64 := 0
  /-- LEN (R345). -/
  len : Nat := 0
  /-- W (R345). -/
  w : Bool := false
  deriving DecidableEq, Repr

/-- A hierarchy level of a launch (R205, R345). -/
structure Level where
  /-- COUNT (R205, R345). -/
  count : Nat := 1
  /-- DOM (R345). -/
  dom : Nat := 0
  /-- SCOPE (R206, R345). -/
  scope : Nat := 0
  deriving DecidableEq, Repr

/-- An entry of a launch's spawn table (R345). -/
structure SpawnE where
  /-- Entry address (R345). -/
  entry : W64 := 0
  /-- Payload words (R345). -/
  words : Nat := 0
  /-- Registers per lane (R345). -/
  regs : Nat := 96
  deriving DecidableEq, Repr

/-- A region entry of a launch (R283). -/
structure RegionE where
  /-- NUM (R283). -/
  num : Nat := 0
  /-- SCOPE (R283). -/
  scope : Nat := 0
  /-- First byte (BASE * 32) (R283). -/
  base : Nat := 0
  /-- TOUT (R283). -/
  tout : Nat := 100000
  /-- NGRAN (R283). -/
  ngran : Nat := 0
  deriving DecidableEq, Repr

/-- A stage of a pipeline (R353, R355). -/
structure Stage where
  /-- ENTRY (R353). -/
  entry : W64 := 0
  /-- RING (R353). -/
  ring : W64 := 0
  /-- LOGN (R353). -/
  logn : Nat := 4
  /-- MINC (R353). -/
  minc : Nat := 0
  /-- MAXC (R353). -/
  maxc : Nat := 1
  /-- HIGH (R353). -/
  high : Nat := 0
  /-- LOW (R353). -/
  low : Nat := 0
  /-- Ring head, as the die holds it (R353). -/
  head : Nat := 0
  /-- Ring tail, as the die holds it (R353). -/
  tail : Nat := 0
  /-- Cores the stage may use (R355). -/
  allowance : Nat := 1
  /-- Ac left before a partial take (R354). -/
  left : Nat := 0
  deriving DecidableEq, Repr

/-- A group to dispatch again (R207, R310, R368). -/
structure Redo where
  /-- Group index (R368). -/
  index : Nat := 0
  /-- Physical address of the saved image (R310). -/
  img : Nat := 0
  /-- Chunk of a card: first record and number of records (R352). -/
  recs : Nat × Nat := (0, 0)
  /-- Stage of a stage group (R354). -/
  stage : Nat := 0
  /-- Restore from img rather than from ENTRY (R310, R385). -/
  saved : Bool := false
  /-- What made the group (R310). -/
  kind : GKind := .launch
  /-- Entry address, for a spawned group (R310). -/
  entry : W64 := 0
  /-- Join counters of a spawned group (R152). -/
  joins : FMap W64 := []
  /-- Registers per lane (R382). -/
  regs : Nat := 96
  /-- To be restored before any other group of its context (R385). -/
  first : Bool := false
  deriving DecidableEq, Repr

/-- An accepted launch, card or pipeline (R342, R345, R350, R353). -/
structure Launch where
  /-- Entry kind (R341). -/
  kind : LKind := .launch
  /-- Context (R338). -/
  ctx : Nat := 0
  /-- LID (R347). -/
  lid : Nat := 0
  /-- Queue it came from (R347). -/
  queue : Nat := 0
  /-- TAG (R341). -/
  tag : Nat := 0
  /-- Virtual address of the launch record (LRECL, LRECH) (R23). -/
  lrec : W64 := 0
  /-- ENTRY (R345). -/
  entry : W64 := 0
  /-- CODELEN (R345). -/
  codelen : Nat := 0
  /-- WAVES (R345). -/
  waves : Nat := 1
  /-- Registers per lane (R345). -/
  regs : Nat := 96
  /-- NBAR (R345). -/
  nbar : Nat := 0
  /-- SPRES (R345). -/
  spres : Nat := 1
  /-- Scratchpad bytes (R345). -/
  scr : Nat := 0
  /-- PRIO (R345). -/
  prio : Nat := 0
  /-- RESTART (R345). -/
  restart : Bool := false
  /-- RESTORE (R345). -/
  restore : Bool := false
  /-- MTX (R345). -/
  mtx : Nat := 0
  /-- FEDIX (R345). -/
  fedix : Nat := 0
  /-- FEDN (R345). -/
  fedn : Nat := 1
  /-- Hierarchy, outermost first (R205, R345). -/
  levels : List Level := []
  /-- Bound constant banks (R24, R345). -/
  cbanks : FMap W64 := []
  /-- HNDTAB (R345). -/
  hndtab : W64 := 0
  /-- SPNTAB (R345). -/
  spntab : W64 := 0
  /-- RGNTAB (R345). -/
  rgntab : W64 := 0
  /-- STGTAB (R345). -/
  stgtab : W64 := 0
  /-- IMGTAB (R345). -/
  imgtab : W64 := 0
  /-- NSPN (R345). -/
  nspn : Nat := 0
  /-- NRGN (R345). -/
  nrgn : Nat := 0
  /-- Extents (R345). -/
  exts : List Extent := []
  /-- Handler table as the die read it (R345, R348). -/
  hnd : FMap W64 := []
  /-- Spawn table as the die read it (R345). -/
  spn : List SpawnE := []
  /-- Region table as the die read it (R283). -/
  rgns : List RegionE := []
  /-- Stages (R353). -/
  stages : List Stage := []
  /-- Pinned translations: virtual page to leaf (R254, R348). -/
  pages : FMap W64 := []
  /-- Phase (R347). -/
  phase : LPhase := .translate
  /-- Next group index to dispatch (R357). -/
  next : Nat := 0
  /-- Groups to dispatch again (R207, R368). -/
  redo : List Redo := []
  /-- Spawned threads, messages and records not yet retired (R302, R343). -/
  threads : Nat := 0
  /-- Order in which it was taken (R356). -/
  order : Nat := 0
  /-- Rc ticks left of what its translation or its completion waits for, counted down to 1; 0 for none (R247, R255, R422). -/
  wleft : Nat := 0
  /-- Place whose answer that wait is for; none for a walk (R422, R424). -/
  wfar : Option Nat := none
  /-- Pages its translation waits on (R348). -/
  faults : List Nat := []
  /-- ARGS of a card (R350). -/
  args : W64 := 0
  /-- Record size in bytes (R350). -/
  rsz : Nat := 0
  /-- NREC (R350). -/
  nrec : Nat := 0
  /-- MINC (R350). -/
  minc : Nat := 1
  /-- NCORE (R350). -/
  ncore : Nat := 0
  /-- DEPA (R350). -/
  depa : W64 := 0
  /-- Physical address of the dependence counter, once translated (R351). -/
  depPa : Option Nat := none
  /-- DECA (R350). -/
  deca : W64 := 0
  /-- The card is ready (latched) (R351). -/
  cready : Bool := true
  /-- Records dealt (R352). -/
  dealt : Nat := 0
  /-- 1 + plate of each plate-level element that has started, key level*2^32 + element (R209). -/
  bind : FMap Nat := []
  /-- A card has completed, and groups that its groups spawned are still there (R343, R348). -/
  finished : Bool := false
  /-- Acceptance announced to the other dies (R417). -/
  fedAnn : Bool := false
  /-- Its groups begin after an acquire (R344, R351). -/
  acq : Bool := false
  deriving DecidableEq, Repr

/-- A context's proof heap on one die (R292, R293). -/
structure Heap where
  /-- Free records: first address and count of each run (R292, R293). -/
  free : List (Nat × Nat) := []
  /-- Granted chunks: virtual address and length (R293). -/
  chunks : List (Nat × Nat) := []
  /-- RES (R293). -/
  res : Nat := 0
  deriving DecidableEq, Repr

/-- What a contribution to a reduction brings of its command (R178, R404, R405). -/
structure Contrib where
  /-- DST (R178). -/
  dst : Nat := 0
  /-- Contributing core (R178). -/
  core : Nat := 0
  /-- COUNT (R178). -/
  count : Nat := 0
  /-- Context, for the root's write (R405). -/
  ctx : Nat := 0
  /-- Launch whose extents the root's write uses (R254). -/
  lid : Nat := 0
  /-- CTL.HINT (R322). -/
  hint : Nat := 0
  deriving DecidableEq, Repr

/-- A combining unit of a reduction tree's router (R404). -/
structure RUnit where
  /-- Router (R404). -/
  router : Nat := 0
  /-- Round (R404). -/
  round : Nat := 0
  /-- Packet index (R404). -/
  pkt : Nat := 0
  /-- Values received, by port N E S W local (R404). -/
  vals : FMap (List W32) := []
  /-- Incomplete mark (R393, R404). -/
  mark : Bool := false
  /-- Rc ticks left (R404). -/
  left : Nat := 0
  /-- Complete or timed out, to be forwarded in order (R404). -/
  full : Bool := false
  /-- Rc ticks left of what the root's write waits for, counted down to 1; 0 for none (R247, R255, R422). -/
  wleft : Nat := 0
  /-- Place whose answer that wait is for; none for a walk (R422, R424). -/
  wfar : Option Nat := none
  /-- What the first contribution below each port brings, by port (R178, R405). -/
  dsts : FMap Contrib := []
  deriving DecidableEq, Repr

/-- A reduction flit on its way to a router (R404). -/
structure Flit where
  /-- Tree (R403). -/
  tree : Nat := 0
  /-- Router it goes to (R404). -/
  router : Nat := 0
  /-- Port 0 N, 1 E, 2 S, 3 W, 4 local (R72). -/
  port : Nat := 0
  /-- Round (R404). -/
  round : Nat := 0
  /-- Packet index (R404). -/
  pkt : Nat := 0
  /-- 32 values (R178). -/
  vals : List W32 := []
  /-- Incomplete mark (R404). -/
  mark : Bool := false
  /-- DST (virtual) (R178). -/
  dst : Nat := 0
  /-- COUNT of the command (R178). -/
  count : Nat := 0
  /-- Contributing core whose DST it carries (R178). -/
  core : Nat := 0
  /-- Context of the command whose DST it carries (R405). -/
  ctx : Nat := 0
  /-- Launch of that command (R254). -/
  lid : Nat := 0
  /-- CTL.HINT of that command (R322). -/
  hint : Nat := 0
  deriving DecidableEq, Repr

/-- Run state of a reduction tree (R404). -/
structure Tree where
  /-- XRED commands injected, by cluster (R404). -/
  rounds : FMap Nat := []
  /-- Units held in the routers (R404). -/
  units : List RUnit := []
  /-- 1 + the pair last forwarded, by router (R404). -/
  last : FMap (Nat × Nat) := []
  /-- Flits on their way (R404). -/
  flits : List Flit := []
  deriving DecidableEq, Repr

/-- Snoop-filter entry of a hardware-coherent line at its home (R249). -/
structure DirEnt where
  /-- Owner die, 4 for none (R249). -/
  owner : Nat := 4
  /-- State of the owner's copy (R249). -/
  ost : Moesi := .inv
  /-- Sharer bits (R249). -/
  sharers : BitVec 4 := 0
  /-- A transaction is in progress (R249). -/
  busy : Bool := false
  /-- Requesting die of the transaction (R249). -/
  req : Nat := 0
  /-- The transaction is a RdX (R249). -/
  excl : Bool := false
  /-- Answers still awaited (R249). -/
  acks : Nat := 0
  /-- The entry is being evicted (R250). -/
  evict : Bool := false
  /-- Last use, for the choice of a victim (R250). -/
  stamp : Nat := 0
  /-- Die that supplies the line, 4 for the home (R249). -/
  sup : Nat := 4
  /-- PIN of the line's page, for its home slice (R244, R249). -/
  pin : Nat := 0
  /-- Identity of the key under which the holders have the line (R239). -/
  key : Nat := 0
  /-- Rc ticks left of the home's own time-out, counted down to 1; 0 for none (R422). -/
  left : Nat := 0
  deriving DecidableEq, Repr

/-- A directory message between two dies (R249). -/
structure DMsg where
  /-- 0 RdS, 1 RdX, 2 Fwd, 3 Inv, 4 Ack, 5 Data, 6 Grant, 7 BInv, 8 WB (R249). -/
  kind : Nat := 0
  /-- Sender (R249). -/
  src : Nat := 0
  /-- Receiver (R249). -/
  dst : Nat := 0
  /-- Physical line (R249). -/
  line : Nat := 0
  /-- Requester, or granted state (R249). -/
  arg : Nat := 0
  /-- For an exclusive copy (R249). -/
  excl : Bool := false
  /-- Identity of the key of the access, or of the line in Data and WB (R239). -/
  key : Nat := 0
  /-- PIN of the page of the access that asks (R244). -/
  pin : Nat := 0
  /-- The line, in Data and WB (R249). -/
  data : BitVec 1024 := 0
  /-- Its packet's number on the link, 0 on one die (R420). -/
  seq : Nat := 0
  deriving DecidableEq, Repr

/-- What a packet of a link carries beside the messages of the directory: an active message (R408), an announcement of a federated
launch or of its end (R417), an arrival at a federation barrier (R419). -/
inductive PktBody where
  | msg (t : Thread)
  | fed (on : Bool) (ctx entry fedn : Nat)
  | arrive (k ctx n : Nat)
  deriving DecidableEq, Repr

/-- A packet on its way over a die-to-die link (R420). -/
structure Pkt where
  /-- Name by which its time-out is told (R422). -/
  id : Nat := 0
  /-- Sender (R420). -/
  src : Nat := 0
  /-- Receiver (R420). -/
  dst : Nat := 0
  /-- Its number on the link (R420). -/
  seq : Nat := 0
  /-- Rc ticks left of its time-out, counted down to 1 (R422). -/
  left : Nat := 0
  /-- Contents (R420). -/
  body : PktBody := .arrive 0 0 0
  deriving DecidableEq, Repr

/-- A die's slice copy of a hardware-coherent line (R249). -/
structure Copy where
  /-- MOESI state (R249). -/
  st : Moesi := .inv
  /-- Contents (R249). -/
  data : BitVec 1024 := 0
  /-- Identity of the key under which the slice holds the line (R239). -/
  key : Nat := 0
  /-- Data that has arrived before its Grant (R249). -/
  got : Option (BitVec 1024) := none
  /-- State granted before its Data (R249). -/
  grant : Moesi := .inv
  /-- A request is outstanding (R249). -/
  asked : Bool := false
  deriving DecidableEq, Repr

/-- A versioned region of a context (R285). -/
structure Region where
  /-- First virtual byte (R283). -/
  base : Nat := 0
  /-- Granules (R283). -/
  ngran : Nat := 0
  /-- Scope (R283). -/
  scope : Nat := 0
  /-- Armed (R285). -/
  armed : Bool := false
  /-- Floor at each home slice, key 48*die + slice (R141, R285). -/
  floors : FMap Nat := []
  deriving DecidableEq, Repr

/-- Versions of a granule at its home slice (R289). -/
structure Gran where
  /-- Owning context (R285). -/
  ctx : Nat := 0
  /-- Region (R285). -/
  num : Nat := 0
  /-- Memory holds version 0 (R286, R289). -/
  image : Bool := true
  /-- Version slots: at most four versions (R289, R290). -/
  slots : FMap (BitVec 256) := []
  /-- Heap records: version and record address, descending (R292). -/
  heap : List (Nat × Nat) := []
  /-- Holds a version line (R291). -/
  line : Bool := false
  /-- Last use of the version line (R291). -/
  stamp : Nat := 0
  /-- PIN of its page, for its home slice (R244, R289). -/
  pin : Nat := 0
  /-- KEY of its page, under which its bytes are written back (R239, R287). -/
  kslot : Nat := 0
  deriving DecidableEq, Repr

/-- Who waits at a slice for a line that a core holds under a lease (R242): a core that asks for the lease, a plain access of a word,
or an entry of an engine. -/
inductive Asker where
  | lease (core : Nat)
  | access (id lane : Nat)
  | entry (core cls seq : Nat)
  deriving DecidableEq, Repr

/-- Die-to-die link (R420, R421). -/
structure Link where
  /-- State (R420, R421). -/
  st : LinkSt := .up
  /-- Packets sent, by direction (R420). -/
  sent : FMap Nat := []
  /-- Packets delivered, by direction (R420). -/
  recv : FMap Nat := []
  /-- Rc ticks left to retrain (R421). -/
  left : Nat := 0
  deriving DecidableEq, Repr

/-- An optical port (R426, R427, R428). -/
structure Port where
  /-- Wavelengths in the stripe (ACTIVE counts them) (R427). -/
  active : BitVec 8 := 3
  /-- Wavelengths locked (LOCKED counts them) (R427). -/
  locked : BitVec 8 := 3
  /-- Wavelengths that leave the stripe at the next packet boundary (R428). -/
  failing : BitVec 8 := 0
  /-- Flits queued (R428). -/
  queued : Nat := 0
  /-- Rc ticks left before parking (R427, R428). -/
  idleLeft : Nat := 10000
  /-- Rc ticks left of a relock (R428). -/
  relock : Nat := 0
  /-- Packets sent (R426). -/
  sent : Nat := 0
  /-- Packets received (R426). -/
  recv : Nat := 0
  deriving DecidableEq, Repr

/-- A base die: control region, scheduler, slices, faults, logs. -/
structure Die where
  /-- BRSTATE (R439). -/
  br : Nat := 0
  /-- The firmware image has been accepted (R437, R439). -/
  accepted : Bool := false
  /-- Fused rollback counter (R437). -/
  secver : Nat := 0
  /-- Hash of the accepted image (R438). -/
  imgHash : Nat := 0
  /-- DDRSZ in GiB (R439). -/
  ddrsz : Nat := 0
  /-- Debug halt (R423). -/
  dbg : Bool := false
  /-- A mesh link is down: no launch until module reset (R401). -/
  meshDown : Bool := false
  /-- Crash record in standby memory: die-fatal event and time (R431). -/
  crash : Option Nat := none
  /-- Control registers, by 8-byte offset, where they differ from reset (R6, R234). -/
  ctl : FMap W64 := []
  /-- Plate STATE: 0 in service, 1 lost, 2 resetting, 3 failed; 4 is resetting with its cores back after the next dispatcher decision (R390). -/
  plates : FMap Nat := []
  /-- Slice STATE: 0 in service, 1 retiring, 2 retired (R410). -/
  slices : FMap Nat := []
  /-- CECNT of each slice (R410). -/
  cecnt : FMap Nat := []
  /-- Corrected errors of each HBM stack (key 0-2) and core (key 64 + core) (R388). -/
  ceOther : FMap Nat := []
  /-- SLICE of each bucket where it differs from b mod 48 (R410). -/
  buckets : FMap Nat := []
  /-- MOVING of each bucket (R410). -/
  moving : FMap Bool := []
  /-- Heir chosen for each bucket that is being handed over (R411). -/
  heirs : FMap Nat := []
  /-- GEN (R410). -/
  gen : W32 := 0
  /-- Plates' L2 TLBs, key plate, context and page (R252). -/
  l2tlb : FMap W64 := []
  /-- Pages whose walks wait for a page-class command: die that carries it out, context and page (R247, R255). -/
  ptw : List (Nat × Nat × Nat) := []
  /-- Page-class command being carried out (BUSY) (R247, R248). -/
  pcmd : Option Nat := none
  /-- Invalidation command being carried out (BUSY): NPAGE (R253). -/
  icmd : Option Nat := none
  /-- STATUS of the page-class command (R248). -/
  pclass : Nat := 0
  /-- STATUS of the invalidation command (R253). -/
  invst : Nat := 0
  /-- STATUS of the region-disarm command (R288). -/
  disst : Nat := 0
  /-- Page-zero status word (R434). -/
  zerost : Nat := 0
  /-- Page-zero command being carried out: its word, frames done, frames in all (R434). -/
  pzero : Option (Nat × Nat × Nat) := none
  /-- KSTAT (R436). -/
  kstat : Nat := 0
  /-- Key command being carried out: slot and identity of the new key (R436). -/
  kcmd : Option (Nat × Nat) := none
  /-- Rc ticks left of the page-class command's walk while it meets a table page under migration, counted down to 1; 0 for none (R255). -/
  ptry : Nat := 0
  /-- Heap grants whose walk meets a table page under migration, by context: their word and the rc ticks left, counted down to 1 (R255, R293). -/
  hpend : FMap (Nat × Nat) := []
  /-- Region-disarm command whose walk meets a table page under migration: its word and the rc ticks left, counted down to 1 (R255, R288). -/
  dpend : Option (Nat × Nat) := none
  /-- Identity of the key in each slot: even for a random key, 1 + 2*KDATA for a loaded one (R435, R436). -/
  keygen : FMap Nat := []
  /-- Owner table: first frame of the owned page to owning core and PIN (R241). -/
  owners : FMap (Nat × Nat) := []
  /-- Replacement priority and owning context of resident lines (R125, R389). -/
  prio : FMap (Prio × Nat) := []
  /-- Outstanding fault records, oldest first (R219, R379). -/
  faults : List Frec := []
  /-- Next fault record ID (R379). -/
  fnext : Nat := 0
  /-- FHEAD (R379). -/
  fhead : W32 := 0
  /-- FTAIL (R379). -/
  ftail : W32 := 0
  /-- SHEAD (R377). -/
  shead : W32 := 0
  /-- STAIL (R377). -/
  stail : W32 := 0
  /-- SLOST (R377). -/
  slost : W32 := 0
  /-- EHEAD of each context (R377). -/
  ehead : FMap W32 := []
  /-- ETAIL of each context (R377). -/
  etail : FMap W32 := []
  /-- LOSTREC of each context (R377). -/
  elost : FMap W32 := []
  /-- MSI-X vectors sent, oldest first (R344, R377, R379). -/
  msix : List Nat := []
  /-- Pre-emption STATE of each context (R385). -/
  cstate : FMap Nat := []
  /-- Rc ticks left of each context's drain deadline (R386). -/
  cleft : FMap Nat := []
  /-- The context is being pre-empted with save (R385). -/
  csave : FMap Bool := []
  /-- Next-LID counter of each context (R347). -/
  nextLid : FMap Nat := []
  /-- Spawn spill ring of each context: head and tail counts (R304, R306). -/
  spill : FMap (Nat × Nat) := []
  /-- Message ring of each context: head and tail counts (R313). -/
  mring : FMap (Nat × Nat) := []
  /-- Launch and age of the records that the rings hold, key 2 * (4,096 * place + context), plus 1 in the message ring (R306, R310, R347). -/
  ringInfo : FMap (Nat × Nat) := []
  /-- Bytes used of each context's eviction area (R310). -/
  evUsed : FMap Nat := []
  /-- 1 + rc ticks the deadlock condition of a context has held; 1,002 when it has been logged, 1,003 while groups are evicted (R310, R311). -/
  stall : FMap Nat := []
  /-- Message unit buffer, at most 256 (R313). -/
  msgs : List Thread := []
  /-- User queues 0-1023 (R338, R339). -/
  uqs : FMap UQueue := []
  /-- Round-robin place of the mapper (R340). -/
  rr : Nat := 0
  /-- Accepted launches, cards and pipelines, key 1024*CTX + LID (R342). -/
  launches : FMap Launch := []
  /-- Entries taken so far (R356). -/
  norder : Nat := 0
  /-- Core pointer (R358). -/
  corePtr : Nat := 0
  /-- Cluster pointer (R359). -/
  clusPtr : Nat := 0
  /-- Consecutive decisions a class was admissible and not served (R356). -/
  starve : FMap Nat := []
  /-- Rc ticks to the next governor tick (R355). -/
  govLeft : Nat := 100
  /-- Chain last served by each engine, plus one, key 64*class + engine (R321). -/
  engNext : FMap Nat := []
  /-- Entry that each engine last gave a beat: core and sequence number, key 64*class + engine (R321). -/
  engBeat : FMap (Nat × Nat) := []
  /-- Run state of the 16 reduction trees (R403, R404). -/
  trees : FMap Tree := []
  /-- COUNT of each federation barrier at its home unit (R418). -/
  fedCount : FMap Nat := []
  /-- Federated launches announced: die, context, ENTRY, FEDN (R417). -/
  feds : List (Nat × Nat × Nat × Nat) := []
  /-- Proof heap of each context (R292, R293). -/
  heaps : FMap Heap := []
  /-- Links to the other dies (R420). -/
  links : FMap Link := []
  /-- Optical ports, key 16*OID + port (held once, on die 0) (R426, R427). -/
  ports : FMap Port := []
  /-- Route tables of the OIDs where they differ from reset: mask of ports, key 512*OID + package (held once, on die 0) (R426). -/
  routes : FMap (BitVec 16) := []
  /-- Status of the last host, side-band or SPDM response (R414, R431). -/
  resp : Nat := 0
  /-- Data of that response (R414, R431, R438). -/
  respData : List Nat := []
  /-- A side-band reset of the die is to be answered when it has been brought up (R430, R431). -/
  sbWait : Bool := false
  /-- PWRSTAT.ACMHZ (R442). -/
  acmhz : Nat := 3300
  /-- PWRSTAT.MXTHR (R442). -/
  mxthr : Nat := 0
  /-- PWRSTAT.PMW (R442). -/
  pmw : Nat := 0
  /-- The regulator's samples of the last 1 ms, newest first (R440, R442). -/
  phist : List Nat := []
  /-- SPDM conversation: commands answered so far (R438). -/
  spdm : Nat := 0
  /-- Reads that a slice holds to coalesce them, 32 * operation + lane (R245). -/
  heldReads : List Nat := []
  /-- Physical table pages under migration (R255). -/
  migr : List Nat := []
  deriving DecidableEq, Repr

/-- The wave whose word is being executed: a place of the model's own, not of the spec. -/
structure Cur where
  /-- Core of the wave. -/
  core : Nat := 0
  /-- Wave slot. -/
  slot : Nat := 0
  deriving DecidableEq, Repr

/-- The state of a package. -/
structure State where
  /-- RTIME, rc ticks since power-on (R2). -/
  rtime : Nat := 0
  /-- the four base dies (R1). -/
  dies : FMap Die := []
  /-- the 256 cores, by package number (R1). -/
  cores : FMap Core := []
  /-- wave slots, key 64*core + slot (R210). -/
  waves : FMap Wave := []
  /-- resident groups (R210). -/
  groups : FMap Group := []
  /-- memory words in flight, in issue order (R30, R122). -/
  ops : List MemOp := []
  /-- memory of the package, the host window and the fabric, byte by byte (R233, R234, R235). -/
  mem : List Host.Cell := []
  /-- poisoned physical lines: 1 + owner tag, with 8,192 added when a lost plate held the line (R366, R389). -/
  poison : FMap Nat := []
  /-- 1 + key identity under which a cipher block of 16 bytes was written, by its address / 16 (R239, R435). -/
  lineKey : FMap Nat := []
  /-- region table of every context, key 64*CTX + NUM (R283, R285). -/
  regions : FMap Region := []
  /-- versions of every granule of an armed region, by physical address (R289). -/
  grans : FMap Gran := []
  /-- snoop-filter entries, by physical line (R249). -/
  dir : FMap DirEnt := []
  /-- slices' copies of hardware-coherent lines, key 4*line + die (R249). -/
  copies : FMap Copy := []
  /-- requests waiting at the slices for lines under a lease, oldest first (R242). -/
  lreqs : List (Nat × Asker) := []
  /-- parties outside that answer no request now: 0 the host, 1 + n package n (R415, R422). -/
  silent : List Nat := []
  /-- Packets on the die-to-die links beside those of the directory, in the order in which they were sent (R408, R417, R419, R420). -/
  pkts : List Pkt := []
  /-- directory messages under way (R249). -/
  dmsgs : List DMsg := []
  /-- the wave whose word is being executed (the model's own). -/
  cur : Cur := {}
  /-- moves to make next, before any free one (the model's own). -/
  agenda : List Move := []
  /-- counter that the free values are applied to (the model's own). -/
  free : Nat := 0
  /-- next identity or order stamp (the model's own). -/
  nextId : Nat := 1
  deriving DecidableEq, Repr

/-- The package right after reset, which is power-on (R2, R439): every register at the reset value of its
map, every die in bring-up state reset, no context, no group, no memory written. Where the spec gives no
value, log 2 names it. -/
def State.reset : State := {}

end Sys2Proof.Machine
end

