-- ==== Sys2Proof/Machine/Access.lean ====
section
/-! DEFINITION. Lane sets, the accessors of the state's objects, and the registers of a wave: every read
and write of a register goes through here (R13 to R21). -/

namespace Sys2Proof.Machine

/-- Outcomes of this machine. -/
abbrev Out := Host.Outcome State Fault Refusal

/-- The field of `n` bits at bit `lo` of a number. -/
def field (v lo n : Nat) : Nat := v / 2 ^ lo % 2 ^ n

/-- Bit `n` of a number. -/
def bitN (v n : Nat) : Bool := v / 2 ^ n % 2 == 1

/-- The set of one lane. -/
def laneBit (n : Nat) : Lanes := BitVec.ofNat 32 (2 ^ n)
/-- The lanes of a set, ascending. -/
def lanesOf (m : Lanes) : List Nat := (List.range 32).filter (fun n => m.getLsbD n)
/-- The lowest lane of a set, 0 for none. -/
def lowLane (m : Lanes) : Nat := (lanesOf m).headD 0
/-- The set of a list of lanes. -/
def maskOf (l : List Nat) : Lanes := l.foldl (fun m n => m ||| laneBit n) 0
/-- How many lanes a set holds. -/
def laneCount (m : Lanes) : Nat := (lanesOf m).length

/-- Base die of a core (R1). -/
def dieOf (core : Nat) : Nat := core / 64
/-- Plate of a core (R1). -/
def plateOf (core : Nat) : Nat := core / 16
/-- Key of a wave slot. -/
def waveKey (core slot : Nat) : Nat := 64 * core + slot

def State.core (s : State) (c : Nat) : Core := s.cores.get c {}
def State.modCore (s : State) (c : Nat) (f : Core → Core) : State := { s with cores := s.cores.upd c {} f }
def State.wave (s : State) (k : Nat) : Wave := s.waves.get k {}
def State.modWave (s : State) (k : Nat) (f : Wave → Wave) : State := { s with waves := s.waves.upd k {} f }
def State.group (s : State) (g : Nat) : Group := s.groups.get g {}
def State.modGroup (s : State) (g : Nat) (f : Group → Group) : State :=
  { s with groups := s.groups.upd g {} f }
def State.die (s : State) (d : Nat) : Die := s.dies.get d {}
def State.modDie (s : State) (d : Nat) (f : Die → Die) : State := { s with dies := s.dies.upd d {} f }

/-- Key of the wave whose word is being executed. -/
def State.ck (s : State) : Nat := waveKey s.cur.core s.cur.slot
/-- That wave. -/
def State.cw (s : State) : Wave := s.wave s.ck
/-- Its group's number. -/
def State.cgid (s : State) : Nat := s.cw.gid.getD 0
/-- Its group. -/
def State.cg (s : State) : Group := s.group s.cgid
/-- The issuing path: the first path of the wave. -/
def State.cp (s : State) : Path := s.cw.paths.headD {}
/-- MEMB, the executing set (R18, R19). -/
def State.memb (s : State) : Lanes := s.cp.lanes
/-- Its core. -/
def State.cc (s : State) : Core := s.core s.cur.core
/-- Change the current wave. -/
def State.modCw (s : State) (f : Wave → Wave) : State := s.modWave s.ck f
/-- Change the current group. -/
def State.modCg (s : State) (f : Group → Group) : State := s.modGroup s.cgid f
/-- Change the first path of a wave. -/
def Wave.modPath (w : Wave) (f : Path → Path) : Wave :=
  { w with paths := match w.paths with | [] => [] | p :: r => f p :: r }
/-- Change the issuing path. -/
def State.modCp (s : State) (f : Path → Path) : State := s.modCw (fun w => w.modPath f)
/-- Take one free choice: the value, and the state with the counter advanced (log 1). -/
def State.choose (s : State) : Nat × State := (Config.choice s.free, { s with free := s.free + 1 })

/-- The launch a group belongs to. -/
def State.launchOf (s : State) (g : Group) : Launch :=
  (s.die (dieOf g.core)).launches.get (1024 * g.ctx + g.lid) {}
/-- Change the launch of a key on a die. -/
def State.modLaunch (s : State) (d key : Nat) (f : Launch → Launch) : State :=
  s.modDie d fun x => { x with launches := x.launches.upd key {} f }

/-- What a register that its group has not written holds: 0 on a core cleared for its context, else what an
earlier group left (R14, R433); file 0 is the main file, 1 the operand file, 2 the scalar registers, 3 the
scratchpad. -/
def leftReg (seed file key : Nat) : W32 := if seed = 0 then 0 else Config.leftover seed file key

/-- A vector register of a lane, or the low word of a last-result entry, or a special (R13, R16, R17). -/
def Wave.readV (w : Wave) (n lane : Nat) : W32 :=
  if n < 96 then w.main.get (32 * (w.wbase + n) + lane) (leftReg w.seed 0 (32 * (w.wbase + n) + lane))
  else if n < 112 then w.opf.get (32 * (n - 96) + lane) (leftReg w.seed 1 (32 * (n - 96) + lane))
  else if n < 116 then (w.lastq.get (32 * (n - 112) + lane) 0).setWidth 32
  else if n = 116 then 0
  else if n = 117 then BitVec.ofNat 32 lane
  else if n = 118 then 0xFFFFFFFF#32
  else if n = 119 then BitVec.ofNat 32 w.wix
  else if n = 120 then BitVec.ofNat 32 (32 * w.wix + lane)
  else if n = 121 then BitVec.ofNat 32 (2 ^ lane)
  else if n = 122 then BitVec.ofNat 32 (2 ^ lane - 1)
  else BitVec.ofNat 32 (2 ^ 32 - 2 ^ (lane + 1))

/-- A 64-bit value named by a vector name: a pair, a whole last-result entry, or a special, zero-extended
except that vones reads all ones (R15, R17). An entry that holds a 32-bit result reads as that result zero-extended (log 93). -/
def Wave.readV64 (w : Wave) (n lane : Nat) : W64 :=
  if n < 112 then w.readV (n + 1) lane ++ w.readV n lane
  else if n < 116 then w.lastq.get (32 * (n - 112) + lane) 0
  else if n = 118 then 0xFFFFFFFFFFFFFFFF#64
  else (w.readV n lane).setWidth 64

/-- `n` bytes of a group's scratchpad as a little-endian number (R129, R233). -/
def Group.spGet (g : Group) (a : Nat) : Nat → Nat
  | 0 => 0
  | n + 1 => (g.scratch.get a ((leftReg g.seed 3 a).setWidth 8)).toNat + 256 * g.spGet (a + 1) n

/-- Write `n` bytes of a group's scratchpad. -/
def Group.spPut (g : Group) (a : Nat) : Nat → Nat → Group
  | 0, _ => g
  | n + 1, v => Group.spPut { g with scratch := g.scratch.set a (BitVec.ofNat 8 v) } (a + 1) n (v / 256)

/-- Write one 32-bit register of a lane; other names are no register (R77). -/
def Wave.setV (w : Wave) (n lane : Nat) (v : W32) : Wave :=
  if n < 96 then { w with main := w.main.set (32 * (w.wbase + n) + lane) v }
  else if n < 112 then { w with opf := w.opf.set (32 * (n - 96) + lane) v }
  else w

/-- Write one register of a lane that a word's name reached when it issued: a place of the operand file, or a physical register
of the main file (R87). -/
def Wave.setReg (w : Wave) (opf : Bool) (reg lane : Nat) (v : W32) : Wave :=
  if opf then { w with opf := w.opf.set (32 * reg + lane) v } else { w with main := w.main.set (32 * reg + lane) v }

/-- Write a pair of a lane, low word in the even register (R15). -/
def Wave.setV64 (w : Wave) (n lane : Nat) (v : W64) : Wave :=
  if n < 112 then (w.setV n lane (v.setWidth 32)).setV (n + 1) lane ((v >>> 32).setWidth 32) else w

/-- A result enters a lane's last-result queue (R16). -/
def Wave.pushLast (w : Wave) (lane : Nat) (v : W64) : Wave :=
  { w with
    lastq := (((w.lastq.set (96 + lane) (w.lastq.get (64 + lane) 0)).set (64 + lane)
      (w.lastq.get (32 + lane) 0)).set (32 + lane) (w.lastq.get lane 0)).set lane v }

/-- Index of a wave's element at hierarchy level `n` (R18, R207): the group's index for the group level and
wider ones, the digit of the wave index for a wave level, 0 for a lane level and an undeclared one. -/
def lvix (g : Group) (l : Launch) (wix n : Nat) : Nat :=
  match l.levels[n]? with
  | none => g.lvix.get n 0
  | some v =>
    if v.dom = 0 then 0
    else if v.dom = 1 then
      let below := ((l.levels.drop (n + 1)).filter (fun x => x.dom = 1)).foldl (fun a x => a * x.count) 1
      wix / below % v.count
    else g.lvix.get n 0

/-- A scalar register of the current wave as the issuing path reads it (R18). A pipeline stage group has no hierarchy of its
own and reads 0 for every level (log 94). -/
def State.readS (s : State) (n : Nat) : W32 :=
  let w := s.cw
  if n < 96 then w.sregs.get n (leftReg w.seed 2 n)
  else if n = 96 then s.memb
  else if n = 97 then w.xstat
  else if n = 98 then s.cc.tags.setWidth 32
  else if n = 99 then (s.cc.tags >>> 32).setWidth 32
  else if n = 100 then w.fpmode
  else if n = 101 then w.fpstat
  else if n = 102 then BitVec.ofNat 32 s.rtime
  else if n = 103 then BitVec.ofNat 32 (s.rtime / 2 ^ 32)
  else if n < 112 then
    if s.cg.kind = .launch then BitVec.ofNat 32 (lvix s.cg (s.launchOf s.cg) w.wix (n - 104)) else 0
  else if n = 112 then BitVec.ofNat 32 w.wix
  else if n = 113 then BitVec.ofNat 32 s.cg.slots.length
  else if n = 114 then BitVec.ofNat 32 (s.launchOf s.cg).fedix
  else if n = 115 then BitVec.ofNat 32 s.cur.core
  else if n = 116 then w.cbase.setWidth 32
  else if n = 117 then BitVec.ofNat 32 w.wbase
  else 0

/-- A scalar 64-bit read: a general pair, tags or rtime whole, another special zero-extended (R18, R83). -/
def State.readS64 (s : State) (n : Nat) : W64 :=
  if n < 96 then s.readS (n + 1) ++ s.readS n
  else if n = 98 then s.cc.tags
  else if n = 102 then BitVec.ofNat 64 s.rtime
  else (s.readS n).setWidth 64

/-- Write a scalar register: s0 to s95, xstat, fpmode or fpstat; reserved bits of the last two ignore the
write (R5, R18, R21). -/
def Wave.setS (w : Wave) (n : Nat) (v : W32) : Wave :=
  if n < 96 then { w with sregs := w.sregs.set n v }
  else if n = 97 then { w with xstat := v }
  else if n = 100 then { w with fpmode := v &&& 7#32 }
  else if n = 101 then { w with fpstat := v &&& 31#32 }
  else w

/-- Write a scalar pair, low word in the even register. -/
def Wave.setS64 (w : Wave) (n : Nat) (v : W64) : Wave :=
  (w.setS n (v.setWidth 32)).setS (n + 1) ((v >>> 32).setWidth 32)

/-- XSTAT of an instruction that reports: the bits of the set are replaced, the others kept (R20). -/
def Wave.report (w : Wave) (set bad : Lanes) : Wave :=
  { w with xstat := (w.xstat &&& ~~~set) ||| (bad &&& set) }

/-- A fixed-latency vector result of one lane: the register or pair D, and the queue, which holds a 32-bit result zero-extended
(R16, R77; log 93). -/
def Wave.result (w : Wave) (d : RName) (wide : Bool) (lane : Nat) (v : W64) : Wave :=
  (if wide then w.setV64 d.toNat lane v else w.setV d.toNat lane (v.setWidth 32)).pushLast lane v

/-- The results of every lane of a set, all computed before any is written (R75). -/
def Wave.results (w : Wave) (d : RName) (wide : Bool) (ls : List Nat) (f : Nat → W64) : Wave :=
  ls.foldl (fun w l => w.result d wide l (f l)) w

end Sys2Proof.Machine
end

