-- ==== Sys2Proof/Machine/Phys.lean ====
section
/-! DEFINITION. Control registers, physical memory with its keys and monitors, home slices, error logs,
and translation: R6, R155, R234 to R239, R244, R252, R376 to R379, R409. -/

namespace Sys2Proof.Machine

/-- A 64-bit control register with only this value at reset that is not zero (R340, R385, R422, R427). -/
def ctlReset (off : Nat) : W64 :=
  if off = 0x208000 then 50
  else if 0x400000 ≤ off ∧ off < 0x410000 ∧ off % 16 = 0 then BitVec.ofNat 64 (10000 * 2 ^ 32)
  else if off = 0x701000 then 50000
  else if 0x800000 ≤ off ∧ off < 0x820000 ∧ off % 65536 < 1024 ∧ off % 64 = 0 then
    BitVec.ofNat 64 (100 * 2 ^ 24 + 8 * 2 ^ 16 + 2 * 2 ^ 12)
  else 0

/-- A stored control register of a die. -/
def Die.reg (d : Die) (off : Nat) : Nat := (d.ctl.get off (ctlReset off)).toNat
/-- Store a control register of a die. -/
def Die.setReg (d : Die) (off v : Nat) : Die := { d with ctl := d.ctl.set off (BitVec.ofNat 64 v) }

/-- The context record's register at `off` (R432). -/
def Die.ctxReg (d : Die) (ctx off : Nat) : Nat := d.reg (0x900000 + 128 * ctx + off)
/-- VALID of a context record (R432). -/
def Die.ctxValid (d : Die) (ctx : Nat) : Bool := bitN (d.ctxReg ctx 0) 0

/-- First byte of the host window in the package's byte memory. -/
def hostBase : Nat := 2 ^ 50
/-- First byte of the fabric spaces in the package's byte memory. -/
def fabBase : Nat := 2 ^ 60

/-- Where a device physical address of die `d` lies (R234); none for the reserved region. -/
def physOf (d a : Nat) : Option Nat :=
  match field a 48 2 with
  | 0 => some (d * 2 ^ 48 + a % 2 ^ 48)
  | 1 => some (field a 46 2 * 2 ^ 48 + a % 2 ^ 46)
  | 2 => some (hostBase + a % 2 ^ 48)
  | _ => none

/-- Whether memory or a control register stands at a place (R234, R439). -/
def State.populated (s : State) (pa : Nat) : Bool :=
  if hostBase ≤ pa then true
  else
    let a := pa % 2 ^ 48
    a < 0x3000000000 ||
    (0x10000000000 ≤ a && a < 0x10000000000 + (s.die (pa / 2 ^ 48)).ddrsz * 2 ^ 30) ||
    (0xF00000000000 ≤ a && a < 0xF00000000000 + 2 ^ 25 + 2 ^ 23)

/-- Whether a place lies in a die's control region. -/
def isCtl (pa : Nat) : Bool := pa < hostBase && 0xF00000000000 ≤ pa % 2 ^ 48

/-! Fields of a table entry (R237). -/

def leafV (w : Nat) : Bool := bitN w 63
def leafCC (w : Nat) : Nat := field w 61 2
def leafVer (w : Nat) : Bool := bitN w 60
def leafPin (w : Nat) : Nat := field w 57 3
def leafFab (w : Nat) : Bool := bitN w 56
def leafKey (w : Nat) : Nat := field w 47 9
def leafLeaf (w : Nat) : Bool := bitN w 46
def leafContig (w : Nat) : Bool := bitN w 45
def leafPfn (w : Nat) : Nat := field w 6 38
def leafX (w : Nat) : Bool := bitN w 5
def leafW (w : Nat) : Bool := bitN w 4
def leafU (w : Nat) : Bool := bitN w 3

/-- Hash bucket of a local address (R409). -/
def bucketOf (a : Nat) : Nat :=
  let l := a / 128
  (((field l 0 10 ^^^ field l 10 10) ^^^ field l 20 10) ^^^ field l 30 10) ^^^ field l 40 1

/-- The slices under plate `pp` of a die that serve pinned lines: those in service, and one that is retiring until its
last bucket is handed over (R244, R411). -/
def Die.slicesUnder (d : Die) (pp : Nat) : List Nat :=
  ((List.range 12).map (12 * pp + ·)).filter (fun x => d.slices.get x 0 < 2)

/-- Slice that the bucket table names (R410). -/
def Die.bucketSlice (d : Die) (b : Nat) : Nat := d.buckets.get b (b % 48)

/-- Home slice of a local place under a page's PIN (R244, R409). -/
def State.homeSlice (s : State) (pa pin : Nat) : Nat :=
  let d := s.die (pa / 2 ^ 48)
  let b := bucketOf (pa % 2 ^ 48)
  let under := d.slicesUnder (pin % 4)
  if 4 ≤ pin ∧ under ≠ [] then under.getD (b % under.length) 0 else d.bucketSlice b

/-- Identity of the key that KEY slot `slot` of a place's home die holds now (R435). Host and fabric memory
are not encrypted by this package. -/
def State.keyId (s : State) (pa slot : Nat) : Nat :=
  if hostBase ≤ pa then 0 else (s.die (pa / 2 ^ 48)).keygen.get slot (2 * slot)

/-- A cipher block of memory as it stands. -/
def State.rawBlock (s : State) (b : Nat) : BitVec 128 :=
  (List.range 16).foldl (fun v i => v ||| ((Mem.get s.mem (16 * b + i)).setWidth 128 <<< (8 * i))) 0

/-- Byte `i` of a cipher block. -/
def blockByte (x : BitVec 128) (i : Nat) : Byte := (x >>> (8 * i)).setWidth 8

/-- One byte as it reads under a key (R239). A block that nothing has written reads as it stands. -/
def State.rdByte (s : State) (pa key : Nat) : Byte :=
  let t := s.lineKey.get (pa / 16) 0
  if hostBase ≤ pa ∨ t = 0 ∨ t = key + 1 then Mem.get s.mem pa
  else blockByte (Config.recrypt (t - 1) key (pa / 16) (s.rawBlock (pa / 16))) (pa % 16)

/-- `n` bytes as a little-endian number under a key. -/
def State.rdKey (s : State) (pa key : Nat) : Nat → Nat
  | 0 => 0
  | n + 1 => (s.rdByte pa key).toNat + 256 * s.rdKey (pa + 1) key n

/-- Turn a cipher block's bytes into what they read as under a key, which a write of part of the block then meets (R239). -/
def State.rekeyBlock (s : State) (b key : Nat) : State :=
  let t := s.lineKey.get b 0
  if hostBase ≤ 16 * b ∨ t = key + 1 then s
  else if t = 0 then { s with lineKey := s.lineKey.set b (key + 1) }
  else
    { s with
      mem := (List.range 16).foldl (fun m i => Mem.put m (16 * b + i) (s.rdByte (16 * b + i) key)) s.mem
      lineKey := s.lineKey.set b (key + 1) }

/-- The cipher blocks that `n` bytes from `pa` touch are brought under a key; the other blocks of their sectors stay as they were
written, since writing a line back under its key and fetching it again gives them back (R239, R435). -/
def State.rekey (s : State) (pa n key : Nat) : State :=
  (List.range ((pa + n + 15) / 16 - pa / 16)).foldl (fun u i => u.rekeyBlock (pa / 16 + i) key) s

/-! Lines of hardware-coherent pages, as the slices hold them (R249). -/

/-- Bytes `off` to `off + n - 1` of a line. -/
def lineBytes (d : BitVec 1024) (off n : Nat) : Nat := field d.toNat (8 * off) (8 * n)

/-- A die's slice copy of a line. -/
def State.copy (s : State) (line d : Nat) : Copy := s.copies.get (4 * line + d) {}

/-- A byte of a die's copy as it reads under a key: a copy held under another key reads as its write-back and refetch would
give it (R239). -/
def Copy.byte (c : Copy) (pa key : Nat) : Byte :=
  if c.key = key then BitVec.ofNat 8 (lineBytes c.data (pa % 128) 1)
  else blockByte (Config.recrypt c.key key (pa / 16) (BitVec.ofNat 128 (lineBytes c.data (pa % 128 / 16 * 16) 16))) (pa % 16)

/-- One byte as the line's coherence order has it now: the copy of the die that owns the line, else memory
(R249). -/
def State.curByte (s : State) (pa key : Nat) : Byte :=
  let o := (s.dir.get (pa / 128) {}).owner
  let c := s.copy (pa / 128) o
  if s.dir.has (pa / 128) && o < 4 && c.st != .inv then c.byte pa key else s.rdByte pa key

/-- An agent's read under a key: current bytes, whichever die holds them. -/
def State.agentRead (s : State) (pa key : Nat) : Nat → Nat
  | 0 => 0
  | n + 1 => (s.curByte pa key).toNat + 256 * s.agentRead (pa + 1) key n

/-- The die's own reads and writes use the key under which the line is held (log 8). -/
def State.ownKey (s : State) (pa : Nat) : Nat := s.lineKey.get (pa / 16) 0 - 1

/-! Writes and what watches them (R155, R344, R351). -/

/-- A write to a line that a card watches: the die reads the card's counter again, and zero makes the card ready for good; its
groups then begin after an acquire (R351). -/
def State.watchCard (s : State) (line : Nat) (l : Launch) : Launch :=
  match l.depPa with
  | none => l
  | some p =>
    if l.kind = .card ∧ !l.cready ∧ p / 128 = line ∧ s.agentRead p (s.ownKey p) 4 = 0 then { l with cready := true, acq := true } else l

/-- A write at a line's ordering point triggers every monitor that watches the line, of lanes, of queues that stand at a
wait-on-word and of cards (R155, R344, R351). -/
def State.touch (s : State) (line : Nat) : State :=
  { s with
    waves := s.waves.map fun (k, w) =>
      (k, { w with mons := w.mons.map fun (l, m) => (l, if m.armed && m.line == line then { m with trig := true } else m) })
    dies := s.dies.map fun (d, x) =>
      (d, { x with
        launches := x.launches.map fun (k, l) => (k, s.watchCard line l)
        uqs := x.uqs.map fun (q, u) =>
          (q, match u.waitE with
              | some e => if e.pa / 128 = line then { u with waitE := some { e with hit := true } } else u
              | none => u) }) }

/-- Write `n` bytes of one line under a key, at the line's ordering point; a write of the whole line clears
poison (R239, R389). -/
def State.wrKey (s : State) (pa key n v : Nat) : State :=
  let s1 := s.rekey pa n key
  let s2 := { s1 with
    mem := Mem.store s1.mem pa n v
    poison := if n = 128 then s1.poison.del (pa / 128) else s1.poison }
  s2.touch (pa / 128)

/-- A die's own read. -/
def State.rdOwn (s : State) (pa n : Nat) : Nat := s.rdKey pa (s.ownKey pa) n
/-- Whether a slice holds reads of a line, to be answered together (R245); a held read is 32 times its word's identity plus its
lane. -/
def State.readHeld (s : State) (line : Nat) : Bool :=
  s.dies.any fun d => d.2.heldReads.any fun h =>
    s.ops.any fun o => o.id == h / 32 && o.accs.any fun a => a.lane == h % 32 && a.st == .pend && a.pa / 128 == line

/-- A die's own write of a record in one line. The reply to reads that the slice holds of the line goes first: the write is then the
next move, which sends it (R245). -/
def State.wrOwn (s : State) (pa n v : Nat) : State :=
  if s.readHeld (pa / 128) then { s with agenda := s.agenda ++ [.own pa n v] } else s.wrKey pa (s.ownKey pa) n v

/-! Error logs (R376 to R378). -/

/-- A 32-byte record (R376): KIND, FLAGS, CTX, BODY from byte 4, TIME. -/
def State.mkRec (s : State) (kind flags ctx body : Nat) : Nat :=
  kind + 2 ^ 8 * flags + 2 ^ 16 * ctx + 2 ^ 32 * (body % 2 ^ 160) + 2 ^ 192 * (s.rtime % 2 ^ 64)

/-- Send an MSI-X vector of a die. -/
def State.msi (s : State) (d vec : Nat) : State := s.modDie d fun x => { x with msix := x.msix ++ [vec % 2048] }

/-- Saturating 32-bit increment. -/
def satInc (w : W32) : W32 := if w = 0xFFFFFFFF#32 then w else w + 1

/-- Write a record to a context's log on a die, or count it as lost (R376, R377). -/
def State.logCtx (s : State) (d ctx kind flags body : Nat) : State :=
  let x := s.die d
  let r := x.ctxReg ctx 0x18
  let n := field r 0 5
  let h := x.ehead.get ctx 0
  let t := x.etail.get ctx 0
  if 8 ≤ n ∧ n ≤ 20 ∧ (t - h).toNat < 2 ^ n then
    match physOf d (r / 4096 % 2 ^ 38 * 4096) with
    | some base =>
      (s.wrOwn (base + 32 * (t.toNat % 2 ^ n)) 32 (s.mkRec kind flags ctx body)).modDie d
        fun y => { y with etail := y.etail.set ctx (t + 1) }
    | none => s.modDie d fun y => { y with elost := y.elost.set ctx (satInc (y.elost.get ctx 0)) }
  else s.modDie d fun y => { y with elost := y.elost.set ctx (satInc (y.elost.get ctx 0)) }

/-- Write a record to a die's system error log (R376, R377). -/
def State.logSys (s : State) (d kind flags ctx body : Nat) : State :=
  let x := s.die d
  let r := x.reg 0x300200
  let n := field r 0 5
  if 8 ≤ n ∧ n ≤ 20 ∧ (x.stail - x.shead).toNat < 2 ^ n then
    let s1 := (s.wrOwn (d * 2 ^ 48 + r / 4096 * 4096 % 2 ^ 48 + 32 * (x.stail.toNat % 2 ^ n)) 32
      (s.mkRec kind flags ctx body)).modDie d fun y => { y with stail := y.stail + 1 }
    if x.stail = x.shead then s1.msi d (x.reg 0x300210 / 2 ^ 32) else s1
  else s.modDie d fun y => { y with slost := satInc y.slost }

/-- Whether bytes lie in a die's populated local region, all of them (R234, R304). -/
def State.localRange (s : State) (d b n : Nat) : Bool :=
  let last := b + n - 1
  n != 0 && b / 2 ^ 48 == d && last / 2 ^ 48 == d && b < hostBase && !isCtl b && !isCtl last && s.populated b && s.populated last &&
  !(b % 2 ^ 48 < 0x3000000000 && 0x3000000000 ≤ last % 2 ^ 48)

/-! Translation (R236 to R238, R252 to R255). -/

/-- A table entry as a walker reads it: through the die's slices, like any other line (R252). -/
def State.entryAt (s : State) (pa : Nat) : Nat := s.agentRead pa (s.ownKey pa) 8

/-- Whether a table page may stand at a physical address of die `d`: in local memory, or in host memory (R238, R255). -/
def State.tableAt (s : State) (d a : Nat) : Bool :=
  match field a 48 2 with
  | 0 => s.populated (d * 2 ^ 48 + a % 2 ^ 48) && !isCtl (d * 2 ^ 48 + a % 2 ^ 48)
  | 2 => true
  | _ => false

/-- What a walk finds. -/
inductive Walk where
  | leaf (w : Nat)
  | fault
  | table
  | wait
  deriving DecidableEq, Repr

/-- A non-leaf entry that breaks R238: a nonzero other field, or a table outside local memory and host memory. -/
def nonLeafBad (s : State) (d e : Nat) : Bool :=
  field e 44 1 != 0 || field e 45 1 != 0 || field e 47 16 != 0 || field e 0 6 != 0 || !s.tableAt d (leafPfn e * 4096)

/-- A leaf entry at a level that breaks R238. -/
def leafBad (d lvl e : Nat) : Bool :=
  let region := field (leafPfn e) 36 2
  let peer := field (leafPfn e) 34 2
  let here := region == 0 || (region == 1 && peer == d)
  (3 ≤ lvl) || (leafContig e && lvl != 0) || field e 44 1 != 0 || field e 0 3 != 0 ||
  (leafVer e && (leafCC e != 0 || leafFab e)) ||
  ((leafCC e == 1 || leafCC e == 2) && (leafFab e || region == 2)) ||
  (leafCC e == 2 && region == 1 && peer != d) ||
  (leafPin e != 0 && (leafFab e || !here || leafPin e < 4))

/-- The leaf of one 4 KiB page inside a larger page, as translations hold it: its low bits, which are reserved in the table,
hold the level of the entry. Low PFN bits below a larger page's size are taken as 0 (log 84). -/
def leafAt (e lvl va : Nat) : Nat :=
  let span := 512 ^ lvl
  let pfn := leafPfn e / span * span + va / 4096 % span
  (e - leafPfn e * 64 + pfn * 64) / 8 * 8 + lvl

/-- Bytes of the page that a translation belongs to: 4 KiB, 64 KiB, 2 MiB or 1 GiB (R236). -/
def leafSpan (leaf : Nat) : Nat := if leafContig leaf then 65536 else 4096 * 512 ^ (leaf % 8)

/-- First frame of the page that a place belongs to (R236, R241). -/
def leafFrame (leaf pa va : Nat) : Nat := (pa - va % leafSpan leaf) / 4096

/-- The sixteen entries of a 64 KiB range (R236). -/
def State.contigRow (s : State) (pa : Nat) : List Nat := (List.range 16).map fun i => s.entryAt (pa / 128 * 128 + 8 * i)

/-- Whether entries are sixteen valid leaves of a 64 KiB page (R236). -/
def contigPage (es : List Nat) : Bool := es.all fun e => leafV e && leafLeaf e && leafContig e

/-- A page of a 64 KiB page as the entry of its first page gives it; one that breaks R238 is a table fault (R236, R238). -/
def contigFirst (d first idx : Nat) : Walk :=
  if leafBad d 0 first then .table
  else .leaf (first - leafPfn first * 64 + (leafPfn first + idx) % 2 ^ 38 * 64)

/-- Walk the tables from the entry of level `lvl` (R236, R238). `fuel` counts the levels that are left. -/
def State.walkFrom (s : State) (d va base lvl : Nat) : (fuel : Nat) → Walk
  | 0 => .table
  | fuel + 1 =>
    let pa := base + 8 * (va / 2 ^ (12 + 9 * lvl) % (if lvl = 4 then 64 else 512))
    if (s.die d).migr.contains (pa / 4096) then .wait
    else
      let e := s.entryAt pa
      if !leafV e then .fault
      else if leafLeaf e then
        if leafBad d lvl e then .table
        else if leafContig e then
          let own := Walk.leaf (leafAt e 0 va)
          let first := contigFirst d ((s.contigRow pa).headD 0) (va / 4096 % 16)
          -- sixteen leaves that disagree, in any field: either entry serves (R236)
          if own = first ∨ !contigPage (s.contigRow pa) ∨ Config.choice (s.free + va) % 2 = 0 then own else first
        else .leaf (leafAt e lvl va)
      else if lvl = 0 ∨ nonLeafBad s d e then .table
      else
        match physOf d (leafPfn e * 4096) with
        | some b => s.walkFrom d va b (lvl - 1) fuel
        | none => .table

/-- The walk of a context's tables on a die (R236), which lie in local or host memory from the root on (R255); a context without a valid record has no entry. -/
def State.walk (s : State) (d ctx va : Nat) : Walk :=
  let x := s.die d
  if x.ptw.any fun p => p.2 == (ctx, va / 4096) then .wait
  else if !x.ctxValid ctx then .fault
  else if !s.tableAt d (field (x.ctxReg ctx 0) 9 41 * 512) then .table
  else
    match physOf d (field (x.ctxReg ctx 0) 9 41 * 512) with
    | some b => s.walkFrom d va b 4 5
    | none => .table

/-- Key of a page in a plate's L2 TLB. -/
def l2Key (plate ctx page : Nat) : Nat := (plate % 4) * 2 ^ 54 + ctx * 2 ^ 42 + page

/-- Translation by the TLBs, then by a walk (R252). -/
def State.translate (s : State) (core ctx va : Nat) : Walk :=
  let page := va / 4096
  let c := s.core core
  if c.tlb.has page then .leaf (c.tlb.get page 0).toNat
  else
    let x := s.die (dieOf core)
    let k := l2Key (plateOf core) ctx page
    if x.l2tlb.has k then .leaf (x.l2tlb.get k 0).toNat else s.walk (dieOf core) ctx va

/-- Place that a leaf of die `d` gives a virtual address (R234, R235); none in the reserved region. -/
def leafPhys (d leaf va : Nat) : Option Nat :=
  if leafFab leaf then some (fabBase + leafKey leaf * 2 ^ 50 + leafPfn leaf * 4096 + va % 4096)
  else physOf d (leafPfn leaf * 4096 + va % 4096)

/-- The extent of a launch that holds an address (R254). -/
def Launch.extent (l : Launch) (va : Nat) : Option Extent :=
  l.exts.find? fun e => e.va.toNat ≤ va && va < e.va.toNat + e.len

/-- What one access asks of the checks of R115. -/
structure Want where
  size : Nat := 4
  write : Bool := false
  atom : Option Nat := none
  ver : Bool := false
  deriving DecidableEq, Repr

/-- Outcome of the checks of R115 for one access. -/
inductive Chk where
  | ok (pa leaf : Nat)
  | park
  | trap (code : Nat)
  | table
  | wait
  deriving DecidableEq, Repr

/-- Owned pages in the owner table of the slice of a page (R241); a page counts in the slice that homes its first line (log 85). -/
def State.ownCount (s : State) (leaf pa va : Nat) : Nat :=
  ((s.die (pa / 2 ^ 48)).owners.filter fun e =>
    s.homeSlice (e.1 * 4096) e.2.2 == s.homeSlice (leafFrame leaf pa va * 4096) (leafPin leaf)).length

/-- Whether an access would own one page more than the 4,096 of a slice's owner table (R241). -/
def State.ownFull (s : State) (leaf pa va : Nat) : Bool :=
  leafCC leaf == 2 && !(s.die (pa / 2 ^ 48)).owners.has (leafFrame leaf pa va) && 4096 ≤ s.ownCount leaf pa va

/-- Checks 4 to 7 of R115 on a translated access; `core` is 256 for an agent that is no core. -/
def State.checkLeaf (s : State) (d core leaf va : Nat) (user : Bool) (roExt : Bool) (k : Want) : Chk :=
  match leafPhys d leaf va with
  | none => .trap 6
  | some pa =>
    if !s.populated pa || (user && !leafU leaf) || (k.write && (!leafW leaf || roExt)) then .trap 6
    else if leafCC leaf = 2 ∧ ((s.die (pa / 2 ^ 48)).owners.get (leafFrame leaf pa va) (core, 0)).1 ≠ core then .trap 7
    else if s.ownFull leaf pa va then .table
    else if (if k.ver then !leafVer leaf else leafVer leaf && (k.write || k.atom.isSome)) then .trap 8
    else
      match k.atom with
      | none => .ok pa leaf
      | some op =>
        if hostBase ≤ pa ∧ pa < fabBase then (if op = 0 ∨ op = 8 ∨ op = 9 then .ok pa leaf else .trap 9)
        else if leafCC leaf = 3 then .trap 9
        else .ok pa leaf

/-- The checks of R115 in order, for a data access of a group's lane. -/
def State.check (s : State) (core : Nat) (g : Group) (va : W64) (k : Want) : Chk :=
  let a := va.toNat
  if 2 ^ 54 ≤ a then .trap 3
  else if a % k.size ≠ 0 then .trap 4
  else
    let l := s.launchOf g
    match l.extent a with
    | some e => s.checkLeaf (dieOf core) core (l.pages.get (a / 4096) 0).toNat a true (!e.w) k
    | none =>
      match s.translate core g.ctx a with
      | .fault => .park
      | .table => .table
      | .wait => .wait
      | .leaf w => s.checkLeaf (dieOf core) core w a true false k

/-- The first access to a core-private page makes the core its owner (R241). -/
def State.own (s : State) (core leaf pa va : Nat) : State :=
  if leafCC leaf = 2 then
    s.modDie (pa / 2 ^ 48) fun x =>
      if x.owners.has (leafFrame leaf pa va) then x
      else { x with owners := x.owners.set (leafFrame leaf pa va) (core, leafPin leaf) }
  else s

/-- The cross-die time-out of a die as a count that runs down to 1 (R422). -/
def Die.cdTicks (x : Die) : Nat := max 1000 (x.reg 0x701000 % 2 ^ 32) + 1

/-- Time-out of a request to a place outside the issuing die, 0 for none; it counts down to 1 (R422). -/
def State.crossLeft (s : State) (core pa : Nat) : Nat := if pa / 2 ^ 48 = dieOf core then 0 else (s.die (dieOf core)).cdTicks

/-- An access is sent, with the time-out of a request to another die, package or the host (R422). -/
def State.sent (s : State) (core : Nat) (a : Acc) : Acc := { a with cross := s.crossLeft core a.pa }

/-! Links (R401, R420, R421). -/

/-- The link of two dies; it stands on the lower one (R398, R420). -/
def State.link (s : State) (a b : Nat) : Link := (s.die (min a b)).links.get (max a b) {}
/-- Change the link of two dies. -/
def State.modLink (s : State) (a b : Nat) (f : Link → Link) : State :=
  s.modDie (min a b) fun x => { x with links := x.links.upd (max a b) {} f }

/-- The third die that traffic of a link that is down goes through: the lowest-numbered one whose links to both ends are up (R421). -/
def State.detour (s : State) (a b : Nat) : Option Nat :=
  (List.range 4).find? fun k => k != a && k != b && (s.link a k).st == .up && (s.link k b).st == .up

/-- Whether traffic between two dies moves now: over their link, or through a third die (R420, R421); a die whose mesh is
down, or that is being brought up again, serves no other die (R401, R431). -/
def State.routed (s : State) (a b : Nat) : Bool :=
  a == b ||
  (!(s.die b).meshDown && (s.die b).br == 4 &&
    (match (s.link a b).st with
     | .up => true
     | .retraining => false
     | .down => (s.detour a b).isSome))

/-- Whether a die is changing the key of a slot, so that accesses under it wait (R436). -/
def State.slotHeld (s : State) (d slot : Nat) : Bool := match (s.die d).kcmd with | some (k, _) => k == slot | none => false

/-- Whether an access under an entry waits at its slice for a key command (R436). -/
def State.keyHeld (s : State) (pa leaf : Nat) : Bool := pa < hostBase && !isCtl pa && s.slotHeld (pa / 2 ^ 48) (leafKey leaf)

/-! Poison (R366, R389). -/

/-- A mark in the poison map that says that only the owning context's reads meet the error (R366). -/
def poisonLost : Nat := 8192

/-- Whether a read of a context meets a line's poison: any read, or for a line that a lost plate held only one of its owning
context (R366, R389). -/
def State.badRead (s : State) (line ctx : Nat) : Bool :=
  s.poison.has line && (s.poison.get line 0 < poisonLost || s.poison.get line 0 == poisonLost + ctx + 1)

/-! Fault records (R219, R379). -/

/-- One 32-byte fault record. -/
def Frec.word (f : Frec) : Nat :=
  (f.page % 2 ^ 52) * 4096 + f.src * 4 + (if f.fetch then 2 else 0) + (if f.write then 1 else 0) +
  2 ^ 64 * (f.id % 2 ^ 32) + 2 ^ 96 * f.ctx + 2 ^ 192 * (f.time % 2 ^ 64)

/-- Write the oldest held fault record to the ring when delivery is enabled and there is space (R379). -/
def State.deliverFault (s : State) (d : Nat) : State :=
  let x := s.die d
  let r := x.reg 0x300000
  let n := field r 0 5
  match x.faults.find? (fun f => !f.written) with
  | none => s
  | some f =>
    if 6 ≤ n ∧ n ≤ 16 ∧ (x.ftail - x.fhead).toNat < 2 ^ n then
      let s1 := (s.wrOwn (d * 2 ^ 48 + r / 4096 * 4096 % 2 ^ 48 + 32 * (x.ftail.toNat % 2 ^ n)) 32 f.word).modDie d
        fun y => { y with
          ftail := y.ftail + 1
          faults := y.faults.map fun e => if e.id = f.id then { e with written := true, place := x.ftail } else e }
      if x.ftail = x.fhead then s1.msi d (x.reg 0x300010) else s1
    else s

/-- Write held fault records in order as far as space allows. -/
def State.deliverFaults (s : State) (d : Nat) : (fuel : Nat) → State
  | 0 => s
  | n + 1 => (s.deliverFault d).deliverFaults d n

/-- A record that has been written and that software has not consumed takes its WRITE bit in the ring too (R379;
log 46). -/
def State.rewriteFault (s : State) (d : Nat) (f : Frec) : State :=
  let x := s.die d
  let r := x.reg 0x300000
  let n := field r 0 5
  if f.written ∧ 6 ≤ n ∧ n ≤ 16 ∧ f.place - x.fhead < x.ftail - x.fhead then
    s.wrOwn (d * 2 ^ 48 + r / 4096 * 4096 % 2 ^ 48 + 32 * (f.place.toNat % 2 ^ n)) 32 f.word
  else s

/-- Raise or join the fault record of a page (R219); WRITE is set when any joined access writes (R379). -/
def State.raiseFault (s : State) (d ctx page src : Nat) (fetch write : Bool) : State :=
  let x := s.die d
  match x.faults.find? fun f => f.ctx == ctx && f.page == page with
  | some f =>
    if !write || f.write then s
    else
      (s.modDie d fun y => { y with
        faults := y.faults.map fun (g : Frec) => if g.id = f.id then { g with write := true } else g }).rewriteFault d { f with write := true }
  | none =>
    (s.modDie d fun y => { y with
      fnext := y.fnext + 1
      faults := y.faults ++ [{ id := y.fnext % 2 ^ 32, ctx := ctx, page := page, src := src, fetch := fetch,
                               write := write, time := s.rtime, written := false }] }).deliverFault d

end Sys2Proof.Machine
end

