-- ==== Sys2Proof/Machine/Fetch.lean ====
section
/-! DEFINITION. Latency kinds of words (R36, R143, R443, R444), fetching (R169, R214), finding the
clause of an address (R34), stalls and readiness (R30, R123, R173, R181, R215). All of it works on the
words themselves, since readiness is judged before a word is decoded. -/

namespace Sys2Proof.Machine

/-- Latency kinds; a long-latency word that writes a register must take a flag (R32). -/
inductive Lat where
  | fixed
  | long (writes : Bool)
  | waiting
  | fence
  | barrier
  | control
  | header
  | none
  deriving DecidableEq, Repr

/-- Latency kind of a word by its MOP and FN (R36, R132, R143, R443, R444). -/
def wordLat (w : Nat) : Lat :=
  let mop := field w 25 7
  let fn := field w 4 7
  if 0x7E ≤ mop then .header
  else if mop < 0x48 then .fixed
  else if mop < 0x4A then .long true
  else if mop < 0x4C then .long false
  else if mop = 0x4C then .long true
  else if mop = 0x4D then .long false
  else if mop < 0x52 then .fixed
  else if mop = 0x52 then .waiting
  else if mop = 0x53 then
    if fn < 2 then .long false
    else if fn = 0x10 ∨ fn = 0x12 then .fixed
    else if fn = 0x11 ∨ fn = 0x30 ∨ fn = 0x31 then .waiting
    else if 0x20 ≤ fn ∧ fn < 0x24 then .long false
    else if fn = 0x24 ∨ fn = 0x25 then .long true
    else .none
  else if mop = 0x54 then
    if fn < 4 then .long false
    else if fn = 8 ∨ fn = 9 then .waiting
    else if fn = 10 then .fixed
    else if 0x40 ≤ fn ∧ fn < 0x50 then .fence
    else if 0x50 ≤ fn ∧ fn < 0x53 then .long false
    else if fn = 0x58 then .long true
    else .none
  else if mop = 0x55 then
    if fn = 3 ∨ fn = 4 ∨ fn = 8 then .fixed
    else if fn = 5 ∨ fn = 7 then .waiting
    else if fn < 9 then .control
    else .none
  else if mop < 0x5C then .long true
  else if mop < 0x60 then .long false
  else if mop < 0x62 then .long true
  else if mop < 0x64 then .long false
  else if mop < 0x66 then .long true
  else if mop < 0x6C then .fixed
  else if mop < 0x6E then .barrier
  else if mop < 0x75 then .control
  else .none

/-- Whether a latency kind counts toward BIND (R30). -/
def Lat.isLong : Lat → Bool
  | .long _ => true
  | _ => false

/-- Whether a word performs an access or an ordering act on path L, so that an earlier acquire of its path
holds it (R123). -/
def wordOnL (w : Nat) : Bool :=
  let mop := field w 25 7
  let fn := field w 4 7
  (0x56 ≤ mop && mop < 0x66) || mop == 0x48 || mop == 0x49 || mop == 0x4A || mop == 0x4C || mop == 0x4D ||
  (mop == 0x52 && fn != 9) ||
  (mop == 0x54 && ((0x40 ≤ fn && fn < 0x48) || (0x48 ≤ fn && fn < 0x50 && (bitN w 18 || bitN w 11)) ||
    (0x50 ≤ fn && fn < 0x53) || fn == 0x58)) ||
  (mop == 0x55 && fn == 5)

/-- Whether a word carries release and so waits for the wave's unacknowledged stores (R96, R123, R135, R150,
R160 to R162). -/
def wordRel (w : Nat) : Bool :=
  let mop := field w 25 7
  let fn := field w 4 7
  (0x56 ≤ mop && mop < 0x66 && bitN w 6) || (mop == 0x4A && bitN w 1) || mop == 0x6C ||
  (mop == 0x52 && (fn == 0 || fn == 1 || fn == 0x11 || fn == 0x18 || fn == 0x19))

/-- Chain that an engine word appends to: 0 copy, 1 gather, 2 collective (R173). -/
def wordChain (w : Nat) : Option Nat :=
  if field w 25 7 = 0x54 then
    match field w 4 7 with
    | 0 | 1 => some 0
    | 2 => some 1
    | 3 => some 2
    | _ => none
  else none

/-- Whether a word enters the matrix chain (R332). -/
def wordMx (w : Nat) : Bool :=
  field w 25 7 == 0x53 && (field w 4 7 < 2 || (0x20 ≤ field w 4 7 && field w 4 7 < 0x26))

/-- A chain by its class number. -/
def Core.chain (c : Core) : Nat → Chain
  | 0 => c.copy
  | 1 => c.gath
  | _ => c.coll

/-- Change a chain. -/
def Core.modChain (c : Core) (cls : Nat) (f : Chain → Chain) : Core :=
  match cls with
  | 0 => { c with copy := f c.copy }
  | 1 => { c with gath := f c.gath }
  | _ => { c with coll := f c.coll }

/-- Whether a command of this core with the tag is in flight (R181). -/
def Core.tagBusy (c : Core) (t : Nat) : Bool :=
  t < 64 && (c.copy.entries ++ c.gath.entries ++ c.coll.entries).any fun e => e.tag == t

/-! Fetching (R169, R214). -/

/-- What fetching one word gives. -/
inductive Fetched where
  | word (w : Nat)
  | park
  | bad
  | table
  | poison
  | wait
  deriving DecidableEq, Repr

/-- Translation of a code address: the kernel's code range is translated before dispatch (R214). -/
def State.codeLeaf (s : State) (core : Nat) (g : Group) (va : Nat) : Walk :=
  let l := s.launchOf g
  if l.entry.toNat ≤ va ∧ va < l.entry.toNat + l.codelen ∧ l.pages.has (va / 4096) then
    .leaf (l.pages.get (va / 4096) 0).toNat
  else s.translate core g.ctx va

/-- A code word as the core's die has it now: dirty bytes of a core-private page in the core's own L1, the slices' copies of a
hardware-coherent line, else memory (R169, R240, R249). -/
def State.codeWord (s : State) (core leaf pa : Nat) : Nat :=
  let c := s.core core
  if leafCC leaf = 2 ∧ c.l1.has (pa / 128) then lineBytes (c.l1.get (pa / 128) {}).data (pa % 128) 4
  else s.agentRead pa (s.keyId pa (leafKey leaf)) 4

/-- What an access to a constant bank meets: the bank's pages are translated before dispatch, and through the TLBs and walkers once an
invalidation has dropped that translation (R24, R252, R254, R348). -/
def State.bankChk (s : State) (core : Nat) (g : Group) (va : Nat) : Chk :=
  let l := s.launchOf g
  match if l.pages.has (va / 4096) then Walk.leaf (l.pages.get (va / 4096) 0).toNat else s.translate core g.ctx va with
  | .fault => .park
  | .table => .table
  | .wait => .wait
  | .leaf w =>
    match leafPhys (dieOf core) w va with
    | some pa => if leafU w && s.populated pa then .ok pa w else .trap 6
    | none => .trap 6

/-- A word as memory holds it now, through the checks of a fetch: R214, R234, R237. -/
def State.fetchNew (s : State) (core : Nat) (g : Group) (va : Nat) : Fetched :=
  if 2 ^ 54 ≤ va ∨ va % 4 ≠ 0 then .bad
  else
    match s.codeLeaf core g va with
    | .fault => .park
    | .table => .table
    | .wait => .wait
    | .leaf w =>
      match leafPhys (dieOf core) w va with
      | none => .bad
      | some pa =>
        if !leafX w || !leafU w || !s.populated pa || isCtl pa then .bad
        else if s.badRead (pa / 128) g.ctx then .poison
        else .word (s.codeWord core w pa)

/-- Whether a word is a clause header (R29). -/
def isHeader (w : Nat) : Bool := 63 == field w 26 6

/-- Words of a header's clause (R29). -/
def headerLen (w : Nat) : Nat := field w 3 3 + 1

/-- The `n` words from an address, when all can be fetched; otherwise the first obstacle. -/
def State.fetchAll (s : State) (core : Nat) (g : Group) (va : Nat) : Nat → List Nat × Fetched
  | 0 => ([], .word 0)
  | n + 1 =>
    match s.fetchNew core g va with
    | .word w =>
      match s.fetchAll core g (va + 4) n with
      | (ws, r) => (w :: ws, r)
    | e => ([], e)

/-- The next word of a path's clause: as it was fetched at the header, else from memory (R169). -/
def State.clauseWord (s : State) (core : Nat) (g : Group) (p : Path) (c : Clause) : Fetched :=
  match c.words[c.pos]? with
  | some w => .word w.toNat
  | none => s.fetchNew core g p.pc.toNat

/-- Where an address stands in the code (R34): inside a clause, at a header or in no clause, or not to be said before an
obstacle of a fetch at an address is out of the way. -/
inductive Spot where
  | inside (c : Clause)
  | outside
  | stuck (r : Fetched) (va : Nat)
  deriving DecidableEq, Repr

/-- A clause header's fields with the clause's words, at the place `i` words after its first one (R29, R30, R34). -/
def clauseOf (h i : Nat) (ws : List Nat) : Clause :=
  { waitM := BitVec.ofNat 12 (field h 14 12), setA := field h 10 4, setB := field h 6 4, len := headerLen h, bind := field h 0 3, pos := i
    nLong := ((ws.take i).filter fun w => (wordLat w).isLong).length, words := ws.map fun w => BitVec.ofNat 32 w }

/-- The nearest header of the words before an address, `i` to `i + n - 1` words back; a word that cannot be fetched at all is no
header. -/
def State.headerBack (s : State) (core : Nat) (g : Group) (pc i : Nat) : (n : Nat) → Spot
  | 0 => .outside
  | n + 1 =>
    let va := pc - 4 * (i + 1)
    if pc < 4 * (i + 1) then .outside
    else
      match s.fetchNew core g va with
      | .bad => .outside
      | .word h =>
        if !isHeader h then s.headerBack core g pc (i + 1) n
        else if headerLen h < i + 1 then .outside
        else
          match s.fetchAll core g (va + 4) (headerLen h) with
          | (ws, r) => if ws.length < headerLen h then .stuck r (va + 4 + 4 * ws.length) else .inside (clauseOf h i ws)
      | r => .stuck r va

/-- The clause that an address lies in, when the nearest header of the eight words before it covers it: the place at which a
lane resumed inside a clause goes on, with the clause's words fetched together (R34, R169). -/
def State.spot (s : State) (core : Nat) (g : Group) (pc : Nat) : Spot :=
  match s.fetchNew core g pc with
  | .bad => .outside
  | .word w => if isHeader w then .outside else s.headerBack core g pc 0 8
  | r => .stuck r pc

/-- A path at an address that is not reached in sequence: its place in a clause, or the note that it has still to be found
when the code page cannot be read now (R34, R214). -/
def State.placed (s : State) (core : Nat) (g : Group) (p : Path) : Path :=
  match s.spot core g p.pc.toNat with
  | .inside c => { p with clause := some c, seek := false }
  | .outside => { p with clause := none, seek := false }
  | .stuck _ _ => { p with clause := none, seek := true }

/-! Stalls and readiness (R30, R215). -/

/-- Flag that the next long-latency word of a clause takes, 15 for none (R30). -/
def Clause.sel (c : Clause) : Nat := if c.nLong < c.bind then c.setA else c.setB

/-- Whether a release of its wave waits for a word: a store or an atomic that is not acknowledged (R122), or a load that is
not yet performed (R264; log 89). A VLD.EQ is not waited for: its value does not depend on when it is served (R272). -/
def MemOp.owed (o : MemOp) : Bool :=
  match o.kind with
  | .store | .spst | .vst | .atom => !o.mpath && o.accs.any fun a => a.st != .done
  | .load | .spld | .cld | .vldLe => o.accs.any fun a => a.st == .pend
  | _ => false

/-- Words of a wave that a release waits for, of every path: its unacknowledged stores, and its loads that are not yet
performed (R122, R123, R264). -/
def State.unacked (s : State) (core slot : Nat) : Nat :=
  (s.ops.filter fun o => o.core == core && o.slot == slot && some o.gid == (s.wave (waveKey core slot)).gid && o.owed).length

/-- Whether an acquire that the path issued still holds its L-path words (R123). -/
def State.held (s : State) (p : Path) : Bool := p.hold.any fun i => s.ops.any fun o => o.id == i

/-- The copy tag that a path's word names: the value of A by its kind, a scalar register or special as the path reads it (R18, R172). -/
def State.wordTag (s : State) (core slot : Nat) (p : Path) (w : Nat) : Nat :=
  let n := field w 11 7
  if field w 0 2 = 1 then
    (if n = 96 then p.lanes else ({ s with cur := { core := core, slot := slot } } : State).readS n).toNat
  else if n < 64 then n else 0xFFFFFFFF

/-- Whether a path at this word of its clause stalls (R30, R123, R173, R181, R332). -/
def State.stalls (s : State) (core slot : Nat) (p : Path) (c : Clause) (w : Nat) : Bool :=
  let wv := s.wave (waveKey core slot)
  let co := s.core core
  ((wordLat w).isLong && c.sel < 12 && 63 ≤ wv.flags.get c.sel 0) ||
  (wordOnL w && s.held p) ||
  (wordRel w && s.unacked core slot != 0) ||
  (match wordChain w with
   | some k => 256 ≤ (co.chain k).entries.length || co.tagBusy (s.wordTag core slot p w)
   | none => false) ||
  (wordMx w && 32 ≤ co.mchain.length)

/-- Whether every flag that a header waits on is zero (R30). -/
def Wave.flagsClear (w : Wave) (m : BitVec 12) : Bool :=
  (List.range 12).all fun i => !m.getLsbD i || w.flags.get i 0 == 0

/-- Whether the group of a wave lets it issue: not halted for it, its die not in debug halt (R215, R222, R424). -/
def State.mayIssue (s : State) (core slot : Nat) : Bool :=
  let w := s.wave (waveKey core slot)
  match w.gid with
  | none => false
  | some gid =>
    let g := s.group gid
    !(s.die (dieOf core)).dbg &&
    (match g.phase with
     | .admitted | .running => true
     | .halting => !w.stopped && w.skid < 8 && 0 < w.skidAc
     | .handler => g.slots.getD g.hwave 64 == slot
     | _ => false)

/-- Readiness of a path by every cause of R215 but the halt of its group. A path whose fetch would park,
or whose word would trap, is ready: the attempt does it. A header that R29 makes illegal is no exception to its own WAIT: it traps once the
flags that it names are zero (log 17). -/
def State.pathReady (s : State) (core slot : Nat) (p : Path) : Bool :=
  let w := s.wave (waveKey core slot)
  let g := s.group (w.gid.getD 0)
  let opens := fun (h : Nat) => !isHeader h || w.flagsClear (BitVec.ofNat 12 (field h 14 12))
  p.lanes != 0 && p.status == .run &&
  (p.seek ||
   match p.clause with
   | none =>
     (match (s.core core).icache.get p.pc.toNat [] with | h :: _ => opens h.toNat | [] => false) ||
     (match s.fetchNew core g p.pc.toNat with
      | .word h => opens h
      | _ => true)
   | some c =>
     (match s.clauseWord core g p c with
      | .word x => !s.stalls core slot p c x
      | _ => true))

/-- Whether a wave has a ready path. -/
def State.waveReady (s : State) (core slot : Nat) : Bool :=
  (s.wave (waveKey core slot)).paths.any fun p => s.pathReady core slot p

end Sys2Proof.Machine
end

