-- ==== Sys2Proof/Machine/Ops.lean ====
section
/-! DEFINITION. The operations that the meanings share: moving a path past a word, splitting and merging
paths (R76, R93, R95), leaving lanes (R92), taking a trap and returning from one (R44, R222 to R226,
R165, R374), and the five ways in which a word issues (R30, R32, R36, R143, R443, R444). -/

namespace Sys2Proof.Machine

/-! Paths. -/

/-- Whether a waiting word has a time-out (R381). -/
def WaitWord.timed : WaitWord → Bool
  | .join _ => true
  | .mwait => true
  | .tagAny _ => true
  | .tagAll _ => true
  | _ => false

/-- A path moved past the word at its PC: the next word of its clause, or the next header (R34). -/
def Path.past (p : Path) (long : Bool) : Path :=
  { p with
    pc := p.pc + 4
    clause :=
      match p.clause with
      | none => none
      | some c =>
        if c.pos + 1 < c.len then some { c with pos := c.pos + 1, nLong := if long then c.nLong + 1 else c.nLong }
        else none }

/-- Lanes of a wave that were launched and have not exited (R95, R213). -/
def Wave.live (w : Wave) : Lanes := w.launched &&& ~~~w.exited

/-- Change every path of a wave, those put aside at handler entry included (R225). -/
def Wave.mapPaths (w : Wave) (f : List Path → List Path) : Wave :=
  { w with paths := f w.paths, saved := w.saved.map fun v => { v with paths := f v.paths } }

/-- Join a released path to the one with the same PC: released lanes with equal PCs form one executing set (R93). -/
def joinPath (ps : List Path) (p : Path) : List Path :=
  match ps with
  | [] => [p]
  | q :: r => if q.pc = p.pc then { q with lanes := q.lanes ||| p.lanes, hold := q.hold ++ p.hold } :: r else q :: joinPath r p

/-- Release the lanes that wait at a reconvergence barrier (R93, R216). -/
def releaseRb (b : Nat) (ps : List Path) : List Path :=
  ps.filter (fun p => p.status != .rcv b) ++
    ((ps.filter fun p => p.status == .rcv b).map fun p => { p.past false with age := 0, status := .run }).foldl joinPath []

/-- Test a reconvergence barrier for release: one that holds neither an arrived nor a withdrawn lane is not in use (R93, R94). -/
def Wave.rbTest (w : Wave) (b : Nat) : Wave :=
  let r := w.rbs.get b {}
  if r.arrived ||| r.withdrawn ≠ 0 ∧ r.mask &&& ~~~(r.arrived ||| w.exited ||| ~~~w.launched ||| r.withdrawn) = 0 then
    Wave.mapPaths { w with rbs := w.rbs.set b { r with arrived := 0, withdrawn := 0 } } (releaseRb b)
  else w

/-- Test all 16 reconvergence barriers. -/
def Wave.rbTests (w : Wave) : Wave := (List.range 16).foldl Wave.rbTest w

/-- Wave keys of a group, in wave order. -/
def Group.keys (g : Group) : List Nat := g.slots.map (waveKey g.core)

/-- Live lanes of a group (R95). -/
def State.liveCount (s : State) (gid : Nat) : Nat :=
  ((s.group gid).keys.map fun k => laneCount (s.wave k).live).sum

/-- Test a group barrier slot for release: every waiting lane leaves as the path it arrived in, and the
phase flips (R95). -/
def State.barTest (s : State) (gid k : Nat) : State :=
  let g := s.group gid
  let b := g.bars.get k {}
  if 0 < b.arrived ∧ (if b.count = 0 then s.liveCount gid else b.count) ≤ b.arrived then
    g.keys.foldl
      (fun u key => u.modWave key fun w =>
        w.mapPaths (·.map fun p => if p.status = .bar k then { p.past false with age := 0, status := .run } else p))
      (s.modGroup gid fun g => { g with bars := g.bars.set k { b with arrived := 0, phase := !b.phase } })
  else s

/-- Test every barrier slot of a group. -/
def State.barTests (s : State) (gid : Nat) : State := (List.range 32).foldl (fun u k => u.barTest gid k) s

/-- What is left of a waiting word's work when lanes leave it (R92, R144, R165). -/
def WaitWord.drop (m : Lanes) : WaitWord → WaitWord
  | .spawn ts => .spawn (ts.filter fun t => !m.getLsbD t.lane)
  | .stagePush n ts => .stagePush n (ts.filter fun t => !m.getLsbD t.lane)
  | .amsg ts => .amsg (ts.filter fun t => !m.getLsbD t.lane)
  | w => w

/-- A path without the lanes that leave it, none when no lane is left: a waiting word completes when no waiting lane is left
(R143, R165). -/
def Path.without (p : Path) (m : Lanes) : Option Path :=
  let rest := p.lanes &&& ~~~m
  if p.lanes &&& m = 0 then some p
  else if rest = 0 then none
  else
    match p.status with
    | .wait w pend left =>
      if pend &&& rest = 0 then some { p.past false with lanes := rest, status := .run }
      else some { p with lanes := rest, status := .wait (w.drop m) (pend &&& rest) left }
    | _ => some { p with lanes := rest }

/-- Lanes that leave a wave's waits: those that wait at reconvergence barriers and no longer do. -/
def leaveRbs (ps : List Path) (m : Lanes) (r : FMap RBar) (withdraw : Bool) : FMap RBar :=
  ps.foldl
    (fun r p =>
      match p.status with
      | .rcv b =>
        if p.lanes &&& m = 0 then r
        else r.upd b {} fun x =>
          { x with arrived := x.arrived &&& ~~~(p.lanes &&& m), withdrawn := if withdraw then x.withdrawn ||| (p.lanes &&& m) else x.withdrawn }
      | _ => r) r

/-- Lanes that leave a wave's waits: the arrivals at the group's barrier slots fall by one for each of them (R96). -/
def leaveBars (ps : List Path) (m : Lanes) (r : FMap Bar) : FMap Bar :=
  ps.foldl
    (fun r p =>
      match p.status with
      | .bar k => if p.lanes &&& m = 0 then r else r.upd k {} fun (x : Bar) => { x with arrived := x.arrived - laneCount (p.lanes &&& m) }
      | _ => r) r

/-- Loads whose lanes have exited are discarded: their registers are not written and no trap of theirs arises (R92). A scalar
load is discarded when every lane of its set has exited. -/
def MemOp.discard (o : MemOp) (gone exited : Lanes) : MemOp :=
  match o.kind with
  | .load | .vldEq | .vldLe | .spld | .cld =>
    let all := o.sca && o.lanes &&& ~~~exited == 0
    { o with accs := o.accs.map fun a => if all || (!o.sca && gone.getLsbD a.lane) then { a with st := .done, gone := 0xFF } else a }
  | _ => o

/-- Split the issuing path: `mv` goes its own way as `q`, placed behind the wave's other paths; what is left
of the issuing path stays in front (R76). -/
def Wave.splitHead (w : Wave) (mv : Lanes) (q : Path) : Wave :=
  match w.paths with
  | [] => w
  | p :: r =>
    let rest := p.lanes &&& ~~~mv
    { w with paths := (if rest = 0 then [] else [{ p with lanes := rest }]) ++ r ++ (if mv = 0 then [] else [{ q with lanes := mv }]) }

/-- Group the lanes of a list by target, ascending by lowest lane. -/
def byTarget (tgt : Nat → W64) : List Nat → List (W64 × Lanes)
  | [] => []
  | n :: r =>
    let rest := byTarget tgt r
    if rest.any (fun e => e.1 == tgt n) then rest.map fun e => if e.1 = tgt n then (e.1, e.2 ||| laneBit n) else e
    else (tgt n, laneBit n) :: rest

/-- The issuing path ends in a transfer: one new path for each distinct target (R76, R90). -/
def Wave.transfer (w : Wave) (tgt : Nat → W64) : Wave :=
  match w.paths with
  | [] => w
  | p :: r =>
    { w with paths := (byTarget tgt (lanesOf p.lanes)).map (fun e => { p with lanes := e.2, pc := e.1, clause := none, age := 0 }) ++ r }

/-- Raise a flag by one operation (R30); 15 is no flag. -/
def Wave.raise (w : Wave) (f : Nat) : Wave := if f < 12 then { w with flags := w.flags.upd f 0 (· + 1) } else w
/-- Lower a flag; it never falls below zero (R31). -/
def Wave.lower (w : Wave) (f : Nat) : Wave := if f < 12 then { w with flags := w.flags.upd f 0 (· - 1) } else w

/-! Error records of groups (R375, R378). -/

/-- Body of an unhandled-trap or double-trap record (R378). -/
def trapBody (g : Group) (t : Trap) : Nat :=
  t.code + 2 ^ 8 * t.wave + 2 ^ 16 * (g.lid % 1024) + 2 ^ 32 * t.epc.toNat + 2 ^ 96 * t.eaddr.toNat

/-- The die writes the record of a group that ends with an error (R375, R225). -/
def State.trapRecord (s : State) (gid : Nat) (t : Trap) (double : Bool) : State :=
  let g := s.group gid
  let d := dieOf g.core
  let s1 := s.logCtx d g.ctx (if double then 0x22 else 0x21) 0 (trapBody g t)
  if double then s1 else s1.logSys d 0x21 0 g.ctx (trapBody g t)

/-! Halting (R222). -/

/-- Broadcast a group halt: the raising wave stops with SKID 0, a wave with no ready path stops at once,
and any other may issue up to 8 words in up to 64 ac (R222); without `skids` every SKID is 0 (R224). -/
def State.haltGroup (s : State) (gid : Nat) (t : Trap) (skids : Bool) : State :=
  let g := s.group gid
  (List.range g.slots.length).foldl
    (fun u i =>
      let slot := g.slots.getD i 0
      let go := skids && i != t.wave && s.waveReady g.core slot
      u.modWave (waveKey g.core slot) fun w => { w with skid := 0, stopped := !go, skidAc := if go then 64 else 0 })
    (s.modGroup gid fun g => { g with phase := .halting, trap := some t })

/-- The flag that a held trap of an ended command keeps raised falls (R224, R393). -/
def State.fall (s : State) (gid : Nat) (t : Trap) : State :=
  let g := s.group gid
  s.modWave (waveKey g.core (g.slots.getD t.wave 0)) fun w => w.lower t.flag

/-- What is left of a word of a group that ends: loads are discarded, failed accesses complete without effect, and a VFLOOR waits for
the answers that are under way (R92, R165, R226). -/
def MemOp.ended (o : MemOp) : MemOp :=
  let p := o.discard 0xFFFFFFFF#32 0xFFFFFFFF#32
  { p with halted := false, accs := p.accs.map fun a => if a.st = .failed then { a with st := .done, gone := 0xFF } else a }

/-- A running group whose every launched lane has exited begins to retire (R226). So does one whose last live lanes exit in its
handler: no lane is left that could return or that a held trap could be handled for, so held traps are dropped and the operations
whose flags they kept raised complete (R92, R225). -/
def State.exitTest (s : State) (gid : Nat) : State :=
  let g := s.group gid
  if s.liveCount gid ≠ 0 then s
  else if g.phase = .running ∨ g.phase = .admitted then s.modGroup gid fun g => { g with phase := .retiring }
  else if g.phase = .handler then
    let s1 := (g.held.foldl (fun u h => u.fall gid h) s).modGroup gid fun g => { g with phase := .retiring, trap := none, held := [] }
    { s1 with ops := s1.ops.map fun o => if o.gid = gid ∧ !o.mpath then o.ended else o }
  else s

/-- Lanes of a wave exit: they count as arrived at its reconvergence barriers and leave the live count of the group's barrier
slots, a lane that waited at one is withdrawn from it, and their outstanding loads are discarded (R92 to R96). -/
def State.exitLanes (s : State) (key : Nat) (gone : Lanes) : State :=
  let gid := (s.wave key).gid.getD 0
  let w := s.wave key
  let all := w.paths ++ (match w.saved with | some v => v.paths | none => [])
  let s1 := (s.modWave key fun w =>
      (Wave.mapPaths { w with exited := w.exited ||| gone, rbs := leaveRbs all gone w.rbs false } fun ps =>
        ps.filterMap fun p => p.without gone).rbTests).modGroup gid fun g => { g with bars := leaveBars all gone g.bars }
  let s2 : State := { s1 with
    ops := s1.ops.map fun o => if (waveKey o.core o.slot == key && o.gid == gid) then o.discard gone (w.exited ||| gone) else o }
  (s2.barTests gid).exitTest gid

/-- A group ends: every lane exits, with its outstanding loads discarded; nothing of it issues again, held traps are dropped and
operations whose flags they kept raised complete without effect; its pending follow-ons are discarded (R92, R165, R188, R225,
R226). -/
def State.endGroup (s : State) (gid : Nat) : State :=
  let g := s.group gid
  let s1 := g.keys.foldl
    (fun u k => u.modWave k fun w => { w with exited := w.launched, paths := [], saved := none, stopped := false, skidAc := 0 })
    (g.held.foldl (fun u h => u.fall gid h) s)
  { (s1.modGroup gid (fun g => { g with phase := .ending, trap := none, held := [], follow := 0 })).modCore g.core (fun c =>
      { c with follows := c.follows.filter fun f => f.gid != gid, doomed := c.doomed.filter fun e => e.1 != gid }) with
    ops := s1.ops.map fun o => if o.gid = gid ∧ !o.mpath then o.ended else o }

/-- A group ends with the error record of R375 or R225. -/
def State.endWithError (s : State) (gid : Nat) (t : Trap) (double : Bool) : State :=
  (s.trapRecord gid t double).endGroup gid

/-! Taking a trap (R44, R222 to R225). -/

/-- The trap of the issuing path at its word. -/
def State.trapHere (s : State) (code : Nat) (eaddr : W64) (emask : Lanes) : Trap :=
  { code := code, epc := s.cp.pc, eaddr := eaddr, emask := emask, wave := s.cw.wix }

/-- Take a trap that is precise at a word of the current wave: the word has no effect. In the skid the wave
stops before the word (R222); in a handler the group ends (R225). -/
def State.trapP (s : State) (t : Trap) : State :=
  match s.cg.phase with
  | .halting => s.modCw fun w => { w with stopped := true }
  | .handler => s.endWithError s.cgid t true
  | _ => s.haltGroup s.cgid t true

/-- Whether a trap that arises after issue is held now, with its operation, whose flag stays raised: during a halt of its group, and while
its die is in debug halt, in which groups keep their state (R224, R423). -/
def State.trapHeld (s : State) (gid : Nat) (own : Bool) : Bool :=
  (s.die (dieOf (s.group gid).core)).dbg || (s.group gid).phase == .halting || (s.group gid).phase == .halted || ((s.group gid).phase == .handler && !own)

/-- Take or hold a trap that arises after issue (R222, R224); `own` says that the handler's own word raised it (R225). While the die
is in debug halt the group keeps its state, and the trap is taken when the halt ends (R423; log 108). -/
def State.trapA (s : State) (gid : Nat) (t : Trap) (own : Bool) : State :=
  let hold := fun (t : Trap) => s.modGroup gid fun g => { g with held := g.held ++ [t] }
  match (s.group gid).phase with
  | .halting | .halted => hold t
  | .handler => if !own then hold t else if (s.die (dieOf (s.group gid).core)).dbg then hold { t with late := true } else s.endWithError gid t true
  | .ending => s
  | _ => if (s.die (dieOf (s.group gid).core)).dbg then hold t else s.haltGroup gid t true

/-- The traps that a group took while its die was in debug halt (R225, R423). -/
def State.lateTraps (s : State) (gid : Nat) : State :=
  let g := s.group gid
  match g.held.find? (·.late), g.held with
  | some t, _ => s.endWithError gid t true
  | none, h :: r =>
    if g.phase = .running ∨ g.phase = .admitted then ((s.fall gid h).modGroup gid fun g => { g with held := r }).haltGroup gid h true else s
  | none, [] => s

/-- Whether a wave is running its group's handler. -/
def State.inHandler (s : State) : Bool := s.cg.phase == .handler && s.cg.hwave == s.cw.wix

/-- The illegal-instruction trap, precise at the word (R43, R44). -/
def State.illegal (s : State) : State := s.trapP (s.trapHere 0 0 s.memb)

/-- A handler is bound to a trap class (R345: entry 256 + code of the handler table). -/
def State.handlerOf (s : State) (g : Group) (code : Nat) : W64 := (s.launchOf g).hnd.get (256 + code) 0

/-- Enter the handler once every wave has stopped (R225, R226): it runs in the raising wave, or in the
lowest-indexed wave with a live lane; with no such wave or no handler bound the group ends with an error. -/
def State.enterHandler (s : State) (gid : Nat) : State :=
  let g := s.group gid
  match g.trap with
  | none => s
  | some t =>
    let liveAt := fun i => (s.wave (waveKey g.core (g.slots.getD i 0))).live
    let hw := if liveAt t.wave ≠ 0 then some t.wave else (List.range g.slots.length).find? fun i => liveAt i != 0
    match hw with
    | none => s.endWithError gid t false
    | some i =>
      let key := waveKey g.core (g.slots.getD i 0)
      let w := s.wave key
      let pcOf := fun n => ((w.paths.find? fun p => p.lanes.getLsbD n).getD {}).pc
      let t1 : Trap :=
        if t.redir then t
        else
          let m := if t.code = 0x1D ∨ t.code = 0x1E ∨ t.code = 0x21 then w.live else t.emask
          { t with emask := m, epc := pcOf (lowLane (m &&& w.live)) }
      if s.handlerOf g t.code = 0 then s.endWithError gid t1 false
      else
        (s.modGroup gid fun g => { g with phase := .handler, trap := some t1, skidsel := i, hwave := i }).modWave key fun w =>
          { w with
            saved := some { paths := w.paths, fpmode := w.fpmode, fpstat := w.fpstat, xstat := w.xstat, wbase := w.wbase, cbase := w.cbase }
            paths := [{ lanes := w.live, pc := s.handlerOf g t.code }] }

/-! Returning from a trap (R165, R374). -/

/-- Lanes of a mask resume at an address: a lane whose PC changes leaves its barriers, and its place in a clause is that of the
address (R34, R94, R96, R165). -/
def State.redirect (s : State) (gid key : Nat) (m : Lanes) (epc : W64) : State :=
  let w := s.wave key
  let out := w.paths.filter fun p => p.pc != epc
  let keep := w.paths.filterMap fun p => if p.pc != epc then p.without m else some p
  let moved := (out.filter fun p => p.lanes &&& m != 0).map fun p =>
    s.placed (s.group gid).core (s.group gid) { p with lanes := p.lanes &&& m, pc := epc, age := 0, status := Status.run }
  ((s.modWave key fun w => { w with paths := keep ++ moved, rbs := leaveRbs out m w.rbs true }).modGroup gid fun g =>
    { g with bars := leaveBars out m g.bars })

/-- What ERET does to the memory word whose trap was handled, for the lanes that the trap was raised for: the accesses that
failed are made again for a missing version, a full heap, a data error and a failed check of a reissued access; for the other
version traps they complete with no effect (R139, R374, R384). The word stays halted while another trap of it is held. -/
def MemOp.settle (o : MemOp) (code : Nat) (own : Lanes) : MemOp :=
  let accs := o.accs.map fun a =>
    if a.st = .failed ∧ a.code = code ∧ (o.sca ∨ own.getLsbD a.lane) then
      if code = 0x0E ∨ code = 0x0F ∨ code = 0x10 ∨ code = 0x13 then { a with st := .done, gone := 0xFF } else { a with st := .pend, code := 0, left := 0 }
    else a
  { o with halted := accs.any fun a => a.st == .failed, accs := accs }

/-- The requests of a word that are still to be answered are sent again, each with a fresh cross-die time-out (R374, R422). -/
def State.resend (s : State) (o : MemOp) : MemOp :=
  { o with
    accs := o.accs.map fun a => if a.st = .pend then s.sent o.core a else a
    left := o.left.map fun e => (e.1, (s.die (dieOf o.core)).cdTicks)
    zread := if o.zread = 0 then 0 else (s.die (dieOf o.core)).cdTicks }

/-- A waiting word is cut off: the lanes that still wait stand at the word again, and the lanes for which it had completed go on
(R143, R144). -/
def Path.cut (p : Path) (pend : Lanes) : List Path :=
  let through := p.lanes &&& ~~~pend
  { p with lanes := pend, status := .run } :: (if through = 0 then [] else [{ p.past false with lanes := through, status := .run }])

/-- Lanes of a waiting word whose time-out was taken issue the word again (R374). A time-out that has been raised stands as 0. -/
def Path.renew (p : Path) (m : Lanes) : List Path :=
  match p.status with
  | .wait k pend 0 => if k.timed ∧ pend &&& m ≠ 0 then p.cut pend else [p]
  | _ => [p]

/-- A lane that was answered during the halt, or whose trap has been taken, is ready again (R220, R221). -/
def Path.release (p : Path) : Path := if p.status = .stay then { p with status := .run } else p

/-- ERET: handler mode ends, the saved state of the handler's wave comes back, the EMASK lanes go to
EPCH:EPCL when CAUSE.REDIR is 1, and a held trap starts a new halt before any lane issues (R165, R224, R225, R374). -/
def State.eretOp (s : State) : State :=
  let gid := s.cgid
  let g := s.cg
  let t := g.trap.getD {}
  let s1 := s.modCw fun w =>
    match w.saved with
    | none => w
    | some v =>
      { w with
        paths := v.paths, fpmode := v.fpmode, fpstat := v.fpstat, xstat := v.xstat, wbase := v.wbase, cbase := v.cbase
        saved := none }
  let own := t.op ≠ 0 ∧ !t.moved
  let tk := waveKey g.core (g.slots.getD t.wave 0)
  let s2 := if t.redir && !own then s1.redirect gid tk t.emask t.epc else s1
  let s3 := if t.op = 0 then s2 else { s2 with
    ops := s2.ops.map fun o => if o.id = t.op then s2.resend (o.settle t.code t.own) else o }
  let s4 := g.keys.foldl (fun u k => u.modWave k fun w => { (w.mapPaths (·.map Path.release)).rbTests with stopped := false, skidAc := 0 })
    (if t.code = 0x15 then s3.modWave tk fun w => { w with paths := (w.paths.map fun p => p.renew t.own).flatten } else s3)
  let s5 := s4.modGroup gid fun g => { g with phase := .running, trap := none, held := g.held.tail }
  match g.held with
  | h :: _ => (s5.fall gid h).haltGroup gid h false
  | [] => s5.exitTest gid

/-! How words issue. -/

/-- What the effect of a word is: a state, or a trap precise at the word. -/
inductive Res where
  | done (s : State)
  | trap (t : Trap)
  deriving DecidableEq, Repr

/-- A word that issued while its group was halting counts in its wave's SKID (R222); `s` is the state before
the word. -/
def State.count (t s : State) : State :=
  if s.cg.phase = .halting then t.modCw fun w => { w with skid := w.skid + 1 } else t

/-- The issuing path moves past its word. -/
def State.past (s : State) (long : Bool) : State := s.modCp fun p => p.past long

/-- Whether the bank of the current window is bound (R24). -/
def State.bankBound (s : State) : Bool := (s.launchOf s.cg).cbanks.has (s.cw.cbase.toNat / 128)

/-- Virtual address of word `n` of the current window (R24). -/
def State.cva (s : State) (n : Nat) : Nat :=
  ((s.launchOf s.cg).cbanks.get (s.cw.cbase.toNat / 128) 0).toNat + 4 * (128 * (s.cw.cbase.toNat % 128) + n)

/-- Whether word `n` of the current window can be read now: its page is translated, its line has no uncorrectable error (R252, R389). -/
def State.bankReady (s : State) (n : Nat) : Bool :=
  match s.bankChk s.cur.core s.cg (s.cva n) with
  | .ok pa _ => !s.badRead (pa / 128) s.cg.ctx
  | _ => false

/-- Whether the constant-bank sources of a word can be read: the bank of the current window is bound, and the words are there (R24). -/
def State.bound (s : State) (srcs : List Src) : Bool := srcs.all fun x => x.kind != .cst || (s.bankBound && s.bankReady x.name.toNat)

/-- A word whose constant-bank sources cannot be read: the constant-bank trap of an unbound bank (R24); a page without a translation
parks the path or has its walk waited for, and any other failure traps, as for a lane access (R115, R218, R252, R389). -/
def State.bankFail (s : State) (srcs : List Src) : State :=
  if !s.bankBound then s.trapP (s.trapHere 1 0 s.memb)
  else
    match srcs.find? fun x => x.kind == .cst && !s.bankReady x.name.toNat with
    | none => s
    | some x =>
      let va := s.cva x.name.toNat
      match s.bankChk s.cur.core s.cg va with
      | .park => (s.modCp fun p => { p with status := .parked va false }).raiseFault (dieOf s.cur.core) s.cg.ctx (va / 4096) 0 false false
      | .wait => s.modCp fun p => { p with status := .walk va 10000 }
      | .table => s.trapP (s.trapHere 0x0C (BitVec.ofNat 64 va) s.memb)
      | .trap c => s.trapP (s.trapHere c (BitVec.ofNat 64 va) s.memb)
      | .ok _ _ => s.trapP (s.trapHere 0x0D (BitVec.ofNat 64 (va / 128 * 128)) s.memb)

/-- The common checks of a word inside a clause: a word that is not in a clause, and an illegal word, trap
(R34, R43, R44); a constant-bank source that cannot be read traps or waits (R24). -/
def enter (ok : Bool) (srcs : List Src) (s : State) (k : Clause → Out) : Out :=
  match s.cp.clause with
  | none => if s.cw.paths.isEmpty then .next s else .next s.illegal
  | some c =>
    if !ok then .next s.illegal
    else if !s.bound srcs then .next (s.bankFail srcs)
    else k c

/-- A fixed-latency word (R36). -/
def issueFixed (ok : Bool) (srcs : List Src) (f : State → Res) (s : State) : Out :=
  enter ok srcs s fun _ =>
    match f s with
    | .done t => .next ((t.past false).count s)
    | .trap t => .next (s.trapP t)

/-- A barrier word: its effect places the path (R444). -/
def issueBarrier (ok : Bool) (f : State → Res) (s : State) : Out :=
  enter ok [] s fun _ =>
    match f s with
    | .done t => .next (t.count s)
    | .trap t => .next (s.trapP t)

/-- A control transfer, which must close its clause (R34). -/
def issueControl (ok : Bool) (srcs : List Src) (f : State → Res) (s : State) : Out :=
  enter ok srcs s fun c =>
    if c.pos + 1 < c.len then .next s.illegal
    else
      match f s with
      | .done t => .next (t.count s)
      | .trap t => .next (s.trapP t)

/-- A waiting word or a fence: it stalls behind an acquire when it acts on path L, and on unacknowledged
stores when it carries release; its effect either moves the path on or leaves it waiting (R123, R132, R143). -/
def issueWaiting (ok : Bool) (srcs : List Src) (onL rel : Bool) (f : State → Res) (s : State) : Out :=
  enter ok srcs s fun _ =>
    if (onL && s.held s.cp) || (rel && s.unacked s.cur.core s.cur.slot != 0) then .next s
    else
      match f s with
      | .done t => .next (t.count s)
      | .trap t => .next (s.trapP t)

/-- Whether a word comes in its order among those of one ac that meet at one place: no word of a later wave or lane has been taken there
(R160, R300). -/
def State.inOrder (s : State) (place ord : Nat) : Bool := s.cc.acOrder.get place 0 ≤ ord
/-- The place has taken a word of this ac. -/
def State.tookOrder (s : State) (place ord : Nat) : State := s.modCore s.cur.core fun c => { c with acOrder := c.acOrder.set place ord }

/-- A waiting word that meets the words of other waves at one place of the core, the huddle or a queue: those of one ac are taken by
ascending wave index and lowest lane, so that a word that comes too late for its place in this ac waits for the next one (R160, R300).
`go` says that nothing else holds it. -/
def issueTurn (ok : Bool) (srcs : List Src) (rel go : Bool) (place ord : Nat) (f : State → Res) (s : State) : Out :=
  enter ok srcs s fun _ =>
    if !go || s.held s.cp || (rel && s.unacked s.cur.core s.cur.slot != 0) || !s.inOrder place ord then .next s
    else
      match f (s.tookOrder place ord) with
      | .done t => .next (t.count s)
      | .trap t => .next (s.trapP t)

/-- A long-latency word (R30, R32, R123): `writes` when it writes a register, `onL` when it acts on path L,
`rel` when it carries release. It stalls on a flag at 63, behind an acquire, and on unacknowledged stores. -/
def issueLong (ok writes onL rel : Bool) (srcs : List Src) (f : Nat → State → Res) (s : State) : Out :=
  enter ok srcs s fun c =>
    if writes && c.sel == 15 then .next s.illegal
    else if (c.sel < 12 && 63 ≤ s.cw.flags.get c.sel 0) || (onL && s.held s.cp) || (rel && s.unacked s.cur.core s.cur.slot != 0) then
      .next s
    else
      match f c.sel s with
      | .done t => .next (t.count s)
      | .trap t => .next (s.trapP t)

/-- The issuing path waits in its word (R143); the time-out of JOIN, MWAIT and the tag waits counts down to 1,
and 0 is no time-out (R381). -/
def State.await (s : State) (w : WaitWord) (pend : Lanes) : State :=
  s.modCp fun p => { p with status := .wait w pend (if s.cw.mwtime = 0 ∨ !w.timed then 0 else s.cw.mwtime.toNat + 1) }

/-- Change every path of a wave that one lane lies in. -/
def State.modLanePath (s : State) (key lane : Nat) (f : Path → Path) : State :=
  s.modWave key fun w => { w with paths := w.paths.map fun p => if p.lanes.getLsbD lane then f p else p }

/-- The path of a lane. -/
def Wave.pathOf (w : Wave) (lane : Nat) : Option Path := w.paths.find? fun p => p.lanes.getLsbD lane

/-- Lanes of a waiting word complete; when none is left the path goes on with the next word (R143). -/
def Path.finish (p : Path) (m : Lanes) : Path :=
  match p.status with
  | .wait w pend left =>
    if pend &&& ~~~m = 0 then { p.past false with status := .run } else { p with status := .wait w (pend &&& ~~~m) left }
  | _ => p

end Sys2Proof.Machine
end

