-- ==== Sys2Proof/Machine/Operands.lean ====
section
/-! DEFINITION. Operand forms: reading a source of each kind (R25), the constant space (R24), and the forms
of fixed-latency words that write a vector or a scalar register (R75 to R78). -/

namespace Sys2Proof.Machine

/-- Operand c[n] of the current window (R24), as the core reads its page: dirty bytes of its own L1 or of a slice before memory (R240,
R249). -/
def State.cword (s : State) (n : Nat) : W32 :=
  match s.bankChk s.cur.core s.cg (s.cva n) with
  | .ok pa leaf => BitVec.ofNat 32 (s.codeWord s.cur.core leaf pa)
  | _ => 0

/-- A 32-bit source as a lane reads it; a literal is sign-extended (R25). -/
def State.src32 (s : State) (x : Src) (lane : Nat) : W32 :=
  match x.kind with
  | .vec => s.cw.readV x.name.toNat lane
  | .sca => s.readS x.name.toNat
  | .cst => s.cword x.name.toNat
  | .lit => x.name.signExtend 32

/-- A 64-bit source as a lane reads it (R15, R25). -/
def State.src64 (s : State) (x : Src) (lane : Nat) : W64 :=
  match x.kind with
  | .vec => s.cw.readV64 x.name.toNat lane
  | .sca => s.readS64 x.name.toNat
  | .cst => s.cword (x.name.toNat + 1) ++ s.cword x.name.toNat
  | .lit => x.name.signExtend 64

/-- Results of a vector form in every lane of the executing set (R75, R77). -/
def State.putLanes (s : State) (d : RName) (wide : Bool) (f : Nat → W64) : State :=
  s.modCw fun w => w.results d wide (lanesOf s.memb) f

/-- Write a scalar destination (R78). -/
def State.putS (s : State) (d : RName) (v : W32) : State := s.modCw fun w => w.setS d.toNat v
/-- Write a scalar pair (R78). -/
def State.putS64 (s : State) (d : RName) (v : W64) : State := s.modCw fun w => w.setS64 d.toNat v

/-- A vector form: a result in every lane of the executing set (R75, R77). -/
def vecForm (ok : Bool) (srcs : List Src) (d : RName) (wide : Bool) (f : State → Nat → W64) (s : State) : Out :=
  issueFixed ok srcs (fun s => .done (s.putLanes d wide (f s))) s

/-- A vector form of two 32-bit sources (R79). -/
def vec2 (op : W32 → W32 → W32) (d : RName) (a b : Src) (s : State) : Out :=
  vecForm (dst32 d && Sys2Proof.src32 a && Sys2Proof.src32 b) [a, b] d false
    (fun s n => (op (s.src32 a n) (s.src32 b n)).setWidth 64) s

/-- A vector form of two 32-bit sources that also reads D (R77, R79). -/
def vec3 (op : W32 → W32 → W32 → W32) (d : RName) (a b : Src) (s : State) : Out :=
  vecForm (dstR d && Sys2Proof.src32 a && Sys2Proof.src32 b) [a, b] d false
    (fun s n => (op (s.src32 a n) (s.src32 b n) (s.cw.readV d.toNat n)).setWidth 64) s

/-- A vector form of one 32-bit source (R84). -/
def vec1 (op : W32 → W32) (d : RName) (a : Src) (s : State) : Out :=
  vecForm (dst32 d && Sys2Proof.src32 a) [a] d false (fun s n => (op (s.src32 a n)).setWidth 64) s

/-- A scalar form of two 32-bit sources, executed once (R75, R78, R83). -/
def sca2 (op : W32 → W32 → W32) (d : RName) (a b : Src) (s : State) : Out :=
  issueFixed (sdst32 d && ssrc32 a && ssrc32 b) [a, b] (fun s => .done (s.putS d (op (s.src32 a 0) (s.src32 b 0)))) s

/-- A scalar form of one 32-bit source (R85). -/
def sca1 (op : W32 → W32) (d : RName) (a : Src) (s : State) : Out :=
  issueFixed (sdst32 d && ssrc32 a) [a] (fun s => .done (s.putS d (op (s.src32 a 0)))) s

end Sys2Proof.Machine
end

