-- ==== Sys2Proof/Machine/Mem.lean ====
section
/-! DEFINITION. Issue of the long-latency memory words: the checks of R115, parking (R218), and the access
that each lane sends on its way; then the fences. R114 to R135, R141, R142. The accesses are performed by the
steps of MemStep.lean and VerStep.lean. -/

namespace Sys2Proof.Machine

/-! Checks. -/

/-- One access of a word: the lane whose access it is, the lanes it stands for (all of them for a scalar
word), its address, and what the checks say. -/
structure Try where
  lane : Nat
  lanes : Lanes
  va : W64
  chk : Chk
  deriving DecidableEq, Repr

/-- Trap code of a failed precise check (R115). -/
def Chk.code : Chk → Option Nat
  | .trap c => some c
  | _ => none

/-- Whether an access passes every check (R115). -/
def Chk.isOk : Chk → Bool
  | .ok _ _ => true
  | _ => false

/-- The failure that ranks first in R115 among the accesses of a word; the trap codes rise in that order (R373). -/
def firstTrap (ts : List Try) : Option Nat :=
  ts.foldl (fun b t => match t.chk.code, b with
    | some c, some x => some (min c x)
    | some c, none => some c
    | none, x => x) none

/-- The precise trap of a word some of whose accesses fail: EMASK holds the lanes with the first failure, EADDR
the address of the lowest (R115). -/
def State.accessTrap (s : State) (ts : List Try) (code : Nat) : Trap :=
  let bad := ts.filter fun t => t.chk.code == some code
  s.trapHere code ((bad.head?.map (·.va)).getD 0) (bad.foldl (fun m t => m ||| t.lanes) 0)

/-- Lanes of the accesses with a given outcome. -/
def lanesWith (ts : List Try) (p : Chk → Bool) : Lanes := (ts.filter fun t => p t.chk).foldl (fun m t => m ||| t.lanes) 0

/-- Pages of the accesses with a given outcome, each once, in lane order. -/
def pagesWith (ts : List Try) (c : Chk) : List Nat := ((ts.filter fun t => t.chk == c).map fun t => t.va.toNat / 4096).eraseDups

/-- Lanes of a word whose accesses meet page faults, walks in waiting or table faults leave their path at the
word; the others go on with `q` (R76, R115, R218, R247, R380). -/
def Wave.divide (w : Wave) (ts : List Try) (q : Path → Path) : Wave :=
  match w.paths with
  | [] => w
  | p :: r =>
    let stay := lanesWith ts Chk.isOk
    let sub := fun c page => lanesWith (ts.filter fun t => t.va.toNat / 4096 == page) (· == c)
    let low := fun c page => (((ts.find? fun t => t.va.toNat / 4096 == page && t.chk == c).map fun t => t.va.toNat).getD 0)
    let parks := (pagesWith ts .park).map fun g => { p with lanes := sub .park g, status := .parked (low .park g) false }
    let waits := (pagesWith ts .wait).map fun g => { p with lanes := sub .wait g, status := .walk (low .wait g) 10000 }
    let tab := lanesWith ts (· == .table)
    { w with
      paths := (if stay = 0 then [] else [{ q p with lanes := stay }]) ++ r ++ parks ++ waits ++
        (if tab = 0 then [] else [{ p with lanes := tab }]) }

/-- What page faults and table faults of a word raise: fault records, and the table trap after issue (R115,
R219, R373, R380). -/
def State.raiseMisses (s t : State) (ts : List Try) (write : Bool) : State :=
  let u := (pagesWith ts .park).foldl (fun v g => v.raiseFault (dieOf s.cur.core) s.cg.ctx g 0 false write) t
  match ts.find? fun x => x.chk == .table with
  | none => u
  | some x => u.trapA s.cgid (s.trapHere 0x0C x.va (lanesWith ts (· == .table))) s.inHandler

/-- The accesses of a word that pass the checks (R115). -/
def sentAccs (ts : List Try) (mk : Try → Nat → W64 → Acc) : List Acc :=
  ts.filterMap fun t => match t.chk with | .ok pa leaf => some (mk t pa (BitVec.ofNat 64 leaf)) | _ => none

/-- Send the accesses of a word on their way: the lanes that pass the checks issue it with its flag; no lane
does anything when one fails a precise check (R30, R115, R122, R123). -/
def State.sendWord (s : State) (flag : Nat) (ts : List Try) (write : Bool) (op : MemOp) (mk : Try → Nat → W64 → Acc) : Res :=
  match firstTrap ts with
  | some c => .trap (s.accessTrap ts c)
  | none =>
    let accs := (sentAccs ts mk).map (s.sent s.cur.core)
    let stay := lanesWith ts Chk.isOk
    let s1 := s.modCw fun w =>
      let v := w.divide ts fun p => { p.past true with hold := if op.acq then s.nextId :: p.hold else p.hold }
      if stay = 0 then v else v.raise flag
    let o := { op with
      id := s.nextId, core := s.cur.core, slot := s.cur.slot, gid := s.cgid, ctx := s.cg.ctx, pc := s.cp.pc, flag := flag, accs := accs
      lanes := stay, seq := s.nextId, own := s.inHandler }
    let s2 := if stay = 0 then s1 else { s1 with ops := s1.ops ++ [o], nextId := s.nextId + 1 }
    let s3 := accs.foldl (fun u a => if a.pa < hostBase then u.own s.cur.core a.leaf.toNat a.pa a.va.toNat else u) s2
    .done (s.raiseMisses s3 ts write)

/-- The accesses of a word as the owner tables take them, one after the other: the one that would own a 4,097th page of a
slice takes the table fault (R241). -/
def State.ownRoom (s : State) (core : Nat) : List Try → List Try
  | [] => []
  | t :: r =>
    match t.chk with
    | .ok pa leaf =>
      if s.ownFull leaf pa t.va.toNat then { t with chk := .table } :: s.ownRoom core r
      else t :: (s.own core leaf pa t.va.toNat).ownRoom core r
    | _ => t :: s.ownRoom core r

/-- One access per lane of the executing set (R114). -/
def State.tries (s : State) (va : Nat → W64) (k : Want) : List Try :=
  s.ownRoom s.cur.core
    ((lanesOf s.memb).map fun n => { lane := n, lanes := laneBit n, va := va n, chk := s.check s.cur.core s.cg (va n) k })

/-- One access for the word (R114, R120). -/
def State.try1 (s : State) (va : W64) (k : Want) : List Try :=
  [{ lane := 0, lanes := s.memb, va := va, chk := s.check s.cur.core s.cg va k }]

/-- Scope code (R3). -/
def scopeNum : Scope → Nat
  | .wave => 0
  | .group => 1
  | .cluster => 2
  | .plate => 3
  | .die => 4
  | .pkg => 5
  | .sys => 6
  | .host => 7
/-- Hint code (R26). -/
def hintNum : Hint → Nat
  | .normal => 0
  | .evictFirst => 1
  | .evictLast => 2
  | .stream => 3
/-- Whether an order acquires. -/
def isAcq (o : Ord) : Bool := o == .acq || o == .acqrel
/-- Whether an order releases. -/
def isRel (o : Ord) : Bool := o == .rel || o == .acqrel

/-- Whether a vector register name lies in the operand file. -/
def inOpf (t : RName) : Bool := 96 ≤ t.toNat
/-- Where a vector register name reaches at issue: the physical register, or the operand-file number (R87). -/
def State.reach (s : State) (t : RName) : Nat := if inOpf t then t.toNat - 96 else s.cw.wbase + t.toNat

/-- The count of the zero-length read that a word makes as a release at .HOST, 0 when it is none (R415, R422). -/
def State.zeroRead (s : State) (rel : Bool) (scope : Nat) : Nat := if rel && scope == 7 then (s.die (dieOf s.cur.core)).cdTicks else 0

/-! Lane and scalar loads and stores (R114 to R122). -/

/-- Address of an FM word (R114). -/
def fmAddr (base : W64) (o : BitVec 4) (size : Nat) : W64 := base + o.signExtend 64 * BitVec.ofNat 64 size

/-- A vector load (R118, R119). -/
def loadV (size : Nat) (signed : Bool) (t b : RName) (o : BitVec 4) (r : Ord) (sc : Scope) (h : Hint) (s : State) : Out :=
  issueLong ((if size = 8 then ldst64 t else ldst t) && vaddr b && loadOrd r) true true false []
    (fun flag s =>
      s.sendWord flag (s.tries (fun n => fmAddr (s.cw.readV64 b.toNat n) o size) { size := size }) false
        { kind := .load, size := size, signed := signed, acq := isAcq r, scope := scopeNum sc, hint := hintNum h
          opfile := inOpf t, reg := s.reach t }
        (fun y pa leaf => { lane := y.lane, va := y.va, pa := pa, leaf := leaf })) s

/-- A vector store (R118, R119). -/
def storeV (size : Nat) (t b : RName) (o : BitVec 4) (r : Ord) (sc : Scope) (h : Hint) (s : State) : Out :=
  issueLong ((if size = 8 then stsrc64 t else vname t) && vaddr b && storeOrd r) false true (isRel r) []
    (fun flag s =>
      s.sendWord flag (s.tries (fun n => fmAddr (s.cw.readV64 b.toNat n) o size) { size := size, write := true }) true
        { kind := .store, size := size, scope := scopeNum sc, hint := hintNum h, zread := s.zeroRead (isRel r) (scopeNum sc) }
        (fun y pa leaf =>
          { lane := y.lane, va := y.va, pa := pa, leaf := leaf
            data := (if size = 8 then s.cw.readV64 t.toNat y.lane else (s.cw.readV t.toNat y.lane).setWidth 64).setWidth 256 })) s

/-- A scalar load (R118 to R120). -/
def loadS (size : Nat) (t b : RName) (o : BitVec 4) (r : Ord) (sc : Scope) (h : Hint) (s : State) : Out :=
  issueLong ((if size = 8 then spair t else sgen t) && spair b && loadOrd r) true true false []
    (fun flag s =>
      s.sendWord flag (s.try1 (fmAddr (s.readS64 b.toNat) o size) { size := size }) false
        { kind := .load, size := size, acq := isAcq r, scope := scopeNum sc, hint := hintNum h, sca := true, reg := t.toNat }
        (fun y pa leaf => { va := y.va, pa := pa, leaf := leaf })) s

/-- A scalar store (R118 to R120). -/
def storeS (size : Nat) (t b : RName) (o : BitVec 4) (r : Ord) (sc : Scope) (h : Hint) (s : State) : Out :=
  issueLong ((if size = 8 then spair t else sgen t) && spair b && storeOrd r) false true (isRel r) []
    (fun flag s =>
      s.sendWord flag (s.try1 (fmAddr (s.readS64 b.toNat) o size) { size := size, write := true }) true
        { kind := .store, size := size, scope := scopeNum sc, hint := hintNum h, sca := true, zread := s.zeroRead (isRel r) (scopeNum sc) }
        (fun y pa leaf =>
          { va := y.va, pa := pa, leaf := leaf
            data := (if size = 8 then s.readS64 t.toNat else (s.readS t.toNat).setWidth 64).setWidth 256 })) s

/-- An atomic (R126, R128): the operand, and for CAS the compare value and the new value. -/
def atomic (size fn : Nat) (t b : RName) (r : Ord) (sc : Scope) (h : Hint) (s : State) : Out :=
  issueLong ((if fn = 9 then (if size = 8 then cas64 t else ldst64 t) else if size = 8 then ldst64 t else ldst t) && vaddr b)
    true true (isRel r) []
    (fun flag s =>
      let word := fun (n lane : Nat) => if size = 8 then s.cw.readV64 n lane else (s.cw.readV n lane).setWidth 64
      s.sendWord flag (s.tries (fun n => s.cw.readV64 b.toNat n) { size := size, write := true, atom := some fn }) true
        { kind := .atom, fn := fn, size := size, acq := isAcq r, scope := scopeNum sc, hint := hintNum h
          zread := s.zeroRead (isRel r) (scopeNum sc), opfile := inOpf t, reg := s.reach t }
        (fun y pa leaf =>
          { lane := y.lane, va := y.va, pa := pa, leaf := leaf
            data := (word (if fn = 9 then t.toNat + size / 4 else t.toNat) y.lane).setWidth 256
            aux := word t.toNat y.lane })) s

/-! Scratchpad and constant loads (R129, R130). -/

/-- Checks of a scratchpad access: a multiple of 4, below SPSIZE (R129). -/
def State.spTries (s : State) (a b : Src) : List Try :=
  (lanesOf s.memb).map fun n =>
    let x := s.src32 a n + s.src32 b n
    { lane := n, lanes := laneBit n, va := x.setWidth 64
      chk := if x.toNat % 4 ≠ 0 then .trap 4 else if s.cg.spsize ≤ x.toNat then .trap 0x0A else .ok x.toNat 0 }

/-- SPLD (R129). -/
def execSpld (d : RName) (a b : Src) (s : State) : Out :=
  issueLong (ldst d && src32 a && src32 b) true true false [a, b]
    (fun flag s =>
      s.sendWord flag (s.spTries a b) false { kind := .spld, opfile := inOpf d, reg := s.reach d }
        (fun y pa _ => { lane := y.lane, va := y.va, pa := pa + (dieOf s.cur.core) * 2 ^ 48 })) s

/-- SPST (R129). -/
def execSpst (d : RName) (a b : Src) (s : State) : Out :=
  issueLong (vname d && src32 a && src32 b) false true false [a, b]
    (fun flag s =>
      s.sendWord flag (s.spTries a b) false { kind := .spst }
        (fun y pa _ =>
          { lane := y.lane, va := y.va, pa := pa + (dieOf s.cur.core) * 2 ^ 48
            data := (s.cw.readV d.toNat y.lane).setWidth 256 })) s

/-- CLD: one word of the constant space per lane; an address of 65,536 or above, or an unbound bank, raises the
constant-bank trap for all lanes (R130). -/
def execCld (d : RName) (a : Src) (s : State) : Out :=
  issueLong (ldst d && src32 a) true true false [a]
    (fun flag s =>
      let idx := fun n => (s.src32 a n).toNat
      let l := s.launchOf s.cg
      if (lanesOf s.memb).any fun n => 65536 ≤ idx n || !l.cbanks.has (idx n / 16384) then .trap (s.trapHere 1 0 s.memb)
      else
        let va := fun n => l.cbanks.get (idx n / 16384) 0 + BitVec.ofNat 64 (4 * (idx n % 16384))
        let ts : List Try := (lanesOf s.memb).map fun n =>
          { lane := n, lanes := laneBit n, va := va n, chk := s.bankChk s.cur.core s.cg (va n).toNat }
        s.sendWord flag ts false { kind := .cld, opfile := inOpf d, reg := s.reach d }
          (fun y pa leaf => { lane := y.lane, va := y.va, pa := pa, leaf := leaf })) s

/-! Prefetch (R131). -/

/-- A prefetch: the accesses that pass every check go on their way, the others are dropped; no lane parks. -/
def prefetch (fn : Nat) (a : RName) (h : Nat) (x : Bool) (s : State) : Out :=
  issueLong (if x then spair a else vaddr a) false true false []
    (fun flag s =>
      let ts := (if x then s.try1 (s.readS64 a.toNat) { size := 1 } else s.tries (fun n => s.cw.readV64 a.toNat n) { size := 1 })
      let ok := ts.filter fun t => t.chk.isOk
      match s.sendWord flag ok false { kind := .pref, fn := fn, hint := h, sca := x }
          (fun y pa leaf => { lane := y.lane, va := y.va, pa := pa, leaf := leaf }) with
      | .trap t => .trap t
      | .done u =>
        -- every lane has issued the word, whatever happened to its access
        let p := s.cp
        .done
          (if ok.isEmpty then (s.past true)
          else u.modCw fun w =>
            { w with paths := { p.past true with lanes := p.lanes } :: s.cw.paths.tail })) s

/-- PREF.L1 (R131). -/
def execPrefL1 (a : RName) (h : Hint) (x : Bool) (s : State) : Out := prefetch 0 a (hintNum h) x s
/-- PREF.LLC (R131). -/
def execPrefLlc (a : RName) (h : Hint) (x : Bool) (s : State) : Out := prefetch 1 a (hintNum h) x s
/-- PREF.DEMOTE (R131). -/
def execPrefDemote (a : RName) (x : Bool) (s : State) : Out := prefetch 2 a 0 x s

/-! Versions (R135, R141). -/

/-- The armed region of a context that holds a virtual address (R285). -/
def State.regionAt (s : State) (ctx va : Nat) : Option Nat :=
  (s.regions.find? fun e => e.1 / 64 == ctx && e.2.armed && e.2.base ≤ va && va < e.2.base + 32 * e.2.ngran).map (·.1 % 64)

/-- Scope declared for the region of an address, .HOST when it lies in none (R135, R283). -/
def State.regionScope (s : State) (ctx va : Nat) : Nat :=
  match s.regionAt ctx va with
  | some n => (s.regions.get (64 * ctx + n) {}).scope
  | none => 7

/-- The 32 bytes that eight registers of a lane supply (R135). -/
def State.eightRegs (s : State) (d lane : Nat) : BitVec 256 :=
  (List.range 8).foldl (fun v i => v ||| ((s.cw.readV (d + i) lane).setWidth 256 <<< (32 * i))) 0

/-- VLD and VST: every lane supplies its address and version (R135, R136). -/
def versionWord (kind : OpKind) (write : Bool) (ok acq rel : Bool) (d a : RName) (b : Src) (s : State) : Out :=
  issueLong ok (!write) true rel [b]
    (fun flag s =>
      let va := fun n => s.cw.readV64 a.toNat n
      let scope := (lanesOf s.memb).foldl (fun m n => max m (s.regionScope s.cg.ctx (va n).toNat)) 0
      s.sendWord flag (s.tries va { size := 32, write := write, ver := true }) write
        { kind := kind, size := 32, acq := acq, scope := scope, zread := s.zeroRead rel scope
          opfile := inOpf d, reg := s.reach d }
        (fun y pa leaf =>
          { lane := y.lane, va := y.va, pa := pa, leaf := leaf, aux := (s.src32 b y.lane).setWidth 64
            data := if write then s.eightRegs d.toNat y.lane else 0 })) s

/-- VLD.EQ (R135, R136). -/
def execVldEq (d a : RName) (b : Src) (o : Ord) (s : State) : Out :=
  versionWord .vldEq false (oct d && vpair a && src32 b && loadOrd o) (isAcq o) false d a b s
/-- VLD.LE (R135, R136). -/
def execVldLe (d a : RName) (b : Src) (o : Ord) (s : State) : Out :=
  versionWord .vldLe false (oct d && vpair a && src32 b && loadOrd o) (isAcq o) false d a b s
/-- VST (R135, R136). -/
def execVst (d a : RName) (b : Src) (o : Ord) (s : State) : Out :=
  versionWord .vst true (oct d && vpair a && src32 b && storeOrd o) false (isRel o) d a b s

/-- VFLOOR: executes once; a region that is not armed for the context raises the region-state trap, precise at
the word; every home slice of the region has then to apply the floor (R141). -/
def execVfloor (a b : Src) (s : State) : Out :=
  issueLong (scaLit a && ssrc32 b) false false false [b]
    (fun flag s =>
      let n := (s.src32 a 0).toNat
      let r := s.regions.get (64 * s.cg.ctx + n) {}
      if 63 < n ∨ !r.armed then .trap (s.trapHere 0x13 0 s.memb)
      else
        let o : MemOp :=
          { id := s.nextId, core := s.cur.core, slot := s.cur.slot, gid := s.cgid, ctx := s.cg.ctx, kind := .vfloor, pc := s.cp.pc, flag := flag
            region := 64 * s.cg.ctx + n, fn := (s.src32 b 0).toNat, pendSl := r.floors.map (·.1), lanes := s.memb, seq := s.nextId
            own := s.inHandler
            left := (((r.floors.map fun e => e.1 / 48).eraseDups).filter (· != dieOf s.cur.core)).map fun d =>
              (d, (s.die (dieOf s.cur.core)).cdTicks) }
        let s1 := (s.past true).modCw fun w => w.raise flag
        .done { s1 with ops := s1.ops ++ [o], nextId := s.nextId + 1 }) s

/-! Fences (R132 to R134, R268). -/

/-- Drop the L1's lines that an acquire at .CLUSTER or wider invalidates, and surrender the core's leases (R123,
R240, R243). Memory holds the current bytes of leased lines throughout. -/
def State.dropL1 (s : State) (core : Nat) : State :=
  s.modCore core fun c => { c with l1 := c.l1.filter fun e => e.2.priv, leases := [], grants := [] }

/-- Whether an acquire empties the L1: at .CLUSTER or wider (R123), and at every scope on a core whose engines have written completion
words, since what they announce reached memory past this L1 (R179, R260; log 107). -/
def State.acqDrops (s : State) (core scope : Nat) : Bool :=
  let c := s.core core
  2 ≤ scope || !c.copy.named.isEmpty || !c.gath.named.isEmpty || !c.coll.named.isEmpty

/-- Operations of the wave that an acquire of the issuing path waits for: the path's loads and atomics (R133). -/
def State.pathLoads (s : State) : List Nat :=
  (s.ops.filter fun o => o.core == s.cur.core && o.slot == s.cur.slot && o.gid == s.cgid && !o.mpath && (o.lanes &&& s.memb) != 0 &&
    (o.kind == .load || o.kind == .atom || o.kind == .vldEq || o.kind == .vldLe || o.kind == .spld || o.kind == .cld)).map (·.id)

/-- Every operation of the wave in flight on path L, for a FENCEX with L in its first set (R134). -/
def State.waveOps (s : State) : List Nat :=
  (s.ops.filter fun o => !o.mpath && o.core == s.cur.core && o.slot == s.cur.slot && o.gid == s.cgid).map (·.id)

/-- Whether a wave has engine commands up to a sequence number, or matrix operations older than a stamp, in
flight, or the core an atomic of a drain that is not performed: classes C, G, X and M of a FENCEX (R134, R196). -/
def State.pathsBusy (s : State) (core slot gid : Nat) (tails : List Nat) : Bool :=
  let c := s.core core
  ((List.range 3).any fun k => (c.chain k).entries.any fun e => e.gid == gid && e.slot == slot && e.seq ≤ tails.getD k 0) ||
  (c.mchain.any fun o => o.gid == gid && o.slot == slot && o.seq < tails.getD 3 0) ||
  (c.follows.any fun f => f.gid == gid && f.slot == slot && f.seq < tails.getD 3 0) ||
  (s.ops.any fun o => o.mpath && o.core == core && o.gid == gid && o.slot == slot && o.seq < tails.getD 3 0)

/-- Whether a fence's conditions hold: no unacknowledged store for a release, and every operation it waits for
complete (R133, R134). -/
def State.fenceDone (s : State) (core slot : Nat) (rel : Bool) (ids tails : List Nat) : Bool :=
  (!rel || s.unacked core slot == 0) && !(ids.any fun i => s.ops.any fun o => o.id == i) &&
  !(s.pathsBusy core slot ((s.wave (waveKey core slot)).gid.getD 0) tails)

/-- A fence at the issuing path: it completes at once or leaves the path waiting (R132, R133). -/
def State.fenceAt (s : State) (rel acq wide : Bool) (ids tails : List Nat) : State :=
  if s.fenceDone s.cur.core s.cur.slot rel ids tails then
    (if acq && wide then s.dropL1 s.cur.core else s).past false
  else s.await (.fence rel acq wide ids tails) s.memb

/-- The zero-length read of a fence that releases at .HOST, as a word in flight without accesses; it is made once the wave's stores
are acknowledged (R415). -/
def State.hostRead (s : State) : State :=
  { s with
    ops := s.ops ++ [{ id := s.nextId, core := s.cur.core, slot := s.cur.slot, gid := s.cgid, ctx := s.cg.ctx, pc := s.cp.pc, kind := .store
                       lanes := s.memb, seq := s.nextId, own := s.inHandler, zread := s.zeroRead true 7 }]
    nextId := s.nextId + 1 }

/-- A fence at a scope: a release at .HOST waits for its zero-length read too (R132, R133, R415). -/
def State.fenceTo (s : State) (rel acq : Bool) (scope : Nat) (wide : Bool) (ids tails : List Nat) : State :=
  if rel && scope == 7 then s.hostRead.fenceAt rel acq wide (s.nextId :: ids) tails else s.fenceAt rel acq wide ids tails

/-- FENCE (R133). -/
def execFence (sc : Scope) (o : Ord) (s : State) : Out :=
  issueWaiting (o != .plain) [] true false
    (fun s => .done (s.fenceTo (isRel o) (isAcq o) (scopeNum sc) (s.acqDrops s.cur.core (scopeNum sc)) (if isAcq o then s.pathLoads else []) [])) s

/-- FENCEX: bit 0 of a set is L, bit 1 C, bit 2 M, bit 3 G, bit 4 X. L in the first set is the release act and
waits for every memory word of the wave, L in the second the acquire act; the other paths wait for the commands
that the wave has issued (R134). What an engine or the matrix chain wrote reaches no L1 by itself, so with one of their paths in the
first set and L in the second the L1 is emptied at every scope (R261, R322). -/
def execFencex (p q : BitVec 5) (sc : Scope) (s : State) : Out :=
  issueWaiting (p != 0 && q != 0) [] (p.getLsbD 0 || q.getLsbD 0) false
    (fun s =>
      .done (s.fenceTo (p.getLsbD 0) (q.getLsbD 0) (scopeNum sc) (s.acqDrops s.cur.core (scopeNum sc) || p / 2 != 0)
        (if p.getLsbD 0 then s.waveOps else if q.getLsbD 0 then s.pathLoads else [])
        [if p.getLsbD 1 then s.cc.copy.tail else 0, if p.getLsbD 3 then s.cc.gath.tail else 0,
         if p.getLsbD 4 then s.cc.coll.tail else 0, if p.getLsbD 2 then s.nextId else 0])) s

/-! The FM words, one for each of the codes of R41. -/

/-- LD.S8 (R118). -/
def execLdS8 (t b : RName) (o : BitVec 4) (r : Ord) (sc : Scope) (h : Hint) (s : State) : Out := loadV 1 true t b o r sc h s
/-- LD.Z8 (R118). -/
def execLdZ8 (t b : RName) (o : BitVec 4) (r : Ord) (sc : Scope) (h : Hint) (s : State) : Out := loadV 1 false t b o r sc h s
/-- LD.S16 (R118). -/
def execLdS16 (t b : RName) (o : BitVec 4) (r : Ord) (sc : Scope) (h : Hint) (s : State) : Out := loadV 2 true t b o r sc h s
/-- LD.Z16 (R118). -/
def execLdZ16 (t b : RName) (o : BitVec 4) (r : Ord) (sc : Scope) (h : Hint) (s : State) : Out := loadV 2 false t b o r sc h s
/-- LD.S32 (R118). -/
def execLdS32 (t b : RName) (o : BitVec 4) (r : Ord) (sc : Scope) (h : Hint) (s : State) : Out := loadV 4 false t b o r sc h s
/-- LD.64 (R118). -/
def execLd64 (t b : RName) (o : BitVec 4) (r : Ord) (sc : Scope) (h : Hint) (s : State) : Out := loadV 8 false t b o r sc h s
/-- ST.8 (R118). -/
def execSt8 (t b : RName) (o : BitVec 4) (r : Ord) (sc : Scope) (h : Hint) (s : State) : Out := storeV 1 t b o r sc h s
/-- ST.16 (R118). -/
def execSt16 (t b : RName) (o : BitVec 4) (r : Ord) (sc : Scope) (h : Hint) (s : State) : Out := storeV 2 t b o r sc h s
/-- ST.32 (R118). -/
def execSt32 (t b : RName) (o : BitVec 4) (r : Ord) (sc : Scope) (h : Hint) (s : State) : Out := storeV 4 t b o r sc h s
/-- ST.64 (R118). -/
def execSt64 (t b : RName) (o : BitVec 4) (r : Ord) (sc : Scope) (h : Hint) (s : State) : Out := storeV 8 t b o r sc h s
/-- SLD.32 (R118, R120). -/
def execSld32 (t b : RName) (o : BitVec 4) (r : Ord) (sc : Scope) (h : Hint) (s : State) : Out := loadS 4 t b o r sc h s
/-- SLD.64 (R118, R120). -/
def execSld64 (t b : RName) (o : BitVec 4) (r : Ord) (sc : Scope) (h : Hint) (s : State) : Out := loadS 8 t b o r sc h s
/-- SST.32 (R118, R120). -/
def execSst32 (t b : RName) (o : BitVec 4) (r : Ord) (sc : Scope) (h : Hint) (s : State) : Out := storeS 4 t b o r sc h s
/-- SST.64 (R118, R120). -/
def execSst64 (t b : RName) (o : BitVec 4) (r : Ord) (sc : Scope) (h : Hint) (s : State) : Out := storeS 8 t b o r sc h s
/-- ATOM.ADD, 32 bits (R126). -/
def execAtomAdd32 (t b : RName) (r : Ord) (sc : Scope) (h : Hint) (s : State) : Out := atomic 4 0 t b r sc h s
/-- ATOM.MIN.S, 32 bits (R126). -/
def execAtomMinS32 (t b : RName) (r : Ord) (sc : Scope) (h : Hint) (s : State) : Out := atomic 4 1 t b r sc h s
/-- ATOM.MIN.Z, 32 bits (R126). -/
def execAtomMinZ32 (t b : RName) (r : Ord) (sc : Scope) (h : Hint) (s : State) : Out := atomic 4 2 t b r sc h s
/-- ATOM.MAX.S, 32 bits (R126). -/
def execAtomMaxS32 (t b : RName) (r : Ord) (sc : Scope) (h : Hint) (s : State) : Out := atomic 4 3 t b r sc h s
/-- ATOM.MAX.Z, 32 bits (R126). -/
def execAtomMaxZ32 (t b : RName) (r : Ord) (sc : Scope) (h : Hint) (s : State) : Out := atomic 4 4 t b r sc h s
/-- ATOM.AND, 32 bits (R126). -/
def execAtomAnd32 (t b : RName) (r : Ord) (sc : Scope) (h : Hint) (s : State) : Out := atomic 4 5 t b r sc h s
/-- ATOM.OR, 32 bits (R126). -/
def execAtomOr32 (t b : RName) (r : Ord) (sc : Scope) (h : Hint) (s : State) : Out := atomic 4 6 t b r sc h s
/-- ATOM.XOR, 32 bits (R126). -/
def execAtomXor32 (t b : RName) (r : Ord) (sc : Scope) (h : Hint) (s : State) : Out := atomic 4 7 t b r sc h s
/-- ATOM.SWAP, 32 bits (R126). -/
def execAtomSwap32 (t b : RName) (r : Ord) (sc : Scope) (h : Hint) (s : State) : Out := atomic 4 8 t b r sc h s
/-- ATOM.CAS, 32 bits (R126). -/
def execAtomCas32 (t b : RName) (r : Ord) (sc : Scope) (h : Hint) (s : State) : Out := atomic 4 9 t b r sc h s
/-- ATOM.ADD, 64 bits (R126). -/
def execAtomAdd64 (t b : RName) (r : Ord) (sc : Scope) (h : Hint) (s : State) : Out := atomic 8 0 t b r sc h s
/-- ATOM.MIN.S, 64 bits (R126). -/
def execAtomMinS64 (t b : RName) (r : Ord) (sc : Scope) (h : Hint) (s : State) : Out := atomic 8 1 t b r sc h s
/-- ATOM.MIN.Z, 64 bits (R126). -/
def execAtomMinZ64 (t b : RName) (r : Ord) (sc : Scope) (h : Hint) (s : State) : Out := atomic 8 2 t b r sc h s
/-- ATOM.MAX.S, 64 bits (R126). -/
def execAtomMaxS64 (t b : RName) (r : Ord) (sc : Scope) (h : Hint) (s : State) : Out := atomic 8 3 t b r sc h s
/-- ATOM.MAX.Z, 64 bits (R126). -/
def execAtomMaxZ64 (t b : RName) (r : Ord) (sc : Scope) (h : Hint) (s : State) : Out := atomic 8 4 t b r sc h s
/-- ATOM.AND, 64 bits (R126). -/
def execAtomAnd64 (t b : RName) (r : Ord) (sc : Scope) (h : Hint) (s : State) : Out := atomic 8 5 t b r sc h s
/-- ATOM.OR, 64 bits (R126). -/
def execAtomOr64 (t b : RName) (r : Ord) (sc : Scope) (h : Hint) (s : State) : Out := atomic 8 6 t b r sc h s
/-- ATOM.XOR, 64 bits (R126). -/
def execAtomXor64 (t b : RName) (r : Ord) (sc : Scope) (h : Hint) (s : State) : Out := atomic 8 7 t b r sc h s
/-- ATOM.SWAP, 64 bits (R126). -/
def execAtomSwap64 (t b : RName) (r : Ord) (sc : Scope) (h : Hint) (s : State) : Out := atomic 8 8 t b r sc h s
/-- ATOM.CAS, 64 bits (R126). -/
def execAtomCas64 (t b : RName) (r : Ord) (sc : Scope) (h : Hint) (s : State) : Out := atomic 8 9 t b r sc h s

end Sys2Proof.Machine
end

