-- ==== Sys2Proof/Machine/Coh.lean ====
section
/-! DEFINITION. One line at its ordering point: the slices' copies of hardware-coherent lines (R249), leases
(R242, R243), the L1 (R240, R241), and the accesses of agents that are no core (R322, R326, R414). -/

namespace Sys2Proof.Machine

/-- A line with `n` bytes replaced from `off`. -/
def putBytes (d : BitVec 1024) (off n v : Nat) : BitVec 1024 :=
  (d &&& ~~~(BitVec.ofNat 1024 ((2 ^ (8 * n) - 1) * 2 ^ (8 * off)))) ||| BitVec.ofNat 1024 (v % 2 ^ (8 * n) * 2 ^ (8 * off))

/-- Home die of a line of device memory. -/
def homeDie (line : Nat) : Nat := line / 2 ^ 41

/-- Change a die's slice copy; a copy that is back at its default is not listed. -/
def State.modCopy (s : State) (line d : Nat) (f : Copy → Copy) : State :=
  let c := f (s.copy line d)
  { s with copies := if c = {} then s.copies.del (4 * line + d) else s.copies.set (4 * line + d) c }

/-- Write bytes of a line under a key without a monitor seeing it: a write-back is no write of the coherence order (R239). -/
def State.backKey (s : State) (pa key n v : Nat) : State :=
  let s1 := s.rekey pa n key
  { s1 with mem := Mem.store s1.mem pa n v }

/-- Whether the directory keeps a page's lines coherent (R249): device memory of class 0b01. -/
def underDir (leaf pa : Nat) : Bool := leafCC leaf == 1 && pa < hostBase && !isCtl pa

/-- Die whose slice serves a core for a place (R244). -/
def servingDie (core leaf pa : Nat) : Nat := if underDir leaf pa then dieOf core else pa / 2 ^ 48

/-- The party outside that holds a place: 0 the host, 1 + n package n. -/
def outsider (pa : Nat) : Nat := if pa < fabBase then 0 else 1 + (pa - fabBase) / 2 ^ 50 % 512

/-- Whether an access of an agent on die `d` can reach its place now: the die's own slice holds the line, or its home, the host or
the package answers (R401, R415, R422). -/
def State.reaches (s : State) (d leaf pa : Nat) : Bool :=
  (hostBase ≤ pa && !s.silent.contains (outsider pa)) || (pa < hostBase && s.routed d (pa / 2 ^ 48)) ||
  (underDir leaf pa && (s.copy (pa / 128) d).st != .inv)

/-- Whether a die's slice holds a line under a key (R239, R249). -/
def State.holds (s : State) (line d key : Nat) : Bool := (s.copy line d).st != .inv && (s.copy line d).key == key

/-- Whether a die's slice can serve a read of a hardware-coherent line under a key (R249). -/
def State.dirReads (s : State) (line d key : Nat) : Bool :=
  s.holds line d key || (d == homeDie line && (!s.dir.has line || (s.dir.get line {}).owner == 4))

/-- Whether a die's slice can perform a write on a hardware-coherent line under a key (R249). -/
def State.dirWrites (s : State) (line d key : Nat) : Bool :=
  (s.holds line d key && ((s.copy line d).st == .ex || (s.copy line d).st == .mo)) || (d == homeDie line && !s.dir.has line)

/-- A read at the ordering point that serves a core's die; none when the die's slice has first to obtain the
line (R244, R249, R263). -/
def State.served (s : State) (core leaf pa n : Nat) : Option Nat :=
  let d := dieOf core
  let key := s.keyId pa (leafKey leaf)
  if underDir leaf pa then
    if !s.dirReads (pa / 128) d key then none
    else if s.holds (pa / 128) d key then some (lineBytes (s.copy (pa / 128) d).data (pa % 128) n)
    else some (s.rdKey pa key n)
  else some (s.rdKey pa key n)

/-- A write at the ordering point that serves a core's die. -/
def State.perform (s : State) (core leaf pa n v : Nat) : Option State :=
  let d := dieOf core
  let key := s.keyId pa (leafKey leaf)
  if underDir leaf pa then
    if !s.dirWrites (pa / 128) d key then none
    else if s.holds (pa / 128) d key then
      some ((s.modCopy (pa / 128) d fun c => { c with st := .mo, data := putBytes c.data (pa % 128) n v }).touch (pa / 128))
    else some (s.wrKey pa key n v)
  else some (s.wrKey pa key n v)

/-! Ports of the optical fabric (R426, R427); they stand on die 0. -/

/-- A port. -/
def State.port (s : State) (p : Nat) : Port := (s.die 0).ports.get p {}
/-- Change a port. -/
def State.modPort (s : State) (p : Nat) (f : Port → Port) : State := s.modDie 0 fun x => { x with ports := x.ports.upd p {} f }
/-- The register of port `p` of the two OIDs (R427). -/
def State.portReg (s : State) (p : Nat) : Nat := (s.die 0).reg (0x800000 + 0x10000 * (p / 16) + 64 * (p % 16))
/-- IDLE in rc ticks: 100 in a microsecond. -/
def State.portIdle (s : State) (p : Nat) : Nat := 100 * field (s.portReg p) 24 16

/-- A packet of `flits` leaves by a port and waits in its queue (R426, R428). -/
def State.fabSend (s : State) (p flits : Nat) : State :=
  s.modPort p fun x => { x with sent := x.sent + 1, queued := x.queued + flits, idleLeft := s.portIdle p }

/-- Ports that a mask names, ascending. -/
def maskPorts (m : BitVec 16) : List Nat := (List.range 16).filter fun i => m.getLsbD i

/-- The entry of an optical die's route table for a package (R426; log 24). -/
def State.route (s : State) (oid pkg : Nat) : BitVec 16 := (s.die 0).routes.get (512 * oid + pkg) (Config.route oid pkg)

/-- The port by which a line of another package goes: the one at position bucket modulo the population of the mask that its
optical die's route table gives; none without a route (R409, R426; log 24). -/
def State.fabPort (s : State) (pa : Nat) : Option Nat :=
  let pkg := (pa - fabBase) / 2 ^ 50 % 512
  let oid := Config.oidOf pkg (pa / 128) % 2
  let ps := maskPorts (s.route oid pkg)
  if ps.isEmpty then none else some (16 * oid + ps.getD (bucketOf (pa % 2 ^ 48) % ps.length) 0)

/-- The packet of an access to another package, if it is one, leaves by its port (R426). -/
def State.fabPacket (s : State) (pa : Nat) : State :=
  if fabBase ≤ pa then (match s.fabPort pa with | some p => s.fabSend p 1 | none => s) else s

/-! Leases (R242, R243). -/

/-- The core that holds a line under a lease. -/
def State.leasedBy (s : State) (line : Nat) : Option Nat := (s.cores.find? fun e => e.2.leases.contains line).map (·.1)

/-- Whether no core other than `core` holds a line under a lease. -/
def State.leaseOk (s : State) (core line : Nat) : Bool := s.leasedBy line == none || s.leasedBy line == some core

/-- A line's lease ends with write-back; memory is current all along. -/
def State.dropLease (s : State) (line : Nat) : State :=
  match s.leasedBy line with
  | some c => s.modCore c fun x => { x with leases := x.leases.filter (· != line), grants := x.grants.del line }
  | none => s

/-- Take a lease: a 129th surrenders the oldest one (R243). -/
def State.takeLease (s : State) (core line : Nat) : State :=
  s.modCore core fun c =>
    { c with leases := (if 128 ≤ c.leases.length then c.leases.tail else c.leases) ++ [line]
             grants := (if 128 ≤ c.leases.length then c.grants.del (c.leases.headD 0) else c.grants).set line 0 }

/-! Requests that wait for a line under a lease (R242). -/

/-- Whether a request that waits at a slice still stands: the core has an atomic word on its way to the line, the access is not
performed, the entry is running (R242). -/
def State.stands (s : State) (line : Nat) : Asker → Bool
  | .lease core => s.ops.any fun o => o.core == core && o.kind == .atom && o.accs.any fun a => a.st == .pend && a.pa / 128 == line
  | .access id lane => s.ops.any fun o => o.id == id && o.accs.any fun a => a.lane == lane && a.st == .pend && a.pa / 128 == line
  | .entry core cls seq => ((s.core core).chain cls).entries.any fun e => e.seq == seq && e.st == .running

/-- The requests for a line that wait at its slice, oldest first (R242). -/
def State.lineQueue (s : State) (line : Nat) : List Asker :=
  (s.lreqs.filter fun e => e.1 == line && s.stands line e.2).map (·.2)

/-- A request joins the ones that wait for a line (R242). -/
def State.joinLine (s : State) (line : Nat) (a : Asker) : State :=
  { s with lreqs := (s.lreqs.filter fun e => s.stands e.1 e.2) ++ if (s.lineQueue line).contains a then [] else [(line, a)] }

/-! Directory requests (R249). -/

/-- Number of the next packet of a link in one direction (R420). -/
def State.nextSeq (s : State) (src dst : Nat) : Nat := (s.link src dst).sent.get src 0 + 1

/-- Send a directory message; between two dies it is a packet of their link (R420). -/
def State.sendDir (s : State) (m : DMsg) : State :=
  if m.src = m.dst then { s with dmsgs := s.dmsgs ++ [m] }
  else
    let n := s.nextSeq m.src m.dst
    { (s.modLink m.src m.dst fun l => { l with sent := l.sent.set m.src n }) with dmsgs := s.dmsgs ++ [{ m with seq := n }] }

/-- Whether a directory message has arrived: a link delivers its packets in the order in which they were sent (R420). -/
def State.arrived (s : State) (m : DMsg) : Bool := m.src == m.dst || m.seq ≤ (s.link m.src m.dst).recv.get m.src 0

/-- Send another packet to a die of the package, with its time-out (R408, R417, R419, R420, R422). -/
def State.sendPkt (s : State) (src dst : Nat) (b : PktBody) : State :=
  let n := s.nextSeq src dst
  let p : Pkt := { id := s.nextId, src := src, dst := dst, seq := n, left := (s.die src).cdTicks, body := b }
  { (s.modLink src dst fun l => { l with sent := l.sent.set src n }) with pkts := s.pkts ++ [p], nextId := s.nextId + 1 }

/-- A slice gives up its copy of a line: in M or O it writes it back (R249). -/
def State.evictCopy (s : State) (d line : Nat) : State :=
  let c := s.copy line d
  let leased := match s.leasedBy line with | some x => dieOf x == d | none => false
  if c.st == .inv || c.asked || leased then s
  else if c.st = .mo ∨ c.st = .ow then
    (s.modCopy line d fun _ => {}).sendDir { kind := 8, src := d, dst := homeDie line, line := line, data := c.data, key := c.key }
  else s.modCopy line d fun _ => {}

/-- An access that misses in its die's slice makes the slice ask the home for the line, once (R249). -/
def State.askFor (s : State) (core leaf pa : Nat) (excl : Bool) : State :=
  let d := dieOf core
  let line := pa / 128
  let key := s.keyId pa (leafKey leaf)
  if underDir leaf pa && !(s.copy line d).asked && s.leaseOk core line && !(if excl then s.dirWrites line d key else s.dirReads line d key) then
    (s.modCopy line d fun x => { x with asked := true }).sendDir
      { kind := if excl then 1 else 0, src := d, dst := homeDie line, line := line, arg := if s.holds line d key then 1 else 0
        key := key, pin := leafPin leaf }
  else s

/-- Whether a place lies in the host window. -/
def isHost (pa : Nat) : Bool := hostBase ≤ pa && pa < fabBase

/-- Whether an atomic needs the line's lease: memory of a coherent class that is not the host's (R126, R128, R242). -/
def State.needsLease (_s : State) (_o : MemOp) (a : Acc) : Bool :=
  leafCC a.leaf.toNat < 2 && !isHost a.pa && !isCtl a.pa

/-! Recalling a line for an agent of the home die (R322, R326). -/

/-- Data of a line that is on its way between dies, or waits for its grant, reaches memory (R249). -/
def State.landData (s : State) (line : Nat) : State :=
  let s1 := s.dmsgs.foldl
    (fun u m => if m.line = line ∧ (m.kind = 5 ∨ m.kind = 8) then u.backKey (128 * line) m.key 128 m.data.toNat else u) s
  let s2 := (List.range 4).foldl
    (fun u d => match (s.copy line d).got with | some x => u.backKey (128 * line) (s.dir.get line {}).key 128 x.toNat | none => u) s1
  { s2 with dmsgs := s2.dmsgs.filter fun m => m.line != line }

/-- The remote copies of a line come home: the owner's data reaches memory, copies and filter entry go. -/
def State.recallCopies (s : State) (line : Nat) : State :=
  if !s.dir.has line && !(s.dmsgs.any fun m => m.line == line) then s
  else
    let u0 := s.landData line
    let o := (s.dir.get line {}).owner
    let c := s.copy line o
    let s1 := if o < 4 ∧ (c.st = .mo ∨ c.st = .ow) then u0.backKey (128 * line) c.key 128 c.data.toNat else u0
    (List.range 4).foldl (fun u d => u.modCopy line d fun _ => {}) { s1 with dir := s1.dir.del line }

/-- A line as an agent of its home die finds it: no lease, no remote copy. -/
def State.settleLine (s : State) (line : Nat) : State := (s.dropLease line).recallCopies line

/-- Whether the core that holds a line under a lease has still to perform an atomic word on it: a recalled core performs
those first (R242). -/
def State.atomDue (s : State) (line : Nat) : Bool :=
  s.ops.any fun o => o.kind == .atom && (s.core o.core).leases.contains line && o.accs.any fun a => a.st == .pend && a.pa / 128 == line

/-- Whether an agent's access to a line has to wait: for a transaction of the directory on it, for the atomic words of
the core that holds it under a lease, or for the reply to held reads (R242, R249, R407). -/
def State.lineBusy (s : State) (line : Nat) : Bool :=
  (s.dir.get line {}).busy || (s.dmsgs.any fun m => m.line == line) || s.atomDue line || s.readHeld line

/-- Lines that `n` bytes from `pa` touch. -/
def linesOf (pa n : Nat) : List Nat := if n = 0 then [] else (List.range ((pa + n - 1) / 128 + 1 - pa / 128)).map (pa / 128 + ·)

/-- An agent's write under a key, line by line. -/
def State.agentWrite (s : State) (pa n key v : Nat) : State :=
  (linesOf pa n).foldl
    (fun u l =>
      let a := max pa (128 * l)
      let b := min (pa + n) (128 * l + 128)
      (u.settleLine l).wrKey a key (b - a) (field v (8 * (a - pa)) (8 * (b - a)))) s

/-! The L1 (R240, R241). -/

/-- Write back the dirty bytes of a core-private line (R241). -/
def State.backLine (s : State) (line : Nat) (x : L1Line) : State :=
  if x.dirty = 0 then s
  else
    let s1 := (List.range 128).foldl (fun u i => if x.dirty.getLsbD i then u.rekey (128 * line + i) 1 x.key else u) s
    { s1 with
      mem := (List.range 128).foldl
        (fun m i => if x.dirty.getLsbD i then Mem.put m (128 * line + i) (BitVec.ofNat 8 (lineBytes x.data i 1)) else m) s1.mem }

/-- A line leaves the L1, written back when dirty. -/
def State.l1Drop (s : State) (core line : Nat) : State :=
  if (s.core core).l1.has line then
    (s.backLine line ((s.core core).l1.get line {})).modCore core fun c => { c with l1 := c.l1.del line }
  else s

/-- Put a line into the L1, which holds 2,048 lines: the lowest makes room (R233). -/
def State.l1Put (s : State) (core line : Nat) (x : L1Line) : State :=
  let s1 :=
    if (s.core core).l1.has line ∨ (s.core core).l1.length < 2048 then s
    else
      match (s.core core).l1 with
      | (k, _) :: _ => s.l1Drop core k
      | [] => s
  s1.modCore core fun c => { c with l1 := c.l1.set line x }

/-- Update a line that the L1 holds. -/
def State.l1Hit (s : State) (core pa n v : Nat) : State :=
  if (s.core core).l1.has (pa / 128) then
    s.modCore core fun c => { c with l1 := c.l1.upd (pa / 128) {} fun x => { x with data := putBytes x.data (pa % 128) n v } }
  else s

/-- Every dirty core-private line of a core is written back and the L1 emptied (R433). -/
def State.l1Empty (s : State) (core : Nat) : State :=
  ((s.core core).l1.foldl (fun u e => u.backLine e.1 e.2) s).modCore core fun c => { c with l1 := [], leases := [], grants := [] }

/-! LLC priorities (R125). -/

/-- Priority of a line after an access with a hint (R125). -/
def Prio.next (p : Prio) (hint : Nat) : Prio :=
  match p, hint with
  | .evictLast, _ => .evictLast
  | _, 2 => .evictLast
  | .absent, 0 => .normal
  | .absent, _ => .evictFirst
  | .evictFirst, 0 => .normal
  | .evictFirst, _ => .evictFirst
  | .normal, _ => .normal

/-- An access of a context with a hint reaches the slice that serves the die (R125); the line belongs to the context whose
access brings it into the slice (log 86). -/
def State.hintAt (s : State) (d line hint ctx : Nat) : State :=
  s.modDie d fun x =>
    let p := x.prio.get line (.absent, ctx)
    { x with prio := x.prio.set line (p.1.next hint, if p.1 = .absent then ctx else p.2) }

/-- PREF.DEMOTE by a context: an evict-last line of that context gets normal priority (R125, R131). -/
def State.demoteAt (s : State) (d line ctx : Nat) : State :=
  s.modDie d fun x => { x with prio := if x.prio.get line (.absent, 0) = (.evictLast, ctx) then x.prio.set line (.normal, ctx) else x.prio }

/-! Poison (R389). -/

/-- Poison a line for its owning context: records go to that context's log and to the system log (R389); the
array is 0 slice, 1 DRAM, 2 version store, 3 heap record (R378). -/
def State.poisonLine (s : State) (line ctx array : Nat) : State :=
  let d := homeDie line
  let body := 128 * line % 2 ^ 48 * 2 ^ 32 + array * 2 ^ 96
  { (s.logCtx d ctx 0x2A 0 body).logSys d 0x2A 0 ctx body with poison := s.poison.set line (ctx + 1) }

/-- Whether a read of a range by a context meets poison (R366, R389). -/
def State.poisoned (s : State) (pa n ctx : Nat) : Bool := (linesOf pa n).any fun l => s.badRead l ctx

end Sys2Proof.Machine
end

