-- ==== Sys2Proof/Machine/Gran.lean ====
section
/-! DEFINITION. The versions of a granule at its home slice: version slots, heap records, the memory image, and
what creating, reading, freeing and writing back do to them (R286 to R292, R297). -/

namespace Sys2Proof.Machine

/-! Heap records (R292). -/

/-- CRC-32C over bytes, low bit first. -/
def crcByte (c : Nat) (b : Nat) : Nat :=
  (List.range 8).foldl (fun x _ => if x % 2 = 1 then (x / 2) ^^^ 0x82F63B78 else x / 2) (c ^^^ b)

/-- CHK of a record: over bytes 0 to 35 and 40 to 55 (R292). -/
def recChk (r : Nat) : Nat :=
  ((List.range 36 ++ (List.range 16).map (40 + ·)).foldl (fun c i => crcByte c (field r (8 * i) 8)) 0xFFFFFFFF) ^^^ 0xFFFFFFFF

/-- A record without its CHK (R292). -/
def recOf (data : BitVec 256) (v gaddr nxt : Nat) : Nat :=
  data.toNat + 2 ^ 256 * (v % 2 ^ 32) + 2 ^ 320 * (gaddr % 2 ^ 48) + 2 ^ 384 * (nxt % 2 ^ 48)
/-- A record with its CHK. -/
def recPut (r : Nat) : Nat := r + 2 ^ 288 * recChk r
/-- Whether a record read from memory is intact. -/
def recOk (r : Nat) : Bool := field r 288 32 == recChk r

/-- A record as memory holds it. -/
def State.heapRec (s : State) (a : Nat) : Nat := s.agentRead a (s.ownKey a) 64
/-- Write a record. -/
def State.heapPut (s : State) (a r : Nat) : State := s.agentWrite a 64 (s.ownKey a) r

/-- Rewrite the NEXT of a record; a record that is not intact stays as it is. -/
def State.heapLink (s : State) (a nxt : Nat) : State :=
  let r := s.heapRec a
  if recOk r then s.heapPut a (recPut (field r 0 288 + 2 ^ 320 * (field r 320 64 + 2 ^ 64 * (nxt % 2 ^ 48)))) else s

/-- A context's heap on a die. -/
def State.heap (s : State) (d ctx : Nat) : Heap := (s.die d).heaps.get ctx {}
/-- Change a context's heap on a die. -/
def State.modHeap (s : State) (d ctx : Nat) (f : Heap → Heap) : State := s.modDie d fun x => { x with heaps := x.heaps.upd ctx {} f }

/-- Free records of a heap (R293). -/
def Heap.count (h : Heap) : Nat := (h.free.map (·.2)).sum

/-- Take a free record: the first of the list, an order that R292 and R293 leave open (log 124). -/
def Heap.pop (h : Heap) : Option (Nat × Heap) :=
  match h.free with
  | [] => none
  | (a, n) :: r => some (a, { h with free := if n ≤ 1 then r else (a + 64, n - 1) :: r })

/-- Return a record to the free list, at its head (log 124). -/
def Heap.push (h : Heap) (a : Nat) : Heap := { h with free := (a, 1) :: h.free }

/-! Versions of a granule (R289). -/

/-- The versions of a granule that exist. -/
def Gran.all (g : Gran) : List Nat := g.slots.map (·.1) ++ g.heap.map (·.1) ++ (if g.image then [0] else [])
/-- Whether a version exists. -/
def Gran.hasV (g : Gran) (v : Nat) : Bool := g.all.contains v
/-- The newest version at or below a bound: the highest-numbered one (R136). -/
def Gran.atMost (g : Gran) (b : Nat) : Option Nat :=
  g.all.foldl (fun m v => if v ≤ b then (match m with | some x => some (max x v) | none => some v) else m) none
/-- The newest version. -/
def Gran.newest (g : Gran) : Option Nat := g.atMost (2 ^ 32)

/-- The granule at a physical address; one that is not listed has version 0 only. -/
def State.gran (s : State) (pa : Nat) : Gran := s.grans.get pa {}
/-- Change a listed granule. -/
def State.putGran (s : State) (pa : Nat) (g : Gran) : State := { s with grans := s.grans.set pa g }

/-- Whether every heap record that a look for version `v` reads is intact and not poisoned: none when a slot holds it, else
those from the head of the chain down to it (R292, R389). -/
def State.chainOk (s : State) (g : Gran) (v : Nat) : Bool :=
  g.slots.has v || (g.heap.filter fun e => v ≤ e.1).all fun e => recOk (s.heapRec e.2) && !s.badRead (e.2 / 128) g.ctx

/-- The 32 bytes of an existing version (R289). -/
def State.verData (s : State) (pa key : Nat) (g : Gran) (v : Nat) : BitVec 256 :=
  if g.slots.has v then g.slots.get v 0
  else
    match g.heap.find? fun e => e.1 == v with
    | some e => BitVec.ofNat 256 (s.heapRec e.2)
    | none => BitVec.ofNat 256 (s.rdKey pa key 32)

/-- Put a version into the chain, in descending order, with its record written and its predecessor linked (R292). -/
def State.chainPut (s : State) (pa : Nat) (g : Gran) (a v : Nat) (data : BitVec 256) : State × Gran :=
  let up := g.heap.filter fun e => v < e.1
  let dn := g.heap.filter fun e => e.1 < v
  let s1 := s.heapPut a (recPut (recOf data v (pa % 2 ^ 48) ((dn.headD (0, 0)).2)))
  (match up.getLast? with | some e => s1.heapLink e.2 a | none => s1, { g with heap := up ++ (v, a) :: dn })

/-- Move one version of a granule to a heap record of its home die (R290, R292); none without a free record. -/
def State.toHeap (s : State) (pa : Nat) (g : Gran) (v : Nat) (data : BitVec 256) : Option (State × Gran) :=
  let d := pa / 2 ^ 48
  match (s.heap d g.ctx).pop with
  | none => none
  | some (a, h) => some ((s.modHeap d g.ctx fun _ => h).chainPut pa { g with slots := g.slots.del v } a v data)

/-- Take a version's record out of the chain and return it to the free list (R292, R297). -/
def State.fromHeap (s : State) (pa : Nat) (g : Gran) (v : Nat) : State × Gran :=
  match g.heap.find? fun e => e.1 == v with
  | none => (s, g)
  | some e =>
    let up := g.heap.filter fun x => v < x.1
    let dn := g.heap.filter fun x => x.1 < v
    let s1 := match up.getLast? with | some x => s.heapLink x.2 ((dn.headD (0, 0)).2) | none => s
    (s1.modHeap (pa / 2 ^ 48) g.ctx (·.push e.2), { g with heap := up ++ dn })

/-- Versions of a line that the slice gives up go to heap records, all or none (R291). -/
def State.spillLine (s : State) (pa : Nat) : Option State :=
  let g := s.gran pa
  if (s.heap (pa / 2 ^ 48) g.ctx).count < g.slots.length then none
  else
    match g.slots.foldl (fun (o : Option (State × Gran)) e =>
        match o with | some (u, h) => u.toHeap pa h e.1 e.2 | none => none) (some (s, g)) with
    | some (u, h) => some (u.putGran pa { h with line := false, slots := [] })
    | none => none

/-- Home place of a granule: 48 * die + slice (R244, R289). -/
def State.granHome (s : State) (pa pin : Nat) : Nat := 48 * (pa / 2 ^ 48) + s.homeSlice pa pin

/-- The version line that a home place gives up for a new one: below 8,192 there is none, else it is the least recently used one. Lines
of chain heads are not among the 8,192 (R291, R292; log 88). -/
def State.victim (s : State) (place : Nat) : Option Nat :=
  let here := s.grans.filter fun e => e.2.line && s.granHome e.1 e.2.pin == place
  if here.length < 8192 then none
  else
    match here with
    | [] => none
    | e :: r => some (r.foldl (fun (b : Nat × Gran) x => if x.2.stamp < b.2.stamp then x else b) e).1

/-- Obtain a version line at a home place: one that is given up spills first (R291). -/
def State.getLine (s : State) (place : Nat) : Option State :=
  match s.victim place with
  | none => some s
  | some pa => s.spillLine pa

/-- Whether the records that the slice reads to put version `v` of a granule into its place of the chain are intact (R292, R389). -/
def State.placeOk (s : State) (g : Gran) (v : Nat) : Bool :=
  (g.heap.filter fun e => v < e.1).all fun e => recOk (s.heapRec e.2) && !s.badRead (e.2 / 128) g.ctx

/-- Whether the records that the creation of version `v` reads on the way are intact: those above each version that moves to the heap, of
the granule itself or of the one whose version line it takes (R290 to R292). -/
def State.createOk (s : State) (pa pin v : Nat) : Bool :=
  let g := s.gran pa
  if !g.line then
    (match s.victim (s.granHome pa pin) with
     | none => true
     | some p => (s.gran p).slots.all fun e => s.placeOk (s.gran p) e.1)
  else if g.slots.length < 4 then true
  else s.placeOk g (min v ((g.slots.headD (v, 0)).1))

/-- An access uses a granule's version line (R291). -/
def State.useLine (s : State) (pa : Nat) : State :=
  if s.grans.has pa && (s.gran pa).line then
    { (s.putGran pa { s.gran pa with stamp := s.nextId }) with nextId := s.nextId + 1 }
  else s

/-- Create a version of a granule of a page with a KEY slot (R290): none when a heap record is needed and there is none. -/
def State.create (s : State) (pa pin kslot ctx num v : Nat) (data : BitVec 256) : Option State :=
  let g0 := s.gran pa
  let g := { g0 with ctx := ctx, num := num, pin := pin, kslot := kslot, stamp := s.nextId }
  let fin := fun (u : State) (h : Gran) => ({ (u.putGran pa h) with nextId := u.nextId + 1 } : State).touch (pa / 128)
  if !g.line then
    match s.getLine (s.granHome pa pin) with
    | none => none
    | some u => some (fin u { (u.gran pa) with ctx := ctx, num := num, pin := pin, kslot := kslot, stamp := s.nextId, line := true, slots := [(v, data)] })
  else if g.slots.length < 4 then some (fin s { g with slots := g.slots.set v data })
  else
    match g.slots with
    | [] => none
    | (m, x) :: _ =>
      if v < m then
        match s.toHeap pa g v data with
        | some (u, h) => some (fin u h)
        | none => none
      else
        match s.toHeap pa g m x with
        | some (u, h) => some (fin u { h with slots := h.slots.set v data })
        | none => none

/-- Kept heap versions return to slots, highest first, while slots are free (R297). -/
def State.refill (s : State) (pa : Nat) (g : Gran) : (fuel : Nat) → State × Gran
  | 0 => (s, g)
  | n + 1 =>
    match g.heap with
    | [] => (s, g)
    | (v, a) :: _ =>
      if g.line && g.slots.length < 4 && recOk (s.heapRec a) then
        let data := BitVec.ofNat 256 (s.heapRec a)
        let p := s.fromHeap pa g v
        State.refill p.1 pa { p.2 with slots := p.2.slots.set v data } n
      else (s, g)

/-- Apply a floor to a granule: the versions at or above it and the newest one below it stay (R297). -/
def State.applyFloor (s : State) (pa fl : Nat) : State :=
  let g := s.gran pa
  let base := if fl = 0 then none else g.atMost (fl - 1)
  let keep := fun v => fl ≤ v || some v == base
  let gone := (g.heap.map (·.1)).filter fun v => !keep v
  let p := gone.foldl (fun (q : State × Gran) v => q.1.fromHeap pa q.2 v) (s, g)
  let g1 := { p.2 with slots := p.2.slots.filter fun e => keep e.1, image := g.image && keep 0 }
  let q := p.1.refill pa g1 4
  q.1.putGran pa q.2

/-- The newest version goes to the memory bytes under its page's key, slots and records are freed, and the granule is
ordinary memory again (R239, R287). A newest version whose record has a bad CHK is written as the record holds it: no access reads it, so
nothing traps (R292; log 123). -/
def State.writeBackGran (s : State) (pa : Nat) : State :=
  let g := s.gran pa
  let key := s.keyId pa g.kslot
  let s1 :=
    match g.newest with
    | some v => if v = 0 ∧ g.image then s else s.backKey pa key 32 (s.verData pa key g v).toNat
    | none => s
  let s2 := g.heap.foldl (fun u e => u.modHeap (pa / 2 ^ 48) g.ctx (·.push e.2)) s1
  { s2 with grans := s2.grans.del pa }

end Sys2Proof.Machine
end

