-- ==== Sys2Proof/Machine/Huddle.lean ====
section
/-! DEFINITION. Huddle bins, the spawn spill ring, the message unit and the stage rings: where a thread, a
message or a record goes (R299 to R307, R312, R313, R353, R161). -/

namespace Sys2Proof.Machine

/-! Rings that the context record places (R304, R313, R432). -/

/-- Base and size exponent of a ring of a context record: `off` 0x08 the spill ring, 0x10 the message ring;
none when its exponent lies outside `lo` to `hi` or it does not lie whole in the die's local region (R304, R432). -/
def State.ringAt (s : State) (d ctx off lo hi : Nat) : Option (Nat × Nat) :=
  let r := (s.die d).ctxReg ctx off
  let n := field r 0 5
  if lo ≤ n ∧ n ≤ hi then
    match physOf d (field r 12 38 * 4096) with
    | some b => if s.localRange d b ((if off = 8 then 32 else 128) * 2 ^ n) then some (b, n) else none
    | none => none
  else none

/-- The spawn spill ring of a context on a die (R304). -/
def State.spillRing (s : State) (d ctx : Nat) : Option (Nat × Nat) := s.ringAt d ctx 0x08 16 24
/-- The message ring of a context on a die (R313). -/
def State.msgRing (s : State) (d ctx : Nat) : Option (Nat × Nat) := s.ringAt d ctx 0x10 8 20

/-- Identity of a context's key at a place of its rings (R305, R313; log 90). -/
def State.ringKey (s : State) (d ctx pa : Nat) : Nat := s.keyId pa (Config.ctxKey d ctx % 512)

/-- A list of words as a little-endian number. -/
def packWords : List W32 → Nat
  | [] => 0
  | w :: r => w.toNat + 2 ^ 32 * packWords r

/-- `n` words of a number. -/
def unpackWords (v : Nat) : Nat → List W32
  | 0 => []
  | n + 1 => BitVec.ofNat 32 v :: unpackWords (v / 2 ^ 32) n

/-- A spill record (R305). -/
def Thread.spillRec (t : Thread) : Nat :=
  packWords (t.pay.take 4) + 2 ^ 128 * (t.join.toNat % 2 ^ 54) + 2 ^ 192 * (t.key % 2 ^ 54 + 2 ^ 54 * (t.lid % 1024))

/-- A message record of 128 bytes: payload, then the descriptor and the LID (R313; log 30 for their places). -/
def Thread.msgRec (t : Thread) : Nat := packWords (t.pay.take 16) + 2 ^ 512 * t.desc.toNat + 2 ^ 544 * (t.lid % 1024)

/-- Key of a ring record's launch and age: its place, which ring, the context. -/
def infoKey (ctx i : Nat) (msg : Bool) : Nat := 2 * (4096 * i + ctx) + if msg then 1 else 0

/-- Append a record to the spill ring; none while it is full or absent (R304, R307). -/
def State.spillPut (s : State) (d : Nat) (t : Thread) : Option State :=
  match s.spillRing d t.ctx with
  | none => none
  | some (b, n) =>
    let p := (s.die d).spill.get t.ctx (0, 0)
    if p.2 - p.1 < 2 ^ n then
      some ((s.agentWrite (b + 32 * (p.2 % 2 ^ n)) 32 (s.ringKey d t.ctx (b + 32 * (p.2 % 2 ^ n))) t.spillRec).modDie d fun x =>
        { x with spill := x.spill.set t.ctx (p.1, p.2 + 1), ringInfo := x.ringInfo.set (infoKey t.ctx p.2 false) (t.lid, t.born) })
    else none

/-- Append a record to the message ring; none while it is full or absent (R313). -/
def State.msgPut (s : State) (d : Nat) (t : Thread) : Option State :=
  match s.msgRing d t.ctx with
  | none => none
  | some (b, n) =>
    let p := (s.die d).mring.get t.ctx (0, 0)
    if p.2 - p.1 < 2 ^ n then
      some ((s.agentWrite (b + 128 * (p.2 % 2 ^ n)) 128 (s.ringKey d t.ctx (b + 128 * (p.2 % 2 ^ n))) t.msgRec).modDie d fun x =>
        { x with mring := x.mring.set t.ctx (p.1, p.2 + 1), ringInfo := x.ringInfo.set (infoKey t.ctx p.2 true) (t.lid, t.born) })
    else none

/-- The ring that a thread overflows to (R300, R313). -/
def State.overflow (s : State) (d : Nat) (t : Thread) : Option State := if t.msg then s.msgPut d t else s.spillPut d t

/-! Bins (R299 to R301). -/

/-- Key of a thread's bin (R299, R312). -/
def Thread.binKey (t : Thread) : Nat × Nat × Bool := (t.lid, t.key, t.msg)
/-- Key of a bin. -/
def Bin.binKey (b : Bin) : Nat × Nat × Bool := (b.lid, b.key, b.msg)

/-- Append a thread to the open bin of its key, which closes on its 32nd thread; true when it closed. A bin whose gathering
window has ended takes no more threads (R301). -/
def binAppend (t : Thread) : List Bin → Option (List Bin × Bool)
  | [] => none
  | b :: r =>
    if !b.closed && !b.ended && b.binKey == t.binKey then
      some ({ b with threads := b.threads ++ [t], closed := b.threads.length == 31 } :: r, b.threads.length == 31)
    else
      match binAppend t r with
      | some (q, c) => some (b :: q, c)
      | none => none

/-- Where the huddle puts a thread, given the bins that closed while the word was placed (R279, R300): the
bins after it, and whether its bin closed; none when it needs a record. -/
def Core.huddle (c : Core) (t : Thread) (shut : List (Nat × Nat × Bool)) : Option (List Bin × Bool) :=
  match binAppend t c.bins with
  | some r => if shut.contains t.binKey then none else some r
  | none =>
    if shut.contains t.binKey then none
    else if c.bins.length < 16 then
      some (c.bins ++ [{ lid := t.lid, key := t.key, msg := t.msg, threads := [t], left := 512 }], false)
    else none

/-- A launch's count of threads, messages and records that have not retired (R302, R343). -/
def State.addThread (s : State) (d ctx lid : Nat) : State :=
  s.modLaunch d (1024 * ctx + lid) fun l => { l with threads := l.threads + 1 }

/-- Place one thread into the core's huddle or the die's ring (R300); none when it has to wait. -/
def State.placeThread (s : State) (core : Nat) (t : Thread) (shut : List (Nat × Nat × Bool)) :
    Option (State × List (Nat × Nat × Bool)) :=
  match (s.core core).huddle t shut with
  | some (bs, c) =>
    some ((s.modCore core fun x => { x with bins := bs }).addThread (dieOf core) t.ctx t.lid, if c then t.binKey :: shut else shut)
  | none =>
    match s.overflow (dieOf core) t with
    | some u => some (u.addThread (dieOf core) t.ctx t.lid, shut)
    | none => none

/-- Place the threads of one word in order; what is left needs a record that the ring has no space for (R150,
R279, R300). -/
def State.placeAll (s : State) (core : Nat) (shut : List (Nat × Nat × Bool)) : List Thread → State × List Thread
  | [] => (s, [])
  | t :: r =>
    match s.placeThread core t shut with
    | some (u, sh) => u.placeAll core sh r
    | none =>
      match s.placeAll core shut r with
      | (u, left) => (u, t :: left)

/-! Stage rings (R161, R353). -/

/-- Checks 1 to 7 of R115 for an access that the scheduler makes for a context: no U bit, no extent; a core-private page
fails check 5 (R341, R344). A place on a die that does not answer now has to wait, as a walk does (R401, R422). -/
def State.schedChk (s : State) (d ctx va : Nat) (k : Want) : Chk :=
  if 2 ^ 54 ≤ va then .trap 3
  else if va % k.size ≠ 0 then .trap 4
  else
    match s.walk d ctx va with
    | .fault => .park
    | .table => .table
    | .wait => .wait
    | .leaf w =>
      match s.checkLeaf d 256 w va false false k with
      | .ok pa leaf => if leafCC leaf = 2 then .trap 7 else if s.reaches d leaf pa then .ok pa leaf else .wait
      | c => c

/-- Place of a virtual address as the scheduler of a die reaches it for a context, without the U bit; none when it has no
translation that permits the access, or when it has to wait (R341, R344). -/
def State.schedAt (s : State) (d ctx va : Nat) (k : Want) : Option (Nat × Nat) :=
  match s.schedChk d ctx va k with
  | .ok pa leaf => some (pa, leaf)
  | _ => none

/-- How long an access of the scheduler that has to wait goes on waiting, as a count that runs down to 1: 100 µs for a walk,
the cross-die time-out for a die that does not answer (R247, R255, R422). -/
def State.waitTicks (s : State) (d ctx va : Nat) : Nat := if s.walk d ctx va = .wait then 10001 else (s.die d).cdTicks

/-- The place whose answer such an access waits for; none for a walk (R422, R424). -/
def State.waitFar (s : State) (d ctx va : Nat) : Option Nat :=
  match s.walk d ctx va with
  | .leaf w => leafPhys d w va
  | _ => none

/-- The scheduler's read of `n` bytes at a virtual address, page by page; a byte that it cannot reach reads 0. -/
def State.schedRead (s : State) (d ctx va : Nat) : Nat → Nat
  | 0 => 0
  | n + 1 =>
    (match s.schedAt d ctx va { size := 1 } with
     | some (pa, leaf) => (s.curByte pa (s.keyId pa (leafKey leaf))).toNat
     | none => 0) + 256 * s.schedRead d ctx (va + 1) n

/-- The scheduler's write of `n` bytes at a virtual address; a byte that it cannot reach is left out. -/
def State.schedWrite (s : State) (d ctx va : Nat) : (n v : Nat) → State
  | 0, _ => s
  | n + 1, v =>
    State.schedWrite
      (match s.schedAt d ctx va { size := 1, write := true } with
       | some (pa, leaf) => s.agentWrite pa 1 (s.keyId pa (leafKey leaf)) (v % 256)
       | none => s) d ctx (va + 1) n (v / 256)

/-- The stages of a group's launch. -/
def State.stageOf (s : State) (g : Group) (n : Nat) : Option Stage := (s.launchOf g).stages[n]?

/-- Append a record to a stage ring; none while it is full, or while an access to it has to wait. The die holds head and tail and keeps the ring's
header in step (R161, R353). -/
def State.stagePut (s : State) (d ctx lid n : Nat) (t : Thread) : Option State :=
  let l := (s.die d).launches.get (1024 * ctx + lid) {}
  match l.stages[n]? with
  | none => some s
  | some g =>
    let ring := g.ring.toNat
    let ready := fun (a : Nat) => s.schedChk d ctx a { size := 1, write := true } != .wait
    if g.tail - g.head < 2 ^ g.logn ∧ ready ring ∧ ready (ring + 64 + 16 * (g.tail % 2 ^ g.logn)) then
      let s1 := s.schedWrite d ctx (ring + 64 + 16 * (g.tail % 2 ^ g.logn)) 16 (packWords (t.pay.take 4))
      let s2 := s1.schedWrite d ctx (ring + 8) 8 (g.tail + 1)
      some (s2.modLaunch d (1024 * ctx + lid) fun x =>
        { x with
          stages := (List.range x.stages.length).map fun i =>
            let y := x.stages.getD i {}
            if i = n then { y with tail := y.tail + 1, left := if y.tail = y.head then 512 else y.left } else y })
    else none

/-- Append the records of one word in order (R161). -/
def State.stageAll (s : State) (d ctx lid n : Nat) : List Thread → State × List Thread
  | [] => (s, [])
  | t :: r =>
    match s.stagePut d ctx lid n t with
    | some u => u.stageAll d ctx lid n r
    | none => (s, t :: r)

/-! Active messages (R162, R313, R417). -/

/-- The launch of a federation that a die holds: its LID (R417). -/
def State.memberOn (s : State) (d ctx entry fedn : Nat) : Option Nat :=
  ((s.die d).launches.find? fun e => e.2.ctx == ctx && e.2.entry.toNat == entry && e.2.fedn == fedn && e.2.kind != .card).map fun e => e.2.lid

/-- Whether the die of a group knows that die `d` holds a member of the launch's federation (R162, R417). -/
def State.fedKnown (s : State) (g : Group) (d : Nat) : Bool :=
  let l := s.launchOf g
  d == dieOf g.core || (s.die (dieOf g.core)).feds.contains (d, g.ctx, l.entry.toNat, l.fedn)

/-- Target die of a message descriptor; none when a field is reserved, or when it names a plate or a die that does not exist:
the rule's list of failures does not name the last case, and the model takes it for a bad descriptor (R162; log 91). -/
def msgDie (v : Nat) : Option Nat :=
  let tgt := field v 16 8
  match field v 14 2 with
  | 0 => some (tgt / 64)
  | 1 => if tgt < 16 then some (tgt / 4) else none
  | 2 => if tgt < 4 then some tgt else none
  | _ => none

/-- Whether a descriptor is good for a group (R162). -/
def State.msgOk (s : State) (g : Group) (v : Nat) : Bool :=
  field v 24 8 == 0 && field v 13 1 == 0 && field v 8 5 ≤ 16 && (s.launchOf g).hnd.get (field v 0 8) 0 != 0 &&
  (match msgDie v with
   | some d => s.fedKnown g d
   | none => false)

/-- The message units of the issuing die accept messages while fewer than 256 wait (R313). -/
def State.sendAll (s : State) (d : Nat) : List Thread → State × List Thread
  | [] => (s, [])
  | t :: r =>
    if (s.die d).msgs.length < 256 then
      State.sendAll ((s.modDie d fun x => { x with msgs := x.msgs ++ [t] }).addThread t.tdie t.ctx t.lid) d r
    else (s, t :: r)

end Sys2Proof.Machine
end

