-- ==== Sys2Proof/Machine/Wait.lean ====
section
/-! DEFINITION. The waiting words of class 0x52 and the tag waits: R143, R149 to R162, R182. -/

namespace Sys2Proof.Machine

/-! SPAWN (R149 to R151). -/

/-- The spawn-table entry of an address (R150, R345). -/
def Launch.spawnE (l : Launch) (e : Nat) : Option SpawnE := l.spn.find? fun x => x.entry.toNat == e

/-- The pair of a lane that starts at register `d`. -/
def State.pairAt (s : State) (d lane : Nat) : W64 := s.cw.readV64 d lane

/-- Failure of a lane of a SPAWN word: spawn-entry ranks first, then address-range, then misaligned (R150). -/
def State.spawnFail (s : State) (d : RName) (a : Src) (n : Nat) : Option (Nat × Nat) :=
  let e := (s.src64 a n).toNat
  let j := (s.pairAt (d.toNat + 4) n).toNat
  if e = 0 then none
  else if ((s.launchOf s.cg).spawnE e).isNone then some (0, 0x14)
  else if 2 ^ 54 ≤ j then some (1, 3)
  else if j % 4 ≠ 0 then some (2, 4)
  else none

/-- The thread of a lane (R150): none for entry 0. -/
def State.spawnThread (s : State) (d : RName) (a : Src) (n : Nat) : Option Thread :=
  let e := (s.src64 a n).toNat
  match (s.launchOf s.cg).spawnE e with
  | none => none
  | some x =>
    if e = 0 then none
    else
      some {
        key := e, lid := s.cg.lid, join := s.pairAt (d.toNat + 4) n, lane := n, wave := s.ck, ctx := s.cg.ctx
        pay := (List.range x.words).map fun i => s.cw.readV (d.toNat + i) n, born := s.rtime }

/-- The checks of a SPAWN word, then its effect on the threads in lane order (R150). -/
def State.spawnChecked (s : State) (d : RName) (a : Src) (f : List Thread → State) : Res :=
  let bad := (lanesOf s.memb).filterMap fun n => (s.spawnFail d a n).map fun r => (n, r)
  match bad.foldl (fun (b : Option Nat) e => some (match b with | some x => min x e.2.1 | none => e.2.1)) none with
  | none => .done (f ((lanesOf s.memb).filterMap fun n => s.spawnThread d a n))
  | some rank =>
    let worst := bad.filter fun e => e.2.1 == rank
    let first := (worst.headD (0, 0, 0)).1
    .trap (s.trapHere ((worst.headD (0, 0, 0)).2.2) (if rank = 0 then 0 else s.pairAt (d.toNat + 4) first)
      (maskOf (worst.map (·.1))))

/-- SPAWN: after the release, one thread for each lane; lanes whose thread needs a record wait while the ring is
full (R150). -/
def execSpawn (d : RName) (a : Src) (s : State) : Out :=
  issueTurn (oct d && addrSrc a) [] true true 0 (s.cw.wix + 1)
    (fun s => s.spawnChecked d a fun ts =>
      match s.placeAll s.cur.core [] ts with
      | (u, []) => u.past false
      | (u, r) => u.await (.spawn r) (maskOf (r.map (·.lane)))) s

/-- SPAWN.TRY: a lane whose thread cannot be placed at once spawns nothing and sets its XSTAT bit (R151). -/
def execSpawnTry (d : RName) (a : Src) (s : State) : Out :=
  issueTurn (oct d && addrSrc a) [] true true 0 (s.cw.wix + 1)
    (fun s => s.spawnChecked d a fun ts =>
      match s.placeAll s.cur.core [] ts with
      | (u, r) => (u.modCw fun w => w.report s.memb (maskOf (r.map (·.lane)))).past false) s

/-! JOIN, MON and MWAIT (R154 to R156). -/

/-- Value of a 32-bit word as a waiting lane of a core reads it: none while the line is under another core's
lease, while its die's slice has first to obtain it, and while its translation has been dropped. -/
def State.watchRead (s : State) (core leaf pa : Nat) : Option Nat :=
  if leaf = 0 then none
  else if leafCC leaf = 2 ∧ (s.core core).l1.has (pa / 128) then
    some (lineBytes ((s.core core).l1.get (pa / 128) {}).data (pa % 128) 4)
  else if !s.leaseOk core (pa / 128) then none
  else s.served core leaf pa 4

/-- A lane of JOIN sees its counter at zero: it performs an acquire at .DIE and completes (R154). -/
def State.joinLane (s : State) (core slot lane : Nat) (a : Acc) : State :=
  if s.watchRead core a.leaf.toNat a.pa = some 0 ∧ !s.badRead (a.pa / 128) (s.group ((s.wave (waveKey core slot)).gid.getD 0)).ctx then
    (s.dropL1 core).modLanePath (waveKey core slot) lane fun p => p.finish (laneBit lane)
  else s

/-- Checks 1 to 5 of R115 for the addresses of JOIN and MON, and the wait of the lanes that pass (R154, R155). -/
def State.watchWord (s : State) (a : Src) (mk : List Acc → WaitWord) : Res :=
  let ts := s.tries (fun n => s.src64 a n) { size := 4 }
  match firstTrap ts with
  | some c => .trap (s.accessTrap ts c)
  | none =>
    let accs := ts.filterMap fun t => match t.chk with
      | .ok pa leaf => some { lane := t.lane, va := t.va, pa := pa, leaf := BitVec.ofNat 64 leaf : Acc }
      | _ => none
    let stay := maskOf (accs.map (·.lane))
    let left := if s.cw.mwtime = 0 ∨ !(mk accs).timed then 0 else s.cw.mwtime.toNat + 1
    let s1 := s.modCw fun w => w.divide ts fun p => { p with status := .wait (mk accs) stay left }
    let s2 := accs.foldl (fun u x => if x.pa < hostBase then u.own s.cur.core x.leaf.toNat x.pa x.va.toNat else u) s1
    .done (s.raiseMisses s2 ts false)

/-- JOIN: each lane waits until the counter at its address reads zero (R154). -/
def execJoin (a : Src) (s : State) : Out :=
  issueWaiting (addrSrc a) [] true false
    (fun s =>
      match s.watchWord a .join with
      | .trap t => .trap t
      | .done u =>
        match u.cp.status with
        | .wait (.join as) _ _ => .done (as.foldl (fun v x => v.joinLane s.cur.core s.cur.slot x.lane x) u)
        | _ => .done u) s

/-- MON: each lane asks its line's home slice to record a watch; the word completes by WATCH_RECORD (R155). -/
def execMon (a : Src) (s : State) : Out := issueWaiting (addrSrc a) [] true false (fun s => s.watchWord a .mon) s

/-- Lanes whose MWAIT completes: triggered, or not armed (R156). -/
def Wave.woken (w : Wave) (m : Lanes) : Lanes :=
  maskOf ((lanesOf m).filter fun n => let x := w.mons.get n {}; x.trig || !x.armed)

/-- Completion of MWAIT disarms the monitors (R156). -/
def Wave.disarm (w : Wave) (m : Lanes) : Wave :=
  { w with mons := (lanesOf m).foldl (fun f n => if f.has n then f.set n { (f.get n {}) with armed := false, trig := false } else f) w.mons }

/-- MWAIT (R156). -/
def execMwait (s : State) : Out :=
  issueWaiting true [] false false
    (fun s =>
      let up := s.cw.woken s.memb
      let s1 := s.modCw fun w => w.disarm up
      .done (if s.memb &&& ~~~up = 0 then s1.past false else s1.await .mwait (s.memb &&& ~~~up))) s

/-! Scratchpad queues (R157 to R160). -/

/-- Whether a path waits at a queue of its group: the ticket of its push, or of its pop. -/
def Path.queueTicket (p : Path) (push : Bool) (q : Nat) : Option Nat :=
  match p.status with
  | .wait (.qpush k _ t) _ _ => if push && k == q then some t else none
  | .wait (.qpop k _ _ t) _ _ => if !push && k == q then some t else none
  | _ => none

/-- Every path of a group, those put aside at handler entry included. -/
def State.allPaths (s : State) (gid : Nat) : List Path :=
  ((s.group gid).keys.map fun k => (s.wave k).paths ++ (match (s.wave k).saved with | some v => v.paths | none => [])).flatten

/-- Tickets of the paths that wait at a queue. -/
def State.queueWaiters (s : State) (gid : Nat) (push : Bool) (q : Nat) : List Nat :=
  (s.allPaths gid).filterMap fun p => p.queueTicket push q

/-- Change a queue of a group. -/
def State.modQueue (s : State) (gid q : Nat) (f : Queue → Queue) : State :=
  s.modGroup gid fun g => { g with queues := g.queues.upd q {} f }

/-- Whether a queue holds no handle (R159). -/
def Queue.empty (q : Queue) : Bool := q.tail - q.head == 0
/-- Whether QPUSH may be performed (R159). -/
def Queue.room (q : Queue) : Bool := 0 < q.allow && (q.tail - q.head).toNat < 2 ^ q.logn

/-- Scratchpad address of an entry of the ring (R158). -/
def Queue.slot (q : Queue) (i : W32) : Nat := q.base + 4 * (i.toNat % 2 ^ q.logn)

/-- Perform the waiting QPUSH or QPOP of the path that a lane lies in, when its condition holds and every
earlier waiting word of its kind has been performed (R159, R160). -/
def State.queuePerform (s : State) (core slot lane : Nat) : State :=
  let key := waveKey core slot
  let gid := (s.wave key).gid.getD 0
  match (s.wave key).pathOf lane with
  | none => s
  | some p =>
    match p.status with
    | .wait (.qpush q v t) _ _ =>
      let x := (s.group gid).queues.get q {}
      if (s.queueWaiters gid true q).all (t ≤ ·) && x.room then
        ((s.modGroup gid fun g => g.spPut (x.slot x.tail) 4 v.toNat).modQueue gid q fun y =>
          { y with tail := y.tail + 1, allow := y.allow - 1 }).modLanePath key lane fun p => p.finish p.lanes
      else s
    | .wait (.qpop q opf reg t) _ _ =>
      let x := (s.group gid).queues.get q {}
      if (s.queueWaiters gid false q).all (t ≤ ·) && !x.empty then
        let h := BitVec.ofNat 32 ((s.group gid).spGet (x.slot x.head) 4)
        ((s.modWave key fun w => (lanesOf p.lanes).foldl (fun w n => w.setReg opf reg n h) w).modQueue gid q fun y =>
          { y with head := y.head + 1 }).modLanePath key lane fun p => p.finish p.lanes
      else s
    | _ => s

/-- Place of a queue of a group in the order of one ac, and the place of the issuing path in that order (R160). -/
def State.queuePlace (s : State) (q : Nat) : Nat := 1 + 8 * s.cgid + q % 8
def State.queueOrd (s : State) : Nat := 32 * s.cw.wix + lowLane s.memb + 1

/-- Whether a QPUSH that waits is due: it is performed before a QTRY, an ALLOW or a QINIT that comes later (R160); while a handler
runs, the program's waiting words do not move. -/
def State.pushDue (s : State) (q : Nat) : Bool :=
  s.cg.phase != .handler && (s.cg.queues.get q {}).room && !(s.queueWaiters s.cgid true q).isEmpty

/-- Whether a QPOP that waits is due: it takes the handle that is there before a QTRY, an ALLOW or a QINIT that comes later (R160). -/
def State.popDue (s : State) (q : Nat) : Bool :=
  s.cg.phase != .handler && !(s.cg.queues.get q {}).empty && !(s.queueWaiters s.cgid false q).isEmpty
/-- Whether no waiting word of a queue is due. -/
def State.queueFree (s : State) (q : Nat) : Bool := !s.pushDue q && !s.popDue q

/-- The queue-state trap of the issuing path (R158, R159). -/
def State.queueTrap (s : State) (q : Nat) : Res := .trap (s.trapHere 0x16 (BitVec.ofNat 64 q) s.memb)

/-- QINIT: the descriptor is checked, then the ring against SPSIZE (R158). -/
def execQinit (q : BitVec 3) (a : Src) (s : State) : Out :=
  issueTurn (Sys2Proof.src32 a) [a] false (s.queueFree q.toNat) (s.queuePlace q.toNat) s.queueOrd
    (fun s =>
      let v := (s.src32 a (lowLane s.memb)).toNat
      let base := field v 0 19
      let n := field v 20 4
      if field v 24 8 ≠ 0 ∨ field v 19 1 ≠ 0 ∨ n = 0 ∨ 10 < n ∨ base % 4 ≠ 0 ∨
          s.queueWaiters s.cgid true q.toNat ≠ [] ∨ s.queueWaiters s.cgid false q.toNat ≠ [] then s.queueTrap q.toNat
      else if s.cg.spsize < base + 4 * 2 ^ n then .trap (s.trapHere 0x0A (BitVec.ofNat 64 base) s.memb)
      else
        .done ((s.modQueue s.cgid q.toNat fun x =>
          { x with init := true, base := base, logn := n, head := 0, tail := 0, allow := 2 ^ n }).past false)) s

/-- QPUSH: a release at .GROUP, performed once for the set when there is room (R159, R160). -/
def execQpush (q : BitVec 3) (a : Src) (s : State) : Out :=
  issueTurn (Sys2Proof.src32 a) [a] true true (s.queuePlace q.toNat) s.queueOrd
    (fun s =>
      let x := s.cg.queues.get q.toNat {}
      if !x.init then s.queueTrap q.toNat
      else
        let v := s.src32 a (lowLane s.memb)
        let s1 := (s.await (.qpush q.toNat v x.pushed) s.memb).modQueue s.cgid q.toNat fun y => { y with pushed := y.pushed + 1 }
        .done (s1.queuePerform s.cur.core s.cur.slot (lowLane s.memb))) s

/-- QPOP: performed once for the set when a handle is there; an acquire at .GROUP (R159, R160). -/
def execQpop (d : RName) (a : Src) (s : State) : Out :=
  issueTurn (ldst d && scaLit a) [] false true (s.queuePlace (s.src32 a 0).toNat) s.queueOrd
    (fun s =>
      let q := (s.src32 a 0).toNat
      let x := s.cg.queues.get q {}
      if 7 < q ∨ !x.init then s.queueTrap q
      else
        let s1 := (s.await (.qpop q (inOpf d) (s.reach d) x.popped) s.memb).modQueue s.cgid q fun y => { y with popped := y.popped + 1 }
        .done (s1.queuePerform s.cur.core s.cur.slot (lowLane s.memb))) s

/-- QTRY: as QPOP when a handle is there; XSTAT says whether (R159). -/
def execQtry (d : RName) (a : Src) (s : State) : Out :=
  issueTurn (ldst d && scaLit a) [] false (s.queueFree (s.src32 a 0).toNat) (s.queuePlace (s.src32 a 0).toNat) s.queueOrd
    (fun s =>
      let q := (s.src32 a 0).toNat
      let x := s.cg.queues.get q {}
      if 7 < q ∨ !x.init then s.queueTrap q
      else if x.empty then .done ((s.modCw fun w => w.report s.memb s.memb).past false)
      else
        let h := BitVec.ofNat 32 (s.cg.spGet (x.slot x.head) 4)
        .done (((s.modCw fun w => ((lanesOf s.memb).foldl (fun w n => w.setV d.toNat n h) w).report s.memb 0).modQueue s.cgid q
          fun y => { y with head := y.head + 1 }).past false)) s

/-- ALLOW: the allowance never exceeds the capacity (R159). -/
def execAllow (q : BitVec 3) (a : Src) (s : State) : Out :=
  issueTurn (Sys2Proof.src32 a) [a] false (s.queueFree q.toNat) (s.queuePlace q.toNat) s.queueOrd
    (fun s =>
      let x := s.cg.queues.get q.toNat {}
      let v := (s.src32 a (lowLane s.memb)).toNat
      if !x.init ∨ 2 ^ x.logn < x.allow + v then s.queueTrap q.toNat
      else .done ((s.modQueue s.cgid q.toNat fun y => { y with allow := y.allow + v }).past false)) s

/-! STAGEPUSH and AMSG (R161, R162). -/

/-- STAGEPUSH: a release at .DIE, then one record for each lane in lane order (R161). -/
def execStagepush (d : RName) (a : Src) (s : State) : Out :=
  issueWaiting (quad d && scaLit a) [] true true
    (fun s =>
      let n := (s.src32 a 0).toNat
      if 7 < n ∨ (s.stageOf s.cg n).isNone then .trap (s.trapHere 0x17 (BitVec.ofNat 64 n) s.memb)
      else
        let ts : List Thread := (lanesOf s.memb).map fun l =>
          { lane := l, ctx := s.cg.ctx, lid := s.cg.lid, pay := (List.range 4).map fun i => s.cw.readV (d.toNat + i) l }
        match s.stageAll (dieOf s.cur.core) s.cg.ctx s.cg.lid n ts with
        | (u, []) => .done (u.past false)
        | (u, r) => .done (u.await (.stagePush n r) (maskOf (r.map (·.lane))))) s

/-- AMSG: one message for each lane, after a release; a bad descriptor stops the word as a whole, with EMASK the whole set
and EADDR the descriptor of the lowest lane whose descriptor is bad (R162, R373; log 92). -/
def execAmsg (d : RName) (a : Src) (s : State) : Out :=
  issueWaiting (hexa d && Sys2Proof.src32 a) [a] true true
    (fun s =>
      let v := fun n => (s.src32 a n).toNat
      match (lanesOf s.memb).find? fun n => !s.msgOk s.cg (v n) with
      | some n => .trap (s.trapHere 0x18 (BitVec.ofNat 64 (v n)) s.memb)
      | none =>
        let l := s.launchOf s.cg
        let ts : List Thread := (lanesOf s.memb).map fun n =>
          let td := (msgDie (v n)).getD 0
          { key := field (v n) 0 8, msg := true, ctx := s.cg.ctx, lane := n, wave := s.ck, desc := s.src32 a n, tdie := td
            lid := if td = dieOf s.cur.core then s.cg.lid else (s.memberOn td s.cg.ctx l.entry.toNat l.fedn).getD s.cg.lid
            pay := (List.range (field (v n) 8 5)).map fun i => s.cw.readV (d.toNat + i) n }
        match s.sendAll (dieOf s.cur.core) ts with
        | (u, []) => .done (u.past false)
        | (u, r) => .done (u.await (.amsg r) (maskOf (r.map (·.lane))))) s

/-! Tag waits (R182). -/

/-- The mask of a tag-wait word (R182). -/
def State.tagMask (s : State) (a : Src) : W64 := s.src64 a 0

/-- TAGWAIT.ANY completes when a tag of the mask is set, or at once for an empty mask (R182). -/
def tagAny (tags m : W64) : Bool := m == 0 || tags &&& m != 0
/-- TAGWAIT.ALL completes when every tag of the mask is set (R182). -/
def tagAll (tags m : W64) : Bool := tags &&& m == m

/-- TAGWAIT.ANY (R182). -/
def execTagwaitAny (a : Src) (s : State) : Out :=
  issueWaiting (tagSrc a) [a] false false
    (fun s => .done (if tagAny s.cc.tags (s.tagMask a) then s.past false else s.await (.tagAny (s.tagMask a)) s.memb)) s

/-- TAGWAIT.ALL (R182). -/
def execTagwaitAll (a : Src) (s : State) : Out :=
  issueWaiting (tagSrc a) [a] false false
    (fun s => .done (if tagAll s.cc.tags (s.tagMask a) then s.past false else s.await (.tagAll (s.tagMask a)) s.memb)) s

/-- TAGFF: index of the lowest set bit of TAGS and the mask, 64 for none (R182). -/
def execTagff (d : RName) (a : Src) (s : State) : Out :=
  issueFixed (sgen d && tagSrc a) [a]
    (fun s =>
      let x := s.cc.tags &&& s.tagMask a
      .done (s.putS d (BitVec.ofNat 32 (((List.range 64).find? fun i => x.getLsbD i).getD 64)))) s

end Sys2Proof.Machine
end

