-- ==== Sys2Proof/Machine/Matrix.lean ====
section
/-! DEFINITION. Operand-buffer reservations, possession, and the words that enter the matrix chain: R183 to
R200, R329, R332. The chain's operations are performed by the steps of MxStep.lean. -/

namespace Sys2Proof.Machine

/-! Reservations (R183 to R186, R328). -/

/-- Bytes of one tile (R183, R328): format code 5 is .Q4X, 2 and 3 are the FP8 formats. -/
def tileBytes (fmt : Nat) (sc : Bool) : Nat :=
  8192 + (if fmt = 5 then 512 else if (fmt = 2 ∨ fmt = 3) ∧ sc then 256 else 0)

/-- First byte and end of a reservation in the operand buffer. -/
def Resv.span (r : Resv) : Nat × Nat := (256 * r.base, 256 * r.base + r.nt * tileBytes r.fmt r.sc)

/-- Groups that are on a core. -/
def State.groupsOn (s : State) (core : Nat) : List (Nat × Group) := s.groups.filter fun e => e.2.core == core

/-- The reservations of the core's own operand buffer. -/
def State.spansOn (s : State) (core : Nat) : List (Nat × Nat) :=
  ((s.groupsOn core).map fun e => (e.2.resv.filter fun r => r.2.imp.isNone).map fun r => r.2.span).flatten

/-- The record of an OBRES word (R183); none when it breaks a rule of its map. -/
def resvOf (v : Nat) : Option Resv :=
  let fmt := field v 27 3
  let sc := bitN v 25
  if bitN v 31 || field v 11 11 != 0 || fmt == 7 then none
  else if (fmt = 5 ∧ !sc) ∨ (fmt ≠ 5 ∧ fmt ≠ 2 ∧ fmt ≠ 3 ∧ sc) then none
  else some { exp := bitN v 30, fmt := fmt, roleB := bitN v 26, sc := sc, nt := field v 22 3 + 1, base := field v 0 11 }

/-- The matrix-operand trap of the issuing path (R183, R186, R189). -/
def State.operandTrap (s : State) : Res := .trap (s.trapHere 0x1F 0 s.memb)
/-- The matrix-possession trap of the issuing path (R188, R189). -/
def State.possTrap (s : State) : Res := .trap (s.trapHere 0x20 0 s.memb)
/-- The illegal-instruction trap of the issuing path. -/
def State.illegalTrap (s : State) : Res := .trap (s.trapHere 0 0 s.memb)

/-- OBRES (R183). -/
def execObres (n : BitVec 4) (a : Src) (s : State) : Out :=
  issueFixed (ssrc32 a) [a]
    (fun s =>
      match resvOf (s.src32 a 0).toNat with
      | none => s.operandTrap
      | some r =>
        if 393216 < r.span.2 ∨ s.cg.resv.has n.toNat ∨
            (s.spansOn s.cur.core).any (fun x => x.1 < r.span.2 && r.span.1 < x.2) then s.operandTrap
        else
          .done { s.modCg (fun g => { g with resv := g.resv.set n.toNat { r with stamp := s.nextId } }) with nextId := s.nextId + 1 }) s

/-- OBIMP: local reservation n names an exported reservation of another core of the cluster (R186). -/
def execObimp (n : BitVec 4) (a : Src) (s : State) : Out :=
  issueFixed (scaLit a) [a]
    (fun s =>
      let v := (s.src32 a 0).toNat
      let c := 4 * (s.cur.core / 4) + field v 4 2
      match (s.groupsOn c).find? fun e =>
          e.2.ctx == s.cg.ctx && e.2.resv.has (field v 0 4) && (e.2.resv.get (field v 0 4) {}).exp &&
          (e.2.resv.get (field v 0 4) {}).imp.isNone with
      | none => s.operandTrap
      | some e =>
        if field v 6 26 ≠ 0 ∨ c = s.cur.core then s.operandTrap
        else
          let r := e.2.resv.get (field v 0 4) {}
          .done { s.modCg (fun g =>
            { g with resv := g.resv.set n.toNat { r with exp := false, imp := some c, impOf := r.stamp, stamp := s.nextId } }) with
              nextId := s.nextId + 1 }) s

/-- The core and the record that a reservation stands for: an import of a freed reservation is stale (R185,
R186). -/
def State.resolveResv (s : State) (core : Nat) (r : Resv) : Option (Nat × Resv) :=
  match r.imp with
  | none => some (core, r)
  | some c =>
    match (s.groupsOn c).findSome? fun e => (e.2.resv.find? fun x => x.2.stamp == r.impOf && x.2.imp.isNone).map (·.2) with
    | some x => some (c, x)
    | none => none

/-- Whether a reservation record is, or is an import of, the one with this stamp. -/
def Resv.names (r : Resv) (stamp : Nat) : Bool := r.stamp == stamp || (r.imp.isSome && r.impOf == stamp)

/-- Whether an MMA or a pending follow-on of any core reads the reservation with this stamp (R185). -/
def State.resvRead (s : State) (stamp : Nat) : Bool :=
  let reads := fun (gid n : Nat) => let g := s.group gid; g.resv.has n && (g.resv.get n {}).names stamp
  s.cores.any fun e =>
    (e.2.mchain.any fun o => o.kind == .mma && (reads o.gid o.oba || reads o.gid o.obb)) ||
    (e.2.follows.any fun f => !f.dead && (reads f.gid (field f.word.toNat 2 4) || reads f.gid (field f.word.toNat 6 4)))

/-- OBREL: frees a reservation once nothing reads it (R185); an unallocated one is illegal (R22). -/
def execObrel (n : BitVec 4) (s : State) : Out :=
  issueWaiting true [] false false
    (fun s =>
      if !s.cg.resv.has n.toNat then s.illegalTrap
      else if s.resvRead (s.cg.resv.get n.toNat {}).stamp then .done (s.await (.obrel n.toNat) s.memb)
      else .done ((s.modCg fun g => { g with resv := g.resv.del n.toNat }).past false)) s

/-! Possession (R188). -/

/-- Possession passes to the partner that waits in MTAKE, whose MTAKE completes, or becomes free (R188). -/
def State.handover (s : State) (core gid : Nat) : State :=
  let waits := fun (k : Nat) => (s.wave k).paths.any fun p => match p.status with | .wait .mtake _ _ => true | _ => false
  match (s.groupsOn core).find? fun e => e.1 != gid && e.2.keys.any waits with
  | none => s.modCore core fun c => { c with poss := none }
  | some (h, g) =>
    let s1 := s.modCore core fun c => { c with poss := some h }
    if g.phase = .running then
      g.keys.foldl
        (fun u k => u.modWave k fun w =>
          { w with paths := w.paths.map fun p => match p.status with | .wait .mtake _ _ => p.finish p.lanes | _ => p }) s1
    else s1

/-- MTAKE: a group with no matrix role cannot take possession (R188, R329). -/
def execMtake (s : State) : Out :=
  issueWaiting true [] false false
    (fun s =>
      if s.cg.role.isNone then s.possTrap
      else if s.cc.poss = some s.cgid then .done (s.past false)
      else if s.cc.poss.isNone then .done ((s.modCore s.cur.core fun c => { c with poss := some s.cgid }).past false)
      else .done (s.await .mtake s.memb)) s

/-- MPASS: possession passes once the group's pending follow-ons have entered the chain (R188). -/
def execMpass (s : State) : Out :=
  issueWaiting true [] false false
    (fun s =>
      if s.cc.poss ≠ some s.cgid then .done (s.past false)
      else if s.cg.follow ≠ 0 then .done (s.await .mpass s.memb)
      else .done ((s.past false).handover s.cur.core s.cgid)) s

/-! The matrix chain (R189 to R197, R332). -/

/-- Whether a group owns an accumulator (R187). -/
def Group.owns (g : Group) (acc : Nat) : Bool := g.role == some (acc / 2)

/-- Pairs of formats that MMA accepts (R190). -/
def pairOk (fa fb : Nat) : Bool := (fa == fb && fa != 7) || ((fa == 2 || fa == 3) && (fb == 2 || fb == 3))

/-- The trap that the operands of an MMA raise at issue, after possession: illegal, then matrix-operand
(R189, R190). -/
def State.mmaTrap (s : State) (g : Group) (acc oba obb i : Nat) : Option Nat :=
  if !g.owns acc || !g.resv.has oba || !g.resv.has obb then some 0
  else
    let a := g.resv.get oba {}
    let b := g.resv.get obb {}
    if a.roleB || !b.roleB || !pairOk a.fmt b.fmt || a.nt ≤ i || b.nt ≤ i ||
        (s.resolveResv g.core a).isNone || (s.resolveResv g.core b).isNone then some 0x1F
    else none

/-- Append an operation to the core's matrix chain and raise its flag (R332, R443). One that issues on an accumulator whose second
mismatch its group has not yet halted for is discarded, and its flag is not left raised (R198). -/
def State.enterChain (s : State) (flag : Nat) (o : MxOp) : State :=
  if s.cc.doomed.contains (s.cgid, o.acc) then s.past true
  else
  let o1 := { o with id := s.nextId, gid := s.cgid, slot := s.cur.slot, flag := flag, seq := s.nextId, own := s.inHandler }
  let s1 := (s.modCw fun w => w.raise flag).modCore s.cur.core fun c => { c with mchain := c.mchain ++ [o1] }
  ({ s1 with nextId := s.nextId + 1 } : State).past true

/-- A word that enters the matrix chain: it stalls while the chain holds 32 operations (R332). -/
def issueMx (ok writes : Bool) (f : Nat → State → Res) (s : State) : Out :=
  if ok && s.cp.clause.isSome && 32 ≤ s.cc.mchain.length then .next s else issueLong ok writes false false [] f s

/-- MMA (R189). -/
def execMma (b : BitVec 4) (c : BitVec 2) (i : BitVec 3) (a : BitVec 4) (s : State) : Out :=
  issueMx true false
    (fun flag s =>
      if s.cc.poss ≠ some s.cgid then s.possTrap
      else
        match s.mmaTrap s.cg c.toNat a.toNat b.toNat i.toNat with
        | some code => .trap (s.trapHere code 0 s.memb)
        | none => .done (s.enterChain flag { kind := .mma, acc := c.toNat, oba := a.toNat, obb := b.toNat, tile := i.toNat })) s

/-- MZERO (R192). -/
def execMzero (c : BitVec 2) (s : State) : Out :=
  issueMx true false
    (fun flag s => if !s.cg.owns c.toNat then s.illegalTrap else .done (s.enterChain flag { kind := .mzero, acc := c.toNat })) s

/-- Bytes of the scratchpad target of a drain (R195). -/
def drainBytes (fn : Nat) : Nat := if fn = 0x20 then 16384 else if fn = 0x21 then 8192 else 4096

/-- MDRAIN: the checks of R197 in order, then the chain; `fn` is the form's FN, `d` the first register of a
register form (R195, R197). -/
def mdrain (ok : Bool) (fn : Nat) (d : Option RName) (a : RName) (amx clr : Bool) (s : State) : Out :=
  issueMx (ok && squad a) d.isSome
    (fun flag s =>
      let w := fun i => (s.readS (a.toNat + i)).toNat
      let acc := field (w 0) 0 2
      let sp := w 1
      let va := w 2 + 2 ^ 32 * w 3
      let toSp := d.isNone
      if !s.cg.owns acc then s.illegalTrap
      else if toSp ∧ sp % 256 ≠ 0 then .trap (s.trapHere 4 (BitVec.ofNat 64 sp) s.memb)
      else if amx ∧ va % 4 ≠ 0 then .trap (s.trapHere 4 (BitVec.ofNat 64 va) s.memb)
      else if toSp ∧ s.cg.spsize < sp + drainBytes fn then .trap (s.trapHere 0x0A (BitVec.ofNat 64 sp) s.memb)
      else if amx ∧ 2 ^ 54 ≤ va then .trap (s.trapHere 3 (BitVec.ofNat 64 va) s.memb)
      else if field (w 0) 2 2 ≠ 0 ∨ field (w 0) 11 21 ≠ 0 then .trap (s.trapHere 0x1C 0 s.memb)
      else
        let r := d.getD 0
        .done (s.enterChain flag {
          kind := .drain, acc := acc, fn := fn, amx := amx, clr := clr, quad := field (w 0) 4 4, sp := sp
          amxVa := BitVec.ofNat 64 va, amxScope := field (w 0) 8 3, lanes := s.memb, opfile := inOpf r, reg := s.reach r })) s

/-- MDRAIN.F32.SP (R195). -/
def execMdrainF32Sp (a : RName) (m c : Bool) (s : State) : Out := mdrain true 0x20 none a m c s
/-- MDRAIN.BF16.SP (R195). -/
def execMdrainBf16Sp (a : RName) (m c : Bool) (s : State) : Out := mdrain true 0x21 none a m c s
/-- MDRAIN.E4M3.SP (R195). -/
def execMdrainE4m3Sp (a : RName) (m c : Bool) (s : State) : Out := mdrain true 0x22 none a m c s
/-- MDRAIN.E5M2.SP (R195). -/
def execMdrainE5m2Sp (a : RName) (m c : Bool) (s : State) : Out := mdrain true 0x23 none a m c s
/-- MDRAIN.F32 to registers (R195). -/
def execMdrainF32 (d a : RName) (m c : Bool) (s : State) : Out := mdrain (oct d) 0x24 (some d) a m c s
/-- MDRAIN.BF16 to registers (R195). -/
def execMdrainBf16 (d a : RName) (m c : Bool) (s : State) : Out := mdrain (oct d) 0x25 (some d) a m c s

end Sys2Proof.Machine
end

