-- ==== Sys2Proof/Machine/Engine.lean ====
section
/-! DEFINITION. The command words of the copy, gather and collective engines: R172 to R178, R193. The entries
are worked off by the steps of EngStep.lean. -/

namespace Sys2Proof.Machine

/-- The kinds of command words. -/
inductive CmdKind where
  | cpy
  | cpym
  | gath
  | xred
  deriving DecidableEq, Repr

/-- A descriptor word as a number. -/
def dw (d : List W32) (i : Nat) : Nat := (d.getD i 0).toNat
/-- Two descriptor words as a 64-bit number. -/
def dw64 (d : List W32) (i : Nat) : Nat := dw d i + 2 ^ 32 * dw d (i + 1)
/-- A signed descriptor word. -/
def dwS (d : List W32) (i : Nat) : Int := (d.getD i 0).toInt

/-! Fields of CTL (R174). -/

def ctlScope (d : List W32) : Nat := field (dw d 0) 21 3
def ctlHint (d : List W32) : Nat := field (dw d 0) 19 2
def ctlDsp (d : List W32) : Nat := field (dw d 0) 16 3
def ctlSsp (d : List W32) : Nat := field (dw d 0) 13 3
def ctlOrder (d : List W32) : Bool := bitN (dw d 0) 12

/-- The failing words of an address field: a memory address has bits [63:54] clear, a scratchpad offset a zero
high word, a reservation offset only [3:0] of it (R174, R175). DESIGN CHOICE: the trap names the low word of a memory address,
whose field it is; the spec does not say which of its two words fails (log 95). -/
def addrBad (d : List W32) (i space : Nat) : List Nat :=
  match space with
  | 0 => if 2 ^ 54 ≤ dw64 d i then [i] else []
  | 1 => if dw d (i + 1) ≠ 0 then [i + 1] else []
  | 2 => if 16 ≤ dw d (i + 1) then [i + 1] else []
  | _ => []

/-- End of the range that a space offers: SPSIZE, or the end of the reservation; none for memory and for a
reservation that is not allocated. -/
def Group.spaceEnd (g : Group) (d : List W32) (space i : Nat) : Option Nat :=
  match space with
  | 1 => some g.spsize
  | 2 =>
    if g.resv.has (dw d (i + 1) % 16) then
      let r := g.resv.get (dw d (i + 1) % 16) {}
      some (r.nt * tileBytes r.fmt r.sc)
    else none
  | _ => none

/-- Whether a strided range leaves its space (R175). -/
def rangeBad (start stride : Int) (rows len : Nat) (stop : Option Nat) : Bool :=
  match stop with
  | none => false
  | some e =>
    let last := start + (rows - 1 : Int) * stride
    min start last < 0 || (e : Int) < max start last + len

/-- Whether the follow-ons of a FOLLOW word meet R189 and R193. -/
def State.followOk (s : State) (g : Group) (w : Nat) : Bool :=
  let n := field w 13 3
  let i := field w 10 3
  field w 16 16 == 0 &&
  (s.mmaTrap g (field w 0 2) (field w 2 4) (field w 6 4) i).isNone &&
  (s.mmaTrap g (field w 0 2) (field w 2 4) (field w 6 4) (i + n)).isNone

/-- The descriptor words that take part in a failing condition (R175); of a condition on several words the
lowest (log 31). -/
def State.descBad (s : State) (g : Group) (k : CmdKind) (d : List W32) : List Nat :=
  let dsp := ctlDsp d
  let ssp := ctlSsp d
  let ctl := (if field (dw d 0) 24 8 ≠ 0 ∨ field (dw d 0) 0 12 ≠ 0 then [0] else []) ++
    (match k with
     | .cpy => if 2 < dsp ∨ 1 < ssp then [0] else []
     | .cpym => if dsp ≠ 2 ∨ 1 < ssp then [0] else []
     | .gath => if 1 < dsp ∨ ssp ≠ 0 then [0] else []
     | .xred => if dsp ≠ 0 ∨ 1 < ssp then [0] else [])
  let addrs := addrBad d 5 ssp ++ addrBad d 7 dsp ++ addrBad d 9 0 ++ (if dw64 d 9 % 8 ≠ 0 then [9] else []) ++
    (if dsp = 2 ∧ (!g.resv.has (dw d 8 % 16) ∨ (g.resv.get (dw d 8 % 16) {}).imp.isSome) then [8] else [])
  let zero := fun (l : List Nat) => l.filter fun i => dw d i != 0
  let src := if ssp = 0 then (dw64 d 5 : Int) else (dw d 5 : Int)
  let dst := if dsp = 0 then (dw64 d 7 : Int) else (dw d 7 : Int)
  let own :=
    match k with
    | .cpy | .cpym =>
      let rows := field (dw d 1) 0 16
      let len := dw d 2
      (if field (dw d 1) 16 16 ≠ 0 ∨ rows = 0 then [1] else []) ++
      (if len = 0 ∨ 16777216 < len then [2] else []) ++
      (if 2 ^ 32 < rows * len then [1] else []) ++
      (if ssp ≠ 0 ∨ dsp ≠ 0 then [2, 3, 4, 5, 7].filter fun i => dw d i % 4 != 0 else []) ++
      (if rangeBad src (dwS d 3) rows len (g.spaceEnd d ssp 5) || rangeBad dst (dwS d 4) rows len (g.spaceEnd d dsp 7)
       then [1] else []) ++
      (if k = .cpy then zero [11, 12, 13] else zero [12, 13] ++ (if s.followOk g (dw d 11) then [] else [11]))
    | .gath =>
      let n := dw d 1
      let e := 2 ^ field (dw d 2) 0 3
      (if n = 0 ∨ 1048576 < n then [1] else []) ++
      (if e < 4 ∨ field (dw d 2) 3 5 ≠ 0 ∨ field (dw d 2) 9 23 ≠ 0 then [2] else []) ++
      (if dw64 d 5 % e ≠ 0 ∨ (dw d 7) % e ≠ 0 then [2] else []) ++
      (if dw64 d 11 % (if bitN (dw d 2) 8 then 8 else 4) ≠ 0 then [2] else []) ++
      (if 2 ^ 54 ≤ dw64 d 11 then [11] else []) ++
      (if rangeBad dst 0 1 (n * e) (g.spaceEnd d dsp 7) then [1] else []) ++ zero [3, 4, 13]
    | .xred =>
      let n := dw d 1
      let w := dw d 2
      (if n = 0 ∨ 1048576 < n then [1] else []) ++
      (if field w 5 3 ≠ 0 ∨ field w 12 20 ≠ 0 ∨ 5 < field w 0 4 then [2] else []) ++
      (if bitN w 4 ∧ field w 0 4 ≠ 0 then [2] else []) ++
      (if bitN w 4 ∧ n % 32 ≠ 0 then [1] else []) ++
      (if ssp ≠ 0 then [5, 7].filter fun i => dw d i % 4 != 0 else []) ++
      (if rangeBad src 0 1 (4 * n) (g.spaceEnd d ssp 5) then [1] else []) ++ zero [3, 4, 11, 12, 13]
  ctl ++ addrs ++ own

/-- Chain class of a command (R173). -/
def CmdKind.cls : CmdKind → Nat
  | .cpy => 0
  | .cpym => 0
  | .gath => 1
  | .xred => 2

/-- A command word: possession for CPYM, then the descriptor, then the tag; a good one appends an entry to the
core's chain and clears its tag. It stalls while the chain holds 256 entries or a command with its tag is in
flight (R172, R173, R175, R181, R193). -/
def command (k : CmdKind) (d a : RName) (lit : Bool) (s : State) : Out :=
  let tagOf := fun (s : State) => if lit then (a.signExtend 32 : W32).toNat else (s.readS a.toNat).toNat
  let ok := engD d && (lit || sname a)
  if ok && s.cp.clause.isSome && (256 ≤ (s.cc.chain k.cls).entries.length || (tagOf s < 64 && s.cc.tagBusy (tagOf s))) then .next s
  else
    issueLong ok false false false []
      (fun flag s =>
        let desc := (List.range 14).map fun i => s.readS (d.toNat + i)
        let tag := tagOf s
        let bad := s.descBad s.cg k desc
        if k = .cpym ∧ s.cc.poss ≠ some s.cgid then s.possTrap
        else if bad ≠ [] then .trap (s.trapHere 0x1C (BitVec.ofNat 64 (bad.foldl min 13)) s.memb)
        else if 64 ≤ tag ∧ tag ≠ 0xFFFFFFFF then .trap (s.trapHere 0x1C 0xFF s.memb)
        else
          let seq := (s.cc.chain k.cls).tail + 1
          let e : Entry :=
            { seq := seq, gid := s.cgid, slot := s.cur.slot, flag := flag, tag := if tag < 64 then tag else 64
              cpym := k == .cpym, desc := desc, ctx := s.cg.ctx, lid := s.cg.lid, own := s.inHandler
              base := if ctlDsp desc = 2 then 256 * (s.cg.resv.get (dw desc 8 % 16) {}).base else 0 }
          let s1 := s.modCore s.cur.core fun c =>
            { (c.modChain k.cls fun x => { x with tail := seq, entries := x.entries ++ [e] }) with
              tags := if tag < 64 then c.tags &&& ~~~(BitVec.ofNat 64 (2 ^ tag)) else c.tags }
          let s2 :=
            if k = .cpym then
              { (s1.modCg fun g => { g with follow := g.follow + 1 }).modCore s.cur.core (fun c =>
                  { c with
                    follows := c.follows ++
                      [{ gid := s.cgid, slot := s.cur.slot, chainSeq := seq, word := desc.getD 11 0, seq := s.nextId }] }) with
                nextId := s.nextId + 1 }
            else s1
          .done ((s2.past true).modCw fun w => w.raise flag)) s

/-- CPY (R172, R176). -/
def execCpy (d a : RName) (k : Bool) (s : State) : Out := command .cpy d a k s
/-- CPYM (R172, R193). -/
def execCpym (d a : RName) (k : Bool) (s : State) : Out := command .cpym d a k s
/-- GATH (R172, R177). -/
def execGath (d a : RName) (k : Bool) (s : State) : Out := command .gath d a k s
/-- XRED (R172, R178). -/
def execXred (d a : RName) (k : Bool) (s : State) : Out := command .xred d a k s

end Sys2Proof.Machine
end

