-- ==== Sys2Proof/Machine/Image.lean ====
section
/-! DEFINITION. Group images: their layout, saving, restoring, GSAVE and GREST (R144, R167, R168, R382 to R384). -/

namespace Sys2Proof.Machine

/-- Bytes of one wave's block. -/
def waveBlock (regs : Nat) : Nat := 12288 + 128 * regs
/-- Bytes of a group's image (R382). -/
def Group.imageSize (g : Group) : Nat := 1280 + g.slots.length * waveBlock g.regs + g.spsize

/-- The program's paths of a wave: those put aside while it runs the handler (R225). -/
def Wave.progPaths (w : Wave) : List Path :=
  match w.saved with
  | some v => v.paths
  | none => w.paths

/-! What keeps GSAVE waiting (R167, R383). -/

/-- Whether an access is a waiting VLD.EQ, which a save cancels and records. -/
def MemOp.waiting (o : MemOp) (a : Acc) : Bool := o.kind == .vldEq && (a.st == .waitVer || a.st == .back)

/-- Whether an operation of the group is still on its way: neither complete, nor waiting at a slice for a
version, nor ended by a trap that is held; the registers of an atomic's lanes are part of it. -/
def MemOp.busy (o : MemOp) : Bool :=
  (o.accs.all fun a => a.st == .done) ||
  o.accs.any fun a => ((a.st == .pend || a.st == .perf) && !o.waiting a) || (o.kind == .atom && a.st == .done && a.gone != 0xFF)

/-- The waiting VLD.EQ words of a wave, in flag order, oldest first within a flag, with their waiting accesses. -/
def State.reissueList (s : State) (gid core slot : Nat) : List (MemOp × List Acc) :=
  let mine := s.ops.filter fun o => o.gid == gid && o.core == core && o.slot == slot && o.accs.any fun a => o.waiting a
  ((List.range 16).map fun f => (mine.filter fun o => o.flag == f).map fun o => (o, o.accs.filter fun a => o.waiting a)).flatten

/-- Whether a save of the group can be made now. -/
def State.canSave (s : State) (gid : Nat) : Bool :=
  let g := s.group gid
  !(s.ops.any fun o => o.gid == gid && o.busy) &&
  g.slots.all fun sl => ((s.reissueList gid g.core sl).map fun e => e.2.length).sum ≤ 256

/-! Contents (R382, R383). -/

/-- STATE, and the barrier slot it names, of a lane (R382). -/
def Wave.laneState (w : Wave) (n : Nat) : Nat × Nat :=
  if !w.launched.getLsbD n then (5, 0)
  else if w.exited.getLsbD n then (4, 0)
  else
    match ((w.progPaths.find? fun p => p.lanes.getLsbD n).map Path.status : Option Status) with
    | some (.bar k) => (1, k)
    | some (.rcv _) => (2, 0)
    | some (.parked _ _) => (3, 0)
    | some (.walk _ _) => (3, 0)
    | _ => (0, 0)

/-- One record of the reissue list (R383). -/
def reissueRec (o : MemOp) (a : Acc) (first : Bool) : Nat :=
  a.va.toNat + 2 ^ 64 * (a.aux.toNat % 2 ^ 32) + 2 ^ 96 * (o.reg % 256) +
  2 ^ 104 * (o.flag + (if o.opfile then 16 else 0) + (if o.acq then 32 else 0)) + 2 ^ 112 * a.lane +
  2 ^ 120 * (1 + if first then 2 else 0)

/-- The records of a wave's reissue list, in order. -/
def State.reissueRecs (s : State) (gid core slot : Nat) : List Nat :=
  ((s.reissueList gid core slot).map fun e =>
    (List.range e.2.length).map fun i => reissueRec e.1 (e.2.getD i {}) (i == 0)).flatten

/-- The PC at which a lane goes on after a restore: EPCH:EPCL for a lane that ERET would move, the word of a waiting lane, the
next word of a lane for which its waiting word has completed, else the halt PC (R144, R382). -/
def Wave.lanePc (w : Wave) (epc : Nat → Option W64) (n : Nat) : W64 :=
  let p := (w.progPaths.find? fun p => p.lanes.getLsbD n).getD {}
  (epc n).getD (match p.status with | .wait _ pend _ => if pend.getLsbD n then p.pc else p.pc + 4 | _ => p.pc)

/-- The block of a wave: offset, bytes and value of each field (R382). `epc` is the address at which the EMASK
lanes resume, when they move. -/
def State.wavePieces (s : State) (gid wix : Nat) (epc : Nat → Option W64) : List (Nat × Nat × Nat) :=
  let g := s.group gid
  let slot := g.slots.getD wix 0
  let w := s.wave (waveKey g.core slot)
  let ps := w.progPaths
  let md := match w.saved with
    | some v => (v.xstat, v.fpmode, v.fpstat, v.wbase, v.cbase)
    | none => (w.xstat, w.fpmode, w.fpstat, w.wbase, w.cbase)
  let lanes := ((List.range 32).map fun n =>
    let i := (ps.findIdx? fun p => p.lanes.getLsbD n).getD 0
    let p := (ps.find? fun p => p.lanes.getLsbD n).getD {}
    [(16 * n, 8, (w.lanePc epc n).toNat), (16 * n + 8, 1, (w.laneState n).1), (16 * n + 9, 1, i), (16 * n + 10, 1, p.age),
     (16 * n + 11, 1, (w.laneState n).2)]).flatten
  let sr := (List.range 96).map fun i => (0x200 + 4 * i, 4, (w.sregs.get i (leftReg w.seed 2 i)).toNat)
  let modes := [(0x380, 4, md.1.toNat), (0x384, 4, md.2.1.toNat), (0x388, 4, md.2.2.1.toNat), (0x38C, 4, md.2.2.2.1),
    (0x390, 4, md.2.2.2.2.toNat), (0x394, 4, w.mwtime.toNat)] ++ (List.range 12).map fun f => (0x398 + f, 1, w.flags.get f 0)
  let rbs := ((List.range 16).map fun b =>
    let r := w.rbs.get b {}
    [(0x3C0 + 16 * b, 4, r.mask.toNat), (0x3C4 + 16 * b, 4, r.arrived.toNat), (0x3C8 + 16 * b, 4, r.withdrawn.toNat)]).flatten
  let of := ((List.range 32).map fun l => (List.range 16).map fun r =>
    (0x800 + 64 * l + 4 * r, 4, (w.opf.get (32 * r + l) (leftReg w.seed 1 (32 * r + l))).toNat)).flatten
  let lq := ((List.range 32).map fun l => (List.range 4).map fun e =>
    (0x1000 + 8 * (4 * l + e), 8, (w.lastq.get (32 * e + l) 0).toNat)).flatten
  let recs := s.reissueRecs gid g.core slot
  let rl := (List.range recs.length).map fun i => (0x1400 + 16 * i, 16, recs.getD i 0)
  let mf := ((List.range g.regs).map fun r => (List.range 32).map fun l =>
    (0x3000 + 128 * r + 4 * l, 4, (w.main.get (32 * r + l) (leftReg w.seed 0 (32 * r + l))).toNat)).flatten
  (lanes ++ sr ++ modes ++ rbs ++ of ++ lq ++ rl ++ mf).map fun e => (1280 + wix * waveBlock g.regs + e.1, e.2)

/-- A held trap as it would be taken now: one that moves no lane reports the lanes affected, and as EPC the PC of the lowest of
them (R373, R374, R384). -/
def State.heldNow (s : State) (g : Group) (epc : Nat → Nat → Option W64) (t : Trap) : Trap :=
  let w := s.wave (waveKey g.core (g.slots.getD t.wave 0))
  if t.redir then t
  else
    let m := if t.code = 0x1D ∨ t.code = 0x1E ∨ t.code = 0x21 then w.live else t.emask
    { t with emask := m, epc := w.lanePc (epc t.wave) (lowLane (m &&& w.live)) }

/-- The image of a group: offset, bytes and value of each field that is not 0 throughout (R382). -/
def State.imagePieces (s : State) (gid : Nat) : List (Nat × Nat × Nat) :=
  let g := s.group gid
  let t := g.trap.getD { redir := false }
  let epc := fun (wix n : Nat) => if t.redir && wix == t.wave && t.emask.getLsbD n then some t.epc else none
  let held := g.held.take 14
  let head := [(0, 4, 1), (4, 4, g.imageSize), (8, 2, g.ctx), (0xA, 1, g.slots.length), (0xB, 1, g.regs / 16), (0xC, 1, g.nbar),
    (0xE, 2, g.spsize / 256), (0x10, 4, g.index), (0x14, 4, held.length), (0x18, 8, s.rtime)]
  let traps := ((List.range held.length).map fun i =>
    let h := s.heldNow g epc (held.getD i {})
    [(0x20 + 16 * i, 1, h.code), (0x21 + 16 * i, 1, h.wave), (0x24 + 16 * i, 4, h.emask.toNat), (0x28 + 16 * i, 8, h.eaddr.toNat),
     (0x280 + 8 * i, 8, h.epc.toNat)]).flatten
  let bars := (List.range 32).map fun k =>
    let b := g.bars.get k {}
    (0x100 + 8 * k, 8, b.count + 2 ^ 16 * b.arrived + if b.phase then 2 ^ 32 else 0)
  let qs := ((List.range 8).map fun k =>
    let q := g.queues.get k {}
    [(0x200 + 16 * k, 4, q.base), (0x204 + 16 * k, 4, q.head.toNat), (0x208 + 16 * k, 4, q.tail.toNat), (0x20C + 16 * k, 2, q.allow),
     (0x20E + 16 * k, 1, q.logn), (0x20F + 16 * k, 1, if q.init then 1 else 0)]).flatten
  let base := 1280 + g.slots.length * waveBlock g.regs
  let sp := (List.range (g.spsize / 128)).map fun i => (base + 128 * i, 128, g.spGet (128 * i) 128)
  head ++ traps ++ bars ++ qs ++ ((List.range g.slots.length).map fun i => s.wavePieces gid i (epc i)).flatten ++ sp

/-- What a save leaves of the group on its core: waiting words stand at their words again, monitors are
disarmed, waiting VLD.EQ accesses are gone (R144, R156, R167). -/
def State.cancelWaits (s : State) (gid : Nat) : State :=
  let g := s.group gid
  let again := fun (ps : List Path) => (ps.map fun p =>
    match p.status with
    | .wait w pend _ => (match w with | .gsave _ => [p] | _ => p.cut pend)
    | _ => [p]).flatten
  let s1 := g.keys.foldl
    (fun u k => u.modWave k fun w =>
      { (match w.saved with
         | some v => { w with saved := some { v with paths := again v.paths } }
         | none => { w with paths := again w.paths }) with mons := [] }) s
  { s1 with
    ops := s1.ops.map fun o =>
      if o.gid = gid then { o with accs := o.accs.map fun a => if o.waiting a then { a with st := .done, gone := 0xFF } else a } else o }

/-! Restoring (R168, R384). -/

/-- Lanes that share path number, state, slot and PC make one path (R76, R213). -/
def imagePaths (key : Nat → Nat) (mk : Nat → Path) : List Nat → List (Nat × Path)
  | [] => []
  | n :: r =>
    let rest := imagePaths key mk r
    if rest.any fun e => e.1 == key n then rest.map fun e => if e.1 = key n then (e.1, { e.2 with lanes := e.2.lanes ||| laneBit n }) else e
    else (key n, { mk n with lanes := laneBit n }) :: rest

/-- A wave as its block of the image gives it; parked lanes replay their word (R221). R168 and R384 list no check of WBASE: a field that
breaks R14 stands as the image has it (log 120). -/
def restoreWave (rd : Nat → Nat → Nat) (regs : Nat) (w : Wave) : Wave :=
  let at16 := fun n => 16 * n
  let stateOf := fun n => rd (at16 n + 8) 1
  let launched := maskOf ((List.range 32).filter fun n => stateOf n != 5)
  let exited := maskOf ((List.range 32).filter fun n => stateOf n == 4)
  let rbs : FMap RBar := (List.range 16).map fun b =>
    (b, { mask := BitVec.ofNat 32 (rd (0x3C0 + 16 * b) 4), arrived := BitVec.ofNat 32 (rd (0x3C4 + 16 * b) 4)
          withdrawn := BitVec.ofNat 32 (rd (0x3C8 + 16 * b) 4) })
  let mk := fun n : Nat =>
    let st : Status :=
      if stateOf n = 1 then .bar (rd (at16 n + 11) 1)
      else if stateOf n = 2 then .rcv (((List.range 16).find? fun b => (rbs.get b {}).arrived.getLsbD n).getD 0)
      else .run
    ({ pc := BitVec.ofNat 64 (rd (at16 n) 8), age := rd (at16 n + 10) 1, status := st } : Path)
  let key := fun n => rd (at16 n) 8 + 2 ^ 64 * rd (at16 n + 8) 2 + 2 ^ 80 * rd (at16 n + 11) 1
  { w with
    launched := launched, exited := exited
    paths := (imagePaths key mk ((List.range 32).filter fun n => stateOf n < 4)).map (·.2)
    main := ((List.range regs).map fun r => (List.range 32).map fun l => (32 * r + l, BitVec.ofNat 32 (rd (0x3000 + 128 * r + 4 * l) 4))).flatten
    opf := ((List.range 16).map fun r => (List.range 32).map fun l => (32 * r + l, BitVec.ofNat 32 (rd (0x800 + 64 * l + 4 * r) 4))).flatten
    lastq := ((List.range 4).map fun e => (List.range 32).map fun l => (32 * e + l, BitVec.ofNat 64 (rd (0x1000 + 8 * (4 * l + e)) 8))).flatten
    sregs := (List.range 96).map fun i => (i, BitVec.ofNat 32 (rd (0x200 + 4 * i) 4))
    xstat := BitVec.ofNat 32 (rd 0x380 4), fpmode := BitVec.ofNat 32 (rd 0x384 4) &&& 7, fpstat := BitVec.ofNat 32 (rd 0x388 4) &&& 31
    wbase := rd 0x38C 4, cbase := BitVec.ofNat 9 (rd 0x390 4), mwtime := BitVec.ofNat 32 (rd 0x394 4)
    flags := (List.range 12).map fun f => (f, rd (0x398 + f) 1)
    rbs := rbs, mons := [], skid := 0, stopped := false, skidAc := 0, saved := none }

/-- The valid records of a wave's reissue list, split into words at each record that is FIRST. -/
def reissueWords (rd : Nat → Nat → Nat) : List (List Nat) :=
  let recs := ((List.range 256).map fun i => rd (0x1400 + 16 * i) 16).filter fun r => bitN r 120
  recs.foldl (fun ws r => if bitN r 121 ∨ ws.isEmpty then ws ++ [[r]] else ws.dropLast ++ [(ws.getLastD []) ++ [r]]) []

/-- The word that a list of records issues again; its accesses make their checks when they reach the slice (R384). -/
def reissueOp (core slot gid id : Nat) (rs : List Nat) : MemOp :=
  let r := rs.headD 0
  { id := id, core := core, slot := slot, gid := gid, kind := .vldEq, size := 32, flag := field r 104 4, acq := bitN r 109
    opfile := bitN r 108, reg := field r 96 8, seq := id, reiss := true
    lanes := maskOf (rs.map fun x => field x 112 5)
    accs := rs.map fun x => { lane := field x 112 5, va := BitVec.ofNat 64 (field x 0 64), aux := BitVec.ofNat 64 (field x 64 32) } }

/-- Issue the reissue list of a wave and reset its flags to the words that exist (R384). -/
def State.reissueWave (s : State) (gid wix : Nat) (rd : Nat → Nat → Nat) : State :=
  let g := s.group gid
  let slot := g.slots.getD wix 0
  let key := waveKey g.core slot
  let ws := reissueWords rd
  let ops := (List.range ws.length).map fun i =>
    { reissueOp g.core slot gid (s.nextId + i) (ws.getD i []) with
      ctx := g.ctx
      scope := (ws.getD i []).foldl (fun m r => max m (s.regionScope g.ctx (field r 0 64))) 0 }
  let count := fun f => (ops.filter fun o => o.flag == f).length
  let w := s.wave key
  let reset := (List.range 12).filter fun f => count f < w.flags.get f 0
  let s1 := s.modWave key fun w =>
    { w with
      flags := (List.range 12).map fun f => (f, min (w.flags.get f 0) (count f))
      paths := w.paths.map fun p =>
        { s.placed g.core g p with
          hold := ((ops.filter fun o => o.acq && (o.lanes &&& p.lanes) != 0).map (·.id)) } }
  let s2 := { s1 with ops := s1.ops ++ ops, nextId := s.nextId + ws.length }
  if reset = [] then s2
  else s2.logCtx (dieOf g.core) g.ctx 0x25 0 ((reset.map fun f => 2 ^ f).sum + 2 ^ 16 * wix + 2 ^ 32 * g.index)

/-- REDIR of a held trap of an image, which holds no such bit: `pc` is the saved PC of a lane. A check that failed after issue was that of a
reissued access, 0, unless all its lanes stand at the word that failed, as a sub-group whose fault was refused does; a version trap or a
data error whose EPC is its lane's own PC was one too (R373, R384; log 97). -/
def heldRedir (code : Nat) (m : Lanes) (epc : Nat) (pc : Nat → Nat) : Bool :=
  if code = 0x1D ∨ code = 0x1E ∨ code = 0x21 then false
  else if code < 0x0A ∨ code = 0x0C then (lanesOf m).all fun n => pc n == epc
  else if 0x0D ≤ code ∧ code ≤ 0x13 then pc (lowLane m) != epc
  else true

/-- A held trap of an image; its operation no longer exists. ERET of a trap that replays its word sends the lanes back to it; one that
completes without effect has nothing left to do (R139, R374; log 97). -/
def heldTrap (rd : Nat → Nat → Nat) (pc : (wave lane : Nat) → Nat) (i : Nat) (gone : Nat) : Trap :=
  let code := rd (0x20 + 16 * i) 1
  let wave := rd (0x21 + 16 * i) 1
  let m := BitVec.ofNat 32 (rd (0x24 + 16 * i) 4)
  { code := code, own := m, wave := wave, emask := m, eaddr := BitVec.ofNat 64 (rd (0x28 + 16 * i) 8)
    epc := BitVec.ofNat 64 (rd (0x280 + 8 * i) 8), redir := heldRedir code m (rd (0x280 + 8 * i) 8) (pc wave)
    op := if code = 0x0E ∨ code = 0x0F ∨ code = 0x10 ∨ code = 0x13 then gone else 0 }

/-- Whether the header fits the group (R384). -/
def Group.imageFits (g : Group) (rd : Nat → Nat → Nat) : Bool :=
  rd 0 4 == 1 && rd 4 4 == g.imageSize && rd 8 2 == g.ctx && rd 0xA 1 == g.slots.length && rd 0xB 1 == g.regs / 16 && rd 0xC 1 == g.nbar &&
  rd 0xE 2 == g.spsize / 256

/-- The group's state becomes the image (R168, R384): waves, barriers, queues, scratchpad, then the reissue list,
then the held traps, the first of which starts a halt. Its accumulators hold +0 (R199). What was saved happens before what the
restored lanes do: the core's copies are dropped (R260). -/
def State.restoreImage (s0 : State) (gid : Nat) (rd : Nat → Nat → Nat) : State :=
  let g := s0.group gid
  let s := s0.dropL1 g.core
  let n := g.slots.length
  let wrd := fun i o k => rd (1280 + i * waveBlock g.regs + o) k
  let base := 1280 + n * waveBlock g.regs
  let s1 := (List.range n).foldl
    (fun u i => u.modWave (waveKey g.core (g.slots.getD i 0)) fun w => restoreWave (wrd i) g.regs w) s
  let held := (List.range (min 14 (rd 0x14 4))).map fun i =>
    heldTrap rd (fun w l => wrd w (16 * l) 8) i (s.nextId + i)
  let s2 := { s1 with nextId := s.nextId + 14 }.modGroup gid fun g =>
    { g with
      restore := false, fresh := false, phase := .running, trap := none, held := held.tail
      bars := (List.range 32).map fun k =>
        let v := rd (0x100 + 8 * k) 8
        (k, { count := field v 0 11, arrived := field v 16 11, phase := bitN v 32 })
      queues := (List.range 8).map fun k =>
        (k, { base := rd (0x200 + 16 * k) 4, head := BitVec.ofNat 32 (rd (0x204 + 16 * k) 4), tail := BitVec.ofNat 32 (rd (0x208 + 16 * k) 4)
              allow := rd (0x20C + 16 * k) 2, logn := rd (0x20E + 16 * k) 1, init := bitN (rd (0x20F + 16 * k) 1) 0 })
      scratch := (List.range g.spsize).map fun a => (a, BitVec.ofNat 8 (rd (base + a) 1)) }
  let s2a := s2.modCore g.core fun c => { c with acc := c.acc.filter fun e => g.role != some (e.1 / 8192) }
  let s3 := (List.range n).foldl (fun u i => u.reissueWave gid i (wrd i)) s2a
  match held with
  | h :: _ => s3.haltGroup gid h false
  | [] => s3

/-! The words. -/

/-- Outcomes of the checks on the pages of an image (R167, R168). -/
def State.imageChk (s : State) (va size : Nat) (write : Bool) : Option (Chk × Nat) :=
  ((List.range ((va % 4096 + size + 4095) / 4096)).map fun i => if i = 0 then va else (va / 4096 + i) * 4096).findSome? fun a =>
    match s.check s.cur.core s.cg (BitVec.ofNat 64 a) { size := 1, write := write } with
    | .ok _ _ => none
    | c => some (c, a)

/-- Write at a virtual address of the group through the checks that have passed. -/
def State.imgWrite (s : State) (core : Nat) (g : Group) (va n v : Nat) : State :=
  match s.check core g (BitVec.ofNat 64 va) { size := 1, write := true } with
  | .ok pa leaf => ((linesOf pa n).foldl (fun u l => u.l1Drop core l) s).agentWrite pa n (s.keyId pa (leafKey leaf)) v
  | _ => s

/-- Read at a virtual address of the group. -/
def State.imgRead (s : State) (core : Nat) (g : Group) (va n : Nat) : Nat :=
  match s.check core g (BitVec.ofNat 64 va) { size := 1 } with
  | .ok pa leaf => s.agentRead pa (s.keyId pa (leafKey leaf)) n
  | _ => 0

/-- The image is written, zeros first, and the waits it records are cancelled (R167, R382). -/
def State.saveAt (s : State) (core gid va : Nat) : State :=
  let g := s.group gid
  let ps := s.imagePieces gid
  let s1 := (List.range (g.imageSize / 128)).foldl (fun u i => u.imgWrite core g (va + 128 * i) 128 0) s
  (ps.foldl (fun u e => u.imgWrite core g (va + e.1) e.2.1 e.2.2) s1).cancelWaits gid

/-- An obstacle on the pages of an image: the image trap, a page fault, a walk, or a table fault. -/
def State.imageFail (s : State) (va : W64) (c : Chk) (a : Nat) (write : Bool) : Res :=
  match c with
  | .park => .done ((s.modCp fun p => { p with status := .parked a false }).raiseFault (dieOf s.cur.core) s.cg.ctx (a / 4096) 0 false write)
  | .wait => .done (s.modCp fun p => { p with status := .walk a 10000 })
  | .table => .trap (s.trapHere 0x0C (BitVec.ofNat 64 a) s.memb)
  | _ => .trap (s.trapHere 0x1B va s.memb)

/-- Whether the matrix work that a save of the group has to let finish is over: its pending follow-ons have entered the chain,
its own operations are complete, and nothing reads its reservations any more (R188, R199; log 96). -/
def State.matrixOver (s : State) (gid : Nat) : Bool :=
  let g := s.group gid
  g.follow == 0 && !((s.core g.core).mchain.any fun o => o.gid == gid) && !(g.resv.any fun e => s.resvRead e.2.stamp)

/-- A saved group leaves the matrix engine: its reservations are free, and possession passes as by MPASS (R188, R199). -/
def State.leaveMatrix (s : State) (core gid : Nat) : State :=
  let s1 := s.modGroup gid fun g => { g with resv := [] }
  if (s.core core).poss = some gid then s1.handover core gid else s1

/-- GSAVE at an address, as it is now: the image trap for a bad address or more than 14 held traps, an obstacle on a page, the
wait for the group's own work, or the image (R163, R167, R199, R221, R383). -/
def State.gsaveTry (s : State) (va : W64) : Res :=
  if va.toNat % 256 ≠ 0 ∨ 14 < s.cg.held.length then .trap (s.trapHere 0x1B va s.memb)
  else
    match s.imageChk va.toNat s.cg.imageSize true with
    | some (c, p) => s.imageFail va c p true
    | none =>
      if s.canSave s.cgid && s.matrixOver s.cgid then
        .done (((s.saveAt s.cur.core s.cgid va.toNat).leaveMatrix s.cur.core s.cgid).modCp fun p => { p.past false with status := .run })
      else .done (s.await (.gsave va) s.memb)

/-- GSAVE: legal in handler mode; the image is written once the group's L-path operations are over (R163, R167, R221, R383). -/
def execGsave (a : RName) (s : State) : Out :=
  issueWaiting (spair a && s.inHandler) [] true false (fun s => s.gsaveTry (s.readS64 a.toNat)) s

/-- GREST: legal as the first word of a restore group; on success the group's state becomes the image (R168,
R384). -/
def execGrest (a : RName) (s : State) : Out :=
  issueControl (spair a && s.cg.restore && s.cg.fresh && (s.cp.clause.getD {}).pos == 0) []
    (fun s =>
      let va := s.readS64 a.toNat
      if va.toNat % 256 ≠ 0 then .trap (s.trapHere 0x1B va s.memb)
      else
        match s.imageChk va.toNat s.cg.imageSize false with
        | some (c, p) => s.imageFail va c p false
        | none =>
          let rd := fun o n => s.imgRead s.cur.core s.cg (va.toNat + o) n
          if !s.cg.imageFits rd then .trap (s.trapHere 0x1B va s.memb)
          else .done (s.restoreImage s.cgid rd)) s

end Sys2Proof.Machine
end

