-- ==== Sys2Proof/Machine/Sched.lean ====
section
/-! DEFINITION. From a launch, a bin or a ring to a group on a core: indices (R205 to R209), admission (R210,
R211, R303), the start of a group (R212, R302, R349, R352, R354), the dispatcher's placement (R354 to R359), and
eviction and restoring by the scheduler (R310). -/

namespace Sys2Proof.Machine

/-! Indices of a launch's hierarchy (R205 to R208). -/

/-- Product of the counts of the levels whose domain satisfies a test. -/
def Launch.prod (l : Launch) (p : Nat → Bool) : Nat := (l.levels.filter fun v => p v.dom).foldl (fun a v => a * v.count) 1
/-- Lanes launched in each wave (R205). -/
def Launch.lanes (l : Launch) : Nat := l.prod (· == 0)
/-- Groups of a launch (R207). -/
def Launch.groups (l : Launch) : Nat := l.prod (2 ≤ ·)
/-- Groups in one element of level `n` (R207). -/
def Launch.inner (l : Launch) (n : Nat) : Nat := ((l.levels.drop (n + 1)).filter fun v => 2 ≤ v.dom).foldl (fun a v => a * v.count) 1
/-- Levels of a domain, outermost first. -/
def Launch.levelsOf (l : Launch) (dom : Nat) : List Nat := (List.range l.levels.length).filter fun n => (l.levels.getD n {}).dom == dom
/-- Groups of a gang, 1 without a cluster level (R209). -/
def Launch.gang (l : Launch) : Nat :=
  match l.levelsOf 3 with
  | n :: _ => l.inner n
  | [] => 1
/-- Groups of a dealt unit (R208). -/
def Launch.unit (l : Launch) : Nat :=
  match (l.levelsOf 5).reverse with
  | n :: _ => l.inner n
  | [] => 1
/-- Whether this member of the federation serves a group (R208). -/
def Launch.serves (l : Launch) (g : Nat) : Bool := g / l.unit % l.fedn == l.fedix
/-- Element indices at the levels outside the wave levels (R207); the index of a chunk is that of its group
(R352). -/
def Launch.lvixOf (l : Launch) (g : Nat) : FMap Nat :=
  if l.kind = .card then [(0, g)]
  else ((List.range l.levels.length).filter fun n => 2 ≤ (l.levels.getD n {}).dom).map fun n => (n, g / l.inner n % (l.levels.getD n {}).count)
/-! Admission (R210, R211, R303). -/

/-- Largest register count of a launch's spawnable entries (R211). -/
def Launch.rs (l : Launch) : Nat := l.spn.foldl (fun m e => max m e.regs) 0

/-- Whether a core's plate is in service (R366, R390). -/
def State.inService (s : State) (core : Nat) : Bool := (s.die (dieOf core)).plates.get (plateOf core) 0 == 0

/-- Whether a core of the launch's context has room for `k` more groups; spawned, message and stage groups may
use the reserve (R211, R303, R358). -/
def State.fits (s : State) (core : Nat) (l : Launch) (k waves regs sp nbar : Nat) (reserve : Bool) : Bool :=
  let gs := (s.groupsOn core).map (·.2)
  let ls := l :: gs.map fun g => s.launchOf g
  let v := if reserve then 0 else ls.foldl (fun m x => max m x.spres) 0
  let rb := if reserve then 0 else ls.foldl (fun m x => max m (x.spres * x.rs * 128)) 0
  s.inService core && (s.core core).ctx == some l.ctx &&
  (gs.map fun g => g.slots.length).sum + k * waves ≤ 64 - v &&
  (gs.map fun g => g.regs * 128 * g.slots.length).sum + k * (regs * 128 * waves) + rb ≤ 524288 &&
  (gs.map fun g => g.spsize).sum + k * sp ≤ 524288 &&
  (gs.map fun g => g.nbar).sum + k * nbar ≤ 32

/-- Matrix roles that no group of a core holds (R187, R349). -/
def State.freeRoles (s : State) (core : Nat) : List Nat := [0, 1].filter fun r => !((s.groupsOn core).any fun e => e.2.role == some r)

/-- Whether the plate-level elements of a group permit a core; an element whose plate left service is free
(R209). -/
def State.plateOk (s : State) (l : Launch) (g core : Nat) : Bool :=
  (l.levelsOf 4).all fun n =>
    let b := l.bind.get (n * 2 ^ 32 + g / l.inner n) 0
    b == 0 || b == plateOf core + 1 || (s.die (dieOf core)).plates.get (b - 1) 0 != 0

/-! The start of a group (R212). -/

/-- Lowest free wave slots of a core (R361). -/
def State.freeSlots (s : State) (core n : Nat) : List Nat :=
  ((List.range 64).filter fun i => (s.wave (waveKey core i)).gid.isNone).take n

/-- Whether a group begins after an acquire: threads, messages and stage groups always, groups of a launch or card when an
earlier wait-on-word of the queue or the card's counter made one (R152, R162, R260, R344, R351, R354). The core drops its copies
as the group starts (log 98). -/
def State.beginsAcquired (s : State) (g : Group) : Bool := g.kind != .launch || (s.launchOf g).acq

/-- A group of `waves` waves starts on a core: every launched lane in one path at the entry, registers as R14
gives them; `init` fills the registers that the kind of group defines (R302, R349, R352, R354). -/
def State.startGroup (s0 : State) (core : Nat) (g : Group) (waves : Nat) (pc : W64) (launched : Lanes) (init : Wave → Wave) : State :=
  let s := if s0.beginsAcquired { g with core := core } then s0.dropL1 core else s0
  let gid := s.nextId
  let clear := (s.core core).zeroed
  let slots := s.freeSlots core waves
  let g1 := { g with core := core, slots := slots, seed := if clear then 0 else gid, started := gid }
  let s1 := { s with groups := s.groups.set gid g1, nextId := s.nextId + waves + 1 }.modCore core fun c => { c with zeroed := false }
  (List.range waves).foldl
    (fun u i => u.modWave (waveKey core (slots.getD i 0)) fun _ =>
      init {
        gid := some gid, wix := i, launched := launched, seed := if clear then 0 else gid + 1 + i
        paths := if launched = 0 then [] else [{ lanes := launched, pc := pc }] }) s1

/-- Words of a payload go to v0 upward of a lane (R302, R312, R354). -/
def Wave.payload (w : Wave) (lane : Nat) (ws : List W32) : Wave :=
  (List.range ws.length).foldl (fun w r => w.setV r lane (ws.getD r 0)) w

/-- The set of the lowest `n` lanes. -/
def lowLanes (n : Nat) : Lanes := maskOf (List.range (min n 32))

/-- The group of a launch or card with an index (R207, R349, R352). -/
def Launch.group (l : Launch) (g : Nat) (role : Option Nat) : Group :=
  { ctx := l.ctx, lid := l.lid, kind := .launch, index := g, regs := l.regs, spsize := l.scr, nbar := l.nbar, role := role
    lvix := l.lvixOf g, restore := l.restore, card := l.kind == .card }

/-- Remember the plates of a group's plate-level elements (R209). -/
def State.bindPlates (s : State) (d key g core : Nat) : State :=
  s.modLaunch d key fun l =>
    { l with bind := (l.levelsOf 4).foldl (fun m n => m.set (n * 2 ^ 32 + g / l.inner n) (plateOf core + 1)) l.bind }

/-- Start group `g` of a launch on a core (R349); with RESTORE its s0:s1 hold its image's address. -/
def State.startIndex (s : State) (d key g core : Nat) (role : Option Nat) : State :=
  let l := (s.die d).launches.get key {}
  let img := if l.restore then BitVec.ofNat 64 (s.schedRead d l.ctx (l.imgtab.toNat + 8 * g) 8) else 0
  ((s.startGroup core { l.group g role with img := img } l.waves l.entry (lowLanes l.lanes)
    fun w => if l.restore then w.setS64 0 img else w).bindPlates d key g core)

/-! Threads, messages and stage records (R302, R306, R312, R354). -/

/-- Registers per lane and entry of the group that threads of one key make (R302, R312). -/
def State.threadShape (s : State) (d : Nat) (t : Thread) : Nat × W64 :=
  let l := (s.die d).launches.get (1024 * t.ctx + t.lid) {}
  if t.msg then (l.regs, l.hnd.get t.key 0)
  else (((l.spn.find? fun x => x.entry.toNat == t.key).getD {}).regs, BitVec.ofNat 64 t.key)

/-- One-wave group of threads in arrival order (R301, R302). -/
def State.startThreads (s : State) (d core : Nat) (ts : List Thread) : State :=
  let t := ts.headD {}
  let sh := s.threadShape d t
  s.startGroup core
    { ctx := t.ctx, lid := t.lid, kind := if t.msg then .message else .spawned, regs := sh.1
      joins := ((List.range ts.length).filter fun k => (ts.getD k {}).join != 0).map fun k => (k, (ts.getD k {}).join) }
    1 sh.2 (lowLanes ts.length) fun w => (List.range ts.length).foldl (fun w k => w.payload k (ts.getD k {}).pay) w

/-- Whether a core has room for a group of threads (R303). -/
def State.fitsThreads (s : State) (d core : Nat) (t : Thread) : Bool :=
  s.fits core ((s.die d).launches.get (1024 * t.ctx + t.lid) {}) 1 1 (s.threadShape d t).1 0 0 true

/-- Whether the dispatcher may place groups of a context on a die (R360, R423). -/
def State.placing (s : State) (d ctx : Nat) : Bool := !(s.die d).dbg && (s.die d).cstate.get ctx 0 == 0

/-- Whether groups of a context that were saved by a pre-emption have still to be restored, before any other work of it (R385). -/
def State.restoring (s : State) (d ctx : Nat) : Bool := (s.die d).launches.any fun e => e.2.ctx == ctx && e.2.redo.any (·.first)

/-- The cores of a die in the order of a scan from its core pointer (R358). -/
def State.scan (s : State) (d : Nat) : List Nat := (List.range 64).map fun i => 64 * d + ((s.die d).corePtr + i) % 64

/-- The pointer moves to the core after the chosen one (R358). -/
def State.passPtr (s : State) (d core : Nat) : State := s.modDie d fun x => { x with corePtr := (core % 64 + 1) % 64 }

/-- A closed bin's group starts on its own core, when it fits there (R303). -/
def State.admitBin (s : State) (core k : Nat) : Option State :=
  match (s.core core).bins[k]? with
  | none => none
  | some b =>
    let t := b.threads.headD {}
    if b.closed && !b.threads.isEmpty && s.placing (dieOf core) t.ctx && !s.restoring (dieOf core) t.ctx && s.fitsThreads (dieOf core) core t then
      some ((s.startThreads (dieOf core) core b.threads).modCore core fun c => { c with bins := c.bins.eraseIdx k })
    else none

/-- A record of the spill ring (R305). -/
def spillThread (ctx r : Nat) : Thread :=
  { key := field r 192 54, lid := field r 246 10, join := BitVec.ofNat 64 (field r 128 54), pay := unpackWords r 4, ctx := ctx }
/-- A record of the message ring (log 30). -/
def msgThread (ctx r : Nat) : Thread :=
  { key := field r 512 8, msg := true, lid := field r 544 16, desc := BitVec.ofNat 32 (field r 512 32), ctx := ctx
    pay := unpackWords r (field r 520 5) }

/-- The record at a place of a ring of a context: the spill ring or the message ring. -/
def State.ringThread (s : State) (d ctx : Nat) (msg : Bool) (i : Nat) : Thread :=
  match (if msg then s.msgRing d ctx else s.spillRing d ctx) with
  | none => { ctx := ctx, msg := msg }
  | some (b, n) =>
    let size := if msg then 128 else 32
    let pa := b + size * (i % 2 ^ n)
    let t := (if msg then msgThread else spillThread) ctx (s.agentRead pa (s.ringKey d ctx pa) size)
    let k := infoKey ctx i msg
    -- the die tells a completed card from a later entry of its LID (R347)
    if (s.die d).ringInfo.has k then
      let e := (s.die d).ringInfo.get k (t.lid, 0)
      { t with lid := if e.1 % 1024 = t.lid then e.1 else t.lid, born := e.2 }
    else t

/-- The head record with the consecutive ones after it of the same key, up to 32 (R306). -/
def State.ringRun (s : State) (d ctx : Nat) (msg : Bool) (k : Nat × Nat × Bool) (i : Nat) : (fuel : Nat) → List Thread
  | 0 => []
  | n + 1 =>
    let t := s.ringThread d ctx msg i
    if t.binKey = k then t :: s.ringRun d ctx msg k (i + 1) n else []

/-- Take records from the head of a ring and start their group on the first core that has room (R306, R358). -/
def State.takeRing (s : State) (d ctx : Nat) (msg : Bool) : Option State :=
  let p := if msg then (s.die d).mring.get ctx (0, 0) else (s.die d).spill.get ctx (0, 0)
  if p.2 ≤ p.1 ∨ !s.placing d ctx ∨ s.restoring d ctx then none
  else
    let t := s.ringThread d ctx msg p.1
    let ts := s.ringRun d ctx msg t.binKey p.1 (min 32 (p.2 - p.1))
    match (s.scan d).find? fun c => s.fitsThreads d c t with
    | none => none
    | some c =>
      some (((s.startThreads d c ts).passPtr d c).modDie d fun x =>
        let y := { x with ringInfo := (List.range ts.length).foldl (fun m i => m.del (infoKey ctx (p.1 + i) msg)) x.ringInfo }
        if msg then { y with mring := y.mring.set ctx (p.1 + ts.length, p.2) } else { y with spill := y.spill.set ctx (p.1 + ts.length, p.2) })

/-- Cores that hold a group of a stage. -/
def State.stageCores (s : State) (d key stage : Nat) : List Nat :=
  ((s.groups.filter fun e => dieOf e.2.core == d && 1024 * e.2.ctx + e.2.lid == key && e.2.kind == .stage && e.2.stage == stage).map
    (·.2.core)).eraseDups

/-- Whether the allowance of a stage lets a core receive one of its groups: one of the lowest-numbered cores
that hold groups of it, as many as the allowance, or a further one while there are fewer (R355). -/
def State.stageCore (s : State) (d key stage allowance core : Nat) : Bool :=
  let cs := s.stageCores d key stage
  if cs.contains core then (cs.filter (· < core)).length < allowance else cs.length < allowance

/-- Take `n` records of a stage ring and start their group (R354, R355). -/
def State.takeStage (s : State) (d key stage n : Nat) : Option State :=
  let l := (s.die d).launches.get key {}
  match l.stages[stage]? with
  | none => none
  | some g =>
    if l.phase ≠ .ready ∨ !s.placing d l.ctx ∨ s.restoring d l.ctx ∨ n = 0 ∨ g.tail - g.head < n ∨ g.allowance = 0 then none
    else
      match (s.scan d).find? fun c => s.fits c l 1 1 l.regs 0 0 true && s.stageCore d key stage g.allowance c with
      | none => none
      | some c =>
        let recs := (List.range n).map fun i => s.schedRead d l.ctx (g.ring.toNat + 64 + 16 * ((g.head + i) % 2 ^ g.logn)) 16
        let s1 := s.startGroup c { ctx := l.ctx, lid := l.lid, kind := .stage, stage := stage, regs := l.regs } 1 g.entry (lowLanes n)
          fun w => (List.range n).foldl (fun w k => w.payload k (unpackWords (recs.getD k 0) 4)) w
        let s2 := s1.schedWrite d l.ctx g.ring.toNat 8 (g.head + n)
        some ((s2.modLaunch d key fun x =>
          { x with
            stages := (List.range x.stages.length).map fun i =>
              let y := x.stages.getD i {}
              if i = stage then { y with head := y.head + n, left := 512 } else y }).passPtr d c)

/-! Cores passing to another context (R433). -/

/-- Write the threads of a bin to their ring, in order; none unless there is space for all of them (R303). -/
def State.spillBin (s : State) (d : Nat) (ts : List Thread) : Option State :=
  ts.foldl (fun o t => match o with | some u => u.overflow d t | none => none) (some s)

/-- Clear a core (R433): dirty core-private lines are written back, leases surrendered, everything else zero but what only
system software clears: CHSTAT.ERR of its chains and MXERR (R323, R336). -/
def State.clearCore (s : State) (core : Nat) (ctx : Option Nat) : State :=
  ((s.l1Empty core).modCore core fun c =>
    { ({} : Core) with
      ctx := ctx, stamp := c.stamp, f64Busy := c.f64Busy, mxSoft := c.mxSoft, mxHard := c.mxHard
      copy := { err := c.copy.err }, gath := { err := c.gath.err }, coll := { err := c.coll.err } })

/-- Whether the chains of a core are empty, so that it may pass (R324, R433). -/
def Core.idle (c : Core) : Bool :=
  c.copy.entries.isEmpty && c.gath.entries.isEmpty && c.coll.entries.isEmpty && c.copy.fin.isEmpty && c.gath.fin.isEmpty &&
  c.coll.fin.isEmpty && c.mchain.isEmpty && c.follows.isEmpty

/-! Groups of launches and cards (R349, R352, R356 to R359). -/

/-- Image size of a group to be restored. -/
def Redo.size (r : Redo) (l : Launch) : Nat :=
  if r.kind = .launch then 1280 + l.waves * waveBlock l.regs + l.scr else 1280 + waveBlock r.regs

/-- A saved group is restored from the eviction area as GREST restores it (R310, R385). -/
def State.startSaved (s : State) (d key core : Nat) (r : Redo) (role : Option Nat) : State :=
  let l := (s.die d).launches.get key {}
  let gid := s.nextId
  let g : Group :=
    if r.kind = .launch then { l.group r.index role with restore := false, recs := r.recs }
    else { ctx := l.ctx, lid := l.lid, kind := r.kind, stage := r.stage, index := r.index, regs := r.regs, joins := r.joins }
  let s1 := s.startGroup core g (if r.kind = .launch then l.waves else 1) r.entry 0 id
  let s2 := s1.restoreImage gid fun o n => s1.agentRead (r.img + o) (s1.ownKey (r.img + o)) n
  if r.kind = .launch then s2.bindPlates d key r.index core else s2

/-- A group that can be started: its index, and what starts it on a core with a matrix role. -/
abbrev Starter := Nat × (State → Nat → Option Nat → State)

/-- Matrix role that a group of a launch takes on a core (R349). -/
def State.roleFor (s : State) (l : Launch) (g core : Nat) : Option Nat :=
  if l.mtx = 0 then none else if l.mtx = 2 then some (g % 2) else (s.freeRoles core).head?

/-- Whether a core has the matrix roles that groups of a launch ask for (R349). -/
def State.rolesOk (s : State) (l : Launch) (gs : List Nat) (core : Nat) : Bool :=
  l.mtx == 0 || (if l.mtx = 2 then gs.all fun g => (s.freeRoles core).contains (g % 2) else gs.length ≤ (s.freeRoles core).length)

/-- Cores of the resident groups of a launch whose index satisfies a test: the partners that a group is to stand beside (R209,
R349). -/
def State.partners (s : State) (d key : Nat) (p : Nat → Bool) : List Nat :=
  (s.groups.filter fun e => dieOf e.2.core == d && 1024 * e.2.ctx + e.2.lid == key && e.2.kind == .launch && p e.2.index).map (·.2.core)

/-- Start groups together on one core, the first from the core pointer with room for them that their plate levels permit and
that has their matrix roles (R211, R349, R358); `ok` says which cores come into question. -/
def State.placeOn (s : State) (d : Nat) (l : Launch) (ok : Nat → Bool) (es : List Starter) : Option State :=
  let gs := es.map (·.1)
  ((s.scan d).find? fun c =>
    s.fits c l gs.length l.waves l.regs l.scr l.nbar false && (gs.all fun g => s.plateOk l g c) && s.rolesOk l gs c && ok c).map fun c =>
      (es.foldl (fun u e => e.2 u c (u.roleFor l e.1 c)) s).passPtr d c

/-- An idle core in service passes to a context; its bins go to the rings first (R299, R358, R433). -/
def State.passCore (s : State) (core ctx : Nat) : Option State :=
  let c := s.core core
  if !(s.groupsOn core).isEmpty || !c.idle || !s.inService core then none
  else
    (c.bins.foldl (fun (o : Option State) b => match o with | some u => u.spillBin (dieOf core) b.threads | none => none) (some s)).map
      fun u => u.clearCore core (some ctx)

/-- Put the groups of a gang on distinct cores of a list, ascending; with `pass` an idle core passes to the gang's context on the
way (R358, R359). -/
def State.gangOn (s : State) (l : Launch) (pass : Bool) : (cores : List Nat) → (es : List Starter) → Option State
  | _, [] => some s
  | [], _ :: _ => none
  | c :: cs, e :: es =>
    match if (s.core c).ctx = some l.ctx then some s else if pass then s.passCore c l.ctx else none with
    | none => s.gangOn l pass cs (e :: es)
    | some u =>
      if u.fits c l 1 l.waves l.regs l.scr l.nbar false && u.plateOk l e.1 c && u.rolesOk l [e.1] c then
        State.gangOn (e.2 u c (u.roleFor l e.1 c)) l pass cs es
      else s.gangOn l pass cs (e :: es)

/-- Place a gang whole on the first cluster, from the cluster pointer, that it fits, without a core of another context when
that is possible there (R358, R359, R391; log 32). Groups of the gang that are resident hold it to their cluster, on other
cores (R209). -/
def State.placeGang (s : State) (d : Nat) (l : Launch) (beside : List Nat) (es : List Starter) : Option State :=
  let ring := (List.range 16).map fun i => ((s.die d).clusPtr + i) % 16
  ((match beside with | c :: _ => [c % 64 / 4] | [] => ring).findSome? fun k =>
    let cores := ((List.range 4).map fun i => 64 * d + 4 * k + i).filter fun c => !beside.contains c
    match (match s.gangOn l false cores es with | some u => some u | none => s.gangOn l true cores es) with
    | some u => some (u.modDie d fun x => { x with clusPtr := (k + 1) % 16 })
    | none => none)

/-- Place groups of a launch that must be admitted together: a gang, a pair of matrix roles, or one group, beside the partners
that are resident (R209, R349, R358, R359). -/
def State.placeTogether (s : State) (d key : Nat) (l : Launch) (es : List Starter) : Option State :=
  let g := (es.headD (0, fun u _ _ => u)).1
  if !(l.levelsOf 3).isEmpty then s.placeGang d l (s.partners d key fun i => i / l.gang == g / l.gang) es
  else if l.mtx = 2 then
    let by2 := s.partners d key fun i => i / 2 == g / 2
    s.placeOn d l (fun c => by2.all (· == c)) es
  else s.placeOn d l (fun _ => true) es

/-- The indices of a launch that must be admitted together with an index, among those that wait for dispatch (R209, R349). Where R208 deals
the groups of one gang to several dies, each die's share is a gang of its own (log 121). -/
def Launch.mates (l : Launch) (g : Nat) (waits : Nat → Bool) : List Nat :=
  if !(l.levelsOf 3).isEmpty then ((List.range l.gang).map (g / l.gang * l.gang + ·)).filter waits
  else if l.mtx = 2 then [g / 2 * 2, g / 2 * 2 + 1].filter waits
  else [g]

/-- Place the group of a launch with index `g`, with the groups that must be admitted with it; `waits` says which
indices wait for dispatch. The answer tells which were placed (R349, R358, R359). -/
def State.placeIndex (s : State) (d key g : Nat) (waits : Nat → Bool) : Option (State × List Nat) :=
  let l := (s.die d).launches.get key {}
  let gs := l.mates g waits
  (s.placeTogether d key l (gs.map fun i => (i, fun u c role => u.startIndex d key i c role))).map fun u => (u, gs)

/-- Cores of a die that are in service. -/
def State.servingCores (s : State) (d : Nat) : Nat := ((List.range 64).filter fun i => s.inService (64 * d + i)).length

/-- Records of a card's next chunk (R352). -/
def State.chunk (s : State) (d : Nat) (l : Launch) : Nat :=
  let rest := l.nrec - l.dealt
  let n := s.servingCores d
  let cores := if l.ncore = 0 then n else min l.ncore n
  min rest (max l.minc ((rest + 2 * cores - 1) / (2 * cores)))

/-- The group of a chunk starts: its index, first record and number of records (R352). -/
def State.startChunk (s : State) (key core index first n : Nat) (role : Option Nat) : State :=
  let l := (s.die (dieOf core)).launches.get key {}
  s.startGroup core { l.group index role with recs := (first, n) } l.waves l.entry (lowLanes l.lanes)
    fun w => ((w.setS64 0 (BitVec.ofNat 64 (l.args.toNat + l.rsz * first))).setS 2 (BitVec.ofNat 32 n)).setS 3 (BitVec.ofNat 32 first)

/-- The next chunks of a card that must be admitted together, with first record and number of records: one, or two for the
matrix roles of a pair (R349, R352). -/
def State.nextChunks (s : State) (d : Nat) (l : Launch) : List (Nat × Nat × Nat) :=
  let n := s.chunk d l
  let m := s.chunk d { l with dealt := l.dealt + n }
  if n = 0 then []
  else if l.mtx = 2 ∧ l.next % 2 = 0 ∧ m ≠ 0 then [(l.next, l.dealt, n), (l.next + 1, l.dealt + n, m)]
  else [(l.next, l.dealt, n)]

/-- Form and place the next chunk of a ready card (R352). -/
def State.placeChunk (s : State) (d key : Nat) : Option State :=
  let l := (s.die d).launches.get key {}
  let cs := s.nextChunks d l
  if cs.isEmpty then none
  else
    (s.placeTogether d key l (cs.map fun e => (e.1, fun u c role => u.startChunk key c e.1 e.2.1 e.2.2 role))).map fun u =>
      u.modLaunch d key fun x => { x with next := x.next + cs.length, dealt := x.dealt + (cs.map (·.2.2)).sum }

/-- Whether a launch may dispatch now (R342, R351). -/
def State.dispatchable (s : State) (d : Nat) (l : Launch) : Bool :=
  l.phase == .ready && l.cready && s.placing d l.ctx && !(s.die d).meshDown

/-- Restore a saved group, with the saved groups that must be admitted with it (R209, R310, R349, R385). -/
def State.placeSaved (s : State) (d key : Nat) (r : Redo) : Option State :=
  let l := (s.die d).launches.get key {}
  let drop := fun (u : State) (rs : List Redo) => u.modLaunch d key fun x => { x with redo := x.redo.filter fun e => !rs.contains e }
  if r.kind = .launch then
    let all := l.redo.filter fun e => e.saved && e.kind == .launch
    let rs := (l.mates r.index fun i => all.any fun e => e.index == i).filterMap fun i => all.find? fun e => e.index == i
    (s.placeTogether d key l (rs.map fun e => (e.index, fun u c role => u.startSaved d key c e role))).map fun u => drop u rs
  else
    ((s.scan d).find? fun c => s.fits c l 1 1 r.regs 0 0 true).map fun c => drop ((s.startSaved d key c r none).passPtr d c) [r]

/-- Place the next group of a launch, card or saved group: groups dispatched again go first (R207, R357), and before any other
group of the context those that a pre-emption saved (R385). -/
def State.placeNext (s : State) (d key : Nat) : Option State :=
  let l := (s.die d).launches.get key {}
  if !s.dispatchable d l then none
  else
    match l.redo.find? (·.first) with
    | some r => s.placeSaved d key r
    | none =>
      if s.restoring d l.ctx then none
      else
        match l.redo with
        | r :: _ =>
          if r.saved then s.placeSaved d key r
          else
            let waits := fun i => l.redo.any fun e => !e.saved && e.index == i
            let gs := l.mates r.index waits
            let recs := fun i => ((l.redo.find? fun e => !e.saved && e.index == i).getD {}).recs
            (s.placeTogether d key l (gs.map fun i =>
              (i, fun u c role => if l.kind = .card then u.startChunk key c i (recs i).1 (recs i).2 role else u.startIndex d key i c role))).map fun u =>
                u.modLaunch d key fun x => { x with redo := x.redo.filter fun e => e.saved || !gs.contains e.index }
        | [] =>
          if l.kind = .card then s.placeChunk d key
          else if l.kind = .pipeline then none
          else
            match (List.range l.groups).find? fun i => l.next ≤ i && l.serves i with
            | none => none
            | some g =>
              (s.placeIndex d key g fun i => l.next ≤ i && i < l.groups && l.serves i).map fun p =>
                p.1.modLaunch d key fun x => { x with next := (p.2.foldl max g) + 1 }

/-! The classes (R356). -/

/-- Class 1 or 2: a closed bin of messages or of threads, or the head of a ring of some context. -/
def State.placeThreads (s : State) (d : Nat) (msg : Bool) (n : Nat) : Option State :=
  let bins := ((List.range 64).map fun i => 64 * d + i).map fun c =>
    (List.range (s.core c).bins.length).filterMap fun k =>
      if ((s.core c).bins.getD k {}).msg == msg then s.admitBin c k else none
  let rings := (if msg then (s.die d).mring else (s.die d).spill).filterMap fun e => s.takeRing d e.1 msg
  let all := bins.flatten ++ rings
  all[n % all.length]?

/-- Records that a stage gives a group now: 32, or what its ring holds once the head record has waited (R354). -/
def Stage.ready (g : Stage) : Nat := if 32 ≤ g.tail - g.head then 32 else if g.left = 0 then g.tail - g.head else 0

/-- Class 3: a stage with 32 records, or with fewer that have waited long enough. -/
def State.placeStage (s : State) (d n : Nat) : Option State :=
  let all := ((s.die d).launches.map fun e => (List.range e.2.stages.length).filterMap fun k =>
    s.takeStage d e.1 k (e.2.stages.getD k {}).ready).flatten
  all[n % all.length]?

/-- Launches of a die by PRIO, highest first, and then in the order in which they were taken (R356). -/
def Die.launchOrder (x : Die) : List Nat :=
  ((x.launches.mergeSort fun a b => b.2.prio < a.2.prio || (a.2.prio == b.2.prio && a.2.order ≤ b.2.order)).map (·.1))

/-- Class 4. -/
def State.placeLaunch (s : State) (d : Nat) : Option State := (s.die d).launchOrder.findSome? fun k => s.placeNext d k

/-- The placement that each class could make, classes 1 to 4. -/
def State.classes (s : State) (d n : Nat) : List (Option State) :=
  [s.placeThreads d true n, s.placeThreads d false n, s.placeStage d n, s.placeLaunch d]

/-- After a dispatcher decision the cores of a plate whose reset passed are in service again (R390). -/
def State.rejoin (s : State) (d : Nat) : State :=
  s.modDie d fun x => { x with plates := x.plates.filter fun e => e.2 != 4 }

/-- Classes, numbered from 0, that have a group which can be admitted. -/
def readyClasses (cs : List (Option State)) : List Nat := (List.range 4).filter fun k => (cs.getD k none).isSome

/-- The class that a decision serves: the lowest one, but first one that could have been served at 64 decisions in a row (R356). -/
def Die.serves (x : Die) (cs : List (Option State)) : Option Nat :=
  match (readyClasses cs).find? fun k => 64 ≤ x.starve.get k 0 with
  | some k => some k
  | none => (readyClasses cs).head?

/-- The state `u` after a decision of a die that served class `k`: the other ready classes have waited once more (R356). -/
def State.decided (s : State) (die k : Nat) (cs : List (Option State)) (u : State) : State :=
  (u.modDie die fun y =>
    { y with starve := ((readyClasses cs).filter (· != k)).map fun j => (j, (s.die die).starve.get j 0 + 1) }).rejoin die

/-- One decision of a die's dispatcher (R356). -/
def execDispatchDecision (die : Nat) (s : State) : Out :=
  let p := s.choose
  let cs := p.2.classes die p.1
  match (s.die die).serves cs with
  | none => .next ((s.modDie die fun y => { y with starve := [] }).rejoin die)
  | some k => .next (s.decided die k cs ((cs.getD k none).getD s))

/-- STAGE_PARTIAL_TAKE: a decision of the dispatcher serves class 3 with a stage whose head record has waited 512 ac, so that
fewer than 32 records are taken (R354, R356). -/
def execStagePartialTake (die key stage : Nat) (s : State) : Out :=
  let g := ((s.die die).launches.get key {}).stages.getD stage {}
  let cs := s.classes die 0
  if g.tail - g.head < 32 ∧ g.left = 0 ∧ (s.die die).serves cs = some 2 then
    match s.takeStage die key stage (g.tail - g.head) with
    | some u => .next (s.decided die 2 cs u)
    | none => .next s
  else .next s

/-- STAGE_GOVERNOR_TICK: every 100 rc ticks each stage's allowance follows its occupancy (R355). -/
def Stage.govern (g : Stage) : Stage :=
  let n := g.tail - g.head
  { g with allowance := if g.high < n then min g.maxc (g.allowance + 1) else if n < g.low then max g.minc (g.allowance - 1) else g.allowance }

/-- STAGE_GOVERNOR_TICK (R355). -/
def execStageGovernorTick (die : Nat) (s : State) : Out :=
  if (s.die die).govLeft ≠ 0 then .next s
  else
    .next (s.modDie die fun x =>
      { x with govLeft := 100, launches := x.launches.map fun e => (e.1, { e.2 with stages := e.2.stages.map Stage.govern }) })

/-- Whether some work of a context waits that no core has room for now (R358). -/
def State.wantsCore (s : State) (d ctx : Nat) : Bool :=
  s.placing d ctx &&
  (((s.die d).spill.get ctx (0, 0)).1 < ((s.die d).spill.get ctx (0, 0)).2 && (s.takeRing d ctx false).isNone ||
   ((s.die d).mring.get ctx (0, 0)).1 < ((s.die d).mring.get ctx (0, 0)).2 && (s.takeRing d ctx true).isNone ||
   (s.die d).launches.any fun e =>
     e.2.ctx == ctx && s.dispatchable d e.2 &&
     (((e.2.kind != .pipeline && (!e.2.redo.isEmpty || (if e.2.kind = .card then e.2.dealt < e.2.nrec else
        (List.range e.2.groups).any fun i => e.2.next ≤ i && e.2.serves i))) && (s.placeNext d e.1).isNone) ||
      (List.range e.2.stages.length).any fun k => (e.2.stages.getD k {}).head < (e.2.stages.getD k {}).tail &&
        (s.takeStage d e.1 k (min 32 ((e.2.stages.getD k {}).tail - (e.2.stages.getD k {}).head))).isNone))

/-- CORE_CONTEXT_PASS: an idle core in service passes to a context whose work fits no core of it; its bins go to
the rings first (R299, R358, R433). -/
def execCoreContextPass (core ctx : Nat) (s : State) : Out :=
  if 256 ≤ core || (s.core core).ctx == some ctx || !s.wantsCore (dieOf core) ctx then .next s
  else .next ((s.passCore core ctx).getD s)

/-! Bins (R301, R303). -/

/-- BIN_WINDOW_EXPIRY: the gathering window of an open bin has ended (R301). -/
def execBinWindowExpiry (core k : Nat) (s : State) : Out :=
  .next (s.modCore core fun c =>
    match c.bins[k]? with
    | some b => if !b.closed && b.left == 0 then { c with bins := c.bins.set k { b with closed := true } } else c
    | none => c)

/-- BIN_ADMIT: a closed bin's group is admitted to its own core, or its threads go to the ring (R303). -/
def execBinAdmit (core k : Nat) (s : State) : Out :=
  match s.admitBin core k with
  | some u => .next u
  | none =>
    match (s.core core).bins[k]? with
    | none => .next s
    | some b =>
      if !b.closed then .next s
      else
        match s.spillBin (dieOf core) b.threads with
        | some u => .next (u.modCore core fun c => { c with bins := c.bins.eraseIdx k })
        | none => .next s

/-- The core whose huddle R312 chooses for a message, among those that hold groups of the context. -/
def State.msgCore (s : State) (d : Nat) (t : Thread) : Option Nat :=
  let tgt := field t.desc.toNat 16 8
  let all := (List.range 64).map (64 * d + ·)
  let cand := all.filter fun c =>
    s.inService c && ((s.groupsOn c).any fun e => e.2.ctx == t.ctx) &&
    (match field t.desc.toNat 14 2 with
     | 0 => c == tgt
     | 1 => plateOf c == tgt
     | _ => true)
  let load := fun c => ((s.core c).bins.map fun b => b.threads.length).sum
  cand.foldl (fun b c => match b with | some x => if load c < load x then some c else some x | none => some c) none

/-- Messages on their way to a die over its links (R408). -/
def State.msgsTo (s : State) (d : Nat) : Nat :=
  (s.pkts.filter fun p => p.dst == d && (match p.body with | .msg _ => true | _ => false)).length

/-- AMSG_DELIVERY: the oldest message of a die's unit crosses the link to its target's die when that has room for it, or is placed in a
huddle or the message ring (R312, R313, R408). -/
def execAmsgDelivery (die : Nat) (s : State) : Out :=
  match (s.die die).msgs with
  | [] => .next s
  | t :: r =>
    let s1 := s.modDie die fun x => { x with msgs := r }
    if t.tdie ≠ die then
      if (s.die t.tdie).msgs.length + s.msgsTo t.tdie < 256 then .next (s1.sendPkt die t.tdie (.msg t)) else .next s
    else
      match (match s.msgCore die t with
             | some c => ((s1.core c).huddle t []).map fun b => s1.modCore c fun x => { x with bins := b.1 }
             | none => none) with
      | some u => .next u
      | none => .next ((s1.msgPut die t).getD s)

/-! Eviction by the scheduler (R310, R311). -/

/-- Whether a path of a wave keeps its group from counting as stalled: one that does not wait in JOIN, MWAIT or a
SPAWN lane for a full ring (R310). -/
def Path.stuck (p : Path) : Bool :=
  match p.status with
  | .wait (.join _) _ _ => true
  | .wait .mwait _ _ => true
  | .wait (.spawn _) _ _ => true
  | _ => false

/-- Groups of a context on a die. -/
def State.groupsOf (s : State) (d ctx : Nat) : List (Nat × Group) := s.groups.filter fun e => dieOf e.2.core == d && e.2.ctx == ctx

/-- Whether every wave of a group waits as R310 says: each live lane in JOIN, MWAIT or a stalled SPAWN. -/
def State.groupStuck (s : State) (g : Group) : Bool :=
  g.phase == .running && g.keys.all fun k => (s.wave k).live == 0 || (s.wave k).paths.all Path.stuck

/-- Whether a group of threads can start on some core of a die: one of its context with room, or an idle one that can pass to the
context (R303, R306, R358). -/
def State.roomFor (s : State) (d : Nat) (t : Thread) : Bool :=
  (s.scan d).any fun c => s.fitsThreads d c t || (s.passCore c t.ctx).isSome

/-- The closed bins of spawned threads of a context on a die, each with its core (R303). -/
def State.closedBins (s : State) (d ctx : Nat) : List (Nat × Bin) :=
  ((List.range 64).map fun i => ((s.core (64 * d + i)).bins.filter fun b =>
    b.closed && !b.msg && (b.threads.headD {}).ctx == ctx).map fun b => (64 * d + i, b)).flatten

/-- Whether the spill ring of a context takes another record (R304). -/
def State.ringSpace (s : State) (d ctx : Nat) : Bool :=
  match s.spillRing d ctx with
  | some (_, n) => ((s.die d).spill.get ctx (0, 0)).2 - ((s.die d).spill.get ctx (0, 0)).1 < 2 ^ n
  | none => false

/-- The queued spawned work of a context: the oldest thread of each closed bin and of the ring's head, with whether its group can be
admitted on some core. A bin's own core takes it, and any core through the ring (R303, R306, R310). -/
def State.queuedWork (s : State) (d ctx : Nat) : List (Thread × Bool) :=
  let ring := (s.die d).spill.get ctx (0, 0)
  ((s.closedBins d ctx).map fun e =>
    let t := e.2.threads.headD {}
    (t, s.fitsThreads d e.1 t || (s.ringSpace d ctx && s.roomFor d t))) ++
  if ring.1 < ring.2 then let t := s.ringThread d ctx false ring.1; [(t, s.roomFor d t)] else []

/-- The deadlock condition of a context on a die: all its waves wait, spawned work is queued, and none of it can be admitted
(R310). -/
def State.deadlocked (s : State) (d ctx : Nat) : Bool :=
  let gs := s.groupsOf d ctx
  let work := s.queuedWork d ctx
  !gs.isEmpty && (gs.all fun e => s.groupStuck e.2) && !work.isEmpty && work.all fun e => !e.2

/-- Whether the oldest queued spawned group of a context does not fit yet (R310). -/
def State.oldestWaits (s : State) (d ctx : Nat) : Bool :=
  let work := s.queuedWork d ctx
  match work with
  | [] => false
  | e :: r => !(r.foldl (fun b x => if x.1.born < b.1.born then x else b) e).2

/-- The eviction area of a context: first byte and size (R310, R432). -/
def State.evictArea (s : State) (d ctx : Nat) : Nat × Nat :=
  let x := s.die d
  match physOf d (field (x.ctxReg ctx 0x20) 12 38 * 4096) with
  | some b => let n := field (x.ctxReg ctx 0x28) 0 32 * 4096; if s.localRange d b n then (b, n) else (0, 0)
  | none => (0, 0)

/-- Bytes of a context's eviction area that hold images: none when no saved group of it is queued. -/
def State.evictUsed (s : State) (d ctx : Nat) : Nat :=
  if (s.die d).launches.any fun e => e.2.ctx == ctx && e.2.redo.any (·.saved) then (s.die d).evUsed.get ctx 0 else 0

/-- A group leaves its core: slots, reservations, roles and possession are free (R185, R188, R226). -/
def State.freeGroup (s : State) (gid : Nat) : State :=
  let g := s.group gid
  let s1 := if (s.core g.core).poss = some gid then s.handover g.core gid else s
  let s2 := g.keys.foldl (fun u k => { u with waves := u.waves.del k }) s1
  { s2 with groups := s2.groups.del gid }

/-- Save a group into the eviction area and queue it for restore (R310, R385); none when it cannot be saved
there now; in debug halt the groups of a die stay as they are (R423). -/
def State.evictGroup (s : State) (d gid : Nat) : Option State :=
  let g := s.group gid
  let area := s.evictArea d g.ctx
  let used := s.evictUsed d g.ctx
  if (s.die d).dbg ∨ !g.resv.isEmpty ∨ g.phase ≠ .running ∨ g.follow ≠ 0 ∨ !s.canSave gid ∨ area.2 < used + g.imageSize ∨ 14 < g.held.length then none
  else
    let at0 := area.1 + used
    let put := fun (u : State) (o n v : Nat) => u.agentWrite (at0 + o) n (u.ownKey (at0 + o)) v
    let s1 := (List.range (g.imageSize / 128)).foldl (fun u i => put u (128 * i) 128 0) s
    let s2 := ((s.imagePieces gid).foldl (fun u e => put u e.1 e.2.1 e.2.2) s1).cancelWaits gid
    let r : Redo := { index := g.index, img := at0, saved := true, kind := g.kind, stage := g.stage, recs := g.recs, joins := g.joins, regs := g.regs }
    let s3 := (s2.modDie d fun x => { x with evUsed := x.evUsed.set g.ctx (used + g.imageSize) }).modLaunch d (1024 * g.ctx + g.lid)
      fun l => { l with redo := l.redo ++ [r] }
    some ({ s3 with ops := s3.ops.filter fun o => o.gid != gid }.freeGroup gid)

/-- Groups that the records of the spill ring from a place on would form (R306). -/
def State.ringGroups (s : State) (d ctx i : Nat) : (fuel : Nat) → Nat
  | 0 => 0
  | n + 1 =>
    let stop := ((s.die d).spill.get ctx (0, 0)).2
    if stop ≤ i then 0
    else
      let run := s.ringRun d ctx false (s.ringThread d ctx false i).binKey i (min 32 (stop - i))
      1 + s.ringGroups d ctx (i + max 1 run.length) n

/-- Queued spawned groups of a context on a die: closed bins, and what the ring's records form (R306, R378). -/
def State.queuedGroups (s : State) (d ctx : Nat) : Nat :=
  let ring := (s.die d).spill.get ctx (0, 0)
  (((List.range 64).map fun i => (s.core (64 * d + i)).bins).flatten.filter fun b =>
    b.closed && !b.msg && (b.threads.headD {}).ctx == ctx).length + s.ringGroups d ctx ring.1 (ring.2 - ring.1)

/-- The waiting group of a context without a reservation that was admitted most recently (R310). -/
def State.evictee (s : State) (d ctx : Nat) : Option (Nat × Group) :=
  ((s.groupsOf d ctx).filter fun e => e.2.resv.isEmpty && s.groupStuck e.2).foldl
    (fun b e => match b with | some x => if x.2.started < e.2.started then some e else b | none => some e) none

/-- SPAWN_DEADLOCK_EVICTION: the condition has held for 1,000 rc ticks. The scheduler evicts the most recently
admitted waiting group without a reservation, as soon as its own memory words are over, again until the oldest queued group fits;
with no such group, or no room in the eviction area, it writes one spawn-stall record (R310, R311). -/
def execSpawnDeadlockEviction (die ctx : Nat) (s : State) : Out :=
  let held := (s.die die).stall.get ctx 0
  let set := fun (u : State) (n : Nat) => u.modDie die fun x => { x with stall := x.stall.set ctx n }
  if held ≤ 1000 ∨ !s.placing die ctx ∨ !(if held = 1003 then s.oldestWaits die ctx else s.deadlocked die ctx) then .next s
  else
    let room : Bool := match s.evictee die ctx with
      | some (_, g) => s.evictUsed die ctx + g.imageSize ≤ (s.evictArea die ctx).2
      | none => false
    if room then .next (((s.evictGroup die (((s.evictee die ctx).getD (0, {})).1)).map fun u => set u 1003).getD s)
    else if held = 1002 then .next s
    else .next (set (s.logCtx die ctx 0x26 0 (s.queuedGroups die ctx)) 1002)

end Sys2Proof.Machine
end

