-- ==== Sys2Proof/Machine/Command.lean ====
section
/-! DEFINITION. The commands of a die's control region that act on pages, translations, versioned regions, heaps,
keys and context records: R247, R248, R252 to R254, R284 to R288, R293, R432 to R436. -/

namespace Sys2Proof.Machine

/-- A store to a die's control region does nothing until the die is ready (R439). -/
def State.whenUp (s : State) (d : Nat) (u : State) : Out := if (s.die d).br = 4 then .next u else .next s

/-! Accesses on their way (R247, R252). -/

/-- Whether a word's accesses go to memory, not to the scratchpad. -/
def MemOp.toMem (o : MemOp) : Bool := o.kind != .spld && o.kind != .spst
/-- Whether an access has still to be performed. -/
def Acc.going (a : Acc) : Bool := a.st == .pend || a.st == .waitVer || a.st == .back

/-- Whether an access past translation has still to be performed at one of these places. -/
def State.goingTo (s : State) (p : Nat → Bool) : Bool :=
  s.ops.any fun o => o.toMem && o.accs.any fun a => a.going && a.leaf != 0 && p a.pa

/-! Pages. -/

/-- What a walk meets at its end: a leaf with its place and level, an entry with V = 0, a table fault, or a table page under
migration, for which it waits (R255). -/
inductive Loc where
  | leaf (pa e lvl : Nat)
  | fault
  | table
  | wait
  deriving DecidableEq, Repr

/-- The walk of R236 down to the entry that ends it. -/
def State.locFrom (s : State) (d va base lvl : Nat) : (fuel : Nat) → Loc
  | 0 => .table
  | fuel + 1 =>
    let pa := base + 8 * (va / 2 ^ (12 + 9 * lvl) % (if lvl = 4 then 64 else 512))
    let e := s.entryAt pa
    if (s.die d).migr.contains (pa / 4096) then .wait
    else if !leafV e then .fault
    else if leafLeaf e then .leaf pa e lvl
    else if lvl = 0 ∨ nonLeafBad s d e then .table
    else
      match physOf d (leafPfn e * 4096) with
      | some b => s.locFrom d va b (lvl - 1) fuel
      | none => .table

/-- Where a context's tables on a die map a page. -/
def State.loc (s : State) (d ctx va : Nat) : Loc :=
  if !(s.die d).ctxValid ctx then .fault
  else if !s.tableAt d (field ((s.die d).ctxReg ctx 0) 9 41 * 512) then .table
  else
    match physOf d (field ((s.die d).ctxReg ctx 0) 9 41 * 512) with
    | some b => s.locFrom d va b 4 5
    | none => .table

/-- Bytes of the page that a leaf maps: 4 KiB, 64 KiB, 2 MiB or 1 GiB (R236). -/
def pageBytes (e lvl : Nat) : Nat := if leafContig e ∧ lvl = 0 then 65536 else 4096 * 512 ^ lvl

/-- A leaf with another CC, PIN and VER. -/
def reclass (e cc pin ver : Nat) : Nat :=
  e - leafCC e * 2 ^ 61 - leafPin e * 2 ^ 57 - field e 60 1 * 2 ^ 60 + cc * 2 ^ 61 + pin * 2 ^ 57 + ver * 2 ^ 60

/-- Whether a launch pins a page: it lies in the code range or in an extent (R254, R348). -/
def Launch.pins (l : Launch) (page : Nat) : Bool :=
  l.pages.has page &&
  ((l.entry.toNat / 4096 ≤ page && page ≤ (l.entry.toNat + l.codelen - 1) / 4096) ||
   l.exts.any fun e => e.va.toNat / 4096 ≤ page && page ≤ (e.va.toNat + e.len - 1) / 4096)

/-- Whether a page range of a context is pinned on a die: by a launch, or as a chunk of the heap (R254, R293). -/
def State.pinned (s : State) (d ctx first n : Nat) : Bool :=
  ((s.die d).launches.any fun e => e.2.ctx == ctx && e.2.pages.any fun p => first ≤ p.1 && p.1 < first + n && e.2.pins p.1) ||
  (s.heap d ctx).chunks.any fun c => c.1 / 4096 < first + n && first * 4096 < c.1 + c.2

/-- Drop the translations of a die that satisfy a test on context, page and leaf: TLBs of cores and plates (R252). -/
def State.dropTlbs (s : State) (d : Nat) (p : (ctx page leaf : Nat) → Bool) : State :=
  let s1 := { s with
    cores := s.cores.map fun (q : Nat × Core) =>
      (q.1, if dieOf q.1 = d then { q.2 with tlb := q.2.tlb.filter fun e => !p (q.2.ctx.getD 0) e.1 e.2.toNat } else q.2) }
  s1.modDie d fun x => { x with l2tlb := x.l2tlb.filter fun e => !p (field e.1 42 12) (e.1 % 2 ^ 42) e.2.toNat }

/-- Disarm every monitor that watches one of these lines (R156). -/
def State.disarmLines (s : State) (p : Nat → Bool) : State :=
  { s with
    waves := s.waves.map fun (q : Nat × Wave) =>
      (q.1, { q.2 with
        mons := q.2.mons.map fun (m : Nat × Mon) => (m.1, if p m.2.line then { m.2 with armed := false, trig := false } else m.2) }) }

/-- Copies of a physical range leave every L1, lease, remote slice and directory; dirty bytes go to memory (R247 steps 2 and 3). -/
def State.dropRange (s : State) (b n : Nat) : State :=
  let inR := fun line => b / 128 ≤ line && line < (b + n) / 128
  let s1 := s.cores.foldl (fun u c => c.2.l1.foldl (fun v e => if inR e.1 then v.backLine e.1 e.2 else v) u) s
  let s2 := { s1 with
    cores := s1.cores.map fun (q : Nat × Core) =>
      (q.1, { q.2 with l1 := q.2.l1.filter fun e => !inR e.1, leases := q.2.leases.filter fun l => !inR l }) }
  (s2.dir.filter fun e => inR e.1).foldl (fun u e => u.recallCopies e.1) (s2.disarmLines fun l => inR l && s2.dir.has l)

/-- The owner-table entries of a physical range go (R247 step 3). -/
def State.dropOwners (s : State) (b n : Nat) : State :=
  s.modDie (b / 2 ^ 48) fun x => { x with owners := x.owners.filter fun e => !(b / 4096 ≤ e.1 && e.1 < (b + n) / 4096) }

/-- The instruction caches drop the clauses that they fetched from a frame (R169, R434). -/
def State.dropCode (s : State) (frame : Nat) : State :=
  { s with
    cores := s.cores.map fun (q : Nat × Core) =>
      let d := dieOf q.1
      let here := fun (va : Nat) =>
        ((s.die d).launches.any fun l => l.2.ctx == q.2.ctx.getD 4096 && l.2.pages.has (va / 4096) &&
          leafPhys d (l.2.pages.get (va / 4096) 0).toNat va == some (frame / 4096 * 4096 + va % 4096)) ||
        (match s.walk d (q.2.ctx.getD 4096) va with
         | .leaf w => leafPhys d w va == some (frame / 4096 * 4096 + va % 4096)
         | _ => false)
      (q.1, { q.2 with icache := q.2.icache.filter fun e => !(here e.1 || here (e.1 + 31)) }) }

/-- The leaf of a page gets a new CC, PIN and VER, after every translation and copy of the page is gone (R247). A CONTIG leaf among sixteen
that form no 64 KiB page still names the range for the command: all sixteen entries are rewritten (R236, R248; log 117). -/
def State.setClass (s : State) (d ctx va : Nat) (cc pin ver : Option Nat) : State :=
  match s.loc d ctx va with
  | .leaf pa e lvl =>
    let n := pageBytes e lvl
    let es := if leafContig e ∧ lvl = 0 then (List.range 16).map fun i => pa / 128 * 128 + 8 * i else [pa]
    let upd := fun e => reclass e (cc.getD (leafCC e)) (pin.getD (leafPin e)) (ver.getD (field e 60 1))
    let b := ((leafPhys d (leafAt e lvl (va / n * n)) (va / n * n)).getD 0) / n * n
    let hit := fun (x leaf : Nat) => match leafPhys x leaf 0 with | some q => b ≤ q && q < b + n | none => false
    let s1 := (List.range 4).foldl (fun u x => u.dropTlbs x fun _ _ l => hit x l) s
    let s2 := (s1.dropRange b n).dropOwners b n
    let s3 := es.foldl (fun u a => u.agentWrite a 8 (u.ownKey a) (upd (u.entryAt a))) s2
    { s3 with
      dies := s3.dies.map fun (q : Nat × Die) =>
        (q.1, { q.2 with
          launches := q.2.launches.map fun (l : Nat × Launch) =>
            (l.1, { l.2 with
              pages := l.2.pages.map fun (w : Nat × W64) => (w.1, if hit q.1 w.2.toNat then BitVec.ofNat 64 (upd w.2.toNat) else w.2) }) }) }
  | _ => s

/-! The page-class command (R247, R248). -/

/-- VPAGE and CTX of the page-class registers of a die. -/
def Die.classPage (x : Die) : Nat × Nat := (field (x.reg 0xB00000) 12 42 * 4096, field (x.reg 0xB00000) 0 12)

/-- Status with which a page-class command is refused (R247); the lowest that applies. R247 lists no status for a walk that meets a table
fault: the model answers 2, before the page is looked at (log 116). -/
def State.classRefused (s : State) (d val : Nat) : Option Nat :=
  let p := (s.die d).classPage
  if val / 64 ≠ 0 then some 2
  else
    match s.loc d p.2 p.1 with
    | .fault => some 3
    | .table | .wait => some 2
    | .leaf _ e lvl =>
      let n := pageBytes e lvl
      if (List.range 4).any fun x => s.pinned x p.2 (p.1 / n * n / 4096) (n / 4096) then some 1
      else if leafBad d lvl (reclass e (field val 0 2) (field val 2 3) (field val 5 1)) then some 2
      else none

/-- The physical range of the page that the command names. -/
def State.classRange (s : State) (d : Nat) : Nat × Nat :=
  let p := (s.die d).classPage
  match s.loc d p.2 p.1 with
  | .leaf _ e lvl =>
    let n := pageBytes e lvl
    (((leafPhys d (leafAt e lvl p.1) p.1).getD 0) / n * n, n)
  | _ => (0, 0)

/-- Waiting words and queues that watch a place lose their translation: they translate again when they next look (R247, R252;
log 115). `p` tells by die, context, page and place. -/
def State.dropWatch (s : State) (p : (d ctx page pa : Nat) → Bool) : State :=
  let acc := fun (d ctx : Nat) (a : Acc) => if p d ctx (a.va.toNat / 4096) a.pa then { a with leaf := 0 } else a
  let path := fun (d ctx : Nat) (q : Path) =>
    match q.status with
    | .wait (.join as) pend left => { q with status := .wait (.join (as.map (acc d ctx))) pend left }
    | .wait (.mon as) pend left => { q with status := .wait (.mon (as.map (acc d ctx))) pend left }
    | _ => q
  { s with
    waves := s.waves.map fun (e : Nat × Wave) =>
      (e.1, e.2.mapPaths (·.map (path (dieOf (e.1 / 64)) ((s.core (e.1 / 64)).ctx.getD 4096))))
    dies := s.dies.map fun (e : Nat × Die) =>
      (e.1, { e.2 with
        uqs := e.2.uqs.map fun (u : Nat × UQueue) =>
          (u.1, { u.2 with
            waitE := u.2.waitE.map fun w => if p e.1 (field (e.2.reg (0x200008 + 32 * u.1)) 16 12) (w.va.toNat / 4096) w.pa then { w with hit := true } else w }) }) }

/-- The page-class command's change, once every access past translation has been performed (R247). -/
def State.classEnd (s : State) (d val : Nat) : State :=
    let r := s.classRange d
    if s.loc d (s.die d).classPage.2 (s.die d).classPage.1 = .wait then s
    else if s.goingTo fun pa => r.1 ≤ pa && pa < r.1 + r.2 then s
    else
      let p := (s.die d).classPage
      let s1 := (s.setClass d p.2 p.1 (some (field val 0 2)) (some (field val 2 3)) (some (field val 5 1))).modDie d fun x =>
        { x with pcmd := none, pclass := 0 }
      (List.range 4).foldl (fun u i => u.modDie i fun x => { x with ptw := x.ptw.filter fun w => w.1 != d }) s1

/-- A page-class command whose walk has ended: it is refused, or the page's translations go and the change is made (R247). -/
def State.classStart (s : State) (d val : Nat) : State :=
  match s.classRefused d val with
  | some st => s.modDie d fun x => { x with pclass := st, pcmd := none, ptry := 0 }
  | none =>
    let p := (s.die d).classPage
    let n := match s.loc d p.2 p.1 with | .leaf _ e lvl => pageBytes e lvl | _ => 4096
    let r := s.classRange d
    let s1 := (List.range 4).foldl
      (fun u x => u.dropTlbs x fun _ _ l => match leafPhys x l 0 with | some q => r.1 ≤ q && q < r.1 + r.2 | none => false) s
    let ws := (List.range (n / 4096)).map fun i => (d, p.2, p.1 / n * n / 4096 + i)
    let s2 := (List.range 4).foldl (fun u i => u.modDie i fun x => { x with ptw := x.ptw ++ ws }) s1
    ((s2.dropWatch fun _ _ _ pa => r.1 ≤ pa && pa < r.1 + r.2).modDie d fun x => { x with pcmd := some val, ptry := 0 }).classEnd d val

/-- A page-class command goes on: the walk that met a table page under migration is made again, or the change is made once it can be
(R247, R255). -/
def State.classFinish (s : State) (d : Nat) : State :=
  match (s.die d).pcmd with
  | none => s
  | some val =>
    if (s.die d).ptry = 0 then s.classEnd d val
    else if s.loc d (s.die d).classPage.2 (s.die d).classPage.1 = .wait ∧ (s.die d).ptry ≠ 1 then s
    else s.classStart d val

/-- PAGE_CLASS_COMMAND: a store of `val` to 0x00B0_0008 (R248). Walks of the page wait on every die until it ends. -/
def State.pageClass (s : State) (d val : Nat) : State :=
  if (s.die d).pcmd.isSome then s
  else if val / 64 = 0 ∧ s.loc d (s.die d).classPage.2 (s.die d).classPage.1 = .wait then
    s.modDie d fun x => { x with pcmd := some val, ptry := 10001 }
  else s.classStart d val

/-- PAGE_CLASS_COMMAND (R247, R248). -/
def execPageClassCommand (die val : Nat) (s : State) : Out := s.whenUp die (s.pageClass die val)

/-! The invalidation command (R252, R253). -/

/-- Context, first page and pages of an invalidation; 0 pages stand for the whole context. -/
def Die.invRange (x : Die) (val : Nat) : Nat × Nat × Nat :=
  let r := x.reg 0xB00100
  if val = 0 then (field r 0 12, 0, 2 ^ 42) else (field r 0 12, field r 12 42, val)

/-- End of an invalidation, once every access under a dropped translation has been performed (R252). -/
def State.invFinish (s : State) (d : Nat) : State :=
  match (s.die d).icmd with
  | none => s
  | some val =>
    let r := (s.die d).invRange val
    if s.ops.any fun o => dieOf o.core == d && (s.group o.gid).ctx == r.1 && o.toMem &&
        o.accs.any fun a => a.going && a.leaf != 0 && r.2.1 ≤ a.va.toNat / 4096 && a.va.toNat / 4096 < r.2.1 + r.2.2 then s
    else s.modDie d fun x => { x with icmd := none, invst := 0 }

/-- INVALIDATION_COMMAND: a 32-bit store of `val` to 0x00B0_0108: the TLBs, the translations that waiting words hold and those of a
launch's unpinned pages go (R252, R253). R253 does not say which status wins when a reserved bit is set and a page is pinned: the model
answers 2 (log 118). -/
def State.invalidate (s : State) (d val : Nat) : State :=
  if (s.die d).icmd.isSome then s
  else
    let r := (s.die d).invRange val
    if field ((s.die d).reg 0xB00100) 54 10 ≠ 0 then s.modDie d fun x => { x with invst := 2 }
    else if s.pinned d r.1 r.2.1 r.2.2 then s.modDie d fun x => { x with invst := 1 }
    else
      let hit := fun (ctx page : Nat) => ctx == r.1 && r.2.1 ≤ page && page < r.2.1 + r.2.2
      (((s.dropTlbs d fun ctx page _ => hit ctx page).dropWatch fun e ctx page _ => e == d && hit ctx page).modDie d fun x =>
        { x with
          icmd := some val
          launches := x.launches.map fun (l : Nat × Launch) =>
            (l.1, { l.2 with pages := l.2.pages.filter fun q => !hit l.2.ctx q.1 || l.2.pins q.1 }) }).invFinish d

/-- INVALIDATION_COMMAND (R253). -/
def execInvalidationCommand (die val : Nat) (s : State) : Out := s.whenUp die (s.invalidate die (val % 2 ^ 32))

/-! Regions (R283 to R288). -/

/-- Virtual pages of a region. -/
def regionPages (base ngran : Nat) : List Nat :=
  if ngran = 0 then [] else (List.range ((base + 32 * ngran - 1) / 4096 + 1 - base / 4096)).map (base / 4096 + ·)

/-- Whether two byte ranges share a page. -/
def sharePage (a n b m : Nat) : Bool := n != 0 && m != 0 && a / 4096 ≤ (b + m - 1) / 4096 && b / 4096 ≤ (a + n - 1) / 4096

/-- The pages of the leaf that maps a page on a die, as first page and number of pages; the page alone when nothing maps it
(R236). -/
def State.pageOf (s : State) (d ctx p : Nat) : Nat × Nat :=
  match s.loc d ctx (p * 4096) with
  | .leaf _ e lvl => let n := pageBytes e lvl / 4096; (p / n * n, n)
  | _ => (p, 1)

/-- Whether the pages of a region on a die, of whatever size, hold part of a byte range (R236, R284). -/
def State.pagesMeet (s : State) (d ctx base ngran b m : Nat) : Bool :=
  (regionPages base ngran).any fun p => sharePage ((s.pageOf d ctx p).1 * 4096) ((s.pageOf d ctx p).2 * 4096) b m

/-- Set VER on every page of a region, through the tables of every die that map it (R247, R285, R287). -/
def State.verPages (s : State) (ctx base ngran ver : Nat) : State :=
  (List.range 4).foldl
    (fun v d =>
      (regionPages base ngran).foldl
        (fun u p =>
          match u.loc d ctx (p * 4096) with
          | .leaf _ e _ => if field e 60 1 = ver then u else u.setClass d ctx (p * 4096) none none (some ver)
          | _ => u) v) s

/-- Virtual address by which a region's granule is reached, 0 when no table maps it (R139, R283). -/
def State.granVa (s : State) (region pa : Nat) : Nat :=
  let r := s.regions.get region {}
  let hits := (List.range 4).map fun d =>
    ((regionPages r.base r.ngran).filter fun p =>
      match s.loc d (region / 64) (p * 4096) with
      | .leaf _ e lvl => (leafPhys d (leafAt e lvl (p * 4096)) (p * 4096)).getD 0 / 4096 == pa / 4096
      | _ => false).map fun p => p * 4096 + pa % 4096
  hits.flatten.headD 0

/-! Accesses that end in a trap after issue (R139, R222, R384). -/

/-- A trap that engine work gives a group; one that is gone takes none (R179, R180). A trap that is held keeps `flag` raised (R224). -/
def State.engTrap (s : State) (gid slot code eaddr : Nat) (own : Bool) (flag : Nat) : State :=
  if s.groups.has gid then
    s.trapA gid
      { code := code, eaddr := BitVec.ofNat 64 eaddr, redir := false, wave := (s.wave (waveKey (s.group gid).core slot)).wix
        flag := if s.trapHeld gid own then flag else 15 } own
  else s

/-- Flag that an ended command of a group lowers: none when its trap is held with the flag (R224, R393). -/
def State.fallNow (s : State) (gid flag : Nat) (traps own : Bool) : Nat :=
  if traps && s.groups.has gid && s.trapHeld gid own then 15 else flag

/-- An operation leaves the chain and `flag` falls. -/
def State.mxLeave (s : State) (core : Nat) (o : MxOp) (flag : Nat) : State :=
  (s.modCore core fun c => { c with mchain := c.mchain.filter fun x => x.id != o.id }).modWave (waveKey core o.slot)
    fun w => if w.gid = some o.gid ∧ !o.isFollow then w.lower flag else w

/-- An operation leaves the chain and its flag falls. -/
def State.mxDone (s : State) (core : Nat) (o : MxOp) : State := s.mxLeave core o o.flag

/-- An operation leaves the chain with a trap of its group; one that is held keeps its flag raised (R198, R224). -/
def State.mxFail (s : State) (core : Nat) (o : MxOp) (code eaddr : Nat) : State :=
  (s.mxLeave core o (s.fallNow o.gid o.flag (!o.isFollow) o.own)).engTrap o.gid o.slot code eaddr o.own (if o.isFollow then 15 else o.flag)

/-- The atomic of a drain fails: it ends without effect, and the drain ends with its data written and the engine-error trap (R180,
R196, R197). -/
def State.failAmx (s : State) (o : MemOp) : State :=
  ((s.core o.core).mchain.filter fun x => x.amxOp == o.id).foldl (fun u x => u.mxFail o.core x 0x1D x.amxVa.toNat)
    { s with ops := s.ops.filter fun x => x.id != o.id }

/-- Accesses of a word fail with a code: the trap names the lowest of the lanes and is taken or held; the flag stays
raised (R139). Of a reissued access the trap names the granule and moves no lane (R384). A group that is ending or gone takes no trap, and the
accesses complete without effect (R226). -/
def State.failAccs (s : State) (id code : Nat) (lanes : List Nat) : State :=
  match s.ops.find? fun o => o.id == id with
  | none => s
  | some o =>
    if o.mpath then s.failAmx o
    else
    let gone := !s.groups.has o.gid || (s.group o.gid).phase == .ending
    let bad := o.accs.filter fun a => lanes.contains a.lane
    let s1 := { s with
      ops := s.ops.map fun (p : MemOp) =>
        if p.id = id then
          { p with
            halted := !gone
            accs := p.accs.map fun (a : Acc) =>
              if lanes.contains a.lane then (if gone then { a with st := .done, gone := 0xFF } else { a with st := .failed, code := code }) else a }
        else p }
    if gone then s1
    else
      let addr := (bad.headD {}).va
      let ls := if o.sca then o.lanes else maskOf lanes
      let unit := if o.reiss then 32 else if code = 0x0D then 128 else 1
      let t : Trap :=
        { code := code, epc := o.pc, eaddr := BitVec.ofNat 64 (addr.toNat / unit * unit), emask := ls, own := ls
          redir := !o.reiss, wave := (s.wave (waveKey o.core o.slot)).wix, op := id }
      s1.trapA o.gid t o.own

/-- Waiting VLD.EQ accesses of the waves of one index that satisfy a test take a trap, word by word; one whose time-out has expired has
the missing-version trap coming and takes no other (R138). -/
def State.failWaitsOf (s : State) (i code : Nat) (p : MemOp → Acc → Bool) : State :=
  (s.ops.filter fun o => (s.wave (waveKey o.core o.slot)).wix == i).foldl
    (fun u o =>
      let ls := (o.accs.filter fun a => (a.st == .waitVer || a.st == .back) && a.left != 1 && p o a).map (·.lane)
      if ls = [] then u else u.failAccs o.id code ls) s

/-- Waiting VLD.EQ accesses that satisfy a test take a trap, those of a lower wave index first (R138, R224, R287). -/
def State.failWaits (s : State) (code : Nat) (p : MemOp → Acc → Bool) : State :=
  (List.range 32).foldl (fun v i => v.failWaitsOf i code p) s

/-- Region-disarm, on every die: waiting accesses take the region-state trap, each granule's newest version becomes its memory
bytes, its slots and records are freed, and VER is cleared on every page (R285, R287). -/
def State.disarmRegion (s : State) (ctx num : Nat) : State :=
  let r := s.regions.get (64 * ctx + num) {}
  let s1 := s.failWaits 0x13 fun o a => (s.group o.gid).ctx == ctx && r.base ≤ a.va.toNat && a.va.toNat < r.base + 32 * r.ngran
  let s2 := { s1 with regions := s1.regions.del (64 * ctx + num) }
  ((s2.grans.filter fun e => e.2.ctx == ctx && e.2.num == num).foldl (fun u e => u.writeBackGran e.1) s2).verPages ctx r.base r.ngran 0

/-- Whether a walk of a region's pages meets a table page under migration on some die (R255). -/
def State.regionHeld (s : State) (ctx num : Nat) : Bool :=
  let r := s.regions.get (64 * ctx + num) {}
  (List.range 4).any fun d => (regionPages r.base r.ngran).any fun p => s.loc d ctx (p * 4096) == .wait

/-- REGION_DISARM: a 64-bit store of `val` to 0x00B0_0200 of die `d`. It waits for table pages under migration, at most 100 µs; a page
whose walk still waits then keeps its VER (R255, R287, R288; log 114). -/
def State.disarmCommand (s : State) (d val : Nat) : State :=
  let ctx := field val 16 12
  let num := field val 0 6
  if (s.die d).dpend.isSome then s
  else if val / 2 ^ 28 ≠ 0 ∨ field val 6 10 ≠ 0 then s.modDie d fun x => { x with disst := 2 }
  else if !(s.regions.get (64 * ctx + num) {}).armed then s.modDie d fun x => { x with disst := 1 }
  else if s.regionHeld ctx num then s.modDie d fun x => { x with dpend := some (val, 10001) }
  else (s.disarmRegion ctx num).modDie d fun x => { x with disst := 0 }

/-- A region-disarm that waits for a table page goes on (R255, R288). -/
def State.disarmFinish (s : State) (d : Nat) : State :=
  match (s.die d).dpend with
  | none => s
  | some (val, left) =>
    if s.regionHeld (field val 16 12) (field val 0 6) ∧ left ≠ 1 then s
    else (s.disarmRegion (field val 16 12) (field val 0 6)).modDie d fun x => { x with dpend := none, disst := 0 }

/-- REGION_DISARM (R287, R288). -/
def execRegionDisarm (die val : Nat) (s : State) : Out := s.whenUp die (s.disarmCommand die val)

/-! Heap grants (R293). -/

/-- Result of a grant of `len` units at `va` on a die, 0 when it is good; of several failures the lowest number is
reported, and a page that is not software-coherent counts under 1 (log 40). -/
def State.grantRes (s : State) (d ctx va len val : Nat) : Nat :=
  let pages := (List.range (16 * len)).map (va / 4096 + ·)
  let leaf := fun p => match s.loc d ctx (p * 4096) with | .leaf _ e lvl => some (leafAt e lvl (p * 4096)) | _ => none
  if 2 ^ 54 < va + 65536 * len ∨ pages.any fun p => match leaf p with | some e => !leafW e || leafCC e != 0 | none => true then 1
  else if pages.any fun p => match leaf p with
      | some e => (match leafPhys d e (p * 4096) with
        | some q => decide (q / 2 ^ 48 ≠ d) || decide (hostBase ≤ q) || isCtl q || !s.populated q
        | none => true)
      | none => true then 2
  else if (pages.any fun p => match leaf p with | some e => leafVer e | none => true) ||
      (s.heap d ctx).chunks.any fun c => sharePage va (65536 * len) c.1 c.2 then 3
  else if len = 0 ∨ val / 2 ^ 54 ≠ 0 then 4
  else if 256 ≤ (s.heap d ctx).chunks.length then 5
  else 0

/-- The grant of a chunk, its pages translated (R293). -/
def State.grantNow (s : State) (d ctx val : Nat) : State :=
  let va := field val 16 38 * 65536
  let len := val % 65536
  let res := s.grantRes d ctx va len val
  if res ≠ 0 then s.modHeap d ctx fun h => { h with res := res }
  else
    let runs := (List.range (16 * len)).map fun i =>
      (match s.loc d ctx (va + 4096 * i) with
       | .leaf _ e lvl => (leafPhys d (leafAt e lvl (va + 4096 * i)) (va + 4096 * i)).getD 0
       | _ => 0, 64)
    s.modHeap d ctx fun h => { free := h.free ++ runs, chunks := h.chunks ++ [(va, 65536 * len)], res := 0 }

/-- Whether a walk of the pages of a grant meets a table page under migration (R255). -/
def State.grantWaits (s : State) (d ctx val : Nat) : Bool :=
  (List.range (16 * (val % 65536))).any fun i => s.loc d ctx (field val 16 38 * 65536 + 4096 * i) == .wait

/-- HEAP_GRANT: a 64-bit store of `val` to a context's heap-grant page. It waits for table pages under migration, at most 100 µs, and is
not acknowledged before; a page whose walk still waits then counts as not mapped (R255, R293; log 114). -/
def State.heapGrant (s : State) (d ctx val : Nat) : State :=
  if (s.die d).hpend.has ctx then s
  else if s.grantWaits d ctx val then s.modDie d fun x => { x with hpend := x.hpend.set ctx (val, 10001) }
  else s.grantNow d ctx val

/-- A heap grant that waits for a table page goes on (R255, R293). -/
def State.grantFinish (s : State) (d ctx : Nat) : State :=
  let e := (s.die d).hpend.get ctx (0, 0)
  if !(s.die d).hpend.has ctx ∨ (s.grantWaits d ctx e.1 ∧ e.2 ≠ 1) then s
  else (s.modDie d fun x => { x with hpend := x.hpend.del ctx }).grantNow d ctx e.1

/-- HEAP_GRANT (R293). -/
def execHeapGrant (die ctx val : Nat) (s : State) : Out := s.whenUp die (s.heapGrant die ctx (val % 2 ^ 64))

/-! Page zero (R434). -/

/-- PAGE_ZERO: a 32-bit store of the number of frames to 0x00A0_0108 starts the command, frame by frame (R434; log 112). -/
def State.pageZero (s : State) (d n : Nat) : State :=
  let w := (s.die d).reg 0xA00100
  if (s.die d).pzero.isSome then s
  else if w / 2 ^ 50 ≠ 0 ∨ field w 9 3 ≠ 0 ∨ n = 0 ∨ 2 ^ 20 < n ∨ !s.localRange d (d * 2 ^ 48 + field w 12 38 * 4096) (4096 * n) then
    s.modDie d fun x => { x with zerost := 2 }
  else s.modDie d fun x => { x with pzero := some (w, 0, n), zerost := 1 }

/-- The next frame of a page-zero command: its cached copies go, and its lines become zeros under the key (R239, R434). -/
def State.zeroFrame (s : State) (d : Nat) : State :=
  match (s.die d).pzero with
  | none => s
  | some (w, i, n) =>
    let base := d * 2 ^ 48 + field w 12 38 * 4096 + 4096 * i
    ((List.range 32).foldl
      (fun u j => (u.settleLine (base / 128 + j)).wrKey (base + 128 * j) (u.keyId base (field w 0 9)) 128 0)
      ((s.dropRange base 4096).dropCode base)).modDie d fun x =>
        if i + 1 = n then { x with pzero := none, zerost := 0 } else { x with pzero := some (w, i + 1, n) }

/-- PAGE_ZERO (R434). -/
def execPageZero (die val : Nat) (s : State) : Out := s.whenUp die (s.pageZero die (val % 2 ^ 32))

/-! Keys (R435, R436). -/

/-- KDATA as a number. -/
def Die.kdata (x : Die) : Nat := ((List.range 8).map fun i => x.reg (0xA01040 + 8 * i) * 2 ^ (64 * i)).sum

/-- Lines that slices hold under a slot's key are written back and dropped, still under that key (R436 step 1). -/
def State.dropKey (s : State) (d slot : Nat) : State :=
  let old := (s.die d).keygen.get slot (2 * slot)
  let s1 := (s.dir.filter fun e => homeDie e.1 == d && e.2.key == old).foldl (fun u e => u.recallCopies e.1) s
  s1.modDie d fun x => { x with prio := x.prio.filter fun e => s.lineKey.get (8 * e.1) 0 != old + 1 }

/-- A key command starts: it is busy, and accesses under the slot wait; one that meets another is refused (R436). -/
def State.keyStart (s : State) (d slot key : Nat) : State :=
  if (s.die d).kcmd.isSome then s.modDie d fun x => { x with kstat := 3 }
  else (s.dropKey d slot).modDie d fun x => { x with kcmd := some (slot, key), kstat := 1 }

/-- A key command ends: the slot changes, the bytes in memory stay as they were written, and a load clears KDATA (R436). -/
def State.keyFinish (s : State) (d : Nat) : State :=
  match (s.die d).kcmd with
  | none => s
  | some (slot, key) =>
    s.modDie d fun x =>
      let y := { x with keygen := x.keygen.set slot key, kcmd := none, kstat := 2 }
      if key % 2 = 1 then (List.range 8).foldl (fun z i => z.setReg (0xA01040 + 8 * i) 0) y else y

/-- Whether a key command word is refused: a reserved bit (R436). -/
def keyBad (val : Nat) : Bool := val / 4096 != 0 || field val 9 1 != 0

/-- KEY_LOAD: CMD 1 written to 0x00A0_1000 loads KDATA into the slot (R436). -/
def State.keyLoad (s : State) (d val : Nat) : State :=
  if keyBad val then s.modDie d fun x => { x with kstat := 3 }
  else s.keyStart d (field val 0 9) (1 + 2 * (s.die d).kdata)

/-- KEY_ERASE: CMD 2 loads a fresh random key (R436). -/
def State.keyErase (s : State) (d val : Nat) : State :=
  if keyBad val then s.modDie d fun x => { x with kstat := 3 }
  else { (s.keyStart d (field val 0 9) (2 * (512 + s.nextId))) with nextId := s.nextId + 1 }

/-- KEY_LOAD (R436). -/
def execKeyLoad (die val : Nat) (s : State) : Out := s.whenUp die (s.keyLoad die (val % 2 ^ 64))
/-- KEY_ERASE (R436). -/
def execKeyErase (die val : Nat) (s : State) : Out := s.whenUp die (s.keyErase die (val % 2 ^ 64))

/-! Context records (R432). -/

/-- Bits of a context record's word that a write reaches (R5, R432). -/
def ctxMask (o : Nat) : Nat :=
  if o = 0 then (2 ^ 41 - 1) * 512 + 1
  else if o = 8 ∨ o = 0x10 ∨ o = 0x18 then (2 ^ 38 - 1) * 4096 + 31
  else if o = 0x20 then (2 ^ 38 - 1) * 4096
  else if o = 0x28 then 2 ^ 32 - 1
  else 0

/-- Queues whose descriptor names a context and is enabled. -/
def Die.ctxQueues (x : Die) (ctx : Nat) : List Nat :=
  (List.range 1024).filter fun q => bitN (x.reg (0x200000 + 32 * q)) 0 && field (x.reg (0x200008 + 32 * q)) 16 12 == ctx

/-- CONTEXT_RECORD_WRITE: a write of the 8-byte word at `off` of the control region, in the context records. While
VALID is 1 only VALID = 0 is taken, and only from a context at rest; VALID from 0 to 1 starts the context afresh
(R432). A context that ends on its last die loses its regions and its heaps (R285, R293). -/
def State.ctxWrite (s : State) (d off val : Nat) : State :=
  let ctx := (off - 0x900000) / 128
  let o := off % 128 / 8 * 8
  let v := val &&& ctxMask o
  let x := s.die d
  if off < 0x900000 ∨ 0x980000 ≤ off then s
  else if x.ctxValid ctx then
    if o = 0 ∧ !bitN v 0 ∧ (x.cstate.get ctx 0 = 0 ∨ x.cstate.get ctx 0 = 2) ∧ (s.groupsOf d ctx).isEmpty ∧ x.ctxQueues ctx = [] then
      let fin := fun (u : State) => u.modDie d fun y => y.setReg off v
      if (List.range 4).any fun e => ((fin s).die e).ctxValid ctx then fin s
      else
        (List.range 4).foldl (fun u e => u.modDie e fun y => { y with heaps := y.heaps.del ctx })
          (fin ((s.regions.filter fun e => e.1 / 64 == ctx).foldl (fun u e => u.disarmRegion ctx (e.1 % 64)) s))
    else s
  else
    s.modDie d fun y =>
      let z := y.setReg (0x900000 + 128 * ctx + o) v
      if o = 0 ∧ bitN v 0 then
        { z with nextLid := z.nextLid.del ctx, ehead := z.ehead.del ctx, etail := z.etail.del ctx, elost := z.elost.del ctx }
      else z

/-- CONTEXT_RECORD_WRITE (R432). -/
def execContextRecordWrite (die off val : Nat) (s : State) : Out := s.whenUp die (s.ctxWrite die (off / 8 * 8) (val % 2 ^ 64))

end Sys2Proof.Machine
end

