-- ==== Sys2Proof/Machine/Reg.lean ====
section
/-! DEFINITION. The control region of a die as its readers see it (R6, R234, R413, R439), and the accesses of agents
that are no core to whatever stands at a place. -/

namespace Sys2Proof.Machine

/-- How many bits of a byte are set. -/
def popByte (b : BitVec 8) : Nat := ((List.range 8).filter fun i => b.getLsbD i).length

/-- STATE of a user queue as a number (R339). -/
def QSt.num : QSt → Nat
  | .disabled => 0
  | .idle => 1
  | .pending => 2
  | .resident => 3

/-- CHDONE, CHTAIL or CHSTAT of a chain (R323). -/
def Chain.word (h : Chain) (o : Nat) : Nat :=
  match o with
  | 0 => h.done
  | 1 => h.tail
  | 2 => (if h.err then 32768 else 0) + (if h.entries.any fun e => e.st == .paused then 16384 else 0) + h.entries.length
  | _ => 0

/-- A slice's register (R410). -/
def Die.sliceReg (x : Die) (n : Nat) : Nat :=
  x.cecnt.get n 0 % 2 ^ 32 * 2 ^ 32 + field (x.reg (0x600000 + 8 * n)) 16 16 * 2 ^ 16 + x.slices.get n 0

/-- One entry of the bucket table (R410). -/
def Die.bucketReg (x : Die) (b : Nat) : Nat := (if x.moving.get b false then 32768 else 0) + x.bucketSlice b

/-- A port's register (R427); the ports stand once, on die 0. -/
def Die.portReg (x : Die) (off : Nat) : Nat :=
  let k := 16 * (off % 2 ^ 20 / 2 ^ 16) + off % 2 ^ 16 / 64
  let p := x.ports.get k {}
  field (x.reg off) 12 28 * 2 ^ 12 + popByte p.active * 2 ^ 8 + popByte p.locked

/-- Notify page of a queue (R339). -/
def Die.notifyWord (x : Die) (q o : Nat) : Nat :=
  let u := x.uqs.get q {}
  if o = 8 then u.rdidx
  else if o = 16 then (if u.waitE.isSome then 8 else 0) + (if u.err then 4 else 0) + u.st.num
  else 0

/-- The 8-byte word at an aligned offset below 0x0100_0000 of a die that is ready; a write-only field and a reserved one
read as zero (R5, R6). -/
def State.regWord (s : State) (d w : Nat) : Nat :=
  let x := s.die d
  if w < 0x100 then
    (if w = 0 then (Config.identity d).toNat else if w = 8 then x.br
     else if w = 0x10 then x.acmhz % 2 ^ 16 * 2 ^ 48 + x.mxthr % 8 * 2 ^ 45 + x.pmw % 2 ^ 32
     else if w = 0x18 then x.ddrsz else 0)
  else if 0x100000 ≤ w ∧ w < 0x102000 then
    (if field w 5 2 = 3 then 0 else ((s.core (64 * d + field w 7 6)).chain (field w 5 2)).word (field w 3 2))
  else if 0x102000 ≤ w ∧ w < 0x102200 then
    (s.core (64 * d + field w 3 6)).mxSoft.toNat + (s.core (64 * d + field w 3 6)).mxHard.toNat * 2 ^ 32
  else if w = 0x300008 then x.fhead.toNat + x.ftail.toNat * 2 ^ 32
  else if 0x300100 ≤ w ∧ w < 0x300180 then (if field w 3 4 / 4 ≠ d then 0 else if x.plates.get (field w 3 4) 0 = 4 then 2 else x.plates.get (field w 3 4) 0)
  else if w = 0x300208 then x.shead.toNat + x.stail.toNat * 2 ^ 32
  else if w = 0x300210 then x.slost.toNat + field (x.reg w) 32 11 * 2 ^ 32
  else if 0x400000 ≤ w ∧ w < 0x410000 then
    (if w % 16 = 0 then x.reg w else (s.groupsOf d (field w 4 12)).length * 2 ^ 32 + x.cstate.get (field w 4 12) 0)
  else if 0x600000 ≤ w ∧ w < 0x600180 then x.sliceReg (field w 3 6)
  else if w = 0x601000 then x.gen.toNat
  else if 0x602000 ≤ w ∧ w < 0x602800 then
    ((List.range 4).map fun i => x.bucketReg ((w - 0x602000) / 2 + i) * 2 ^ (16 * i)).sum
  else if 0x700000 ≤ w ∧ w < 0x700400 ∧ w % 32 = 16 then x.fedCount.get (field w 5 5) 0 % 2 ^ 32 * 2 ^ 32
  else if 0x800000 ≤ w ∧ w < 0x820000 then (if w % 65536 < 1024 ∧ w % 64 = 0 then (s.die 0).portReg w else 0)
  else if 0x980000 ≤ w ∧ w < 0x990000 then
    (if w % 16 = 0 then (x.ehead.get (field w 4 12) 0).toNat + (x.etail.get (field w 4 12) 0).toNat * 2 ^ 32
     else (x.elost.get (field w 4 12) 0).toNat)
  else if w = 0xA00100 then 0
  else if w = 0xA00108 then x.zerost * 2 ^ 32
  else if w = 0xA01008 then x.kstat
  else if 0xA01040 ≤ w ∧ w < 0xA01080 then 0
  else if w = 0xB00010 then (if x.pcmd.isSome then 256 else 0) + x.pclass
  else if w = 0xB00100 then x.reg w % 2 ^ 54
  else if w = 0xB00110 then (if x.icmd.isSome then 256 else 0) + x.invst
  else if w = 0xB00208 then (if x.dpend.isSome then 256 else 0) + x.disst
  else x.reg w

/-- The 8-byte word at an aligned offset of a die's control region: registers, heap-grant pages (R293), notify pages
(R339; log 45 for their place). Until the die is ready only the first 256 bytes answer (R439). -/
def State.ctlWord (s : State) (d w : Nat) : Nat :=
  let x := s.die d
  if x.br ≠ 4 ∧ 0x100 ≤ w then 2 ^ 64 - 1
  else if w < 0x1000000 then s.regWord d w % 2 ^ 64
  else if w < 0x2000000 then
    (if w % 4096 = 8 then
       let h := s.heap d (w / 4096 % 4096)
       min h.count (2 ^ 32 - 1) * 2 ^ 32 + h.chunks.length % 65536 * 2 ^ 16 + h.res
     else 0)
  else if w < 0x2400000 then x.notifyWord (w / 4096 % 1024) (w % 4096)
  else 0

/-- `n` bytes of the control region from an offset. -/
def State.ctlBytes (s : State) (d off : Nat) : Nat → Nat
  | 0 => 0
  | n + 1 => field (s.ctlWord d (off / 8 * 8)) (8 * (off % 8)) 8 + 256 * s.ctlBytes d (off + 1) n

/-- Offset of a place in the control region. -/
def ctlOff (pa : Nat) : Nat := pa % 2 ^ 48 - 0xF00000000000

/-- An agent's read of `n` bytes, of memory or of control registers. -/
def State.anyRead (s : State) (pa key n : Nat) : Nat :=
  if isCtl pa then s.ctlBytes (pa / 2 ^ 48) (ctlOff pa) n else s.agentRead pa key n

/-- Die of a context's arrival stores: an arrival page holds 4 KiB (R413, R419). -/
def arrivalPage (off : Nat) : Option Nat :=
  if 0x2400000 ≤ off ∧ off < 0x2420000 then some ((off - 0x2400000) / 4096) else none

/-- The moves that a write to the control region asks for: one for each part of an aligned 8-byte word, in order; a
store to an arrival page is an arrival of the storing context (R419). -/
def ctlMoves (d off n v ctx : Nat) : List Move :=
  match arrivalPage off with
  | some k => if off % 4096 = 0 ∧ n = 4 then [.arrive d k ctx (v % 2 ^ 32)] else []
  | none =>
    (List.range ((off + n + 7) / 8 - off / 8)).map fun i =>
      let a := max off ((off / 8 + i) * 8)
      let b := min (off + n) ((off / 8 + i + 1) * 8)
      .ctl d a (b - a) (field v (8 * (a - off)) (8 * (b - a)))

/-- An agent's write of `n` bytes; a write to control registers is what happens next. -/
def State.anyWrite (s : State) (pa n key v ctx : Nat) : State :=
  if isCtl pa then { s with agenda := s.agenda ++ ctlMoves (pa / 2 ^ 48) (ctlOff pa) n v ctx } else s.agentWrite pa n key v

end Sys2Proof.Machine
end

