-- ==== Sys2Proof/Machine/Chain.lean ====
section
/-! DEFINITION. What an engine does to a command chain: translation of its accesses (R180, R254), the end of an entry,
completion words (R179), and the data that a beat reads and writes (R174, R322, R337). -/

namespace Sys2Proof.Machine

/-! Engine accesses (R180, R322). -/

/-- Checks of an engine's access for a command of a launch: extents as a group has them, otherwise a walk; a
core-private page fails check 5 for an agent that is no core, and a versioned page fails too (R180). -/
def State.checkEng (s : State) (d ctx lid va : Nat) (k : Want) : Chk :=
  if 2 ^ 54 ≤ va then .trap 3
  else
    let l := (s.die d).launches.get (1024 * ctx + lid) {}
    let c :=
      match l.extent va with
      | some e => s.checkLeaf d 256 (l.pages.get (va / 4096) 0).toNat va true (!e.w) k
      | none =>
        match s.walk d ctx va with
        | .fault => .park
        | .table => .table
        | .wait => .wait
        | .leaf w => s.checkLeaf d 256 w va true false k
    match c with
    | .ok _ leaf => if leafCC leaf = 2 then .trap 7 else if leafVer leaf then .trap 8 else c
    | _ => c

/-- What stands at a range of virtual addresses: its parts with place, leaf and length; an address whose page to wait for; a failing
address; lines that are busy now; or an address whose walk has to wait, or whose place `far` answers no request now. -/
inductive Span where
  | ok (ps : List (Nat × Nat × Nat))
  | pause (va : Nat)
  | fail (va : Nat)
  | busy (lines : List Nat)
  | walk (va : Nat) (far : Option Nat)
  deriving DecidableEq, Repr

/-- Whether a range can be accessed now. -/
def Span.isOk : Span → Bool
  | .ok _ => true
  | _ => false

/-- The parts of a range that can be accessed. -/
def Span.parts : Span → List (Nat × Nat × Nat)
  | .ok ps => ps
  | _ => []

/-- The parts of a range that lie in one page each. -/
def pageParts (va n : Nat) : List (Nat × Nat) :=
  if n = 0 then []
  else
    (List.range ((va + n - 1) / 4096 + 1 - va / 4096)).map fun i =>
      let a := max va ((va / 4096 + i) * 4096)
      (a, min (va + n) ((va / 4096 + i + 1) * 4096) - a)

/-- The range as an engine finds it (R180, R401, R422); `reads` when poison of its lines matters (R389). -/
def State.span (s : State) (d ctx lid va n : Nat) (write reads : Bool) : Span :=
  (pageParts va n).foldl
    (fun r p =>
      match r with
      | .ok ps =>
        match s.checkEng d ctx lid p.1 { size := 1, write := write } with
        | .park => .pause p.1
        | .wait => .walk p.1 none
        | .ok pa leaf =>
          if !s.reaches d leaf pa then .walk p.1 (some pa)
          else if reads && pa < hostBase && !isCtl pa && s.poisoned pa p.2 ctx then .fail p.1
          else if s.keyHeld pa leaf then .busy []
          else if (linesOf pa p.2).any s.lineBusy then .busy ((linesOf pa p.2).filter s.lineBusy)
          else .ok (ps ++ [(pa, leaf, p.2)])
        | _ => .fail p.1
      | e => e) (.ok [])

/-- Read the parts of a range. -/
def State.readParts (s : State) : List (Nat × Nat × Nat) → Nat
  | [] => 0
  | (pa, leaf, n) :: r => s.anyRead pa (s.keyId pa (leafKey leaf)) n % 2 ^ (8 * n) + 2 ^ (8 * n) * s.readParts r

/-- Write the parts of a range. -/
def State.writeParts (s : State) (ctx v : Nat) : List (Nat × Nat × Nat) → State
  | [] => s
  | (pa, leaf, n) :: r => State.writeParts (s.anyWrite pa n (s.keyId pa (leafKey leaf)) (v % 2 ^ (8 * n)) ctx) ctx (v / 2 ^ (8 * n)) r

/-- An engine's access for a context leaves no lease on the lines it reads, and carries its hint to the slice that serves them
(R125, R242, R244, R322). -/
def State.visit (s : State) (d ctx hint : Nat) (ps : List (Nat × Nat × Nat)) : State :=
  ps.foldl
    (fun u p =>
      if hostBase ≤ p.1 ∨ isCtl p.1 then u.fabPacket p.1
      else
        (linesOf p.1 p.2.2).foldl
          (fun v l =>
            if leafCC p.2.1 < 2 then (v.dropLease l).hintAt (servingDie (64 * d) p.2.1 p.1) l hint ctx else v.dropLease l) u) s

/-! The end of an entry (R178 to R180). -/

/-- A request of an agent of a die to another die, package or the host had no reply (R422). -/
def State.logCross (s : State) (d ctx va pa : Nat) : State :=
  s.logCtx d ctx 0x36 0
    (va * 2 ^ 32 + 2 ^ 96 * (if pa < hostBase then pa / 2 ^ 48 else 0) +
      2 ^ 104 * (if fabBase ≤ pa then (pa - fabBase) / 2 ^ 50 % 512 else Config.package % 512))

/-- Place a completed entry by sequence number. -/
def insertDone (d : Done) : List Done → List Done
  | [] => [d]
  | e :: r => if d.seq < e.seq then d :: e :: r else e :: insertDone d r

/-- The highest number up to which every entry has completed. -/
def reachDone (l : List Done) : (fuel : Nat) → Nat → Nat
  | 0, n => n
  | k + 1, n => if l.any fun d => d.seq == n + 1 then reachDone l k (n + 1) else n

/-- CHDONE rises to `n`; `n` is to be written to the completion word that each entry up to `n` has named, behind what is still to be
written (R179; log 100). -/
def Chain.reach (h : Chain) : Chain :=
  let n := reachDone h.fin h.fin.length h.done
  if n = h.done then h
  else
    let named := h.named ++ h.fin.filter fun d => d.val == 0 && d.seq ≤ n && d.cmpl != 0
    { h with
      done := n
      named := named
      fin := (h.fin.filter fun d => d.val != 0) ++ (named.map fun (d : Done) => { d with val := n }) ++ h.fin.filter fun d => d.val == 0 && n < d.seq }

/-- Write the completion words that are due, in order: a page fault pauses the chain's words, a walk and a place that answers no
request now hold them up to their time-out, any other failure skips the one (R179, R247, R422). -/
def State.completionWords (s : State) (core cls : Nat) : (fuel : Nat) → State
  | 0 => s
  | k + 1 =>
    let h := (s.core core).chain cls
    match h.fin.find? fun d => d.val != 0 with
    | none => s
    | some d =>
      if h.cmplPage.isSome then s
      else
        let die := dieOf core
        let mod := fun (u : State) (f : Chain → Chain) => u.modCore core fun c => c.modChain cls f
        let drop := fun (u : State) => mod u fun x => { x with fin := x.fin.filter (· != d), wleft := 0 }
        let skip := fun (u : State) =>
          (mod (drop u) fun x => { x with err := true }).engTrap d.gid d.slot 0x1D d.cmpl.toNat d.own 15
        match s.span die d.ctx d.lid d.cmpl.toNat 8 true true with
        | .busy _ => s
        | .walk va far =>
          if h.wleft = 1 then
            State.completionWords (skip (match far with | some pa => s.logCross die d.ctx va pa | none => s)) core cls k
          else if h.wleft = 0 then mod s fun x => { x with wleft := if far.isSome then (s.die die).cdTicks else 10001, wfar := far }
          else s
        | .pause va => (mod s fun x => { x with cmplPage := some (va / 4096), wleft := 0 }).raiseFault die d.ctx (va / 4096) 1 false true
        | .ok ps => State.completionWords (((drop s).visit die d.ctx d.hint ps).writeParts d.ctx d.val ps) core cls k
        | .fail _ => State.completionWords (skip s) core cls k

/-- A CPYM's follow-ons are over: the count of the group, when it is still there, falls (R194). -/
def State.followDone (s : State) (core : Nat) (f : Follow) : State :=
  let s1 := s.modCore core fun c => { c with follows := c.follows.filter fun x => x.seq != f.seq }
  if s.groups.has f.gid then s1.modGroup f.gid fun g => { g with follow := g.follow - 1 } else s1

/-- The copy of a CPYM ends: its follow-ons may enter the matrix chain, or with an error they are discarded (R194). -/
def State.copyEnded (s : State) (core seq : Nat) (bad : Bool) : State :=
  if bad then ((s.core core).follows.filter fun f => f.chainSeq == seq).foldl (fun u f => u.followDone core f) s
  else
    s.modCore core fun c =>
      { c with follows := c.follows.map fun (f : Follow) => if f.chainSeq = seq then { f with landed := true } else f }

/-- An entry ends: it leaves the chain, sets its tag, lowers its flag, and its error or time-out traps its group in the
same step; then the completion words advance (R178 to R181, R193, R194, R393). A trap that is held keeps the flag raised (R224).
An orphan sets neither tag nor flag (R337, R367). -/
def State.completeEntry (s : State) (core cls seq : Nat) (err : Option (Nat × Nat)) : State :=
  match ((s.core core).chain cls).entries.find? fun e => e.seq == seq with
  | none => s
  | some e =>
    let bad := match err with | some (c, _) => c == 0x1D | none => false
    let d : Done :=
      { seq := seq, cmpl := BitVec.ofNat 64 (dw64 e.desc 9), gid := e.gid, slot := e.slot, ctx := e.ctx, lid := e.lid, own := e.own
        hint := ctlHint e.desc }
    let s1 := s.modCore core fun c =>
      let c1 := c.modChain cls fun h =>
        { h with entries := h.entries.filter fun x => x.seq != seq, fin := insertDone d h.fin, err := h.err || bad }
      { c1 with tags := if e.tag < 64 ∧ !e.orphan then c1.tags ||| BitVec.ofNat 64 (2 ^ e.tag) else c1.tags }
    let s2 := if cls = 0 ∧ e.cpym then s1.copyEnded core seq bad else s1
    let s3 := s2.modWave (waveKey core e.slot) fun w =>
      if w.gid = some e.gid ∧ !e.orphan then w.lower (s.fallNow e.gid e.flag err.isSome e.own) else w
    let s4 := match err with
      | some (c, a) => if e.orphan then s3 else s3.engTrap e.gid e.slot c a e.own e.flag
      | none => s3
    let s5 := s4.modCore core fun c => c.modChain cls Chain.reach
    s5.completionWords core cls ((s5.core core).chain cls).fin.length

/-- Change an entry of a chain. -/
def State.modEntry (s : State) (core cls seq : Nat) (f : Entry → Entry) : State :=
  s.modCore core fun c => c.modChain cls fun h => { h with entries := h.entries.map fun e => if e.seq = seq then f e else e }

/-- A walk of an entry's access waits, or its place answers no request now: after 100 µs it takes the table fault, after CDTOUT
the data error, and the command ends with error (R180, R247, R255, R415, R422). -/
def State.waitEntry (s : State) (core cls : Nat) (e : Entry) (va : Nat) (far : Option Nat) : State :=
  let d := dieOf core
  if e.wleft = 1 then
    (match far with | some pa => s.logCross d e.ctx va pa | none => s).completeEntry core cls e.seq (some (0x1D, va))
  else if e.wleft = 0 then
    s.modEntry core cls e.seq fun x => { x with wleft := if far.isSome then (s.die d).cdTicks else 10001, wfar := far, port := 0 }
  else s

/-! The data of a beat (R174, R176). -/

/-- Read `n` bytes of a command's source: memory parts, or the scratchpad of its group. -/
def State.srcRead (s : State) (e : Entry) (addr n : Nat) (ps : List (Nat × Nat × Nat)) : Nat :=
  if ctlSsp e.desc = 1 then (if s.groups.has e.gid then s.group e.gid else { seed := e.gid }).spGet addr n else s.readParts ps

/-- Write `n` bytes at a command's destination. A beat towards a plate that left service is discarded at its port
(R337). -/
def State.dstWrite (s : State) (core : Nat) (e : Entry) (addr n v : Nat) (ps : List (Nat × Nat × Nat)) : State :=
  match ctlDsp e.desc with
  | 0 => (s.visit (dieOf core) e.ctx (ctlHint e.desc) ps).writeParts e.ctx v ps
  | 1 => if s.inService core && !e.orphan && s.groups.has e.gid then s.modGroup e.gid fun g => g.spPut addr n v else s
  | _ =>
    if s.inService core && !e.orphan then
      s.modCore core fun c =>
        { c with opbuf := (List.range n).foldl (fun m i => m.set (e.base + addr + i) (BitVec.ofNat 8 (field v (8 * i) 8))) c.opbuf }
    else s

/-- What stands at a range in a space: scratchpad and reservation are always there. -/
def State.spanIn (s : State) (core : Nat) (e : Entry) (space va n : Nat) (write : Bool) : Span :=
  if space = 0 then s.span (dieOf core) e.ctx e.lid va n write (!write) else .ok []

/-- An entry meets a page fault: it keeps its running place and takes no beats until the page is there (R180, R321). -/
def State.pauseEntry (s : State) (core cls seq ctx va : Nat) (write : Bool) : State :=
  (s.modEntry core cls seq fun e => { e with st := .paused, page := va }).raiseFault (dieOf core) ctx (va / 4096) 1 false write

/-- What keeps a beat from being moved now: it waits, or ends its command with error (R180). -/
def State.stopBeat (s : State) (core cls : Nat) (e : Entry) (write : Bool) : Span → State
  | .ok _ => s
  | .busy ls => ls.foldl (fun u l => if u.atomDue l then u.joinLine l (.entry core cls e.seq) else u) s
  | .walk va far => s.waitEntry core cls e va far
  | .pause va => s.pauseEntry core cls e.seq e.ctx va write
  | .fail va => s.completeEntry core cls e.seq (some (0x1D, va))

end Sys2Proof.Machine
end

