-- ==== Sys2Proof/Machine/Preempt.lean ====
section
/-! DEFINITION. Pre-emption and reset of a context on a die, the stop of a queue and the end of a launch: R339, R347, R385 to
R387. -/

namespace Sys2Proof.Machine

/-! Pre-emption and reset of a context (R385 to R387). -/

/-- Flags of a wave count what is still in flight for it: after its matrix operations have been dropped they count its memory
words alone (R387). -/
def State.reflag (s : State) (k : Nat) : State :=
  s.modWave k fun w =>
    { w with
      flags := (List.range 12).map fun f =>
        (f, (s.ops.filter fun o => waveKey o.core o.slot == k && some o.gid == w.gid && o.flag == f).length) }

/-- Chain entries of a core end with error, each as a failed command does, with tag, flag and completion word (R179, R180, R387). -/
def State.failChains (s : State) (core : Nat) : State :=
  (List.range 3).foldl
    (fun v cls => ((v.core core).chain cls).entries.foldl (fun u e => u.completeEntry core cls e.seq (some (0x1D, dw64 e.desc 7))) v) s

/-- A core's matrix chain and its follow-ons are emptied (R387). -/
def Core.dropWork (c : Core) : Core := { c with mchain := [], follows := [] }

/-- Entries in flight of a core's chains. -/
def Core.inFlight (c : Core) : Nat := c.copy.entries.length + c.gath.entries.length + c.coll.entries.length

/-- PREEMPT_DRAIN: CMD 1 (R385). -/
def State.preemptDrain (s : State) (d ctx : Nat) : State :=
  if (s.die d).cstate.get ctx 0 ≠ 0 then s
  else
    s.modDie d fun x =>
      let t := x.reg (0x400000 + 16 * ctx) / 2 ^ 32
      { x with cstate := x.cstate.set ctx 1, cleft := x.cleft.set ctx (if t = 0 then 0 else t + 1), csave := x.csave.del ctx }

/-- Save every group of a context that can be saved now: it holds no reservation and is not halted (R385). -/
def State.saveGroups (s : State) (d ctx : Nat) : State :=
  if (s.die d).cstate.get ctx 0 = 1 ∧ (s.die d).csave.get ctx false then
    (s.groupsOf d ctx).foldl (fun u e => (u.evictGroup d e.1).getD u) s
  else s

/-- PREEMPT_SAVE: CMD 2 (R385). -/
def State.preemptSave (s : State) (d ctx : Nat) : State :=
  if (s.die d).cstate.get ctx 0 ≠ 0 then s
  else ((s.preemptDrain d ctx).modDie d fun x => { x with csave := x.csave.set ctx true }).saveGroups d ctx

/-- The context reaches pre-empted when no group of it is resident and its cores' chains are empty (R385). -/
def State.preempted (s : State) (d ctx : Nat) : State :=
  if (s.die d).cstate.get ctx 0 = 1 ∧ (s.groupsOf d ctx).isEmpty ∧
      (s.cores.all fun e => decide (dieOf e.1 ≠ d) || e.2.ctx != some ctx || e.2.inFlight == 0) then
    s.modDie d fun x => { x with cstate := x.cstate.set ctx 2, cleft := x.cleft.del ctx, csave := x.csave.del ctx }
  else s

/-- CONTEXT_RESUME: CMD 3; the groups saved so far are to be restored before any other of the context is placed (R385). -/
def State.contextResume (s : State) (d ctx : Nat) : State :=
  if (s.die d).cstate.get ctx 0 = 2 then
    s.modDie d fun x =>
      { x with
        cstate := x.cstate.del ctx
        launches := x.launches.map fun (l : Nat × Launch) =>
          (l.1, if l.2.ctx = ctx then { l.2 with redo := l.2.redo.map fun (r : Redo) => { r with first := r.first || r.saved } } else l.2) }
  else s

/-- A queue stops: ERR set, EN cleared, STATE disabled (R339). -/
def Die.stopQueue (x : Die) (q : Nat) : Die :=
  let r := x.reg (0x200000 + 32 * q)
  { (x.setReg (0x200000 + 32 * q) (r - r % 2)) with
    uqs := x.uqs.upd q {} fun u => { u with err := true, st := .disabled, waitE := none, fault := none, boost := 0, closing := false } }

/-- A launch leaves the die: its LID is free, its pages are unpinned, and the other dies are told that the member is gone
(R347, R348, R417). -/
def State.dropLaunch (s : State) (d key : Nat) : State :=
  let l := (s.die d).launches.get key {}
  let s1 := s.modDie d fun x => { x with launches := x.launches.del key }
  if l.fedAnn then
    ((List.range 4).filter (· != d)).foldl (fun u e => u.sendPkt d e (.fed false l.ctx l.entry.toNat l.fedn)) s1
  else s1

/-- CONTEXT_RESET: every group of the context on the die ends, what waits for it is discarded, its chains end, its
queues stop; the record says how much ended (R387). `reason` is 0 for the deadline, 1 for a command. -/
def State.contextReset (s : State) (d ctx reason : Nat) : State :=
  if (s.die d).cstate.get ctx 0 = 3 then s
  else
    let gs := s.groupsOf d ctx
    let mine := s.cores.filter fun e => dieOf e.1 == d && e.2.ctx == some ctx
    let ended := (mine.map fun e => e.2.inFlight).sum
    let s1 := gs.foldl (fun u e => u.endGroup e.1) s
    let s2 := { s1 with
      ops := (s1.ops.map fun (o : MemOp) =>
        if gs.any (fun e => e.1 == o.gid) then
          { o with
            pendSl := []
            accs := o.accs.map fun (a : Acc) =>
              if a.st = AccSt.waitVer ∨ a.st = AccSt.back ∨ (o.reiss ∧ a.st = AccSt.pend ∧ a.leaf = 0) then { a with st := .done, gone := 0xFF }
              else a }
        else o) }
    let s3 := mine.foldl (fun u e => ((u.failChains e.1).l1Empty e.1).modCore e.1 fun c => { c.dropWork with bins := [] }) s2
    let s4 := gs.foldl (fun u e => e.2.keys.foldl (fun v k => (v.modWave k fun w => { w with mons := [] }).reflag k) u) s3
    let s5 := s4.modDie d fun x =>
      let y := (x.ctxQueues ctx).foldl Die.stopQueue x
      let cut := fun (m : FMap (Nat × Nat)) => if m.has ctx then m.set ctx ((m.get ctx (0, 0)).2, (m.get ctx (0, 0)).2) else m
      { y with
        cstate := y.cstate.set ctx 3, cleft := y.cleft.del ctx, csave := y.csave.del ctx
        faults := y.faults.filter fun f => f.ctx != ctx, msgs := y.msgs.filter fun t => t.ctx != ctx, hpend := y.hpend.del ctx
        spill := cut y.spill, mring := cut y.mring, stall := y.stall.del ctx }
    -- messages of the context that are on their way to the die go too
    { s5 with pkts := s5.pkts.filter fun p => !(p.dst == d && (match p.body with | .msg t => t.ctx == ctx | _ => false)) }.logCtx d ctx 0x2B 0 (gs.length % 65536 + 2 ^ 16 * (ended % 65536) + 2 ^ 32 * reason)

/-- End of a context reset: once its groups are gone, its launches are dropped and each freed core is zeroed; STATE
returns to running (R387). -/
def State.resetFinish (s : State) (d ctx : Nat) : State :=
  if (s.die d).cstate.get ctx 0 = 3 ∧ (s.groupsOf d ctx).isEmpty then
    let s1 := ((s.die d).launches.filter fun e => e.2.ctx == ctx).foldl (fun u e => u.dropLaunch d e.1) s
    let s2 := (s1.cores.filter fun e => dieOf e.1 == d && e.2.ctx == some ctx).foldl (fun u e => u.clearCore e.1 none) s1
    s2.modDie d fun x => { x with cstate := x.cstate.del ctx, evUsed := x.evUsed.del ctx }
  else s

/-- PREEMPT_DRAIN (R385). -/
def execPreemptDrain (die ctx : Nat) (s : State) : Out := .next (s.preemptDrain die ctx)
/-- PREEMPT_SAVE (R385). -/
def execPreemptSave (die ctx : Nat) (s : State) : Out := .next (s.preemptSave die ctx)
/-- CONTEXT_RESUME (R385). -/
def execContextResume (die ctx : Nat) (s : State) : Out := .next (s.contextResume die ctx)
/-- CONTEXT_RESET (R387). -/
def execContextReset (die ctx : Nat) (s : State) : Out := .next (s.contextReset die ctx 1)
/-- PREEMPT_DEADLINE_EXPIRY: the drain deadline has passed in pre-empting (R386); it counts down to 1. -/
def execPreemptDeadlineExpiry (die ctx : Nat) (s : State) : Out :=
  if (s.die die).cstate.get ctx 0 = 1 ∧ (s.die die).cleft.get ctx 0 = 1 then .next (s.contextReset die ctx 0) else .next s

end Sys2Proof.Machine
end

