-- ==== Sys2Proof/Machine/Alu.lean ====
section
/-! DEFINITION. Integer operations on 32-bit values and address pairs: R60, R79 to R85. -/

namespace Sys2Proof.Machine

/-- All ones for true, 0 for false: the result of a compare (R79). -/
def ones (c : Bool) : W32 := if c then 0xFFFFFFFF#32 else 0
/-- Bits [63:32] of the signed product (R79). -/
def mulhS (a b : W32) : W32 := ((a.signExtend 64 * b.signExtend 64) >>> 32).setWidth 32
/-- Bits [63:32] of the unsigned product (R79). -/
def mulhZ (a b : W32) : W32 := ((a.setWidth 64 * b.setWidth 64) >>> 32).setWidth 32
/-- The smaller, signed. -/
def minS (a b : W32) : W32 := if a.slt b then a else b
/-- The smaller, unsigned. -/
def minZ (a b : W32) : W32 := if a.ult b then a else b
/-- The larger, signed. -/
def maxS (a b : W32) : W32 := if a.slt b then b else a
/-- The larger, unsigned. -/
def maxZ (a b : W32) : W32 := if a.ult b then b else a
/-- A shifted left by B as an unsigned number; 0 from 32 on (R80). -/
def shlOp (a b : W32) : W32 := if b.toNat < 32 then a <<< b.toNat else 0
/-- A shifted right with zero fill; 0 from 32 on (R80). -/
def shrOp (a b : W32) : W32 := if b.toNat < 32 then a >>> b.toNat else 0
/-- A shifted right with sign fill; all sign bits from 32 on (R80). -/
def shraOp (a b : W32) : W32 := if b.toNat < 32 then a.sshiftRight b.toNat else ones a.msb
/-- A rotated left by B mod 32 (R80). -/
def rotlOp (a b : W32) : W32 := a.rotateLeft (b.toNat % 32)
/-- Mask of a field length; a length above 32 counts as 32 (R81). -/
def fieldMask (b : W32) : W32 :=
  let len := min (field b.toNat 8 6) 32
  BitVec.ofNat 32 (2 ^ len - 1)
/-- BFX (R81). -/
def bfxOp (a b : W32) : W32 := (a >>> (b.toNat % 32)) &&& fieldMask b
/-- BFI (R81). -/
def bfiOp (a b d : W32) : W32 :=
  let pos := b.toNat % 32
  (d &&& ~~~(fieldMask b <<< pos)) ||| ((a &&& fieldMask b) <<< pos)
/-- Signed sum clamped to the range of 32 bits (R79). -/
def addSat (a b : W32) : W32 :=
  let t := a.toInt + b.toInt
  if t < -2147483648 then 0x80000000#32 else if 2147483647 < t then 0x7FFFFFFF#32 else BitVec.ofInt 32 t
/-- 0 − A; with .SAT the most negative number gives the most positive (R84). -/
def negOp (sat : Bool) (a : W32) : W32 := if sat && a == 0x80000000#32 then 0x7FFFFFFF#32 else 0 - a
/-- Signed absolute value; −2^31 stays, or gives 2^31 − 1 with .SAT (R84). -/
def absOp (sat : Bool) (a : W32) : W32 := if a.msb then negOp sat a else a
/-- Number of one bits (R84). -/
def popcOp (a : W32) : W32 := BitVec.ofNat 32 (laneCount a)
/-- Leading zeros, 32 for 0 (R84). -/
def clzOp (a : W32) : W32 :=
  BitVec.ofNat 32 (match (List.range 32).find? (fun i => a.getLsbD (31 - i)) with | some i => i | none => 32)
/-- Trailing zeros, 32 for 0 (R84). -/
def ctzOp (a : W32) : W32 :=
  BitVec.ofNat 32 (match (List.range 32).find? (fun i => a.getLsbD i) with | some i => i | none => 32)
/-- Bit n moved to bit 31 − n (R84). -/
def brevOp (a : W32) : W32 := maskOf ((lanesOf a).map (31 - ·))
/-- Byte n moved to byte 3 − n (R84). -/
def bswapOp (a : W32) : W32 := a.extractLsb' 0 8 ++ a.extractLsb' 8 8 ++ a.extractLsb' 16 8 ++ a.extractLsb' 24 8
/-- Sign-extend the low byte (R84). -/
def sext8 (a : W32) : W32 := (a.setWidth 8).signExtend 32
/-- Sign-extend the low half (R84). -/
def sext16 (a : W32) : W32 := (a.setWidth 16).signExtend 32
/-- Zero-extend the low byte (R84). -/
def zext8 (a : W32) : W32 := a &&& 0xFF#32
/-- Zero-extend the low half (R84). -/
def zext16 (a : W32) : W32 := a &&& 0xFFFF#32

end Sys2Proof.Machine
end

