-- ==== Sys2Proof/Machine/Flags.lean ====
section
/-! DEFINITION. Floating formats bit by bit, exact values, the one rounding, and the FPSTAT flags that it
raises: R21, R45 to R48, R52 to R58. -/

namespace Sys2Proof.Machine

/-- FPSTAT bits (R21). -/
def fNV : Nat := 1
/-- Division by zero. -/
def fDZ : Nat := 2
/-- Overflow. -/
def fOF : Nat := 4
/-- Underflow. -/
def fUF : Nat := 8
/-- Inexact. -/
def fNX : Nat := 16

/-- A result pattern and the flags it raises. -/
abbrev Flt := Nat × Nat

/-- A floating format (R45): exponent and fraction bits, bias, largest finite pattern, whether it has
infinities, whether it has a sign, canonical NaN (R52). -/
structure Fmt where
  ew : Nat
  fw : Nat
  bias : Nat
  maxb : Nat
  hasInf : Bool := true
  signed : Bool := true
  nan : Nat
  deriving DecidableEq, Repr

def fmt64 : Fmt := { ew := 11, fw := 52, bias := 1023, maxb := 0x7FEFFFFFFFFFFFFF, nan := 0x7FF8000000000000 }
def fmt32 : Fmt := { ew := 8, fw := 23, bias := 127, maxb := 0x7F7FFFFF, nan := 0x7FC00000 }
def fmt16 : Fmt := { ew := 5, fw := 10, bias := 15, maxb := 0x7BFF, nan := 0x7E00 }
def fmtB16 : Fmt := { ew := 8, fw := 7, bias := 127, maxb := 0x7F7F, nan := 0x7FC0 }
def fmtE4M3 : Fmt := { ew := 4, fw := 3, bias := 7, maxb := 0x7E, hasInf := false, nan := 0x7F }
def fmtE5M2 : Fmt := { ew := 5, fw := 2, bias := 15, maxb := 0x7B, nan := 0x7E }
def fmtE5M3 : Fmt := { ew := 5, fw := 3, bias := 15, maxb := 0xFE, hasInf := false, signed := false, nan := 0xFF }

/-- Format of a type in MOD (R102). -/
def fmtOf : FTy → Fmt
  | .f32 => fmt32
  | .f64 => fmt64
  | .f16 => fmt16
  | .bf16 => fmtB16

/-- Bits of exponent and fraction together. -/
def Fmt.mag (f : Fmt) : Nat := f.ew + f.fw
/-- The sign bit in place, where the format has one. -/
def Fmt.sign (f : Fmt) (neg : Bool) : Nat := if neg && f.signed then 2 ^ f.mag else 0
/-- Infinity of a format. -/
def Fmt.inf (f : Fmt) (neg : Bool) : Nat := f.sign neg + (2 ^ f.ew - 1) * 2 ^ f.fw
/-- Exponent of the smallest normal. -/
def Fmt.emin (f : Fmt) : Int := 1 - (f.bias : Int)

/-- A decoded pattern: NaN, infinity, or (−1)^neg · m · 2^e exactly. -/
inductive FVal where
  | nan (signalling : Bool)
  | inf (neg : Bool)
  | fin (neg : Bool) (m : Nat) (e : Int)
  deriving DecidableEq, Repr

/-- The value of a pattern (R46, R47). -/
def Fmt.decode (f : Fmt) (x : Nat) : FVal :=
  let neg := f.signed && bitN x f.mag
  let mag := x % 2 ^ f.mag
  let ex := mag / 2 ^ f.fw
  let fr := mag % 2 ^ f.fw
  if f.hasInf ∧ ex = 2 ^ f.ew - 1 then (if fr = 0 then .inf neg else .nan (!bitN fr (f.fw - 1)))
  else if !f.hasInf ∧ mag = f.maxb + 1 then .nan false
  else if ex = 0 then .fin neg fr (f.emin - f.fw)
  else .fin neg (2 ^ f.fw + fr) ((ex : Int) - f.bias - f.fw)

/-- m · 2^e rounded to a multiple of 2^q in a direction (R53): the multiple, and whether it differs. -/
def roundAt (rm : Nat) (neg : Bool) (m : Nat) (e q : Int) : Nat × Bool :=
  if q ≤ e then (m * 2 ^ (e - q).toNat, false)
  else
    let k := (q - e).toNat
    let n := m / 2 ^ k
    let r := m % 2 ^ k
    let up :=
      match rm with
      | 0 => 2 ^ k < 2 * r || (2 * r == 2 ^ k && n % 2 == 1)
      | 1 => false
      | 2 => r != 0 && !neg
      | _ => r != 0 && neg
    (if up then n + 1 else n, r != 0)

/-- Exponent of the leading bit of m · 2^e. -/
def leadE (m : Nat) (e : Int) : Int := e + (Nat.log2 m : Int)

/-- Whether m · 2^e is tiny: rounded with an unbounded exponent it lies below the smallest normal (R55). -/
def Fmt.tiny (f : Fmt) (rm : Nat) (neg : Bool) (m : Nat) (e : Int) : Bool :=
  let lead := leadE m e
  lead < f.emin - 1 || (lead == f.emin - 1 && (roundAt rm neg m e (lead - f.fw)).1 < 2 ^ (f.fw + 1))

/-- Overflow by rounding direction (R54); a format without infinities saturates (R62, R65). -/
def Fmt.ovfl (f : Fmt) (rm : Nat) (neg : Bool) : Nat :=
  if f.hasInf && (rm == 0 || (rm == 2 && !neg) || (rm == 3 && neg)) then f.inf neg else f.sign neg + f.maxb

/-- The one rounding of an exact value m · 2^e to a format: the pattern and the flags OF, UF and NX (R53 to
R56, R58). `ftz` replaces a tiny result by a zero of its sign. -/
def Fmt.round (f : Fmt) (rm : Nat) (ftz neg : Bool) (m : Nat) (e : Int) : Flt :=
  if m = 0 then (f.sign neg, 0)
  else
    let tiny := f.tiny rm neg m e
    if ftz && tiny then (f.sign neg, fUF + fNX)
    else
      let q := max (leadE m e) f.emin - f.fw
      let r := roundAt rm neg m e q
      let bits := (q + f.fw + f.bias - 1).toNat * 2 ^ f.fw + r.1
      if f.maxb < bits then (f.ovfl rm neg, fOF + fNX)
      else (f.sign neg + bits, (if r.2 then fNX + (if tiny then fUF else 0) else 0))

/-- A subnormal input read as a zero of its sign (R56). -/
def Fmt.flush (f : Fmt) (ftz : Bool) (x : Nat) : Nat :=
  if ftz && x % 2 ^ f.mag < 2 ^ f.fw then x / 2 ^ f.mag * 2 ^ f.mag else x

/-- Whether a value is a NaN. -/
def FVal.isNan : FVal → Bool
  | .nan _ => true
  | _ => false
/-- NV for a signalling NaN (R57). -/
def FVal.nv : FVal → Nat
  | .nan true => fNV
  | _ => 0
/-- The value with its sign inverted when `n`. -/
def FVal.negIf (n : Bool) : FVal → FVal
  | .nan s => .nan s
  | .inf b => .inf (b != n)
  | .fin b m e => .fin (b != n) m e

/-- Exact product; `none` is 0 · ∞ (R58). -/
def FVal.mul (x y : FVal) : Option FVal :=
  match x, y with
  | .nan a, _ => some (.nan a)
  | _, .nan b => some (.nan b)
  | .inf a, .inf b => some (.inf (a != b))
  | .inf a, .fin b m _ => if m = 0 then none else some (.inf (a != b))
  | .fin a m _, .inf b => if m = 0 then none else some (.inf (a != b))
  | .fin a m e, .fin b n k => some (.fin (a != b) (m * n) (e + k))

/-- A finite value as an integer at exponent `q`, which is at most its own. -/
def finAt (neg : Bool) (m : Nat) (e q : Int) : Int :=
  let v : Int := m * 2 ^ (e - q).toNat
  if neg then -v else v

/-- Exact sum; `none` is ∞ − ∞. The sign of a zero sum follows R53. -/
def FVal.add (rm : Nat) (x y : FVal) : Option FVal :=
  match x, y with
  | .nan a, _ => some (.nan a)
  | _, .nan b => some (.nan b)
  | .inf a, .inf b => if a = b then some (.inf a) else none
  | .inf a, _ => some (.inf a)
  | _, .inf b => some (.inf b)
  | .fin a m e, .fin b n k =>
    let q := min e k
    let t := finAt a m e q + finAt b n k q
    if t = 0 then some (.fin (if m = 0 ∧ n = 0 ∧ a = b then a else rm == 3) 0 0)
    else some (.fin (t < 0) t.natAbs q)

/-- Deliver an exact value in a format (R52 to R57). -/
def Fmt.deliver (f : Fmt) (rm : Nat) (ftz : Bool) (v : FVal) : Flt :=
  match v with
  | .nan s => (f.nan, if s then fNV else 0)
  | .inf n => (if f.hasInf then f.inf n else f.sign n + f.maxb, 0)
  | .fin n m e => f.round rm ftz n m e

/-- Union of two flag sets. -/
def orF (a b : Nat) : Nat := a ||| b

/-- Compare two finite or infinite values: −1, 0 or 1, with −0 = +0. -/
def FVal.cmp (x y : FVal) : Int :=
  match x, y with
  | .nan _, _ => 0
  | _, .nan _ => 0
  | .inf a, .inf b => if a = b then 0 else if a then -1 else 1
  | .inf a, _ => if a then -1 else 1
  | _, .inf b => if b then 1 else -1
  | .fin a m e, .fin b n k =>
    let q := min e k
    let t := finAt a m e q - finAt b n k q
    if t < 0 then -1 else if t = 0 then 0 else 1

end Sys2Proof.Machine
end

