-- ==== Sys2Proof/Machine/Float.lean ====
section
/-! DEFINITION. Floating-point operations on patterns: two-source arithmetic, square root, reciprocal,
rounding to integral, the approximated functions within their bounds, compare, classify: R53 to R59,
R98 to R105, R111, R112. -/

namespace Sys2Proof.Machine

/-- x · y + z rounded once; with `prod` false, x + y (R98). -/
def fmaF (f : Fmt) (rm : Nat) (ftz : Bool) (x y z : Nat) : Flt :=
  let a := f.decode (f.flush ftz x)
  let b := f.decode (f.flush ftz y)
  let c := f.decode (f.flush ftz z)
  let nv := orF (orF a.nv b.nv) c.nv
  match a.mul b with
  | none => (f.nan, orF nv fNV)
  | some p =>
    if p.isNan || c.isNan then (f.nan, nv)
    else
      match p.add rm c with
      | none => (f.nan, fNV)
      | some v => f.deliver rm ftz v

/-- x + y, or x − y when `sub` (R98). -/
def addF (sub : Bool) (f : Fmt) (rm : Nat) (ftz : Bool) (x y : Nat) : Flt :=
  let a := f.decode (f.flush ftz x)
  let b := (f.decode (f.flush ftz y)).negIf sub
  if a.isNan || b.isNan then (f.nan, orF a.nv b.nv)
  else
    match a.add rm b with
    | none => (f.nan, fNV)
    | some v => f.deliver rm ftz v

/-- x · y (R98). -/
def mulF (f : Fmt) (rm : Nat) (ftz : Bool) (x y : Nat) : Flt :=
  let a := f.decode (f.flush ftz x)
  let b := f.decode (f.flush ftz y)
  if a.isNan || b.isNan then (f.nan, orF a.nv b.nv)
  else
    match a.mul b with
    | none => (f.nan, fNV)
    | some v => f.deliver rm ftz v

/-- minimumNumber, or maximumNumber when `big`; −0 orders below +0 (R59). -/
def minMaxF (big : Bool) (f : Fmt) (ftz : Bool) (x y : Nat) : Flt :=
  let x := f.flush ftz x
  let y := f.flush ftz y
  let a := f.decode x
  let b := f.decode y
  let nv := orF a.nv b.nv
  if a.isNan && b.isNan then (f.nan, nv)
  else if a.isNan then (y, nv)
  else if b.isNan then (x, nv)
  else
    let c := a.cmp b
    let less := c < 0 || (c == 0 && bitN x f.mag && !bitN y f.mag)
    (if less != big then x else y, nv)

/-- Integer square root by bits, highest first. -/
def isqrtFrom (n : Nat) : Nat → Nat → Nat
  | 0, r => r
  | k + 1, r => isqrtFrom n k (if (r + 2 ^ k) * (r + 2 ^ k) ≤ n then r + 2 ^ k else r)

/-- Square root of m · 2^e to `p` bits with a sticky bit below. -/
def sqrtDy (p : Nat) (m : Nat) (e : Int) : Nat × Int :=
  let k0 := 2 * p + 4
  let k := if (e - k0) % 2 = 0 then k0 else k0 + 1
  let n := m * 2 ^ k
  let r := isqrtFrom n (Nat.log2 n / 2 + 1) 0
  (2 * r + (if r * r = n then 0 else 1), (e - k) / 2 - 1)

/-- Reciprocal of m · 2^e to `p` bits with a sticky bit below. -/
def rcpDy (p : Nat) (m : Nat) (e : Int) : Nat × Int :=
  let k := Nat.log2 m + p + 4
  let q := 2 ^ k / m
  (2 * q + (if q * m = 2 ^ k then 0 else 1), -e - k - 1)

/-- FSQRT (R102 to R105). -/
def sqrtF (f : Fmt) (rm : Nat) (ftz : Bool) (x : Nat) : Flt :=
  match f.decode (f.flush ftz x) with
  | .nan s => (f.nan, if s then fNV else 0)
  | .inf n => if n then (f.nan, fNV) else (f.inf false, 0)
  | .fin n m e =>
    if m = 0 then (f.sign n, 0)
    else if n then (f.nan, fNV)
    else
      let r := sqrtDy (f.fw + 2) m e
      f.round rm ftz false r.1 r.2

/-- FRCP (R102 to R105). -/
def rcpF (f : Fmt) (rm : Nat) (ftz : Bool) (x : Nat) : Flt :=
  match f.decode (f.flush ftz x) with
  | .nan s => (f.nan, if s then fNV else 0)
  | .inf n => (f.sign n, 0)
  | .fin n m e =>
    if m = 0 then (f.inf n, fDZ)
    else
      let r := rcpDy (f.fw + 2) m e
      f.round rm ftz n r.1 r.2

/-- Rounding to an integral value in a direction; only FRINT reports NX (R102, R105). -/
def rintF (nx : Bool) (f : Fmt) (rm : Nat) (ftz : Bool) (x : Nat) : Flt :=
  match f.decode (f.flush ftz x) with
  | .nan s => (f.nan, if s then fNV else 0)
  | .inf n => (f.inf n, 0)
  | .fin n m e =>
    let r := roundAt rm n m e 0
    ((f.round 0 false n r.1 0).1, if nx && r.2 then fNX else 0)

/-! Reference values of the approximated functions: fixed point with 400 fraction bits, far finer than
the bounds of R104 at every input of a 32-bit or 16-bit format (log 5). -/

/-- One, in fixed point. -/
def fx1 : Nat := 2 ^ 400
/-- Product in fixed point. -/
def fxMul (a b : Nat) : Nat := a * b / fx1
/-- Quotient in fixed point. -/
def fxDiv (a b : Nat) : Nat := a * fx1 / b

/-- Sum of z^(2k+1)/(2k+1) with alternating signs when `alt`: atan or atanh of z. -/
def fxAtan (alt : Bool) (z2 : Nat) : (fuel : Nat) → (k pw : Nat) → Int
  | 0, _, _ => 0
  | n + 1, k, pw =>
    let t : Int := (pw / (2 * k + 1) : Nat)
    (if alt && k % 2 == 1 then -t else t) + fxAtan alt z2 n (k + 1) (fxMul pw z2)

/-- Natural logarithm of 2, as 2 · atanh(1/3). -/
def fxLn2 : Nat := (2 * fxAtan false (fx1 / 9) 140 0 (fx1 / 3)).toNat
/-- The circle constant by Machin's formula. -/
def fxPi : Nat := (16 * fxAtan true (fx1 / 25) 100 0 (fx1 / 5) - 4 * fxAtan true (fx1 / 57121) 40 0 (fx1 / 239)).toNat

/-- Taylor sum of exp for 0 ≤ y < 1. -/
def fxExp (y : Nat) : (fuel : Nat) → (k t : Nat) → Nat
  | 0, _, _ => 0
  | n + 1, k, t => t + fxExp y n (k + 1) (fxMul t y / (k + 1))

/-- 2^f for a fraction 0 ≤ f < 1. -/
def fxExp2 (f : Nat) : Nat := fxExp (fxMul f fxLn2) 110 0 fx1

/-- Taylor sum of sin for 0 ≤ y ≤ 2. -/
def fxSin (y2 : Nat) : (fuel : Nat) → (k t : Nat) → Int
  | 0, _, _ => 0
  | n + 1, k, t => (if k % 2 = 0 then (t : Int) else -(t : Int)) + fxSin y2 n (k + 1) (fxMul t y2 / ((2 * k + 2) * (2 * k + 3)))

/-- A dyadic magnitude in fixed point, rounded down. -/
def toFx (m : Nat) (e : Int) : Nat := if 0 ≤ e + 400 then m * 2 ^ (e + 400).toNat else m / 2 ^ (-(e + 400)).toNat

/-- 2^(v/2^400) for a fixed-point exponent of either sign, as m · 2^e. -/
def exp2Dy (v : Int) : Nat × Int := (fxExp2 (v % (fx1 : Int)).toNat, v / (fx1 : Int) - 400)

/-- sin(π · m · 2^e) for a magnitude, with its sign: reduced exactly modulo 2 first (R104). The exponent of a
32-bit format never makes this inexact. -/
def sinpiDy (m : Nat) (e : Int) : Bool × Nat × Int :=
  let u := toFx m e % (2 * fx1)
  let neg := fx1 ≤ u
  let v := u % fx1
  let w := if 2 * v ≤ fx1 then v else fx1 - v
  let y := fxMul w fxPi
  (neg, (fxSin (fxMul y y) 60 0 y).toNat, -400)

/-- The larger of the exponent of a value and of the smallest normal: where its unit in the last place lies. -/
def Fmt.ulpE (f : Fmt) (m : Nat) (e : Int) : Int := max (leadE m e) f.emin - f.fw

/-- Deliver an approximation: a free value, when it lies within `bound` ulp of the exact result (log 5), else
the nearest value; overflow, tininess and NX as R105 gives. -/
def approxF (f : Fmt) (ftz : Bool) (bound fn ty x : Nat) (neg : Bool) (m : Nat) (e : Int) : Flt :=
  let cand := Config.approx fn ty x % 2 ^ (f.mag + 1)
  let near := f.round 0 false neg m e
  let ovf : Bool := match f.decode f.maxb with
    | .fin _ mm me => decide (0 < (FVal.fin false m e).cmp (.fin false mm me))
    | _ => false
  if ovf then (f.inf neg, fOF + fNX)
  else
    let tiny := f.tiny 0 neg m e
    if tiny && ftz then (f.sign neg, fUF + fNX)
    else
      let ok : Bool := match f.decode cand with
        | .fin cn cm ce =>
          let q := min (min ce e) (f.ulpE m e)
          decide ((finAt cn cm ce q - finAt neg m e q).natAbs ≤ bound * 2 ^ (f.ulpE m e - q).toNat)
        | _ => false
      (if ok then cand else near.1, fNX + (if tiny then fUF else 0))

/-- Bound of an approximated function in ulp (R104). -/
def apBound (f : Fmt) (fn : Nat) : Nat := if f.fw = 23 ∧ fn ≠ 0x24 then 2 else 1

/-- Whether m · 2^e is an integer power of two 2^n, and n. -/
def pow2Of (m : Nat) (e : Int) : Option Int := if m = 2 ^ Nat.log2 m then some (leadE m e) else none

/-- An integer as a value. -/
def intVal (n : Int) : FVal := .fin (n < 0) n.natAbs 0

/-- The approximated functions FN 0x24 to 0x29, with their exact cases (R104, R105). -/
def approxFn (fn : Nat) (ty : Nat) (f : Fmt) (ftz : Bool) (x0 : Nat) : Flt :=
  let x := f.flush ftz x0
  let ap := approxF f ftz (apBound f fn) fn ty x
  match f.decode x with
  | .nan s => (f.nan, if s then fNV else 0)
  | .inf n =>
    match fn with
    | 0x24 => if n then (f.nan, fNV) else (f.sign false, 0)
    | 0x25 => if n then (f.sign false, 0) else (f.inf false, 0)
    | 0x26 => if n then (f.nan, fNV) else (f.inf false, 0)
    | 0x29 => f.round 0 ftz n 1 0
    | _ => (f.nan, 0)
  | .fin n m e =>
    let whole := roundAt 1 n m e 0
    let half := roundAt 1 n m (e + 1) 0
    match fn with
    | 0x24 =>
      if m = 0 then (f.inf n, fDZ)
      else if n then (f.nan, fNV)
      else
        match pow2Of m e with
        | some k => if k % 2 = 0 then f.round 0 ftz false 1 (-(k / 2)) else
            let r := rcpDy 200 m e
            let q := sqrtDy 200 r.1 r.2
            ap false q.1 q.2
        | none =>
          let r := rcpDy 200 m e
          let q := sqrtDy 200 r.1 r.2
          ap false q.1 q.2
    | 0x25 =>
      if m = 0 then f.round 0 ftz false 1 0
      else if 20 < leadE m e then (if n then ap false 1 (-100000) else (f.inf false, fOF + fNX))
      else if !whole.2 ∧ (f.round 0 false false 1 (if n then -(whole.1 : Int) else whole.1)).2 = 0 then
        f.round 0 ftz false 1 (if n then -(whole.1 : Int) else whole.1)
      else
        let v : Int := if n then -(toFx m e : Int) else toFx m e
        let r := exp2Dy v
        ap false r.1 r.2
    | 0x26 =>
      if m = 0 then (f.inf true, fDZ)
      else if n then (f.nan, fNV)
      else
        match pow2Of m e with
        | some k => f.deliver 0 ftz (intVal k)
        | none =>
          let lead := leadE m e
          let y := toFx m (e - lead)
          let z := fxDiv (y - fx1) (y + fx1)
          let ln := (2 * fxAtan false (fxMul z z) 140 0 z).toNat
          let v : Int := lead * (fx1 : Int) + (fxDiv ln fxLn2 : Nat)
          ap (v < 0) v.natAbs (-400)
    | 0x27 =>
      if !whole.2 then (f.sign n, 0)
      else if !half.2 then f.round 0 ftz ((half.1 / 2 % 2 == 1) != n) 1 0
      else
        let r := sinpiDy m e
        ap (r.1 != n) r.2.1 r.2.2
    | 0x28 =>
      if !whole.2 then f.round 0 ftz (whole.1 % 2 == 1) 1 0
      else if !half.2 then (f.sign false, 0)
      else
        let r := sinpiDy (toFx m e + fx1 / 2) (-400)
        ap r.1 r.2.1 r.2.2
    | _ =>
      if m = 0 then (f.sign n, 0)
      else if 0 ≤ (FVal.fin false m e).cmp (.fin false 10 0) then f.round 0 ftz n 1 0
      else
        let t := fxDiv (2 * toFx m e) fxLn2
        let u := exp2Dy (-(t : Int))
        let w := toFx u.1 u.2
        ap n (fxDiv (fx1 - w) (fx1 + w)) (-400)

/-- A compare condition of FCMP: 0 EQ, 1 NE, 2 LT, 3 LE, 4 UN; only NV for a signalling NaN (R111). -/
def cmpF (cc : Nat) (f : Fmt) (ftz : Bool) (x y : Nat) : Bool × Nat :=
  let a := f.decode (f.flush ftz x)
  let b := f.decode (f.flush ftz y)
  let un := a.isNan || b.isNan
  let c := a.cmp b
  (match cc with
   | 0 => !un && c == 0
   | 1 => un || c != 0
   | 2 => !un && c < 0
   | 3 => !un && c ≤ 0
   | _ => un, orF a.nv b.nv)

/-- One bit for the class of a pattern (R112). -/
def classF (f : Fmt) (x : Nat) : Nat :=
  match f.decode x with
  | .nan s => if s then 256 else 512
  | .inf n => if n then 1 else 128
  | .fin n m _ =>
    if m = 0 then (if n then 8 else 16)
    else if m < 2 ^ f.fw then (if n then 4 else 32)
    else if n then 2 else 64

end Sys2Proof.Machine
end

