-- ==== Sys2Proof/Machine/FloatForms.lean ====
section
/-! DEFINITION. Operand forms of floating-point words: elements of a type (R48, R97), literals of a type
(R25), and the merging of flags into FPSTAT (R101). -/

namespace Sys2Proof.Machine

/-- Rounding direction of the wave (R21). -/
def State.rm (s : State) : Nat := s.cw.fpmode.toNat % 4
/-- FTZ of the wave (R21). -/
def State.ftz (s : State) : Bool := bitN s.cw.fpmode.toNat 2
/-- FTZ as it acts on a type: never on .F64 (R56). -/
def State.ftzT (s : State) (t : FTy) : Bool := t != .f64 && s.ftz

/-- Number of a type in MOD (R102). -/
def tyNum : FTy → Nat
  | .f32 => 0
  | .f64 => 1
  | .f16 => 2
  | .bf16 => 3

/-- A literal as a floating pattern; every literal is exact in every IEEE format (R25). -/
def litF (f : Fmt) (x : Src) : Nat :=
  let n := x.name.toInt
  (f.round 0 false (n < 0) n.natAbs 0).1

/-- A source of a floating type as a lane reads it (R97): a pair for .F64, both halves of a literal for a
packed type. -/
def State.srcT (s : State) (t : FTy) (x : Src) (lane : Nat) : W64 :=
  if x.kind = .lit then
    match t with
    | .f64 => BitVec.ofNat 64 (litF fmt64 x)
    | .f32 => BitVec.ofNat 64 (litF fmt32 x)
    | t => BitVec.ofNat 64 (litF (fmtOf t) x * 65537)
  else if t = .f64 then s.src64 x lane
  else (s.src32 x lane).setWidth 64

/-- D of a form that reads it, by type. -/
def State.dstT (s : State) (t : FTy) (d : RName) (lane : Nat) : W64 :=
  if t = .f64 then s.cw.readV64 d.toNat lane else (s.cw.readV d.toNat lane).setWidth 64

/-- Apply an operation on patterns to each element of a type (R48). -/
def mapEls (t : FTy) (g : Nat → Nat → Nat → Flt) (x y z : W64) : W64 × Nat :=
  match t with
  | .f64 =>
    let r := g x.toNat y.toNat z.toNat
    (BitVec.ofNat 64 r.1, r.2)
  | .f32 =>
    let r := g (x.toNat % 2 ^ 32) (y.toNat % 2 ^ 32) (z.toNat % 2 ^ 32)
    (BitVec.ofNat 64 r.1, r.2)
  | _ =>
    let lo := g (x.toNat % 65536) (y.toNat % 65536) (z.toNat % 65536)
    let hi := g (x.toNat / 65536 % 65536) (y.toNat / 65536 % 65536) (z.toNat / 65536 % 65536)
    (BitVec.ofNat 64 (lo.1 + 65536 * hi.1), orF lo.2 hi.2)

/-- Merge flags into FPSTAT (R101). -/
def State.mergeF (s : State) (fl : Nat) : State := s.modCw fun w => { w with fpstat := w.fpstat ||| BitVec.ofNat 32 (fl % 32) }

/-- A vector form whose lanes also raise flags: the results, then the union of the flags (R98, R101). -/
def vecFlt (ok : Bool) (srcs : List Src) (d : RName) (wide : Bool) (f : State → Nat → W64 × Nat) (s : State) : Out :=
  issueFixed ok srcs
    (fun s => .done ((s.putLanes d wide fun n => (f s n).1).mergeF (((lanesOf s.memb).map fun n => (f s n).2).foldl orF 0))) s

/-- Two-source arithmetic of a type (R97, R98). -/
def flt2 (t : FTy) (g : Fmt → Nat → Bool → Nat → Nat → Flt) (d : RName) (a b : Src) (s : State) : Out :=
  vecFlt (dstTy t d && srcTy t a && srcTy t b) [a, b] d (t == .f64)
    (fun s n => mapEls t (fun x y _ => g (fmtOf t) s.rm (s.ftzT t) x y) (s.srcT t a n) (s.srcT t b n) 0) s

/-- FFMA: D is read (R98, R99). -/
def flt3 (t : FTy) (d : RName) (a b : Src) (s : State) : Out :=
  vecFlt (dstRTy t d && srcTy t a && srcTy t b) [a, b] d (t == .f64)
    (fun s n => mapEls t (fun x y z => fmaF (fmtOf t) s.rm (s.ftzT t) x y z) (s.srcT t a n) (s.srcT t b n) (s.dstT t d n)) s

/-- FFMAL: z is the lane's l0 as it stands when the word issues (R100). -/
def fltL (t : FTy) (d : RName) (a b : Src) (s : State) : Out :=
  vecFlt (dstTy t d && srcTy t a && srcTy t b) [a, b] d (t == .f64)
    (fun s n => mapEls t (fun x y z => fmaF (fmtOf t) s.rm (s.ftzT t) x y z) (s.srcT t a n) (s.srcT t b n)
      (s.cw.lastq.get n 0)) s

/-- A unary word of a type; `all` is false for the approximated functions, which exclude .F64 (R102). -/
def flt1 (all : Bool) (g : FTy → Nat → Bool → Nat → Flt) (d : RName) (a : Src) (t : FTy) (s : State) : Out :=
  vecFlt (dstTy t d && srcTy t a && (all || t != .f64)) [a] d (t == .f64)
    (fun s n => mapEls t (fun x _ _ => g t s.rm (s.ftzT t) x) (s.srcT t a n) 0 0) s

/-- All ones in one element of a type (R111). -/
def tyOnes : FTy → Nat
  | .f64 => 2 ^ 64 - 1
  | .f32 => 2 ^ 32 - 1
  | _ => 65535

/-- FCMP: D compared with A, all ones or 0 for each element (R111). -/
def fltCmp (cc : Nat) (d : RName) (a : Src) (t : FTy) (s : State) : Out :=
  vecFlt (dstRTy t d && srcTy t a) [a] d (t == .f64)
    (fun s n => mapEls t
      (fun x y _ =>
        let r := cmpF cc (fmtOf t) (s.ftzT t) x y
        (if r.1 then tyOnes t else 0, r.2))
      (s.dstT t d n) (s.srcT t a n) 0) s

end Sys2Proof.Machine
end

