-- ==== Sys2Proof/Machine/Convert.lean ====
section
/-! DEFINITION. Conversions, the Q4X block, and their words: R49, R61 to R67, R106 to R110. -/

namespace Sys2Proof.Machine

/-- Rounding direction of a conversion's MOD (R106). -/
def rmOf (m : Rm) (cur : Nat) : Nat :=
  match m with
  | .cur => cur
  | .rz => 1
  | .ru => 2
  | .rd => 3

/-- Conversion between floating formats; a target without infinities saturates, or gives its NaN with
.NSAT, and sets OF and NX (R57, R61, R62). -/
def cvtF (src dst : Fmt) (rm : Nat) (nsat : Bool) (x : Nat) : Flt :=
  match src.decode x with
  | .nan s => (dst.nan, if s then fNV else 0)
  | .inf n => if dst.hasInf then (dst.inf n, 0) else (if nsat then dst.nan else dst.sign n + dst.maxb, fOF + fNX)
  | .fin n m e =>
    let r := dst.round rm false n m e
    if !dst.hasInf && nsat && r.2 / fOF % 2 == 1 then (dst.nan, r.2) else r

/-- RU_E5M3 of a value (R55, R65): a value below zero has no E5M3 result, which so differs from it. -/
def ruE5M3 (v : FVal) : Flt :=
  match v with
  | .nan s => (0xFF, if s then fNV else 0)
  | .inf n => if n then (0xFF, fNV + fNX) else (0xFE, fOF + fNX)
  | .fin n m e =>
    if m = 0 then (0, 0)
    else if n then (0xFF, fNV + fNX)
    else fmtE5M3.round 2 false false m e

/-- A floating value to an integer of `w` bits (R63). -/
def toInt (src : Fmt) (w : Nat) (signed : Bool) (rm x : Nat) : Flt :=
  let hi : Int := if signed then 2 ^ (w - 1) - 1 else 2 ^ w - 1
  let lo : Int := if signed then -(2 ^ (w - 1)) else 0
  let enc := fun (v : Int) => (v % (2 ^ w : Int)).toNat
  match src.decode x with
  | .nan _ => (0, fNV)
  | .inf n => (enc (if n then lo else hi), fNV)
  | .fin n m e =>
    let r := roundAt rm n m e 0
    let v : Int := if n then -(r.1 : Int) else r.1
    if v < lo ∨ hi < v then (enc (if n then lo else hi), fNV) else (enc v, if r.2 then fNX else 0)

/-- An integer to a floating format (R64). -/
def fromInt (dst : Fmt) (rm : Nat) (v : Int) : Flt := dst.round rm false (v < 0) v.natAbs 0

/-! The Q4X block (R49, R66, R67). -/

/-- Slot `i` of a block (R49). -/
def slotOf (blk i : Nat) : Nat := blk / 16 ^ i % 16
/-- A four-bit two's-complement integer. -/
def sext4 (n : Nat) : Int := if 8 ≤ n then (n : Int) - 16 else n

/-- Value of slot `i` of a block under an E5M3 scale: a multiple of 2^−6 of the scale (R49). DEDUCED: under a zero scale the product
of R49 is read as a product of signed values, so a slot below zero is −0; the spec states no sign there (R49, R68, R110; log 48). -/
def q4xVal (blk scale i : Nat) : FVal :=
  match fmtE5M3.decode scale with
  | .fin _ sm se =>
    let lo := slotOf blk (i / 2 * 2)
    let hi := slotOf blk (i / 2 * 2 + 1)
    if i % 2 = 0 then
      if lo = 8 then .fin (8 ≤ hi) (sm * 4 ^ (hi % 8)) (se - 6)
      else .fin (sext4 lo < 0) ((sext4 lo).natAbs * sm) se
    else if lo = 8 ∨ hi = 8 then .fin false 0 0
    else .fin (sext4 hi < 0) ((sext4 hi).natAbs * sm) se
  | _ => .nan false

/-- Whether |a| < |b| for finite values. -/
def absLt (a b : Nat × Int) : Bool :=
  let q := min a.2 b.2
  a.1 * 2 ^ (a.2 - q).toNat < b.1 * 2 ^ (b.2 - q).toNat

/-- |x| / s rounded to the nearest integer, ties to even, with exact division. -/
def divNear (x s : Nat × Int) : Nat :=
  let q := min x.2 s.2
  let a := x.1 * 2 ^ (x.2 - q).toNat
  let b := s.1 * 2 ^ (s.2 - q).toNat
  let n := a / b
  let r := a % b
  if b < 2 * r ∨ (2 * r = b ∧ n % 2 = 1) then n + 1 else n

/-- Whether |x| < k · s / 2, exactly. -/
def divLt (x s : Nat × Int) (k : Nat) : Bool :=
  let q := min x.2 s.2
  2 * (x.1 * 2 ^ (x.2 - q).toNat) < k * (s.1 * 2 ^ (s.2 - q).toNat)

/-- |x| / 7 rounded upward to E5M3 with its flags (R65, R66): the quotient to many bits with a sticky bit. -/
def seventh (x : Nat × Int) : Flt :=
  let n := x.1 * 2 ^ 64 / 7
  ruE5M3 (.fin false (2 * n + (if n * 7 = x.1 * 2 ^ 64 then 0 else 1)) (x.2 - 65))

/-- QPACK of 32 FP32 patterns: the block, the scale byte and the flags (R66). -/
def qpackOp (xs : List Nat) : Nat × Nat × Nat :=
  let vs := xs.map fmt32.decode
  if vs.any FVal.isNan then (0, 0xFF, (vs.map FVal.nv).foldl orF 0)
  else
    -- an infinite input is larger than every finite one; its quotient saturates as R65 and R66 give
    let mag := fun i =>
      match vs.getD i (.fin false 0 0) with
      | .fin _ m e => (m, e)
      | _ => (1, (1000 : Int))
    let neg := fun i =>
      match vs.getD i (.fin false 0 0) with
      | .fin n _ _ => n
      | .inf n => n
      | _ => false
    let isInf := fun i =>
      match vs.getD i (.fin false 0 0) with
      | .inf _ => true
      | _ => false
    let ev := ((List.range 16).map (2 * ·)).foldl (fun b i => if absLt (mag b) (mag i) then i else b) 0
    let others := (List.range 32).filter (· != ev)
    let mx := others.foldl (fun b i => if absLt (mag b) (mag i) then i else b) (if ev = 0 then 1 else 0)
    let m0 := (mag mx).1 = 0
    if m0 ∧ (mag ev).1 = 0 then (0, 0, 0)
    else
      let top := if m0 then ev else mx
      let sc := if isInf top then ruE5M3 (.inf false) else seventh (mag top)
      let s := match fmtE5M3.decode sc.1 with
        | .fin _ m e => (m, e)
        | _ => (1, (0 : Int))
      let outlier : Bool := !(decide m0) && !divLt (mag ev) s 23
      let j := if divLt (mag ev) s 80 then 5 else if divLt (mag ev) s 320 then 6 else 7
      let code := fun i =>
        if outlier && i == ev then 8
        else if outlier && i == ev + 1 then (if neg ev then 8 else 0) + j
        else
          let n := min 7 (divNear (mag i) s)
          if neg i && n != 0 then 16 - n else n
      let blk := (List.range 32).foldl (fun b i => b + code i * 16 ^ i) 0
      let nx := (List.range 32).any fun i =>
        isInf i || (q4xVal blk sc.1 i).cmp (vs.getD i (.fin false 0 0)) != 0
      (blk, sc.1, orF sc.2 (if nx then fNX else 0))

/-! Forms. -/

/-- A 32-bit floating source of a conversion: a literal as FP32 (R107). -/
def State.srcF32 (s : State) (a : Src) (n : Nat) : Nat := (s.srcT .f32 a n).toNat % 2 ^ 32

/-- A pair of FP32: a literal's value stands in both words (R107). -/
def State.srcPairF32 (s : State) (a : Src) (n : Nat) : Nat :=
  if a.kind = .lit then litF fmt32 a * (2 ^ 32 + 1) else (s.src64 a n).toNat

/-- A source of packed eight-bit floats: a literal fills all four bytes, rounded to nearest (R107). -/
def State.srcBytes (s : State) (f : Fmt) (a : Src) (n : Nat) : Nat :=
  if a.kind = .lit then litF f a * 0x01010101 else (s.src32 a n).toNat

/-- A conversion of one element (R108). -/
def cvt1 (ok wide : Bool) (src : State → Nat → Nat) (g : Nat → Nat → Flt) (d : RName) (a : Src) (s : State) : Out :=
  vecFlt ok [a] d wide
    (fun s n =>
      let r := g s.rm (src s n)
      (BitVec.ofNat 64 r.1, r.2)) s

/-- A conversion of the two halves of a word into a pair of FP32 (R108). -/
def cvtWiden (f : Fmt) (shift : Nat) (w : Nat) (src : State → Nat → Nat) (d : RName) (a : Src) (s : State) : Out :=
  vecFlt (dst64 d && Sys2Proof.src32 a) [a] d true
    (fun s n =>
      let x := src s n / 2 ^ shift
      let lo := cvtF f fmt32 0 false (x % 2 ^ w)
      let hi := cvtF f fmt32 0 false (x / 2 ^ w % 2 ^ w)
      (BitVec.ofNat 64 (lo.1 + 2 ^ 32 * hi.1), orF lo.2 hi.2)) s

/-- A conversion of a pair of FP32 into two elements of `w` bits at bit `sh` of D; the rest of D is kept when
`keep` (R108). -/
def cvtNarrow (f : Fmt) (w sh : Nat) (keep nsat : Bool) (r : Rm) (d : RName) (a : Src) (s : State) : Out :=
  vecFlt ((if keep then dstR d else dst32 d) && Sys2Proof.src64 a) [a] d false
    (fun s n =>
      let x := s.srcPairF32 a n
      let lo := cvtF fmt32 f (rmOf r s.rm) nsat (x % 2 ^ 32)
      let hi := cvtF fmt32 f (rmOf r s.rm) nsat (x / 2 ^ 32)
      let v := (lo.1 + 2 ^ w * hi.1) * 2 ^ sh
      let old := if keep then (s.cw.readV d.toNat n).toNat else 0
      let kept := old % 2 ^ sh + old / 2 ^ (sh + 2 * w) * 2 ^ (sh + 2 * w)
      (BitVec.ofNat 64 (v + kept), orF lo.2 hi.2)) s

/-- Signed value of a pattern of `w` bits. -/
def sVal (w x : Nat) : Int := if 2 ^ (w - 1) ≤ x then (x : Int) - 2 ^ w else x

end Sys2Proof.Machine
end

