-- ==== Sys2Proof/Machine/Tree.lean ====
section
/-! DEFINITION. The reduction trees of a die's mesh: their programming and checks, combining units, time-outs, and the
root's write (R72, R178, R393, R397, R403 to R406). -/

namespace Sys2Proof.Machine

/-! Programming (R397, R403). -/

/-- Router of cluster `k` of a die (R397). -/
def clusterRouter (k : Nat) : Nat :=
  let pp := k / 4
  let c := k % 4
  8 * (4 * (pp / 2) + 1 + c / 2) + 4 * (pp % 2) + 1 + c % 2

/-- Cluster of a router, none for one that holds a slice. -/
def routerCluster (r : Nat) : Option Nat := (List.range 16).find? fun k => clusterRouter k == r

/-- Header word of a tree. -/
def Die.treeHdr (x : Die) (t : Nat) : Nat := x.reg (0x500000 + 2048 * t)
/-- Entry of a router in a tree. -/
def Die.treeEnt (x : Die) (t r : Nat) : Nat := x.reg (0x500100 + 2048 * t + 16 * r)
/-- Time-out of a tree: 0 selects 5,000 (R403). -/
def Die.treeTout (x : Die) (t : Nat) : Nat := if x.treeHdr t / 2 ^ 32 = 0 then 5000 else x.treeHdr t / 2 ^ 32
/-- The tree is in service. -/
def Die.treeOn (x : Die) (t : Nat) : Bool := bitN (x.treeHdr t) 0

def entV (e : Nat) : Bool := bitN e 63
def entRoot (e : Nat) : Bool := bitN e 62
def entLocal (e : Nat) : Bool := bitN e 61
/-- PARENT field. -/
def entParent (e : Nat) : Nat := field e 48 6
/-- Child slot of port 0 N, 1 E, 2 S, 3 W: the router, none for one that is not valid. -/
def entChild (e p : Nat) : Option Nat := if bitN e (47 - 8 * p) then some (field e (40 - 8 * p) 6) else none
/-- Ports at which a router awaits contributions, in the order of R72. -/
def entPorts (e : Nat) : List Nat := ((List.range 4).filter fun p => (entChild e p).isSome) ++ (if entLocal e then [4] else [])

/-- Routers that take part in a tree. -/
def Die.treeRouters (x : Die) (t : Nat) : List Nat := (List.range 64).filter fun r => entV (x.treeEnt t r)

/-- Whether a router reaches the root along parents. -/
def Die.reachesRoot (x : Die) (t r : Nat) : (fuel : Nat) → Bool
  | 0 => false
  | n + 1 => entV (x.treeEnt t r) && (entRoot (x.treeEnt t r) || x.reachesRoot t (entParent (x.treeEnt t r)) n)

/-- Whether router `a` stands at or below router `b` in a tree. -/
def Die.below (x : Die) (t a b : Nat) : (fuel : Nat) → Bool
  | 0 => false
  | n + 1 => a == b || (!entRoot (x.treeEnt t a) && x.below t (entParent (x.treeEnt t a)) b n)

/-- Result of the checks at an enable (R403); the lowest number that applies. A six-bit router number is never outside
0 to 63, so 5 does not arise. -/
def Die.treeCheck (x : Die) (t : Nat) : Nat :=
  let rs := x.treeRouters t
  let ent := x.treeEnt t
  if (rs.filter fun r => entRoot (ent r)).length ≠ 1 then 1
  else if rs.any fun r =>
      (!entRoot (ent r) && !((List.range 4).any fun p => entV (ent (entParent (ent r))) && entChild (ent (entParent (ent r))) p == some r)) ||
      (List.range 4).any fun p => match entChild (ent r) p with
        | some c => !entV (ent c) || entRoot (ent c) || entParent (ent c) != r
        | none => false then 2
  else if rs.any fun r => !x.reachesRoot t r 65 then 3
  else if rs.any fun r => entLocal (ent r) && (routerCluster r).isNone then 4
  else 0

/-! Commands of a tree. -/

/-- Whether an entry contributes to a tree. -/
def Entry.onTree (e : Entry) (t : Nat) : Bool := bitN (dw e.desc 2) 4 && field (dw e.desc 2) 8 4 == t

/-- Started commands of a die that contribute to a tree: core and entry. -/
def State.treeCmds (s : State) (d t : Nat) : List (Nat × Entry) :=
  ((s.cores.filter fun c => dieOf c.1 == d).map fun c =>
    (c.2.coll.entries.filter fun e => e.onTree t && e.st != .queued).map fun e => (c.1, e)).flatten

/-- Change a tree's run state. -/
def State.modTree (s : State) (d t : Nat) (f : Tree → Tree) : State := s.modDie d fun x => { x with trees := x.trees.upd t {} f }
/-- A tree's run state. -/
def State.tree (s : State) (d t : Nat) : Tree := (s.die d).trees.get t {}

/-- TREE_ENABLE: a write of `val` to a tree's header. EN = 1 checks the entries; counts return to 0 when EN goes from 0
to 1; EN = 0 discards units and ends the commands that still have one with error (R403, R404, R406). -/
def State.treeEnable (s : State) (d t val : Nat) : State :=
  let x := s.die d
  let off := 0x500000 + 2048 * t
  let keep := val / 2 ^ 32 * 2 ^ 32
  if x.treeOn t then
    if bitN val 0 then s
    else
      let s1 := (s.modDie d fun y => y.setReg off (keep + field (x.treeHdr t) 4 4 * 16)).modTree d t fun _ => {}
      ((s.treeCmds d t).filter fun c => c.2.st != .landed).foldl (fun u c => u.completeEntry c.1 2 c.2.seq (some (0x1D, dw64 c.2.desc 7))) s1
  else if bitN val 0 then
    let r := x.treeCheck t
    (s.modDie d fun y => y.setReg off (keep + 16 * r + if r = 0 then 1 else 0)).modTree d t fun v => if r = 0 then { v with rounds := [] } else v
  else s.modDie d fun y => y.setReg off (keep + field (x.treeHdr t) 4 4 * 16)

/-- TREE_ENABLE (R403, R404, R406). -/
def execTreeEnable (die tree val : Nat) (s : State) : Out := .next (s.treeEnable die (tree % 16) (val % 2 ^ 64))

/-! Combining (R72, R404). -/

/-- One value of a combined packet: the present children in port order (R72). -/
def addPorts (xs : List Nat) : Nat :=
  match xs with
  | [] => 0
  | x :: r => r.foldl (fun a b => (addF false fmt32 0 false a b).1) x

/-- The 32 sums of a unit. -/
def RUnit.sums (u : RUnit) : List W32 :=
  (List.range 32).map fun i => BitVec.ofNat 32 (addPorts ((List.range 5).filterMap fun p => if u.vals.has p then some ((u.vals.get p []).getD i 0).toNat else none))

/-- First contribution of a unit in port order (R178). -/
def RUnit.first (u : RUnit) : Contrib := ((List.range 5).findSome? fun p => if u.dsts.has p then some (u.dsts.get p {}) else none).getD {}

/-- Change a unit. -/
def State.modUnit (s : State) (d t : Nat) (u : RUnit) (f : RUnit → RUnit) : State :=
  s.modTree d t fun v =>
    { v with units := v.units.map fun (x : RUnit) => if x.router = u.router ∧ x.round = u.round ∧ x.pkt = u.pkt then f x else x }

/-- Order of units: round, then packet. -/
def pairLt (a b : Nat × Nat) : Bool := a.1 < b.1 || (a.1 == b.1 && a.2 < b.2)

/-- Units of a router, the lowest pair first. -/
def Tree.unitsOf (v : Tree) (r : Nat) : List RUnit :=
  (v.units.filter fun u => u.router == r).mergeSort fun a b => !pairLt (b.round, b.pkt) (a.round, a.pkt)

/-- The commands whose contribution to a packet has entered the tree. -/
def State.sentCmds (s : State) (d t round pkt : Nat) : List (Nat × Entry) :=
  (s.treeCmds d t).filter fun c => c.2.round == round && c.2.done.has pkt

/-- A contribution is dropped as late: the commands under it complete at once, with the time-out trap (R393). -/
def State.dropLate (s : State) (d t router round pkt : Nat) (port : Nat) : State :=
  let ent := (s.die d).treeEnt t router
  let under := fun core =>
    let k := clusterRouter (core % 64 / 4)
    if port = 4 then k == router else match entChild ent port with | some c => (s.die d).below t k c 65 | none => false
  ((s.sentCmds d t round pkt).filter fun c => under c.1).foldl
    (fun u c => u.modEntry c.1 2 c.2.seq fun e => { e with st := .landed, late := true }) s

/-- The root has written a unit: each contributor's command counts it, and has landed with its last packet (R178,
R405). -/
def State.countUnit (s : State) (d t : Nat) (u : RUnit) : State :=
  (s.sentCmds d t u.round u.pkt).foldl
    (fun v c => v.modEntry c.1 2 c.2.seq fun e =>
      let n := e.retn + 1
      { e with retn := n, late := e.late || u.mark, st := if n = dw e.desc 1 / 32 then .landed else e.st }) s

/-- The root's write of a unit fails: each contributor's command ends with error (R180). -/
def State.failUnit (s : State) (d t : Nat) (u : RUnit) (va : Nat) : State :=
  (s.sentCmds d t u.round u.pkt).foldl (fun v c => v.completeEntry c.1 2 c.2.seq (some (0x1D, va))) s

/-- A unit leaves its router. -/
def State.unitDone (s : State) (d t : Nat) (u : RUnit) : State :=
  s.modTree d t fun v =>
    { v with
      units := v.units.filter fun x => x.router != u.router || x.round != u.round || x.pkt != u.pkt
      last := v.last.set u.router (u.round + 1, u.pkt + 1) }

/-- The root's write of a unit, by the DST, COUNT and context of its first contribution; a packet beyond that COUNT is not
written. A page fault, a walk and a place that answers no request now wait (R178, R180, R405, R422). -/
def State.writeUnit (s : State) (d t : Nat) (u : RUnit) : State :=
  let c := u.first
  if c.count ≤ 32 * u.pkt then (s.unitDone d t u).countUnit d t u
  else
    match s.span d c.ctx c.lid (c.dst + 128 * u.pkt) 128 true false with
    | .busy _ => s
    | .walk va far =>
      if u.wleft = 1 then ((match far with | some pa => s.logCross d c.ctx va pa | none => s).unitDone d t u).failUnit d t u va
      else if u.wleft = 0 then s.modUnit d t u fun x => { x with wleft := if far.isSome then (s.die d).cdTicks else 10001, wfar := far }
      else s
    | .pause a => s.raiseFault d c.ctx (a / 4096) 1 false true
    | .fail a => (s.unitDone d t u).failUnit d t u a
    | .ok ps => (((s.visit d c.ctx c.hint ps).writeParts c.ctx (packWords u.sums) ps).unitDone d t u).countUnit d t u

/-- Forward the lowest unit of a router when it is complete or its time has run out: to the parent, or at the root to
memory (R404, R405). -/
def State.forwardUnit (s : State) (d t r : Nat) : State :=
  match ((s.tree d t).unitsOf r).head? with
  | none => s
  | some u =>
    let ent := (s.die d).treeEnt t r
    if !u.full then s
    else if !entRoot ent then
      let par := entParent ent
      let port := ((List.range 4).find? fun p => entChild ((s.die d).treeEnt t par) p == some r).getD 0
      let c := u.first
      let fl : Flit :=
        { tree := t, router := par, port := port, round := u.round, pkt := u.pkt, vals := u.sums, mark := u.mark
          dst := c.dst, core := c.core, count := c.count, ctx := c.ctx, lid := c.lid, hint := c.hint }
      (s.unitDone d t u).modTree d t fun v => { v with flits := v.flits ++ [fl] }
    else s.writeUnit d t u

/-- REDUCTION_CONTRIBUTION: flit `k` of a tree reaches its router; flits of one link keep their order, and one whose
unit has no place waits (R404). -/
def execReductionContribution (die tree k : Nat) (s : State) : Out :=
  let v := s.tree die tree
  match v.flits[k]? with
  | none => .next s
  | some f =>
    if ((v.flits.take k).any fun g => g.router == f.router && g.port == f.port) || !(s.die die).treeOn tree then .next s
    else
      let r := f.router
      let s1 := s.modTree die tree fun w => { w with flits := w.flits.eraseIdx k }
      let last := v.last.get r (0, 0)
      let mine := v.unitsOf r
      if last != (0, 0) && !pairLt last (f.round + 1, f.pkt + 1) then .next (s1.dropLate die tree r f.round f.pkt f.port)
      else
        let old := mine.find? fun u => u.round == f.round && u.pkt == f.pkt
        if old.isNone && 8 ≤ mine.length then .next s
        else
          let u0 : RUnit := old.getD { router := r, round := f.round, pkt := f.pkt, left := (s.die die).treeTout tree }
          let vals := u0.vals.set f.port f.vals
          let full := u0.full || (entPorts ((s.die die).treeEnt tree r)).all fun p => vals.has p
          let c : Contrib := { dst := f.dst, core := f.core, count := f.count, ctx := f.ctx, lid := f.lid, hint := f.hint }
          let u : RUnit := { u0 with vals := vals, mark := u0.mark || f.mark, full := full, dsts := u0.dsts.set f.port c }
          let s2 := s1.modTree die tree fun w =>
            { w with units := u :: w.units.filter fun x => x.router != r || x.round != f.round || x.pkt != f.pkt }
          .next (s2.forwardUnit die tree r)

/-- REDUCTION_UNIT_TIMEOUT: the lowest unit of a router has waited TOUT since its first contribution, so its partial sum
goes on, marked incomplete; a unit that could not be forwarded before goes on now (R404). -/
def execReductionUnitTimeout (die tree router : Nat) (s : State) : Out :=
  match ((s.tree die tree).unitsOf router).head? with
  | none => .next s
  | some u =>
    if u.full then .next (s.forwardUnit die tree router)
    else if u.left ≠ 0 then .next s
    else
      .next ((s.modUnit die tree u fun x => { x with full := true, mark := true }).forwardUnit die tree router)

end Sys2Proof.Machine
end

