-- ==== Sys2Proof/Machine/EngStep.lean ====
section
/-! DEFINITION. The steps of the copy, gather and collective engines: R174, R176 to R181, R320, R321, R325 to R327. -/

namespace Sys2Proof.Machine

/-- Cores that an engine of a class serves (R320). -/
def engSize (cls : Nat) : Nat :=
  match cls with
  | 0 => 4
  | 1 => 16
  | _ => 64

/-- Whether two cores' chains of a class are served by one engine (R320). -/
def served2 (cls a b : Nat) : Bool := a / engSize cls == b / engSize cls

/-- Entries that an engine of a class runs at once (R320). -/
def engPlaces (cls : Nat) : Nat :=
  match cls with
  | 0 => 16
  | 1 => 32
  | _ => 64

/-- Whether the copy of a CPYM has landed. -/
def Core.copied (c : Core) (f : Follow) : Bool :=
  f.landed || c.copy.entries.any fun e => e.seq == f.chainSeq && e.st == .landed

/-- Whether the follow-ons of a CPYM may enter the chain as far as copies go: its own and every earlier copy of the chain to OBA or
OBB have landed (R194). -/
def Core.followDue (c : Core) (f : Follow) : Bool :=
  c.copied f &&
  !(c.copy.entries.any fun e =>
      e.seq < f.chainSeq && e.st != .landed && ctlDsp e.desc == 2 && e.gid == f.gid &&
      (dw e.desc 8 % 16 == field f.word.toNat 2 4 || dw e.desc 8 % 16 == field f.word.toNat 6 4))

/-- Running places that a core's chain takes: entries that have started, a paused one too (R321), and follow-ons whose copy is over
and that wait for room in the matrix chain (R332). -/
def Core.places (c : Core) (cls : Nat) : Nat :=
  ((c.chain cls).entries.filter fun e => e.st != .queued).length +
  (if cls = 0 ∧ 32 ≤ c.mchain.length then
    (c.follows.filter fun f => c.followDue f && !c.copy.entries.any fun e => e.seq == f.chainSeq).length else 0)

/-- Running places taken at the engine that serves a core's chain (R321, R332). -/
def State.engBusy (s : State) (core cls : Nat) : Nat :=
  ((s.cores.filter fun c => served2 cls c.1 core).map fun c => c.2.places cls).sum

/-- The oldest unstarted entry of a chain, when it can be taken: an ORDER entry waits until every earlier one has completed
(R174, R321). -/
def Chain.takeable (h : Chain) : Option Entry :=
  match h.entries.find? fun e => e.st == .queued with
  | none => none
  | some e => if ctlOrder e.desc && (h.entries.head?.map (·.seq)) != some e.seq then none else some e

/-- Place of an engine's chain pointer on its die. -/
def engKey (core cls : Nat) : Nat := 64 * cls + core % 64 / engSize cls

/-- Whether a core's chain is the next that its engine takes from: round robin over its chains that have an entry to take (R321). -/
def State.engTurn (s : State) (core cls : Nat) : Bool :=
  let n := engSize cls
  let at0 := (s.die (dieOf core)).engNext.get (engKey core cls) 0
  let dist := fun c => (c % n + n - at0 % n) % n
  (s.cores.filter fun c => served2 cls c.1 core && (c.2.chain cls).takeable.isSome).all fun c => dist core ≤ dist c.1

/-- ENGINE_ENTRY_START: the engine takes the oldest unstarted entry of its next chain. A tree command takes its round, or ends
with error (R174, R179, R321, R404, R406). -/
def execEngineEntryStart (core cls : Nat) (s : State) : Out :=
  let d := dieOf core
  match ((s.core core).chain cls).takeable with
  | none => .next s
  | some e =>
    if 3 ≤ cls || (s.die d).dbg || engPlaces cls ≤ s.engBusy core cls || !s.engTurn core cls then .next s
    else
      let s1 := s.modDie d fun x => { x with engNext := x.engNext.set (engKey core cls) (core % engSize cls + 1) }
      if cls = 2 ∧ bitN (dw e.desc 2) 4 then
        let t := field (dw e.desc 2) 8 4
        let k := core % 64 / 4
        if !(s.die d).treeOn t || !entLocal ((s.die d).treeEnt t (clusterRouter k)) || !entV ((s.die d).treeEnt t (clusterRouter k)) then
          .next (s1.completeEntry core cls e.seq (some (0x1D, dw64 e.desc 7)))
        else
          let r := (s.tree d t).rounds.get k 0
          .next ((s1.modEntry core cls e.seq fun x => { x with st := .running, round := r }).modTree d t fun v =>
            { v with rounds := v.rounds.set k (r + 1) })
      else .next (s1.modEntry core cls e.seq fun x => { x with st := .running })

/-! Beats. -/

/-- An address that a signed offset gives. -/
def at64 (a : Int) : Nat := (a % 2 ^ 64).toNat

/-- First source address of a row of a copy (R176). -/
def cpySrc (d : List W32) (r : Nat) : Nat :=
  at64 ((if ctlSsp d = 0 then (dw64 d 5 : Int) else (dw d 5 : Int)) + r * dwS d 3)
/-- First destination address of a row of a copy. -/
def cpyDst (d : List W32) (r : Nat) : Nat :=
  at64 ((if ctlDsp d = 0 then (dw64 d 7 : Int) else (dw d 7 : Int)) + r * dwS d 4)
/-- Beats of a row: the lines that its source touches (R321). -/
def rowBeats (d : List W32) (r : Nat) : Nat := (linesOf (cpySrc d r) (dw d 2)).length

/-- Beats of a copy, gather or tree command; elements of a reduction to memory. -/
def Entry.beats (e : Entry) (cls : Nat) : Nat :=
  match cls with
  | 0 => ((List.range (field (dw e.desc 1) 0 16)).map fun r => rowBeats e.desc r).sum
  | 1 => dw e.desc 1
  | _ => if bitN (dw e.desc 2) 4 then dw e.desc 1 / 32 else dw e.desc 1

/-- Bytes that a beat writes together: the ranges it reads them from, in order, and where they go (R176, R177). -/
structure Beat where
  srcs : List (Nat × Nat)
  dst : Nat
  deriving DecidableEq, Repr

/-- Bytes of a beat's write. -/
def Beat.len (b : Beat) : Nat := (b.srcs.map (·.2)).sum

/-- The source bytes of a beat of a copy: row, first source address and length. Beat `2^20 * r + j` is line `j` of row `r`
(R321). -/
def cpyBeat (d : List W32) (b : Nat) : Option (Nat × Nat × Nat) :=
  let r := b / 2 ^ 20
  let a := cpySrc d r
  let l := a / 128 + b % 2 ^ 20
  let lo := max a (128 * l)
  let hi := min (a + dw d 2) (128 * l + 128)
  if r < field (dw d 1) 0 16 ∧ lo < hi then some (r, lo, hi - lo) else none

/-- The byte of a copy that is written at a destination address: its row and its place in the row. -/
def cpyAt (d : List W32) (a : Nat) : Option (Nat × Nat) :=
  ((List.range (field (dw d 1) 0 16)).find? fun r => cpyDst d r ≤ a && a < cpyDst d r + dw d 2).map fun r => (r, a - cpyDst d r)

/-- The eight bytes of a copy that fill an aligned 8-byte unit, when it writes the unit whole (R176). -/
def cpyUnit (d : List W32) (u : Nat) : Option (List (Nat × Nat)) :=
  let xs := (List.range 8).filterMap fun i => cpyAt d (8 * u + i)
  if xs.length = 8 then some xs else none

/-- What beat `b` of row `r` writes of an aligned 8-byte unit that it covers in part, from `lo` to `hi`: its own bytes, or, where the
copy writes the unit whole, all eight with the beat that brings the last of them (R176, R263). -/
def cpyEdge (d : List W32) (b r lo hi : Nat) : List Beat :=
  if hi ≤ lo then []
  else
    match cpyUnit d (lo / 8) with
    | none => [{ srcs := [(cpySrc d r + (lo - cpyDst d r), hi - lo)], dst := lo }]
    | some xs =>
      let z := xs.getLastD (0, 0)
      if 2 ^ 20 * z.1 + ((cpySrc d z.1 + z.2) / 128 - cpySrc d z.1 / 128) = b then
        [{ srcs := xs.map fun x => (cpySrc d x.1 + x.2, 1), dst := lo / 8 * 8 }]
      else []

/-- What a beat of a copy writes: the aligned 8-byte units that it fills, and its part in those at its ends (R176, R263). -/
def cpyPieces (d : List W32) (b : Nat) : Option (List Beat) :=
  match cpyBeat d b with
  | none => none
  | some (r, lo, n) =>
    let e0 := cpyDst d r + (lo - cpySrc d r)
    let e1 := e0 + n
    let h := min e1 ((e0 + 7) / 8 * 8)
    let t := max h (e1 / 8 * 8)
    some (cpyEdge d b r e0 h ++ (if h < t then [{ srcs := [(lo + (h - e0), t - h)], dst := h }] else []) ++ cpyEdge d b r t e1)

/-! The turn (R321). -/

/-- The entries among which an engine deals its beats, by core and then by age: those that run and have a beat to move. -/
def State.beatRing (s : State) (core cls : Nat) : List (Nat × Nat) :=
  ((s.cores.filter fun c => served2 cls c.1 core).map fun c =>
    (((c.2.chain cls).entries.filter fun e => e.st == .running && e.done.length < e.beats cls).map fun e => (c.1, e.seq))).flatten

/-- Whether an entry is the next one of its engine to get a beat: the first behind the one that had the last, else the first of all
(R321). -/
def State.beatTurn (s : State) (core cls seq : Nat) : Bool :=
  let ring := s.beatRing core cls
  let at0 := (s.die (dieOf core)).engBeat.get (engKey core cls) (0, 0)
  match ring.find? fun e => at0.1 < e.1 || (at0.1 == e.1 && at0.2 < e.2) with
  | some e => e == (core, seq)
  | none => ring.head? == some (core, seq)

/-- The entry has had its turn, whether or not its beat could be moved. -/
def State.tookTurn (s : State) (core cls seq : Nat) : State :=
  s.modDie (dieOf core) fun x => { x with engBeat := x.engBeat.set (engKey core cls) (core, seq) }

/-- One more beat or element of an entry has been moved; with the last one its data has landed. -/
def State.beatDone (s : State) (core cls seq beat : Nat) : State :=
  ({ s with lreqs := s.lreqs.filter fun e => e.2 != .entry core cls seq } : State).modEntry core cls seq fun e =>
    let m := e.done.set beat true
    { e with done := m, wleft := 0, port := 0, st := if m.length = e.beats cls then (if cls = 2 ∧ bitN (dw e.desc 2) 4 then .tree else .landed) else e.st }

/-- The bytes of source ranges, in order. -/
def State.srcVal (s : State) (e : Entry) : List (Nat × Nat) → List Span → Nat
  | (a, n) :: r, p :: q => s.srcRead e a n p.parts + 2 ^ (8 * n) * s.srcVal e r q
  | _, _ => 0

/-- Move what a beat writes (R176, R177, R180): reads, then writes, with the pauses and errors of either access. -/
def State.moveBeat (s : State) (core cls : Nat) (e : Entry) (beat : Nat) (bs : List Beat) : State :=
  let rs := bs.map fun b => b.srcs.map fun q => s.spanIn core e (ctlSsp e.desc) q.1 q.2 false
  let ws := bs.map fun b => s.spanIn core e (ctlDsp e.desc) b.dst b.len true
  match rs.flatten.find? (fun x => !x.isOk), ws.find? (fun x => !x.isOk) with
  | some x, _ => s.stopBeat core cls e false x
  | none, some x => s.stopBeat core cls e true x
  | none, none =>
    let s1 := rs.flatten.foldl (fun u r => u.visit (dieOf core) e.ctx (ctlHint e.desc) r.parts) s
    ((bs.zip (rs.zip ws)).foldl
      (fun u q => u.dstWrite core e q.1.dst q.1.len (s.srcVal e q.1.srcs q.2.1) q.2.2.parts) s1).beatDone core cls e.seq beat

/-- The element of a gather: its index is read first (R177). -/
def State.gatherBeat (s : State) (core : Nat) (e : Entry) (i : Nat) : State :=
  let wide := bitN (dw e.desc 2) 8
  let n := if wide then 8 else 4
  let sz : Nat := 2 ^ field (dw e.desc 2) 0 3
  match s.span (dieOf core) e.ctx e.lid (dw64 e.desc 11 + n * i) n false true with
  | .ok ip =>
    let v := s.readParts ip
    let k : Int := if wide then (BitVec.ofNat 64 v).toInt else (BitVec.ofNat 32 v).toInt
    let dst := if ctlDsp e.desc = 0 then dw64 e.desc 7 else dw e.desc 7
    (s.visit (dieOf core) e.ctx (ctlHint e.desc) ip).moveBeat core 1 e i
      [{ srcs := [(at64 ((dw64 e.desc 5 : Int) + k * sz), sz)], dst := dst + sz * i }]
  | x => s.stopBeat core 1 e false x

/-- A packet of a tree command enters the mesh, in ascending order (R178, R327). -/
def State.packetBeat (s : State) (core : Nat) (e : Entry) (p : Nat) : State :=
  if p ≠ e.done.length then s
  else
    let a := if ctlSsp e.desc = 0 then dw64 e.desc 5 else dw e.desc 5
    match s.spanIn core e (ctlSsp e.desc) (a + 128 * p) 128 false with
    | .ok rp =>
      let t := field (dw e.desc 2) 8 4
      let f : Flit :=
        { tree := t, router := clusterRouter (core % 64 / 4), port := 4, round := e.round, pkt := p
          vals := unpackWords (s.srcRead e (a + 128 * p) 128 rp) 32, dst := dw64 e.desc 7, core := core, count := dw e.desc 1
          ctx := e.ctx, lid := e.lid, hint := ctlHint e.desc }
      (((s.visit (dieOf core) e.ctx (ctlHint e.desc) rp).beatDone core 2 e.seq p).modTree (dieOf core) t fun v => { v with flits := v.flits ++ [f] })
    | x => s.stopBeat core 2 e false x

/-- Ranges of memory that a beat reads and writes (R176 to R178). -/
def State.beatRanges (s : State) (core cls : Nat) (e : Entry) (beat : Nat) : List (Nat × Nat) :=
  let src := fun (l : List (Nat × Nat)) => if ctlSsp e.desc = 0 then l else []
  let dst := fun (l : List (Nat × Nat)) => if ctlDsp e.desc = 0 then l else []
  match cls with
  | 0 =>
    (match cpyPieces e.desc beat with
     | some bs => bs.flatMap fun b => src b.srcs ++ dst [(b.dst, b.len)]
     | none => [])
  | 1 =>
    (let wide := bitN (dw e.desc 2) 8
     let n := if wide then 8 else 4
     let sz : Nat := 2 ^ field (dw e.desc 2) 0 3
     (dw64 e.desc 11 + n * beat, n) ::
       ((match s.span (dieOf core) e.ctx e.lid (dw64 e.desc 11 + n * beat) n false true with
         | .ok ip =>
           let v := s.readParts ip
           src [(at64 ((dw64 e.desc 5 : Int) + (if wide then (BitVec.ofNat 64 v).toInt else (BitVec.ofNat 32 v).toInt) * sz), sz)]
         | _ => []) ++ dst [(dw64 e.desc 7 + sz * beat, sz)]))
  | _ => if bitN (dw e.desc 2) 4 then src [(dw64 e.desc 5 + 128 * beat, 128)] else src [(dw64 e.desc 5 + 4 * beat, 4)]

/-- The host answers an access of a beat with Unsupported Request or Completer Abort: the command ends with error (R180, R415). -/
def State.hostFail (s : State) (core cls seq beat : Nat) : State :=
  match ((s.core core).chain cls).entries.find? fun e => e.seq == seq with
  | none => s
  | some e =>
    if e.st ≠ .running ∨ e.done.has beat ∨ 3 ≤ cls then s
    else
      match (s.beatRanges core cls e beat).find? fun q =>
          match s.checkEng (dieOf core) e.ctx e.lid q.1 { size := 1 } with | .ok pa _ => isHost pa | _ => false with
      | some q => s.completeEntry core cls seq (some (0x1D, q.1))
      | none => s

/-- ENGINE_BEAT: the running entry whose turn it is moves one beat that it has not moved yet, or finds that it has to wait (R176 to R178,
R321). -/
def execEngineBeat (core cls seq beat : Nat) (s : State) : Out :=
  match ((s.core core).chain cls).entries.find? fun e => e.seq == seq with
  | none => .next s
  | some e =>
    if e.st ≠ .running ∨ e.done.has beat ∨ (s.die (dieOf core)).dbg ∨ 3 ≤ cls ∨ !s.beatTurn core cls seq then .next s
    else
      let u := s.tookTurn core cls seq
      match cls with
      | 0 => .next (match cpyPieces e.desc beat with | some bs => u.moveBeat core 0 e beat bs | none => s)
      | 1 => .next (if beat < dw e.desc 1 then u.gatherBeat core e beat else s)
      | _ => .next (if bitN (dw e.desc 2) 4 then u.packetBeat core e beat else s)

/-- One combination of a reduction (R178): FADD.F32 of R72, ADD, MIN and MAX. -/
def xredOp (op : Nat) (a b : W32) : W32 :=
  match op with
  | 0 => BitVec.ofNat 32 (addF false fmt32 0 false a.toNat b.toNat).1
  | 1 => a + b
  | 2 => minS a b
  | 3 => maxS a b
  | 4 => minZ a b
  | _ => maxZ a b

/-- XRED_ELEMENT: one element of a reduction to memory is combined at its home slice, in one step; an element on host
memory, on an uncached, versioned or control page ends the command with error (R178, R326). -/
def execXredElement (core seq elem : Nat) (s : State) : Out :=
  match (s.core core).coll.entries.find? fun e => e.seq == seq with
  | none => .next s
  | some e =>
    if e.st ≠ .running ∨ e.done.has elem ∨ (s.die (dieOf core)).dbg ∨ bitN (dw e.desc 2) 4 ∨ dw e.desc 1 ≤ elem ∨ !s.beatTurn core 2 seq then
      .next s
    else
      let s := s.tookTurn core 2 seq
      let a := (if ctlSsp e.desc = 0 then dw64 e.desc 5 else dw e.desc 5) + 4 * elem
      let va := dw64 e.desc 7 + 4 * elem
      match s.spanIn core e (ctlSsp e.desc) a 4 false with
      | .ok rp =>
        match s.span (dieOf core) e.ctx e.lid va 4 true true with
        | .ok wp =>
          if wp.any fun q => leafCC q.2.1 == 3 || (hostBase ≤ q.1 && q.1 < fabBase) || isCtl q.1 then
            .next (s.completeEntry core 2 seq (some (0x1D, va)))
          else
            let v := xredOp (field (dw e.desc 2) 0 4) (BitVec.ofNat 32 (s.readParts wp)) (BitVec.ofNat 32 (s.srcRead e a 4 rp))
            .next ((((s.visit (dieOf core) e.ctx (ctlHint e.desc) (rp ++ wp)).writeParts e.ctx v.toNat wp).beatDone core 2 seq elem))
        | x => .next (s.stopBeat core 2 e true x)
      | x => .next (s.stopBeat core 2 e false x)

/-- ENGINE_COMMAND_COMPLETE: every write of a command has been performed; a tree command that timed out or came late
traps its group in the same step (R178, R179, R393). Sequence number 0 makes the chain's waiting completion-word writes
again. -/
def execEngineCommandComplete (core cls seq : Nat) (s : State) : Out :=
  if seq = 0 then .next (s.completionWords core cls ((s.core core).chain cls).fin.length)
  else
    match ((s.core core).chain cls).entries.find? fun e => e.seq == seq with
    | none => .next s
    | some e =>
      if e.st ≠ .landed then .next s
      else .next (s.completeEntry core cls seq (if e.late then some (0x1E, dw64 e.desc 7) else none))

end Sys2Proof.Machine
end

