-- ==== Sys2Proof/Machine/MxStep.lean ====
section
/-! DEFINITION. The steps of a core's matrix engine: follow-ons (R194), MMA with its check (R68, R69, R189 to R191, R198,
R332, R335, R336), MZERO and the drains (R192, R195 to R197, R333). -/

namespace Sys2Proof.Machine

/-- The operations of a group on an accumulator, but for the one of identity `but`, are discarded, their flags lowered, and its
pending follow-ons marked to be discarded (R198). -/
def State.mxDiscard (s : State) (core gid acc : Nat) (but : Option Nat) : State :=
  let ops := (s.core core).mchain.filter fun x => x.gid == gid && x.acc == acc && some x.id != but
  (ops.foldl (fun u x => u.mxDone core x) s).modCore core fun c =>
    { c with follows := c.follows.map fun (f : Follow) => if f.gid = gid ∧ field f.word.toNat 0 2 = acc then { f with dead := true } else f }

/-- Change an operation of the chain. -/
def State.modMx (s : State) (core id : Nat) (f : MxOp → MxOp) : State :=
  s.modCore core fun c => { c with mchain := c.mchain.map fun o => if o.id = id then f o else o }

/-- The 4,096 elements of an accumulator, row by row (R187). -/
def Core.accRow (c : Core) (a : Nat) : List W32 := c.acc.row (4096 * a) 4096 0
/-- Set every element of an accumulator, row by row. -/
def Core.accSet (c : Core) (a : Nat) (v : List W32) : Core := { c with acc := c.acc.setRow (4096 * a) v }

/-- An operation reads an accumulator that holds an uncorrectable error: the owner takes the matrix-error trap, and
the accumulator reads as the canonical NaN (R333). -/
def State.accRead (s : State) (core : Nat) (o : MxOp) : State :=
  if (s.core core).accBad.contains o.acc then
    ((s.modCore core fun c => { (c.accSet o.acc (List.replicate 4096 0x7FC00000#32)) with accBad := c.accBad.filter (· != o.acc) })).engTrap
      o.gid o.slot 0x21 o.acc o.own 15
  else s

/-! Follow-ons (R194). -/

/-- Whether the follow-ons of a CPYM enter the chain now, or are discarded where they would enter it (R194, R198, R332). -/
def Core.followReady (c : Core) (f : Follow) : Bool := c.followDue f && c.mchain.length < 32

/-- Put an operation into the chain in front of unstarted later ones on its accumulator (R191). -/
def enterMx (o : MxOp) : List MxOp → List MxOp
  | [] => [o]
  | x :: r => if x.acc = o.acc ∧ o.seq < x.seq ∧ !x.started then o :: x :: r else x :: enterMx o r

/-- FOLLOW_ON_ISSUE: the copy engine issues the next follow-on of a CPYM (R194). -/
def execFollowOnIssue (core : Nat) (s : State) : Out :=
  let c := s.core core
  let ready := c.follows.filter fun f => c.followReady f
  let p := s.choose
  match ready[p.1 % ready.length]? with
  | none => .next s
  | some f =>
    if (s.die (dieOf core)).dbg then .next s
    else if f.dead || c.doomed.contains (f.gid, field f.word.toNat 0 2) then .next (p.2.followDone core f)
    else
      let w := f.word.toNat
      let o : MxOp :=
        { id := s.nextId, kind := .mma, gid := f.gid, slot := f.slot, acc := field w 0 2, oba := field w 2 4, obb := field w 6 4
          tile := field w 10 3 + f.next, seq := f.seq, isFollow := true }
      let s1 := { p.2 with nextId := s.nextId + 1 }.modCore core fun c =>
        { c with
          mchain := enterMx o c.mchain
          follows := c.follows.map fun (x : Follow) => if x.seq = f.seq then { x with next := x.next + 1 } else x }
      .next (if f.next = field w 13 3 then s1.followDone core f else s1)

/-! MMA (R68, R69, R184, R189 to R191). -/

/-- A byte of a row of a tile. -/
def tileByte (t : List Byte) (i : Nat) : Nat := (t.getD i 0).toNat

/-- Element `k` of a row (or column) of a tile: its 128 data bytes `t` and its Q4X scale bytes `sc` (R49 to R51, R184). DEDUCED: a
Q4X element has its scale before it is summed, so a zero scale gives each element a zero of its slot's sign (R49, R68; log 48). -/
def tileElem (fmt : Nat) (t sc : List Byte) (k : Nat) : FVal :=
  match fmt with
  | 0 => fmtB16.decode (tileByte t (2 * k) + 256 * tileByte t (2 * k + 1))
  | 1 => fmt16.decode (tileByte t (2 * k) + 256 * tileByte t (2 * k + 1))
  | 2 => fmtE4M3.decode (tileByte t k)
  | 3 => fmtE5M2.decode (tileByte t k)
  | 4 => intVal (BitVec.ofNat 8 (tileByte t k)).toInt
  | 5 =>
    let blk := (List.range 16).foldl (fun v b => v + tileByte t (16 * (k / 32) + b) * 2 ^ (8 * b)) 0
    q4xVal blk (tileByte sc (k / 32)) (k % 32)
  | _ => intVal (sext4 (tileByte t (k / 2) / 16 ^ (k % 2) % 16))

/-- Size and number of the k-groups of a format (R68). -/
def groupsOfFmt (fmt : Nat) : Nat × Nat := if fmt ≤ 1 then (16, 4) else if fmt ≤ 4 then (32, 4) else (32, 8)

/-- Elements of a row (or column) of a tile. -/
def tileRow (r : Resv) (t : List Byte) (i : Nat) : List FVal :=
  let row := (t.drop (128 * i)).take 128
  let sc := (t.drop (8192 + 8 * i)).take 8
  (List.range ((groupsOfFmt r.fmt).1 * (groupsOfFmt r.fmt).2)).map (tileElem r.fmt row sc)

/-- Scale of an FP8 group; 1 without scales (R184). A Q4X element carries its block's scale. -/
def tileScale (r : Resv) (t : List Byte) (i g : Nat) : FVal :=
  if r.sc ∧ r.fmt ≠ 5 then fmtE5M3.decode (tileByte (t.drop (8192 + 4 * i)) g) else .fin false 1 0

/-- Product of two exact values that may already be invalid. -/
def mulO (x y : Option FVal) : Option FVal := match x, y with | some a, some b => a.mul b | _, _ => none
/-- Sum of two exact values that may already be invalid. -/
def addO (x y : Option FVal) : Option FVal := match x, y with | some a, some b => a.add 0 b | _, _ => none

/-- P of a k-group, rounded: its elements and the two scales (R68, R69). -/
def groupP (x y : List FVal) (sx sy : FVal) : Nat :=
  let sum := match x.zipWith FVal.mul y with | [] => some (FVal.fin false 0 0) | p :: r => r.foldl addO p
  match mulO (mulO sum (some sx)) (some sy) with
  | none => fmt32.nan
  | some v => (fmt32.deliver 0 false v).1

/-- The k-groups of a row (or column): their elements and their scale. -/
def tileGroups (r : Resv) (t : List Byte) (i : Nat) : List (List FVal × FVal) :=
  let n := groupsOfFmt r.fmt
  (List.range n.2).map fun g => (((tileRow r t i).drop (n.1 * g)).take n.1, tileScale r t i g)

/-- The update of one element from the groups of its row and column, in ascending order (R68). -/
def mmaElem (c : W32) (x y : List (List FVal × FVal)) : W32 :=
  (x.zip y).foldl (fun c e => BitVec.ofNat 32 (addF false fmt32 0 false c.toNat (groupP e.1.1 e.2.1 e.1.2 e.2.2)).1) c

/-- The update of an accumulator, row by row (R68). -/
def mmaUpdate (fa fb : Resv) (a b : List Byte) (acc : List W32) : List W32 :=
  let rows := (List.range 64).map (tileGroups fa a)
  let cols := (List.range 64).map (tileGroups fb b)
  (acc.zip (rows.flatMap fun x => cols.map fun y => (x, y))).map fun e => mmaElem e.1 e.2.1 e.2.2

/-- The bytes of a tile of a reservation in a core's operand buffer (R184, R328). -/
def Core.tile (c : Core) (r : Resv) (i : Nat) : List Byte :=
  c.opbuf.row (256 * r.base + tileBytes r.fmt r.sc * i) (tileBytes r.fmt r.sc) 0

/-- The operand of an MMA: record and bytes, wherever the cluster holds them; none for a stale import (R186). -/
def State.operand (s : State) (core : Nat) (gid n tile : Nat) : Option (Resv × List Byte) :=
  let g := s.group gid
  if !g.resv.has n then none
  else
    match s.resolveResv core (g.resv.get n {}) with
    | none => none
    | some (c, r) => if s.inService c then some (r, (s.core c).tile r tile) else none

/-- Whether an operation has to wait for a pending follow-on that is earlier on its accumulator (R191). -/
def Core.mxHeld (c : Core) (o : MxOp) : Bool :=
  c.follows.any fun f => !f.dead && f.gid == o.gid && field f.word.toNat 0 2 == o.acc && f.seq < o.seq

/-- MMA_START: the next MMA in chain order starts and reads its operands (R191, R332, R333). -/
def execMmaStart (core : Nat) (s : State) : Out :=
  let c := s.core core
  match c.mchain.find? fun o => o.kind == .mma && !o.started with
  | none => .next s
  | some o =>
    let before := c.mchain.takeWhile fun x => x.id != o.id
    if c.mxHeld o || !s.inService core || (s.die (dieOf core)).dbg || before.any fun x => x.kind != .mma && x.acc == o.acc then .next s
    else
      match s.operand core o.gid o.oba o.tile, s.operand core o.gid o.obb o.tile with
      | some a, some b =>
        .next { ((s.accRead core o).modMx core o.id fun x =>
          { x with started := true, turn := s.nextId, a := a.2, b := b.2, fa := a.1, fb := b.1 }) with nextId := s.nextId + 1 }
      | _, _ => .next (s.mxFail core o 0x1F 0)

/-- A rerun that passed raises SOFT, and the record of the health threshold with it (R336). -/
def State.softCount (s : State) (core : Nat) : State :=
  let old := (s.core core).mxSoft
  let lim := (s.die (dieOf core)).reg 0x102200 % 2 ^ 32
  let new := satInc old
  let s1 := s.modCore core fun c => { c with mxSoft := new }
  if lim ≠ 0 ∧ old.toNat < lim ∧ lim ≤ new.toNat then s1.logSys (dieOf core) 0x32 0 0 (core + 2 ^ 32 * new.toNat) else s1

/-- The MMA of the array whose check is next: the one that started, or restarted for its rerun, before the others (R332, R335). -/
def Core.nextCheck (c : Core) : Option MxOp :=
  match c.mchain.filter fun o => o.kind == .mma && o.started with
  | [] => none
  | o :: r => some (r.foldl (fun b x => if x.turn < b.turn then x else b) o)

/-- MMA_CHECK: the check of the MMA that started first. A pass performs the update; a mismatch reruns it behind those that have
started, and squashes the later starts on its accumulator; a second one leaves the accumulator and takes the matrix-error trap
(R198, R335, R336). -/
def execMmaCheck (core : Nat) (pass : Bool) (s : State) : Out :=
  match (s.core core).nextCheck with
  | none => .next s
  | some o =>
    if !s.inService core || (s.die (dieOf core)).dbg then .next s
    else if pass then
      let s1 := (s.accRead core o).modCore core fun c => c.accSet o.acc (mmaUpdate o.fa o.fb o.a o.b (c.accRow o.acc))
      let s2 := if o.rerun then s1.softCount core else s1
      .next (s2.mxDone core o)
    else if !o.rerun then
      .next { (s.modCore core fun c =>
        { c with
          mchain := c.mchain.map fun (x : MxOp) =>
            if x.id = o.id then { x with rerun := true, turn := s.nextId }
            else if x.acc = o.acc ∧ x.kind = .mma then { x with started := false } else x }) with nextId := s.nextId + 1 }
    else
      let s1 := s.modCore core fun c =>
        { c with
          mxHard := if c.mxHard = 0xFFFF#16 then c.mxHard else c.mxHard + 1
          doomed := if s.groups.has o.gid then (o.gid, o.acc) :: c.doomed else c.doomed }
      .next ((s1.mxDiscard core o.gid o.acc (some o.id)).mxFail core o 0x21 o.acc)

/-! The drain port (R192, R195 to R197). -/

/-- Rows that a drain reads. -/
def MxOp.rows (o : MxOp) : List Nat := if o.fn < 0x24 then List.range 64 else (List.range 4).map (4 * o.quad + ·)

/-- Absmax word of the drained values (R73). -/
def Core.absmax (c : Core) (o : MxOp) : Nat :=
  let v := c.accRow o.acc
  (o.rows.map fun m => ((v.drop (64 * m)).take 64).map fun x => x.toNat % 2 ^ 31).flatten.foldl max 0

/-- Format of a narrowing drain (R196). -/
def drainFmt (fn : Nat) : Fmt := if fn = 0x22 then fmtE4M3 else if fn = 0x23 then fmtE5M2 else fmtB16

/-- A drained element in its target format and its width in bytes. -/
def drainElem (fn : Nat) (v : W32) : Nat × Nat :=
  if fn = 0x20 ∨ fn = 0x24 then (v.toNat, 4)
  else ((cvtF fmt32 (drainFmt fn) 0 false v.toNat).1, if fn = 0x21 ∨ fn = 0x25 then 2 else 1)

/-- The scratchpad forms write all 64 rows (R195). -/
def State.drainSp (s : State) (core : Nat) (o : MxOp) : State :=
  let v := ((s.core core).accRow o.acc).map (drainElem o.fn)
  s.modGroup o.gid fun g =>
    { g with scratch := g.scratch.setRow o.sp (v.flatMap fun e => (List.range e.2).map fun i => BitVec.ofNat 8 (field e.1 (8 * i) 8)) }

/-- What a register form writes: registers in the lanes of the word's executing set, by 32 * register + lane (R195). -/
def Core.drainOut (c : Core) (o : MxOp) : FMap W32 :=
  let v := (c.accRow o.acc).drop (256 * o.quad)
  let el := fun r j => (drainElem o.fn (v.getD (64 * r + j) 0)).1
  (List.range (if o.fn = 0x24 then 8 else 4)).foldl
    (fun m k =>
      (lanesOf o.lanes).foldl
        (fun m l =>
          m.set (32 * k + l)
            (BitVec.ofNat 32 (if o.fn = 0x24 then el (k / 2) (32 * (k % 2) + l) else el k (2 * l) + 65536 * el k (2 * l + 1)))) m) []

/-- Write a register of a drain (R33, R195). -/
def MxOp.write (o : MxOp) (key : Nat) (v : W32) (w : Wave) : Wave :=
  if w.gid = some o.gid then w.setReg o.opfile (o.reg + key / 32) (key % 32) v else w

/-- One register of one lane of a drain is written before its flag falls (R33). -/
def State.drainOne (s : State) (core : Nat) (o : MxOp) (key : Nat) : State :=
  if o.out.has key then
    (s.modWave (waveKey core o.slot) (o.write key (o.out.get key 0))).modMx core o.id fun x => { x with out := x.out.del key }
  else s

/-- A drain reads its accumulator: the scratchpad forms write their rows, the register forms have their registers still to write;
what it drained is cleared where it says so (R33, R195, R196). -/
def State.drainData (s : State) (core : Nat) (o : MxOp) : State :=
  let c := s.core core
  let s1 := if o.fn < 0x24 ∧ s.groups.has o.gid then s.drainSp core o else s
  let s2 := s1.modMx core o.id fun x =>
    { x with ran := true, amax := BitVec.ofNat 32 (c.absmax o), out := if o.fn < 0x24 then [] else c.drainOut o }
  if o.clr then
    s2.modCore core fun c =>
      { c with acc := if o.fn < 0x24 then c.acc.setRow (4096 * o.acc) (List.replicate 4096 0)
                      else c.acc.setRow (4096 * o.acc + 256 * o.quad) (List.replicate 256 0) }
  else s2

/-- Registers that a drain has still to write, all written. -/
def State.drainRegs (s : State) (core : Nat) (o : MxOp) : State :=
  s.modWave (waveKey core o.slot) fun w => o.out.foldl (fun w e => o.write e.1 e.2 w) w

/-- What the atomic of a drain meets: checks 3 to 7 of R115 for its group (R197). -/
def State.amxCheck (s : State) (o : MxOp) : Chk :=
  if s.groups.has o.gid then s.check (s.group o.gid).core (s.group o.gid) o.amxVa { size := 4, write := true, atom := some 4 } else .trap 6

/-- The atomic of a drain goes on its way to the ordering point of its word, on path M; the drain keeps its place in the chain until
it has been performed (R196, R271). -/
def State.sendAmx (s : State) (core pa leaf : Nat) (o : MxOp) : State :=
  let a : Acc := s.sent core { va := o.amxVa, pa := pa, leaf := BitVec.ofNat 64 leaf, data := o.amax.setWidth 256 }
  let m : MemOp :=
    { id := s.nextId, core := core, slot := o.slot, gid := o.gid, ctx := (s.group o.gid).ctx, kind := .atom, fn := 4, size := 4
      scope := o.amxScope, sca := true, accs := [a], seq := o.seq, own := o.own, mpath := true }
  { ((s.own core leaf pa o.amxVa.toNat).modMx core o.id fun x => { x with amxOp := s.nextId, out := [] }) with
    ops := s.ops ++ [m], nextId := s.nextId + 1 }

/-- A drain has read its accumulator: its registers are written, the atomic of .AMX goes on its way, and the drain completes once that
has been performed. The atomic waits for its page, and for its walk up to 100 µs; any other failure of it ends the drain with its
data written (R33, R195 to R197, R247). -/
def State.drainEnd (s : State) (core : Nat) (o : MxOp) : State :=
  if !o.amx then (s.drainRegs core o).mxDone core o
  else if o.amxOp ≠ 0 then
    if s.ops.any fun x => x.id == o.amxOp && x.accs.any fun a => a.st == .pend then s else s.mxDone core o
  else
    match s.amxCheck o with
    | .wait =>
      if o.wleft = 1 then (s.drainRegs core o).mxFail core o 0x1D o.amxVa.toNat
      else if o.wleft = 0 then s.modMx core o.id fun x => { x with wleft := 10001 }
      else s
    | .park =>
      (s.modMx core o.id fun x => { x with paged := some (o.amxVa.toNat / 4096) }).raiseFault (dieOf core) (s.group o.gid).ctx
        (o.amxVa.toNat / 4096) 1 false true
    | .ok pa leaf =>
      if s.badRead (pa / 128) (s.group o.gid).ctx then (s.drainRegs core o).mxFail core o 0x1D o.amxVa.toNat
      else (s.drainRegs core o).sendAmx core pa leaf o
    | _ => (s.drainRegs core o).mxFail core o 0x1D o.amxVa.toNat

/-- DRAIN_PORT_OPERATION: an MZERO or MDRAIN is performed once everything earlier on its accumulator is complete. A drain reads its
accumulator first, and completes later (R33, R192, R195 to R197, R332, R333). -/
def execDrainPortOperation (core id : Nat) (s : State) : Out :=
  let c := s.core core
  match c.mchain.find? fun o => o.id == id with
  | none => .next s
  | some o =>
    let before := c.mchain.takeWhile fun x => x.id != id
    if o.kind == .mma || c.mxHeld o || o.paged.isSome || !s.inService core || (s.die (dieOf core)).dbg ||
        before.any fun x => x.acc == o.acc || x.kind != .mma then .next s
    else if o.kind = .mzero then
      .next ((s.modCore core fun c => { (c.accSet o.acc (List.replicate 4096 0)) with accBad := c.accBad.filter (· != o.acc) }).mxDone core o)
    else if o.ran then .next (s.drainEnd core o)
    else .next ((s.accRead core o).drainData core o)

end Sys2Proof.Machine
end

