-- ==== Sys2Proof/Machine/TrapStep.lean ====
section
/-! DEFINITION. The steps of a group's life that no word makes: a wave stops for a halt, the handler is entered, a
group retires with its join decrements, a group that is ending is gone (R92, R152, R153, R206, R222 to R226). In
debug halt the groups of a die keep their state, and none of these happens (R423). -/

namespace Sys2Proof.Machine

/-- WAVE_HALT_STOP: a wave that issues skid words stops (R222); the group is halted with the last one (R226). -/
def execWaveHaltStop (core slot : Nat) (s : State) : Out :=
  let key := waveKey core slot
  match (s.wave key).gid with
  | none => .next s
  | some gid =>
    if (s.group gid).phase ≠ .halting ∨ (s.die (dieOf core)).dbg then .next s
    else
      let s1 := s.modWave key fun w => { w with stopped := true, skidAc := 0 }
      .next (if (s.group gid).keys.all fun k => (s1.wave k).stopped then s1.modGroup gid fun g => { g with phase := .halted } else s1)

/-- A second mismatch of an MMA discards the operations of its group on its accumulator when the group has halted for
it (R198). -/
def State.discardDoomed (s : State) (gid : Nat) : State :=
  let g := s.group gid
  match g.trap with
  | none => s
  | some t =>
    if t.code = 0x21 ∧ (s.core g.core).doomed.contains (gid, t.eaddr.toNat) then
      (s.mxDiscard g.core gid t.eaddr.toNat none).modCore g.core fun c => { c with doomed := c.doomed.filter (· != (gid, t.eaddr.toNat)) }
    else s

/-- HANDLER_ENTRY: every wave of the halting group has stopped (R222, R225, R226). -/
def execHandlerEntry (gid : Nat) (s : State) : Out :=
  let g := s.group gid
  if !(s.die (dieOf g.core)).dbg ∧ (g.phase = .halted ∨ (g.phase = .halting ∧ g.keys.all fun k => (s.wave k).stopped)) then
    .next (((s.modGroup gid fun g => { g with phase := .halted }).discardDoomed gid).enterHandler gid)
  else .next s

/-! Retirement. -/

/-- Number of the check of R115 that an outcome fails. -/
def Chk.number : Chk → Nat
  | .trap c => c - 2
  | _ => 3

/-- Number of the check that the address of a join counter fails, or its place and leaf (R153, R308). -/
def State.joinChk (s : State) (core : Nat) (g : Group) (va : W64) : Nat ⊕ (Nat × Nat) :=
  match s.check core g va { size := 4, write := true, atom := some 0 } with
  | .ok pa leaf =>
    if leafCC leaf = 2 then .inl 5
    else if leafCC leaf = 3 ∨ (hostBase ≤ pa ∧ pa < fabBase) ∨ isCtl pa then .inl 7
    else .inr (pa, leaf)
  | c => .inl (if c = .trap 6 then 4 else if c = .trap 7 then 5 else if c = .trap 8 then 6 else if c = .trap 9 then 7 else c.number)

/-- One join decrement, at the counter's home slice or, on a hardware-coherent page, at the slice of the child's die (R308): a
counter at zero stays and is reported, a bad address is reported, neither traps (R152, R153). A counter on a poisoned line stays
as it is, and so does one whose place answers no request, which a cross-die record reports (R389, R422). -/
def State.joinDown (s : State) (gid : Nat) (va : W64) : State :=
  let g := s.group gid
  let d := dieOf g.core
  match s.joinChk g.core g va with
  | .inl n => s.logCtx d g.ctx 0x24 0 (va.toNat * 2 ^ 32 + n * 2 ^ 96)
  | .inr (pa, leaf) =>
    if !s.reaches d leaf pa then s.logCross d g.ctx va.toNat pa
    else if s.badRead (pa / 128) g.ctx then s
    else
      let s1 := s.dropLease (pa / 128)
      match s1.served g.core leaf pa 4 with
      | none => s
      | some v =>
        if v = 0 then s1.logCtx d g.ctx 0x23 0 (va.toNat * 2 ^ 32)
        else (s1.perform g.core leaf pa 4 (v - 1)).getD s1

/-- What a join decrement of a group still waits for. -/
inductive JoinWait where
  | none
  | walk
  | far (pa : Nat)
  | line
  | dir (pa leaf : Nat)
  deriving DecidableEq, Repr

/-- Whether a join decrement of the group has to wait: for a walk, for a place that answers no request now, for a transaction on its
line or the reply to held reads of it, or for the die's slice to hold it for writing (R245, R247, R249, R308, R422). -/
def State.joinWait (s : State) (gid : Nat) (va : W64) : JoinWait :=
  let g := s.group gid
  if s.check g.core g va { size := 4, write := true, atom := some 0 } = .wait then .walk
  else
    match s.joinChk g.core g va with
    | .inl _ => .none
    | .inr (pa, leaf) =>
      let d := dieOf g.core
      if !s.reaches d leaf pa then .far pa
      else if s.atomDue (pa / 128) ∨ s.readHeld (pa / 128) ∨ s.keyHeld pa leaf then .line
      else if underDir leaf pa ∧ !s.dirWrites (pa / 128) d (s.keyId pa (leafKey leaf)) then .dir pa leaf
      else .none

/-- The join decrements of a retiring group that wait have their requests on the way: the slice asks for the line, a walk or a
silent place has its time-out counted (R247, R249, R422). -/
def State.joinAsk (s : State) (gid : Nat) : State :=
  let g := s.group gid
  g.joins.foldl
    (fun u e =>
      match u.joinWait gid e.2 with
      | .dir pa leaf => u.askFor g.core leaf pa true
      | .walk => u.modGroup gid fun x => if x.wleft = 0 then { x with wleft := 10001, wfar := none } else x
      | .far pa => u.modGroup gid fun x => if x.wleft = 0 then { x with wleft := (u.die (dieOf g.core)).cdTicks, wfar := some pa } else x
      | _ => u) s

/-- Whether the join decrements of a group can be made: a walk and a silent place no longer count once their time-out has
passed. -/
def State.joinsReady (s : State) (gid : Nat) : Bool :=
  (s.group gid).joins.all fun e =>
    match s.joinWait gid e.2 with
    | .none => true
    | .walk | .far _ => (s.group gid).wleft == 1
    | _ => false

/-- Whether every flag of each wave of a group is zero (R92, R226). -/
def State.flagsZero (s : State) (g : Group) : Bool := g.keys.all fun k => (s.wave k).flagsClear 0xFFF#12

/-- Whether every operation of a group has completed: memory words, chain entries, matrix operations, follow-ons. -/
def State.opsOver (s : State) (gid : Nat) : Bool :=
  let c := s.core (s.group gid).core
  !(s.ops.any fun o => o.gid == gid) &&
  !((c.copy.entries ++ c.gath.entries ++ c.coll.entries).any fun e => e.gid == gid) &&
  !(c.mchain.any fun o => o.gid == gid) && !(c.follows.any fun f => f.gid == gid)

/-- A retired or ended group of threads or messages no longer counts for its launch (R302, R343). -/
def State.threadsOver (s : State) (g : Group) : State :=
  match g.kind with
  | .spawned | .message =>
    s.modLaunch (dieOf g.core) (1024 * g.ctx + g.lid) fun l =>
      { l with threads := l.threads - ((g.keys.map fun k => laneCount (s.wave k).launched).sum) }
  | _ => s

/-- GROUP_RETIRE: once every flag is zero and every operation complete, the release of R206 holds, the join decrements
follow in lane order, and the slots are free (R92, R152, R226). -/
def execGroupRetire (gid : Nat) (s : State) : Out :=
  let g := s.group gid
  if !s.groups.has gid || g.phase != .retiring || (s.die (dieOf g.core)).dbg || !s.flagsZero g || !s.opsOver gid then .next s
  else if !s.joinsReady gid then .next (s.joinAsk gid)
  else .next (((g.joins.foldl (fun u e => u.joinDown gid e.2) s).threadsOver g).freeGroup gid)

/-- GROUP_END: a group that is ending is gone once every flag is zero, with no release and no join decrement (R226). -/
def execGroupEnd (gid : Nat) (s : State) : Out :=
  let g := s.group gid
  if !s.groups.has gid || g.phase != .ending || (s.die (dieOf g.core)).dbg || !s.flagsZero g then .next s
  else .next ((s.threadsOver g).freeGroup gid)

end Sys2Proof.Machine
end

