-- ==== Sys2Proof/Machine/Plate.lean ====
section
/-! DEFINITION. The loss of a plate, its record, its reset and its return: R314, R337, R365 to R369, R390. -/

namespace Sys2Proof.Machine

/-- The cores of a plate. -/
def plateCores (p : Nat) : List Nat := (List.range 16).map (16 * p + ·)

/-- Groups resident on a plate. -/
def State.plateGroups (s : State) (p : Nat) : List (Nat × Group) := s.groups.filter fun e => plateOf e.2.core == p

/-- Whether a word's accesses bring replies or grants down to their core: a prefetch does when it fetches for the L1. -/
def MemOp.replies (o : MemOp) : Bool :=
  match o.kind with
  | .load | .atom | .vldEq | .vldLe | .cld => true
  | .pref => o.fn == 0
  | _ => false

/-- Started entries of a plate's cores whose beats still go towards the plate: core, class, entry. -/
def State.plateEntries (s : State) (p : Nat) : List (Nat × Nat × Entry) :=
  ((plateCores p).map fun c => ((List.range 3).map fun k => ((s.core c).chain k).entries.map fun e => (c, k, e)).flatten).flatten

/-- Whether an entry has a beat at the port of its core's plate: it runs towards a scratchpad or a reservation and waits for nothing else
(R365). -/
def Entry.waitsPort (e : Entry) : Bool := e.st == .running && ctlDsp e.desc != 0 && e.wleft == 0

/-- Whether the reply to an access waits for its core to take it: it comes by a flit, and none of it has been delivered (R365). -/
def MemOp.waitsPort (o : MemOp) (a : Acc) : Bool := o.replies && a.st == .perf && a.flit != 0 && a.gone == 0

/-- The flits that go down to a core for a word: those that wait at the port, shared by the lanes and, for a multicast, by the cores of a
cluster that they answer; and one for each line, or version of a granule, that the word has still to be sent: for the lines that
the core's own L1 has not, and has not a lease on (R137, R242, R369, R407). -/
def State.downFlits (s : State) (o : MemOp) : List (Nat × Nat × Nat) :=
  let c := s.core o.core
  o.accs.filterMap fun a =>
    let line := a.pa / 128
    if o.waitsPort a then some (0, a.flit, o.core / 4)
    else if !a.going || (o.kind != .vldEq && o.kind != .vldLe && c.l1.has line) || c.leases.contains line then none
    else if o.kind = .atom then some (1, o.core, line)
    else if o.kind = .vldEq ∨ o.kind = .vldLe then some (2 + o.id, a.pa, a.aux.toNat)
    else some (2 + o.id, line, 0)

/-- NDISC of a context (R369): replies and grants on their way to the plate, and beats left towards its scratchpads and
reservations. -/
def State.plateDisc (s : State) (p ctx : Nat) : Nat :=
  let ops := s.ops.filter fun o => plateOf o.core == p && o.replies && o.ctx == ctx
  let replies := ((ops.map fun o => s.downFlits o).flatten.eraseDups).length
  let grants := (((plateCores p).filter fun c => (s.core c).ctx == some ctx).map fun c => (s.core c).grants.length).sum
  let ents := (s.plateEntries p).filter fun e =>
    e.2.2.ctx == ctx && e.2.2.st != .queued && e.2.2.st != .landed && ctlDsp e.2.2.desc != 0 && ctlSsp e.2.2.desc != 1
  min 65535 (replies + grants + (ents.map fun e => e.2.2.beats e.2.1 - e.2.2.done.length).sum)

/-- Accesses of a lost plate's words: only writes that may have left the plate before the fence go on, as the free
choice says; an atomic that its core performs under a lease does not leave the plate (R242, R366 steps 1 to 3). -/
def State.fenced (s : State) (o : MemOp) (choice : Nat) : Option MemOp :=
  if o.kind = .store ∨ o.kind = .atom ∨ o.kind = .vst then
    let as := o.accs.filter fun a =>
      a.st == .pend && leafCC a.leaf.toNat != 2 && !(o.kind == .atom && s.needsLease o a) && bitN choice (32 * o.id + a.lane)
    if as.isEmpty then none else some { o with accs := as, flag := 15 }
  else if o.kind = .vfloor then (if bitN choice (32 * o.id) then some { o with flag := 15 } else none)
  else none

/-- Poison the lines that a lost core held under a lease or dirty, for its context (R366 step 5). -/
def State.poisonHeld (s : State) (c : Nat) : State :=
  let x := s.core c
  let lines := x.leases ++ (x.l1.filter fun e => e.2.priv && e.2.dirty != 0).map (·.1)
  { s with poison := lines.foldl (fun m l => m.set l (poisonLost + x.ctx.getD 0 + 1)) s.poison }

/-- Contexts that a loss of the plate poisons lines of. -/
def State.poisonedCtxs (s : State) (p : Nat) : List Nat :=
  (plateCores p).filterMap fun c =>
    let x := s.core c
    if x.leases.isEmpty && !(x.l1.any fun e => e.2.priv && e.2.dirty != 0) then none else x.ctx

/-- The chain entries of a lost core: unstarted ones go without any write; started ones run on without tag and flag,
but one that reads the core's scratchpad stops with error (R337, R367). -/
def State.orphanChain (s : State) (c cls : Nat) : State :=
  let stop := (((s.core c).chain cls).entries.filter fun e => (e.st == .running || e.st == .paused) && ctlSsp e.desc == 1).map (·.seq)
  stop.foldl (fun u q => u.completeEntry c cls q (some (0x1D, 0)))
    (s.modCore c fun x => x.modChain cls fun h =>
      { h with entries := (h.entries.filter fun e => e.st != .queued).map fun (e : Entry) => { e with orphan := true } })

/-- What is left of a lost core: its chains and its bins stand on the base die. -/
def Core.lost (c : Core) : Core :=
  { ({} : Core) with
    ctx := c.ctx, zeroed := false, copy := c.copy, gath := c.gath, coll := c.coll, stamp := c.stamp, mxSoft := c.mxSoft, mxHard := c.mxHard
    bins := c.bins.map fun (b : Bin) => { b with closed := true } }

/-- The bins of a core go to the rings as far as they have space; the others wait, closed, for BIN_ADMIT (R314). -/
def State.binsOut (s : State) (c : Nat) : State :=
  ((s.core c).bins.foldl
    (fun (q : State × List Bin) b =>
      match q.1.spillBin (dieOf c) b.threads with
      | some u => (u, q.2)
      | none => (q.1, q.2 ++ [b])) (s, [])) |> fun q => q.1.modCore c fun x => { x with bins := q.2 }

/-- A group of a lost plate is redispatched (R368), or ends with no release and no join decrement (R366 step 7). -/
def State.restarts (s : State) (g : Group) : Bool := (s.launchOf g).restart && g.kind == .launch && g.phase != .ending

/-- A group leaves a lost plate. -/
def State.loseGroup (s : State) (gid : Nat) (g : Group) : State :=
  (if s.restarts g then
     s.modLaunch (dieOf g.core) (1024 * g.ctx + g.lid) fun l => { l with redo := l.redo ++ [{ index := g.index, recs := g.recs }] }
   else s.threadsOver g).freeGroup gid

/-- Body of a plate-lost record (R369). -/
def plateBody (p cause ndisc nrst ngrp queue tag : Nat) (lrec : W64) : Nat :=
  p + 2 ^ 8 * cause + 2 ^ 16 * ndisc + 2 ^ 32 * nrst + 2 ^ 48 * ngrp + 2 ^ 64 * queue + 2 ^ 80 * tag + 2 ^ 96 * lrec.toNat

/-- The record of one context (R369); `s` is the state at the fence. -/
def State.plateRecord (s u : State) (p cause ctx : Nat) : State :=
  let gs := (s.plateGroups p).filter fun e => e.2.ctx == ctx
  let low := (gs.foldl (fun (b : Option Group) e => match b with | some x => if e.2.index < x.index then some e.2 else b | none => some e.2) none).getD {}
  let l := s.launchOf low
  let nrst := (gs.filter fun e => s.restarts e.2).length
  let flags := (if (s.poisonedCtxs p).contains ctx then 1 else 0) + if nrst < gs.length then 2 else 0
  u.logCtx (p / 4) ctx 0x31 flags (plateBody p cause (s.plateDisc p ctx) nrst gs.length (l.queue % 1024) (l.tag % 65536) l.lrec)

/-- Contexts of the groups on a plate, ascending. -/
def State.plateCtxs (s : State) (p : Nat) : List Nat := (((s.plateGroups p).map (·.2.ctx)).eraseDups).mergeSort

/-- The records of a loss (R369). -/
def State.plateRecords (s u : State) (p cause : Nat) : State :=
  let cs := s.plateCtxs p
  let all := (cs ++ ((s.ops.filter fun o => plateOf o.core == p).map (·.ctx)) ++ (s.plateEntries p).map (·.2.2.ctx)).eraseDups
  let gs := s.plateGroups p
  let nrst := (gs.filter fun e => s.restarts e.2).length
  let flags := (if (s.poisonedCtxs p).isEmpty then 0 else 1) + if nrst < gs.length then 2 else 0
  (cs.foldl (fun v c => s.plateRecord v p cause c) u).logSys (p / 4) 0x31 flags 0
    (plateBody p cause (min 65535 ((all.map fun c => s.plateDisc p c).sum)) nrst gs.length 0 0 0)

/-- A plate is declared lost (R366): the acts in their order. -/
def State.plateLost (s : State) (p cause : Nat) : State :=
  let d := p / 4
  let q := s.choose
  let s1 := ({ q.2 with ops := q.2.ops.filterMap fun o => if plateOf o.core = p then s.fenced o q.1 else some o } : State).modDie d fun x =>
    { x with plates := x.plates.set p 1, l2tlb := x.l2tlb.filter fun e => e.1 / 2 ^ 54 != p % 4 }
  let s2 := (plateCores p).foldl (fun u c => (u.poisonHeld c).modCore c Core.lost) s1
  let s3 := (plateCores p).foldl (fun u c => u.binsOut c) s2
  let s4 := (plateCores p).foldl (fun u c => (List.range 3).foldl (fun v k => v.orphanChain c k) u) s3
  let s5 := (s.plateGroups p).foldl (fun u e => u.loseGroup e.1 e.2) s4
  s.plateRecords s5 p cause

/-- A plate that is in service, or under its own return, can be lost (R390). -/
def State.canLose (s : State) (p : Nat) : Bool :=
  p < 16 && (s.die (p / 4)).br == 4 && ((s.die (p / 4)).plates.get p 0 != 1) && ((s.die (p / 4)).plates.get p 0 != 3)

/-- Whether a flit has waited 2,000 rc ticks for a plate: a reply or a lease grant to one of its cores, or a beat of an engine towards a
scratchpad or a reservation (R365). -/
def State.portStuck (s : State) (p : Nat) : Bool :=
  (s.ops.any fun o => plateOf o.core == p && o.accs.any fun a => o.waitsPort a && 2000 ≤ a.port) ||
  ((plateCores p).any fun c => (s.core c).grants.any fun e => 2000 ≤ e.2) ||
  (s.plateEntries p).any fun e => e.2.2.waitsPort && 2000 ≤ e.2.2.port

/-- PLATE_WATCHDOG_EXPIRY: a flit has waited too long: CAUSE 1; frozen while the die is in debug halt (R365). -/
def execPlateWatchdogExpiry (plate : Nat) (s : State) : Out :=
  if s.canLose plate && s.portStuck plate && !(s.die (plate / 4)).dbg then .next (s.plateLost plate 1) else .next s
/-- PLATE_PORT_ERROR: CAUSE 2 (R365). -/
def execPlatePortError (plate : Nat) (s : State) : Out := if s.canLose plate then .next (s.plateLost plate 2) else .next s
/-- THERMAL_TRIP: CAUSE 3 (R365). -/
def execThermalTrip (plate : Nat) (s : State) : Out := if s.canLose plate then .next (s.plateLost plate 3) else .next s
/-- PLATE_DECLARE_LOST: CMD 1, CAUSE 4 (R365, R390). -/
def execPlateDeclareLost (plate : Nat) (s : State) : Out := if s.canLose plate then .next (s.plateLost plate 4) else .next s

/-- CMD 2: a lost plate is reset (R390). -/
def State.plateReset (s : State) (p : Nat) : State :=
  if (s.die (p / 4)).plates.get p 0 = 1 then s.modDie (p / 4) fun x => { x with plates := x.plates.set p 2 } else s

/-- Whether nothing on the base die waits for a lost core: its chains and bins are empty. -/
def Core.drained (c : Core) : Bool := c.inFlight == 0 && c.bins.isEmpty && !((c.copy.fin ++ c.gath.fin ++ c.coll.fin).any fun d => d.val != 0)

/-- PLATE_RESET_RETURN: the self-test of a resetting plate ends. It zeroes every core; on success the cores are in
service after the next dispatcher decision, on failure STATE is failed (R390). -/
def execPlateResetReturn (plate : Nat) (pass : Bool) (s : State) : Out :=
  if 16 ≤ plate ∨ (s.die (plate / 4)).plates.get plate 0 ≠ 2 ∨ !(plateCores plate).all fun c => (s.core c).drained then .next s
  else
    .next (((plateCores plate).foldl (fun u c => u.clearCore c none) s).modDie (plate / 4) fun x =>
      { x with plates := x.plates.set plate (if pass then 4 else 3) })

end Sys2Proof.Machine
end

