-- ==== Sys2Proof/Machine/Slice.lean ====
section
/-! DEFINITION. Retiring a slice bucket by bucket (R246, R410, R411), federation barriers (R418, R419), and the
announcements of federated launches (R417). -/

namespace Sys2Proof.Machine

/-! Slices (R410, R411). -/

/-- The in-service slices of a die. -/
def Die.liveSlices (x : Die) : List Nat := (List.range 48).filter fun n => x.slices.get n 0 == 0

/-- A slice starts retiring, or the die refuses with a record (R411). -/
def State.sliceRetire (s : State) (d slice : Nat) : State :=
  let x := s.die d
  if 48 ≤ slice ∨ x.slices.get slice 0 ≠ 0 then s
  else if x.liveSlices.length < 25 then s.logSys d 0x35 0 0 slice
  else s.modDie d fun y => { y with slices := y.slices.set slice 1 }

/-- SLICE_RETIRE_NOW: CMD 1 (R411). -/
def execSliceRetireNow (die slice : Nat) (s : State) : Out := .next (s.sliceRetire die slice)

/-- Buckets that a slice holds, ascending. -/
def Die.bucketsOf (x : Die) (slice : Nat) : List Nat := (List.range 1024).filter fun b => x.bucketSlice b == slice

/-- The heir of a retiring slice: the in-service slice under the same plate with the fewest buckets, the lowest number on
a tie; without one, among every in-service slice of the die (R411). -/
def Die.heir (x : Die) (slice : Nat) : Nat :=
  let near := x.liveSlices.filter fun n => n / 12 == slice / 12
  let set := if near.isEmpty then x.liveSlices else near
  let cnt := fun n => (x.bucketsOf n).length
  set.foldl (fun b n => if cnt n < cnt b then n else b) (set.headD 0)

/-- Disarm the monitors that a die's slices record and that satisfy a test on line and PIN (R156, R411). -/
def State.disarmAt (s : State) (d : Nat) (p : (line pin : Nat) → Bool) : State :=
  { s with
    waves := s.waves.map fun (q : Nat × Wave) =>
      (q.1, { q.2 with
        mons := q.2.mons.map fun (m : Nat × Mon) =>
          (m.1, if m.2.die = d ∧ p m.2.line m.2.pin then { m.2 with armed := false, trig := false } else m.2) }) }

/-- Whether a die's slices hold reads, to be answered together (R245). -/
def State.holdsReads (s : State) (d : Nat) : Bool :=
  (s.die d).heldReads.any fun h => s.ops.any fun o => o.id == h / 32 && o.accs.any fun a => a.lane == h % 32 && a.st == .pend

/-- A slice that has more than 8,192 version lines after a move gives up the least recently used one (R291); without a free record to take it
the line stays, and the slice is above its limit (log 125). -/
def State.trimLines (s : State) (place : Nat) : (fuel : Nat) → State
  | 0 => s
  | n + 1 =>
    let here := s.grans.filter fun e => e.2.line && s.granHome e.1 e.2.pin == place
    if here.length ≤ 8192 then s
    else
      match here with
      | [] => s
      | e :: r =>
        match s.spillLine ((r.foldl (fun (b : Nat × Gran) x => if x.2.stamp < b.2.stamp then x else b) e).1) with
        | some u => u.trimLines place n
        | none => s

/-- Floors of a place as a region holds them, raised to those of the place whose lines it takes over. -/
def Region.raise (r : Region) (src dst : Nat) : Region :=
  if r.floors.has src then { r with floors := r.floors.set dst (max (r.floors.get src 0) (r.floors.get dst 0)) } else r

/-- The granules that have come to a place get the floors that hold there (R141, R297, R411). -/
def State.floorMoved (s : State) (moved : List (Nat × Nat × Nat)) (place : Nat) : State :=
  (moved.foldl (fun u e => u.applyFloor e.1 ((u.regions.get (64 * e.2.1 + e.2.2) {}).floors.get place 0)) s).trimLines place moved.length

/-- A bucket passes from a slice to its heir: its copies of lines of other dies are written back or dropped,
monitors on its lines are disarmed, everything else
the slice holds for it passes on (R246, R411). -/
def State.moveBucket (s : State) (d b slice heir : Nat) : State :=
  let inB := fun line => bucketOf (128 * line % 2 ^ 48) == b
  let moved := (s.grans.filter fun e => e.1 / 2 ^ 48 == d && e.2.pin < 4 && bucketOf (e.1 % 2 ^ 48) == b).map fun e => (e.1, e.2.ctx, e.2.num)
  let kept := (s.copies.filter fun e => e.1 % 4 == d && inB (e.1 / 4)).map fun e => e.1 / 4
  let s1 := (kept.foldl (fun u l => u.evictCopy d l) s).disarmAt d fun line pin => (pin < 4 || homeDie line != d) && inB line
  let s2 := { s1 with regions := s1.regions.map fun (e : Nat × Region) => (e.1, e.2.raise (48 * d + slice) (48 * d + heir)) }
  (s2.modDie d fun x =>
    { x with
      buckets := x.buckets.set b heir, moving := x.moving.del b, heirs := x.heirs.del b
      prio := x.prio.filter fun e => !inB e.1 }).floorMoved moved (48 * d + heir)

/-- The last act of a retirement: pinned lines of the plate move as their number of slices changes, GEN rises, STATE is
retired, and the record is written (R411). -/
def State.sliceDone (s : State) (d slice : Nat) : State :=
  let pinned := s.grans.filter fun e => e.1 / 2 ^ 48 == d && e.2.pin == 4 + slice / 12
  let s1 := s.modDie d fun x => { x with slices := x.slices.set slice 2, gen := x.gen + 1 }
  let moves := fun line pin => pin == 4 + slice / 12 && s.homeSlice (128 * line) pin != s1.homeSlice (128 * line) pin
  let s2 := s1.disarmAt d fun line pin => homeDie line == d && moves line pin
  let s3 := pinned.foldl
    (fun u e =>
      let dst := u.granHome e.1 e.2.pin
      let v := { u with regions := u.regions.upd (64 * e.2.ctx + e.2.num) {} fun r => r.raise (s.granHome e.1 e.2.pin) dst }
      v.floorMoved [(e.1, e.2.ctx, e.2.num)] dst) s2
  let old := 48 * d + slice
  ({ s3 with
    regions := s3.regions.map fun (e : Nat × Region) => (e.1, { e.2 with floors := e.2.floors.del old })
    ops := s3.ops.map fun (o : MemOp) => { o with pendSl := o.pendSl.filter (· != old) } } : State).logSys d 0x34 0 0
    (slice + 2 ^ 32 * (s3.die d).gen.toNat)

/-- BUCKET_HANDOVER: the lowest bucket of a retiring slice starts its handover to the heir chosen now; one that is being handed over ends it;
with none left the retirement ends (R411). It waits for the replies to reads that the die's slices hold (R407). -/
def execBucketHandover (die : Nat) (s : State) : Out :=
  let x := s.die die
  if s.holdsReads die then .next s
  else
  match (List.range 1024).find? fun b => x.moving.get b false with
  | some b => .next (s.moveBucket die b (x.bucketSlice b) (x.heirs.get b (x.heir (x.bucketSlice b))))
  | none =>
    match (List.range 48).find? fun n => x.slices.get n 0 == 1 with
    | none => .next s
    | some n =>
      match x.bucketsOf n with
      | b :: _ => .next (s.modDie die fun y => { y with moving := y.moving.set b true, heirs := y.heirs.set b (x.heir n) })
      | [] => .next (s.sliceDone die n)

/-! Federation barriers (R418, R419). -/

/-- Word `o` of barrier `k` of a die. -/
def Die.fedReg (x : Die) (k o : Nat) : Nat := x.reg (0x700000 + 32 * k + o)

/-- An arrival that a barrier's unit discards: EN = 0, another context, or a count of 0 (R419). -/
def Die.fedMisuse (x : Die) (k ctx n : Nat) : Bool :=
  !bitN (x.fedReg k 0) 0 || field (x.fedReg k 0) 20 12 != ctx || n == 0

/-- The home unit counts an arrival; with the last one it writes the phase word, which is software-coherent (R418, R419). -/
def State.fedCounted (s : State) (d k n : Nat) : State :=
  let x := s.die d
  let c := x.fedCount.get k 0 + n
  if c < field (x.fedReg k 0) 32 32 then s.modDie d fun y => { y with fedCount := y.fedCount.set k c }
  else
    let pa := d * 2 ^ 48 + x.fedReg k 8 / 8 * 8 % 2 ^ 48
    let s1 := s.modDie d fun y => { y with fedCount := y.fedCount.set k 0 }
    if s.populated pa && !isCtl pa then (s1.dropLease (pa / 128)).wrOwn pa 8 ((s1.rdOwn pa 8 + 1) % 2 ^ 64) else s1

/-- An arrival at the home unit of a barrier: it is counted, or discarded with a record (R418, R419). -/
def State.fedHome (s : State) (d k ctx n : Nat) : State :=
  if (s.die d).fedMisuse k ctx n then s.logSys d 0x38 0 0 k else s.fedCounted d k n

/-- An arrival at barrier `k` of a die's unit: it is forwarded to the home unit, over a link when that is another die's; another package's
home unit lies outside this package (R418, R419). -/
def State.fedArrive (s : State) (d k ctx n : Nat) : State :=
  let x := s.die d
  let home := field (x.fedReg k 0) 9 2
  if 32 ≤ k then s
  else if x.fedMisuse k ctx n then s.logSys d 0x38 0 0 k
  else if field (x.fedReg k 0) 11 9 ≠ Config.package % 512 then s
  else if home = d then s.fedHome d k ctx n
  else s.sendPkt d home (.arrive k ctx n)

/-- FED_BARRIER_ARRIVAL: a 32-bit store of `n` to arrival page `k` of a die by a context (R419). -/
def execFedBarrierArrival (die k ctx n : Nat) (s : State) : Out :=
  .next (s.fedArrive die k ctx (n % 2 ^ 32))

/-- FED_ANNOUNCE: a die announces a federated launch that it has accepted to the other dies of its package, over the links (R417). -/
def execFedAnnounce (die key : Nat) (s : State) : Out :=
  let l := (s.die die).launches.get key {}
  if !(s.die die).launches.has key || l.fedAnn || l.kind == .card || l.phase != .ready then .next s
  else
    .next ((((List.range 4).filter (· != die)).foldl (fun u e => u.sendPkt die e (.fed true l.ctx l.entry.toNat l.fedn)) s).modLaunch
        die key fun x => { x with fedAnn := true })

end Sys2Proof.Machine
end

