-- ==== Sys2Proof/Machine/Queue.lean ====
section
/-! DEFINITION. User queues, the queue mapper and ring entries: R338 to R344, R350, and the checks of a launch record in
its first phase (R205, R206, R210, R345, R347). -/

namespace Sys2Proof.Machine

/-! Descriptors and run state (R338 to R340). -/

/-- Word of a queue's descriptor. -/
def Die.qWord (x : Die) (q o : Nat) : Nat := x.reg (0x200000 + 32 * q + o)
def Die.qEn (x : Die) (q : Nat) : Bool := bitN (x.qWord q 0) 0
def Die.qBase (x : Die) (q : Nat) : Nat := field (x.qWord q 0) 12 42 * 4096
def Die.qCtx (x : Die) (q : Nat) : Nat := field (x.qWord q 8) 16 12
def Die.qPrio (x : Die) (q : Nat) : Nat := field (x.qWord q 8) 8 2
def Die.qLogn (x : Die) (q : Nat) : Nat := field (x.qWord q 8) 0 5
/-- Run state of a queue. -/
def Die.uq (x : Die) (q : Nat) : UQueue := x.uqs.get q {}
/-- Change the run state of a queue. -/
def State.modUq (s : State) (d q : Nat) (f : UQueue → UQueue) : State := s.modDie d fun x => { x with uqs := x.uqs.upd q {} f }
/-- QUANT in rc ticks (R340): 100 ticks in a microsecond. -/
def Die.quantum (x : Die) : Nat := max 1 (x.reg 0x208000 % 65536) * 100

/-- Whether a queue is idle in the sense of R340: nothing to take, at a wait-on-word, or waiting for the page of an
entry's address (R344). -/
def UQueue.isIdle (u : UQueue) : Bool :=
  u.rdidx == u.wridx || u.waitE.isSome || (match u.fault with | some f => f % 2 == 1 | none => false)

/-- A queue without a slot is pending from now (R339, R340). -/
def UQueue.pend (u : UQueue) : UQueue := if u.st = .idle then { u with st := .pending, boost := 0, pendFor := 0 } else u

/-- Stop a queue with its record (R339, R341, R344): the low word of the offending value. -/
def State.stopQueue (s : State) (d q tag v : Nat) : State :=
  (s.modDie d fun x => x.stopQueue q).logCtx d ((s.die d).qCtx q) 0x27 0 (q + 2 ^ 16 * tag + 2 ^ 32 * (v % 2 ^ 32))

/-- A queue is disabled (R338). -/
def Die.disableQueue (x : Die) (q : Nat) : Die :=
  let r := x.qWord q 0
  { (x.setReg (0x200000 + 32 * q) (r - r % 2)) with
    uqs := x.uqs.upd q {} fun u => { u with st := .disabled, waitE := none, fault := none, boost := 0, closing := false } }

/-- A write of `v`, with the bits of `m` written, to word `o` of a queue's descriptor (R338). -/
def State.descWrite (s : State) (d q o m v : Nat) : State :=
  let x := s.die d
  let mask := if o = 0 then (2 ^ 42 - 1) * 4096 + 1 else if o = 8 then 4095 * 65536 + 768 + 31 else 0
  if x.qEn q then
    if o = 0 ∧ bitN m 0 ∧ !bitN v 0 then
      (if ((x.uq q).fault).isSome ∨ (x.uq q).wleft ≠ 0 then s.modUq d q fun u => { u with closing := true } else s.modDie d fun y => y.disableQueue q)
    else s
  else
    let new := ((x.qWord q o &&& (2 ^ 64 - 1 - m % 2 ^ 64)) ||| (v &&& m)) &&& mask
    if o = 0 ∧ bitN new 0 then
      if 6 ≤ x.qLogn q ∧ x.qLogn q ≤ 20 then
        (s.modDie d fun y => y.setReg (0x200000 + 32 * q) new).modUq d q fun _ => { st := .idle }
      else s.modDie d fun y => y.setReg (0x200000 + 32 * q) (new - 1)
    else s.modDie d fun y => y.setReg (0x200000 + 32 * q + o) new

/-- A store of `v`, `size` bytes wide, to offset 0 of a queue's notify page (R339, R340). -/
def State.notify (s : State) (d q size v : Nat) : State :=
  let x := s.die d
  let u := x.uq q
  if size ≠ 8 ∨ 1024 ≤ q ∨ !x.qEn q ∨ v = u.wridx then s
  else if u.wridx ≤ v ∧ v ≤ u.rdidx + 2 ^ x.qLogn q then
    s.modUq d q fun u => { u with wridx := v, idleLeft := x.quantum }.pend
  else s.stopQueue d q 0 v

/-- WRIDX (R339). -/
def execWridx (die q size val : Nat) (s : State) : Out := if (s.die die).br ≠ 4 then .next s else .next (s.notify die q size (val % 2 ^ 64))

/-! The mapper (R340). -/

/-- Rc ticks of 1 ms (R340). -/
def ageTicks : Nat := 100000

/-- Effective priority of a pending queue: one level more for each full 1 ms that it has been pending (R340). -/
def Die.effPrio (x : Die) (q : Nat) : Nat := min 3 (x.qPrio q + (x.uq q).boost + (x.uq q).pendFor / ageTicks)

/-- MAPPER_SLOT_FILL: a free slot takes the pending queue of the highest effective priority, round robin over the queue
numbers (R340). -/
def execMapperSlotFill (die : Nat) (s : State) : Out :=
  let x := s.die die
  let pend := (x.uqs.filter fun e => e.2.st == .pending).map (·.1)
  let top := pend.foldl (fun m q => max m (x.effPrio q)) 0
  let cand := pend.filter fun q => x.effPrio q == top
  if 32 ≤ (x.uqs.filter fun e => e.2.st == .resident).length then .next s
  else
    match (cand.filter fun q => x.rr ≤ q) ++ cand with
    | [] => .next s
    | q :: _ =>
      .next ((s.modUq die q fun u => { u with st := .resident, boost := 0, pendFor := 0, idleLeft := x.quantum }).modDie die fun y =>
        { y with rr := (q + 1) % 1024 })

/-- QUEUE_PRIORITY_AGE: a queue that has been pending for a full 1 ms rises by one level, up to 3 (R340). -/
def execQueuePriorityAge (die q : Nat) (s : State) : Out :=
  let x := s.die die
  if (x.uq q).st = .pending ∧ ageTicks ≤ (x.uq q).pendFor ∧ x.qPrio q + (x.uq q).boost < 3 then
    .next (s.modUq die q fun u => { u with boost := u.boost + 1, pendFor := u.pendFor - ageTicks })
  else .next s

/-- IDLE_QUANTUM_EXPIRY: a resident queue that has been idle for the quantum gives up its slot, but not while its context is being
pre-empted (R340, R360). -/
def execIdleQuantumExpiry (die q : Nat) (s : State) : Out :=
  let x := s.die die
  let u := x.uq q
  if u.st = .resident ∧ u.isIdle ∧ u.idleLeft = 0 ∧ x.cstate.get (x.qCtx q) 0 = 0 then .next (s.modUq die q fun u => { u with st := .idle }) else .next s

/-! Reading the ring (R341). -/

/-- What the mapper finds at the head of a queue's ring. -/
inductive Head where
  | none
  | pause (va : Nat)
  | hold (va : Nat)
  | stop (v tag : Nat)
  | ok (hdr va n : Nat)
  deriving DecidableEq, Repr

/-- The first obstacle on the slots of an entry; a poisoned slot fails like any other check. -/
def State.slotObst (s : State) (d ctx va tag : Nat) : Nat → Head
  | 0 => .none
  | n + 1 =>
    match s.slotObst d ctx va tag n with
    | .none =>
      (match s.schedChk d ctx (va + 64 * n) { size := 64 } with
       | .ok pa _ => if s.badRead (pa / 128) ctx then .stop (va + 64 * n) tag else .none
       | .park => .pause (va + 64 * n)
       | .wait => .hold (va + 64 * n)
       | _ => .stop (va + 64 * n) tag)
    | h => h

/-- Whether NSLOT matches KIND (R341). -/
def slotsOk (kind n : Nat) : Bool :=
  if kind = 1 ∨ kind = 3 then n == 8 else if kind = 2 then n == 2 else if kind = 4 ∨ kind = 5 then n == 1
  else if kind = 0x0F then 1 ≤ n && n ≤ 16 else false

/-- The entry at the head of a resident queue (R341). -/
def State.entryHead (s : State) (d q : Nat) : Head :=
  let x := s.die d
  let u := x.uq q
  let ctx := x.qCtx q
  let i := u.rdidx % 2 ^ x.qLogn q
  let va := x.qBase q + 64 * i
  if x.br ≠ 4 ∨ !x.qEn q ∨ u.st ≠ .resident ∨ u.waitE.isSome ∨ u.fault.isSome ∨ u.wridx ≤ u.rdidx then .none
  else
    match s.slotObst d ctx va 0 1 with
    | .none =>
      let h := s.schedRead d ctx va 8
      let n := field h 8 5
      let tag := field h 16 16
      if !slotsOk (field h 0 8) n ∨ 2 ^ x.qLogn q < i + n ∨ u.wridx < u.rdidx + n ∨ field h 14 2 ≠ 0 ∨ field h 32 32 ≠ 0 then .stop h tag
      else
        (match s.slotObst d ctx va tag n with
         | .none => .ok h va n
         | r => r)
    | r => r

/-- A place that an agent of a die could not reach before its time-out: the cross-die record, when it is no walk that waited
(R255, R422). -/
def State.logFar (s : State) (d ctx va : Nat) : State :=
  match s.walk d ctx va with
  | .leaf w => (match leafPhys d w va with | some pa => s.logCross d ctx va pa | none => s)
  | _ => s

/-- An access of a queue waits for a walk or for a place that answers no request now; when its time-out has passed the queue stops
as for a failing check (R247, R255, R341, R344, R422). -/
def State.queueHold (s : State) (d q va tag : Nat) : State :=
  let ctx := (s.die d).qCtx q
  let u := (s.die d).uq q
  if u.wleft = 1 then ((s.modUq d q fun u => { u with wleft := 0 }).logFar d ctx va).stopQueue d q tag va
  else if u.wleft = 0 then s.modUq d q fun u => { u with wleft := s.waitTicks d ctx va, wfar := s.waitFar d ctx va }
  else s

/-- RDIDX passes the slots of an entry; a queue whose EN = 0 was written stops being enabled (R338, R342). -/
def State.advance (s : State) (d q n : Nat) : State :=
  let x := s.die d
  let s1 := s.modUq d q fun u => { u with rdidx := u.rdidx + n, fault := none, wleft := 0, wfar := none, idleLeft := x.quantum }
  if (x.uq q).closing then s1.modDie d fun y => y.disableQueue q else s1

/-- Whether every earlier entry of a queue has completed (R341, R343). -/
def Die.allDone (x : Die) (q : Nat) : Bool := !(x.launches.any fun e => e.2.queue == q && !e.2.finished)

/-- The mapper at the head of a queue: page faults wait, bad entries stop the queue, an entry of the kind asked for is
taken unless its FENCE holds it back; a signal behaves as if it carried FENCE (R341, R342). -/
def State.takeEntry (s : State) (d q kind : Nat) (f : (hdr va n : Nat) → State) : State :=
  match s.entryHead d q with
  | .none => s
  | .hold va => s.queueHold d q va 0
  | .pause va =>
    (s.modUq d q fun u => { u with fault := some (2 * (va / 4096)) }).raiseFault d ((s.die d).qCtx q) (va / 4096) 2 false false
  | .stop v tag => s.stopQueue d q tag v
  | .ok h va n =>
    if field h 0 8 ≠ kind ∨ ((bitN h 13 ∨ kind = 5) ∧ !(s.die d).allDone q) then s else f h va n

/-- PAD (R341). -/
def execPad (die q : Nat) (s : State) : Out := .next (s.takeEntry die q 0x0F fun _ _ n => s.advance die q n)

/-! Wait-on-word and signal (R344). -/

/-- Whether a wait's condition holds for a word. -/
def WaitE.holds (e : WaitE) (w : Nat) : Bool :=
  let x := w &&& e.mask.toNat
  if e.cmp = 0 then x == e.value.toNat else if e.cmp = 1 then x != e.value.toNat else e.value.toNat ≤ x

/-- The access of an entry meets a page fault: the queue counts as idle and waits for the answer (R344). -/
def State.entryPause (s : State) (d q va : Nat) (write : Bool) : State :=
  (s.modUq d q fun u => { u with fault := some (2 * (va / 4096) + 1), idleLeft := (s.die d).quantum }).raiseFault d ((s.die d).qCtx q)
    (va / 4096) 2 false write

/-- The wait-on-word that a slot holds; none when a reserved bit is set (R344). -/
def waitOf (rd : Nat → Nat → Nat) (tag : Nat) : Option WaitE :=
  let c := rd 0x20 8
  if field c 0 2 = 3 ∨ field c 2 2 ≠ 0 ∨ field c 7 25 ≠ 0 then none
  else
    some {
      tag := tag, va := BitVec.ofNat 64 (rd 0x08 8), value := BitVec.ofNat 64 (rd 0x10 8), mask := BitVec.ofNat 64 (rd 0x18 8)
      cmp := field c 0 2, scope := field c 4 3, left := if field c 32 32 = 0 then 0 else field c 32 32 + 1 }

/-- The condition of a wait-on-word holds: its acquire at .CLUSTER or wider reaches what the queue starts later (R123, R344). -/
def UQueue.passed (u : UQueue) (e : WaitE) : UQueue := { u with waitE := none, acq := u.acq || 2 ≤ e.scope }

/-- WAIT_ON_WORD: the word is read with an acquire; when the condition does not hold the queue stands at the entry
(R344). -/
def execWaitOnWord (die q : Nat) (s : State) : Out :=
  let ctx := (s.die die).qCtx q
  .next (s.takeEntry die q 4 fun h va n =>
    let rd := fun o k => s.schedRead die ctx (va + o) k
    let tag := field h 16 16
    match waitOf rd tag with
    | none => s.stopQueue die q tag (rd 0x20 8)
    | some e =>
      match s.schedChk die ctx e.va.toNat { size := 8 } with
      | .park => s.entryPause die q e.va.toNat false
      | .wait => s.queueHold die q e.va.toNat tag
      | .ok pa leaf =>
        if s.badRead (pa / 128) ctx then s.stopQueue die q tag e.va.toNat
        else if s.lineBusy (pa / 128) then s
        else if e.holds (s.anyRead pa (s.keyId pa (leafKey leaf)) 8) then (s.modUq die q fun u => u.passed e).advance die q n
        else
          let s1 := s.advance die q n
          if (s1.die die).qEn q then s1.modUq die q fun u => { u with waitE := some { e with pa := pa, leaf := BitVec.ofNat 64 leaf } } else s1
      | _ => s.stopQueue die q tag e.va.toNat)

/-- WAIT_ON_WORD_RECHECK: the word has been written, or its translation was dropped; a queue without a slot becomes pending, one with a slot
reads the word again, with the checks of the entry (R252, R340, R344). -/
def execWaitOnWordRecheck (die q : Nat) (s : State) : Out :=
  let u := (s.die die).uq q
  match u.waitE with
  | none => .next s
  | some e =>
    if !e.hit then .next s
    else if u.st = .idle then .next (s.modUq die q UQueue.pend)
    else if u.st ≠ .resident ∨ u.fault.isSome then .next s
    else
      match s.schedChk die ((s.die die).qCtx q) e.va.toNat { size := 8 } with
      | .park => .next (s.entryPause die q e.va.toNat false)
      | .wait => .next (s.queueHold die q e.va.toNat e.tag)
      | .ok pa leaf =>
        if s.lineBusy (pa / 128) then .next s
        else if s.badRead (pa / 128) ((s.die die).qCtx q) then .next (s.stopQueue die q e.tag e.va.toNat)
        else if e.holds (s.anyRead pa (s.keyId pa (leafKey leaf)) 8) then .next (s.modUq die q fun u => { u.passed e with wleft := 0 })
        else
          .next (s.modUq die q fun u =>
            { u with wleft := 0, waitE := some { e with hit := false, pa := pa, leaf := BitVec.ofNat 64 leaf } })
      | _ => .next (s.stopQueue die q e.tag e.va.toNat)

/-- WAIT_ON_WORD_TIMEOUT: TOUT, counted down to 1, stops the queue (R344). -/
def execWaitOnWordTimeout (die q : Nat) (s : State) : Out :=
  match ((s.die die).uq q).waitE with
  | some e => if e.left = 1 ∧ !e.hit then .next (s.stopQueue die q e.tag e.va.toNat) else .next s
  | none => .next s

/-- SIGNAL: once every earlier entry of the queue has completed, the write is performed, then the MSI-X vector is sent
(R344). -/
def execSignal (die q : Nat) (s : State) : Out :=
  let ctx := (s.die die).qCtx q
  .next (s.takeEntry die q 5 fun h va n =>
    let rd := fun o k => s.schedRead die ctx (va + o) k
    let tag := field h 16 16
    let addr := rd 0x08 8
    let v := rd 0x10 8
    let c := rd 0x18 8
    let op := field c 0 2
    let size := if op = 2 then 4 else 8
    if op = 3 ∨ field c 4 3 < 4 ∨ field c 2 2 ≠ 0 ∨ field c 7 1 ≠ 0 ∨ field c 9 7 ≠ 0 ∨ field c 27 37 ≠ 0 ∨ rd 0x20 8 ≠ 0 then
      s.stopQueue die q tag c
    else
      match s.schedChk die ctx addr { size := size, write := true, atom := if op = 1 then some 0 else none } with
      | .park => s.entryPause die q addr true
      | .wait => s.queueHold die q addr tag
      | .ok pa leaf =>
        let key := s.keyId pa (leafKey leaf)
        if s.lineBusy (pa / 128) then s
        else if op = 1 ∧ s.badRead (pa / 128) ctx then s.stopQueue die q tag addr
        else
          let s1 := s.anyWrite pa size key (if op = 1 then (s.anyRead pa key 8 + v) % 2 ^ 64 else v % 2 ^ (8 * size)) ctx
          let s2 := if bitN c 8 then s1.msi die (field c 16 11) else s1
          s2.advance die q n
      | _ => s.stopQueue die q tag addr)

/-! The checks of a launch record that the record alone decides (R345, R347). -/

/-- Narrowest scope of a domain (R206). -/
def domScope (d : Nat) : Nat := if d = 0 then 0 else if d = 7 then 6 else d - 1

/-- The lowest level that breaks a rule of R205 or R206. -/
def hierBad (ls : List Level) : Option Nat :=
  let at0 := fun i => ls.getD i {}
  let idx := List.range ls.length
  let of := fun d => idx.filter fun i => (at0 i).dom == d
  let lanes := (ls.filter fun l => l.dom == 0).foldl (fun a l => a * l.count) 1
  let steps := idx.filter fun i =>
    (at0 i).scope < domScope (at0 i).dom || (0 < i && ((at0 (i - 1)).dom < (at0 i).dom || (at0 (i - 1)).scope < (at0 i).scope))
  let need := fun (d : Nat) (bad : Bool) => if bad then [((of d).headD 0)] else []
  let gang := match of 3, of 2 with
    | c :: _, g :: _ => if 4 < (idx.filter fun i => c < i && i ≤ g).foldl (fun a i => a * (at0 i).count) 1 then [c] else []
    | _, _ => []
  let all := steps ++ need 2 ((of 2).length != 1) ++ need 3 (1 < (of 3).length) ++ need 0 (of 0 == [] || 32 < lanes) ++ gang
  all.foldl (fun m i => match m with | some x => some (min x i) | none => some i) none

/-- Levels of a record. -/
def levelsIn (u : Nat → Nat → Nat) : List Level :=
  (List.range (field (u 0x1C 4) 8 3 + 1)).map fun i =>
    { count := field (u (0x28 + 4 * i) 4) 16 16, dom := field (u (0x28 + 4 * i) 4) 8 3, scope := field (u (0x28 + 4 * i) 4) 4 3 }

/-- Reason 1: the fields, by offset, of which a reserved bit is set or the value is out of range (R345); the base record of a card is
checked like any record (R350). -/
def badFields (u : Nat → Nat → Nat) (kind : LKind) : List Nat :=
  let gs := u 0x14 4
  let scr := u 0x18 4
  let mode := u 0x1C 4
  let cnt := u 0x24 4
  let nlev := field mode 8 3 + 1
  let fieldsBad : List (Nat × Bool) :=
    [ (0x008, 2 ^ 54 ≤ u 8 8 || u 8 8 % 4 != 0),
      (0x010, u 0x10 4 < 4 || 16777216 < u 0x10 4),
      (0x014, field gs 6 2 != 0 || field gs 13 3 != 0 || field gs 22 2 != 0 || field gs 28 4 != 0 || field gs 0 6 == 0 || 32 < field gs 0 6 ||
        field gs 8 5 < 6 || 16 < field gs 8 5 || 32 < field gs 16 6 || field gs 24 4 == 0 || 8 < field gs 24 4),
      (0x018, field scr 12 20 != 0 || 2048 < field scr 0 12),
      (0x01C, field mode 6 2 != 0 || field mode 11 21 != 0 || field mode 4 2 == 3),
      (0x020, field (u 0x20 4) 16 16 == 0 || 2048 < field (u 0x20 4) 16 16),
      (0x024, field cnt 5 3 != 0 || field cnt 15 1 != 0 || field cnt 23 1 != 0 || field cnt 28 4 != 0 || 16 < field cnt 0 5 ||
        64 < field cnt 8 7 || 64 < field cnt 16 7 || 8 < field cnt 24 4 || (kind != .pipeline && u 0 1 == 1 && field cnt 24 4 != 0)) ] ++
    (List.range 8).map (fun i =>
      let v := u (0x28 + 4 * i) 4
      (0x28 + 4 * i, if i < nlev then field v 11 5 != 0 || field v 7 1 != 0 || field v 0 4 != 0 || field v 16 16 == 0 else v != 0)) ++
    (List.range 4).map (fun b => (0x48 + 8 * b, u (0x48 + 8 * b) 8 % 65536 != 0)) ++
    (List.range 14).map (fun i => (0x90 + 8 * i, u (0x90 + 8 * i) 8 != 0)) ++
    (List.range 16).map fun i =>
      let la := u (0x108 + 16 * i) 8
      (0x108 + 16 * i, if i < field cnt 0 5 then field la 33 31 != 0 || field la 0 32 == 0 else la != 0)
  (fieldsBad.filter (·.2)).map (·.1)

/-- Whether the scheduler can read every page of a range now. -/
def State.canRead (s : State) (d ctx va n : Nat) : Bool :=
  n != 0 && (List.range ((va + n - 1) / 4096 + 1 - va / 4096)).all fun i =>
    match s.schedChk d ctx (max va ((va / 4096 + i) * 4096)) { size := 1 } with | .ok _ _ => true | _ => false

/-- Whether a record binds an active-message handler, as far as its handler table can be read when it is taken (R345, R347;
log 101). -/
def State.bindsHandler (s : State) (d ctx : Nat) (u : Nat → Nat → Nat) : Bool :=
  u 0x68 8 != 0 && s.canRead d ctx (u 0x68 8) 2048 && (List.range 256).any fun i => s.schedRead d ctx (u 0x68 8 + 8 * i) 8 != 0

/-- Most registers per lane that an entry of a record's spawn table asks for, as far as the table can be read when the record is
taken (R210, R345, R347; log 101). -/
def State.spawnRegs (s : State) (d ctx : Nat) (u : Nat → Nat → Nat) : Nat :=
  let n := field (u 0x24 4) 16 7
  if u 0x70 8 != 0 && s.canRead d ctx (u 0x70 8) (16 * n) then
    (List.range n).foldl (fun m i => max m (16 * field (s.schedRead d ctx (u 0x70 8 + 16 * i + 8) 8) 8 5)) 0
  else 0

/-- Reason and field offset of a record that fails the first phase (R347). -/
def State.recordBad (s : State) (d ctx : Nat) (u : Nat → Nat → Nat) (kind : LKind) : Option (Nat × Nat) :=
  let gs := u 0x14 4
  let mode := u 0x1C 4
  let ls := levelsIn u
  let waves := field gs 0 6
  let wp := (ls.filter fun l => l.dom == 1).foldl (fun a l => a * l.count) 1
  let regs := field gs 8 5 * 16 * 128 * waves
  match badFields u kind with
  | o :: _ => some (1, o)
  | [] =>
    match hierBad ls with
    | some i => some (2, 0x28 + 4 * i)
    | none =>
      if wp ≠ waves then some (2, 0x14)
      else if 524288 < regs + field gs 24 4 * s.spawnRegs d ctx u * 128 ∨ 64 < waves + field gs 24 4 then some (3, 0x14)
      else if field mode 4 2 = 2 ∧ ls.any fun l => l.dom == 3 then some (3, 0x1C)
      else
        match [0x68, 0x70, 0x78, 0x80, 0x88].find? fun o => u o 8 % 8 != 0 with
        | some o => some (4, o)
        | none =>
          if s.bindsHandler d ctx u ∧ (s.msgRing d ctx).isNone then some (7, 0x68)
          else if field (u 0x24 4) 16 7 ≠ 0 ∧ (s.spillRing d ctx).isNone then some (7, 0x70)
          else if field (u 0x20 4) 16 16 ≤ field (u 0x20 4) 0 16 then some (8, 0x20)
          else if bitN mode 3 ∧ u 0x88 8 = 0 then some (9, 0x88)
          else none

/-- A launch, pipeline or card as the die copies it from its record. -/
def launchOfRecord (u : Nat → Nat → Nat) (kind : LKind) (ctx queue tag : Nat) (lrec : W64) : Launch :=
  let gs := u 0x14 4
  let mode := u 0x1C 4
  let cnt := u 0x24 4
  { kind := kind, ctx := ctx, queue := queue, tag := tag, lrec := lrec
    entry := BitVec.ofNat 64 (u 8 8), codelen := u 0x10 4, waves := field gs 0 6, regs := 16 * field gs 8 5, nbar := field gs 16 6
    spres := field gs 24 4, scr := 256 * field (u 0x18 4) 0 12, prio := field mode 0 2, restart := bitN mode 2, restore := bitN mode 3
    mtx := field mode 4 2, fedix := field (u 0x20 4) 0 16, fedn := field (u 0x20 4) 16 16, levels := levelsIn u
    cbanks := ((List.range 4).filter fun b => u (0x48 + 8 * b) 8 != 0).map fun b => (b, BitVec.ofNat 64 (u (0x48 + 8 * b) 8))
    hndtab := BitVec.ofNat 64 (u 0x68 8), spntab := BitVec.ofNat 64 (u 0x70 8), rgntab := BitVec.ofNat 64 (u 0x78 8)
    stgtab := BitVec.ofNat 64 (u 0x80 8), imgtab := BitVec.ofNat 64 (u 0x88 8), nspn := field cnt 16 7, nrgn := field cnt 8 7
    stages := if kind = .pipeline then List.replicate (field cnt 24 4) {} else []
    exts := (List.range (field cnt 0 5)).map fun i =>
      { va := BitVec.ofNat 64 (u (0x100 + 16 * i) 8), len := field (u (0x108 + 16 * i) 8) 0 32, w := bitN (u (0x108 + 16 * i) 8) 32 } }

/-- The launch-error record of a refused entry, which completes at once as failed (R343, R347). -/
def State.refuseRecord (s : State) (d ctx queue tag reason off : Nat) : State :=
  s.logCtx d ctx 0x28 0 (queue + 2 ^ 16 * tag + 2 ^ 32 * off + 2 ^ 48 * reason)

/-- Whether an outstanding entry of a context holds a LID: a completed card does not, though groups that its groups spawned may still
be there (R343, R347). -/
def Die.lidHeld (x : Die) (ctx l : Nat) : Bool := x.launches.any fun e => e.2.ctx == ctx && e.2.lid % 1024 == l && !e.2.finished

/-- The first LID of a context from `n` on that no outstanding entry on the die holds (R347). -/
def Die.lidFrom (x : Die) (ctx n : Nat) : Option Nat := ((List.range 1024).map fun i => (n + i) % 1024).find? fun l => !x.lidHeld ctx l

/-- The name under which the die keeps an entry that takes a LID: the LID itself, but while a completed card of that LID still has
spawned groups one that only the model tells apart (R347; log 102). -/
def Die.lidName (x : Die) (ctx lid : Nat) : Nat := if x.launches.has (1024 * ctx + lid) then lid + 2 ^ 22 * (x.norder + 1) else lid

/-- The LID that the next entry of a context takes, the counter's value: none while 1,024 are outstanding (R347). -/
def Die.freeLid (x : Die) (ctx : Nat) : Option Nat := x.lidFrom ctx (x.nextLid.get ctx 0)

/-- An entry whose first phase has passed is taken: LID, order, its place among the die's launches; the counter goes on past the LIDs
that are held now (R342, R347, R356). Its groups begin after the acquire of an earlier wait-on-word of its queue (R344). -/
def State.accept (s : State) (d lid : Nat) (l : Launch) : State :=
  s.modDie d fun x =>
    let name := x.lidName l.ctx lid
    let ls := x.launches.set (1024 * l.ctx + name) { l with lid := name, order := x.norder, acq := l.acq || (x.uq l.queue).acq }
    { x with
      nextLid := x.nextLid.set l.ctx ((({ x with launches := ls } : Die).lidFrom l.ctx ((lid + 1) % 1024)).getD ((lid + 1) % 1024))
      launches := ls
      norder := x.norder + 1 }

/-- LAUNCH and PIPELINE at the head of a queue (R342, R345, R347); a die with a mesh link down accepts none (R401). -/
def State.takeLaunch (s : State) (d q : Nat) (kind : LKind) (code : Nat) : State :=
  let ctx := (s.die d).qCtx q
  if (s.die d).meshDown then s
  else
    s.takeEntry d q code fun h va n =>
      let r := s.schedRead d ctx va 512
      let u := fun o k => field r (8 * o) (8 * k)
      let tag := field h 16 16
      match s.recordBad d ctx u kind with
      | some (reason, off) => (s.refuseRecord d ctx q tag reason off).advance d q n
      | none =>
        match (s.die d).freeLid ctx with
        | none => s
        | some lid => (s.accept d lid (launchOfRecord u kind ctx q tag (BitVec.ofNat 64 va))).advance d q n

/-- LAUNCH (R342, R345, R347). -/
def execLaunch (die q : Nat) (s : State) : Out := .next (s.takeLaunch die q .launch 1)
/-- PIPELINE (R342, R347, R353). -/
def execPipeline (die q : Nat) (s : State) : Out := .next (s.takeLaunch die q .pipeline 3)

/-- Fields of a card that break R350, by offset. -/
def cardBad (u : Nat → Nat → Nat) : List Nat :=
  ((([ (0x008, 2 ^ 54 ≤ u 8 8 || u 8 8 % 4 != 0),
      (0x020, field (u 0x20 4) 5 27 != 0 || field (u 0x20 4) 0 5 == 0 || 16 < field (u 0x20 4) 0 5),
      (0x024, u 0x24 4 == 0),
      (0x028, field (u 0x28 4) 23 9 != 0 || field (u 0x28 4) 0 16 == 0 || 64 < field (u 0x28 4) 16 7) ] : List (Nat × Bool)) ++
    (List.range 8).map fun i => (0x40 + 8 * i, u (0x40 + 8 * i) 8 != 0)).filter fun (x : Nat × Bool) => x.2).map fun (x : Nat × Bool) => x.1

/-- The first obstacle on the pages of a base record. -/
def State.baseObst (s : State) (d ctx va : Nat) : Option (Chk × Nat) :=
  (List.range 2).findSome? fun i =>
    let a := if i = 0 then va else (va + 511) / 4096 * 4096
    if i = 1 ∧ va / 4096 = (va + 511) / 4096 then none
    else
      match s.schedChk d ctx a { size := 1 } with
      | .ok _ _ => none
      | c => some (c, a)

/-- Place of a card's dependence counter; none while its page has to be waited for (R348, R351). -/
def State.depaAt (s : State) (d ctx va : Nat) : Option Nat :=
  if va = 0 then none else (s.schedAt d ctx va { size := 4 }).map (·.1)

/-- Whether the line of a card's dependence counter cannot be read now: the take, or the end of the translation, waits (R351). -/
def State.depaBusy (s : State) (d ctx va : Nat) : Bool := match s.depaAt d ctx va with | some pa => s.lineBusy (pa / 128) | none => false

/-- Whether the dependence counter of a card reads zero; a counter whose page has to be waited for is read once it is translated
(R348, R351). -/
def State.depaZero (s : State) (d ctx va : Nat) : Bool :=
  va != 0 &&
  (match s.schedAt d ctx va { size := 4 } with
   | some (pa, leaf) => !s.badRead (pa / 128) ctx && s.anyRead pa (s.keyId pa (leafKey leaf)) 4 == 0
   | none => false)

/-- JOB_CARD at the head of a queue (R350 to R352): while the card table holds 256 cards, none is taken. -/
def execJobCard (die q : Nat) (s : State) : Out :=
  let x := s.die die
  let ctx := x.qCtx q
  if x.meshDown ∨ 256 ≤ (x.launches.filter fun e => e.2.kind == .card && !e.2.finished).length then .next s
  else
    .next (s.takeEntry die q 2 fun h va n =>
      let c := s.schedRead die ctx va 128
      let v := fun o k => field c (8 * o) (8 * k)
      let tag := field h 16 16
      let base := v 0x10 8
      let refuse := fun reason off => (s.refuseRecord die ctx q tag reason off).advance die q n
      match cardBad v with
      | o :: _ => refuse 1 o
      | [] =>
        if base % 8 ≠ 0 then refuse 4 0x10
        else
          match s.baseObst die ctx base with
          | some (.park, a) =>
            (s.modUq die q fun u => { u with fault := some (2 * (a / 4096)) }).raiseFault die ctx (a / 4096) 2 false false
          | some (.wait, a) =>
            if (x.uq q).wleft = 1 then refuse 4 0x10
            else if (x.uq q).wleft = 0 then s.modUq die q fun u => { u with wleft := s.waitTicks die ctx a, wfar := s.waitFar die ctx a }
            else s
          | some _ => refuse 4 0x10
          | none =>
            let r := s.schedRead die ctx base 512
            let u := fun o k => field r (8 * o) (8 * k)
            match s.recordBad die ctx u .card with
            | some (reason, off) => refuse reason off
            | none =>
              match x.freeLid ctx with
              | none => s
              | some lid =>
                if s.depaBusy die ctx (v 0x30 8) then s
                else
                let l := launchOfRecord u .card ctx q tag (BitVec.ofNat 64 base)
                let zero := s.depaZero die ctx (v 0x30 8)
                (s.accept die lid
                  { l with
                    entry := BitVec.ofNat 64 (v 8 8), restore := false, fedix := 0, fedn := 1
                    levels := [{ count := 1, dom := 2, scope := 1 }, { count := l.waves, dom := 1, scope := 1 }, { count := 32, dom := 0, scope := 0 }]
                    args := BitVec.ofNat 64 (v 0x18 8), rsz := 16 * field (v 0x20 4) 0 5, nrec := v 0x24 4, minc := field (v 0x28 4) 0 16
                    ncore := field (v 0x28 4) 16 7, depa := BitVec.ofNat 64 (v 0x30 8), deca := BitVec.ofNat 64 (v 0x38 8)
                    depPa := s.depaAt die ctx (v 0x30 8), cready := v 0x30 8 == 0 || zero, acq := zero }).advance die q n)

end Sys2Proof.Machine
end

