-- ==== Sys2Proof/Machine/LaunchStep.lean ====
section
/-! DEFINITION. The later phases of a launch, pipeline or card: translation (R348), regions (R283 to R286), readiness and
completion (R343, R351, R353), refusal (R347). -/

namespace Sys2Proof.Machine

/-! Translation (R348). -/

/-- A range that a launch needs translated: what it permits must be read, write, execute or user accesses; the reason
and field offset when it does not. -/
structure Need where
  va : Nat
  n : Nat
  x : Bool := false
  u : Bool := false
  w : Bool := false
  reason : Nat
  off : Nat
  deriving DecidableEq, Repr

/-- The ranges of a launch, in order of reason and offset (R347, R348, R351). -/
def Launch.needs (l : Launch) : List Need :=
  (if l.kind = .card ∧ l.depa ≠ 0 then [{ va := l.depa.toNat, n := 4, reason := 4, off := 0x30 }] else []) ++
  ((l.cbanks.map fun e => { va := e.2.toNat, n := 65536, u := true, reason := 4, off := 0x48 + 8 * e.1 }) ++
   (if l.hndtab = 0 then [] else [{ va := l.hndtab.toNat, n := 2560, reason := 4, off := 0x68 }]) ++
   (if l.spntab = 0 then [] else [{ va := l.spntab.toNat, n := 16 * l.nspn, reason := 4, off := 0x70 }]) ++
   (if l.rgntab = 0 then [] else [{ va := l.rgntab.toNat, n := 16 * l.nrgn, reason := 4, off := 0x78 }]) ++
   (if l.stages = [] then [] else [{ va := l.stgtab.toNat, n := 32 * l.stages.length, reason := 4, off := 0x80 }]) ++
   (if l.restore then [{ va := l.imgtab.toNat, n := 8 * l.groups, reason := 4, off := 0x88 }] else [])) ++
  [{ va := l.entry.toNat, n := l.codelen, x := true, u := true, reason := 5, off := 8 }] ++
  ((List.range l.exts.length).map fun i =>
    let e := l.exts.getD i {}
    { va := e.va.toNat, n := e.len, u := true, w := e.w, reason := 5, off := 0x100 + 16 * i })

/-- Pages of a byte range. -/
def pagesOf (va n : Nat) : List Nat := if n = 0 then [] else (List.range ((va + n - 1) / 4096 + 1 - va / 4096)).map (va / 4096 + ·)

/-- What translation finds for one page of a range. -/
def State.needPage (s : State) (d ctx : Nat) (nd : Need) (page : Nat) : Chk :=
  if 2 ^ 42 ≤ page then .trap 3
  else
    match s.walk d ctx (page * 4096) with
    | .fault => .park
    | .table => .table
    | .wait => .wait
    | .leaf w =>
      match leafPhys d w (page * 4096) with
      | none => .trap 6
      | some pa =>
        if !s.populated pa || (nd.u && !leafU w) || (nd.x && !leafX w) || (nd.w && !leafW w) || (!nd.u && leafCC w == 2) then .trap 6
        else .ok pa w

/-- The lowest of two refusals: by reason, then by offset (R347). -/
def lowest (a b : Option (Nat × Nat)) : Option (Nat × Nat) :=
  match a, b with
  | some x, some y => if y.1 < x.1 ∨ (y.1 = x.1 ∧ y.2 < x.2) then some y else some x
  | some x, none => some x
  | none, y => y

/-- The refusal that the ranges of a launch ask for now; `refused` tells pages that system software refused. -/
def State.needsBad (s : State) (d : Nat) (l : Launch) (refused : Nat → Bool) : Option (Nat × Nat) :=
  l.needs.foldl
    (fun b nd =>
      if nd.off = 0x30 ∧ nd.va % 4 ≠ 0 then lowest b (some (4, 0x30))
      else if (pagesOf nd.va nd.n).any fun p =>
          refused p || (match s.needPage d l.ctx nd p with | .trap _ => true | .table => true | .wait => l.wleft == 1 | _ => false) then
        lowest b (some (nd.reason, nd.off))
      else b) none

/-- Pages of a launch with an outcome. -/
def State.needsWith (s : State) (d : Nat) (l : Launch) (c : Chk) : List Nat :=
  ((l.needs.map fun nd => (pagesOf nd.va nd.n).filter fun p => s.needPage d l.ctx nd p == c).flatten).eraseDups

/-- A launch is refused in a later phase: it dispatches nothing and completes as failed (R342, R343, R347). -/
def State.refuseLaunch (s : State) (d key : Nat) (r : Nat × Nat) : State :=
  let l := (s.die d).launches.get key {}
  (s.refuseRecord d l.ctx l.queue l.tag r.1 r.2).dropLaunch d key

/-- Handler table as the die reads it (R345). -/
def State.readHandlers (s : State) (d : Nat) (l : Launch) : FMap W64 :=
  if l.hndtab = 0 then []
  else
    (List.range 320).filterMap fun i =>
      let v := s.schedRead d l.ctx (l.hndtab.toNat + 8 * i) 8
      if v = 0 then none else some (i, BitVec.ofNat 64 v)

/-- The spawn table, and whether an entry of it breaks its map (R345). -/
def State.readSpawn (s : State) (d : Nat) (l : Launch) : List SpawnE × Bool :=
  if l.spntab = 0 then ([], false)
  else
    let raw := (List.range l.nspn).map fun i =>
      (s.schedRead d l.ctx (l.spntab.toNat + 16 * i) 8, s.schedRead d l.ctx (l.spntab.toNat + 16 * i + 8) 8)
    (raw.map fun e => { entry := BitVec.ofNat 64 e.1, words := field e.2 0 3, regs := 16 * field e.2 8 5 },
     raw.any fun e => 4 < field e.2 0 3 || field e.2 3 5 != 0 || field e.2 8 5 < 6 || 16 < field e.2 8 5 || field e.2 13 51 != 0)

/-- The region table; an entry with a reserved bit reads as one without granules, which R284 refuses (R283). -/
def State.readRegions (s : State) (d : Nat) (l : Launch) : List RegionE :=
  if l.rgntab = 0 then []
  else
    (List.range l.nrgn).map fun i =>
      let a := s.schedRead d l.ctx (l.rgntab.toNat + 16 * i) 8
      let b := s.schedRead d l.ctx (l.rgntab.toNat + 16 * i + 8) 8
      { num := field a 58 6, scope := field a 55 3, base := field a 5 49 * 32
        tout := if field b 32 32 = 0 then 100000 else field b 32 32
        ngran := if bitN a 54 ∨ field a 0 5 ≠ 0 then 0 else field b 0 32 }

/-- The stages of a pipeline with the heads and tails of their rings; and whether an entry breaks its map, with the
reason (R353). -/
def State.readStages (s : State) (d : Nat) (l : Launch) : List Stage × Option (Nat × Nat) :=
  (List.range l.stages.length).foldl
    (fun (q : List Stage × Option (Nat × Nat)) i =>
      let at0 := l.stgtab.toNat + 32 * i
      let rd := fun o k => s.schedRead d l.ctx (at0 + o) k
      let sh := rd 0x10 4
      let g : Stage :=
        { entry := BitVec.ofNat 64 (rd 0 8), ring := BitVec.ofNat 64 (rd 8 8), logn := field sh 0 5, minc := field sh 8 7, maxc := field sh 16 7
          high := rd 0x14 4, low := rd 0x18 4, allowance := max 1 (field sh 8 7)
          head := s.schedRead d l.ctx (rd 8 8) 8, tail := s.schedRead d l.ctx (rd 8 8 + 8) 8, left := 512 }
      let bad1 := field sh 5 3 != 0 || field sh 15 1 != 0 || field sh 23 9 != 0 || g.logn < 4 || 20 < g.logn || 64 < g.minc || g.maxc == 0 ||
        64 < g.maxc || g.maxc < g.minc || g.high ≤ g.low || 2 ^ g.logn < g.high || rd 0x1C 4 != 0 || rd 0 8 % 4 != 0 || 2 ^ 54 ≤ rd 0 8
      let bad4 := (pagesOf g.ring.toNat (64 + 16 * 2 ^ (min 20 g.logn))).any fun p =>
        match s.schedChk d l.ctx (p * 4096) { size := 1, write := true } with
        | .ok pa leaf => leafCC leaf != 0 || pa / 2 ^ 48 != d || hostBase ≤ pa
        | .wait => l.wleft == 1
        | _ => true
      (q.1 ++ [g], lowest q.2 (if bad1 then some (1, 0x80) else if bad4 then some (4, 0x80) else none))) ([], none)

/-- Whether a page of a stage ring has a walk that waits (R247, R255, R353). -/
def State.stageWaits (s : State) (d : Nat) (l : Launch) : Bool :=
  (List.range l.stages.length).any fun i =>
    let at0 := l.stgtab.toNat + 32 * i
    let logn := field (s.schedRead d l.ctx (at0 + 0x10) 4) 0 5
    (pagesOf (s.schedRead d l.ctx (at0 + 8) 8) (64 + 16 * 2 ^ (min 20 logn))).any fun p =>
      s.schedChk d l.ctx (p * 4096) { size := 1, write := true } == .wait

/-- LAUNCH_TRANSLATION: every page of a taken launch is translated; missing pages raise fault records and the launch
waits; then its tables are read (R347, R348). -/
def execLaunchTranslation (die key : Nat) (s : State) : Out :=
  let l := (s.die die).launches.get key {}
  if !(s.die die).launches.has key ∨ l.phase ≠ .translate ∨ l.faults ≠ [] then .next s
  else
    let parks := s.needsWith die l .park
    let waits := s.needsWith die l .wait
    if parks ≠ [] then
      .next (parks.foldl (fun u p => u.raiseFault die l.ctx p 2 (pagesOf l.entry.toNat l.codelen |>.contains p) false)
        (s.modLaunch die key fun x => { x with faults := parks }))
    else
      match s.needsBad die l (fun _ => false) with
      | some r => .next (s.refuseLaunch die key r)
      | none =>
        if l.kind = .card ∧ s.depaBusy die l.ctx l.depa.toNat then .next s
        else if waits ≠ [] ∨ (s.stageWaits die l ∧ l.wleft ≠ 1) then .next (if l.wleft = 0 then s.modLaunch die key fun x => { x with wleft := 10001, wfar := none } else s)
        else
          let kept := l.needs.filter fun nd => nd.u
          let pages := ((kept.map fun nd => (pagesOf nd.va nd.n).map fun p => (p, nd)).flatten).foldl
            (fun (m : FMap W64) e => match s.needPage die l.ctx e.2 e.1 with | .ok _ w => m.set e.1 (BitVec.ofNat 64 w) | _ => m) []
          let sp := s.readSpawn die l
          let hnd := s.readHandlers die l
          let st := s.readStages die l
          let rs := sp.1.foldl (fun m e => max m e.regs) 0
          let bad := [ if sp.2 then some (1, 0x70) else none,
              if 524288 < l.regs * 128 * l.waves + l.spres * rs * 128 then some (3, 0x14) else none,
              if (hnd.any fun e => e.1 < 256) && (s.msgRing die l.ctx).isNone then some (7, 0x68) else none, st.2 ].foldl lowest none
          match bad with
          | some r => .next (s.refuseLaunch die key r)
          | none =>
            .next (s.modLaunch die key fun x =>
              { x with
                cready := x.cready || (decide (x.kind = .card) && s.depaZero die l.ctx l.depa.toNat)
                acq := x.acq || (decide (x.kind = .card) && !x.cready && s.depaZero die l.ctx l.depa.toNat)
                phase := .arm, wleft := 0, pages := pages, hnd := hnd, spn := sp.1, rgns := s.readRegions die l, stages := st.1
                depPa := if x.kind = .card then s.depaAt die l.ctx l.depa.toNat else none })

/-! Regions (R283 to R286). -/

/-- Whether a page of a context maps as a region's page must, on a die (R284). -/
def State.regionPage (s : State) (d ctx p : Nat) : Bool :=
  match s.loc d ctx (p * 4096) with
  | .leaf _ e lvl =>
    let w := leafAt e lvl (p * 4096)
    !leafBad d lvl e && leafCC w == 0 && !leafFab w &&
    (match leafPhys d w (p * 4096) with
     | some pa => decide (pa < hostBase) && s.populated pa && !isCtl pa
     | none => false)
  | _ => false

/-- Whether groups of another launch are resident whose extents hold part of the page, of whatever size, that maps a 4 KiB page
(R284). -/
def State.extentTaken (s : State) (d key p : Nat) : Bool :=
  let g := s.pageOf d (key % 2 ^ 22 / 1024) p
  (List.range 4).any fun e => (s.die e).launches.any fun l =>
    (e != d || l.1 != key) && l.2.ctx == key % 2 ^ 22 / 1024 && (s.groups.any fun g => dieOf g.2.core == e && 1024 * g.2.ctx + g.2.lid == l.1) &&
    l.2.exts.any fun x => sharePage (g.1 * 4096) (g.2 * 4096) x.va.toNat x.len

/-- Whether a region entry is refused (R284, R285), given the regions armed so far: number, first byte, granules, scope. -/
def State.regionBad (s : State) (d key : Nat) (armed : List (Nat × Nat × Nat × Nat)) (r : RegionE) : Bool :=
  match armed.find? fun a => a.1 == r.num with
  | some a => a.2 != (r.base, r.ngran, r.scope)
  | none =>
    r.ngran == 0 || 2 ^ 54 < r.base + 32 * r.ngran ||
    (regionPages r.base r.ngran).any (fun p => !s.regionPage d (key % 2 ^ 22 / 1024) p || s.extentTaken d key p) ||
    (armed.any fun a => s.pagesMeet d (key % 2 ^ 22 / 1024) r.base r.ngran a.2.1 (32 * a.2.2.1)) ||
    (List.range 4).any fun e => (s.heap e (key % 2 ^ 22 / 1024)).chunks.any fun c => s.pagesMeet d (key % 2 ^ 22 / 1024) r.base r.ngran c.1 c.2

/-- Whether every region entry of a launch is good (R284, R285). -/
def State.regionsOk (s : State) (d key : Nat) (rs : List RegionE) : Bool :=
  let armed0 := (s.regions.filter fun e => e.1 / 64 == key % 2 ^ 22 / 1024 && e.2.armed).map fun e => (e.1 % 64, e.2.base, e.2.ngran, e.2.scope)
  (rs.foldl (fun (q : List (Nat × Nat × Nat × Nat) × Bool) r => ((r.num, r.base, r.ngran, r.scope) :: q.1, q.2 && !s.regionBad d key q.1 r)) (armed0, true)).2

/-- Dies that hold pages of a region. -/
def State.regionDies (s : State) (d ctx : Nat) (r : RegionE) : List Nat :=
  ((regionPages r.base r.ngran).filterMap fun p =>
    match s.loc d ctx (p * 4096) with
    | .leaf _ e lvl => (leafPhys d (leafAt e lvl (p * 4096)) (p * 4096)).map fun pa => pa / 2 ^ 48
    | _ => none).eraseDups

/-- Arm one region: VER is set on its pages as by the page-class command, in the tables of every die, and every home slice records
it with floor 0 (R285, R286). -/
def State.armRegion (s : State) (d ctx : Nat) (r : RegionE) : State :=
  if (s.regions.get (64 * ctx + r.num) {}).armed then s
  else
    let floors : FMap Nat := ((s.regionDies d ctx r).map fun e =>
      ((List.range 48).filter fun n => (s.die e).slices.get n 0 < 2).map fun n => (48 * e + n, 0)).flatten.foldl (fun m e => m.set e.1 e.2) []
    let s1 := s.verPages ctx r.base r.ngran 1
    { s1 with
      regions := s1.regions.set (64 * ctx + r.num) { base := r.base, ngran := r.ngran, scope := r.scope, armed := true, floors := floors } }

/-- Whether accesses past translation are still on their way to a region's pages (R247, R285). -/
def State.regionBusy (s : State) (d ctx : Nat) (r : RegionE) : Bool :=
  !(s.regions.get (64 * ctx + r.num) {}).armed &&
  (regionPages r.base r.ngran).any fun p =>
    match s.loc d ctx (p * 4096) with
    | .leaf _ e lvl =>
      (match leafPhys d (leafAt e lvl (p * 4096)) (p * 4096) with
       | some pa => s.goingTo fun q => q / 4096 == pa / 4096
       | none => false)
    | _ => false

/-- Whether a walk of the pages of a region that a launch names meets a table page under migration (R255). -/
def State.armHeld (s : State) (d ctx : Nat) (r : RegionE) : Bool :=
  (regionPages r.base r.ngran).any fun p => (s.loc d ctx (p * 4096) == .wait) || (List.range 4).any fun e => s.loc e ctx (p * 4096) == .wait

/-- REGION_ARMING: the regions that a launch names are checked and armed; then the launch is accepted (R283 to R286,
R347). A walk that meets a table page under migration is waited for; after 100 µs the page counts as unmapped (R255; log 114). -/
def execRegionArming (die key : Nat) (s : State) : Out :=
  let l := (s.die die).launches.get key {}
  if !(s.die die).launches.has key ∨ l.phase ≠ .arm then .next s
  else if l.wleft ≠ 1 ∧ (l.rgns.any fun r => s.armHeld die l.ctx r) then
    .next (if l.wleft = 0 then s.modLaunch die key fun x => { x with wleft := 10001, wfar := none } else s)
  else if !s.regionsOk die key l.rgns then .next (s.refuseLaunch die key (6, 0x78))
  else if l.rgns.any fun r => s.regionBusy die l.ctx r then .next s
  else .next ((l.rgns.foldl (fun u r => u.armRegion die l.ctx r) s).modLaunch die key fun x => { x with phase := .ready, wleft := 0 })

/-! Completion (R343, R351). -/

/-- Whether a launch has groups on its die. -/
def State.hasGroups (s : State) (d key : Nat) : Bool := s.groups.any fun g => dieOf g.2.core == d && 1024 * g.2.ctx + g.2.lid == key

/-- Whether nothing of a launch is left to run: every group dispatched and gone, no thread, message or record left. -/
def State.runOver (s : State) (d key : Nat) (l : Launch) : Bool :=
  l.redo.isEmpty && l.threads == 0 && !s.hasGroups d key && (l.stages.all fun g => g.head == g.tail)

/-- Whether the groups of a card itself have all been dispatched and are gone, whatever they spawned (R343). -/
def State.cardOver (s : State) (d key : Nat) (l : Launch) : Bool :=
  l.dealt == l.nrec && !(l.redo.any fun r => r.kind == .launch) &&
  !(s.groups.any fun g => dieOf g.2.core == d && 1024 * g.2.ctx + g.2.lid == key && g.2.kind == .launch)

/-- A card completes and gives up its LID; what its groups spawned keeps its record and its translations until it is gone (R343, R347,
R348; log 102). -/
def State.endCard (s : State) (d key : Nat) : State :=
  if s.runOver d key ((s.die d).launches.get key {}) then s.dropLaunch d key else s.modLaunch d key fun x => { x with finished := true }

/-- LAUNCH_COMPLETE: a launch or pipeline completes (R343); its LID is free and its pages unpinned (R254, R347). -/
def execLaunchComplete (die key : Nat) (s : State) : Out :=
  let l := (s.die die).launches.get key {}
  let left := (List.range l.groups).any fun i => l.next ≤ i && l.serves i
  if !(s.die die).launches.has key || l.kind == .card || l.phase != .ready || !s.runOver die key l || (l.kind == .launch && left) then .next s
  else .next (s.dropLaunch die key)

/-- CARD_READY: the counter at DEPA reads zero (R351). The latch keeps. -/
def execCardReady (die key : Nat) (s : State) : Out :=
  let l := (s.die die).launches.get key {}
  match l.depPa with
  | none => .next s
  | some p =>
    if !(s.die die).launches.has key || l.kind != .card || l.cready || s.lineBusy (p / 128) || s.agentRead p (s.ownKey p) 4 != 0 then .next s
    else .next (s.modLaunch die key fun x => { x with cready := true, acq := true })

/-- CARD_COMPLETE: the last chunk's group is gone; the counter at DECA is decremented, saturating at zero with a
card-underflow record, and the card leaves the table (R343, R351). A page fault of DECA waits for its answer; a DECA that
fails another check, or whose walk or place answers too late, is not decremented. -/
def execCardComplete (die key : Nat) (s : State) : Out :=
  let l := (s.die die).launches.get key {}
  if !(s.die die).launches.has key || l.kind != .card || l.phase != .ready || !l.cready || l.faults != [] then .next s
  else if l.finished then (if s.runOver die key l then .next (s.dropLaunch die key) else .next s)
  else if !s.cardOver die key l then .next s
  else if l.deca = 0 then .next (s.endCard die key)
  else
    match s.schedChk die l.ctx l.deca.toNat { size := 4, write := true, atom := some 0 } with
    | .park =>
      .next ((s.modLaunch die key fun x => { x with faults := [l.deca.toNat / 4096] }).raiseFault die l.ctx (l.deca.toNat / 4096) 2 false true)
    | .wait =>
      if l.wleft = 1 then .next ((s.logFar die l.ctx l.deca.toNat).endCard die key)
      else if l.wleft = 0 then .next (s.modLaunch die key fun x =>
          { x with wleft := s.waitTicks die l.ctx l.deca.toNat, wfar := s.waitFar die l.ctx l.deca.toNat })
      else .next s
    | .ok pa leaf =>
      let k := s.keyId pa (leafKey leaf)
      let v := s.agentRead pa k 4
      if s.lineBusy (pa / 128) then .next s
      else if s.badRead (pa / 128) l.ctx ∨ isCtl pa then .next (s.endCard die key)
      else if v = 0 then .next ((s.logCtx die l.ctx 0x29 0 (l.deca.toNat * 2 ^ 32)).endCard die key)
      else .next ((s.agentWrite pa 4 k (v - 1)).endCard die key)
    | _ => .next (s.endCard die key)

end Sys2Proof.Machine
end

