-- ==== Sys2Proof/Machine/Answer.lean ====
section
/-! DEFINITION. Page walks, their time-outs, and the answers of system software to fault records: R180, R197, R218 to R221,
R247, R252, R255, R344, R348, R380. -/

namespace Sys2Proof.Machine

/-! Walks (R252, R255). -/

/-- A path that waits for a walk of a page makes its access again. -/
def Path.walkAgain (page : Nat) (p : Path) : Path :=
  match p.status with
  | .walk va _ => if va / 4096 = page then { p with status := .run } else p
  | _ => p

/-- Put a translation into a core's L1 TLB of 128 entries and its plate's L2 TLB of 8,192 (R252). -/
def State.fillTlb (s : State) (core ctx page w : Nat) : State :=
  let put := fun (n : Nat) (m : FMap W64) (k : Nat) => FMap.set (if n ≤ m.length ∧ !m.has k then m.tail else m) k (BitVec.ofNat 64 w)
  let mine : FMap W64 := (s.die (dieOf core)).l2tlb.filter fun e => e.1 / 2 ^ 54 == plateOf core % 4
  let full := 8192 ≤ mine.length && !mine.has (l2Key (plateOf core) ctx page)
  (s.modCore core fun c => { c with tlb := put 128 c.tlb page }).modDie (dieOf core) fun x =>
    { x with
      l2tlb := (if full then x.l2tlb.del ((mine.headD (0, 0)).1) else x.l2tlb).set (l2Key (plateOf core) ctx page) (BitVec.ofNat 64 w) }

/-- PAGE_WALK: a walk of a page for a core's context ends: a leaf goes into the TLBs, and waiting lanes make their access
again (R236 to R238, R252). -/
def execPageWalk (core page : Nat) (s : State) : Out :=
  match (s.core core).ctx with
  | none => .next s
  | some ctx =>
    if 2 ^ 42 ≤ page ∨ 256 ≤ core then .next s
    else
      let again := fun (u : State) => { u with
        waves := u.waves.map fun (q : Nat × Wave) =>
          (q.1, if q.1 / 64 = core then q.2.mapPaths (·.map fun p => p.walkAgain page) else q.2) }
      match s.walk (dieOf core) ctx (page * 4096) with
      | .wait => .next s
      | .leaf w => .next (again (s.fillTlb core ctx page w))
      | _ => .next (again s)

/-- PAGE_WALK_TIMEOUT: a walk has waited 100 µs: its lanes take the table fault, and stand at their word until the trap has been
handled; in debug halt they keep their state (R224, R247, R255, R423). -/
def execPageWalkTimeout (core slot lane : Nat) (s : State) : Out :=
  let key := waveKey core slot
  let w := s.wave key
  let all := w.paths ++ (match w.saved with | some v => v.paths | none => [])
  match all.find? fun p => p.lanes.getLsbD lane with
  | none => .next s
  | some p =>
    match p.status, w.gid with
    | .walk va 0, some gid =>
      if (s.die (dieOf core)).dbg then .next s
      else
      let own := (s.group gid).phase == .handler && w.saved.isSome && w.paths.contains p
      let s1 := s.modWave key fun w => w.mapPaths (·.map fun q => if q = p then { q with status := .stay } else q)
      .next (s1.trapA gid { code := 0x0C, epc := p.pc, eaddr := BitVec.ofNat 64 va, emask := p.lanes, wave := w.wix } own)
    | _, _ => .next s

/-! Answers (R220, R380). -/

/-- A parked sub-group: its group, the trap of a refused fault, and whether a handler's own word parked it. -/
structure Parked where
  gid : Nat
  trap : Trap
  own : Bool
  deriving DecidableEq, Repr

/-- The sub-groups that wait on a page, group by group and wave by wave: a refused one takes the page-fault trap, or the fetch
trap where it was parked on its code (R214, R220, R373). -/
def State.parkedOn (s : State) (d ctx page : Nat) : List Parked :=
  ((s.groupsOf d ctx).map fun g => (g.2.keys.map fun k =>
    let w := s.wave k
    let pick := fun (own : Bool) (p : Path) =>
      match p.status with
      | .parked va fetch =>
        if va / 4096 = page then
          let code := if fetch then 0x0B else 5
          let eaddr := if fetch then p.pc else BitVec.ofNat 64 va
          some { gid := g.1, own := own, trap := { code := code, epc := p.pc, eaddr := eaddr, emask := p.lanes, wave := w.wix } : Parked }
        else none
      | _ => none
    (w.paths.filterMap (pick (g.2.phase == .handler && w.saved.isSome))) ++
      (match w.saved with | some v => v.paths.filterMap (pick false) | none => [])).flatten).flatten

/-- A sub-group that waits on a page takes a status. -/
def Path.unpark (page : Nat) (st : Status) (p : Path) : Path :=
  match p.status with
  | .parked va _ => if va / 4096 = page then { p with status := st } else p
  | _ => p

/-- Waiting sub-groups become ready at their words (R220). In a halt, and with a trap of its own to take, a sub-group first issues
after ERET (R221, R224); a handler's own lanes go on at once. -/
def State.unpark (s : State) (d ctx page : Nat) (refused : Bool) : State :=
  (s.groupsOf d ctx).foldl
    (fun u g => g.2.keys.foldl
      (fun v k => v.modWave k fun w =>
        let now := !refused && (g.2.phase == .admitted || g.2.phase == .running || (g.2.phase == .handler && w.saved.isSome))
        { w with
          paths := w.paths.map fun p => p.unpark page (if now then .run else .stay)
          saved := w.saved.map fun v => { v with paths := v.paths.map fun p => p.unpark page .stay } }) u) s

/-- Lanes of an answer: those of refused accesses become ready at their words after the trap (R220, R221). -/
def State.answerLanes (s : State) (d ctx page : Nat) (refused : Bool) (ps : List Parked) : State :=
  if refused then ps.foldl (fun u p => u.trapA p.gid p.trap p.own) s else s.unpark d ctx page false

/-- Entries of a die's chains that an answer concerns: core, class, sequence number, address. -/
def State.pausedOn (s : State) (d ctx page : Nat) : List (Nat × Nat × Nat × Nat) :=
  ((s.cores.filter fun c => dieOf c.1 == d).map fun c => ((List.range 3).map fun k =>
    ((c.2.chain k).entries.filter fun e => e.st == .paused && e.ctx == ctx && e.page / 4096 == page).map fun e => (c.1, k, e.seq, e.page)).flatten).flatten

/-- Wave index of the wave in a slot, by which traps of one ac are ordered (R224). -/
def State.wixOf (s : State) (core slot : Nat) : Nat := (s.wave (waveKey core slot)).wix

/-- The answers that may trap concern all waves, or those of one index. -/
def ofWave (wix : Option Nat) (i : Nat) : Bool := wix.isNone || wix == some i

/-- Engine accesses of an answer (R180, R380). -/
def State.answerEntries (s : State) (d ctx page : Nat) (refused : Bool) (wix : Option Nat) : State :=
  (((s.pausedOn d ctx page).filter fun e =>
      ((s.core e.1).chain e.2.1).entries.any fun x => x.seq == e.2.2.1 && ofWave wix (s.wixOf e.1 x.slot))).foldl
    (fun u e =>
      if refused then u.completeEntry e.1 e.2.1 e.2.2.1 (some (0x1D, e.2.2.2))
      else u.modEntry e.1 e.2.1 e.2.2.1 fun x => { x with st := .running }) s

/-- The completion word that a chain waits with is skipped, with the trap of a failed access (R179, R180). -/
def State.skipWord (s : State) (core cls : Nat) : State :=
  match ((s.core core).chain cls).fin.find? fun d => d.val != 0 with
  | none => s
  | some d =>
    (s.modCore core fun c => c.modChain cls fun x => { x with fin := x.fin.filter (· != d), err := true }).engTrap d.gid d.slot 0x1D d.cmpl.toNat d.own 15

/-- Completion words of an answer (R179). -/
def State.answerWords (s : State) (d ctx page : Nat) (refused : Bool) (wix : Option Nat) : State :=
  (((s.cores.filter fun c => dieOf c.1 == d).map fun c => (List.range 3).filterMap fun k =>
      let h := c.2.chain k
      if h.cmplPage = some page && (match h.fin.find? fun e => e.val != 0 with | some e => e.ctx == ctx && ofWave wix (s.wixOf c.1 e.slot) | none => false) then some (c.1, k) else none).flatten).foldl
    (fun u e =>
      let v := u.modCore e.1 fun c => c.modChain e.2 fun h => { h with cmplPage := none }
      let w := if refused then v.skipWord e.1 e.2 else v
      w.completionWords e.1 e.2 ((w.core e.1).chain e.2).fin.length) s

/-- The write of a tree's root that a refused page stops (R180, R405). -/
def State.answerTrees (s : State) (d ctx page : Nat) : State :=
  (List.range 16).foldl
    (fun u t => ((u.tree d t).units.filter fun x => x.full && entRoot ((u.die d).treeEnt t x.router)).foldl
      (fun v x =>
        let va := x.first.dst + 128 * x.pkt
        if x.first.ctx = ctx ∧ ((pageParts va 128).any fun p => p.1 / 4096 == page) ∧ ((v.tree d t).unitsOf x.router).head? = some x then
          (v.unitDone d t x).failUnit d t x va
        else v) u) s

/-- Drains of an answer: a refused atomic ends the drain with its data written (R197). -/
def State.answerDrains (s : State) (d ctx page : Nat) (refused : Bool) (wix : Option Nat) : State :=
  (((s.cores.filter fun c => dieOf c.1 == d).map fun c =>
      (c.2.mchain.filter fun o => o.paged == some page && (s.group o.gid).ctx == ctx && ofWave wix (s.wixOf c.1 o.slot)).map fun o => (c.1, o)).flatten).foldl
    (fun u e =>
      if refused then (u.drainRegs e.1 e.2).mxFail e.1 e.2 0x1D e.2.amxVa.toNat
      else u.modMx e.1 e.2.id fun o => { o with paged := none }) s

/-- Launches and cards of an answer (R348, R380). -/
def State.answerLaunches (s : State) (d ctx page : Nat) (refused : Bool) : State :=
  ((s.die d).launches.filter fun e => e.2.ctx == ctx && e.2.faults.contains page).foldl
    (fun u e =>
      if !refused then u.modLaunch d e.1 fun l => { l with faults := l.faults.filter (· != page) }
      else if e.2.phase = .translate then u.refuseLaunch d e.1 ((u.needsBad d e.2 (· == page)).getD (5, 8))
      else u.modLaunch d e.1 fun l => { l with faults := [], deca := 0 }) s

/-- Queues of an answer (R341, R344). -/
def State.answerQueues (s : State) (d ctx page : Nat) (refused : Bool) : State :=
  ((s.die d).uqs.filter fun e =>
      (s.die d).qCtx e.1 == ctx && (match e.2.fault with | some f => f / 2 == page | none => false)).foldl
    (fun u e =>
      let q := e.1
      let x := u.die d
      let va := x.qBase q + 64 * (e.2.rdidx % 2 ^ x.qLogn q)
      let h := u.schedRead d ctx va 8
      let readable := u.slotObst d ctx va 0 1 == .none
      let odd := (e.2.fault.getD 0) % 2 == 1
      if !refused then
        u.modUq d q fun w => let w1 := { w with fault := none }; if odd then w1.pend else w1
      else if odd then
        (match e.2.waitE with
         | some w => u.stopQueue d q w.tag w.va.toNat
         | none => u.stopQueue d q (field h 16 16) (u.schedRead d ctx (va + 8) 8))
      else if readable && field h 0 8 == 2 && u.slotObst d ctx va 0 2 == .none then
        (u.refuseRecord d ctx q (field h 16 16) 4 0x10).advance d q 2
      else u.stopQueue d q (if readable then field h 16 16 else 0) (page * 4096)) s

/-- Accesses that GREST issued again and that are paused on a page: a refused one takes the page-fault trap (R384). -/
def State.answerReissued (s : State) (d ctx page : Nat) (wix : Option Nat) : State :=
  s.ops.foldl
    (fun u o =>
      let ls := (o.accs.filter fun a => a.st == .pend && a.leaf == 0 && a.va.toNat / 4096 == page).map (·.lane)
      if o.reiss && ofWave wix (s.wixOf o.core o.slot) && dieOf o.core == d && (s.group o.gid).ctx == ctx && !ls.isEmpty then u.failAccs o.id 5 ls else u) s

/-- The lanes, engine accesses, completion words, drains and reissued accesses of the waves of one index, or of all: an answer of a
refused page traps them wave by wave (R224). -/
def State.answerWave (s : State) (d ctx page : Nat) (refused : Bool) (ps : List Parked) (wix : Option Nat) : State :=
  let s1 := ((s.answerLanes d ctx page refused (ps.filter fun p => ofWave wix p.trap.wave)).answerEntries d ctx page refused wix).answerWords
    d ctx page refused wix
  let s2 := s1.answerDrains d ctx page refused wix
  if refused then s2.answerReissued d ctx page wix else s2

/-- A response to fault record `rec` of a die (R220, R380); one that names no outstanding record is ignored. -/
def State.respond (s : State) (d rec : Nat) (refused : Bool) : State :=
  match (s.die d).faults.find? fun f => f.id == rec && f.written with
  | none => s
  | some f =>
    let s0 := s.modDie d fun x => { x with faults := x.faults.filter fun e => e.id != rec }
    let ps := s0.parkedOn d f.ctx f.page
    let s1 :=
      if refused then (List.range 32).foldl (fun u i => u.answerWave d f.ctx f.page true ps (some i)) (s0.unpark d f.ctx f.page true)
      else s0.answerWave d f.ctx f.page false ps none
    let s2 := if refused then s1.answerTrees d f.ctx f.page else s1
    (s2.answerLaunches d f.ctx f.page refused).answerQueues d f.ctx f.page refused

/-- A store to FRESP (R380): a nonzero reserved bit makes it ignored. -/
def State.fresp (s : State) (d val : Nat) : State :=
  if val / 2 ^ 33 ≠ 0 then s else s.respond d (val % 2 ^ 32) (bitN val 32)

/-- FRESP_RESOLVE (R220, R380). -/
def execFrespResolve (die rec : Nat) (s : State) : Out := .next (s.respond die rec false)
/-- FRESP_REFUSE (R220, R380). -/
def execFrespRefuse (die rec : Nat) (s : State) : Out := .next (s.respond die rec true)

end Sys2Proof.Machine
end

