-- ==== Sys2Proof/Machine/Ctl.lean ====
section
/-! DEFINITION. Writes to a die's control region: R5, R6, R248, R253, R288, R293, R323, R336, R338, R339, R377, R379,
R380, R385, R390, R403, R410, R418, R422, R427, R432, R434, R436, R439. -/

namespace Sys2Proof.Machine

/-- Mask of the bits `lo` to `lo + n - 1`. -/
def bits (lo n : Nat) : Nat := (2 ^ n - 1) * 2 ^ lo

/-- `old` with the bits of `m` taken from `v`. -/
def merge64 (old m v : Nat) : Nat := (old &&& (2 ^ 64 - 1 - m % 2 ^ 64)) ||| (v &&& m)

/-- Bits that a write reaches of the RW words that only hold a value (R5, R6, R248, R253, R336, R340, R377, R379, R418,
R436). -/
def plainMask (w : Nat) : Option Nat :=
  if w = 0x102200 then some (bits 0 32)
  else if w = 0x208000 then some (bits 0 16)
  else if w = 0x300010 then some (bits 0 11)
  else if w = 0x300200 then some (bits 12 52 + bits 0 5)
  else if w = 0xA00100 ∨ w = 0xB00100 then some (bits 0 64)
  else if 0xA01040 ≤ w ∧ w < 0xA01080 then some (bits 0 64)
  else if w = 0xA01080 then some (bits 0 9)
  else if w = 0xB00000 then some (bits 0 54)
  else if 0x700000 ≤ w ∧ w < 0x700400 ∧ w % 32 = 8 then some (bits 3 61)
  else none

/-- A head register takes a value between the old head and the tail (R377, R379). -/
def headTo (head tail v : W32) : W32 := if (v - head).toNat ≤ (tail - head).toNat then v else head

/-- Clear the bits of a W1C field that a write names. -/
def w1c (n : Nat) (old : BitVec n) (v : Nat) : BitVec n := old &&& ~~~(BitVec.ofNat n v)

/-- The command bits of a context's control block (R385). -/
def State.ctxCmd (s : State) (d ctx cmd : Nat) : State :=
  match cmd with
  | 1 => s.preemptDrain d ctx
  | 2 => s.preemptSave d ctx
  | 3 => s.contextResume d ctx
  | 4 => s.contextReset d ctx 1
  | _ => s

/-- The command bits of a plate's control register (R390); a plate answers on its own die. -/
def State.plateCmd (s : State) (d p cmd : Nat) : State :=
  if p / 4 ≠ d then s
  else if cmd = 1 ∧ s.canLose p then s.plateLost p 4
  else if cmd = 2 then s.plateReset p
  else s

/-- The write of a word that carries out a command: `size` bytes were written, `v` holds their bits. -/
def State.ctlCommand (s : State) (d w size v : Nat) : State :=
  if w = 0xA00108 ∧ size = 4 then s.pageZero d (v % 2 ^ 32)
  else if w = 0xA01000 then (if field v 10 2 = 1 then s.keyLoad d v else if field v 10 2 = 2 then s.keyErase d v else s)
  else if w = 0xB00008 ∧ size = 8 then s.pageClass d v
  else if w = 0xB00108 ∧ size = 4 then s.invalidate d (v % 2 ^ 32)
  else if w = 0xB00200 ∧ size = 8 then s.disarmCommand d v
  else if w = 0x300020 then s.fresp d v
  else s

/-- The write of a word whose fields have behaviour of their own; `m` are the bits written, `v` their values, and the
rest of the word keeps what it holds. -/
def State.ctlFields (s : State) (d w m v : Nat) : State :=
  let x := s.die d
  let new := merge64 (x.reg w) m v
  if 0x100000 ≤ w ∧ w < 0x102000 then
    (if field w 3 2 = 2 ∧ field w 5 2 < 3 ∧ bitN v 15 then
       s.modCore (64 * d + field w 7 6) fun c => c.modChain (field w 5 2) fun h => { h with err := false }
     else s)
  else if 0x102000 ≤ w ∧ w < 0x102200 then
    s.modCore (64 * d + field w 3 6) fun c => { c with mxSoft := w1c 32 c.mxSoft v, mxHard := w1c 16 c.mxHard (v / 2 ^ 32) }
  else if 0x200000 ≤ w ∧ w < 0x208000 then s.descWrite d (field w 5 10) (w % 32) m v
  else if w = 0x300000 then (s.modDie d fun y => y.setReg w (new &&& (bits 12 52 + bits 0 5))).deliverFaults d 65536
  else if w = 0x300008 then
    (s.modDie d fun y => { y with fhead := headTo y.fhead y.ftail (BitVec.ofNat 32 (merge64 y.fhead.toNat m v)) }).deliverFaults d 65536
  else if 0x300100 ≤ w ∧ w < 0x300180 then s.plateCmd d (field w 3 4) (field v 4 4)
  else if w = 0x300208 then
    s.modDie d fun y => { y with shead := headTo y.shead y.stail (BitVec.ofNat 32 (merge64 y.shead.toNat m v)) }
  else if w = 0x300210 then
    s.modDie d fun y => { (y.setReg w (new &&& bits 32 11)) with slost := w1c 32 y.slost v }
  else if 0x400000 ≤ w ∧ w < 0x410000 then
    (if w % 16 = 0 then (s.modDie d fun y => y.setReg w (new &&& bits 32 32)).ctxCmd d (field w 4 12) (v % 8) else s)
  else if 0x500000 ≤ w ∧ w < 0x508000 then
    (let t := (w - 0x500000) / 2048
     let o := w % 2048
     if o = 0 then s.treeEnable d t new
     else if 0x100 ≤ o ∧ o < 0x500 ∧ o % 16 = 0 ∧ !x.treeOn t then
       s.modDie d fun y => y.setReg w (new &&& (bits 61 3 + bits 48 6 + bits 47 1 + bits 40 6 + bits 39 1 + bits 32 6 + bits 31 1 + bits 24 6 +
         bits 23 1 + bits 16 6))
     else s)
  else if 0x600000 ≤ w ∧ w < 0x600180 then
    (let s1 := s.modDie d fun y => y.setReg w (new &&& bits 16 16)
     if field v 4 4 = 1 then s1.sliceRetire d (field w 3 6) else s1)
  else if 0x700000 ≤ w ∧ w < 0x700400 ∧ w % 32 = 0 then
    s.modDie d fun y =>
      let z := y.setReg w (new &&& (bits 6 58 + 1))
      if bitN v 0 then { z with fedCount := z.fedCount.set (field w 5 5) 0 } else z
  else if w = 0x701000 then s.modDie d fun y => y.setReg w (max 1000 (new % 2 ^ 32))
  else if 0x800000 ≤ w ∧ w < 0x820000 ∧ w % 65536 < 1024 ∧ w % 64 = 0 then
    s.modDie 0 fun y => y.setReg w (merge64 (y.reg w) m v &&& bits 12 28)
  else if 0x900000 ≤ w ∧ w < 0x980000 then s.ctxWrite d w new
  else if 0x980000 ≤ w ∧ w < 0x990000 then
    (let c := field w 4 12
     if w % 16 = 0 then
       s.modDie d fun y =>
         let h := y.ehead.get c 0
         { y with ehead := y.ehead.set c (headTo h (y.etail.get c 0) (BitVec.ofNat 32 (merge64 h.toNat m v))) }
     else s.modDie d fun y => { y with elost := y.elost.set c (w1c 32 (y.elost.get c 0) v) })
  else
    match plainMask w with
    | some k =>
      s.modDie d fun y => y.setReg w (if w = 0x208000 then max 1 (new &&& k) else new &&& k)
    | none => s

/-- A write of `size` bytes at an offset of a die's control region, which lies in one aligned word of 8 bytes: words of
the registers (R6), heap-grant pages (R293), notify pages (R339). A read-only field ignores it, and a die that is not
ready discards it (R439). -/
def State.ctlWrite (s : State) (d off size val : Nat) : State :=
  let w := off / 8 * 8
  let lo := 8 * (off % 8)
  let m := bits lo (8 * size)
  let v := val % 2 ^ (8 * size) * 2 ^ lo
  if size = 0 ∨ 8 < off % 8 + size ∨ 4 ≤ d ∨ (s.die d).br ≠ 4 then s
  else if 0x1000000 ≤ off ∧ off < 0x2000000 then
    (if off % 4096 = 0 ∧ size = 8 then s.heapGrant d (off / 4096 % 4096) v else s)
  else if 0x2000000 ≤ off ∧ off < 0x2400000 then (if off % 4096 = 0 then s.notify d (off / 4096 % 1024) size v else s)
  else if 0x1000000 ≤ off then s
  else if w = 0xA00108 ∨ w = 0xA01000 ∨ w = 0xB00008 ∨ w = 0xB00108 ∨ w = 0xB00200 ∨ w = 0x300020 then
    (if off % 8 = 0 then s.ctlCommand d w size v else s)
  else s.ctlFields d w m v

/-- CONTROL_REGISTER_WRITE (R6). -/
def execControlRegisterWrite (die off size val : Nat) (s : State) : Out := .next (s.ctlWrite die off size val)
/-- QUEUE_DESCRIPTOR_WRITE: a 64-bit write at an offset of the descriptors (R338). -/
def execQueueDescriptorWrite (die off val : Nat) (s : State) : Out :=
  if off < 0x8000 then .next (s.ctlWrite die (0x200000 + off / 8 * 8) 8 val) else .next s
/-- FHEAD (R379). -/
def execFhead (die val : Nat) (s : State) : Out := .next (s.ctlWrite die 0x300008 4 val)
/-- FAULT_DELIVERY_ENABLE: a 64-bit write of FBASE and LOGN (R379). -/
def execFaultDeliveryEnable (die val : Nat) (s : State) : Out := .next (s.ctlWrite die 0x300000 8 val)
/-- FED_BARRIER_EN: a 64-bit write of a barrier's first word (R418). -/
def execFedBarrierEn (die k val : Nat) (s : State) : Out :=
  if k < 32 then .next (s.ctlWrite die (0x700000 + 32 * k) 8 val) else .next s

end Sys2Proof.Machine
end

