-- ==== Sys2Proof/Machine/MemStep.lean ====
section
/-! DEFINITION. Memory words after issue: their accesses at the ordering point, leases, held reads, acknowledgement and
completion: R33, R116 to R131, R240 to R245, R263 to R266, R389. -/

namespace Sys2Proof.Machine

/-! Operations and accesses. -/

/-- The operation of an identity. -/
def State.opAt (s : State) (id : Nat) : Option MemOp := s.ops.find? fun o => o.id == id
/-- Change an operation. -/
def State.modOp (s : State) (id : Nat) (f : MemOp → MemOp) : State :=
  { s with ops := s.ops.map fun (o : MemOp) => if o.id = id then f o else o }
/-- Change the accesses of an operation that satisfy a test. -/
def State.modAccs (s : State) (id : Nat) (p : Acc → Bool) (f : Acc → Acc) : State :=
  s.modOp id fun o => { o with accs := o.accs.map fun a => if p a then f a else a }
/-- Drop an operation. -/
def State.dropOp (s : State) (id : Nat) : State := { s with ops := s.ops.filter fun o => o.id != id }

/-- Whether a word counts in the order that one lane's accesses to one byte keep: loads, stores, atomics, VLD (R117). -/
def OpKind.ordered : OpKind → Bool
  | .vst => false
  | .vfloor => false
  | .pref => false
  | _ => true

/-- Whether two words share the party that their accesses of a lane belong to: a lane, or the path of scalar words (R256,
R258). -/
def MemOp.sameParty (o e : MemOp) (lane : Nat) : Bool :=
  if o.sca || e.sca then o.sca && e.sca && (o.lanes &&& e.lanes) != 0 else e.accs.any fun a => a.lane == lane

/-- Whether an earlier word of the wave still has to perform an access of the same party to a byte of this one; one that
waits for its trap's handler is still to be performed, but the handler's own words go before it (R117, R139, R264). -/
def State.accBlocked (s : State) (o : MemOp) (a : Acc) : Bool :=
  o.kind.ordered && !o.mpath &&
  s.ops.any fun e =>
    !e.mpath && e.core == o.core && e.slot == o.slot && e.gid == o.gid && e.seq < o.seq && e.kind.ordered && e.toMem == o.toMem && o.sameParty e a.lane &&
    e.accs.any fun x => (e.sca || x.lane == a.lane) && (x.going || (x.st == .failed && o.own == e.own)) && x.pa < a.pa + o.size && a.pa < x.pa + e.size

/-- A request whose time-out has passed gets no reply any more (R422). -/
def Acc.late (a : Acc) : Bool := a.cross == 1

/-- Whether a place is a heap-grant page whose last grant still waits for a walk: its store is not acknowledged yet (R255, R293). -/
def State.grantHeld (s : State) (pa : Nat) : Bool :=
  isCtl pa && 0x1000000 ≤ ctlOff pa && ctlOff pa < 0x2000000 && (s.die (pa / 2 ^ 48)).hpend.has (ctlOff pa / 4096 % 4096)

/-- Whether an access can be performed now as far as its own word, wave and route go. -/
def State.accReady (s : State) (o : MemOp) (a : Acc) : Bool :=
  a.st == .pend && !a.late && !s.accBlocked o a && !s.keyHeld a.pa a.leaf.toNat && !s.grantHeld a.pa &&
  (!o.toMem || (o.reiss && a.leaf == 0) || hostBase ≤ a.pa || s.routed (dieOf o.core) (servingDie o.core a.leaf.toNat a.pa))

/-- The hint of a context's access changes the priority of a line of device memory (R125). -/
def State.hinted (s : State) (ctx core leaf pa hint : Nat) : State :=
  if pa < hostBase ∧ !isCtl pa ∧ leafCC leaf < 2 ∧ !leafVer leaf then s.hintAt (servingDie core leaf pa) (pa / 128) hint ctx else s

/-! Loads. -/

/-- Outcome of an access at its ordering point: it has to wait, it meets an uncorrectable error, it is performed. -/
inductive Reply where
  | wait
  | bad
  | ok (s : State) (v : Nat)

/-- The newest version of the granule at a place, for a plain read of `n` bytes (R140). -/
def State.newestBytes (s : State) (pa key n : Nat) : Option Nat :=
  let p := pa / 32 * 32
  let g := s.gran p
  match g.newest with
  | some v => if s.chainOk g v then some (field (s.verData p key g v).toNat (8 * (pa % 32)) (8 * n)) else none
  | none => some (s.rdKey pa key n)

/-- The L1's copy of a core-private line, filled from memory when it is absent (R240, R241). -/
def State.privFill (s : State) (core leaf pa : Nat) : State :=
  let line := pa / 128
  if (s.core core).l1.has line then s
  else
    let key := s.keyId pa (leafKey leaf)
    s.l1Put core line { data := BitVec.ofNat 1024 (s.rdKey (128 * line) key 128), priv := true, key := key }

/-- A plain read used the version line of a granule (R291). -/
def State.usedLine (s : State) (pa : Nat) : State := s.useLine (pa / 32 * 32)

/-- A load of a context as its ordering point serves it; a line that comes from a slice enters the L1 when `fill` says so (R124,
R125, R140, R240). -/
def State.loadAt (s : State) (ctx core leaf pa n hint : Nat) (fill : Bool) : Reply :=
  let line := pa / 128
  let key := s.keyId pa (leafKey leaf)
  if isCtl pa then .ok s (s.ctlBytes (pa / 2 ^ 48) (ctlOff pa) n)
  else if s.badRead line ctx then .bad
  else if leafVer leaf then
    match s.newestBytes pa key n with
    | some v => .ok (s.usedLine pa) v
    | none => .bad
  else if leafCC leaf = 2 then
    let s1 := s.privFill core leaf pa
    .ok s1 (lineBytes ((s1.core core).l1.get line {}).data (pa % 128) n)
  else if leafCC leaf = 3 then .ok s (s.rdKey pa key n)
  else if !s.leaseOk core line then .wait
  else
    match s.served core leaf (128 * line) 128 with
    | none => .wait
    | some d =>
      let s1 := s.hinted ctx core leaf pa hint
      .ok (if fill ∨ (s.core core).l1.has line then s1.l1Put core line { data := BitVec.ofNat 1024 d, key := key } else s1)
        (lineBytes (BitVec.ofNat 1024 d) (pa % 128) n)

/-- A plain access that another core's lease keeps waiting joins the requests at the slice (R242). -/
def State.joinAccess (s : State) (o : MemOp) (a : Acc) : State :=
  if s.leaseOk o.core (a.pa / 128) then s else s.joinLine (a.pa / 128) (.access o.id a.lane)

/-- Whether the L1 may serve a load: one without acquire at .WAVE or .GROUP that hits (R124, R266). -/
def State.l1Serves (s : State) (o : MemOp) (a : Acc) : Bool :=
  (o.kind == .load || o.kind == .cld) && !o.acq && o.scope ≤ 1 && leafCC a.leaf.toNat < 2 && !leafVer a.leaf.toNat && (s.core o.core).l1.has (a.pa / 128)

/-- The accesses of a word that stand with one of its accesses at one address (R121). -/
def MemOp.atAddr (o : MemOp) (a : Acc) : List Acc := o.accs.filter fun x => x.st == .pend && x.pa == a.pa

/-- Number under which an access is kept: of a held read, and of the flit that answers it (R245, R365). -/
def holdId (id lane : Nat) : Nat := 32 * id + lane

/-- A load of one address: all lanes of the word that name it get one value (R121), which comes by the flit `flit` unless the core's
own L1 has it; an uncorrectable error fails the word's accesses to that line (R116, R389). -/
def State.loadStep (s : State) (o : MemOp) (a : Acc) (fromL1 : Bool) (flit : Nat) : State :=
  if !((o.atAddr a).all fun x => s.accReady o x) then s
  else
    let own := leafCC a.leaf.toNat == 2 && (s.core o.core).l1.has (a.pa / 128)
    let fin := fun (u : State) (v f : Nat) =>
      u.modAccs o.id (fun x => x.st == .pend && x.pa == a.pa) fun x => { x with st := .perf, data := BitVec.ofNat 256 v, flit := f }
    if fromL1 && s.l1Serves o a then fin s (lineBytes ((s.core o.core).l1.get (a.pa / 128) {}).data (a.pa % 128) o.size) 0
    else
      match s.loadAt o.ctx o.core a.leaf.toNat a.pa o.size o.hint (o.hint != 3) with
      | .wait => (s.joinAccess o a).askFor o.core a.leaf.toNat a.pa false
      | .bad => s.failAccs o.id 0x0D ((o.accs.filter fun x => x.pa / 128 == a.pa / 128 && s.accReady o x).map (·.lane))
      | .ok u v => fin u v (if own then 0 else flit)

/-! Version reads at their home slice (R136 to R139, R294). -/

/-- An access that GREST issued again makes its checks now; a walk may keep it waiting for 100 µs (R255, R384). -/
def State.recheck (s : State) (o : MemOp) (a : Acc) : State :=
  if a.leaf ≠ 0 then s
  else
    let g := s.group o.gid
    match s.check o.core g a.va { size := 32, ver := true } with
    | .ok pa leaf =>
      s.modAccs o.id (fun x => x.lane == a.lane) fun x =>
        s.sent o.core { x with pa := pa, leaf := BitVec.ofNat 64 leaf, walk := 0 }
    | .park => s.raiseFault (dieOf o.core) g.ctx (a.va.toNat / 4096) 0 false false
    | .wait =>
      if a.walk = 1 then (s.modAccs o.id (fun x => x.lane == a.lane) fun x => { x with walk := 0 }).failAccs o.id 0x0C [a.lane]
      else if a.walk = 0 then s.modAccs o.id (fun x => x.lane == a.lane) fun x => { x with walk := 10001 }
      else s
    | .table => s.failAccs o.id 0x0C [a.lane]
    | .trap c => s.failAccs o.id c [a.lane]

/-- What a version access finds at its home slice. -/
structure Place where
  /-- Region number (R283). -/
  num : Nat
  /-- Floor at the slice (R141). -/
  floor : Nat
  /-- Home place of the granule. -/
  home : Nat
  deriving DecidableEq, Repr

/-- The armed region of an access and its floor at the granule's home slice; none in no armed region (R136). -/
def State.verPlace (s : State) (o : MemOp) (a : Acc) : Option Place :=
  let ctx := o.ctx
  match s.regionAt ctx a.va.toNat with
  | none => none
  | some n =>
    let h := s.granHome a.pa (leafPin a.leaf.toNat)
    some { num := n, floor := (s.regions.get (64 * ctx + n) {}).floors.get h 0, home := h }

/-- The accesses of a word that ask for the same version of the same granule and can be performed with this one (R117,
R137). -/
def State.sameVer (s : State) (o : MemOp) (a : Acc) : List Acc :=
  o.accs.filter fun x => s.accReady o x && x.leaf != 0 && x.pa == a.pa && x.aux == a.aux

/-- Those accesses fail with a trap after issue (R139). -/
def State.failVer (s : State) (o : MemOp) (a : Acc) (code : Nat) : State := s.failAccs o.id code ((s.sameVer o a).map (·.lane))

/-- Those accesses have the granule's bytes, by one flit, and the granule's version line has been used (R137, R291). -/
def State.gotVer (s : State) (o : MemOp) (a : Acc) (v : BitVec 256) (flit : Nat) : State :=
  (s.useLine a.pa).modAccs o.id (fun x => (s.sameVer o a).contains x) fun x => { x with st := .perf, data := v, flit := flit }

/-- An existing version as a VLD reads it; a record or line with an uncorrectable error raises the data-error trap (R292,
R389). -/
def State.readVer (s : State) (o : MemOp) (a : Acc) (v flit : Nat) : State :=
  let g := s.gran a.pa
  if s.badRead (a.pa / 128) o.ctx || !s.chainOk g v then s.failVer o a 0x0D
  else s.gotVer o a (s.verData a.pa (s.keyId a.pa (leafKey a.leaf.toNat)) g v) flit

/-- Time-out of a VLD.EQ: the one that the issuing launch's region table gives the region (R283, R285). -/
def State.verTout (s : State) (o : MemOp) (num : Nat) : Nat :=
  match (s.launchOf (s.group o.gid)).rgns.find? fun r => r.num == num with
  | some r => r.tout
  | none => 100000

/-- Waiting VLD.EQ accesses at a home place (R294). -/
def State.waitersAt (s : State) (home : Nat) : Nat :=
  (s.ops.map fun o => (o.accs.filter fun a => a.st == .waitVer && s.granHome a.pa (leafPin a.leaf.toNat) == home).length).sum

/-- A VLD.EQ access that has to wait: at the slice, or returned to its core when the slice is full; its time-out runs from its
first arrival, down to 1 (R138, R294). -/
def Acc.park (tout : Nat) (full : Bool) (x : Acc) : Acc :=
  { x with st := if full then .back else .waitVer, left := if x.left = 0 then tout + 1 else x.left, back := if full then 100 else 0 }

/-- VLD.EQ at its slice (R136, R138, R294). -/
def State.vldEq (s : State) (o : MemOp) (a : Acc) : State :=
  match s.verPlace o a with
  | none => s.failVer o a 0x13
  | some p =>
    let b := a.aux.toNat
    if b < p.floor then s.failVer o a 0x0E
    else if (s.gran a.pa).hasV b then s.readVer o a b (1 + holdId o.id a.lane)
    else if !s.chainOk (s.gran a.pa) b then s.failVer o a 0x0D
    else
      -- as many of the accesses wait at the slice as it has room for
      let fit := (s.sameVer o a).take (2048 - s.waitersAt p.home)
      s.modAccs o.id (fun x => (s.sameVer o a).contains x) fun x => x.park (s.verTout o p.num) !(fit.contains x)

/-- VLD.LE at its slice (R136). -/
def State.vldLe (s : State) (o : MemOp) (a : Acc) : State :=
  match s.verPlace o a with
  | none => s.failVer o a 0x13
  | some _ =>
    match (s.gran a.pa).atMost a.aux.toNat with
    | some v => s.readVer o a v (1 + holdId o.id a.lane)
    | none => s.failVer o a (if s.chainOk (s.gran a.pa) a.aux.toNat then 0x0E else 0x0D)

/-! Held reads (R245, R407). -/

/-- Whether a slice may hold a read to coalesce it: a core's read of a line from the slice's own die, while a core of
another cluster reads the line under the same key (R245). Reads of one version are held with reads of that version (R407). -/
def State.mayHold (s : State) (o : MemOp) (a : Acc) : Bool :=
  (o.kind == .load || (o.kind == .vldEq && (s.gran a.pa).hasV a.aux.toNat)) && a.pa < hostBase && !isCtl a.pa && leafCC a.leaf.toNat < 2 &&
  servingDie o.core a.leaf.toNat a.pa == dieOf o.core &&
  s.ops.any fun e => e.kind == o.kind && dieOf e.core == dieOf o.core && e.core / 4 != o.core / 4 &&
    e.accs.any fun x => x.st == .pend && x.pa / 128 == a.pa / 128 && leafKey x.leaf.toNat == leafKey a.leaf.toNat &&
      (o.kind == .load || (x.pa == a.pa && x.aux == a.aux))

/-- The reads that a die's slices hold on a line: operation and access. -/
def State.heldOn (s : State) (d line : Nat) : List (MemOp × Acc) :=
  (s.die d).heldReads.filterMap fun h =>
    match s.opAt (h / 32) with
    | none => none
    | some o =>
      match o.accs.find? fun x => x.lane == h % 32 && x.pa / 128 == line with
      | some a => some (o, a)
      | none => none

/-- A slice holds a read (R245). -/
def State.hold (s : State) (o : MemOp) (a : Acc) : State :=
  s.modDie (dieOf o.core) fun x => { x with heldReads := x.heldReads ++ [holdId o.id a.lane] }

/-- One held read is answered by a flit: a load reads the line, a VLD its version. -/
def State.answerHeld (s : State) (flit : Nat) (o : MemOp) (a : Acc) : State :=
  if o.kind = .vldEq then (if a.st = .pend then s.readVer o a a.aux.toNat flit else s) else s.loadStep o a false flit

/-- The reply to the held reads of a line is sent: each of them reads the line as it stands (R245). -/
def State.sendHeld (s : State) (d line : Nat) : State :=
  match s.heldOn d line with
  | [] => s
  | f :: r =>
    let s1 := (f :: r).foldl (fun u h => u.answerHeld (1 + holdId f.1.id f.2.lane) h.1 h.2) s
    s1.modDie d fun x => { x with heldReads := x.heldReads.filter fun h => !(f :: r).any fun e => holdId e.1.id e.2.lane == h }

/-- Reads of a line that its slice holds under another KEY than an arriving read's are answered first (R407). -/
def State.endHolds (s : State) (o : MemOp) (a : Acc) : State :=
  if (s.heldOn (dieOf o.core) (a.pa / 128)).any fun e => leafKey e.2.leaf.toNat != leafKey a.leaf.toNat then s.sendHeld (dieOf o.core) (a.pa / 128)
  else s

/-- READ_HOLD_EXPIRY (R245). -/
def execReadHoldExpiry (die line : Nat) (s : State) : Out :=
  if (s.heldOn die line).isEmpty then .next s else .next (s.sendHeld die line)

/-! Stores. -/

/-- Put bytes into the L1's copy of a core-private line (R241). -/
def State.privPut (s : State) (core leaf pa n v : Nat) : State :=
  let s1 := s.privFill core leaf pa
  (s1.modCore core fun c =>
    { c with
      l1 := c.l1.upd (pa / 128) {} fun x =>
        { x with data := putBytes x.data (pa % 128) n v, dirty := x.dirty ||| BitVec.ofNat 128 ((2 ^ n - 1) * 2 ^ (pa % 128)) } }).touch (pa / 128)

/-- A store at its ordering point: the state after it, and whether it counts as acknowledged there (R122, R124, R241,
R242). None when it has to wait. -/
def State.storeAt (s : State) (o : MemOp) (a : Acc) (n v : Nat) : Option (State × Bool) :=
  let leaf := a.leaf.toNat
  let line := a.pa / 128
  if isCtl a.pa then some ({ s with agenda := s.agenda ++ ctlMoves (a.pa / 2 ^ 48) (ctlOff a.pa) n v o.ctx }, false)
  else if leafCC leaf = 2 then some (s.privPut o.core leaf a.pa n v, true)
  else if leafCC leaf = 3 then some (s.wrKey a.pa (s.keyId a.pa (leafKey leaf)) n v, false)
  else if !s.leaseOk o.core line then none
  else
    match s.perform o.core leaf a.pa n v with
    | none => none
    | some u => some ((u.hinted o.ctx o.core leaf a.pa o.hint).l1Hit o.core a.pa n v, s.leasedBy line == some o.core)

/-- The value that one address gets from a store word: the highest-numbered lane's (R121). -/
def MemOp.lastAt (o : MemOp) (a : Acc) : Nat := (((o.atAddr a).getLast?).getD a).data.toNat

/-- The store of one address of a word. -/
def State.storeOne (s : State) (id : Nat) (a : Acc) : State :=
  match s.opAt id with
  | none => s
  | some o =>
    match s.storeAt o a o.size (o.lastAt a % 2 ^ (8 * o.size)) with
    | none => s.joinAccess o a
    | some r => r.1.modAccs id (fun x => x.st == .pend && x.pa == a.pa) fun x => { x with st := if r.2 then .done else .perf }

/-- A flagless word whose accesses are all complete is over (R30). -/
def State.overOp (s : State) (id : Nat) : State :=
  match s.opAt id with
  | some o => if 12 ≤ o.flag ∧ !o.halted ∧ o.pendSl.isEmpty ∧ o.zread = 0 ∧ o.accs.all fun x => x.st == .done then s.dropOp id else s
  | none => s

/-- The addresses of a word on a line, each once, when the word writes the whole line now: every lane that names one of them can be
performed (R117, R389). -/
def State.wholeLine (s : State) (o : MemOp) (line : Nat) : List Acc :=
  let as := o.accs.filter fun x => x.st == .pend && x.pa / 128 == line && (o.atAddr x).all fun y => s.accReady o y
  let one := as.filter fun x => (as.find? fun y => y.pa == x.pa) == some x
  if one.length * o.size = 128 then one else []

/-- A store reaches its ordering point: held reads of the line go first (R245), and a word that writes the whole of a
poisoned line clears the poison (R389). -/
def State.storeStep (s : State) (o : MemOp) (a : Acc) : State :=
  if !((o.atAddr a).all fun x => s.accReady o x) then s
  else if underDir a.leaf.toNat a.pa && !s.dirWrites (a.pa / 128) (dieOf o.core) (s.keyId a.pa (leafKey a.leaf.toNat)) then s.askFor o.core a.leaf.toNat a.pa true
  else
    let line := a.pa / 128
    let s0 := if a.pa < hostBase then s.sendHeld (servingDie o.core a.leaf.toNat a.pa) line else s
    let whole := if s.poison.has line then s.wholeLine o line else []
    if whole.isEmpty then (s0.storeOne o.id a).overOp o.id
    else
      let s1 := whole.foldl (fun u x => u.storeOne o.id x) s0
      let left := (s1.opAt o.id).elim false fun e => e.accs.any fun x => x.st == .pend && x.pa / 128 == line
      (if left then s1 else { s1 with poison := s1.poison.del line }).overOp o.id

/-! Atomics (R126). -/

/-- What an atomic operation writes, by its code of R41; none for a CAS whose compare fails. -/
def atomNew (fn size old x cmp : Nat) : Option Nat :=
  let w := 8 * size
  let s := fun (v : Nat) => (BitVec.ofNat w v).toInt
  match fn with
  | 0 => some ((old + x) % 2 ^ w)
  | 1 => some (if s old ≤ s x then old else x)
  | 2 => some (min old x)
  | 3 => some (if s old ≤ s x then x else old)
  | 4 => some (max old x)
  | 5 => some (old &&& x)
  | 6 => some (old ||| x)
  | 7 => some (old ^^^ x)
  | 8 => some x
  | _ => if old = cmp then some x else none

/-- One lane of an atomic: the old value, and the state with the new one written; a compare that fails writes nothing, and its hint
acts on the line as any atomic's (R125, R126). -/
def State.atomOne (s : State) (o : MemOp) (a : Acc) : Option (State × Nat × Bool) :=
  let w := 8 * o.size
  let leaf := a.leaf.toNat
  let old :=
    if leafCC leaf = 2 then some (lineBytes (((s.privFill o.core leaf a.pa).core o.core).l1.get (a.pa / 128) {}).data (a.pa % 128) o.size)
    else if isCtl a.pa then some (s.ctlBytes (a.pa / 2 ^ 48) (ctlOff a.pa) o.size)
    else s.served o.core leaf a.pa o.size
  match old with
  | none => none
  | some v =>
    match atomNew o.fn o.size v (a.data.toNat % 2 ^ w) (a.aux.toNat % 2 ^ w) with
    | none => some (s.hinted o.ctx o.core leaf a.pa o.hint, v, false)
    | some n =>
      match s.storeAt o a o.size n with
      | some r => some (r.1, v, true)
      | none => none

/-- The lanes of an atomic word on one line, in ascending lane order, as one indivisible step: all of them or none. -/
def State.atomAll (s : State) (o : MemOp) : List Acc → Option State
  | [] => some s
  | a :: r =>
    match s.atomOne o a with
    | none => none
    | some (u, v, wrote) =>
      (u.modAccs o.id (fun x => x.lane == a.lane) fun x =>
        { x with st := if wrote then .done else .perf, data := BitVec.ofNat 256 v }).atomAll o r

/-- An atomic word at a line. -/
def State.atomStep (s : State) (o : MemOp) (a : Acc) : State :=
  let line := a.pa / 128
  let as := o.accs.filter fun x => x.st == .pend && x.pa / 128 == line
  if !(as.all fun x => s.accReady o x) then s
  else if s.badRead line o.ctx then s.failAccs o.id 0x0D (as.map (·.lane))
  else if s.needsLease o a ∧ !(s.core o.core).leases.contains line then s
  else
    let s0 := if a.pa < hostBase then s.sendHeld (servingDie o.core a.leaf.toNat a.pa) line else s
    match s0.atomAll o as with
    | some u => (u.modCore o.core fun c => { c with grants := c.grants.del line }).overOp o.id
    | none => s.askFor o.core a.leaf.toNat a.pa true

/-- The slice grants a lease and sends the line to the L1 (R242, R243). -/
def State.grantLease (s : State) (o : MemOp) (a : Acc) : State :=
  let line := a.pa / 128
  let leaf := a.leaf.toNat
  let s1 := if a.pa < hostBase then s.sendHeld (servingDie o.core leaf a.pa) line else s
  match s1.served o.core leaf (128 * line) 128 with
  | none => s
  | some d =>
    let u := ((s1.hinted o.ctx o.core leaf a.pa o.hint).takeLease o.core line).l1Put o.core line
      { data := BitVec.ofNat 1024 d, key := s.keyId a.pa (leafKey leaf) }
    { u with lreqs := u.lreqs.filter (· != (line, .lease o.core)) }

/-- LEASE_REQUEST: the slice grants the lease when no other core holds one, to the core whose request has waited longest; a
request that it cannot grant waits behind what waits there already (R242, R243). -/
def execLeaseRequest (id lane : Nat) (s : State) : Out :=
  match s.opAt id with
  | none => .next s
  | some o =>
    match o.accs.find? fun x => x.lane == lane with
    | none => .next s
    | some a =>
      let line := a.pa / 128
      let leaf := a.leaf.toNat
      if o.kind ≠ .atom ∨ !s.accReady o a ∨ !s.needsLease o a ∨ (s.core o.core).leases.contains line ∨ s.badRead line o.ctx then .next s
      else if s.leasedBy line ≠ none ∨ (s.lineQueue line).headD (.lease o.core) ≠ .lease o.core then
        .next (s.joinLine line (.lease o.core))
      else if underDir leaf a.pa ∧ !s.dirWrites line (dieOf o.core) (s.keyId a.pa (leafKey leaf)) then
        .next ((s.joinLine line (.lease o.core)).askFor o.core leaf a.pa true)
      else .next (s.grantLease o a)

/-- LEASE_RECALL: the core has performed every atomic word on the line that has issued, writes the line back and surrenders
the lease (R242). -/
def execLeaseRecall (core line : Nat) (s : State) : Out :=
  if !(s.core core).leases.contains line ∨ s.atomDue line then .next s else .next (s.dropLease line)

/-! Prefetches and the scratchpad. -/

/-- A prefetch of one lane: it fetches the line, changes its priority, or is dropped (R131). A line of the host or of another
package enters the L1, and no slice (R240). -/
def State.prefStep (s : State) (o : MemOp) (a : Acc) : State :=
  let leaf := a.leaf.toNat
  let line := a.pa / 128
  let ends := fun (u : State) => (u.modAccs o.id (fun x => x.lane == a.lane) fun x => { x with st := .done }).overOp o.id
  if isCtl a.pa || leafCC leaf == 3 || leafVer leaf || s.badRead line o.ctx then ends s
  else if o.fn = 2 then ends (if a.pa < hostBase then s.demoteAt (servingDie o.core leaf a.pa) line o.ctx else s)
  else if o.fn = 1 then ends (s.hinted o.ctx o.core leaf a.pa o.hint)
  else
    match s.loadAt o.ctx o.core leaf a.pa 1 o.hint true with
    | .ok u _ => ends u
    | .bad => ends s
    | .wait => (s.joinAccess o a).askFor o.core leaf a.pa false

/-- A scratchpad access (R129). -/
def State.spStep (s : State) (o : MemOp) (a : Acc) : State :=
  if !((o.atAddr a).all fun x => s.accReady o x) then s
  else
    let sp := a.pa % 2 ^ 48
    let at1 := fun (x : Acc) => x.st == .pend && x.pa == a.pa
    if o.kind = .spst then
      ((s.modGroup o.gid fun g => g.spPut sp 4 (o.lastAt a)).modAccs o.id at1 fun x => { x with st := .done }).overOp o.id
    else s.modAccs o.id at1 fun x => { x with st := .perf, data := BitVec.ofNat 256 ((s.group o.gid).spGet sp 4) }

/-- ORDERING_POINT_ACCESS: the access of a lane is performed (R263). Whether the L1 serves a load that may hit there, and
whether a slice holds a read, is a free choice; host memory answers by HOST_COMPLETION. -/
def execOrderingPointAccess (id lane : Nat) (s : State) : Out :=
  match s.opAt id with
  | none => .next s
  | some o =>
    match o.accs.find? fun x => x.lane == lane with
    | none => .next s
    | some a =>
      if !s.accReady o a then .next s
      else
        let s := s.fabPacket a.pa
        match o.kind with
        | .spld | .spst => if s.groups.has o.gid then .next (s.spStep o a) else .next s
        | .load | .cld =>
          let q := if s.l1Serves o a || s.mayHold o a then s.choose else (0, s)
          let hit := s.l1Serves o a && (isHost a.pa || q.1 % 2 == 0)
          let d := dieOf o.core
          let u := if hit then q.2 else q.2.endHolds o a
          if (s.die d).heldReads.contains (holdId id lane) then .next s
          else if isHost a.pa && !hit then .next s
          else if hit then .next (q.2.loadStep o a true 0)
          else if u.mayHold o a && q.1 / 2 % 2 == 1 then .next (u.hold o a)
          else .next (u.loadStep o a false (1 + holdId id lane))
        | .store => if isHost a.pa then .next s else .next (s.storeStep o a)
        | .atom => if isHost a.pa then .next s else .next (s.atomStep o a)
        | .pref => .next (s.prefStep o a)
        | _ => .next s

/-- STORE_ACKNOWLEDGE: the access counts as complete (R122). -/
def execStoreAcknowledge (id lane : Nat) (s : State) : Out :=
  match s.opAt id with
  | none => .next s
  | some o =>
    if (o.kind = .store ∨ o.kind = .vst) ∧ o.accs.any fun x => x.lane == lane && x.st == .perf && !x.late then
      .next ((s.modAccs id (fun x => x.lane == lane && x.st == .perf) fun x => { x with st := .done }).overOp id)
    else .next s

/-! Completion (R30, R33). -/

/-- Registers that an access of a word delivers to its lane. -/
def MemOp.nregs (o : MemOp) : Nat :=
  match o.kind with
  | .load => if o.size = 8 then 2 else 1
  | .atom => if o.mpath then 0 else if o.size = 8 then 2 else 1
  | .spld | .cld => 1
  | .vldEq | .vldLe => 8
  | _ => 0

/-- The value of an access as its registers hold it (R118). -/
def MemOp.value (o : MemOp) (a : Acc) : BitVec 256 :=
  if o.signed then BitVec.ofInt 256 ((BitVec.ofNat (8 * o.size) a.data.toNat).toInt) else a.data

/-- Register `i` of an access, written (R33, R87). -/
def MemOp.deliver (o : MemOp) (a : Acc) (i : Nat) (w : Wave) : Wave :=
  let v : W32 := (o.value a >>> (32 * i)).setWidth 32
  if o.sca then { w with sregs := w.sregs.set (o.reg + i) v } else w.setReg o.opfile (o.reg + i) a.lane v

/-- Whether an access has its data to deliver. -/
def MemOp.hasData (o : MemOp) (a : Acc) : Bool := a.st == .perf || (o.kind == .atom && a.st == .done)

/-- Every register that an access has still to write. -/
def MemOp.deliverAll (o : MemOp) (w : Wave) : Wave :=
  o.accs.foldl
    (fun v a => if o.hasData a then (List.range o.nregs).foldl (fun u i => if a.gone.getLsbD i then u else o.deliver a i u) v else v) w

/-- One register of one lane is written before the flag falls: of a memory word, or of a drain (R33). -/
def State.deliverOne (s : State) (id lane reg : Nat) : State :=
  match s.opAt id with
  | none =>
    (match (s.cores.filterMap fun c => (c.2.mchain.find? fun o => o.id == id).map fun o => (c.1, o)).head? with
     | some (c, o) => if lane < 32 then s.drainOne c o (32 * reg + lane) else s
     | none => s)
  | some o =>
    match o.accs.find? fun x => x.lane == lane with
    | none => s
    | some a =>
      if o.hasData a && reg < o.nregs && !a.gone.getLsbD reg && (s.wave (waveKey o.core o.slot)).gid == some o.gid then
        (s.modWave (waveKey o.core o.slot) fun w => o.deliver a reg w).modAccs id (fun x => x.lane == lane) fun x =>
          { x with gone := x.gone ||| BitVec.ofNat 8 (2 ^ reg) }
      else s

/-- Whether every access of a word is complete but for its registers. -/
def MemOp.settled (o : MemOp) : Bool :=
  o.pendSl.isEmpty && o.zread == 0 && o.accs.all fun a => a.st == .done || a.st == .failed || (a.st == .perf && o.nregs != 0)

/-- LONG_LATENCY_COMPLETE: the word has completed for every lane: its registers are written, its flag falls (R30, R31), and
an acquire has emptied the L1 as its scope asks (R123, R260). While a trap of some of its lanes is held or handled, only the
other lanes' registers are written (R139). -/
def execLongLatencyComplete (id : Nat) (s : State) : Out :=
  match s.opAt id with
  | none => .next s
  | some o =>
    if !o.settled then .next s
    else
      let key := waveKey o.core o.slot
      if (s.wave key).gid ≠ some o.gid then .next (s.dropOp id)
      else
        let s1 := s.modWave key fun w => o.deliverAll w
        if o.halted || o.accs.any fun a => a.st == .failed then
          .next (s1.modAccs id (fun a => o.hasData a) fun a => { a with st := .done, gone := 0xFF })
        else
          let s2 := (s1.modWave key fun w => w.lower o.flag).dropOp id
          .next (if o.acq && s.acqDrops o.core o.scope then s2.dropL1 o.core else s2)

end Sys2Proof.Machine
end

