-- ==== Sys2Proof/Machine/DirStep.lean ====
section
/-! DEFINITION. The cross-die directory: the messages of the MOESI protocol and the eviction of filter entries (R249 to R251,
R422). -/

namespace Sys2Proof.Machine

/-- Change a filter entry. -/
def State.modDir (s : State) (line : Nat) (f : DirEnt → DirEnt) : State := { s with dir := s.dir.upd line {} f }

/-- Whether a message is a request. -/
def DMsg.isReq (m : DMsg) : Bool := m.kind < 2

/-- Message `k` when it is of the kind asked for, has arrived (R420) and can be served: messages of one line between two dies keep their
order, but an answer passes a request that waits; a holder answers once it has no lease on the line (R250) and is not
waiting for the data of a grant (R249). -/
def State.dirMsg (s : State) (k kind : Nat) : Option DMsg :=
  match s.dmsgs[k]? with
  | none => none
  | some m =>
    let before := (s.dmsgs.take k).any fun e => e.src == m.src && e.dst == m.dst && e.line == m.line && (m.isReq || !e.isReq)
    let asks := m.kind == 2 || m.kind == 3 || m.kind == 7
    let c := s.copy m.line m.dst
    let leased := match s.leasedBy m.line with | some x => dieOf x == m.dst | none => false
    if m.kind ≠ kind ∨ before ∨ !s.arrived m ∨ (asks && (leased || (c.asked && c.grant != .inv && c.got == none))) then none
    else some m

/-- A message has been received. -/
def State.gotMsg (s : State) (k : Nat) : State := { s with dmsgs := s.dmsgs.eraseIdx k }

/-- Deliver message `k` of a kind: held reads of the line at the receiver's slice are answered first (R245). -/
def State.dirStep (s : State) (k kind : Nat) (f : DMsg → State → State) : Out :=
  match s.dirMsg k kind with
  | none => .next s
  | some m => .next (f m ((s.gotMsg k).sendHeld m.dst m.line))

/-- A state as the argument of a Grant. -/
def Moesi.num : Moesi → Nat
  | .inv => 0
  | .sh => 1
  | .ex => 2
  | .ow => 3
  | .mo => 4
/-- The state that a Grant names. -/
def moesiOf (n : Nat) : Moesi := if n = 1 then .sh else if n = 2 then .ex else if n = 3 then .ow else if n = 4 then .mo else .inv

/-- A line of memory behind its home slice, under the key of the access that fetches it (R239). -/
def State.homeLine (s : State) (line key : Nat) : BitVec 1024 := BitVec.ofNat 1024 (s.rdKey (128 * line) key 128)

/-- Grant a state to a die; with `data` the home sends the line too (R249). -/
def State.grantTo (s : State) (line r : Nat) (st : Moesi) (fromHome noData : Bool) : State :=
  let h := homeDie line
  let k := (s.dir.get line {}).key
  let s1 := if fromHome then s.sendDir { kind := 5, src := h, dst := r, line := line, data := s.homeLine line k, key := k } else s
  s1.sendDir { kind := 6, src := h, dst := r, line := line, arg := st.num, excl := noData, key := k }

/-- Dies that an entry names. -/
def DirEnt.holders (e : DirEnt) : List Nat := (List.range 4).filter fun d => e.owner == d || e.sharers.getLsbD d

/-- Send one message of a kind to each of some dies. -/
def State.tellAll (s : State) (kind line : Nat) (ds : List Nat) : State :=
  ds.foldl (fun u d => u.sendDir { kind := kind, src := homeDie line, dst := d, line := line }) s

/-! Filter entries (R249, R250). -/

/-- Entries of the filter set of a line of a page with a PIN: 16,384 entries of its home slice in 16-way sets (R244, R249). -/
def State.dirSet (s : State) (line pin : Nat) : List (Nat × DirEnt) :=
  s.dir.filter fun e => homeDie e.1 == homeDie line && e.1 % 1024 == line % 1024 && s.homeSlice (128 * e.1) e.2.pin == s.homeSlice (128 * line) pin

/-- The home's time-out of a transaction that starts now (R422). -/
def State.homeLeft (s : State) (line : Nat) : Nat := max 1000 ((s.die (homeDie line)).reg 0x701000 % 2 ^ 32) + 1

/-- Evict an entry: every die that it names gets a BInv. -/
def State.evictEntry (s : State) (line : Nat) : State :=
  let hs := (s.dir.get line {}).holders
  if hs.isEmpty then ({ s with dir := s.dir.del line } : State).disarmLines (· == line)
  else (s.tellAll 7 line hs).modDir line fun e => { e with busy := true, evict := true, acks := hs.length, left := s.homeLeft line }

/-- Make room for an entry of a line: the least recently used one of a full set that has no transaction in progress is
evicted. The line waits until there is room. -/
def State.dirRoom (s : State) (line pin : Nat) : State :=
  match (s.dirSet line pin).filter fun e => !e.2.busy with
  | [] => s
  | e :: r => s.evictEntry ((r.foldl (fun (b : Nat × DirEnt) x => if x.2.stamp < b.2.stamp then x else b) e).1)

/-- Whether a request meets holders under another key: they give the line back first (R239). -/
def State.keyClash (s : State) (m : DMsg) : Bool := s.dir.has m.line && (s.dir.get m.line {}).key != m.key

/-- A request of die `r` at the home; none when it has to wait. -/
def State.dirRequest (s : State) (m : DMsg) (excl : Bool) : Option State :=
  let line := m.line
  let r := m.src
  let h := homeDie line
  let e := s.dir.get line {}
  let homeLease := match s.leasedBy line with | some c => dieOf c == h && r != h | none => false
  if e.busy || homeLease || s.keyClash m then none
  else if !s.dir.has line then
    (if r = h then some (s.modCopy line h fun c => { c with asked := false })
     else if 16 ≤ (s.dirSet line m.pin).length then none
     else
       some (({ s with
           dir := s.dir.set line { owner := r, ost := if excl then .mo else .ex, stamp := s.nextId, pin := m.pin, key := m.key }
           nextId := s.nextId + 1 } : State).grantTo line r
         (if excl then .mo else .ex) true false))
  else
    let s1 := ({ s with nextId := s.nextId + 1 } : State).modDir line fun x => { x with stamp := s.nextId }
    let others := e.holders.filter (· != r)
    if excl then
      if others.isEmpty then
        let keeps := m.arg == 1 && (e.owner == r || e.sharers.getLsbD r)
        some ((s1.modDir line fun x => { x with owner := r, ost := .mo, sharers := 0 }).grantTo line r .mo (!keeps) keeps)
      else
        let own := e.owner < 4 && e.owner != r
        let keeps := !own && m.arg == 1 && (e.owner == r || e.sharers.getLsbD r)
        let s2 := if own then s1.sendDir { kind := 2, src := h, dst := e.owner, line := line, arg := r, excl := true } else s1
        some ((s2.tellAll 3 line (others.filter fun d => !own || d != e.owner)).modDir line fun x =>
          { x with busy := true, left := s.homeLeft line, req := r, excl := true, acks := others.length, sup := if own then e.owner else if keeps then 5 else 4 })
    else if e.owner < 4 ∧ e.owner ≠ r then
      some ((s1.sendDir { kind := 2, src := h, dst := e.owner, line := line, arg := r }).modDir line fun x =>
        { x with busy := true, left := s.homeLeft line, req := r, excl := false, acks := 1, sup := e.owner })
    else if others.isEmpty then
      some ((s1.modDir line fun x => { x with owner := r, ost := .ex, sharers := 0 }).grantTo line r .ex true false)
    else some ((s1.modDir line fun x =>
      { x with owner := if x.owner = r then 4 else x.owner, sharers := x.sharers ||| BitVec.ofNat 4 (2 ^ r) }).grantTo line r .sh true false)

/-- A request reaches the home: it is served, waits for a transaction on its line, or starts the eviction that makes room
for it. -/
def State.dirArrive (s : State) (k kind : Nat) : Out :=
  match s.dirMsg k kind with
  | none => .next s
  | some m =>
    match ((s.gotMsg k).sendHeld m.dst m.line).dirRequest m (kind == 1) with
    | some u => .next u
    | none =>
      if s.keyClash m ∧ !(s.dir.get m.line {}).busy then .next (s.evictEntry m.line)
      else if !s.dir.has m.line ∧ 16 ≤ (s.dirSet m.line m.pin).length ∧ !(s.dirSet m.line m.pin).any fun e => e.2.evict then .next (s.dirRoom m.line m.pin)
      else .next s

/-- RDS (R249). -/
def execRds (k : Nat) (s : State) : Out := s.dirArrive k 0
/-- RDX (R249). -/
def execRdx (k : Nat) (s : State) : Out := s.dirArrive k 1

/-! Holders. -/

/-- A die's copy is dropped; a request of its own stays outstanding. -/
def Copy.drop (c : Copy) : Copy := { c with st := .inv, data := 0 }

/-- FWD: the owner sends the line to the requester and downgrades to O or I; an owner that no longer holds the line says so
(R249). -/
def execFwd (k : Nat) (s : State) : Out :=
  s.dirStep k 2 fun m u =>
    let c := u.copy m.line m.dst
    if c.st = .inv then u.sendDir { kind := 4, src := m.dst, dst := m.src, line := m.line, arg := 1 }
    else
      ((u.sendDir { kind := 5, src := m.dst, dst := m.arg, line := m.line, data := c.data, key := c.key }).modCopy m.line m.dst fun x =>
        if m.excl then x.drop else { x with st := .ow }).sendDir { kind := 4, src := m.dst, dst := m.src, line := m.line }

/-- INV: a sharer drops its copy (R249). -/
def execInv (k : Nat) (s : State) : Out :=
  s.dirStep k 3 fun m u => (u.modCopy m.line m.dst Copy.drop).sendDir { kind := 4, src := m.dst, dst := m.src, line := m.line }

/-- BINV: a holder in M or O answers with its data, one in E or S with Ack (R250). -/
def execBinv (k : Nat) (s : State) : Out :=
  s.dirStep k 7 fun m u =>
    let c := u.copy m.line m.dst
    let v := u.modCopy m.line m.dst Copy.drop
    if c.st = .mo ∨ c.st = .ow then v.sendDir { kind := 8, src := m.dst, dst := m.src, line := m.line, arg := 1, data := c.data, key := c.key }
    else v.sendDir { kind := 4, src := m.dst, dst := m.src, line := m.line }

/-! Answers at the home. -/

/-- The last answer of a transaction has arrived: the entry is freed, or the requester gets its Grant (R249, R250). The
monitors of a freed entry's line are disarmed (R156). -/
def State.dirEnd (s : State) (line : Nat) : State :=
  let e := s.dir.get line {}
  if e.evict then ({ s with dir := s.dir.del line } : State).disarmLines (· == line)
  else if e.excl then
    (s.modDir line fun x => { x with busy := false, left := 0, owner := e.req, ost := .mo, sharers := 0 }).grantTo line e.req .mo (e.sup == 4) (e.sup == 5)
  else
    (s.modDir line fun x =>
      { x with busy := false, left := 0, ost := if e.owner < 4 then .ow else .inv, sharers := x.sharers ||| BitVec.ofNat 4 (2 ^ e.req) ||| (if e.owner < 4 then BitVec.ofNat 4 (2 ^ e.owner) else 0) }).grantTo
        line e.req .sh (e.sup == 4) false

/-- One answer of a transaction: `gone` when the owner had no data to send. -/
def State.dirAnswer (s : State) (line : Nat) (gone : Bool) : State :=
  if !(s.dir.get line {}).busy then s
  else
    let s1 := s.modDir line fun x =>
      { x with acks := x.acks - 1, sup := if gone then 4 else x.sup, owner := if gone && !x.excl then 4 else x.owner, ost := if gone && !x.excl then .inv else x.ost }
    if (s1.dir.get line {}).acks = 0 then s1.dirEnd line else s1

/-- ACK (R249). -/
def execAck (k : Nat) (s : State) : Out := s.dirStep k 4 fun m u => u.dirAnswer m.line (m.arg == 1)

/-- WB: memory behind the home slice is updated; the answer to a BInv counts as such, and a holder that evicted the line is
named no longer (R249, R250). -/
def execWb (k : Nat) (s : State) : Out :=
  s.dirStep k 8 fun m u =>
    let v := u.backKey (128 * m.line) m.key 128 m.data.toNat
    if m.arg = 1 then v.dirAnswer m.line false
    else if !v.dir.has m.line then v
    else
      let w := v.modDir m.line fun x =>
        { x with owner := if x.owner = m.src then 4 else x.owner, ost := if x.owner = m.src then .inv else x.ost, sharers := x.sharers &&& ~~~(BitVec.ofNat 4 (2 ^ m.src)) }
      let e := w.dir.get m.line {}
      if !e.busy && e.holders.isEmpty then { w with dir := w.dir.del m.line } else w

/-- The entry of a line as the dies' copies stand (R249). -/
def State.entryOf (s : State) (line : Nat) : DirEnt :=
  let e := s.dir.get line {}
  let o := ((List.range 4).find? fun d => (s.copy line d).st == .ex || (s.copy line d).st == .ow || (s.copy line d).st == .mo).getD 4
  { e with
    owner := o, ost := (s.copy line o).st, busy := false, evict := false, acks := 0, left := 0
    sharers := (List.range 4).foldl (fun m d => if (s.copy line d).st = .sh then m ||| BitVec.ofNat 4 (2 ^ d) else m) 0 }

/-- The home's own time-out: its answers have not come, and it aborts the transaction (R422; log 87). Late answers are
discarded, data on its way reaches memory, and the requester has to ask again. -/
def State.homeTimeout (s : State) (line : Nat) : State :=
  let e := s.dir.get line {}
  if !e.busy || e.left != 1 then s
  else
    let u := s.landData line
    let v : State := { u with dmsgs := u.dmsgs ++ s.dmsgs.filter fun (m : DMsg) => m.line == line && m.isReq }
    let w := if e.evict then v else v.modCopy line e.req fun c => { c with asked := false, grant := .inv, got := none }
    let x := w.entryOf line
    if x.holders.isEmpty then ({ w with dir := w.dir.del line } : State).disarmLines (· == line) else w.modDir line fun _ => x

/-! Replies at the requester. -/

/-- A requester installs the line: at the home itself, the memory behind the slice takes it and the entry goes. -/
def State.install (s : State) (line d key : Nat) (st : Moesi) (x : BitVec 1024) : State :=
  if d = homeDie line ∧ st = .mo then
    let s1 := (s.backKey (128 * line) key 128 x.toNat).modCopy line d fun _ => {}
    { s1 with dir := s1.dir.del line }
  else s.modCopy line d fun _ => { st := st, data := x, key := key }

/-- DATA: kept until the Grant; after a time-out of the request it is discarded (R249, R422). -/
def execData (k : Nat) (s : State) : Out :=
  s.dirStep k 5 fun m u =>
    let c := u.copy m.line m.dst
    if !c.asked then u
    else if c.grant = .inv then u.modCopy m.line m.dst fun x => { x with got := some m.data }
    else u.install m.line m.dst m.key c.grant m.data

/-- GRANT: the requester installs the state once the data has arrived (R249). -/
def execGrant (k : Nat) (s : State) : Out :=
  s.dirStep k 6 fun m u =>
    let c := u.copy m.line m.dst
    if !c.asked then u
    else if m.excl then u.install m.line m.dst m.key (moesiOf m.arg) c.data
    else
      match c.got with
      | some x => u.install m.line m.dst m.key (moesiOf m.arg) x
      | none => u.modCopy m.line m.dst fun y => { y with grant := moesiOf m.arg }

end Sys2Proof.Machine
end

