-- ==== Sys2Proof/Machine/VerStep.lean ====
section
/-! DEFINITION. Versions at the home slice: VLD, VST, VFLOOR, the waits of VLD.EQ and their time-outs (R136 to R141, R287,
R290 to R297, R384). -/

namespace Sys2Proof.Machine

/-! Arrival. -/

/-- Accesses that wait for a version at a granule complete with it, in no fixed order; one whose time-out has passed waits no
more (R138). -/
def State.wakeVer (s : State) (pa v : Nat) (x : BitVec 256) : State :=
  { s with
    ops := s.ops.map fun (o : MemOp) =>
      { o with
        accs := o.accs.map fun (a : Acc) =>
          if a.st = AccSt.waitVer ∧ a.left ≠ 1 ∧ a.pa = pa ∧ a.aux.toNat = v then { a with st := .perf, data := x, flit := 1 + holdId o.id a.lane } else a } }

/-- VST at its slice: the lowest of its lanes that name the version creates it, the others collide (R136, R137, R290); a bad
record on the way to the version's place raises the data-error trap (R292). -/
def State.vst (s : State) (o : MemOp) (a : Acc) : State :=
  let b := a.aux.toNat
  match s.verPlace o a, s.sameVer o a with
  | none, _ => s.failVer o a 0x13
  | some p, c :: r =>
    let s := s.sendHeld (a.pa / 2 ^ 48) (a.pa / 128)
    if !s.chainOk (s.gran a.pa) b then s.failVer o a 0x0D
    else if (s.gran a.pa).hasV b then s.failVer o a 0x0F
    else if b < p.floor then s.failVer o a 0x10
    else
      match s.create a.pa (leafPin a.leaf.toNat) (leafKey a.leaf.toNat) o.ctx p.num b c.data with
      | none => s.failVer o a 0x11
      | some u =>
        if !s.createOk a.pa (leafPin a.leaf.toNat) b then s.failVer o a 0x0D
        else
        let v := (u.modAccs o.id (fun x => x.lane == c.lane) fun x => { x with st := .perf }).wakeVer a.pa b c.data
        if r.isEmpty then v else v.failAccs o.id 0x0F (r.map (·.lane))
  | some _, [] => s

/-- Whether a VLD.EQ access has waited for its time-out: at the slice, at its core or on its way back to the slice (R138,
R294). -/
def Acc.overdue (a : Acc) : Bool := (a.st == .waitVer || a.st == .back || a.st == .pend) && a.left == 1

/-- An access of a kind arrives at its home slice; a read that may be held there is held or served, as the machine chooses (R245,
R407). -/
def State.verArrive (s : State) (id lane : Nat) (k : OpKind) (f : State → MemOp → Acc → State) : Out :=
  match s.opAt id with
  | none => .next s
  | some o =>
    match o.accs.find? fun x => x.lane == lane with
    | none => .next s
    | some a =>
      if o.kind ≠ k ∨ !s.accReady o a ∨ a.overdue then .next s
      else
        let u := s.recheck o a
        match u.opAt id with
        | none => .next u
        | some o1 =>
          match o1.accs.find? fun x => x.lane == lane with
          | none => .next u
          | some x =>
            if x.st ≠ .pend ∨ x.leaf = 0 ∨ !u.accReady o1 x ∨ (u.die (dieOf o.core)).heldReads.contains (holdId id lane) then .next u
            else
              let v := u.endHolds o1 x
              if v.mayHold o1 x && (v.choose.1 % 2 == 1) then .next (v.choose.2.hold o1 x)
              else .next (f (if v.mayHold o1 x then v.choose.2 else v) o1 x)

/-- VLD_EQ_AT_SLICE (R136). -/
def execVldEqAtSlice (id lane : Nat) (s : State) : Out := s.verArrive id lane .vldEq State.vldEq
/-- VLD_LE_AT_SLICE (R136). -/
def execVldLeAtSlice (id lane : Nat) (s : State) : Out := s.verArrive id lane .vldLe State.vldLe
/-- VST_AT_SLICE (R136, R290). -/
def execVstAtSlice (id lane : Nat) (s : State) : Out := s.verArrive id lane .vst State.vst

/-! Waits. -/

/-- VERSION_WAIT_TIMEOUT: the lanes of the word whose time-out has expired take the missing-version trap (R138, R294). -/
def execVersionWaitTimeout (id lane : Nat) (s : State) : Out :=
  match s.opAt id with
  | none => .next s
  | some o =>
    let bad := o.accs.filter Acc.overdue
    if bad.any fun a => a.lane == lane then .next (s.failAccs id 0x12 (bad.map (·.lane))) else .next s

/-- VLD_RETURN_RETRY: a returned access is sent again after 1 µs: its time-out runs on (R294), and the new request has a cross-die
time-out of its own (R422). -/
def execVldReturnRetry (id lane : Nat) (s : State) : Out :=
  match s.opAt id with
  | none => .next s
  | some o =>
    .next (s.modAccs id (fun a => a.lane == lane && a.st == .back && a.back == 0 && a.left != 1) fun a => s.sent o.core { a with st := .pend })

/-- Granules of a region at a home place. -/
def State.gransAt (s : State) (region place : Nat) : List Nat :=
  (s.grans.filter fun e => e.2.ctx == region / 64 && e.2.num == region % 64 && s.granHome e.1 e.2.pin == place).map (·.1)

/-- A VFLOOR whose slice reads a bad record, or gives no answer, takes the data-error trap: its lanes, and the line of the granule or of
the region's first byte (R116, R292, R422). -/
def State.failFloor (s : State) (o : MemOp) (va : Nat) : State :=
  let t : Trap :=
    { code := 0x0D, epc := o.pc, eaddr := BitVec.ofNat 64 (va / 128 * 128), emask := o.lanes, own := o.lanes
      wave := (s.wave (waveKey o.core o.slot)).wix, op := o.id }
  (s.modOp o.id fun x => { x with halted := true }).trapA o.gid t o.own

/-- VFLOOR_APPLY: a home slice applies a new floor, which only rises: waiting accesses below it take the
reclaimed-version trap, and each granule keeps its versions at or above it and its base (R138, R141, R297). A bad heap record
of a granule raises the data-error trap for the VFLOOR, and that granule's storage stays (R292). The traps are raised wave by wave
(R224). -/
def execVfloorApply (id place : Nat) (s : State) : Out :=
  match s.opAt id with
  | none => .next s
  | some o =>
    if o.kind ≠ .vfloor ∨ !o.pendSl.contains place ∨ !s.routed (dieOf o.core) (place / 48) ∨ o.left.get (place / 48) 0 = 1 then .next s
    else
      let rest := o.pendSl.filter (· != place)
      let s1 := s.modOp id fun x =>
        { x with pendSl := rest, left := x.left.filter fun e => rest.any fun p => p / 48 == e.1 }
      let r := s.regions.get o.region {}
      let ctx := o.region / 64
      let fl := max o.fn (r.floors.get place 0)
      if !r.armed ∨ !r.floors.has place then .next (s1.overOp id)
      else
        let gs := s1.gransAt o.region place
        let s2 := gs.foldl (fun u pa => u.sendHeld (place / 48) (pa / 128)) s1
        let s3 := { s2 with regions := s2.regions.set o.region { r with floors := r.floors.set place fl } }
        let s4 := (gs.filter fun pa => s3.chainOk (s3.gran pa) 0).foldl (fun u pa => u.applyFloor pa fl) s3
        let below := fun (p : MemOp) (a : Acc) =>
          p.ctx == ctx && r.base ≤ a.va.toNat && a.va.toNat < r.base + 32 * r.ngran && a.aux.toNat < fl &&
            s4.granHome a.pa (leafPin a.leaf.toNat) == place
        let bad := gs.find? fun pa => !s3.chainOk (s3.gran pa) 0
        let s5 := (List.range 32).foldl
          (fun u i =>
            let v := u.failWaitsOf i 0x0E below
            match bad with
            | some pa => if (s.wave (waveKey o.core o.slot)).wix = i then v.failFloor o (s.granVa o.region pa) else v
            | none => v) s4
        .next (if bad.isSome then s5 else s5.overOp id)

end Sys2Proof.Machine
end

