-- ==== Sys2Proof/Machine/WaitStep.lean ====
section
/-! DEFINITION. Waiting words complete or time out: R132 to R134, R143, R149 to R162, R182, R185, R188, R223, R307, R381, and
the ends of commands that take time: R247, R252, R385, R387. -/

namespace Sys2Proof.Machine

/-- A path that waits in a word, with the lanes that still wait and its time-out. -/
structure Waiter where
  path : Path
  word : WaitWord
  pend : Lanes
  left : Nat
  gid : Nat
  deriving DecidableEq, Repr

/-- The waiting path that a lane lies in, when its group lets it complete: it runs, or the path is its handler's own (R223,
R225, R423). -/
def State.waiterAt (s : State) (core slot lane : Nat) : Option Waiter :=
  let w := s.wave (waveKey core slot)
  match w.gid with
  | none => none
  | some gid =>
    let ph := (s.group gid).phase
    if (s.die (dieOf core)).dbg || !(ph == .running || (ph == .handler && w.saved.isSome)) then none
    else
      match w.pathOf lane with
      | none => none
      | some p =>
        match p.status with
        | .wait k pend left => some { path := p, word := k, pend := pend, left := left, gid := gid }
        | _ => none

/-- Lanes of a waiting path complete. -/
def State.finishLanes (s : State) (core slot lane : Nat) (m : Lanes) : State :=
  s.modLanePath (waveKey core slot) lane fun p => p.finish m

/-- MWAIT_WAKE: the lanes whose monitor is triggered or no longer armed complete (R156). -/
def execMwaitWake (core slot lane : Nat) (s : State) : Out :=
  match s.waiterAt core slot lane with
  | none => .next s
  | some x =>
    if x.word ≠ .mwait then .next s
    else
      let up := (s.wave (waveKey core slot)).woken x.pend
      if up = 0 then .next s
      else .next ((s.modWave (waveKey core slot) fun w => w.disarm up).finishLanes core slot lane up)

/-- A waiting word that reads by address has its new place for one lane. -/
def WaitWord.replaceAcc (k : WaitWord) (a : Acc) : WaitWord :=
  match k with
  | .join as => .join (as.map fun x => if x.lane = a.lane then a else x)
  | .mon as => .mon (as.map fun x => if x.lane = a.lane then a else x)
  | w => w

/-- Lanes of a waiting word stand at the word again; the others go on waiting. -/
def Path.again (p : Path) (m : Lanes) : List Path :=
  let rest := p.lanes &&& ~~~m
  { p with lanes := m, status := .run } :: (if rest = 0 then [] else [({ p with lanes := rest } : Path).finish m])

/-- A lane of JOIN or MON whose translation was dropped translates again and goes on waiting; one that meets anything else stands at its
word again, which it issues anew (R247, R252; log 115). -/
def State.watchAgain (s : State) (core slot lane gid : Nat) (a : Acc) : State :=
  match s.check core (s.group gid) a.va { size := 4 } with
  | .ok pa leaf =>
    (if pa < hostBase then s.own core leaf pa a.va.toNat else s).modLanePath (waveKey core slot) lane fun p =>
      match p.status with
      | .wait k pend left => { p with status := .wait (k.replaceAcc { a with pa := pa, leaf := BitVec.ofNat 64 leaf }) pend left }
      | _ => p
  | _ =>
    s.modWave (waveKey core slot) fun w =>
      { w with paths := (w.paths.map fun p => if p.lanes.getLsbD lane then p.again (laneBit lane) else [p]).flatten }

/-- JOIN_ZERO: a lane that sees its counter at zero performs an acquire at .DIE and completes (R154); a counter on a line
with an uncorrectable error raises the data-error trap (R389). -/
def execJoinZero (core slot lane : Nat) (s : State) : Out :=
  match s.waiterAt core slot lane with
  | none => .next s
  | some x =>
    match x.word with
    | .join as =>
      match as.find? fun a => a.lane == lane with
      | none => .next s
      | some a =>
        if !x.pend.getLsbD lane then .next s
        else if a.leaf = 0 then .next (s.watchAgain core slot lane x.gid a)
        else if s.badRead (a.pa / 128) (s.group x.gid).ctx then
          .next (s.trapA x.gid { code := 0x0D, epc := x.path.pc, eaddr := BitVec.ofNat 64 (a.va.toNat / 128 * 128), emask := laneBit lane, own := laneBit lane
                                 wave := (s.wave (waveKey core slot)).wix } ((s.group x.gid).phase == .handler))
        else .next ((s.askFor core a.leaf.toNat a.pa false).joinLane core slot lane a)
    | _ => .next s

/-- TAGWAIT_SATISFIED (R182). -/
def execTagwaitSatisfied (core slot lane : Nat) (s : State) : Out :=
  match s.waiterAt core slot lane with
  | none => .next s
  | some x =>
    let go := match x.word with
      | .tagAny m => tagAny (s.core core).tags m
      | .tagAll m => tagAll (s.core core).tags m
      | _ => false
    if go then .next (s.finishLanes core slot lane x.pend) else .next s

/-- QUEUE_WORD_PERFORM (R159, R160). -/
def execQueueWordPerform (core slot lane : Nat) (s : State) : Out :=
  if (s.waiterAt core slot lane).isSome then .next (s.queuePerform core slot lane) else .next s

/-- The lanes whose record or message has been placed complete; the others go on waiting with what is left. -/
def State.placedLanes (s : State) (core slot lane : Nat) (k : List Thread → WaitWord) (before left : List Thread) : State :=
  let m := maskOf (before.map (·.lane)) &&& ~~~(maskOf (left.map (·.lane)))
  s.modLanePath (waveKey core slot) lane fun p =>
    match (p.finish m).status with
    | .wait _ pend t => { p with status := .wait (k left) pend t }
    | _ => p.finish m

/-- Threads that wait for a record go to the ring as far as it has space (R307). -/
def State.ringAll (s : State) (d : Nat) : List Thread → State × List Thread
  | [] => (s, [])
  | t :: r =>
    match s.overflow d t with
    | some u => (u.addThread d t.ctx t.lid).ringAll d r
    | none => (s, t :: r)

/-- RING_SPACE_RESUME: the lanes of SPAWN and STAGEPUSH that wait place what space has appeared for, in lane order (R150,
R161, R307); those of AMSG likewise (R162, R313). -/
def execRingSpaceResume (core slot lane : Nat) (s : State) : Out :=
  match s.waiterAt core slot lane with
  | none => .next s
  | some x =>
    let g := s.group x.gid
    match x.word with
    | .spawn ts =>
      let ord := (s.wave (waveKey core slot)).wix + 1
      if ord < (s.core core).acOrder.get 0 0 then .next s
      else
        let r := (s.modCore core fun c => { c with acOrder := c.acOrder.set 0 ord }).ringAll (dieOf core) ts
        .next (r.1.placedLanes core slot lane .spawn ts r.2)
    | .stagePush n ts =>
      let r := s.stageAll (dieOf core) g.ctx g.lid n ts
      .next (r.1.placedLanes core slot lane (.stagePush n) ts r.2)
    | .amsg ts =>
      let r := s.sendAll (dieOf core) ts
      .next (r.1.placedLanes core slot lane .amsg ts r.2)
    | _ => .next s

/-- WATCH_RECORD: a lane's MON reaches the slice that serves its line, which records the watch; MON on a line that is
already watched arms it again (R155). -/
def execWatchRecord (core slot lane : Nat) (s : State) : Out :=
  match s.waiterAt core slot lane with
  | none => .next s
  | some x =>
    match x.word with
    | .mon as =>
      match as.find? fun a => a.lane == lane with
      | none => .next s
      | some a =>
        let d := if hostBase ≤ a.pa then dieOf core else servingDie core a.leaf.toNat a.pa
        if !x.pend.getLsbD lane then .next s
        else if a.leaf = 0 then .next (s.watchAgain core slot lane x.gid a)
        else if !s.routed (dieOf core) d then .next s
        else
          .next ((s.modWave (waveKey core slot) fun w =>
            { w with
              mons := w.mons.set lane { line := a.pa / 128, va := a.va, die := d, pin := leafPin a.leaf.toNat, armed := true, trig := false } }).finishLanes
                core slot lane (laneBit lane))
    | _ => .next s

/-! Time-outs (R381). -/

/-- The waiting paths of a wave, those put aside at handler entry included, whose time-out has been reached. -/
def Wave.expired (w : Wave) : List (Path × WaitWord × Lanes) :=
  (w.paths ++ (match w.saved with | some v => v.paths | none => [])).filterMap fun p =>
    match p.status with
    | .wait k pend 1 => some (p, k, pend)
    | _ => none

/-- Whether a waiting word could complete now for one of its lanes: the event wins over an expiry in the same tick (R381). -/
def State.couldEnd (s : State) (core : Nat) (w : Wave) (k : WaitWord) (pend : Lanes) : Bool :=
  match k with
  | .mwait => w.woken pend != 0
  | .join as => as.any fun a => pend.getLsbD a.lane && s.watchRead core a.leaf.toNat a.pa == some 0
  | .tagAny m => tagAny (s.core core).tags m
  | .tagAll m => tagAll (s.core core).tags m
  | _ => false

/-- Watched address of the lowest waiting lane, 0 for a tag wait (R373). -/
def Wave.watched (w : Wave) (k : WaitWord) (pend : Lanes) : W64 :=
  match k with
  | .join as => ((as.find? fun a => pend.getLsbD a.lane).map (·.va)).getD 0
  | .mwait => (w.mons.get (lowLane pend) {}).va
  | _ => 0

/-- Of the waits of a wave that have expired and cannot complete now, the one whose lowest lane is lowest (R381). -/
def State.expiry (s : State) (core slot : Nat) : Option (Path × WaitWord × Lanes) :=
  let w := s.wave (waveKey core slot)
  match w.expired.filter fun e => !s.couldEnd core w e.2.1 e.2.2 with
  | [] => none
  | e :: r => some (r.foldl (fun b x => if lowLane x.1.lanes < lowLane b.1.lanes then x else b) e)

/-- MONITOR_TIMEOUT: a JOIN, MWAIT or tag wait has waited longer than MWTIME. Of the waits of a group that have expired the lowest
wave's goes first, and in it the one of the lowest lane; during a halt the trap is held (R224, R381). -/
def execMonitorTimeout (core slot lane : Nat) (s : State) : Out :=
  let key := waveKey core slot
  let w := s.wave key
  match w.gid, s.expiry core slot with
  | some gid, some (p, k, pend) =>
    if (s.die (dieOf core)).dbg || !p.lanes.getLsbD lane || ((s.group gid).slots.take w.wix).any fun n => (s.expiry core n).isSome then .next s
    else
      let own := (s.group gid).phase == .handler && w.saved.isSome && w.paths.contains p
      let s1 := s.modWave key fun w => w.mapPaths (·.map fun q => if q = p then { q with status := .wait k pend 0 } else q)
      .next (s1.trapA gid { code := 0x15, epc := p.pc, eaddr := w.watched k pend, emask := pend, own := pend, wave := w.wix } own)
  | _, _ => .next s

/-! Other waits. -/

/-- GSAVE looks again: its checks are made again and the image is written, or it goes on waiting (R167, R221, R383). -/
def State.gsaveNow (s : State) (core slot lane : Nat) (va : W64) : State :=
  let key := waveKey core slot
  let s1 := ({ s with cur := { core := core, slot := slot } } : State).modWave key fun w =>
    { w with paths := (w.paths.filter fun p => p.lanes.getLsbD lane) ++ w.paths.filter fun p => !p.lanes.getLsbD lane }
  match s1.gsaveTry va with
  | .done u => u
  | .trap t => s1.trapP t

/-- The other waiting words: fences, possession, reservations, GSAVE. -/
def State.resumeWord (s : State) (core slot lane : Nat) : State :=
  match s.waiterAt core slot lane with
  | none => s
  | some x =>
    let done := fun (u : State) => u.finishLanes core slot lane 0xFFFFFFFF#32
    match x.word with
    | .fence rel acq wide ids tails =>
      if s.fenceDone core slot rel ids tails then done (if acq && wide then s.dropL1 core else s) else s
    | .obrel n =>
      let g := s.group x.gid
      if s.resvRead (g.resv.get n {}).stamp then s else done (s.modGroup x.gid fun g => { g with resv := g.resv.del n })
    | .mpass =>
      if (s.core core).poss ≠ some x.gid then done s
      else if (s.group x.gid).follow ≠ 0 then s
      else (done s).handover core x.gid
    | .mtake =>
      if (s.core core).poss = some x.gid then done s
      else if (s.core core).poss = none then done (s.modCore core fun c => { c with poss := some x.gid })
      else s
    | .gsave va => s.gsaveNow core slot lane va
    | _ => s

/-- What `Move.resume` does: a waiting word of a wave, or, numbered from 256 by die, the end of a command that takes time:
a page-class change (R247), an invalidation (R252), the saves of a pre-emption, the pre-empted state (R385), a context
reset (R387), the next frame of a page-zero command (R434), a key command (R436), a heap grant or a region-disarm that waits for a walk
(R255). -/
def State.resume (s : State) (who what arg : Nat) : State :=
  if who < 256 then s.resumeWord who what arg
  else
    let d := who - 256
    if 4 ≤ d then s
    else
      match what with
      | 0 => s.classFinish d
      | 1 => s.invFinish d
      | 2 => s.saveGroups d arg
      | 3 => s.preempted d arg
      | 4 => s.resetFinish d arg
      | 5 => s.zeroFrame d
      | 6 => s.keyFinish d
      | 7 => s.grantFinish d arg
      | 8 => s.disarmFinish d
      | _ => s

end Sys2Proof.Machine
end

