-- ==== Sys2Proof/Machine/Link.lean ====
section
/-! DEFINITION. Die-to-die links, cross-die time-outs, the host and the optical fabric: R401, R413 to R416, R420 to R422, R426
to R429. -/

namespace Sys2Proof.Machine

/-! Links (R420, R421). -/

/-- What a packet does where it arrives: a message enters the die's message unit, an announcement is noted, an arrival is counted by
its barrier's home unit (R408, R417, R419). -/
def State.received (s : State) (p : Pkt) : State :=
  match p.body with
  | .msg t => s.modDie p.dst fun x => { x with msgs := x.msgs ++ [t] }
  | .fed true ctx entry fedn => s.modDie p.dst fun x => { x with feds := x.feds ++ [(p.src, ctx, entry, fedn)] }
  | .fed false ctx entry fedn => s.modDie p.dst fun x => { x with feds := x.feds.erase (p.src, ctx, entry, fedn) }
  | .arrive k ctx n => s.fedHome p.dst k ctx n

/-- D2D_PACKET: the next whole packet of a direction is delivered, in the order of sending; a duplicate is dropped by its sequence
number (R420). -/
def execD2dPacket (src dst seq : Nat) (s : State) : Out :=
  let l := s.link src dst
  if src = dst ∨ 4 ≤ src ∨ 4 ≤ dst ∨ seq ≠ l.recv.get src 0 + 1 ∨ l.sent.get src 0 < seq ∨ !s.routed src dst then .next s
  else
    let s1 := s.modLink src dst fun l => { l with recv := l.recv.set src seq }
    let here := fun (p : Pkt) => p.src == src && p.dst == dst && p.seq == seq
    .next ((s.pkts.filter here).foldl State.received { s1 with pkts := s.pkts.filter fun p => !here p })

/-- A packet that no route carries in time is lost, with a cross-die record; a message that is lost no longer counts for its launch
(R408, R421, R422; log 113). -/
def State.losePkt (s : State) (id : Nat) : State :=
  match s.pkts.find? fun p => p.id == id && p.left == 1 with
  | none => s
  | some p =>
    let s1 := { s with pkts := s.pkts.filter fun e => e.id != id }
    match p.body with
    | .msg t => (s1.logCross p.src t.ctx 0 (p.dst * 2 ^ 48)).modLaunch p.dst (1024 * t.ctx + t.lid) fun l => { l with threads := l.threads - 1 }
    | .fed _ ctx _ _ => s1.logCross p.src ctx 0 (p.dst * 2 ^ 48)
    | .arrive _ ctx _ => s1.logCross p.src ctx 0 (p.dst * 2 ^ 48)

/-- LINK_RETRAIN: a link starts to retrain, for at most 2 µs; one that retrains in that time comes up and replays (R420, R421). -/
def execLinkRetrain (src dst : Nat) (s : State) : Out :=
  if src = dst ∨ 4 ≤ src ∨ 4 ≤ dst then .next s
  else
    match (s.link src dst).st with
    | .up => .next (s.modLink src dst fun l => { l with st := .retraining, left := 200 })
    | .retraining => if (s.link src dst).left = 0 then .next s else .next (s.modLink src dst fun l => { l with st := .up, left := 0 })
    | .down => .next s

/-- LINK_DOWN: a link that has not retrained after 2 µs is down; its traffic takes a third die, and the record is written
(R421). -/
def execLinkDown (src dst : Nat) (s : State) : Out :=
  let l := s.link src dst
  if src = dst ∨ 4 ≤ src ∨ 4 ≤ dst ∨ l.st ≠ .retraining ∨ l.left ≠ 0 then .next s
  else .next ((s.modLink src dst fun l => { l with st := .down }).logSys src 0x39 0 0 (src + 2 ^ 8 * dst))

/-! Cross-die time-outs (R422). -/

/-- Whether a request of an access waits for a reply from outside the die: an access that waits at a slice for a version
has its own time-out (R138, R295). -/
def MemOp.awaits (o : MemOp) (a : Acc) : Bool :=
  a.pa / 2 ^ 48 != dieOf o.core && (a.st == .pend || ((o.kind == .store || o.kind == .vst) && a.st == .perf))

/-- The records of requests without a reply: one for each line that the accesses ask for (R116, R422). -/
def State.logLines (s : State) (o : MemOp) (as : List Acc) : State :=
  ((as.map fun a => a.va.toNat / 128).eraseDups).foldl
    (fun u l =>
      match as.find? fun a => a.va.toNat / 128 == l with
      | some a => u.logCross (dieOf o.core) o.ctx a.va.toNat a.pa
      | none => u) s

/-- A directory request that has had no reply leaves no copy (R422). -/
def State.dropAsked (s : State) (d : Nat) (a : Acc) : State :=
  if underDir a.leaf.toNat a.pa then
    s.modCopy (a.pa / 128) d fun c => { c with asked := false, grant := .inv, got := none, st := if c.st = .sh then .inv else c.st }
  else s

/-- CROSS_DIE_TIMEOUT: requests of a word have had no reply for CDTOUT: each ends as a data error with a cross-die record, and a
directory request leaves no copy; so do the requests of a VFLOOR to a die, the zero-length read of a release at .HOST, and, with their own
names, the other packets of the links (R415, R422). -/
def execCrossDieTimeout (id : Nat) (s : State) : Out :=
  match s.opAt id with
  | none => .next (s.losePkt id)
  | some o =>
    let d := dieOf o.core
    let bad := o.accs.filter fun a => o.awaits a && a.late
    if !bad.isEmpty then
      .next (((bad.foldl (fun u x => u.dropAsked d x) s).logLines o bad).failAccs id 0x0D (bad.map (·.lane)))
    else if o.halted then .next s
    else if o.zread = 1 then .next ((s.logCross d o.ctx 0 hostBase).failFloor o 0)
    else
      match o.left.find? fun e => e.2 == 1 with
      | some e =>
        let va := (s.regions.get o.region {}).base
        .next ((s.logCross d o.ctx va (e.1 * 2 ^ 48)).failFloor o va)
      | none => .next s

/-! Host memory (R128, R415). -/

/-- Whether a store of the wave before a word is still unacknowledged: the zero-length read of a release goes behind them (R415). -/
def State.owedBefore (s : State) (o : MemOp) : Bool :=
  s.ops.any fun e => e.core == o.core && e.slot == o.slot && e.gid == o.gid && e.seq < o.seq && e.owed

/-- HOST_COMPLETION: the host answers the word's oldest access to host memory, or the zero-length read of its release, or an error
status ends it as a data error (R128, R415). -/
def execHostCompletion (id : Nat) (good : Bool) (s : State) : Out :=
  match s.opAt id with
  | none => .next s
  | some o =>
    match o.accs.find? fun a => isHost a.pa && s.accReady o a with
    | none =>
      if o.zread < 2 ∨ o.halted ∨ s.owedBefore o then .next s
      else if !good then .next (s.failFloor o 0)
      else .next ((s.modOp id fun x => { x with zread := 0 }).overOp id)
    | some a =>
      if !good then .next (s.failAccs id 0x0D ((o.atAddr a).map (·.lane)))
      else
        match o.kind with
        | .load | .cld => .next (s.loadStep o a false (1 + holdId id a.lane))
        | .store =>
          .next (((s.storeStep o a).modAccs id (fun x => x.pa == a.pa && x.st == .perf) fun x => { x with st := .done }).overOp id)
        | .atom => .next (s.atomStep o a)
        | _ => .next s

/-! The host's accesses to BAR4 (R413, R414). -/

/-- Whether a page of an armed region lies at a physical page, as the tables of any die map it (R237, R285). -/
def State.versionedAt (s : State) (pa : Nat) : Bool :=
  s.regions.any fun e =>
    e.2.armed && (regionPages e.2.base e.2.ngran).any fun p =>
      (List.range 4).any fun c =>
        match s.loc c (e.1 / 64) (p * 4096) with
        | .leaf _ w lvl => leafVer w && leafPhys c (leafAt w lvl (p * 4096)) (p * 4096) == some (pa / 4096 * 4096)
        | _ => false

/-- The response of a die to the host: status 0 success, 1 Unsupported Request, 2 Completer Abort, with data. -/
def State.answer (s : State) (d st : Nat) (v : List Nat) : State := s.modDie d fun x => { x with resp := st, respData := v }

/-- Whether a BAR4 access of `n` bytes reaches memory of the die (R413, R439). -/
def State.barOk (s : State) (d addr n : Nat) : Bool :=
  d < 4 && (s.die d).br == 4 && 0 < n && addr + n ≤ 2 ^ 42 && s.populated (d * 2 ^ 48 + addr) && s.populated (d * 2 ^ 48 + addr + n - 1)

/-- Key slot of host accesses to BAR4 (R436). -/
def State.hostSlot (s : State) (d : Nat) : Nat := (s.die d).reg 0xA01080 % 512
/-- Identity of that key. -/
def State.hostKey (s : State) (d : Nat) : Nat := s.keyId (d * 2 ^ 48) (s.hostSlot d)

/-- `n` bytes as the host reads them: the newest version of a granule that has versions (R140, R414). -/
def State.hostBytes (s : State) (pa key : Nat) : Nat → Nat
  | 0 => 0
  | n + 1 =>
    (if s.grans.has (pa / 32 * 32) then (s.newestBytes pa key 1).getD 0 else (s.curByte pa key).toNat) + 256 * s.hostBytes (pa + 1) key n

/-- Whether a host access meets a line or a heap record with an uncorrectable error; a line that a lost plate held is poisoned for
its owning context only (R292, R366, R389). -/
def State.hostPoison (s : State) (pa key n : Nat) : Bool :=
  s.poisoned pa n 4096 || (List.range n).any fun i => s.grans.has ((pa + i) / 32 * 32) && (s.newestBytes (pa + i) key 1).isNone

/-- A read by the host used the version lines of the granules that it touches (R291). -/
def State.usedLines (s : State) (pa n : Nat) : State :=
  if n = 0 then s
  else (List.range ((pa + n - 1) / 32 + 1 - pa / 32)).foldl (fun u i => u.useLine (32 * (pa / 32 + i))) s

/-- HOST_BAR4_READ: the line as it stands at service; a hole returns Unsupported Request (R413, R414), and a die that is not
ready returns ones (R439). -/
def execHostBar4Read (die addr size : Nat) (s : State) : Out :=
  let pa := die * 2 ^ 48 + addr
  if 4 ≤ die then .next s
  else if (s.die die).br ≠ 4 then .next (s.answer die 0 [2 ^ (8 * size) - 1])
  else if !s.barOk die addr size then .next (s.answer die 1 [])
  else if (linesOf pa size).any s.lineBusy || s.slotHeld die (s.hostSlot die) then .next s
  else if s.hostPoison pa (s.hostKey die) size then .next (s.answer die 2 [])
  else .next ((s.usedLines pa size).answer die 0 [s.hostBytes pa (s.hostKey die) size])

/-- A host write or AtomicOp to a versioned page is discarded with a record (R414). -/
def State.hostVersion (s : State) (d pa : Nat) : State := s.logSys d 0x37 0 0 (pa % 2 ^ 48 * 2 ^ 32)

/-- HOST_POSTED_WRITE (R414). -/
def execHostPostedWrite (die addr size val : Nat) (s : State) : Out :=
  let pa := die * 2 ^ 48 + addr
  if !s.barOk die addr size ∨ (linesOf pa size).any s.lineBusy ∨ s.slotHeld die (s.hostSlot die) then .next s
  else if s.versionedAt pa ∨ s.versionedAt (pa + size - 1) then .next (s.hostVersion die pa)
  else .next (s.agentWrite pa size (s.hostKey die) val)

/-- HOST_ATOMICOP: FetchAdd, Swap or CAS of 32 or 64 bits, numbered as in R41, as one indivisible step at the home slice
(R265, R414). -/
def execHostAtomicop (die addr size op val cmp : Nat) (s : State) : Out :=
  let pa := die * 2 ^ 48 + addr
  if 4 ≤ die then .next s
  else if !s.barOk die addr size ∨ (size ≠ 4 ∧ size ≠ 8) ∨ addr % size ≠ 0 ∨ (op ≠ 0 ∧ op ≠ 8 ∧ op ≠ 9) then .next (s.answer die 1 [])
  else if s.lineBusy (pa / 128) || s.slotHeld die (s.hostSlot die) then .next s
  else if s.versionedAt pa then .next ((s.hostVersion die pa).answer die 2 [])
  else if s.hostPoison pa (s.hostKey die) size then .next (s.answer die 2 [])
  else
    let key := s.hostKey die
    let old := s.agentRead pa key size
    let s1 := match atomNew op size old (val % 2 ^ (8 * size)) (cmp % 2 ^ (8 * size)) with
      | some n => s.agentWrite pa size key n
      | none => s
    .next (s1.answer die 0 [old])

/-! The optical fabric (R426 to R428): the ports stand on die 0. -/

/-- FABRIC_PACKET: a packet of 1 to 16 flits has passed a port whole and in order; wavelengths that are locked join the
stripe at this boundary, and those that fail leave it (R426, R428). -/
def execFabricPacket (port flits : Nat) (s : State) : Out :=
  if 32 ≤ port ∨ flits = 0 ∨ 16 < flits then .next s
  else
    .next (s.modPort port fun x =>
      let l := x.locked &&& ~~~x.failing
      { x with recv := x.recv + 1, queued := x.queued - flits, locked := l, active := l, failing := 0, idleLeft := s.portIdle port })

/-- The lowest `n` members of a set of wavelengths. -/
def lowWaves (w : BitVec 8) (n : Nat) : BitVec 8 :=
  (((List.range 8).filter fun i => w.getLsbD i).take n).foldl (fun m i => m ||| BitVec.ofNat 8 (2 ^ i)) 0

/-- WAVELENGTH_PARK: a port that has been idle for IDLE keeps MINW wavelengths (R428). -/
def execWavelengthPark (port : Nat) (s : State) : Out :=
  let x := s.port port
  let n := field (s.portReg port) 12 4
  if 32 ≤ port ∨ x.queued ≠ 0 ∨ x.idleLeft ≠ 0 ∨ popByte x.locked ≤ n then .next s
  else .next (s.modPort port fun x => { x with active := lowWaves x.locked n, locked := lowWaves x.locked n, relock := 0 })

/-- WAVELENGTH_RELOCK: more than WAKEQ flits start the relock of the lowest parked wavelength; after 120 rc ticks it is
locked and the next one starts, until all eight are (R428). The count runs down to 1. -/
def execWavelengthRelock (port : Nat) (s : State) : Out :=
  let x := s.port port
  if 32 ≤ port ∨ x.locked = 0xFF then .next s
  else if x.relock = 0 then
    (if field (s.portReg port) 16 8 < x.queued then .next (s.modPort port fun x => { x with relock := 121 }) else .next s)
  else if x.relock = 1 then
    .next (s.modPort port fun x =>
      let l := x.locked ||| lowWaves (~~~x.locked) 1
      { x with locked := l, active := if x.queued = 0 then l else x.active, relock := if l = 0xFF then 0 else 121 })
  else .next s

/-- WAVELENGTH_CRC_FAIL: a wavelength leaves the stripe at the next packet boundary, which is now when nothing is queued; its flits,
which stay queued until they are acknowledged, go on the others (R428). -/
def execWavelengthCrcFail (port wave : Nat) (s : State) : Out :=
  let x := s.port port
  let m := x.failing ||| BitVec.ofNat 8 (2 ^ (wave % 8))
  if 32 ≤ port ∨ x.active &&& ~~~m = 0 then .next s
  else if x.queued = 0 then .next (s.modPort port fun x => { x with active := x.active &&& ~~~m, locked := x.locked &&& ~~~m, failing := 0 })
  else .next (s.modPort port fun x => { x with failing := m })

end Sys2Proof.Machine
end

