-- ==== Sys2Proof/Machine/Board.lean ====
section
/-! DEFINITION. Errors in arrays and on the mesh, the side-band port, attestation, bring-up, power: R388, R389, R401, R423,
R430, R431, R435, R437 to R442. -/

namespace Sys2Proof.Machine

/-! Errors (R388, R389, R401, R410, R411). -/

/-- A saturating 32-bit count. -/
def satCount (n : Nat) : Nat := min (n + 1) (2 ^ 32 - 1)

/-- A corrected error of a slice is counted; a count that reaches a nonzero threshold starts its retirement (R410, R411). -/
def State.sliceError (s : State) (d n : Nat) : State :=
  let s1 := s.modDie d fun x => { x with cecnt := x.cecnt.upd n 0 satCount }
  let th := field ((s.die d).reg (0x600000 + 8 * n)) 16 16
  if th ≠ 0 ∧ th ≤ (s1.die d).cecnt.get n 0 then s1.sliceRetire d n else s1

/-- SCRUB: the burnisher reads an array or a DRAM line and corrects a single-bit error, which it counts for the slice
(array 0), the HBM stack (array 1) or the core (array 2); no value changes (R388). A scrub that finds nothing changes
nothing. -/
def execScrub (die array index : Nat) (s : State) : Out :=
  if 4 ≤ die then .next s
  else if array = 0 ∧ index < 48 then .next (s.sliceError die index)
  else if array = 1 ∧ index < 3 then .next (s.modDie die fun x => { x with ceOther := x.ceOther.upd index 0 satCount })
  else if array = 2 ∧ index < 64 then .next (s.modDie die fun x => { x with ceOther := x.ceOther.upd (64 + index) 0 satCount })
  else .next s

/-- A clean copy in a core is dropped, to be fetched again: an L1 line that is neither dirty nor leased, a TLB entry, a
fetched word (R389). -/
def Core.dropClean (c : Core) (what key : Nat) : Core :=
  match what with
  | 0 => if (c.l1.get key {}).dirty = 0 ∧ !c.leases.contains key then { c with l1 := c.l1.del key } else c
  | 1 => { c with tlb := c.tlb.del key }
  | _ => { c with icache := c.icache.del key }

/-- A context reset for an error counts as one by command (R378, R389). -/
def State.errorReset (s : State) (d ctx : Nat) : State := s.contextReset d ctx 1

/-- UNCORRECTABLE_ERROR, by where the bad data lies (R333, R389). Arrays 0 to 2 are a clean L1 line, TLB entry and fetched
word, with index core + 64 * key; 3 a clean line of slice `index`; 4 to 7 a dirty slice line, DRAM, a version slot and a heap
record, with index line + 2^41 * owner tag; 8 a register or the scratchpad of group `index`; 9 accumulator index mod 4 of core
index / 4; 10 a directory, filter, bucket-table or queue-descriptor entry that holds owner tag `index`. -/
def execUncorrectableError (die array index : Nat) (s : State) : Out :=
  if 4 ≤ die then .next s
  else if array < 3 then
    .next ((s.modCore (64 * die + index % 64) fun c => c.dropClean array (index / 64)).modDie die fun x =>
      { x with ceOther := x.ceOther.upd (64 + index % 64) 0 satCount })
  else if array = 3 then (if index < 48 then .next (s.sliceError die index) else .next s)
  else if array < 8 then .next (s.poisonLine (die * 2 ^ 41 + index % 2 ^ 41) (index / 2 ^ 41 % 4096) (array - 4))
  else if array = 8 then
    (if s.groups.has index && dieOf (s.group index).core == die && (s.group index).phase != .ending then
       .next (s.endWithError index { code := 0x0D } false)
     else .next s)
  else if array = 9 then
    .next (s.modCore (64 * die + index / 4 % 64) fun c =>
      { c with accBad := if c.accBad.contains (index % 4) then c.accBad else c.accBad ++ [index % 4] })
  else if array = 10 then .next (s.errorReset die (index % 4096))
  else .next s

/-- MESH_FLIT_RETRY: the flit goes again; only latency shows it (R401). -/
def execMeshFlitRetry (_die : Nat) (s : State) : Out := .next s

/-- Contexts that a die holds. -/
def Die.contexts (x : Die) : List Nat := (List.range 4096).filter fun c => x.ctxValid c

/-- MESH_LINK_DOWN: the die resets every context, writes the record and accepts no launch; it is a die-fatal event for the
crash record (R401, R431). -/
def execMeshLinkDown (die router dir : Nat) (s : State) : Out :=
  if 4 ≤ die ∨ 64 ≤ router ∨ 4 ≤ dir ∨ (s.die die).br ≠ 4 then .next s
  else
    let s1 := (s.die die).contexts.foldl (fun u c => u.errorReset die c) s
    .next ((s1.modDie die fun x => { x with meshDown := true, crash := some (2 * s.rtime) }).logSys die 0x33 0 0 (router + 2 ^ 8 * dir))

/-! The side-band port (R430, R431): it belongs to the module; its last response stands on die 0. -/

/-- Whether the port is busy: during a module reset, and while the reset of a die has still to be answered (R430, R431). -/
def State.sideBusy (s : State) : Bool :=
  ((List.range 4).all fun d => (s.die d).br == 0) || (List.range 4).any fun d => (s.die d).sbWait

/-- A response of the side-band port: status and data; a request that meets the port busy is answered with status 3 (R430). -/
def State.sideband (s : State) (st : Nat) (v : List Nat) : State := if s.sideBusy then s.answer 0 3 [] else s.answer 0 st v

/-- A command of the side-band port that acts on a die: a port that is busy takes none (R430, R431). -/
def State.sideCmd (s : State) (die : Nat) (f : State → State) : Out :=
  if s.sideBusy then .next (s.answer 0 3 []) else if 4 ≤ die then .next (s.answer 0 1 []) else .next (f s)

/-- GET_STATUS: bring-up state, debug halt, plate states and link states of each die (R431; log 105). -/
def execGetStatus (s : State) : Out :=
  .next (s.sideband 0 ((List.range 4).map fun d =>
    let x := s.die d
    [x.br, if x.dbg then 1 else 0] ++ ((List.range 4).map fun p => if x.plates.get (4 * d + p) 0 = 4 then 2 else x.plates.get (4 * d + p) 0) ++
      ((List.range 4).filter (· != d)).map fun e => match (s.link d e).st with | .up => 0 | .retraining => 1 | .down => 2).flatten)

/-- READ_POWER: power of a die, or of the OIDs, and the cap, in mW (R440, R442). -/
def execReadPower (die : Nat) (s : State) : Out :=
  if die < 4 then .next (s.sideband 0 [(s.die die).pmw, 900000])
  else if die = 4 then .next (s.sideband 0 [Config.oidPower 0, Config.oidPower 1, 60000])
  else .next (s.sideband 1 [])

/-- READ_LOG: up to 8 records of the system log or the fault ring from an index (R431; log 105). -/
def execReadLog (die which index : Nat) (s : State) : Out :=
  let x := s.die die
  let r := x.reg (if which = 0 then 0x300200 else 0x300000)
  let n := field r 0 5
  let tail := if which = 0 then x.stail.toNat else x.ftail.toNat
  if 4 ≤ die ∨ 2 ≤ which ∨ 20 < n ∨ n = 0 ∨ tail ≤ index ∨ 2 ^ n < tail - index then .next (s.sideband 1 [])
  else
    .next (s.sideband 0 ((List.range (min 8 (tail - index))).map fun i =>
      s.rdOwn (die * 2 ^ 48 + r / 4096 * 4096 % 2 ^ 48 + 32 * ((index + i) % 2 ^ n)) 32))

/-- Fresh random keys in every slot of a die, at bring-up (R435). -/
def State.freshKeys (s : State) (d : Nat) : State :=
  { (s.modDie d fun x => { x with keygen := (List.range 512).map fun k => (k, 2 * (512 + s.nextId + k)) }) with nextId := s.nextId + 512 }

/-- What a die's own reset leaves: fuses, standby memory, the states that only a module reset clears (R390, R401, R411, R431),
and what other dies share or have said: links, announcements, the optical ports and their registers. -/
def Die.restart (x : Die) : Die :=
  { ({} : Die) with
    secver := x.secver, crash := x.crash, meshDown := x.meshDown, slices := x.slices, ceOther := x.ceOther, buckets := x.buckets, gen := x.gen
    links := x.links, feds := x.feds, ports := x.ports, routes := x.routes, resp := x.resp, respData := x.respData
    ctl := x.ctl.filter fun e => 0x800000 ≤ e.1 && e.1 < 0x820000, plates := x.plates.filter fun e => e.2 == 3 }

/-- The groups, cores and words of a die are gone. -/
def State.clearDie (s : State) (d : Nat) : State :=
  let s1 := (s.cores.filter fun c => dieOf c.1 == d).foldl (fun u c => u.l1Empty c.1) s
  let s2 := s1.dir.foldl (fun u e => if e.2.holders.contains d then u.recallCopies e.1 else u) s1
  { s2 with
    cores := s2.cores.filter fun c => dieOf c.1 != d
    waves := s2.waves.filter fun w => dieOf (w.1 / 64) != d
    groups := s2.groups.filter fun g => dieOf g.2.core != d
    ops := s2.ops.filter fun o => dieOf o.core != d }

/-- RESET_DIE: every context on the die is reset, and the die is brought up again from state reset; the response follows when it is ready
(R431, R439). Armed regions and the versions of granules stay as they are, since a reset is no end of a context, also where the die was the
context's last one (R285; log 126). -/
def execResetDie (die : Nat) (s : State) : Out :=
  s.sideCmd die fun s =>
    let s1 := (s.die die).contexts.foldl (fun u c => u.contextReset die c 1) s
    (((s1.clearDie die).modDie die Die.restart).freshKeys die).modDie die fun x => { x with sbWait := true }

/-- A die has been brought up, or has failed: a reset by the side-band port is answered (R431; log 110). -/
def State.sideUp (s : State) (die : Nat) : State :=
  if (s.die die).sbWait then (s.answer 0 (if (s.die die).br = 4 then 0 else 2) []).modDie die fun x => { x with sbWait := false } else s

/-- FETCH_CRASH_RECORD: the record of the last die-fatal event, or status 1. -/
def execFetchCrashRecord (die : Nat) (s : State) : Out :=
  match (s.die die).crash with
  | some e => .next (s.sideband 0 (Config.crash die (e % 2) (e / 2)))
  | none => .next (s.sideband 1 [])

/-- ENTER_DEBUG_HALT (R423). -/
def execEnterDebugHalt (die : Nat) (s : State) : Out :=
  s.sideCmd die fun s => (s.modDie die fun x => { x with dbg := true }).answer 0 0 []

/-- LEAVE_DEBUG_HALT: status 2 when the die is not halted. Traps that arose in the halt are taken now (R423; log 108). -/
def execLeaveDebugHalt (die : Nat) (s : State) : Out :=
  s.sideCmd die fun s =>
    if (s.die die).dbg then
      ((s.groups.filter fun e => dieOf e.2.core == die).foldl (fun u e => u.lateTraps e.1) (s.modDie die fun x => { x with dbg := false })).answer 0 0 []
    else s.answer 0 2 []

/-! Attestation (R438). -/

/-- An SPDM request of a die, over its DOE mailbox or the side-band port: answered once the image has been accepted
(R439). -/
def spdmAsk (die cmd arg : Nat) (values : List Nat) (s : State) : Out :=
  let x := s.die die
  if 4 ≤ die ∨ !x.accepted then .next s
  else .next ((s.answer die 0 (values ++ Config.spdm die cmd arg x.spdm x.imgHash values)).modDie die fun y => { y with spdm := y.spdm + 1 })

/-- Value of a measurement of a die: the boot ROM hash, the firmware hash, the fuse configuration, the states of its plates, two bits each
(R390, R438; log 7). -/
def Die.measure (x : Die) (die index : Nat) : Option Nat :=
  match index with
  | 1 => some (Config.bootHash die)
  | 2 => some x.imgHash
  | 3 => some (Config.fuses die + x.secver)
  | 4 => some ((List.range 4).map fun p => (if x.plates.get (4 * die + p) 0 = 4 then 2 else x.plates.get (4 * die + p) 0) * 4 ^ p).sum
  | _ => none

/-- The measurements that GET_MEASUREMENTS asks for: one by its index, all with index 255, their number with index 0 (R438; log 7). -/
def Die.measures (x : Die) (die index : Nat) : List Nat :=
  if index = 0 then [4]
  else if index = 255 then (List.range 4).filterMap fun i => x.measure die (i + 1)
  else (x.measure die index).toList

/-- GET_VERSION (R438). -/
def execGetVersion (die : Nat) (s : State) : Out := spdmAsk die 0x84 0 [] s
/-- GET_CAPABILITIES (R438). -/
def execGetCapabilities (die : Nat) (s : State) : Out := spdmAsk die 0xE1 0 [] s
/-- NEGOTIATE_ALGORITHMS (R438). -/
def execNegotiateAlgorithms (die : Nat) (s : State) : Out := spdmAsk die 0xE3 0 [] s
/-- GET_DIGESTS (R438). -/
def execGetDigests (die : Nat) (s : State) : Out := spdmAsk die 0x81 0 [] s
/-- GET_CERTIFICATE (R438). -/
def execGetCertificate (die : Nat) (s : State) : Out := spdmAsk die 0x82 0 [] s
/-- CHALLENGE (R438). -/
def execChallenge (die nonce : Nat) (s : State) : Out := spdmAsk die 0x83 nonce [] s
/-- GET_MEASUREMENTS (R438). -/
def execGetMeasurements (die index : Nat) (s : State) : Out := spdmAsk die 0xE0 index ((s.die die).measures die index) s

/-! Bring-up (R435, R437, R439). -/

/-- MODULE_RESET: every die is in bring-up state reset. Fuses, standby memory and RTIME stay, memory keeps its bytes under
keys that no slot holds any more (R2, R431, R435, R439). -/
def execModuleReset (s : State) : Out :=
  .next ((List.range 4).foldl (fun u d => u.freshKeys d)
    { State.reset with
      rtime := s.rtime, mem := s.mem, lineKey := s.lineKey, free := s.free, nextId := s.nextId
      dies := (List.range 4).map fun d => (d, { ({} : Die) with secver := (s.die d).secver, crash := (s.die d).crash }) })

/-- IMAGE_CHECK: a die in state reset starts the check; in state image check the image is accepted when both signatures
verify and its version is not below the rollback counter, else the die fails and keeps a crash record (R437, R439). -/
def execImageCheck (die : Nat) (rsa slh : Bool) (version hash : Nat) (s : State) : Out :=
  let x := s.die die
  if 4 ≤ die then .next s
  else if x.br = 0 then .next (s.modDie die fun y => { y with br := 1 })
  else if x.br = 1 then
    (if rsa && slh && x.secver ≤ version then .next (s.modDie die fun y => { y with br := 2, accepted := true, imgHash := hash })
     else .next ((s.modDie die fun y => { y with br := 5, crash := some (2 * s.rtime + 1) }).sideUp die))
  else .next s

/-- MEMORY_TRAINING fixes DDRSZ, 0 to 2,048 GiB (R439). -/
def execMemoryTraining (die gib : Nat) (s : State) : Out :=
  if (s.die die).br = 2 ∧ gib ≤ 2048 then .next (s.modDie die fun y => { y with br := 3, ddrsz := gib }) else .next s

/-- PLATE_SELF_TEST: the plates whose bit is set in `failed` enter state failed, and the die is ready (R439). -/
def execPlateSelfTest (die failed : Nat) (s : State) : Out :=
  if (s.die die).br = 3 then
    .next ((s.modDie die fun y =>
      { y with br := 4, plates := (List.range 4).foldl (fun m p => if bitN failed p then m.set (4 * die + p) 3 else m) y.plates }).sideUp die)
  else .next s

/-! Power (R440 to R442). -/

/-- The arithmetic clock in MHz at `k` steps of 1/64 below 3.3 GHz (R440; log 106). -/
def acStep (k : Nat) : Nat := 3300 - 3300 * k / 64

/-- REGULATOR_SAMPLE: above the cap of 900 W one more eighth of the MMA starts is withheld, then the clock is one step
slower, down to 1.65 GHz; otherwise one step is undone, in the reverse order (R440). PMW is the mean of the last 1 ms (R442; log 111). -/
def execRegulatorSample (die power : Nat) (s : State) : Out :=
  if 4 ≤ die then .next s
  else
    .next (s.modDie die fun x =>
      let k := ((List.range 33).find? fun i => acStep i == x.acmhz).getD 0
      let h := (power :: x.phist).take 100
      let y := { x with phist := h, pmw := h.sum / h.length % 2 ^ 32 }
      if 900000 < power then
        (if x.mxthr < 7 then { y with mxthr := x.mxthr + 1 } else { y with acmhz := acStep (min 32 (k + 1)) })
      else if 0 < k then { y with acmhz := acStep (k - 1) }
      else { y with mxthr := x.mxthr - 1 })

end Sys2Proof.Machine
end

