-- ==== Sys2Proof/Machine/Control.lean ====
section
/-! DEFINITION. Clause headers, windows, barriers and control transfers: R28 to R34, R87 to R96, R169, R444. -/

namespace Sys2Proof.Machine

/-- The issuing path meets an obstacle while fetching: it parks on a page fault, waits for a walk, or takes
the fetch, table or data-error trap, with its PC at the target (R91, R214, R238, R389). -/
def State.fetchFail (s : State) (r : Fetched) (va : Nat) : State :=
  let page := va / 4096
  match r with
  | .word _ => s
  | .park => (s.modCp fun p => { p with status := .parked va true }).raiseFault (dieOf s.cur.core) s.cg.ctx page 0 true false
  | .wait => s.modCp fun p => { p with status := .walk va 10000 }
  | .bad => s.trapP (s.trapHere 0x0B s.cp.pc s.memb)
  | .table => s.trapP (s.trapHere 0x0C (BitVec.ofNat 64 va) s.memb)
  | .poison => s.trapP (s.trapHere 0x0D (BitVec.ofNat 64 (va / 128 * 128)) s.memb)

/-- A header's word (R29). -/
def headerNat (w : BitVec 12) (a b : BitVec 4) (l n : BitVec 3) : Nat :=
  0x3F * 2 ^ 26 + w.toNat * 2 ^ 14 + a.toNat * 2 ^ 10 + b.toNat * 2 ^ 6 + l.toNat * 2 ^ 3 + n.toNat

/-- The words of a clause as the core fetched them before, when it holds the clause of this header (R169). -/
def Core.oldClause (c : Core) (pc h len : Nat) : Option (List Nat) :=
  match c.icache.get pc [] with
  | [] => none
  | x :: ws => if x.toNat = h ∧ ws.length = len then some (ws.map (·.toNat)) else none

/-- The words of a clause whose header `h` stands at the issuing path: all as the core fetched them before, or all as memory holds
them, as a free choice says where the two differ (R169). -/
def State.clauseWords (s : State) (h len : Nat) : (List Nat × Fetched) × State :=
  let pc := s.cp.pc.toNat
  let now := s.fetchAll s.cur.core s.cg (pc + 4) len
  match s.cc.oldClause pc h len with
  | none => (now, s)
  | some ws =>
    if s.fetchNew s.cur.core s.cg pc ≠ .word h then ((ws, .word 0), s)
    else if now.1 = ws then (now, s)
    else
      let p := s.choose
      (if p.1 % 2 = 1 then (ws, .word 0) else now, p.2)

/-- CLAUSE: wait for the flags of WAIT, then start the clause (R29, R30). The words of the clause are fetched
together, as memory holds them or as they were fetched before (R169); a header inside a clause, a SETA or SETB
of 12 to 14 and a BIND above the long-latency words of the clause are illegal (R29, R34). -/
def execClause (w : BitVec 12) (a b : BitVec 4) (l n : BitVec 3) (s : State) : Out :=
  if s.cp.clause.isSome then .next s.illegal
  else if s.cw.paths.isEmpty then .next s
  else if !(okSet a && okSet b) then .next s.illegal
  else if !s.cw.flagsClear w then .next s
  else
    let h := headerNat w a b l n
    let len := l.toNat + 1
    let at0 := s.cp.pc.toNat + 4
    let got := s.clauseWords h len
    let ws := got.1.1
    let t := got.2
    if ws.length < len then .next (t.fetchFail got.1.2 (at0 + 4 * ws.length))
    else if (ws.filter fun x => (wordLat x).isLong).length < n.toNat then .next t.illegal
    else
      .next ((t.modCore t.cur.core fun c =>
        { c with icache := c.icache.set t.cp.pc.toNat ((h :: ws).map fun x => BitVec.ofNat 32 x) }).modCp fun p =>
          { p with
            pc := p.pc + 4
            clause := some {
              waitM := w, setA := a.toNat, setB := b.toNat, len := len, bind := n.toNat
              words := ws.map fun x => BitVec.ofNat 32 x } })

/-- WBASE: a multiple of 16 whose window lies within the grant, else the illegal-instruction trap (R14, R87). -/
def execWbase (i : BitVec 18) (s : State) : Out :=
  issueFixed (i.toNat % 16 == 0 && i.toNat + 96 ≤ s.cg.regs) [] (fun s => .done (s.modCw fun w => { w with wbase := i.toNat })) s

/-- CBASE (R88). -/
def execCbase (i : BitVec 9) (s : State) : Out :=
  issueFixed true [] (fun s => .done (s.modCw fun w => { w with cbase := i })) s

/-- BAR k, n: the lanes of the executing set arrive and wait; the slot releases when it is full (R95). It is
a release at group scope, so it waits for the wave's unacknowledged stores (R96, R122, R260). -/
def execBar (k : BitVec 5) (n : BitVec 18) (s : State) : Out :=
  let ok := k.toNat < s.cg.nbar && n.toNat ≤ 32 * s.cg.slots.length
  if ok && s.cp.clause.isSome && s.unacked s.cur.core s.cur.slot != 0 then .next s
  else
    issueBarrier ok
      (fun s =>
        let b := s.cg.bars.get k.toNat {}
        if b.arrived ≠ 0 ∧ b.count ≠ n.toNat then .trap (s.trapHere 2 0 s.memb)
        else
          .done (((s.modCg fun g =>
              { g with bars := g.bars.set k.toNat { b with count := n.toNat, arrived := b.arrived + laneCount s.memb } }).modCp
            fun p => { p with status := .bar k.toNat }).barTest s.cgid k.toNat)) s

/-- RCV s, b: the lanes of the mask wait at reconvergence barrier b, the others pass through; the barrier
releases when every lane of its mask has arrived, exited, was never launched or is withdrawn (R93, R94). -/
def execRcv (m : RName) (b : BitVec 4) (s : State) : Out :=
  issueBarrier (m.toNat < 97)
    (fun s =>
      let mask := s.readS m.toNat
      let p := s.memb &&& mask
      let r := s.cw.rbs.get b.toNat {}
      if p ≠ 0 ∧ r.arrived ≠ 0 ∧ mask ≠ r.mask then .trap (s.trapHere 2 0 s.memb)
      else
        .done (s.modCw fun w =>
          match w.paths with
          | [] => w
          | h :: rest =>
            let through := h.lanes &&& ~~~p
            let w1 := { w with
              paths := (if through = 0 then [] else [{ h.past false with lanes := through }]) ++ rest ++
                (if p = 0 then [] else [{ h with lanes := p, status := .rcv b.toNat }]) }
            if p = 0 then w1
            else
              Wave.rbTest { w1 with rbs := w1.rbs.set b.toNat { r with mask := mask, arrived := r.arrived ||| p } } b.toNat)) s

/-- Address of a branch target (R28, R90). -/
def State.target (s : State) (o : BitVec 18) : W64 := s.cp.pc + 4 * o.signExtend 64

/-- A branch with a target fixed in the word: the lanes that select it go there, the others to the next
header; a call writes the link pair o14:o15 of the lanes that select it (R89, R90). -/
def branch (ok link : Bool) (sel : State → Nat → Bool) (o : BitVec 18) (s : State) : Out :=
  issueControl ok []
    (fun s =>
      let pc := s.cp.pc
      let tgt := s.target o
      .done (s.modCw fun w =>
        let w1 := if link then ((lanesOf s.memb).filter (sel s)).foldl (fun w n => w.setV64 110 n (pc + 4)) w else w
        w1.transfer fun n => if sel s n then tgt else pc + 4)) s

/-- Whether the lane's condition is not zero; code 127 is always true (R89). -/
def State.cond (s : State) (c : RName) (n : Nat) : Bool := c.toNat == 127 || s.cw.readV c.toNat n != 0

/-- BNZ (R89, R90). -/
def execBnz (c : RName) (o : BitVec 18) (s : State) : Out := branch (vname c) false (fun s n => s.cond c n) o s
/-- BRA: BNZ with C = 0x7F (R89). -/
def execBra (o : BitVec 18) (s : State) : Out := branch true false (fun _ _ => true) o s
/-- BZ (R89, R90). -/
def execBz (c : RName) (o : BitVec 18) (s : State) : Out := branch (vname c) false (fun s n => !s.cond c n) o s
/-- CALL (R90). -/
def execCall (c : RName) (o : BitVec 18) (s : State) : Out :=
  branch (vname c || c.toNat == 127) true (fun s n => s.cond c n) o s

/-- A transfer to the address that each lane's pair holds; a target that is not a multiple of 4 traps at the
transferring word (R28, R91). The target is read before the link is written. -/
def jump (link : Bool) (c : RName) (s : State) : Out :=
  issueControl (vaddr c) []
    (fun s =>
      let tgt := fun n => s.cw.readV64 c.toNat n
      let bad := (lanesOf s.memb).filter fun n => (tgt n).toNat % 4 != 0
      let pc := s.cp.pc
      if bad ≠ [] then .trap (s.trapHere 0 0 (maskOf bad))
      else
        .done (s.modCw fun w =>
          let w1 := if link then (lanesOf s.memb).foldl (fun w n => w.setV64 110 n (pc + 4)) w else w
          w1.transfer tgt)) s

/-- JMPI (R91). -/
def execJmpi (c : RName) (s : State) : Out := jump false c s
/-- CALLI (R91). -/
def execCalli (c : RName) (s : State) : Out := jump true c s
/-- RET: as JMPI (R91). -/
def execRet (c : RName) (s : State) : Out := jump false c s

/-- EXIT: the lanes that select it exit, the others go on at the next header (R89, R92). -/
def execExit (c : RName) (s : State) : Out :=
  issueControl (vname c || c.toNat == 127) []
    (fun s =>
      let gone := maskOf ((lanesOf s.memb).filter fun n => s.cond c n)
      .done ((s.modCp fun p => p.past false).exitLanes s.ck gone)) s

end Sys2Proof.Machine
end

