-- ==== Sys2Proof/Machine/ConvertVec.lean ====
section
/-! DEFINITION. Conversion words of class 0x50, QPACK and QUNPK: R106 to R110. -/

namespace Sys2Proof.Machine

/-- CVT.F64.F32 (R61, R108). -/
def execCvtF64F32 (d : RName) (a : Src) (s : State) : Out :=
  cvt1 (dst64 d && Sys2Proof.src32 a) true (fun s n => s.srcF32 a n) (fun _ x => cvtF fmt32 fmt64 0 false x) d a s

/-- CVT.F32.F64 (R61, R108). -/
def execCvtF32F64 (d : RName) (a : Src) (r : Rm) (s : State) : Out :=
  cvt1 (dst32 d && Sys2Proof.src64 a) false (fun s n => (s.srcT .f64 a n).toNat) (fun m x => cvtF fmt64 fmt32 (rmOf r m) false x) d a s

/-- CVT.F32.F16 (R61, R108). -/
def execCvtF32F16 (d : RName) (a : Src) (s : State) : Out :=
  cvtWiden fmt16 0 16 (fun s n => (s.srcT .f16 a n).toNat) d a s

/-- CVT.F32.BF16 (R61, R108). -/
def execCvtF32Bf16 (d : RName) (a : Src) (s : State) : Out :=
  cvtWiden fmtB16 0 16 (fun s n => (s.srcT .bf16 a n).toNat) d a s

/-- CVT.F16.F32 (R54, R61, R108). -/
def execCvtF16F32 (d : RName) (a : Src) (r : Rm) (s : State) : Out :=
  cvtNarrow fmt16 16 0 false false r d a s

/-- CVT.BF16.F32 (R54, R61, R108). -/
def execCvtBf16F32 (d : RName) (a : Src) (r : Rm) (s : State) : Out :=
  cvtNarrow fmtB16 16 0 false false r d a s

/-- CVT.F32.E4M3.LO (R46, R61, R107, R108). -/
def execCvtF32E4m3Lo (d : RName) (a : Src) (s : State) : Out :=
  cvtWiden fmtE4M3 0 8 (fun s n => s.srcBytes fmtE4M3 a n) d a s

/-- CVT.F32.E4M3.HI (R46, R61, R107, R108). -/
def execCvtF32E4m3Hi (d : RName) (a : Src) (s : State) : Out :=
  cvtWiden fmtE4M3 16 8 (fun s n => s.srcBytes fmtE4M3 a n) d a s

/-- CVT.F32.E5M2.LO (R46, R61, R107, R108). -/
def execCvtF32E5m2Lo (d : RName) (a : Src) (s : State) : Out :=
  cvtWiden fmtE5M2 0 8 (fun s n => s.srcBytes fmtE5M2 a n) d a s

/-- CVT.F32.E5M2.HI (R46, R61, R107, R108). -/
def execCvtF32E5m2Hi (d : RName) (a : Src) (s : State) : Out :=
  cvtWiden fmtE5M2 16 8 (fun s n => s.srcBytes fmtE5M2 a n) d a s

/-- CVT.E4M3F32 .LO: D is read (R61, R62, R108). -/
def execCvtE4m3F32Lo (d : RName) (a : Src) (r : Rm) (s : State) : Out :=
  cvtNarrow fmtE4M3 8 0 true false r d a s

/-- CVT.E4M3F32 .HI: D is read (R61, R62, R108). -/
def execCvtE4m3F32Hi (d : RName) (a : Src) (r : Rm) (s : State) : Out :=
  cvtNarrow fmtE4M3 8 16 true false r d a s

/-- CVT.E4M3F32NSAT .LO: D is read (R61, R62, R108). -/
def execCvtE4m3F32NsatLo (d : RName) (a : Src) (r : Rm) (s : State) : Out :=
  cvtNarrow fmtE4M3 8 0 true true r d a s

/-- CVT.E4M3F32NSAT .HI: D is read (R61, R62, R108). -/
def execCvtE4m3F32NsatHi (d : RName) (a : Src) (r : Rm) (s : State) : Out :=
  cvtNarrow fmtE4M3 8 16 true true r d a s

/-- CVT.E5M2F32 .LO: D is read (R61, R62, R108). -/
def execCvtE5m2F32Lo (d : RName) (a : Src) (r : Rm) (s : State) : Out :=
  cvtNarrow fmtE5M2 8 0 true false r d a s

/-- CVT.E5M2F32 .HI: D is read (R61, R62, R108). -/
def execCvtE5m2F32Hi (d : RName) (a : Src) (r : Rm) (s : State) : Out :=
  cvtNarrow fmtE5M2 8 16 true false r d a s

/-- CVT.F32.E5M3 of A[7:0]; a literal becomes RU_E5M3 of its value (R47, R107, R108). -/
def execCvtF32E5m3 (d : RName) (a : Src) (s : State) : Out :=
  cvt1 (dst32 d && Sys2Proof.src32 a) false
    (fun s n => if a.kind = .lit then (ruE5M3 (intVal a.name.toInt)).1 else (s.src32 a n).toNat % 256)
    (fun _ x => cvtF fmtE5M3 fmt32 0 false x) d a s

/-- CVT.E5M3.F32 (R65, R108). -/
def execCvtE5m3F32 (d : RName) (a : Src) (s : State) : Out :=
  cvt1 (dst32 d && Sys2Proof.src32 a) false (fun s n => s.srcF32 a n) (fun _ x => ruE5M3 (fmt32.decode x)) d a s

/-- CVT.S32.F32 (R63, R108). -/
def execCvtS32F32 (d : RName) (a : Src) (r : Rm) (s : State) : Out :=
  cvt1 (dst32 d && Sys2Proof.src32 a) false (fun s n => s.srcF32 a n) (fun m x => toInt fmt32 32 true (rmOf r m) x) d a s

/-- CVT.F32.S32 (R64, R108). -/
def execCvtF32S32 (d : RName) (a : Src) (r : Rm) (s : State) : Out :=
  cvt1 (dst32 d && Sys2Proof.src32 a) false (fun s n => (s.src32 a n).toNat) (fun m x => fromInt fmt32 (rmOf r m) (sVal 32 x)) d a s

/-- CVT.S32.F64 (R63, R108). -/
def execCvtS32F64 (d : RName) (a : Src) (r : Rm) (s : State) : Out :=
  cvt1 (dst32 d && Sys2Proof.src64 a) false (fun s n => (s.srcT .f64 a n).toNat) (fun m x => toInt fmt64 32 true (rmOf r m) x) d a s

/-- CVT.F64.S32 (R64, R108). -/
def execCvtF64S32 (d : RName) (a : Src) (s : State) : Out :=
  cvt1 (dst64 d && Sys2Proof.src32 a) true (fun s n => (s.src32 a n).toNat) (fun _ x => fromInt fmt64 0 (sVal 32 x)) d a s

/-- CVT.Z32.F32 (R63, R108). -/
def execCvtZ32F32 (d : RName) (a : Src) (r : Rm) (s : State) : Out :=
  cvt1 (dst32 d && Sys2Proof.src32 a) false (fun s n => s.srcF32 a n) (fun m x => toInt fmt32 32 false (rmOf r m) x) d a s

/-- CVT.F32.Z32 (R64, R108). -/
def execCvtF32Z32 (d : RName) (a : Src) (r : Rm) (s : State) : Out :=
  cvt1 (dst32 d && Sys2Proof.src32 a) false (fun s n => (s.src32 a n).toNat) (fun m x => fromInt fmt32 (rmOf r m) (x)) d a s

/-- CVT.Z32.F64 (R63, R108). -/
def execCvtZ32F64 (d : RName) (a : Src) (r : Rm) (s : State) : Out :=
  cvt1 (dst32 d && Sys2Proof.src64 a) false (fun s n => (s.srcT .f64 a n).toNat) (fun m x => toInt fmt64 32 false (rmOf r m) x) d a s

/-- CVT.F64.Z32 (R64, R108). -/
def execCvtF64Z32 (d : RName) (a : Src) (s : State) : Out :=
  cvt1 (dst64 d && Sys2Proof.src32 a) true (fun s n => (s.src32 a n).toNat) (fun _ x => fromInt fmt64 0 (x)) d a s

/-- CVT.S64.F32 (R63, R108). -/
def execCvtS64F32 (d : RName) (a : Src) (r : Rm) (s : State) : Out :=
  cvt1 (dst64 d && Sys2Proof.src32 a) true (fun s n => s.srcF32 a n) (fun m x => toInt fmt32 64 true (rmOf r m) x) d a s

/-- CVT.F32.S64 (R64, R108). -/
def execCvtF32S64 (d : RName) (a : Src) (r : Rm) (s : State) : Out :=
  cvt1 (dst32 d && Sys2Proof.src64 a) false (fun s n => (s.src64 a n).toNat) (fun m x => fromInt fmt32 (rmOf r m) (sVal 64 x)) d a s

/-- CVT.S64.F64 (R63, R108). -/
def execCvtS64F64 (d : RName) (a : Src) (r : Rm) (s : State) : Out :=
  cvt1 (dst64 d && Sys2Proof.src64 a) true (fun s n => (s.srcT .f64 a n).toNat) (fun m x => toInt fmt64 64 true (rmOf r m) x) d a s

/-- CVT.F64.S64 (R64, R108). -/
def execCvtF64S64 (d : RName) (a : Src) (r : Rm) (s : State) : Out :=
  cvt1 (dst64 d && Sys2Proof.src64 a) true (fun s n => (s.src64 a n).toNat) (fun m x => fromInt fmt64 (rmOf r m) (sVal 64 x)) d a s

/-- CVT.Z64.F32 (R63, R108). -/
def execCvtZ64F32 (d : RName) (a : Src) (r : Rm) (s : State) : Out :=
  cvt1 (dst64 d && Sys2Proof.src32 a) true (fun s n => s.srcF32 a n) (fun m x => toInt fmt32 64 false (rmOf r m) x) d a s

/-- CVT.F32.Z64 (R64, R108). -/
def execCvtF32Z64 (d : RName) (a : Src) (r : Rm) (s : State) : Out :=
  cvt1 (dst32 d && Sys2Proof.src64 a) false (fun s n => (s.src64 a n).toNat) (fun m x => fromInt fmt32 (rmOf r m) (x)) d a s

/-- CVT.Z64.F64 (R63, R108). -/
def execCvtZ64F64 (d : RName) (a : Src) (r : Rm) (s : State) : Out :=
  cvt1 (dst64 d && Sys2Proof.src64 a) true (fun s n => (s.srcT .f64 a n).toNat) (fun m x => toInt fmt64 64 false (rmOf r m) x) d a s

/-- CVT.F64.Z64 (R64, R108). -/
def execCvtF64Z64 (d : RName) (a : Src) (r : Rm) (s : State) : Out :=
  cvt1 (dst64 d && Sys2Proof.src64 a) true (fun s n => (s.src64 a n).toNat) (fun m x => fromInt fmt64 (rmOf r m) (x)) d a s

/-- QPACK across the wave: a lane outside the executing set contributes +0 (R66, R109). -/
def execQpack (d : RName) (a : Src) (s : State) : Out :=
  issueFixed (dst64 d && Sys2Proof.src32 a) [a]
    (fun s =>
      let q := qpackOp ((List.range 32).map fun i => if s.memb.getLsbD i then s.srcF32 a i else 0)
      .done ((s.putLanes d true fun n => BitVec.ofNat 64 (q.1 / 2 ^ (32 * (n % 4)) % 2 ^ 32 + 2 ^ 32 * q.2.1)).mergeF q.2.2)) s

/-- QUNPK across the wave: a vector lane outside the set supplies zero (R67, R110). -/
def execQunpk (d : RName) (a : Src) (s : State) : Out :=
  vecForm (dst32 d && Sys2Proof.src64 a) [a] d false
    (fun s =>
      let pair := fun i => if a.kind = .vec ∧ !s.memb.getLsbD i then 0 else (s.src64 a i).toNat
      let blk := (List.range 4).foldl (fun b k => b + pair k % 2 ^ 32 * 2 ^ (32 * k)) 0
      let scale := pair 0 / 2 ^ 32 % 256
      fun n => BitVec.ofNat 64 (fmt32.deliver 0 false (q4xVal blk scale n)).1) s

end Sys2Proof.Machine
end

