-- ==== Sys2Proof/Machine/FloatVec.lean ====
section
/-! DEFINITION. Floating-point words: arithmetic, unary, compare and classify: R97 to R105, R111, R112. -/

namespace Sys2Proof.Machine

/-- FADD, .F32 (R98). -/
def execFaddF32 (d : RName) (a b : Src) (s : State) : Out :=
  flt2 .f32 (addF false) d a b s

/-- FADD, .F64 (R98). -/
def execFaddF64 (d : RName) (a b : Src) (s : State) : Out :=
  flt2 .f64 (addF false) d a b s

/-- FADD, .F16 (R98). -/
def execFaddF16 (d : RName) (a b : Src) (s : State) : Out :=
  flt2 .f16 (addF false) d a b s

/-- FADD, .BF16 (R98). -/
def execFaddBf16 (d : RName) (a b : Src) (s : State) : Out :=
  flt2 .bf16 (addF false) d a b s

/-- FSUB: FADD with the sign of y inverted, .F32 (R98). -/
def execFsubF32 (d : RName) (a b : Src) (s : State) : Out :=
  flt2 .f32 (addF true) d a b s

/-- FSUB: FADD with the sign of y inverted, .F64 (R98). -/
def execFsubF64 (d : RName) (a b : Src) (s : State) : Out :=
  flt2 .f64 (addF true) d a b s

/-- FSUB: FADD with the sign of y inverted, .F16 (R98). -/
def execFsubF16 (d : RName) (a b : Src) (s : State) : Out :=
  flt2 .f16 (addF true) d a b s

/-- FSUB: FADD with the sign of y inverted, .BF16 (R98). -/
def execFsubBf16 (d : RName) (a b : Src) (s : State) : Out :=
  flt2 .bf16 (addF true) d a b s

/-- FMUL, .F32 (R98). -/
def execFmulF32 (d : RName) (a b : Src) (s : State) : Out :=
  flt2 .f32 mulF d a b s

/-- FMUL, .F64 (R98). -/
def execFmulF64 (d : RName) (a b : Src) (s : State) : Out :=
  flt2 .f64 mulF d a b s

/-- FMUL, .F16 (R98). -/
def execFmulF16 (d : RName) (a b : Src) (s : State) : Out :=
  flt2 .f16 mulF d a b s

/-- FMUL, .BF16 (R98). -/
def execFmulBf16 (d : RName) (a b : Src) (s : State) : Out :=
  flt2 .bf16 mulF d a b s

/-- FFMA.F32 (R98, R99). -/
def execFfmaF32 (d : RName) (a b : Src) (s : State) : Out :=
  flt3 .f32 d a b s

/-- FFMA.F64 (R98, R99). -/
def execFfmaF64 (d : RName) (a b : Src) (s : State) : Out :=
  flt3 .f64 d a b s

/-- FFMA.F16 (R98, R99). -/
def execFfmaF16 (d : RName) (a b : Src) (s : State) : Out :=
  flt3 .f16 d a b s

/-- FFMA.BF16 (R98, R99). -/
def execFfmaBf16 (d : RName) (a b : Src) (s : State) : Out :=
  flt3 .bf16 d a b s

/-- FFMAL.F32 (R98, R100). -/
def execFfmalF32 (d : RName) (a b : Src) (s : State) : Out :=
  fltL .f32 d a b s

/-- FFMAL.F64 (R98, R100). -/
def execFfmalF64 (d : RName) (a b : Src) (s : State) : Out :=
  fltL .f64 d a b s

/-- FFMAL.F16 (R98, R100). -/
def execFfmalF16 (d : RName) (a b : Src) (s : State) : Out :=
  fltL .f16 d a b s

/-- FFMAL.BF16 (R98, R100). -/
def execFfmalBf16 (d : RName) (a b : Src) (s : State) : Out :=
  fltL .bf16 d a b s

/-- FMIN.F32 (R59, R98). -/
def execFminF32 (d : RName) (a b : Src) (s : State) : Out :=
  flt2 .f32 (fun f _ z x y => minMaxF false f z x y) d a b s

/-- FMIN.F64 (R59, R98). -/
def execFminF64 (d : RName) (a b : Src) (s : State) : Out :=
  flt2 .f64 (fun f _ z x y => minMaxF false f z x y) d a b s

/-- FMIN.F16 (R59, R98). -/
def execFminF16 (d : RName) (a b : Src) (s : State) : Out :=
  flt2 .f16 (fun f _ z x y => minMaxF false f z x y) d a b s

/-- FMIN.BF16 (R59, R98). -/
def execFminBf16 (d : RName) (a b : Src) (s : State) : Out :=
  flt2 .bf16 (fun f _ z x y => minMaxF false f z x y) d a b s

/-- FMAX.F32 (R59, R98). -/
def execFmaxF32 (d : RName) (a b : Src) (s : State) : Out :=
  flt2 .f32 (fun f _ z x y => minMaxF true f z x y) d a b s

/-- FMAX.F64 (R59, R98). -/
def execFmaxF64 (d : RName) (a b : Src) (s : State) : Out :=
  flt2 .f64 (fun f _ z x y => minMaxF true f z x y) d a b s

/-- FMAX.F16 (R59, R98). -/
def execFmaxF16 (d : RName) (a b : Src) (s : State) : Out :=
  flt2 .f16 (fun f _ z x y => minMaxF true f z x y) d a b s

/-- FMAX.BF16 (R59, R98). -/
def execFmaxBf16 (d : RName) (a b : Src) (s : State) : Out :=
  flt2 .bf16 (fun f _ z x y => minMaxF true f z x y) d a b s

/-- FNEG: the sign bit inverted; no flag (R102, R103). -/
def execFneg (d : RName) (a : Src) (t : FTy) (s : State) : Out :=
  flt1 true (fun t _ _ x => (x ^^^ 2 ^ (fmtOf t).mag, 0)) d a t s

/-- FABS: the sign bit cleared; no flag (R102, R103). -/
def execFabs (d : RName) (a : Src) (t : FTy) (s : State) : Out :=
  flt1 true (fun t _ _ x => (x % 2 ^ (fmtOf t).mag, 0)) d a t s

/-- FSQRT (R102 to R105). -/
def execFsqrt (d : RName) (a : Src) (t : FTy) (s : State) : Out :=
  flt1 true (fun t => sqrtF (fmtOf t)) d a t s

/-- FRCP (R102 to R105). -/
def execFrcp (d : RName) (a : Src) (t : FTy) (s : State) : Out :=
  flt1 true (fun t => rcpF (fmtOf t)) d a t s

/-- FRSQRT (R102 to R105; log 5). -/
def execFrsqrt (d : RName) (a : Src) (t : FTy) (s : State) : Out :=
  flt1 false (fun t _ => approxFn 0x24 (tyNum t) (fmtOf t)) d a t s

/-- FEXP2 (R102 to R105; log 5). -/
def execFexp2 (d : RName) (a : Src) (t : FTy) (s : State) : Out :=
  flt1 false (fun t _ => approxFn 0x25 (tyNum t) (fmtOf t)) d a t s

/-- FLOG2 (R102 to R105; log 5). -/
def execFlog2 (d : RName) (a : Src) (t : FTy) (s : State) : Out :=
  flt1 false (fun t _ => approxFn 0x26 (tyNum t) (fmtOf t)) d a t s

/-- FSINPI (R102 to R105; log 5). -/
def execFsinpi (d : RName) (a : Src) (t : FTy) (s : State) : Out :=
  flt1 false (fun t _ => approxFn 0x27 (tyNum t) (fmtOf t)) d a t s

/-- FCOSPI (R102 to R105; log 5). -/
def execFcospi (d : RName) (a : Src) (t : FTy) (s : State) : Out :=
  flt1 false (fun t _ => approxFn 0x28 (tyNum t) (fmtOf t)) d a t s

/-- FTANH (R102 to R105; log 5). -/
def execFtanh (d : RName) (a : Src) (t : FTy) (s : State) : Out :=
  flt1 false (fun t _ => approxFn 0x29 (tyNum t) (fmtOf t)) d a t s

/-- FRINT: by FPMODE.RM (R102, R105). -/
def execFrint (d : RName) (a : Src) (t : FTy) (s : State) : Out :=
  flt1 true (fun t => rintF true (fmtOf t)) d a t s

/-- FTRUNC: towards zero; never NX (R102, R105). -/
def execFtrunc (d : RName) (a : Src) (t : FTy) (s : State) : Out :=
  flt1 true (fun t _ => rintF false (fmtOf t) 1) d a t s

/-- FFLOOR: towards −∞; never NX (R102, R105). -/
def execFfloor (d : RName) (a : Src) (t : FTy) (s : State) : Out :=
  flt1 true (fun t _ => rintF false (fmtOf t) 3) d a t s

/-- FCEIL: towards +∞; never NX (R102, R105). -/
def execFceil (d : RName) (a : Src) (t : FTy) (s : State) : Out :=
  flt1 true (fun t _ => rintF false (fmtOf t) 2) d a t s

/-- FCMP.EQ (R111). -/
def execFcmpEq (d : RName) (a : Src) (t : FTy) (s : State) : Out :=
  fltCmp 0 d a t s

/-- FCMP.NE (R111). -/
def execFcmpNe (d : RName) (a : Src) (t : FTy) (s : State) : Out :=
  fltCmp 1 d a t s

/-- FCMP.LT (R111). -/
def execFcmpLt (d : RName) (a : Src) (t : FTy) (s : State) : Out :=
  fltCmp 2 d a t s

/-- FCMP.LE (R111). -/
def execFcmpLe (d : RName) (a : Src) (t : FTy) (s : State) : Out :=
  fltCmp 3 d a t s

/-- FCMP.UN (R111). -/
def execFcmpUn (d : RName) (a : Src) (t : FTy) (s : State) : Out :=
  fltCmp 4 d a t s

/-- FCLASS: one register for every type (R112). -/
def execFclass (d : RName) (a : Src) (t : FTy) (s : State) : Out :=
  vecForm (dst32 d && srcTy t a) [a] d false
    (fun s n => (mapEls t (fun x _ _ => (classF (fmtOf t) x, 0)) (s.srcT t a n) 0 0).1) s

end Sys2Proof.Machine
end

