-- ==== Sys2Proof/Machine/IntVec.lean ====
section
/-! DEFINITION. Vector integer, logic, compare, address-pair, unary and immediate words: R79 to R82,
R84, R86. -/

namespace Sys2Proof.Machine

/-- IADD (R79). -/
def execIadd (d : RName) (a b : Src) (s : State) : Out :=
  vec2 (· + ·) d a b s

/-- ISUB (R79). -/
def execIsub (d : RName) (a b : Src) (s : State) : Out :=
  vec2 (· - ·) d a b s

/-- IMUL (R79). -/
def execImul (d : RName) (a b : Src) (s : State) : Out :=
  vec2 (· * ·) d a b s

/-- IMULH.S32 (R79). -/
def execImulhS32 (d : RName) (a b : Src) (s : State) : Out :=
  vec2 mulhS d a b s

/-- IMULH.Z32 (R79). -/
def execImulhZ32 (d : RName) (a b : Src) (s : State) : Out :=
  vec2 mulhZ d a b s

/-- IMIN.S32 (R79). -/
def execIminS32 (d : RName) (a b : Src) (s : State) : Out :=
  vec2 minS d a b s

/-- IMIN.Z32 (R79). -/
def execIminZ32 (d : RName) (a b : Src) (s : State) : Out :=
  vec2 minZ d a b s

/-- IMAX.S32 (R79). -/
def execImaxS32 (d : RName) (a b : Src) (s : State) : Out :=
  vec2 maxS d a b s

/-- IMAX.Z32 (R79). -/
def execImaxZ32 (d : RName) (a b : Src) (s : State) : Out :=
  vec2 maxZ d a b s

/-- AND (R79). -/
def execAndB (d : RName) (a b : Src) (s : State) : Out :=
  vec2 (· &&& ·) d a b s

/-- OR (R79). -/
def execOrB (d : RName) (a b : Src) (s : State) : Out :=
  vec2 (· ||| ·) d a b s

/-- XOR (R79). -/
def execXorB (d : RName) (a b : Src) (s : State) : Out :=
  vec2 (· ^^^ ·) d a b s

/-- ANDN (R79). -/
def execAndn (d : RName) (a b : Src) (s : State) : Out :=
  vec2 (fun x y => x &&& ~~~y) d a b s

/-- SHL (R80). -/
def execShl (d : RName) (a b : Src) (s : State) : Out :=
  vec2 shlOp d a b s

/-- SHR (R80). -/
def execShr (d : RName) (a b : Src) (s : State) : Out :=
  vec2 shrOp d a b s

/-- SHRA (R80). -/
def execShra (d : RName) (a b : Src) (s : State) : Out :=
  vec2 shraOp d a b s

/-- ROTL (R80). -/
def execRotl (d : RName) (a b : Src) (s : State) : Out :=
  vec2 rotlOp d a b s

/-- BFX (R81). -/
def execBfx (d : RName) (a b : Src) (s : State) : Out :=
  vec2 bfxOp d a b s

/-- CMP.EQ (R79). -/
def execCmpEq (d : RName) (a b : Src) (s : State) : Out :=
  vec2 (fun x y => ones (x == y)) d a b s

/-- CMP.NE (R79). -/
def execCmpNe (d : RName) (a b : Src) (s : State) : Out :=
  vec2 (fun x y => ones (x != y)) d a b s

/-- CMP.LT.S32 (R79). -/
def execCmpLtS32 (d : RName) (a b : Src) (s : State) : Out :=
  vec2 (fun x y => ones (x.slt y)) d a b s

/-- CMP.LT.Z32 (R79). -/
def execCmpLtZ32 (d : RName) (a b : Src) (s : State) : Out :=
  vec2 (fun x y => ones (x.ult y)) d a b s

/-- CMP.LE.S32 (R79). -/
def execCmpLeS32 (d : RName) (a b : Src) (s : State) : Out :=
  vec2 (fun x y => ones (x.sle y)) d a b s

/-- CMP.LE.Z32 (R79). -/
def execCmpLeZ32 (d : RName) (a b : Src) (s : State) : Out :=
  vec2 (fun x y => ones (x.ule y)) d a b s

/-- IADD.SAT.S32 (R79). -/
def execIaddSatS32 (d : RName) (a b : Src) (s : State) : Out :=
  vec2 addSat d a b s

/-- IMAD reads D (R79). -/
def execImad (d : RName) (a b : Src) (s : State) : Out :=
  vec3 (fun x y z => x * y + z) d a b s

/-- BFI reads D (R81). -/
def execBfi (d : RName) (a b : Src) (s : State) : Out :=
  vec3 bfiOp d a b s

/-- SEL reads D (R79). -/
def execSel (d : RName) (a b : Src) (s : State) : Out :=
  vec3 (fun x y z => if z ≠ 0 then x else y) d a b s

/-- ADDA: pair and sign-extended 32-bit (R82). -/
def execAdda (d : RName) (a b : Src) (s : State) : Out :=
  vecForm (dst64 d && Sys2Proof.src64 a && Sys2Proof.src32 b) [a, b] d true (fun s n => s.src64 a n + (s.src32 b n).signExtend 64) s

/-- ADDA64 (R82). -/
def execAdda64 (d : RName) (a b : Src) (s : State) : Out :=
  vecForm (dst64 d && Sys2Proof.src64 a && Sys2Proof.src64 b) [a, b] d true (fun s n => s.src64 a n + s.src64 b n) s

/-- SUBA (R82). -/
def execSuba (d : RName) (a b : Src) (s : State) : Out :=
  vecForm (dst64 d && Sys2Proof.src64 a && Sys2Proof.src64 b) [a, b] d true (fun s n => s.src64 a n - s.src64 b n) s

/-- CMPA.LT, unsigned (R82). -/
def execCmpaLt (d : RName) (a b : Src) (s : State) : Out :=
  vecForm (dst32 d && Sys2Proof.src64 a && Sys2Proof.src64 b) [a, b] d false
    (fun s n => (ones ((s.src64 a n).ult (s.src64 b n))).setWidth 64) s

/-- MOV (R84). -/
def execMov (d : RName) (a : Src) (s : State) : Out :=
  vec1 id d a s

/-- MOV64 (R84). -/
def execMov64 (d : RName) (a : Src) (s : State) : Out :=
  vecForm (dst64 d && Sys2Proof.src64 a) [a] d true (fun s n => s.src64 a n) s

/-- NOT (R84). -/
def execNotB (d : RName) (a : Src) (s : State) : Out :=
  vec1 (fun x => ~~~x) d a s

/-- POPC (R84). -/
def execPopc (d : RName) (a : Src) (s : State) : Out :=
  vec1 popcOp d a s

/-- CLZ (R84). -/
def execClz (d : RName) (a : Src) (s : State) : Out :=
  vec1 clzOp d a s

/-- CTZ (R84). -/
def execCtz (d : RName) (a : Src) (s : State) : Out :=
  vec1 ctzOp d a s

/-- BREV (R84). -/
def execBrev (d : RName) (a : Src) (s : State) : Out :=
  vec1 brevOp d a s

/-- BSWAP (R84). -/
def execBswap (d : RName) (a : Src) (s : State) : Out :=
  vec1 bswapOp d a s

/-- SEXT.S8 (R84). -/
def execSextS8 (d : RName) (a : Src) (s : State) : Out :=
  vec1 sext8 d a s

/-- SEXT.S16 (R84). -/
def execSextS16 (d : RName) (a : Src) (s : State) : Out :=
  vec1 sext16 d a s

/-- ZEXT.Z8 (R84). -/
def execZextZ8 (d : RName) (a : Src) (s : State) : Out :=
  vec1 zext8 d a s

/-- ZEXT.Z16 (R84). -/
def execZextZ16 (d : RName) (a : Src) (s : State) : Out :=
  vec1 zext16 d a s

/-- INEG, .SAT when `t` (R84). -/
def execIneg (d : RName) (a : Src) (t : Bool) (s : State) : Out :=
  vec1 (negOp t) d a s

/-- IABS.S32, .SAT when `t` (R84). -/
def execIabsS32 (d : RName) (a : Src) (t : Bool) (s : State) : Out :=
  vec1 (absOp t) d a s

/-- MOVI: IMM sign-extended (R86). -/
def execMovi (d : RName) (i : BitVec 18) (s : State) : Out :=
  vecForm (dst32 d) [] d false (fun _ _ => (i.signExtend 32).setWidth 64) s

/-- MOVHI: IMM into bits [31:14]; D is read (R86). -/
def execMovhi (d : RName) (i : BitVec 18) (s : State) : Out :=
  vecForm (dstR d) [] d false (fun s n => ((i ++ (s.cw.readV d.toNat n).setWidth 14 : W32)).setWidth 64) s

end Sys2Proof.Machine
end

