-- ==== Sys2Proof/Machine/Lane.lean ====
section
/-! DEFINITION. Cross-lane words: R70, R71, R145 to R148. -/

namespace Sys2Proof.Machine

/-- A of a lane as a cross-lane word sees it: zero outside the sync mask (R145, R146). -/
def State.seen (s : State) (a : RName) (n : Nat) : W32 := if s.memb.getLsbD n then s.cw.readV a.toNat n else 0

/-- A test over a lane mask held in a scalar register: the result replaces the mask, and XSTAT reports in
every lane of the set whether the mask names an outside lane (R146, R147). -/
def laneTest (f : (Nat → W32) → Lanes → W32) (d a : RName) (s : State) : Out :=
  issueFixed (sgen d && vname a) []
    (fun s =>
      let m := s.readS d.toNat
      .done ((s.putS d (f (s.seen a) m)).modCw fun w => w.report s.memb (if m &&& ~~~s.memb = 0 then 0 else s.memb))) s

/-- A permute: each lane takes A of its source lane, 0 when that is outside the sync mask or outside 0 to 31,
which its XSTAT bit reports (R146, R147). -/
def permute (src : Nat → W32 → Option Nat) (d a : RName) (s : State) : Out :=
  issueFixed (dstR d && vname a) []
    (fun s =>
      let from' := fun n => src n (s.cw.readV d.toNat n)
      let inside := fun n => match from' n with | some k => s.memb.getLsbD k | none => false
      let bad := maskOf ((lanesOf s.memb).filter fun n => !inside n)
      .done ((s.putLanes d false fun n =>
          (match from' n with | some k => s.seen a k | none => 0).setWidth 64).modCw fun w => w.report s.memb bad)) s

/-- XALL (R146). -/
def execXall (d a : RName) (s : State) : Out :=
  laneTest (fun x m => if (lanesOf m).all (fun n => x n != 0) then 1 else 0) d a s
/-- XANY (R146). -/
def execXany (d a : RName) (s : State) : Out :=
  laneTest (fun x m => if (lanesOf m).any (fun n => x n != 0) then 1 else 0) d a s
/-- XEQ (R146). -/
def execXeq (d a : RName) (s : State) : Out :=
  laneTest (fun x m => if (lanesOf m).all (fun n => x n == x (lowLane m)) then 1 else 0) d a s
/-- XBITS (R146). -/
def execXbits (d a : RName) (s : State) : Out :=
  laneTest (fun x m => maskOf ((lanesOf m).filter fun n => x n != 0)) d a s
/-- XGET: the lane index is D[4:0] (R146, R147). -/
def execXget (d a : RName) (s : State) : Out :=
  issueFixed (sgen d && vname a) []
    (fun s =>
      let n := (s.readS d.toNat).toNat % 32
      .done ((s.putS d (s.seen a n)).modCw fun w => w.report s.memb (if s.memb.getLsbD n then 0 else s.memb))) s
/-- XSPREAD: A of the lowest lane of the set (R146). -/
def execXspread (d a : RName) (s : State) : Out :=
  vecForm (dst32 d && vname a) [] d false (fun s _ => (s.seen a (lowLane s.memb)).setWidth 64) s
/-- XPERM.ABS (R146). -/
def execXpermAbs (d a : RName) (s : State) : Out := permute (fun _ v => some (v.toNat % 32)) d a s
/-- XPERM.LO, with .WRAP when `w` (R146, R147). -/
def execXpermLo (d a : RName) (w : Bool) (s : State) : Out :=
  permute (fun n v => if w then some ((n + 32 - v.toNat % 32) % 32) else if v.toNat % 64 ≤ n then some (n - v.toNat % 64) else none) d a s
/-- XPERM.HI, with .WRAP when `w` (R146, R147). -/
def execXpermHi (d a : RName) (w : Bool) (s : State) : Out :=
  permute (fun n v => if w then some ((n + v.toNat % 32) % 32) else if n + v.toNat % 64 < 32 then some (n + v.toNat % 64) else none) d a s
/-- XPERM.FLIP (R146). -/
def execXpermFlip (d a : RName) (s : State) : Out := permute (fun n v => some (n ^^^ v.toNat % 32)) d a s
/-- XSAME: the lanes of the set whose A equals this lane's (R146). -/
def execXsame (d a : RName) (s : State) : Out :=
  vecForm (dst32 d && vname a) [] d false
    (fun s n => (maskOf ((lanesOf s.memb).filter fun k => s.seen a k == s.seen a n)).setWidth 64) s

/-! Scans and reductions (R70, R71, R148). -/

/-- A combining operation with the flags it raises. -/
abbrev Comb := W32 → W32 → W32 × Nat

/-- Combine the lower and the upper value; an absent one is skipped (R70, R71). -/
def combine (op : Comb) (lo hi : Option W32) : Option W32 × Nat :=
  match lo, hi with
  | none, y => (y, 0)
  | x, none => (x, 0)
  | some x, some y =>
    let r := op x y
    (some r.1, r.2)

/-- One step of the pairwise tree at distance `d` (R70). -/
def redStep (op : Comb) (v : List (Option W32)) (d : Nat) : List (Option W32) × Nat :=
  let r := (List.range 32).map fun n => if n % (2 * d) = 0 then combine op (v.getD n none) (v.getD (n + d) none) else (v.getD n none, 0)
  (r.map (·.1), (r.map (·.2)).foldl orF 0)

/-- One step of the scan network at distance `d`, reading the values before the step (R71). -/
def scanStep (op : Comb) (v : List (Option W32)) (d : Nat) : List (Option W32) × Nat :=
  let r := (List.range 32).map fun n => if d ≤ n then combine op (v.getD (n - d) none) (v.getD n none) else (v.getD n none, 0)
  (r.map (·.1), (r.map (·.2)).foldl orF 0)

/-- Run a network over distances 1, 2, 4, 8, 16, with the union of its flags. -/
def network (step : List (Option W32) → Nat → List (Option W32) × Nat) (v : List (Option W32)) : List (Option W32) × Nat :=
  [1, 2, 4, 8, 16].foldl (fun acc d => let r := step acc.1 d; (r.1, orF acc.2 r.2)) (v, 0)

/-- Values of the contributing lanes (R145). -/
def State.contrib (s : State) (a : RName) : List (Option W32) :=
  (List.range 32).map fun n => if s.memb.getLsbD n then some (s.cw.readV a.toNat n) else none

/-- Inputs of an exclusive scan: each contributing lane starts with the value of the next lower one (R71). -/
def shiftIn (v : List (Option W32)) : List (Option W32) :=
  (List.range 32).map fun n => if (v.getD n none).isSome then ((v.take n).filter Option.isSome).getLastD none else none

/-- SCAN, exclusive when `e` (R71, R148). -/
def scanWord (op : State → Comb) (ident : W32) (d a : RName) (e : Bool) (s : State) : Out :=
  issueFixed (dst32 d && vname a) []
    (fun s =>
      let v := s.contrib a
      let r := network (scanStep (op s)) (if e then shiftIn v else v)
      .done ((s.putLanes d false fun n => ((r.1.getD n none).getD ident).setWidth 64).mergeF r.2)) s

/-- RED: the one result in every lane of the set (R70, R148). -/
def redWord (op : State → Comb) (ident : W32) (d a : RName) (s : State) : Out :=
  issueFixed (dst32 d && vname a) []
    (fun s =>
      let r := network (redStep (op s)) (s.contrib a)
      .done ((s.putLanes d false fun _ => ((r.1.getD 0 none).getD ident).setWidth 64).mergeF r.2)) s

/-- An integer combining operation: no flag. -/
def combI (op : W32 → W32 → W32) : State → Comb := fun _ x y => (op x y, 0)
/-- FADD.F32 as a combining operation (R70). -/
def combAdd : State → Comb := fun s x y =>
  let r := addF false fmt32 s.rm s.ftz x.toNat y.toNat
  (BitVec.ofNat 32 r.1, r.2)
/-- FMIN.F32 or FMAX.F32 as a combining operation (R70). -/
def combMM (big : Bool) : State → Comb := fun s x y =>
  let r := minMaxF big fmt32 s.ftz x.toNat y.toNat
  (BitVec.ofNat 32 r.1, r.2)

/-- SCAN.ADD (R71, R148). -/
def execScanAdd (d a : RName) (e : Bool) (s : State) : Out := scanWord (combI (· + ·)) 0 d a e s

/-- SCAN.MIN.S32 (R71, R148). -/
def execScanMinS32 (d a : RName) (e : Bool) (s : State) : Out := scanWord (combI minS) 0x7FFFFFFF#32 d a e s

/-- SCAN.MIN.Z32 (R71, R148). -/
def execScanMinZ32 (d a : RName) (e : Bool) (s : State) : Out := scanWord (combI minZ) 0xFFFFFFFF#32 d a e s

/-- SCAN.MAX.S32 (R71, R148). -/
def execScanMaxS32 (d a : RName) (e : Bool) (s : State) : Out := scanWord (combI maxS) 0x80000000#32 d a e s

/-- SCAN.MAX.Z32 (R71, R148). -/
def execScanMaxZ32 (d a : RName) (e : Bool) (s : State) : Out := scanWord (combI maxZ) 0 d a e s

/-- SCAN.AND (R71, R148). -/
def execScanAnd (d a : RName) (e : Bool) (s : State) : Out := scanWord (combI (· &&& ·)) 0xFFFFFFFF#32 d a e s

/-- SCAN.OR (R71, R148). -/
def execScanOr (d a : RName) (e : Bool) (s : State) : Out := scanWord (combI (· ||| ·)) 0 d a e s

/-- SCAN.XOR (R71, R148). -/
def execScanXor (d a : RName) (e : Bool) (s : State) : Out := scanWord (combI (· ^^^ ·)) 0 d a e s

/-- SCAN.FADD.F32 (R71, R148). -/
def execScanFaddF32 (d a : RName) (e : Bool) (s : State) : Out := scanWord combAdd 0 d a e s

/-- SCAN.FMIN.F32 (R71, R148). -/
def execScanFminF32 (d a : RName) (e : Bool) (s : State) : Out := scanWord (combMM false) 0x7F800000#32 d a e s

/-- SCAN.FMAX.F32 (R71, R148). -/
def execScanFmaxF32 (d a : RName) (e : Bool) (s : State) : Out := scanWord (combMM true) 0xFF800000#32 d a e s

/-- RED.ADD (R70, R148). -/
def execRedAdd (d a : RName) (s : State) : Out := redWord (combI (· + ·)) 0 d a s

/-- RED.MIN.S32 (R70, R148). -/
def execRedMinS32 (d a : RName) (s : State) : Out := redWord (combI minS) 0x7FFFFFFF#32 d a s

/-- RED.MIN.Z32 (R70, R148). -/
def execRedMinZ32 (d a : RName) (s : State) : Out := redWord (combI minZ) 0xFFFFFFFF#32 d a s

/-- RED.MAX.S32 (R70, R148). -/
def execRedMaxS32 (d a : RName) (s : State) : Out := redWord (combI maxS) 0x80000000#32 d a s

/-- RED.MAX.Z32 (R70, R148). -/
def execRedMaxZ32 (d a : RName) (s : State) : Out := redWord (combI maxZ) 0 d a s

/-- RED.AND (R70, R148). -/
def execRedAnd (d a : RName) (s : State) : Out := redWord (combI (· &&& ·)) 0xFFFFFFFF#32 d a s

/-- RED.OR (R70, R148). -/
def execRedOr (d a : RName) (s : State) : Out := redWord (combI (· ||| ·)) 0 d a s

/-- RED.XOR (R70, R148). -/
def execRedXor (d a : RName) (s : State) : Out := redWord (combI (· ^^^ ·)) 0 d a s

/-- RED.FADD.F32 (R70, R148). -/
def execRedFaddF32 (d a : RName) (s : State) : Out := redWord combAdd 0 d a s

/-- RED.FMIN.F32 (R70, R148). -/
def execRedFminF32 (d a : RName) (s : State) : Out := redWord (combMM false) 0x7F800000#32 d a s

/-- RED.FMAX.F32 (R70, R148). -/
def execRedFmaxF32 (d a : RName) (s : State) : Out := redWord (combMM true) 0xFF800000#32 d a s

end Sys2Proof.Machine
end

