-- ==== Sys2Proof/Machine/Scalar.lean ====
section
/-! DEFINITION. Scalar integer, unary and immediate words: R78, R83, R85, R86. -/

namespace Sys2Proof.Machine

/-- SADD (R83). -/
def execSadd (d : RName) (a b : Src) (s : State) : Out :=
  sca2 (· + ·) d a b s

/-- SSUB (R83). -/
def execSsub (d : RName) (a b : Src) (s : State) : Out :=
  sca2 (· - ·) d a b s

/-- SMUL (R83). -/
def execSmul (d : RName) (a b : Src) (s : State) : Out :=
  sca2 (· * ·) d a b s

/-- SAND (R83). -/
def execSand (d : RName) (a b : Src) (s : State) : Out :=
  sca2 (· &&& ·) d a b s

/-- SOR (R83). -/
def execSor (d : RName) (a b : Src) (s : State) : Out :=
  sca2 (· ||| ·) d a b s

/-- SXOR (R83). -/
def execSxor (d : RName) (a b : Src) (s : State) : Out :=
  sca2 (· ^^^ ·) d a b s

/-- SSHL (R83). -/
def execSshl (d : RName) (a b : Src) (s : State) : Out :=
  sca2 shlOp d a b s

/-- SSHR fills with zeros (R83). -/
def execSshr (d : RName) (a b : Src) (s : State) : Out :=
  sca2 shrOp d a b s

/-- SCMP.EQ (R83). -/
def execScmpEq (d : RName) (a b : Src) (s : State) : Out :=
  sca2 (fun x y => ones (x == y)) d a b s

/-- SCMP.LT.S32 (R83). -/
def execScmpLtS32 (d : RName) (a b : Src) (s : State) : Out :=
  sca2 (fun x y => ones (x.slt y)) d a b s

/-- SCMP.LT.Z32 (R83). -/
def execScmpLtZ32 (d : RName) (a b : Src) (s : State) : Out :=
  sca2 (fun x y => ones (x.ult y)) d a b s

/-- SADDA: scalar pair and sign-extended 32-bit (R83). -/
def execSadda (d : RName) (a b : Src) (s : State) : Out :=
  issueFixed (sdst64 d && ssrc64 a && ssrc32 b) [a, b]
    (fun s => .done (s.putS64 d (s.src64 a 0 + (s.src32 b 0).signExtend 64))) s

/-- SMOV (R85). -/
def execSmov (d : RName) (a : Src) (s : State) : Out :=
  sca1 id d a s

/-- SMOV64 (R85). -/
def execSmov64 (d : RName) (a : Src) (s : State) : Out :=
  issueFixed (sdst64 d && ssrc64 a) [a] (fun s => .done (s.putS64 d (s.src64 a 0))) s

/-- SNOT (R85). -/
def execSnot (d : RName) (a : Src) (s : State) : Out :=
  sca1 (fun x => ~~~x) d a s

/-- SNEG, .SAT when `t` (R85). -/
def execSneg (d : RName) (a : Src) (t : Bool) (s : State) : Out :=
  sca1 (negOp t) d a s

/-- SABS.S32, .SAT when `t` (R85). -/
def execSabsS32 (d : RName) (a : Src) (t : Bool) (s : State) : Out :=
  sca1 (absOp t) d a s

/-- SPOPC (R85). -/
def execSpopc (d : RName) (a : Src) (s : State) : Out :=
  sca1 popcOp d a s

/-- SCLZ (R85). -/
def execSclz (d : RName) (a : Src) (s : State) : Out :=
  sca1 clzOp d a s

/-- SCTZ (R85). -/
def execSctz (d : RName) (a : Src) (s : State) : Out :=
  sca1 ctzOp d a s

/-- SBREV (R85). -/
def execSbrev (d : RName) (a : Src) (s : State) : Out :=
  sca1 brevOp d a s

/-- SBSWAP (R85). -/
def execSbswap (d : RName) (a : Src) (s : State) : Out :=
  sca1 bswapOp d a s

/-- SSEXT.S8 (R85). -/
def execSsextS8 (d : RName) (a : Src) (s : State) : Out :=
  sca1 sext8 d a s

/-- SSEXT.S16 (R85). -/
def execSsextS16 (d : RName) (a : Src) (s : State) : Out :=
  sca1 sext16 d a s

/-- SZEXT.Z8 (R85). -/
def execSzextZ8 (d : RName) (a : Src) (s : State) : Out :=
  sca1 zext8 d a s

/-- SZEXT.Z16 (R85). -/
def execSzextZ16 (d : RName) (a : Src) (s : State) : Out :=
  sca1 zext16 d a s

/-- SMOVI (R86). -/
def execSmovi (d : RName) (i : BitVec 18) (s : State) : Out :=
  issueFixed (sdst32 d) [] (fun s => .done (s.putS d (i.signExtend 32))) s

/-- SMOVHI: IMM into bits [31:14]; D is read (R86). -/
def execSmovhi (d : RName) (i : BitVec 18) (s : State) : Out :=
  issueFixed (sdst32 d) [] (fun s => .done (s.putS d (i ++ (s.readS d.toNat).setWidth 14 : W32))) s

end Sys2Proof.Machine
end

