-- ==== Sys2Proof/Machine/System.lean ====
section
/-! DEFINITION. System words: traps raised by a word, return from a trap, special registers, ISYNC and YIELD:
R23, R163 to R166, R169, R170, R374. -/

namespace Sys2Proof.Machine

/-- A word that raises a trap whose EPC is the next clause header (R164); in the skid the wave stops before
the word (R222). -/
def issueTrap (ok : Bool) (srcs : List Src) (code : Nat) (eaddr : State → W64) (s : State) : Out :=
  enter ok srcs s fun c =>
    let t : Trap := { code := code, epc := s.cp.pc + 4, eaddr := eaddr s, emask := s.memb, wave := s.cw.wix }
    if c.pos + 1 < c.len then .next s.illegal
    else if s.cg.phase = .halting then .next (s.trapP t)
    else .next ((s.past false).trapP t)

/-- TRAP: the software trap; EADDRL holds A[7:0] of the lowest lane (R164). -/
def execTrap (a : Src) (s : State) : Out :=
  issueTrap (src32 a) [a] 0x19 (fun s => BitVec.ofNat 64 ((s.src32 a (lowLane s.memb)).toNat % 256)) s

/-- BKPT: the breakpoint trap; EADDR holds the word's address (R164). -/
def execBkpt (s : State) : Out := issueTrap true [] 0x1A (fun s => s.cp.pc) s

/-- ERET, legal in handler mode only (R163, R165). -/
def execEret (s : State) : Out := issueControl s.inHandler [] (fun s => .done s.eretOp) s

/-- ERET.KILL: the group ends instead (R165, R226). -/
def execEretKill (s : State) : Out := issueControl s.inHandler [] (fun s => .done (s.endGroup s.cgid)) s

/-- SKID of the wave that SKIDSEL names (R23). -/
def State.skidOf (s : State) : Nat := (s.wave (waveKey s.cg.core (s.cg.slots.getD s.cg.skidsel 0))).skid

/-- A special register as it reads, when the wave may read it (R23, R374). -/
def State.special (s : State) (n : Nat) : Option W32 :=
  let g := s.cg
  let t := g.trap.getD {}
  let lrec := (s.launchOf g).lrec
  let hi := fun (v : W64) => (v >>> 32).setWidth 32
  let lo := fun (v : W64) => v.setWidth 32
  let h := s.inHandler
  match n with
  | 0x00 => some (BitVec.ofNat 32 (256 * dieOf s.cur.core + s.cur.core % 256))
  | 0x01 => some (BitVec.ofNat 32 g.ctx)
  | 0x02 => some (lo lrec)
  | 0x03 => some (hi lrec)
  | 0x04 => some (BitVec.ofNat 32 g.regs)
  | 0x05 => some (BitVec.ofNat 32 g.spsize)
  | 0x06 => some s.cw.mwtime
  | 0x20 => if h then some (BitVec.ofNat 32 (t.code + if t.redir then 256 else 0)) else none
  | 0x21 => if h then some (lo t.epc) else none
  | 0x22 => if h then some (hi t.epc) else none
  | 0x23 => if h then some (lo t.eaddr) else none
  | 0x24 => if h then some (hi t.eaddr) else none
  | 0x25 => if h then some (BitVec.ofNat 32 s.skidOf) else none
  | 0x26 => if h then some t.emask else none
  | 0x27 => if h then some (BitVec.ofNat 32 g.skidsel) else none
  | _ => none

/-- Write a special register: none where R23 forbids it. A write to EPCL, EPCH or EMASK sets REDIR (R374). -/
def State.setSpecial (s : State) (n : Nat) (v : W32) : Option State :=
  let h := s.inHandler
  let modT := fun (f : Trap → Trap) =>
    some (s.modCg fun g => { g with trap := g.trap.map fun t => { f t with redir := true, moved := true } })
  match n with
  | 0x06 => some (s.modCw fun w => { w with mwtime := v })
  | 0x21 => if h then modT fun t => { t with epc := (t.epc >>> 32).setWidth 32 ++ v } else none
  | 0x22 => if h then modT fun t => { t with epc := v ++ t.epc.setWidth 32 } else none
  | 0x26 => if h then modT fun t => { t with emask := v } else none
  | 0x27 => if h && v.toNat % 32 < s.cg.slots.length then some (s.modCg fun g => { g with skidsel := v.toNat % 32 }) else none
  | _ => none

/-- RDSR (R166). -/
def execRdsr (d : RName) (n : BitVec 7) (s : State) : Out :=
  issueFixed (sgen d && (s.special n.toNat).isSome) [] (fun s => .done (s.putS d ((s.special n.toNat).getD 0))) s

/-- WRSR (R166). -/
def execWrsr (n : BitVec 7) (a : Src) (s : State) : Out :=
  issueFixed (ssrc32 a && (s.setSpecial n.toNat (s.src32 a 0)).isSome) [a]
    (fun s => .done ((s.setSpecial n.toNat (s.src32 a 0)).getD s)) s

/-- ISYNC: the core's fetched words are dropped, so later words are fetched anew (R169). Every earlier word of
the wave has issued when it does. -/
def execIsync (s : State) : Out :=
  issueWaiting true [] false false (fun s =>
      .done (((s.modCore s.cur.core fun c => { c with icache := [] }).modCw fun w =>
        w.mapPaths (·.map fun p => { p with clause := p.clause.map fun c => { c with words := [] } })).past false)) s

/-- YIELD: last place in the wave's next choice, and nothing else (R170). -/
def execYield (s : State) : Out := issueFixed true [] (fun s => .done (s.modCp fun p => { p with yielded := true })) s

end Sys2Proof.Machine
end

