-- ==== Sys2Proof/Machine/Dispatch.lean ====
section
/-! DEFINITION. One arm for each constructor of Instr: the meaning it calls. -/

namespace Sys2Proof.Machine

def exec (i : Instr) (s : State) : Host.Outcome State Fault Refusal :=
  match i with
  | .clause w a b l n => Sys2Proof.Machine.execClause w a b l n s
  | .iadd d a b => Sys2Proof.Machine.execIadd d a b s
  | .isub d a b => Sys2Proof.Machine.execIsub d a b s
  | .imul d a b => Sys2Proof.Machine.execImul d a b s
  | .imulhS32 d a b => Sys2Proof.Machine.execImulhS32 d a b s
  | .imulhZ32 d a b => Sys2Proof.Machine.execImulhZ32 d a b s
  | .imad d a b => Sys2Proof.Machine.execImad d a b s
  | .iminS32 d a b => Sys2Proof.Machine.execIminS32 d a b s
  | .iminZ32 d a b => Sys2Proof.Machine.execIminZ32 d a b s
  | .imaxS32 d a b => Sys2Proof.Machine.execImaxS32 d a b s
  | .imaxZ32 d a b => Sys2Proof.Machine.execImaxZ32 d a b s
  | .andB d a b => Sys2Proof.Machine.execAndB d a b s
  | .orB d a b => Sys2Proof.Machine.execOrB d a b s
  | .xorB d a b => Sys2Proof.Machine.execXorB d a b s
  | .andn d a b => Sys2Proof.Machine.execAndn d a b s
  | .shl d a b => Sys2Proof.Machine.execShl d a b s
  | .shr d a b => Sys2Proof.Machine.execShr d a b s
  | .shra d a b => Sys2Proof.Machine.execShra d a b s
  | .rotl d a b => Sys2Proof.Machine.execRotl d a b s
  | .bfx d a b => Sys2Proof.Machine.execBfx d a b s
  | .bfi d a b => Sys2Proof.Machine.execBfi d a b s
  | .cmpEq d a b => Sys2Proof.Machine.execCmpEq d a b s
  | .cmpNe d a b => Sys2Proof.Machine.execCmpNe d a b s
  | .cmpLtS32 d a b => Sys2Proof.Machine.execCmpLtS32 d a b s
  | .cmpLtZ32 d a b => Sys2Proof.Machine.execCmpLtZ32 d a b s
  | .cmpLeS32 d a b => Sys2Proof.Machine.execCmpLeS32 d a b s
  | .cmpLeZ32 d a b => Sys2Proof.Machine.execCmpLeZ32 d a b s
  | .sel d a b => Sys2Proof.Machine.execSel d a b s
  | .iaddSatS32 d a b => Sys2Proof.Machine.execIaddSatS32 d a b s
  | .adda d a b => Sys2Proof.Machine.execAdda d a b s
  | .adda64 d a b => Sys2Proof.Machine.execAdda64 d a b s
  | .suba d a b => Sys2Proof.Machine.execSuba d a b s
  | .cmpaLt d a b => Sys2Proof.Machine.execCmpaLt d a b s
  | .faddF32 d a b => Sys2Proof.Machine.execFaddF32 d a b s
  | .faddF64 d a b => Sys2Proof.Machine.execFaddF64 d a b s
  | .faddF16 d a b => Sys2Proof.Machine.execFaddF16 d a b s
  | .faddBf16 d a b => Sys2Proof.Machine.execFaddBf16 d a b s
  | .fsubF32 d a b => Sys2Proof.Machine.execFsubF32 d a b s
  | .fsubF64 d a b => Sys2Proof.Machine.execFsubF64 d a b s
  | .fsubF16 d a b => Sys2Proof.Machine.execFsubF16 d a b s
  | .fsubBf16 d a b => Sys2Proof.Machine.execFsubBf16 d a b s
  | .fmulF32 d a b => Sys2Proof.Machine.execFmulF32 d a b s
  | .fmulF64 d a b => Sys2Proof.Machine.execFmulF64 d a b s
  | .fmulF16 d a b => Sys2Proof.Machine.execFmulF16 d a b s
  | .fmulBf16 d a b => Sys2Proof.Machine.execFmulBf16 d a b s
  | .ffmaF32 d a b => Sys2Proof.Machine.execFfmaF32 d a b s
  | .ffmaF64 d a b => Sys2Proof.Machine.execFfmaF64 d a b s
  | .ffmaF16 d a b => Sys2Proof.Machine.execFfmaF16 d a b s
  | .ffmaBf16 d a b => Sys2Proof.Machine.execFfmaBf16 d a b s
  | .ffmalF32 d a b => Sys2Proof.Machine.execFfmalF32 d a b s
  | .ffmalF64 d a b => Sys2Proof.Machine.execFfmalF64 d a b s
  | .ffmalF16 d a b => Sys2Proof.Machine.execFfmalF16 d a b s
  | .ffmalBf16 d a b => Sys2Proof.Machine.execFfmalBf16 d a b s
  | .fminF32 d a b => Sys2Proof.Machine.execFminF32 d a b s
  | .fminF64 d a b => Sys2Proof.Machine.execFminF64 d a b s
  | .fminF16 d a b => Sys2Proof.Machine.execFminF16 d a b s
  | .fminBf16 d a b => Sys2Proof.Machine.execFminBf16 d a b s
  | .fmaxF32 d a b => Sys2Proof.Machine.execFmaxF32 d a b s
  | .fmaxF64 d a b => Sys2Proof.Machine.execFmaxF64 d a b s
  | .fmaxF16 d a b => Sys2Proof.Machine.execFmaxF16 d a b s
  | .fmaxBf16 d a b => Sys2Proof.Machine.execFmaxBf16 d a b s
  | .sadd d a b => Sys2Proof.Machine.execSadd d a b s
  | .ssub d a b => Sys2Proof.Machine.execSsub d a b s
  | .smul d a b => Sys2Proof.Machine.execSmul d a b s
  | .sand d a b => Sys2Proof.Machine.execSand d a b s
  | .sor d a b => Sys2Proof.Machine.execSor d a b s
  | .sxor d a b => Sys2Proof.Machine.execSxor d a b s
  | .sshl d a b => Sys2Proof.Machine.execSshl d a b s
  | .sshr d a b => Sys2Proof.Machine.execSshr d a b s
  | .scmpEq d a b => Sys2Proof.Machine.execScmpEq d a b s
  | .scmpLtS32 d a b => Sys2Proof.Machine.execScmpLtS32 d a b s
  | .scmpLtZ32 d a b => Sys2Proof.Machine.execScmpLtZ32 d a b s
  | .sadda d a b => Sys2Proof.Machine.execSadda d a b s
  | .vldEq d a b o => Sys2Proof.Machine.execVldEq d a b o s
  | .vldLe d a b o => Sys2Proof.Machine.execVldLe d a b o s
  | .vst d a b o => Sys2Proof.Machine.execVst d a b o s
  | .vfloor a b => Sys2Proof.Machine.execVfloor a b s
  | .spld d a b => Sys2Proof.Machine.execSpld d a b s
  | .spst d a b => Sys2Proof.Machine.execSpst d a b s
  | .mov d a => Sys2Proof.Machine.execMov d a s
  | .mov64 d a => Sys2Proof.Machine.execMov64 d a s
  | .notB d a => Sys2Proof.Machine.execNotB d a s
  | .ineg d a sc => Sys2Proof.Machine.execIneg d a sc s
  | .iabsS32 d a sc => Sys2Proof.Machine.execIabsS32 d a sc s
  | .popc d a => Sys2Proof.Machine.execPopc d a s
  | .clz d a => Sys2Proof.Machine.execClz d a s
  | .ctz d a => Sys2Proof.Machine.execCtz d a s
  | .brev d a => Sys2Proof.Machine.execBrev d a s
  | .bswap d a => Sys2Proof.Machine.execBswap d a s
  | .sextS8 d a => Sys2Proof.Machine.execSextS8 d a s
  | .sextS16 d a => Sys2Proof.Machine.execSextS16 d a s
  | .zextZ8 d a => Sys2Proof.Machine.execZextZ8 d a s
  | .zextZ16 d a => Sys2Proof.Machine.execZextZ16 d a s
  | .fneg d a t => Sys2Proof.Machine.execFneg d a t s
  | .fabs d a t => Sys2Proof.Machine.execFabs d a t s
  | .fsqrt d a t => Sys2Proof.Machine.execFsqrt d a t s
  | .frcp d a t => Sys2Proof.Machine.execFrcp d a t s
  | .frsqrt d a t => Sys2Proof.Machine.execFrsqrt d a t s
  | .fexp2 d a t => Sys2Proof.Machine.execFexp2 d a t s
  | .flog2 d a t => Sys2Proof.Machine.execFlog2 d a t s
  | .fsinpi d a t => Sys2Proof.Machine.execFsinpi d a t s
  | .fcospi d a t => Sys2Proof.Machine.execFcospi d a t s
  | .ftanh d a t => Sys2Proof.Machine.execFtanh d a t s
  | .frint d a t => Sys2Proof.Machine.execFrint d a t s
  | .ftrunc d a t => Sys2Proof.Machine.execFtrunc d a t s
  | .ffloor d a t => Sys2Proof.Machine.execFfloor d a t s
  | .fceil d a t => Sys2Proof.Machine.execFceil d a t s
  | .smov d a => Sys2Proof.Machine.execSmov d a s
  | .smov64 d a => Sys2Proof.Machine.execSmov64 d a s
  | .snot d a => Sys2Proof.Machine.execSnot d a s
  | .sneg d a sc => Sys2Proof.Machine.execSneg d a sc s
  | .sabsS32 d a sc => Sys2Proof.Machine.execSabsS32 d a sc s
  | .spopc d a => Sys2Proof.Machine.execSpopc d a s
  | .sclz d a => Sys2Proof.Machine.execSclz d a s
  | .sctz d a => Sys2Proof.Machine.execSctz d a s
  | .sbrev d a => Sys2Proof.Machine.execSbrev d a s
  | .sbswap d a => Sys2Proof.Machine.execSbswap d a s
  | .ssextS8 d a => Sys2Proof.Machine.execSsextS8 d a s
  | .ssextS16 d a => Sys2Proof.Machine.execSsextS16 d a s
  | .szextZ8 d a => Sys2Proof.Machine.execSzextZ8 d a s
  | .szextZ16 d a => Sys2Proof.Machine.execSzextZ16 d a s
  | .cvtF64F32 d a => Sys2Proof.Machine.execCvtF64F32 d a s
  | .cvtF32F64 d a r => Sys2Proof.Machine.execCvtF32F64 d a r s
  | .cvtF32F16 d a => Sys2Proof.Machine.execCvtF32F16 d a s
  | .cvtF32Bf16 d a => Sys2Proof.Machine.execCvtF32Bf16 d a s
  | .cvtF16F32 d a r => Sys2Proof.Machine.execCvtF16F32 d a r s
  | .cvtBf16F32 d a r => Sys2Proof.Machine.execCvtBf16F32 d a r s
  | .cvtF32E4m3Lo d a => Sys2Proof.Machine.execCvtF32E4m3Lo d a s
  | .cvtF32E4m3Hi d a => Sys2Proof.Machine.execCvtF32E4m3Hi d a s
  | .cvtF32E5m2Lo d a => Sys2Proof.Machine.execCvtF32E5m2Lo d a s
  | .cvtF32E5m2Hi d a => Sys2Proof.Machine.execCvtF32E5m2Hi d a s
  | .cvtE4m3F32Lo d a r => Sys2Proof.Machine.execCvtE4m3F32Lo d a r s
  | .cvtE4m3F32Hi d a r => Sys2Proof.Machine.execCvtE4m3F32Hi d a r s
  | .cvtE4m3F32NsatLo d a r => Sys2Proof.Machine.execCvtE4m3F32NsatLo d a r s
  | .cvtE4m3F32NsatHi d a r => Sys2Proof.Machine.execCvtE4m3F32NsatHi d a r s
  | .cvtE5m2F32Lo d a r => Sys2Proof.Machine.execCvtE5m2F32Lo d a r s
  | .cvtE5m2F32Hi d a r => Sys2Proof.Machine.execCvtE5m2F32Hi d a r s
  | .cvtF32E5m3 d a => Sys2Proof.Machine.execCvtF32E5m3 d a s
  | .cvtE5m3F32 d a => Sys2Proof.Machine.execCvtE5m3F32 d a s
  | .cvtS32F32 d a r => Sys2Proof.Machine.execCvtS32F32 d a r s
  | .cvtZ32F32 d a r => Sys2Proof.Machine.execCvtZ32F32 d a r s
  | .cvtS64F32 d a r => Sys2Proof.Machine.execCvtS64F32 d a r s
  | .cvtZ64F32 d a r => Sys2Proof.Machine.execCvtZ64F32 d a r s
  | .cvtS32F64 d a r => Sys2Proof.Machine.execCvtS32F64 d a r s
  | .cvtZ32F64 d a r => Sys2Proof.Machine.execCvtZ32F64 d a r s
  | .cvtS64F64 d a r => Sys2Proof.Machine.execCvtS64F64 d a r s
  | .cvtZ64F64 d a r => Sys2Proof.Machine.execCvtZ64F64 d a r s
  | .cvtF32S32 d a r => Sys2Proof.Machine.execCvtF32S32 d a r s
  | .cvtF32Z32 d a r => Sys2Proof.Machine.execCvtF32Z32 d a r s
  | .cvtF32S64 d a r => Sys2Proof.Machine.execCvtF32S64 d a r s
  | .cvtF32Z64 d a r => Sys2Proof.Machine.execCvtF32Z64 d a r s
  | .cvtF64S32 d a => Sys2Proof.Machine.execCvtF64S32 d a s
  | .cvtF64Z32 d a => Sys2Proof.Machine.execCvtF64Z32 d a s
  | .cvtF64S64 d a r => Sys2Proof.Machine.execCvtF64S64 d a r s
  | .cvtF64Z64 d a r => Sys2Proof.Machine.execCvtF64Z64 d a r s
  | .qpack d a => Sys2Proof.Machine.execQpack d a s
  | .qunpk d a => Sys2Proof.Machine.execQunpk d a s
  | .fcmpEq d a t => Sys2Proof.Machine.execFcmpEq d a t s
  | .fcmpNe d a t => Sys2Proof.Machine.execFcmpNe d a t s
  | .fcmpLt d a t => Sys2Proof.Machine.execFcmpLt d a t s
  | .fcmpLe d a t => Sys2Proof.Machine.execFcmpLe d a t s
  | .fcmpUn d a t => Sys2Proof.Machine.execFcmpUn d a t s
  | .fclass d a t => Sys2Proof.Machine.execFclass d a t s
  | .xall d a => Sys2Proof.Machine.execXall d a s
  | .xany d a => Sys2Proof.Machine.execXany d a s
  | .xeq d a => Sys2Proof.Machine.execXeq d a s
  | .xbits d a => Sys2Proof.Machine.execXbits d a s
  | .xget d a => Sys2Proof.Machine.execXget d a s
  | .xspread d a => Sys2Proof.Machine.execXspread d a s
  | .xpermAbs d a => Sys2Proof.Machine.execXpermAbs d a s
  | .xpermLo d a w => Sys2Proof.Machine.execXpermLo d a w s
  | .xpermHi d a w => Sys2Proof.Machine.execXpermHi d a w s
  | .xpermFlip d a => Sys2Proof.Machine.execXpermFlip d a s
  | .xsame d a => Sys2Proof.Machine.execXsame d a s
  | .scanAdd d a e => Sys2Proof.Machine.execScanAdd d a e s
  | .scanMinS32 d a e => Sys2Proof.Machine.execScanMinS32 d a e s
  | .scanMinZ32 d a e => Sys2Proof.Machine.execScanMinZ32 d a e s
  | .scanMaxS32 d a e => Sys2Proof.Machine.execScanMaxS32 d a e s
  | .scanMaxZ32 d a e => Sys2Proof.Machine.execScanMaxZ32 d a e s
  | .scanAnd d a e => Sys2Proof.Machine.execScanAnd d a e s
  | .scanOr d a e => Sys2Proof.Machine.execScanOr d a e s
  | .scanXor d a e => Sys2Proof.Machine.execScanXor d a e s
  | .scanFaddF32 d a e => Sys2Proof.Machine.execScanFaddF32 d a e s
  | .scanFminF32 d a e => Sys2Proof.Machine.execScanFminF32 d a e s
  | .scanFmaxF32 d a e => Sys2Proof.Machine.execScanFmaxF32 d a e s
  | .redAdd d a => Sys2Proof.Machine.execRedAdd d a s
  | .redMinS32 d a => Sys2Proof.Machine.execRedMinS32 d a s
  | .redMinZ32 d a => Sys2Proof.Machine.execRedMinZ32 d a s
  | .redMaxS32 d a => Sys2Proof.Machine.execRedMaxS32 d a s
  | .redMaxZ32 d a => Sys2Proof.Machine.execRedMaxZ32 d a s
  | .redAnd d a => Sys2Proof.Machine.execRedAnd d a s
  | .redOr d a => Sys2Proof.Machine.execRedOr d a s
  | .redXor d a => Sys2Proof.Machine.execRedXor d a s
  | .redFaddF32 d a => Sys2Proof.Machine.execRedFaddF32 d a s
  | .redFminF32 d a => Sys2Proof.Machine.execRedFminF32 d a s
  | .redFmaxF32 d a => Sys2Proof.Machine.execRedFmaxF32 d a s
  | .spawn d a => Sys2Proof.Machine.execSpawn d a s
  | .spawnTry d a => Sys2Proof.Machine.execSpawnTry d a s
  | .join a => Sys2Proof.Machine.execJoin a s
  | .mon a => Sys2Proof.Machine.execMon a s
  | .mwait => Sys2Proof.Machine.execMwait s
  | .qinit q a => Sys2Proof.Machine.execQinit q a s
  | .qpush q a => Sys2Proof.Machine.execQpush q a s
  | .qpop d a => Sys2Proof.Machine.execQpop d a s
  | .qtry d a => Sys2Proof.Machine.execQtry d a s
  | .allow q a => Sys2Proof.Machine.execAllow q a s
  | .stagepush d a => Sys2Proof.Machine.execStagepush d a s
  | .amsg d a => Sys2Proof.Machine.execAmsg d a s
  | .mma b c im a => Sys2Proof.Machine.execMma b c im a s
  | .mzero c => Sys2Proof.Machine.execMzero c s
  | .obres n a => Sys2Proof.Machine.execObres n a s
  | .obrel n => Sys2Proof.Machine.execObrel n s
  | .obimp n a => Sys2Proof.Machine.execObimp n a s
  | .mdrainF32Sp a m c => Sys2Proof.Machine.execMdrainF32Sp a m c s
  | .mdrainBf16Sp a m c => Sys2Proof.Machine.execMdrainBf16Sp a m c s
  | .mdrainE4m3Sp a m c => Sys2Proof.Machine.execMdrainE4m3Sp a m c s
  | .mdrainE5m2Sp a m c => Sys2Proof.Machine.execMdrainE5m2Sp a m c s
  | .mdrainF32 d a m c => Sys2Proof.Machine.execMdrainF32 d a m c s
  | .mdrainBf16 d a m c => Sys2Proof.Machine.execMdrainBf16 d a m c s
  | .mtake => Sys2Proof.Machine.execMtake s
  | .mpass => Sys2Proof.Machine.execMpass s
  | .cpy d a k => Sys2Proof.Machine.execCpy d a k s
  | .cpym d a k => Sys2Proof.Machine.execCpym d a k s
  | .gath d a k => Sys2Proof.Machine.execGath d a k s
  | .xred d a k => Sys2Proof.Machine.execXred d a k s
  | .tagwaitAny a => Sys2Proof.Machine.execTagwaitAny a s
  | .tagwaitAll a => Sys2Proof.Machine.execTagwaitAll a s
  | .tagff d a => Sys2Proof.Machine.execTagff d a s
  | .fence sc o => Sys2Proof.Machine.execFence sc o s
  | .fencex p q sc => Sys2Proof.Machine.execFencex p q sc s
  | .prefL1 a h x => Sys2Proof.Machine.execPrefL1 a h x s
  | .prefLlc a h x => Sys2Proof.Machine.execPrefLlc a h x s
  | .prefDemote a x => Sys2Proof.Machine.execPrefDemote a x s
  | .cld d a => Sys2Proof.Machine.execCld d a s
  | .trap a => Sys2Proof.Machine.execTrap a s
  | .bkpt => Sys2Proof.Machine.execBkpt s
  | .eret => Sys2Proof.Machine.execEret s
  | .eretKill => Sys2Proof.Machine.execEretKill s
  | .rdsr d n => Sys2Proof.Machine.execRdsr d n s
  | .wrsr n a => Sys2Proof.Machine.execWrsr n a s
  | .gsave a => Sys2Proof.Machine.execGsave a s
  | .grest a => Sys2Proof.Machine.execGrest a s
  | .isync => Sys2Proof.Machine.execIsync s
  | .yield => Sys2Proof.Machine.execYield s
  | .ldS8 t b o r sc h => Sys2Proof.Machine.execLdS8 t b o r sc h s
  | .ldZ8 t b o r sc h => Sys2Proof.Machine.execLdZ8 t b o r sc h s
  | .ldS16 t b o r sc h => Sys2Proof.Machine.execLdS16 t b o r sc h s
  | .ldZ16 t b o r sc h => Sys2Proof.Machine.execLdZ16 t b o r sc h s
  | .ldS32 t b o r sc h => Sys2Proof.Machine.execLdS32 t b o r sc h s
  | .ld64 t b o r sc h => Sys2Proof.Machine.execLd64 t b o r sc h s
  | .st8 t b o r sc h => Sys2Proof.Machine.execSt8 t b o r sc h s
  | .st16 t b o r sc h => Sys2Proof.Machine.execSt16 t b o r sc h s
  | .st32 t b o r sc h => Sys2Proof.Machine.execSt32 t b o r sc h s
  | .st64 t b o r sc h => Sys2Proof.Machine.execSt64 t b o r sc h s
  | .sld32 t b o r sc h => Sys2Proof.Machine.execSld32 t b o r sc h s
  | .sld64 t b o r sc h => Sys2Proof.Machine.execSld64 t b o r sc h s
  | .sst32 t b o r sc h => Sys2Proof.Machine.execSst32 t b o r sc h s
  | .sst64 t b o r sc h => Sys2Proof.Machine.execSst64 t b o r sc h s
  | .atomAdd32 t b r sc h => Sys2Proof.Machine.execAtomAdd32 t b r sc h s
  | .atomMinS32 t b r sc h => Sys2Proof.Machine.execAtomMinS32 t b r sc h s
  | .atomMinZ32 t b r sc h => Sys2Proof.Machine.execAtomMinZ32 t b r sc h s
  | .atomMaxS32 t b r sc h => Sys2Proof.Machine.execAtomMaxS32 t b r sc h s
  | .atomMaxZ32 t b r sc h => Sys2Proof.Machine.execAtomMaxZ32 t b r sc h s
  | .atomAnd32 t b r sc h => Sys2Proof.Machine.execAtomAnd32 t b r sc h s
  | .atomOr32 t b r sc h => Sys2Proof.Machine.execAtomOr32 t b r sc h s
  | .atomXor32 t b r sc h => Sys2Proof.Machine.execAtomXor32 t b r sc h s
  | .atomSwap32 t b r sc h => Sys2Proof.Machine.execAtomSwap32 t b r sc h s
  | .atomCas32 t b r sc h => Sys2Proof.Machine.execAtomCas32 t b r sc h s
  | .atomAdd64 t b r sc h => Sys2Proof.Machine.execAtomAdd64 t b r sc h s
  | .atomMinS64 t b r sc h => Sys2Proof.Machine.execAtomMinS64 t b r sc h s
  | .atomMinZ64 t b r sc h => Sys2Proof.Machine.execAtomMinZ64 t b r sc h s
  | .atomMaxS64 t b r sc h => Sys2Proof.Machine.execAtomMaxS64 t b r sc h s
  | .atomMaxZ64 t b r sc h => Sys2Proof.Machine.execAtomMaxZ64 t b r sc h s
  | .atomAnd64 t b r sc h => Sys2Proof.Machine.execAtomAnd64 t b r sc h s
  | .atomOr64 t b r sc h => Sys2Proof.Machine.execAtomOr64 t b r sc h s
  | .atomXor64 t b r sc h => Sys2Proof.Machine.execAtomXor64 t b r sc h s
  | .atomSwap64 t b r sc h => Sys2Proof.Machine.execAtomSwap64 t b r sc h s
  | .atomCas64 t b r sc h => Sys2Proof.Machine.execAtomCas64 t b r sc h s
  | .movi d im => Sys2Proof.Machine.execMovi d im s
  | .movhi d im => Sys2Proof.Machine.execMovhi d im s
  | .smovi d im => Sys2Proof.Machine.execSmovi d im s
  | .smovhi d im => Sys2Proof.Machine.execSmovhi d im s
  | .wbase im => Sys2Proof.Machine.execWbase im s
  | .cbase im => Sys2Proof.Machine.execCbase im s
  | .bar k n => Sys2Proof.Machine.execBar k n s
  | .rcv sc b => Sys2Proof.Machine.execRcv sc b s
  | .bnz c o => Sys2Proof.Machine.execBnz c o s
  | .bra o => Sys2Proof.Machine.execBra o s
  | .bz c o => Sys2Proof.Machine.execBz c o s
  | .call c o => Sys2Proof.Machine.execCall c o s
  | .jmpi c => Sys2Proof.Machine.execJmpi c s
  | .calli c => Sys2Proof.Machine.execCalli c s
  | .ret c => Sys2Proof.Machine.execRet c s
  | .exit c => Sys2Proof.Machine.execExit c s
  | .longLatencyComplete id => Sys2Proof.Machine.execLongLatencyComplete id s
  | .storeAcknowledge id lane => Sys2Proof.Machine.execStoreAcknowledge id lane s
  | .orderingPointAccess id lane => Sys2Proof.Machine.execOrderingPointAccess id lane s
  | .leaseRequest id lane => Sys2Proof.Machine.execLeaseRequest id lane s
  | .leaseRecall core line => Sys2Proof.Machine.execLeaseRecall core line s
  | .readHoldExpiry die line => Sys2Proof.Machine.execReadHoldExpiry die line s
  | .rds k => Sys2Proof.Machine.execRds k s
  | .rdx k => Sys2Proof.Machine.execRdx k s
  | .fwd k => Sys2Proof.Machine.execFwd k s
  | .inv k => Sys2Proof.Machine.execInv k s
  | .ack k => Sys2Proof.Machine.execAck k s
  | .data k => Sys2Proof.Machine.execData k s
  | .grant k => Sys2Proof.Machine.execGrant k s
  | .binv k => Sys2Proof.Machine.execBinv k s
  | .wb k => Sys2Proof.Machine.execWb k s
  | .pageWalk core page => Sys2Proof.Machine.execPageWalk core page s
  | .pageWalkTimeout core slot lane => Sys2Proof.Machine.execPageWalkTimeout core slot lane s
  | .frespResolve die rec => Sys2Proof.Machine.execFrespResolve die rec s
  | .frespRefuse die rec => Sys2Proof.Machine.execFrespRefuse die rec s
  | .vldEqAtSlice id lane => Sys2Proof.Machine.execVldEqAtSlice id lane s
  | .vldLeAtSlice id lane => Sys2Proof.Machine.execVldLeAtSlice id lane s
  | .vstAtSlice id lane => Sys2Proof.Machine.execVstAtSlice id lane s
  | .versionWaitTimeout id lane => Sys2Proof.Machine.execVersionWaitTimeout id lane s
  | .vldReturnRetry id lane => Sys2Proof.Machine.execVldReturnRetry id lane s
  | .vfloorApply id place => Sys2Proof.Machine.execVfloorApply id place s
  | .mwaitWake core slot lane => Sys2Proof.Machine.execMwaitWake core slot lane s
  | .joinZero core slot lane => Sys2Proof.Machine.execJoinZero core slot lane s
  | .tagwaitSatisfied core slot lane => Sys2Proof.Machine.execTagwaitSatisfied core slot lane s
  | .queueWordPerform core slot lane => Sys2Proof.Machine.execQueueWordPerform core slot lane s
  | .ringSpaceResume core slot lane => Sys2Proof.Machine.execRingSpaceResume core slot lane s
  | .monitorTimeout core slot lane => Sys2Proof.Machine.execMonitorTimeout core slot lane s
  | .waveHaltStop core slot => Sys2Proof.Machine.execWaveHaltStop core slot s
  | .handlerEntry gid => Sys2Proof.Machine.execHandlerEntry gid s
  | .groupRetire gid => Sys2Proof.Machine.execGroupRetire gid s
  | .groupEnd gid => Sys2Proof.Machine.execGroupEnd gid s
  | .engineEntryStart core cls => Sys2Proof.Machine.execEngineEntryStart core cls s
  | .engineBeat core cls seq beat => Sys2Proof.Machine.execEngineBeat core cls seq beat s
  | .engineCommandComplete core cls seq => Sys2Proof.Machine.execEngineCommandComplete core cls seq s
  | .xredElement core seq elem => Sys2Proof.Machine.execXredElement core seq elem s
  | .reductionContribution die tree k => Sys2Proof.Machine.execReductionContribution die tree k s
  | .reductionUnitTimeout die tree router => Sys2Proof.Machine.execReductionUnitTimeout die tree router s
  | .followOnIssue core => Sys2Proof.Machine.execFollowOnIssue core s
  | .mmaStart core => Sys2Proof.Machine.execMmaStart core s
  | .mmaCheck core pass => Sys2Proof.Machine.execMmaCheck core pass s
  | .drainPortOperation core id => Sys2Proof.Machine.execDrainPortOperation core id s
  | .binWindowExpiry core k => Sys2Proof.Machine.execBinWindowExpiry core k s
  | .binAdmit core k => Sys2Proof.Machine.execBinAdmit core k s
  | .dispatchDecision die => Sys2Proof.Machine.execDispatchDecision die s
  | .coreContextPass core ctx => Sys2Proof.Machine.execCoreContextPass core ctx s
  | .spawnDeadlockEviction die ctx => Sys2Proof.Machine.execSpawnDeadlockEviction die ctx s
  | .amsgDelivery die => Sys2Proof.Machine.execAmsgDelivery die s
  | .stageGovernorTick die => Sys2Proof.Machine.execStageGovernorTick die s
  | .stagePartialTake die key stage => Sys2Proof.Machine.execStagePartialTake die key stage s
  | .wridx die q size val => Sys2Proof.Machine.execWridx die q size val s
  | .queueDescriptorWrite die off val => Sys2Proof.Machine.execQueueDescriptorWrite die off val s
  | .mapperSlotFill die => Sys2Proof.Machine.execMapperSlotFill die s
  | .queuePriorityAge die q => Sys2Proof.Machine.execQueuePriorityAge die q s
  | .idleQuantumExpiry die q => Sys2Proof.Machine.execIdleQuantumExpiry die q s
  | .launch die q => Sys2Proof.Machine.execLaunch die q s
  | .jobCard die q => Sys2Proof.Machine.execJobCard die q s
  | .pipeline die q => Sys2Proof.Machine.execPipeline die q s
  | .waitOnWord die q => Sys2Proof.Machine.execWaitOnWord die q s
  | .signal die q => Sys2Proof.Machine.execSignal die q s
  | .pad die q => Sys2Proof.Machine.execPad die q s
  | .launchTranslation die key => Sys2Proof.Machine.execLaunchTranslation die key s
  | .regionArming die key => Sys2Proof.Machine.execRegionArming die key s
  | .launchComplete die key => Sys2Proof.Machine.execLaunchComplete die key s
  | .waitOnWordRecheck die q => Sys2Proof.Machine.execWaitOnWordRecheck die q s
  | .waitOnWordTimeout die q => Sys2Proof.Machine.execWaitOnWordTimeout die q s
  | .cardReady die key => Sys2Proof.Machine.execCardReady die key s
  | .cardComplete die key => Sys2Proof.Machine.execCardComplete die key s
  | .pageClassCommand die val => Sys2Proof.Machine.execPageClassCommand die val s
  | .invalidationCommand die val => Sys2Proof.Machine.execInvalidationCommand die val s
  | .regionDisarm die val => Sys2Proof.Machine.execRegionDisarm die val s
  | .heapGrant die ctx val => Sys2Proof.Machine.execHeapGrant die ctx val s
  | .pageZero die val => Sys2Proof.Machine.execPageZero die val s
  | .keyLoad die val => Sys2Proof.Machine.execKeyLoad die val s
  | .keyErase die val => Sys2Proof.Machine.execKeyErase die val s
  | .contextRecordWrite die off val => Sys2Proof.Machine.execContextRecordWrite die off val s
  | .preemptDrain die ctx => Sys2Proof.Machine.execPreemptDrain die ctx s
  | .preemptSave die ctx => Sys2Proof.Machine.execPreemptSave die ctx s
  | .contextResume die ctx => Sys2Proof.Machine.execContextResume die ctx s
  | .contextReset die ctx => Sys2Proof.Machine.execContextReset die ctx s
  | .preemptDeadlineExpiry die ctx => Sys2Proof.Machine.execPreemptDeadlineExpiry die ctx s
  | .plateWatchdogExpiry plate => Sys2Proof.Machine.execPlateWatchdogExpiry plate s
  | .platePortError plate => Sys2Proof.Machine.execPlatePortError plate s
  | .thermalTrip plate => Sys2Proof.Machine.execThermalTrip plate s
  | .plateDeclareLost plate => Sys2Proof.Machine.execPlateDeclareLost plate s
  | .plateResetReturn plate pass => Sys2Proof.Machine.execPlateResetReturn plate pass s
  | .sliceRetireNow die slice => Sys2Proof.Machine.execSliceRetireNow die slice s
  | .bucketHandover die => Sys2Proof.Machine.execBucketHandover die s
  | .treeEnable die tree val => Sys2Proof.Machine.execTreeEnable die tree val s
  | .fedBarrierArrival die k ctx n => Sys2Proof.Machine.execFedBarrierArrival die k ctx n s
  | .fedAnnounce die key => Sys2Proof.Machine.execFedAnnounce die key s
  | .controlRegisterWrite die off size val => Sys2Proof.Machine.execControlRegisterWrite die off size val s
  | .scrub die array index => Sys2Proof.Machine.execScrub die array index s
  | .uncorrectableError die array index => Sys2Proof.Machine.execUncorrectableError die array index s
  | .meshFlitRetry die => Sys2Proof.Machine.execMeshFlitRetry die s
  | .meshLinkDown die router dir => Sys2Proof.Machine.execMeshLinkDown die router dir s
  | .d2dPacket src dst seq => Sys2Proof.Machine.execD2dPacket src dst seq s
  | .linkRetrain src dst => Sys2Proof.Machine.execLinkRetrain src dst s
  | .linkDown src dst => Sys2Proof.Machine.execLinkDown src dst s
  | .crossDieTimeout id => Sys2Proof.Machine.execCrossDieTimeout id s
  | .hostBar4Read die addr size => Sys2Proof.Machine.execHostBar4Read die addr size s
  | .hostPostedWrite die addr size val => Sys2Proof.Machine.execHostPostedWrite die addr size val s
  | .hostAtomicop die addr size op val cmp => Sys2Proof.Machine.execHostAtomicop die addr size op val cmp s
  | .hostCompletion id good => Sys2Proof.Machine.execHostCompletion id good s
  | .fabricPacket port flits => Sys2Proof.Machine.execFabricPacket port flits s
  | .wavelengthPark port => Sys2Proof.Machine.execWavelengthPark port s
  | .wavelengthRelock port => Sys2Proof.Machine.execWavelengthRelock port s
  | .wavelengthCrcFail port wave => Sys2Proof.Machine.execWavelengthCrcFail port wave s
  | .getStatus => Sys2Proof.Machine.execGetStatus s
  | .readPower die => Sys2Proof.Machine.execReadPower die s
  | .readLog die which index => Sys2Proof.Machine.execReadLog die which index s
  | .resetDie die => Sys2Proof.Machine.execResetDie die s
  | .fetchCrashRecord die => Sys2Proof.Machine.execFetchCrashRecord die s
  | .enterDebugHalt die => Sys2Proof.Machine.execEnterDebugHalt die s
  | .leaveDebugHalt die => Sys2Proof.Machine.execLeaveDebugHalt die s
  | .getVersion die => Sys2Proof.Machine.execGetVersion die s
  | .getCapabilities die => Sys2Proof.Machine.execGetCapabilities die s
  | .negotiateAlgorithms die => Sys2Proof.Machine.execNegotiateAlgorithms die s
  | .getDigests die => Sys2Proof.Machine.execGetDigests die s
  | .getCertificate die => Sys2Proof.Machine.execGetCertificate die s
  | .challenge die nonce => Sys2Proof.Machine.execChallenge die nonce s
  | .getMeasurements die index => Sys2Proof.Machine.execGetMeasurements die index s
  | .moduleReset => Sys2Proof.Machine.execModuleReset s
  | .imageCheck die rsa slh version hash => Sys2Proof.Machine.execImageCheck die rsa slh version hash s
  | .memoryTraining die gib => Sys2Proof.Machine.execMemoryTraining die gib s
  | .plateSelfTest die failed => Sys2Proof.Machine.execPlateSelfTest die failed s
  | .regulatorSample die power => Sys2Proof.Machine.execRegulatorSample die power s
  | .watchRecord core slot lane => Sys2Proof.Machine.execWatchRecord core slot lane s
  | .fhead die val => Sys2Proof.Machine.execFhead die val s
  | .faultDeliveryEnable die val => Sys2Proof.Machine.execFaultDeliveryEnable die val s
  | .fedBarrierEn die k val => Sys2Proof.Machine.execFedBarrierEn die k val s

end Sys2Proof.Machine
end

