-- ==== Sys2Proof/Machine/Issue.lean ====
section
/-! DEFINITION. Issue of one word by a pipe of a core: the choice of the wave (R361), of the path (R216), the
fetch of its word (R169, R214) and the word's meaning (R44 for a word that is no instruction). -/

namespace Sys2Proof.Machine

/-- Slots of a pipe whose wave can issue now (R215, R361). -/
def State.pipeSlots (s : State) (core pipe : Nat) : List Nat :=
  ((List.range 16).map fun i => 4 * i + pipe % 4).filter fun sl => s.mayIssue core sl && s.waveReady core sl

/-- The wave whose last issue is the oldest, ties going to the lower slot (R361). -/
def State.oldest (s : State) (core : Nat) : List Nat → Option Nat
  | [] => none
  | a :: r =>
    match s.oldest core r with
    | none => some a
    | some b => if (s.wave (waveKey core a)).lastIssue ≤ (s.wave (waveKey core b)).lastIssue then some a else some b

/-- The path of a wave that issues: among ready paths of age 64 or more the oldest, ties going to the lowest
lane; otherwise any ready path, one that issued YIELD only when no other is ready (R216). `pick` is the free
choice. -/
def choosePath (ready : List Path) (pick : Nat) : Option Path :=
  let old := ready.filter fun p => 64 ≤ p.age
  match old with
  | p :: r => some (r.foldl (fun b q => if b.age < q.age ∨ (b.age = q.age ∧ lowLane q.lanes < lowLane b.lanes) then q else b) p)
  | [] =>
    let eager := ready.filter fun p => !p.yielded
    let set := if eager.isEmpty then ready else eager
    set[pick % set.length]?

/-- Ages after a choice (R216), the chosen path in front. Every choice is an issue opportunity, whether it ends in a word, a header, a fetch
that parks or the search for a place (log 122). -/
def Wave.choose (w : Wave) (isReady : Path → Bool) (p : Path) : Wave :=
  { w with
    paths := { p with age := 0, yielded := false } ::
      ((w.paths.filter (· != p)).map fun q => if isReady q then { q with age := min 255 (q.age + 1) } else q) }

/-- The word at which the issuing path stands: the header at its PC, fetched before or now as the free choice
says when the two differ (R169), or the next word of its clause. -/
def State.nextWord (s : State) : Fetched × State :=
  match s.cp.clause with
  | some c => (s.clauseWord s.cur.core s.cg s.cp c, s)
  | none =>
    let now := s.fetchNew s.cur.core s.cg s.cp.pc.toNat
    match s.cc.icache.get s.cp.pc.toNat [] with
    | [] => (now, s)
    | h :: _ =>
      if now = .word h.toNat then (now, s)
      else
        let p := s.choose
        (if p.1 % 2 = 1 then .word h.toNat else now, p.2)

/-- The issuing path stands at an address that it did not reach in sequence: its place in a clause is found, or the code page that
hides it is waited for like any fetch (R34, R214). -/
def State.findPlace (s : State) : State :=
  match s.spot s.cur.core s.cg s.cp.pc.toNat with
  | .inside c => s.modCp fun p => { p with clause := some c, seek := false }
  | .outside => s.modCp fun p => { p with seek := false }
  | .stuck r va => s.fetchFail r va

/-- Whether a word is a .F64 arithmetic word, which occupies its pipe for 4 ac (R361). -/
def wordF64 (w : Nat) : Bool :=
  let mop := field w 25 7
  (0x20 ≤ mop && mop < 0x3C && mop % 4 == 1) || (mop == 0x4E && 0x20 ≤ field w 4 7 && field w 4 7 < 0x40 && field w 2 2 == 1)

/-- GREST stands as 0x55 with FN 6 (R39). -/
def wordGrest (w : Nat) : Bool := field w 25 7 == 0x55 && field w 4 7 == 6

/-- A wave of a context issues: the deadlock condition of R310 does not hold without a break. -/
def State.breakStall (s : State) (core ctx : Nat) : State :=
  s.modDie (dieOf core) fun x => { x with stall := if x.stall.get ctx 0 = 1003 then x.stall else x.stall.del ctx }

/-- The chosen path of a slot becomes the issuing path; its group runs (R226, R361). -/
def State.select (s : State) (core slot : Nat) (p : Path) : State :=
  let key := waveKey core slot
  let stamp := (s.core core).stamp + 1
  let s1 := { s with cur := { core := core, slot := slot } }
  let s2 := s1.modWave key fun w => { w.choose (fun q => s.pathReady core slot q) p with lastIssue := stamp }
  let s3 := (s2.modCore core fun c => { c with stamp := stamp }).breakStall core s2.cg.ctx
  s3.modCg fun g => if g.phase = .admitted then { g with phase := .running } else g

/-- What a fetched word does to the places of the pipe and the group; a handler's words are none of the group's first words (R168). -/
def State.noteWord (s : State) (w : Nat) : State :=
  let s1 := if isHeader w || wordGrest w then s else s.modCg fun g => if g.phase = .handler then g else { g with fresh := false }
  if wordF64 w then s1.modCore s.cur.core fun c => { c with f64Busy := c.f64Busy.set (s.cur.slot % 4) 4 } else s1

/-- A fetched word has its meaning; one that decodes to nothing is illegal (R44); an obstacle parks or traps
(R214). -/
noncomputable def State.runWord (s : State) (f : Fetched) : Out :=
  match f with
  | .word w =>
    match decodeNat w with
    | some i => exec i (s.noteWord w)
    | none => .next (s.noteWord w).illegal
  | r => .next (s.fetchFail r s.cp.pc.toNat)

/-- One issue opportunity of a pipe of a core (R216, R361). Nothing happens when the pipe is occupied or has no
ready wave. -/
noncomputable def State.issue (s : State) (core pipe pick : Nat) : Out :=
  if 256 ≤ core ∨ (s.core core).f64Busy.get (pipe % 4) 0 ≠ 0 then .next s
  else
    match s.oldest core (s.pipeSlots core pipe) with
    | none => .next s
    | some slot =>
      let ready := (s.wave (waveKey core slot)).paths.filter fun p => s.pathReady core slot p
      match choosePath ready pick with
      | none => .next s
      | some p =>
        let t := s.select core slot p
        if p.seek then .next t.findPlace
        else
          let f := t.nextWord
          f.2.runWord f.1

end Sys2Proof.Machine
end

