-- ==== Sys2Proof/Machine/Time.lean ====
section
/-! DEFINITION. Time passes, and cached copies leave their places: R2, R125, R138, R169, R222, R240, R247, R252, R255, R301,
R310, R340, R344, R354, R355, R361, R381, R386, R404, R421, R422, R424, R427, R428. -/

namespace Sys2Proof.Machine

/-- A count that runs down to 1; 0 is no count. -/
def toOne (left rc : Nat) : Nat := if left = 0 then 0 else max 1 (left - rc)

/-! Waves (R222, R247, R381). -/

/-- One path: time-outs of waiting words when `run`; walks always, since a debug halt freezes no walk (R247, R255, R424). -/
def Path.pass (rc : Nat) (run : Bool) (p : Path) : Path :=
  match p.status with
  | .wait k pend left => if run then { p with status := .wait k pend (toOne left rc) } else p
  | .walk va left => { p with status := .walk va (left - rc) }
  | _ => p

/-- A wave: MWTIME stops while the group is halted, but for its handler's own words, and in debug halt (R223, R381, R424). -/
def Wave.pass (rc ac : Nat) (phase : GPhase) (dbg : Bool) (w : Wave) : Wave :=
  let run := !dbg && (phase == .running || (phase == .handler && w.saved.isSome))
  { w with
    skidAc := w.skidAc - ac
    paths := w.paths.map (Path.pass rc run)
    saved := w.saved.map fun v => { v with paths := v.paths.map (Path.pass rc false) } }

/-! Requests of agents (R247, R255, R422, R424). -/

/-- Whether a die is in debug halt; the host and other packages are not. -/
def State.frozen (s : State) (pa : Nat) : Bool := pa < hostBase && (s.die (pa / 2 ^ 48)).dbg

/-- What remains of a wait of an agent of a die: the 100 µs of a walk always run; the time-out of a request stands still while the die
that sent it or the die it goes to is in debug halt (R247, R255, R422, R424). -/
def State.waitPass (s : State) (rc d left : Nat) (far : Option Nat) : Nat :=
  match far with
  | none => toOne left rc
  | some pa => if (s.die d).dbg || s.frozen pa then left else toOne left rc

/-! Cores (R247, R301, R361). -/

/-- A chain's entries and completion word that wait for a walk or for an answer from elsewhere, and, outside debug halt, the beats towards
the core's plate that wait at its port (R365, R424). -/
def State.chainPass (s : State) (rc d : Nat) (h : Chain) : Chain :=
  { h with
    wleft := s.waitPass rc d h.wleft h.wfar
    entries := h.entries.map fun (e : Entry) =>
      { e with
        wleft := s.waitPass rc d e.wleft e.wfar
        port := if e.waitsPort && !(s.die d).dbg then e.port + rc else e.port } }

/-- A gathering window: a bin closes as its 512 ac end, behind a thread that arrives in that very ac (R301). -/
def Bin.pass (ac : Nat) (b : Bin) : Bin := { b with left := b.left - ac, ended := b.left < ac || b.ended }

/-- A core: gathering windows and occupied pipes, what its engines and its drain wait for, and the time that lease grants wait at the
port (R247, R301, R361, R365, R424). -/
def State.corePass (s : State) (rc ac k : Nat) (c : Core) : Core :=
  let d := dieOf k
  { c with
    acOrder := if ac = 0 then c.acOrder else []
    bins := c.bins.map (Bin.pass ac)
    grants := if (s.die d).dbg then c.grants else c.grants.map fun (e : Nat × Nat) => (e.1, e.2 + rc)
    f64Busy := c.f64Busy.map fun (p : Nat × Nat) => (p.1, p.2 - ac)
    copy := s.chainPass rc d c.copy, gath := s.chainPass rc d c.gath, coll := s.chainPass rc d c.coll
    mchain := c.mchain.map fun (o : MxOp) => { o with wleft := toOne o.wleft rc } }

/-- A group whose join decrements wait (R247, R422). -/
def State.groupPass (s : State) (rc : Nat) (g : Group) : Group := { g with wleft := s.waitPass rc (dieOf g.core) g.wleft g.wfar }

/-! Memory words (R138, R255, R294, R422, R424). -/

/-- One access of a word: its cross-die time-out while a reply is awaited, its wait for a version, which runs on from its first arrival,
the walk of a reissued one, its time at its core before it is sent again, and the time that its reply waits at the port of the core's
plate (R138, R255, R294, R365, R384, R422). -/
def State.accPass (s : State) (rc : Nat) (o : MemOp) (a : Acc) : Acc :=
  let still := (s.die (dieOf o.core)).dbg || s.frozen a.pa
  { a with
    back := a.back - rc
    walk := toOne a.walk rc
    cross := if o.awaits a && !still then toOne a.cross rc else a.cross
    port := if o.waitsPort a && !(s.die (dieOf o.core)).dbg then a.port + rc else a.port
    left := if (a.st = .waitVer ∨ a.st = .back ∨ a.st = .pend) ∧ !still then toOne a.left rc else a.left }

/-- A word: its accesses, the requests of a VFLOOR to other dies, and the zero-length read of a release at .HOST, which is sent once the
stores before it are acknowledged (R415, R422). -/
def State.opPass (s : State) (rc : Nat) (o : MemOp) : MemOp :=
  let own := (s.die (dieOf o.core)).dbg
  { o with
    left := o.left.map fun (e : Nat × Nat) => (e.1, if own || (s.die e.1).dbg then e.2 else toOne e.2 rc)
    zread := if own || s.owedBefore o then o.zread else toOne o.zread rc
    accs := o.accs.map (s.accPass rc o) }

/-- A transaction of the directory: the home's own time-out, frozen with each die it concerns (R422, R424). -/
def State.dirPass (s : State) (rc line : Nat) (e : DirEnt) : DirEnt :=
  if (homeDie line :: e.req :: e.holders).any fun d => d < 4 && (s.die d).dbg then e else { e with left := toOne e.left rc }

/-! Dies. -/

/-- A user queue; one whose context is being pre-empted keeps its slot (R340, R344, R360). -/
def State.uqPass (s : State) (rc d : Nat) (keep : Bool) (u : UQueue) : UQueue :=
  { u with
    pendFor := if u.st = .pending then u.pendFor + rc else u.pendFor
    idleLeft := if u.st = .resident ∧ u.isIdle ∧ !keep then u.idleLeft - rc else u.idleLeft
    wleft := s.waitPass rc d u.wleft u.wfar
    waitE := u.waitE.map fun e => { e with left := toOne e.left rc } }

/-- A launch: walks of its translation, head records of its stages (R247, R354). -/
def State.launchPass (s : State) (rc ac d : Nat) (l : Launch) : Launch :=
  { l with
    wleft := s.waitPass rc d l.wleft l.wfar
    stages := l.stages.map fun (g : Stage) => if g.head = g.tail then g else { g with left := g.left - ac } }

/-- The units of a reduction tree: those not complete (R404), and what the root's write waits for. -/
def State.treePass (s : State) (rc d : Nat) (t : Tree) : Tree :=
  { t with
    units := t.units.map fun (u : RUnit) =>
      if u.full then { u with wleft := s.waitPass rc d u.wleft u.wfar }
      else if (s.die d).dbg then u
      else { u with left := u.left - rc } }

/-- An optical port (R427, R428). -/
def Port.pass (rc : Nat) (p : Port) : Port :=
  { p with idleLeft := if p.queued = 0 then p.idleLeft - rc else p.idleLeft, relock := toOne p.relock rc }

/-- How long the deadlock condition of each context has held: 1 + ticks, up to 1,001; 1,002 when it has been logged, 1,003 while groups
are evicted until the oldest queued group fits (R310, R311). -/
def State.stallPass (s : State) (d rc : Nat) : FMap Nat :=
  ((((s.groups.filter fun e => dieOf e.2.core == d).map (·.2.ctx)) ++ (s.die d).stall.map (·.1)).eraseDups).foldl
    (fun (m : FMap Nat) c =>
      let v := (s.die d).stall.get c 0
      if v = 1003 ∧ s.oldestWaits d c then m.set c v
      else if s.deadlocked d c then m.set c (if v = 1002 then v else min 1001 (max (v % 1003) 1 + rc))
      else m) []

/-- A die: in debug halt its pre-emption deadlines and its tree time-outs stand still (R424; log 103). -/
def State.diePass (s : State) (rc ac d : Nat) (x : Die) : Die :=
  { x with
    govLeft := x.govLeft - rc
    cleft := if x.dbg then x.cleft else x.cleft.map fun (e : Nat × Nat) => (e.1, toOne e.2 rc)
    uqs := x.uqs.map fun (e : Nat × UQueue) => (e.1, s.uqPass rc d (x.cstate.get (x.qCtx e.1) 0 != 0) e.2)
    launches := x.launches.map fun (e : Nat × Launch) => (e.1, s.launchPass rc ac d e.2)
    trees := x.trees.map fun (e : Nat × Tree) => (e.1, s.treePass rc d e.2)
    links := x.links.map fun (e : Nat × Link) => (e.1, { e.2 with left := e.2.left - rc })
    ports := if d = 0 ∧ rc ≠ 0 then (List.range 32).foldl (fun m k => m.set k ((m.get k {}).pass rc)) x.ports else x.ports
    ptry := toOne x.ptry rc
    hpend := x.hpend.map fun (e : Nat × (Nat × Nat)) => (e.1, e.2.1, toOne e.2.2 rc)
    dpend := x.dpend.map fun (e : Nat × Nat) => (e.1, toOne e.2 rc)
    stall := s.stallPass d rc }

/-- `rc` reference ticks and `ac` arithmetic cycles pass (R2). -/
def State.pass (s : State) (rc ac : Nat) : State :=
  { s with
    rtime := s.rtime + rc
    waves := s.waves.map fun (e : Nat × Wave) =>
      (e.1, e.2.pass rc ac (s.group (e.2.gid.getD 0)).phase (s.die (dieOf (e.1 / 64))).dbg)
    cores := s.cores.map fun (e : Nat × Core) => (e.1, s.corePass rc ac e.1 e.2)
    groups := s.groups.map fun (e : Nat × Group) => (e.1, s.groupPass rc e.2)
    pkts := s.pkts.map fun (p : Pkt) => { p with left := if (s.die p.src).dbg || (s.die p.dst).dbg then p.left else toOne p.left rc }
    dir := s.dir.map fun (e : Nat × DirEnt) => (e.1, s.dirPass rc e.1 e.2)
    ops := s.ops.map (s.opPass rc)
    dies := s.dies.map fun (e : Nat × Die) => (e.1, s.diePass rc ac e.1 e.2) }

/-- A cached copy leaves its place: 0 an L1 line (a leased one stays), 1 an L1 TLB entry, 2 an L2 TLB entry, 3 a fetched clause,
4 a die's slice copy of a hardware-coherent line, 5 a line of a slice, whose priority is forgotten (R125, R169, R240, R249,
R252). -/
def State.evictAt (s : State) (what unit key : Nat) : State :=
  match what with
  | 0 => if (s.core unit).leases.contains key then s else s.l1Drop unit key
  | 1 => s.modCore unit fun c => { c with tlb := c.tlb.del key }
  | 2 => if unit < 4 then s.modDie unit fun x => { x with l2tlb := x.l2tlb.del key } else s
  | 3 => s.modCore unit fun c => { c with icache := c.icache.del key }
  | 4 => if unit < 4 then s.evictCopy unit key else s
  | 5 => if unit < 4 then s.modDie unit fun x => { x with prio := x.prio.del key } else s
  | _ => s

/-- A page-table page starts or ends a migration: walks that reach it wait (R255). -/
def State.migrate (s : State) (d page : Nat) (on : Bool) : State :=
  if 4 ≤ d then s
  else s.modDie d fun x => { x with migr := if on then (if x.migr.contains page then x.migr else page :: x.migr) else x.migr.filter (· != page) }

/-- An agent outside the package writes bytes of one line of memory that is not the package's: the host in its own memory,
another package in its own (R235, R257, R273). -/
def State.outside (s : State) (pa n val : Nat) : State :=
  if hostBase ≤ pa ∧ 0 < n ∧ pa % 128 + n ≤ 128 then s.wrKey pa 0 n (val % 2 ^ (8 * n)) else s

end Sys2Proof.Machine
end

