-- ==== Sys2Proof/Machine/Move.lean ====
section
/-! DEFINITION. What one move does (log 1), and the state in which a given word is the next that issues. -/

namespace Sys2Proof.Machine

/-- Whether an instruction is a step without an encoding (the events of the opcode table). -/
def isEvent (i : Instr) : Bool := (encodeNat i).isNone

/-- The host (0) or package n (1 + n) falls silent, or answers requests again (R415, R422). -/
def State.quiet (s : State) (who : Nat) (on : Bool) : State :=
  { s with silent := if on then who :: s.silent.filter (· != who) else s.silent.filter (· != who) }

/-- A record of the die's own is written behind the replies to the held reads of its line (R245). -/
def State.writeOwn (s : State) (pa n val : Nat) : State :=
  let u := (List.range 4).foldl (fun u d => u.sendHeld d (pa / 128)) s
  u.wrKey pa (u.ownKey pa) n val

/-- The boot software sets the port of a bucket for traffic to a package, in the table of 512 entries that each die has for it (R426). -/
def State.setRoute (s : State) (oid pkg : Nat) (mask : BitVec 16) : State :=
  s.modDie 0 fun x => { x with routes := x.routes.set (512 * (oid % 2) + pkg % 512) mask }

/-- One move. -/
noncomputable def State.doMove (s : State) (m : Move) : Out :=
  match m with
  | .issue core pipe pick => s.issue core pipe pick
  | .event i => if isEvent i then exec i s else .next s
  | .pass rc ac => .next (s.pass rc ac)
  | .resume who what arg => .next (s.resume who what arg)
  | .deliver id lane reg => .next (s.deliverOne id lane reg)
  | .evict what unit key => .next (s.evictAt what unit key)
  | .migrate die page on => .next (s.migrate die page on)
  | .ctl die off size val => .next (s.ctlWrite die off size val)
  | .arrive die k ctx n => .next (s.fedArrive die k ctx n)
  | .hostFail core cls seq beat => .next (s.hostFail core cls seq beat)
  | .outside pa n val => .next (s.outside pa n val)
  | .homeTimeout line => .next (s.homeTimeout line)
  | .quiet who on => .next (s.quiet who on)
  | .own pa n val => .next (s.writeOwn pa n val)
  | .route oid pkg mask => .next (s.setRoute oid pkg mask)

/-- The free choice of a move; records that a die writes come from the agenda alone. -/
noncomputable def freeMove (n : Nat) : Move :=
  match Config.move n with
  | .own _ _ _ => .pass 0 0
  | m => m

/-- The move that is due: the head of the agenda, else the free choice (log 1). -/
noncomputable def State.nextMove (s : State) : Move × State :=
  match s.agenda with
  | m :: r => (m, { s with agenda := r })
  | [] => (freeMove s.free, { s with free := s.free + 1 })

/-- Virtual and physical place of the placed word. -/
def placedAt : Nat := 0x1000

/-- Leaf entry of the placed word's page: V, LEAF, X, W and U, frame 1 of die 0 (R237). -/
def placedLeaf : W64 := BitVec.ofNat 64 (2 ^ 63 + 2 ^ 46 + 64 + 2 ^ 5 + 2 ^ 4 + 2 ^ 3)

/-- Core 0 holds one group of one wave of 32 lanes, all at the word `w`: a header stands outside a clause, any other word is
the only word of its clause, which binds flag 0. The very next move issues it. -/
def State.placeWord (s : State) (w : Nat) : State :=
  let clause : Option Clause := if isHeader w then none else some { setA := 0, bind := 1 }
  let l : Launch := { entry := BitVec.ofNat 64 placedAt, codelen := 4, pages := [(placedAt / 4096, placedLeaf)] }
  let s1 := s.modDie 0 fun x => { x with dbg := false, launches := x.launches.set 0 l }
  let s2 := { s1 with
    waves := FMap.set (s1.waves.filter fun e => e.1 / 64 != 0) 0
      { gid := some 0, launched := 0xFFFFFFFF#32, paths := [{ lanes := 0xFFFFFFFF#32, pc := BitVec.ofNat 64 placedAt, clause := clause }] }
    groups := FMap.set (s1.groups.filter fun e => e.2.core != 0) 0 { slots := [0], phase := .running, spsize := 256, nbar := 1 }
    poison := s1.poison.del (placedAt / 128)
    agenda := [.issue 0 0 0] }
  let s3 := s2.modCore 0 fun c => { c with ctx := some 0, zeroed := false, f64Busy := [], icache := [], mchain := [] }
  s3.wrKey placedAt (s3.keyId placedAt 0) 4 w

end Sys2Proof.Machine
end

