-- ==== Sys2Proof/Machine/Step.lean ====
section
/-! DEFINITION. One step of the machine, and the state whose next step runs a given word. -/

namespace Sys2Proof.Machine

/-- One step: the move that is due is made (log 1). -/
noncomputable def step (s : State) : Host.Outcome State Fault Refusal := s.nextMove.2.doMove s.nextMove.1

/-- The state with the word `w` stored where `step` fetches its next instruction (log 1). Every encoded instruction has one
word of 32 bits. -/
def State.withFetchWord (s : State) (nbits w : Nat) : State := s.placeWord (w % 2 ^ nbits % 2 ^ 32)

end Sys2Proof.Machine
end

