-- ==== Sys2Proof/Safety.lean ====
section
/-! DEFINITION. What counts as a safe run, and the words in which the statements speak of a step: when a word can issue,
what it leaves alone, and what a vector and a scalar word have done when they complete. -/

namespace Sys2Proof.Machine

/-- The invariant of the machine: memory is in canonical form, addresses strictly rising and no cell listed that
reads as an unlisted one does (log 3). -/
def State.Inv (s : State) : Prop := Memory.wf s.mem = true

/-- An outcome is safe when the machine goes on. -/
def Safe (o : Host.Outcome State Fault Refusal) : Prop := ∃ t, o = .next t

/-- The issuing path stands inside a clause, and every word of a constant bank that the sources read is there: its bank is bound, its
page translated and its line readable (R24, R34, R252). -/
def State.CanIssue (s : State) (srcs : List Src) : Prop := s.cp.clause.isSome = true ∧ s.bound srcs = true

/-- The executing set holds lane `n` (R19). -/
def State.runs (s : State) (n : Nat) : Prop := n < 32 ∧ s.memb.getLsbD n = true

/-- Nothing but the issuing wave has changed: no register of another wave, no byte of memory, no other part of the
machine. -/
structure OnlyWave (s t : State) : Prop where
  rest : { t with waves := s.waves } = s
  waves : ∀ k, k ≠ s.ck → t.wave k = s.wave k
  bytes : ∀ a, Mem.get t.mem a = Mem.get s.mem a

/-- The issuing path has moved past its word, the other paths of the wave stand (R34, R36), and a word that issues while
its group halts is counted in SKID (R222). -/
structure PastWord (s t : State) (long : Bool) : Prop where
  paths : t.cw.paths = (s.cw.modPath fun p => p.past long).paths
  skid : t.cw.skid = s.cw.skid + if s.cg.phase = .halting then 1 else 0

/-- The main-file keys that a vector destination names in the executing lanes (R14, R77). -/
def State.mainKey (s : State) (d : RName) (wide : Bool) (k : Nat) : Prop :=
  d.toNat < 96 ∧ ∃ n, s.runs n ∧
    (k = 32 * (s.cw.wbase + d.toNat) + n ∨ wide = true ∧ k = 32 * (s.cw.wbase + (d.toNat + 1)) + n)

/-- The operand-file keys that a vector destination names in the executing lanes (R14, R77). -/
def State.opKey (s : State) (d : RName) (wide : Bool) (k : Nat) : Prop :=
  96 ≤ d.toNat ∧ d.toNat < 112 ∧ ∃ n, s.runs n ∧
    (k = 32 * (d.toNat - 96) + n ∨ wide = true ∧ k = 32 * (d.toNat + 1 - 96) + n)

/-- A vector word has completed with the result `f n` in each lane `n` of the executing set and the flags `fl` merged into
FPSTAT: D holds the result unless it names no register, the lane's last-result queue has taken it, and every other register,
lane, flag and byte is as before (R16, R75, R77, R101). -/
structure VecWord (s t : State) (d : RName) (wide : Bool) (f : Nat → W64) (fl : W32) : Prop where
  only : OnlyWave s t
  past : PastWord s t false
  value : wide = false → d.toNat < 112 → ∀ n, s.runs n → t.cw.readV d.toNat n = (f n).setWidth 32
  value64 : wide = true → d.toNat < 112 → ∀ n, s.runs n → t.cw.readV64 d.toNat n = f n
  queue : ∀ n, s.runs n → t.cw.lastq.get n 0 = f n ∧ t.cw.lastq.get (32 + n) 0 = s.cw.lastq.get n 0 ∧
    t.cw.lastq.get (64 + n) 0 = s.cw.lastq.get (32 + n) 0 ∧ t.cw.lastq.get (96 + n) 0 = s.cw.lastq.get (64 + n) 0
  queues : ∀ n, n < 32 → ¬ s.runs n → ∀ e, t.cw.lastq.get (32 * e + n) 0 = s.cw.lastq.get (32 * e + n) 0
  main : ∀ k x, ¬ s.mainKey d wide k → t.cw.main.get k x = s.cw.main.get k x
  operand : ∀ k x, ¬ s.opKey d wide k → t.cw.opf.get k x = s.cw.opf.get k x
  fpstat : t.cw.fpstat = s.cw.fpstat ||| fl
  wave : { t.cw with main := s.cw.main, opf := s.cw.opf, lastq := s.cw.lastq, paths := s.cw.paths, fpstat := s.cw.fpstat, skid := s.cw.skid } = s.cw

/-- The FPSTAT bits that a word raises whose lane `n` raises the flags `f n` (R101). -/
def State.flagsOf (s : State) (f : Nat → Nat) : W32 := BitVec.ofNat 32 (((lanesOf s.memb).map f).foldl orF 0 % 32)

/-- The state after a word of fixed latency whose effect on the issuing wave is `g`. -/
def State.afterFixed (s : State) (g : Wave → Wave) : State := ((s.modCw g).past false).count s

/-- The magnitude m · 2^e of a finite floating value. -/
def dyadic (m : Nat) (e : Int) : ℚ := m * (2 : ℚ) ^ e

/-- The value of a finite pattern, with its sign. -/
def signedDy (neg : Bool) (m : Nat) (e : Int) : ℚ := if neg then -dyadic m e else dyadic m e

/-- A result is the one rounding of an exact magnitude `q` with sign `neg` to a format, away from overflow: the nearest value of the format
with ties to the even pattern, or the adjacent value on the side of the direction; NX is raised exactly when it differs (R53, R58). -/
def Fmt.Rounds (f : Fmt) (rm : Nat) (neg : Bool) (q : ℚ) (r : Flt) : Prop :=
  ∃ k j, f.decode r.1 = .fin neg k j ∧ (r.2 / fNX % 2 = 1 ↔ dyadic k j ≠ q) ∧
    ∀ y n g, f.decode y = .fin neg n g →
      (rm = 0 → |dyadic k j - q| ≤ |dyadic n g - q| ∧ (|dyadic k j - q| = |dyadic n g - q| → dyadic k j = dyadic n g ∨ r.1 % 2 = 0)) ∧
      (rm = 1 ∨ rm = (if neg then 2 else 3) → dyadic k j ≤ q ∧ (dyadic n g ≤ q → dyadic n g ≤ dyadic k j)) ∧
      (rm = (if neg then 3 else 2) → q ≤ dyadic k j ∧ (q ≤ dyadic n g → dyadic k j ≤ dyadic n g))

/-- What an arithmetic word delivers for an exact nonzero value of magnitude `q`: its rounding (R53), on overflow the value of the table of R54
with OF and NX, and with FTZ a zero of its sign with UF and NX in place of every tiny result (R56). -/
def Fmt.Delivers (f : Fmt) (rm : Nat) (ftz neg : Bool) (q : ℚ) (r : Flt) : Prop :=
  (ftz = true ∧ r = (f.sign neg, fUF + fNX) ∧ q < dyadic 1 f.emin) ∨
  ((ftz = true → 2 ^ f.fw ≤ r.1 % 2 ^ f.mag) ∧
    (r.2 / fOF % 2 = 0 → f.Rounds rm neg q r) ∧
    (r.2 / fOF % 2 = 1 → r = (if rm = 0 ∨ rm = (if neg then 3 else 2) then f.inf neg else f.sign neg + f.maxb, fOF + fNX) ∧
      ∀ n g, f.decode f.maxb = .fin false n g → dyadic n g < q))

/-- An integer is the rounding of a value in a direction (R53, R63). -/
def IntRounds (rm : Nat) (x : ℚ) (v : ℤ) : Prop :=
  (rm = 0 → |(v : ℚ) - x| ≤ 1 / 2 ∧ (|(v : ℚ) - x| = 1 / 2 → v % 2 = 0)) ∧
  (rm = 1 → |(v : ℚ)| ≤ |x| ∧ |x| < |(v : ℚ)| + 1 ∧ 0 ≤ (v : ℚ) * x) ∧
  (rm = 2 → x ≤ v ∧ (v : ℚ) < x + 1) ∧ (rm = 3 → (v : ℚ) ≤ x ∧ x < (v : ℚ) + 1)

/-- The fold of the present values of a list, absent when there is none. -/
def presentFold (op : W32 → W32 → W32) (l : List (Option W32)) : Option W32 :=
  match l.filterMap id with
  | [] => none
  | x :: r => some (r.foldl op x)

/-- The issuing word is the last of its clause (R34). -/
def State.Closes (s : State) : Prop := ∀ c, s.cp.clause = some c → c.len ≤ c.pos + 1

/-- The issuing path has ended in a transfer: each of its lanes stands at its own target, at a clause header, the lanes of
one target in one path; the wave's other paths stand behind (R76, R90). -/
structure Transferred (s t : State) (tgt : Nat → W64) : Prop where
  only : OnlyWave s t
  skid : t.cw.skid = s.cw.skid + if s.cg.phase = .halting then 1 else 0
  paths : ∃ new, t.cw.paths = new ++ s.cw.paths.tail ∧ (new.map (·.pc)).Nodup ∧
    (∀ n, s.runs n ↔ n < 32 ∧ ∃ p ∈ new, p.lanes.getLsbD n = true) ∧
    ∀ p ∈ new, p.lanes ≠ 0 ∧ p.clause = none ∧ p.status = s.cp.status ∧ p.hold = s.cp.hold ∧
      ∀ n, n < 32 → p.lanes.getLsbD n = true → p.pc = tgt n

/-- The link pair o14:o15 holds the address after the word in the lanes that take it, and nothing else of the wave's
registers has changed (R90). -/
structure Linked (s t : State) (takes : Nat → Prop) : Prop where
  link : ∀ n, s.runs n → takes n → t.cw.readV64 110 n = s.cp.pc + 4
  operand : ∀ k x, (∀ n, s.runs n → takes n → k ≠ 32 * 14 + n ∧ k ≠ 32 * 15 + n) → t.cw.opf.get k x = s.cw.opf.get k x
  wave : { t.cw with opf := s.cw.opf, paths := s.cw.paths, skid := s.cw.skid } = s.cw

/-- A long-latency word can issue with the flag `sel` of its clause: a word that writes registers has a flag, the flag is
below 63, no acquire holds its L-path words, and a release finds no store unacknowledged (R30, R32, R123). -/
structure State.CanSend (s : State) (srcs : List Src) (writes onL rel : Bool) (sel : Nat) : Prop where
  issue : s.CanIssue srcs
  named : ∀ c, s.cp.clause = some c → c.sel = sel
  flagged : writes = true → sel ≠ 15
  room : sel < 12 → s.cw.flags.get sel 0 < 63
  free : onL = true → s.held s.cp = false
  acked : rel = true → s.unacked s.cur.core s.cur.slot = 0

/-- A word that takes its turn at a place of the core can issue: no acquire holds it, a release finds no store unacknowledged, and the
place has taken no word of a later wave or lane in this ac (R123, R160, R300). -/
structure State.CanTurn (s : State) (srcs : List Src) (rel : Bool) (place ord : Nat) : Prop where
  issue : s.CanIssue srcs
  free : s.held s.cp = false
  acked : rel = true → s.unacked s.cur.core s.cur.slot = 0
  turn : s.inOrder place ord = true

/-- A long-latency word has issued: its flag stands one higher, its path has moved past it, held back by the acquires
`hold`, and no register, other wave or byte of memory has changed (R30, R32). -/
structure SentWord (s t : State) (sel : Nat) (hold : List Nat) : Prop where
  waves : ∀ k, k ≠ s.ck → t.wave k = s.wave k
  mem : t.mem = s.mem
  paths : t.cw.paths = (s.cw.modPath fun p => { p.past true with hold := hold ++ p.hold }).paths
  skid : t.cw.skid = s.cw.skid + if s.cg.phase = .halting then 1 else 0
  flag : ∀ f, t.cw.flags.get f 0 = s.cw.flags.get f 0 + if f = sel ∧ f < 12 then 1 else 0
  wave : { t.cw with paths := s.cw.paths, flags := s.cw.flags, skid := s.cw.skid } = s.cw

/-- The operation that a memory word of the issuing path sends, with its accesses and their time-outs (R30, R117, R422). -/
def State.opOf (s : State) (sel : Nat) (accs : List Acc) (b : MemOp) : MemOp :=
  { b with
    id := s.nextId, core := s.cur.core, slot := s.cur.slot, gid := s.cgid, ctx := s.cg.ctx, pc := s.cp.pc, flag := sel
    accs := accs.map (s.sent s.cur.core), lanes := s.memb, seq := s.nextId, own := s.inHandler }

/-- The memory word has issued, and its one new operation is `o`. -/
structure SentOp (s t : State) (sel : Nat) (hold : List Nat) (o : MemOp) : Prop where
  word : SentWord s t sel hold
  ops : t.ops = s.ops ++ [o]
  next : t.nextId = s.nextId + 1

/-- The owner table of an access's slice has a place for its page: the page is not core-private, has its owner, or the table keeps
room for one page of each lane (R241). -/
def State.OwnRoom (s : State) (leaf pa va : Nat) : Prop :=
  leafCC leaf ≠ 2 ∨ (s.die (pa / 2 ^ 48)).owners.has (leafFrame leaf pa va) = true ∨ s.ownCount leaf pa va + 32 ≤ 4096

/-- Every executing lane's access passes the checks of R115 and reaches the place `at' n` under the table entry of the
pair, whose owner table has room. -/
def State.Reaches (s : State) (va : Nat → W64) (k : Want) (at' : Nat → Nat × Nat) : Prop :=
  s.memb ≠ 0 ∧ ∀ n, s.runs n → s.check s.cur.core s.cg (va n) k = .ok (at' n).1 (at' n).2 ∧ s.OwnRoom (at' n).2 (at' n).1 (va n).toNat

/-- The matrix word has issued with operation `o` at the end of the chain. -/
structure ChainWord (s t : State) (sel : Nat) (o : MxOp) : Prop where
  chain : t.core s.cur.core = { s.core s.cur.core with mchain := (s.core s.cur.core).mchain ++
    [{ o with id := s.nextId, gid := s.cgid, slot := s.cur.slot, flag := sel, seq := s.nextId, own := s.inHandler }] }
  word : SentWord s t sel []

/-- An entry of a kind stands at the head of a resident queue, with every earlier one completed: its header, its address and
its slots (R341, R342). -/
def State.AtHead (s : State) (d q kind h va n : Nat) : Prop :=
  s.entryHead d q = .ok h va n ∧ field h 0 8 = kind ∧ (s.die d).allDone q = true ∧ ((s.die d).uq q).closing = false

/-- The queue has passed `n` slots (R341). -/
def QueuePassed (s t : State) (d q n : Nat) : Prop :=
  (t.die d).uq q = { (s.die d).uq q with rdidx := ((s.die d).uq q).rdidx + n, fault := none, wleft := 0, wfar := none, idleLeft := (s.die d).quantum }

/-- What a scalar destination holds after a write of `v`: the reserved bits of fpmode and fpstat read zero (R5, R18, R21). -/
def scaKept (d : Nat) (v : W32) : W32 := if d = 100 then v &&& 7#32 else if d = 101 then v &&& 31#32 else v

/-- The rows of the opcode table that have no encoding: what the machine does by itself, and what reaches it from outside. -/
def noWord (i : Instr) : Bool :=
  match i with
  | .longLatencyComplete .. | .storeAcknowledge .. | .orderingPointAccess .. | .leaseRequest .. | .leaseRecall .. | .readHoldExpiry .. | .rds ..
  | .rdx .. | .fwd .. | .inv .. | .ack .. | .data .. | .grant .. | .binv .. | .wb .. | .pageWalk .. | .pageWalkTimeout .. | .frespResolve ..
  | .frespRefuse .. | .vldEqAtSlice .. | .vldLeAtSlice .. | .vstAtSlice .. | .versionWaitTimeout .. | .vldReturnRetry .. | .vfloorApply ..
  | .mwaitWake .. | .joinZero .. | .tagwaitSatisfied .. | .queueWordPerform .. | .ringSpaceResume .. | .monitorTimeout .. | .waveHaltStop ..
  | .handlerEntry .. | .groupRetire .. | .groupEnd .. | .engineEntryStart .. | .engineBeat .. | .engineCommandComplete .. | .xredElement ..
  | .reductionContribution .. | .reductionUnitTimeout .. | .followOnIssue .. | .mmaStart .. | .mmaCheck .. | .drainPortOperation ..
  | .binWindowExpiry .. | .binAdmit .. | .dispatchDecision .. | .coreContextPass .. | .spawnDeadlockEviction .. | .amsgDelivery ..
  | .stageGovernorTick .. | .stagePartialTake .. | .wridx .. | .queueDescriptorWrite .. | .mapperSlotFill .. | .queuePriorityAge ..
  | .idleQuantumExpiry .. | .launch .. | .jobCard .. | .pipeline .. | .waitOnWord .. | .signal .. | .pad .. | .launchTranslation ..
  | .regionArming .. | .launchComplete .. | .waitOnWordRecheck .. | .waitOnWordTimeout .. | .cardReady .. | .cardComplete .. | .pageClassCommand ..
  | .invalidationCommand .. | .regionDisarm .. | .heapGrant .. | .pageZero .. | .keyLoad .. | .keyErase .. | .contextRecordWrite ..
  | .preemptDrain .. | .preemptSave .. | .contextResume .. | .contextReset .. | .preemptDeadlineExpiry .. | .plateWatchdogExpiry ..
  | .platePortError .. | .thermalTrip .. | .plateDeclareLost .. | .plateResetReturn .. | .sliceRetireNow .. | .bucketHandover .. | .treeEnable ..
  | .fedBarrierArrival .. | .fedAnnounce .. | .controlRegisterWrite .. | .scrub .. | .uncorrectableError .. | .meshFlitRetry .. | .meshLinkDown ..
  | .d2dPacket .. | .linkRetrain .. | .linkDown .. | .crossDieTimeout .. | .hostBar4Read .. | .hostPostedWrite .. | .hostAtomicop ..
  | .hostCompletion .. | .fabricPacket .. | .wavelengthPark .. | .wavelengthRelock .. | .wavelengthCrcFail .. | .getStatus .. | .readPower ..
  | .readLog .. | .resetDie .. | .fetchCrashRecord .. | .enterDebugHalt .. | .leaveDebugHalt .. | .getVersion .. | .getCapabilities ..
  | .negotiateAlgorithms .. | .getDigests .. | .getCertificate .. | .challenge .. | .getMeasurements .. | .moduleReset .. | .imageCheck ..
  | .memoryTraining .. | .plateSelfTest .. | .regulatorSample .. | .watchRecord .. | .fhead .. | .faultDeliveryEnable .. | .fedBarrierEn .. => true
  | _ => false

/-- A directory message but for its number on its link (R249, R420). -/
def DMsg.plain (m : DMsg) : DMsg := { m with seq := 0 }

/-- What an atomic of a code writes over an old value of `w` bits: with operand `x`; a CAS only where the old value is `cmp` (R126). -/
def AtomWrites (fn w old x cmp : Nat) : Option Nat :=
  let le := (BitVec.ofNat w old).toInt ≤ (BitVec.ofNat w x).toInt
  if fn = 9 then (if old = cmp then some x else none)
  else some ([(old + x) % 2 ^ w, if le then old else x, min old x, if le then x else old, max old x, old &&& x, old ||| x, old ^^^ x, x].getD fn 0)

/-- The bytes at a place read under its key as a number's, and every other byte of the line as before (R118, R121, R239). -/
structure LineWrite (s t : State) (pa key n v : Nat) : Prop where
  stored : ∀ i, i < n → t.rdByte (pa + i) key = BitVec.ofNat 8 (v / 256 ^ i)
  line : ∀ x, x / 128 = pa / 128 → (x < pa ∨ pa + n ≤ x) → t.rdByte x key = s.rdByte x key
  others : ∀ x, x / 128 ≠ pa / 128 → Mem.get t.mem x = Mem.get s.mem x

/-- A held copy of a line has a number's bytes from an offset, and every other byte as before (R241, R249). -/
def CopyWrite (old new : BitVec 1024) (off n v : Nat) : Prop :=
  ∀ i < 128, lineBytes new i 1 = if off ≤ i ∧ i < off + n then v / 256 ^ (i - off) % 256 else lineBytes old i 1

/-- A scalar word has completed with the result `v`: D, or the pair from D, holds it, and every other register, flag and
byte is as before (R75, R78). -/
structure ScaWord (s t : State) (d : RName) (wide : Bool) (v : W64) : Prop where
  only : OnlyWave s t
  past : PastWord s t false
  value : wide = false → t.readS d.toNat = scaKept d.toNat (v.setWidth 32)
  value64 : wide = true → t.readS64 d.toNat = v
  others : ∀ n, n ≠ d.toNat → (wide = true → n ≠ d.toNat + 1) → t.readS n = s.readS n
  wave : { t.cw with sregs := s.cw.sregs, xstat := s.cw.xstat, fpmode := s.cw.fpmode, fpstat := s.cw.fpstat, paths := s.cw.paths, skid := s.cw.skid } = s.cw

end Sys2Proof.Machine
end

