-- ==== Sys2Proof/Certificates/Slice0/Obligations.lean ====
section
/-! DEFINITION. The statements for the provers. -/

open Sys2Proof Sys2Proof.Machine

/-- Integer, logic and compare words (R79), with the value R79 names for each; the D-reading ones apart. -/
def Obligations.IntegerVectorWords : Prop :=
  (∀ e ∈ ([
      (.iadd, fun x y => BitVec.ofNat 32 (x.toNat + y.toNat)), (.isub, fun x y => BitVec.ofInt 32 ((x.toNat : Int) - y.toNat)),
      (.imul, fun x y => BitVec.ofNat 32 (x.toNat * y.toNat)),
      (.imulhS32, fun x y => BitVec.ofInt 32 (x.toInt * y.toInt / 2 ^ 32)), (.imulhZ32, fun x y => BitVec.ofNat 32 (x.toNat * y.toNat / 2 ^ 32)),
      (.iminS32, fun x y => if x.toInt ≤ y.toInt then x else y), (.iminZ32, fun x y => if x.toNat ≤ y.toNat then x else y),
      (.imaxS32, fun x y => if x.toInt ≤ y.toInt then y else x), (.imaxZ32, fun x y => if x.toNat ≤ y.toNat then y else x),
      (.andB, fun x y => x &&& y), (.orB, fun x y => x ||| y), (.xorB, fun x y => x ^^^ y), (.andn, fun x y => x &&& ~~~y),
      (.cmpEq, fun x y => if x = y then 0xFFFFFFFF#32 else 0), (.cmpNe, fun x y => if x ≠ y then 0xFFFFFFFF#32 else 0),
      (.cmpLtS32, fun x y => if x.toInt < y.toInt then 0xFFFFFFFF#32 else 0), (.cmpLtZ32, fun x y => if x.toNat < y.toNat then 0xFFFFFFFF#32 else 0),
      (.cmpLeS32, fun x y => if x.toInt ≤ y.toInt then 0xFFFFFFFF#32 else 0), (.cmpLeZ32, fun x y => if x.toNat ≤ y.toNat then 0xFFFFFFFF#32 else 0),
      (.iaddSatS32, fun x y => BitVec.ofInt 32 (max (-2 ^ 31) (min (2 ^ 31 - 1) (x.toInt + y.toInt))))
    ] : List ((RName → Src → Src → Instr) × (W32 → W32 → W32))),
    ∀ d a b s, dst32 d = true → src32 a = true → src32 b = true → s.CanIssue [a, b] →
      ∃ t, exec (e.1 d a b) s = .next t ∧ VecWord s t d false (fun n => (e.2 (s.src32 a n) (s.src32 b n)).setWidth 64) 0) ∧
  (∀ e ∈ ([
      (.imad, fun x y z => BitVec.ofNat 32 (x.toNat * y.toNat + z.toNat)), (.sel, fun x y z => if z = 0 then y else x)
    ] : List ((RName → Src → Src → Instr) × (W32 → W32 → W32 → W32))),
    ∀ d a b s, dstR d = true → src32 a = true → src32 b = true → s.CanIssue [a, b] →
      ∃ t, exec (e.1 d a b) s = .next t ∧
        VecWord s t d false (fun n => (e.2 (s.src32 a n) (s.src32 b n) (s.cw.readV d.toNat n)).setWidth 64) 0)

/-- SHL, SHR, SHRA and ROTL (R80). -/
def Obligations.ShiftWords : Prop :=
  ∀ e ∈ ([
      (.shl, fun x n => if n < 32 then BitVec.ofNat 32 (x.toNat * 2 ^ n) else 0),
      (.shr, fun x n => if n < 32 then BitVec.ofNat 32 (x.toNat / 2 ^ n) else 0),
      (.shra, fun x n => if n < 32 then BitVec.ofInt 32 (x.toInt / 2 ^ n) else if x.getLsbD 31 then 0xFFFFFFFF#32 else 0),
      (.rotl, fun x n => (x <<< (n % 32)) ||| (x >>> (32 - n % 32)))
    ] : List ((RName → Src → Src → Instr) × (W32 → Nat → W32))),
    ∀ d a b s, dst32 d = true → src32 a = true → src32 b = true → s.CanIssue [a, b] →
      ∃ t, exec (e.1 d a b) s = .next t ∧
        VecWord s t d false (fun l => (e.2 (s.src32 a l) (s.src32 b l).toNat).setWidth 64) 0

/-- BFX and BFI (R81), bit by bit. -/
def Obligations.BitFieldWords : Prop :=
  ∀ d a b s, src32 a = true → src32 b = true → s.CanIssue [a, b] →
    let pos := fun n => (s.src32 b n).toNat % 32
    let len := fun n => min ((s.src32 b n).toNat / 256 % 64) 32
    (dst32 d = true → ∃ t, ∃ r : Nat → W32, exec (.bfx d a b) s = .next t ∧ VecWord s t d false (fun n => (r n).setWidth 64) 0 ∧
      ∀ n i, i < 32 → (r n).getLsbD i = (decide (i < len n) && (s.src32 a n).getLsbD (pos n + i))) ∧
    (dstR d = true → ∃ t, ∃ r : Nat → W32, exec (.bfi d a b) s = .next t ∧ VecWord s t d false (fun n => (r n).setWidth 64) 0 ∧
      ∀ n i, i < 32 → (r n).getLsbD i =
        if pos n ≤ i ∧ i < pos n + len n then (s.src32 a n).getLsbD (i - pos n) else (s.cw.readV d.toNat n).getLsbD i)

/-- ADDA, ADDA64, SUBA and CMPA.LT (R82). -/
def Obligations.AddressPairWords : Prop :=
  ∀ d a b s, src64 a = true → s.CanIssue [a, b] →
    (dst64 d = true → src32 b = true → ∃ t, exec (.adda d a b) s = .next t ∧
      VecWord s t d true (fun n => BitVec.ofInt 64 ((s.src64 a n).toNat + (s.src32 b n).toInt)) 0) ∧
    (dst64 d = true → src64 b = true →
      (∃ t, exec (.adda64 d a b) s = .next t ∧ VecWord s t d true (fun n => BitVec.ofNat 64 ((s.src64 a n).toNat + (s.src64 b n).toNat)) 0) ∧
      (∃ t, exec (.suba d a b) s = .next t ∧ VecWord s t d true (fun n => BitVec.ofInt 64 ((s.src64 a n).toNat - (s.src64 b n).toNat)) 0)) ∧
    (dst32 d = true → src64 b = true → ∃ t, exec (.cmpaLt d a b) s = .next t ∧
      VecWord s t d false (fun n => if (s.src64 a n).toNat < (s.src64 b n).toNat then 0xFFFFFFFF#64 else 0) 0)

/-- Unary words (R84) and immediates (R86). -/
def Obligations.UnaryVectorWords : Prop :=
  (∀ e ∈ ([
      (.mov, fun x r => r = x), (.notB, fun x r => ∀ i < 32, r.getLsbD i = !x.getLsbD i),
      (.popc, fun x r => r.toNat = ((List.range 32).filter fun i => x.getLsbD i).length),
      (.clz, fun x r => r.toNat ≤ 32 ∧ (∀ i < r.toNat, x.getLsbD (31 - i) = false) ∧ (r.toNat < 32 → x.getLsbD (31 - r.toNat) = true)),
      (.ctz, fun x r => r.toNat ≤ 32 ∧ (∀ i < r.toNat, x.getLsbD i = false) ∧ (r.toNat < 32 → x.getLsbD r.toNat = true)),
      (.brev, fun x r => ∀ i < 32, r.getLsbD i = x.getLsbD (31 - i)),
      (.bswap, fun x r => ∀ i < 32, r.getLsbD i = x.getLsbD (8 * (3 - i / 8) + i % 8)),
      (.sextS8, fun x r => r.toInt = (x.setWidth 8).toInt), (.sextS16, fun x r => r.toInt = (x.setWidth 16).toInt),
      (.zextZ8, fun x r => r.toNat = x.toNat % 2 ^ 8), (.zextZ16, fun x r => r.toNat = x.toNat % 2 ^ 16),
      ((.ineg · · false), fun x r => r = BitVec.ofInt 32 (-x.toInt)), ((.ineg · · true), fun x r => r.toInt = min (-x.toInt) (2 ^ 31 - 1)),
      ((.iabsS32 · · false), fun x r => r = BitVec.ofInt 32 |x.toInt|), ((.iabsS32 · · true), fun x r => r.toInt = min |x.toInt| (2 ^ 31 - 1))
    ] : List ((RName → Src → Instr) × (W32 → W32 → Prop))),
    ∀ d a s, dst32 d = true → src32 a = true → s.CanIssue [a] →
      ∃ t, ∃ r : Nat → W32, exec (e.1 d a) s = .next t ∧ VecWord s t d false (fun n => (r n).setWidth 64) 0 ∧ ∀ n, e.2 (s.src32 a n) (r n)) ∧
  (∀ d a s, dst64 d = true → src64 a = true → s.CanIssue [a] →
    ∃ t, exec (.mov64 d a) s = .next t ∧ VecWord s t d true (fun n => s.src64 a n) 0) ∧
  (∀ d i s, s.CanIssue [] →
    (dst32 d = true → ∃ t, exec (.movi d i) s = .next t ∧ VecWord s t d false (fun _ => (BitVec.ofInt 32 i.toInt).setWidth 64) 0) ∧
    (dstR d = true → ∃ t, exec (.movhi d i) s = .next t ∧
      VecWord s t d false (fun n => (BitVec.ofNat 32 (i.toNat * 2 ^ 14 + (s.cw.readV d.toNat n).toNat % 2 ^ 14)).setWidth 64) 0))

/-- Scalar words (R78, R83, R85, R86). -/
def Obligations.ScalarWords : Prop :=
  (∀ e ∈ ([
      (.sadd, fun x y => BitVec.ofNat 32 (x.toNat + y.toNat)), (.ssub, fun x y => BitVec.ofInt 32 ((x.toNat : Int) - y.toNat)),
      (.smul, fun x y => BitVec.ofNat 32 (x.toNat * y.toNat)), (.sand, fun x y => x &&& y), (.sor, fun x y => x ||| y),
      (.sxor, fun x y => x ^^^ y), (.sshl, fun x y => if y.toNat < 32 then BitVec.ofNat 32 (x.toNat * 2 ^ y.toNat) else 0),
      (.sshr, fun x y => if y.toNat < 32 then BitVec.ofNat 32 (x.toNat / 2 ^ y.toNat) else 0),
      (.scmpEq, fun x y => if x = y then 0xFFFFFFFF#32 else 0), (.scmpLtS32, fun x y => if x.toInt < y.toInt then 0xFFFFFFFF#32 else 0),
      (.scmpLtZ32, fun x y => if x.toNat < y.toNat then 0xFFFFFFFF#32 else 0)
    ] : List ((RName → Src → Src → Instr) × (W32 → W32 → W32))),
    ∀ d a b s, sdst32 d = true → ssrc32 a = true → ssrc32 b = true → s.CanIssue [a, b] →
      ∃ t, exec (e.1 d a b) s = .next t ∧ ScaWord s t d false ((e.2 (s.src32 a 0) (s.src32 b 0)).setWidth 64)) ∧
  (∀ e ∈ ([
      (.smov, fun x r => r = x), (.snot, fun x r => ∀ i < 32, r.getLsbD i = !x.getLsbD i),
      (.spopc, fun x r => r.toNat = ((List.range 32).filter fun i => x.getLsbD i).length),
      (.sclz, fun x r => r.toNat ≤ 32 ∧ (∀ i < r.toNat, x.getLsbD (31 - i) = false) ∧ (r.toNat < 32 → x.getLsbD (31 - r.toNat) = true)),
      (.sctz, fun x r => r.toNat ≤ 32 ∧ (∀ i < r.toNat, x.getLsbD i = false) ∧ (r.toNat < 32 → x.getLsbD r.toNat = true)),
      (.sbrev, fun x r => ∀ i < 32, r.getLsbD i = x.getLsbD (31 - i)),
      (.sbswap, fun x r => ∀ i < 32, r.getLsbD i = x.getLsbD (8 * (3 - i / 8) + i % 8)),
      (.ssextS8, fun x r => r.toInt = (x.setWidth 8).toInt), (.ssextS16, fun x r => r.toInt = (x.setWidth 16).toInt),
      (.szextZ8, fun x r => r.toNat = x.toNat % 2 ^ 8), (.szextZ16, fun x r => r.toNat = x.toNat % 2 ^ 16),
      ((.sneg · · false), fun x r => r = BitVec.ofInt 32 (-x.toInt)), ((.sneg · · true), fun x r => r.toInt = min (-x.toInt) (2 ^ 31 - 1)),
      ((.sabsS32 · · false), fun x r => r = BitVec.ofInt 32 |x.toInt|), ((.sabsS32 · · true), fun x r => r.toInt = min |x.toInt| (2 ^ 31 - 1))
    ] : List ((RName → Src → Instr) × (W32 → W32 → Prop))),
    ∀ d a s, sdst32 d = true → ssrc32 a = true → s.CanIssue [a] →
      ∃ t, ∃ r : W32, exec (e.1 d a) s = .next t ∧ ScaWord s t d false (r.setWidth 64) ∧ e.2 (s.src32 a 0) r) ∧
  (∀ d a b s, sdst64 d = true → ssrc64 a = true →
    (ssrc32 b = true → s.CanIssue [a, b] → ∃ t, exec (.sadda d a b) s = .next t ∧
      ScaWord s t d true (BitVec.ofInt 64 ((s.src64 a 0).toNat + (s.src32 b 0).toInt))) ∧
    (s.CanIssue [a] → ∃ t, exec (.smov64 d a) s = .next t ∧ ScaWord s t d true (s.src64 a 0))) ∧
  (∀ d i s, sdst32 d = true → s.CanIssue [] →
    (∃ t, exec (.smovi d i) s = .next t ∧ ScaWord s t d false ((BitVec.ofInt 32 i.toInt).setWidth 64)) ∧
    (∃ t, exec (.smovhi d i) s = .next t ∧
      ScaWord s t d false ((BitVec.ofNat 32 (i.toNat * 2 ^ 14 + (s.readS d.toNat).toNat % 2 ^ 14)).setWidth 64)))

/-- FADD, FSUB, FMUL, FMIN, FMAX (R97, R98, R59), FFMA (R99) and FFMAL (R100). -/
def Obligations.FloatArithmeticWords : Prop :=
  (∀ e ∈ ([
      (.faddF32, .f32, addF false),
      (.faddF64, .f64, addF false),
      (.faddF16, .f16, addF false),
      (.faddBf16, .bf16, addF false),
      (.fsubF32, .f32, addF true),
      (.fsubF64, .f64, addF true),
      (.fsubF16, .f16, addF true),
      (.fsubBf16, .bf16, addF true),
      (.fmulF32, .f32, mulF),
      (.fmulF64, .f64, mulF),
      (.fmulF16, .f16, mulF),
      (.fmulBf16, .bf16, mulF),
      (.fminF32, .f32, fun f _ z x y => minMaxF false f z x y),
      (.fminF64, .f64, fun f _ z x y => minMaxF false f z x y),
      (.fminF16, .f16, fun f _ z x y => minMaxF false f z x y),
      (.fminBf16, .bf16, fun f _ z x y => minMaxF false f z x y),
      (.fmaxF32, .f32, fun f _ z x y => minMaxF true f z x y),
      (.fmaxF64, .f64, fun f _ z x y => minMaxF true f z x y),
      (.fmaxF16, .f16, fun f _ z x y => minMaxF true f z x y),
      (.fmaxBf16, .bf16, fun f _ z x y => minMaxF true f z x y)
    ] : List ((RName → Src → Src → Instr) × FTy × (Fmt → Nat → Bool → Nat → Nat → Flt))),
    ∀ d a b s, dstTy e.2.1 d = true → srcTy e.2.1 a = true → srcTy e.2.1 b = true → s.CanIssue [a, b] →
      let r := fun n => mapEls e.2.1 (fun x y _ => e.2.2 (fmtOf e.2.1) s.rm (s.ftzT e.2.1) x y) (s.srcT e.2.1 a n) (s.srcT e.2.1 b n) 0
      ∃ t, exec (e.1 d a b) s = .next t ∧
        VecWord s t d (e.2.1 == .f64) (fun n => (r n).1) (s.flagsOf fun n => (r n).2)) ∧
  (∀ e ∈ ([(.ffmaF32, .f32), (.ffmaF64, .f64), (.ffmaF16, .f16), (.ffmaBf16, .bf16)] : List ((RName → Src → Src → Instr) × FTy)),
    ∀ d a b s, dstRTy e.2 d = true → srcTy e.2 a = true → srcTy e.2 b = true → s.CanIssue [a, b] →
      let r := fun n => mapEls e.2 (fmaF (fmtOf e.2) s.rm (s.ftzT e.2)) (s.srcT e.2 a n) (s.srcT e.2 b n) (s.dstT e.2 d n)
      ∃ t, exec (e.1 d a b) s = .next t ∧
        VecWord s t d (e.2 == .f64) (fun n => (r n).1) (s.flagsOf fun n => (r n).2)) ∧
  (∀ e ∈ ([(.ffmalF32, .f32), (.ffmalF64, .f64), (.ffmalF16, .f16), (.ffmalBf16, .bf16)] : List ((RName → Src → Src → Instr) × FTy)),
    ∀ d a b s, dstTy e.2 d = true → srcTy e.2 a = true → srcTy e.2 b = true → s.CanIssue [a, b] →
      let r := fun n => mapEls e.2 (fmaF (fmtOf e.2) s.rm (s.ftzT e.2)) (s.srcT e.2 a n) (s.srcT e.2 b n) (s.cw.lastq.get n 0)
      ∃ t, exec (e.1 d a b) s = .next t ∧
        VecWord s t d (e.2 == .f64) (fun n => (r n).1) (s.flagsOf fun n => (r n).2)) ∧
  (∀ f ∈ [fmt64, fmt32, fmt16, fmtB16], ∀ rm < 4, ∀ ftz x y nx mx ex ny my ey,
    f.decode (f.flush ftz x) = .fin nx mx ex → f.decode (f.flush ftz y) = .fin ny my ey →
    let X := signedDy nx mx ex
    let Y := signedDy ny my ey
    (∀ sub : Bool, let S := if sub then X - Y else X + Y
      (S ≠ 0 → f.Delivers rm ftz (S < 0) |S| (addF sub f rm ftz x y)) ∧
      (S = 0 → addF sub f rm ftz x y = (f.sign (if nx = (ny != sub) then nx else rm = 3), 0))) ∧
    (X * Y ≠ 0 → f.Delivers rm ftz (nx != ny) |X * Y| (mulF f rm ftz x y)) ∧
    (X * Y = 0 → mulF f rm ftz x y = (f.sign (nx != ny), 0)) ∧
    (∀ z nz mz ez, f.decode (f.flush ftz z) = .fin nz mz ez →
      let T := X * Y + signedDy nz mz ez
      (T ≠ 0 → f.Delivers rm ftz (T < 0) |T| (fmaF f rm ftz x y z)) ∧
      (T = 0 → fmaF f rm ftz x y z = (f.sign (if (nx != ny) = nz then nz else rm = 3), 0))))

/-- Rounding of an exact value (R53), away from overflow (R54) and with FTZ off; NX of R58. -/
def Obligations.RoundingIsCorrect : Prop :=
  ∀ f ∈ [fmt64, fmt32, fmt16, fmtB16, fmtE4M3, fmtE5M2], ∀ rm < 4, ∀ neg m e, 0 < m →
    let r := f.round rm false neg m e
    r.2 / fOF % 2 = 0 → f.Rounds rm neg (dyadic m e) r

/-- Unary words (R102 to R105), compares (R111) and FCLASS (R112).
What log 5 says is the model's reading or choice, not a rule of the spec. -/
def Obligations.FloatUnaryWords : Prop :=
  (∀ e ∈ ([
      (.fneg, fun f _ _ x => (x ^^^ 2 ^ f.mag, 0)),
      (.fabs, fun f _ _ x => (x % 2 ^ f.mag, 0)),
      (.fsqrt, sqrtF),
      (.frcp, rcpF),
      (.frint, rintF true),
      (.ftrunc, fun f _ => rintF false f 1),
      (.ffloor, fun f _ => rintF false f 3),
      (.fceil, fun f _ => rintF false f 2)
    ] : List ((RName → Src → FTy → Instr) × (Fmt → Nat → Bool → Nat → Flt))),
    ∀ d a ty s, dstTy ty d = true → srcTy ty a = true → s.CanIssue [a] →
      let r := fun n => mapEls ty (fun x _ _ => e.2 (fmtOf ty) s.rm (s.ftzT ty) x) (s.srcT ty a n) 0 0
      ∃ t, exec (e.1 d a ty) s = .next t ∧
        VecWord s t d (ty == .f64) (fun n => (r n).1) (s.flagsOf fun n => (r n).2)) ∧
  (∀ e ∈ ([(.frsqrt, 0x24), (.fexp2, 0x25), (.flog2, 0x26), (.fsinpi, 0x27), (.fcospi, 0x28), (.ftanh, 0x29)] : List ((RName → Src → FTy → Instr) × Nat)),
    ∀ d a ty s, ty ≠ .f64 → dst32 d = true → src32 a = true → s.CanIssue [a] →
      let r := fun n => mapEls ty (fun x _ _ => approxFn e.2 (tyNum ty) (fmtOf ty) s.ftz x) (s.srcT ty a n) 0 0
      ∃ t, exec (e.1 d a ty) s = .next t ∧
        VecWord s t d false (fun n => (r n).1) (s.flagsOf fun n => (r n).2)) ∧
  (∀ e ∈ ([(.fcmpEq, 0), (.fcmpNe, 1), (.fcmpLt, 2), (.fcmpLe, 3), (.fcmpUn, 4)] : List ((RName → Src → FTy → Instr) × Nat)),
    ∀ d a ty s, dstRTy ty d = true → srcTy ty a = true → s.CanIssue [a] →
      let c := fun x y => cmpF e.2 (fmtOf ty) (s.ftzT ty) x y
      let r := fun n => mapEls ty (fun x y _ => (if (c x y).1 then tyOnes ty else 0, (c x y).2)) (s.dstT ty d n) (s.srcT ty a n) 0
      ∃ t, exec (e.1 d a ty) s = .next t ∧
        VecWord s t d (ty == .f64) (fun n => (r n).1) (s.flagsOf fun n => (r n).2)) ∧
  (∀ d a ty s, dst32 d = true → srcTy ty a = true → s.CanIssue [a] →
    ∃ t, exec (.fclass d a ty) s = .next t ∧
      VecWord s t d false (fun n => (mapEls ty (fun x _ _ => (classF (fmtOf ty) x, 0)) (s.srcT ty a n) 0 0).1) 0) ∧
  (∀ f ∈ [fmt64, fmt32, fmt16, fmtB16], ∀ rm < 4, ∀ ftz x neg m e, f.decode (f.flush ftz x) = .fin neg m e →
    let X := signedDy neg m e
    (m = 0 → rcpF f rm ftz x = (f.inf neg, fDZ) ∧ sqrtF f rm ftz x = (f.sign neg, 0)) ∧
    (0 < m → f.Delivers rm ftz neg (1 / dyadic m e) (rcpF f rm ftz x)) ∧
    (0 < m → neg = true → sqrtF f rm ftz x = (f.nan, fNV)) ∧
    (0 < m → neg = false → ∃ k j, let r := sqrtF f rm ftz x; let v := dyadic k j
      f.decode r.1 = .fin false k j ∧ (r.2 / fNX % 2 = 1 ↔ v ^ 2 ≠ X) ∧ r.2 / fOF % 2 = 0 ∧
      ∀ y n g, f.decode y = .fin false n g → let w := dyadic n g
        (rm = 0 → (w < v → (w + v) ^ 2 ≤ 4 * X) ∧ (v < w → 4 * X ≤ (v + w) ^ 2)) ∧
        (rm = 1 ∨ rm = 3 → v ^ 2 ≤ X ∧ (w ^ 2 ≤ X → w ≤ v)) ∧ (rm = 2 → X ≤ v ^ 2 ∧ (X ≤ w ^ 2 → v ≤ w))) ∧
    (∀ nx, ∃ v k j, let r := rintF nx f rm ftz x
      IntRounds rm X v ∧ f.decode r.1 = .fin neg k j ∧ dyadic k j = |(v : ℚ)| ∧ r.2 = if nx = true ∧ (v : ℚ) ≠ X then fNX else 0) ∧
    (∀ y ny my ey, f.decode (f.flush ftz y) = .fin ny my ey → let Y := signedDy ny my ey
      ((cmpF 0 f ftz x y).1 = true ↔ X = Y) ∧ ((cmpF 1 f ftz x y).1 = true ↔ X ≠ Y) ∧ ((cmpF 2 f ftz x y).1 = true ↔ X < Y) ∧
      ((cmpF 3 f ftz x y).1 = true ↔ X ≤ Y) ∧ (cmpF 4 f ftz x y).1 = false ∧ ∀ c, (cmpF c f ftz x y).2 = 0)) ∧
  (∀ e ∈ [(fmt32, 0), (fmt16, 2), (fmtB16, 3)], ∀ ftz x neg m g, e.1.decode (e.1.flush ftz x) = .fin neg m g →
    let f := e.1
    let X := dyadic m g
    let one := fun b : Bool => (f.sign b + f.bias * 2 ^ f.fw, 0)
    let ap := fun fn => approxFn fn e.2 f ftz x
    (m = 0 → ap 0x24 = (f.inf neg, fDZ) ∧ ap 0x25 = one false ∧ ap 0x26 = (f.inf true, fDZ) ∧ ap 0x27 = (f.sign neg, 0) ∧
      ap 0x28 = one false ∧ ap 0x29 = (f.sign neg, 0)) ∧
    (0 < m → neg = true → ap 0x24 = (f.nan, fNV) ∧ ap 0x26 = (f.nan, fNV)) ∧
    (∀ k : ℤ, neg = false → X = 4 ^ k → ∃ a b, f.decode (ap 0x24).1 = .fin false a b ∧ dyadic a b = 2 ^ (-k) ∧ (ap 0x24).2 = 0) ∧
    (∀ k : ℤ, neg = false → X = 2 ^ k → ∃ a b, f.decode (ap 0x26).1 = .fin (k < 0) a b ∧ dyadic a b = |(k : ℚ)| ∧ (ap 0x26).2 = 0) ∧
    (∀ k y b c, signedDy neg m g = (k : ℤ) → ftz = false → f.decode y = .fin false b c → dyadic b c = 2 ^ k →
      ∃ b' c', f.decode (ap 0x25).1 = .fin false b' c' ∧ dyadic b' c' = 2 ^ k ∧ (ap 0x25).2 = 0) ∧
    (∀ k : ℕ, (X = k → ap 0x27 = (f.sign neg, 0) ∧ ap 0x28 = one (k % 2 = 1)) ∧
      (X = k + 1 / 2 → ap 0x27 = one ((k % 2 == 1) != neg) ∧ ap 0x28 = (f.sign false, 0))) ∧
    (10 ≤ X → ap 0x29 = one neg) ∧
    (0 < m → neg = false → (¬ ∃ k : ℤ, X = 4 ^ k) → ∃ a b, f.decode (ap 0x24).1 = .fin false a b ∧
      ∀ j : ℤ, 4 ^ j * X ≤ 1 → 1 < 4 ^ (j + 1) * X → let u : ℚ := 2 ^ (j - f.fw)
        (u ≤ dyadic a b → (dyadic a b - u) ^ 2 * X ≤ 1) ∧ 1 ≤ (dyadic a b + u) ^ 2 * X) ∧
    (∀ bound fn ty neg' k j, 0 < bound → 0 < k →
      let r := approxF f ftz bound fn ty x neg' k j
      r.2 / fOF % 2 = 0 → (ftz = true → r ≠ (f.sign neg', fUF + fNX)) → ∃ n' a b, f.decode r.1 = .fin n' a b ∧
        |signedDy n' a b - signedDy neg' k j| ≤ bound * 2 ^ f.ulpE k j))

/-- Conversions of one element (R106, R108), with a fixed and with a chosen rounding; widenings; narrowings. -/
def Obligations.ConversionWords : Prop :=
  (∀ e ∈ ([
      (.cvtF64F32, true, false, fun s a n => s.srcF32 a n, fun _ x => cvtF fmt32 fmt64 0 false x),
      (.cvtF32E5m3, false, false, fun s a n => if a.kind = .lit then (ruE5M3 (intVal a.name.toInt)).1 else (s.src32 a n).toNat % 256, fun _ x => cvtF fmtE5M3 fmt32 0 false x),
      (.cvtE5m3F32, false, false, fun s a n => s.srcF32 a n, fun _ x => ruE5M3 (fmt32.decode x)),
      (.cvtF64S32, true, false, fun s a n => (s.src32 a n).toNat, fun _ x => fromInt fmt64 0 (sVal 32 x)),
      (.cvtF64Z32, true, false, fun s a n => (s.src32 a n).toNat, fun _ x => fromInt fmt64 0 x)
    ] : List ((RName → Src → Instr) × Bool × Bool × (State → Src → Nat → Nat) × (Nat → Nat → Flt))),
    ∀ d a s, (if e.2.1 then dst64 d else dst32 d) = true → (if e.2.2.1 then src64 a else src32 a) = true → s.CanIssue [a] →
      let r := fun n => e.2.2.2.2 0 (e.2.2.2.1 s a n)
      ∃ t, exec (e.1 d a) s = .next t ∧
        VecWord s t d e.2.1 (fun n => BitVec.ofNat 64 (r n).1) (s.flagsOf fun n => (r n).2)) ∧
  (∀ e ∈ ([
      (.cvtF32F64, false, true, fun s a n => (s.srcT .f64 a n).toNat, fun m x => cvtF fmt64 fmt32 m false x),
      (.cvtS32F32, false, false, fun s a n => s.srcF32 a n, fun m x => toInt fmt32 32 true m x),
      (.cvtS32F64, false, true, fun s a n => (s.srcT .f64 a n).toNat, fun m x => toInt fmt64 32 true m x),
      (.cvtF32S32, false, false, fun s a n => (s.src32 a n).toNat, fun m x => fromInt fmt32 m (sVal 32 x)),
      (.cvtZ32F32, false, false, fun s a n => s.srcF32 a n, fun m x => toInt fmt32 32 false m x),
      (.cvtZ32F64, false, true, fun s a n => (s.srcT .f64 a n).toNat, fun m x => toInt fmt64 32 false m x),
      (.cvtF32Z32, false, false, fun s a n => (s.src32 a n).toNat, fun m x => fromInt fmt32 m x),
      (.cvtS64F32, true, false, fun s a n => s.srcF32 a n, fun m x => toInt fmt32 64 true m x),
      (.cvtS64F64, true, true, fun s a n => (s.srcT .f64 a n).toNat, fun m x => toInt fmt64 64 true m x),
      (.cvtF32S64, false, true, fun s a n => (s.src64 a n).toNat, fun m x => fromInt fmt32 m (sVal 64 x)),
      (.cvtF64S64, true, true, fun s a n => (s.src64 a n).toNat, fun m x => fromInt fmt64 m (sVal 64 x)),
      (.cvtZ64F32, true, false, fun s a n => s.srcF32 a n, fun m x => toInt fmt32 64 false m x),
      (.cvtZ64F64, true, true, fun s a n => (s.srcT .f64 a n).toNat, fun m x => toInt fmt64 64 false m x),
      (.cvtF32Z64, false, true, fun s a n => (s.src64 a n).toNat, fun m x => fromInt fmt32 m x),
      (.cvtF64Z64, true, true, fun s a n => (s.src64 a n).toNat, fun m x => fromInt fmt64 m x)
    ] : List ((RName → Src → Rm → Instr) × Bool × Bool × (State → Src → Nat → Nat) × (Nat → Nat → Flt))),
    ∀ d a rm s, (if e.2.1 then dst64 d else dst32 d) = true → (if e.2.2.1 then src64 a else src32 a) = true → s.CanIssue [a] →
      let r := fun n => e.2.2.2.2 (rmOf rm s.rm) (e.2.2.2.1 s a n)
      ∃ t, exec (e.1 d a rm) s = .next t ∧
        VecWord s t d e.2.1 (fun n => BitVec.ofNat 64 (r n).1) (s.flagsOf fun n => (r n).2)) ∧
  (∀ e ∈ ([
      (.cvtF32F16, fmt16, 0, 16, fun s a n => (s.srcT .f16 a n).toNat),
      (.cvtF32Bf16, fmtB16, 0, 16, fun s a n => (s.srcT .bf16 a n).toNat),
      (.cvtF32E4m3Lo, fmtE4M3, 0, 8, fun s a n => s.srcBytes fmtE4M3 a n),
      (.cvtF32E4m3Hi, fmtE4M3, 16, 8, fun s a n => s.srcBytes fmtE4M3 a n),
      (.cvtF32E5m2Lo, fmtE5M2, 0, 8, fun s a n => s.srcBytes fmtE5M2 a n),
      (.cvtF32E5m2Hi, fmtE5M2, 16, 8, fun s a n => s.srcBytes fmtE5M2 a n)
    ] : List ((RName → Src → Instr) × Fmt × Nat × Nat × (State → Src → Nat → Nat))),
    ∀ d a s, dst64 d = true → src32 a = true → s.CanIssue [a] →
      let f := e.2.1; let w := e.2.2.2.1
      let x := fun n => e.2.2.2.2 s a n / 2 ^ e.2.2.1
      let lo := fun n => cvtF f fmt32 0 false (x n % 2 ^ w)
      let hi := fun n => cvtF f fmt32 0 false (x n / 2 ^ w % 2 ^ w)
      ∃ t, exec (e.1 d a) s = .next t ∧
        VecWord s t d true (fun n => BitVec.ofNat 64 ((lo n).1 + 2 ^ 32 * (hi n).1)) (s.flagsOf fun n => orF (lo n).2 (hi n).2)) ∧
  (∀ e ∈ ([
      (.cvtF16F32, fmt16, 16, 0, false, false),
      (.cvtBf16F32, fmtB16, 16, 0, false, false),
      (.cvtE4m3F32Lo, fmtE4M3, 8, 0, true, false),
      (.cvtE4m3F32Hi, fmtE4M3, 8, 16, true, false),
      (.cvtE4m3F32NsatLo, fmtE4M3, 8, 0, true, true),
      (.cvtE4m3F32NsatHi, fmtE4M3, 8, 16, true, true),
      (.cvtE5m2F32Lo, fmtE5M2, 8, 0, true, false),
      (.cvtE5m2F32Hi, fmtE5M2, 8, 16, true, false)
    ] : List ((RName → Src → Rm → Instr) × Fmt × Nat × Nat × Bool × Bool)),
    ∀ d a rm s, (if e.2.2.2.2.1 then dstR d else dst32 d) = true → src64 a = true → s.CanIssue [a] →
      let f := e.2.1; let w := e.2.2.1; let sh := e.2.2.2.1
      let lo := fun n => cvtF fmt32 f (rmOf rm s.rm) e.2.2.2.2.2 (s.srcPairF32 a n % 2 ^ 32)
      let hi := fun n => cvtF fmt32 f (rmOf rm s.rm) e.2.2.2.2.2 (s.srcPairF32 a n / 2 ^ 32)
      let old := fun n => if e.2.2.2.2.1 then (s.cw.readV d.toNat n).toNat else 0
      ∃ t, exec (e.1 d a rm) s = .next t ∧
        VecWord s t d false
          (fun n => BitVec.ofNat 64 (((lo n).1 + 2 ^ w * (hi n).1) * 2 ^ sh + (old n % 2 ^ sh + old n / 2 ^ (sh + 2 * w) * 2 ^ (sh + 2 * w))))
          (s.flagsOf fun n => orF (lo n).2 (hi n).2)) ∧
  (∀ src ∈ [fmt64, fmt32, fmt16, fmtB16, fmtE4M3, fmtE5M2, fmtE5M3], ∀ x neg m e, src.decode x = .fin neg m e → ∀ rm < 4,
    let X := signedDy neg m e
    (∀ dst ∈ [fmt64, fmt32, fmt16, fmtB16, fmtE5M2], (0 < m → dst.Delivers rm false neg (dyadic m e) (cvtF src dst rm false x)) ∧
      (m = 0 → cvtF src dst rm false x = (dst.sign neg, 0))) ∧
    (∀ nsat, let r := cvtF src fmtE4M3 rm nsat x
      (m = 0 → r = (fmtE4M3.sign neg, 0)) ∧ (0 < m → r.2 / fOF % 2 = 0 → fmtE4M3.Rounds rm neg (dyadic m e) r) ∧
      (r.2 / fOF % 2 = 1 → r = (if nsat then 0x7F else fmtE4M3.sign neg + 0x7E, fOF + fNX) ∧ 448 < dyadic m e)) ∧
    (m = 0 → ruE5M3 (src.decode x) = (0, 0)) ∧ (0 < m → neg = true → ruE5M3 (src.decode x) = (0xFF, fNV + fNX)) ∧
    (0 < m → neg = false → let r := ruE5M3 (src.decode x)
      (dyadic m e ≤ 114688 → fmtE5M3.Rounds 2 false (dyadic m e) r) ∧ (114688 < dyadic m e → r = (0xFE, fOF + fNX))) ∧
    (∀ w ∈ [32, 64], ∀ signed : Bool,
      let lo : ℤ := if signed then -(2 ^ (w - 1)) else 0
      let hi : ℤ := if signed then 2 ^ (w - 1) - 1 else 2 ^ w - 1
      ∃ v, IntRounds rm X v ∧ toInt src w signed rm x =
        if v < lo then ((lo % 2 ^ w).toNat, fNV) else if hi < v then ((hi % 2 ^ w).toNat, fNV)
        else ((v % 2 ^ w).toNat, if (v : ℚ) = X then 0 else fNX))) ∧
  (∀ dst ∈ [fmt64, fmt32], ∀ rm < 4, ∀ v : ℤ, (v ≠ 0 → dst.Delivers rm false (v < 0) |(v : ℚ)| (fromInt dst rm v)) ∧
    fromInt dst rm 0 = (0, 0))

/-- QPACK (R109) and QUNPK (R110). -/
def Obligations.QuantBlockWords : Prop :=
  (∀ d a s, dst64 d = true → src32 a = true → s.CanIssue [a] →
    let q := qpackOp ((List.range 32).map fun i => if s.memb.getLsbD i then s.srcF32 a i else 0)
    ∃ t, exec (.qpack d a) s = .next t ∧
      VecWord s t d true (fun n => BitVec.ofNat 64 (q.1 / 2 ^ (32 * (n % 4)) % 2 ^ 32 + 2 ^ 32 * q.2.1)) (BitVec.ofNat 32 (q.2.2 % 32))) ∧
  (∀ d a s, dst32 d = true → src64 a = true → s.CanIssue [a] →
    let pair := fun i => if a.kind = .vec ∧ !s.memb.getLsbD i then 0 else (s.src64 a i).toNat
    let blk := (List.range 4).foldl (fun b k => b + pair k % 2 ^ 32 * 2 ^ (32 * k)) 0
    ∃ t, exec (.qunpk d a) s = .next t ∧
      VecWord s t d false (fun n => BitVec.ofNat 64 (fmt32.deliver 0 false (q4xVal blk (pair 0 / 2 ^ 32 % 256) n)).1) 0)

/-- XALL, XANY, XEQ, XBITS and XGET (R146, R147). -/
def Obligations.LaneTestWords : Prop :=
  (∀ e ∈ ([
      (.xall, fun x m r => r = 1#32 ∧ (∀ n < 32, m.getLsbD n = true → x n ≠ 0) ∨ r = 0 ∧ ∃ n < 32, m.getLsbD n = true ∧ x n = 0),
      (.xany, fun x m r => r = 1#32 ∧ (∃ n < 32, m.getLsbD n = true ∧ x n ≠ 0) ∨ r = 0 ∧ ∀ n < 32, m.getLsbD n = true → x n = 0),
      (.xeq, fun x m r => r = 1#32 ∧ (∀ n < 32, ∀ k < 32, m.getLsbD n = true → m.getLsbD k = true → x n = x k) ∨
        r = 0 ∧ ∃ n < 32, ∃ k < 32, m.getLsbD n = true ∧ m.getLsbD k = true ∧ x n ≠ x k),
      (.xbits, fun x m r => ∀ n < 32, r.getLsbD n = (m.getLsbD n && x n != 0))
    ] : List ((RName → RName → Instr) × ((Nat → W32) → Lanes → W32 → Prop))),
    ∀ d a s, sgen d = true → vname a = true → s.CanIssue [] →
      let m := s.readS d.toNat
      ∃ r : W32, e.2 (fun n => if s.memb.getLsbD n then s.cw.readV a.toNat n else 0) m r ∧
        exec (e.1 d a) s = .next (s.afterFixed fun w => { w with
          sregs := w.sregs.set d.toNat r
          xstat := (w.xstat &&& ~~~s.memb) ||| if m &&& ~~~s.memb = 0 then 0 else s.memb })) ∧
  (∀ d a s, sgen d = true → vname a = true → s.CanIssue [] →
    let n := (s.readS d.toNat).toNat % 32
    exec (.xget d a) s = .next (s.afterFixed fun w => { w with
      sregs := w.sregs.set d.toNat (if s.memb.getLsbD n then s.cw.readV a.toNat n else 0)
      xstat := (w.xstat &&& ~~~s.memb) ||| if s.memb.getLsbD n then 0 else s.memb }))

/-- The permutes (R146, R147) as functions of the lane and of its own D. -/
def Obligations.LanePermuteWords : Prop :=
  (∀ e ∈ ([
      (.xpermAbs, fun _ v => some (v % 32)), (.xpermFlip, fun n v => some (n ^^^ v % 32)),
      ((.xpermLo · · false), fun n v => if v % 64 ≤ n then some (n - v % 64) else none),
      ((.xpermLo · · true), fun n v => some ((n + 32 - v % 32) % 32)),
      ((.xpermHi · · false), fun n v => if n + v % 64 < 32 then some (n + v % 64) else none),
      ((.xpermHi · · true), fun n v => some ((n + v % 32) % 32))
    ] : List ((RName → RName → Instr) × (Nat → Nat → Option Nat))),
    ∀ d a s, dstR d = true → vname a = true → s.CanIssue [] →
      let src := fun n => (e.2 n (s.cw.readV d.toNat n).toNat).filter fun k => s.memb.getLsbD k
      ∃ t u bad, exec (e.1 d a) s = .next t ∧
        VecWord s u d false (fun n => match src n with | some k => (s.cw.readV a.toNat k).setWidth 64 | none => 0) 0 ∧
        (∀ n < 32, bad.getLsbD n = (s.memb.getLsbD n && (src n).isNone)) ∧
        t = u.modCw fun w => { w with xstat := (s.cw.xstat &&& ~~~s.memb) ||| bad }) ∧
  (∀ d a s, dst32 d = true → vname a = true → s.CanIssue [] →
    (∃ t, exec (.xspread d a) s = .next t ∧
      ∃ low, (s.memb ≠ 0 → s.runs low ∧ ∀ n < low, s.memb.getLsbD n = false) ∧
        VecWord s t d false (fun _ => if s.memb.getLsbD low then (s.cw.readV a.toNat low).setWidth 64 else 0) 0) ∧
    (∃ t, ∃ r : Nat → W32, exec (.xsame d a) s = .next t ∧ VecWord s t d false (fun n => (r n).setWidth 64) 0 ∧
      ∀ n k, s.runs n → k < 32 → (r n).getLsbD k = (s.memb.getLsbD k && s.cw.readV a.toNat k == s.cw.readV a.toNat n)))

/-- SCAN (R71, R148) and RED (R70, R148), over the networks of the model. -/
def Obligations.ScanReduceWords : Prop :=
  ∀ e ∈ ([
      (.scanAdd, .redAdd, combI (· + ·), 0),
      (.scanMinS32, .redMinS32, combI minS, 0x7FFFFFFF#32),
      (.scanMinZ32, .redMinZ32, combI minZ, 0xFFFFFFFF#32),
      (.scanMaxS32, .redMaxS32, combI maxS, 0x80000000#32),
      (.scanMaxZ32, .redMaxZ32, combI maxZ, 0),
      (.scanAnd, .redAnd, combI (· &&& ·), 0xFFFFFFFF#32),
      (.scanOr, .redOr, combI (· ||| ·), 0),
      (.scanXor, .redXor, combI (· ^^^ ·), 0),
      (.scanFaddF32, .redFaddF32, combAdd, 0),
      (.scanFminF32, .redFminF32, combMM false, 0x7F800000#32),
      (.scanFmaxF32, .redFmaxF32, combMM true, 0xFF800000#32)
    ] : List ((RName → RName → Bool → Instr) × (RName → RName → Instr) × (State → Comb) × W32)),
    ∀ d a s, dst32 d = true → vname a = true → s.CanIssue [] →
      (∀ x, let r := network (scanStep (e.2.2.1 s)) (if x then shiftIn (s.contrib a) else s.contrib a)
        ∃ t, exec (e.1 d a x) s = .next t ∧
          VecWord s t d false (fun n => ((r.1.getD n none).getD e.2.2.2).setWidth 64) (BitVec.ofNat 32 (r.2 % 32))) ∧
      (let r := network (redStep (e.2.2.1 s)) (s.contrib a)
        ∃ t, exec (e.2.1 d a) s = .next t ∧
          VecWord s t d false (fun _ => ((r.1.getD 0 none).getD e.2.2.2).setWidth 64) (BitVec.ofNat 32 (r.2 % 32)))

/-- The networks of R70 and R71 for the integer operations of R148. -/
def Obligations.IntegerScansFold : Prop :=
  ∀ op ∈ ([(· + ·), minS, minZ, maxS, maxZ, (· &&& ·), (· ||| ·), (· ^^^ ·)] : List (W32 → W32 → W32)),
    ∀ v : List (Option W32), v.length = 32 →
      (∀ n < 32, (network (scanStep fun x y => (op x y, 0)) v).1.getD n none = presentFold op (v.take (n + 1))) ∧
      (∀ n < 32, (v.getD n none).isSome = true →
        (network (scanStep fun x y => (op x y, 0)) (shiftIn v)).1.getD n none = presentFold op (v.take n)) ∧
      (network (redStep fun x y => (op x y, 0)) v).1.getD 0 none = presentFold op v ∧
      (network (scanStep fun x y => (op x y, 0)) v).2 = 0 ∧ (network (redStep fun x y => (op x y, 0)) v).2 = 0

/-- BNZ, BRA, BZ and CALL (R89, R90). -/
def Obligations.BranchWords : Prop :=
  ∀ c o s, s.CanIssue [] → s.Closes →
    let tgt := s.cp.pc + BitVec.ofInt 64 (4 * o.toInt)
    let sel := fun n => c = 127#7 ∨ s.cw.readV c.toNat n ≠ 0
    (vname c = true → ∃ t, exec (.bnz c o) s = .next t ∧ Linked s t (fun _ => False) ∧
      Transferred s t (fun n => if s.cw.readV c.toNat n ≠ 0 then tgt else s.cp.pc + 4)) ∧
    (vname c = true → ∃ t, exec (.bz c o) s = .next t ∧ Linked s t (fun _ => False) ∧
      Transferred s t (fun n => if s.cw.readV c.toNat n = 0 then tgt else s.cp.pc + 4)) ∧
    (∃ t, exec (.bra o) s = .next t ∧ Linked s t (fun _ => False) ∧ Transferred s t (fun _ => tgt)) ∧
    (vname c = true ∨ c = 127#7 → ∃ t f, exec (.call c o) s = .next t ∧ Linked s t sel ∧ Transferred s t f ∧
      ∀ n, s.runs n → (sel n → f n = tgt) ∧ (¬ sel n → f n = s.cp.pc + 4))

/-- JMPI, CALLI and RET (R91). -/
def Obligations.JumpWords : Prop :=
  ∀ e ∈ ([(.jmpi, false), (.calli, true), (.ret, false)] : List ((RName → Instr) × Bool)),
    ∀ c s, vaddr c = true → s.CanIssue [] → s.Closes →
      ((∀ n, s.runs n → (s.cw.readV64 c.toNat n).toNat % 4 = 0) →
        ∃ t, exec (e.1 c) s = .next t ∧ Linked s t (fun _ => e.2 = true) ∧ Transferred s t (fun n => s.cw.readV64 c.toNat n)) ∧
      ((∃ n, s.runs n ∧ (s.cw.readV64 c.toNat n).toNat % 4 ≠ 0) →
        ∃ m, (∀ n < 32, m.getLsbD n = (s.memb.getLsbD n && (s.cw.readV64 c.toNat n).toNat % 4 != 0)) ∧
          exec (e.1 c) s = .next (s.trapP (s.trapHere 0 0 m)))

/-- EXIT (R92). -/
def Obligations.ExitWord : Prop :=
  ∀ c s gid, vname c = true ∨ c = 127#7 → s.CanIssue [] → s.Closes → s.cw.gid = some gid →
    let sel := fun n => s.runs n ∧ (c = 127#7 ∨ s.cw.readV c.toNat n ≠ 0)
    ∃ t, exec (.exit c) s = .next t ∧ t.mem = s.mem ∧
      (∀ n < 32, t.cw.exited.getLsbD n = true ↔ s.cw.exited.getLsbD n = true ∨ sel n) ∧
      (∀ p ∈ t.cw.paths, ∀ n, sel n → p.lanes.getLsbD n = false) ∧
      (t.cw.main = s.cw.main ∧ t.cw.opf = s.cw.opf ∧ t.cw.lastq = s.cw.lastq ∧ t.cw.sregs = s.cw.sregs ∧
        t.cw.xstat = s.cw.xstat ∧ t.cw.fpmode = s.cw.fpmode ∧ t.cw.fpstat = s.cw.fpstat ∧ (s.cg.phase ≠ .handler → t.cw.flags = s.cw.flags)) ∧
      (s.cg.phase = .running ∨ s.cg.phase = .admitted ∨ s.cg.phase = .handler →
        (t.group gid).phase = if t.liveCount gid = 0 then .retiring else s.cg.phase)

/-- CLAUSE (R29, R30, R34).
What log 13 and 17 say is the model's reading or choice, not a rule of the spec. -/
def Obligations.ClauseHeader : Prop :=
  ∀ w a b l n s, s.cw.paths ≠ [] →
    (s.cp.clause.isSome = true → exec (.clause w a b l n) s = .next s.illegal) ∧
    (s.cp.clause = none → okSet a = true → okSet b = true →
      ((∃ i < 12, w.getLsbD i = true ∧ s.cw.flags.get i 0 ≠ 0) → exec (.clause w a b l n) s = .next s) ∧
      (∀ ws, (∀ i < 12, w.getLsbD i = true → s.cw.flags.get i 0 = 0) →
        let got := s.clauseWords (headerNat w a b l n) (l.toNat + 1)
        (got.1.1 = (s.fetchAll s.cur.core s.cg (s.cp.pc.toNat + 4) (l.toNat + 1)).1 ∨
          s.cc.oldClause s.cp.pc.toNat (headerNat w a b l n) (l.toNat + 1) = some got.1.1) ∧
        (got.1.1 = ws → ws.length = l.toNat + 1 → n.toNat ≤ (ws.filter fun x => (wordLat x).isLong).length →
        ∃ t, exec (.clause w a b l n) s = .next t ∧ t.mem = s.mem ∧
          { t.cw with paths := s.cw.paths } = s.cw ∧ t.cw.paths.tail = s.cw.paths.tail ∧
          t.cp = { s.cp with
            pc := s.cp.pc + 4
            clause := some { waitM := w, setA := a.toNat, setB := b.toNat, len := l.toNat + 1, bind := n.toNat, pos := 0, nLong := 0, words := ws.map (BitVec.ofNat 32) } })))

/-- BAR (R95).
What log 11 says is the model's reading or choice, not a rule of the spec. -/
def Obligations.GroupBarrierWord : Prop :=
  ∀ (k : BitVec 5) (n : BitVec 18) s, s.CanIssue [] → s.memb ≠ 0 → s.unacked s.cur.core s.cur.slot = 0 →
    k.toNat < s.cg.nbar → n.toNat ≤ 32 * s.cg.slots.length →
    let b := s.cg.bars.get k.toNat {}
    let come := b.arrived + laneCount s.memb
    let full := (if n.toNat = 0 then s.liveCount s.cgid else n.toNat) ≤ come
    (b.arrived ≠ 0 ∧ b.count ≠ n.toNat → exec (.bar k n) s = .next (s.trapP (s.trapHere 2 0 s.memb))) ∧
    (b.arrived = 0 ∨ b.count = n.toNat → ∃ t, exec (.bar k n) s = .next t ∧ t.mem = s.mem ∧
      (¬ full → t.cg.bars.get k.toNat {} = { b with count := n.toNat, arrived := come } ∧
        t.cw.paths = { s.cp with status := .bar k.toNat } :: s.cw.paths.tail) ∧
      (full → t.cg.bars.get k.toNat {} = { count := n.toNat, arrived := 0, phase := !b.phase } ∧
        ∀ key ∈ s.cg.keys, (∀ p ∈ (t.wave key).paths, p.status ≠ .bar k.toNat) ∧
          (t.wave key).paths.map (·.lanes) = (s.wave key).paths.map (·.lanes)))

/-- RCV (R93).
What log 77 says is the model's reading or choice, not a rule of the spec. -/
def Obligations.ReconvergenceWord : Prop :=
  ∀ (m : RName) (b : BitVec 4) s, s.CanIssue [] → s.memb ≠ 0 → m.toNat < 97 →
    let mask := s.readS m.toNat
    let p := s.memb &&& mask
    let r := s.cw.rbs.get b.toNat {}
    let missing := mask &&& ~~~(r.arrived ||| p ||| s.cw.exited ||| ~~~s.cw.launched ||| r.withdrawn)
    (p ≠ 0 ∧ r.arrived ≠ 0 ∧ mask ≠ r.mask → exec (.rcv m b) s = .next (s.trapP (s.trapHere 2 0 s.memb))) ∧
    (p = 0 ∨ r.arrived = 0 ∨ mask = r.mask → ∃ t, exec (.rcv m b) s = .next t ∧ OnlyWave s t ∧
      { t.cw with paths := s.cw.paths, rbs := s.cw.rbs, saved := s.cw.saved, skid := s.cw.skid } = s.cw ∧
      (p = 0 → t.cw.paths = s.cp.past false :: s.cw.paths.tail ∧ t.cw.rbs = s.cw.rbs) ∧
      (p ≠ 0 → missing ≠ 0 → t.cw.rbs.get b.toNat {} = { r with mask := mask, arrived := r.arrived ||| p } ∧
        { s.cp with lanes := p, status := .rcv b.toNat } ∈ t.cw.paths ∧
        (s.memb &&& ~~~p ≠ 0 → { s.cp.past false with lanes := s.memb &&& ~~~p } ∈ t.cw.paths)) ∧
      (p ≠ 0 → missing = 0 → t.cw.rbs.get b.toNat {} = { mask := mask, arrived := 0, withdrawn := 0 } ∧
        ∀ q ∈ t.cw.paths, q.status ≠ .rcv b.toNat))

/-- TRAP and BKPT (R164, R222).
What log 77 and 79 say is the model's reading or choice, not a rule of the spec. -/
def Obligations.SoftwareTraps : Prop :=
  ∀ e ∈ ([(fun a => .trap a, 0x19, fun a s => BitVec.ofNat 64 ((s.src32 a (lowLane s.memb)).toNat % 256)), (fun _ => .bkpt, 0x1A, fun _ s => s.cp.pc)] :
      List ((Src → Instr) × Nat × (Src → State → W64))),
    ∀ a s, src32 a = true → s.CanIssue [a] → s.Closes →
      let tr : Trap := { code := e.2.1, epc := s.cp.pc + 4, eaddr := e.2.2 a s, emask := s.memb, redir := true, wave := s.cw.wix }
      (s.cg.phase ≠ .halting → s.cg.phase ≠ .handler → ∃ t, exec (e.1 a) s = .next t ∧ t.mem = s.mem ∧
        (t.group s.cgid).phase = .halting ∧ (t.group s.cgid).trap = some tr ∧
        (s.cg.slots.Nodup → s.cw.wix < s.cg.slots.length →
          (t.wave (waveKey s.cg.core (s.cg.slots.getD s.cw.wix 0))).stopped = true ∧
          (t.wave (waveKey s.cg.core (s.cg.slots.getD s.cw.wix 0))).skid = 0) ∧
        ∀ k, { t.wave k with paths := (s.wave k).paths, skid := (s.wave k).skid, stopped := (s.wave k).stopped, skidAc := (s.wave k).skidAc } = s.wave k) ∧
      (s.cg.phase = .handler → ∃ t, exec (e.1 a) s = .next t ∧ (t.group s.cgid).phase = .ending)

/-- ERET and ERET.KILL (R163, R165, R224, R225).
What log 16 and 77 say is the model's reading or choice, not a rule of the spec. -/
def Obligations.ReturnFromTrap : Prop :=
  ∀ s, s.CanIssue [] → s.Closes →
    (s.inHandler = false → exec .eret s = .next s.illegal ∧ exec .eretKill s = .next s.illegal) ∧
    (s.inHandler = true →
      (∃ t, exec .eret s = .next t ∧ t.mem = s.mem ∧
        (∀ v, s.cw.saved = some v → t.cw.fpmode = v.fpmode ∧ t.cw.fpstat = v.fpstat ∧ t.cw.xstat = v.xstat ∧
          t.cw.wbase = v.wbase ∧ t.cw.cbase = v.cbase ∧ t.cw.saved = none) ∧
        (∀ v tr, s.cw.saved = some v → s.cg.trap = some tr → s.cg.held = [] → tr.op = 0 ∨ tr.moved = true → tr.code ≠ 0x15 →
          s.ck ∈ s.cg.keys → waveKey s.cg.core (s.cg.slots.getD tr.wave 0) = s.ck →
          (∀ n < 32, ∀ q ∈ v.paths, q.lanes.getLsbD n = true → q.status = .run ∨ q.status = .stay →
            (tr.redir = true → tr.emask.getLsbD n = true → ∃ p ∈ t.cw.paths, p.lanes.getLsbD n = true ∧ p.pc = tr.epc ∧ p.status = .run) ∧
            (tr.redir = false ∨ tr.emask.getLsbD n = false →
              ∃ p ∈ t.cw.paths, p.lanes.getLsbD n = true ∧ p.pc = q.pc ∧ p.clause = q.clause ∧ p.status = .run)) ∧
          (∀ k ∈ s.cg.keys, (t.wave k).stopped = false ∧ (k ≠ s.ck → ∀ q ∈ (s.wave k).paths, ∀ n, q.lanes.getLsbD n = true →
            q.status = .run ∨ q.status = .stay → ∃ p ∈ (t.wave k).paths, p.lanes.getLsbD n = true ∧ p.pc = q.pc ∧ p.clause = q.clause ∧ p.status = .run))) ∧
        (s.cg.held = [] → s.liveCount s.cgid ≠ 0 → (t.group s.cgid).phase = .running ∧ (t.group s.cgid).trap = none) ∧
        (∀ h r, s.cg.held = h :: r → (t.group s.cgid).phase = .halting ∧ (t.group s.cgid).trap = some h ∧ (t.group s.cgid).held = r)) ∧
      (∃ t, exec .eretKill s = .next t ∧ t.mem = s.mem ∧ (t.group s.cgid).phase = .ending ∧
        ∀ k ∈ s.cg.keys, (t.wave k).exited = (t.wave k).launched ∧ (t.wave k).paths = []))

/-- RDSR and WRSR (R23, R166, R374).
What log 2 says is the model's reading or choice, not a rule of the spec. -/
def Obligations.SpecialRegisterWords : Prop :=
  ∀ s, s.CanIssue [] →
    let t := s.cg.trap.getD {}
    let l : W64 := (s.launchOf s.cg).lrec
    (∀ e ∈ ([(0x00, BitVec.ofNat 32 (256 * dieOf s.cur.core + s.cur.core % 256)), (0x01, BitVec.ofNat 32 s.cg.ctx),
        (0x02, l.setWidth 32), (0x03, (l >>> 32).setWidth 32), (0x04, BitVec.ofNat 32 s.cg.regs), (0x05, BitVec.ofNat 32 s.cg.spsize),
        (0x06, s.cw.mwtime)] : List (BitVec 7 × W32)),
      ∀ d, sgen d = true → ∃ u, exec (.rdsr d e.1) s = .next u ∧ ScaWord s u d false (e.2.setWidth 64)) ∧
    (∀ e ∈ ([(0x20, BitVec.ofNat 32 (t.code + if t.redir then 256 else 0)), (0x21, t.epc.setWidth 32), (0x22, (t.epc >>> 32).setWidth 32),
        (0x23, t.eaddr.setWidth 32), (0x24, (t.eaddr >>> 32).setWidth 32), (0x25, BitVec.ofNat 32 s.skidOf), (0x26, t.emask),
        (0x27, BitVec.ofNat 32 s.cg.skidsel)] : List (BitVec 7 × W32)),
      ∀ d, sgen d = true →
        (s.inHandler = true → ∃ u, exec (.rdsr d e.1) s = .next u ∧ ScaWord s u d false (e.2.setWidth 64)) ∧
        (s.inHandler = false → exec (.rdsr d e.1) s = .next s.illegal)) ∧
    (∀ d (n : BitVec 7), 7 ≤ n.toNat ∧ n.toNat < 32 ∨ 40 ≤ n.toNat → exec (.rdsr d n) s = .next s.illegal) ∧
    (∀ a, ssrc32 a = true → s.bound [a] = true →
      let v := s.src32 a 0
      exec (.wrsr 6 a) s = .next (s.afterFixed fun w => { w with mwtime := v }) ∧
      (∀ tr, s.inHandler = true → s.cg.trap = some tr → ∀ e ∈ ([(0x21, { tr with epc := (tr.epc >>> 32).setWidth 32 ++ v }),
          (0x22, { tr with epc := v ++ tr.epc.setWidth 32 }), (0x26, { tr with emask := v })] : List (BitVec 7 × Trap)),
        ∃ u, exec (.wrsr e.1 a) s = .next u ∧ PastWord s u false ∧ u.mem = s.mem ∧
          u.cg = { s.cg with trap := some { e.2 with redir := true, moved := true } }) ∧
      (s.inHandler = true → v.toNat % 32 < s.cg.slots.length →
        ∃ u, exec (.wrsr 0x27 a) s = .next u ∧ PastWord s u false ∧ u.mem = s.mem ∧ u.cg = { s.cg with skidsel := v.toNat % 32 }) ∧
      (∀ n : BitVec 7, n ≠ 6 → ¬ (s.inHandler = true ∧ (n = 0x21 ∨ n = 0x22 ∨ n = 0x26 ∨ n = 0x27 ∧ v.toNat % 32 < s.cg.slots.length)) →
        exec (.wrsr n a) s = .next s.illegal))

/-- WBASE (R87), CBASE (R88), ISYNC (R169) and YIELD (R170). -/
def Obligations.WindowAndIssueWords : Prop :=
  ∀ s, s.CanIssue [] →
    (∀ i, i.toNat % 16 = 0 ∧ i.toNat + 96 ≤ s.cg.regs → exec (.wbase i) s = .next (s.afterFixed fun w => { w with wbase := i.toNat })) ∧
    (∀ i, ¬ (i.toNat % 16 = 0 ∧ i.toNat + 96 ≤ s.cg.regs) → exec (.wbase i) s = .next s.illegal) ∧
    (∀ i, exec (.cbase i) s = .next (s.afterFixed fun w => { w with cbase := i })) ∧
    (∃ t, exec .isync s = .next t ∧ t.mem = s.mem ∧ (t.core s.cur.core) = { s.core s.cur.core with icache := [] } ∧
      { t.cw with paths := s.cw.paths, saved := s.cw.saved, skid := s.cw.skid } = s.cw ∧
      t.cw.paths.map (fun p => (p.lanes, p.pc, p.status)) = (s.cw.modPath fun p => p.past false).paths.map (fun p => (p.lanes, p.pc, p.status)) ∧
      ∀ p ∈ t.cw.paths, ∀ c, p.clause = some c → c.words = []) ∧
    (∃ t, exec .yield s = .next t ∧ OnlyWave s t ∧ { t.cw with paths := s.cw.paths, skid := s.cw.skid } = s.cw ∧
      t.cw.paths = (s.cw.modPath fun p => { p.past false with yielded := true }).paths)

/-- The words of R43 that are illegal as words, and what their trap leaves (R44, R222).
What log 17 says is the model's reading or choice, not a rule of the spec. -/
def Obligations.IllegalWords : Prop :=
  (∀ (i : Instr) w (s : State), encodeNat i = some w → i.wf = false → s.cp.clause.isSome = true → exec i s = .next s.illegal) ∧
  (∀ (i : Instr) (s : State) c, s.cp.clause = some c → c.pos + 1 < c.len →
    ((∃ r o, i = .bnz r o ∨ i = .bz r o ∨ i = .bra o ∨ i = .call r o) ∨ (∃ r, i = .jmpi r ∨ i = .calli r ∨ i = .ret r ∨ i = .exit r ∨ i = .grest r) ∨
      i = .bkpt ∨ i = .eret ∨ i = .eretKill ∨ ∃ a, i = .trap a ∧ s.bound [a] = true) →
    exec i s = .next s.illegal) ∧
  (∀ w a b l n (s : State), s.cp.clause = none → s.cw.paths ≠ [] → (okSet a && okSet b) = false → exec (.clause w a b l n) s = .next s.illegal) ∧
  (∀ (w : BitVec 12) a b (l n : BitVec 3) (s : State), s.cp.clause = none → s.cw.paths ≠ [] → okSet a = true → okSet b = true →
    (∀ i < 12, w.getLsbD i = true → s.cw.flags.get i 0 = 0) →
    let got := s.clauseWords (headerNat w a b l n) (l.toNat + 1)
    got.1.1.length = l.toNat + 1 → (got.1.1.filter fun x => (wordLat x).isLong).length < n.toNat →
    ∃ u, (u = s ∨ u = s.choose.2) ∧ exec (.clause w a b l n) s = .next u.illegal) ∧
  (∀ (i : Instr) (s : State) c, s.cp.clause = some c → c.sel = 15 →
    ((∃ e ∈ ([.ldS8, .ldZ8, .ldS16, .ldZ16, .ldS32, .ld64, .sld32, .sld64] : List (RName → RName → BitVec 4 → Ord → Scope → Hint → Instr)),
        ∃ t b o r sc h, i = e t b o r sc h) ∨
      (∃ e ∈ ([.atomAdd32, .atomMinS32, .atomMinZ32, .atomMaxS32, .atomMaxZ32, .atomAnd32, .atomOr32, .atomXor32, .atomSwap32, .atomCas32, .atomAdd64, .atomMinS64, .atomMinZ64, .atomMaxS64, .atomMaxZ64, .atomAnd64, .atomOr64, .atomXor64, .atomSwap64, .atomCas64] :
        List (RName → RName → Ord → Scope → Hint → Instr)), ∃ t b r sc h, i = e t b r sc h) ∨
      (∃ d a b, i = .spld d a b ∧ s.bound [a, b] = true) ∨ (∃ d a, i = .cld d a ∧ s.bound [a] = true) ∨
      (∃ d a b o, (i = .vldEq d a b o ∨ i = .vldLe d a b o) ∧ s.bound [b] = true) ∨
      (s.cc.mchain.length < 32 ∧ ∃ d a m z, i = .mdrainF32 d a m z ∨ i = .mdrainBf16 d a m z)) →
    exec i s = .next s.illegal) ∧
  (∀ (i : Instr) w (s : State), encodeNat i = some w → (∀ x a b l n, i ≠ .clause x a b l n) → s.cp.clause = none → s.cw.paths ≠ [] →
    exec i s = .next s.illegal) ∧
  (∀ (s : State) gid, s.cw.gid = some gid → s.cg.phase = .admitted ∨ s.cg.phase = .running →
    let t := s.illegal
    (t.group gid).phase = .halting ∧
    (t.group gid).trap = some { code := 0, epc := s.cp.pc, eaddr := 0, emask := s.memb, wave := s.cw.wix } ∧ t.mem = s.mem ∧ t.ops = s.ops ∧
    ∀ k, { t.wave k with skid := (s.wave k).skid, stopped := (s.wave k).stopped, skidAc := (s.wave k).skidAc } = s.wave k)

/-- LD and ST (R114, R118, R119).
What log 21 says is the model's reading or choice, not a rule of the spec. -/
def Obligations.VectorLoadStoreWords : Prop :=
  (∀ e ∈ ([(.ldS8, 1, true), (.ldZ8, 1, false), (.ldS16, 2, true), (.ldZ16, 2, false), (.ldS32, 4, false), (.ld64, 8, false)] :
      List ((RName → RName → BitVec 4 → Ord → Scope → Hint → Instr) × Nat × Bool)),
    ∀ t b o r sc h s sel at', (if e.2.1 = 8 then ldst64 t else ldst t) = true → vaddr b = true → loadOrd r = true →
      s.CanSend [] true true false sel →
      let va := fun n => s.cw.readV64 b.toNat n + BitVec.ofInt 64 (o.toInt * e.2.1)
      s.Reaches va { size := e.2.1 } at' →
      ∃ u, exec (e.1 t b o r sc h) s = .next u ∧
        SentOp s u sel (if isAcq r then [s.nextId] else [])
          (s.opOf sel ((lanesOf s.memb).map fun n => { lane := n, va := va n, pa := (at' n).1, leaf := BitVec.ofNat 64 (at' n).2 })
            { kind := .load, size := e.2.1, signed := e.2.2, acq := isAcq r, scope := scopeNum sc, hint := hintNum h, opfile := inOpf t, reg := s.reach t })) ∧
  (∀ e ∈ ([(.st8, 1), (.st16, 2), (.st32, 4), (.st64, 8)] : List ((RName → RName → BitVec 4 → Ord → Scope → Hint → Instr) × Nat)),
    ∀ t b o r sc h s sel at', (if e.2 = 8 then stsrc64 t else vname t) = true → vaddr b = true → storeOrd r = true →
      s.CanSend [] false true (isRel r) sel →
      let va := fun n => s.cw.readV64 b.toNat n + BitVec.ofInt 64 (o.toInt * e.2)
      s.Reaches va { size := e.2, write := true } at' →
      ∃ u, exec (e.1 t b o r sc h) s = .next u ∧
        SentOp s u sel []
          (s.opOf sel ((lanesOf s.memb).map fun n => { lane := n, va := va n, pa := (at' n).1, leaf := BitVec.ofNat 64 (at' n).2, data := (if e.2 = 8 then s.cw.readV64 t.toNat n else (s.cw.readV t.toNat n).setWidth 64).setWidth 256 })
            { kind := .store, size := e.2, scope := scopeNum sc, hint := hintNum h, zread := s.zeroRead (isRel r) (scopeNum sc) }))

/-- SLD and SST (R118 to R120).
What log 14 says is the model's reading or choice, not a rule of the spec. -/
def Obligations.ScalarLoadStoreWords : Prop :=
  ∀ t b o r sc h s sel pa leaf, spair b = true → s.memb ≠ 0 →
    (∀ e ∈ ([(.sld32, 4), (.sld64, 8)] : List ((RName → RName → BitVec 4 → Ord → Scope → Hint → Instr) × Nat)),
      (if e.2 = 8 then spair t else sgen t) = true → loadOrd r = true → s.CanSend [] true true false sel →
      let va := s.readS64 b.toNat + BitVec.ofInt 64 (o.toInt * e.2)
      s.check s.cur.core s.cg va { size := e.2 } = .ok pa leaf →
      ∃ u, exec (e.1 t b o r sc h) s = .next u ∧
        SentOp s u sel (if isAcq r then [s.nextId] else [])
          (s.opOf sel [{ va := va, pa := pa, leaf := BitVec.ofNat 64 leaf }]
            { kind := .load, size := e.2, acq := isAcq r, scope := scopeNum sc, hint := hintNum h, sca := true, reg := t.toNat })) ∧
    (∀ e ∈ ([(.sst32, 4), (.sst64, 8)] : List ((RName → RName → BitVec 4 → Ord → Scope → Hint → Instr) × Nat)),
      (if e.2 = 8 then spair t else sgen t) = true → storeOrd r = true → s.CanSend [] false true (isRel r) sel →
      let va := s.readS64 b.toNat + BitVec.ofInt 64 (o.toInt * e.2)
      s.check s.cur.core s.cg va { size := e.2, write := true } = .ok pa leaf →
      ∃ u, exec (e.1 t b o r sc h) s = .next u ∧
        SentOp s u sel []
          (s.opOf sel [{ va := va, pa := pa, leaf := BitVec.ofNat 64 leaf, data := (if e.2 = 8 then s.readS64 t.toNat else (s.readS t.toNat).setWidth 64).setWidth 256 }]
            { kind := .store, size := e.2, scope := scopeNum sc, hint := hintNum h, sca := true, zread := s.zeroRead (isRel r) (scopeNum sc) }))

/-- The atomics (R126).
What log 71 says is the model's reading or choice, not a rule of the spec. -/
def Obligations.AtomicWords : Prop :=
  ∀ e ∈ ([
      (.atomAdd32, 4, 0), (.atomMinS32, 4, 1), (.atomMinZ32, 4, 2), (.atomMaxS32, 4, 3), (.atomMaxZ32, 4, 4), (.atomAnd32, 4, 5), (.atomOr32, 4, 6), (.atomXor32, 4, 7), (.atomSwap32, 4, 8), (.atomCas32, 4, 9),
      (.atomAdd64, 8, 0), (.atomMinS64, 8, 1), (.atomMinZ64, 8, 2), (.atomMaxS64, 8, 3), (.atomMaxZ64, 8, 4), (.atomAnd64, 8, 5), (.atomOr64, 8, 6), (.atomXor64, 8, 7), (.atomSwap64, 8, 8), (.atomCas64, 8, 9)
    ] : List ((RName → RName → Ord → Scope → Hint → Instr) × Nat × Nat)),
    ∀ t b r sc h s sel at', (if e.2.2 = 9 then (if e.2.1 = 8 then cas64 t else ldst64 t) else if e.2.1 = 8 then ldst64 t else ldst t) = true →
      vaddr b = true → s.CanSend [] true true (isRel r) sel →
      let word := fun (k n : Nat) => if e.2.1 = 8 then s.cw.readV64 k n else (s.cw.readV k n).setWidth 64
      s.Reaches (fun n => s.cw.readV64 b.toNat n) { size := e.2.1, write := true, atom := some e.2.2 } at' →
      ∃ u, exec (e.1 t b r sc h) s = .next u ∧
        SentOp s u sel (if isAcq r then [s.nextId] else [])
          (s.opOf sel ((lanesOf s.memb).map fun n => { lane := n, va := s.cw.readV64 b.toNat n, pa := (at' n).1, leaf := BitVec.ofNat 64 (at' n).2, data := (word (if e.2.2 = 9 then t.toNat + e.2.1 / 4 else t.toNat) n).setWidth 256, aux := word t.toNat n })
            { kind := .atom, fn := e.2.2, size := e.2.1, acq := isAcq r, scope := scopeNum sc, hint := hintNum h, opfile := inOpf t, reg := s.reach t, zread := s.zeroRead (isRel r) (scopeNum sc) })

/-- VLD.EQ, VLD.LE, VST (R135, R136) and VFLOOR (R141).
What log 20 says is the model's reading or choice, not a rule of the spec. -/
def Obligations.VersionWords : Prop :=
  (∀ e ∈ ([(.vldEq, .vldEq, false), (.vldLe, .vldLe, false), (.vst, .vst, true)] : List ((RName → RName → Src → Ord → Instr) × OpKind × Bool)),
    ∀ d a b r s sel at', oct d = true → vpair a = true → src32 b = true → (if e.2.2 then storeOrd r else loadOrd r) = true →
      s.CanSend [b] (!e.2.2) true (e.2.2 && isRel r) sel →
      let va := fun n => s.cw.readV64 a.toNat n
      let scope := (lanesOf s.memb).foldl (fun m n => max m (s.regionScope s.cg.ctx (va n).toNat)) 0
      s.Reaches va { size := 32, write := e.2.2, ver := true } at' →
      ∃ u, exec (e.1 d a b r) s = .next u ∧
        SentOp s u sel (if !e.2.2 && isAcq r then [s.nextId] else [])
          (s.opOf sel ((lanesOf s.memb).map fun n => { lane := n, va := va n, pa := (at' n).1, leaf := BitVec.ofNat 64 (at' n).2, aux := (s.src32 b n).setWidth 64, data := if e.2.2 then s.eightRegs d.toNat n else 0 })
            { kind := e.2.1, size := 32, acq := !e.2.2 && isAcq r, opfile := inOpf d, reg := s.reach d, scope := scope
              zread := s.zeroRead (e.2.2 && isRel r) scope })) ∧
  (∀ a b s sel, scaLit a = true → ssrc32 b = true → s.CanSend [b] false false false sel →
    let n := (s.src32 a 0).toNat
    let g := s.regions.get (64 * s.cg.ctx + n) {}
    (n < 64 ∧ g.armed = true → ∃ u o, exec (.vfloor a b) s = .next u ∧ SentOp s u sel [] o ∧
      o.kind = .vfloor ∧ o.region = 64 * s.cg.ctx + n ∧ o.fn = (s.src32 b 0).toNat ∧ o.pendSl = g.floors.map (·.1) ∧ o.flag = sel ∧ o.id = s.nextId) ∧
    (63 < n ∨ g.armed = false → exec (.vfloor a b) s = .next (s.trapP (s.trapHere 0x13 0 s.memb))))

/-- SPLD, SPST (R129) and CLD (R130). -/
def Obligations.ScratchpadAndConstantWords : Prop :=
  (∀ d a b s, src32 a = true → src32 b = true → s.memb ≠ 0 →
    let off := fun n => s.src32 a n + s.src32 b n
    let acc : Nat → BitVec 256 → Acc := fun n v => { lane := n, va := (off n).setWidth 64, pa := (off n).toNat + dieOf s.cur.core * 2 ^ 48, data := v }
    ((∀ n, s.runs n → (off n).toNat % 4 = 0 ∧ (off n).toNat < s.cg.spsize) →
      (∀ sel, ldst d = true → s.CanSend [a, b] true true false sel → ∃ u, exec (.spld d a b) s = .next u ∧
        SentOp s u sel [] (s.opOf sel ((lanesOf s.memb).map fun n => acc n 0) { kind := .spld, opfile := inOpf d, reg := s.reach d })) ∧
      (∀ sel, vname d = true → s.CanSend [a, b] false true false sel → ∃ u, exec (.spst d a b) s = .next u ∧
        SentOp s u sel [] (s.opOf sel ((lanesOf s.memb).map fun n => acc n ((s.cw.readV d.toNat n).setWidth 256)) { kind := .spst }))) ∧
    (∀ e ∈ ([(.spld d a b, ldst d, true), (.spst d a b, vname d, false)] : List (Instr × Bool × Bool)),
      ∀ sel, e.2.1 = true → s.CanSend [a, b] e.2.2 true false sel →
        ((∃ n, s.runs n ∧ (off n).toNat % 4 ≠ 0) →
          ∃ tr, exec e.1 s = .next (s.trapP tr) ∧ tr.code = 4 ∧ tr.epc = s.cp.pc ∧
            ∀ n < 32, tr.emask.getLsbD n = (s.memb.getLsbD n && (off n).toNat % 4 != 0)) ∧
        ((∀ n, s.runs n → (off n).toNat % 4 = 0) → (∃ n, s.runs n ∧ s.cg.spsize ≤ (off n).toNat) →
          ∃ tr, exec e.1 s = .next (s.trapP tr) ∧ tr.code = 0x0A ∧ tr.epc = s.cp.pc ∧
            ∀ n < 32, tr.emask.getLsbD n = (s.memb.getLsbD n && s.cg.spsize ≤ (off n).toNat)))) ∧
  (∀ d a s sel, ldst d = true → src32 a = true → s.memb ≠ 0 → s.CanSend [a] true true false sel →
    let i := fun n => (s.src32 a n).toNat
    let l := s.launchOf s.cg
    let va := fun n => l.cbanks.get (i n / 16384) 0 + BitVec.ofNat 64 (4 * (i n % 16384))
    (∀ pl : Nat → Nat × Nat, (∀ n, s.runs n → i n < 65536 ∧ l.cbanks.has (i n / 16384) = true ∧
        s.bankChk s.cur.core s.cg (va n).toNat = .ok (pl n).1 (pl n).2) →
      ∃ u, exec (.cld d a) s = .next u ∧
        SentOp s u sel [] (s.opOf sel ((lanesOf s.memb).map fun n =>
          { lane := n, va := va n, pa := (pl n).1, leaf := BitVec.ofNat 64 (pl n).2 })
          { kind := .cld, opfile := inOpf d, reg := s.reach d })) ∧
    ((∃ n, s.runs n ∧ (65536 ≤ i n ∨ l.cbanks.has (i n / 16384) = false)) →
      exec (.cld d a) s = .next (s.trapP (s.trapHere 1 0 s.memb))))

/-- The precise checks of R115. -/
def Obligations.AccessTraps : Prop :=
  ∀ e ∈ ([(.ldS8, 1, false), (.ldZ8, 1, false), (.ldS16, 2, false), (.ldZ16, 2, false), (.ldS32, 4, false), (.ld64, 8, false),
      (.st8, 1, true), (.st16, 2, true), (.st32, 4, true), (.st64, 8, true)] :
      List ((RName → RName → BitVec 4 → Ord → Scope → Hint → Instr) × Nat × Bool)),
    ∀ t b o r sc h s sel, (if e.2.2 then (if e.2.1 = 8 then stsrc64 t else vname t) else if e.2.1 = 8 then ldst64 t else ldst t) = true →
      vaddr b = true → (if e.2.2 then storeOrd r else loadOrd r) = true → s.CanSend [] (!e.2.2) true (e.2.2 && isRel r) sel →
      let va := fun n => s.cw.readV64 b.toNat n + BitVec.ofInt 64 (o.toInt * e.2.1)
      let chk := fun n => s.check s.cur.core s.cg (va n) { size := e.2.1, write := e.2.2 }
      ∀ n c, s.runs n → chk n = .trap c → (∀ k c', s.runs k → chk k = .trap c' → c ≤ c' ∧ (c' = c → n ≤ k)) →
        ∃ tr, exec (e.1 t b o r sc h) s = .next (s.trapP tr) ∧ tr.code = c ∧ tr.eaddr = va n ∧ tr.epc = s.cp.pc ∧
          ∀ k < 32, tr.emask.getLsbD k = (s.memb.getLsbD k && chk k == .trap c)

/-- The prefetches (R131). -/
def Obligations.PrefetchWords : Prop :=
  ∀ e ∈ ([(fun a h x => .prefL1 a h x, 0), (fun a h x => .prefLlc a h x, 1), (fun a _ x => .prefDemote a x, 2)] :
      List ((RName → Hint → Bool → Instr) × Nat)),
    ∀ a h x s sel, (if x then spair a else vaddr a) = true → s.CanSend [] false true false sel →
      let va := fun n => if x then s.readS64 a.toNat else s.cw.readV64 a.toNat n
      let ok := fun n => ∃ pa leaf, s.check s.cur.core s.cg (va n) { size := 1 } = .ok pa leaf
      let room := fun n => ∃ pa leaf, s.check s.cur.core s.cg (va n) { size := 1 } = .ok pa leaf ∧ s.OwnRoom leaf pa (va n).toNat
      ∃ u, exec (e.1 a h x) s = .next u ∧ u.mem = s.mem ∧ (∀ k, k ≠ s.ck → u.wave k = s.wave k) ∧
        { u.cw with paths := s.cw.paths, flags := s.cw.flags, skid := s.cw.skid } = s.cw ∧
        u.cw.paths = (s.cw.modPath fun p => p.past true).paths ∧
        ((if x then ok 0 else ∃ n, s.runs n ∧ room n) → s.memb ≠ 0 →
          (∀ f, u.cw.flags.get f 0 = s.cw.flags.get f 0 + if f = sel ∧ f < 12 then 1 else 0) ∧
          ∃ o, u.ops = s.ops ++ [o] ∧ o.kind = .pref ∧ o.fn = e.2 ∧ o.flag = sel ∧ o.sca = x ∧
            (∀ a ∈ o.accs, (if x then a.lane = 0 else s.runs a.lane) ∧ a.va = va a.lane ∧
              ∃ leaf, s.check s.cur.core s.cg (va a.lane) { size := 1 } = .ok a.pa leaf) ∧
            (x = false → ∀ n, s.runs n → room n → ∃ a ∈ o.accs, a.lane = n)) ∧
        (¬ (if x then ok 0 else ∃ n, s.runs n ∧ ok n) → u.ops = s.ops ∧ u.cw.flags = s.cw.flags)

/-- FENCE (R133) and FENCEX (R134).
What log 19 and 107 say is the model's reading or choice, not a rule of the spec. -/
def Obligations.FenceWords : Prop :=
  ∀ e ∈ ([(fun sc o _ _ => .fence sc o, fun sc o _ _ s => (isRel o, isAcq o, s.acqDrops s.cur.core (scopeNum sc), (if isAcq o then s.pathLoads else []), [])),
      (fun sc _ p q => .fencex p q sc, fun sc _ p q s => (p.getLsbD 0, q.getLsbD 0, s.acqDrops s.cur.core (scopeNum sc) || p / 2 != 0, (if p.getLsbD 0 then s.waveOps else if q.getLsbD 0 then s.pathLoads else []),
        [if p.getLsbD 1 then s.cc.copy.tail else 0, if p.getLsbD 3 then s.cc.gath.tail else 0, if p.getLsbD 4 then s.cc.coll.tail else 0, if p.getLsbD 2 then s.nextId else 0]))] :
      List ((Scope → Ord → BitVec 5 → BitVec 5 → Instr) × (Scope → Ord → BitVec 5 → BitVec 5 → State → Bool × Bool × Bool × List Nat × List Nat))),
    ∀ sc o p q s, o ≠ .plain → p ≠ 0 → q ≠ 0 → s.CanIssue [] → s.held s.cp = false →
      let w := e.2 sc o p q s
      let far := w.1 = true ∧ scopeNum sc = 7
      (¬ far → s.fenceDone s.cur.core s.cur.slot w.1 w.2.2.2.1 w.2.2.2.2 = true → ∃ t, exec (e.1 sc o p q) s = .next t ∧ PastWord s t false ∧
        t.mem = s.mem ∧ { t.cw with paths := s.cw.paths, skid := s.cw.skid } = s.cw ∧
        t.core s.cur.core = if w.2.1 = true ∧ w.2.2.1 = true then { s.core s.cur.core with l1 := (s.core s.cur.core).l1.filter fun x => x.2.priv, leases := [], grants := [] }
          else s.core s.cur.core) ∧
      (¬ far → s.fenceDone s.cur.core s.cur.slot w.1 w.2.2.2.1 w.2.2.2.2 = false → ∃ t, exec (e.1 sc o p q) s = .next t ∧ OnlyWave s t ∧
        t.cp = { s.cp with status := .wait (.fence w.1 w.2.1 w.2.2.1 w.2.2.2.1 w.2.2.2.2) s.memb 0 } ∧ t.cw.paths.tail = s.cw.paths.tail) ∧
      (far → ∃ t m, exec (e.1 sc o p q) s = .next t ∧ t.mem = s.mem ∧ (∀ k, k ≠ s.ck → t.wave k = s.wave k) ∧ t.ops = s.ops ++ [m] ∧
        m.id = s.nextId ∧ m.accs = [] ∧ m.zread = (s.die (dieOf s.cur.core)).cdTicks ∧ m.core = s.cur.core ∧ m.slot = s.cur.slot ∧
        t.cp = { s.cp with status := .wait (.fence w.1 w.2.1 w.2.2.1 (s.nextId :: w.2.2.2.1) w.2.2.2.2) s.memb 0 } ∧ t.cw.paths.tail = s.cw.paths.tail)

/-- SPAWN and SPAWN.TRY (R150, R151).
What log 11 and 41 say is the model's reading or choice, not a rule of the spec. -/
def Obligations.SpawnWords : Prop :=
  ∀ d a s, oct d = true → addrSrc a = true → s.CanTurn [] true 0 (s.cw.wix + 1) →
    let ts := (lanesOf s.memb).filterMap fun n => s.spawnThread d a n
    let r := (s.tookOrder 0 (s.cw.wix + 1)).placeAll s.cur.core [] ts
    ((∀ n, s.runs n → s.spawnFail d a n = none) →
      (r.2 = [] → exec (.spawn d a) s = .next ((r.1.past false).count s)) ∧
      (r.2 ≠ [] → exec (.spawn d a) s = .next ((r.1.await (.spawn r.2) (maskOf (r.2.map (·.lane)))).count s)) ∧
      exec (.spawnTry d a) s = .next (((r.1.modCw fun w => w.report s.memb (maskOf (r.2.map (·.lane)))).past false).count s)) ∧
    (∀ n t, s.spawnThread d a n = some t → t.key = (s.src64 a n).toNat ∧ t.key ≠ 0 ∧ t.join = s.cw.readV64 (d.toNat + 4) n ∧ t.lane = n ∧
      ∃ x, (s.launchOf s.cg).spawnE t.key = some x ∧ t.pay = (List.range x.words).map fun i => s.cw.readV (d.toNat + i) n) ∧
    (∀ n k c, s.runs n → s.spawnFail d a n = some (k, c) →
      (∀ m k' c', s.runs m → s.spawnFail d a m = some (k', c') → k ≤ k' ∧ (k' = k → n ≤ m)) →
      ∃ tr, exec (.spawn d a) s = .next (s.trapP tr) ∧ exec (.spawnTry d a) s = .next (s.trapP tr) ∧ tr.code = c ∧
        tr.eaddr = (if k = 0 then 0 else s.cw.readV64 (d.toNat + 4) n) ∧
        ∀ m < 32, tr.emask.getLsbD m = (s.memb.getLsbD m && (s.spawnFail d a m).any fun x => x.1 == k))

/-- JOIN (R154), MON (R155) and MWAIT (R156).
What log 39 says is the model's reading or choice, not a rule of the spec. -/
def Obligations.JoinAndMonitorWords : Prop :=
  (∀ a s at', addrSrc a = true → s.CanIssue [] → s.held s.cp = false → s.Reaches (fun n => s.src64 a n) { size := 4 } at' →
    let accs : List Acc := (lanesOf s.memb).map fun n => { lane := n, va := s.src64 a n, pa := (at' n).1, leaf := BitVec.ofNat 64 (at' n).2 }
    let waits := fun (w : WaitWord) (left : Nat) (u : State) =>
      { u with dies := s.dies } = s.modCp fun p => { p with status := .wait w s.memb left }
    (∃ u, waits (.mon accs) 0 u ∧ exec (.mon a) s = .next (u.count s)) ∧
    (∃ u, waits (.join accs) (if s.cw.mwtime = 0 then 0 else s.cw.mwtime.toNat + 1) u ∧
      exec (.join a) s = .next ((accs.foldl (fun v x => v.joinLane s.cur.core s.cur.slot x.lane x) u).count s))) ∧
  (∀ (v : State) core slot lane x,
    (v.watchRead core x.leaf.toNat x.pa = some 0 ∧ v.badRead (x.pa / 128) (v.group ((v.wave (waveKey core slot)).gid.getD 0)).ctx = false →
      v.joinLane core slot lane x = (v.dropL1 core).modLanePath (waveKey core slot) lane fun p => p.finish (laneBit lane)) ∧
    (v.watchRead core x.leaf.toNat x.pa ≠ some 0 → v.joinLane core slot lane x = v)) ∧
  (∀ (p : Path) w m left, p.status = .wait w m left → p.finish m = { p.past false with status := .run }) ∧
  (∀ s, s.CanIssue [] →
    let up := fun n => (s.cw.mons.get n {}).trig = true ∨ (s.cw.mons.get n {}).armed = false
    ((∀ n, s.runs n → up n) → ∃ t, exec .mwait s = .next t ∧ OnlyWave s t ∧ PastWord s t false ∧
      { t.cw with mons := s.cw.mons, paths := s.cw.paths, skid := s.cw.skid } = s.cw ∧
      ∀ n, s.runs n → (t.cw.mons.get n {}).armed = false ∧ (t.cw.mons.get n {}).trig = false) ∧
    ((∃ n, s.runs n ∧ ¬ up n) → ∃ t m, exec .mwait s = .next t ∧ OnlyWave s t ∧
      (∀ n < 32, m.getLsbD n = true ↔ s.runs n ∧ ¬ up n) ∧
      t.cp = { s.cp with status := .wait .mwait m (if s.cw.mwtime = 0 then 0 else s.cw.mwtime.toNat + 1) }))

/-- QINIT, QPUSH, QPOP, QTRY and ALLOW (R158 to R160).
What log 11 and 38 say is the model's reading or choice, not a rule of the spec. -/
def Obligations.QueueWords : Prop :=
  ∀ s, s.memb ≠ 0 → s.cp.status = .run → s.held s.cp = false → (∀ p ∈ s.cw.paths.tail, p.lanes &&& s.memb = 0) →
    let low := lowLane s.memb
    let stop := fun (q : Nat) => (.next (s.trapP (s.trapHere 0x16 (BitVec.ofNat 64 q) s.memb)) : Out)
    (∀ (q : BitVec 3) a, src32 a = true → s.CanIssue [a] → s.inOrder (s.queuePlace q.toNat) s.queueOrd = true →
      let v := s.src32 a low
      let n := v.toNat / 2 ^ 20 % 16
      let base := v.toNat % 2 ^ 19
      let x := s.cg.queues.get q.toNat {}
      let good := v.toNat / 2 ^ 24 = 0 ∧ v.toNat / 2 ^ 19 % 2 = 0 ∧ 1 ≤ n ∧ n ≤ 10 ∧ base % 4 = 0 ∧
        s.queueWaiters s.cgid true q.toNat = [] ∧ s.queueWaiters s.cgid false q.toNat = []
      (s.queueFree q.toNat = true → good → base + 4 * 2 ^ n ≤ s.cg.spsize →
        ∃ t, exec (.qinit q a) s = .next t ∧ PastWord s t false ∧ t.mem = s.mem ∧
          t.cg = { s.cg with queues := s.cg.queues.set q.toNat { x with init := true, base := base, logn := n, head := 0, tail := 0, allow := 2 ^ n } }) ∧
      (s.queueFree q.toNat = true → ¬ good → exec (.qinit q a) s = stop q.toNat) ∧
      (s.queueFree q.toNat = true → good → s.cg.spsize < base + 4 * 2 ^ n →
        exec (.qinit q a) s = .next (s.trapP (s.trapHere 0x0A (BitVec.ofNat 64 base) s.memb))) ∧
      (x.init = true → x.room = true → s.unacked s.cur.core s.cur.slot = 0 → s.queueWaiters s.cgid true q.toNat = [] →
        ∃ t, exec (.qpush q a) s = .next t ∧ PastWord s t false ∧ t.mem = s.mem ∧
          t.cg.queues.get q.toNat {} = { x with tail := x.tail + 1, allow := x.allow - 1, pushed := x.pushed + 1 } ∧
          t.cg.spGet (x.slot x.tail) 4 = v.toNat ∧ (∀ k, k ≠ q.toNat → t.cg.queues.get k {} = s.cg.queues.get k {})) ∧
      (x.init = false → s.unacked s.cur.core s.cur.slot = 0 → exec (.qpush q a) s = stop q.toNat) ∧
      (s.queueFree q.toNat = true → x.init = true → x.allow + v.toNat ≤ 2 ^ x.logn → ∃ t, exec (.allow q a) s = .next t ∧ PastWord s t false ∧ t.mem = s.mem ∧
        t.cg = { s.cg with queues := s.cg.queues.set q.toNat { x with allow := x.allow + v.toNat } }) ∧
      (s.queueFree q.toNat = true → x.init = false ∨ 2 ^ x.logn < x.allow + v.toNat → exec (.allow q a) s = stop q.toNat)) ∧
    (∀ d a, ldst d = true → scaLit a = true → s.CanIssue [a] → s.inOrder (s.queuePlace (s.src32 a 0).toNat) s.queueOrd = true →
      let q := (s.src32 a 0).toNat
      let x := s.cg.queues.get q {}
      let h := BitVec.ofNat 32 (s.cg.spGet (x.slot x.head) 4)
      (q < 8 → x.init = true → s.queueWaiters s.cgid false q = [] → x.empty = false →
        (∃ t, exec (.qpop d a) s = .next t ∧ PastWord s t false ∧ t.mem = s.mem ∧ (∀ n, s.runs n → t.cw.readV d.toNat n = h) ∧
          t.cg.queues.get q {} = { x with head := x.head + 1, popped := x.popped + 1 }) ∧
        (s.queueFree q = true → ∃ t, exec (.qtry d a) s = .next t ∧ PastWord s t false ∧ t.mem = s.mem ∧ (∀ n, s.runs n → t.cw.readV d.toNat n = h) ∧
          t.cg.queues.get q {} = { x with head := x.head + 1 } ∧ t.cw.xstat = s.cw.xstat &&& ~~~s.memb)) ∧
      (q < 8 → x.init = true → x.empty = true → s.queueFree q = true → exec (.qtry d a) s =
        .next ((s.tookOrder (s.queuePlace q) s.queueOrd).afterFixed fun w => { w with xstat := (w.xstat &&& ~~~s.memb) ||| s.memb })) ∧
      (7 < q ∨ x.init = false → exec (.qpop d a) s = stop q ∧ (s.queueFree q = true → exec (.qtry d a) s = stop q))) ∧
    (∀ (q : BitVec 3) a, src32 a = true → s.CanIssue [a] →
      (s.inOrder (s.queuePlace q.toNat) s.queueOrd = false →
        exec (.qinit q a) s = .next s ∧ exec (.qpush q a) s = .next s ∧ exec (.allow q a) s = .next s) ∧
      (s.queueFree q.toNat = false → exec (.allow q a) s = .next s ∧ exec (.qinit q a) s = .next s))

/-- STAGEPUSH (R161) and AMSG (R162).
What log 11, 42, 91 and 92 say is the model's reading or choice, not a rule of the spec. -/
def Obligations.StageAndMessageWords : Prop :=
  ∀ d a s, s.CanIssue [a] → s.held s.cp = false → s.unacked s.cur.core s.cur.slot = 0 →
    (quad d = true → scaLit a = true →
      let n := (s.src32 a 0).toNat
      let ts : List Thread := (lanesOf s.memb).map fun l =>
        { lane := l, ctx := s.cg.ctx, lid := s.cg.lid, pay := (List.range 4).map fun i => s.cw.readV (d.toNat + i) l }
      let r := s.stageAll (dieOf s.cur.core) s.cg.ctx s.cg.lid n ts
      (7 < n ∨ s.stageOf s.cg n = none → exec (.stagepush d a) s = .next (s.trapP (s.trapHere 0x17 (BitVec.ofNat 64 n) s.memb))) ∧
      (n ≤ 7 → s.stageOf s.cg n ≠ none →
        (r.2 = [] → exec (.stagepush d a) s = .next ((r.1.past false).count s)) ∧
        (r.2 ≠ [] → exec (.stagepush d a) s = .next ((r.1.await (.stagePush n r.2) (maskOf (r.2.map (·.lane)))).count s)))) ∧
    (hexa d = true → src32 a = true →
      let v := fun n => (s.src32 a n).toNat
      let die := fun n => (msgDie (v n)).getD 0
      let ts : List Thread := (lanesOf s.memb).map fun n =>
        { key := v n % 256, msg := true, ctx := s.cg.ctx, lane := n, wave := s.ck, desc := s.src32 a n, tdie := die n
          lid := if die n = dieOf s.cur.core then s.cg.lid else
            (s.memberOn (die n) s.cg.ctx (s.launchOf s.cg).entry.toNat (s.launchOf s.cg).fedn).getD s.cg.lid
          pay := (List.range (v n / 2 ^ 8 % 32)).map fun i => s.cw.readV (d.toNat + i) n }
      let r := s.sendAll (dieOf s.cur.core) ts
      (∀ n, s.runs n → s.msgOk s.cg (v n) = false → (∀ m < n, s.runs m → s.msgOk s.cg (v m) = true) →
        exec (.amsg d a) s = .next (s.trapP (s.trapHere 0x18 (BitVec.ofNat 64 (v n)) s.memb))) ∧
      ((∀ n, s.runs n → s.msgOk s.cg (v n) = true) →
        (r.2 = [] → exec (.amsg d a) s = .next ((r.1.past false).count s)) ∧
        (r.2 ≠ [] → exec (.amsg d a) s = .next ((r.1.await (.amsg r.2) (maskOf (r.2.map (·.lane)))).count s))))

/-- TAGWAIT.ANY, TAGWAIT.ALL and TAGFF (R182).
What log 54 says is the model's reading or choice, not a rule of the spec. -/
def Obligations.TagWords : Prop :=
  ∀ a s, tagSrc a = true → s.CanIssue [a] →
    let m := s.src64 a 0
    let tags := (s.core s.cur.core).tags
    let left := if s.cw.mwtime = 0 then 0 else s.cw.mwtime.toNat + 1
    (∀ e ∈ ([(.tagwaitAny, .tagAny, m = 0 ∨ ∃ i < 64, m.getLsbD i = true ∧ tags.getLsbD i = true),
        (.tagwaitAll, .tagAll, ∀ i < 64, m.getLsbD i = true → tags.getLsbD i = true)] : List ((Src → Instr) × (W64 → WaitWord) × Prop)),
      (e.2.2 → ∃ t, exec (e.1 a) s = .next t ∧ OnlyWave s t ∧ PastWord s t false ∧ { t.cw with paths := s.cw.paths, skid := s.cw.skid } = s.cw) ∧
      (¬ e.2.2 → ∃ t, exec (e.1 a) s = .next t ∧ OnlyWave s t ∧ { t.cw with paths := s.cw.paths, skid := s.cw.skid } = s.cw ∧
        t.cw.paths = (s.cw.modPath fun p => { p with status := .wait (e.2.1 m) s.memb left }).paths)) ∧
    (∀ d, sgen d = true → ∃ t r, exec (.tagff d a) s = .next t ∧ ScaWord s t d false (BitVec.ofNat 64 r) ∧ r ≤ 64 ∧
      (∀ i < r, (tags &&& m).getLsbD i = false) ∧ (r < 64 → (tags &&& m).getLsbD r = true))

/-- GSAVE (R167, R383) and GREST (R168, R384).
What log 52, 96, 97 and 120 say is the model's reading or choice, not a rule of the spec. -/
def Obligations.SaveAndRestoreWords : Prop :=
  ∀ a s, spair a = true → s.CanIssue [] →
    let va := s.readS64 a.toNat
    (s.held s.cp = false → s.inHandler = true →
      (va.toNat % 256 = 0 → s.cg.held.length ≤ 14 → s.imageChk va.toNat s.cg.imageSize true = none →
        ((s.canSave s.cgid && s.matrixOver s.cgid) = true → ∃ t, exec (.gsave a) s = .next t ∧
          t = ((s.saveAt s.cur.core s.cgid va.toNat).leaveMatrix s.cur.core s.cgid).modCp fun p => { p.past false with status := .run }) ∧
        ((s.canSave s.cgid && s.matrixOver s.cgid) = false → ∃ t, exec (.gsave a) s = .next t ∧ OnlyWave s t ∧
          t.cw.paths = (s.cw.modPath fun p => { p with status := .wait (.gsave va) s.memb 0 }).paths)) ∧
      (va.toNat % 256 ≠ 0 ∨ 14 < s.cg.held.length → exec (.gsave a) s = .next (s.trapP (s.trapHere 0x1B va s.memb)))) ∧
    (s.inHandler = false → exec (.gsave a) s = .next s.illegal) ∧
    (s.Closes → s.cg.restore = true → s.cg.fresh = true → (∀ c, s.cp.clause = some c → c.pos = 0) → s.cg.phase ≠ .halting →
      let rd := fun o n => s.imgRead s.cur.core s.cg (va.toNat + o) n
      (va.toNat % 256 = 0 → s.imageChk va.toNat s.cg.imageSize false = none → s.cg.imageFits rd = true →
        exec (.grest a) s = .next (s.restoreImage s.cgid rd)) ∧
      (va.toNat % 256 ≠ 0 → exec (.grest a) s = .next (s.trapP (s.trapHere 0x1B va s.memb))) ∧
      (va.toNat % 256 = 0 → s.imageChk va.toNat s.cg.imageSize false = none → s.cg.imageFits rd = false →
        exec (.grest a) s = .next (s.trapP (s.trapHere 0x1B va s.memb)))) ∧
    (s.cg.restore = false ∨ s.cg.fresh = false → exec (.grest a) s = .next s.illegal) ∧
    (∀ wix epc rd w0, let g := s.cg
      (∀ e ∈ s.wavePieces s.cgid wix epc, rd (e.1 - (1280 + wix * waveBlock g.regs)) e.2.1 = e.2.2) →
      let w := s.wave (waveKey g.core (g.slots.getD wix 0))
      let v := restoreWave rd g.regs w0
      (∀ n < 32, (∀ r < g.regs, ∀ x, v.main.get (32 * r + n) x = w.main.get (32 * r + n) (leftReg w.seed 0 (32 * r + n))) ∧
        (∀ r < 16, ∀ x, v.opf.get (32 * r + n) x = w.opf.get (32 * r + n) (leftReg w.seed 1 (32 * r + n))) ∧
        (∀ e < 4, ∀ x, v.lastq.get (32 * e + n) x = w.lastq.get (32 * e + n) 0)) ∧
      (∀ i < 96, ∀ x, v.sregs.get i x = w.sregs.get i (leftReg w.seed 2 i)) ∧ (∀ f < 12, ∀ x, v.flags.get f x = w.flags.get f 0) ∧
      (∀ b < 16, ∀ x, v.rbs.get b x = w.rbs.get b {}) ∧ v.mwtime = w.mwtime ∧ v.launched = w.launched ∧ v.exited = w.launched &&& w.exited ∧
      (∀ x, w.saved = some x → v.xstat = x.xstat ∧ v.fpmode = x.fpmode &&& 7 ∧ v.fpstat = x.fpstat &&& 31 ∧ v.wbase = x.wbase ∧ v.cbase = x.cbase) ∧
      (w.saved = none → v.xstat = w.xstat ∧ v.fpmode = w.fpmode &&& 7 ∧ v.fpstat = w.fpstat &&& 31 ∧ v.wbase = w.wbase ∧ v.cbase = w.cbase) ∧
      ∀ n < 32, w.live.getLsbD n = true → ∃ p ∈ v.paths, p.lanes.getLsbD n = true ∧ p.pc = w.lanePc epc n) ∧
    (∀ (u : State) gid rd, let g := s.cg; let h := u.group gid
      let base := 1280 + g.slots.length * waveBlock g.regs
      (∀ e ∈ s.imagePieces s.cgid, rd e.1 e.2.1 = e.2.2) → (∀ x < g.spsize, rd (base + x) 1 = g.spGet x 1) →
      h.ctx = g.ctx → h.slots.length = g.slots.length → h.regs = g.regs → h.nbar = g.nbar → h.spsize = g.spsize →
      let t := (u.restoreImage gid rd).group gid
      h.imageFits rd = true ∧
      (∀ k < 32, let b := g.bars.get k {}; b.count < 2 ^ 11 → b.arrived < 2 ^ 11 → t.bars.get k {} = b) ∧
      (∀ k < 8, let q := g.queues.get k {}; t.queues.get k {} = { q with pushed := 0, popped := 0 }) ∧
      ∀ x < g.spsize, t.spGet x 1 = g.spGet x 1)

/-- CPY, CPYM, GATH and XRED (R172 to R175, R193).
What log 31, 44 and 95 say is the model's reading or choice, not a rule of the spec. -/
def Obligations.EngineCommandWords : Prop :=
  ∀ e ∈ ([(.cpy, .cpy), (.cpym, .cpym), (.gath, .gath), (.xred, .xred)] : List ((RName → RName → Bool → Instr) × CmdKind)),
    ∀ d a lit s sel, engD d = true → lit = true ∨ sname a = true → s.CanSend [] false false false sel →
      let tag := if lit then (a.signExtend 32 : W32).toNat else (s.readS a.toNat).toNat
      let desc := (List.range 14).map fun i => s.readS (d.toNat + i)
      let ch := (s.core s.cur.core).chain e.2.cls
      ch.entries.length < 256 → (tag < 64 → (s.core s.cur.core).tagBusy tag = false) → (e.2 = .cpym → (s.core s.cur.core).poss = some s.cgid) →
      (s.descBad s.cg e.2 desc = [] → tag < 64 ∨ tag = 0xFFFFFFFF →
        ∃ t x, exec (e.1 d a lit) s = .next t ∧ t.mem = s.mem ∧
          ((t.core s.cur.core).chain e.2.cls) = { ch with tail := ch.tail + 1, entries := ch.entries ++ [x] } ∧
          x.seq = ch.tail + 1 ∧ x.gid = s.cgid ∧ x.slot = s.cur.slot ∧ x.flag = sel ∧ x.tag = min tag 64 ∧ x.desc = desc ∧ x.st = .queued ∧
          x.cpym = (e.2 == .cpym) ∧
          (t.core s.cur.core).tags = (if tag < 64 then (s.core s.cur.core).tags &&& ~~~(BitVec.ofNat 64 (2 ^ tag)) else (s.core s.cur.core).tags) ∧
          t.cg.follow = s.cg.follow + (if e.2 = .cpym then 1 else 0) ∧
          t.cw.paths = (s.cw.modPath fun p => p.past true).paths ∧ (sel < 12 → t.cw.flags.get sel 0 = s.cw.flags.get sel 0 + 1) ∧
          { t.cw with paths := s.cw.paths, flags := s.cw.flags, skid := s.cw.skid } = s.cw) ∧
      (s.descBad s.cg e.2 desc ≠ [] →
        exec (e.1 d a lit) s = .next (s.trapP (s.trapHere 0x1C (BitVec.ofNat 64 ((s.descBad s.cg e.2 desc).foldl min 13)) s.memb))) ∧
      (s.descBad s.cg e.2 desc = [] → 64 ≤ tag → tag ≠ 0xFFFFFFFF → exec (e.1 d a lit) s = .next (s.trapP (s.trapHere 0x1C 0xFF s.memb)))

/-- OBRES (R183), OBIMP (R186), OBREL (R185), MTAKE and MPASS (R188).
What log 49 says is the model's reading or choice, not a rule of the spec. -/
def Obligations.ReservationAndPossessionWords : Prop :=
  ∀ s, s.memb ≠ 0 →
    (∀ (n : BitVec 4) a, ssrc32 a = true → s.CanIssue [a] →
      let clash := fun (r : Resv) => 393216 < r.span.2 ∨ s.cg.resv.has n.toNat = true ∨ ∃ x ∈ s.spansOn s.cur.core, x.1 < r.span.2 ∧ r.span.1 < x.2
      (∀ r, resvOf (s.src32 a 0).toNat = some r → ¬ clash r → ∃ t, exec (.obres n a) s = .next t ∧ PastWord s t false ∧ t.mem = s.mem ∧
        t.cg = { s.cg with resv := s.cg.resv.set n.toNat { r with stamp := s.nextId } } ∧ t.nextId = s.nextId + 1) ∧
      (∀ r, resvOf (s.src32 a 0).toNat = some r → clash r → exec (.obres n a) s = .next (s.trapP (s.trapHere 0x1F 0 s.memb))) ∧
      (resvOf (s.src32 a 0).toNat = none → exec (.obres n a) s = .next (s.trapP (s.trapHere 0x1F 0 s.memb)))) ∧
    (∀ (n : BitVec 4) a gid g r, scaLit a = true → s.CanIssue [a] → (s.src32 a 0).toNat < 64 →
      let c := 4 * (s.cur.core / 4) + (s.src32 a 0).toNat / 16
      let m := (s.src32 a 0).toNat % 16
      c ≠ s.cur.core → s.groups = [(gid, g)] ++ s.groups.tail → g.core = c → g.ctx = s.cg.ctx → g.resv.has m = true → g.resv.get m {} = r →
      r.exp = true → r.imp = none → ∃ t, exec (.obimp n a) s = .next t ∧ PastWord s t false ∧ t.mem = s.mem ∧
        t.cg = { s.cg with resv := s.cg.resv.set n.toNat { r with exp := false, imp := some c, impOf := r.stamp, stamp := s.nextId } }) ∧
    (∀ n : BitVec 4, s.CanIssue [] →
      (s.cg.resv.has n.toNat = false → exec (.obrel n) s = .next s.illegal) ∧
      (s.cg.resv.has n.toNat = true → s.resvRead (s.cg.resv.get n.toNat {}).stamp = false →
        ∃ t, exec (.obrel n) s = .next t ∧ PastWord s t false ∧ t.mem = s.mem ∧ t.cg = { s.cg with resv := s.cg.resv.del n.toNat }) ∧
      (s.cg.resv.has n.toNat = true → s.resvRead (s.cg.resv.get n.toNat {}).stamp = true →
        ∃ t, exec (.obrel n) s = .next t ∧ OnlyWave s t ∧ t.cp = { s.cp with status := .wait (.obrel n.toNat) s.memb 0 })) ∧
    (s.CanIssue [] →
      (s.cg.role = none → exec .mtake s = .next (s.trapP (s.trapHere 0x20 0 s.memb))) ∧
      (s.cg.role ≠ none → s.cc.poss = none ∨ s.cc.poss = some s.cgid → ∃ t, exec .mtake s = .next t ∧ PastWord s t false ∧ t.mem = s.mem ∧
        t.core s.cur.core = { s.core s.cur.core with poss := some s.cgid }) ∧
      (s.cg.role ≠ none → s.cc.poss ≠ none → s.cc.poss ≠ some s.cgid → ∃ t, exec .mtake s = .next t ∧ OnlyWave s t ∧
        t.cp = { s.cp with status := .wait .mtake s.memb 0 }) ∧
      (s.cc.poss = some s.cgid → s.cg.follow = 0 → exec .mpass s = .next (((s.past false).handover s.cur.core s.cgid).count s)) ∧
      (s.cc.poss = some s.cgid → s.cg.follow = 0 → s.groupsOn s.cur.core = [(s.cgid, s.cg)] →
        ∃ t, exec .mpass s = .next t ∧ PastWord s t false ∧ t.core s.cur.core = { s.core s.cur.core with poss := none }) ∧
      (s.cc.poss ≠ some s.cgid → ∃ t, exec .mpass s = .next t ∧ OnlyWave s t ∧ PastWord s t false))

/-- MMA (R189), MZERO (R192) and MDRAIN (R195, R197).
What log 47 says is the model's reading or choice, not a rule of the spec. -/
def Obligations.MatrixChainWords : Prop :=
  ∀ s sel, s.cc.mchain.length < 32 →
    (∀ b c i a, s.CanSend [] false false false sel → s.cc.doomed.contains (s.cgid, c.toNat) = false →
      (s.cc.poss ≠ some s.cgid → exec (.mma b c i a) s = .next (s.trapP (s.trapHere 0x20 0 s.memb))) ∧
      (s.cc.poss = some s.cgid →
        (s.mmaTrap s.cg c.toNat a.toNat b.toNat i.toNat = none → ∃ t, exec (.mma b c i a) s = .next t ∧
          ChainWord s t sel { kind := .mma, acc := c.toNat, oba := a.toNat, obb := b.toNat, tile := i.toNat }) ∧
        ∀ k, s.mmaTrap s.cg c.toNat a.toNat b.toNat i.toNat = some k → exec (.mma b c i a) s = .next (s.trapP (s.trapHere k 0 s.memb)))) ∧
    (∀ c, s.CanSend [] false false false sel →
      (s.cg.role = some (c.toNat / 2) → s.cc.doomed.contains (s.cgid, c.toNat) = true →
        exec (.mzero c) s = .next ((s.past true).count s)) ∧
      (s.cg.role = some (c.toNat / 2) → s.cc.doomed.contains (s.cgid, c.toNat) = false → ∃ t, exec (.mzero c) s = .next t ∧ ChainWord s t sel { kind := .mzero, acc := c.toNat }) ∧
      (s.cg.role ≠ some (c.toNat / 2) → exec (.mzero c) s = .next s.illegal)) ∧
    (∀ a m c, squad a = true →
      let w := fun i => (s.readS (a.toNat + i)).toNat
      let va := w 2 + 2 ^ 32 * w 3
      let o : MxOp := {
        kind := .drain, acc := w 0 % 4, amx := m, clr := c, quad := w 0 / 16 % 16, sp := w 1, amxVa := BitVec.ofNat 64 va
        amxScope := w 0 / 256 % 8, lanes := s.memb }
      s.cg.role = some (w 0 % 4 / 2) → s.cc.doomed.contains (s.cgid, w 0 % 4) = false → (m = true → va % 4 = 0 ∧ va < 2 ^ 54) → w 0 / 4 % 4 = 0 → w 0 / 2 ^ 11 = 0 →
      (∀ e ∈ ([(.mdrainF32Sp, 0x20, 16384), (.mdrainBf16Sp, 0x21, 8192), (.mdrainE4m3Sp, 0x22, 4096), (.mdrainE5m2Sp, 0x23, 4096)] : List ((RName → Bool → Bool → Instr) × Nat × Nat)),
        s.CanSend [] false false false sel → w 1 % 256 = 0 → w 1 + e.2.2 ≤ s.cg.spsize →
        ∃ t, exec (e.1 a m c) s = .next t ∧ ChainWord s t sel { o with fn := e.2.1, opfile := inOpf 0, reg := s.reach 0 }) ∧
      (∀ e ∈ ([(.mdrainF32, 0x24), (.mdrainBf16, 0x25)] : List ((RName → RName → Bool → Bool → Instr) × Nat)),
        ∀ d, oct d = true → s.CanSend [] true false false sel →
        ∃ t, exec (e.1 d a m c) s = .next t ∧ ChainWord s t sel { o with fn := e.2, opfile := inOpf d, reg := s.reach d }))

/-- ORDERING_POINT_ACCESS, STORE_ACKNOWLEDGE, LEASE_REQUEST, LEASE_RECALL, READ_HOLD_EXPIRY and LONG_LATENCY_COMPLETE.
What log 6, 18, 22, 23, 25, 81, 86 and 89 say is the model's reading or choice, not a rule of the spec. -/
def Obligations.MemoryEvents : Prop :=
  (∀ s id o a u v, s.opAt id = some o → o.accs = [a] → o.kind = .load → s.accReady o a = true → a.pa < hostBase →
    s.l1Serves o a = false → s.mayHold o a = false → (s.die (dieOf o.core)).heldReads.contains (holdId id a.lane) = false →
    s.heldOn (dieOf o.core) (a.pa / 128) = [] →
    s.loadAt o.ctx o.core a.leaf.toNat a.pa o.size o.hint (o.hint != 3) = .ok u v →
    ∃ t f, exec (.orderingPointAccess id a.lane) s = .next t ∧ t.waves = s.waves ∧
      t.opAt id = some { o with accs := [{ a with st := .perf, data := BitVec.ofNat 256 v, flit := f }] } ∧ ∀ k, k ≠ id → t.opAt k = s.opAt k) ∧
  (∀ s id o a, s.Inv → s.opAt id = some o → o.accs = [a] → o.kind = .store → o.flag < 12 → s.accReady o a = true → a.pa < hostBase → isCtl a.pa = false →
    s.poison.has (a.pa / 128) = false → s.heldOn (servingDie o.core a.leaf.toNat a.pa) (a.pa / 128) = [] → a.pa % 128 + o.size ≤ 128 →
    let line := a.pa / 128
    let cc := leafCC a.leaf.toNat
    let key := s.keyId a.pa (leafKey a.leaf.toNat)
    let v := a.data.toNat % 2 ^ (8 * o.size)
    let mine := s.leasedBy line = some o.core
    let d := dieOf o.core
    (cc = 3 ∨ cc = 0 ∧ s.leaseOk o.core line = true → ∃ t, exec (.orderingPointAccess id a.lane) s = .next t ∧
      t.opAt id = some { o with accs := [{ a with st := if cc = 0 ∧ mine then .done else .perf }] } ∧ LineWrite s t a.pa key o.size v) ∧
    (cc = 2 → (s.core o.core).l1.has line = true ∨ (s.core o.core).l1.length < 2048 → ∃ t, exec (.orderingPointAccess id a.lane) s = .next t ∧
      t.opAt id = some { o with accs := [{ a with st := .done }] } ∧ t.mem = s.mem ∧
      CopyWrite (if (s.core o.core).l1.has line then ((s.core o.core).l1.get line {}).data else BitVec.ofNat 1024 (s.rdKey (128 * line) key 128))
        ((t.core o.core).l1.get line {}).data (a.pa % 128) o.size v) ∧
    (cc = 1 → s.leaseOk o.core line = true → s.dirWrites line d key = true → ∃ t, exec (.orderingPointAccess id a.lane) s = .next t ∧
      t.opAt id = some { o with accs := [{ a with st := if mine then .done else .perf }] } ∧
      (s.holds line d key = true → t.mem = s.mem ∧ (t.copy line d).st = .mo ∧
        CopyWrite (s.copy line d).data (t.copy line d).data (a.pa % 128) o.size v) ∧
      (s.holds line d key = false → LineWrite s t a.pa key o.size v))) ∧
  (∀ s id o a, s.Inv → s.opAt id = some o → o.accs = [a] → o.kind = .atom → o.flag < 12 → o.fn < 10 → o.size = 4 ∨ o.size = 8 → s.accReady o a = true →
    a.pa < hostBase → isCtl a.pa = false → leafCC a.leaf.toNat = 3 ∨ leafCC a.leaf.toNat = 0 ∧ s.leasedBy (a.pa / 128) = some o.core ∧ (s.core o.core).leases.contains (a.pa / 128) = true →
    s.badRead (a.pa / 128) o.ctx = false → s.heldOn (a.pa / 2 ^ 48) (a.pa / 128) = [] → a.pa % 128 + o.size ≤ 128 →
    let key := s.keyId a.pa (leafKey a.leaf.toNat)
    let w := 8 * o.size
    let old := s.rdKey a.pa key o.size
    let new := AtomWrites o.fn w old (a.data.toNat % 2 ^ w) (a.aux.toNat % 2 ^ w)
    ∃ t, exec (.orderingPointAccess id a.lane) s = .next t ∧
      t.opAt id = some { o with accs := [{ a with st := if new = none then .perf else .done, data := BitVec.ofNat 256 old }] } ∧
      (new = none → t.mem = s.mem) ∧ ∀ v, new = some v → LineWrite s t a.pa key o.size v) ∧
  (∀ s id o a, s.opAt id = some o → o.accs = [a] → o.flag < 12 → s.accReady o a = true → a.pa < hostBase → s.groups.has o.gid = true →
    let g := s.group o.gid
    let x := a.pa % 2 ^ 48
    (o.kind = .spst → ∃ t, exec (.orderingPointAccess id a.lane) s = .next t ∧ t.mem = s.mem ∧ t.opAt id = some { o with accs := [{ a with st := .done }] } ∧
      (t.group o.gid).spGet x 4 = a.data.toNat % 2 ^ 32 ∧ ∀ y, y < x ∨ x + 4 ≤ y → (t.group o.gid).spGet y 1 = g.spGet y 1) ∧
    (o.kind = .spld → ∃ t, exec (.orderingPointAccess id a.lane) s = .next t ∧ { t with ops := s.ops } = s ∧
      t.opAt id = some { o with accs := [{ a with st := .perf, data := BitVec.ofNat 256 (g.spGet x 4) }] })) ∧
  (∀ s id o a, s.opAt id = some o → a ∈ o.accs → o.kind = .store → a.st = .perf → a.late = false →
    ∃ t, exec (.storeAcknowledge id a.lane) s = .next t ∧ { t with ops := s.ops } = s ∧
      (∀ e, t.opAt id = some e → ∀ x ∈ e.accs, x.lane = a.lane → x.st ≠ .perf) ∧ ∀ k, k ≠ id → t.opAt k = s.opAt k) ∧
  (∀ s id o a, s.opAt id = some o → o.accs = [a] → o.kind = .atom → s.accReady o a = true → s.needsLease o a = true → leafCC a.leaf.toNat = 0 →
    s.leasedBy (a.pa / 128) = none → (s.lineQueue (a.pa / 128)).headD (.lease o.core) = .lease o.core → s.badRead (a.pa / 128) o.ctx = false →
    s.heldOn (a.pa / 2 ^ 48) (a.pa / 128) = [] →
    ∃ t, exec (.leaseRequest id a.lane) s = .next t ∧ t.ops = s.ops ∧ (t.core o.core).l1.has (a.pa / 128) = true ∧
      (t.core o.core).leases =
        (if 128 ≤ (s.core o.core).leases.length then (s.core o.core).leases.tail else (s.core o.core).leases) ++ [a.pa / 128]) ∧
  (∀ s id o a, s.opAt id = some o → o.accs = [a] → o.kind = .atom → s.accReady o a = true → s.needsLease o a = true →
    (s.core o.core).leases.contains (a.pa / 128) = false → s.badRead (a.pa / 128) o.ctx = false →
    s.leasedBy (a.pa / 128) ≠ none ∨ (s.lineQueue (a.pa / 128)).headD (.lease o.core) ≠ .lease o.core →
    ∃ t, exec (.leaseRequest id a.lane) s = .next t ∧ { t with lreqs := s.lreqs } = s ∧ (a.pa / 128, .lease o.core) ∈ t.lreqs) ∧
  (∀ s core line, s.leasedBy line = some core → (s.core core).leases.contains line = true → s.atomDue line = false →
    ∃ t, exec (.leaseRecall core line) s = .next t ∧ { t with cores := s.cores } = s ∧
      (t.core core).leases = (s.core core).leases.filter (· != line) ∧ ∀ k, k ≠ core → t.core k = s.core k) ∧
  (∀ s die o a u v, s.opAt o.id = some o → o.accs = [a] → o.kind = .load → s.heldOn die (a.pa / 128) = [(o, a)] → s.accReady o a = true →
    s.loadAt o.ctx o.core a.leaf.toNat a.pa o.size o.hint (o.hint != 3) = .ok u v →
    ∃ t f, exec (.readHoldExpiry die (a.pa / 128)) s = .next t ∧ t.waves = s.waves ∧ ¬ holdId o.id a.lane ∈ (t.die die).heldReads ∧
      t.opAt o.id = some { o with accs := [{ a with st := .perf, data := BitVec.ofNat 256 v, flit := f }] }) ∧
  (∀ s id o, s.opAt id = some o → o.settled = true → (s.wave (waveKey o.core o.slot)).gid = some o.gid → o.halted = false →
    (∀ a ∈ o.accs, a.st ≠ .failed ∧ a.gone = 0 ∧ a.lane < 32) → (o.accs.map (·.lane)).Nodup →
    ∃ t, exec (.longLatencyComplete id) s = .next t ∧ t.opAt id = none ∧ t.mem = s.mem ∧
      (∀ k, k ≠ waveKey o.core o.slot → t.wave k = s.wave k) ∧
      (∀ f, (t.wave (waveKey o.core o.slot)).flags.get f 0 =
        (s.wave (waveKey o.core o.slot)).flags.get f 0 - if f = o.flag ∧ f < 12 then 1 else 0) ∧
      (o.sca = false → o.opfile = false → ∀ a ∈ o.accs, o.hasData a = true → ∀ i, i < o.nregs →
        (t.wave (waveKey o.core o.slot)).main.get (32 * (o.reg + i) + a.lane) 0 = (o.value a).extractLsb' (32 * i) 32))

/-- RDS, RDX, FWD, INV, ACK, DATA, GRANT, BINV and WB.
What log 28, 50 and 87 say is the model's reading or choice, not a rule of the spec. -/
def Obligations.DirectoryEvents : Prop :=
  ∀ s k m, s.heldOn m.dst m.line = [] →
    let h := homeDie m.line
    let rest := s.dmsgs.eraseIdx k
    let ack : DMsg := { kind := 4, src := m.dst, dst := m.src, line := m.line }
    (∀ kind excl, (kind = 0 ∧ excl = false) ∨ (kind = 1 ∧ excl = true) → s.dirMsg k kind = some m → s.dir.has m.line = false → m.src ≠ h →
      (s.dirSet m.line m.pin).length < 16 → (∀ c, s.leasedBy m.line = some c → dieOf c ≠ h) →
      ∃ t, exec (if excl then .rdx k else .rds k) s = .next t ∧ t.mem = s.mem ∧
        (t.dir.get m.line {}).owner = m.src ∧ (t.dir.get m.line {}).busy = false ∧
        ∃ d l, t.dmsgs = rest ++ l ∧ l.map DMsg.plain = [d, { kind := 6, src := h, dst := m.src, line := m.line, arg := if excl then 4 else 2, key := m.key }] ∧
          d.kind = 5 ∧ d.dst = m.src ∧ d.line = m.line ∧ d.key = m.key ∧ d.data = s.homeLine m.line m.key) ∧
    (s.dirMsg k 2 = some m → (s.copy m.line m.dst).st ≠ .inv → m.dst ≠ m.arg →
      ∃ t, exec (.fwd k) s = .next t ∧ t.mem = s.mem ∧ (t.copy m.line m.dst).st = (if m.excl then .inv else .ow) ∧
        ∃ l, t.dmsgs = rest ++ l ∧ l.map DMsg.plain = [{ kind := 5, src := m.dst, dst := m.arg, line := m.line, data := (s.copy m.line m.dst).data, key := (s.copy m.line m.dst).key }, ack]) ∧
    (s.dirMsg k 3 = some m → ∃ t, exec (.inv k) s = .next t ∧ t.mem = s.mem ∧ (t.copy m.line m.dst).st = .inv ∧
      ∃ l, t.dmsgs = rest ++ l ∧ l.map DMsg.plain = [ack]) ∧
    (s.dirMsg k 7 = some m → ∃ t, exec (.binv k) s = .next t ∧ t.mem = s.mem ∧ (t.copy m.line m.dst).st = .inv ∧
      ∃ l, t.dmsgs = rest ++ l ∧ l.map DMsg.plain = [if (s.copy m.line m.dst).st = .mo ∨ (s.copy m.line m.dst).st = .ow then
        { kind := 8, src := m.dst, dst := m.src, line := m.line, arg := 1, data := (s.copy m.line m.dst).data, key := (s.copy m.line m.dst).key } else ack]) ∧
    (s.dirMsg k 4 = some m → m.arg = 0 →
      let e := s.dir.get m.line {}
      e.busy = true → e.acks = 1 → e.evict = false → e.excl = false → e.sup < 4 →
      ∃ t, exec (.ack k) s = .next t ∧ t.mem = s.mem ∧ (t.dir.get m.line {}).busy = false ∧
        (e.req < 4 → (t.dir.get m.line {}).sharers.getLsbD e.req = true) ∧
        ∃ l, t.dmsgs = rest ++ l ∧ l.map DMsg.plain = [{ kind := 6, src := h, dst := e.req, line := m.line, arg := 1, key := e.key }]) ∧
    (s.dirMsg k 8 = some m → m.arg ≠ 1 → s.dir.has m.line = false →
      ∃ t, exec (.wb k) s = .next t ∧ t.dmsgs = rest ∧ t.mem = (s.backKey (128 * m.line) m.key 128 m.data.toNat).mem) ∧
    (s.dirMsg k 5 = some m → (s.copy m.line m.dst).asked = true → (s.copy m.line m.dst).grant = .inv →
      ∃ t, exec (.data k) s = .next t ∧ t.dmsgs = rest ∧ t.mem = s.mem ∧
        t.copy m.line m.dst = { s.copy m.line m.dst with got := some m.data }) ∧
    (s.dirMsg k 6 = some m → (s.copy m.line m.dst).asked = true → m.excl = false → m.dst ≠ h →
      ∀ x, (s.copy m.line m.dst).got = some x →
        ∃ t, exec (.grant k) s = .next t ∧ t.dmsgs = rest ∧ t.mem = s.mem ∧ t.copy m.line m.dst = { st := moesiOf m.arg, data := x, key := m.key })

/-- VLD_EQ_AT_SLICE, VLD_LE_AT_SLICE, VST_AT_SLICE, VERSION_WAIT_TIMEOUT, VLD_RETURN_RETRY, VFLOOR_APPLY, REGION_ARMING and
REGION_DISARM.
What log 20, 54, 60, 88, 109, 124 and 125 say is the model's reading or choice, not a rule of the spec. -/
def Obligations.VersionEvents : Prop :=
  (∀ s id o a, s.opAt id = some o → (o.accs.find? fun x => x.lane == a.lane) = some a → s.accReady o a = true → a.overdue = false → a.leaf ≠ 0 →
    (s.die (dieOf o.core)).heldReads.contains (holdId id a.lane) = false → s.heldOn (dieOf o.core) (a.pa / 128) = [] →
    s.heldOn (a.pa / 2 ^ 48) (a.pa / 128) = [] → s.mayHold o a = false →
    let b := a.aux.toNat
    let g := s.gran a.pa
    let key := s.keyId a.pa (leafKey a.leaf.toNat)
    let same := s.sameVer o a
    let traps := fun (e : Nat → Nat → Instr) (code : Nat) => exec (e id a.lane) s = .next (s.failAccs id code (same.map (·.lane)))
    let reads := fun (e : Nat → Nat → Instr) (v : Nat) =>
      ((s.badRead (a.pa / 128) o.ctx || !s.chainOk g v) = true → traps e 0x0D) ∧
      ((s.badRead (a.pa / 128) o.ctx || !s.chainOk g v) = false → ∃ t, exec (e id a.lane) s = .next t ∧
        { t with ops := s.ops, grans := s.grans, nextId := s.nextId } = s ∧ (∀ k, k ≠ id → t.opAt k = s.opAt k) ∧
        t.opAt id = some { o with accs := o.accs.map fun x => if same.contains x then { x with st := .perf, data := s.verData a.pa key g v, flit := 1 + holdId id a.lane } else x })
    (∀ e ∈ ([(.vldEqAtSlice, .vldEq), (.vldLeAtSlice, .vldLe), (.vstAtSlice, .vst)] : List ((Nat → Nat → Instr) × OpKind)),
      o.kind = e.2 → s.verPlace o a = none → traps e.1 0x13) ∧
    (∀ p, s.verPlace o a = some p → o.kind = .vldEq →
      (b < p.floor → traps .vldEqAtSlice 0x0E) ∧
      (p.floor ≤ b → g.hasV b = true → reads .vldEqAtSlice b) ∧
      (p.floor ≤ b → g.hasV b = false → s.chainOk g b = false → traps .vldEqAtSlice 0x0D) ∧
      (p.floor ≤ b → g.hasV b = false → s.chainOk g b = true →
        let fit := same.take (2048 - s.waitersAt p.home)
        ∃ t, exec (.vldEqAtSlice id a.lane) s = .next t ∧ { t with ops := s.ops } = s ∧ (∀ k, k ≠ id → t.opAt k = s.opAt k) ∧
          t.opAt id = some { o with accs := o.accs.map fun x => if same.contains x then
            { x with st := if fit.contains x then .waitVer else .back, left := if x.left = 0 then s.verTout o p.num + 1 else x.left
                     back := if fit.contains x then 0 else 100 } else x })) ∧
    (∀ p, s.verPlace o a = some p → o.kind = .vldLe →
      (g.atMost b = none → traps .vldLeAtSlice (if s.chainOk g b then 0x0E else 0x0D)) ∧
      (∀ v, g.atMost b = some v → reads .vldLeAtSlice v)) ∧
    (∀ p c r, s.verPlace o a = some p → o.kind = .vst → same = c :: r →
      (s.chainOk g b = false → traps .vstAtSlice 0x0D) ∧
      (s.chainOk g b = true → g.hasV b = true → traps .vstAtSlice 0x0F) ∧
      (s.chainOk g b = true → g.hasV b = false → b < p.floor → traps .vstAtSlice 0x10) ∧
      (s.chainOk g b = true → g.hasV b = false → p.floor ≤ b →
        let made := s.create a.pa (leafPin a.leaf.toNat) (leafKey a.leaf.toNat) o.ctx p.num b c.data
        (made = none → traps .vstAtSlice 0x11) ∧
        (made ≠ none → s.createOk a.pa (leafPin a.leaf.toNat) b = false → traps .vstAtSlice 0x0D) ∧
        (made ≠ none → s.createOk a.pa (leafPin a.leaf.toNat) b = true → ∃ u, exec (.vstAtSlice id a.lane) s = .next (if r = [] then u else u.failAccs id 0x0F (r.map (·.lane))) ∧
          (u.gran a.pa).hasV b = true ∧
          ∀ k e, s.opAt k = some e → u.opAt k = some { e with accs := e.accs.map fun x =>
            if k = id ∧ x.lane = c.lane then { x with st := .perf }
            else if x.st = .waitVer ∧ x.left ≠ 1 ∧ x.pa = a.pa ∧ x.aux.toNat = b then { x with st := .perf, data := c.data, flit := 1 + holdId e.id x.lane } else x })))) ∧
  (∀ s id o, s.opAt id = some o →
    (∀ a ∈ o.accs, a.overdue = true →
      exec (.versionWaitTimeout id a.lane) s = .next (s.failAccs id 0x12 ((o.accs.filter Acc.overdue).map (·.lane)))) ∧
    (∀ lane, ∃ t, exec (.vldReturnRetry id lane) s = .next t ∧ { t with ops := s.ops } = s ∧ (∀ k, k ≠ id → t.opAt k = s.opAt k) ∧
      t.opAt id = some { o with accs := o.accs.map fun x =>
        if x.lane = lane ∧ x.st = .back ∧ x.back = 0 ∧ x.left ≠ 1 then s.sent o.core { x with st := .pend } else x })) ∧
  (∀ s id o place, s.opAt id = some o → o.kind = .vfloor → o.pendSl.contains place = true → s.routed (dieOf o.core) (place / 48) = true →
    o.left.get (place / 48) 0 ≠ 1 →
    let r := s.regions.get o.region {}
    ∃ t, exec (.vfloorApply id place) s = .next t ∧
      (r.armed = true → r.floors.has place = true → (t.regions.get o.region {}).floors.get place 0 = max o.fn (r.floors.get place 0)) ∧
      (r.armed = false ∨ r.floors.has place = false → { t with ops := s.ops } = s)) ∧
  (∀ (s : State) pa fl v, ((s.applyFloor pa fl).gran pa).hasV v = true ↔ (s.gran pa).hasV v = true ∧
    (fl ≤ v ∨ fl ≠ 0 ∧ (s.gran pa).atMost (fl - 1) = some v)) ∧
  (∀ s die key, (s.die die).launches.has key = true →
    let l := (s.die die).launches.get key {}
    l.phase = .arm → (l.wleft = 1 ∨ ∀ r ∈ l.rgns, s.armHeld die l.ctx r = false) →
    (s.regionsOk die key l.rgns = true → (∀ r ∈ l.rgns, s.regionBusy die l.ctx r = false) →
      ∃ t, exec (.regionArming die key) s = .next t ∧ ((t.die die).launches.get key {}).phase = .ready ∧
        ∀ r ∈ l.rgns, (t.regions.get (64 * l.ctx + r.num) {}).armed = true) ∧
    (s.regionsOk die key l.rgns = false → ∃ t, exec (.regionArming die key) s = .next t ∧ (t.die die).launches.has key = false)) ∧
  (∀ s die val, (s.die die).br = 4 → (s.die die).dpend = none →
    let k := 64 * field val 16 12 + field val 0 6
    let bad := val / 2 ^ 28 ≠ 0 ∨ field val 6 10 ≠ 0
    (bad ∨ (s.regions.get k {}).armed = false ∨ s.regionHeld (k / 64) (k % 64) = false → ∃ t, exec (.regionDisarm die val) s = .next t ∧
      (t.die die).disst = (if bad then 2 else if (s.regions.get k {}).armed then 0 else 1) ∧
      (¬ bad → (s.regions.get k {}).armed = true → t.regions.has k = false) ∧ (bad ∨ (s.regions.get k {}).armed = false → t.mem = s.mem)) ∧
    (¬ bad → (s.regions.get k {}).armed = true → s.regionHeld (k / 64) (k % 64) = true →
      exec (.regionDisarm die val) s = .next (s.modDie die fun x => { x with dpend := some (val, 10001) })))

/-- MWAIT_WAKE, JOIN_ZERO, TAGWAIT_SATISFIED, QUEUE_WORD_PERFORM, RING_SPACE_RESUME, MONITOR_TIMEOUT, WATCH_RECORD,
WAVE_HALT_STOP, HANDLER_ENTRY, GROUP_RETIRE and GROUP_END.
What log 16, 39, 41, 68, 77, 79, 108 and 115 say is the model's reading or choice, not a rule of the spec. -/
def Obligations.WaitEvents : Prop :=
  (∀ s core slot lane x, s.waiterAt core slot lane = some x →
    let key := waveKey core slot
    (x.word = .mwait → (s.wave key).woken x.pend ≠ 0 → ∃ t, exec (.mwaitWake core slot lane) s = .next t ∧
      t = (s.modWave key fun w => w.disarm ((s.wave key).woken x.pend)).modLanePath key lane fun p => p.finish ((s.wave key).woken x.pend)) ∧
    (∀ as a, x.word = .join as → as.find? (fun e => e.lane == lane) = some a → x.pend.getLsbD lane = true → a.leaf ≠ 0 →
      (s.badRead (a.pa / 128) (s.group x.gid).ctx = false → underDir a.leaf.toNat a.pa = false → s.watchRead core a.leaf.toNat a.pa = some 0 →
        ∃ t, exec (.joinZero core slot lane) s = .next t ∧ t = (s.dropL1 core).modLanePath key lane fun p => p.finish (laneBit lane)) ∧
      (s.badRead (a.pa / 128) (s.group x.gid).ctx = true → (s.group x.gid).phase = .running → ∃ tr, tr.code = 0x0D ∧ tr.epc = x.path.pc ∧
        tr.eaddr = BitVec.ofNat 64 (a.va.toNat / 128 * 128) ∧ tr.emask = laneBit lane ∧ tr.wave = (s.wave key).wix ∧
        exec (.joinZero core slot lane) s = .next (s.haltGroup x.gid tr true))) ∧
    (∀ m, x.word = .tagAny m ∧ (m = 0 ∨ (s.core core).tags &&& m ≠ 0) ∨ x.word = .tagAll m ∧ m &&& ~~~(s.core core).tags = 0 →
      ∃ t, exec (.tagwaitSatisfied core slot lane) s = .next t ∧ t = s.modLanePath key lane fun p => p.finish x.pend) ∧
    (∀ q h t0 p k left, (s.wave key).pathOf lane = some p → p.status = .wait (.qpush q h t0) k left →
      let c := (s.group x.gid).queues.get q {}
      (s.queueWaiters x.gid true q).all (t0 ≤ ·) = true → c.room = true → ∃ t, exec (.queueWordPerform core slot lane) s = .next t ∧
        (t.group x.gid).spGet (c.slot c.tail) 4 = h.toNat ∧
        (t.group x.gid).queues.get q {} = { c with tail := c.tail + 1, allow := c.allow - 1 }) ∧
    (∀ q opf reg t0 p k left, (s.wave key).pathOf lane = some p → p.status = .wait (.qpop q opf reg t0) k left →
      let c := (s.group x.gid).queues.get q {}
      (s.queueWaiters x.gid false q).all (t0 ≤ ·) = true → c.empty = false → ∃ t, exec (.queueWordPerform core slot lane) s = .next t ∧
        (t.group x.gid).queues.get q {} = { c with head := c.head + 1 } ∧ ∀ n < 32, p.lanes.getLsbD n = true →
          (if opf then (t.wave key).opf else (t.wave key).main).get (32 * reg + n) 0 = BitVec.ofNat 32 ((s.group x.gid).spGet (c.slot c.head) 4)) ∧
    (∀ ts, x.word = .spawn ts →
      let ord := (s.wave key).wix + 1
      let r := (s.modCore core fun c => { c with acOrder := c.acOrder.set 0 ord }).ringAll (dieOf core) ts
      ((s.core core).acOrder.get 0 0 ≤ ord → exec (.ringSpaceResume core slot lane) s = .next (r.1.placedLanes core slot lane .spawn ts r.2)) ∧
      (ord < (s.core core).acOrder.get 0 0 → exec (.ringSpaceResume core slot lane) s = .next s)) ∧
    (∀ n ts, x.word = .stagePush n ts → let r := s.stageAll (dieOf core) (s.group x.gid).ctx (s.group x.gid).lid n ts
      exec (.ringSpaceResume core slot lane) s = .next (r.1.placedLanes core slot lane (.stagePush n) ts r.2)) ∧
    (∀ ts, x.word = .amsg ts → let r := s.sendAll (dieOf core) ts
      exec (.ringSpaceResume core slot lane) s = .next (r.1.placedLanes core slot lane .amsg ts r.2)) ∧
    (∀ as a, x.word = .mon as → as.find? (fun e => e.lane == lane) = some a → x.pend.getLsbD lane = true → a.leaf ≠ 0 →
      s.routed (dieOf core) (if hostBase ≤ a.pa then dieOf core else servingDie core a.leaf.toNat a.pa) = true → ∃ t, exec (.watchRecord core slot lane) s = .next t ∧
        let m := (t.wave key).mons.get lane {}
        m.line = a.pa / 128 ∧ m.va = a.va ∧ m.armed = true ∧ m.trig = false)) ∧
  (∀ s core slot lane gid p k pend, (s.wave (waveKey core slot)).gid = some gid → s.expiry core slot = some (p, k, pend) → p.lanes.getLsbD lane = true →
    (s.die (dieOf core)).dbg = false → (∀ n ∈ (s.group gid).slots.take (s.wave (waveKey core slot)).wix, s.expiry core n = none) → (s.group gid).phase = .running →
    ∃ u : State, { u with waves := s.waves } = s ∧ exec (.monitorTimeout core slot lane) s = .next (u.haltGroup gid
      { code := 0x15, epc := p.pc, eaddr := (s.wave (waveKey core slot)).watched k pend, emask := pend, own := pend, wave := (s.wave (waveKey core slot)).wix } true)) ∧
  (∀ s core slot gid, (s.wave (waveKey core slot)).gid = some gid → (s.group gid).phase = .halting → (s.die (dieOf core)).dbg = false →
    ∃ t, exec (.waveHaltStop core slot) s = .next t ∧ t.mem = s.mem ∧ (t.wave (waveKey core slot)).stopped = true ∧
      (∀ k, k ≠ waveKey core slot → t.wave k = s.wave k) ∧
      (t.group gid).phase = if ∀ k ∈ (s.group gid).keys, k ≠ waveKey core slot → (s.wave k).stopped = true then .halted else .halting) ∧
  (∀ s gid tr, (s.group gid).phase = .halted → (s.group gid).trap = some tr → tr.redir = true → tr.code ≠ 0x21 → (s.die (dieOf (s.group gid).core)).dbg = false →
    let g := s.group gid
    let key := waveKey g.core (g.slots.getD tr.wave 0)
    (s.wave key).live ≠ 0 → s.handlerOf g tr.code ≠ 0 → ∃ t, exec (.handlerEntry gid) s = .next t ∧ t.mem = s.mem ∧
      t.group gid = { g with phase := .handler, trap := some tr, skidsel := tr.wave, hwave := tr.wave } ∧
      (t.wave key).paths = [{ lanes := (s.wave key).live, pc := s.handlerOf g tr.code }] ∧
      ((t.wave key).saved.map (·.paths)) = some (s.wave key).paths ∧ ∀ k, k ≠ key → t.wave k = s.wave k) ∧
  (∀ s gid, s.groups.has gid = true → s.flagsZero (s.group gid) = true → (s.die (dieOf (s.group gid).core)).dbg = false →
    ((s.group gid).phase = .ending → ∃ t, exec (.groupEnd gid) s = .next t ∧ t.mem = s.mem ∧ t.groups = s.groups.del gid ∧
      ∀ k ∈ (s.group gid).keys, t.waves.has k = false) ∧
    ((s.group gid).phase = .retiring → s.opsOver gid = true →
      (s.joinsReady gid = true → ∃ t, exec (.groupRetire gid) s = .next t ∧ ((s.group gid).joins = [] → t.mem = s.mem) ∧
        t.groups = s.groups.del gid ∧ ∀ k ∈ (s.group gid).keys, t.waves.has k = false) ∧
      (s.joinsReady gid = false → exec (.groupRetire gid) s = .next (s.joinAsk gid))))

/-- ENGINE_ENTRY_START, ENGINE_BEAT, XRED_ELEMENT, ENGINE_COMMAND_COMPLETE, REDUCTION_CONTRIBUTION, REDUCTION_UNIT_TIMEOUT,
TREE_ENABLE, FOLLOW_ON_ISSUE, MMA_START, MMA_CHECK and DRAIN_PORT_OPERATION.
What log 43, 44, 47, 48 and 100 say is the model's reading or choice, not a rule of the spec. -/
def Obligations.EngineEvents : Prop :=
  (∀ s core cls e, cls < 3 → (s.die (dieOf core)).dbg = false → ((s.core core).chain cls).entries.find? (fun x => x.st == .queued) = some e →
    (ctlOrder e.desc = true → ((s.core core).chain cls).entries.head?.map (·.seq) = some e.seq) →
    s.engBusy core cls < engPlaces cls → s.engTurn core cls = true →
    let u := s.modDie (dieOf core) fun x => { x with engNext := x.engNext.set (engKey core cls) (core % engSize cls + 1) }
    let tree := cls = 2 ∧ bitN (dw e.desc 2) 4 = true
    let n := field (dw e.desc 2) 8 4
    let k := core % 64 / 4
    let ent := (s.die (dieOf core)).treeEnt n (clusterRouter k)
    let on := (s.die (dieOf core)).treeOn n = true ∧ entLocal ent = true ∧ entV ent = true
    (¬ tree → exec (.engineEntryStart core cls) s = .next (u.modEntry core cls e.seq fun x => { x with st := .running })) ∧
    (tree → on → exec (.engineEntryStart core cls) s = .next ((u.modEntry core cls e.seq fun x =>
      { x with st := .running, round := (s.tree (dieOf core) n).rounds.get k 0 }).modTree (dieOf core) n fun v =>
        { v with rounds := v.rounds.set k ((s.tree (dieOf core) n).rounds.get k 0 + 1) })) ∧
    (tree → ¬ on → exec (.engineEntryStart core cls) s = .next (u.completeEntry core cls e.seq (some (0x1D, dw64 e.desc 7))))) ∧
  (∀ s core seq beat e bs, (s.die (dieOf core)).dbg = false → (s.core core).copy.entries.find? (fun x => x.seq == seq) = some e →
    e.st = .running → e.done.has beat = false → s.beatTurn core 0 seq = true → ctlSsp e.desc = 1 → ctlDsp e.desc = 1 → cpyPieces e.desc beat = some bs →
    s.inService core = true → e.orphan = false → s.groups.has e.gid = true → ∃ t, exec (.engineBeat core 0 seq beat) s = .next t ∧
      t.mem = s.mem ∧ t.group e.gid = bs.foldl
        (fun (g : Group) b => g.spPut b.dst b.len (s.srcVal e b.srcs (b.srcs.map fun _ => Span.ok []))) (s.group e.gid)) ∧
  (∀ s core seq elem e rp ps, (s.die (dieOf core)).dbg = false → (s.core core).coll.entries.find? (fun x => x.seq == seq) = some e →
    e.st = .running → e.done.has elem = false → s.beatTurn core 2 seq = true → bitN (dw e.desc 2) 4 = false → elem < dw e.desc 1 →
    let u := s.tookTurn core 2 seq
    let src := (if ctlSsp e.desc = 0 then dw64 e.desc 5 else dw e.desc 5) + 4 * elem
    u.spanIn core e (ctlSsp e.desc) src 4 false = .ok rp →
    u.span (dieOf core) e.ctx e.lid (dw64 e.desc 7 + 4 * elem) 4 true true = .ok ps →
    (∀ q ∈ ps, leafCC q.2.1 ≠ 3 ∧ ¬ (hostBase ≤ q.1 ∧ q.1 < fabBase) ∧ isCtl q.1 = false) →
    ∃ t, exec (.xredElement core seq elem) s = .next t ∧
      t.mem = ((u.visit (dieOf core) e.ctx (ctlHint e.desc) (rp ++ ps)).writeParts e.ctx
        (xredOp (field (dw e.desc 2) 0 4) (BitVec.ofNat 32 (u.readParts ps)) (BitVec.ofNat 32 (u.srcRead e src 4 rp))).toNat ps).mem) ∧
  (∀ s core cls seq beat e, ((s.core core).chain cls).entries.find? (fun x => x.seq == seq) = some e → s.beatTurn core cls seq = false →
    exec (.engineBeat core cls seq beat) s = .next s) ∧
  (∀ s core cls seq e, cls < 3 → seq ≠ 0 →
    let h := (s.core core).chain cls
    h.entries.find? (fun x => x.seq == seq) = some e → e.st = .landed → e.late = false → (cls = 0 → e.cpym = false) →
    e.orphan = false → h.fin = [] → h.named = [] → h.done + 1 = seq → dw64 e.desc 9 = 0 →
    (s.wave (waveKey core e.slot)).gid = some e.gid → e.flag < 12 →
    ∃ t, exec (.engineCommandComplete core cls seq) s = .next t ∧ t.mem = s.mem ∧
      (t.core core).chain cls = { h with done := seq, fin := [], entries := h.entries.filter fun x => x.seq != seq } ∧
      (e.tag < 64 → (t.core core).tags.getLsbD e.tag = true) ∧
      (t.wave (waveKey core e.slot)).flags.get e.flag 0 = (s.wave (waveKey core e.slot)).flags.get e.flag 0 - 1) ∧
  (∀ s die tree f rest, (s.die die).treeOn tree = true →
    let v := s.tree die tree
    v.flits = f :: rest → v.last.get f.router (0, 0) = (0, 0) → v.unitsOf f.router = [] →
    (∃ p ∈ entPorts ((s.die die).treeEnt tree f.router), p ≠ f.port) →
    ∃ t, exec (.reductionContribution die tree 0) s = .next t ∧ t.mem = s.mem ∧ (t.tree die tree).flits = rest ∧
      (t.tree die tree).unitsOf f.router = [{
        router := f.router, round := f.round, pkt := f.pkt, left := (s.die die).treeTout tree, vals := [(f.port, f.vals)], mark := f.mark
        full := false, dsts := [(f.port, { dst := f.dst, core := f.core, count := f.count, ctx := f.ctx, lid := f.lid, hint := f.hint })] }]) ∧
  (∀ s die tree router u, (s.tree die tree).units = [u] → u.router = router → u.full = false → u.left = 0 →
    let ent := (s.die die).treeEnt tree router
    let v := s.modUnit die tree u fun x => { x with full := true, mark := true }
    (entRoot ent = false → ∃ t f, exec (.reductionUnitTimeout die tree router) s = .next t ∧ t.mem = s.mem ∧
      (t.tree die tree).units = [] ∧ (t.tree die tree).flits = (s.tree die tree).flits ++ [f] ∧
      f.router = entParent ent ∧ f.round = u.round ∧ f.pkt = u.pkt ∧ f.vals = u.sums ∧ f.mark = true ∧ f.dst = u.first.dst) ∧
    (∀ ps, entRoot ent = true → 32 * u.pkt < u.first.count →
      v.span die u.first.ctx u.first.lid (u.first.dst + 128 * u.pkt) 128 true false = .ok ps →
      ∃ t, exec (.reductionUnitTimeout die tree router) s = .next t ∧ (t.tree die tree).units = [] ∧
        t.mem = ((v.visit die u.first.ctx u.first.hint ps).writeParts u.first.ctx (packWords u.sums) ps).mem)) ∧
  (∀ s die tree val, tree < 16 → val < 2 ^ 64 →
    let keep := val / 2 ^ 32 * 2 ^ 32
    let res := 16 * field ((s.die die).treeHdr tree) 4 4
    ((s.die die).treeOn tree = false → ∃ t, exec (.treeEnable die tree val) s = .next t ∧ t.mem = s.mem ∧
      (t.die die).treeHdr tree = keep + if bitN val 0 then 16 * (s.die die).treeCheck tree + (if (s.die die).treeCheck tree = 0 then 1 else 0) else res) ∧
    ((s.die die).treeOn tree = true → bitN val 0 = true → exec (.treeEnable die tree val) s = .next s) ∧
    ((s.die die).treeOn tree = true → bitN val 0 = false → ∃ u, u.mem = s.mem ∧ (u.die die).treeHdr tree = keep + res ∧ u.tree die tree = {} ∧
      exec (.treeEnable die tree val) s = .next (((s.treeCmds die tree).filter fun c => c.2.st != .landed).foldl
        (fun (w : State) c => w.completeEntry c.1 2 c.2.seq (some (0x1D, dw64 c.2.desc 7))) u))) ∧
  (∀ s core f, (s.core core).follows = [f] → (s.core core).followReady f = true → (s.die (dieOf core)).dbg = false →
    let gone := f.dead || (s.core core).doomed.contains (f.gid, field f.word.toNat 0 2)
    (gone = false → ∃ t o, exec (.followOnIssue core) s = .next t ∧ t.mem = s.mem ∧ (t.core core).mchain = enterMx o (s.core core).mchain ∧
      o.kind = .mma ∧ o.isFollow = true ∧ o.gid = f.gid ∧ o.seq = f.seq ∧ o.acc = field f.word.toNat 0 2 ∧ o.oba = field f.word.toNat 2 4 ∧
      o.obb = field f.word.toNat 6 4 ∧ o.tile = field f.word.toNat 10 3 + f.next ∧
      (t.core core).follows = (if f.next = field f.word.toNat 13 3 then [] else [{ f with next := f.next + 1 }])) ∧
    (gone = true → ∃ t, exec (.followOnIssue core) s = .next t ∧ t.mem = s.mem ∧ (t.core core).follows = [] ∧
      (t.core core).mchain = (s.core core).mchain)) ∧
  (∀ s core o rest, (s.core core).mchain = o :: rest → o.kind = .mma → o.started = false → s.inService core = true →
    (s.die (dieOf core)).dbg = false → (s.core core).mxHeld o = false →
    (∀ a b, (s.core core).accBad.contains o.acc = false → s.operand core o.gid o.oba o.tile = some a → s.operand core o.gid o.obb o.tile = some b →
      exec (.mmaStart core) s = .next { (s.modMx core o.id fun x =>
        { x with started := true, turn := s.nextId, a := a.2, b := b.2, fa := a.1, fb := b.1 }) with nextId := s.nextId + 1 }) ∧
    (s.operand core o.gid o.oba o.tile = none ∨ s.operand core o.gid o.obb o.tile = none →
      exec (.mmaStart core) s = .next (s.mxFail core o 0x1F 0))) ∧
  (∀ s core o, (s.core core).nextCheck = some o → s.inService core = true → (s.die (dieOf core)).dbg = false →
    (∃ t, exec (.mmaCheck core true) s = .next t ∧
      let v := s.accRead core o
      (o.rerun = false → t.mem = v.mem) ∧ (t.core core).mchain = (v.core core).mchain.filter (fun x => x.id != o.id) ∧
      (t.core core).acc = (v.core core).acc.setRow (4096 * o.acc) (mmaUpdate o.fa o.fb o.a o.b ((v.core core).accRow o.acc)) ∧
      ((s.core core).accBad.contains o.acc = false → v = s) ∧
      ((s.core core).accBad.contains o.acc = true → (v.core core).acc = (s.core core).acc.setRow (4096 * o.acc) (List.replicate 4096 0x7FC00000#32))) ∧
    (o.rerun = false → ∃ t, exec (.mmaCheck core false) s = .next t ∧ t.mem = s.mem ∧ (t.core core).acc = (s.core core).acc ∧
      (t.core core).mchain = (s.core core).mchain.map fun x =>
        if x.id = o.id then { x with rerun := true, turn := s.nextId }
        else if x.acc = o.acc ∧ x.kind = .mma then { x with started := false } else x) ∧
    (o.rerun = true → ∃ u : State, u.mem = s.mem ∧ (u.core core).acc = (s.core core).acc ∧
      (u.core core).mxHard = (if (s.core core).mxHard = 0xFFFF#16 then 0xFFFF#16 else (s.core core).mxHard + 1) ∧
      exec (.mmaCheck core false) s = .next ((u.mxDiscard core o.gid o.acc (some o.id)).mxFail core o 0x21 o.acc))) ∧
  (∀ s core o rest, (s.core core).mchain = o :: rest → s.inService core = true → (s.die (dieOf core)).dbg = false →
    (s.core core).mxHeld o = false → o.paged = none →
    (o.kind = .mzero → ∃ t, exec (.drainPortOperation core o.id) s = .next t ∧ t.mem = s.mem ∧
      (t.core core).mchain = (s.core core).mchain.filter (fun x => x.id != o.id) ∧
      (t.core core).acc = (s.core core).acc.setRow (4096 * o.acc) (List.replicate 4096 0)) ∧
    (o.kind = .drain → o.ran = false → (s.core core).accBad.contains o.acc = false →
      exec (.drainPortOperation core o.id) s = .next (s.drainData core o)) ∧
    (o.kind = .drain → o.ran = true → o.amx = false → exec (.drainPortOperation core o.id) s = .next ((s.drainRegs core o).mxDone core o)) ∧
    (∀ pa leaf, o.kind = .drain → o.ran = true → o.amx = true → o.amxOp = 0 → s.amxCheck o = .ok pa leaf →
      s.badRead (pa / 128) (s.group o.gid).ctx = false →
      exec (.drainPortOperation core o.id) s = .next ((s.drainRegs core o).sendAmx core pa leaf o)) ∧
    (o.kind = .drain → o.ran = true → o.amx = true → o.amxOp ≠ 0 →
      exec (.drainPortOperation core o.id) s = .next
        (if s.ops.any fun x => x.id == o.amxOp && x.accs.any fun a => a.st == .pend then s else s.mxDone core o)))

/-- PAGE_CLASS_COMMAND, INVALIDATION_COMMAND, HEAP_GRANT, PAGE_ZERO, KEY_LOAD, KEY_ERASE, CONTEXT_RECORD_WRITE,
CONTROL_REGISTER_WRITE, FHEAD, FAULT_DELIVERY_ENABLE, FED_BARRIER_EN, PAGE_WALK, PAGE_WALK_TIMEOUT, FRESP_RESOLVE and FRESP_REFUSE.
What log 8, 12, 40, 64, 67, 84, 85, 112, 114, 116, 117 and 118 say is the model's reading or choice, not a rule of the spec. -/
def Obligations.ControlEvents : Prop :=
  (∀ s d val, (s.die d).br = 4 → (s.die d).pcmd = none →
    let held := val / 64 = 0 ∧ s.loc d (s.die d).classPage.2 (s.die d).classPage.1 = .wait
    (held → exec (.pageClassCommand d val) s = .next (s.modDie d fun x => { x with pcmd := some val, ptry := 10001 })) ∧
    (∀ st, ¬ held → s.classRefused d val = some st → ∃ t, exec (.pageClassCommand d val) s = .next t ∧ t.mem = s.mem ∧ (t.die d).pclass = st) ∧
    (s.classRefused d val = none →
      let r := s.classRange d
      let busy := s.goingTo fun pa => r.1 ≤ pa && pa < r.1 + r.2
      ∃ t, exec (.pageClassCommand d val) s = .next t ∧ (t.die d).pcmd = (if busy then some val else none) ∧
        (busy = true → t.mem = s.mem) ∧ (busy = false → (t.die d).pclass = 0))) ∧
  (∀ s d val, (s.die d).pcmd ≠ none → exec (.pageClassCommand d val) s = .next s) ∧
  (∀ s d val, (s.die d).br = 4 → (s.die d).icmd = none → val < 2 ^ 32 →
    let r := (s.die d).invRange val
    let inR := fun page => r.2.1 ≤ page ∧ page < r.2.1 + r.2.2
    (field ((s.die d).reg 0xB00100) 54 10 ≠ 0 → ∃ t, exec (.invalidationCommand d val) s = .next t ∧ t.mem = s.mem ∧ (t.die d).invst = 2) ∧
    (field ((s.die d).reg 0xB00100) 54 10 = 0 → s.pinned d r.1 r.2.1 r.2.2 = true → ∃ t, exec (.invalidationCommand d val) s = .next t ∧ t.mem = s.mem ∧ (t.die d).invst = 1) ∧
    (field ((s.die d).reg 0xB00100) 54 10 = 0 → s.pinned d r.1 r.2.1 r.2.2 = false →
      let busy := s.ops.any fun o => dieOf o.core == d && (s.group o.gid).ctx == r.1 && o.toMem &&
        o.accs.any fun a => a.going && a.leaf != 0 && r.2.1 ≤ a.va.toNat / 4096 && a.va.toNat / 4096 < r.2.1 + r.2.2
      ∃ t, exec (.invalidationCommand d val) s = .next t ∧ t.mem = s.mem ∧
      (t.die d).icmd = (if busy then some val else none) ∧ (busy = false → (t.die d).invst = 0) ∧
      (∀ e ∈ (t.die d).l2tlb, ¬ (field e.1 42 12 = r.1 ∧ inR (e.1 % 2 ^ 42))) ∧
      ∀ l ∈ (t.die d).launches, l.2.ctx = r.1 → ∀ q ∈ l.2.pages, ¬ inR q.1)) ∧
  (∀ s d val, (s.die d).icmd ≠ none → exec (.invalidationCommand d val) s = .next s) ∧
  (∀ s d ctx val, (s.die d).br = 4 → (s.die d).hpend.has ctx = false → val < 2 ^ 64 →
    let va := field val 16 38 * 65536
    let len := val % 65536
    let res := s.grantRes d ctx va len val
    (s.grantWaits d ctx val = true → exec (.heapGrant d ctx val) s = .next (s.modDie d fun x => { x with hpend := x.hpend.set ctx (val, 10001) })) ∧
    (s.grantWaits d ctx val = false → ∃ t, exec (.heapGrant d ctx val) s = .next t ∧ t.mem = s.mem ∧ (t.heap d ctx).res = res ∧
      (t.heap d ctx).count = (s.heap d ctx).count + (if res = 0 then 1024 * len else 0) ∧
      (t.heap d ctx).chunks = (s.heap d ctx).chunks ++ (if res = 0 then [(va, 65536 * len)] else []))) ∧
  (∀ s d n, (s.die d).br = 4 → (s.die d).pzero = none → n < 2 ^ 32 →
    let w := (s.die d).reg 0xA00100
    let good := w / 2 ^ 50 = 0 ∧ field w 9 3 = 0 ∧ 0 < n ∧ n ≤ 2 ^ 20 ∧ s.localRange d (d * 2 ^ 48 + field w 12 38 * 4096) (4096 * n) = true
    (good → exec (.pageZero d n) s = .next (s.modDie d fun x => { x with pzero := some (w, 0, n), zerost := 1 })) ∧
    (¬ good → exec (.pageZero d n) s = .next (s.modDie d fun x => { x with zerost := 2 }))) ∧
  (∀ (s : State) d w i n, s.Inv → d < 4 → (s.die d).pzero = some (w, i, n) → i < n → s.localRange d (d * 2 ^ 48 + field w 12 38 * 4096) (4096 * n) = true →
    let base := d * 2 ^ 48 + field w 12 38 * 4096 + 4096 * i
    let t := s.zeroFrame d
    (∀ j, j < 4096 → t.rdByte (base + j) (t.keyId (base + j) (field w 0 9)) = 0) ∧
    (t.die d).pzero = (if i + 1 = n then none else some (w, i + 1, n)) ∧ (i + 1 = n → (t.die d).zerost = 0)) ∧
  (∀ s d val, (s.die d).br = 4 → val < 2 ^ 64 →
    (keyBad val = true ∨ (s.die d).kcmd ≠ none → ∀ e ∈ ([.keyLoad, .keyErase] : List (Nat → Nat → Instr)),
      ∃ t, exec (e d val) s = .next t ∧ t.mem = s.mem ∧ (t.die d).kstat = 3 ∧ (t.die d).keygen = (s.die d).keygen) ∧
    (keyBad val = false → (s.die d).kcmd = none →
      (∃ t, exec (.keyLoad d val) s = .next t ∧ (t.die d).kcmd = some (field val 0 9, 1 + 2 * (s.die d).kdata) ∧ (t.die d).kstat = 1) ∧
      (∃ t, exec (.keyErase d val) s = .next t ∧ (t.die d).kcmd = some (field val 0 9, 2 * (512 + s.nextId)) ∧ (t.die d).kstat = 1 ∧
        t.nextId = s.nextId + 1))) ∧
  (∀ (s : State) d slot key, (s.die d).kcmd = some (slot, key) →
    let t := s.keyFinish d
    t.mem = s.mem ∧ (t.die d).keygen.get slot 0 = key ∧ (t.die d).kcmd = none ∧ (t.die d).kstat = 2 ∧
      (key % 2 = 1 → ∀ i, i < 8 → (t.die d).reg (0xA01040 + 8 * i) = 0)) ∧
  (∀ s d ctx val, (s.die d).br = 4 → ctx < 4096 → val < 2 ^ 64 →
    ((s.die d).ctxValid ctx = false → bitN val 0 = true →
      ∃ t, exec (.contextRecordWrite d (0x900000 + 128 * ctx) val) s = .next t ∧ t.mem = s.mem ∧ (t.die d).ctxValid ctx = true ∧
        (t.die d).ctxReg ctx 0 = val &&& ctxMask 0) ∧
    ((s.die d).ctxValid ctx = true → bitN val 0 = false → (s.die d).cstate.get ctx 0 = 0 ∨ (s.die d).cstate.get ctx 0 = 2 → s.groupsOf d ctx = [] →
      (s.die d).ctxQueues ctx = [] → (∃ e, e < 4 ∧ e ≠ d ∧ (s.die e).ctxValid ctx = true) →
      ∃ t, exec (.contextRecordWrite d (0x900000 + 128 * ctx) val) s = .next t ∧ t.mem = s.mem ∧ (t.die d).ctxValid ctx = false ∧
        t.regions = s.regions ∧ ∀ e, (t.die e).heaps = (s.die e).heaps)) ∧
  (∀ s d val, d < 4 → (s.die d).br = 4 →
    (∃ t, exec (.controlRegisterWrite d 0x102200 4 val) s = .next t ∧ t.mem = s.mem ∧ (t.die d).reg 0x102200 = val % 2 ^ 32) ∧
    (∃ t, exec (.fhead d val) s = .next t ∧ (t.die d).fhead = headTo (s.die d).fhead (s.die d).ftail (BitVec.ofNat 32 val)) ∧
    (∃ t, exec (.faultDeliveryEnable d val) s = .next t ∧ (t.die d).reg 0x300000 = val % 2 ^ 64 &&& (bits 12 52 + bits 0 5)) ∧
    ∀ k, k < 32 → ∃ t, exec (.fedBarrierEn d k val) s = .next t ∧ t.mem = s.mem ∧ (t.die d).fedReg k 0 = val % 2 ^ 64 &&& (bits 6 58 + 1) ∧
      (bitN val 0 = true → (t.die d).fedCount.get k 0 = 0)) ∧
  (∀ s core page ctx, core < 256 → page < 2 ^ 42 → (s.core core).ctx = some ctx →
    let walk := s.walk (dieOf core) ctx (page * 4096)
    (walk = .wait → exec (.pageWalk core page) s = .next s) ∧
    (walk ≠ .wait → ∃ t, exec (.pageWalk core page) s = .next t ∧ t.mem = s.mem ∧
      (∀ q, s.waves.has q = true → t.wave q = if q / 64 = core then (s.wave q).mapPaths (·.map fun p => p.walkAgain page) else s.wave q) ∧
      ((∀ w, walk ≠ .leaf w) → { t with waves := s.waves } = s) ∧
      ∀ w, walk = .leaf w → (t.core core).tlb.get page 0 = BitVec.ofNat 64 w ∧
        (t.die (dieOf core)).l2tlb.get (l2Key (plateOf core) ctx page) 0 = BitVec.ofNat 64 w)) ∧
  (∀ page (p : Path) va left, p.status = .walk va left → p.walkAgain page = if va / 4096 = page then { p with status := .run } else p) ∧
  (∀ s core slot lane gid p va,
    let w := s.wave (waveKey core slot)
    (s.die (dieOf core)).dbg = false → w.saved = none → w.paths.find? (fun p => p.lanes.getLsbD lane) = some p → p.status = .walk va 0 → w.gid = some gid →
    (s.group gid).phase = .running → ∃ u : State, { u with waves := s.waves } = s ∧
      (u.wave (waveKey core slot)).paths = w.paths.map (fun q => if q = p then { q with status := .stay } else q) ∧
      exec (.pageWalkTimeout core slot lane) s = .next (u.haltGroup gid
        { code := 0x0C, epc := p.pc, eaddr := BitVec.ofNat 64 va, emask := p.lanes, wave := w.wix } true)) ∧
  (∀ s d rec, (s.die d).faults.find? (fun g => g.id == rec && g.written) = none →
    exec (.frespResolve d rec) s = .next s ∧ exec (.frespRefuse d rec) s = .next s) ∧
  (∀ s d f, (s.die d).faults.find? (fun g => g.id == f.id && g.written) = some f →
    let s0 := s.modDie d fun x => { x with faults := x.faults.filter fun g => g.id != f.id }
    let work := fun (u : State) (no : Bool) (i : Option Nat) =>
      ((u.answerEntries d f.ctx f.page no i).answerWords d f.ctx f.page no i).answerDrains d f.ctx f.page no i
    let ends := fun (u : State) (no : Bool) => (u.answerLaunches d f.ctx f.page no).answerQueues d f.ctx f.page no
    let traps := fun (u : State) (i : Nat) =>
      ((s0.parkedOn d f.ctx f.page).filter fun p => p.trap.wave == i).foldl (fun v p => v.trapA p.gid p.trap p.own) u
    exec (.frespResolve d f.id) s = .next (ends (work (s0.unpark d f.ctx f.page false) false none) false) ∧
    exec (.frespRefuse d f.id) s = .next (ends (((List.range 32).foldl
      (fun u i => (work (traps u i) true (some i)).answerReissued d f.ctx f.page (some i)) (s0.unpark d f.ctx f.page true)).answerTrees
        d f.ctx f.page) true)) ∧
  (∀ (s : State) d ctx page, (∀ p ∈ s.parkedOn d ctx page, p.trap.code = 5 ∨ p.trap.code = 0x0B ∧ p.trap.eaddr = p.trap.epc) ∧
    ∀ no k, (∃ g ∈ s.groupsOf d ctx, k ∈ g.2.keys) → (∀ g ∈ s.groupsOf d ctx, k ∈ g.2.keys → g.2.phase = .running) →
      (s.unpark d ctx page no).wave k = { s.wave k with
        paths := (s.wave k).paths.map fun p => p.unpark page (if no then .stay else .run)
        saved := (s.wave k).saved.map fun v => { v with paths := v.paths.map fun p => p.unpark page .stay } }) ∧
  (∀ page st (p : Path) va fetch, p.status = .parked va fetch → p.unpark page st = if va / 4096 = page then { p with status := st } else p)

/-- WRIDX, QUEUE_DESCRIPTOR_WRITE, MAPPER_SLOT_FILL, QUEUE_PRIORITY_AGE, IDLE_QUANTUM_EXPIRY, LAUNCH, PIPELINE, JOB_CARD,
WAIT_ON_WORD, SIGNAL, PAD, WAIT_ON_WORD_RECHECK and WAIT_ON_WORD_TIMEOUT.
What log 58, 62, 65 and 101 say is the model's reading or choice, not a rule of the spec. -/
def Obligations.QueueEvents : Prop :=
  ∀ s d q,
    let x := s.die d
    let u := x.uq q
    let ctx := x.qCtx q
    (∀ v, x.br = 4 → q < 1024 → x.qEn q = true → v < 2 ^ 64 → v ≠ u.wridx →
      (u.wridx ≤ v → v ≤ u.rdidx + 2 ^ x.qLogn q → ∃ t, exec (.wridx d q 8 v) s = .next t ∧ t.mem = s.mem ∧
        ((t.die d).uq q).wridx = v ∧ ((t.die d).uq q).st = (if u.st = .idle then .pending else u.st) ∧
        ∀ k, k ≠ q → (t.die d).uq k = x.uq k) ∧
      (v < u.wridx ∨ u.rdidx + 2 ^ x.qLogn q < v → ∃ t, exec (.wridx d q 8 v) s = .next t ∧
        ((t.die d).uq q).err = true ∧ ((t.die d).uq q).st = .disabled)) ∧
    (∀ v, d < 4 → q < 1024 → x.br = 4 → x.qEn q = false → v < 2 ^ 64 → bitN v 0 = true → 6 ≤ x.qLogn q → x.qLogn q ≤ 20 →
      ∃ t, exec (.queueDescriptorWrite d (32 * q) v) s = .next t ∧ t.mem = s.mem ∧ (t.die d).qEn q = true ∧
        (t.die d).qBase q = field v 12 42 * 4096 ∧ (t.die d).uq q = { st := .idle }) ∧
    (((x.uqs.filter fun e => e.2.st == .resident).length < 32 → (∃ e ∈ x.uqs, e.2.st = .pending) →
      ∃ t, ∃ e ∈ x.uqs, exec (.mapperSlotFill d) s = .next t ∧ t.mem = s.mem ∧ e.2.st = .pending ∧
        (∀ k ∈ x.uqs, k.2.st = .pending → x.effPrio k.1 ≤ x.effPrio e.1) ∧ ((t.die d).uq e.1).st = .resident ∧
        ((t.die d).uq e.1).boost = 0 ∧ (t.die d).rr = (e.1 + 1) % 1024)) ∧
    (d < 4 → q < 1024 → x.br = 4 → x.qEn q = true → ∀ v, v < 2 ^ 64 → bitN v 0 = false →
      let taking := u.fault ≠ none ∨ u.wleft ≠ 0
      (¬ taking → ∃ t, exec (.queueDescriptorWrite d (32 * q) v) s = .next t ∧ t.mem = s.mem ∧ (t.die d).qEn q = false ∧ ((t.die d).uq q).st = .disabled) ∧
      (taking → ∃ t, exec (.queueDescriptorWrite d (32 * q) v) s = .next t ∧ t.mem = s.mem ∧ (t.die d).qEn q = true ∧
        (t.die d).uq q = { u with closing := true })) ∧
    (u.st = .pending → ageTicks ≤ u.pendFor → x.qPrio q + u.boost < 3 → ∃ t, exec (.queuePriorityAge d q) s = .next t ∧ t.mem = s.mem ∧
      (t.die d).uq q = { u with boost := u.boost + 1, pendFor := u.pendFor - ageTicks }) ∧
    (u.st = .resident → u.isIdle = true → u.idleLeft = 0 → x.cstate.get ctx 0 = 0 → ∃ t, exec (.idleQuantumExpiry d q) s = .next t ∧ t.mem = s.mem ∧
      (t.die d).uq q = { u with st := .idle }) ∧
    (x.cstate.get ctx 0 ≠ 0 → exec (.idleQuantumExpiry d q) s = .next s) ∧
    (∀ h va n, s.AtHead d q 0x0F h va n → ∃ t, exec (.pad d q) s = .next t ∧ t.mem = s.mem ∧ QueuePassed s t d q n) ∧
    (∀ e ∈ ([(.launch, .launch, 1), (.pipeline, .pipeline, 3)] : List ((Nat → Nat → Instr) × LKind × Nat)),
      ∀ h va n, s.AtHead d q e.2.2 h va n → x.meshDown = false →
        let r := s.schedRead d ctx va 512
        let w := fun o k => field r (8 * o) (8 * k)
        (s.recordBad d ctx w e.2.1 = none → ∀ lid, x.freeLid ctx = some lid → ∃ t, exec (e.1 d q) s = .next t ∧ t.mem = s.mem ∧
          QueuePassed s t d q n ∧ (t.die d).norder = x.norder + 1 ∧ (t.die d).launches.get (1024 * ctx + x.lidName ctx lid) {} =
            { launchOfRecord w e.2.1 ctx q (field h 16 16) (BitVec.ofNat 64 va) with lid := x.lidName ctx lid, order := x.norder, acq := u.acq }) ∧
        (∀ k, s.recordBad d ctx w e.2.1 = some k → ∃ t, exec (e.1 d q) s = .next t ∧ (∀ key, (t.die d).launches.has key = x.launches.has key) ∧
          ((t.die d).uq q).rdidx = u.rdidx + n)) ∧
    (∀ h va n lid, s.AtHead d q 2 h va n → x.meshDown = false → (x.launches.filter fun e => e.2.kind == .card && !e.2.finished).length < 256 →
      let c := s.schedRead d ctx va 128
      let v := fun o k => field c (8 * o) (8 * k)
      let r := s.schedRead d ctx (v 0x10 8) 512
      (cardBad v ≠ [] ∨ v 0x10 8 % 8 ≠ 0 ∨
          s.baseObst d ctx (v 0x10 8) = none ∧ s.recordBad d ctx (fun o k => field r (8 * o) (8 * k)) .card ≠ none →
        ∃ t, exec (.jobCard d q) s = .next t ∧ (∀ key, (t.die d).launches.has key = x.launches.has key) ∧
          ((t.die d).uq q).rdidx = u.rdidx + n) ∧
      (cardBad v = [] → v 0x10 8 % 8 = 0 → s.baseObst d ctx (v 0x10 8) = none →
      s.recordBad d ctx (fun o k => field r (8 * o) (8 * k)) .card = none → x.freeLid ctx = some lid → s.depaBusy d ctx (v 0x30 8) = false →
      ∃ t, exec (.jobCard d q) s = .next t ∧ t.mem = s.mem ∧ QueuePassed s t d q n ∧
        let l := (t.die d).launches.get (1024 * ctx + x.lidName ctx lid) {}
        l.kind = .card ∧ l.lid = x.lidName ctx lid ∧ l.depPa = s.depaAt d ctx (v 0x30 8) ∧ l.entry = BitVec.ofNat 64 (v 8 8) ∧ l.nrec = v 0x24 4 ∧ l.args = BitVec.ofNat 64 (v 0x18 8) ∧
          l.depa = BitVec.ofNat 64 (v 0x30 8) ∧ l.deca = BitVec.ofNat 64 (v 0x38 8) ∧ l.cready = (v 0x30 8 == 0 || s.depaZero d ctx (v 0x30 8)) ∧
          l.acq = (s.depaZero d ctx (v 0x30 8) || u.acq))) ∧
    (∀ h va n e pa leaf, s.AtHead d q 4 h va n → waitOf (fun o k => s.schedRead d ctx (va + o) k) (field h 16 16) = some e →
      s.schedChk d ctx e.va.toNat { size := 8 } = .ok pa leaf →
      let ok := e.holds (s.anyRead pa (s.keyId pa (leafKey leaf)) 8)
      (s.badRead (pa / 128) ctx = true → ∃ t, exec (.waitOnWord d q) s = .next t ∧ ((t.die d).uq q).err = true ∧ ((t.die d).uq q).st = .disabled) ∧
      (s.badRead (pa / 128) ctx = false → s.lineBusy (pa / 128) = false →
        ∃ t, exec (.waitOnWord d q) s = .next t ∧ t.mem = s.mem ∧ ((t.die d).uq q).rdidx = u.rdidx + n ∧
          (ok = false → ((t.die d).uq q).waitE = some { e with pa := pa, leaf := BitVec.ofNat 64 leaf }) ∧
          (ok = true → ((t.die d).uq q).waitE = none ∧ ((t.die d).uq q).acq = (u.acq || 2 ≤ e.scope)))) ∧
    (∀ h va n pa leaf, s.AtHead d q 5 h va n →
      let c := s.schedRead d ctx (va + 0x18) 8
      let a := s.schedRead d ctx (va + 0x08) 8
      let v := s.schedRead d ctx (va + 0x10) 8
      let k := s.keyId pa (leafKey leaf)
      let op := field c 0 2
      let size := if op = 2 then 4 else 8
      op ≠ 3 → field c 2 2 = 0 → 4 ≤ field c 4 3 → field c 7 1 = 0 → field c 9 7 = 0 → field c 27 37 = 0 → s.schedRead d ctx (va + 0x20) 8 = 0 →
      s.schedChk d ctx a { size := size, write := true, atom := if op = 1 then some 0 else none } = .ok pa leaf → s.lineBusy (pa / 128) = false →
      (op = 1 → s.badRead (pa / 128) ctx = false) →
      ∃ t, exec (.signal d q) s = .next t ∧ ((t.die d).uq q).rdidx = u.rdidx + n ∧
        t.mem = (s.anyWrite pa size k (if op = 1 then (s.anyRead pa k 8 + v) % 2 ^ 64 else v % 2 ^ (8 * size)) ctx).mem ∧
        (t.die d).msix = x.msix ++ if bitN c 8 then [field c 16 11] else []) ∧
    (∀ e, u.waitE = some e →
      (e.hit = true → u.st = .idle → ∃ t, exec (.waitOnWordRecheck d q) s = .next t ∧ t.mem = s.mem ∧ ((t.die d).uq q).st = .pending) ∧
      (∀ pa leaf, e.hit = true → u.st = .resident → u.fault = none → s.schedChk d ctx e.va.toNat { size := 8 } = .ok pa leaf → s.lineBusy (pa / 128) = false →
        (s.badRead (pa / 128) ctx = true → ∃ t, exec (.waitOnWordRecheck d q) s = .next t ∧ ((t.die d).uq q).err = true ∧ ((t.die d).uq q).st = .disabled) ∧
        (s.badRead (pa / 128) ctx = false → ∃ t, exec (.waitOnWordRecheck d q) s = .next t ∧ t.mem = s.mem ∧
          let ok := e.holds (s.anyRead pa (s.keyId pa (leafKey leaf)) 8)
          (t.die d).uq q = if ok then { u.passed e with wleft := 0 } else
            { u with wleft := 0, waitE := some { e with hit := false, pa := pa, leaf := BitVec.ofNat 64 leaf } })) ∧
      (e.left = 1 → e.hit = false → ∃ t, exec (.waitOnWordTimeout d q) s = .next t ∧ ((t.die d).uq q).err = true ∧
        ((t.die d).uq q).st = .disabled))

/-- LAUNCH_TRANSLATION, LAUNCH_COMPLETE, CARD_READY, CARD_COMPLETE, FED_ANNOUNCE and FED_BARRIER_ARRIVAL.
What log 61, 62, 66, 101, 102 and 114 say is the model's reading or choice, not a rule of the spec. -/
def Obligations.LaunchEvents : Prop :=
  (∀ s d key, (s.die d).launches.has key = true →
    let l := (s.die d).launches.get key {}
    (l.phase = .translate → l.faults = [] →
      let parks := s.needsWith d l .park
      (parks ≠ [] → ∃ t, exec (.launchTranslation d key) s = .next t ∧ (t.die d).launches.get key {} = { l with faults := parks }) ∧
      (parks = [] → ∀ r, s.needsBad d l (fun _ => false) = some r →
        ∃ t, exec (.launchTranslation d key) s = .next t ∧ (t.die d).launches.has key = false) ∧
      (parks = [] → s.needsBad d l (fun _ => false) = none → (l.kind = .card → s.depaBusy d l.ctx l.depa.toNat = false) →
        let waits := s.needsWith d l .wait ≠ [] ∨ (s.stageWaits d l = true ∧ l.wleft ≠ 1)
        let good := (s.readSpawn d l).2 = false ∧ l.regs * 128 * l.waves + l.spres * ((s.readSpawn d l).1.foldl (fun m e => max m e.regs) 0) * 128 ≤ 524288 ∧
          (s.msgRing d l.ctx ≠ none ∨ ∀ e ∈ s.readHandlers d l, 256 ≤ e.1) ∧ (s.readStages d l).2 = none
        let zero := l.kind = .card ∧ s.depaZero d l.ctx l.depa.toNat = true
        (waits → ∃ t, exec (.launchTranslation d key) s = .next t ∧ t.mem = s.mem ∧
          (t.die d).launches.get key {} = if l.wleft = 0 then { l with wleft := 10001, wfar := none } else l) ∧
        (¬ waits → ¬ good → ∃ t, exec (.launchTranslation d key) s = .next t ∧ (t.die d).launches.has key = false) ∧
        (¬ waits → good → ∃ t, exec (.launchTranslation d key) s = .next t ∧ t.mem = s.mem ∧
          let m := (t.die d).launches.get key {}
          m.phase = .arm ∧ m.hnd = s.readHandlers d l ∧ m.spn = (s.readSpawn d l).1 ∧ m.rgns = s.readRegions d l ∧
            m.stages = (s.readStages d l).1 ∧ m.entry = l.entry ∧ m.depPa = (if l.kind = .card then s.depaAt d l.ctx l.depa.toNat else none) ∧ (m.cready = true ↔ l.cready = true ∨ zero)))) ∧
    (l.kind ≠ .card → l.phase = .ready → s.runOver d key l = true → (l.kind = .launch → ∀ i, i < l.groups → l.next ≤ i → l.serves i = false) →
      ∃ t, exec (.launchComplete d key) s = .next t ∧ t.mem = s.mem ∧ t.groups = s.groups ∧ (t.die d).launches.has key = false) ∧
    (∀ p, l.depPa = some p → l.kind = .card → l.cready = false → s.lineBusy (p / 128) = false →
      s.agentRead p (s.ownKey p) 4 = 0 → ∃ t, exec (.cardReady d key) s = .next t ∧ t.mem = s.mem ∧
        (t.die d).launches.get key {} = { l with cready := true, acq := true }) ∧
    (l.kind = .card → l.phase = .ready → l.cready = true → l.faults = [] →
      (l.finished = true → s.runOver d key l = true → ∃ t, exec (.cardComplete d key) s = .next t ∧ t.mem = s.mem ∧ (t.die d).launches.has key = false) ∧
      (l.finished = false → s.cardOver d key l = true →
        (l.deca = 0 → exec (.cardComplete d key) s = .next (s.endCard d key)) ∧
        (l.deca ≠ 0 → ∀ pa leaf, s.schedChk d l.ctx l.deca.toNat { size := 4, write := true, atom := some 0 } = .ok pa leaf →
          let v := s.agentRead pa (s.keyId pa (leafKey leaf)) 4
          s.lineBusy (pa / 128) = false → s.badRead (pa / 128) l.ctx = false → isCtl pa = false →
          exec (.cardComplete d key) s = .next (if v = 0 then (s.logCtx d l.ctx 0x29 0 (l.deca.toNat * 2 ^ 32)).endCard d key
            else (s.agentWrite pa 4 (s.keyId pa (leafKey leaf)) (v - 1)).endCard d key)))) ∧
    ((s.endCard d key).mem = s.mem ∧ (s.runOver d key l = true → ((s.endCard d key).die d).launches.has key = false) ∧
      (s.runOver d key l = false → ((s.endCard d key).die d).launches.get key {} = { l with finished := true })) ∧
    (l.fedAnn = false → l.kind ≠ .card → l.phase = .ready → ∃ t, exec (.fedAnnounce d key) s = .next t ∧ t.mem = s.mem ∧
      ((t.die d).launches.get key {}).fedAnn = true ∧ ∃ ps, t.pkts = s.pkts ++ ps ∧
        ps.map (fun p => (p.src, p.dst, p.body)) = ((List.range 4).filter (· != d)).map fun e => (d, e, PktBody.fed true l.ctx l.entry.toNat l.fedn))) ∧
  (∀ s d k ctx n, k < 32 → n < 2 ^ 32 → (s.die d).fedMisuse k ctx n = false → field ((s.die d).fedReg k 0) 11 9 = Config.package % 512 →
    let h := field ((s.die d).fedReg k 0) 9 2
    (h = d → exec (.fedBarrierArrival d k ctx n) s = .next (s.fedHome d k ctx n)) ∧
    (h ≠ d → exec (.fedBarrierArrival d k ctx n) s = .next (s.sendPkt d h (.arrive k ctx n)))) ∧
  (∀ (s : State) h k ctx n, (s.die h).fedMisuse k ctx n = false →
    let c := (s.die h).fedCount.get k 0 + n
    let need := field ((s.die h).fedReg k 0) 32 32
    let pa := h * 2 ^ 48 + (s.die h).fedReg k 8 / 8 * 8 % 2 ^ 48
    let t := s.fedHome h k ctx n
    (c < need → t.mem = s.mem ∧ (t.die h).fedCount.get k 0 = c) ∧
    (need ≤ c → s.populated pa = true → isCtl pa = false →
      (t.die h).fedCount.get k 0 = 0 ∧ t.mem = (s.wrOwn pa 8 ((s.rdOwn pa 8 + 1) % 2 ^ 64)).mem))

/-- DISPATCH_DECISION, CORE_CONTEXT_PASS, SPAWN_DEADLOCK_EVICTION, AMSG_DELIVERY, STAGE_GOVERNOR_TICK, STAGE_PARTIAL_TAKE,
BIN_WINDOW_EXPIRY, BIN_ADMIT, PREEMPT_DRAIN, PREEMPT_SAVE, CONTEXT_RESUME, CONTEXT_RESET and PREEMPT_DEADLINE_EXPIRY.
What log 32, 55, 73, 74, 76, 98, 99 and 121 say is the model's reading or choice, not a rule of the spec. -/
def Obligations.SchedulerEvents : Prop :=
  (∀ (s : State) core g waves pc launched init, (s.freeSlots core waves).length = waves → launched ≠ 0 →
    (∀ w, (init w).gid = w.gid ∧ (init w).paths = w.paths ∧ (init w).launched = w.launched) →
    let t := s.startGroup core g waves pc launched init
    (t.group s.nextId).slots = s.freeSlots core waves ∧ (t.group s.nextId).core = core ∧
      ∀ k ∈ s.freeSlots core waves, let w := t.wave (waveKey core k)
        w.gid = some s.nextId ∧ w.launched = launched ∧ w.paths = [{ lanes := launched, pc := pc }]) ∧
  (∀ (s : State) core g waves pc launched init, s.beginsAcquired { g with core := core } = true →
    let t := s.startGroup core g waves pc launched init
    (t.core core).leases = [] ∧ (t.core core).l1 = (s.core core).l1.filter fun x => x.2.priv) ∧
  (∀ s d,
    let p := s.choose
    let cs := p.2.classes d p.1
    let starve := fun (j : Nat) => (s.die d).starve.get j 0
    (∀ k u, cs.getD k none = some u →
      ((∀ j, j < k → cs.getD j none = none) ∧ ∀ j, j < 4 → (cs.getD j none).isSome = true → starve j < 64) ∨
        (64 ≤ starve k ∧ ∀ j, j < k → (cs.getD j none).isSome = true → starve j < 64) →
      ∃ t, exec (.dispatchDecision d) s = .next t ∧ { t with dies := u.dies } = u ∧ (t.die d).starve.get k 0 = 0 ∧
        ∀ j, j < 4 → j ≠ k → (t.die d).starve.get j 0 = if (cs.getD j none).isSome = true then starve j + 1 else 0) ∧
    ((∀ j, cs.getD j none = none) → ∃ t, exec (.dispatchDecision d) s = .next t ∧ { t with dies := s.dies } = s ∧ (t.die d).starve = [] ∧
      (t.die d).plates = (s.die d).plates.filter fun e => e.2 != 4)) ∧
  (∀ s core ctx, core < 256 → (s.core core).ctx ≠ some ctx → s.wantsCore (dieOf core) ctx = true → s.groupsOn core = [] →
    (s.core core).idle = true → s.inService core = true → (s.core core).bins = [] →
    ∃ t, exec (.coreContextPass core ctx) s = .next t ∧ t.groups = s.groups ∧ t.core core =
      { ({} : Core) with
        ctx := some ctx, stamp := (s.core core).stamp, f64Busy := (s.core core).f64Busy
        mxSoft := (s.core core).mxSoft, mxHard := (s.core core).mxHard, copy := { err := (s.core core).copy.err }
        gath := { err := (s.core core).gath.err }, coll := { err := (s.core core).coll.err } }) ∧
  (∀ s d ctx,
    let held := (s.die d).stall.get ctx 0
    1000 < held → s.placing d ctx = true → (if held = 1003 then s.oldestWaits d ctx else s.deadlocked d ctx) = true →
    (∀ e, s.evictee d ctx = some e → s.evictUsed d ctx + e.2.imageSize ≤ (s.evictArea d ctx).2 →
      (∀ u, s.evictGroup d e.1 = some u → ∃ t, exec (.spawnDeadlockEviction d ctx) s = .next t ∧
        t = (u.modDie d fun x => { x with stall := x.stall.set ctx 1003 }) ∧ t.groups.has e.1 = false) ∧
      (s.evictGroup d e.1 = none → exec (.spawnDeadlockEviction d ctx) s = .next s)) ∧
    ((∀ e, s.evictee d ctx = some e → (s.evictArea d ctx).2 < s.evictUsed d ctx + e.2.imageSize) →
      (held = 1002 → exec (.spawnDeadlockEviction d ctx) s = .next s) ∧
      (held ≠ 1002 → ∃ t, exec (.spawnDeadlockEviction d ctx) s = .next t ∧
        { t with dies := s.dies } = { s.logCtx d ctx 0x26 0 (s.queuedGroups d ctx) with dies := s.dies } ∧ (t.die d).stall.get ctx 0 = 1002))) ∧
  (∀ s d m rest, (s.die d).msgs = m :: rest →
    (m.tdie ≠ d → 256 ≤ (s.die m.tdie).msgs.length + s.msgsTo m.tdie → exec (.amsgDelivery d) s = .next s) ∧
    (m.tdie ≠ d → (s.die m.tdie).msgs.length + s.msgsTo m.tdie < 256 → ∃ t p, exec (.amsgDelivery d) s = .next t ∧ t.mem = s.mem ∧
      (t.die d).msgs = rest ∧ t.pkts = s.pkts ++ [p] ∧ p.src = d ∧ p.dst = m.tdie ∧ p.body = .msg m) ∧
    (m.tdie = d → ∀ c b, s.msgCore d m = some c → (s.core c).huddle m [] = some b → ∃ t, exec (.amsgDelivery d) s = .next t ∧
      t.mem = s.mem ∧ (t.die d).msgs = rest ∧ (t.core c).bins = b.1)) ∧
  (∀ s d, (s.die d).govLeft = 0 → ∃ t, exec (.stageGovernorTick d) s = .next t ∧ t.mem = s.mem ∧ (t.die d).govLeft = 100 ∧
    ∀ key i, ((s.die d).launches.get key {}).stages[i]?.isSome = true → (s.die d).launches.has key = true →
      let g := ((s.die d).launches.get key {}).stages.getD i {}
      let n := g.tail - g.head
      let a := if g.high < n then min g.maxc (g.allowance + 1) else if n < g.low then max g.minc (g.allowance - 1) else g.allowance
      ((t.die d).launches.get key {}).stages.getD i {} = { g with allowance := a }) ∧
  (∀ s d key stage u,
    let g := ((s.die d).launches.get key {}).stages.getD stage {}
    g.tail - g.head < 32 → g.left = 0 → (s.die d).serves (s.classes d 0) = some 2 → s.takeStage d key stage (g.tail - g.head) = some u →
    ∃ t, exec (.stagePartialTake d key stage) s = .next t ∧ t = s.decided d 2 (s.classes d 0) u ∧
      (((t.die d).launches.get key {}).stages.getD stage {}).head = g.head + (g.tail - g.head)) ∧
  (∀ s core k b, (s.core core).bins[k]? = some b →
    (b.closed = false → b.left = 0 → ∃ t, exec (.binWindowExpiry core k) s = .next t ∧ t.mem = s.mem ∧
      (t.core core).bins = (s.core core).bins.set k { b with closed := true }) ∧
    (b.closed = true → b.threads ≠ [] →
      let m := b.threads.headD {}
      s.placing (dieOf core) m.ctx = true → s.restoring (dieOf core) m.ctx = false → s.fitsThreads (dieOf core) core m = true →
      ∃ t, exec (.binAdmit core k) s = .next t ∧ t.mem = s.mem ∧ (t.core core).bins = (s.core core).bins.eraseIdx k ∧
        (t.group s.nextId).core = core)) ∧
  (∀ s d ctx,
    let tout := (s.die d).reg (0x400000 + 16 * ctx) / 2 ^ 32
    ((s.die d).cstate.get ctx 0 = 0 →
      (∃ t, exec (.preemptDrain d ctx) s = .next t ∧ t.mem = s.mem ∧ (t.die d).cstate.get ctx 0 = 1 ∧
        (t.die d).cleft.get ctx 0 = (if tout = 0 then 0 else tout + 1) ∧ (t.die d).csave.get ctx false = false) ∧
      (∃ t, exec (.preemptSave d ctx) s = .next t ∧ (t.die d).cstate.get ctx 0 = 1 ∧ (t.die d).csave.get ctx false = true)) ∧
    ((s.die d).cstate.get ctx 0 = 2 → ∃ t, exec (.contextResume d ctx) s = .next t ∧ t.mem = s.mem ∧ (t.die d).cstate.get ctx 0 = 0) ∧
    ((s.die d).cstate.get ctx 0 ≠ 3 → ∃ t, exec (.contextReset d ctx) s = .next t ∧ (t.die d).cstate.get ctx 0 = 3 ∧
      (t.die d).ctxQueues ctx = []) ∧
    ((s.die d).cstate.get ctx 0 = 1 → (s.die d).cleft.get ctx 0 = 1 → ∃ t, exec (.preemptDeadlineExpiry d ctx) s = .next t ∧
      (t.die d).cstate.get ctx 0 = 3 ∧ (t.die d).ctxQueues ctx = []))

/-- PLATE_WATCHDOG_EXPIRY, PLATE_PORT_ERROR, THERMAL_TRIP, PLATE_DECLARE_LOST, PLATE_RESET_RETURN, SLICE_RETIRE_NOW,
BUCKET_HANDOVER, SCRUB, UNCORRECTABLE_ERROR, MESH_FLIT_RETRY, MESH_LINK_DOWN, IMAGE_CHECK, MEMORY_TRAINING, PLATE_SELF_TEST and
REGULATOR_SAMPLE.
What log 33, 35, 36, 56, 58, 59, 60, 106 and 111 say is the model's reading or choice, not a rule of the spec. -/
def Obligations.PlateEvents : Prop :=
  (∀ s p, s.canLose p = true →
    (∀ e ∈ ([.platePortError, .thermalTrip, .plateDeclareLost] : List (Nat → Instr)), ∃ t, exec (e p) s = .next t ∧
      (t.die (p / 4)).plates.get p 0 = 1 ∧ t.plateGroups p = []) ∧
    ((s.die (p / 4)).dbg = false → s.portStuck p = true → ∃ t, exec (.plateWatchdogExpiry p) s = .next t ∧ (t.die (p / 4)).plates.get p 0 = 1 ∧ t.plateGroups p = [])) ∧
  (∀ s p pass, p < 16 → (s.die (p / 4)).plates.get p 0 = 2 → (∀ c ∈ plateCores p, (s.core c).drained = true) →
    ∃ t, exec (.plateResetReturn p pass) s = .next t ∧ (t.die (p / 4)).plates.get p 0 = (if pass then 4 else 3) ∧
      ∀ c ∈ plateCores p, (t.core c).ctx = none ∧ (t.core c).l1 = [] ∧ (t.core c).leases = []) ∧
  (∀ s d n, n < 48 → (s.die d).slices.get n 0 = 0 →
    (25 ≤ (s.die d).liveSlices.length → ∃ t, exec (.sliceRetireNow d n) s = .next t ∧ t.mem = s.mem ∧ (t.die d).slices.get n 0 = 1) ∧
    ((s.die d).liveSlices.length < 25 → ∃ t, exec (.sliceRetireNow d n) s = .next t ∧ (t.die d).slices = (s.die d).slices)) ∧
  (∀ s d, s.holdsReads d = false →
    let x := s.die d
    (∀ b, b < 1024 → x.moving.get b false = true → (∀ a, a < b → x.moving.get a false = false) →
      ∃ t, exec (.bucketHandover d) s = .next t ∧ (t.die d).bucketSlice b = x.heirs.get b (x.heir (x.bucketSlice b)) ∧ (t.die d).moving.get b false = false) ∧
    (∀ n, (∀ b, b < 1024 → x.moving.get b false = false) → n < 48 → x.slices.get n 0 = 1 → (∀ m, m < n → x.slices.get m 0 ≠ 1) →
      (∀ b rest, x.bucketsOf n = b :: rest → ∃ t, exec (.bucketHandover d) s = .next t ∧ t.mem = s.mem ∧ (t.die d).moving.get b false = true ∧
        (t.die d).heirs.get b 48 = x.heir n) ∧
      (x.bucketsOf n = [] → ∃ t, exec (.bucketHandover d) s = .next t ∧ (t.die d).slices.get n 0 = 2 ∧ (t.die d).gen = x.gen + 1))) ∧
  (∀ s d i, d < 4 →
    (i < 48 → ∃ t, exec (.scrub d 0 i) s = .next t ∧ (t.die d).cecnt.get i 0 = satCount ((s.die d).cecnt.get i 0)) ∧
    (i < 64 → ∃ t, exec (.scrub d 2 i) s = .next t ∧ t.mem = s.mem ∧ (t.die d).ceOther.get (64 + i) 0 = satCount ((s.die d).ceOther.get (64 + i) 0)) ∧
    (∀ line, line < 2 ^ 41 → ∃ t, exec (.uncorrectableError d 5 line) s = .next t ∧ t.poison.has (d * 2 ^ 41 + line) = true) ∧
    (∀ c key, c < 64 → ∃ t, exec (.uncorrectableError d 1 (c + 64 * key)) s = .next t ∧ t.mem = s.mem ∧ (t.core (64 * d + c)).tlb.has key = false) ∧
    (∀ c a, c < 64 → a < 4 → ∃ t, exec (.uncorrectableError d 9 (4 * c + a)) s = .next t ∧ t.mem = s.mem ∧ a ∈ (t.core (64 * d + c)).accBad) ∧
    (∀ ctx, ctx < 4096 → ∃ t, exec (.uncorrectableError d 10 ctx) s = .next t ∧ (t.die d).cstate.get ctx 0 = 3) ∧
    exec (.meshFlitRetry d) s = .next s ∧
    (∀ r w, r < 64 → w < 4 → (s.die d).br = 4 → ∃ t, exec (.meshLinkDown d r w) s = .next t ∧ (t.die d).meshDown = true ∧
      (t.die d).crash = some (2 * s.rtime) ∧ ∀ c ∈ (s.die d).contexts, (t.die d).cstate.get c 0 = 3)) ∧
  (∀ s d, d < 4 →
    (∀ rsa slh v h, (s.die d).br = 0 → ∃ t, exec (.imageCheck d rsa slh v h) s = .next t ∧ t.mem = s.mem ∧ (t.die d).br = 1) ∧
    (∀ rsa slh v h, (s.die d).br = 1 → ∃ t, exec (.imageCheck d rsa slh v h) s = .next t ∧ t.mem = s.mem ∧
      (t.die d).br = (if rsa = true ∧ slh = true ∧ (s.die d).secver ≤ v then 2 else 5) ∧
      ((t.die d).br = 2 → (t.die d).accepted = true ∧ (t.die d).imgHash = h) ∧ ((t.die d).br = 5 → (t.die d).crash = some (2 * s.rtime + 1))) ∧
    (∀ gib, gib ≤ 2048 → (s.die d).br = 2 → ∃ t, exec (.memoryTraining d gib) s = .next t ∧ t.mem = s.mem ∧ (t.die d).br = 3 ∧
      (t.die d).ddrsz = gib) ∧
    (∀ failed, (s.die d).br = 3 → ∃ t, exec (.plateSelfTest d failed) s = .next t ∧ t.mem = s.mem ∧ (t.die d).br = 4 ∧
      ∀ p, p < 4 → ((t.die d).plates.get (4 * d + p) 0 = if bitN failed p then 3 else (s.die d).plates.get (4 * d + p) 0) ∧
        ((s.die d).sbWait = true → (t.die 0).resp = 0 ∧ (t.die d).sbWait = false)) ∧
    (∀ pw, pw < 2 ^ 32 → ∃ t, exec (.regulatorSample d pw) s = .next t ∧ t.mem = s.mem ∧
      (let h := (pw :: (s.die d).phist).take 100; (t.die d).phist = h ∧ (t.die d).pmw = h.sum / h.length % 2 ^ 32) ∧
      (900000 < pw → (s.die d).mxthr < 7 → (t.die d).mxthr = (s.die d).mxthr + 1 ∧ (t.die d).acmhz = (s.die d).acmhz) ∧
      (pw ≤ 900000 → (s.die d).acmhz = 3300 → (t.die d).mxthr = (s.die d).mxthr - 1 ∧ (t.die d).acmhz = 3300)))

/-- D2D_PACKET, LINK_RETRAIN, LINK_DOWN, CROSS_DIE_TIMEOUT, HOST_BAR4_READ, HOST_POSTED_WRITE, HOST_ATOMICOP, HOST_COMPLETION,
FABRIC_PACKET, WAVELENGTH_PARK, WAVELENGTH_RELOCK and WAVELENGTH_CRC_FAIL.
What log 19, 24, 27, 28, 29, 34, 37, 83 and 113 say is the model's reading or choice, not a rule of the spec. -/
def Obligations.LinkEvents : Prop :=
  (∀ s a b, a ≠ b → a < 4 → b < 4 →
    let l := s.link a b
    (∀ q, q = l.recv.get a 0 + 1 → q ≤ l.sent.get a 0 → s.routed a b = true →
      let here := fun (p : Pkt) => p.src == a && p.dst == b && p.seq == q
      ∃ u : State, u.mem = s.mem ∧ (u.link a b).recv.get a 0 = q ∧ u.pkts = s.pkts.filter (fun p => !here p) ∧ u.groups = s.groups ∧
        exec (.d2dPacket a b q) s = .next ((s.pkts.filter here).foldl State.received u)) ∧
    (∀ q, q ≠ l.recv.get a 0 + 1 ∨ l.sent.get a 0 < q ∨ s.routed a b = false → exec (.d2dPacket a b q) s = .next s) ∧
    (l.st = .up → ∃ t, exec (.linkRetrain a b) s = .next t ∧ t.mem = s.mem ∧ t.link a b = { l with st := .retraining, left := 200 }) ∧
    (l.st = .retraining → l.left ≠ 0 → ∃ t, exec (.linkRetrain a b) s = .next t ∧ t.mem = s.mem ∧ t.link a b = { l with st := .up, left := 0 }) ∧
    (l.st = .retraining → l.left = 0 → ∃ t, exec (.linkDown a b) s = .next t ∧ (t.link a b).st = .down ∧
      (t.routed a b = true ↔ (s.die b).meshDown = false ∧ (s.die b).br = 4 ∧
        ∃ k, k < 4 ∧ k ≠ a ∧ k ≠ b ∧ (s.link a k).st = .up ∧ (s.link k b).st = .up))) ∧
  (∀ (s : State) (p : Pkt), match p.body with
    | .msg m => ((State.received s p).die p.dst).msgs = (s.die p.dst).msgs ++ [m]
    | .fed true ctx entry n => ((State.received s p).die p.dst).feds = (s.die p.dst).feds ++ [(p.src, ctx, entry, n)]
    | .fed false ctx entry n => ((State.received s p).die p.dst).feds = (s.die p.dst).feds.erase (p.src, ctx, entry, n)
    | .arrive k ctx n => State.received s p = s.fedHome p.dst k ctx n) ∧
  (∀ s id p, s.opAt id = none → s.pkts.find? (fun p => p.id == id && p.left == 1) = some p →
    ∃ t, exec (.crossDieTimeout id) s = .next t ∧ t.pkts = s.pkts.filter fun e => e.id != id) ∧
  (∀ s id o a, s.opAt id = some o → o.accs = [a] →
    (a.late = true → o.awaits a = true → ∃ u : State, u.ops = s.ops ∧ exec (.crossDieTimeout id) s = .next (u.failAccs id 0x0D [a.lane])) ∧
    (isHost a.pa = true → s.accReady o a = true →
      exec (.hostCompletion id false) s = .next (s.failAccs id 0x0D [a.lane]) ∧
      (o.kind = .load → ∀ u v, s.loadAt o.ctx o.core a.leaf.toNat a.pa o.size o.hint (o.hint != 3) = .ok u v →
        let own := leafCC a.leaf.toNat == 2 && (s.core o.core).l1.has (a.pa / 128)
        ∃ t, exec (.hostCompletion id true) s = .next t ∧ t.waves = u.waves ∧
          t.opAt id = some { o with accs := [{ a with st := .perf, data := BitVec.ofNat 256 v, flit := if own then 0 else 1 + holdId id a.lane }] }))) ∧
  (∀ s id o, s.opAt id = some o → o.accs = [] → o.halted = false →
    (o.zread = 1 → ∃ u : State, u.ops = s.ops ∧ exec (.crossDieTimeout id) s = .next (u.failFloor o 0)) ∧
    (2 ≤ o.zread → s.owedBefore o = false → exec (.hostCompletion id true) s = .next ((s.modOp id fun x => { x with zread := 0 }).overOp id)) ∧
    (∀ e, o.zread = 0 → o.left.find? (fun e => e.2 == 1) = some e → ∃ u : State, u.ops = s.ops ∧
      exec (.crossDieTimeout id) s = .next (u.failFloor o (s.regions.get o.region {}).base))) ∧
  (∀ s d addr n, d < 4 →
    let pa := d * 2 ^ 48 + addr
    let key := s.hostKey d
    ((s.die d).br ≠ 4 → ∃ t, exec (.hostBar4Read d addr n) s = .next t ∧ t.mem = s.mem ∧ (t.die d).resp = 0 ∧ (t.die d).respData = [2 ^ (8 * n) - 1]) ∧
    ((s.die d).br = 4 → s.barOk d addr n = false → ∃ t, exec (.hostBar4Read d addr n) s = .next t ∧ t.mem = s.mem ∧ (t.die d).resp = 1) ∧
    (s.barOk d addr n = true → (∀ l ∈ linesOf pa n, s.lineBusy l = false) → s.slotHeld d (s.hostSlot d) = false →
      (s.hostPoison pa key n = false → ∃ t, exec (.hostBar4Read d addr n) s = .next t ∧ t.mem = s.mem ∧ (t.die d).resp = 0 ∧
        (t.die d).respData = [s.hostBytes pa key n]) ∧
      (s.versionedAt pa = false → s.versionedAt (pa + n - 1) = false → ∀ v, ∃ t, exec (.hostPostedWrite d addr n v) s = .next t ∧
        t = s.agentWrite pa n key v) ∧
      (s.versionedAt pa = true → ∀ v, exec (.hostPostedWrite d addr n v) s = .next (s.logSys d 0x37 0 0 (pa % 2 ^ 48 * 2 ^ 32)))) ∧
    (s.barOk d addr n = true → n = 4 ∨ n = 8 → addr % n = 0 → s.lineBusy (pa / 128) = false → s.versionedAt pa = false → s.slotHeld d (s.hostSlot d) = false →
      s.hostPoison pa key n = false →
      let old := s.agentRead pa key n
      ∀ v c, v < 2 ^ (8 * n) → c < 2 ^ (8 * n) →
        (∃ t, exec (.hostAtomicop d addr n 0 v c) s = .next t ∧ (t.die d).respData = [old] ∧ t.mem = (s.agentWrite pa n key ((old + v) % 2 ^ (8 * n))).mem) ∧
        (∃ t, exec (.hostAtomicop d addr n 8 v c) s = .next t ∧ (t.die d).respData = [old] ∧ t.mem = (s.agentWrite pa n key v).mem) ∧
        (∃ t, exec (.hostAtomicop d addr n 9 v c) s = .next t ∧ (t.die d).respData = [old] ∧
          t.mem = (if old = c then s.agentWrite pa n key v else s).mem))) ∧
  (∀ s p, p < 32 →
    let x := s.port p
    (∀ f, 0 < f → f ≤ 16 → ∃ t, exec (.fabricPacket p f) s = .next t ∧ t.mem = s.mem ∧
      let l := x.locked &&& ~~~x.failing
      t.port p = { x with recv := x.recv + 1, queued := x.queued - f, locked := l, active := l, failing := 0, idleLeft := s.portIdle p }) ∧
    (x.queued = 0 → x.idleLeft = 0 → field (s.portReg p) 12 4 < popByte x.locked → ∃ t, exec (.wavelengthPark p) s = .next t ∧ t.mem = s.mem ∧
      popByte (t.port p).locked = field (s.portReg p) 12 4 ∧ (t.port p).active = (t.port p).locked ∧ (t.port p).locked &&& ~~~x.locked = 0) ∧
    (x.locked ≠ 0xFF → x.relock = 0 → field (s.portReg p) 16 8 < x.queued → ∃ t, exec (.wavelengthRelock p) s = .next t ∧ t.mem = s.mem ∧
      t.port p = { x with relock := 121 }) ∧
    (x.locked ≠ 0xFF → x.relock = 1 → ∃ t, exec (.wavelengthRelock p) s = .next t ∧ t.mem = s.mem ∧
      popByte (t.port p).locked = popByte x.locked + 1 ∧ x.locked &&& ~~~(t.port p).locked = 0) ∧
    (∀ w, w < 8 → (∃ j, j < 8 ∧ j ≠ w ∧ x.active.getLsbD j = true ∧ x.failing.getLsbD j = false) →
      ∃ t, exec (.wavelengthCrcFail p w) s = .next t ∧ t.mem = s.mem ∧
        (x.queued ≠ 0 → (t.port p).active = x.active ∧ (t.port p).failing.getLsbD w = true) ∧
        (x.queued = 0 → (t.port p).active.getLsbD w = false ∧ (t.port p).locked.getLsbD w = false ∧
          ∀ j, j < 8 → j ≠ w → x.failing.getLsbD j = false → (t.port p).active.getLsbD j = x.active.getLsbD j)))

/-- GET_STATUS, READ_POWER, READ_LOG, FETCH_CRASH_RECORD, ENTER_DEBUG_HALT, LEAVE_DEBUG_HALT, GET_VERSION, GET_CAPABILITIES,
NEGOTIATE_ALGORITHMS, GET_DIGESTS, GET_CERTIFICATE, CHALLENGE, GET_MEASUREMENTS, RESET_DIE and MODULE_RESET.
What log 7, 36, 105, 108, 110 and 126 say is the model's reading or choice, not a rule of the spec. -/
def Obligations.SideBandEvents : Prop :=
  (∀ s, s.sideBusy = true → ∀ d n, ∀ i ∈ ([.getStatus, .readPower d, .readLog d 0 n, .fetchCrashRecord d, .resetDie d, .enterDebugHalt d,
      .leaveDebugHalt d] : List Instr), ∃ t, exec i s = .next t ∧ { t with dies := s.dies } = s ∧ (t.die 0).resp = 3) ∧
  (∀ (s : State), s.sideBusy = true ↔ (∀ e, e < 4 → (s.die e).br = 0) ∨ ∃ e, e < 4 ∧ (s.die e).sbWait = true) ∧
  (∀ s, s.sideBusy = false →
    (∃ t, exec .getStatus s = .next t ∧ t.mem = s.mem ∧ (t.die 0).resp = 0 ∧
      ∀ d, d < 4 → (t.die 0).respData.getD (9 * d) 0 = (s.die d).br ∧
        (t.die 0).respData.getD (9 * d + 1) 0 = (if (s.die d).dbg then 1 else 0)) ∧
    (∀ d, d < 4 →
      (∃ t, exec (.readPower d) s = .next t ∧ t.mem = s.mem ∧ (t.die 0).resp = 0 ∧ (t.die 0).respData = [(s.die d).pmw, 900000]) ∧
      (∀ i,
        let r := (s.die d).reg 0x300200
        let tail := (s.die d).stail.toNat
        1 ≤ field r 0 5 → field r 0 5 ≤ 20 → i < tail → tail - i ≤ 2 ^ field r 0 5 → ∃ t, exec (.readLog d 0 i) s = .next t ∧ t.mem = s.mem ∧
          (t.die 0).resp = 0 ∧ (t.die 0).respData.length = min 8 (tail - i) ∧ ∀ j, j < min 8 (tail - i) →
            (t.die 0).respData.getD j 0 = s.rdOwn (d * 2 ^ 48 + r / 4096 * 4096 % 2 ^ 48 + 32 * ((i + j) % 2 ^ field r 0 5)) 32) ∧
      (∀ e, (s.die d).crash = some e → ∃ t, exec (.fetchCrashRecord d) s = .next t ∧ t.mem = s.mem ∧ (t.die 0).resp = 0 ∧
        (t.die 0).respData = Config.crash d (e % 2) (e / 2)) ∧
      ((s.die d).crash = none → ∃ t, exec (.fetchCrashRecord d) s = .next t ∧ t.mem = s.mem ∧ (t.die 0).resp = 1) ∧
      (∃ t, exec (.enterDebugHalt d) s = .next t ∧ t.mem = s.mem ∧ (t.die d).dbg = true ∧ (t.die 0).resp = 0) ∧
      ((s.die d).dbg = true → ∃ t, exec (.leaveDebugHalt d) s = .next t ∧ (t.die d).dbg = false ∧ (t.die 0).resp = 0 ∧
        ((∀ g ∈ s.groups, g.2.held = []) → t.mem = s.mem ∧ t.groups = s.groups)) ∧
      ((s.die d).dbg = false → ∃ t, exec (.leaveDebugHalt d) s = .next t ∧ t.mem = s.mem ∧ (t.die 0).resp = 2))) ∧
  (∀ s d arg, d < 4 → (s.die d).accepted = true →
    ∀ e ∈ ([(.getVersion d, 0x84, 0, []), (.getCapabilities d, 0xE1, 0, []), (.negotiateAlgorithms d, 0xE3, 0, []), (.getDigests d, 0x81, 0, []),
        (.getCertificate d, 0x82, 0, []), (.challenge d arg, 0x83, arg, []),
        (.getMeasurements d arg, 0xE0, arg, (s.die d).measures d arg)] : List (Instr × Nat × Nat × List Nat)),
      ∃ t, exec e.1 s = .next t ∧ t.mem = s.mem ∧ (t.die d).resp = 0 ∧ (t.die d).spdm = (s.die d).spdm + 1 ∧
        (t.die d).respData = e.2.2.2 ++ Config.spdm d e.2.1 e.2.2.1 (s.die d).spdm (s.die d).imgHash e.2.2.2) ∧
  (∀ (x : Die) d, x.measures d 1 = [Config.bootHash d] ∧ x.measures d 2 = [x.imgHash] ∧ x.measures d 3 = [Config.fuses d + x.secver] ∧
    ((∀ p, x.plates.get p 0 ≤ 4) → ∃ v, x.measures d 4 = [v] ∧
      ∀ p, p < 4 → v / 4 ^ p % 4 = if x.plates.get (4 * d + p) 0 = 4 then 2 else x.plates.get (4 * d + p) 0)) ∧
  (∀ s d, d < 4 → s.sideBusy = false → ∃ t, exec (.resetDie d) s = .next t ∧ (t.die d).br = 0 ∧ (t.die d).sbWait = true ∧ (t.die d).crash = (s.die d).crash ∧
    (t.die d).secver = (s.die d).secver ∧ ∀ g ∈ t.groups, dieOf g.2.core ≠ d) ∧
  (∀ s, ∃ t, exec .moduleReset s = .next t ∧ t.rtime = s.rtime ∧ t.mem = s.mem ∧ t.lineKey = s.lineKey ∧ t.groups = [] ∧ t.waves = [] ∧
    ∀ d, d < 4 → (t.die d).br = 0 ∧ (t.die d).crash = (s.die d).crash ∧ (t.die d).secver = (s.die d).secver)

/-- Every step, and every instruction and event wherever it is performed, answers a next state and keeps the invariant (log 3).
What log 1, 3 and 4 say is the model's reading or choice, not a rule of the spec. -/
def Obligations.StepsKeepInv : Prop :=
  (∀ s : State, s.Inv → ∃ t, step s = .next t ∧ t.Inv) ∧
  (∀ (i : Instr) (s : State), s.Inv → ∃ t, exec i s = .next t ∧ t.Inv)

/-- The reset state (R432, R437, R439).
What log 2 and 3 say is the model's reading or choice, not a rule of the spec. -/
def Obligations.InvAtReset : Prop :=
  State.reset.Inv ∧ State.reset.mem = [] ∧ State.reset.groups = [] ∧ State.reset.waves = [] ∧ State.reset.ops = [] ∧
  State.reset.agenda = [] ∧
  ∀ n, (State.reset.die n).br = 0 ∧ (State.reset.die n).launches = [] ∧ (∀ ctx, ctx < 4096 → (State.reset.die n).ctxValid ctx = false) ∧ State.reset.core n = {} ∧ ∀ a, Mem.get State.reset.mem a = 0

/-- Issue of a decoded word (R44, R169, R214, R216, R361); the order of moves is the model's (log 1).
What log 1 and 13 say is the model's reading or choice, not a rule of the spec. -/
def Obligations.StepRunsDecoded : Prop :=
  (∀ (s : State) core pipe pick rest, s.agenda = .issue core pipe pick :: rest → core < 256 →
    let s0 := { s with agenda := rest }
    (s.core core).f64Busy.get (pipe % 4) 0 = 0 →
    (s0.oldest core (s0.pipeSlots core pipe) = none → step s = .next s0) ∧
    ∀ slot p, s0.oldest core (s0.pipeSlots core pipe) = some slot →
      choosePath ((s0.wave (waveKey core slot)).paths.filter fun q => s0.pathReady core slot q) pick = some p →
      let v := s0.select core slot p
      (v.mem = s.mem ∧ v.cur.core = core ∧ v.cur.slot = slot ∧ v.cp = { p with age := 0, yielded := false } ∧
        ∀ k, k ≠ waveKey core slot → v.wave k = s.wave k) ∧
      (p.seek = true → step s = .next v.findPlace) ∧
      (∀ w u i, p.seek = false → v.nextWord = (.word w, u) → decodeNat w = some i → step s = exec i (u.noteWord w)) ∧
      (∀ w u, p.seek = false → v.nextWord = (.word w, u) → decodeNat w = none → step s = .next (u.noteWord w).illegal) ∧
      (∀ lf pa, p.clause = none → (s.core core).icache.get p.pc.toNat [] = [] → p.pc.toNat < 2 ^ 54 → p.pc.toNat % 4 = 0 →
        v.codeLeaf core v.cg p.pc.toNat = .leaf lf → leafPhys (dieOf core) lf p.pc.toNat = some pa → leafX lf = true → leafU lf = true →
        v.populated pa = true → isCtl pa = false → v.badRead (pa / 128) v.cg.ctx = false →
        v.nextWord = (.word (v.codeWord core lf pa), v)) ∧
      (∀ lf pa, ¬(leafCC lf = 2 ∧ (v.core core).l1.has (pa / 128) = true) →
        v.codeWord core lf pa = v.agentRead pa (v.keyId pa (leafKey lf)) 4)) ∧
  (∀ (s : State) w, (s.noteWord w).mem = s.mem ∧ (s.noteWord w).waves = s.waves ∧ (s.noteWord w).cur = s.cur ∧
    (s.noteWord w).dies = s.dies ∧ (s.noteWord w).ops = s.ops) ∧
  (∀ (s : State) i rest, s.agenda = .event i :: rest → encodeNat i = none → step s = exec i { s with agenda := rest }) ∧
  (∀ s : State, s.agenda = [] → step s = State.doMove { s with free := s.free + 1 } (Config.move s.free))

/-- Words of the spec's own examples and listings, and words that R84 and R36 leave unassigned. -/
def Obligations.DecodeWords : Prop :=
  (∀ e ∈ ([
      (0xFC0047C9, .clause 1 1 15 1 1), (0x00102FBC, .iadd 4 ⟨.vec, 5⟩ ⟨.lit, 123⟩), (0x28040079, .cmpEq 1 ⟨.sca, 0⟩ ⟨.cst, 7⟩),
      (0x61C00820, .ffmalF32 112 ⟨.vec, 1⟩ ⟨.vec, 2⟩), (0x8E50000E, .sadda 20 ⟨.cst, 0⟩ ⟨.lit, 0⟩),
      (0x90201055, .vldEq 8 2 ⟨.sca, 5⟩ .acq), (0x9440103E, .vst 16 2 ⟨.lit, 3⟩ .rel), (0x9C1C1844, .iabsS32 7 ⟨.vec, 3⟩ true),
      (0xA00C19B0, .cvtF32Z32 3 ⟨.vec, 3⟩ .cur), (0xA0082C20, .fcmpLt 2 ⟨.vec, 5⟩ .f32), (0xA2141030, .xbits 5 2),
      (0xA21038B0, .xpermFlip 4 7), (0xA4401000, .spawn 16 ⟨.vec, 2⟩), (0xA6041102, .obres 1 ⟨.cst, 2⟩), (0xA8402803, .cpy 16 5 true),
      (0xA80C50A1, .tagff 3 ⟨.sca, 10⟩), (0xA8000448, .fence .die .rel), (0xA8003518, .prefLlc 6 .evictLast false),
      (0xAA610030, .rdsr 24 0x20), (0xAA00A051, .gsave 20), (0xAA000024, .eretKill), (0xB40C4130, .ldS32 3 8 2 .acq .die .normal),
      (0xBC444048, .st32 17 8 0 .rel .cluster .normal), (0xC2201100, .sld64 8 2 2 .plain .wave .normal),
      (0xC81044A8, .atomCas32 4 8 .acq .cluster .normal), (0xCE1448D1, .movhi 5 0x48D1), (0xDA500003, .rcv 20 3),
      (0xDDFFFFFD, .bra 0x3FFFD), (0xE9FC0000, .exit 127)
    ] : List (Nat × Instr)), decodeNat e.1 = some e.2 ∧ e.2.wf = true ∧ encodeNat e.2 = some e.1) ∧
  ∀ w ∈ [0x9C0000E0, 0x9C1C1854, 0xEC000000, 0xE9FC0001], decodeNat w = none

/-- The encoding and the decoder are inverse to each other. -/
def Obligations.EncodeDecode : Prop :=
  (∀ (i : Instr) w, i.wf = true → encodeNat i = some w → w < 2 ^ 32 ∧ decodeNat w = some i) ∧
  (∀ w i, w < 2 ^ 32 → decodeNat w = some i → encodeNat i = some w) ∧
  (∀ (i : Instr) w, encodeNat i = some w → encode i = some (BitVec.ofNat 32 w)) ∧
  (∀ i : Instr, encodeNat i = none ↔ noWord i = true)
end

