-- ==== Sys2Proof/Laws/Dispatch.lean ====
section
/-! SUPPORT. Each arm of exec, as a rewriting rule. -/

set_option Elab.async false

namespace Sys2Proof.Machine

@[simp] theorem exec_clause (w : BitVec 12) (a : BitVec 4) (b : BitVec 4) (l : BitVec 3) (n : BitVec 3) (s : State) : exec (.clause w a b l n) s = execClause w a b l n s := rfl
@[simp] theorem exec_iadd (d : RName) (a : Src) (b : Src) (s : State) : exec (.iadd d a b) s = execIadd d a b s := rfl
@[simp] theorem exec_isub (d : RName) (a : Src) (b : Src) (s : State) : exec (.isub d a b) s = execIsub d a b s := rfl
@[simp] theorem exec_imul (d : RName) (a : Src) (b : Src) (s : State) : exec (.imul d a b) s = execImul d a b s := rfl
@[simp] theorem exec_imulhS32 (d : RName) (a : Src) (b : Src) (s : State) : exec (.imulhS32 d a b) s = execImulhS32 d a b s := rfl
@[simp] theorem exec_imulhZ32 (d : RName) (a : Src) (b : Src) (s : State) : exec (.imulhZ32 d a b) s = execImulhZ32 d a b s := rfl
@[simp] theorem exec_imad (d : RName) (a : Src) (b : Src) (s : State) : exec (.imad d a b) s = execImad d a b s := rfl
@[simp] theorem exec_iminS32 (d : RName) (a : Src) (b : Src) (s : State) : exec (.iminS32 d a b) s = execIminS32 d a b s := rfl
@[simp] theorem exec_iminZ32 (d : RName) (a : Src) (b : Src) (s : State) : exec (.iminZ32 d a b) s = execIminZ32 d a b s := rfl
@[simp] theorem exec_imaxS32 (d : RName) (a : Src) (b : Src) (s : State) : exec (.imaxS32 d a b) s = execImaxS32 d a b s := rfl
@[simp] theorem exec_imaxZ32 (d : RName) (a : Src) (b : Src) (s : State) : exec (.imaxZ32 d a b) s = execImaxZ32 d a b s := rfl
@[simp] theorem exec_andB (d : RName) (a : Src) (b : Src) (s : State) : exec (.andB d a b) s = execAndB d a b s := rfl
@[simp] theorem exec_orB (d : RName) (a : Src) (b : Src) (s : State) : exec (.orB d a b) s = execOrB d a b s := rfl
@[simp] theorem exec_xorB (d : RName) (a : Src) (b : Src) (s : State) : exec (.xorB d a b) s = execXorB d a b s := rfl
@[simp] theorem exec_andn (d : RName) (a : Src) (b : Src) (s : State) : exec (.andn d a b) s = execAndn d a b s := rfl
@[simp] theorem exec_shl (d : RName) (a : Src) (b : Src) (s : State) : exec (.shl d a b) s = execShl d a b s := rfl
@[simp] theorem exec_shr (d : RName) (a : Src) (b : Src) (s : State) : exec (.shr d a b) s = execShr d a b s := rfl
@[simp] theorem exec_shra (d : RName) (a : Src) (b : Src) (s : State) : exec (.shra d a b) s = execShra d a b s := rfl
@[simp] theorem exec_rotl (d : RName) (a : Src) (b : Src) (s : State) : exec (.rotl d a b) s = execRotl d a b s := rfl
@[simp] theorem exec_bfx (d : RName) (a : Src) (b : Src) (s : State) : exec (.bfx d a b) s = execBfx d a b s := rfl
@[simp] theorem exec_bfi (d : RName) (a : Src) (b : Src) (s : State) : exec (.bfi d a b) s = execBfi d a b s := rfl
@[simp] theorem exec_cmpEq (d : RName) (a : Src) (b : Src) (s : State) : exec (.cmpEq d a b) s = execCmpEq d a b s := rfl
@[simp] theorem exec_cmpNe (d : RName) (a : Src) (b : Src) (s : State) : exec (.cmpNe d a b) s = execCmpNe d a b s := rfl
@[simp] theorem exec_cmpLtS32 (d : RName) (a : Src) (b : Src) (s : State) : exec (.cmpLtS32 d a b) s = execCmpLtS32 d a b s := rfl
@[simp] theorem exec_cmpLtZ32 (d : RName) (a : Src) (b : Src) (s : State) : exec (.cmpLtZ32 d a b) s = execCmpLtZ32 d a b s := rfl
@[simp] theorem exec_cmpLeS32 (d : RName) (a : Src) (b : Src) (s : State) : exec (.cmpLeS32 d a b) s = execCmpLeS32 d a b s := rfl
@[simp] theorem exec_cmpLeZ32 (d : RName) (a : Src) (b : Src) (s : State) : exec (.cmpLeZ32 d a b) s = execCmpLeZ32 d a b s := rfl
@[simp] theorem exec_sel (d : RName) (a : Src) (b : Src) (s : State) : exec (.sel d a b) s = execSel d a b s := rfl
@[simp] theorem exec_iaddSatS32 (d : RName) (a : Src) (b : Src) (s : State) : exec (.iaddSatS32 d a b) s = execIaddSatS32 d a b s := rfl
@[simp] theorem exec_adda (d : RName) (a : Src) (b : Src) (s : State) : exec (.adda d a b) s = execAdda d a b s := rfl
@[simp] theorem exec_adda64 (d : RName) (a : Src) (b : Src) (s : State) : exec (.adda64 d a b) s = execAdda64 d a b s := rfl
@[simp] theorem exec_suba (d : RName) (a : Src) (b : Src) (s : State) : exec (.suba d a b) s = execSuba d a b s := rfl
@[simp] theorem exec_cmpaLt (d : RName) (a : Src) (b : Src) (s : State) : exec (.cmpaLt d a b) s = execCmpaLt d a b s := rfl
@[simp] theorem exec_faddF32 (d : RName) (a : Src) (b : Src) (s : State) : exec (.faddF32 d a b) s = execFaddF32 d a b s := rfl
@[simp] theorem exec_faddF64 (d : RName) (a : Src) (b : Src) (s : State) : exec (.faddF64 d a b) s = execFaddF64 d a b s := rfl
@[simp] theorem exec_faddF16 (d : RName) (a : Src) (b : Src) (s : State) : exec (.faddF16 d a b) s = execFaddF16 d a b s := rfl
@[simp] theorem exec_faddBf16 (d : RName) (a : Src) (b : Src) (s : State) : exec (.faddBf16 d a b) s = execFaddBf16 d a b s := rfl
@[simp] theorem exec_fsubF32 (d : RName) (a : Src) (b : Src) (s : State) : exec (.fsubF32 d a b) s = execFsubF32 d a b s := rfl
@[simp] theorem exec_fsubF64 (d : RName) (a : Src) (b : Src) (s : State) : exec (.fsubF64 d a b) s = execFsubF64 d a b s := rfl
@[simp] theorem exec_fsubF16 (d : RName) (a : Src) (b : Src) (s : State) : exec (.fsubF16 d a b) s = execFsubF16 d a b s := rfl
@[simp] theorem exec_fsubBf16 (d : RName) (a : Src) (b : Src) (s : State) : exec (.fsubBf16 d a b) s = execFsubBf16 d a b s := rfl
@[simp] theorem exec_fmulF32 (d : RName) (a : Src) (b : Src) (s : State) : exec (.fmulF32 d a b) s = execFmulF32 d a b s := rfl
@[simp] theorem exec_fmulF64 (d : RName) (a : Src) (b : Src) (s : State) : exec (.fmulF64 d a b) s = execFmulF64 d a b s := rfl
@[simp] theorem exec_fmulF16 (d : RName) (a : Src) (b : Src) (s : State) : exec (.fmulF16 d a b) s = execFmulF16 d a b s := rfl
@[simp] theorem exec_fmulBf16 (d : RName) (a : Src) (b : Src) (s : State) : exec (.fmulBf16 d a b) s = execFmulBf16 d a b s := rfl
@[simp] theorem exec_ffmaF32 (d : RName) (a : Src) (b : Src) (s : State) : exec (.ffmaF32 d a b) s = execFfmaF32 d a b s := rfl
@[simp] theorem exec_ffmaF64 (d : RName) (a : Src) (b : Src) (s : State) : exec (.ffmaF64 d a b) s = execFfmaF64 d a b s := rfl
@[simp] theorem exec_ffmaF16 (d : RName) (a : Src) (b : Src) (s : State) : exec (.ffmaF16 d a b) s = execFfmaF16 d a b s := rfl
@[simp] theorem exec_ffmaBf16 (d : RName) (a : Src) (b : Src) (s : State) : exec (.ffmaBf16 d a b) s = execFfmaBf16 d a b s := rfl
@[simp] theorem exec_ffmalF32 (d : RName) (a : Src) (b : Src) (s : State) : exec (.ffmalF32 d a b) s = execFfmalF32 d a b s := rfl
@[simp] theorem exec_ffmalF64 (d : RName) (a : Src) (b : Src) (s : State) : exec (.ffmalF64 d a b) s = execFfmalF64 d a b s := rfl
@[simp] theorem exec_ffmalF16 (d : RName) (a : Src) (b : Src) (s : State) : exec (.ffmalF16 d a b) s = execFfmalF16 d a b s := rfl
@[simp] theorem exec_ffmalBf16 (d : RName) (a : Src) (b : Src) (s : State) : exec (.ffmalBf16 d a b) s = execFfmalBf16 d a b s := rfl
@[simp] theorem exec_fminF32 (d : RName) (a : Src) (b : Src) (s : State) : exec (.fminF32 d a b) s = execFminF32 d a b s := rfl
@[simp] theorem exec_fminF64 (d : RName) (a : Src) (b : Src) (s : State) : exec (.fminF64 d a b) s = execFminF64 d a b s := rfl
@[simp] theorem exec_fminF16 (d : RName) (a : Src) (b : Src) (s : State) : exec (.fminF16 d a b) s = execFminF16 d a b s := rfl
@[simp] theorem exec_fminBf16 (d : RName) (a : Src) (b : Src) (s : State) : exec (.fminBf16 d a b) s = execFminBf16 d a b s := rfl
@[simp] theorem exec_fmaxF32 (d : RName) (a : Src) (b : Src) (s : State) : exec (.fmaxF32 d a b) s = execFmaxF32 d a b s := rfl
@[simp] theorem exec_fmaxF64 (d : RName) (a : Src) (b : Src) (s : State) : exec (.fmaxF64 d a b) s = execFmaxF64 d a b s := rfl
@[simp] theorem exec_fmaxF16 (d : RName) (a : Src) (b : Src) (s : State) : exec (.fmaxF16 d a b) s = execFmaxF16 d a b s := rfl
@[simp] theorem exec_fmaxBf16 (d : RName) (a : Src) (b : Src) (s : State) : exec (.fmaxBf16 d a b) s = execFmaxBf16 d a b s := rfl
@[simp] theorem exec_sadd (d : RName) (a : Src) (b : Src) (s : State) : exec (.sadd d a b) s = execSadd d a b s := rfl
@[simp] theorem exec_ssub (d : RName) (a : Src) (b : Src) (s : State) : exec (.ssub d a b) s = execSsub d a b s := rfl
@[simp] theorem exec_smul (d : RName) (a : Src) (b : Src) (s : State) : exec (.smul d a b) s = execSmul d a b s := rfl
@[simp] theorem exec_sand (d : RName) (a : Src) (b : Src) (s : State) : exec (.sand d a b) s = execSand d a b s := rfl
@[simp] theorem exec_sor (d : RName) (a : Src) (b : Src) (s : State) : exec (.sor d a b) s = execSor d a b s := rfl
@[simp] theorem exec_sxor (d : RName) (a : Src) (b : Src) (s : State) : exec (.sxor d a b) s = execSxor d a b s := rfl
@[simp] theorem exec_sshl (d : RName) (a : Src) (b : Src) (s : State) : exec (.sshl d a b) s = execSshl d a b s := rfl
@[simp] theorem exec_sshr (d : RName) (a : Src) (b : Src) (s : State) : exec (.sshr d a b) s = execSshr d a b s := rfl
@[simp] theorem exec_scmpEq (d : RName) (a : Src) (b : Src) (s : State) : exec (.scmpEq d a b) s = execScmpEq d a b s := rfl
@[simp] theorem exec_scmpLtS32 (d : RName) (a : Src) (b : Src) (s : State) : exec (.scmpLtS32 d a b) s = execScmpLtS32 d a b s := rfl
@[simp] theorem exec_scmpLtZ32 (d : RName) (a : Src) (b : Src) (s : State) : exec (.scmpLtZ32 d a b) s = execScmpLtZ32 d a b s := rfl
@[simp] theorem exec_sadda (d : RName) (a : Src) (b : Src) (s : State) : exec (.sadda d a b) s = execSadda d a b s := rfl
@[simp] theorem exec_vldEq (d : RName) (a : RName) (b : Src) (o : Ord) (s : State) : exec (.vldEq d a b o) s = execVldEq d a b o s := rfl
@[simp] theorem exec_vldLe (d : RName) (a : RName) (b : Src) (o : Ord) (s : State) : exec (.vldLe d a b o) s = execVldLe d a b o s := rfl
@[simp] theorem exec_vst (d : RName) (a : RName) (b : Src) (o : Ord) (s : State) : exec (.vst d a b o) s = execVst d a b o s := rfl
@[simp] theorem exec_vfloor (a : Src) (b : Src) (s : State) : exec (.vfloor a b) s = execVfloor a b s := rfl
@[simp] theorem exec_spld (d : RName) (a : Src) (b : Src) (s : State) : exec (.spld d a b) s = execSpld d a b s := rfl
@[simp] theorem exec_spst (d : RName) (a : Src) (b : Src) (s : State) : exec (.spst d a b) s = execSpst d a b s := rfl
@[simp] theorem exec_mov (d : RName) (a : Src) (s : State) : exec (.mov d a) s = execMov d a s := rfl
@[simp] theorem exec_mov64 (d : RName) (a : Src) (s : State) : exec (.mov64 d a) s = execMov64 d a s := rfl
@[simp] theorem exec_notB (d : RName) (a : Src) (s : State) : exec (.notB d a) s = execNotB d a s := rfl
@[simp] theorem exec_ineg (d : RName) (a : Src) (sc : Bool) (s : State) : exec (.ineg d a sc) s = execIneg d a sc s := rfl
@[simp] theorem exec_iabsS32 (d : RName) (a : Src) (sc : Bool) (s : State) : exec (.iabsS32 d a sc) s = execIabsS32 d a sc s := rfl
@[simp] theorem exec_popc (d : RName) (a : Src) (s : State) : exec (.popc d a) s = execPopc d a s := rfl
@[simp] theorem exec_clz (d : RName) (a : Src) (s : State) : exec (.clz d a) s = execClz d a s := rfl
@[simp] theorem exec_ctz (d : RName) (a : Src) (s : State) : exec (.ctz d a) s = execCtz d a s := rfl
@[simp] theorem exec_brev (d : RName) (a : Src) (s : State) : exec (.brev d a) s = execBrev d a s := rfl
@[simp] theorem exec_bswap (d : RName) (a : Src) (s : State) : exec (.bswap d a) s = execBswap d a s := rfl
@[simp] theorem exec_sextS8 (d : RName) (a : Src) (s : State) : exec (.sextS8 d a) s = execSextS8 d a s := rfl
@[simp] theorem exec_sextS16 (d : RName) (a : Src) (s : State) : exec (.sextS16 d a) s = execSextS16 d a s := rfl
@[simp] theorem exec_zextZ8 (d : RName) (a : Src) (s : State) : exec (.zextZ8 d a) s = execZextZ8 d a s := rfl
@[simp] theorem exec_zextZ16 (d : RName) (a : Src) (s : State) : exec (.zextZ16 d a) s = execZextZ16 d a s := rfl
@[simp] theorem exec_fneg (d : RName) (a : Src) (t : FTy) (s : State) : exec (.fneg d a t) s = execFneg d a t s := rfl
@[simp] theorem exec_fabs (d : RName) (a : Src) (t : FTy) (s : State) : exec (.fabs d a t) s = execFabs d a t s := rfl
@[simp] theorem exec_fsqrt (d : RName) (a : Src) (t : FTy) (s : State) : exec (.fsqrt d a t) s = execFsqrt d a t s := rfl
@[simp] theorem exec_frcp (d : RName) (a : Src) (t : FTy) (s : State) : exec (.frcp d a t) s = execFrcp d a t s := rfl
@[simp] theorem exec_frsqrt (d : RName) (a : Src) (t : FTy) (s : State) : exec (.frsqrt d a t) s = execFrsqrt d a t s := rfl
@[simp] theorem exec_fexp2 (d : RName) (a : Src) (t : FTy) (s : State) : exec (.fexp2 d a t) s = execFexp2 d a t s := rfl
@[simp] theorem exec_flog2 (d : RName) (a : Src) (t : FTy) (s : State) : exec (.flog2 d a t) s = execFlog2 d a t s := rfl
@[simp] theorem exec_fsinpi (d : RName) (a : Src) (t : FTy) (s : State) : exec (.fsinpi d a t) s = execFsinpi d a t s := rfl
@[simp] theorem exec_fcospi (d : RName) (a : Src) (t : FTy) (s : State) : exec (.fcospi d a t) s = execFcospi d a t s := rfl
@[simp] theorem exec_ftanh (d : RName) (a : Src) (t : FTy) (s : State) : exec (.ftanh d a t) s = execFtanh d a t s := rfl
@[simp] theorem exec_frint (d : RName) (a : Src) (t : FTy) (s : State) : exec (.frint d a t) s = execFrint d a t s := rfl
@[simp] theorem exec_ftrunc (d : RName) (a : Src) (t : FTy) (s : State) : exec (.ftrunc d a t) s = execFtrunc d a t s := rfl
@[simp] theorem exec_ffloor (d : RName) (a : Src) (t : FTy) (s : State) : exec (.ffloor d a t) s = execFfloor d a t s := rfl
@[simp] theorem exec_fceil (d : RName) (a : Src) (t : FTy) (s : State) : exec (.fceil d a t) s = execFceil d a t s := rfl
@[simp] theorem exec_smov (d : RName) (a : Src) (s : State) : exec (.smov d a) s = execSmov d a s := rfl
@[simp] theorem exec_smov64 (d : RName) (a : Src) (s : State) : exec (.smov64 d a) s = execSmov64 d a s := rfl
@[simp] theorem exec_snot (d : RName) (a : Src) (s : State) : exec (.snot d a) s = execSnot d a s := rfl
@[simp] theorem exec_sneg (d : RName) (a : Src) (sc : Bool) (s : State) : exec (.sneg d a sc) s = execSneg d a sc s := rfl
@[simp] theorem exec_sabsS32 (d : RName) (a : Src) (sc : Bool) (s : State) : exec (.sabsS32 d a sc) s = execSabsS32 d a sc s := rfl
@[simp] theorem exec_spopc (d : RName) (a : Src) (s : State) : exec (.spopc d a) s = execSpopc d a s := rfl
@[simp] theorem exec_sclz (d : RName) (a : Src) (s : State) : exec (.sclz d a) s = execSclz d a s := rfl
@[simp] theorem exec_sctz (d : RName) (a : Src) (s : State) : exec (.sctz d a) s = execSctz d a s := rfl
@[simp] theorem exec_sbrev (d : RName) (a : Src) (s : State) : exec (.sbrev d a) s = execSbrev d a s := rfl
@[simp] theorem exec_sbswap (d : RName) (a : Src) (s : State) : exec (.sbswap d a) s = execSbswap d a s := rfl
@[simp] theorem exec_ssextS8 (d : RName) (a : Src) (s : State) : exec (.ssextS8 d a) s = execSsextS8 d a s := rfl
@[simp] theorem exec_ssextS16 (d : RName) (a : Src) (s : State) : exec (.ssextS16 d a) s = execSsextS16 d a s := rfl
@[simp] theorem exec_szextZ8 (d : RName) (a : Src) (s : State) : exec (.szextZ8 d a) s = execSzextZ8 d a s := rfl
@[simp] theorem exec_szextZ16 (d : RName) (a : Src) (s : State) : exec (.szextZ16 d a) s = execSzextZ16 d a s := rfl
@[simp] theorem exec_cvtF64F32 (d : RName) (a : Src) (s : State) : exec (.cvtF64F32 d a) s = execCvtF64F32 d a s := rfl
@[simp] theorem exec_cvtF32F64 (d : RName) (a : Src) (r : Rm) (s : State) : exec (.cvtF32F64 d a r) s = execCvtF32F64 d a r s := rfl
@[simp] theorem exec_cvtF32F16 (d : RName) (a : Src) (s : State) : exec (.cvtF32F16 d a) s = execCvtF32F16 d a s := rfl
@[simp] theorem exec_cvtF32Bf16 (d : RName) (a : Src) (s : State) : exec (.cvtF32Bf16 d a) s = execCvtF32Bf16 d a s := rfl
@[simp] theorem exec_cvtF16F32 (d : RName) (a : Src) (r : Rm) (s : State) : exec (.cvtF16F32 d a r) s = execCvtF16F32 d a r s := rfl
@[simp] theorem exec_cvtBf16F32 (d : RName) (a : Src) (r : Rm) (s : State) : exec (.cvtBf16F32 d a r) s = execCvtBf16F32 d a r s := rfl
@[simp] theorem exec_cvtF32E4m3Lo (d : RName) (a : Src) (s : State) : exec (.cvtF32E4m3Lo d a) s = execCvtF32E4m3Lo d a s := rfl
@[simp] theorem exec_cvtF32E4m3Hi (d : RName) (a : Src) (s : State) : exec (.cvtF32E4m3Hi d a) s = execCvtF32E4m3Hi d a s := rfl
@[simp] theorem exec_cvtF32E5m2Lo (d : RName) (a : Src) (s : State) : exec (.cvtF32E5m2Lo d a) s = execCvtF32E5m2Lo d a s := rfl
@[simp] theorem exec_cvtF32E5m2Hi (d : RName) (a : Src) (s : State) : exec (.cvtF32E5m2Hi d a) s = execCvtF32E5m2Hi d a s := rfl
@[simp] theorem exec_cvtE4m3F32Lo (d : RName) (a : Src) (r : Rm) (s : State) : exec (.cvtE4m3F32Lo d a r) s = execCvtE4m3F32Lo d a r s := rfl
@[simp] theorem exec_cvtE4m3F32Hi (d : RName) (a : Src) (r : Rm) (s : State) : exec (.cvtE4m3F32Hi d a r) s = execCvtE4m3F32Hi d a r s := rfl
@[simp] theorem exec_cvtE4m3F32NsatLo (d : RName) (a : Src) (r : Rm) (s : State) : exec (.cvtE4m3F32NsatLo d a r) s = execCvtE4m3F32NsatLo d a r s := rfl
@[simp] theorem exec_cvtE4m3F32NsatHi (d : RName) (a : Src) (r : Rm) (s : State) : exec (.cvtE4m3F32NsatHi d a r) s = execCvtE4m3F32NsatHi d a r s := rfl
@[simp] theorem exec_cvtE5m2F32Lo (d : RName) (a : Src) (r : Rm) (s : State) : exec (.cvtE5m2F32Lo d a r) s = execCvtE5m2F32Lo d a r s := rfl
@[simp] theorem exec_cvtE5m2F32Hi (d : RName) (a : Src) (r : Rm) (s : State) : exec (.cvtE5m2F32Hi d a r) s = execCvtE5m2F32Hi d a r s := rfl
@[simp] theorem exec_cvtF32E5m3 (d : RName) (a : Src) (s : State) : exec (.cvtF32E5m3 d a) s = execCvtF32E5m3 d a s := rfl
@[simp] theorem exec_cvtE5m3F32 (d : RName) (a : Src) (s : State) : exec (.cvtE5m3F32 d a) s = execCvtE5m3F32 d a s := rfl
@[simp] theorem exec_cvtS32F32 (d : RName) (a : Src) (r : Rm) (s : State) : exec (.cvtS32F32 d a r) s = execCvtS32F32 d a r s := rfl
@[simp] theorem exec_cvtZ32F32 (d : RName) (a : Src) (r : Rm) (s : State) : exec (.cvtZ32F32 d a r) s = execCvtZ32F32 d a r s := rfl
@[simp] theorem exec_cvtS64F32 (d : RName) (a : Src) (r : Rm) (s : State) : exec (.cvtS64F32 d a r) s = execCvtS64F32 d a r s := rfl
@[simp] theorem exec_cvtZ64F32 (d : RName) (a : Src) (r : Rm) (s : State) : exec (.cvtZ64F32 d a r) s = execCvtZ64F32 d a r s := rfl
@[simp] theorem exec_cvtS32F64 (d : RName) (a : Src) (r : Rm) (s : State) : exec (.cvtS32F64 d a r) s = execCvtS32F64 d a r s := rfl
@[simp] theorem exec_cvtZ32F64 (d : RName) (a : Src) (r : Rm) (s : State) : exec (.cvtZ32F64 d a r) s = execCvtZ32F64 d a r s := rfl
@[simp] theorem exec_cvtS64F64 (d : RName) (a : Src) (r : Rm) (s : State) : exec (.cvtS64F64 d a r) s = execCvtS64F64 d a r s := rfl
@[simp] theorem exec_cvtZ64F64 (d : RName) (a : Src) (r : Rm) (s : State) : exec (.cvtZ64F64 d a r) s = execCvtZ64F64 d a r s := rfl
@[simp] theorem exec_cvtF32S32 (d : RName) (a : Src) (r : Rm) (s : State) : exec (.cvtF32S32 d a r) s = execCvtF32S32 d a r s := rfl
@[simp] theorem exec_cvtF32Z32 (d : RName) (a : Src) (r : Rm) (s : State) : exec (.cvtF32Z32 d a r) s = execCvtF32Z32 d a r s := rfl
@[simp] theorem exec_cvtF32S64 (d : RName) (a : Src) (r : Rm) (s : State) : exec (.cvtF32S64 d a r) s = execCvtF32S64 d a r s := rfl
@[simp] theorem exec_cvtF32Z64 (d : RName) (a : Src) (r : Rm) (s : State) : exec (.cvtF32Z64 d a r) s = execCvtF32Z64 d a r s := rfl
@[simp] theorem exec_cvtF64S32 (d : RName) (a : Src) (s : State) : exec (.cvtF64S32 d a) s = execCvtF64S32 d a s := rfl
@[simp] theorem exec_cvtF64Z32 (d : RName) (a : Src) (s : State) : exec (.cvtF64Z32 d a) s = execCvtF64Z32 d a s := rfl
@[simp] theorem exec_cvtF64S64 (d : RName) (a : Src) (r : Rm) (s : State) : exec (.cvtF64S64 d a r) s = execCvtF64S64 d a r s := rfl
@[simp] theorem exec_cvtF64Z64 (d : RName) (a : Src) (r : Rm) (s : State) : exec (.cvtF64Z64 d a r) s = execCvtF64Z64 d a r s := rfl
@[simp] theorem exec_qpack (d : RName) (a : Src) (s : State) : exec (.qpack d a) s = execQpack d a s := rfl
@[simp] theorem exec_qunpk (d : RName) (a : Src) (s : State) : exec (.qunpk d a) s = execQunpk d a s := rfl
@[simp] theorem exec_fcmpEq (d : RName) (a : Src) (t : FTy) (s : State) : exec (.fcmpEq d a t) s = execFcmpEq d a t s := rfl
@[simp] theorem exec_fcmpNe (d : RName) (a : Src) (t : FTy) (s : State) : exec (.fcmpNe d a t) s = execFcmpNe d a t s := rfl
@[simp] theorem exec_fcmpLt (d : RName) (a : Src) (t : FTy) (s : State) : exec (.fcmpLt d a t) s = execFcmpLt d a t s := rfl
@[simp] theorem exec_fcmpLe (d : RName) (a : Src) (t : FTy) (s : State) : exec (.fcmpLe d a t) s = execFcmpLe d a t s := rfl
@[simp] theorem exec_fcmpUn (d : RName) (a : Src) (t : FTy) (s : State) : exec (.fcmpUn d a t) s = execFcmpUn d a t s := rfl
@[simp] theorem exec_fclass (d : RName) (a : Src) (t : FTy) (s : State) : exec (.fclass d a t) s = execFclass d a t s := rfl
@[simp] theorem exec_xall (d : RName) (a : RName) (s : State) : exec (.xall d a) s = execXall d a s := rfl
@[simp] theorem exec_xany (d : RName) (a : RName) (s : State) : exec (.xany d a) s = execXany d a s := rfl
@[simp] theorem exec_xeq (d : RName) (a : RName) (s : State) : exec (.xeq d a) s = execXeq d a s := rfl
@[simp] theorem exec_xbits (d : RName) (a : RName) (s : State) : exec (.xbits d a) s = execXbits d a s := rfl
@[simp] theorem exec_xget (d : RName) (a : RName) (s : State) : exec (.xget d a) s = execXget d a s := rfl
@[simp] theorem exec_xspread (d : RName) (a : RName) (s : State) : exec (.xspread d a) s = execXspread d a s := rfl
@[simp] theorem exec_xpermAbs (d : RName) (a : RName) (s : State) : exec (.xpermAbs d a) s = execXpermAbs d a s := rfl
@[simp] theorem exec_xpermLo (d : RName) (a : RName) (w : Bool) (s : State) : exec (.xpermLo d a w) s = execXpermLo d a w s := rfl
@[simp] theorem exec_xpermHi (d : RName) (a : RName) (w : Bool) (s : State) : exec (.xpermHi d a w) s = execXpermHi d a w s := rfl
@[simp] theorem exec_xpermFlip (d : RName) (a : RName) (s : State) : exec (.xpermFlip d a) s = execXpermFlip d a s := rfl
@[simp] theorem exec_xsame (d : RName) (a : RName) (s : State) : exec (.xsame d a) s = execXsame d a s := rfl
@[simp] theorem exec_scanAdd (d : RName) (a : RName) (e : Bool) (s : State) : exec (.scanAdd d a e) s = execScanAdd d a e s := rfl
@[simp] theorem exec_scanMinS32 (d : RName) (a : RName) (e : Bool) (s : State) : exec (.scanMinS32 d a e) s = execScanMinS32 d a e s := rfl
@[simp] theorem exec_scanMinZ32 (d : RName) (a : RName) (e : Bool) (s : State) : exec (.scanMinZ32 d a e) s = execScanMinZ32 d a e s := rfl
@[simp] theorem exec_scanMaxS32 (d : RName) (a : RName) (e : Bool) (s : State) : exec (.scanMaxS32 d a e) s = execScanMaxS32 d a e s := rfl
@[simp] theorem exec_scanMaxZ32 (d : RName) (a : RName) (e : Bool) (s : State) : exec (.scanMaxZ32 d a e) s = execScanMaxZ32 d a e s := rfl
@[simp] theorem exec_scanAnd (d : RName) (a : RName) (e : Bool) (s : State) : exec (.scanAnd d a e) s = execScanAnd d a e s := rfl
@[simp] theorem exec_scanOr (d : RName) (a : RName) (e : Bool) (s : State) : exec (.scanOr d a e) s = execScanOr d a e s := rfl
@[simp] theorem exec_scanXor (d : RName) (a : RName) (e : Bool) (s : State) : exec (.scanXor d a e) s = execScanXor d a e s := rfl
@[simp] theorem exec_scanFaddF32 (d : RName) (a : RName) (e : Bool) (s : State) : exec (.scanFaddF32 d a e) s = execScanFaddF32 d a e s := rfl
@[simp] theorem exec_scanFminF32 (d : RName) (a : RName) (e : Bool) (s : State) : exec (.scanFminF32 d a e) s = execScanFminF32 d a e s := rfl
@[simp] theorem exec_scanFmaxF32 (d : RName) (a : RName) (e : Bool) (s : State) : exec (.scanFmaxF32 d a e) s = execScanFmaxF32 d a e s := rfl
@[simp] theorem exec_redAdd (d : RName) (a : RName) (s : State) : exec (.redAdd d a) s = execRedAdd d a s := rfl
@[simp] theorem exec_redMinS32 (d : RName) (a : RName) (s : State) : exec (.redMinS32 d a) s = execRedMinS32 d a s := rfl
@[simp] theorem exec_redMinZ32 (d : RName) (a : RName) (s : State) : exec (.redMinZ32 d a) s = execRedMinZ32 d a s := rfl
@[simp] theorem exec_redMaxS32 (d : RName) (a : RName) (s : State) : exec (.redMaxS32 d a) s = execRedMaxS32 d a s := rfl
@[simp] theorem exec_redMaxZ32 (d : RName) (a : RName) (s : State) : exec (.redMaxZ32 d a) s = execRedMaxZ32 d a s := rfl
@[simp] theorem exec_redAnd (d : RName) (a : RName) (s : State) : exec (.redAnd d a) s = execRedAnd d a s := rfl
@[simp] theorem exec_redOr (d : RName) (a : RName) (s : State) : exec (.redOr d a) s = execRedOr d a s := rfl
@[simp] theorem exec_redXor (d : RName) (a : RName) (s : State) : exec (.redXor d a) s = execRedXor d a s := rfl
@[simp] theorem exec_redFaddF32 (d : RName) (a : RName) (s : State) : exec (.redFaddF32 d a) s = execRedFaddF32 d a s := rfl
@[simp] theorem exec_redFminF32 (d : RName) (a : RName) (s : State) : exec (.redFminF32 d a) s = execRedFminF32 d a s := rfl
@[simp] theorem exec_redFmaxF32 (d : RName) (a : RName) (s : State) : exec (.redFmaxF32 d a) s = execRedFmaxF32 d a s := rfl
@[simp] theorem exec_spawn (d : RName) (a : Src) (s : State) : exec (.spawn d a) s = execSpawn d a s := rfl
@[simp] theorem exec_spawnTry (d : RName) (a : Src) (s : State) : exec (.spawnTry d a) s = execSpawnTry d a s := rfl
@[simp] theorem exec_join (a : Src) (s : State) : exec (.join a) s = execJoin a s := rfl
@[simp] theorem exec_mon (a : Src) (s : State) : exec (.mon a) s = execMon a s := rfl
@[simp] theorem exec_mwait (s : State) : exec (.mwait) s = execMwait s := rfl
@[simp] theorem exec_qinit (q : BitVec 3) (a : Src) (s : State) : exec (.qinit q a) s = execQinit q a s := rfl
@[simp] theorem exec_qpush (q : BitVec 3) (a : Src) (s : State) : exec (.qpush q a) s = execQpush q a s := rfl
@[simp] theorem exec_qpop (d : RName) (a : Src) (s : State) : exec (.qpop d a) s = execQpop d a s := rfl
@[simp] theorem exec_qtry (d : RName) (a : Src) (s : State) : exec (.qtry d a) s = execQtry d a s := rfl
@[simp] theorem exec_allow (q : BitVec 3) (a : Src) (s : State) : exec (.allow q a) s = execAllow q a s := rfl
@[simp] theorem exec_stagepush (d : RName) (a : Src) (s : State) : exec (.stagepush d a) s = execStagepush d a s := rfl
@[simp] theorem exec_amsg (d : RName) (a : Src) (s : State) : exec (.amsg d a) s = execAmsg d a s := rfl
@[simp] theorem exec_mma (b : BitVec 4) (c : BitVec 2) (im : BitVec 3) (a : BitVec 4) (s : State) : exec (.mma b c im a) s = execMma b c im a s := rfl
@[simp] theorem exec_mzero (c : BitVec 2) (s : State) : exec (.mzero c) s = execMzero c s := rfl
@[simp] theorem exec_obres (n : BitVec 4) (a : Src) (s : State) : exec (.obres n a) s = execObres n a s := rfl
@[simp] theorem exec_obrel (n : BitVec 4) (s : State) : exec (.obrel n) s = execObrel n s := rfl
@[simp] theorem exec_obimp (n : BitVec 4) (a : Src) (s : State) : exec (.obimp n a) s = execObimp n a s := rfl
@[simp] theorem exec_mdrainF32Sp (a : RName) (m : Bool) (c : Bool) (s : State) : exec (.mdrainF32Sp a m c) s = execMdrainF32Sp a m c s := rfl
@[simp] theorem exec_mdrainBf16Sp (a : RName) (m : Bool) (c : Bool) (s : State) : exec (.mdrainBf16Sp a m c) s = execMdrainBf16Sp a m c s := rfl
@[simp] theorem exec_mdrainE4m3Sp (a : RName) (m : Bool) (c : Bool) (s : State) : exec (.mdrainE4m3Sp a m c) s = execMdrainE4m3Sp a m c s := rfl
@[simp] theorem exec_mdrainE5m2Sp (a : RName) (m : Bool) (c : Bool) (s : State) : exec (.mdrainE5m2Sp a m c) s = execMdrainE5m2Sp a m c s := rfl
@[simp] theorem exec_mdrainF32 (d : RName) (a : RName) (m : Bool) (c : Bool) (s : State) : exec (.mdrainF32 d a m c) s = execMdrainF32 d a m c s := rfl
@[simp] theorem exec_mdrainBf16 (d : RName) (a : RName) (m : Bool) (c : Bool) (s : State) : exec (.mdrainBf16 d a m c) s = execMdrainBf16 d a m c s := rfl
@[simp] theorem exec_mtake (s : State) : exec (.mtake) s = execMtake s := rfl
@[simp] theorem exec_mpass (s : State) : exec (.mpass) s = execMpass s := rfl
@[simp] theorem exec_cpy (d : RName) (a : RName) (k : Bool) (s : State) : exec (.cpy d a k) s = execCpy d a k s := rfl
@[simp] theorem exec_cpym (d : RName) (a : RName) (k : Bool) (s : State) : exec (.cpym d a k) s = execCpym d a k s := rfl
@[simp] theorem exec_gath (d : RName) (a : RName) (k : Bool) (s : State) : exec (.gath d a k) s = execGath d a k s := rfl
@[simp] theorem exec_xred (d : RName) (a : RName) (k : Bool) (s : State) : exec (.xred d a k) s = execXred d a k s := rfl
@[simp] theorem exec_tagwaitAny (a : Src) (s : State) : exec (.tagwaitAny a) s = execTagwaitAny a s := rfl
@[simp] theorem exec_tagwaitAll (a : Src) (s : State) : exec (.tagwaitAll a) s = execTagwaitAll a s := rfl
@[simp] theorem exec_tagff (d : RName) (a : Src) (s : State) : exec (.tagff d a) s = execTagff d a s := rfl
@[simp] theorem exec_fence (sc : Scope) (o : Ord) (s : State) : exec (.fence sc o) s = execFence sc o s := rfl
@[simp] theorem exec_fencex (p : BitVec 5) (q : BitVec 5) (sc : Scope) (s : State) : exec (.fencex p q sc) s = execFencex p q sc s := rfl
@[simp] theorem exec_prefL1 (a : RName) (h : Hint) (x : Bool) (s : State) : exec (.prefL1 a h x) s = execPrefL1 a h x s := rfl
@[simp] theorem exec_prefLlc (a : RName) (h : Hint) (x : Bool) (s : State) : exec (.prefLlc a h x) s = execPrefLlc a h x s := rfl
@[simp] theorem exec_prefDemote (a : RName) (x : Bool) (s : State) : exec (.prefDemote a x) s = execPrefDemote a x s := rfl
@[simp] theorem exec_cld (d : RName) (a : Src) (s : State) : exec (.cld d a) s = execCld d a s := rfl
@[simp] theorem exec_trap (a : Src) (s : State) : exec (.trap a) s = execTrap a s := rfl
@[simp] theorem exec_bkpt (s : State) : exec (.bkpt) s = execBkpt s := rfl
@[simp] theorem exec_eret (s : State) : exec (.eret) s = execEret s := rfl
@[simp] theorem exec_eretKill (s : State) : exec (.eretKill) s = execEretKill s := rfl
@[simp] theorem exec_rdsr (d : RName) (n : BitVec 7) (s : State) : exec (.rdsr d n) s = execRdsr d n s := rfl
@[simp] theorem exec_wrsr (n : BitVec 7) (a : Src) (s : State) : exec (.wrsr n a) s = execWrsr n a s := rfl
@[simp] theorem exec_gsave (a : RName) (s : State) : exec (.gsave a) s = execGsave a s := rfl
@[simp] theorem exec_grest (a : RName) (s : State) : exec (.grest a) s = execGrest a s := rfl
@[simp] theorem exec_isync (s : State) : exec (.isync) s = execIsync s := rfl
@[simp] theorem exec_yield (s : State) : exec (.yield) s = execYield s := rfl
@[simp] theorem exec_ldS8 (t : RName) (b : RName) (o : BitVec 4) (r : Ord) (sc : Scope) (h : Hint) (s : State) : exec (.ldS8 t b o r sc h) s = execLdS8 t b o r sc h s := rfl
@[simp] theorem exec_ldZ8 (t : RName) (b : RName) (o : BitVec 4) (r : Ord) (sc : Scope) (h : Hint) (s : State) : exec (.ldZ8 t b o r sc h) s = execLdZ8 t b o r sc h s := rfl
@[simp] theorem exec_ldS16 (t : RName) (b : RName) (o : BitVec 4) (r : Ord) (sc : Scope) (h : Hint) (s : State) : exec (.ldS16 t b o r sc h) s = execLdS16 t b o r sc h s := rfl
@[simp] theorem exec_ldZ16 (t : RName) (b : RName) (o : BitVec 4) (r : Ord) (sc : Scope) (h : Hint) (s : State) : exec (.ldZ16 t b o r sc h) s = execLdZ16 t b o r sc h s := rfl
@[simp] theorem exec_ldS32 (t : RName) (b : RName) (o : BitVec 4) (r : Ord) (sc : Scope) (h : Hint) (s : State) : exec (.ldS32 t b o r sc h) s = execLdS32 t b o r sc h s := rfl
@[simp] theorem exec_ld64 (t : RName) (b : RName) (o : BitVec 4) (r : Ord) (sc : Scope) (h : Hint) (s : State) : exec (.ld64 t b o r sc h) s = execLd64 t b o r sc h s := rfl
@[simp] theorem exec_st8 (t : RName) (b : RName) (o : BitVec 4) (r : Ord) (sc : Scope) (h : Hint) (s : State) : exec (.st8 t b o r sc h) s = execSt8 t b o r sc h s := rfl
@[simp] theorem exec_st16 (t : RName) (b : RName) (o : BitVec 4) (r : Ord) (sc : Scope) (h : Hint) (s : State) : exec (.st16 t b o r sc h) s = execSt16 t b o r sc h s := rfl
@[simp] theorem exec_st32 (t : RName) (b : RName) (o : BitVec 4) (r : Ord) (sc : Scope) (h : Hint) (s : State) : exec (.st32 t b o r sc h) s = execSt32 t b o r sc h s := rfl
@[simp] theorem exec_st64 (t : RName) (b : RName) (o : BitVec 4) (r : Ord) (sc : Scope) (h : Hint) (s : State) : exec (.st64 t b o r sc h) s = execSt64 t b o r sc h s := rfl
@[simp] theorem exec_sld32 (t : RName) (b : RName) (o : BitVec 4) (r : Ord) (sc : Scope) (h : Hint) (s : State) : exec (.sld32 t b o r sc h) s = execSld32 t b o r sc h s := rfl
@[simp] theorem exec_sld64 (t : RName) (b : RName) (o : BitVec 4) (r : Ord) (sc : Scope) (h : Hint) (s : State) : exec (.sld64 t b o r sc h) s = execSld64 t b o r sc h s := rfl
@[simp] theorem exec_sst32 (t : RName) (b : RName) (o : BitVec 4) (r : Ord) (sc : Scope) (h : Hint) (s : State) : exec (.sst32 t b o r sc h) s = execSst32 t b o r sc h s := rfl
@[simp] theorem exec_sst64 (t : RName) (b : RName) (o : BitVec 4) (r : Ord) (sc : Scope) (h : Hint) (s : State) : exec (.sst64 t b o r sc h) s = execSst64 t b o r sc h s := rfl
@[simp] theorem exec_atomAdd32 (t : RName) (b : RName) (r : Ord) (sc : Scope) (h : Hint) (s : State) : exec (.atomAdd32 t b r sc h) s = execAtomAdd32 t b r sc h s := rfl
@[simp] theorem exec_atomMinS32 (t : RName) (b : RName) (r : Ord) (sc : Scope) (h : Hint) (s : State) : exec (.atomMinS32 t b r sc h) s = execAtomMinS32 t b r sc h s := rfl
@[simp] theorem exec_atomMinZ32 (t : RName) (b : RName) (r : Ord) (sc : Scope) (h : Hint) (s : State) : exec (.atomMinZ32 t b r sc h) s = execAtomMinZ32 t b r sc h s := rfl
@[simp] theorem exec_atomMaxS32 (t : RName) (b : RName) (r : Ord) (sc : Scope) (h : Hint) (s : State) : exec (.atomMaxS32 t b r sc h) s = execAtomMaxS32 t b r sc h s := rfl
@[simp] theorem exec_atomMaxZ32 (t : RName) (b : RName) (r : Ord) (sc : Scope) (h : Hint) (s : State) : exec (.atomMaxZ32 t b r sc h) s = execAtomMaxZ32 t b r sc h s := rfl
@[simp] theorem exec_atomAnd32 (t : RName) (b : RName) (r : Ord) (sc : Scope) (h : Hint) (s : State) : exec (.atomAnd32 t b r sc h) s = execAtomAnd32 t b r sc h s := rfl
@[simp] theorem exec_atomOr32 (t : RName) (b : RName) (r : Ord) (sc : Scope) (h : Hint) (s : State) : exec (.atomOr32 t b r sc h) s = execAtomOr32 t b r sc h s := rfl
@[simp] theorem exec_atomXor32 (t : RName) (b : RName) (r : Ord) (sc : Scope) (h : Hint) (s : State) : exec (.atomXor32 t b r sc h) s = execAtomXor32 t b r sc h s := rfl
@[simp] theorem exec_atomSwap32 (t : RName) (b : RName) (r : Ord) (sc : Scope) (h : Hint) (s : State) : exec (.atomSwap32 t b r sc h) s = execAtomSwap32 t b r sc h s := rfl
@[simp] theorem exec_atomCas32 (t : RName) (b : RName) (r : Ord) (sc : Scope) (h : Hint) (s : State) : exec (.atomCas32 t b r sc h) s = execAtomCas32 t b r sc h s := rfl
@[simp] theorem exec_atomAdd64 (t : RName) (b : RName) (r : Ord) (sc : Scope) (h : Hint) (s : State) : exec (.atomAdd64 t b r sc h) s = execAtomAdd64 t b r sc h s := rfl
@[simp] theorem exec_atomMinS64 (t : RName) (b : RName) (r : Ord) (sc : Scope) (h : Hint) (s : State) : exec (.atomMinS64 t b r sc h) s = execAtomMinS64 t b r sc h s := rfl
@[simp] theorem exec_atomMinZ64 (t : RName) (b : RName) (r : Ord) (sc : Scope) (h : Hint) (s : State) : exec (.atomMinZ64 t b r sc h) s = execAtomMinZ64 t b r sc h s := rfl
@[simp] theorem exec_atomMaxS64 (t : RName) (b : RName) (r : Ord) (sc : Scope) (h : Hint) (s : State) : exec (.atomMaxS64 t b r sc h) s = execAtomMaxS64 t b r sc h s := rfl
@[simp] theorem exec_atomMaxZ64 (t : RName) (b : RName) (r : Ord) (sc : Scope) (h : Hint) (s : State) : exec (.atomMaxZ64 t b r sc h) s = execAtomMaxZ64 t b r sc h s := rfl
@[simp] theorem exec_atomAnd64 (t : RName) (b : RName) (r : Ord) (sc : Scope) (h : Hint) (s : State) : exec (.atomAnd64 t b r sc h) s = execAtomAnd64 t b r sc h s := rfl
@[simp] theorem exec_atomOr64 (t : RName) (b : RName) (r : Ord) (sc : Scope) (h : Hint) (s : State) : exec (.atomOr64 t b r sc h) s = execAtomOr64 t b r sc h s := rfl
@[simp] theorem exec_atomXor64 (t : RName) (b : RName) (r : Ord) (sc : Scope) (h : Hint) (s : State) : exec (.atomXor64 t b r sc h) s = execAtomXor64 t b r sc h s := rfl
@[simp] theorem exec_atomSwap64 (t : RName) (b : RName) (r : Ord) (sc : Scope) (h : Hint) (s : State) : exec (.atomSwap64 t b r sc h) s = execAtomSwap64 t b r sc h s := rfl
@[simp] theorem exec_atomCas64 (t : RName) (b : RName) (r : Ord) (sc : Scope) (h : Hint) (s : State) : exec (.atomCas64 t b r sc h) s = execAtomCas64 t b r sc h s := rfl
@[simp] theorem exec_movi (d : RName) (im : BitVec 18) (s : State) : exec (.movi d im) s = execMovi d im s := rfl
@[simp] theorem exec_movhi (d : RName) (im : BitVec 18) (s : State) : exec (.movhi d im) s = execMovhi d im s := rfl
@[simp] theorem exec_smovi (d : RName) (im : BitVec 18) (s : State) : exec (.smovi d im) s = execSmovi d im s := rfl
@[simp] theorem exec_smovhi (d : RName) (im : BitVec 18) (s : State) : exec (.smovhi d im) s = execSmovhi d im s := rfl
@[simp] theorem exec_wbase (im : BitVec 18) (s : State) : exec (.wbase im) s = execWbase im s := rfl
@[simp] theorem exec_cbase (im : BitVec 9) (s : State) : exec (.cbase im) s = execCbase im s := rfl
@[simp] theorem exec_bar (k : BitVec 5) (n : BitVec 18) (s : State) : exec (.bar k n) s = execBar k n s := rfl
@[simp] theorem exec_rcv (sc : RName) (b : BitVec 4) (s : State) : exec (.rcv sc b) s = execRcv sc b s := rfl
@[simp] theorem exec_bnz (c : RName) (o : BitVec 18) (s : State) : exec (.bnz c o) s = execBnz c o s := rfl
@[simp] theorem exec_bra (o : BitVec 18) (s : State) : exec (.bra o) s = execBra o s := rfl
@[simp] theorem exec_bz (c : RName) (o : BitVec 18) (s : State) : exec (.bz c o) s = execBz c o s := rfl
@[simp] theorem exec_call (c : RName) (o : BitVec 18) (s : State) : exec (.call c o) s = execCall c o s := rfl
@[simp] theorem exec_jmpi (c : RName) (s : State) : exec (.jmpi c) s = execJmpi c s := rfl
@[simp] theorem exec_calli (c : RName) (s : State) : exec (.calli c) s = execCalli c s := rfl
@[simp] theorem exec_ret (c : RName) (s : State) : exec (.ret c) s = execRet c s := rfl
@[simp] theorem exec_exit (c : RName) (s : State) : exec (.exit c) s = execExit c s := rfl
@[simp] theorem exec_longLatencyComplete (id : Nat) (s : State) : exec (.longLatencyComplete id) s = execLongLatencyComplete id s := rfl
@[simp] theorem exec_storeAcknowledge (id : Nat) (lane : Nat) (s : State) : exec (.storeAcknowledge id lane) s = execStoreAcknowledge id lane s := rfl
@[simp] theorem exec_orderingPointAccess (id : Nat) (lane : Nat) (s : State) : exec (.orderingPointAccess id lane) s = execOrderingPointAccess id lane s := rfl
@[simp] theorem exec_leaseRequest (id : Nat) (lane : Nat) (s : State) : exec (.leaseRequest id lane) s = execLeaseRequest id lane s := rfl
@[simp] theorem exec_leaseRecall (core : Nat) (line : Nat) (s : State) : exec (.leaseRecall core line) s = execLeaseRecall core line s := rfl
@[simp] theorem exec_readHoldExpiry (die : Nat) (line : Nat) (s : State) : exec (.readHoldExpiry die line) s = execReadHoldExpiry die line s := rfl
@[simp] theorem exec_rds (k : Nat) (s : State) : exec (.rds k) s = execRds k s := rfl
@[simp] theorem exec_rdx (k : Nat) (s : State) : exec (.rdx k) s = execRdx k s := rfl
@[simp] theorem exec_fwd (k : Nat) (s : State) : exec (.fwd k) s = execFwd k s := rfl
@[simp] theorem exec_inv (k : Nat) (s : State) : exec (.inv k) s = execInv k s := rfl
@[simp] theorem exec_ack (k : Nat) (s : State) : exec (.ack k) s = execAck k s := rfl
@[simp] theorem exec_data (k : Nat) (s : State) : exec (.data k) s = execData k s := rfl
@[simp] theorem exec_grant (k : Nat) (s : State) : exec (.grant k) s = execGrant k s := rfl
@[simp] theorem exec_binv (k : Nat) (s : State) : exec (.binv k) s = execBinv k s := rfl
@[simp] theorem exec_wb (k : Nat) (s : State) : exec (.wb k) s = execWb k s := rfl
@[simp] theorem exec_pageWalk (core : Nat) (page : Nat) (s : State) : exec (.pageWalk core page) s = execPageWalk core page s := rfl
@[simp] theorem exec_pageWalkTimeout (core : Nat) (slot : Nat) (lane : Nat) (s : State) : exec (.pageWalkTimeout core slot lane) s = execPageWalkTimeout core slot lane s := rfl
@[simp] theorem exec_frespResolve (die : Nat) (rec : Nat) (s : State) : exec (.frespResolve die rec) s = execFrespResolve die rec s := rfl
@[simp] theorem exec_frespRefuse (die : Nat) (rec : Nat) (s : State) : exec (.frespRefuse die rec) s = execFrespRefuse die rec s := rfl
@[simp] theorem exec_vldEqAtSlice (id : Nat) (lane : Nat) (s : State) : exec (.vldEqAtSlice id lane) s = execVldEqAtSlice id lane s := rfl
@[simp] theorem exec_vldLeAtSlice (id : Nat) (lane : Nat) (s : State) : exec (.vldLeAtSlice id lane) s = execVldLeAtSlice id lane s := rfl
@[simp] theorem exec_vstAtSlice (id : Nat) (lane : Nat) (s : State) : exec (.vstAtSlice id lane) s = execVstAtSlice id lane s := rfl
@[simp] theorem exec_versionWaitTimeout (id : Nat) (lane : Nat) (s : State) : exec (.versionWaitTimeout id lane) s = execVersionWaitTimeout id lane s := rfl
@[simp] theorem exec_vldReturnRetry (id : Nat) (lane : Nat) (s : State) : exec (.vldReturnRetry id lane) s = execVldReturnRetry id lane s := rfl
@[simp] theorem exec_vfloorApply (id : Nat) (place : Nat) (s : State) : exec (.vfloorApply id place) s = execVfloorApply id place s := rfl
@[simp] theorem exec_mwaitWake (core : Nat) (slot : Nat) (lane : Nat) (s : State) : exec (.mwaitWake core slot lane) s = execMwaitWake core slot lane s := rfl
@[simp] theorem exec_joinZero (core : Nat) (slot : Nat) (lane : Nat) (s : State) : exec (.joinZero core slot lane) s = execJoinZero core slot lane s := rfl
@[simp] theorem exec_tagwaitSatisfied (core : Nat) (slot : Nat) (lane : Nat) (s : State) : exec (.tagwaitSatisfied core slot lane) s = execTagwaitSatisfied core slot lane s := rfl
@[simp] theorem exec_queueWordPerform (core : Nat) (slot : Nat) (lane : Nat) (s : State) : exec (.queueWordPerform core slot lane) s = execQueueWordPerform core slot lane s := rfl
@[simp] theorem exec_ringSpaceResume (core : Nat) (slot : Nat) (lane : Nat) (s : State) : exec (.ringSpaceResume core slot lane) s = execRingSpaceResume core slot lane s := rfl
@[simp] theorem exec_monitorTimeout (core : Nat) (slot : Nat) (lane : Nat) (s : State) : exec (.monitorTimeout core slot lane) s = execMonitorTimeout core slot lane s := rfl
@[simp] theorem exec_waveHaltStop (core : Nat) (slot : Nat) (s : State) : exec (.waveHaltStop core slot) s = execWaveHaltStop core slot s := rfl
@[simp] theorem exec_handlerEntry (gid : Nat) (s : State) : exec (.handlerEntry gid) s = execHandlerEntry gid s := rfl
@[simp] theorem exec_groupRetire (gid : Nat) (s : State) : exec (.groupRetire gid) s = execGroupRetire gid s := rfl
@[simp] theorem exec_groupEnd (gid : Nat) (s : State) : exec (.groupEnd gid) s = execGroupEnd gid s := rfl
@[simp] theorem exec_engineEntryStart (core : Nat) (cls : Nat) (s : State) : exec (.engineEntryStart core cls) s = execEngineEntryStart core cls s := rfl
@[simp] theorem exec_engineBeat (core : Nat) (cls : Nat) (seq : Nat) (beat : Nat) (s : State) : exec (.engineBeat core cls seq beat) s = execEngineBeat core cls seq beat s := rfl
@[simp] theorem exec_engineCommandComplete (core : Nat) (cls : Nat) (seq : Nat) (s : State) : exec (.engineCommandComplete core cls seq) s = execEngineCommandComplete core cls seq s := rfl
@[simp] theorem exec_xredElement (core : Nat) (seq : Nat) (elem : Nat) (s : State) : exec (.xredElement core seq elem) s = execXredElement core seq elem s := rfl
@[simp] theorem exec_reductionContribution (die : Nat) (tree : Nat) (k : Nat) (s : State) : exec (.reductionContribution die tree k) s = execReductionContribution die tree k s := rfl
@[simp] theorem exec_reductionUnitTimeout (die : Nat) (tree : Nat) (router : Nat) (s : State) : exec (.reductionUnitTimeout die tree router) s = execReductionUnitTimeout die tree router s := rfl
@[simp] theorem exec_followOnIssue (core : Nat) (s : State) : exec (.followOnIssue core) s = execFollowOnIssue core s := rfl
@[simp] theorem exec_mmaStart (core : Nat) (s : State) : exec (.mmaStart core) s = execMmaStart core s := rfl
@[simp] theorem exec_mmaCheck (core : Nat) (pass : Bool) (s : State) : exec (.mmaCheck core pass) s = execMmaCheck core pass s := rfl
@[simp] theorem exec_drainPortOperation (core : Nat) (id : Nat) (s : State) : exec (.drainPortOperation core id) s = execDrainPortOperation core id s := rfl
@[simp] theorem exec_binWindowExpiry (core : Nat) (k : Nat) (s : State) : exec (.binWindowExpiry core k) s = execBinWindowExpiry core k s := rfl
@[simp] theorem exec_binAdmit (core : Nat) (k : Nat) (s : State) : exec (.binAdmit core k) s = execBinAdmit core k s := rfl
@[simp] theorem exec_dispatchDecision (die : Nat) (s : State) : exec (.dispatchDecision die) s = execDispatchDecision die s := rfl
@[simp] theorem exec_coreContextPass (core : Nat) (ctx : Nat) (s : State) : exec (.coreContextPass core ctx) s = execCoreContextPass core ctx s := rfl
@[simp] theorem exec_spawnDeadlockEviction (die : Nat) (ctx : Nat) (s : State) : exec (.spawnDeadlockEviction die ctx) s = execSpawnDeadlockEviction die ctx s := rfl
@[simp] theorem exec_amsgDelivery (die : Nat) (s : State) : exec (.amsgDelivery die) s = execAmsgDelivery die s := rfl
@[simp] theorem exec_stageGovernorTick (die : Nat) (s : State) : exec (.stageGovernorTick die) s = execStageGovernorTick die s := rfl
@[simp] theorem exec_stagePartialTake (die : Nat) (key : Nat) (stage : Nat) (s : State) : exec (.stagePartialTake die key stage) s = execStagePartialTake die key stage s := rfl
@[simp] theorem exec_wridx (die : Nat) (q : Nat) (size : Nat) (val : Nat) (s : State) : exec (.wridx die q size val) s = execWridx die q size val s := rfl
@[simp] theorem exec_queueDescriptorWrite (die : Nat) (off : Nat) (val : Nat) (s : State) : exec (.queueDescriptorWrite die off val) s = execQueueDescriptorWrite die off val s := rfl
@[simp] theorem exec_mapperSlotFill (die : Nat) (s : State) : exec (.mapperSlotFill die) s = execMapperSlotFill die s := rfl
@[simp] theorem exec_queuePriorityAge (die : Nat) (q : Nat) (s : State) : exec (.queuePriorityAge die q) s = execQueuePriorityAge die q s := rfl
@[simp] theorem exec_idleQuantumExpiry (die : Nat) (q : Nat) (s : State) : exec (.idleQuantumExpiry die q) s = execIdleQuantumExpiry die q s := rfl
@[simp] theorem exec_launch (die : Nat) (q : Nat) (s : State) : exec (.launch die q) s = execLaunch die q s := rfl
@[simp] theorem exec_jobCard (die : Nat) (q : Nat) (s : State) : exec (.jobCard die q) s = execJobCard die q s := rfl
@[simp] theorem exec_pipeline (die : Nat) (q : Nat) (s : State) : exec (.pipeline die q) s = execPipeline die q s := rfl
@[simp] theorem exec_waitOnWord (die : Nat) (q : Nat) (s : State) : exec (.waitOnWord die q) s = execWaitOnWord die q s := rfl
@[simp] theorem exec_signal (die : Nat) (q : Nat) (s : State) : exec (.signal die q) s = execSignal die q s := rfl
@[simp] theorem exec_pad (die : Nat) (q : Nat) (s : State) : exec (.pad die q) s = execPad die q s := rfl
@[simp] theorem exec_launchTranslation (die : Nat) (key : Nat) (s : State) : exec (.launchTranslation die key) s = execLaunchTranslation die key s := rfl
@[simp] theorem exec_regionArming (die : Nat) (key : Nat) (s : State) : exec (.regionArming die key) s = execRegionArming die key s := rfl
@[simp] theorem exec_launchComplete (die : Nat) (key : Nat) (s : State) : exec (.launchComplete die key) s = execLaunchComplete die key s := rfl
@[simp] theorem exec_waitOnWordRecheck (die : Nat) (q : Nat) (s : State) : exec (.waitOnWordRecheck die q) s = execWaitOnWordRecheck die q s := rfl
@[simp] theorem exec_waitOnWordTimeout (die : Nat) (q : Nat) (s : State) : exec (.waitOnWordTimeout die q) s = execWaitOnWordTimeout die q s := rfl
@[simp] theorem exec_cardReady (die : Nat) (key : Nat) (s : State) : exec (.cardReady die key) s = execCardReady die key s := rfl
@[simp] theorem exec_cardComplete (die : Nat) (key : Nat) (s : State) : exec (.cardComplete die key) s = execCardComplete die key s := rfl
@[simp] theorem exec_pageClassCommand (die : Nat) (val : Nat) (s : State) : exec (.pageClassCommand die val) s = execPageClassCommand die val s := rfl
@[simp] theorem exec_invalidationCommand (die : Nat) (val : Nat) (s : State) : exec (.invalidationCommand die val) s = execInvalidationCommand die val s := rfl
@[simp] theorem exec_regionDisarm (die : Nat) (val : Nat) (s : State) : exec (.regionDisarm die val) s = execRegionDisarm die val s := rfl
@[simp] theorem exec_heapGrant (die : Nat) (ctx : Nat) (val : Nat) (s : State) : exec (.heapGrant die ctx val) s = execHeapGrant die ctx val s := rfl
@[simp] theorem exec_pageZero (die : Nat) (val : Nat) (s : State) : exec (.pageZero die val) s = execPageZero die val s := rfl
@[simp] theorem exec_keyLoad (die : Nat) (val : Nat) (s : State) : exec (.keyLoad die val) s = execKeyLoad die val s := rfl
@[simp] theorem exec_keyErase (die : Nat) (val : Nat) (s : State) : exec (.keyErase die val) s = execKeyErase die val s := rfl
@[simp] theorem exec_contextRecordWrite (die : Nat) (off : Nat) (val : Nat) (s : State) : exec (.contextRecordWrite die off val) s = execContextRecordWrite die off val s := rfl
@[simp] theorem exec_preemptDrain (die : Nat) (ctx : Nat) (s : State) : exec (.preemptDrain die ctx) s = execPreemptDrain die ctx s := rfl
@[simp] theorem exec_preemptSave (die : Nat) (ctx : Nat) (s : State) : exec (.preemptSave die ctx) s = execPreemptSave die ctx s := rfl
@[simp] theorem exec_contextResume (die : Nat) (ctx : Nat) (s : State) : exec (.contextResume die ctx) s = execContextResume die ctx s := rfl
@[simp] theorem exec_contextReset (die : Nat) (ctx : Nat) (s : State) : exec (.contextReset die ctx) s = execContextReset die ctx s := rfl
@[simp] theorem exec_preemptDeadlineExpiry (die : Nat) (ctx : Nat) (s : State) : exec (.preemptDeadlineExpiry die ctx) s = execPreemptDeadlineExpiry die ctx s := rfl
@[simp] theorem exec_plateWatchdogExpiry (plate : Nat) (s : State) : exec (.plateWatchdogExpiry plate) s = execPlateWatchdogExpiry plate s := rfl
@[simp] theorem exec_platePortError (plate : Nat) (s : State) : exec (.platePortError plate) s = execPlatePortError plate s := rfl
@[simp] theorem exec_thermalTrip (plate : Nat) (s : State) : exec (.thermalTrip plate) s = execThermalTrip plate s := rfl
@[simp] theorem exec_plateDeclareLost (plate : Nat) (s : State) : exec (.plateDeclareLost plate) s = execPlateDeclareLost plate s := rfl
@[simp] theorem exec_plateResetReturn (plate : Nat) (pass : Bool) (s : State) : exec (.plateResetReturn plate pass) s = execPlateResetReturn plate pass s := rfl
@[simp] theorem exec_sliceRetireNow (die : Nat) (slice : Nat) (s : State) : exec (.sliceRetireNow die slice) s = execSliceRetireNow die slice s := rfl
@[simp] theorem exec_bucketHandover (die : Nat) (s : State) : exec (.bucketHandover die) s = execBucketHandover die s := rfl
@[simp] theorem exec_treeEnable (die : Nat) (tree : Nat) (val : Nat) (s : State) : exec (.treeEnable die tree val) s = execTreeEnable die tree val s := rfl
@[simp] theorem exec_fedBarrierArrival (die : Nat) (k : Nat) (ctx : Nat) (n : Nat) (s : State) : exec (.fedBarrierArrival die k ctx n) s = execFedBarrierArrival die k ctx n s := rfl
@[simp] theorem exec_fedAnnounce (die : Nat) (key : Nat) (s : State) : exec (.fedAnnounce die key) s = execFedAnnounce die key s := rfl
@[simp] theorem exec_controlRegisterWrite (die : Nat) (off : Nat) (size : Nat) (val : Nat) (s : State) : exec (.controlRegisterWrite die off size val) s = execControlRegisterWrite die off size val s := rfl
@[simp] theorem exec_scrub (die : Nat) (array : Nat) (index : Nat) (s : State) : exec (.scrub die array index) s = execScrub die array index s := rfl
@[simp] theorem exec_uncorrectableError (die : Nat) (array : Nat) (index : Nat) (s : State) : exec (.uncorrectableError die array index) s = execUncorrectableError die array index s := rfl
@[simp] theorem exec_meshFlitRetry (die : Nat) (s : State) : exec (.meshFlitRetry die) s = execMeshFlitRetry die s := rfl
@[simp] theorem exec_meshLinkDown (die : Nat) (router : Nat) (dir : Nat) (s : State) : exec (.meshLinkDown die router dir) s = execMeshLinkDown die router dir s := rfl
@[simp] theorem exec_d2dPacket (src : Nat) (dst : Nat) (seq : Nat) (s : State) : exec (.d2dPacket src dst seq) s = execD2dPacket src dst seq s := rfl
@[simp] theorem exec_linkRetrain (src : Nat) (dst : Nat) (s : State) : exec (.linkRetrain src dst) s = execLinkRetrain src dst s := rfl
@[simp] theorem exec_linkDown (src : Nat) (dst : Nat) (s : State) : exec (.linkDown src dst) s = execLinkDown src dst s := rfl
@[simp] theorem exec_crossDieTimeout (id : Nat) (s : State) : exec (.crossDieTimeout id) s = execCrossDieTimeout id s := rfl
@[simp] theorem exec_hostBar4Read (die : Nat) (addr : Nat) (size : Nat) (s : State) : exec (.hostBar4Read die addr size) s = execHostBar4Read die addr size s := rfl
@[simp] theorem exec_hostPostedWrite (die : Nat) (addr : Nat) (size : Nat) (val : Nat) (s : State) : exec (.hostPostedWrite die addr size val) s = execHostPostedWrite die addr size val s := rfl
@[simp] theorem exec_hostAtomicop (die : Nat) (addr : Nat) (size : Nat) (op : Nat) (val : Nat) (cmp : Nat) (s : State) : exec (.hostAtomicop die addr size op val cmp) s = execHostAtomicop die addr size op val cmp s := rfl
@[simp] theorem exec_hostCompletion (id : Nat) (good : Bool) (s : State) : exec (.hostCompletion id good) s = execHostCompletion id good s := rfl
@[simp] theorem exec_fabricPacket (port : Nat) (flits : Nat) (s : State) : exec (.fabricPacket port flits) s = execFabricPacket port flits s := rfl
@[simp] theorem exec_wavelengthPark (port : Nat) (s : State) : exec (.wavelengthPark port) s = execWavelengthPark port s := rfl
@[simp] theorem exec_wavelengthRelock (port : Nat) (s : State) : exec (.wavelengthRelock port) s = execWavelengthRelock port s := rfl
@[simp] theorem exec_wavelengthCrcFail (port : Nat) (wave : Nat) (s : State) : exec (.wavelengthCrcFail port wave) s = execWavelengthCrcFail port wave s := rfl
@[simp] theorem exec_getStatus (s : State) : exec (.getStatus) s = execGetStatus s := rfl
@[simp] theorem exec_readPower (die : Nat) (s : State) : exec (.readPower die) s = execReadPower die s := rfl
@[simp] theorem exec_readLog (die : Nat) (which : Nat) (index : Nat) (s : State) : exec (.readLog die which index) s = execReadLog die which index s := rfl
@[simp] theorem exec_resetDie (die : Nat) (s : State) : exec (.resetDie die) s = execResetDie die s := rfl
@[simp] theorem exec_fetchCrashRecord (die : Nat) (s : State) : exec (.fetchCrashRecord die) s = execFetchCrashRecord die s := rfl
@[simp] theorem exec_enterDebugHalt (die : Nat) (s : State) : exec (.enterDebugHalt die) s = execEnterDebugHalt die s := rfl
@[simp] theorem exec_leaveDebugHalt (die : Nat) (s : State) : exec (.leaveDebugHalt die) s = execLeaveDebugHalt die s := rfl
@[simp] theorem exec_getVersion (die : Nat) (s : State) : exec (.getVersion die) s = execGetVersion die s := rfl
@[simp] theorem exec_getCapabilities (die : Nat) (s : State) : exec (.getCapabilities die) s = execGetCapabilities die s := rfl
@[simp] theorem exec_negotiateAlgorithms (die : Nat) (s : State) : exec (.negotiateAlgorithms die) s = execNegotiateAlgorithms die s := rfl
@[simp] theorem exec_getDigests (die : Nat) (s : State) : exec (.getDigests die) s = execGetDigests die s := rfl
@[simp] theorem exec_getCertificate (die : Nat) (s : State) : exec (.getCertificate die) s = execGetCertificate die s := rfl
@[simp] theorem exec_challenge (die : Nat) (nonce : Nat) (s : State) : exec (.challenge die nonce) s = execChallenge die nonce s := rfl
@[simp] theorem exec_getMeasurements (die : Nat) (index : Nat) (s : State) : exec (.getMeasurements die index) s = execGetMeasurements die index s := rfl
@[simp] theorem exec_moduleReset (s : State) : exec (.moduleReset) s = execModuleReset s := rfl
@[simp] theorem exec_imageCheck (die : Nat) (rsa : Bool) (slh : Bool) (version : Nat) (hash : Nat) (s : State) : exec (.imageCheck die rsa slh version hash) s = execImageCheck die rsa slh version hash s := rfl
@[simp] theorem exec_memoryTraining (die : Nat) (gib : Nat) (s : State) : exec (.memoryTraining die gib) s = execMemoryTraining die gib s := rfl
@[simp] theorem exec_plateSelfTest (die : Nat) (failed : Nat) (s : State) : exec (.plateSelfTest die failed) s = execPlateSelfTest die failed s := rfl
@[simp] theorem exec_regulatorSample (die : Nat) (power : Nat) (s : State) : exec (.regulatorSample die power) s = execRegulatorSample die power s := rfl
@[simp] theorem exec_watchRecord (core : Nat) (slot : Nat) (lane : Nat) (s : State) : exec (.watchRecord core slot lane) s = execWatchRecord core slot lane s := rfl
@[simp] theorem exec_fhead (die : Nat) (val : Nat) (s : State) : exec (.fhead die val) s = execFhead die val s := rfl
@[simp] theorem exec_faultDeliveryEnable (die : Nat) (val : Nat) (s : State) : exec (.faultDeliveryEnable die val) s = execFaultDeliveryEnable die val s := rfl
@[simp] theorem exec_fedBarrierEn (die : Nat) (k : Nat) (val : Nat) (s : State) : exec (.fedBarrierEn die k val) s = execFedBarrierEn die k val s := rfl

end Sys2Proof.Machine
end

