-- ==== Sys2Proof/Laws/FMap.lean ====
section
/-! SUPPORT. What reading a finite map gives after each way of changing it. -/

set_option Elab.async false

namespace Sys2Proof.Machine

@[simp] theorem FMap.get_nil {α : Type} (k : Nat) (d : α) : FMap.get ([] : FMap α) k d = d := rfl

/-- A read after a write: the value at its own key, what stood before at any other. -/
theorem FMap.get_set {α : Type} (m : FMap α) (k j : Nat) (v d : α) :
    (m.set k v).get j d = if j = k then v else m.get j d := by
  induction m with
  | nil =>
    by_cases h : j = k
    · simp [FMap.set, FMap.get, h]
    · simp [FMap.set, FMap.get, h, Ne.symm h]
  | cons e r ih =>
    obtain ⟨i, u⟩ := e
    by_cases h1 : k < i
    · by_cases h2 : j = k
      · simp [FMap.set, FMap.get, h1, h2]
      · simp [FMap.set, FMap.get, h1, h2, Ne.symm h2]
    · by_cases h3 : i = k
      · subst h3
        by_cases h2 : j = i
        · simp [FMap.set, FMap.get, h2]
        · simp [FMap.set, FMap.get, h2, Ne.symm h2]
      · by_cases h4 : i = j
        · subst h4; simp [FMap.set, FMap.get, h1, h3]
        · simp [FMap.set, FMap.get, h1, h3, h4, ih]

@[simp] theorem FMap.get_set_self {α : Type} (m : FMap α) (k : Nat) (v d : α) : (m.set k v).get k d = v := by
  simp [FMap.get_set]

theorem FMap.get_set_ne {α : Type} (m : FMap α) (k j : Nat) (v d : α) (h : j ≠ k) : (m.set k v).get j d = m.get j d := by
  simp [FMap.get_set, h]

theorem FMap.get_upd {α : Type} (m : FMap α) (k j : Nat) (d : α) (f : α → α) :
    (m.upd k d f).get j d = if j = k then f (m.get k d) else m.get j d := by
  simp [FMap.upd, FMap.get_set]

@[simp] theorem FMap.get_upd_self {α : Type} (m : FMap α) (k : Nat) (d : α) (f : α → α) :
    (m.upd k d f).get k d = f (m.get k d) := by simp [FMap.get_upd]

theorem FMap.get_upd_ne {α : Type} (m : FMap α) (k j : Nat) (d : α) (f : α → α) (h : j ≠ k) :
    (m.upd k d f).get j d = m.get j d := by simp [FMap.get_upd, h]

/-- Two writes at one key are the later one. -/
@[simp] theorem FMap.set_set {α : Type} (m : FMap α) (k : Nat) (u v : α) : (m.set k u).set k v = m.set k v := by
  induction m with
  | nil => simp [FMap.set]
  | cons e r ih =>
    obtain ⟨i, x⟩ := e
    by_cases h1 : k < i
    · simp [FMap.set, h1]
    · by_cases h2 : i = k
      · simp [FMap.set, h2]
      · simp [FMap.set, h1, h2, ih]

@[simp] theorem FMap.upd_upd {α : Type} (m : FMap α) (k : Nat) (d : α) (f g : α → α) :
    (m.upd k d f).upd k d g = m.upd k d fun x => g (f x) := by simp [FMap.upd]

/-- A read after a key is dropped. -/
theorem FMap.get_del {α : Type} (m : FMap α) (k j : Nat) (d : α) :
    (m.del k).get j d = if j = k then d else m.get j d := by
  induction m with
  | nil => simp [FMap.del]
  | cons e r ih =>
    obtain ⟨i, u⟩ := e
    simp only [FMap.del] at ih
    by_cases h : i = k
    · subst h
      by_cases h2 : j = i
      · subst h2; simpa [FMap.del] using ih
      · simp [FMap.del, FMap.get, ih, h2, Ne.symm h2]
    · by_cases h3 : i = j
      · subst h3; simp [FMap.del, FMap.get, h]
      · simp [FMap.del, FMap.get, ih, h, h3]

/-- Which keys are listed after a write. -/
theorem FMap.has_set {α : Type} (m : FMap α) (k j : Nat) (v : α) : (m.set k v).has j = (j == k || m.has j) := by
  induction m with
  | nil => simp [FMap.set, FMap.has, Bool.beq_comm]
  | cons e r ih =>
    obtain ⟨i, u⟩ := e
    simp only [FMap.has] at ih
    by_cases h1 : k < i
    · simp [FMap.set, FMap.has, h1, BEq.comm]
    · by_cases h3 : i = k
      · subst h3; simp [FMap.set, FMap.has, BEq.comm]
      · simp [FMap.set, FMap.has, h1, h3, ih, Bool.or_left_comm]

/-- A write adds at most one entry that a test picks. -/
theorem FMap.filter_set_length {α : Type} (m : FMap α) (k : Nat) (v : α) (p : Nat × α → Bool) :
    ((m.set k v).filter p).length ≤ (m.filter p).length + 1 := by
  have one : ∀ (e : Nat × α) (l : List (Nat × α)), (l.filter p).length ≤ ((e :: l).filter p).length ∧
      ((e :: l).filter p).length ≤ (l.filter p).length + 1 := by
    intro e l
    rw [List.filter_cons]
    split <;> simp
  induction m with
  | nil => have := (one (k, v) []).2; simpa [FMap.set] using this
  | cons e r ih =>
    obtain ⟨i, u⟩ := e
    unfold FMap.set
    split
    · exact (one _ _).2
    · split
      · have h1 := (one (k, v) r).2
        have h2 := (one (i, u) r).1
        omega
      · rw [List.filter_cons, List.filter_cons]
        split
        · simpa using ih
        · exact ih

end Sys2Proof.Machine
end

