-- ==== Sys2Proof/Laws/State.lean ====
section
/-! SUPPORT. What each update of the state leaves in each field, and what the accessors read after it. -/

set_option Elab.async false

namespace Sys2Proof.Machine

/-! `State.modCore`. -/
@[simp] theorem State.modCore_rtime (s : State) (c : Nat) (f : Core → Core) : (s.modCore c f).rtime = s.rtime := rfl
@[simp] theorem State.modCore_dies (s : State) (c : Nat) (f : Core → Core) : (s.modCore c f).dies = s.dies := rfl
@[simp] theorem State.modCore_cores (s : State) (c : Nat) (f : Core → Core) : (s.modCore c f).cores = s.cores.upd c {} f := rfl
@[simp] theorem State.modCore_waves (s : State) (c : Nat) (f : Core → Core) : (s.modCore c f).waves = s.waves := rfl
@[simp] theorem State.modCore_groups (s : State) (c : Nat) (f : Core → Core) : (s.modCore c f).groups = s.groups := rfl
@[simp] theorem State.modCore_ops (s : State) (c : Nat) (f : Core → Core) : (s.modCore c f).ops = s.ops := rfl
@[simp] theorem State.modCore_mem (s : State) (c : Nat) (f : Core → Core) : (s.modCore c f).mem = s.mem := rfl
@[simp] theorem State.modCore_poison (s : State) (c : Nat) (f : Core → Core) : (s.modCore c f).poison = s.poison := rfl
@[simp] theorem State.modCore_lineKey (s : State) (c : Nat) (f : Core → Core) : (s.modCore c f).lineKey = s.lineKey := rfl
@[simp] theorem State.modCore_regions (s : State) (c : Nat) (f : Core → Core) : (s.modCore c f).regions = s.regions := rfl
@[simp] theorem State.modCore_grans (s : State) (c : Nat) (f : Core → Core) : (s.modCore c f).grans = s.grans := rfl
@[simp] theorem State.modCore_dir (s : State) (c : Nat) (f : Core → Core) : (s.modCore c f).dir = s.dir := rfl
@[simp] theorem State.modCore_copies (s : State) (c : Nat) (f : Core → Core) : (s.modCore c f).copies = s.copies := rfl
@[simp] theorem State.modCore_lreqs (s : State) (c : Nat) (f : Core → Core) : (s.modCore c f).lreqs = s.lreqs := rfl
@[simp] theorem State.modCore_silent (s : State) (c : Nat) (f : Core → Core) : (s.modCore c f).silent = s.silent := rfl
@[simp] theorem State.modCore_pkts (s : State) (c : Nat) (f : Core → Core) : (s.modCore c f).pkts = s.pkts := rfl
@[simp] theorem State.modCore_dmsgs (s : State) (c : Nat) (f : Core → Core) : (s.modCore c f).dmsgs = s.dmsgs := rfl
@[simp] theorem State.modCore_cur (s : State) (c : Nat) (f : Core → Core) : (s.modCore c f).cur = s.cur := rfl
@[simp] theorem State.modCore_agenda (s : State) (c : Nat) (f : Core → Core) : (s.modCore c f).agenda = s.agenda := rfl
@[simp] theorem State.modCore_free (s : State) (c : Nat) (f : Core → Core) : (s.modCore c f).free = s.free := rfl
@[simp] theorem State.modCore_nextId (s : State) (c : Nat) (f : Core → Core) : (s.modCore c f).nextId = s.nextId := rfl

/-! `State.modWave`. -/
@[simp] theorem State.modWave_rtime (s : State) (k : Nat) (f : Wave → Wave) : (s.modWave k f).rtime = s.rtime := rfl
@[simp] theorem State.modWave_dies (s : State) (k : Nat) (f : Wave → Wave) : (s.modWave k f).dies = s.dies := rfl
@[simp] theorem State.modWave_cores (s : State) (k : Nat) (f : Wave → Wave) : (s.modWave k f).cores = s.cores := rfl
@[simp] theorem State.modWave_waves (s : State) (k : Nat) (f : Wave → Wave) : (s.modWave k f).waves = s.waves.upd k {} f := rfl
@[simp] theorem State.modWave_groups (s : State) (k : Nat) (f : Wave → Wave) : (s.modWave k f).groups = s.groups := rfl
@[simp] theorem State.modWave_ops (s : State) (k : Nat) (f : Wave → Wave) : (s.modWave k f).ops = s.ops := rfl
@[simp] theorem State.modWave_mem (s : State) (k : Nat) (f : Wave → Wave) : (s.modWave k f).mem = s.mem := rfl
@[simp] theorem State.modWave_poison (s : State) (k : Nat) (f : Wave → Wave) : (s.modWave k f).poison = s.poison := rfl
@[simp] theorem State.modWave_lineKey (s : State) (k : Nat) (f : Wave → Wave) : (s.modWave k f).lineKey = s.lineKey := rfl
@[simp] theorem State.modWave_regions (s : State) (k : Nat) (f : Wave → Wave) : (s.modWave k f).regions = s.regions := rfl
@[simp] theorem State.modWave_grans (s : State) (k : Nat) (f : Wave → Wave) : (s.modWave k f).grans = s.grans := rfl
@[simp] theorem State.modWave_dir (s : State) (k : Nat) (f : Wave → Wave) : (s.modWave k f).dir = s.dir := rfl
@[simp] theorem State.modWave_copies (s : State) (k : Nat) (f : Wave → Wave) : (s.modWave k f).copies = s.copies := rfl
@[simp] theorem State.modWave_lreqs (s : State) (k : Nat) (f : Wave → Wave) : (s.modWave k f).lreqs = s.lreqs := rfl
@[simp] theorem State.modWave_silent (s : State) (k : Nat) (f : Wave → Wave) : (s.modWave k f).silent = s.silent := rfl
@[simp] theorem State.modWave_pkts (s : State) (k : Nat) (f : Wave → Wave) : (s.modWave k f).pkts = s.pkts := rfl
@[simp] theorem State.modWave_dmsgs (s : State) (k : Nat) (f : Wave → Wave) : (s.modWave k f).dmsgs = s.dmsgs := rfl
@[simp] theorem State.modWave_cur (s : State) (k : Nat) (f : Wave → Wave) : (s.modWave k f).cur = s.cur := rfl
@[simp] theorem State.modWave_agenda (s : State) (k : Nat) (f : Wave → Wave) : (s.modWave k f).agenda = s.agenda := rfl
@[simp] theorem State.modWave_free (s : State) (k : Nat) (f : Wave → Wave) : (s.modWave k f).free = s.free := rfl
@[simp] theorem State.modWave_nextId (s : State) (k : Nat) (f : Wave → Wave) : (s.modWave k f).nextId = s.nextId := rfl

/-! `State.modGroup`. -/
@[simp] theorem State.modGroup_rtime (s : State) (g : Nat) (f : Group → Group) : (s.modGroup g f).rtime = s.rtime := rfl
@[simp] theorem State.modGroup_dies (s : State) (g : Nat) (f : Group → Group) : (s.modGroup g f).dies = s.dies := rfl
@[simp] theorem State.modGroup_cores (s : State) (g : Nat) (f : Group → Group) : (s.modGroup g f).cores = s.cores := rfl
@[simp] theorem State.modGroup_waves (s : State) (g : Nat) (f : Group → Group) : (s.modGroup g f).waves = s.waves := rfl
@[simp] theorem State.modGroup_groups (s : State) (g : Nat) (f : Group → Group) : (s.modGroup g f).groups = s.groups.upd g {} f := rfl
@[simp] theorem State.modGroup_ops (s : State) (g : Nat) (f : Group → Group) : (s.modGroup g f).ops = s.ops := rfl
@[simp] theorem State.modGroup_mem (s : State) (g : Nat) (f : Group → Group) : (s.modGroup g f).mem = s.mem := rfl
@[simp] theorem State.modGroup_poison (s : State) (g : Nat) (f : Group → Group) : (s.modGroup g f).poison = s.poison := rfl
@[simp] theorem State.modGroup_lineKey (s : State) (g : Nat) (f : Group → Group) : (s.modGroup g f).lineKey = s.lineKey := rfl
@[simp] theorem State.modGroup_regions (s : State) (g : Nat) (f : Group → Group) : (s.modGroup g f).regions = s.regions := rfl
@[simp] theorem State.modGroup_grans (s : State) (g : Nat) (f : Group → Group) : (s.modGroup g f).grans = s.grans := rfl
@[simp] theorem State.modGroup_dir (s : State) (g : Nat) (f : Group → Group) : (s.modGroup g f).dir = s.dir := rfl
@[simp] theorem State.modGroup_copies (s : State) (g : Nat) (f : Group → Group) : (s.modGroup g f).copies = s.copies := rfl
@[simp] theorem State.modGroup_lreqs (s : State) (g : Nat) (f : Group → Group) : (s.modGroup g f).lreqs = s.lreqs := rfl
@[simp] theorem State.modGroup_silent (s : State) (g : Nat) (f : Group → Group) : (s.modGroup g f).silent = s.silent := rfl
@[simp] theorem State.modGroup_pkts (s : State) (g : Nat) (f : Group → Group) : (s.modGroup g f).pkts = s.pkts := rfl
@[simp] theorem State.modGroup_dmsgs (s : State) (g : Nat) (f : Group → Group) : (s.modGroup g f).dmsgs = s.dmsgs := rfl
@[simp] theorem State.modGroup_cur (s : State) (g : Nat) (f : Group → Group) : (s.modGroup g f).cur = s.cur := rfl
@[simp] theorem State.modGroup_agenda (s : State) (g : Nat) (f : Group → Group) : (s.modGroup g f).agenda = s.agenda := rfl
@[simp] theorem State.modGroup_free (s : State) (g : Nat) (f : Group → Group) : (s.modGroup g f).free = s.free := rfl
@[simp] theorem State.modGroup_nextId (s : State) (g : Nat) (f : Group → Group) : (s.modGroup g f).nextId = s.nextId := rfl

/-! `State.modDie`. -/
@[simp] theorem State.modDie_rtime (s : State) (d : Nat) (f : Die → Die) : (s.modDie d f).rtime = s.rtime := rfl
@[simp] theorem State.modDie_dies (s : State) (d : Nat) (f : Die → Die) : (s.modDie d f).dies = s.dies.upd d {} f := rfl
@[simp] theorem State.modDie_cores (s : State) (d : Nat) (f : Die → Die) : (s.modDie d f).cores = s.cores := rfl
@[simp] theorem State.modDie_waves (s : State) (d : Nat) (f : Die → Die) : (s.modDie d f).waves = s.waves := rfl
@[simp] theorem State.modDie_groups (s : State) (d : Nat) (f : Die → Die) : (s.modDie d f).groups = s.groups := rfl
@[simp] theorem State.modDie_ops (s : State) (d : Nat) (f : Die → Die) : (s.modDie d f).ops = s.ops := rfl
@[simp] theorem State.modDie_mem (s : State) (d : Nat) (f : Die → Die) : (s.modDie d f).mem = s.mem := rfl
@[simp] theorem State.modDie_poison (s : State) (d : Nat) (f : Die → Die) : (s.modDie d f).poison = s.poison := rfl
@[simp] theorem State.modDie_lineKey (s : State) (d : Nat) (f : Die → Die) : (s.modDie d f).lineKey = s.lineKey := rfl
@[simp] theorem State.modDie_regions (s : State) (d : Nat) (f : Die → Die) : (s.modDie d f).regions = s.regions := rfl
@[simp] theorem State.modDie_grans (s : State) (d : Nat) (f : Die → Die) : (s.modDie d f).grans = s.grans := rfl
@[simp] theorem State.modDie_dir (s : State) (d : Nat) (f : Die → Die) : (s.modDie d f).dir = s.dir := rfl
@[simp] theorem State.modDie_copies (s : State) (d : Nat) (f : Die → Die) : (s.modDie d f).copies = s.copies := rfl
@[simp] theorem State.modDie_lreqs (s : State) (d : Nat) (f : Die → Die) : (s.modDie d f).lreqs = s.lreqs := rfl
@[simp] theorem State.modDie_silent (s : State) (d : Nat) (f : Die → Die) : (s.modDie d f).silent = s.silent := rfl
@[simp] theorem State.modDie_pkts (s : State) (d : Nat) (f : Die → Die) : (s.modDie d f).pkts = s.pkts := rfl
@[simp] theorem State.modDie_dmsgs (s : State) (d : Nat) (f : Die → Die) : (s.modDie d f).dmsgs = s.dmsgs := rfl
@[simp] theorem State.modDie_cur (s : State) (d : Nat) (f : Die → Die) : (s.modDie d f).cur = s.cur := rfl
@[simp] theorem State.modDie_agenda (s : State) (d : Nat) (f : Die → Die) : (s.modDie d f).agenda = s.agenda := rfl
@[simp] theorem State.modDie_free (s : State) (d : Nat) (f : Die → Die) : (s.modDie d f).free = s.free := rfl
@[simp] theorem State.modDie_nextId (s : State) (d : Nat) (f : Die → Die) : (s.modDie d f).nextId = s.nextId := rfl

/-! `State.modCw`. -/
@[simp] theorem State.modCw_rtime (s : State) (f : Wave → Wave) : (s.modCw f).rtime = s.rtime := rfl
@[simp] theorem State.modCw_dies (s : State) (f : Wave → Wave) : (s.modCw f).dies = s.dies := rfl
@[simp] theorem State.modCw_cores (s : State) (f : Wave → Wave) : (s.modCw f).cores = s.cores := rfl
@[simp] theorem State.modCw_waves (s : State) (f : Wave → Wave) : (s.modCw f).waves = s.waves.upd s.ck {} f := rfl
@[simp] theorem State.modCw_groups (s : State) (f : Wave → Wave) : (s.modCw f).groups = s.groups := rfl
@[simp] theorem State.modCw_ops (s : State) (f : Wave → Wave) : (s.modCw f).ops = s.ops := rfl
@[simp] theorem State.modCw_mem (s : State) (f : Wave → Wave) : (s.modCw f).mem = s.mem := rfl
@[simp] theorem State.modCw_poison (s : State) (f : Wave → Wave) : (s.modCw f).poison = s.poison := rfl
@[simp] theorem State.modCw_lineKey (s : State) (f : Wave → Wave) : (s.modCw f).lineKey = s.lineKey := rfl
@[simp] theorem State.modCw_regions (s : State) (f : Wave → Wave) : (s.modCw f).regions = s.regions := rfl
@[simp] theorem State.modCw_grans (s : State) (f : Wave → Wave) : (s.modCw f).grans = s.grans := rfl
@[simp] theorem State.modCw_dir (s : State) (f : Wave → Wave) : (s.modCw f).dir = s.dir := rfl
@[simp] theorem State.modCw_copies (s : State) (f : Wave → Wave) : (s.modCw f).copies = s.copies := rfl
@[simp] theorem State.modCw_lreqs (s : State) (f : Wave → Wave) : (s.modCw f).lreqs = s.lreqs := rfl
@[simp] theorem State.modCw_silent (s : State) (f : Wave → Wave) : (s.modCw f).silent = s.silent := rfl
@[simp] theorem State.modCw_pkts (s : State) (f : Wave → Wave) : (s.modCw f).pkts = s.pkts := rfl
@[simp] theorem State.modCw_dmsgs (s : State) (f : Wave → Wave) : (s.modCw f).dmsgs = s.dmsgs := rfl
@[simp] theorem State.modCw_cur (s : State) (f : Wave → Wave) : (s.modCw f).cur = s.cur := rfl
@[simp] theorem State.modCw_agenda (s : State) (f : Wave → Wave) : (s.modCw f).agenda = s.agenda := rfl
@[simp] theorem State.modCw_free (s : State) (f : Wave → Wave) : (s.modCw f).free = s.free := rfl
@[simp] theorem State.modCw_nextId (s : State) (f : Wave → Wave) : (s.modCw f).nextId = s.nextId := rfl

/-! `State.modCg`. -/
@[simp] theorem State.modCg_rtime (s : State) (f : Group → Group) : (s.modCg f).rtime = s.rtime := rfl
@[simp] theorem State.modCg_dies (s : State) (f : Group → Group) : (s.modCg f).dies = s.dies := rfl
@[simp] theorem State.modCg_cores (s : State) (f : Group → Group) : (s.modCg f).cores = s.cores := rfl
@[simp] theorem State.modCg_waves (s : State) (f : Group → Group) : (s.modCg f).waves = s.waves := rfl
@[simp] theorem State.modCg_groups (s : State) (f : Group → Group) : (s.modCg f).groups = s.groups.upd s.cgid {} f := rfl
@[simp] theorem State.modCg_ops (s : State) (f : Group → Group) : (s.modCg f).ops = s.ops := rfl
@[simp] theorem State.modCg_mem (s : State) (f : Group → Group) : (s.modCg f).mem = s.mem := rfl
@[simp] theorem State.modCg_poison (s : State) (f : Group → Group) : (s.modCg f).poison = s.poison := rfl
@[simp] theorem State.modCg_lineKey (s : State) (f : Group → Group) : (s.modCg f).lineKey = s.lineKey := rfl
@[simp] theorem State.modCg_regions (s : State) (f : Group → Group) : (s.modCg f).regions = s.regions := rfl
@[simp] theorem State.modCg_grans (s : State) (f : Group → Group) : (s.modCg f).grans = s.grans := rfl
@[simp] theorem State.modCg_dir (s : State) (f : Group → Group) : (s.modCg f).dir = s.dir := rfl
@[simp] theorem State.modCg_copies (s : State) (f : Group → Group) : (s.modCg f).copies = s.copies := rfl
@[simp] theorem State.modCg_lreqs (s : State) (f : Group → Group) : (s.modCg f).lreqs = s.lreqs := rfl
@[simp] theorem State.modCg_silent (s : State) (f : Group → Group) : (s.modCg f).silent = s.silent := rfl
@[simp] theorem State.modCg_pkts (s : State) (f : Group → Group) : (s.modCg f).pkts = s.pkts := rfl
@[simp] theorem State.modCg_dmsgs (s : State) (f : Group → Group) : (s.modCg f).dmsgs = s.dmsgs := rfl
@[simp] theorem State.modCg_cur (s : State) (f : Group → Group) : (s.modCg f).cur = s.cur := rfl
@[simp] theorem State.modCg_agenda (s : State) (f : Group → Group) : (s.modCg f).agenda = s.agenda := rfl
@[simp] theorem State.modCg_free (s : State) (f : Group → Group) : (s.modCg f).free = s.free := rfl
@[simp] theorem State.modCg_nextId (s : State) (f : Group → Group) : (s.modCg f).nextId = s.nextId := rfl

/-! `State.modCp`. -/
@[simp] theorem State.modCp_rtime (s : State) (f : Path → Path) : (s.modCp f).rtime = s.rtime := rfl
@[simp] theorem State.modCp_dies (s : State) (f : Path → Path) : (s.modCp f).dies = s.dies := rfl
@[simp] theorem State.modCp_cores (s : State) (f : Path → Path) : (s.modCp f).cores = s.cores := rfl
@[simp] theorem State.modCp_waves (s : State) (f : Path → Path) : (s.modCp f).waves = s.waves.upd s.ck {} fun w => w.modPath f := rfl
@[simp] theorem State.modCp_groups (s : State) (f : Path → Path) : (s.modCp f).groups = s.groups := rfl
@[simp] theorem State.modCp_ops (s : State) (f : Path → Path) : (s.modCp f).ops = s.ops := rfl
@[simp] theorem State.modCp_mem (s : State) (f : Path → Path) : (s.modCp f).mem = s.mem := rfl
@[simp] theorem State.modCp_poison (s : State) (f : Path → Path) : (s.modCp f).poison = s.poison := rfl
@[simp] theorem State.modCp_lineKey (s : State) (f : Path → Path) : (s.modCp f).lineKey = s.lineKey := rfl
@[simp] theorem State.modCp_regions (s : State) (f : Path → Path) : (s.modCp f).regions = s.regions := rfl
@[simp] theorem State.modCp_grans (s : State) (f : Path → Path) : (s.modCp f).grans = s.grans := rfl
@[simp] theorem State.modCp_dir (s : State) (f : Path → Path) : (s.modCp f).dir = s.dir := rfl
@[simp] theorem State.modCp_copies (s : State) (f : Path → Path) : (s.modCp f).copies = s.copies := rfl
@[simp] theorem State.modCp_lreqs (s : State) (f : Path → Path) : (s.modCp f).lreqs = s.lreqs := rfl
@[simp] theorem State.modCp_silent (s : State) (f : Path → Path) : (s.modCp f).silent = s.silent := rfl
@[simp] theorem State.modCp_pkts (s : State) (f : Path → Path) : (s.modCp f).pkts = s.pkts := rfl
@[simp] theorem State.modCp_dmsgs (s : State) (f : Path → Path) : (s.modCp f).dmsgs = s.dmsgs := rfl
@[simp] theorem State.modCp_cur (s : State) (f : Path → Path) : (s.modCp f).cur = s.cur := rfl
@[simp] theorem State.modCp_agenda (s : State) (f : Path → Path) : (s.modCp f).agenda = s.agenda := rfl
@[simp] theorem State.modCp_free (s : State) (f : Path → Path) : (s.modCp f).free = s.free := rfl
@[simp] theorem State.modCp_nextId (s : State) (f : Path → Path) : (s.modCp f).nextId = s.nextId := rfl

/-! `State.modLaunch`. -/
@[simp] theorem State.modLaunch_rtime (s : State) (d k : Nat) (f : Launch → Launch) : (s.modLaunch d k f).rtime = s.rtime := rfl
@[simp] theorem State.modLaunch_dies (s : State) (d k : Nat) (f : Launch → Launch) : (s.modLaunch d k f).dies = s.dies.upd d {} fun x => { x with launches := x.launches.upd k {} f } := rfl
@[simp] theorem State.modLaunch_cores (s : State) (d k : Nat) (f : Launch → Launch) : (s.modLaunch d k f).cores = s.cores := rfl
@[simp] theorem State.modLaunch_waves (s : State) (d k : Nat) (f : Launch → Launch) : (s.modLaunch d k f).waves = s.waves := rfl
@[simp] theorem State.modLaunch_groups (s : State) (d k : Nat) (f : Launch → Launch) : (s.modLaunch d k f).groups = s.groups := rfl
@[simp] theorem State.modLaunch_ops (s : State) (d k : Nat) (f : Launch → Launch) : (s.modLaunch d k f).ops = s.ops := rfl
@[simp] theorem State.modLaunch_mem (s : State) (d k : Nat) (f : Launch → Launch) : (s.modLaunch d k f).mem = s.mem := rfl
@[simp] theorem State.modLaunch_poison (s : State) (d k : Nat) (f : Launch → Launch) : (s.modLaunch d k f).poison = s.poison := rfl
@[simp] theorem State.modLaunch_lineKey (s : State) (d k : Nat) (f : Launch → Launch) : (s.modLaunch d k f).lineKey = s.lineKey := rfl
@[simp] theorem State.modLaunch_regions (s : State) (d k : Nat) (f : Launch → Launch) : (s.modLaunch d k f).regions = s.regions := rfl
@[simp] theorem State.modLaunch_grans (s : State) (d k : Nat) (f : Launch → Launch) : (s.modLaunch d k f).grans = s.grans := rfl
@[simp] theorem State.modLaunch_dir (s : State) (d k : Nat) (f : Launch → Launch) : (s.modLaunch d k f).dir = s.dir := rfl
@[simp] theorem State.modLaunch_copies (s : State) (d k : Nat) (f : Launch → Launch) : (s.modLaunch d k f).copies = s.copies := rfl
@[simp] theorem State.modLaunch_lreqs (s : State) (d k : Nat) (f : Launch → Launch) : (s.modLaunch d k f).lreqs = s.lreqs := rfl
@[simp] theorem State.modLaunch_silent (s : State) (d k : Nat) (f : Launch → Launch) : (s.modLaunch d k f).silent = s.silent := rfl
@[simp] theorem State.modLaunch_pkts (s : State) (d k : Nat) (f : Launch → Launch) : (s.modLaunch d k f).pkts = s.pkts := rfl
@[simp] theorem State.modLaunch_dmsgs (s : State) (d k : Nat) (f : Launch → Launch) : (s.modLaunch d k f).dmsgs = s.dmsgs := rfl
@[simp] theorem State.modLaunch_cur (s : State) (d k : Nat) (f : Launch → Launch) : (s.modLaunch d k f).cur = s.cur := rfl
@[simp] theorem State.modLaunch_agenda (s : State) (d k : Nat) (f : Launch → Launch) : (s.modLaunch d k f).agenda = s.agenda := rfl
@[simp] theorem State.modLaunch_free (s : State) (d k : Nat) (f : Launch → Launch) : (s.modLaunch d k f).free = s.free := rfl
@[simp] theorem State.modLaunch_nextId (s : State) (d k : Nat) (f : Launch → Launch) : (s.modLaunch d k f).nextId = s.nextId := rfl

/-! `State.choose`. -/
@[simp] theorem State.choose_rtime (s : State) : s.choose.2.rtime = s.rtime := rfl
@[simp] theorem State.choose_dies (s : State) : s.choose.2.dies = s.dies := rfl
@[simp] theorem State.choose_cores (s : State) : s.choose.2.cores = s.cores := rfl
@[simp] theorem State.choose_waves (s : State) : s.choose.2.waves = s.waves := rfl
@[simp] theorem State.choose_groups (s : State) : s.choose.2.groups = s.groups := rfl
@[simp] theorem State.choose_ops (s : State) : s.choose.2.ops = s.ops := rfl
@[simp] theorem State.choose_mem (s : State) : s.choose.2.mem = s.mem := rfl
@[simp] theorem State.choose_poison (s : State) : s.choose.2.poison = s.poison := rfl
@[simp] theorem State.choose_lineKey (s : State) : s.choose.2.lineKey = s.lineKey := rfl
@[simp] theorem State.choose_regions (s : State) : s.choose.2.regions = s.regions := rfl
@[simp] theorem State.choose_grans (s : State) : s.choose.2.grans = s.grans := rfl
@[simp] theorem State.choose_dir (s : State) : s.choose.2.dir = s.dir := rfl
@[simp] theorem State.choose_copies (s : State) : s.choose.2.copies = s.copies := rfl
@[simp] theorem State.choose_lreqs (s : State) : s.choose.2.lreqs = s.lreqs := rfl
@[simp] theorem State.choose_silent (s : State) : s.choose.2.silent = s.silent := rfl
@[simp] theorem State.choose_pkts (s : State) : s.choose.2.pkts = s.pkts := rfl
@[simp] theorem State.choose_dmsgs (s : State) : s.choose.2.dmsgs = s.dmsgs := rfl
@[simp] theorem State.choose_cur (s : State) : s.choose.2.cur = s.cur := rfl
@[simp] theorem State.choose_agenda (s : State) : s.choose.2.agenda = s.agenda := rfl
@[simp] theorem State.choose_free (s : State) : s.choose.2.free = s.free + 1 := rfl
@[simp] theorem State.choose_nextId (s : State) : s.choose.2.nextId = s.nextId := rfl

/-! Accessors after updates. -/
@[simp] theorem State.core_modWave (s : State) (k : Nat) (f : Wave → Wave) (j : Nat) : (s.modWave k f).core j = s.core j := rfl
@[simp] theorem State.core_modGroup (s : State) (g : Nat) (f : Group → Group) (j : Nat) : (s.modGroup g f).core j = s.core j := rfl
@[simp] theorem State.core_modDie (s : State) (d : Nat) (f : Die → Die) (j : Nat) : (s.modDie d f).core j = s.core j := rfl
@[simp] theorem State.core_modCw (s : State) (f : Wave → Wave) (j : Nat) : (s.modCw f).core j = s.core j := rfl
@[simp] theorem State.core_modCg (s : State) (f : Group → Group) (j : Nat) : (s.modCg f).core j = s.core j := rfl
@[simp] theorem State.core_modCp (s : State) (f : Path → Path) (j : Nat) : (s.modCp f).core j = s.core j := rfl
@[simp] theorem State.core_modLaunch (s : State) (d k : Nat) (f : Launch → Launch) (j : Nat) : (s.modLaunch d k f).core j = s.core j := rfl
@[simp] theorem State.core_choose (s : State) (j : Nat) : s.choose.2.core j = s.core j := rfl
theorem State.core_modCore (s : State) (c : Nat) (f : Core → Core) (j : Nat) : (s.modCore c f).core j = if j = c then f (s.core c) else s.core j :=
  FMap.get_upd ..
@[simp] theorem State.core_modCore_self (s : State) (c : Nat) (f : Core → Core) : (s.modCore c f).core c = f (s.core c) := FMap.get_upd_self ..
theorem State.core_modCore_ne (s : State) (c : Nat) (f : Core → Core) (j : Nat) (h : j ≠ c) : (s.modCore c f).core j = s.core j := FMap.get_upd_ne _ _ _ _ _ h
@[simp] theorem State.wave_modCore (s : State) (c : Nat) (f : Core → Core) (j : Nat) : (s.modCore c f).wave j = s.wave j := rfl
@[simp] theorem State.wave_modGroup (s : State) (g : Nat) (f : Group → Group) (j : Nat) : (s.modGroup g f).wave j = s.wave j := rfl
@[simp] theorem State.wave_modDie (s : State) (d : Nat) (f : Die → Die) (j : Nat) : (s.modDie d f).wave j = s.wave j := rfl
@[simp] theorem State.wave_modCg (s : State) (f : Group → Group) (j : Nat) : (s.modCg f).wave j = s.wave j := rfl
@[simp] theorem State.wave_modLaunch (s : State) (d k : Nat) (f : Launch → Launch) (j : Nat) : (s.modLaunch d k f).wave j = s.wave j := rfl
@[simp] theorem State.wave_choose (s : State) (j : Nat) : s.choose.2.wave j = s.wave j := rfl
theorem State.wave_modWave (s : State) (k : Nat) (f : Wave → Wave) (j : Nat) : (s.modWave k f).wave j = if j = k then f (s.wave k) else s.wave j :=
  FMap.get_upd ..
@[simp] theorem State.wave_modWave_self (s : State) (k : Nat) (f : Wave → Wave) : (s.modWave k f).wave k = f (s.wave k) := FMap.get_upd_self ..
theorem State.wave_modWave_ne (s : State) (k : Nat) (f : Wave → Wave) (j : Nat) (h : j ≠ k) : (s.modWave k f).wave j = s.wave j := FMap.get_upd_ne _ _ _ _ _ h
@[simp] theorem State.group_modCore (s : State) (c : Nat) (f : Core → Core) (j : Nat) : (s.modCore c f).group j = s.group j := rfl
@[simp] theorem State.group_modWave (s : State) (k : Nat) (f : Wave → Wave) (j : Nat) : (s.modWave k f).group j = s.group j := rfl
@[simp] theorem State.group_modDie (s : State) (d : Nat) (f : Die → Die) (j : Nat) : (s.modDie d f).group j = s.group j := rfl
@[simp] theorem State.group_modCw (s : State) (f : Wave → Wave) (j : Nat) : (s.modCw f).group j = s.group j := rfl
@[simp] theorem State.group_modCp (s : State) (f : Path → Path) (j : Nat) : (s.modCp f).group j = s.group j := rfl
@[simp] theorem State.group_modLaunch (s : State) (d k : Nat) (f : Launch → Launch) (j : Nat) : (s.modLaunch d k f).group j = s.group j := rfl
@[simp] theorem State.group_choose (s : State) (j : Nat) : s.choose.2.group j = s.group j := rfl
theorem State.group_modGroup (s : State) (g : Nat) (f : Group → Group) (j : Nat) : (s.modGroup g f).group j = if j = g then f (s.group g) else s.group j :=
  FMap.get_upd ..
@[simp] theorem State.group_modGroup_self (s : State) (g : Nat) (f : Group → Group) : (s.modGroup g f).group g = f (s.group g) := FMap.get_upd_self ..
theorem State.group_modGroup_ne (s : State) (g : Nat) (f : Group → Group) (j : Nat) (h : j ≠ g) : (s.modGroup g f).group j = s.group j := FMap.get_upd_ne _ _ _ _ _ h
@[simp] theorem State.die_modCore (s : State) (c : Nat) (f : Core → Core) (j : Nat) : (s.modCore c f).die j = s.die j := rfl
@[simp] theorem State.die_modWave (s : State) (k : Nat) (f : Wave → Wave) (j : Nat) : (s.modWave k f).die j = s.die j := rfl
@[simp] theorem State.die_modGroup (s : State) (g : Nat) (f : Group → Group) (j : Nat) : (s.modGroup g f).die j = s.die j := rfl
@[simp] theorem State.die_modCw (s : State) (f : Wave → Wave) (j : Nat) : (s.modCw f).die j = s.die j := rfl
@[simp] theorem State.die_modCg (s : State) (f : Group → Group) (j : Nat) : (s.modCg f).die j = s.die j := rfl
@[simp] theorem State.die_modCp (s : State) (f : Path → Path) (j : Nat) : (s.modCp f).die j = s.die j := rfl
@[simp] theorem State.die_choose (s : State) (j : Nat) : s.choose.2.die j = s.die j := rfl
theorem State.die_modDie (s : State) (d : Nat) (f : Die → Die) (j : Nat) : (s.modDie d f).die j = if j = d then f (s.die d) else s.die j :=
  FMap.get_upd ..
@[simp] theorem State.die_modDie_self (s : State) (d : Nat) (f : Die → Die) : (s.modDie d f).die d = f (s.die d) := FMap.get_upd_self ..
theorem State.die_modDie_ne (s : State) (d : Nat) (f : Die → Die) (j : Nat) (h : j ≠ d) : (s.modDie d f).die j = s.die j := FMap.get_upd_ne _ _ _ _ _ h
@[simp] theorem State.group_modCg_self (s : State) (f : Group → Group) : (s.modCg f).group s.cgid = f s.cg := FMap.get_upd_self ..
@[simp] theorem State.wave_modCw_self (s : State) (f : Wave → Wave) : (s.modCw f).wave s.ck = f s.cw := FMap.get_upd_self ..
theorem State.wave_modCw_ne (s : State) (f : Wave → Wave) (j : Nat) (h : j ≠ s.ck) : (s.modCw f).wave j = s.wave j :=
  FMap.get_upd_ne _ _ _ _ _ h
theorem State.wave_modCp_ne (s : State) (f : Path → Path) (j : Nat) (h : j ≠ s.ck) : (s.modCp f).wave j = s.wave j :=
  s.wave_modCw_ne _ j h

/-! Updates of one object after one another. -/

@[simp] theorem State.modCw_modCw (s : State) (f g : Wave → Wave) : (s.modCw f).modCw g = s.modCw fun w => g (f w) := by
  show ({ s with waves := (s.waves.upd s.ck {} f).upd s.ck {} g } : State) = _
  rw [FMap.upd_upd]; rfl

/-! The current wave, group and path. -/

@[simp] theorem State.ck_modCw (s : State) (f : Wave → Wave) : (s.modCw f).ck = s.ck := rfl
@[simp] theorem State.ck_modCp (s : State) (f : Path → Path) : (s.modCp f).ck = s.ck := rfl
@[simp] theorem State.cw_modCw (s : State) (f : Wave → Wave) : (s.modCw f).cw = f s.cw := s.wave_modCw_self f
@[simp] theorem State.cw_modCp (s : State) (f : Path → Path) : (s.modCp f).cw = s.cw.modPath f := s.wave_modCw_self _
@[simp] theorem State.ck_modCore (s : State) (c : Nat) (f : Core → Core) : (s.modCore c f).ck = s.ck := rfl
@[simp] theorem State.cw_modCore (s : State) (c : Nat) (f : Core → Core) : (s.modCore c f).cw = s.cw := rfl
@[simp] theorem State.cgid_modCore (s : State) (c : Nat) (f : Core → Core) : (s.modCore c f).cgid = s.cgid := rfl
@[simp] theorem State.cp_modCore (s : State) (c : Nat) (f : Core → Core) : (s.modCore c f).cp = s.cp := rfl
@[simp] theorem State.memb_modCore (s : State) (c : Nat) (f : Core → Core) : (s.modCore c f).memb = s.memb := rfl
@[simp] theorem State.ck_modGroup (s : State) (g : Nat) (f : Group → Group) : (s.modGroup g f).ck = s.ck := rfl
@[simp] theorem State.cw_modGroup (s : State) (g : Nat) (f : Group → Group) : (s.modGroup g f).cw = s.cw := rfl
@[simp] theorem State.cgid_modGroup (s : State) (g : Nat) (f : Group → Group) : (s.modGroup g f).cgid = s.cgid := rfl
@[simp] theorem State.cp_modGroup (s : State) (g : Nat) (f : Group → Group) : (s.modGroup g f).cp = s.cp := rfl
@[simp] theorem State.memb_modGroup (s : State) (g : Nat) (f : Group → Group) : (s.modGroup g f).memb = s.memb := rfl
@[simp] theorem State.ck_modDie (s : State) (d : Nat) (f : Die → Die) : (s.modDie d f).ck = s.ck := rfl
@[simp] theorem State.cw_modDie (s : State) (d : Nat) (f : Die → Die) : (s.modDie d f).cw = s.cw := rfl
@[simp] theorem State.cgid_modDie (s : State) (d : Nat) (f : Die → Die) : (s.modDie d f).cgid = s.cgid := rfl
@[simp] theorem State.cp_modDie (s : State) (d : Nat) (f : Die → Die) : (s.modDie d f).cp = s.cp := rfl
@[simp] theorem State.memb_modDie (s : State) (d : Nat) (f : Die → Die) : (s.modDie d f).memb = s.memb := rfl
@[simp] theorem State.ck_modCg (s : State) (f : Group → Group) : (s.modCg f).ck = s.ck := rfl
@[simp] theorem State.cw_modCg (s : State) (f : Group → Group) : (s.modCg f).cw = s.cw := rfl
@[simp] theorem State.cgid_modCg (s : State) (f : Group → Group) : (s.modCg f).cgid = s.cgid := rfl
@[simp] theorem State.cp_modCg (s : State) (f : Group → Group) : (s.modCg f).cp = s.cp := rfl
@[simp] theorem State.memb_modCg (s : State) (f : Group → Group) : (s.modCg f).memb = s.memb := rfl
@[simp] theorem State.ck_modLaunch (s : State) (d k : Nat) (f : Launch → Launch) : (s.modLaunch d k f).ck = s.ck := rfl
@[simp] theorem State.cw_modLaunch (s : State) (d k : Nat) (f : Launch → Launch) : (s.modLaunch d k f).cw = s.cw := rfl
@[simp] theorem State.cgid_modLaunch (s : State) (d k : Nat) (f : Launch → Launch) : (s.modLaunch d k f).cgid = s.cgid := rfl
@[simp] theorem State.cp_modLaunch (s : State) (d k : Nat) (f : Launch → Launch) : (s.modLaunch d k f).cp = s.cp := rfl
@[simp] theorem State.memb_modLaunch (s : State) (d k : Nat) (f : Launch → Launch) : (s.modLaunch d k f).memb = s.memb := rfl
@[simp] theorem State.ck_choose (s : State) : s.choose.2.ck = s.ck := rfl
@[simp] theorem State.cw_choose (s : State) : s.choose.2.cw = s.cw := rfl
@[simp] theorem State.cgid_choose (s : State) : s.choose.2.cgid = s.cgid := rfl
@[simp] theorem State.cg_choose (s : State) : s.choose.2.cg = s.cg := rfl
@[simp] theorem State.cp_choose (s : State) : s.choose.2.cp = s.cp := rfl
@[simp] theorem State.memb_choose (s : State) : s.choose.2.memb = s.memb := rfl
@[simp] theorem State.cg_modCore (s : State) (c : Nat) (f : Core → Core) : (s.modCore c f).cg = s.cg := rfl
@[simp] theorem State.cg_modDie (s : State) (d : Nat) (f : Die → Die) : (s.modDie d f).cg = s.cg := rfl
@[simp] theorem State.cg_modCg (s : State) (f : Group → Group) : (s.modCg f).cg = f s.cg := s.group_modCg_self f

/-! The fields of a wave after its first path is changed. -/

@[simp] theorem Wave.modPath_gid (w : Wave) (f : Path → Path) : (w.modPath f).gid = w.gid := rfl
@[simp] theorem Wave.modPath_wix (w : Wave) (f : Path → Path) : (w.modPath f).wix = w.wix := rfl
@[simp] theorem Wave.modPath_launched (w : Wave) (f : Path → Path) : (w.modPath f).launched = w.launched := rfl
@[simp] theorem Wave.modPath_exited (w : Wave) (f : Path → Path) : (w.modPath f).exited = w.exited := rfl
@[simp] theorem Wave.modPath_seed (w : Wave) (f : Path → Path) : (w.modPath f).seed = w.seed := rfl
@[simp] theorem Wave.modPath_main (w : Wave) (f : Path → Path) : (w.modPath f).main = w.main := rfl
@[simp] theorem Wave.modPath_opf (w : Wave) (f : Path → Path) : (w.modPath f).opf = w.opf := rfl
@[simp] theorem Wave.modPath_lastq (w : Wave) (f : Path → Path) : (w.modPath f).lastq = w.lastq := rfl
@[simp] theorem Wave.modPath_sregs (w : Wave) (f : Path → Path) : (w.modPath f).sregs = w.sregs := rfl
@[simp] theorem Wave.modPath_xstat (w : Wave) (f : Path → Path) : (w.modPath f).xstat = w.xstat := rfl
@[simp] theorem Wave.modPath_fpmode (w : Wave) (f : Path → Path) : (w.modPath f).fpmode = w.fpmode := rfl
@[simp] theorem Wave.modPath_fpstat (w : Wave) (f : Path → Path) : (w.modPath f).fpstat = w.fpstat := rfl
@[simp] theorem Wave.modPath_wbase (w : Wave) (f : Path → Path) : (w.modPath f).wbase = w.wbase := rfl
@[simp] theorem Wave.modPath_cbase (w : Wave) (f : Path → Path) : (w.modPath f).cbase = w.cbase := rfl
@[simp] theorem Wave.modPath_mwtime (w : Wave) (f : Path → Path) : (w.modPath f).mwtime = w.mwtime := rfl
@[simp] theorem Wave.modPath_flags (w : Wave) (f : Path → Path) : (w.modPath f).flags = w.flags := rfl
@[simp] theorem Wave.modPath_rbs (w : Wave) (f : Path → Path) : (w.modPath f).rbs = w.rbs := rfl
@[simp] theorem Wave.modPath_mons (w : Wave) (f : Path → Path) : (w.modPath f).mons = w.mons := rfl
@[simp] theorem Wave.modPath_lastIssue (w : Wave) (f : Path → Path) : (w.modPath f).lastIssue = w.lastIssue := rfl
@[simp] theorem Wave.modPath_skid (w : Wave) (f : Path → Path) : (w.modPath f).skid = w.skid := rfl
@[simp] theorem Wave.modPath_stopped (w : Wave) (f : Path → Path) : (w.modPath f).stopped = w.stopped := rfl
@[simp] theorem Wave.modPath_skidAc (w : Wave) (f : Path → Path) : (w.modPath f).skidAc = w.skidAc := rfl
@[simp] theorem Wave.modPath_saved (w : Wave) (f : Path → Path) : (w.modPath f).saved = w.saved := rfl

theorem Wave.modPath_paths (w : Wave) (f : Path → Path) :
    (w.modPath f).paths = match w.paths with | [] => [] | p :: r => f p :: r := rfl

end Sys2Proof.Machine
end

