-- ==== Sys2Proof/Laws/Events.lean ====
section
/-! SUPPORT. What the updates of the operations in flight leave, for the events. -/

set_option Elab.async false

namespace Sys2Proof.Machine

theorem State.opAt_id {s : State} {id : Nat} {o : MemOp} (h : s.opAt id = some o) : o.id = id := by
  have := List.find?_some h
  simpa using this

theorem State.opAt_mem {s : State} {id : Nat} {o : MemOp} (h : s.opAt id = some o) : o ∈ s.ops := List.mem_of_find?_eq_some h

theorem State.opAt_modOp (s : State) (id k : Nat) (f : MemOp → MemOp) (hf : ∀ o, (f o).id = o.id) :
    (s.modOp id f).opAt k = (s.opAt k).map fun o => if k = id then f o else o := by
  unfold State.opAt State.modOp
  induction s.ops with
  | nil => rfl
  | cons o r ih =>
    rw [List.map_cons, List.find?_cons, List.find?_cons]
    have h1 : (if o.id = id then f o else o).id = o.id := by split <;> simp [hf]
    rw [h1]
    by_cases h : o.id = k
    · subst h; simp
    · have : (o.id == k) = false := by simpa using h
      rw [this]; exact ih

theorem State.opAt_modAccs (s : State) (id k : Nat) (p : Acc → Bool) (f : Acc → Acc) :
    (s.modAccs id p f).opAt k =
      (s.opAt k).map fun o => if k = id then { o with accs := o.accs.map fun a => if p a then f a else a } else o :=
  s.opAt_modOp id k _ fun _ => rfl

theorem State.opAt_dropOp (s : State) (id k : Nat) : (s.dropOp id).opAt k = if k = id then none else s.opAt k := by
  unfold State.opAt State.dropOp
  induction s.ops with
  | nil => simp
  | cons o r ih =>
    rw [List.filter_cons]
    by_cases h : o.id = id
    · subst h
      simp only [bne_self_eq_false, Bool.false_eq_true, ↓reduceIte, List.find?_cons]
      by_cases hk : k = o.id
      · subst hk; simp only [if_true] at ih ⊢; exact ih
      · have h2 : (o.id == k) = false := by simpa using Ne.symm hk
        rw [h2]; simpa [hk] using ih
    · have h1 : (o.id != id) = true := by simpa using h
      rw [if_pos h1, List.find?_cons, List.find?_cons]
      by_cases hk : o.id = k
      · subst hk; simp [h]
      · have h2 : (o.id == k) = false := by simpa using hk
        rw [h2]; exact ih

/-- A flagless word that is over is dropped; no other operation is touched. -/
theorem State.opAt_overOp (s : State) (id k : Nat) (h : k ≠ id) : (s.overOp id).opAt k = s.opAt k := by
  unfold State.overOp
  split
  · split
    · rw [State.opAt_dropOp, if_neg h]
    · rfl
  · rfl

theorem State.overOp_cases (s : State) (id : Nat) : s.overOp id = s ∨ s.overOp id = s.dropOp id := by
  unfold State.overOp
  split
  · split
    · exact .inr rfl
    · exact .inl rfl
  · exact .inl rfl

end Sys2Proof.Machine
end

