-- ==== Sys2Proof/Laws/Memory.lean ====
section
/-! SUPPORT. Memory: every operation keeps the canonical form, and what a read gives after a write (R4; log 3). -/

set_option Elab.async false

namespace Sys2Proof.Machine

/-- No cell stands below an address. -/
def Mem.above (m : List Host.Cell) (a : Nat) : Prop := ∀ c ∈ m, a < c.1

theorem Memory.wf_cons {a : Nat} {b : Byte} {r : List Host.Cell} :
    Memory.wf ((a, b) :: r) = true ↔ b ≠ 0 ∧ Mem.above r a ∧ Memory.wf r = true := by
  induction r generalizing a b with
  | nil => simp [Memory.wf, Mem.above]
  | cons c r ih =>
    obtain ⟨c, d⟩ := c
    rw [Memory.wf, Bool.and_eq_true, Bool.and_eq_true, ih]
    simp only [bne_iff_ne, ne_eq, decide_eq_true_eq]
    constructor
    · rintro ⟨⟨hb, hac⟩, hd, hr, hw⟩
      refine ⟨hb, ?_, hd, hr, hw⟩
      intro x hx
      rcases List.mem_cons.1 hx with rfl | hx
      · exact hac
      · exact Nat.lt_trans hac (hr x hx)
    · rintro ⟨hb, ha, hd, hr, hw⟩
      exact ⟨⟨hb, ha (c, d) (List.mem_cons_self ..)⟩, hd, hr, hw⟩

/-- A read of an address below every cell. -/
theorem Mem.get_above {m : List Host.Cell} {a x : Nat} (h : Mem.above m a) (hx : x ≤ a) : Mem.get m x = 0 := by
  cases m with
  | nil => rfl
  | cons c r =>
    have := h c (List.mem_cons_self ..)
    have h1 : c.1 ≠ x := by omega
    have h2 : x < c.1 := by omega
    obtain ⟨j, v⟩ := c
    simp_all [Mem.get]

/-- The cells of a memory after one byte is written. -/
theorem Mem.above_put {m : List Host.Cell} {a x : Nat} {b : Byte} (h : Mem.above m x) (hx : x < a) : Mem.above (Mem.put m a b) x := by
  induction m with
  | nil =>
    intro c hc
    by_cases hb : b = 0#8
    · simp [Mem.put, hb] at hc
    · simp [Mem.put, hb] at hc
      rw [hc]; exact hx
  | cons e r ih =>
    obtain ⟨j, v⟩ := e
    have hj : x < j := h (j, v) (List.mem_cons_self ..)
    have hr : Mem.above r x := fun c hc => h c (List.mem_cons_of_mem _ hc)
    intro c hc
    unfold Mem.put at hc
    split at hc
    · split at hc
      · exact h c hc
      · rcases List.mem_cons.1 hc with rfl | hc
        · exact hx
        · exact h c hc
    · split at hc
      · split at hc
        · exact hr c hc
        · rcases List.mem_cons.1 hc with rfl | hc
          · exact hx
          · exact hr c hc
      · rcases List.mem_cons.1 hc with rfl | hc
        · exact hj
        · exact ih hr c hc

/-- Writing one byte keeps the canonical form. -/
theorem Mem.put_wf {m : List Host.Cell} (a : Nat) (b : Byte) (h : Memory.wf m = true) : Memory.wf (Mem.put m a b) = true := by
  induction m with
  | nil => by_cases hb : b = 0#8 <;> simp [Mem.put, Memory.wf, hb]
  | cons e r ih =>
    obtain ⟨j, v⟩ := e
    obtain ⟨hv, ha, hw⟩ := Memory.wf_cons.1 h
    unfold Mem.put
    split
    · split
      · exact h
      · next hj hb =>
        refine Memory.wf_cons.2 ⟨hb, ?_, h⟩
        intro c hc
        rcases List.mem_cons.1 hc with rfl | hc
        · exact hj
        · exact Nat.lt_trans hj (ha c hc)
    · split
      · next hja =>
        subst hja
        split
        · exact hw
        · next hb => exact Memory.wf_cons.2 ⟨hb, ha, hw⟩
      · next h1 h2 => exact Memory.wf_cons.2 ⟨hv, Mem.above_put ha (by omega), ih hw⟩

/-- A read after one byte is written. -/
theorem Mem.get_put {m : List Host.Cell} (a x : Nat) (b : Byte) (h : Memory.wf m = true) :
    Mem.get (Mem.put m a b) x = if x = a then b else Mem.get m x := by
  induction m with
  | nil =>
    by_cases hb : b = 0#8
    · simp [Mem.put, Mem.get, hb]
    · by_cases hx : x = a
      · simp [Mem.put, Mem.get, hb, hx]
      · have : a ≠ x := Ne.symm hx
        simp [Mem.put, Mem.get, hb, hx, this]
  | cons e r ih =>
    obtain ⟨j, v⟩ := e
    obtain ⟨hv, ha, hw⟩ := Memory.wf_cons.1 h
    have hlow : ∀ y, y ≤ j → Mem.get r y = 0 := fun y hy => Mem.get_above ha hy
    by_cases h1 : a < j
    · by_cases hb : b = 0#8
      · by_cases hx : x = a
        · subst hx
          have h2 : j ≠ x := by omega
          simp [Mem.put, Mem.get, h1, hb, h2]
        · simp [Mem.put, h1, hb, hx]
      · by_cases hx : x = a
        · simp [Mem.put, Mem.get, h1, hb, hx]
        · have h2 : a ≠ x := Ne.symm hx
          by_cases h3 : x < a
          · have h4 : j ≠ x := by omega
            have h5 : x < j := by omega
            simp [Mem.put, Mem.get, h1, hb, hx, h2, h3, h4, h5]
          · simp [Mem.put, Mem.get, h1, hb, hx, h2, h3]
    · by_cases h2 : j = a
      · subst h2
        by_cases hb : b = 0#8
        · by_cases hx : x = j
          · subst hx; simp [Mem.put, Mem.get, hb, hlow]
          · by_cases h3 : x < j
            · simp [Mem.put, Mem.get, hb, hx, Ne.symm hx, h3, hlow x (by omega)]
            · simp [Mem.put, Mem.get, hb, hx, Ne.symm hx, h3]
        · by_cases hx : x = j
          · simp [Mem.put, Mem.get, hb, hx]
          · simp [Mem.put, Mem.get, hb, hx, Ne.symm hx]
      · by_cases hx : j = x
        · subst hx
          have : j ≠ a := h2
          simp [Mem.put, Mem.get, h1, h2]
        · by_cases h3 : x < j
          · have h4 : x ≠ a := by omega
            simp [Mem.put, Mem.get, h1, h2, hx, h3, h4]
          · simp [Mem.put, Mem.get, h1, h2, hx, h3, ih hw]

/-- A write of several bytes keeps the canonical form. -/
theorem Mem.store_wf {m : List Host.Cell} (a n v : Nat) (h : Memory.wf m = true) : Memory.wf (Mem.store m a n v) = true := by
  induction n generalizing m a v with
  | zero => exact h
  | succ n ih => exact ih _ _ (Mem.put_wf _ _ h)

/-- Any run of byte writes keeps the canonical form. -/
theorem Mem.puts_wf {α : Type} (l : List α) (a : α → Nat) (b : List Host.Cell → α → Byte) {m : List Host.Cell}
    (h : Memory.wf m = true) : Memory.wf (l.foldl (fun m i => Mem.put m (a i) (b m i)) m) = true := by
  induction l generalizing m with
  | nil => exact h
  | cons x l ih => exact ih (Mem.put_wf _ _ h)

/-- A read of one byte after a write of several: the byte of the value within it, what stood before outside. -/
theorem Mem.get_store {m : List Host.Cell} (a n v x : Nat) (h : Memory.wf m = true) :
    Mem.get (Mem.store m a n v) x = if a ≤ x ∧ x < a + n then BitVec.ofNat 8 (v / 256 ^ (x - a)) else Mem.get m x := by
  induction n generalizing m a v with
  | zero =>
    have : ¬(a ≤ x ∧ x < a + 0) := by omega
    simp only [Mem.store, this, if_false]
  | succ n ih =>
    rw [Mem.store, ih _ _ (Mem.put_wf _ _ h), Mem.get_put _ _ _ h]
    by_cases h1 : x = a
    · subst h1
      have h2 : ¬(x + 1 ≤ x ∧ x < x + 1 + n) := by omega
      have h3 : x ≤ x ∧ x < x + (n + 1) := by omega
      simp [h2, h3]
    · by_cases h2 : a + 1 ≤ x ∧ x < a + 1 + n
      · have h3 : a ≤ x ∧ x < a + (n + 1) := by omega
        have h4 : x - a = (x - (a + 1)) + 1 := by omega
        simp only [h2, h3, and_self, if_true, h4, Nat.pow_succ, Nat.div_div_eq_div_mul, Nat.mul_comm]
      · have h3 : ¬(a ≤ x ∧ x < a + (n + 1)) := by omega
        simp only [h2, h3, h1, if_false]

end Sys2Proof.Machine
end

