-- ==== Sys2Proof/Laws/PerInstr.lean ====
section
/-! SUPPORT. Every encoded instruction is one word of 32 bits (R4, R26, R29), said per constructor. -/

set_option Elab.async false

namespace Sys2Proof.Laws

theorem Kind.code_lt (k : Kind) : k.code < 4 := by cases k <;> decide
theorem Ord.code_lt (r : Ord) : r.code < 4 := by cases r <;> decide
theorem Scope.code_lt (s : Scope) : s.code < 8 := by cases s <;> decide
theorem Hint.code_lt (h : Hint) : h.code < 4 := by cases h <;> decide
theorem FTy.code_lt (t : FTy) : t.code < 4 := by cases t <;> decide
theorem Rm.code_lt (r : Rm) : r.code < 4 := by cases r <;> decide
theorem boolCode_lt (b : Bool) : boolCode b < 2 := by cases b <;> decide

/-- What the instruction is encoded as, if anything, fits a word. -/
def Fetchable.Statement (i : Instr) : Prop := ∀ w, encodeNat i = some w → w < 2 ^ 32

/-- An instruction whose encoding is a known number below 2^32 is fetchable. -/
theorem Fetchable.of_eq {i : Instr} {n : Nat} (h : encodeNat i = some n) (hn : n < 2 ^ 32) : Fetchable.Statement i := fun w hw => by
  rw [h] at hw
  cases hw
  exact hn

/-- A step without an encoding has no word to fit. -/
theorem Fetchable.of_none {i : Instr} (h : encodeNat i = none) : Fetchable.Statement i := fun w hw => by
  rw [h] at hw
  cases hw

theorem Fetchable.clause (w : BitVec 12) (a : BitVec 4) (b : BitVec 4) (l : BitVec 3) (n : BitVec 3) : Fetchable.Statement (.clause w a b l n) := Fetchable.of_eq rfl (by
  have := w.isLt; have := a.isLt; have := b.isLt; have := l.isLt; have := n.isLt
  omega)
theorem Fetchable.iadd (d : RName) (a : Src) (b : Src) : Fetchable.Statement (.iadd d a b) := Fetchable.of_eq rfl (by
  have := d.isLt; have := a.name.isLt; have := Kind.code_lt a.kind; have := b.name.isLt; have := Kind.code_lt b.kind
  omega)
theorem Fetchable.isub (d : RName) (a : Src) (b : Src) : Fetchable.Statement (.isub d a b) := Fetchable.of_eq rfl (by
  have := d.isLt; have := a.name.isLt; have := Kind.code_lt a.kind; have := b.name.isLt; have := Kind.code_lt b.kind
  omega)
theorem Fetchable.imul (d : RName) (a : Src) (b : Src) : Fetchable.Statement (.imul d a b) := Fetchable.of_eq rfl (by
  have := d.isLt; have := a.name.isLt; have := Kind.code_lt a.kind; have := b.name.isLt; have := Kind.code_lt b.kind
  omega)
theorem Fetchable.imulhS32 (d : RName) (a : Src) (b : Src) : Fetchable.Statement (.imulhS32 d a b) := Fetchable.of_eq rfl (by
  have := d.isLt; have := a.name.isLt; have := Kind.code_lt a.kind; have := b.name.isLt; have := Kind.code_lt b.kind
  omega)
theorem Fetchable.imulhZ32 (d : RName) (a : Src) (b : Src) : Fetchable.Statement (.imulhZ32 d a b) := Fetchable.of_eq rfl (by
  have := d.isLt; have := a.name.isLt; have := Kind.code_lt a.kind; have := b.name.isLt; have := Kind.code_lt b.kind
  omega)
theorem Fetchable.imad (d : RName) (a : Src) (b : Src) : Fetchable.Statement (.imad d a b) := Fetchable.of_eq rfl (by
  have := d.isLt; have := a.name.isLt; have := Kind.code_lt a.kind; have := b.name.isLt; have := Kind.code_lt b.kind
  omega)
theorem Fetchable.iminS32 (d : RName) (a : Src) (b : Src) : Fetchable.Statement (.iminS32 d a b) := Fetchable.of_eq rfl (by
  have := d.isLt; have := a.name.isLt; have := Kind.code_lt a.kind; have := b.name.isLt; have := Kind.code_lt b.kind
  omega)
theorem Fetchable.iminZ32 (d : RName) (a : Src) (b : Src) : Fetchable.Statement (.iminZ32 d a b) := Fetchable.of_eq rfl (by
  have := d.isLt; have := a.name.isLt; have := Kind.code_lt a.kind; have := b.name.isLt; have := Kind.code_lt b.kind
  omega)
theorem Fetchable.imaxS32 (d : RName) (a : Src) (b : Src) : Fetchable.Statement (.imaxS32 d a b) := Fetchable.of_eq rfl (by
  have := d.isLt; have := a.name.isLt; have := Kind.code_lt a.kind; have := b.name.isLt; have := Kind.code_lt b.kind
  omega)
theorem Fetchable.imaxZ32 (d : RName) (a : Src) (b : Src) : Fetchable.Statement (.imaxZ32 d a b) := Fetchable.of_eq rfl (by
  have := d.isLt; have := a.name.isLt; have := Kind.code_lt a.kind; have := b.name.isLt; have := Kind.code_lt b.kind
  omega)
theorem Fetchable.andB (d : RName) (a : Src) (b : Src) : Fetchable.Statement (.andB d a b) := Fetchable.of_eq rfl (by
  have := d.isLt; have := a.name.isLt; have := Kind.code_lt a.kind; have := b.name.isLt; have := Kind.code_lt b.kind
  omega)
theorem Fetchable.orB (d : RName) (a : Src) (b : Src) : Fetchable.Statement (.orB d a b) := Fetchable.of_eq rfl (by
  have := d.isLt; have := a.name.isLt; have := Kind.code_lt a.kind; have := b.name.isLt; have := Kind.code_lt b.kind
  omega)
theorem Fetchable.xorB (d : RName) (a : Src) (b : Src) : Fetchable.Statement (.xorB d a b) := Fetchable.of_eq rfl (by
  have := d.isLt; have := a.name.isLt; have := Kind.code_lt a.kind; have := b.name.isLt; have := Kind.code_lt b.kind
  omega)
theorem Fetchable.andn (d : RName) (a : Src) (b : Src) : Fetchable.Statement (.andn d a b) := Fetchable.of_eq rfl (by
  have := d.isLt; have := a.name.isLt; have := Kind.code_lt a.kind; have := b.name.isLt; have := Kind.code_lt b.kind
  omega)
theorem Fetchable.shl (d : RName) (a : Src) (b : Src) : Fetchable.Statement (.shl d a b) := Fetchable.of_eq rfl (by
  have := d.isLt; have := a.name.isLt; have := Kind.code_lt a.kind; have := b.name.isLt; have := Kind.code_lt b.kind
  omega)
theorem Fetchable.shr (d : RName) (a : Src) (b : Src) : Fetchable.Statement (.shr d a b) := Fetchable.of_eq rfl (by
  have := d.isLt; have := a.name.isLt; have := Kind.code_lt a.kind; have := b.name.isLt; have := Kind.code_lt b.kind
  omega)
theorem Fetchable.shra (d : RName) (a : Src) (b : Src) : Fetchable.Statement (.shra d a b) := Fetchable.of_eq rfl (by
  have := d.isLt; have := a.name.isLt; have := Kind.code_lt a.kind; have := b.name.isLt; have := Kind.code_lt b.kind
  omega)
theorem Fetchable.rotl (d : RName) (a : Src) (b : Src) : Fetchable.Statement (.rotl d a b) := Fetchable.of_eq rfl (by
  have := d.isLt; have := a.name.isLt; have := Kind.code_lt a.kind; have := b.name.isLt; have := Kind.code_lt b.kind
  omega)
theorem Fetchable.bfx (d : RName) (a : Src) (b : Src) : Fetchable.Statement (.bfx d a b) := Fetchable.of_eq rfl (by
  have := d.isLt; have := a.name.isLt; have := Kind.code_lt a.kind; have := b.name.isLt; have := Kind.code_lt b.kind
  omega)
theorem Fetchable.bfi (d : RName) (a : Src) (b : Src) : Fetchable.Statement (.bfi d a b) := Fetchable.of_eq rfl (by
  have := d.isLt; have := a.name.isLt; have := Kind.code_lt a.kind; have := b.name.isLt; have := Kind.code_lt b.kind
  omega)
theorem Fetchable.cmpEq (d : RName) (a : Src) (b : Src) : Fetchable.Statement (.cmpEq d a b) := Fetchable.of_eq rfl (by
  have := d.isLt; have := a.name.isLt; have := Kind.code_lt a.kind; have := b.name.isLt; have := Kind.code_lt b.kind
  omega)
theorem Fetchable.cmpNe (d : RName) (a : Src) (b : Src) : Fetchable.Statement (.cmpNe d a b) := Fetchable.of_eq rfl (by
  have := d.isLt; have := a.name.isLt; have := Kind.code_lt a.kind; have := b.name.isLt; have := Kind.code_lt b.kind
  omega)
theorem Fetchable.cmpLtS32 (d : RName) (a : Src) (b : Src) : Fetchable.Statement (.cmpLtS32 d a b) := Fetchable.of_eq rfl (by
  have := d.isLt; have := a.name.isLt; have := Kind.code_lt a.kind; have := b.name.isLt; have := Kind.code_lt b.kind
  omega)
theorem Fetchable.cmpLtZ32 (d : RName) (a : Src) (b : Src) : Fetchable.Statement (.cmpLtZ32 d a b) := Fetchable.of_eq rfl (by
  have := d.isLt; have := a.name.isLt; have := Kind.code_lt a.kind; have := b.name.isLt; have := Kind.code_lt b.kind
  omega)
theorem Fetchable.cmpLeS32 (d : RName) (a : Src) (b : Src) : Fetchable.Statement (.cmpLeS32 d a b) := Fetchable.of_eq rfl (by
  have := d.isLt; have := a.name.isLt; have := Kind.code_lt a.kind; have := b.name.isLt; have := Kind.code_lt b.kind
  omega)
theorem Fetchable.cmpLeZ32 (d : RName) (a : Src) (b : Src) : Fetchable.Statement (.cmpLeZ32 d a b) := Fetchable.of_eq rfl (by
  have := d.isLt; have := a.name.isLt; have := Kind.code_lt a.kind; have := b.name.isLt; have := Kind.code_lt b.kind
  omega)
theorem Fetchable.sel (d : RName) (a : Src) (b : Src) : Fetchable.Statement (.sel d a b) := Fetchable.of_eq rfl (by
  have := d.isLt; have := a.name.isLt; have := Kind.code_lt a.kind; have := b.name.isLt; have := Kind.code_lt b.kind
  omega)
theorem Fetchable.iaddSatS32 (d : RName) (a : Src) (b : Src) : Fetchable.Statement (.iaddSatS32 d a b) := Fetchable.of_eq rfl (by
  have := d.isLt; have := a.name.isLt; have := Kind.code_lt a.kind; have := b.name.isLt; have := Kind.code_lt b.kind
  omega)
theorem Fetchable.adda (d : RName) (a : Src) (b : Src) : Fetchable.Statement (.adda d a b) := Fetchable.of_eq rfl (by
  have := d.isLt; have := a.name.isLt; have := Kind.code_lt a.kind; have := b.name.isLt; have := Kind.code_lt b.kind
  omega)
theorem Fetchable.adda64 (d : RName) (a : Src) (b : Src) : Fetchable.Statement (.adda64 d a b) := Fetchable.of_eq rfl (by
  have := d.isLt; have := a.name.isLt; have := Kind.code_lt a.kind; have := b.name.isLt; have := Kind.code_lt b.kind
  omega)
theorem Fetchable.suba (d : RName) (a : Src) (b : Src) : Fetchable.Statement (.suba d a b) := Fetchable.of_eq rfl (by
  have := d.isLt; have := a.name.isLt; have := Kind.code_lt a.kind; have := b.name.isLt; have := Kind.code_lt b.kind
  omega)
theorem Fetchable.cmpaLt (d : RName) (a : Src) (b : Src) : Fetchable.Statement (.cmpaLt d a b) := Fetchable.of_eq rfl (by
  have := d.isLt; have := a.name.isLt; have := Kind.code_lt a.kind; have := b.name.isLt; have := Kind.code_lt b.kind
  omega)
theorem Fetchable.faddF32 (d : RName) (a : Src) (b : Src) : Fetchable.Statement (.faddF32 d a b) := Fetchable.of_eq rfl (by
  have := d.isLt; have := a.name.isLt; have := Kind.code_lt a.kind; have := b.name.isLt; have := Kind.code_lt b.kind
  omega)
theorem Fetchable.faddF64 (d : RName) (a : Src) (b : Src) : Fetchable.Statement (.faddF64 d a b) := Fetchable.of_eq rfl (by
  have := d.isLt; have := a.name.isLt; have := Kind.code_lt a.kind; have := b.name.isLt; have := Kind.code_lt b.kind
  omega)
theorem Fetchable.faddF16 (d : RName) (a : Src) (b : Src) : Fetchable.Statement (.faddF16 d a b) := Fetchable.of_eq rfl (by
  have := d.isLt; have := a.name.isLt; have := Kind.code_lt a.kind; have := b.name.isLt; have := Kind.code_lt b.kind
  omega)
theorem Fetchable.faddBf16 (d : RName) (a : Src) (b : Src) : Fetchable.Statement (.faddBf16 d a b) := Fetchable.of_eq rfl (by
  have := d.isLt; have := a.name.isLt; have := Kind.code_lt a.kind; have := b.name.isLt; have := Kind.code_lt b.kind
  omega)
theorem Fetchable.fsubF32 (d : RName) (a : Src) (b : Src) : Fetchable.Statement (.fsubF32 d a b) := Fetchable.of_eq rfl (by
  have := d.isLt; have := a.name.isLt; have := Kind.code_lt a.kind; have := b.name.isLt; have := Kind.code_lt b.kind
  omega)
theorem Fetchable.fsubF64 (d : RName) (a : Src) (b : Src) : Fetchable.Statement (.fsubF64 d a b) := Fetchable.of_eq rfl (by
  have := d.isLt; have := a.name.isLt; have := Kind.code_lt a.kind; have := b.name.isLt; have := Kind.code_lt b.kind
  omega)
theorem Fetchable.fsubF16 (d : RName) (a : Src) (b : Src) : Fetchable.Statement (.fsubF16 d a b) := Fetchable.of_eq rfl (by
  have := d.isLt; have := a.name.isLt; have := Kind.code_lt a.kind; have := b.name.isLt; have := Kind.code_lt b.kind
  omega)
theorem Fetchable.fsubBf16 (d : RName) (a : Src) (b : Src) : Fetchable.Statement (.fsubBf16 d a b) := Fetchable.of_eq rfl (by
  have := d.isLt; have := a.name.isLt; have := Kind.code_lt a.kind; have := b.name.isLt; have := Kind.code_lt b.kind
  omega)
theorem Fetchable.fmulF32 (d : RName) (a : Src) (b : Src) : Fetchable.Statement (.fmulF32 d a b) := Fetchable.of_eq rfl (by
  have := d.isLt; have := a.name.isLt; have := Kind.code_lt a.kind; have := b.name.isLt; have := Kind.code_lt b.kind
  omega)
theorem Fetchable.fmulF64 (d : RName) (a : Src) (b : Src) : Fetchable.Statement (.fmulF64 d a b) := Fetchable.of_eq rfl (by
  have := d.isLt; have := a.name.isLt; have := Kind.code_lt a.kind; have := b.name.isLt; have := Kind.code_lt b.kind
  omega)
theorem Fetchable.fmulF16 (d : RName) (a : Src) (b : Src) : Fetchable.Statement (.fmulF16 d a b) := Fetchable.of_eq rfl (by
  have := d.isLt; have := a.name.isLt; have := Kind.code_lt a.kind; have := b.name.isLt; have := Kind.code_lt b.kind
  omega)
theorem Fetchable.fmulBf16 (d : RName) (a : Src) (b : Src) : Fetchable.Statement (.fmulBf16 d a b) := Fetchable.of_eq rfl (by
  have := d.isLt; have := a.name.isLt; have := Kind.code_lt a.kind; have := b.name.isLt; have := Kind.code_lt b.kind
  omega)
theorem Fetchable.ffmaF32 (d : RName) (a : Src) (b : Src) : Fetchable.Statement (.ffmaF32 d a b) := Fetchable.of_eq rfl (by
  have := d.isLt; have := a.name.isLt; have := Kind.code_lt a.kind; have := b.name.isLt; have := Kind.code_lt b.kind
  omega)
theorem Fetchable.ffmaF64 (d : RName) (a : Src) (b : Src) : Fetchable.Statement (.ffmaF64 d a b) := Fetchable.of_eq rfl (by
  have := d.isLt; have := a.name.isLt; have := Kind.code_lt a.kind; have := b.name.isLt; have := Kind.code_lt b.kind
  omega)
theorem Fetchable.ffmaF16 (d : RName) (a : Src) (b : Src) : Fetchable.Statement (.ffmaF16 d a b) := Fetchable.of_eq rfl (by
  have := d.isLt; have := a.name.isLt; have := Kind.code_lt a.kind; have := b.name.isLt; have := Kind.code_lt b.kind
  omega)
theorem Fetchable.ffmaBf16 (d : RName) (a : Src) (b : Src) : Fetchable.Statement (.ffmaBf16 d a b) := Fetchable.of_eq rfl (by
  have := d.isLt; have := a.name.isLt; have := Kind.code_lt a.kind; have := b.name.isLt; have := Kind.code_lt b.kind
  omega)
theorem Fetchable.ffmalF32 (d : RName) (a : Src) (b : Src) : Fetchable.Statement (.ffmalF32 d a b) := Fetchable.of_eq rfl (by
  have := d.isLt; have := a.name.isLt; have := Kind.code_lt a.kind; have := b.name.isLt; have := Kind.code_lt b.kind
  omega)
theorem Fetchable.ffmalF64 (d : RName) (a : Src) (b : Src) : Fetchable.Statement (.ffmalF64 d a b) := Fetchable.of_eq rfl (by
  have := d.isLt; have := a.name.isLt; have := Kind.code_lt a.kind; have := b.name.isLt; have := Kind.code_lt b.kind
  omega)
theorem Fetchable.ffmalF16 (d : RName) (a : Src) (b : Src) : Fetchable.Statement (.ffmalF16 d a b) := Fetchable.of_eq rfl (by
  have := d.isLt; have := a.name.isLt; have := Kind.code_lt a.kind; have := b.name.isLt; have := Kind.code_lt b.kind
  omega)
theorem Fetchable.ffmalBf16 (d : RName) (a : Src) (b : Src) : Fetchable.Statement (.ffmalBf16 d a b) := Fetchable.of_eq rfl (by
  have := d.isLt; have := a.name.isLt; have := Kind.code_lt a.kind; have := b.name.isLt; have := Kind.code_lt b.kind
  omega)
theorem Fetchable.fminF32 (d : RName) (a : Src) (b : Src) : Fetchable.Statement (.fminF32 d a b) := Fetchable.of_eq rfl (by
  have := d.isLt; have := a.name.isLt; have := Kind.code_lt a.kind; have := b.name.isLt; have := Kind.code_lt b.kind
  omega)
theorem Fetchable.fminF64 (d : RName) (a : Src) (b : Src) : Fetchable.Statement (.fminF64 d a b) := Fetchable.of_eq rfl (by
  have := d.isLt; have := a.name.isLt; have := Kind.code_lt a.kind; have := b.name.isLt; have := Kind.code_lt b.kind
  omega)
theorem Fetchable.fminF16 (d : RName) (a : Src) (b : Src) : Fetchable.Statement (.fminF16 d a b) := Fetchable.of_eq rfl (by
  have := d.isLt; have := a.name.isLt; have := Kind.code_lt a.kind; have := b.name.isLt; have := Kind.code_lt b.kind
  omega)
theorem Fetchable.fminBf16 (d : RName) (a : Src) (b : Src) : Fetchable.Statement (.fminBf16 d a b) := Fetchable.of_eq rfl (by
  have := d.isLt; have := a.name.isLt; have := Kind.code_lt a.kind; have := b.name.isLt; have := Kind.code_lt b.kind
  omega)
theorem Fetchable.fmaxF32 (d : RName) (a : Src) (b : Src) : Fetchable.Statement (.fmaxF32 d a b) := Fetchable.of_eq rfl (by
  have := d.isLt; have := a.name.isLt; have := Kind.code_lt a.kind; have := b.name.isLt; have := Kind.code_lt b.kind
  omega)
theorem Fetchable.fmaxF64 (d : RName) (a : Src) (b : Src) : Fetchable.Statement (.fmaxF64 d a b) := Fetchable.of_eq rfl (by
  have := d.isLt; have := a.name.isLt; have := Kind.code_lt a.kind; have := b.name.isLt; have := Kind.code_lt b.kind
  omega)
theorem Fetchable.fmaxF16 (d : RName) (a : Src) (b : Src) : Fetchable.Statement (.fmaxF16 d a b) := Fetchable.of_eq rfl (by
  have := d.isLt; have := a.name.isLt; have := Kind.code_lt a.kind; have := b.name.isLt; have := Kind.code_lt b.kind
  omega)
theorem Fetchable.fmaxBf16 (d : RName) (a : Src) (b : Src) : Fetchable.Statement (.fmaxBf16 d a b) := Fetchable.of_eq rfl (by
  have := d.isLt; have := a.name.isLt; have := Kind.code_lt a.kind; have := b.name.isLt; have := Kind.code_lt b.kind
  omega)
theorem Fetchable.sadd (d : RName) (a : Src) (b : Src) : Fetchable.Statement (.sadd d a b) := Fetchable.of_eq rfl (by
  have := d.isLt; have := a.name.isLt; have := Kind.code_lt a.kind; have := b.name.isLt; have := Kind.code_lt b.kind
  omega)
theorem Fetchable.ssub (d : RName) (a : Src) (b : Src) : Fetchable.Statement (.ssub d a b) := Fetchable.of_eq rfl (by
  have := d.isLt; have := a.name.isLt; have := Kind.code_lt a.kind; have := b.name.isLt; have := Kind.code_lt b.kind
  omega)
theorem Fetchable.smul (d : RName) (a : Src) (b : Src) : Fetchable.Statement (.smul d a b) := Fetchable.of_eq rfl (by
  have := d.isLt; have := a.name.isLt; have := Kind.code_lt a.kind; have := b.name.isLt; have := Kind.code_lt b.kind
  omega)
theorem Fetchable.sand (d : RName) (a : Src) (b : Src) : Fetchable.Statement (.sand d a b) := Fetchable.of_eq rfl (by
  have := d.isLt; have := a.name.isLt; have := Kind.code_lt a.kind; have := b.name.isLt; have := Kind.code_lt b.kind
  omega)
theorem Fetchable.sor (d : RName) (a : Src) (b : Src) : Fetchable.Statement (.sor d a b) := Fetchable.of_eq rfl (by
  have := d.isLt; have := a.name.isLt; have := Kind.code_lt a.kind; have := b.name.isLt; have := Kind.code_lt b.kind
  omega)
theorem Fetchable.sxor (d : RName) (a : Src) (b : Src) : Fetchable.Statement (.sxor d a b) := Fetchable.of_eq rfl (by
  have := d.isLt; have := a.name.isLt; have := Kind.code_lt a.kind; have := b.name.isLt; have := Kind.code_lt b.kind
  omega)
theorem Fetchable.sshl (d : RName) (a : Src) (b : Src) : Fetchable.Statement (.sshl d a b) := Fetchable.of_eq rfl (by
  have := d.isLt; have := a.name.isLt; have := Kind.code_lt a.kind; have := b.name.isLt; have := Kind.code_lt b.kind
  omega)
theorem Fetchable.sshr (d : RName) (a : Src) (b : Src) : Fetchable.Statement (.sshr d a b) := Fetchable.of_eq rfl (by
  have := d.isLt; have := a.name.isLt; have := Kind.code_lt a.kind; have := b.name.isLt; have := Kind.code_lt b.kind
  omega)
theorem Fetchable.scmpEq (d : RName) (a : Src) (b : Src) : Fetchable.Statement (.scmpEq d a b) := Fetchable.of_eq rfl (by
  have := d.isLt; have := a.name.isLt; have := Kind.code_lt a.kind; have := b.name.isLt; have := Kind.code_lt b.kind
  omega)
theorem Fetchable.scmpLtS32 (d : RName) (a : Src) (b : Src) : Fetchable.Statement (.scmpLtS32 d a b) := Fetchable.of_eq rfl (by
  have := d.isLt; have := a.name.isLt; have := Kind.code_lt a.kind; have := b.name.isLt; have := Kind.code_lt b.kind
  omega)
theorem Fetchable.scmpLtZ32 (d : RName) (a : Src) (b : Src) : Fetchable.Statement (.scmpLtZ32 d a b) := Fetchable.of_eq rfl (by
  have := d.isLt; have := a.name.isLt; have := Kind.code_lt a.kind; have := b.name.isLt; have := Kind.code_lt b.kind
  omega)
theorem Fetchable.sadda (d : RName) (a : Src) (b : Src) : Fetchable.Statement (.sadda d a b) := Fetchable.of_eq rfl (by
  have := d.isLt; have := a.name.isLt; have := Kind.code_lt a.kind; have := b.name.isLt; have := Kind.code_lt b.kind
  omega)
theorem Fetchable.vldEq (d : RName) (a : RName) (b : Src) (o : Ord) : Fetchable.Statement (.vldEq d a b o) := Fetchable.of_eq rfl (by
  have := d.isLt; have := a.isLt; have := b.name.isLt; have := Kind.code_lt b.kind; have := Ord.code_lt o
  omega)
theorem Fetchable.vldLe (d : RName) (a : RName) (b : Src) (o : Ord) : Fetchable.Statement (.vldLe d a b o) := Fetchable.of_eq rfl (by
  have := d.isLt; have := a.isLt; have := b.name.isLt; have := Kind.code_lt b.kind; have := Ord.code_lt o
  omega)
theorem Fetchable.vst (d : RName) (a : RName) (b : Src) (o : Ord) : Fetchable.Statement (.vst d a b o) := Fetchable.of_eq rfl (by
  have := d.isLt; have := a.isLt; have := b.name.isLt; have := Kind.code_lt b.kind; have := Ord.code_lt o
  omega)
theorem Fetchable.vfloor (a : Src) (b : Src) : Fetchable.Statement (.vfloor a b) := Fetchable.of_eq rfl (by
  have := a.name.isLt; have := Kind.code_lt a.kind; have := b.name.isLt; have := Kind.code_lt b.kind
  omega)
theorem Fetchable.spld (d : RName) (a : Src) (b : Src) : Fetchable.Statement (.spld d a b) := Fetchable.of_eq rfl (by
  have := d.isLt; have := a.name.isLt; have := Kind.code_lt a.kind; have := b.name.isLt; have := Kind.code_lt b.kind
  omega)
theorem Fetchable.spst (d : RName) (a : Src) (b : Src) : Fetchable.Statement (.spst d a b) := Fetchable.of_eq rfl (by
  have := d.isLt; have := a.name.isLt; have := Kind.code_lt a.kind; have := b.name.isLt; have := Kind.code_lt b.kind
  omega)
theorem Fetchable.mov (d : RName) (a : Src) : Fetchable.Statement (.mov d a) := Fetchable.of_eq rfl (by
  have := d.isLt; have := a.name.isLt; have := Kind.code_lt a.kind
  omega)
theorem Fetchable.mov64 (d : RName) (a : Src) : Fetchable.Statement (.mov64 d a) := Fetchable.of_eq rfl (by
  have := d.isLt; have := a.name.isLt; have := Kind.code_lt a.kind
  omega)
theorem Fetchable.notB (d : RName) (a : Src) : Fetchable.Statement (.notB d a) := Fetchable.of_eq rfl (by
  have := d.isLt; have := a.name.isLt; have := Kind.code_lt a.kind
  omega)
theorem Fetchable.ineg (d : RName) (a : Src) (s : Bool) : Fetchable.Statement (.ineg d a s) := Fetchable.of_eq rfl (by
  have := d.isLt; have := a.name.isLt; have := Kind.code_lt a.kind; have := boolCode_lt s
  omega)
theorem Fetchable.iabsS32 (d : RName) (a : Src) (s : Bool) : Fetchable.Statement (.iabsS32 d a s) := Fetchable.of_eq rfl (by
  have := d.isLt; have := a.name.isLt; have := Kind.code_lt a.kind; have := boolCode_lt s
  omega)
theorem Fetchable.popc (d : RName) (a : Src) : Fetchable.Statement (.popc d a) := Fetchable.of_eq rfl (by
  have := d.isLt; have := a.name.isLt; have := Kind.code_lt a.kind
  omega)
theorem Fetchable.clz (d : RName) (a : Src) : Fetchable.Statement (.clz d a) := Fetchable.of_eq rfl (by
  have := d.isLt; have := a.name.isLt; have := Kind.code_lt a.kind
  omega)
theorem Fetchable.ctz (d : RName) (a : Src) : Fetchable.Statement (.ctz d a) := Fetchable.of_eq rfl (by
  have := d.isLt; have := a.name.isLt; have := Kind.code_lt a.kind
  omega)
theorem Fetchable.brev (d : RName) (a : Src) : Fetchable.Statement (.brev d a) := Fetchable.of_eq rfl (by
  have := d.isLt; have := a.name.isLt; have := Kind.code_lt a.kind
  omega)
theorem Fetchable.bswap (d : RName) (a : Src) : Fetchable.Statement (.bswap d a) := Fetchable.of_eq rfl (by
  have := d.isLt; have := a.name.isLt; have := Kind.code_lt a.kind
  omega)
theorem Fetchable.sextS8 (d : RName) (a : Src) : Fetchable.Statement (.sextS8 d a) := Fetchable.of_eq rfl (by
  have := d.isLt; have := a.name.isLt; have := Kind.code_lt a.kind
  omega)
theorem Fetchable.sextS16 (d : RName) (a : Src) : Fetchable.Statement (.sextS16 d a) := Fetchable.of_eq rfl (by
  have := d.isLt; have := a.name.isLt; have := Kind.code_lt a.kind
  omega)
theorem Fetchable.zextZ8 (d : RName) (a : Src) : Fetchable.Statement (.zextZ8 d a) := Fetchable.of_eq rfl (by
  have := d.isLt; have := a.name.isLt; have := Kind.code_lt a.kind
  omega)
theorem Fetchable.zextZ16 (d : RName) (a : Src) : Fetchable.Statement (.zextZ16 d a) := Fetchable.of_eq rfl (by
  have := d.isLt; have := a.name.isLt; have := Kind.code_lt a.kind
  omega)
theorem Fetchable.fneg (d : RName) (a : Src) (t : FTy) : Fetchable.Statement (.fneg d a t) := Fetchable.of_eq rfl (by
  have := d.isLt; have := a.name.isLt; have := Kind.code_lt a.kind; have := FTy.code_lt t
  omega)
theorem Fetchable.fabs (d : RName) (a : Src) (t : FTy) : Fetchable.Statement (.fabs d a t) := Fetchable.of_eq rfl (by
  have := d.isLt; have := a.name.isLt; have := Kind.code_lt a.kind; have := FTy.code_lt t
  omega)
theorem Fetchable.fsqrt (d : RName) (a : Src) (t : FTy) : Fetchable.Statement (.fsqrt d a t) := Fetchable.of_eq rfl (by
  have := d.isLt; have := a.name.isLt; have := Kind.code_lt a.kind; have := FTy.code_lt t
  omega)
theorem Fetchable.frcp (d : RName) (a : Src) (t : FTy) : Fetchable.Statement (.frcp d a t) := Fetchable.of_eq rfl (by
  have := d.isLt; have := a.name.isLt; have := Kind.code_lt a.kind; have := FTy.code_lt t
  omega)
theorem Fetchable.frsqrt (d : RName) (a : Src) (t : FTy) : Fetchable.Statement (.frsqrt d a t) := Fetchable.of_eq rfl (by
  have := d.isLt; have := a.name.isLt; have := Kind.code_lt a.kind; have := FTy.code_lt t
  omega)
theorem Fetchable.fexp2 (d : RName) (a : Src) (t : FTy) : Fetchable.Statement (.fexp2 d a t) := Fetchable.of_eq rfl (by
  have := d.isLt; have := a.name.isLt; have := Kind.code_lt a.kind; have := FTy.code_lt t
  omega)
theorem Fetchable.flog2 (d : RName) (a : Src) (t : FTy) : Fetchable.Statement (.flog2 d a t) := Fetchable.of_eq rfl (by
  have := d.isLt; have := a.name.isLt; have := Kind.code_lt a.kind; have := FTy.code_lt t
  omega)
theorem Fetchable.fsinpi (d : RName) (a : Src) (t : FTy) : Fetchable.Statement (.fsinpi d a t) := Fetchable.of_eq rfl (by
  have := d.isLt; have := a.name.isLt; have := Kind.code_lt a.kind; have := FTy.code_lt t
  omega)
theorem Fetchable.fcospi (d : RName) (a : Src) (t : FTy) : Fetchable.Statement (.fcospi d a t) := Fetchable.of_eq rfl (by
  have := d.isLt; have := a.name.isLt; have := Kind.code_lt a.kind; have := FTy.code_lt t
  omega)
theorem Fetchable.ftanh (d : RName) (a : Src) (t : FTy) : Fetchable.Statement (.ftanh d a t) := Fetchable.of_eq rfl (by
  have := d.isLt; have := a.name.isLt; have := Kind.code_lt a.kind; have := FTy.code_lt t
  omega)
theorem Fetchable.frint (d : RName) (a : Src) (t : FTy) : Fetchable.Statement (.frint d a t) := Fetchable.of_eq rfl (by
  have := d.isLt; have := a.name.isLt; have := Kind.code_lt a.kind; have := FTy.code_lt t
  omega)
theorem Fetchable.ftrunc (d : RName) (a : Src) (t : FTy) : Fetchable.Statement (.ftrunc d a t) := Fetchable.of_eq rfl (by
  have := d.isLt; have := a.name.isLt; have := Kind.code_lt a.kind; have := FTy.code_lt t
  omega)
theorem Fetchable.ffloor (d : RName) (a : Src) (t : FTy) : Fetchable.Statement (.ffloor d a t) := Fetchable.of_eq rfl (by
  have := d.isLt; have := a.name.isLt; have := Kind.code_lt a.kind; have := FTy.code_lt t
  omega)
theorem Fetchable.fceil (d : RName) (a : Src) (t : FTy) : Fetchable.Statement (.fceil d a t) := Fetchable.of_eq rfl (by
  have := d.isLt; have := a.name.isLt; have := Kind.code_lt a.kind; have := FTy.code_lt t
  omega)
theorem Fetchable.smov (d : RName) (a : Src) : Fetchable.Statement (.smov d a) := Fetchable.of_eq rfl (by
  have := d.isLt; have := a.name.isLt; have := Kind.code_lt a.kind
  omega)
theorem Fetchable.smov64 (d : RName) (a : Src) : Fetchable.Statement (.smov64 d a) := Fetchable.of_eq rfl (by
  have := d.isLt; have := a.name.isLt; have := Kind.code_lt a.kind
  omega)
theorem Fetchable.snot (d : RName) (a : Src) : Fetchable.Statement (.snot d a) := Fetchable.of_eq rfl (by
  have := d.isLt; have := a.name.isLt; have := Kind.code_lt a.kind
  omega)
theorem Fetchable.sneg (d : RName) (a : Src) (s : Bool) : Fetchable.Statement (.sneg d a s) := Fetchable.of_eq rfl (by
  have := d.isLt; have := a.name.isLt; have := Kind.code_lt a.kind; have := boolCode_lt s
  omega)
theorem Fetchable.sabsS32 (d : RName) (a : Src) (s : Bool) : Fetchable.Statement (.sabsS32 d a s) := Fetchable.of_eq rfl (by
  have := d.isLt; have := a.name.isLt; have := Kind.code_lt a.kind; have := boolCode_lt s
  omega)
theorem Fetchable.spopc (d : RName) (a : Src) : Fetchable.Statement (.spopc d a) := Fetchable.of_eq rfl (by
  have := d.isLt; have := a.name.isLt; have := Kind.code_lt a.kind
  omega)
theorem Fetchable.sclz (d : RName) (a : Src) : Fetchable.Statement (.sclz d a) := Fetchable.of_eq rfl (by
  have := d.isLt; have := a.name.isLt; have := Kind.code_lt a.kind
  omega)
theorem Fetchable.sctz (d : RName) (a : Src) : Fetchable.Statement (.sctz d a) := Fetchable.of_eq rfl (by
  have := d.isLt; have := a.name.isLt; have := Kind.code_lt a.kind
  omega)
theorem Fetchable.sbrev (d : RName) (a : Src) : Fetchable.Statement (.sbrev d a) := Fetchable.of_eq rfl (by
  have := d.isLt; have := a.name.isLt; have := Kind.code_lt a.kind
  omega)
theorem Fetchable.sbswap (d : RName) (a : Src) : Fetchable.Statement (.sbswap d a) := Fetchable.of_eq rfl (by
  have := d.isLt; have := a.name.isLt; have := Kind.code_lt a.kind
  omega)
theorem Fetchable.ssextS8 (d : RName) (a : Src) : Fetchable.Statement (.ssextS8 d a) := Fetchable.of_eq rfl (by
  have := d.isLt; have := a.name.isLt; have := Kind.code_lt a.kind
  omega)
theorem Fetchable.ssextS16 (d : RName) (a : Src) : Fetchable.Statement (.ssextS16 d a) := Fetchable.of_eq rfl (by
  have := d.isLt; have := a.name.isLt; have := Kind.code_lt a.kind
  omega)
theorem Fetchable.szextZ8 (d : RName) (a : Src) : Fetchable.Statement (.szextZ8 d a) := Fetchable.of_eq rfl (by
  have := d.isLt; have := a.name.isLt; have := Kind.code_lt a.kind
  omega)
theorem Fetchable.szextZ16 (d : RName) (a : Src) : Fetchable.Statement (.szextZ16 d a) := Fetchable.of_eq rfl (by
  have := d.isLt; have := a.name.isLt; have := Kind.code_lt a.kind
  omega)
theorem Fetchable.cvtF64F32 (d : RName) (a : Src) : Fetchable.Statement (.cvtF64F32 d a) := Fetchable.of_eq rfl (by
  have := d.isLt; have := a.name.isLt; have := Kind.code_lt a.kind
  omega)
theorem Fetchable.cvtF32F64 (d : RName) (a : Src) (r : Rm) : Fetchable.Statement (.cvtF32F64 d a r) := Fetchable.of_eq rfl (by
  have := d.isLt; have := a.name.isLt; have := Kind.code_lt a.kind; have := Rm.code_lt r
  omega)
theorem Fetchable.cvtF32F16 (d : RName) (a : Src) : Fetchable.Statement (.cvtF32F16 d a) := Fetchable.of_eq rfl (by
  have := d.isLt; have := a.name.isLt; have := Kind.code_lt a.kind
  omega)
theorem Fetchable.cvtF32Bf16 (d : RName) (a : Src) : Fetchable.Statement (.cvtF32Bf16 d a) := Fetchable.of_eq rfl (by
  have := d.isLt; have := a.name.isLt; have := Kind.code_lt a.kind
  omega)
theorem Fetchable.cvtF16F32 (d : RName) (a : Src) (r : Rm) : Fetchable.Statement (.cvtF16F32 d a r) := Fetchable.of_eq rfl (by
  have := d.isLt; have := a.name.isLt; have := Kind.code_lt a.kind; have := Rm.code_lt r
  omega)
theorem Fetchable.cvtBf16F32 (d : RName) (a : Src) (r : Rm) : Fetchable.Statement (.cvtBf16F32 d a r) := Fetchable.of_eq rfl (by
  have := d.isLt; have := a.name.isLt; have := Kind.code_lt a.kind; have := Rm.code_lt r
  omega)
theorem Fetchable.cvtF32E4m3Lo (d : RName) (a : Src) : Fetchable.Statement (.cvtF32E4m3Lo d a) := Fetchable.of_eq rfl (by
  have := d.isLt; have := a.name.isLt; have := Kind.code_lt a.kind
  omega)
theorem Fetchable.cvtF32E4m3Hi (d : RName) (a : Src) : Fetchable.Statement (.cvtF32E4m3Hi d a) := Fetchable.of_eq rfl (by
  have := d.isLt; have := a.name.isLt; have := Kind.code_lt a.kind
  omega)
theorem Fetchable.cvtF32E5m2Lo (d : RName) (a : Src) : Fetchable.Statement (.cvtF32E5m2Lo d a) := Fetchable.of_eq rfl (by
  have := d.isLt; have := a.name.isLt; have := Kind.code_lt a.kind
  omega)
theorem Fetchable.cvtF32E5m2Hi (d : RName) (a : Src) : Fetchable.Statement (.cvtF32E5m2Hi d a) := Fetchable.of_eq rfl (by
  have := d.isLt; have := a.name.isLt; have := Kind.code_lt a.kind
  omega)
theorem Fetchable.cvtE4m3F32Lo (d : RName) (a : Src) (r : Rm) : Fetchable.Statement (.cvtE4m3F32Lo d a r) := Fetchable.of_eq rfl (by
  have := d.isLt; have := a.name.isLt; have := Kind.code_lt a.kind; have := Rm.code_lt r
  omega)
theorem Fetchable.cvtE4m3F32Hi (d : RName) (a : Src) (r : Rm) : Fetchable.Statement (.cvtE4m3F32Hi d a r) := Fetchable.of_eq rfl (by
  have := d.isLt; have := a.name.isLt; have := Kind.code_lt a.kind; have := Rm.code_lt r
  omega)
theorem Fetchable.cvtE4m3F32NsatLo (d : RName) (a : Src) (r : Rm) : Fetchable.Statement (.cvtE4m3F32NsatLo d a r) := Fetchable.of_eq rfl (by
  have := d.isLt; have := a.name.isLt; have := Kind.code_lt a.kind; have := Rm.code_lt r
  omega)
theorem Fetchable.cvtE4m3F32NsatHi (d : RName) (a : Src) (r : Rm) : Fetchable.Statement (.cvtE4m3F32NsatHi d a r) := Fetchable.of_eq rfl (by
  have := d.isLt; have := a.name.isLt; have := Kind.code_lt a.kind; have := Rm.code_lt r
  omega)
theorem Fetchable.cvtE5m2F32Lo (d : RName) (a : Src) (r : Rm) : Fetchable.Statement (.cvtE5m2F32Lo d a r) := Fetchable.of_eq rfl (by
  have := d.isLt; have := a.name.isLt; have := Kind.code_lt a.kind; have := Rm.code_lt r
  omega)
theorem Fetchable.cvtE5m2F32Hi (d : RName) (a : Src) (r : Rm) : Fetchable.Statement (.cvtE5m2F32Hi d a r) := Fetchable.of_eq rfl (by
  have := d.isLt; have := a.name.isLt; have := Kind.code_lt a.kind; have := Rm.code_lt r
  omega)
theorem Fetchable.cvtF32E5m3 (d : RName) (a : Src) : Fetchable.Statement (.cvtF32E5m3 d a) := Fetchable.of_eq rfl (by
  have := d.isLt; have := a.name.isLt; have := Kind.code_lt a.kind
  omega)
theorem Fetchable.cvtE5m3F32 (d : RName) (a : Src) : Fetchable.Statement (.cvtE5m3F32 d a) := Fetchable.of_eq rfl (by
  have := d.isLt; have := a.name.isLt; have := Kind.code_lt a.kind
  omega)
theorem Fetchable.cvtS32F32 (d : RName) (a : Src) (r : Rm) : Fetchable.Statement (.cvtS32F32 d a r) := Fetchable.of_eq rfl (by
  have := d.isLt; have := a.name.isLt; have := Kind.code_lt a.kind; have := Rm.code_lt r
  omega)
theorem Fetchable.cvtZ32F32 (d : RName) (a : Src) (r : Rm) : Fetchable.Statement (.cvtZ32F32 d a r) := Fetchable.of_eq rfl (by
  have := d.isLt; have := a.name.isLt; have := Kind.code_lt a.kind; have := Rm.code_lt r
  omega)
theorem Fetchable.cvtS64F32 (d : RName) (a : Src) (r : Rm) : Fetchable.Statement (.cvtS64F32 d a r) := Fetchable.of_eq rfl (by
  have := d.isLt; have := a.name.isLt; have := Kind.code_lt a.kind; have := Rm.code_lt r
  omega)
theorem Fetchable.cvtZ64F32 (d : RName) (a : Src) (r : Rm) : Fetchable.Statement (.cvtZ64F32 d a r) := Fetchable.of_eq rfl (by
  have := d.isLt; have := a.name.isLt; have := Kind.code_lt a.kind; have := Rm.code_lt r
  omega)
theorem Fetchable.cvtS32F64 (d : RName) (a : Src) (r : Rm) : Fetchable.Statement (.cvtS32F64 d a r) := Fetchable.of_eq rfl (by
  have := d.isLt; have := a.name.isLt; have := Kind.code_lt a.kind; have := Rm.code_lt r
  omega)
theorem Fetchable.cvtZ32F64 (d : RName) (a : Src) (r : Rm) : Fetchable.Statement (.cvtZ32F64 d a r) := Fetchable.of_eq rfl (by
  have := d.isLt; have := a.name.isLt; have := Kind.code_lt a.kind; have := Rm.code_lt r
  omega)
theorem Fetchable.cvtS64F64 (d : RName) (a : Src) (r : Rm) : Fetchable.Statement (.cvtS64F64 d a r) := Fetchable.of_eq rfl (by
  have := d.isLt; have := a.name.isLt; have := Kind.code_lt a.kind; have := Rm.code_lt r
  omega)
theorem Fetchable.cvtZ64F64 (d : RName) (a : Src) (r : Rm) : Fetchable.Statement (.cvtZ64F64 d a r) := Fetchable.of_eq rfl (by
  have := d.isLt; have := a.name.isLt; have := Kind.code_lt a.kind; have := Rm.code_lt r
  omega)
theorem Fetchable.cvtF32S32 (d : RName) (a : Src) (r : Rm) : Fetchable.Statement (.cvtF32S32 d a r) := Fetchable.of_eq rfl (by
  have := d.isLt; have := a.name.isLt; have := Kind.code_lt a.kind; have := Rm.code_lt r
  omega)
theorem Fetchable.cvtF32Z32 (d : RName) (a : Src) (r : Rm) : Fetchable.Statement (.cvtF32Z32 d a r) := Fetchable.of_eq rfl (by
  have := d.isLt; have := a.name.isLt; have := Kind.code_lt a.kind; have := Rm.code_lt r
  omega)
theorem Fetchable.cvtF32S64 (d : RName) (a : Src) (r : Rm) : Fetchable.Statement (.cvtF32S64 d a r) := Fetchable.of_eq rfl (by
  have := d.isLt; have := a.name.isLt; have := Kind.code_lt a.kind; have := Rm.code_lt r
  omega)
theorem Fetchable.cvtF32Z64 (d : RName) (a : Src) (r : Rm) : Fetchable.Statement (.cvtF32Z64 d a r) := Fetchable.of_eq rfl (by
  have := d.isLt; have := a.name.isLt; have := Kind.code_lt a.kind; have := Rm.code_lt r
  omega)
theorem Fetchable.cvtF64S32 (d : RName) (a : Src) : Fetchable.Statement (.cvtF64S32 d a) := Fetchable.of_eq rfl (by
  have := d.isLt; have := a.name.isLt; have := Kind.code_lt a.kind
  omega)
theorem Fetchable.cvtF64Z32 (d : RName) (a : Src) : Fetchable.Statement (.cvtF64Z32 d a) := Fetchable.of_eq rfl (by
  have := d.isLt; have := a.name.isLt; have := Kind.code_lt a.kind
  omega)
theorem Fetchable.cvtF64S64 (d : RName) (a : Src) (r : Rm) : Fetchable.Statement (.cvtF64S64 d a r) := Fetchable.of_eq rfl (by
  have := d.isLt; have := a.name.isLt; have := Kind.code_lt a.kind; have := Rm.code_lt r
  omega)
theorem Fetchable.cvtF64Z64 (d : RName) (a : Src) (r : Rm) : Fetchable.Statement (.cvtF64Z64 d a r) := Fetchable.of_eq rfl (by
  have := d.isLt; have := a.name.isLt; have := Kind.code_lt a.kind; have := Rm.code_lt r
  omega)
theorem Fetchable.qpack (d : RName) (a : Src) : Fetchable.Statement (.qpack d a) := Fetchable.of_eq rfl (by
  have := d.isLt; have := a.name.isLt; have := Kind.code_lt a.kind
  omega)
theorem Fetchable.qunpk (d : RName) (a : Src) : Fetchable.Statement (.qunpk d a) := Fetchable.of_eq rfl (by
  have := d.isLt; have := a.name.isLt; have := Kind.code_lt a.kind
  omega)
theorem Fetchable.fcmpEq (d : RName) (a : Src) (t : FTy) : Fetchable.Statement (.fcmpEq d a t) := Fetchable.of_eq rfl (by
  have := d.isLt; have := a.name.isLt; have := Kind.code_lt a.kind; have := FTy.code_lt t
  omega)
theorem Fetchable.fcmpNe (d : RName) (a : Src) (t : FTy) : Fetchable.Statement (.fcmpNe d a t) := Fetchable.of_eq rfl (by
  have := d.isLt; have := a.name.isLt; have := Kind.code_lt a.kind; have := FTy.code_lt t
  omega)
theorem Fetchable.fcmpLt (d : RName) (a : Src) (t : FTy) : Fetchable.Statement (.fcmpLt d a t) := Fetchable.of_eq rfl (by
  have := d.isLt; have := a.name.isLt; have := Kind.code_lt a.kind; have := FTy.code_lt t
  omega)
theorem Fetchable.fcmpLe (d : RName) (a : Src) (t : FTy) : Fetchable.Statement (.fcmpLe d a t) := Fetchable.of_eq rfl (by
  have := d.isLt; have := a.name.isLt; have := Kind.code_lt a.kind; have := FTy.code_lt t
  omega)
theorem Fetchable.fcmpUn (d : RName) (a : Src) (t : FTy) : Fetchable.Statement (.fcmpUn d a t) := Fetchable.of_eq rfl (by
  have := d.isLt; have := a.name.isLt; have := Kind.code_lt a.kind; have := FTy.code_lt t
  omega)
theorem Fetchable.fclass (d : RName) (a : Src) (t : FTy) : Fetchable.Statement (.fclass d a t) := Fetchable.of_eq rfl (by
  have := d.isLt; have := a.name.isLt; have := Kind.code_lt a.kind; have := FTy.code_lt t
  omega)
theorem Fetchable.xall (d : RName) (a : RName) : Fetchable.Statement (.xall d a) := Fetchable.of_eq rfl (by
  have := d.isLt; have := a.isLt
  omega)
theorem Fetchable.xany (d : RName) (a : RName) : Fetchable.Statement (.xany d a) := Fetchable.of_eq rfl (by
  have := d.isLt; have := a.isLt
  omega)
theorem Fetchable.xeq (d : RName) (a : RName) : Fetchable.Statement (.xeq d a) := Fetchable.of_eq rfl (by
  have := d.isLt; have := a.isLt
  omega)
theorem Fetchable.xbits (d : RName) (a : RName) : Fetchable.Statement (.xbits d a) := Fetchable.of_eq rfl (by
  have := d.isLt; have := a.isLt
  omega)
theorem Fetchable.xget (d : RName) (a : RName) : Fetchable.Statement (.xget d a) := Fetchable.of_eq rfl (by
  have := d.isLt; have := a.isLt
  omega)
theorem Fetchable.xspread (d : RName) (a : RName) : Fetchable.Statement (.xspread d a) := Fetchable.of_eq rfl (by
  have := d.isLt; have := a.isLt
  omega)
theorem Fetchable.xpermAbs (d : RName) (a : RName) : Fetchable.Statement (.xpermAbs d a) := Fetchable.of_eq rfl (by
  have := d.isLt; have := a.isLt
  omega)
theorem Fetchable.xpermLo (d : RName) (a : RName) (w : Bool) : Fetchable.Statement (.xpermLo d a w) := Fetchable.of_eq rfl (by
  have := d.isLt; have := a.isLt; have := boolCode_lt w
  omega)
theorem Fetchable.xpermHi (d : RName) (a : RName) (w : Bool) : Fetchable.Statement (.xpermHi d a w) := Fetchable.of_eq rfl (by
  have := d.isLt; have := a.isLt; have := boolCode_lt w
  omega)
theorem Fetchable.xpermFlip (d : RName) (a : RName) : Fetchable.Statement (.xpermFlip d a) := Fetchable.of_eq rfl (by
  have := d.isLt; have := a.isLt
  omega)
theorem Fetchable.xsame (d : RName) (a : RName) : Fetchable.Statement (.xsame d a) := Fetchable.of_eq rfl (by
  have := d.isLt; have := a.isLt
  omega)
theorem Fetchable.scanAdd (d : RName) (a : RName) (e : Bool) : Fetchable.Statement (.scanAdd d a e) := Fetchable.of_eq rfl (by
  have := d.isLt; have := a.isLt; have := boolCode_lt e
  omega)
theorem Fetchable.scanMinS32 (d : RName) (a : RName) (e : Bool) : Fetchable.Statement (.scanMinS32 d a e) := Fetchable.of_eq rfl (by
  have := d.isLt; have := a.isLt; have := boolCode_lt e
  omega)
theorem Fetchable.scanMinZ32 (d : RName) (a : RName) (e : Bool) : Fetchable.Statement (.scanMinZ32 d a e) := Fetchable.of_eq rfl (by
  have := d.isLt; have := a.isLt; have := boolCode_lt e
  omega)
theorem Fetchable.scanMaxS32 (d : RName) (a : RName) (e : Bool) : Fetchable.Statement (.scanMaxS32 d a e) := Fetchable.of_eq rfl (by
  have := d.isLt; have := a.isLt; have := boolCode_lt e
  omega)
theorem Fetchable.scanMaxZ32 (d : RName) (a : RName) (e : Bool) : Fetchable.Statement (.scanMaxZ32 d a e) := Fetchable.of_eq rfl (by
  have := d.isLt; have := a.isLt; have := boolCode_lt e
  omega)
theorem Fetchable.scanAnd (d : RName) (a : RName) (e : Bool) : Fetchable.Statement (.scanAnd d a e) := Fetchable.of_eq rfl (by
  have := d.isLt; have := a.isLt; have := boolCode_lt e
  omega)
theorem Fetchable.scanOr (d : RName) (a : RName) (e : Bool) : Fetchable.Statement (.scanOr d a e) := Fetchable.of_eq rfl (by
  have := d.isLt; have := a.isLt; have := boolCode_lt e
  omega)
theorem Fetchable.scanXor (d : RName) (a : RName) (e : Bool) : Fetchable.Statement (.scanXor d a e) := Fetchable.of_eq rfl (by
  have := d.isLt; have := a.isLt; have := boolCode_lt e
  omega)
theorem Fetchable.scanFaddF32 (d : RName) (a : RName) (e : Bool) : Fetchable.Statement (.scanFaddF32 d a e) := Fetchable.of_eq rfl (by
  have := d.isLt; have := a.isLt; have := boolCode_lt e
  omega)
theorem Fetchable.scanFminF32 (d : RName) (a : RName) (e : Bool) : Fetchable.Statement (.scanFminF32 d a e) := Fetchable.of_eq rfl (by
  have := d.isLt; have := a.isLt; have := boolCode_lt e
  omega)
theorem Fetchable.scanFmaxF32 (d : RName) (a : RName) (e : Bool) : Fetchable.Statement (.scanFmaxF32 d a e) := Fetchable.of_eq rfl (by
  have := d.isLt; have := a.isLt; have := boolCode_lt e
  omega)
theorem Fetchable.redAdd (d : RName) (a : RName) : Fetchable.Statement (.redAdd d a) := Fetchable.of_eq rfl (by
  have := d.isLt; have := a.isLt
  omega)
theorem Fetchable.redMinS32 (d : RName) (a : RName) : Fetchable.Statement (.redMinS32 d a) := Fetchable.of_eq rfl (by
  have := d.isLt; have := a.isLt
  omega)
theorem Fetchable.redMinZ32 (d : RName) (a : RName) : Fetchable.Statement (.redMinZ32 d a) := Fetchable.of_eq rfl (by
  have := d.isLt; have := a.isLt
  omega)
theorem Fetchable.redMaxS32 (d : RName) (a : RName) : Fetchable.Statement (.redMaxS32 d a) := Fetchable.of_eq rfl (by
  have := d.isLt; have := a.isLt
  omega)
theorem Fetchable.redMaxZ32 (d : RName) (a : RName) : Fetchable.Statement (.redMaxZ32 d a) := Fetchable.of_eq rfl (by
  have := d.isLt; have := a.isLt
  omega)
theorem Fetchable.redAnd (d : RName) (a : RName) : Fetchable.Statement (.redAnd d a) := Fetchable.of_eq rfl (by
  have := d.isLt; have := a.isLt
  omega)
theorem Fetchable.redOr (d : RName) (a : RName) : Fetchable.Statement (.redOr d a) := Fetchable.of_eq rfl (by
  have := d.isLt; have := a.isLt
  omega)
theorem Fetchable.redXor (d : RName) (a : RName) : Fetchable.Statement (.redXor d a) := Fetchable.of_eq rfl (by
  have := d.isLt; have := a.isLt
  omega)
theorem Fetchable.redFaddF32 (d : RName) (a : RName) : Fetchable.Statement (.redFaddF32 d a) := Fetchable.of_eq rfl (by
  have := d.isLt; have := a.isLt
  omega)
theorem Fetchable.redFminF32 (d : RName) (a : RName) : Fetchable.Statement (.redFminF32 d a) := Fetchable.of_eq rfl (by
  have := d.isLt; have := a.isLt
  omega)
theorem Fetchable.redFmaxF32 (d : RName) (a : RName) : Fetchable.Statement (.redFmaxF32 d a) := Fetchable.of_eq rfl (by
  have := d.isLt; have := a.isLt
  omega)
theorem Fetchable.spawn (d : RName) (a : Src) : Fetchable.Statement (.spawn d a) := Fetchable.of_eq rfl (by
  have := d.isLt; have := a.name.isLt; have := Kind.code_lt a.kind
  omega)
theorem Fetchable.spawnTry (d : RName) (a : Src) : Fetchable.Statement (.spawnTry d a) := Fetchable.of_eq rfl (by
  have := d.isLt; have := a.name.isLt; have := Kind.code_lt a.kind
  omega)
theorem Fetchable.join (a : Src) : Fetchable.Statement (.join a) := Fetchable.of_eq rfl (by
  have := a.name.isLt; have := Kind.code_lt a.kind
  omega)
theorem Fetchable.mon (a : Src) : Fetchable.Statement (.mon a) := Fetchable.of_eq rfl (by
  have := a.name.isLt; have := Kind.code_lt a.kind
  omega)
theorem Fetchable.mwait : Fetchable.Statement .mwait := Fetchable.of_eq rfl (by decide)
theorem Fetchable.qinit (q : BitVec 3) (a : Src) : Fetchable.Statement (.qinit q a) := Fetchable.of_eq rfl (by
  have := q.isLt; have := a.name.isLt; have := Kind.code_lt a.kind
  omega)
theorem Fetchable.qpush (q : BitVec 3) (a : Src) : Fetchable.Statement (.qpush q a) := Fetchable.of_eq rfl (by
  have := q.isLt; have := a.name.isLt; have := Kind.code_lt a.kind
  omega)
theorem Fetchable.qpop (d : RName) (a : Src) : Fetchable.Statement (.qpop d a) := Fetchable.of_eq rfl (by
  have := d.isLt; have := a.name.isLt; have := Kind.code_lt a.kind
  omega)
theorem Fetchable.qtry (d : RName) (a : Src) : Fetchable.Statement (.qtry d a) := Fetchable.of_eq rfl (by
  have := d.isLt; have := a.name.isLt; have := Kind.code_lt a.kind
  omega)
theorem Fetchable.allow (q : BitVec 3) (a : Src) : Fetchable.Statement (.allow q a) := Fetchable.of_eq rfl (by
  have := q.isLt; have := a.name.isLt; have := Kind.code_lt a.kind
  omega)
theorem Fetchable.stagepush (d : RName) (a : Src) : Fetchable.Statement (.stagepush d a) := Fetchable.of_eq rfl (by
  have := d.isLt; have := a.name.isLt; have := Kind.code_lt a.kind
  omega)
theorem Fetchable.amsg (d : RName) (a : Src) : Fetchable.Statement (.amsg d a) := Fetchable.of_eq rfl (by
  have := d.isLt; have := a.name.isLt; have := Kind.code_lt a.kind
  omega)
theorem Fetchable.mma (b : BitVec 4) (c : BitVec 2) (i : BitVec 3) (a : BitVec 4) : Fetchable.Statement (.mma b c i a) := Fetchable.of_eq rfl (by
  have := b.isLt; have := c.isLt; have := i.isLt; have := a.isLt
  omega)
theorem Fetchable.mzero (c : BitVec 2) : Fetchable.Statement (.mzero c) := Fetchable.of_eq rfl (by
  have := c.isLt
  omega)
theorem Fetchable.obres (n : BitVec 4) (a : Src) : Fetchable.Statement (.obres n a) := Fetchable.of_eq rfl (by
  have := n.isLt; have := a.name.isLt; have := Kind.code_lt a.kind
  omega)
theorem Fetchable.obrel (n : BitVec 4) : Fetchable.Statement (.obrel n) := Fetchable.of_eq rfl (by
  have := n.isLt
  omega)
theorem Fetchable.obimp (n : BitVec 4) (a : Src) : Fetchable.Statement (.obimp n a) := Fetchable.of_eq rfl (by
  have := n.isLt; have := a.name.isLt; have := Kind.code_lt a.kind
  omega)
theorem Fetchable.mdrainF32Sp (a : RName) (m : Bool) (c : Bool) : Fetchable.Statement (.mdrainF32Sp a m c) := Fetchable.of_eq rfl (by
  have := a.isLt; have := boolCode_lt m; have := boolCode_lt c
  omega)
theorem Fetchable.mdrainBf16Sp (a : RName) (m : Bool) (c : Bool) : Fetchable.Statement (.mdrainBf16Sp a m c) := Fetchable.of_eq rfl (by
  have := a.isLt; have := boolCode_lt m; have := boolCode_lt c
  omega)
theorem Fetchable.mdrainE4m3Sp (a : RName) (m : Bool) (c : Bool) : Fetchable.Statement (.mdrainE4m3Sp a m c) := Fetchable.of_eq rfl (by
  have := a.isLt; have := boolCode_lt m; have := boolCode_lt c
  omega)
theorem Fetchable.mdrainE5m2Sp (a : RName) (m : Bool) (c : Bool) : Fetchable.Statement (.mdrainE5m2Sp a m c) := Fetchable.of_eq rfl (by
  have := a.isLt; have := boolCode_lt m; have := boolCode_lt c
  omega)
theorem Fetchable.mdrainF32 (d : RName) (a : RName) (m : Bool) (c : Bool) : Fetchable.Statement (.mdrainF32 d a m c) := Fetchable.of_eq rfl (by
  have := d.isLt; have := a.isLt; have := boolCode_lt m; have := boolCode_lt c
  omega)
theorem Fetchable.mdrainBf16 (d : RName) (a : RName) (m : Bool) (c : Bool) : Fetchable.Statement (.mdrainBf16 d a m c) := Fetchable.of_eq rfl (by
  have := d.isLt; have := a.isLt; have := boolCode_lt m; have := boolCode_lt c
  omega)
theorem Fetchable.mtake : Fetchable.Statement .mtake := Fetchable.of_eq rfl (by decide)
theorem Fetchable.mpass : Fetchable.Statement .mpass := Fetchable.of_eq rfl (by decide)
theorem Fetchable.cpy (d : RName) (a : RName) (k : Bool) : Fetchable.Statement (.cpy d a k) := Fetchable.of_eq rfl (by
  have := d.isLt; have := a.isLt; have := boolCode_lt k
  omega)
theorem Fetchable.cpym (d : RName) (a : RName) (k : Bool) : Fetchable.Statement (.cpym d a k) := Fetchable.of_eq rfl (by
  have := d.isLt; have := a.isLt; have := boolCode_lt k
  omega)
theorem Fetchable.gath (d : RName) (a : RName) (k : Bool) : Fetchable.Statement (.gath d a k) := Fetchable.of_eq rfl (by
  have := d.isLt; have := a.isLt; have := boolCode_lt k
  omega)
theorem Fetchable.xred (d : RName) (a : RName) (k : Bool) : Fetchable.Statement (.xred d a k) := Fetchable.of_eq rfl (by
  have := d.isLt; have := a.isLt; have := boolCode_lt k
  omega)
theorem Fetchable.tagwaitAny (a : Src) : Fetchable.Statement (.tagwaitAny a) := Fetchable.of_eq rfl (by
  have := a.name.isLt; have := Kind.code_lt a.kind
  omega)
theorem Fetchable.tagwaitAll (a : Src) : Fetchable.Statement (.tagwaitAll a) := Fetchable.of_eq rfl (by
  have := a.name.isLt; have := Kind.code_lt a.kind
  omega)
theorem Fetchable.tagff (d : RName) (a : Src) : Fetchable.Statement (.tagff d a) := Fetchable.of_eq rfl (by
  have := d.isLt; have := a.name.isLt; have := Kind.code_lt a.kind
  omega)
theorem Fetchable.fence (s : Scope) (o : Ord) : Fetchable.Statement (.fence s o) := Fetchable.of_eq rfl (by
  have := Scope.code_lt s; have := Ord.code_lt o
  omega)
theorem Fetchable.fencex (p : BitVec 5) (q : BitVec 5) (s : Scope) : Fetchable.Statement (.fencex p q s) := Fetchable.of_eq rfl (by
  have := p.isLt; have := q.isLt; have := Scope.code_lt s
  omega)
theorem Fetchable.prefL1 (a : RName) (h : Hint) (x : Bool) : Fetchable.Statement (.prefL1 a h x) := Fetchable.of_eq rfl (by
  have := a.isLt; have := Hint.code_lt h; have := boolCode_lt x
  omega)
theorem Fetchable.prefLlc (a : RName) (h : Hint) (x : Bool) : Fetchable.Statement (.prefLlc a h x) := Fetchable.of_eq rfl (by
  have := a.isLt; have := Hint.code_lt h; have := boolCode_lt x
  omega)
theorem Fetchable.prefDemote (a : RName) (x : Bool) : Fetchable.Statement (.prefDemote a x) := Fetchable.of_eq rfl (by
  have := a.isLt; have := boolCode_lt x
  omega)
theorem Fetchable.cld (d : RName) (a : Src) : Fetchable.Statement (.cld d a) := Fetchable.of_eq rfl (by
  have := d.isLt; have := a.name.isLt; have := Kind.code_lt a.kind
  omega)
theorem Fetchable.trap (a : Src) : Fetchable.Statement (.trap a) := Fetchable.of_eq rfl (by
  have := a.name.isLt; have := Kind.code_lt a.kind
  omega)
theorem Fetchable.bkpt : Fetchable.Statement .bkpt := Fetchable.of_eq rfl (by decide)
theorem Fetchable.eret : Fetchable.Statement .eret := Fetchable.of_eq rfl (by decide)
theorem Fetchable.eretKill : Fetchable.Statement .eretKill := Fetchable.of_eq rfl (by decide)
theorem Fetchable.rdsr (d : RName) (n : BitVec 7) : Fetchable.Statement (.rdsr d n) := Fetchable.of_eq rfl (by
  have := d.isLt; have := n.isLt
  omega)
theorem Fetchable.wrsr (n : BitVec 7) (a : Src) : Fetchable.Statement (.wrsr n a) := Fetchable.of_eq rfl (by
  have := n.isLt; have := a.name.isLt; have := Kind.code_lt a.kind
  omega)
theorem Fetchable.gsave (a : RName) : Fetchable.Statement (.gsave a) := Fetchable.of_eq rfl (by
  have := a.isLt
  omega)
theorem Fetchable.grest (a : RName) : Fetchable.Statement (.grest a) := Fetchable.of_eq rfl (by
  have := a.isLt
  omega)
theorem Fetchable.isync : Fetchable.Statement .isync := Fetchable.of_eq rfl (by decide)
theorem Fetchable.yield : Fetchable.Statement .yield := Fetchable.of_eq rfl (by decide)
theorem Fetchable.ldS8 (t : RName) (b : RName) (o : BitVec 4) (r : Ord) (s : Scope) (h : Hint) : Fetchable.Statement (.ldS8 t b o r s h) := Fetchable.of_eq rfl (by
  have := t.isLt; have := b.isLt; have := o.isLt; have := Ord.code_lt r; have := Scope.code_lt s; have := Hint.code_lt h
  omega)
theorem Fetchable.ldZ8 (t : RName) (b : RName) (o : BitVec 4) (r : Ord) (s : Scope) (h : Hint) : Fetchable.Statement (.ldZ8 t b o r s h) := Fetchable.of_eq rfl (by
  have := t.isLt; have := b.isLt; have := o.isLt; have := Ord.code_lt r; have := Scope.code_lt s; have := Hint.code_lt h
  omega)
theorem Fetchable.ldS16 (t : RName) (b : RName) (o : BitVec 4) (r : Ord) (s : Scope) (h : Hint) : Fetchable.Statement (.ldS16 t b o r s h) := Fetchable.of_eq rfl (by
  have := t.isLt; have := b.isLt; have := o.isLt; have := Ord.code_lt r; have := Scope.code_lt s; have := Hint.code_lt h
  omega)
theorem Fetchable.ldZ16 (t : RName) (b : RName) (o : BitVec 4) (r : Ord) (s : Scope) (h : Hint) : Fetchable.Statement (.ldZ16 t b o r s h) := Fetchable.of_eq rfl (by
  have := t.isLt; have := b.isLt; have := o.isLt; have := Ord.code_lt r; have := Scope.code_lt s; have := Hint.code_lt h
  omega)
theorem Fetchable.ldS32 (t : RName) (b : RName) (o : BitVec 4) (r : Ord) (s : Scope) (h : Hint) : Fetchable.Statement (.ldS32 t b o r s h) := Fetchable.of_eq rfl (by
  have := t.isLt; have := b.isLt; have := o.isLt; have := Ord.code_lt r; have := Scope.code_lt s; have := Hint.code_lt h
  omega)
theorem Fetchable.ld64 (t : RName) (b : RName) (o : BitVec 4) (r : Ord) (s : Scope) (h : Hint) : Fetchable.Statement (.ld64 t b o r s h) := Fetchable.of_eq rfl (by
  have := t.isLt; have := b.isLt; have := o.isLt; have := Ord.code_lt r; have := Scope.code_lt s; have := Hint.code_lt h
  omega)
theorem Fetchable.st8 (t : RName) (b : RName) (o : BitVec 4) (r : Ord) (s : Scope) (h : Hint) : Fetchable.Statement (.st8 t b o r s h) := Fetchable.of_eq rfl (by
  have := t.isLt; have := b.isLt; have := o.isLt; have := Ord.code_lt r; have := Scope.code_lt s; have := Hint.code_lt h
  omega)
theorem Fetchable.st16 (t : RName) (b : RName) (o : BitVec 4) (r : Ord) (s : Scope) (h : Hint) : Fetchable.Statement (.st16 t b o r s h) := Fetchable.of_eq rfl (by
  have := t.isLt; have := b.isLt; have := o.isLt; have := Ord.code_lt r; have := Scope.code_lt s; have := Hint.code_lt h
  omega)
theorem Fetchable.st32 (t : RName) (b : RName) (o : BitVec 4) (r : Ord) (s : Scope) (h : Hint) : Fetchable.Statement (.st32 t b o r s h) := Fetchable.of_eq rfl (by
  have := t.isLt; have := b.isLt; have := o.isLt; have := Ord.code_lt r; have := Scope.code_lt s; have := Hint.code_lt h
  omega)
theorem Fetchable.st64 (t : RName) (b : RName) (o : BitVec 4) (r : Ord) (s : Scope) (h : Hint) : Fetchable.Statement (.st64 t b o r s h) := Fetchable.of_eq rfl (by
  have := t.isLt; have := b.isLt; have := o.isLt; have := Ord.code_lt r; have := Scope.code_lt s; have := Hint.code_lt h
  omega)
theorem Fetchable.sld32 (t : RName) (b : RName) (o : BitVec 4) (r : Ord) (s : Scope) (h : Hint) : Fetchable.Statement (.sld32 t b o r s h) := Fetchable.of_eq rfl (by
  have := t.isLt; have := b.isLt; have := o.isLt; have := Ord.code_lt r; have := Scope.code_lt s; have := Hint.code_lt h
  omega)
theorem Fetchable.sld64 (t : RName) (b : RName) (o : BitVec 4) (r : Ord) (s : Scope) (h : Hint) : Fetchable.Statement (.sld64 t b o r s h) := Fetchable.of_eq rfl (by
  have := t.isLt; have := b.isLt; have := o.isLt; have := Ord.code_lt r; have := Scope.code_lt s; have := Hint.code_lt h
  omega)
theorem Fetchable.sst32 (t : RName) (b : RName) (o : BitVec 4) (r : Ord) (s : Scope) (h : Hint) : Fetchable.Statement (.sst32 t b o r s h) := Fetchable.of_eq rfl (by
  have := t.isLt; have := b.isLt; have := o.isLt; have := Ord.code_lt r; have := Scope.code_lt s; have := Hint.code_lt h
  omega)
theorem Fetchable.sst64 (t : RName) (b : RName) (o : BitVec 4) (r : Ord) (s : Scope) (h : Hint) : Fetchable.Statement (.sst64 t b o r s h) := Fetchable.of_eq rfl (by
  have := t.isLt; have := b.isLt; have := o.isLt; have := Ord.code_lt r; have := Scope.code_lt s; have := Hint.code_lt h
  omega)
theorem Fetchable.atomAdd32 (t : RName) (b : RName) (r : Ord) (s : Scope) (h : Hint) : Fetchable.Statement (.atomAdd32 t b r s h) := Fetchable.of_eq rfl (by
  have := t.isLt; have := b.isLt; have := Ord.code_lt r; have := Scope.code_lt s; have := Hint.code_lt h
  omega)
theorem Fetchable.atomMinS32 (t : RName) (b : RName) (r : Ord) (s : Scope) (h : Hint) : Fetchable.Statement (.atomMinS32 t b r s h) := Fetchable.of_eq rfl (by
  have := t.isLt; have := b.isLt; have := Ord.code_lt r; have := Scope.code_lt s; have := Hint.code_lt h
  omega)
theorem Fetchable.atomMinZ32 (t : RName) (b : RName) (r : Ord) (s : Scope) (h : Hint) : Fetchable.Statement (.atomMinZ32 t b r s h) := Fetchable.of_eq rfl (by
  have := t.isLt; have := b.isLt; have := Ord.code_lt r; have := Scope.code_lt s; have := Hint.code_lt h
  omega)
theorem Fetchable.atomMaxS32 (t : RName) (b : RName) (r : Ord) (s : Scope) (h : Hint) : Fetchable.Statement (.atomMaxS32 t b r s h) := Fetchable.of_eq rfl (by
  have := t.isLt; have := b.isLt; have := Ord.code_lt r; have := Scope.code_lt s; have := Hint.code_lt h
  omega)
theorem Fetchable.atomMaxZ32 (t : RName) (b : RName) (r : Ord) (s : Scope) (h : Hint) : Fetchable.Statement (.atomMaxZ32 t b r s h) := Fetchable.of_eq rfl (by
  have := t.isLt; have := b.isLt; have := Ord.code_lt r; have := Scope.code_lt s; have := Hint.code_lt h
  omega)
theorem Fetchable.atomAnd32 (t : RName) (b : RName) (r : Ord) (s : Scope) (h : Hint) : Fetchable.Statement (.atomAnd32 t b r s h) := Fetchable.of_eq rfl (by
  have := t.isLt; have := b.isLt; have := Ord.code_lt r; have := Scope.code_lt s; have := Hint.code_lt h
  omega)
theorem Fetchable.atomOr32 (t : RName) (b : RName) (r : Ord) (s : Scope) (h : Hint) : Fetchable.Statement (.atomOr32 t b r s h) := Fetchable.of_eq rfl (by
  have := t.isLt; have := b.isLt; have := Ord.code_lt r; have := Scope.code_lt s; have := Hint.code_lt h
  omega)
theorem Fetchable.atomXor32 (t : RName) (b : RName) (r : Ord) (s : Scope) (h : Hint) : Fetchable.Statement (.atomXor32 t b r s h) := Fetchable.of_eq rfl (by
  have := t.isLt; have := b.isLt; have := Ord.code_lt r; have := Scope.code_lt s; have := Hint.code_lt h
  omega)
theorem Fetchable.atomSwap32 (t : RName) (b : RName) (r : Ord) (s : Scope) (h : Hint) : Fetchable.Statement (.atomSwap32 t b r s h) := Fetchable.of_eq rfl (by
  have := t.isLt; have := b.isLt; have := Ord.code_lt r; have := Scope.code_lt s; have := Hint.code_lt h
  omega)
theorem Fetchable.atomCas32 (t : RName) (b : RName) (r : Ord) (s : Scope) (h : Hint) : Fetchable.Statement (.atomCas32 t b r s h) := Fetchable.of_eq rfl (by
  have := t.isLt; have := b.isLt; have := Ord.code_lt r; have := Scope.code_lt s; have := Hint.code_lt h
  omega)
theorem Fetchable.atomAdd64 (t : RName) (b : RName) (r : Ord) (s : Scope) (h : Hint) : Fetchable.Statement (.atomAdd64 t b r s h) := Fetchable.of_eq rfl (by
  have := t.isLt; have := b.isLt; have := Ord.code_lt r; have := Scope.code_lt s; have := Hint.code_lt h
  omega)
theorem Fetchable.atomMinS64 (t : RName) (b : RName) (r : Ord) (s : Scope) (h : Hint) : Fetchable.Statement (.atomMinS64 t b r s h) := Fetchable.of_eq rfl (by
  have := t.isLt; have := b.isLt; have := Ord.code_lt r; have := Scope.code_lt s; have := Hint.code_lt h
  omega)
theorem Fetchable.atomMinZ64 (t : RName) (b : RName) (r : Ord) (s : Scope) (h : Hint) : Fetchable.Statement (.atomMinZ64 t b r s h) := Fetchable.of_eq rfl (by
  have := t.isLt; have := b.isLt; have := Ord.code_lt r; have := Scope.code_lt s; have := Hint.code_lt h
  omega)
theorem Fetchable.atomMaxS64 (t : RName) (b : RName) (r : Ord) (s : Scope) (h : Hint) : Fetchable.Statement (.atomMaxS64 t b r s h) := Fetchable.of_eq rfl (by
  have := t.isLt; have := b.isLt; have := Ord.code_lt r; have := Scope.code_lt s; have := Hint.code_lt h
  omega)
theorem Fetchable.atomMaxZ64 (t : RName) (b : RName) (r : Ord) (s : Scope) (h : Hint) : Fetchable.Statement (.atomMaxZ64 t b r s h) := Fetchable.of_eq rfl (by
  have := t.isLt; have := b.isLt; have := Ord.code_lt r; have := Scope.code_lt s; have := Hint.code_lt h
  omega)
theorem Fetchable.atomAnd64 (t : RName) (b : RName) (r : Ord) (s : Scope) (h : Hint) : Fetchable.Statement (.atomAnd64 t b r s h) := Fetchable.of_eq rfl (by
  have := t.isLt; have := b.isLt; have := Ord.code_lt r; have := Scope.code_lt s; have := Hint.code_lt h
  omega)
theorem Fetchable.atomOr64 (t : RName) (b : RName) (r : Ord) (s : Scope) (h : Hint) : Fetchable.Statement (.atomOr64 t b r s h) := Fetchable.of_eq rfl (by
  have := t.isLt; have := b.isLt; have := Ord.code_lt r; have := Scope.code_lt s; have := Hint.code_lt h
  omega)
theorem Fetchable.atomXor64 (t : RName) (b : RName) (r : Ord) (s : Scope) (h : Hint) : Fetchable.Statement (.atomXor64 t b r s h) := Fetchable.of_eq rfl (by
  have := t.isLt; have := b.isLt; have := Ord.code_lt r; have := Scope.code_lt s; have := Hint.code_lt h
  omega)
theorem Fetchable.atomSwap64 (t : RName) (b : RName) (r : Ord) (s : Scope) (h : Hint) : Fetchable.Statement (.atomSwap64 t b r s h) := Fetchable.of_eq rfl (by
  have := t.isLt; have := b.isLt; have := Ord.code_lt r; have := Scope.code_lt s; have := Hint.code_lt h
  omega)
theorem Fetchable.atomCas64 (t : RName) (b : RName) (r : Ord) (s : Scope) (h : Hint) : Fetchable.Statement (.atomCas64 t b r s h) := Fetchable.of_eq rfl (by
  have := t.isLt; have := b.isLt; have := Ord.code_lt r; have := Scope.code_lt s; have := Hint.code_lt h
  omega)
theorem Fetchable.movi (d : RName) (i : BitVec 18) : Fetchable.Statement (.movi d i) := Fetchable.of_eq rfl (by
  have := d.isLt; have := i.isLt
  omega)
theorem Fetchable.movhi (d : RName) (i : BitVec 18) : Fetchable.Statement (.movhi d i) := Fetchable.of_eq rfl (by
  have := d.isLt; have := i.isLt
  omega)
theorem Fetchable.smovi (d : RName) (i : BitVec 18) : Fetchable.Statement (.smovi d i) := Fetchable.of_eq rfl (by
  have := d.isLt; have := i.isLt
  omega)
theorem Fetchable.smovhi (d : RName) (i : BitVec 18) : Fetchable.Statement (.smovhi d i) := Fetchable.of_eq rfl (by
  have := d.isLt; have := i.isLt
  omega)
theorem Fetchable.wbase (i : BitVec 18) : Fetchable.Statement (.wbase i) := Fetchable.of_eq rfl (by
  have := i.isLt
  omega)
theorem Fetchable.cbase (i : BitVec 9) : Fetchable.Statement (.cbase i) := Fetchable.of_eq rfl (by
  have := i.isLt
  omega)
theorem Fetchable.bar (k : BitVec 5) (n : BitVec 18) : Fetchable.Statement (.bar k n) := Fetchable.of_eq rfl (by
  have := k.isLt; have := n.isLt
  omega)
theorem Fetchable.rcv (s : RName) (b : BitVec 4) : Fetchable.Statement (.rcv s b) := Fetchable.of_eq rfl (by
  have := s.isLt; have := b.isLt
  omega)
theorem Fetchable.bnz (c : RName) (o : BitVec 18) : Fetchable.Statement (.bnz c o) := Fetchable.of_eq rfl (by
  have := c.isLt; have := o.isLt
  omega)
theorem Fetchable.bra (o : BitVec 18) : Fetchable.Statement (.bra o) := Fetchable.of_eq rfl (by
  have := o.isLt
  omega)
theorem Fetchable.bz (c : RName) (o : BitVec 18) : Fetchable.Statement (.bz c o) := Fetchable.of_eq rfl (by
  have := c.isLt; have := o.isLt
  omega)
theorem Fetchable.call (c : RName) (o : BitVec 18) : Fetchable.Statement (.call c o) := Fetchable.of_eq rfl (by
  have := c.isLt; have := o.isLt
  omega)
theorem Fetchable.jmpi (c : RName) : Fetchable.Statement (.jmpi c) := Fetchable.of_eq rfl (by
  have := c.isLt
  omega)
theorem Fetchable.calli (c : RName) : Fetchable.Statement (.calli c) := Fetchable.of_eq rfl (by
  have := c.isLt
  omega)
theorem Fetchable.ret (c : RName) : Fetchable.Statement (.ret c) := Fetchable.of_eq rfl (by
  have := c.isLt
  omega)
theorem Fetchable.exit (c : RName) : Fetchable.Statement (.exit c) := Fetchable.of_eq rfl (by
  have := c.isLt
  omega)
theorem Fetchable.longLatencyComplete (id : Nat) : Fetchable.Statement (.longLatencyComplete id) := Fetchable.of_none rfl
theorem Fetchable.storeAcknowledge (id : Nat) (lane : Nat) : Fetchable.Statement (.storeAcknowledge id lane) := Fetchable.of_none rfl
theorem Fetchable.orderingPointAccess (id : Nat) (lane : Nat) : Fetchable.Statement (.orderingPointAccess id lane) := Fetchable.of_none rfl
theorem Fetchable.leaseRequest (id : Nat) (lane : Nat) : Fetchable.Statement (.leaseRequest id lane) := Fetchable.of_none rfl
theorem Fetchable.leaseRecall (core : Nat) (line : Nat) : Fetchable.Statement (.leaseRecall core line) := Fetchable.of_none rfl
theorem Fetchable.readHoldExpiry (die : Nat) (line : Nat) : Fetchable.Statement (.readHoldExpiry die line) := Fetchable.of_none rfl
theorem Fetchable.rds (k : Nat) : Fetchable.Statement (.rds k) := Fetchable.of_none rfl
theorem Fetchable.rdx (k : Nat) : Fetchable.Statement (.rdx k) := Fetchable.of_none rfl
theorem Fetchable.fwd (k : Nat) : Fetchable.Statement (.fwd k) := Fetchable.of_none rfl
theorem Fetchable.inv (k : Nat) : Fetchable.Statement (.inv k) := Fetchable.of_none rfl
theorem Fetchable.ack (k : Nat) : Fetchable.Statement (.ack k) := Fetchable.of_none rfl
theorem Fetchable.data (k : Nat) : Fetchable.Statement (.data k) := Fetchable.of_none rfl
theorem Fetchable.grant (k : Nat) : Fetchable.Statement (.grant k) := Fetchable.of_none rfl
theorem Fetchable.binv (k : Nat) : Fetchable.Statement (.binv k) := Fetchable.of_none rfl
theorem Fetchable.wb (k : Nat) : Fetchable.Statement (.wb k) := Fetchable.of_none rfl
theorem Fetchable.pageWalk (core : Nat) (page : Nat) : Fetchable.Statement (.pageWalk core page) := Fetchable.of_none rfl
theorem Fetchable.pageWalkTimeout (core : Nat) (slot : Nat) (lane : Nat) : Fetchable.Statement (.pageWalkTimeout core slot lane) := Fetchable.of_none rfl
theorem Fetchable.frespResolve (die : Nat) (rec : Nat) : Fetchable.Statement (.frespResolve die rec) := Fetchable.of_none rfl
theorem Fetchable.frespRefuse (die : Nat) (rec : Nat) : Fetchable.Statement (.frespRefuse die rec) := Fetchable.of_none rfl
theorem Fetchable.vldEqAtSlice (id : Nat) (lane : Nat) : Fetchable.Statement (.vldEqAtSlice id lane) := Fetchable.of_none rfl
theorem Fetchable.vldLeAtSlice (id : Nat) (lane : Nat) : Fetchable.Statement (.vldLeAtSlice id lane) := Fetchable.of_none rfl
theorem Fetchable.vstAtSlice (id : Nat) (lane : Nat) : Fetchable.Statement (.vstAtSlice id lane) := Fetchable.of_none rfl
theorem Fetchable.versionWaitTimeout (id : Nat) (lane : Nat) : Fetchable.Statement (.versionWaitTimeout id lane) := Fetchable.of_none rfl
theorem Fetchable.vldReturnRetry (id : Nat) (lane : Nat) : Fetchable.Statement (.vldReturnRetry id lane) := Fetchable.of_none rfl
theorem Fetchable.vfloorApply (id : Nat) (place : Nat) : Fetchable.Statement (.vfloorApply id place) := Fetchable.of_none rfl
theorem Fetchable.mwaitWake (core : Nat) (slot : Nat) (lane : Nat) : Fetchable.Statement (.mwaitWake core slot lane) := Fetchable.of_none rfl
theorem Fetchable.joinZero (core : Nat) (slot : Nat) (lane : Nat) : Fetchable.Statement (.joinZero core slot lane) := Fetchable.of_none rfl
theorem Fetchable.tagwaitSatisfied (core : Nat) (slot : Nat) (lane : Nat) : Fetchable.Statement (.tagwaitSatisfied core slot lane) := Fetchable.of_none rfl
theorem Fetchable.queueWordPerform (core : Nat) (slot : Nat) (lane : Nat) : Fetchable.Statement (.queueWordPerform core slot lane) := Fetchable.of_none rfl
theorem Fetchable.ringSpaceResume (core : Nat) (slot : Nat) (lane : Nat) : Fetchable.Statement (.ringSpaceResume core slot lane) := Fetchable.of_none rfl
theorem Fetchable.monitorTimeout (core : Nat) (slot : Nat) (lane : Nat) : Fetchable.Statement (.monitorTimeout core slot lane) := Fetchable.of_none rfl
theorem Fetchable.waveHaltStop (core : Nat) (slot : Nat) : Fetchable.Statement (.waveHaltStop core slot) := Fetchable.of_none rfl
theorem Fetchable.handlerEntry (gid : Nat) : Fetchable.Statement (.handlerEntry gid) := Fetchable.of_none rfl
theorem Fetchable.groupRetire (gid : Nat) : Fetchable.Statement (.groupRetire gid) := Fetchable.of_none rfl
theorem Fetchable.groupEnd (gid : Nat) : Fetchable.Statement (.groupEnd gid) := Fetchable.of_none rfl
theorem Fetchable.engineEntryStart (core : Nat) (cls : Nat) : Fetchable.Statement (.engineEntryStart core cls) := Fetchable.of_none rfl
theorem Fetchable.engineBeat (core : Nat) (cls : Nat) (seq : Nat) (beat : Nat) : Fetchable.Statement (.engineBeat core cls seq beat) := Fetchable.of_none rfl
theorem Fetchable.engineCommandComplete (core : Nat) (cls : Nat) (seq : Nat) : Fetchable.Statement (.engineCommandComplete core cls seq) := Fetchable.of_none rfl
theorem Fetchable.xredElement (core : Nat) (seq : Nat) (elem : Nat) : Fetchable.Statement (.xredElement core seq elem) := Fetchable.of_none rfl
theorem Fetchable.reductionContribution (die : Nat) (tree : Nat) (k : Nat) : Fetchable.Statement (.reductionContribution die tree k) := Fetchable.of_none rfl
theorem Fetchable.reductionUnitTimeout (die : Nat) (tree : Nat) (router : Nat) : Fetchable.Statement (.reductionUnitTimeout die tree router) := Fetchable.of_none rfl
theorem Fetchable.followOnIssue (core : Nat) : Fetchable.Statement (.followOnIssue core) := Fetchable.of_none rfl
theorem Fetchable.mmaStart (core : Nat) : Fetchable.Statement (.mmaStart core) := Fetchable.of_none rfl
theorem Fetchable.mmaCheck (core : Nat) (pass : Bool) : Fetchable.Statement (.mmaCheck core pass) := Fetchable.of_none rfl
theorem Fetchable.drainPortOperation (core : Nat) (id : Nat) : Fetchable.Statement (.drainPortOperation core id) := Fetchable.of_none rfl
theorem Fetchable.binWindowExpiry (core : Nat) (k : Nat) : Fetchable.Statement (.binWindowExpiry core k) := Fetchable.of_none rfl
theorem Fetchable.binAdmit (core : Nat) (k : Nat) : Fetchable.Statement (.binAdmit core k) := Fetchable.of_none rfl
theorem Fetchable.dispatchDecision (die : Nat) : Fetchable.Statement (.dispatchDecision die) := Fetchable.of_none rfl
theorem Fetchable.coreContextPass (core : Nat) (ctx : Nat) : Fetchable.Statement (.coreContextPass core ctx) := Fetchable.of_none rfl
theorem Fetchable.spawnDeadlockEviction (die : Nat) (ctx : Nat) : Fetchable.Statement (.spawnDeadlockEviction die ctx) := Fetchable.of_none rfl
theorem Fetchable.amsgDelivery (die : Nat) : Fetchable.Statement (.amsgDelivery die) := Fetchable.of_none rfl
theorem Fetchable.stageGovernorTick (die : Nat) : Fetchable.Statement (.stageGovernorTick die) := Fetchable.of_none rfl
theorem Fetchable.stagePartialTake (die : Nat) (key : Nat) (stage : Nat) : Fetchable.Statement (.stagePartialTake die key stage) := Fetchable.of_none rfl
theorem Fetchable.wridx (die : Nat) (q : Nat) (size : Nat) (val : Nat) : Fetchable.Statement (.wridx die q size val) := Fetchable.of_none rfl
theorem Fetchable.queueDescriptorWrite (die : Nat) (off : Nat) (val : Nat) : Fetchable.Statement (.queueDescriptorWrite die off val) := Fetchable.of_none rfl
theorem Fetchable.mapperSlotFill (die : Nat) : Fetchable.Statement (.mapperSlotFill die) := Fetchable.of_none rfl
theorem Fetchable.queuePriorityAge (die : Nat) (q : Nat) : Fetchable.Statement (.queuePriorityAge die q) := Fetchable.of_none rfl
theorem Fetchable.idleQuantumExpiry (die : Nat) (q : Nat) : Fetchable.Statement (.idleQuantumExpiry die q) := Fetchable.of_none rfl
theorem Fetchable.launch (die : Nat) (q : Nat) : Fetchable.Statement (.launch die q) := Fetchable.of_none rfl
theorem Fetchable.jobCard (die : Nat) (q : Nat) : Fetchable.Statement (.jobCard die q) := Fetchable.of_none rfl
theorem Fetchable.pipeline (die : Nat) (q : Nat) : Fetchable.Statement (.pipeline die q) := Fetchable.of_none rfl
theorem Fetchable.waitOnWord (die : Nat) (q : Nat) : Fetchable.Statement (.waitOnWord die q) := Fetchable.of_none rfl
theorem Fetchable.signal (die : Nat) (q : Nat) : Fetchable.Statement (.signal die q) := Fetchable.of_none rfl
theorem Fetchable.pad (die : Nat) (q : Nat) : Fetchable.Statement (.pad die q) := Fetchable.of_none rfl
theorem Fetchable.launchTranslation (die : Nat) (key : Nat) : Fetchable.Statement (.launchTranslation die key) := Fetchable.of_none rfl
theorem Fetchable.regionArming (die : Nat) (key : Nat) : Fetchable.Statement (.regionArming die key) := Fetchable.of_none rfl
theorem Fetchable.launchComplete (die : Nat) (key : Nat) : Fetchable.Statement (.launchComplete die key) := Fetchable.of_none rfl
theorem Fetchable.waitOnWordRecheck (die : Nat) (q : Nat) : Fetchable.Statement (.waitOnWordRecheck die q) := Fetchable.of_none rfl
theorem Fetchable.waitOnWordTimeout (die : Nat) (q : Nat) : Fetchable.Statement (.waitOnWordTimeout die q) := Fetchable.of_none rfl
theorem Fetchable.cardReady (die : Nat) (key : Nat) : Fetchable.Statement (.cardReady die key) := Fetchable.of_none rfl
theorem Fetchable.cardComplete (die : Nat) (key : Nat) : Fetchable.Statement (.cardComplete die key) := Fetchable.of_none rfl
theorem Fetchable.pageClassCommand (die : Nat) (val : Nat) : Fetchable.Statement (.pageClassCommand die val) := Fetchable.of_none rfl
theorem Fetchable.invalidationCommand (die : Nat) (val : Nat) : Fetchable.Statement (.invalidationCommand die val) := Fetchable.of_none rfl
theorem Fetchable.regionDisarm (die : Nat) (val : Nat) : Fetchable.Statement (.regionDisarm die val) := Fetchable.of_none rfl
theorem Fetchable.heapGrant (die : Nat) (ctx : Nat) (val : Nat) : Fetchable.Statement (.heapGrant die ctx val) := Fetchable.of_none rfl
theorem Fetchable.pageZero (die : Nat) (val : Nat) : Fetchable.Statement (.pageZero die val) := Fetchable.of_none rfl
theorem Fetchable.keyLoad (die : Nat) (val : Nat) : Fetchable.Statement (.keyLoad die val) := Fetchable.of_none rfl
theorem Fetchable.keyErase (die : Nat) (val : Nat) : Fetchable.Statement (.keyErase die val) := Fetchable.of_none rfl
theorem Fetchable.contextRecordWrite (die : Nat) (off : Nat) (val : Nat) : Fetchable.Statement (.contextRecordWrite die off val) := Fetchable.of_none rfl
theorem Fetchable.preemptDrain (die : Nat) (ctx : Nat) : Fetchable.Statement (.preemptDrain die ctx) := Fetchable.of_none rfl
theorem Fetchable.preemptSave (die : Nat) (ctx : Nat) : Fetchable.Statement (.preemptSave die ctx) := Fetchable.of_none rfl
theorem Fetchable.contextResume (die : Nat) (ctx : Nat) : Fetchable.Statement (.contextResume die ctx) := Fetchable.of_none rfl
theorem Fetchable.contextReset (die : Nat) (ctx : Nat) : Fetchable.Statement (.contextReset die ctx) := Fetchable.of_none rfl
theorem Fetchable.preemptDeadlineExpiry (die : Nat) (ctx : Nat) : Fetchable.Statement (.preemptDeadlineExpiry die ctx) := Fetchable.of_none rfl
theorem Fetchable.plateWatchdogExpiry (plate : Nat) : Fetchable.Statement (.plateWatchdogExpiry plate) := Fetchable.of_none rfl
theorem Fetchable.platePortError (plate : Nat) : Fetchable.Statement (.platePortError plate) := Fetchable.of_none rfl
theorem Fetchable.thermalTrip (plate : Nat) : Fetchable.Statement (.thermalTrip plate) := Fetchable.of_none rfl
theorem Fetchable.plateDeclareLost (plate : Nat) : Fetchable.Statement (.plateDeclareLost plate) := Fetchable.of_none rfl
theorem Fetchable.plateResetReturn (plate : Nat) (pass : Bool) : Fetchable.Statement (.plateResetReturn plate pass) := Fetchable.of_none rfl
theorem Fetchable.sliceRetireNow (die : Nat) (slice : Nat) : Fetchable.Statement (.sliceRetireNow die slice) := Fetchable.of_none rfl
theorem Fetchable.bucketHandover (die : Nat) : Fetchable.Statement (.bucketHandover die) := Fetchable.of_none rfl
theorem Fetchable.treeEnable (die : Nat) (tree : Nat) (val : Nat) : Fetchable.Statement (.treeEnable die tree val) := Fetchable.of_none rfl
theorem Fetchable.fedBarrierArrival (die : Nat) (k : Nat) (ctx : Nat) (n : Nat) : Fetchable.Statement (.fedBarrierArrival die k ctx n) := Fetchable.of_none rfl
theorem Fetchable.fedAnnounce (die : Nat) (key : Nat) : Fetchable.Statement (.fedAnnounce die key) := Fetchable.of_none rfl
theorem Fetchable.controlRegisterWrite (die : Nat) (off : Nat) (size : Nat) (val : Nat) : Fetchable.Statement (.controlRegisterWrite die off size val) := Fetchable.of_none rfl
theorem Fetchable.scrub (die : Nat) (array : Nat) (index : Nat) : Fetchable.Statement (.scrub die array index) := Fetchable.of_none rfl
theorem Fetchable.uncorrectableError (die : Nat) (array : Nat) (index : Nat) : Fetchable.Statement (.uncorrectableError die array index) := Fetchable.of_none rfl
theorem Fetchable.meshFlitRetry (die : Nat) : Fetchable.Statement (.meshFlitRetry die) := Fetchable.of_none rfl
theorem Fetchable.meshLinkDown (die : Nat) (router : Nat) (dir : Nat) : Fetchable.Statement (.meshLinkDown die router dir) := Fetchable.of_none rfl
theorem Fetchable.d2dPacket (src : Nat) (dst : Nat) (seq : Nat) : Fetchable.Statement (.d2dPacket src dst seq) := Fetchable.of_none rfl
theorem Fetchable.linkRetrain (src : Nat) (dst : Nat) : Fetchable.Statement (.linkRetrain src dst) := Fetchable.of_none rfl
theorem Fetchable.linkDown (src : Nat) (dst : Nat) : Fetchable.Statement (.linkDown src dst) := Fetchable.of_none rfl
theorem Fetchable.crossDieTimeout (id : Nat) : Fetchable.Statement (.crossDieTimeout id) := Fetchable.of_none rfl
theorem Fetchable.hostBar4Read (die : Nat) (addr : Nat) (size : Nat) : Fetchable.Statement (.hostBar4Read die addr size) := Fetchable.of_none rfl
theorem Fetchable.hostPostedWrite (die : Nat) (addr : Nat) (size : Nat) (val : Nat) : Fetchable.Statement (.hostPostedWrite die addr size val) := Fetchable.of_none rfl
theorem Fetchable.hostAtomicop (die : Nat) (addr : Nat) (size : Nat) (op : Nat) (val : Nat) (cmp : Nat) : Fetchable.Statement (.hostAtomicop die addr size op val cmp) := Fetchable.of_none rfl
theorem Fetchable.hostCompletion (id : Nat) (good : Bool) : Fetchable.Statement (.hostCompletion id good) := Fetchable.of_none rfl
theorem Fetchable.fabricPacket (port : Nat) (flits : Nat) : Fetchable.Statement (.fabricPacket port flits) := Fetchable.of_none rfl
theorem Fetchable.wavelengthPark (port : Nat) : Fetchable.Statement (.wavelengthPark port) := Fetchable.of_none rfl
theorem Fetchable.wavelengthRelock (port : Nat) : Fetchable.Statement (.wavelengthRelock port) := Fetchable.of_none rfl
theorem Fetchable.wavelengthCrcFail (port : Nat) (wave : Nat) : Fetchable.Statement (.wavelengthCrcFail port wave) := Fetchable.of_none rfl
theorem Fetchable.getStatus : Fetchable.Statement .getStatus := Fetchable.of_none rfl
theorem Fetchable.readPower (die : Nat) : Fetchable.Statement (.readPower die) := Fetchable.of_none rfl
theorem Fetchable.readLog (die : Nat) (which : Nat) (index : Nat) : Fetchable.Statement (.readLog die which index) := Fetchable.of_none rfl
theorem Fetchable.resetDie (die : Nat) : Fetchable.Statement (.resetDie die) := Fetchable.of_none rfl
theorem Fetchable.fetchCrashRecord (die : Nat) : Fetchable.Statement (.fetchCrashRecord die) := Fetchable.of_none rfl
theorem Fetchable.enterDebugHalt (die : Nat) : Fetchable.Statement (.enterDebugHalt die) := Fetchable.of_none rfl
theorem Fetchable.leaveDebugHalt (die : Nat) : Fetchable.Statement (.leaveDebugHalt die) := Fetchable.of_none rfl
theorem Fetchable.getVersion (die : Nat) : Fetchable.Statement (.getVersion die) := Fetchable.of_none rfl
theorem Fetchable.getCapabilities (die : Nat) : Fetchable.Statement (.getCapabilities die) := Fetchable.of_none rfl
theorem Fetchable.negotiateAlgorithms (die : Nat) : Fetchable.Statement (.negotiateAlgorithms die) := Fetchable.of_none rfl
theorem Fetchable.getDigests (die : Nat) : Fetchable.Statement (.getDigests die) := Fetchable.of_none rfl
theorem Fetchable.getCertificate (die : Nat) : Fetchable.Statement (.getCertificate die) := Fetchable.of_none rfl
theorem Fetchable.challenge (die : Nat) (nonce : Nat) : Fetchable.Statement (.challenge die nonce) := Fetchable.of_none rfl
theorem Fetchable.getMeasurements (die : Nat) (index : Nat) : Fetchable.Statement (.getMeasurements die index) := Fetchable.of_none rfl
theorem Fetchable.moduleReset : Fetchable.Statement .moduleReset := Fetchable.of_none rfl
theorem Fetchable.imageCheck (die : Nat) (rsa : Bool) (slh : Bool) (version : Nat) (hash : Nat) : Fetchable.Statement (.imageCheck die rsa slh version hash) := Fetchable.of_none rfl
theorem Fetchable.memoryTraining (die : Nat) (gib : Nat) : Fetchable.Statement (.memoryTraining die gib) := Fetchable.of_none rfl
theorem Fetchable.plateSelfTest (die : Nat) (failed : Nat) : Fetchable.Statement (.plateSelfTest die failed) := Fetchable.of_none rfl
theorem Fetchable.regulatorSample (die : Nat) (power : Nat) : Fetchable.Statement (.regulatorSample die power) := Fetchable.of_none rfl
theorem Fetchable.watchRecord (core : Nat) (slot : Nat) (lane : Nat) : Fetchable.Statement (.watchRecord core slot lane) := Fetchable.of_none rfl
theorem Fetchable.fhead (die : Nat) (val : Nat) : Fetchable.Statement (.fhead die val) := Fetchable.of_none rfl
theorem Fetchable.faultDeliveryEnable (die : Nat) (val : Nat) : Fetchable.Statement (.faultDeliveryEnable die val) := Fetchable.of_none rfl
theorem Fetchable.fedBarrierEn (die : Nat) (k : Nat) (val : Nat) : Fetchable.Statement (.fedBarrierEn die k val) := Fetchable.of_none rfl

end Sys2Proof.Laws
end

