-- ==== Sys2Proof/Laws/Words.lean ====
section
/-! SUPPORT. What the shared operations of the words can do: how a word issues, and what a vector and a scalar result
write. -/

set_option Elab.async false

namespace Sys2Proof.Machine

/-! How a word issues. Whatever its effect, the machine goes on. -/

/-- The common checks of a word go on to its own part, or end in a trap. -/
theorem enter_next {ok : Bool} {srcs : List Src} {s : State} {k : Clause → Out} (h : ∀ c, ∃ t, k c = .next t) :
    ∃ t, enter ok srcs s k = .next t := by
  unfold enter
  split
  · split <;> exact ⟨_, rfl⟩
  · split
    · exact ⟨_, rfl⟩
    · split
      · exact ⟨_, rfl⟩
      · exact h _

theorem issueFixed_next (ok : Bool) (srcs : List Src) (f : State → Res) (s : State) : ∃ t, issueFixed ok srcs f s = .next t :=
  enter_next fun _ => by split <;> exact ⟨_, rfl⟩

theorem issueBarrier_next (ok : Bool) (f : State → Res) (s : State) : ∃ t, issueBarrier ok f s = .next t :=
  enter_next fun _ => by split <;> exact ⟨_, rfl⟩

theorem issueControl_next (ok : Bool) (srcs : List Src) (f : State → Res) (s : State) :
    ∃ t, issueControl ok srcs f s = .next t :=
  enter_next fun c => by
    by_cases h : c.pos + 1 < c.len
    · simp only [h, if_true]; exact ⟨_, rfl⟩
    · simp only [h, if_false]; split <;> exact ⟨_, rfl⟩

theorem issueWaiting_next (ok : Bool) (srcs : List Src) (onL rel : Bool) (f : State → Res) (s : State) :
    ∃ t, issueWaiting ok srcs onL rel f s = .next t :=
  enter_next fun _ => by
    split
    · exact ⟨_, rfl⟩
    · split <;> exact ⟨_, rfl⟩

theorem issueTurn_next (ok : Bool) (srcs : List Src) (rel go : Bool) (place ord : Nat) (f : State → Res) (s : State) :
    ∃ t, issueTurn ok srcs rel go place ord f s = .next t :=
  enter_next fun _ => by
    split
    · exact ⟨_, rfl⟩
    · split <;> exact ⟨_, rfl⟩

theorem issueLong_next (ok writes onL rel : Bool) (srcs : List Src) (f : Nat → State → Res) (s : State) :
    ∃ t, issueLong ok writes onL rel srcs f s = .next t :=
  enter_next fun _ => by
    split
    · exact ⟨_, rfl⟩
    · split
      · exact ⟨_, rfl⟩
      · split <;> exact ⟨_, rfl⟩

/-- A legal word inside a clause, its constant banks bound, comes to its own part. -/
theorem enter_eq {ok : Bool} {srcs : List Src} {s : State} {k : Clause → Out} (hok : ok = true) (h : s.CanIssue srcs) :
    ∃ c, s.cp.clause = some c ∧ enter ok srcs s k = k c := by
  obtain ⟨hc, hb⟩ := h
  obtain ⟨c, hc⟩ := Option.isSome_iff_exists.1 hc
  exact ⟨c, hc, by simp [enter, hc, hok, hb]⟩

/-- A path inside a clause names it. -/
theorem CanIssue_clause {srcs : List Src} {s : State} (h : s.CanIssue srcs) : ∃ c, s.cp.clause = some c ∧ s.bound srcs = true :=
  let ⟨c, hc⟩ := Option.isSome_iff_exists.1 h.1
  ⟨c, hc, h.2⟩

/-- The effect of a fixed-latency word that does not trap. -/
theorem issueFixed_eq {ok : Bool} {srcs : List Src} {f : State → Res} {s t : State} (hok : ok = true) (h : s.CanIssue srcs)
    (hf : f s = .done t) : issueFixed ok srcs f s = .next ((t.past false).count s) := by
  obtain ⟨c, hc, hb⟩ := CanIssue_clause h
  simp [issueFixed, enter, hc, hok, hb, hf]

/-- The effect of a barrier word that does not trap. -/
theorem issueBarrier_eq {ok : Bool} {f : State → Res} {s t : State} (hok : ok = true) (h : s.CanIssue [])
    (hf : f s = .done t) : issueBarrier ok f s = .next (t.count s) := by
  obtain ⟨c, hc, hb⟩ := CanIssue_clause h
  simp [issueBarrier, enter, hc, hok, hb, hf]

/-- The effect of a control transfer that closes its clause and does not trap. -/
theorem issueControl_eq {ok : Bool} {srcs : List Src} {f : State → Res} {s t : State} (hok : ok = true) (h : s.CanIssue srcs)
    (hl : ∀ c, s.cp.clause = some c → c.len ≤ c.pos + 1) (hf : f s = .done t) :
    issueControl ok srcs f s = .next (t.count s) := by
  obtain ⟨c, hc, hb⟩ := CanIssue_clause h
  have := hl c hc
  simp [issueControl, enter, hc, hok, hb, hf, Nat.not_lt.2 this]

/-- The effect of a waiting word that nothing holds back and that does not trap. -/
theorem issueWaiting_eq {ok : Bool} {srcs : List Src} {onL rel : Bool} {f : State → Res} {s t : State} (hok : ok = true)
    (h : s.CanIssue srcs) (hh : onL = true → s.held s.cp = false) (hr : rel = true → s.unacked s.cur.core s.cur.slot = 0)
    (hf : f s = .done t) : issueWaiting ok srcs onL rel f s = .next (t.count s) := by
  obtain ⟨c, hc, hb⟩ := CanIssue_clause h
  cases onL <;> cases rel <;> simp_all [issueWaiting, enter]

/-- The effect of a word that takes its turn and does not trap. -/
theorem issueTurn_eq {ok rel go : Bool} {srcs : List Src} {place ord : Nat} {f : State → Res} {s t : State} (hok : ok = true)
    (hg : go = true) (h : s.CanTurn srcs rel place ord) (hf : f (s.tookOrder place ord) = .done t) :
    issueTurn ok srcs rel go place ord f s = .next (t.count s) := by
  obtain ⟨hi, hh, hr, ho⟩ := h
  obtain ⟨c, hc, hb⟩ := CanIssue_clause hi
  cases rel <;> simp_all [issueTurn, enter]

/-- The effect of a long-latency word that nothing holds back and that does not trap. -/
theorem issueLong_eq {ok writes onL rel : Bool} {srcs : List Src} {f : Nat → State → Res} {s t : State} {c : Clause} (hok : ok = true)
    (h : s.CanIssue srcs) (hc : s.cp.clause = some c) (hw : writes = true → c.sel ≠ 15)
    (hfl : c.sel < 12 → s.cw.flags.get c.sel 0 < 63) (hh : onL = true → s.held s.cp = false)
    (hr : rel = true → s.unacked s.cur.core s.cur.slot = 0) (hf : f c.sel s = .done t) :
    issueLong ok writes onL rel srcs f s = .next (t.count s) := by
  have hb := h.2
  have h1 : (writes && c.sel == 15) = false := by cases writes <;> simp_all
  have h2 : (decide (c.sel < 12) && decide (63 ≤ s.cw.flags.get c.sel 0)) = false := by
    by_cases h : c.sel < 12
    · simp [h, Nat.not_le.2 (hfl h)]
    · simp [h]
  have h3 : (onL && s.held s.cp) = false := by cases onL <;> simp_all
  have h4 : (rel && s.unacked s.cur.core s.cur.slot != 0) = false := by cases rel <;> simp_all
  simp only [issueLong, enter, hc, hok, hb, h1, h2, h3, h4, hf]
  simp

/-! The lanes of a set. -/

theorem mem_lanesOf (m : Lanes) (n : Nat) : n ∈ lanesOf m ↔ n < 32 ∧ m.getLsbD n = true := by
  simp [lanesOf]

theorem lanesOf_nodup (m : Lanes) : (lanesOf m).Nodup := List.Nodup.filter _ List.nodup_range

/-- Numbers of registers and lanes do not run into one another. -/
theorem key_inj {a b m n : Nat} (hm : m < 32) (hn : n < 32) (h : 32 * a + m = 32 * b + n) : a = b ∧ m = n := by omega

/-! One result of a vector word. -/

@[simp] theorem Wave.setV_wbase (w : Wave) (n l : Nat) (v : W32) : (w.setV n l v).wbase = w.wbase := by
  unfold Wave.setV; split <;> [rfl; split <;> rfl]
@[simp] theorem Wave.setV_seed (w : Wave) (n l : Nat) (v : W32) : (w.setV n l v).seed = w.seed := by
  unfold Wave.setV; split <;> [rfl; split <;> rfl]
@[simp] theorem Wave.setV_lastq (w : Wave) (n l : Nat) (v : W32) : (w.setV n l v).lastq = w.lastq := by
  unfold Wave.setV; split <;> [rfl; split <;> rfl]

theorem Wave.setV_main (w : Wave) (n l k : Nat) (v x : W32) :
    (w.setV n l v).main.get k x = if n < 96 ∧ k = 32 * (w.wbase + n) + l then v else w.main.get k x := by
  unfold Wave.setV
  split
  · next h => simp [FMap.get_set, h]
  · next h => split <;> simp [h]

theorem Wave.setV_opf (w : Wave) (n l k : Nat) (v x : W32) :
    (w.setV n l v).opf.get k x = if 96 ≤ n ∧ n < 112 ∧ k = 32 * (n - 96) + l then v else w.opf.get k x := by
  unfold Wave.setV
  split
  · next h => simp [Nat.not_le.2 h]
  · next h =>
    split
    · next h2 => simp [FMap.get_set, Nat.not_lt.1 h, h2]
    · next h2 => simp [h2]

/-- The register keys that one lane's result writes: in the main file, and in the operand file. -/
def resMain (w : Wave) (d : RName) (wide : Bool) (l k : Nat) : Prop :=
  d.toNat < 96 ∧ (k = 32 * (w.wbase + d.toNat) + l ∨ wide = true ∧ k = 32 * (w.wbase + (d.toNat + 1)) + l)
def resOp (d : RName) (wide : Bool) (l k : Nat) : Prop :=
  96 ≤ d.toNat ∧ d.toNat < 112 ∧ (k = 32 * (d.toNat - 96) + l ∨ wide = true ∧ k = 32 * (d.toNat + 1 - 96) + l)

/-- A wide destination is an even pair or names no register. -/
def wideOk (d : RName) (wide : Bool) : Prop := wide = true → d.toNat % 2 = 0

@[simp] theorem Wave.result_wbase (w : Wave) (d : RName) (wide : Bool) (l : Nat) (v : W64) : (w.result d wide l v).wbase = w.wbase := by
  unfold Wave.result Wave.pushLast Wave.setV64
  split <;> [split <;> simp; simp]
@[simp] theorem Wave.result_seed (w : Wave) (d : RName) (wide : Bool) (l : Nat) (v : W64) : (w.result d wide l v).seed = w.seed := by
  unfold Wave.result Wave.pushLast Wave.setV64
  split <;> [split <;> simp; simp]

/-- One lane's result leaves alone every part of a wave but its registers and its last-result queues. -/
theorem Wave.result_rest (w : Wave) (d : RName) (wide : Bool) (l : Nat) (v : W64) :
    { w.result d wide l v with main := w.main, opf := w.opf, lastq := w.lastq } = w := by
  unfold Wave.result Wave.pushLast Wave.setV64 Wave.setV
  repeat' split
  all_goals rfl

/-- One lane's result leaves alone the main-file registers it does not name. -/
theorem Wave.result_main (w : Wave) (d : RName) (wide : Bool) (l k : Nat) (v : W64) (x : W32) (hd : wideOk d wide)
    (h : ¬ resMain w d wide l k) : (w.result d wide l v).main.get k x = w.main.get k x := by
  unfold resMain at h
  unfold Wave.result Wave.pushLast Wave.setV64
  cases wide with
  | false => simp only [Bool.false_eq_true, if_false, Wave.setV_main]; rw [if_neg]; rintro ⟨h1, h2⟩; exact h ⟨h1, .inl h2⟩
  | true =>
    have := hd rfl
    simp only [if_true]
    split
    · simp only [Wave.setV_main, Wave.setV_wbase]
      rw [if_neg, if_neg]
      · rintro ⟨h1, h2⟩; exact h ⟨h1, .inl h2⟩
      · rintro ⟨h1, h2⟩; exact h ⟨by omega, .inr ⟨rfl, h2⟩⟩
    · rfl

/-- One lane's result leaves alone the operand-file registers it does not name. -/
theorem Wave.result_opf (w : Wave) (d : RName) (wide : Bool) (l k : Nat) (v : W64) (x : W32) (hd : wideOk d wide)
    (h : ¬ resOp d wide l k) : (w.result d wide l v).opf.get k x = w.opf.get k x := by
  unfold resOp at h
  unfold Wave.result Wave.pushLast Wave.setV64
  cases wide with
  | false => simp only [Bool.false_eq_true, if_false, Wave.setV_opf]; rw [if_neg]; rintro ⟨h1, h2, h3⟩; exact h ⟨h1, h2, .inl h3⟩
  | true =>
    have := hd rfl
    simp only [if_true]
    split
    · simp only [Wave.setV_opf]
      rw [if_neg, if_neg]
      · rintro ⟨h1, h2, h3⟩; exact h ⟨h1, h2, .inl h3⟩
      · rintro ⟨h1, h2, h3⟩; exact h ⟨by omega, by omega, .inr ⟨rfl, h3⟩⟩
    · rfl

/-- One lane's result enters that lane's queue; the queues of the other lanes stand (R16). -/
theorem Wave.result_lastq (w : Wave) (d : RName) (wide : Bool) (l : Nat) (v : W64) (hl : l < 32) (e n : Nat) (hn : n < 32) :
    (w.result d wide l v).lastq.get (32 * e + n) 0 =
      if n = l ∧ e < 4 then (if e = 0 then v else w.lastq.get (32 * (e - 1) + n) 0) else w.lastq.get (32 * e + n) 0 := by
  have h : (w.result d wide l v).lastq = (w.pushLast l v).lastq := by
    unfold Wave.result Wave.pushLast Wave.setV64
    split <;> [split <;> simp; simp]
  rw [h]
  unfold Wave.pushLast
  simp only [FMap.get_set]
  rcases Nat.lt_or_ge e 4 with h4 | h4
  · have : e = 0 ∨ e = 1 ∨ e = 2 ∨ e = 3 := by omega
    by_cases hnl : n = l
    · subst hnl
      rcases this with rfl | rfl | rfl | rfl <;> simp
    · rcases this with rfl | rfl | rfl | rfl <;> simp [hnl]
      all_goals repeat' rw [if_neg (by omega)]
  · rw [if_neg (by omega), if_neg (by omega), if_neg (by omega), if_neg (by omega), if_neg (by omega)]

/-- One lane's result is what its lane reads in D. -/
theorem Wave.result_readV (w : Wave) (d : RName) (l : Nat) (v : W64) (hd : d.toNat < 112) :
    (w.result d false l v).readV d.toNat l = v.setWidth 32 := by
  unfold Wave.readV
  split
  · next h => simp [Wave.result, Wave.pushLast, Wave.setV_main, h]
  · next h => simp [Wave.result, Wave.pushLast, Wave.setV_opf, Nat.not_lt.1 h, hd]

/-- A pair is its two words. -/
theorem hi_append_lo (v : W64) : (v >>> 32).setWidth 32 ++ v.setWidth 32 = v := by
  apply BitVec.eq_of_getLsbD_eq
  intro i hi
  rw [BitVec.getLsbD_append]
  by_cases h : i < 32
  · simp [h]
  · have h1 : i - 32 < 32 := by omega
    have h2 : 32 + (i - 32) = i := by omega
    simp [h, h1, h2]

/-- The two words of a pair of one lane. -/
theorem Wave.result_readV64 (w : Wave) (d : RName) (l : Nat) (v : W64) (hd : d.toNat < 112) (he : d.toNat % 2 = 0) :
    (w.result d true l v).readV64 d.toNat l = v := by
  have h1 : (w.result d true l v).readV (d.toNat + 1) l = (v >>> 32).setWidth 32 := by
    unfold Wave.readV
    by_cases h : d.toNat < 96
    · have h2 : d.toNat + 1 < 96 := by omega
      simp [Wave.result, Wave.pushLast, Wave.setV64, hd, Wave.setV_main, h, h2]
    · have h2 : ¬ d.toNat + 1 < 96 := by omega
      have h3 : d.toNat + 1 < 112 := by omega
      simp [Wave.result, Wave.pushLast, Wave.setV64, hd, Wave.setV_opf, h, h2, h3, Nat.le_of_not_lt h2]
  have h0 : (w.result d true l v).readV d.toNat l = v.setWidth 32 := by
    unfold Wave.readV
    by_cases h : d.toNat < 96
    · have h2 : 32 * (w.wbase + d.toNat) + l ≠ 32 * (w.wbase + (d.toNat + 1)) + l := by omega
      simp [Wave.result, Wave.pushLast, Wave.setV64, hd, Wave.setV_main, h, h2]
    · have h2 : 32 * (d.toNat - 96) + l ≠ 32 * (d.toNat + 1 - 96) + l := by omega
      simp [Wave.result, Wave.pushLast, Wave.setV64, hd, Wave.setV_opf, h, Nat.le_of_not_lt h]
      intro _ _ h3; omega
  unfold Wave.readV64
  rw [if_pos hd, h1, h0, hi_append_lo]

/-! The results of every lane of a set. -/

/-- What the results of a list of lanes leave and give. -/
structure Results (w v : Wave) (d : RName) (wide : Bool) (ls : List Nat) (f : Nat → W64) : Prop where
  wbase : v.wbase = w.wbase
  rest : { v with main := w.main, opf := w.opf, lastq := w.lastq } = w
  main : ∀ k x, (∀ l ∈ ls, ¬ resMain w d wide l k) → v.main.get k x = w.main.get k x
  operand : ∀ k x, (∀ l ∈ ls, ¬ resOp d wide l k) → v.opf.get k x = w.opf.get k x
  queue : ∀ e n, n < 32 → v.lastq.get (32 * e + n) 0 =
    if n ∈ ls ∧ e < 4 then (if e = 0 then f n else w.lastq.get (32 * (e - 1) + n) 0) else w.lastq.get (32 * e + n) 0
  value : wide = false → d.toNat < 112 → ∀ l ∈ ls, v.readV d.toNat l = (f l).setWidth 32
  value64 : wide = true → d.toNat < 112 → ∀ l ∈ ls, v.readV64 d.toNat l = f l

/-- Reading a register of the main or the operand file needs only that register's key. -/
theorem Wave.readV_congr {w v : Wave} {n l : Nat} (hn : n < 112) (hb : v.wbase = w.wbase) (hs : v.seed = w.seed)
    (hm : ∀ x, n < 96 → v.main.get (32 * (w.wbase + n) + l) x = w.main.get (32 * (w.wbase + n) + l) x)
    (ho : ∀ x, 96 ≤ n → v.opf.get (32 * (n - 96) + l) x = w.opf.get (32 * (n - 96) + l) x) : v.readV n l = w.readV n l := by
  unfold Wave.readV
  by_cases h : n < 96
  · simp only [h, if_true, hb, hs]; exact hm _ h
  · simp only [h, hn, if_true, if_false, hs]; exact ho _ (by omega)

theorem Wave.results_spec (w : Wave) (d : RName) (wide : Bool) (ls : List Nat) (f : Nat → W64) (hw : wideOk d wide)
    (hn : ls.Nodup) (hl : ∀ l ∈ ls, l < 32) : Results w (w.results d wide ls f) d wide ls f := by
  induction ls generalizing w with
  | nil => exact ⟨rfl, rfl, fun _ _ _ => rfl, fun _ _ _ => rfl, by simp [Wave.results], by simp, by simp⟩
  | cons a r ih =>
    obtain ⟨ha, hr⟩ := List.nodup_cons.1 hn
    have hal : a < 32 := hl a (List.mem_cons_self ..)
    have hrl : ∀ l ∈ r, l < 32 := fun l h => hl l (List.mem_cons_of_mem _ h)
    have h := ih (w.result d wide a (f a)) hr hrl
    have hres := w.result_rest d wide a (f a)
    have hseed : ((w.result d wide a (f a)).results d wide r f).seed = (w.result d wide a (f a)).seed := by
      have := congrArg Wave.seed h.rest; exact this
    show Results w ((w.result d wide a (f a)).results d wide r f) d wide (a :: r) f
    generalize hv : (w.result d wide a (f a)).results d wide r f = v at h hseed
    have hb : v.wbase = w.wbase := by rw [h.wbase, Wave.result_wbase]
    have hmain : ∀ k x, (∀ l ∈ r, ¬ resMain w d wide l k) → v.main.get k x = (w.result d wide a (f a)).main.get k x := by
      intro k x hk; exact h.main k x fun l hl h => hk l hl (by simpa [resMain] using h)
    refine ⟨hb, ?_, ?_, ?_, ?_, ?_, ?_⟩
    · have h2 := h.rest
      calc { v with main := w.main, opf := w.opf, lastq := w.lastq }
          = { ({ v with main := (w.result d wide a (f a)).main, opf := (w.result d wide a (f a)).opf, lastq := (w.result d wide a (f a)).lastq } : Wave) with
              main := w.main, opf := w.opf, lastq := w.lastq } := rfl
        _ = w := by rw [h2]; exact hres
    · intro k x hk
      rw [hmain k x fun l hl => hk l (List.mem_cons_of_mem _ hl)]
      exact w.result_main d wide a k (f a) x hw (hk a (List.mem_cons_self ..))
    · intro k x hk
      rw [h.operand k x fun l hl => hk l (List.mem_cons_of_mem _ hl)]
      exact w.result_opf d wide a k (f a) x hw (hk a (List.mem_cons_self ..))
    · intro e n hn
      rw [h.queue e n hn, w.result_lastq d wide a (f a) hal e n hn, w.result_lastq d wide a (f a) hal (e - 1) n hn]
      by_cases hna : n = a
      · subst hna; simp [ha]
      · by_cases hnr : n ∈ r <;> by_cases h4 : e < 4 <;> by_cases h0 : e = 0 <;> simp [hna, hnr, h4, h0]
    · intro hwd hd l hlm
      rcases List.mem_cons.1 hlm with rfl | hlr
      · have hne : ∀ m ∈ r, m ≠ l := fun m hm he => ha (he ▸ hm)
        subst hwd
        rw [Wave.readV_congr (w := w.result d false l (f l)) hd h.wbase hseed]
        · exact w.result_readV d l (f l) hd
        · intro x h96
          rw [Wave.result_wbase]
          refine hmain _ x fun m hm hk => hne m hm ?_
          rcases hk.2 with hk | hk
          · exact (key_inj hal (hrl m hm) hk).2.symm
          · exact absurd hk.1 (by simp)
        · intro x h96
          refine h.operand _ x fun m hm hk => hne m hm ?_
          rcases hk.2.2 with hk | hk
          · exact (key_inj hal (hrl m hm) hk).2.symm
          · exact absurd hk.1 (by simp)
      · exact h.value hwd hd l hlr
    · intro hwd hd l hlm
      rcases List.mem_cons.1 hlm with rfl | hlr
      · have hne : ∀ m ∈ r, m ≠ l := fun m hm he => ha (he ▸ hm)
        subst hwd
        have he := hw rfl
        have key : ∀ q, q = d.toNat ∨ q = d.toNat + 1 → v.readV q l = (w.result d true l (f l)).readV q l := by
          intro q hq
          have hq112 : q < 112 := by omega
          refine Wave.readV_congr hq112 h.wbase hseed ?_ ?_
          · intro x h96
            rw [Wave.result_wbase]
            refine hmain _ x fun m hm hk => hne m hm ?_
            rcases hk.2 with hk | ⟨-, hk⟩ <;> exact (key_inj hal (hrl m hm) hk).2.symm
          · intro x h96
            refine h.operand _ x fun m hm hk => hne m hm ?_
            rcases hk.2.2 with hk | ⟨-, hk⟩ <;> exact (key_inj hal (hrl m hm) hk).2.symm
        have h64 := w.result_readV64 d l (f l) hd he
        unfold Wave.readV64 at h64 ⊢
        rw [if_pos hd] at h64 ⊢
        rw [key _ (.inl rfl), key _ (.inr rfl)]; exact h64
      · exact h.value64 hwd hd l hlr

/-! A word that moves on leaves everything but its own wave. -/

@[simp] theorem State.ck_past (s : State) (l : Bool) : (s.past l).ck = s.ck := rfl
@[simp] theorem State.cw_past (s : State) (l : Bool) : (s.past l).cw = s.cw.modPath fun p => p.past l := s.cw_modCp _

/-- Changing the current wave and moving on. -/
theorem OnlyWave.modCw (s : State) (f : Wave → Wave) : OnlyWave s (s.modCw f) where
  rest := rfl
  waves := s.wave_modCw_ne f
  bytes := fun _ => rfl

/-- What a fixed-latency effect on the current wave comes to, once the path has moved on and the word is counted. -/
theorem State.fixedDone (s : State) (f : Wave → Wave) :
    ((s.modCw f).past false).count s = s.modCw fun w =>
      { (f w).modPath (fun p => p.past false) with skid := (f w).skid + if s.cg.phase = .halting then 1 else 0 } := by
  have h : (s.modCw f).past false = s.modCw fun w => (f w).modPath fun p => p.past false :=
    s.modCw_modCw f fun w => w.modPath fun p => p.past false
  rw [h]
  unfold State.count
  split
  · rw [State.modCw_modCw]; rfl
  · rfl

theorem State.runs_iff (s : State) (n : Nat) : n ∈ lanesOf s.memb ↔ s.runs n := mem_lanesOf s.memb n

/-- The destination of a vector form that writes a pair is even or names no register. -/
theorem wideOk_of_dst64 {d : RName} (h : dst64 d = true) : wideOk d true := by
  intro _
  simp only [dst64, evenN, Bool.or_eq_true, beq_iff_eq, Bool.and_eq_true, decide_eq_true_eq] at h
  rcases h with h | h
  · omega
  · exact h.2

theorem wideOk_false (d : RName) : wideOk d false := fun h => by cases h

/-- What a vector word has done when its path has moved on. -/
theorem vecDone (s : State) (d : RName) (wide : Bool) (f : Nat → W64) (fl : W32) (hw : wideOk d wide) :
    VecWord s (((s.modCw fun w => let v := w.results d wide (lanesOf s.memb) f; { v with fpstat := v.fpstat ||| fl }).past false).count s)
      d wide f fl := by
  have hr := s.cw.results_spec d wide (lanesOf s.memb) f hw (lanesOf_nodup _) fun l h => ((mem_lanesOf _ _).1 h).1
  generalize hv : s.cw.results d wide (lanesOf s.memb) f = v at hr
  rw [State.fixedDone]
  have h3 : ∀ g : Wave → Wave, (s.modCw g).cw = g s.cw := s.cw_modCw
  have hrest := hr.rest
  have hpaths : v.paths = s.cw.paths := (congrArg Wave.paths hrest :)
  have hskid : v.skid = s.cw.skid := (congrArg Wave.skid hrest :)
  have hfp : v.fpstat = s.cw.fpstat := (congrArg Wave.fpstat hrest :)
  refine ⟨OnlyWave.modCw s _, ⟨?_, ?_⟩, ?_, ?_, ?_, ?_, ?_, ?_, ?_, ?_⟩
  · rw [h3]; simp only [Wave.modPath, hv, hpaths]
  · rw [h3]; simp only [hv, hskid]
  · intro hwd hd n hn
    rw [h3]; simp only [hv]; exact hr.value hwd hd n ((s.runs_iff n).2 hn)
  · intro hwd hd n hn
    rw [h3]; simp only [hv]; exact hr.value64 hwd hd n ((s.runs_iff n).2 hn)
  · intro n hn
    have hm := (s.runs_iff n).2 hn
    rw [h3]; simp only [hv]
    have q := fun e => hr.queue e n hn.1
    have q0 := q 0; have q1 := q 1; have q2 := q 2; have q3 := q 3
    simp [hm] at q0 q1 q2 q3
    exact ⟨q0, q1, q2, q3⟩
  · intro n hn hr' e
    have hm : n ∉ lanesOf s.memb := fun h => hr' ((s.runs_iff n).1 h)
    have q := hr.queue e n hn
    rw [h3]; simp only [hv]; simpa [hm] using q
  · intro k x hk
    rw [h3]; simp only [hv]
    exact hr.main k x fun l hl h => hk ⟨h.1, l, (s.runs_iff l).1 hl, h.2⟩
  · intro k x hk
    rw [h3]; simp only [hv]
    exact hr.operand k x fun l hl h => hk ⟨h.1, h.2.1, l, (s.runs_iff l).1 hl, h.2.2⟩
  · rw [h3]; simp only [Wave.modPath, hv, hfp]
  · rw [h3]; simp only [hv]
    calc _ = { ({ v with main := s.cw.main, opf := s.cw.opf, lastq := s.cw.lastq } : Wave) with
                paths := s.cw.paths, fpstat := s.cw.fpstat, skid := s.cw.skid } := rfl
      _ = s.cw := by rw [hrest]

/-- The same for results merged with flags in two steps. -/
theorem fltDone (s : State) (d : RName) (wide : Bool) (f : Nat → W64) (k : Nat) (hw : wideOk d wide) :
    VecWord s ((((s.putLanes d wide f).mergeF k).past false).count s) d wide f (BitVec.ofNat 32 (k % 32)) := by
  rw [show (s.putLanes d wide f).mergeF k = s.modCw fun w =>
      let v := w.results d wide (lanesOf s.memb) f
      { v with fpstat := v.fpstat ||| BitVec.ofNat 32 (k % 32) } from s.modCw_modCw _ _]
  exact vecDone s d wide f _ hw

/-- A vector form of fixed latency completes when its word is legal and can issue (R36, R75, R77, R101). -/
theorem vecFlt_completes {ok : Bool} {srcs : List Src} {d : RName} {wide : Bool} {f : State → Nat → W64 × Nat} {s : State}
    (hok : ok = true) (h : s.CanIssue srcs) (hw : wideOk d wide) :
    ∃ t, vecFlt ok srcs d wide f s = .next t ∧
      VecWord s t d wide (fun n => (f s n).1) (BitVec.ofNat 32 (((lanesOf s.memb).map fun n => (f s n).2).foldl orF 0 % 32)) := by
  refine ⟨_, issueFixed_eq hok h rfl, ?_⟩
  have := vecDone s d wide (fun n => (f s n).1) (BitVec.ofNat 32 (((lanesOf s.memb).map fun n => (f s n).2).foldl orF 0 % 32)) hw
  rw [show ((s.putLanes d wide fun n => (f s n).1).mergeF (((lanesOf s.memb).map fun n => (f s n).2).foldl orF 0)) =
    s.modCw fun w => let v := w.results d wide (lanesOf s.memb) fun n => (f s n).1
      { v with fpstat := v.fpstat ||| BitVec.ofNat 32 (((lanesOf s.memb).map fun n => (f s n).2).foldl orF 0 % 32) } from
    s.modCw_modCw _ _]
  exact this

/-- A vector form whose flags do not come lane by lane completes likewise. -/
theorem vecOnce_completes {ok : Bool} {srcs : List Src} {d : RName} {wide : Bool} {f : State → Nat → W64} {k : State → Nat} {s : State}
    (hok : ok = true) (h : s.CanIssue srcs) (hw : wideOk d wide) :
    ∃ t, issueFixed ok srcs (fun s => .done ((s.putLanes d wide (f s)).mergeF (k s))) s = .next t ∧
      VecWord s t d wide (f s) (BitVec.ofNat 32 (k s % 32)) :=
  ⟨_, issueFixed_eq hok h rfl, fltDone s d wide (f s) (k s) hw⟩

/-- A vector form without flags completes likewise. -/
theorem vecForm_completes {ok : Bool} {srcs : List Src} {d : RName} {wide : Bool} {f : State → Nat → W64} {s : State}
    (hok : ok = true) (h : s.CanIssue srcs) (hw : wideOk d wide) :
    ∃ t, vecForm ok srcs d wide f s = .next t ∧ VecWord s t d wide (f s) 0 := by
  refine ⟨_, issueFixed_eq hok h rfl, ?_⟩
  have := vecDone s d wide (f s) 0 hw
  rwa [show (fun w : Wave => let v := w.results d wide (lanesOf s.memb) (f s); ({ v with fpstat := v.fpstat ||| 0 } : Wave)) =
    fun w => w.results d wide (lanesOf s.memb) (f s) from funext fun w => by simp] at this

/-! Scalar words. -/

/-- A scalar destination that may be written. -/
def scaDst (n : Nat) : Prop := n < 96 ∨ n = 97 ∨ n = 100 ∨ n = 101

theorem sdst32_iff {d : RName} (h : sdst32 d = true) : scaDst d.toNat := by
  simp only [sdst32, Bool.or_eq_true, decide_eq_true_eq, beq_iff_eq] at h
  unfold scaDst; omega

/-- What a scalar read sees of a wave: another wave that differs in its paths, its SKID and one register reads alike in
every other register. -/
theorem readS_congr {s t : State} (n : Nat) (hrest : { t with waves := s.waves } = s)
    (hcw : { t.cw with sregs := s.cw.sregs, xstat := s.cw.xstat, fpmode := s.cw.fpmode, fpstat := s.cw.fpstat, paths := s.cw.paths, skid := s.cw.skid } = s.cw)
    (hm : t.memb = s.memb) (hg : n < 96 → ∀ x, t.cw.sregs.get n x = s.cw.sregs.get n x) (hx : n = 97 → t.cw.xstat = s.cw.xstat)
    (hf : n = 100 → t.cw.fpmode = s.cw.fpmode) (hp : n = 101 → t.cw.fpstat = s.cw.fpstat) : t.readS n = s.readS n := by
  have e1 : t.cw.seed = s.cw.seed := (congrArg Wave.seed hcw :)
  have e2 : t.cw.wix = s.cw.wix := (congrArg Wave.wix hcw :)
  have e3 : t.cw.cbase = s.cw.cbase := (congrArg Wave.cbase hcw :)
  have e4 : t.cw.wbase = s.cw.wbase := (congrArg Wave.wbase hcw :)
  have e5 : t.cw.gid = s.cw.gid := (congrArg Wave.gid hcw :)
  have f1 : t.cores = s.cores := (congrArg State.cores hrest :)
  have f2 : t.cur = s.cur := (congrArg State.cur hrest :)
  have f3 : t.rtime = s.rtime := (congrArg State.rtime hrest :)
  have f4 : t.groups = s.groups := (congrArg State.groups hrest :)
  have f5 : t.dies = s.dies := (congrArg State.dies hrest :)
  have g1 : t.cc = s.cc := by unfold State.cc State.core; rw [f1, f2]
  have g2 : t.cg = s.cg := by unfold State.cg State.group State.cgid; rw [f4, e5]
  have g3 : t.launchOf s.cg = s.launchOf s.cg := by unfold State.launchOf State.die; rw [f5]
  unfold State.readS
  by_cases h0 : n < 96
  · simp only [h0, if_true, e1]; exact hg h0 _
  by_cases h1 : n = 97
  · subst h1; simpa using hx rfl
  by_cases h2 : n = 100
  · subst h2; simpa using hf rfl
  by_cases h3 : n = 101
  · subst h3; simpa using hp rfl
  simp only [h0, h1, h2, h3, if_false, e2, e3, e4, g1, g2, g3, f2, f3, hm]

/-- What a write of one scalar register leaves and gives. -/
theorem Wave.setS_rest (w : Wave) (n : Nat) (v : W32) :
    { w.setS n v with sregs := w.sregs, xstat := w.xstat, fpmode := w.fpmode, fpstat := w.fpstat } = w := by
  unfold Wave.setS; repeat' split
  all_goals rfl

theorem Wave.setS_sregs (w : Wave) (n k : Nat) (v x : W32) :
    (w.setS n v).sregs.get k x = if n < 96 ∧ k = n then v else w.sregs.get k x := by
  unfold Wave.setS
  split
  · next h => simp [FMap.get_set, h]
  · next h => simp only [h, false_and, if_false]; repeat' split
              all_goals rfl

theorem Wave.setS_xstat (w : Wave) (n : Nat) (v : W32) : (w.setS n v).xstat = if n = 97 then v else w.xstat := by
  unfold Wave.setS; repeat' split
  all_goals first | rfl | omega

theorem Wave.setS_fpmode (w : Wave) (n : Nat) (v : W32) : (w.setS n v).fpmode = if n = 100 then v &&& 7#32 else w.fpmode := by
  unfold Wave.setS; repeat' split
  all_goals first | rfl | omega

theorem Wave.setS_fpstat (w : Wave) (n : Nat) (v : W32) : (w.setS n v).fpstat = if n = 101 then v &&& 31#32 else w.fpstat := by
  unfold Wave.setS; repeat' split
  all_goals first | rfl | omega

/-- What a path keeps when it moves past a word. -/
@[simp] theorem Path.past_lanes (p : Path) (l : Bool) : (p.past l).lanes = p.lanes := rfl

theorem memb_past (s : State) (g : Wave → Wave) (l : Bool) (hg : (g s.cw).paths = (s.cw.modPath fun p => p.past l).paths) :
    (s.modCw g).memb = s.memb := by
  unfold State.memb State.cp
  rw [State.cw_modCw, hg]
  unfold Wave.modPath
  cases s.cw.paths <;> rfl

/-- A scalar form of fixed latency completes (R36, R75, R78). -/
theorem sca_completes {ok : Bool} {srcs : List Src} {d : RName} {f : State → W32} {s : State} (hok : ok = true)
    (hd : sdst32 d = true) (h : s.CanIssue srcs) :
    ∃ t, issueFixed ok srcs (fun s => .done (s.putS d (f s))) s = .next t ∧ ScaWord s t d false ((f s).setWidth 64) := by
  refine ⟨_, issueFixed_eq hok h rfl, ?_⟩
  have hdd := sdst32_iff hd
  unfold State.putS
  rw [State.fixedDone]
  have h3 : ∀ g : Wave → Wave, (s.modCw g).cw = g s.cw := s.cw_modCw
  have hrest := s.cw.setS_rest d.toNat (f s)
  have hpaths : (s.cw.setS d.toNat (f s)).paths = s.cw.paths := (congrArg Wave.paths hrest :)
  have hskid : (s.cw.setS d.toNat (f s)).skid = s.cw.skid := (congrArg Wave.skid hrest :)
  have hwave : ∀ (p : List Path) (k : Nat), ({ s.cw.setS d.toNat (f s) with sregs := s.cw.sregs, xstat := s.cw.xstat, fpmode := s.cw.fpmode, fpstat := s.cw.fpstat, paths := p, skid := k } : Wave) = { s.cw with paths := p, skid := k } := by
    intro p k
    calc _ = { ({ s.cw.setS d.toNat (f s) with sregs := s.cw.sregs, xstat := s.cw.xstat, fpmode := s.cw.fpmode, fpstat := s.cw.fpstat } : Wave) with paths := p, skid := k } := rfl
      _ = _ := by rw [hrest]
  generalize hg : (fun w : Wave => ({ (w.setS d.toNat (f s)).modPath (fun p => p.past false) with skid := (w.setS d.toNat (f s)).skid + if s.cg.phase = .halting then 1 else 0 } : Wave)) = g
  have hgw : g s.cw = { (s.cw.setS d.toNat (f s)).modPath (fun p => p.past false) with skid := (s.cw.setS d.toNat (f s)).skid + if s.cg.phase = .halting then 1 else 0 } := by rw [← hg]
  have hm : (s.modCw g).memb = s.memb := memb_past s g false (by rw [hgw]; simp only [Wave.modPath, hpaths])
  have hcw : { (s.modCw g).cw with sregs := s.cw.sregs, xstat := s.cw.xstat, fpmode := s.cw.fpmode, fpstat := s.cw.fpstat, paths := s.cw.paths, skid := s.cw.skid } = s.cw := by
    rw [h3, hgw]; exact hwave s.cw.paths s.cw.skid
  have hS : (s.modCw g).cw.sregs = (s.cw.setS d.toNat (f s)).sregs := by rw [h3, hgw]; rfl
  have hX : (s.modCw g).cw.xstat = (s.cw.setS d.toNat (f s)).xstat := by rw [h3, hgw]; rfl
  have hM : (s.modCw g).cw.fpmode = (s.cw.setS d.toNat (f s)).fpmode := by rw [h3, hgw]; rfl
  have hP : (s.modCw g).cw.fpstat = (s.cw.setS d.toNat (f s)).fpstat := by rw [h3, hgw]; rfl
  refine ⟨OnlyWave.modCw s _, ⟨?_, ?_⟩, ?_, ?_, ?_, hcw⟩
  · rw [h3, hgw]; simp only [Wave.modPath, hpaths]
  · rw [h3, hgw]; simp only [hskid]
  · intro _
    have hv : ((f s).setWidth 64).setWidth 32 = f s := by simp
    rw [hv]
    unfold State.readS scaKept
    rcases hdd with h0 | h0 | h0 | h0
    · have h1 : d.toNat ≠ 100 := by omega
      have h2 : d.toNat ≠ 101 := by omega
      simp only [h0, h1, h2, if_true, if_false, hS, Wave.setS_sregs, and_self]
    · have e : (s.modCw g).cw.xstat = f s := by rw [hX, Wave.setS_xstat, if_pos h0]
      rw [h0]; exact e
    · have e : (s.modCw g).cw.fpmode = f s &&& 7#32 := by rw [hM, Wave.setS_fpmode, if_pos h0]
      rw [h0]; exact e
    · have e : (s.modCw g).cw.fpstat = f s &&& 31#32 := by rw [hP, Wave.setS_fpstat, if_pos h0]
      rw [h0]; exact e
  · intro h; cases h
  · intro n hn _
    refine readS_congr n rfl hcw hm ?_ ?_ ?_ ?_
    · intro _ x; rw [hS, Wave.setS_sregs, if_neg]; rintro ⟨-, h⟩; exact hn h
    · intro h; rw [hX, Wave.setS_xstat, if_neg]; omega
    · intro h; rw [hM, Wave.setS_fpmode, if_neg]; omega
    · intro h; rw [hP, Wave.setS_fpstat, if_neg]; omega

theorem sdst64_iff {d : RName} (h : sdst64 d = true) : d.toNat < 96 ∧ d.toNat % 2 = 0 := by
  simpa [sdst64, evenN] using h

/-- A scalar form of fixed latency that writes a pair completes (R36, R75, R78). -/
theorem sca64_completes {ok : Bool} {srcs : List Src} {d : RName} {f : State → W64} {s : State} (hok : ok = true)
    (hd : sdst64 d = true) (h : s.CanIssue srcs) :
    ∃ t, issueFixed ok srcs (fun s => .done (s.putS64 d (f s))) s = .next t ∧ ScaWord s t d true (f s) := by
  refine ⟨_, issueFixed_eq hok h rfl, ?_⟩
  obtain ⟨hd, he⟩ := sdst64_iff hd
  unfold State.putS64
  rw [State.fixedDone]
  have h3 : ∀ g : Wave → Wave, (s.modCw g).cw = g s.cw := s.cw_modCw
  have hset : ∀ w : Wave, w.setS64 d.toNat (f s) =
      { w with sregs := (w.sregs.set d.toNat ((f s).setWidth 32)).set (d.toNat + 1) ((f s >>> 32).setWidth 32) } := by
    intro w
    have h1 : d.toNat + 1 < 96 := by omega
    simp [Wave.setS64, Wave.setS, hd, h1]
  simp only [hset]
  generalize hg : (fun w : Wave => ({ ({ w with sregs := (w.sregs.set d.toNat ((f s).setWidth 32)).set (d.toNat + 1) ((f s >>> 32).setWidth 32) } : Wave).modPath (fun p => p.past false) with skid := w.skid + if s.cg.phase = .halting then 1 else 0 } : Wave)) = g
  have hgw : g s.cw = { ({ s.cw with sregs := (s.cw.sregs.set d.toNat ((f s).setWidth 32)).set (d.toNat + 1) ((f s >>> 32).setWidth 32) } : Wave).modPath (fun p => p.past false) with skid := s.cw.skid + if s.cg.phase = .halting then 1 else 0 } := by rw [← hg]
  have hm : (s.modCw g).memb = s.memb := memb_past s g false (by rw [hgw]; rfl)
  have hcw : { (s.modCw g).cw with sregs := s.cw.sregs, xstat := s.cw.xstat, fpmode := s.cw.fpmode, fpstat := s.cw.fpstat, paths := s.cw.paths, skid := s.cw.skid } = s.cw := by
    rw [h3, hgw]; rfl
  have hS : (s.modCw g).cw.sregs = (s.cw.sregs.set d.toNat ((f s).setWidth 32)).set (d.toNat + 1) ((f s >>> 32).setWidth 32) := by rw [h3, hgw]; rfl
  have r0 : (s.modCw g).readS d.toNat = (f s).setWidth 32 := by
    have h1 : d.toNat ≠ d.toNat + 1 := by omega
    unfold State.readS; simp only [hd, if_true, hS, FMap.get_set, h1, if_false]
  have r1 : (s.modCw g).readS (d.toNat + 1) = (f s >>> 32).setWidth 32 := by
    have h1 : d.toNat + 1 < 96 := by omega
    unfold State.readS; simp only [h1, if_true, hS, FMap.get_set]
  refine ⟨OnlyWave.modCw s _, ⟨?_, ?_⟩, ?_, ?_, ?_, hcw⟩
  · rw [h3, hgw]; rfl
  · rw [h3, hgw]
  · intro h; cases h
  · intro _
    unfold State.readS64
    rw [if_pos hd, r0, r1, hi_append_lo]
  · intro n hn hn2
    have hn3 := hn2 rfl
    refine readS_congr n rfl hcw hm ?_ ?_ ?_ ?_
    · intro _ x; rw [hS, FMap.get_set, if_neg hn3, FMap.get_set, if_neg hn]
    · intro _; rw [h3, hgw]; rfl
    · intro _; rw [h3, hgw]; rfl
    · intro _; rw [h3, hgw]; rfl

/-! Each shared form, legal and inside a clause. -/

/-- A destination of a type is wide exactly for .F64. -/
theorem wideOk_dstTy {t : FTy} {d : RName} (h : dstTy t d = true) : wideOk d (t == .f64) := by
  cases t
  case f64 => exact wideOk_of_dst64 (by simpa [dstTy] using h)
  all_goals exact wideOk_false d

theorem wideOk_dstRTy {t : FTy} {d : RName} (h : dstRTy t d = true) : wideOk d (t == .f64) := by
  cases t
  case f64 => exact wideOk_of_dst64 (by simp [dstRTy, dstR64, dst64] at h ⊢; simp [h])
  all_goals exact wideOk_false d

theorem vec2_completes {op : W32 → W32 → W32} {d : RName} {a b : Src} {s : State} (hd : dst32 d = true)
    (ha : Sys2Proof.src32 a = true) (hb : Sys2Proof.src32 b = true) (hc : s.CanIssue [a, b]) :
    ∃ t, vec2 op d a b s = .next t ∧ VecWord s t d false (fun n => (op (s.src32 a n) (s.src32 b n)).setWidth 64) 0 :=
  vecForm_completes (by simp [hd, ha, hb]) hc (wideOk_false d)

theorem vec3_completes {op : W32 → W32 → W32 → W32} {d : RName} {a b : Src} {s : State} (hd : dstR d = true)
    (ha : Sys2Proof.src32 a = true) (hb : Sys2Proof.src32 b = true) (hc : s.CanIssue [a, b]) :
    ∃ t, vec3 op d a b s = .next t ∧
      VecWord s t d false (fun n => (op (s.src32 a n) (s.src32 b n) (s.cw.readV d.toNat n)).setWidth 64) 0 :=
  vecForm_completes (by simp [hd, ha, hb]) hc (wideOk_false d)

theorem vec1_completes {op : W32 → W32} {d : RName} {a : Src} {s : State} (hd : dst32 d = true)
    (ha : Sys2Proof.src32 a = true) (hc : s.CanIssue [a]) :
    ∃ t, vec1 op d a s = .next t ∧ VecWord s t d false (fun n => (op (s.src32 a n)).setWidth 64) 0 :=
  vecForm_completes (by simp [hd, ha]) hc (wideOk_false d)

theorem sca2_completes {op : W32 → W32 → W32} {d : RName} {a b : Src} {s : State} (hd : sdst32 d = true)
    (ha : ssrc32 a = true) (hb : ssrc32 b = true) (hc : s.CanIssue [a, b]) :
    ∃ t, sca2 op d a b s = .next t ∧ ScaWord s t d false ((op (s.src32 a 0) (s.src32 b 0)).setWidth 64) :=
  sca_completes (by simp [hd, ha, hb]) hd hc

theorem sca1_completes {op : W32 → W32} {d : RName} {a : Src} {s : State} (hd : sdst32 d = true)
    (ha : ssrc32 a = true) (hc : s.CanIssue [a]) :
    ∃ t, sca1 op d a s = .next t ∧ ScaWord s t d false ((op (s.src32 a 0)).setWidth 64) :=
  sca_completes (by simp [hd, ha]) hd hc

theorem flt2_completes {t : FTy} {g : Fmt → Nat → Bool → Nat → Nat → Flt} {d : RName} {a b : Src} {s : State}
    (hd : dstTy t d = true) (ha : srcTy t a = true) (hb : srcTy t b = true) (hc : s.CanIssue [a, b]) :
    ∃ u, flt2 t g d a b s = .next u ∧
      VecWord s u d (t == .f64) (fun n => (mapEls t (fun x y _ => g (fmtOf t) s.rm (s.ftzT t) x y) (s.srcT t a n) (s.srcT t b n) 0).1)
        (s.flagsOf fun n => (mapEls t (fun x y _ => g (fmtOf t) s.rm (s.ftzT t) x y) (s.srcT t a n) (s.srcT t b n) 0).2) :=
  vecFlt_completes (by simp [hd, ha, hb]) hc (wideOk_dstTy hd)

theorem flt3_completes {t : FTy} {d : RName} {a b : Src} {s : State}
    (hd : dstRTy t d = true) (ha : srcTy t a = true) (hb : srcTy t b = true) (hc : s.CanIssue [a, b]) :
    ∃ u, flt3 t d a b s = .next u ∧
      VecWord s u d (t == .f64) (fun n => (mapEls t (fmaF (fmtOf t) s.rm (s.ftzT t)) (s.srcT t a n) (s.srcT t b n) (s.dstT t d n)).1)
        (s.flagsOf fun n => (mapEls t (fmaF (fmtOf t) s.rm (s.ftzT t)) (s.srcT t a n) (s.srcT t b n) (s.dstT t d n)).2) :=
  vecFlt_completes (by simp [hd, ha, hb]) hc (wideOk_dstRTy hd)

theorem fltL_completes {t : FTy} {d : RName} {a b : Src} {s : State}
    (hd : dstTy t d = true) (ha : srcTy t a = true) (hb : srcTy t b = true) (hc : s.CanIssue [a, b]) :
    ∃ u, fltL t d a b s = .next u ∧
      VecWord s u d (t == .f64) (fun n => (mapEls t (fmaF (fmtOf t) s.rm (s.ftzT t)) (s.srcT t a n) (s.srcT t b n) (s.cw.lastq.get n 0)).1)
        (s.flagsOf fun n => (mapEls t (fmaF (fmtOf t) s.rm (s.ftzT t)) (s.srcT t a n) (s.srcT t b n) (s.cw.lastq.get n 0)).2) :=
  vecFlt_completes (by simp [hd, ha, hb]) hc (wideOk_dstTy hd)

theorem flt1_completes {all : Bool} {g : FTy → Nat → Bool → Nat → Flt} {t : FTy} {d : RName} {a : Src} {s : State}
    (hd : dstTy t d = true) (ha : srcTy t a = true) (ht : (all || t != .f64) = true) (hc : s.CanIssue [a]) :
    ∃ u, flt1 all g d a t s = .next u ∧
      VecWord s u d (t == .f64) (fun n => (mapEls t (fun x _ _ => g t s.rm (s.ftzT t) x) (s.srcT t a n) 0 0).1)
        (s.flagsOf fun n => (mapEls t (fun x _ _ => g t s.rm (s.ftzT t) x) (s.srcT t a n) 0 0).2) :=
  vecFlt_completes (by simp only [hd, ha, ht, Bool.and_self]) hc (wideOk_dstTy hd)

theorem fltCmp_completes {cc : Nat} {t : FTy} {d : RName} {a : Src} {s : State}
    (hd : dstRTy t d = true) (ha : srcTy t a = true) (hc : s.CanIssue [a]) :
    let c := fun x y => cmpF cc (fmtOf t) (s.ftzT t) x y
    let r := fun n => mapEls t (fun x y _ => (if (c x y).1 then tyOnes t else 0, (c x y).2)) (s.dstT t d n) (s.srcT t a n) 0
    ∃ u, fltCmp cc d a t s = .next u ∧ VecWord s u d (t == .f64) (fun n => (r n).1) (s.flagsOf fun n => (r n).2) :=
  vecFlt_completes (by simp [hd, ha]) hc (wideOk_dstRTy hd)

theorem scanWord_completes {op : State → Comb} {ident : W32} {d a : RName} {x : Bool} {s : State} (hd : dst32 d = true)
    (ha : vname a = true) (hc : s.CanIssue []) :
    let r := network (scanStep (op s)) (if x then shiftIn (s.contrib a) else s.contrib a)
    ∃ t, scanWord op ident d a x s = .next t ∧
      VecWord s t d false (fun n => ((r.1.getD n none).getD ident).setWidth 64) (BitVec.ofNat 32 (r.2 % 32)) :=
  ⟨_, issueFixed_eq (by simp [hd, ha]) hc rfl, fltDone s d false _ _ (wideOk_false d)⟩

theorem redWord_completes {op : State → Comb} {ident : W32} {d a : RName} {s : State} (hd : dst32 d = true)
    (ha : vname a = true) (hc : s.CanIssue []) :
    let r := network (redStep (op s)) (s.contrib a)
    ∃ t, redWord op ident d a s = .next t ∧
      VecWord s t d false (fun _ => ((r.1.getD 0 none).getD ident).setWidth 64) (BitVec.ofNat 32 (r.2 % 32)) :=
  ⟨_, issueFixed_eq (by simp [hd, ha]) hc rfl, fltDone s d false _ _ (wideOk_false d)⟩

theorem cvt1_completes {ok wide : Bool} {src : State → Nat → Nat} {g : Nat → Nat → Flt} {d : RName} {a : Src} {s : State}
    (hok : ok = true) (hw : wideOk d wide) (hc : s.CanIssue [a]) :
    ∃ u, cvt1 ok wide src g d a s = .next u ∧
      VecWord s u d wide (fun n => BitVec.ofNat 64 (g s.rm (src s n)).1) (s.flagsOf fun n => (g s.rm (src s n)).2) :=
  vecFlt_completes hok hc hw

end Sys2Proof.Machine
end

