-- ==== Sys2Proof/Laws/Send.lean ====
section
/-! SUPPORT. What sending a memory word does when every access passes the checks of R115. -/

set_option Elab.async false

namespace Sys2Proof.Machine

theorem firstTrap_isOk {ts : List Try} (h : ∀ t ∈ ts, t.chk.isOk = true) : firstTrap ts = none := by
  have key : ∀ (l : List Try) (b : Option Nat), b = none → (∀ t ∈ l, t.chk.isOk = true) →
      l.foldl (fun b t => match t.chk.code, b with
        | some c, some x => some (min c x)
        | some c, none => some c
        | none, x => x) b = none := by
    intro l
    induction l with
    | nil => intro b hb _; exact hb
    | cons t r ih =>
      intro b hb hl
      have ht := hl t (List.mem_cons_self ..)
      refine ih _ ?_ fun x hx => hl x (List.mem_cons_of_mem _ hx)
      subst hb
      revert ht
      dsimp only
      cases t.chk <;> simp [Chk.isOk, Chk.code]
  exact key ts none rfl h

theorem lanesWith_none {ts : List Try} {p : Chk → Bool} (h : ∀ t ∈ ts, p t.chk = false) : lanesWith ts p = 0 := by
  have : ts.filter (fun t => p t.chk) = [] := by simpa using h
  simp [lanesWith, this]

theorem pagesWith_none {ts : List Try} {c : Chk} (h : ∀ t ∈ ts, (t.chk == c) = false) : pagesWith ts c = [] := by
  have : ts.filter (fun t => t.chk == c) = [] := by simpa using h
  simp [pagesWith, this]

/-- The lanes of a list of numbers, put together bit by bit. -/
theorem foldl_or_getLsbD (l : List Try) (m : Lanes) (n : Nat) :
    (l.foldl (fun m t => m ||| t.lanes) m).getLsbD n = (m.getLsbD n || l.any fun t => t.lanes.getLsbD n) := by
  induction l generalizing m with
  | nil => simp
  | cons t r ih => simp [ih, Bool.or_assoc]

theorem laneBit_getLsbD {k n : Nat} (hn : n < 32) : (laneBit k).getLsbD n = decide (n = k) := by
  unfold laneBit
  rw [BitVec.getLsbD_ofNat]
  simp [hn, Nat.testBit_two_pow, eq_comm]

/-- One access for each lane: together they are the executing set. -/
theorem lanesWith_tries {s : State} {f : Nat → Try} {p : Chk → Bool} (hl : ∀ n, (f n).lanes = laneBit n)
    (hp : ∀ n, s.runs n → p (f n).chk = true) : lanesWith ((lanesOf s.memb).map f) p = s.memb := by
  have hf : ((lanesOf s.memb).map f).filter (fun t => p t.chk) = (lanesOf s.memb).map f := by
    apply List.filter_eq_self.2
    intro t ht
    obtain ⟨n, hn, rfl⟩ := List.mem_map.1 ht
    exact hp n ((s.runs_iff n).1 hn)
  unfold lanesWith
  rw [hf]
  apply BitVec.eq_of_getLsbD_eq
  intro n hn
  rw [foldl_or_getLsbD, List.any_map, show (0 : Lanes).getLsbD n = false from BitVec.getLsbD_zero, Bool.false_or, Bool.eq_iff_iff,
    List.any_eq_true]
  constructor
  · rintro ⟨k, hk, h⟩
    simp only [Function.comp, hl, laneBit_getLsbD hn, decide_eq_true_eq] at h
    subst h; exact ((s.runs_iff _).1 hk).2
  · intro h
    exact ⟨n, (s.runs_iff n).2 ⟨hn, h⟩, by simp [hl, laneBit_getLsbD hn]⟩

/-- The first access to private pages changes the dies and nothing else. -/
theorem own_rest (s : State) (c l p v : Nat) : { s.own c l p v with dies := s.dies } = s := by
  unfold State.own
  split <;> rfl

theorem owns_rest (g : Acc → Nat × Nat × Nat × Nat) (as : List Acc) (s : State) :
    { as.foldl (fun u a => if a.pa < hostBase then u.own (g a).1 (g a).2.1 (g a).2.2.1 (g a).2.2.2 else u) s with dies := s.dies } = s := by
  induction as generalizing s with
  | nil => rfl
  | cons a r ih =>
    simp only [List.foldl_cons]
    have h1 := ih (if a.pa < hostBase then s.own (g a).1 (g a).2.1 (g a).2.2.1 (g a).2.2.2 else s)
    have h2 : { (if a.pa < hostBase then s.own (g a).1 (g a).2.1 (g a).2.2.1 (g a).2.2.2 else s) with dies := s.dies } = s := by
      split
      · exact own_rest ..
      · rfl
    generalize (if a.pa < hostBase then s.own (g a).1 (g a).2.1 (g a).2.2.1 (g a).2.2.2 else s) = v at h1 h2
    calc _ = { ({ List.foldl (fun u a => if a.pa < hostBase then u.own (g a).1 (g a).2.1 (g a).2.2.1 (g a).2.2.2 else u) v r with dies := v.dies } : State) with dies := s.dies } := rfl
      _ = { v with dies := s.dies } := by rw [h1]
      _ = s := h2

/-- A first access to a private page adds one page to one owner table, and no home slice changes. -/
theorem die_own (s : State) (c l p v d : Nat) :
    (s.own c l p v).die d = s.die d ∨
      ∃ x, (s.own c l p v).die d = { s.die d with owners := (s.die d).owners.set (leafFrame l p v) x } := by
  unfold State.own
  split
  · rw [State.die_modDie]
    split
    · next h =>
      subst h
      dsimp only
      split
      · exact .inl rfl
      · exact .inr ⟨_, rfl⟩
    · exact .inl rfl
  · exact .inl rfl

theorem homeSlice_own (s : State) (c l p v a n : Nat) : (s.own c l p v).homeSlice a n = s.homeSlice a n := by
  unfold State.homeSlice
  rcases die_own s c l p v (a / 2 ^ 48) with h | ⟨x, h⟩
  · rw [h]
  · rw [h]; rfl

theorem ownCount_own (s : State) (c l p v leaf pa va : Nat) :
    (s.own c l p v).ownCount leaf pa va ≤ s.ownCount leaf pa va + 1 := by
  unfold State.ownCount
  simp only [homeSlice_own]
  rcases die_own s c l p v (pa / 2 ^ 48) with h | ⟨x, h⟩
  · rw [h]; exact Nat.le_succ _
  · rw [h]; exact FMap.filter_set_length ..

theorem owners_own (s : State) (c l p v d k : Nat) (h : (s.die d).owners.has k = true) :
    ((s.own c l p v).die d).owners.has k = true := by
  rcases die_own s c l p v d with e | ⟨x, e⟩
  · rw [e]; exact h
  · rw [e]; simp only [FMap.has_set, h, Bool.or_true]

/-- With room for each of its pages the owner tables take every access of a word. -/
theorem ownRoom_all (core : Nat) (ts : List Try) (s v : State) (j : Nat) (hj : j + ts.length ≤ 32)
    (hc : ∀ l p a, v.ownCount l p a ≤ s.ownCount l p a + j)
    (hh : ∀ d k, (s.die d).owners.has k = true → (v.die d).owners.has k = true)
    (hr : ∀ t ∈ ts, ∀ pa leaf, t.chk = .ok pa leaf → s.OwnRoom leaf pa t.va.toNat) : v.ownRoom core ts = ts := by
  induction ts generalizing v j with
  | nil => rfl
  | cons t r ih =>
    have hj1 : j + 1 + r.length ≤ 32 := by simp only [List.length_cons] at hj; omega
    have hr1 : ∀ x ∈ r, ∀ pa leaf, x.chk = .ok pa leaf → s.OwnRoom leaf pa x.va.toNat := fun x hx => hr x (List.mem_cons_of_mem _ hx)
    unfold State.ownRoom
    split
    · next pa leaf hk =>
      have room := hr t (List.mem_cons_self ..) pa leaf hk
      have full : v.ownFull leaf pa t.va.toNat = false := by
        unfold State.ownFull
        rcases room with h | h | h
        · simp [h]
        · simp only [hh _ _ h, Bool.not_true, Bool.and_false, Bool.false_and]
        · have := hc leaf pa t.va.toNat
          have : ¬ 4096 ≤ v.ownCount leaf pa t.va.toNat := by omega
          simp [this]
      rw [full, if_neg Bool.false_ne_true, ih _ (j + 1) hj1 (fun l p a => ?_) (fun d k h => owners_own _ _ _ _ _ _ _ (hh d k h)) hr1]
      have h1 := ownCount_own v core leaf pa t.va.toNat l p a
      have h2 := hc l p a
      omega
    · rw [ih v j (by omega) hc hh hr1]

theorem lanesOf_length (m : Lanes) : (lanesOf m).length ≤ 32 := by
  unfold lanesOf
  exact (List.length_filter_le ..).trans (by simp)

/-- The accesses of a word that reaches its places: one for each lane. -/
theorem tries_reaches {s : State} {va : Nat → W64} {k : Want} {at' : Nat → Nat × Nat} (hr : s.Reaches va k at') :
    s.tries va k = (lanesOf s.memb).map fun n =>
      ({ lane := n, lanes := laneBit n, va := va n, chk := s.check s.cur.core s.cg (va n) k } : Try) := by
  unfold State.tries
  refine ownRoom_all _ _ s s 0 ?_ (fun _ _ _ => Nat.le_refl _) (fun _ _ h => h) ?_
  · simpa using lanesOf_length s.memb
  · intro t ht pa leaf hk
    obtain ⟨n, hn, rfl⟩ := List.mem_map.1 ht
    obtain ⟨h1, h2⟩ := hr.2 n ((s.runs_iff n).1 hn)
    dsimp only at hk ⊢
    rw [h1] at hk
    injection hk with e1 e2
    subst e1; subst e2
    exact h2

/-- Counting a word that has issued adds to the skid of its wave. -/
theorem State.count_modCw (s v : State) (g : Wave → Wave) :
    (v.modCw g).count s = v.modCw fun w => { g w with skid := (g w).skid + if s.cg.phase = .halting then 1 else 0 } := by
  unfold State.count
  split
  · rw [State.modCw_modCw]
  · rfl

/-- A memory word whose accesses all pass, sent and counted: one operation more, and nothing else but the flag and the
path (R30, R115). -/
theorem sendWord_sends {s : State} {flag : Nat} {ts : List Try} {write : Bool} {op : MemOp} {mk : Try → Nat → W64 → Acc}
    (hp : ∀ t ∈ ts, t.chk.isOk = true) (hl : lanesWith ts Chk.isOk = s.memb) (hm : s.memb ≠ 0) :
    ∃ u, s.sendWord flag ts write op mk = .done u ∧
      SentOp s (u.count s) flag (if op.acq then [s.nextId] else []) (s.opOf flag (sentAccs ts mk) op) := by
  have hpath : ∃ p r, s.cw.paths = p :: r := by
    cases h : s.cw.paths with
    | nil => exact absurd (by simp [State.memb, State.cp, h]) hm
    | cons p r => exact ⟨p, r, rfl⟩
  obtain ⟨p, r, hpr⟩ := hpath
  have hcp : s.cp = p := by simp [State.cp, hpr]
  have hpl : p.lanes = s.memb := by simp [State.memb, hcp]
  have no : ∀ (c : Chk), c.isOk = false → ∀ t ∈ ts, (t.chk == c) = false := by
    intro c hc t ht
    have h := hp t ht
    by_contra h2
    have : t.chk = c := by simpa using h2
    rw [this, hc] at h; cases h
  have hpark : pagesWith ts .park = [] := pagesWith_none (no _ rfl)
  have hwait : pagesWith ts .wait = [] := pagesWith_none (no _ rfl)
  have htab : lanesWith ts (· == .table) = 0 := lanesWith_none (no _ rfl)
  have hfind : ts.find? (fun x => x.chk == .table) = none := by
    rw [List.find?_eq_none]
    intro t ht; rw [no .table rfl t ht]; exact Bool.false_ne_true
  unfold State.sendWord
  rw [firstTrap_isOk hp]
  simp only [hl, hm, if_false, State.raiseMisses, hpark, List.foldl_nil, hfind]
  generalize sentAccs ts mk = accs
  have hwv : (s.cw.divide ts fun p => { p.past true with hold := if op.acq then s.nextId :: p.hold else p.hold }) =
      { s.cw with paths := { p.past true with hold := (if op.acq then [s.nextId] else []) ++ p.hold } :: r } := by
    unfold Wave.divide
    rw [hpr]
    simp only [hl, hpark, hwait, htab, if_true, List.map_nil, List.append_nil, ← hpl]
    rw [if_neg (hpl ▸ hm)]
    cases op.acq <;> rfl
  have ho := owns_rest (fun a => (s.cur.core, a.leaf.toNat, a.pa, a.va.toNat)) (accs.map (s.sent s.cur.core))
    { (s.modCw fun w => (w.divide ts fun p => { p.past true with hold := if op.acq then s.nextId :: p.hold else p.hold }).raise flag) with
      ops := s.ops ++ [s.opOf flag accs op], nextId := s.nextId + 1 }
  simp only at ho
  revert ho
  generalize hu : List.foldl (fun u a => if a.pa < hostBase then u.own s.cur.core a.leaf.toNat a.pa a.va.toNat else u)
    { (s.modCw fun w => (w.divide ts fun p => { p.past true with hold := if op.acq then s.nextId :: p.hold else p.hold }).raise flag) with
      ops := s.ops ++ [s.opOf flag accs op], nextId := s.nextId + 1 } (accs.map (s.sent s.cur.core)) = u
  intro ho
  have hwaves : u.waves = (s.modCw fun w => (w.divide ts fun p => { p.past true with hold := if op.acq then s.nextId :: p.hold else p.hold }).raise flag).waves :=
    (congrArg State.waves ho :)
  have hcur : u.cur = s.cur := (congrArg State.cur ho :)
  have hck : u.ck = s.ck := by unfold State.ck; rw [hcur]
  have hucw : u.cw = (s.cw.divide ts fun p => { p.past true with hold := if op.acq then s.nextId :: p.hold else p.hold }).raise flag := by
    have h1 : u.cw = (s.modCw fun w => (w.divide ts fun p => { p.past true with hold := if op.acq then s.nextId :: p.hold else p.hold }).raise flag).cw := by
      unfold State.cw State.wave; rw [hck, hwaves]; rfl
    rw [h1, State.cw_modCw]
  have hcw : (u.count s).cw = { u.cw with skid := u.cw.skid + if s.cg.phase = .halting then 1 else 0 } := by
    unfold State.count; split
    · rw [State.cw_modCw]
    · rfl
  have hmem : (u.count s).mem = s.mem := by
    have : u.mem = s.mem := (congrArg State.mem ho :)
    unfold State.count; split <;> exact this
  have hops : (u.count s).ops = s.ops ++ [s.opOf flag accs op] := by
    have : u.ops = s.ops ++ [s.opOf flag accs op] := (congrArg State.ops ho :)
    unfold State.count; split <;> exact this
  have hnext : (u.count s).nextId = s.nextId + 1 := by
    have : u.nextId = s.nextId + 1 := (congrArg State.nextId ho :)
    unfold State.count; split <;> exact this
  rw [hwv] at hucw
  have hraise : ∀ w : Wave, { w.raise flag with flags := w.flags } = w := by intro w; unfold Wave.raise; split <;> rfl
  have hflag : ∀ (w : Wave) f, (w.raise flag).flags.get f 0 = w.flags.get f 0 + if f = flag ∧ f < 12 then 1 else 0 := by
    intro w f
    unfold Wave.raise
    split
    · next h =>
      simp only [FMap.get_upd]
      by_cases h2 : f = flag
      · subst h2; simp [h]
      · simp [h2]
    · next h =>
      rw [if_neg]; · rfl
      rintro ⟨rfl, h2⟩; exact h h2
  refine ⟨u, by rw [← hu]; rfl, ⟨?_, hmem, ?_, ?_, ?_, ?_⟩, hops, hnext⟩
  · intro k hk
    have h1 : u.wave k = s.wave k := by
      have := State.wave_modCw_ne s (fun w => (w.divide ts fun p => { p.past true with hold := if op.acq then s.nextId :: p.hold else p.hold }).raise flag) k hk
      unfold State.wave at this ⊢
      rw [hwaves]; exact this
    unfold State.count; split
    · rw [State.wave_modCw_ne u _ k (by rw [hck]; exact hk)]; exact h1
    · exact h1
  · rw [hcw, hucw]
    have := congrArg Wave.paths (hraise { s.cw with paths := { p.past true with hold := (if op.acq then [s.nextId] else []) ++ p.hold } :: r })
    simp only at this ⊢
    rw [this]
    unfold Wave.modPath
    rw [hpr]
  · rw [hcw, hucw]
    have := congrArg Wave.skid (hraise { s.cw with paths := { p.past true with hold := (if op.acq then [s.nextId] else []) ++ p.hold } :: r })
    simp only at this ⊢
    rw [this]
  · intro f
    rw [hcw, hucw]
    exact hflag _ f
  · rw [hcw, hucw]
    have := hraise { s.cw with paths := { p.past true with hold := (if op.acq then [s.nextId] else []) ++ p.hold } :: r }
    calc _ = { ({ ({ s.cw with paths := { p.past true with hold := (if op.acq then [s.nextId] else []) ++ p.hold } :: r } : Wave).raise flag with flags := s.cw.flags } : Wave) with paths := s.cw.paths, skid := s.cw.skid } := rfl
      _ = s.cw := by rw [this]

/-- The accesses of a word whose lanes all pass, lane by lane. -/
theorem sentAccs_lanes {l : List Nat} {f : Nat → Try} {mk : Try → Nat → W64 → Acc} {at' : Nat → Nat × Nat}
    (h : ∀ n ∈ l, (f n).chk = .ok (at' n).1 (at' n).2) :
    sentAccs (l.map f) mk = l.map fun n => mk (f n) (at' n).1 (BitVec.ofNat 64 (at' n).2) := by
  unfold sentAccs
  induction l with
  | nil => rfl
  | cons n r ih =>
    have h1 := h n (List.mem_cons_self ..)
    have h2 := ih fun k hk => h k (List.mem_cons_of_mem _ hk)
    simp only [List.map_cons, List.filterMap_cons, h1, h2]

/-- A vector memory word whose executing lanes all pass, issued: what it has sent. -/
theorem issueLong_sends {ok writes onL rel : Bool} {srcs : List Src} {s : State} {sel : Nat} {va : Nat → W64} {k : Want}
    {write : Bool} {op : MemOp} {mk : Try → Nat → W64 → Acc} {f : Nat → State → Res} {at' : Nat → Nat × Nat} (hok : ok = true)
    (hs : s.CanSend srcs writes onL rel sel) (hr : s.Reaches va k at')
    (hf : f sel s = s.sendWord sel (s.tries va k) write op mk) :
    ∃ u, issueLong ok writes onL rel srcs f s = .next u ∧
      SentOp s u sel (if op.acq then [s.nextId] else []) (s.opOf sel ((lanesOf s.memb).map fun n =>
        mk { lane := n, lanes := laneBit n, va := va n, chk := .ok (at' n).1 (at' n).2 } (at' n).1 (BitVec.ofNat 64 (at' n).2)) op) := by
  obtain ⟨c, hc, -⟩ := CanIssue_clause hs.issue
  have hsel := hs.named c hc
  have htr := tries_reaches hr
  have hok1 : ∀ t ∈ s.tries va k, t.chk.isOk = true := by
    rw [htr]
    intro t ht
    obtain ⟨n, hn, rfl⟩ := List.mem_map.1 ht
    simp only [(hr.2 n ((s.runs_iff n).1 hn)).1]; rfl
  have hlanes : lanesWith (s.tries va k) Chk.isOk = s.memb := by
    rw [htr]
    exact lanesWith_tries (fun _ => rfl) fun n hn => by simp only [(hr.2 n hn).1]; rfl
  obtain ⟨u, hu, hsent⟩ := sendWord_sends (flag := sel) (write := write) (op := op) (mk := mk) hok1 hlanes hr.1
  refine ⟨_, issueLong_eq (t := u) hok hs.issue hc (fun h => hsel ▸ hs.flagged h) (fun h => hsel ▸ hs.room (hsel ▸ h)) hs.free hs.acked
    (by rw [hsel, hf, hu]), ?_⟩
  have e : sentAccs (s.tries va k) mk = (lanesOf s.memb).map fun n =>
      mk { lane := n, lanes := laneBit n, va := va n, chk := .ok (at' n).1 (at' n).2 } (at' n).1 (BitVec.ofNat 64 (at' n).2) := by
    rw [htr, sentAccs_lanes (at' := at') fun n hn => (hr.2 n ((s.runs_iff n).1 hn)).1]
    apply List.map_congr_left
    intro n hn
    rw [(hr.2 n ((s.runs_iff n).1 hn)).1]
  rw [← e]
  exact hsent

/-- A word of one access whose check passes, issued: what it has sent. -/
theorem issueLong_sends1 {ok writes onL rel : Bool} {srcs : List Src} {s : State} {sel : Nat} {va : W64} {k : Want}
    {write : Bool} {op : MemOp} {mk : Try → Nat → W64 → Acc} {f : Nat → State → Res} {pa leaf : Nat} (hok : ok = true)
    (hs : s.CanSend srcs writes onL rel sel) (hm : s.memb ≠ 0) (hr : s.check s.cur.core s.cg va k = .ok pa leaf)
    (hf : f sel s = s.sendWord sel (s.try1 va k) write op mk) :
    ∃ u, issueLong ok writes onL rel srcs f s = .next u ∧
      SentOp s u sel (if op.acq then [s.nextId] else []) (s.opOf sel
        [mk { lane := 0, lanes := s.memb, va := va, chk := .ok pa leaf } pa (BitVec.ofNat 64 leaf)] op) := by
  obtain ⟨c, hc, -⟩ := CanIssue_clause hs.issue
  have hsel := hs.named c hc
  have ht : s.try1 va k = [{ lane := 0, lanes := s.memb, va := va, chk := .ok pa leaf }] := by unfold State.try1; rw [hr]
  have hok1 : ∀ t ∈ s.try1 va k, t.chk.isOk = true := by
    intro t h; rw [ht, List.mem_singleton] at h; subst h; rfl
  have hlanes : lanesWith (s.try1 va k) Chk.isOk = s.memb := by rw [ht]; simp [lanesWith, Chk.isOk]
  obtain ⟨u, hu, hsent⟩ := sendWord_sends (flag := sel) (write := write) (op := op) (mk := mk) hok1 hlanes hm
  refine ⟨_, issueLong_eq (t := u) hok hs.issue hc (fun h => hsel ▸ hs.flagged h) (fun h => hsel ▸ hs.room (hsel ▸ h)) hs.free hs.acked
    (by rw [hsel, hf, hu]), ?_⟩
  rwa [ht] at hsent

/-- The address of an FM word as arithmetic (R114). -/
theorem fmAddr_eq (x : W64) (o : BitVec 4) (n : Nat) : fmAddr x o n = x + BitVec.ofInt 64 (o.toInt * n) := by
  unfold fmAddr
  have h : o.signExtend 64 = BitVec.ofInt 64 o.toInt := rfl
  rw [BitVec.ofInt_mul, h]
  rfl

theorem loadV_sends {size : Nat} {signed : Bool} {t b : RName} {o : BitVec 4} {r : Ord} {sc : Scope} {h : Hint} {s : State}
    {sel : Nat} {at' : Nat → Nat × Nat} (ht : (if size = 8 then ldst64 t else ldst t) = true) (hb : vaddr b = true)
    (ho : loadOrd r = true) (hs : s.CanSend [] true true false sel)
    (hr : s.Reaches (fun n => s.cw.readV64 b.toNat n + BitVec.ofInt 64 (o.toInt * size)) { size := size } at') :
    ∃ u, loadV size signed t b o r sc h s = .next u ∧
      SentOp s u sel (if isAcq r then [s.nextId] else [])
        (s.opOf sel ((lanesOf s.memb).map fun n =>
          { lane := n, va := s.cw.readV64 b.toNat n + BitVec.ofInt 64 (o.toInt * size), pa := (at' n).1, leaf := BitVec.ofNat 64 (at' n).2 })
          { kind := .load, size := size, signed := signed, acq := isAcq r, scope := scopeNum sc, hint := hintNum h, opfile := inOpf t, reg := s.reach t }) :=
  issueLong_sends (write := false)
    (op := { kind := .load, size := size, signed := signed, acq := isAcq r, scope := scopeNum sc, hint := hintNum h, opfile := inOpf t, reg := s.reach t })
    (mk := fun y pa leaf => { lane := y.lane, va := y.va, pa := pa, leaf := leaf }) (by rw [ht, hb, ho]; rfl) hs hr
    (by simp only [fmAddr_eq])

theorem storeV_sends {size : Nat} {t b : RName} {o : BitVec 4} {r : Ord} {sc : Scope} {h : Hint} {s : State}
    {sel : Nat} {at' : Nat → Nat × Nat} (ht : (if size = 8 then stsrc64 t else vname t) = true) (hb : vaddr b = true)
    (ho : storeOrd r = true) (hs : s.CanSend [] false true (isRel r) sel)
    (hr : s.Reaches (fun n => s.cw.readV64 b.toNat n + BitVec.ofInt 64 (o.toInt * size)) { size := size, write := true } at') :
    ∃ u, storeV size t b o r sc h s = .next u ∧
      SentOp s u sel []
        (s.opOf sel ((lanesOf s.memb).map fun n =>
          { lane := n, va := s.cw.readV64 b.toNat n + BitVec.ofInt 64 (o.toInt * size), pa := (at' n).1, leaf := BitVec.ofNat 64 (at' n).2
            data := (if size = 8 then s.cw.readV64 t.toNat n else (s.cw.readV t.toNat n).setWidth 64).setWidth 256 })
          { kind := .store, size := size, scope := scopeNum sc, hint := hintNum h, zread := s.zeroRead (isRel r) (scopeNum sc) }) :=
  issueLong_sends (write := true)
    (op := { kind := .store, size := size, scope := scopeNum sc, hint := hintNum h, zread := s.zeroRead (isRel r) (scopeNum sc) })
    (mk := fun y pa leaf =>
      { lane := y.lane, va := y.va, pa := pa, leaf := leaf
        data := (if size = 8 then s.cw.readV64 t.toNat y.lane else (s.cw.readV t.toNat y.lane).setWidth 64).setWidth 256 })
    (by rw [ht, hb, ho]; rfl) hs hr (by simp only [fmAddr_eq])

theorem loadS_sends {size : Nat} {t b : RName} {o : BitVec 4} {r : Ord} {sc : Scope} {h : Hint} {s : State} {sel pa leaf : Nat}
    (ht : (if size = 8 then spair t else sgen t) = true) (hb : spair b = true) (ho : loadOrd r = true) (hm : s.memb ≠ 0)
    (hs : s.CanSend [] true true false sel)
    (hr : s.check s.cur.core s.cg (s.readS64 b.toNat + BitVec.ofInt 64 (o.toInt * size)) { size := size } = .ok pa leaf) :
    ∃ u, loadS size t b o r sc h s = .next u ∧
      SentOp s u sel (if isAcq r then [s.nextId] else [])
        (s.opOf sel [{ va := s.readS64 b.toNat + BitVec.ofInt 64 (o.toInt * size), pa := pa, leaf := BitVec.ofNat 64 leaf }]
          { kind := .load, size := size, acq := isAcq r, scope := scopeNum sc, hint := hintNum h, sca := true, reg := t.toNat }) :=
  issueLong_sends1 (write := false)
    (op := { kind := .load, size := size, acq := isAcq r, scope := scopeNum sc, hint := hintNum h, sca := true, reg := t.toNat })
    (mk := fun y pa leaf => { va := y.va, pa := pa, leaf := leaf }) (by rw [ht, hb, ho]; rfl) hs hm hr
    (by simp only [fmAddr_eq])

theorem storeS_sends {size : Nat} {t b : RName} {o : BitVec 4} {r : Ord} {sc : Scope} {h : Hint} {s : State} {sel pa leaf : Nat}
    (ht : (if size = 8 then spair t else sgen t) = true) (hb : spair b = true) (ho : storeOrd r = true) (hm : s.memb ≠ 0)
    (hs : s.CanSend [] false true (isRel r) sel)
    (hr : s.check s.cur.core s.cg (s.readS64 b.toNat + BitVec.ofInt 64 (o.toInt * size)) { size := size, write := true } = .ok pa leaf) :
    ∃ u, storeS size t b o r sc h s = .next u ∧
      SentOp s u sel []
        (s.opOf sel [{ va := s.readS64 b.toNat + BitVec.ofInt 64 (o.toInt * size), pa := pa, leaf := BitVec.ofNat 64 leaf
                       data := (if size = 8 then s.readS64 t.toNat else (s.readS t.toNat).setWidth 64).setWidth 256 }]
          { kind := .store, size := size, scope := scopeNum sc, hint := hintNum h, sca := true
            zread := s.zeroRead (isRel r) (scopeNum sc) }) :=
  issueLong_sends1 (write := true)
    (op := { kind := .store, size := size, scope := scopeNum sc, hint := hintNum h, sca := true
             zread := s.zeroRead (isRel r) (scopeNum sc) })
    (mk := fun y pa leaf =>
      { va := y.va, pa := pa, leaf := leaf
        data := (if size = 8 then s.readS64 t.toNat else (s.readS t.toNat).setWidth 64).setWidth 256 })
    (by rw [ht, hb, ho]; rfl) hs hm hr (by simp only [fmAddr_eq])

theorem atomic_sends {size fn : Nat} {t b : RName} {r : Ord} {sc : Scope} {h : Hint} {s : State} {sel : Nat} {at' : Nat → Nat × Nat}
    (ht : (if fn = 9 then (if size = 8 then cas64 t else ldst64 t) else if size = 8 then ldst64 t else ldst t) = true)
    (hb : vaddr b = true) (hs : s.CanSend [] true true (isRel r) sel)
    (hr : s.Reaches (fun n => s.cw.readV64 b.toNat n) { size := size, write := true, atom := some fn } at') :
    let word := fun (k n : Nat) => if size = 8 then s.cw.readV64 k n else (s.cw.readV k n).setWidth 64
    ∃ u, atomic size fn t b r sc h s = .next u ∧
      SentOp s u sel (if isAcq r then [s.nextId] else [])
        (s.opOf sel ((lanesOf s.memb).map fun n =>
          { lane := n, va := s.cw.readV64 b.toNat n, pa := (at' n).1, leaf := BitVec.ofNat 64 (at' n).2
            data := (word (if fn = 9 then t.toNat + size / 4 else t.toNat) n).setWidth 256, aux := word t.toNat n })
          { kind := .atom, fn := fn, size := size, acq := isAcq r, scope := scopeNum sc, hint := hintNum h, opfile := inOpf t, reg := s.reach t
            zread := s.zeroRead (isRel r) (scopeNum sc) }) :=
  issueLong_sends (write := true)
    (op := { kind := .atom, fn := fn, size := size, acq := isAcq r, scope := scopeNum sc, hint := hintNum h, opfile := inOpf t, reg := s.reach t
             zread := s.zeroRead (isRel r) (scopeNum sc) })
    (mk := fun y pa leaf =>
      { lane := y.lane, va := y.va, pa := pa, leaf := leaf
        data := ((fun (k n : Nat) => if size = 8 then s.cw.readV64 k n else (s.cw.readV k n).setWidth 64)
          (if fn = 9 then t.toNat + size / 4 else t.toNat) y.lane).setWidth 256
        aux := (fun (k n : Nat) => if size = 8 then s.cw.readV64 k n else (s.cw.readV k n).setWidth 64) t.toNat y.lane })
    (by rw [ht, hb]; rfl) hs hr rfl

theorem versionWord_sends {kind : OpKind} {write ok acq rel : Bool} {d a : RName} {b : Src} {s : State} {sel : Nat}
    {at' : Nat → Nat × Nat} (hok : ok = true) (hs : s.CanSend [b] (!write) true rel sel)
    (hr : s.Reaches (fun n => s.cw.readV64 a.toNat n) { size := 32, write := write, ver := true } at') :
    ∃ u, versionWord kind write ok acq rel d a b s = .next u ∧
      SentOp s u sel (if acq then [s.nextId] else [])
        (s.opOf sel ((lanesOf s.memb).map fun n =>
          { lane := n, va := s.cw.readV64 a.toNat n, pa := (at' n).1, leaf := BitVec.ofNat 64 (at' n).2
            aux := (s.src32 b n).setWidth 64, data := if write then s.eightRegs d.toNat n else 0 })
          { kind := kind, size := 32, acq := acq, opfile := inOpf d, reg := s.reach d
            scope := (lanesOf s.memb).foldl (fun m n => max m (s.regionScope s.cg.ctx (s.cw.readV64 a.toNat n).toNat)) 0
            zread := s.zeroRead rel ((lanesOf s.memb).foldl (fun m n => max m (s.regionScope s.cg.ctx (s.cw.readV64 a.toNat n).toNat)) 0) }) :=
  issueLong_sends (write := write)
    (op := { kind := kind, size := 32, acq := acq, opfile := inOpf d, reg := s.reach d
             scope := (lanesOf s.memb).foldl (fun m n => max m (s.regionScope s.cg.ctx (s.cw.readV64 a.toNat n).toNat)) 0
             zread := s.zeroRead rel ((lanesOf s.memb).foldl (fun m n => max m (s.regionScope s.cg.ctx (s.cw.readV64 a.toNat n).toNat)) 0) })
    (mk := fun y pa leaf =>
      { lane := y.lane, va := y.va, pa := pa, leaf := leaf, aux := (s.src32 b y.lane).setWidth 64
        data := if write then s.eightRegs d.toNat y.lane else 0 })
    hok hs hr rfl

end Sys2Proof.Machine
end

