-- ==== Sys2Proof/Tests/Slice0.lean ====
section
/-! SUPPORT. Tests on fixed values: ill-formed words are refused, words of the spec decode to the instructions it names,
and single steps on a small state. Every expected result is taken from the spec. -/

set_option Elab.async false

namespace Sys2Proof.Tests

open Sys2Proof.Machine

/-! Well-formedness: one ill-formed word for each check, beside a well-formed word of the same form. -/

theorem test_wf_register_names :
    [(.iadd 0 ⟨.vec, 124⟩ ⟨.vec, 123⟩ : Instr), .adda 0 ⟨.vec, 1⟩ ⟨.lit, 0⟩, .sadd 0 ⟨.sca, 118⟩ ⟨.lit, 0⟩, .smov64 0 ⟨.sca, 99⟩,
      .iadd 0 ⟨.sca, 118⟩ ⟨.lit, 0⟩, .mov64 0 ⟨.cst, 1⟩, .sadd 0 ⟨.vec, 0⟩ ⟨.lit, 0⟩, .smov64 0 ⟨.vec, 0⟩, .qpop 0 ⟨.cst, 0⟩,
      .faddF64 0 ⟨.vec, 1⟩ ⟨.vec, 0⟩].map Instr.wf = List.replicate 10 false ∧
    [(.iadd 0 ⟨.vec, 123⟩ ⟨.vec, 123⟩ : Instr), .adda 0 ⟨.vec, 2⟩ ⟨.lit, 0⟩, .sadd 0 ⟨.sca, 117⟩ ⟨.lit, 0⟩, .smov64 0 ⟨.sca, 98⟩,
      .iadd 0 ⟨.sca, 117⟩ ⟨.lit, 0⟩, .mov64 0 ⟨.cst, 2⟩, .sadd 0 ⟨.sca, 0⟩ ⟨.lit, 0⟩, .smov64 0 ⟨.sca, 0⟩, .qpop 0 ⟨.lit, 0⟩,
      .faddF64 0 ⟨.vec, 2⟩ ⟨.vec, 0⟩].map Instr.wf = List.replicate 10 true := by decide

theorem test_wf_destinations :
    [(.iadd 113 ⟨.vec, 0⟩ ⟨.vec, 0⟩ : Instr), .adda 1 ⟨.vec, 0⟩ ⟨.lit, 0⟩, .imad 112 ⟨.vec, 0⟩ ⟨.vec, 0⟩, .ffmaF64 112 ⟨.vec, 0⟩ ⟨.vec, 0⟩,
      .faddF64 3 ⟨.vec, 0⟩ ⟨.vec, 0⟩, .fcmpLt 112 ⟨.vec, 0⟩ .f32, .smov 96 ⟨.lit, 0⟩, .smov64 95 ⟨.lit, 0⟩, .xall 96 0, .gsave 1,
      .rcv 97 0].map Instr.wf = List.replicate 11 false ∧
    [(.iadd 112 ⟨.vec, 0⟩ ⟨.vec, 0⟩ : Instr), .adda 2 ⟨.vec, 0⟩ ⟨.lit, 0⟩, .imad 111 ⟨.vec, 0⟩ ⟨.vec, 0⟩, .ffmaF64 110 ⟨.vec, 0⟩ ⟨.vec, 0⟩,
      .faddF64 112 ⟨.vec, 0⟩ ⟨.vec, 0⟩, .fcmpLt 111 ⟨.vec, 0⟩ .f32, .smov 97 ⟨.lit, 0⟩, .smov64 94 ⟨.lit, 0⟩, .xall 95 0, .gsave 2,
      .rcv 96 0].map Instr.wf = List.replicate 11 true := by decide

theorem test_wf_memory_and_system :
    [(.vst 0 112 ⟨.lit, 0⟩ .plain : Instr), .ldS32 0 1 0 .plain .die .normal, .join ⟨.lit, 0⟩, .tagwaitAll ⟨.vec, 0⟩, .spawn 4 ⟨.vec, 0⟩,
      .stagepush 2 ⟨.lit, 0⟩, .amsg 8 ⟨.lit, 0⟩, .mdrainF32Sp 2 false false, .cpy 8 0 true, .ldS32 112 0 0 .plain .die .normal,
      .ld64 1 0 0 .plain .die .normal, .st64 1 0 0 .plain .die .normal, .atomCas64 110 0 .plain .die .normal,
      .ldS32 0 0 0 .rel .die .normal, .st32 0 0 0 .acq .die .normal, .clause 0 12 15 0 0, .fexp2 0 ⟨.vec, 0⟩ .f64, .fence .die .plain,
      .fencex 0 1 .die, .bnz 127 0].map Instr.wf = List.replicate 20 false ∧
    [(.vst 0 110 ⟨.lit, 0⟩ .plain : Instr), .ldS32 0 2 0 .plain .die .normal, .join ⟨.sca, 0⟩, .tagwaitAll ⟨.lit, 0⟩, .spawn 8 ⟨.vec, 0⟩,
      .stagepush 4 ⟨.lit, 0⟩, .amsg 16 ⟨.lit, 0⟩, .mdrainF32Sp 4 false false, .cpy 16 0 true, .ldS32 111 0 0 .plain .die .normal,
      .ld64 2 0 0 .plain .die .normal, .st64 2 0 0 .plain .die .normal, .atomCas64 108 0 .plain .die .normal,
      .ldS32 0 0 0 .acq .die .normal, .st32 0 0 0 .rel .die .normal, .clause 0 11 15 0 0, .fexp2 0 ⟨.vec, 0⟩ .f32, .fence .die .acqrel,
      .fencex 1 1 .die, .bnz 123 0].map Instr.wf = List.replicate 20 true := by decide

/-! Decoding: words that the spec writes out beside their assembly form, and the encoder's answer to the instruction. -/

/-- Both directions of a word. -/
def Coded (w : Nat) (i : Instr) : Prop := decodeNat w = some i ∧ encodeNat i = some w

theorem test_decode_headers : Coded 0xFC0047C9 (.clause 1 1 15 1 1) := by unfold Coded; decide +kernel

theorem test_decode_integer :
    Coded 0x00102FBC (.iadd 4 ⟨.vec, 5⟩ ⟨.lit, 123⟩) ∧ Coded 0x0207A010 (.isub 1 ⟨.vec, 116⟩ ⟨.vec, 1⟩) ∧
    Coded 0x2C08080C (.cmpLtS32 2 ⟨.vec, 1⟩ ⟨.lit, 0⟩) ∧ Coded 0x34102831 (.sel 4 ⟨.sca, 5⟩ ⟨.vec, 3⟩) ∧
    Coded 0x7853000D (.sadd 20 ⟨.sca, 96⟩ ⟨.lit, 0⟩) ∧ Coded 0x9C1C1850 (.popc 7 ⟨.vec, 3⟩) ∧ Coded 0xCC141678 (.movi 5 0x1678) := by
  unfold Coded; decide +kernel

theorem test_decode_floating :
    Coded 0x60242860 (.ffmalF32 9 ⟨.vec, 5⟩ ⟨.vec, 6⟩) ∧ Coded 0x9C101224 (.fsqrt 4 ⟨.vec, 2⟩ .f64) ∧
    Coded 0xA00C19B0 (.cvtF32Z32 3 ⟨.vec, 3⟩ .cur) ∧ Coded 0xA0608220 (.qpack 24 ⟨.vec, 16⟩) := by
  unfold Coded; decide +kernel

theorem test_decode_lane_and_system :
    Coded 0xA2141030 (.xbits 5 2) ∧ Coded 0xA542B000 (.spawn 80 ⟨.vec, 86⟩) ∧ Coded 0xA402A020 (.join ⟨.vec, 84⟩) ∧
    Coded 0xA8005091 (.tagwaitAll ⟨.sca, 10⟩) ∧ Coded 0xAA000024 .eretKill ∧ Coded 0xAA610030 (.rdsr 24 0x20) ∧
    Coded 0xA8082490 (.fencex 2 4 .group) := by
  unfold Coded; decide +kernel

theorem test_decode_memory :
    Coded 0xB40C4130 (.ldS32 3 8 2 .acq .die .normal) ∧ Coded 0xBC144050 (.st32 5 8 0 .rel .die .normal) ∧
    Coded 0xC2201100 (.sld64 8 2 2 .plain .wave .normal) ∧ Coded 0xC96AA010 (.atomAdd32 90 84 .plain .die .normal) ∧
    Coded 0x902200A4 (.vldEq 8 64 ⟨.sca, 10⟩ .plain) ∧ Coded 0x9A10280C (.spst 4 ⟨.vec, 5⟩ ⟨.lit, 0⟩) := by
  unfold Coded; decide +kernel

theorem test_decode_engine :
    Coded 0xA8402803 (.cpy 16 5 true) ∧ Coded 0xA883F813 (.cpym 32 127 true) ∧ Coded 0xA6000010 (.mzero 0) ∧ Coded 0xA6000300 .mtake ∧
    Coded 0xA6100000 (.mma 1 0 0 0) ∧ Coded 0xA6000103 (.obres 0 ⟨.lit, 0⟩) := by
  unfold Coded; decide +kernel

theorem test_decode_control :
    Coded 0xDE080003 (.bz 2 3) ∧ Coded 0xDDFFFFFD (.bra 0x3FFFD) ∧ Coded 0xDA500003 (.rcv 20 3) ∧ Coded 0xE9FC0000 (.exit 127) := by
  unfold Coded; decide +kernel

/-- R43: an unassigned MOP, an unassigned function, a MOD without a meaning, and a field that must be 0. -/
theorem test_decode_refuses : [0xEC000000, 0x9C0000E0, 0x9C1C1854, 0xE9FC0001].map decodeNat = List.replicate 4 none := by decide +kernel

/-! Steps. The state is reset with one word placed where the next step fetches, and lane registers named in the test. -/

/-- Reset with the word placed and registers of lane 3 set. -/
def at' (w : Nat) (regs : List (Nat × W32)) : State :=
  (State.reset.withFetchWord 32 w).modWave 0 fun x => regs.foldl (fun x r => x.setV r.1 3 r.2) x

/-- What a test reads from the state after a step. -/
noncomputable def after {α : Type} (s : State) (f : State → α) (d : α) : α :=
  match step s with
  | .next t => f t
  | _ => d

/-- R60: the sum wraps modulo 2^32. -/
theorem test_iadd_wraps : after (at' 0x00181840 [(3, 0xFFFFFFFF#32), (4, 2#32)]) (fun t => (t.wave 0).readV 6 3) 7#32 = 1#32 := by
  decide +kernel

/-- R84: IABS.S32 of −2^31 with .SAT. -/
theorem test_iabs_saturates : after (at' 0x9C1C1844 [(3, 0x80000000#32)]) (fun t => (t.wave 0).readV 7 3) 0#32 = 0x7FFFFFFF#32 := by
  decide +kernel

/-- R86: MOVHI keeps the low 14 bits of D; the spec's own pair of words builds 0x12345678. -/
theorem test_movhi_builds_constant : after (at' 0xCE1448D1 [(5, 0x1678#32)]) (fun t => (t.wave 0).readV 5 3) 0#32 = 0x12345678#32 := by
  decide +kernel

/-- R101, R58: the square root of a negative number is the canonical NaN and raises NV. -/
theorem test_fsqrt_negative :
    after (at' 0x9C101220 [(2, 0xBF800000#32)]) (fun t => ((t.wave 0).readV 4 3, (t.wave 0).fpstat)) (0, 0) = (0x7FC00000#32, 1#32) := by
  decide +kernel

/-- R90: BRA −3 goes to the word three below its own. -/
theorem test_bra_backwards :
    after (at' 0xDDFFFFFD []) (fun t => (t.wave 0).paths.map (·.pc)) [] = [BitVec.ofNat 64 (placedAt - 12)] := by decide +kernel

/-- R92, R226: EXIT of every lane of the only wave makes the group retire. -/
theorem test_exit_retires : after (at' 0xE9FC0000 []) (fun t => ((t.wave 0).exited, (t.group 0).phase)) (0, .ending) = (0xFFFFFFFF#32, .retiring) := by
  decide +kernel

/-- R163, R44: ERET outside a handler is an illegal instruction, whose trap halts the group with code 0. -/
theorem test_eret_outside_handler :
    after (at' 0xAA000020 []) (fun t => ((t.group 0).phase, ((t.group 0).trap.map fun x => (x.code, x.epc)))) (.ending, none) =
      (.halting, some (0, BitVec.ofNat 64 placedAt)) := by decide +kernel

/-- R115, R219: a load from a page without a table entry parks the path and leaves the flag. -/
theorem test_load_parks :
    after (at' 0xB40C4130 [(8, 0x4000#32)]) (fun t => ((t.wave 0).flags.get 0 0, t.ops.length)) (9, 9) = (0, 0) := by decide +kernel

/-- The step after placing a word issues that very word, in every lane. -/
theorem test_step_issues_placed_word :
    after (at' 0xCC141678 []) (fun t => ((t.wave 0).readV 5 0, (t.wave 0).readV 5 31, (t.wave 0).paths.map (·.pc))) (0, 0, []) =
      (0x1678#32, 0x1678#32, [BitVec.ofNat 64 (placedAt + 4)]) := by decide +kernel

/-- A word that decodes to nothing takes the illegal-instruction trap in the step that fetches it (R44). -/
theorem test_step_unassigned_word :
    after (at' 0xEC000000 []) (fun t => ((t.group 0).phase, (t.group 0).trap.map (·.code))) (.ending, none) = (.halting, some 0) := by decide +kernel

end Sys2Proof.Tests
end

