-- ==== Sys2Proof/Tests/WitnessWords.lean ====
section
/-! SUPPORT. For the statements about the encoded words: concrete states and operands that meet the hypotheses of each clause
together. -/

set_option Elab.async false

namespace Sys2Proof.Tests

open Sys2Proof.Machine

/-! Small states. -/

/-- One wave of 32 lanes in the last word of its clause, whose flag is f0. -/
def here : State := State.reset.placeWord 0x00181840

/-- The same with one launched lane, and its wave, path, group and core changed. -/
def one (w : Wave → Wave := id) (p : Path → Path := id) (g : Group → Group := id) (c : Core → Core := id) : State :=
  (((here.modWave 0 fun x =>
    w { x with launched := 1#32, paths := x.paths.map fun y => p { y with lanes := 1#32 } }).modGroup 0 g).modCore 0 c)

/-- A page's entry: V, LEAF, W and U, frame 2 of die 0, class 0. -/
def dataLeaf : W64 := BitVec.ofNat 64 (2 ^ 63 + 2 ^ 46 + 2 * 64 + 2 ^ 4 + 2 ^ 3)

/-- The same page marked VER. -/
def verLeaf : W64 := BitVec.ofNat 64 (2 ^ 63 + 2 ^ 60 + 2 ^ 46 + 2 * 64 + 2 ^ 4 + 2 ^ 3)

/-- One lane whose page 0 is mapped. -/
def mapped (e : W64) : State := one (c := fun x => { x with tlb := [(0, e)] })

theorem one_runs {s : State} (h : s.memb = 1#32) {n : Nat} (hn : s.runs n) : n = 0 := by
  obtain ⟨h1, h2⟩ := hn
  rw [h, BitVec.getLsbD_one] at h2
  simpa using h2

theorem runs_zero {s : State} (h : s.memb = 1#32) : s.runs 0 := ⟨by decide, by rw [h]; decide⟩

/-- CanSend from its checks. -/
theorem canSend_of {s : State} {srcs : List Src} {writes onL rel : Bool} {sel : Nat} {c : Clause} (hc : s.cp.clause = some c)
    (h : (s.bound srcs && c.sel == sel && (!writes || sel != 15) && decide (sel < 12 → s.cw.flags.get sel 0 < 63) &&
      (!onL || !s.held s.cp) && (!rel || s.unacked s.cur.core s.cur.slot == 0)) = true) : s.CanSend srcs writes onL rel sel := by
  simp only [Bool.and_eq_true, Bool.or_eq_true, Bool.not_eq_true', beq_iff_eq, bne_iff_ne, decide_eq_true_eq] at h
  obtain ⟨⟨⟨⟨⟨h1, h2⟩, h3⟩, h4⟩, h5⟩, h6⟩ := h
  refine ⟨⟨by rw [hc]; rfl, h1⟩, fun c' hc' => ?_, fun hw => ?_, h4, fun ho => ?_, fun hr => ?_⟩
  · rw [hc] at hc'; cases hc'; exact h2
  · exact h3.resolve_left (by simp [hw])
  · exact h5.resolve_left (by simp [ho])
  · exact h6.resolve_left (by simp [hr])

/-- Reaches for one lane. -/
theorem reaches_one {s : State} {va : Nat → W64} {k : Want} {pa leaf : Nat} (h : s.memb = 1#32)
    (hc : s.check s.cur.core s.cg (va 0) k = .ok pa leaf) (hp : leafCC leaf ≠ 2 := by decide) : s.Reaches va k fun _ => (pa, leaf) :=
  ⟨by rw [h]; decide, fun n hn => by rw [one_runs h hn]; exact ⟨hc, .inl hp⟩⟩

/-- Closes from the path's clause. -/
theorem closes_of {s : State} {c : Clause} (hc : s.cp.clause = some c) (h : c.len ≤ c.pos + 1) : s.Closes := fun c' hc' => by
  rw [hc] at hc'
  cases hc'
  exact h

/-- CanTurn from its checks. -/
theorem canTurn_of {s : State} {srcs : List Src} {rel : Bool} {place ord : Nat}
    (h : (s.cp.clause.isSome && s.bound srcs && !s.held s.cp && (!rel || s.unacked s.cur.core s.cur.slot == 0) && s.inOrder place ord) = true) :
    s.CanTurn srcs rel place ord := by
  simp only [Bool.and_eq_true, Bool.or_eq_true, Bool.not_eq_true', beq_iff_eq] at h
  obtain ⟨⟨⟨⟨h1, h2⟩, h3⟩, h4⟩, h5⟩ := h
  exact ⟨⟨h1, h2⟩, h3, fun hr => h4.resolve_left (by simp [hr]), h5⟩

/-- The clause of the placed word. -/
def cl : Clause := { setA := 0, bind := 1 }

theorem here_canIssue : here.CanIssue [⟨.vec, 123⟩, ⟨.lit, 127⟩] ∧ here.CanIssue [] ∧ (one).CanIssue [] ∧ here.Closes ∧ (one).Closes := by
  unfold State.CanIssue
  refine ⟨?_, ?_, ?_, closes_of (c := cl) ?_ ?_, closes_of (c := cl) ?_ ?_⟩ <;> decide +kernel

/-! Integer words. -/

theorem witness_IntegerVectorWords :
    (dst32 112 = true ∧ src32 ⟨.vec, 123⟩ = true ∧ src32 ⟨.lit, 127⟩ = true ∧ here.CanIssue [⟨.vec, 123⟩, ⟨.lit, 127⟩]) ∧ dstR 111 = true := by
  unfold State.CanIssue
  decide +kernel

theorem witness_ShiftWords :
    dst32 112 = true ∧ src32 ⟨.vec, 123⟩ = true ∧ src32 ⟨.lit, 127⟩ = true ∧ here.CanIssue [⟨.vec, 123⟩, ⟨.lit, 127⟩] :=
  witness_IntegerVectorWords.1

theorem witness_BitFieldWords :
    src32 ⟨.vec, 123⟩ = true ∧ src32 ⟨.lit, 127⟩ = true ∧ here.CanIssue [⟨.vec, 123⟩, ⟨.lit, 127⟩] ∧ dst32 112 = true ∧ dstR 111 = true := by
  unfold State.CanIssue
  decide +kernel

theorem witness_AddressPairWords :
    src64 ⟨.vec, 122⟩ = true ∧ here.CanIssue [⟨.vec, 122⟩, ⟨.lit, 127⟩] ∧ dst64 112 = true ∧ src32 ⟨.lit, 127⟩ = true ∧
    src64 ⟨.lit, 127⟩ = true ∧ dst32 112 = true := by
  unfold State.CanIssue
  decide +kernel

theorem witness_UnaryVectorWords :
    dst32 112 = true ∧ src32 ⟨.sca, 117⟩ = true ∧ here.CanIssue [⟨.sca, 117⟩] ∧ dst64 110 = true ∧ src64 ⟨.sca, 98⟩ = true ∧
    here.CanIssue [⟨.sca, 98⟩] ∧ here.CanIssue [] ∧ dstR 111 = true := by
  unfold State.CanIssue
  decide +kernel

theorem witness_ScalarWords :
    sdst32 101 = true ∧ ssrc32 ⟨.sca, 117⟩ = true ∧ ssrc32 ⟨.lit, 64⟩ = true ∧ here.CanIssue [⟨.sca, 117⟩, ⟨.lit, 64⟩] ∧
    here.CanIssue [⟨.sca, 117⟩] ∧ sdst64 94 = true ∧ ssrc64 ⟨.sca, 94⟩ = true ∧ here.CanIssue [⟨.sca, 94⟩, ⟨.lit, 64⟩] ∧
    here.CanIssue [⟨.sca, 94⟩] ∧ here.CanIssue [] := by
  unfold State.CanIssue
  decide +kernel

/-! Floating-point words. -/

theorem witness_FloatArithmeticWords :
    (dstTy .f64 112 = true ∧ srcTy .f64 ⟨.vec, 122⟩ = true ∧ srcTy .f64 ⟨.lit, 127⟩ = true ∧ here.CanIssue [⟨.vec, 122⟩, ⟨.lit, 127⟩]) ∧
    (dstTy .bf16 112 = true ∧ srcTy .bf16 ⟨.vec, 123⟩ = true ∧ here.CanIssue [⟨.vec, 123⟩, ⟨.lit, 127⟩]) ∧
    dstRTy .f64 110 = true ∧ dstRTy .f32 111 = true := by
  unfold State.CanIssue
  decide +kernel

/-- The finite operands of the arithmetic words: 1, −1 and a subnormal that FTZ reads as zero; a sum, a product and a product and sum that
are zero, and ones that are not. -/
theorem witness_FiniteArithmetic :
    fmt32.decode (fmt32.flush true 0x3F800000) = .fin false 0x800000 (-23) ∧ fmt32.decode (fmt32.flush true 0xBF800000) = .fin true 0x800000 (-23) ∧
    fmt32.decode (fmt32.flush true 1) = .fin false 0 (-149) ∧
    (let X := signedDy false 0x800000 (-23); let Y := signedDy true 0x800000 (-23); let Z := signedDy false 0 (-149);
      X + Y = 0 ∧ X - Y ≠ 0 ∧ X * Y ≠ 0 ∧ X * Z = 0 ∧ X * Y + X = 0 ∧ X * Y + Y ≠ 0) := by
  refine ⟨by decide +kernel, by decide +kernel, by decide +kernel, ?_⟩
  simp only [signedDy, dyadic]
  norm_num

/-- One third in binary32, in each rounding and sign that a clause names, and a value to compare with. -/
theorem witness_RoundingIsCorrect :
    (∀ rm < 4, (fmt32.round rm false true 0x55555555 (-32)).2 / fOF % 2 = 0 ∧ (fmt32.round rm false false 0x55555555 (-32)).2 / fOF % 2 = 0) ∧
    0 < 0x55555555 ∧ fmt32.decode 0x3F800000 = .fin false 0x800000 (-23) ∧ fmt32.decode 0xBF800000 = .fin true 0x800000 (-23) ∧
    fmt32.decode (fmt32.round 0 false false 0x55555555 (-32)).1 = .fin false 0xAAAAAB (-25) := by decide +kernel

theorem witness_FloatUnaryWords :
    dstTy .f64 110 = true ∧ srcTy .f64 ⟨.vec, 122⟩ = true ∧ here.CanIssue [⟨.vec, 122⟩] ∧ FTy.bf16 ≠ .f64 ∧ dst32 112 = true ∧
    src32 ⟨.lit, 0⟩ = true ∧ here.CanIssue [⟨.lit, 0⟩] ∧ dstRTy .f64 110 = true := by
  unfold State.CanIssue
  decide +kernel

/-- The finite operands of the unary words: 1 is a power of 4 and of 2 and an integer, 2 is a value of the format and no power of 4, 1/2 and
10 stand at the ends of their ranges; an approximation of 1 neither overflows nor is flushed. -/
theorem witness_FiniteUnary :
    (fmt32.decode (fmt32.flush true 0) = .fin false 0 (-149) ∧ fmt32.decode (fmt32.flush true 0x3F800000) = .fin false 0x800000 (-23) ∧
      fmt32.decode (fmt32.flush true 0xBF800000) = .fin true 0x800000 (-23) ∧ fmt32.decode 0x40000000 = .fin false 0x800000 (-22) ∧
      fmt32.decode (fmt32.flush true 0x3F000000) = .fin false 0x800000 (-24) ∧ fmt32.decode (fmt32.flush true 0x41200000) = .fin false 0xA00000 (-20)) ∧
    (dyadic 0x800000 (-23) = 4 ^ (0 : ℤ) ∧ dyadic 0x800000 (-23) = 2 ^ (0 : ℤ) ∧ signedDy false 0x800000 (-23) = ((1 : ℤ) : ℚ) ∧
      dyadic 0x800000 (-22) = 2 ^ (1 : ℤ) ∧ dyadic 0x800000 (-23) = ((1 : ℕ) : ℚ) ∧ dyadic 0x800000 (-24) = ((0 : ℕ) : ℚ) + 1 / 2 ∧
      10 ≤ dyadic 0xA00000 (-20)) ∧
    ((¬ ∃ k : ℤ, dyadic 0x800000 (-22) = 4 ^ k) ∧ (4 : ℚ) ^ (-1 : ℤ) * dyadic 0x800000 (-22) ≤ 1 ∧ 1 < (4 : ℚ) ^ (-1 + 1 : ℤ) * dyadic 0x800000 (-22)) ∧
    (let r := approxF fmt32 true 1 0x24 0 0x40000000 false 1 0; r.2 / fOF % 2 = 0 ∧ r ≠ (fmt32.sign false, fUF + fNX)) := by
  have h2 : dyadic 0x800000 (-22) = 2 := by simp only [dyadic]; norm_num
  refine ⟨?_, ?_, ⟨?_, ?_⟩, ?_, fun h => absurd (congrArg Prod.snd h) ?_⟩
  · decide +kernel
  · simp only [dyadic, signedDy]
    norm_num
  · rw [h2]
    rintro ⟨k, h⟩
    rcases le_or_gt k 0 with hk | hk
    · have h3 := zpow_le_one_of_nonpos₀ (by norm_num : (1 : ℚ) ≤ 4) hk
      linarith
    · have h3 := zpow_le_zpow_right₀ (by norm_num : (1 : ℚ) ≤ 4) (show (1 : ℤ) ≤ k by omega)
      norm_num at h3
      linarith
  · rw [h2]
    norm_num
  · decide +kernel
  · decide +kernel

/-- The finite operands of the conversions: ±0, ±1, 1,000 and 131,072 as exact values, and E4M3 with and without overflow. -/
theorem witness_FiniteConversions :
    fmt32.decode 0x80000000 = .fin true 0 (-149) ∧ fmt32.decode 0xBF800000 = .fin true 0x800000 (-23) ∧
    fmt32.decode 0x3F800000 = .fin false 0x800000 (-23) ∧ fmt32.decode 0x48000000 = .fin false 0x800000 (-6) ∧
    (cvtF fmt32 fmtE4M3 0 true 0x3F800000).2 / fOF % 2 = 0 ∧ (cvtF fmt32 fmtE4M3 0 true 0x447A0000).2 / fOF % 2 = 1 ∧
    dyadic 0x800000 (-23) ≤ 114688 ∧ 114688 < dyadic 0x800000 (-6) := by
  refine ⟨?_, ?_, ?_, ?_, ?_, ?_, ?_⟩
  iterate 6 decide +kernel
  simp only [dyadic]
  norm_num

theorem witness_ConversionWords :
    dst64 112 = true ∧ dst32 112 = true ∧ dstR 111 = true ∧ src32 ⟨.vec, 123⟩ = true ∧ src64 ⟨.vec, 122⟩ = true ∧
    here.CanIssue [⟨.vec, 123⟩] ∧ here.CanIssue [⟨.vec, 122⟩] := by
  unfold State.CanIssue
  decide +kernel

theorem witness_QuantBlockWords :
    dst64 112 = true ∧ src32 ⟨.vec, 16⟩ = true ∧ here.CanIssue [⟨.vec, 16⟩] ∧ dst32 112 = true ∧ src64 ⟨.vec, 16⟩ = true := by
  unfold State.CanIssue
  decide +kernel

/-! Lane words. -/

theorem witness_LaneTestWords : sgen 95 = true ∧ vname 123 = true ∧ here.CanIssue [] := by
  unfold State.CanIssue
  decide +kernel

theorem witness_LanePermuteWords : dstR 111 = true ∧ dst32 112 = true ∧ vname 123 = true ∧ here.CanIssue [] ∧ here.memb ≠ 0 := by
  unfold State.CanIssue
  decide +kernel

theorem witness_ScanReduceWords : dst32 112 = true ∧ vname 123 = true ∧ here.CanIssue [] := by
  unfold State.CanIssue
  decide +kernel

theorem witness_IntegerScansFold : (List.replicate 32 (some 1#32)).length = 32 ∧ ((List.replicate 32 (some 1#32)).getD 31 none).isSome = true := by
  decide

/-! Control words. -/

theorem witness_BranchWords : here.CanIssue [] ∧ here.Closes ∧ vname 123 = true ∧ (127#7 : RName) = 127#7 :=
  ⟨here_canIssue.2.1, here_canIssue.2.2.2.1, by decide, rfl⟩

/-- Registers 0 and 1 of lane 0 hold 6, which is no multiple of 4; elsewhere they hold 0. -/
theorem witness_JumpWords :
    vaddr 110 = true ∧ here.CanIssue [] ∧ here.Closes ∧ (∀ n, here.runs n → (here.cw.readV64 0 n).toNat % 4 = 0) ∧
    (∃ n, (one fun w => w.setV64 0 0 6#64).runs n ∧ ((one fun w => w.setV64 0 0 6#64).cw.readV64 0 n).toNat % 4 ≠ 0) ∧
    (one fun w => w.setV64 0 0 6#64).CanIssue [] ∧ (one fun w => w.setV64 0 0 6#64).Closes := by
  have h : ∀ n < 32, (here.cw.readV64 0 n).toNat % 4 = 0 := by decide +kernel
  refine ⟨?_, here_canIssue.2.1, here_canIssue.2.2.2.1, fun n hn => h n hn.1, ⟨0, runs_zero ?_, ?_⟩, ?_, closes_of (c := cl) ?_ ?_⟩
  all_goals (try unfold State.CanIssue); decide +kernel

/-- In a running group and in a handler. -/
theorem witness_ExitWord :
    let h := one (g := fun g => { g with phase := .handler })
    vname 0 = true ∧ here.CanIssue [] ∧ here.Closes ∧ here.cw.gid = some 0 ∧ here.cg.phase = .running ∧
    h.CanIssue [] ∧ h.Closes ∧ h.cw.gid = some 0 ∧ h.cg.phase = .handler := by
  refine ⟨?_, here_canIssue.2.1, here_canIssue.2.2.2.1, ?_, ?_, ?_, closes_of (c := cl) ?_ ?_, ?_⟩
  all_goals (try unfold State.CanIssue); decide +kernel

/-- A header before one placed word, in each case of WAIT. -/
theorem witness_ClauseHeader :
    let s := (State.reset.placeWord 0xFC003FC0).modCore 0 fun c => { c with tlb := [(1, placedLeaf)] }
    let busy := s.modWave 0 fun w => { w with flags := [(11, 1)] }
    s.cw.paths ≠ [] ∧ here.cw.paths ≠ [] ∧ here.cp.clause.isSome = true ∧ s.cp.clause = none ∧ okSet 11 = true ∧ okSet 15 = true ∧
    busy.cp.clause = none ∧ (0x800#12 : BitVec 12).getLsbD 11 = true ∧ busy.cw.flags.get 11 0 ≠ 0 ∧
    (∀ i < 12, (0xFFF#12 : BitVec 12).getLsbD i = true → s.cw.flags.get i 0 = 0) ∧
    (s.clauseWords (headerNat 0xFFF 15 15 0 0) 1).1.1.length = 1 ∧ (0#3).toNat ≤ 0 := by decide +kernel

theorem witness_WindowAndIssueWords :
    here.CanIssue [] ∧ ((0#18).toNat % 16 = 0 ∧ (0#18).toNat + 96 ≤ here.cg.regs) ∧ ¬ ((16#18).toNat % 16 = 0 ∧ (16#18).toNat + 96 ≤ here.cg.regs) := by
  unfold State.CanIssue
  decide +kernel

/-- Where a clause of IllegalWords needs more than the next theorem shows: BIND above the one long word of a clause, a clause without a
flag, a full chain's place, and a word that is no header outside a clause. -/
theorem witness_IllegalPlaces :
    let s := (State.reset.placeWord 0xFC003FC0).modCore 0 fun c => { c with tlb := [(1, placedLeaf)] }
    let f := one (p := fun p => { p with clause := some { cl with bind := 0, setA := 15, setB := 15 } })
    (s.cp.clause = none ∧ s.cw.paths ≠ [] ∧ okSet 15 = true ∧ (∀ i < 12, (0#12 : BitVec 12).getLsbD i = true → s.cw.flags.get i 0 = 0) ∧
      (s.clauseWords (headerNat 0 15 15 0 2) 1).1.1.length = 1 ∧
      ((s.clauseWords (headerNat 0 15 15 0 2) 1).1.1.filter fun x => (wordLat x).isLong).length < (2#3).toNat) ∧
    (f.cp.clause = some { cl with bind := 0, setA := 15, setB := 15 } ∧ ({ cl with bind := 0, setA := 15, setB := 15 } : Clause).sel = 15 ∧
      f.bound [⟨.lit, 0⟩, ⟨.vec, 0⟩] = true ∧ f.cc.mchain.length < 32) ∧
    (encodeNat .mwait).isSome = true := by
  decide +kernel

/-- An odd pair inside a clause; a branch in the first of two words; a header with SETA 12; a running group. -/
theorem witness_IllegalWords :
    (encodeNat (.mov64 1 ⟨.vec, 0⟩) = some 0x9C040010 ∧ (Instr.mov64 1 ⟨.vec, 0⟩).wf = false ∧ here.cp.clause.isSome = true) ∧
    ((one (p := fun p => { p with clause := some { cl with len := 2 } })).cp.clause = some { cl with len := 2 } ∧
      cl.pos + 1 < ({ cl with len := 2 } : Clause).len ∧
      (one (p := fun p => { p with clause := some { cl with len := 2 } })).bound [⟨.lit, 0⟩] = true) ∧
    ((State.reset.placeWord 0xFC003FC0).cp.clause = none ∧ (State.reset.placeWord 0xFC003FC0).cw.paths ≠ [] ∧ (okSet 12 && okSet 15) = false) ∧
    (here.cw.gid = some 0 ∧ here.cg.phase = .running) := by decide +kernel

/-- Every clause of BAR: an unequal count, a slot that is not full, and one that is. -/
theorem witness_GroupBarrierWord :
    let mis := one (g := fun g => { g with bars := [(0, { count := 5, arrived := 1 })] })
    here.CanIssue [] ∧ here.memb ≠ 0 ∧ here.unacked here.cur.core here.cur.slot = 0 ∧ (0#5).toNat < here.cg.nbar ∧
    (32#18).toNat ≤ 32 * here.cg.slots.length ∧ (here.cg.bars.get 0 {}).arrived = 0 ∧ (if (32 : Nat) = 0 then here.liveCount here.cgid else 32) ≤ 0 + laneCount here.memb ∧
    (one).memb ≠ 0 ∧ ¬ (if (32 : Nat) = 0 then (one).liveCount (one).cgid else 32) ≤ 0 + laneCount (one).memb ∧
    mis.CanIssue [] ∧ mis.memb ≠ 0 ∧ mis.unacked mis.cur.core mis.cur.slot = 0 ∧ (0#5).toNat < mis.cg.nbar ∧
    (mis.cg.bars.get 0 {}).arrived ≠ 0 ∧ (mis.cg.bars.get 0 {}).count ≠ (32#18).toNat := by
  unfold State.CanIssue
  decide +kernel

/-- Every clause of RCV: a mask that disagrees, no lane in the mask, a lane missing, and a full barrier. -/
theorem witness_ReconvergenceWord :
    let m := fun (x : W32) (rb : FMap RBar) => one fun w => { w with launched := 3#32, sregs := [(0, x)], rbs := rb }
    let held := m 3#32 [(0, { mask := 7#32, arrived := 4#32 })]
    (0#7).toNat < 97 ∧ (∀ x : W32, ∀ rb, (m x rb).memb = (m 0 []).memb) ∧ (m 0 []).memb ≠ 0 ∧ (m 0 []).CanIssue [] ∧ held.CanIssue [] ∧
    (held.memb &&& held.readS 0 ≠ 0 ∧ (held.cw.rbs.get 0 {}).arrived ≠ 0 ∧ held.readS 0 ≠ (held.cw.rbs.get 0 {}).mask) ∧
    (m 2#32 []).memb &&& (m 2#32 []).readS 0 = 0 ∧
    ((m 3#32 []).memb &&& (m 3#32 []).readS 0 ≠ 0 ∧ (m 3#32 []).readS 0 &&& ~~~((m 3#32 []).memb ||| (m 3#32 []).cw.exited ||| ~~~(m 3#32 []).cw.launched) ≠ 0) ∧
    ((m 1#32 []).memb &&& (m 1#32 []).readS 0 ≠ 0 ∧ (m 1#32 []).readS 0 &&& ~~~((m 1#32 []).memb ||| (m 1#32 []).cw.exited ||| ~~~(m 1#32 []).cw.launched) = 0) := by
  unfold State.CanIssue
  refine ⟨?_, fun _ _ => rfl, ?_⟩ <;> decide +kernel

theorem witness_SoftwareTraps :
    let h := one (g := fun g => { g with phase := .handler })
    src32 ⟨.lit, 127⟩ = true ∧ here.CanIssue [⟨.lit, 127⟩] ∧ here.Closes ∧ here.cg.phase ≠ .halting ∧ here.cg.phase ≠ .handler ∧
    here.cg.slots.Nodup ∧ here.cw.wix < here.cg.slots.length ∧ h.CanIssue [⟨.lit, 127⟩] ∧ h.Closes ∧ h.cg.phase = .handler := by
  refine ⟨?_, ?_, here_canIssue.2.2.2.1, ?_, ?_, ?_, ?_, ?_, closes_of (c := cl) ?_ ?_, ?_⟩
  all_goals (try unfold State.CanIssue); decide +kernel

/-- A handler with its saved program state, and one with a held trap. -/
theorem witness_ReturnFromTrap :
    let h := fun (l : List Trap) => one (w := fun w => { w with saved := some {} }) (g := fun g => { g with phase := .handler, held := l })
    here.CanIssue [] ∧ here.Closes ∧ here.inHandler = false ∧ (h []).CanIssue [] ∧ (h []).Closes ∧ (h []).inHandler = true ∧
    (h []).cw.saved = some {} ∧ (h []).cg.held = [] ∧ (h []).liveCount (h []).cgid ≠ 0 ∧ (h [{}]).cg.held = [{}] ∧ (h [{}]).inHandler = true ∧
    (h [{}]).Closes ∧ (h [{}]).CanIssue [] := by
  refine ⟨here_canIssue.2.1, here_canIssue.2.2.2.1, ?_, ?_, closes_of (c := cl) ?_ ?_, ?_, ?_, ?_, ?_, ?_, ?_, closes_of (c := cl) ?_ ?_, ?_⟩
  all_goals (try unfold State.CanIssue); decide +kernel

/-- A handler whose lane 0 halted in a clause at 0x40 and its wave's lane 1 at 0x80, EMASK holding lane 0, with REDIR and without. -/
theorem witness_ResumeAtTheHalt :
    let v : Saved := { paths := [{ pc := 0x40, lanes := 1#32, clause := some cl }, { pc := 0x80, lanes := 2#32 }] }
    let h := fun (r : Bool) => one (w := fun w => { w with saved := some v })
      (g := fun g => { g with phase := .handler, trap := some { code := 0x19, epc := 0x44, emask := 1#32, redir := r } })
    ∀ r : Bool, (h r).CanIssue [] ∧ (h r).Closes ∧ (h r).inHandler = true ∧ (h r).cw.saved = some v ∧
      (h r).cg.trap = some { code := 0x19, epc := 0x44, emask := 1#32, redir := r } ∧ (h r).cg.held = [] ∧ (h r).ck ∈ (h r).cg.keys ∧
      waveKey (h r).cg.core ((h r).cg.slots.getD 0 0) = (h r).ck ∧ ∃ n < 32, ∃ q ∈ v.paths, q.lanes.getLsbD n = true ∧ q.status = .run := by
  intro v h r
  refine ⟨?_, closes_of (c := cl) ?_ ?_, ?_⟩
  all_goals (try unfold State.CanIssue); revert r; decide +kernel

theorem witness_SpecialRegisterWords :
    let h := one (g := fun g => { g with phase := .handler, trap := some {} })
    here.CanIssue [] ∧ sgen 95 = true ∧ h.CanIssue [] ∧ h.inHandler = true ∧ here.inHandler = false ∧ (7 ≤ (31#7).toNat ∧ (31#7).toNat < 32) ∧
    40 ≤ (40#7).toNat ∧ ssrc32 ⟨.lit, 0⟩ = true ∧ h.bound [⟨.lit, 0⟩] = true ∧ h.cg.trap = some {} ∧ (h.src32 ⟨.lit, 0⟩ 0).toNat % 32 < h.cg.slots.length := by
  unfold State.CanIssue
  decide +kernel

end Sys2Proof.Tests
end

