-- ==== Sys2Proof/Tests/WitnessMemory.lean ====
section
/-! SUPPORT. For the statements about memory, version and scratchpad words: concrete states and operands that meet the
hypotheses of each clause together. -/

set_option Elab.async false

namespace Sys2Proof.Tests

open Sys2Proof.Machine

/-- One lane whose page 0 is mapped, a register of it holding a value. -/
def mappedV (e : W64) (v : W64) : State := one (w := fun w => w.setV64 0 0 v) (c := fun x => { x with tlb := [(0, e)] })

theorem mapped_canSend (writes onL rel : Bool) : (mapped dataLeaf).CanSend [] writes onL rel 0 :=
  canSend_of (c := cl) (by decide +kernel) (by revert writes onL rel; decide +kernel)

theorem one_canSend (writes onL rel : Bool) : (one).CanSend [] writes onL rel 0 :=
  canSend_of (c := cl) (by decide +kernel) (by revert writes onL rel; decide +kernel)

theorem mapped_memb (e : W64) : (mapped e).memb = 1#32 := rfl

/-- The last doubleword that the offset field reaches from address 0; the store carries release. -/
theorem witness_VectorLoadStoreWords :
    let va := fun n => (mapped dataLeaf).cw.readV64 110 n + BitVec.ofInt 64 ((7#4 : BitVec 4).toInt * 8)
    ldst64 110 = true ∧ ldst 111 = true ∧ vaddr 110 = true ∧ loadOrd .acq = true ∧ (mapped dataLeaf).CanSend [] true true false 0 ∧
    (∃ at', (mapped dataLeaf).Reaches va { size := 8 } at') ∧ stsrc64 114 = true ∧ vname 123 = true ∧ storeOrd .rel = true ∧
    (mapped dataLeaf).CanSend [] false true (isRel .rel) 0 ∧ ∃ at', (mapped dataLeaf).Reaches va { size := 8, write := true } at' := by
  refine ⟨?_, ?_, ?_, ?_, mapped_canSend _ _ _, ⟨_, reaches_one (pa := 0x2038) (leaf := dataLeaf.toNat) (mapped_memb _) ?_⟩, ?_, ?_, ?_,
    mapped_canSend _ _ _, ⟨_, reaches_one (pa := 0x2038) (leaf := dataLeaf.toNat) (mapped_memb _) ?_⟩⟩ <;> decide +kernel

theorem witness_ScalarLoadStoreWords :
    let s := mapped dataLeaf
    let va := s.readS64 94 + BitVec.ofInt 64 ((7#4 : BitVec 4).toInt * 8)
    spair 94 = true ∧ s.memb ≠ 0 ∧ sgen 95 = true ∧ loadOrd .acq = true ∧ s.CanSend [] true true false 0 ∧
    s.check s.cur.core s.cg va { size := 8 } = .ok 0x2038 dataLeaf.toNat ∧ storeOrd .rel = true ∧ s.CanSend [] false true (isRel .rel) 0 ∧
    s.check s.cur.core s.cg va { size := 8, write := true } = .ok 0x2038 dataLeaf.toNat := by
  refine ⟨?_, ?_, ?_, ?_, mapped_canSend _ _ _, ?_, ?_, mapped_canSend _ _ _, ?_⟩ <;> decide +kernel

theorem witness_AtomicWords :
    let s := mapped dataLeaf
    cas64 108 = true ∧ ldst64 110 = true ∧ ldst 111 = true ∧ vaddr 115 = true ∧ s.CanSend [] true true (isRel .acqrel) 0 ∧
    ∃ at', s.Reaches (fun n => s.cw.readV64 115 n) { size := 8, write := true, atom := some 9 } at' :=
  ⟨by decide, by decide, by decide, by decide, mapped_canSend _ _ _,
    ⟨_, reaches_one (pa := 0x2000) (leaf := dataLeaf.toNat) (mapped_memb _) (by decide +kernel)⟩⟩

/-- The last region; a number above 63; a region that is not armed. -/
theorem witness_VersionWords :
    let s := mapped verLeaf
    let r := { one with regions := [(63, { armed := true })] }
    oct 104 = true ∧ vpair 110 = true ∧ src32 ⟨.lit, 0⟩ = true ∧ storeOrd .rel = true ∧ loadOrd .acq = true ∧
    s.CanSend [⟨.lit, 0⟩] true true false 0 ∧ s.CanSend [⟨.lit, 0⟩] false true true 0 ∧
    (∃ at', s.Reaches (fun n => s.cw.readV64 110 n) { size := 32, write := false, ver := true } at') ∧
    (∃ at', s.Reaches (fun n => s.cw.readV64 110 n) { size := 32, write := true, ver := true } at') ∧
    scaLit ⟨.lit, 63⟩ = true ∧ ssrc32 ⟨.lit, 0⟩ = true ∧ r.CanSend [⟨.lit, 0⟩] false false false 0 ∧
    ((r.src32 ⟨.lit, 63⟩ 0).toNat < 64 ∧ (r.regions.get (64 * r.cg.ctx + (r.src32 ⟨.lit, 63⟩ 0).toNat) {}).armed = true) ∧
    63 < (r.src32 ⟨.lit, 127⟩ 0).toNat ∧ (r.regions.get (64 * r.cg.ctx + (r.src32 ⟨.lit, 62⟩ 0).toNat) {}).armed = false := by
  refine ⟨?_, ?_, ?_, ?_, ?_, canSend_of (c := cl) ?_ ?_, canSend_of (c := cl) ?_ ?_,
    ⟨_, reaches_one (pa := 0x2000) (leaf := verLeaf.toNat) (mapped_memb _) ?_⟩,
    ⟨_, reaches_one (pa := 0x2000) (leaf := verLeaf.toNat) (mapped_memb _) ?_⟩, ?_, ?_, canSend_of (c := cl) ?_ ?_, ?_⟩ <;> decide +kernel

/-- One lane with constant bank 3 bound, its last page translated and an index in register 0. -/
def banked (i : W32) : State :=
  (one fun w => w.setV 0 0 i).modDie 0 fun x =>
    { x with launches := x.launches.upd 0 {} fun l => { l with cbanks := [(3, 0)], pages := [(15, dataLeaf)] } }

/-- The last word of the scratchpad, a misaligned offset and an offset past its end, for a load and a store. -/
theorem witness_ScratchpadAndConstantWords :
    let s := one fun w => w.setV 0 0 252#32
    let off := fun b n => s.src32 ⟨.vec, 0⟩ n + s.src32 b n
    src32 ⟨.vec, 0⟩ = true ∧ src32 ⟨.lit, 0⟩ = true ∧ s.memb ≠ 0 ∧ ldst 111 = true ∧ vname 123 = true ∧
    (∀ k < 3, ∀ w, s.CanSend [⟨.vec, 0⟩, ⟨.lit, BitVec.ofNat 7 (k + k / 2 * 2)⟩] w true false 0) ∧
    (∀ n, s.runs n → (off ⟨.lit, 0⟩ n).toNat % 4 = 0 ∧ (off ⟨.lit, 0⟩ n).toNat < s.cg.spsize) ∧
    (∃ n, s.runs n ∧ (off ⟨.lit, 1⟩ n).toNat % 4 ≠ 0) ∧
    (∀ n, s.runs n → (off ⟨.lit, 4⟩ n).toNat % 4 = 0) ∧ ∃ n, s.runs n ∧ s.cg.spsize ≤ (off ⟨.lit, 4⟩ n).toNat := by
  intro s off
  have hm : s.memb = 1#32 := rfl
  refine ⟨?_, ?_, ?_, ?_, ?_, fun k hk w => canSend_of (c := cl) ?_ ?_, fun n hn => ?_, ⟨0, runs_zero hm, ?_⟩, fun n hn => ?_, 0, runs_zero hm, ?_⟩
  case refine_6 => decide +kernel
  case refine_7 => revert k w; decide +kernel
  all_goals (try rw [one_runs hm hn]); decide +kernel

/-- The last word of the last constant bank, a word number past it, and a bank that is not bound. -/
theorem witness_ConstantWords :
    ldst 111 = true ∧ src32 ⟨.vec, 0⟩ = true ∧ (∀ k < 3, (banked (BitVec.ofNat 32 (65536 * k - 1))).memb ≠ 0 ∧
      (banked (BitVec.ofNat 32 (65536 * k - 1))).CanSend [⟨.vec, 0⟩] true true false 0) ∧
    (∀ n, (banked 65535#32).runs n → ((banked 65535#32).src32 ⟨.vec, 0⟩ n).toNat < 65536 ∧
      ((banked 65535#32).launchOf (banked 65535#32).cg).cbanks.has (((banked 65535#32).src32 ⟨.vec, 0⟩ n).toNat / 16384) = true ∧
      (banked 65535#32).bankChk (banked 65535#32).cur.core (banked 65535#32).cg 0xFFFC = .ok 0x2FFC dataLeaf.toNat) ∧
    (∃ n, (banked 131071#32).runs n ∧ 65536 ≤ ((banked 131071#32).src32 ⟨.vec, 0⟩ n).toNat) ∧
    ∃ n, (banked 0).runs n ∧ ((banked 0).launchOf (banked 0).cg).cbanks.has (((banked 0).src32 ⟨.vec, 0⟩ n).toNat / 16384) = false := by
  have hb : ∀ i, (banked i).memb = 1#32 := fun _ => rfl
  refine ⟨?_, ?_, fun k hk => ⟨?_, canSend_of (c := cl) ?_ ?_⟩, fun n hn => ?_, ⟨0, runs_zero (hb _), ?_⟩, 0, runs_zero (hb _), ?_⟩
  case refine_6 => rw [one_runs (hb _) hn]; decide +kernel
  all_goals (try revert k); decide +kernel

/-- A misaligned word in lane 0, the only lane. -/
theorem witness_AccessTraps :
    let s := mappedV dataLeaf 2#64
    let chk := fun n => s.check s.cur.core s.cg (s.cw.readV64 0 n + BitVec.ofInt 64 ((0#4 : BitVec 4).toInt * 4)) { size := 4, write := false }
    ldst 111 = true ∧ vaddr 0 = true ∧ loadOrd .acq = true ∧ s.CanSend [] true true false 0 ∧ s.runs 0 ∧ chk 0 = .trap 4 ∧
    ∀ k c', s.runs k → chk k = .trap c' → 4 ≤ c' ∧ (c' = 4 → 0 ≤ k) := by
  intro s chk
  have hm : s.memb = 1#32 := rfl
  have h4 : chk 0 = .trap 4 := by decide +kernel
  refine ⟨by decide, by decide, by decide, canSend_of (c := cl) (by decide +kernel) (by decide +kernel), runs_zero hm, h4, fun k c' hk hc => ?_⟩
  rw [one_runs hm hk, h4] at hc
  cases hc
  exact ⟨le_refl _, fun _ => Nat.zero_le _⟩

/-- A mapped and an unmapped address. -/
theorem witness_PrefetchWords :
    vaddr 110 = true ∧ spair 94 = true ∧ (mapped dataLeaf).CanSend [] false true false 0 ∧ (mapped dataLeaf).memb ≠ 0 ∧
    (∃ n, (mapped dataLeaf).runs n ∧ ∃ pa leaf,
      (mapped dataLeaf).check (mapped dataLeaf).cur.core (mapped dataLeaf).cg ((mapped dataLeaf).cw.readV64 110 n) { size := 1 } = .ok pa leaf) ∧
    (one).CanSend [] false true false 0 ∧
    ¬ ∃ n, (one).runs n ∧ ∃ pa leaf, (one).check (one).cur.core (one).cg ((one).cw.readV64 110 n) { size := 1 } = .ok pa leaf := by
  refine ⟨by decide, by decide, mapped_canSend _ _ _, by decide +kernel, ⟨0, runs_zero rfl, 0x2000, dataLeaf.toNat, by decide +kernel⟩,
    one_canSend _ _ _, ?_⟩
  rintro ⟨n, hn, pa, leaf, h⟩
  have h1 : (one).memb = 1#32 := rfl
  rw [one_runs h1 hn] at h
  have h2 : (one).check (one).cur.core (one).cg ((one).cw.readV64 110 0) { size := 1 } = .park := by decide +kernel
  rw [h2] at h
  cases h

/-- A wave with no store in flight, and one with a store. -/
theorem witness_FenceWords :
    let b := { one with ops := [{ id := 5, kind := .store, accs := [{}] }], nextId := 6 }
    Ord.rel ≠ .plain ∧ (1#5 : BitVec 5) ≠ 0 ∧ (16#5 : BitVec 5) ≠ 0 ∧ (one).CanIssue [] ∧ (one).held (one).cp = false ∧
    (one).fenceDone (one).cur.core (one).cur.slot true [] [] = true ∧
    (one).fenceDone (one).cur.core (one).cur.slot true (one).waveOps [0, 0, 0, 0] = true ∧
    b.CanIssue [] ∧ b.held b.cp = false ∧ b.fenceDone b.cur.core b.cur.slot true [] [] = false ∧
    b.fenceDone b.cur.core b.cur.slot true b.waveOps [0, 0, 0, 0] = false ∧ scopeNum .cluster ≠ 7 ∧ (isRel .acqrel = true ∧ scopeNum .host = 7) ∧
    ((1#5 : BitVec 5).getLsbD 0 = true ∧ (2#5 : BitVec 5).getLsbD 0 = false) := by
  unfold State.CanIssue
  decide +kernel

end Sys2Proof.Tests
end

