-- ==== Sys2Proof/Tests/WitnessSystem.lean ====
section
/-! SUPPORT. For the statements about spawn, join, queue, stage, image, engine and matrix words: concrete states and operands
that meet the hypotheses of each clause together. -/

set_option Elab.async false

namespace Sys2Proof.Tests

open Sys2Proof.Machine

/-- Change the placed launch. -/
def withLaunch (s : State) (f : Launch → Launch) : State := s.modDie 0 fun x => { x with launches := x.launches.upd 0 {} f }

/-- The launch lists a spawn entry at 0x1000; lane 0 spawns it with the join counter `j` on a core with these bins. -/
def spawner (j : W64) (bins : List Bin) : State :=
  withLaunch (one (fun w => (w.setV64 0 0 0x1000#64).setV64 12 0 j) (c := fun x => { x with bins := bins })) fun l =>
    { l with spn := [{ entry := 0x1000#64, words := 2 }] }

/-- Threads that the word places, and what is left of them. -/
def spawnLeft (s : State) : List Thread :=
  ((s.tookOrder 0 (s.cw.wix + 1)).placeAll s.cur.core [] ((lanesOf s.memb).filterMap fun n => s.spawnThread 8 ⟨.vec, 0⟩ n)).2

/-- All 16 bins taken and no spill ring. -/
def fullBins : List Bin := List.replicate 16 { key := 1, closed := true }

/-- A thread that is placed, one that is not, a misaligned join counter, and an entry that the launch does not list. -/
theorem witness_SpawnWords :
    oct 8 = true ∧ addrSrc ⟨.vec, 0⟩ = true ∧
    (∀ s ∈ [spawner 0 [], spawner 0 fullBins, spawner 2 []], s.CanTurn [] true 0 (s.cw.wix + 1)) ∧
    ((∀ n, (spawner 0 []).runs n → (spawner 0 []).spawnFail 8 ⟨.vec, 0⟩ n = none) ∧ spawnLeft (spawner 0 []) = [] ∧
      ((spawner 0 []).spawnThread 8 ⟨.vec, 0⟩ 0).isSome = true) ∧
    ((∀ n, (spawner 0 fullBins).runs n → (spawner 0 fullBins).spawnFail 8 ⟨.vec, 0⟩ n = none) ∧ spawnLeft (spawner 0 fullBins) ≠ []) ∧
    ((spawner 2 []).runs 0 ∧ (spawner 2 []).spawnFail 8 ⟨.vec, 0⟩ 0 = some (2, 4) ∧
      ∀ m k' c', (spawner 2 []).runs m → (spawner 2 []).spawnFail 8 ⟨.vec, 0⟩ m = some (k', c') → 2 ≤ k' ∧ (k' = 2 → 0 ≤ m)) ∧
    (mappedV dataLeaf 8).spawnFail 8 ⟨.vec, 0⟩ 0 = some (0, 0x14) := by
  have h0 : (spawner 0 []).memb = 1#32 := rfl
  have h1 : (spawner 0 fullBins).memb = 1#32 := rfl
  have h2 : (spawner 2 []).memb = 1#32 := rfl
  have h : (spawner 2 []).spawnFail 8 ⟨.vec, 0⟩ 0 = some (2, 4) := by decide +kernel
  refine ⟨?_, ?_, ?_, ⟨fun n hn => ?_, ?_, ?_⟩, ⟨fun n hn => ?_, ?_⟩, ⟨runs_zero h2, h, fun m k' c' hm hf => ?_⟩, ?_⟩
  · decide
  · decide
  · simp only [List.forall_mem_cons]
    refine ⟨canTurn_of ?_, canTurn_of ?_, canTurn_of ?_, by simp⟩ <;> decide +kernel
  · rw [one_runs h0 hn]; decide +kernel
  · decide +kernel
  · decide +kernel
  · rw [one_runs h1 hn]; decide +kernel
  · decide +kernel
  · rw [one_runs h2 hm, h] at hf
    cases hf
    exact ⟨le_refl _, fun _ => Nat.zero_le _⟩
  · decide +kernel

/-- A counter at zero and one that is not; no armed monitor and one. -/
theorem witness_JoinAndMonitorWords :
    let s := mapped dataLeaf
    let x : Acc := { pa := 0x2000, leaf := dataLeaf }
    let busy := s.wrKey 0x2000 (s.keyId 0x2000 0) 4 1
    let m := one fun w => { w with mons := [(0, { armed := true })] }
    (addrSrc ⟨.vec, 110⟩ = true ∧ s.CanIssue [] ∧ s.held s.cp = false ∧ ∃ at', s.Reaches (fun n => s.src64 ⟨.vec, 110⟩ n) { size := 4 } at') ∧
    (s.watchRead 0 x.leaf.toNat x.pa = some 0 ∧ s.badRead (x.pa / 128) (s.group ((s.wave (waveKey 0 0)).gid.getD 0)).ctx = false) ∧ busy.watchRead 0 x.leaf.toNat x.pa ≠ some 0 ∧
    ({ status := .wait .mwait 1#32 7 } : Path).status = .wait .mwait 1#32 7 ∧
    ((one).CanIssue [] ∧ ∀ n, (one).runs n → ((one).cw.mons.get n {}).trig = true ∨ ((one).cw.mons.get n {}).armed = false) ∧
    (m.CanIssue [] ∧ ∃ n, m.runs n ∧ ¬ ((m.cw.mons.get n {}).trig = true ∨ (m.cw.mons.get n {}).armed = false)) := by
  intro s x busy m
  have h1 : (one).memb = 1#32 := rfl
  refine ⟨⟨?_, ⟨?_, ?_⟩, ?_, ⟨_, reaches_one (pa := 0x2000) (leaf := dataLeaf.toNat) (mapped_memb _) ?_⟩⟩, ?_, ?_, rfl,
    ⟨here_canIssue.2.2.1, fun n hn => ?_⟩, ⟨⟨?_, ?_⟩, 0, runs_zero rfl, ?_⟩⟩
  all_goals (try rw [one_runs h1 hn]); decide +kernel

/-- One lane with queue 7 in a state. -/
def oneQueue (x : Queue) : State := one (g := fun g => { g with queues := [(7, x)] })

/-- The same with a QPUSH of another lane that waits in queue 7. -/
def pushing (x : Queue) : State :=
  one (w := fun w => { w with paths := w.paths ++ [{ lanes := 2#32, status := .wait (.qpush 7 5#32 3) 2#32 0 }] }) (g := fun g => { g with queues := [(7, x)] })

/-- A queue of two places, with its tail. -/
def two (t : W32) : Queue := { init := true, logn := 1, allow := 2, tail := t }

/-- What every clause of QueueWords asks of the state. -/
def canTake (s : State) : Bool :=
  decide (s.memb ≠ 0) && s.cp.status == .run && !s.held s.cp && (s.cw.paths.tail.all fun p => p.lanes &&& s.memb == 0) && s.cp.clause.isSome

/-- The largest queue that fits the scratchpad of 256 bytes, one past its end and a descriptor with a reserved bit; a queue with room, with a
handle, empty, none, and one with a due push; a core on which a later word has come. -/
theorem witness_QueueWords :
    let i := fun (v : W32) => one fun w => w.setV 0 0 v
    let v := fun (x : W32) => ((i x).src32 ⟨.vec, 0⟩ 0).toNat
    let late := { oneQueue (two 0) with cores := (oneQueue (two 0)).cores.upd 0 {} fun c => { c with acOrder := [(8, 100)] } }
    (∀ s ∈ [i 0x600000#32, i 0x700000#32, i 0x1000000#32, oneQueue (two 0), oneQueue (two 1), pushing (two 0), late], canTake s = true) ∧
    (∀ s ∈ [i 0x600000#32, i 0x700000#32, i 0x1000000#32], s.inOrder (s.queuePlace 7) s.queueOrd = true ∧ s.queueFree 7 = true ∧
      s.bound [⟨.vec, 0⟩] = true ∧ s.queueWaiters s.cgid true 7 = [] ∧ s.queueWaiters s.cgid false 7 = []) ∧
    (src32 ⟨.vec, 0⟩ = true ∧ v 0x600000#32 / 2 ^ 24 = 0 ∧ v 0x600000#32 / 2 ^ 19 % 2 = 0 ∧ v 0x600000#32 / 2 ^ 20 % 16 = 6 ∧
      v 0x600000#32 % 2 ^ 19 + 4 * 2 ^ 6 ≤ (i 0x600000#32).cg.spsize) ∧
    (v 0x700000#32 / 2 ^ 20 % 16 = 7 ∧ (i 0x700000#32).cg.spsize < v 0x700000#32 % 2 ^ 19 + 4 * 2 ^ 7) ∧ v 0x1000000#32 / 2 ^ 24 ≠ 0 ∧
    (∀ s ∈ [oneQueue (two 0), oneQueue (two 1)], s.inOrder (s.queuePlace 7) s.queueOrd = true ∧ s.inOrder (s.queuePlace 8) s.queueOrd = true ∧
      s.bound [⟨.lit, 0⟩] = true ∧ s.unacked 0 0 = 0 ∧ s.queueFree 7 = true ∧ s.queueFree 6 = true ∧ s.queueWaiters s.cgid true 7 = [] ∧
      s.queueWaiters s.cgid false 7 = [] ∧ (s.cg.queues.get 7 {}).init = true ∧ (s.cg.queues.get 7 {}).room = true ∧
      (s.cg.queues.get 7 {}).allow + (s.src32 ⟨.lit, 0⟩ 0).toNat ≤ 2 ^ (s.cg.queues.get 7 {}).logn ∧
      2 ^ (s.cg.queues.get 7 {}).logn < (s.cg.queues.get 7 {}).allow + (s.src32 ⟨.lit, 1⟩ 0).toNat ∧ (s.cg.queues.get 6 {}).init = false) ∧
    (ldst 111 = true ∧ scaLit ⟨.lit, 7⟩ = true ∧ ((oneQueue (two 1)).src32 ⟨.lit, 7⟩ 0).toNat < 8 ∧ 7 < ((oneQueue (two 1)).src32 ⟨.lit, 8⟩ 0).toNat ∧
      ((oneQueue (two 1)).cg.queues.get 7 {}).empty = false ∧ ((oneQueue (two 0)).cg.queues.get 7 {}).empty = true) ∧
    (pushing (two 0)).queueFree 7 = false ∧ late.inOrder (late.queuePlace 7) late.queueOrd = false := by
  decide +kernel

/-- A launch with stage 0, whose ring has 16 places of which `n` are taken, with handler 0 of messages, on a die that holds `m` messages. -/
def stager (n m : Nat) : State :=
  (withLaunch one fun l => { l with stages := [{ tail := n }], hnd := [(0, 0x2000#64)] }).modDie 0 fun x => { x with msgs := List.replicate m {} }

/-- What STAGEPUSH and AMSG could not place. -/
def stageLeft (s : State) : List Thread :=
  (s.stageAll 0 s.cg.ctx s.cg.lid 0 ((lanesOf s.memb).map fun l =>
    { lane := l, ctx := s.cg.ctx, lid := s.cg.lid, pay := (List.range 4).map fun i => s.cw.readV (108 + i) l })).2

/-- A stage that the launch lacks, one with a place, one without; a descriptor without handler, and a good one before full and free units. -/
theorem witness_StageAndMessageWords :
    (∀ n ∈ [0, 16], ∀ m ∈ [0, 256], (stager n m).CanIssue [⟨.lit, 0⟩] ∧ (stager n m).held (stager n m).cp = false ∧ (stager n m).unacked 0 0 = 0) ∧
    quad 108 = true ∧ scaLit ⟨.lit, 0⟩ = true ∧ (stager 0 0).stageOf (stager 0 0).cg 1 = none ∧ 7 < ((stager 0 0).src32 ⟨.lit, 8⟩ 0).toNat ∧
    ((stager 0 0).src32 ⟨.lit, 0⟩ 0).toNat ≤ 7 ∧ (stager 0 0).stageOf (stager 0 0).cg 0 ≠ none ∧ stageLeft (stager 0 0) = [] ∧
    (stager 16 0).stageOf (stager 16 0).cg 0 ≠ none ∧ stageLeft (stager 16 0) ≠ [] ∧
    hexa 96 = true ∧ src32 ⟨.lit, 0⟩ = true ∧ (stager 0 0).runs 0 ∧ (stager 0 0).msgOk (stager 0 0).cg ((stager 0 0).src32 ⟨.lit, 1⟩ 0).toNat = false ∧
    (∀ n, (stager 0 0).runs n → (stager 0 0).msgOk (stager 0 0).cg ((stager 0 0).src32 ⟨.lit, 0⟩ n).toNat = true) ∧
    ((stager 0 0).sendAll 0 [{}]).2 = [] ∧ (∀ n, (stager 0 256).runs n → (stager 0 256).msgOk (stager 0 256).cg ((stager 0 256).src32 ⟨.lit, 0⟩ n).toNat = true) ∧
    ((stager 0 256).sendAll 0 [{}]).2 ≠ [] := by
  have h0 : (stager 0 0).memb = 1#32 := rfl
  have h1 : (stager 0 256).memb = 1#32 := rfl
  have h4 : (stager 0 0).runs 0 := runs_zero h0
  have h5 : ∀ n, (stager 0 0).runs n → (stager 0 0).msgOk (stager 0 0).cg ((stager 0 0).src32 ⟨.lit, 0⟩ n).toNat = true := fun n hn => by
    rw [one_runs h0 hn]; decide +kernel
  have h6 : ∀ n, (stager 0 256).runs n → (stager 0 256).msgOk (stager 0 256).cg ((stager 0 256).src32 ⟨.lit, 0⟩ n).toNat = true := fun n hn => by
    rw [one_runs h1 hn]; decide +kernel
  and_intros
  all_goals first | exact h4 | exact h5 | exact h6 | ((try unfold State.CanIssue); decide +kernel)

/-- The empty mask, and a mask whose tag is not complete. -/
theorem witness_TagWords :
    tagSrc ⟨.lit, 0⟩ = true ∧ (one).CanIssue [⟨.lit, 0⟩] ∧ tagSrc ⟨.lit, 1⟩ = true ∧ (one).CanIssue [⟨.lit, 1⟩] ∧ sgen 95 = true ∧
    (one).src64 ⟨.lit, 0⟩ 0 = 0 ∧ (∀ i < 64, ((one).src64 ⟨.lit, 0⟩ 0).getLsbD i = true → ((one).core 0).tags.getLsbD i = true) ∧
    ¬ ((one).src64 ⟨.lit, 1⟩ 0 = 0 ∨ ∃ i < 64, ((one).src64 ⟨.lit, 1⟩ 0).getLsbD i = true ∧ ((one).core 0).tags.getLsbD i = true) ∧
    ¬ ∀ i < 64, ((one).src64 ⟨.lit, 1⟩ 0).getLsbD i = true → ((one).core 0).tags.getLsbD i = true := by
  unfold State.CanIssue
  decide +kernel

/-- A handler whose image at 0 is mapped; `o` are its operations, `v` its address register. -/
def imager (v : W64) (o : List MemOp) (g : Group → Group) : State :=
  { one (w := fun w => { w with sregs := [(94, v.setWidth 32)] }) (g := g)
      (c := fun x => { x with tlb := (List.range 8).map fun i => (i, dataLeaf + BitVec.ofNat 64 (64 * i)) }) with ops := o }

/-- A group in its handler. -/
def inH (g : Group) : Group := { g with phase := .handler, trap := some {} }
/-- A group that must begin with GREST. -/
def inR (g : Group) : Group := { g with restore := true, fresh := true }

/-- The image header that fits the group, in memory. -/
def fitting : State :=
  let s := imager 0 [] inR
  s.wrKey 0x2000 (s.keyId 0x2000 0) 16
    (1 + 2 ^ 32 * s.cg.imageSize + 2 ^ 64 * (s.cg.ctx + 2 ^ 16 * s.cg.slots.length + 2 ^ 24 * (s.cg.regs / 16) + 2 ^ 32 * s.cg.nbar + 2 ^ 48 * (s.cg.spsize / 256)))

/-- The clauses of GSAVE and GREST. -/
theorem witness_SaveAndRestoreWords :
    let h := imager 0 [] inH
    let b := imager 0 [{ id := 1, kind := .load, accs := [{}] }] inH
    let r := imager 0 [] inR
    let rd := fun (s : State) o n => s.imgRead s.cur.core s.cg (0 + o) n
    spair 94 = true ∧ (h.CanIssue [] ∧ b.CanIssue [] ∧ r.CanIssue [] ∧ fitting.CanIssue [] ∧ (imager 8 [] inH).CanIssue [] ∧ (imager 8 [] inR).CanIssue []) ∧
    (h.readS64 94 = 0 ∧ h.held h.cp = false ∧ h.inHandler = true ∧ h.cg.held.length ≤ 14 ∧ h.imageChk 0 h.cg.imageSize true = none ∧ h.canSave h.cgid = true ∧ h.matrixOver h.cgid = true) ∧
    (b.readS64 94 = 0 ∧ b.held b.cp = false ∧ b.inHandler = true ∧ b.cg.held.length ≤ 14 ∧ b.imageChk 0 b.cg.imageSize true = none ∧ b.canSave b.cgid = false) ∧
    ((imager 8 [] inH).held (imager 8 [] inH).cp = false ∧ (imager 8 [] inH).inHandler = true ∧ ((imager 8 [] inH).readS64 94).toNat % 256 ≠ 0) ∧
    r.inHandler = false ∧
    (r.cg.restore = true ∧ r.cg.fresh = true ∧ r.cp.clause = some cl ∧ cl.pos = 0 ∧ r.cg.phase ≠ .halting ∧ r.readS64 94 = 0 ∧
      r.imageChk 0 r.cg.imageSize false = none ∧ r.cg.imageFits (rd r) = false) ∧
    (fitting.cg.restore = true ∧ fitting.cg.fresh = true ∧ fitting.cp.clause = some cl ∧ fitting.cg.phase ≠ .halting ∧ fitting.readS64 94 = 0 ∧
      fitting.imageChk 0 fitting.cg.imageSize false = none ∧ fitting.cg.imageFits (rd fitting) = true) ∧
    ((imager 8 [] inR).cg.restore = true ∧ (imager 8 [] inR).cg.fresh = true ∧ (imager 8 [] inR).cp.clause = some cl ∧
      (imager 8 [] inR).cg.phase ≠ .halting ∧ ((imager 8 [] inR).readS64 94).toNat % 256 ≠ 0) ∧
    h.cg.restore = false := by
  unfold State.CanIssue
  decide +kernel

/-- The value of the first piece at an offset. -/
def pieceAt (l : List (Nat × Nat × Nat)) (o : Nat) : Nat := ((l.find? fun e => e.1 == o).getD (0, 0, 0)).2.2

/-- Whether offsets rise. -/
def rising : List (Nat × Nat × Nat) → Bool
  | a :: b :: l => decide (a.1 < b.1) && rising (b :: l)
  | _ => true

theorem rising_lt {a : Nat × Nat × Nat} {l : List (Nat × Nat × Nat)} (h : rising (a :: l) = true) : ∀ e ∈ l, a.1 < e.1 := by
  induction l generalizing a with
  | nil => simp
  | cons b l ih =>
    simp only [rising, Bool.and_eq_true, decide_eq_true_eq] at h
    intro e he
    rcases List.mem_cons.1 he with rfl | he
    · exact h.1
    · exact h.1.trans (ih h.2 e he)

theorem pieceAt_of {l : List (Nat × Nat × Nat)} (h : rising l = true) : ∀ e ∈ l, pieceAt l e.1 = e.2.2 := by
  induction l with
  | nil => simp
  | cons a l ih =>
    intro e he
    rcases List.mem_cons.1 he with rfl | he
    · simp [pieceAt]
    · have hlt := rising_lt h e he
      have hr : rising l = true := by
        cases l with
        | nil => rfl
        | cons b l => simp only [rising, Bool.and_eq_true] at h; exact h.2
      rw [← ih hr e he]
      simp [pieceAt, Nat.ne_of_lt hlt]

/-- A handler's group whose pieces are read back by their offsets: its wave's block, its live lane, its image and its barrier slots. -/
theorem witness_SavedImage :
    let s := imager 0 [] inH
    let w := s.wavePieces s.cgid 0 fun _ => none
    let rd := fun o n => if n = 1 ∧ 1280 + s.cg.slots.length * waveBlock s.cg.regs ≤ o then s.cg.spGet (o - (1280 + s.cg.slots.length * waveBlock s.cg.regs)) 1
      else pieceAt (s.imagePieces s.cgid) o
    (∀ e ∈ w, (fun o _ => pieceAt w (1280 + o)) (e.1 - (1280 + 0 * waveBlock s.cg.regs)) e.2.1 = e.2.2) ∧ s.cw.live.getLsbD 0 = true ∧
    (∀ e ∈ s.imagePieces s.cgid, rd e.1 e.2.1 = e.2.2) ∧
    (∀ x < s.cg.spsize, rd (1280 + s.cg.slots.length * waveBlock s.cg.regs + x) 1 = s.cg.spGet x 1) ∧
    ∀ k < 32, (s.cg.bars.get k {}).count < 2 ^ 11 ∧ (s.cg.bars.get k {}).arrived < 2 ^ 11 := by
  intro s w rd
  have h1 : rising w = true := by decide +kernel
  have h2 : (w.all fun e => decide (1280 ≤ e.1)) = true := by decide +kernel
  have h3 : rising (s.imagePieces s.cgid) = true := by decide +kernel
  have h4 : ((s.imagePieces s.cgid).all fun e => e.2.1 != 1 || decide (e.1 < 1280 + s.cg.slots.length * waveBlock s.cg.regs)) = true := by
    decide +kernel
  refine ⟨fun e he => ?_, ?_, fun e he => ?_, fun x _ => ?_, ?_⟩
  · have h := of_decide_eq_true (List.all_eq_true.1 h2 e he)
    have h5 := pieceAt_of h1 e he
    clear_value w
    rw [show e.1 = 1280 + (e.1 - (1280 + 0 * waveBlock s.cg.regs)) by omega] at h5
    exact h5
  · decide +kernel
  · rw [← pieceAt_of h3 e he]
    refine if_neg fun hc => ?_
    have h := List.all_eq_true.1 h4 e he
    simp only [hc.1, bne_self_eq_false, Bool.false_or, decide_eq_true_eq] at h
    omega
  · refine (if_pos ⟨rfl, Nat.le_add_right _ _⟩).trans ?_
    rw [Nat.add_sub_cancel_left]
  · decide +kernel

/-- One lane with a descriptor in s80 to s93, a B reservation ob1 of 8 F32 tiles and an A reservation ob0, and possession. -/
def commander (d : List Nat) : State :=
  one (fun w => { w with sregs := (List.range 14).map fun i => (80 + i, BitVec.ofNat 32 (d.getD i 0)) })
    (g := fun g => { g with role := some 1, resv := [(0, { nt := 1, stamp := 1 }), (1, { nt := 1, roleB := true, base := 1024, stamp := 2 })] })
    (c := fun x => { x with poss := some 0 })

/-- The descriptor that the word reads. -/
def descOf (s : State) : List W32 := (List.range 14).map fun i => s.readS (80 + i)

/-- Scratchpad to scratchpad; scratchpad to ob0 with a follow-on; memory to scratchpad; scratchpad to memory: each for its command. -/
def goodDescs : List (CmdKind × List Nat) :=
  [(.cpy, [0x12000, 1, 4]), (.cpym, [0x22000, 1, 4, 0, 0, 0, 0, 0, 0, 0, 0, 0x42]), (.gath, [0x10000, 1, 2]), (.xred, [0x2000, 1, 0])]

theorem witness_EngineCommandWords :
    engD 80 = true ∧ sname 0 = true ∧
    (∀ e ∈ goodDescs, ((commander e.2).descBad (commander e.2).cg e.1 (descOf (commander e.2)) = [] ∧ (commander e.2).CanIssue [] ∧
      (((commander e.2).core 0).chain e.1.cls).entries.length < 256 ∧ ((commander e.2).core 0).tagBusy 63 = false ∧
      ((commander e.2).core 0).poss = some (commander e.2).cgid)) ∧
    ((63#7 : RName).signExtend 32).toNat < 64 ∧ ((127#7 : RName).signExtend 32).toNat = 0xFFFFFFFF ∧
    (64 ≤ ((126#7 : RName).signExtend 32).toNat ∧ ((126#7 : RName).signExtend 32).toNat ≠ 0xFFFFFFFF) ∧
    (∀ e ∈ goodDescs, (commander [1]).descBad (commander [1]).cg e.1 (descOf (commander [1])) ≠ []) ∧
    (commander []).CanSend [] false false false 0 := by
  refine ⟨?_, ?_, ?_, ?_, ?_, ?_, ?_, canSend_of (c := cl) ?_ ?_⟩
  all_goals (try unfold State.CanIssue); decide +kernel

/-- The exporting group of the neighbouring core, beside the group of the placed word. -/
def exporter : Group := { core := 1, resv := [(15, { exp := true, nt := 1, stamp := 3 })] }

theorem witness_ReservationAndPossessionWords :
    let s := commander []
    let w := fun v => one fun w => w.setV 0 0 v
    let sc := fun (v : W32) => one fun w => { w with sregs := [(0, v)] }
    let i := { one with groups := [(0, exporter), (1, (one).group 0)], waves := (one).waves.upd 0 {} fun w => { w with gid := some 1 } }
    let reads := { s with cores := s.cores.upd 0 {} fun c => { c with mchain := [{ kind := .mma, oba := 0, obb := 1 }] } }
    let held := fun (p : Option Nat) (r : Option Nat) => one (g := fun g => { g with role := r }) (c := fun x => { x with poss := p })
    (w 0).memb ≠ 0 ∧
    (ssrc32 ⟨.sca, 0⟩ = true ∧ (sc 7#32).CanIssue [⟨.sca, 0⟩] ∧ resvOf ((sc 7#32).src32 ⟨.sca, 0⟩ 0).toNat = some { nt := 1, base := 7 } ∧
      ¬ (393216 < ({ nt := 1, base := 7 } : Resv).span.2 ∨ (sc 7#32).cg.resv.has 15 = true ∨
        ∃ x ∈ (sc 7#32).spansOn 0, x.1 < ({ nt := 1, base := 7 } : Resv).span.2 ∧ ({ nt := 1, base := 7 } : Resv).span.1 < x.2)) ∧
    (resvOf ((sc 2047#32).src32 ⟨.sca, 0⟩ 0).toNat = some { nt := 1, base := 2047 } ∧ 393216 < ({ nt := 1, base := 2047 } : Resv).span.2 ∧
      (sc 2047#32).CanIssue [⟨.sca, 0⟩]) ∧
    (resvOf ((sc 0x80000000#32).src32 ⟨.sca, 0⟩ 0).toNat = none ∧ (sc 0x80000000#32).CanIssue [⟨.sca, 0⟩]) ∧
    (scaLit ⟨.lit, 31⟩ = true ∧ i.CanIssue [⟨.lit, 31⟩] ∧ i.memb ≠ 0 ∧ (i.src32 ⟨.lit, 31⟩ 0).toNat < 64 ∧
      4 * (i.cur.core / 4) + (i.src32 ⟨.lit, 31⟩ 0).toNat / 16 = exporter.core ∧ exporter.core ≠ i.cur.core ∧
      i.groups = [(0, exporter)] ++ i.groups.tail ∧ exporter.ctx = i.cg.ctx ∧ exporter.resv.has 15 = true ∧ (i.src32 ⟨.lit, 31⟩ 0).toNat % 16 = 15 ∧
      (exporter.resv.get 15 {}).exp = true ∧ (exporter.resv.get 15 {}).imp = none) ∧
    (s.memb ≠ 0 ∧ s.CanIssue [] ∧ s.cg.resv.has 2 = false ∧ s.cg.resv.has 0 = true ∧ s.resvRead (s.cg.resv.get 0 {}).stamp = false) ∧
    (reads.memb ≠ 0 ∧ reads.CanIssue [] ∧ reads.cg.resv.has 0 = true ∧ reads.resvRead (reads.cg.resv.get 0 {}).stamp = true) ∧
    (∀ p r, (held p r).memb = (held none none).memb) ∧ (held none none).CanIssue [] ∧ (held none none).cg.role = none ∧
    ((held none (some 0)).CanIssue [] ∧ (held none (some 0)).cg.role ≠ none ∧ (held none (some 0)).cc.poss = none) ∧
    ((held (some 1) (some 0)).CanIssue [] ∧ (held (some 1) (some 0)).cg.role ≠ none ∧ (held (some 1) (some 0)).cc.poss ≠ none ∧
      (held (some 1) (some 0)).cc.poss ≠ some (held (some 1) (some 0)).cgid) ∧
    (s.cc.poss = some s.cgid ∧ s.cg.follow = 0 ∧ s.groupsOn s.cur.core = [(s.cgid, s.cg)]) := by
  unfold State.CanIssue
  refine ⟨?_, ?_, ?_, ?_, ?_, ?_, ?_, fun _ _ => rfl, ?_⟩ <;> decide +kernel

/-- An MMA that runs and one whose operands are swapped; the accumulators of role 1 and another; the drains; an accumulator with a type
mismatch that the group has not yet halted for. -/
theorem witness_MatrixChainWords :
    let s := commander []
    let d := one (fun w => { w with sregs := [(88, 2#32), (90, 4#32)] }) (g := fun g => { g with role := some 1, spsize := 16384 })
    let x := one (g := fun g => { g with role := some 1 }) (c := fun c => { c with doomed := [(0, 3)] })
    s.cc.mchain.length < 32 ∧ s.CanSend [] false false false 0 ∧ (one).cc.poss ≠ some (one).cgid ∧ (one).CanSend [] false false false 0 ∧
    s.cc.poss = some s.cgid ∧ s.mmaTrap s.cg 3 0 1 0 = none ∧ s.mmaTrap s.cg 3 1 0 0 = some 0x1F ∧ s.cg.role = some (3 / 2) ∧ s.cg.role ≠ some (1 / 2) ∧
    (d.cc.mchain.length < 32 ∧ squad 88 = true ∧ (d.readS 88).toNat = 2 ∧ d.cg.role = some (2 % 4 / 2) ∧ (d.readS 90).toNat % 4 = 0 ∧
      (d.readS 90).toNat + 2 ^ 32 * (d.readS 91).toNat < 2 ^ 54 ∧ (d.readS 89).toNat % 256 = 0 ∧ (d.readS 89).toNat + 16384 ≤ d.cg.spsize ∧ oct 104 = true) ∧
    (∀ x ∈ [s, one, d], x.cc.doomed.contains (x.cgid, 3) = false ∧ x.cc.doomed.contains (x.cgid, 2) = false) ∧
    (x.cc.mchain.length < 32 ∧ x.cg.role = some (3 / 2) ∧ x.cc.doomed.contains (x.cgid, 3) = true) ∧
    d.CanSend [] false false false 0 ∧ d.CanSend [] true false false 0 ∧ x.CanSend [] false false false 0 := by
  refine ⟨?_, canSend_of (c := cl) ?_ ?_, ?_, canSend_of (c := cl) ?_ ?_, ?_, ?_, ?_, ?_, ?_, ?_, ?_, ?_, canSend_of (c := cl) ?_ ?_,
    canSend_of (c := cl) ?_ ?_, canSend_of (c := cl) ?_ ?_⟩ <;> decide +kernel

end Sys2Proof.Tests
end

