-- ==== Sys2Proof/Tests/WitnessEvents.lean ====
section
/-! SUPPORT. For the statements about memory, directory, version and wait events: concrete states and operands that meet the
hypotheses of each clause together. -/

set_option Elab.async false

namespace Sys2Proof.Tests

open Sys2Proof.Machine

/-- An operation in flight from the placed wave. -/
def flying (k : OpKind) (a : Acc) : MemOp := { id := 1, kind := k, accs := [a], flag := 0, reg := 3 }

/-- The placed wave with operations in flight. -/
def air (ops : List MemOp) : State := { one with ops := ops, nextId := 9 }

/-- The reply holds bytes. -/
def okReply : Reply → Bool
  | .ok _ _ => true
  | _ => false

theorem reply_ok {r : Reply} (h : okReply r = true) : ∃ u v, r = .ok u v := by
  cases r with
  | ok u v => exact ⟨u, v, rfl⟩
  | bad => cases h
  | wait => cases h

/-- An access at the mapped page. -/
def atPage : Acc := { pa := 0x2000, leaf := dataLeaf }

/-- The page under a cache class: 0 software-coherent, 1 hardware-coherent, 2 core-private, 3 uncached. -/
def ofClass (cc : Nat) : Acc := { pa := 0x207C, leaf := dataLeaf ||| BitVec.ofNat 64 (cc * 2 ^ 61), data := 0xAABBCCDD#256 }

/-- A load that is performed, a store that is acknowledged, lease requests granted and waiting, a lease that is surrendered, a held read, and a
word that completes. -/
theorem witness_MemoryEvents :
    let l := air [flying .load atPage]
    let pf := air [flying .store { atPage with st := .perf }]
    let at1 := { air [flying .atom atPage] with groups := [(0, {})] }
    let leased := { one with cores := [(5, { leases := [64] })] }
    let hold := { air [flying .load atPage] with dies := [(0, { heldReads := [32] })] }
    let fin := air [flying .load { atPage with st := .perf, data := 7#256 }]
    (l.opAt 1 = some (flying .load atPage) ∧ l.accReady (flying .load atPage) atPage = true ∧ atPage.pa < hostBase ∧
      l.l1Serves (flying .load atPage) atPage = false ∧ l.mayHold (flying .load atPage) atPage = false ∧
      (l.die 0).heldReads.contains (holdId 1 0) = false ∧ l.heldOn 0 64 = [] ∧ ∃ u v, l.loadAt 0 0 atPage.leaf.toNat atPage.pa 4 0 true = .ok u v) ∧
    (pf.opAt 1 = some (flying .store { atPage with st := .perf }) ∧ ({ atPage with st := .perf } : Acc).late = false) ∧
    (at1.opAt 1 = some (flying .atom atPage) ∧ at1.accReady (flying .atom atPage) atPage = true ∧ at1.needsLease (flying .atom atPage) atPage = true ∧
      leafCC atPage.leaf.toNat = 0 ∧ at1.leasedBy 64 = none ∧ (at1.lineQueue 64).headD (.lease 0) = .lease 0 ∧ at1.badRead 64 0 = false ∧ at1.heldOn 0 64 = []) ∧
    (let taken := at1.modCore 5 fun c => { c with leases := [64] }
     taken.leasedBy 64 ≠ none ∧ (taken.core 0).leases.contains 64 = false ∧ taken.opAt 1 = some (flying .atom atPage) ∧
      taken.accReady (flying .atom atPage) atPage = true ∧ taken.needsLease (flying .atom atPage) atPage = true ∧ taken.badRead 64 0 = false) ∧
    (leased.leasedBy 64 = some 5 ∧ (leased.core 5).leases.contains 64 = true ∧ leased.atomDue 64 = false) ∧
    (hold.opAt 1 = some (flying .load atPage) ∧ hold.heldOn 0 64 = [(flying .load atPage, atPage)] ∧ hold.accReady (flying .load atPage) atPage = true ∧
      ∃ u v, hold.loadAt 0 0 atPage.leaf.toNat atPage.pa 4 0 true = .ok u v) ∧
    (∃ o, fin.opAt 1 = some o ∧ o.settled = true ∧ (fin.wave (waveKey o.core o.slot)).gid = some o.gid ∧ o.halted = false ∧
      (∀ a ∈ o.accs, a.st ≠ .failed ∧ a.gone = 0 ∧ a.lane < 32) ∧ (o.accs.map (·.lane)).Nodup ∧ o.hasData { atPage with st := .perf, data := 7#256 } = true) := by
  refine ⟨⟨?_, ?_, ?_, ?_, ?_, ?_, ?_, reply_ok ?_⟩, ?_, ?_, ?_, ?_, ⟨?_, ?_, ?_, reply_ok ?_⟩,
    ⟨flying .load { atPage with st := .perf, data := 7#256 }, ?_⟩⟩ <;> decide +kernel

/-- The last word of a line of each class; for a hardware-coherent page with a copy in the die's slice and without. -/
theorem witness_StoresAtTheOrderingPoint :
    let st := fun (cc : Nat) => air [flying .store (ofClass cc)]
    let held := { st 1 with copies := [(4 * 64, { st := .mo, key := (st 1).keyId 0x207C 0 })] }
    (∀ cc < 4, (st cc).Inv ∧ (st cc).opAt 1 = some (flying .store (ofClass cc)) ∧ (flying .store (ofClass cc)).flag < 12 ∧
      (st cc).accReady (flying .store (ofClass cc)) (ofClass cc) = true ∧ (ofClass cc).pa < hostBase ∧ isCtl (ofClass cc).pa = false ∧
      (st cc).poison.has 64 = false ∧ (st cc).heldOn (servingDie 0 (ofClass cc).leaf.toNat 0x207C) 64 = [] ∧ (ofClass cc).pa % 128 + 4 ≤ 128 ∧
      leafCC (ofClass cc).leaf.toNat = cc ∧ (st cc).leaseOk 0 64 = true) ∧
    ((st 2).core 0).l1.length < 2048 ∧
    ((st 1).dirWrites 64 0 ((st 1).keyId 0x207C 0) = true ∧ (st 1).holds 64 0 ((st 1).keyId 0x207C 0) = false) ∧
    (held.Inv ∧ held.accReady (flying .store (ofClass 1)) (ofClass 1) = true ∧ held.heldOn (servingDie 0 (ofClass 1).leaf.toNat 0x207C) 64 = [] ∧
      held.leaseOk 0 64 = true ∧ held.dirWrites 64 0 (held.keyId 0x207C 0) = true ∧ held.holds 64 0 (held.keyId 0x207C 0) = true) := by
  unfold State.Inv
  decide +kernel

/-- Each code of an atomic at an uncached page and at a line under the core's lease; a CAS whose compare value is the old one and one whose
is not; a scratchpad load and store in the last word. -/
theorem witness_AtomicsAtTheOrderingPoint :
    let op := fun (cc fn aux : Nat) => { flying .atom { ofClass cc with aux := BitVec.ofNat 64 aux } with fn := fn }
    let s := fun (cc fn aux : Nat) => (air [op cc fn aux]).modCore 0 fun c => { c with leases := [64] }
    (∀ cc ∈ [0, 3], ∀ fn < 10, ∀ aux < 2, let o := op cc fn aux; let a : Acc := { ofClass cc with aux := BitVec.ofNat 64 aux }
      (s cc fn aux).Inv ∧ (s cc fn aux).opAt 1 = some o ∧ o.accs = [a] ∧ o.flag < 12 ∧ o.size = 4 ∧ (s cc fn aux).accReady o a = true ∧
      leafCC a.leaf.toNat = cc ∧ (s cc fn aux).leasedBy 64 = some 0 ∧ ((s cc fn aux).core 0).leases.contains 64 = true ∧
      (s cc fn aux).badRead 64 0 = false ∧ (s cc fn aux).heldOn 0 64 = []) ∧
    AtomWrites 9 32 ((s 3 9 0).rdKey 0x207C ((s 3 9 0).keyId 0x207C 0) 4) 7 ((s 3 9 0).rdKey 0x207C ((s 3 9 0).keyId 0x207C 0) 4) ≠ none ∧
    AtomWrites 9 32 ((s 3 9 0).rdKey 0x207C ((s 3 9 0).keyId 0x207C 0) 4) 7 ((s 3 9 0).rdKey 0x207C ((s 3 9 0).keyId 0x207C 0) 4 + 1) = none ∧
    ∀ k ∈ [OpKind.spst, .spld], (air [flying k { pa := 252 }]).opAt 1 = some (flying k { pa := 252 }) ∧
      (air [flying k { pa := 252 }]).accReady (flying k { pa := 252 }) { pa := 252 } = true ∧ (air [flying k { pa := 252 }]).groups.has 0 = true := by
  intro op s
  refine ⟨?_, ?_, ?_, ?_⟩
  · unfold State.Inv
    decide +kernel
  · exact fun h => by simp [AtomWrites] at h
  · simp [AtomWrites]
  · decide +kernel

/-- A state with one directory message and one copy. -/
def told (m : DMsg) (c : Copy) (e : Option DirEnt) : State :=
  { dies := (List.range 4).map (fun d => (d, { br := 4 })), dmsgs := [m], copies := [(4 * m.line + m.dst, c)], dir := match e with | some x => [(m.line, x)] | none => [] }

/-- A message about line 64 of die 0. -/
def msgOf (kind src dst : Nat) : DMsg := { kind := kind, src := src, dst := dst, line := 64 }

theorem told_heldOn (m : DMsg) (c : Copy) (e : Option DirEnt) (d line : Nat) : (told m c e).heldOn d line = [] := by
  have h : ((told m c e).die d).heldReads = [] := by
    simp only [told, State.die, List.range, List.range.loop, List.map, FMap.get]
    split_ifs <;> rfl
  simp only [State.heldOn, h, List.filterMap_nil]

theorem witness_DirectoryEvents :
    (∀ kind ∈ [0, 1], (told (msgOf kind 3 0) {} none).dirMsg 0 kind = some (msgOf kind 3 0) ∧ (told (msgOf kind 3 0) {} none).heldOn 0 64 = [] ∧
      (told (msgOf kind 3 0) {} none).dir.has 64 = false ∧ (3 : Nat) ≠ homeDie 64 ∧ ((told (msgOf kind 3 0) {} none).dirSet 64 0).length < 16 ∧
      (told (msgOf kind 3 0) {} none).leasedBy 64 = none) ∧
    (let m := { msgOf 2 0 2 with arg := 1 }
     (told m { st := .mo } none).dirMsg 0 2 = some m ∧ ((told m { st := .mo } none).copy 64 2).st ≠ .inv ∧ m.dst ≠ m.arg) ∧
    (told (msgOf 3 0 2) { st := .sh } none).dirMsg 0 3 = some (msgOf 3 0 2) ∧
    (told (msgOf 7 0 2) { st := .mo } none).dirMsg 0 7 = some (msgOf 7 0 2) ∧
    (let e : DirEnt := { busy := true, acks := 1, req := 1, sup := 2 }
     (told (msgOf 4 2 0) {} (some e)).dirMsg 0 4 = some (msgOf 4 2 0) ∧ (told (msgOf 4 2 0) {} (some e)).dir.get 64 {} = e ∧ e.evict = false ∧
      e.excl = false ∧ e.sup < 4 ∧ e.req < 4) ∧
    ((told (msgOf 8 2 0) {} none).dirMsg 0 8 = some (msgOf 8 2 0) ∧ (msgOf 8 2 0).arg ≠ 1 ∧ (told (msgOf 8 2 0) {} none).dir.has 64 = false) ∧
    ((told (msgOf 5 0 2) { asked := true } none).dirMsg 0 5 = some (msgOf 5 0 2) ∧ ((told (msgOf 5 0 2) { asked := true } none).copy 64 2).asked = true ∧
      ((told (msgOf 5 0 2) { asked := true } none).copy 64 2).grant = .inv) ∧
    ((told (msgOf 6 0 2) { asked := true, got := some 9 } none).dirMsg 0 6 = some (msgOf 6 0 2) ∧
      ((told (msgOf 6 0 2) { asked := true, got := some 9 } none).copy 64 2).got = some 9 ∧ (2 : Nat) ≠ homeDie 64) := by decide +kernel

/-- A version access at the VER page. -/
def atVer (b : Nat) : Acc := { pa := 0x2000, leaf := verLeaf, aux := BitVec.ofNat 64 b }

/-- One armed region over the page, with floor `fl` at every slice and the granule `g`. -/
def region (ops : List MemOp) (fl : Nat) (g : Gran) : State :=
  { air ops with
    regions := [(0, { base := 0, ngran := 128, armed := true, floors := (List.range 48).map fun i => (i, fl) })]
    grans := [(0x2000, g)] }

/-- Launches of a context waiting to arm: one without a region, one whose region number is out of its range. -/
def arming (r : List RegionE) : State := { dies := [(0, { launches := [(0, { phase := .arm, rgns := r })] })] }

/-- No read is held where the access goes, and it is not to be held itself. -/
def unheld (s : State) (o : MemOp) (a : Acc) : Bool :=
  !(s.die (dieOf o.core)).heldReads.contains (holdId o.id a.lane) && (s.heldOn (dieOf o.core) (a.pa / 128)).isEmpty &&
  (s.heldOn (a.pa / 2 ^ 48) (a.pa / 128)).isEmpty && !s.mayHold o a

/-- A version access of one lane is ready at a slice of a region with floor 5, and its granule is as a clause asks. -/
def atSlice (k : OpKind) (b : Nat) (g : Gran) (f : State → Nat → Place → Bool) (u : State → State := id) : Bool :=
  let s := u (region [flying k (atVer b)] 5 g)
  s.opAt 1 == some (flying k (atVer b)) && s.accReady (flying k (atVer b)) (atVer b) && s.sameVer (flying k (atVer b)) (atVer b) == [atVer b] &&
  unheld s (flying k (atVer b)) (atVer b) && !(atVer b).overdue && (atVer b).leaf != 0 &&
  (match s.verPlace (flying k (atVer b)) (atVer b) with | some p => f s b p | none => false)

/-- A granule whose version line holds versions 1 to 4, and one whose version 9 lies in a heap record. -/
def fullGran : Gran := { slots := [(1, 1), (2, 2), (3, 3), (4, 4)], line := true }
/-- The record is at 0x9000. -/
def heapGran : Gran := { heap := [(9, 0x9000)] }
/-- That record's line has an uncorrectable error. -/
def badHeap (s : State) : State := { s with poison := [(0x9000 / 128, 0)] }

theorem witness_VersionEvents :
    (∀ k ∈ [OpKind.vldEq, .vldLe, .vst], (air [flying k (atVer 0)]).opAt 1 = some (flying k (atVer 0)) ∧
      (air [flying k (atVer 0)]).accReady (flying k (atVer 0)) (atVer 0) = true ∧ unheld (air [flying k (atVer 0)]) (flying k (atVer 0)) (atVer 0) = true ∧ (atVer 0).overdue = false ∧ (atVer 0).leaf ≠ 0 ∧
      (air [flying k (atVer 0)]).verPlace (flying k (atVer 0)) (atVer 0) = none) ∧
    atSlice .vldEq 4 {} (fun _ b p => b < p.floor) = true ∧
    atSlice .vldEq 5 { slots := [(5, 1)], line := true } (fun s b p => p.floor ≤ b && (s.gran 0x2000).hasV b && !s.badRead 64 0 && s.chainOk (s.gran 0x2000) b) = true ∧
    atSlice .vldEq 5 { slots := [(5, 1)], line := true } (fun s b p => p.floor ≤ b && (s.gran 0x2000).hasV b && s.badRead 64 0)
      (fun s => { s with poison := [(64, 0)] }) = true ∧
    atSlice .vldEq 6 heapGran (fun s b p => p.floor ≤ b && !(s.gran 0x2000).hasV b && !s.chainOk (s.gran 0x2000) b) badHeap = true ∧
    atSlice .vldEq 6 {} (fun s b p => p.floor ≤ b && !(s.gran 0x2000).hasV b && s.chainOk (s.gran 0x2000) b && s.waitersAt p.home < 2048) = true ∧
    atSlice .vldLe 6 { image := false } (fun s b _ => (s.gran 0x2000).atMost b == none) = true ∧
    atSlice .vldLe 6 {} (fun s b _ => (s.gran 0x2000).atMost b == some 0 && s.chainOk (s.gran 0x2000) 0) = true ∧
    atSlice .vst 6 heapGran (fun s b _ => !s.chainOk (s.gran 0x2000) b) badHeap = true ∧
    atSlice .vst 0 {} (fun s b _ => s.chainOk (s.gran 0x2000) b && (s.gran 0x2000).hasV b) = true ∧
    atSlice .vst 4 {} (fun s b p => s.chainOk (s.gran 0x2000) b && !(s.gran 0x2000).hasV b && b < p.floor) = true ∧
    atSlice .vst 6 fullGran (fun s b p => s.chainOk (s.gran 0x2000) b && !(s.gran 0x2000).hasV b && p.floor ≤ b &&
      (s.create 0x2000 (leafPin verLeaf.toNat) 0 0 p.num b 0).isNone) = true ∧
    atSlice .vst 6 {} (fun s b p => s.chainOk (s.gran 0x2000) b && !(s.gran 0x2000).hasV b && p.floor ≤ b &&
      (s.create 0x2000 (leafPin verLeaf.toNat) 0 0 p.num b 0).isSome && s.createOk 0x2000 (leafPin verLeaf.toNat) b) = true ∧
    atSlice .vst 7 { slots := [(1, 1), (4, 4), (5, 5), (6, 6)], line := true, heap := [(2, 0x9000)] } (fun s b p => s.chainOk (s.gran 0x2000) b &&
      !(s.gran 0x2000).hasV b && p.floor ≤ b && (s.create 0x2000 (leafPin verLeaf.toNat) 0 0 p.num b 0).isSome &&
      !s.createOk 0x2000 (leafPin verLeaf.toNat) b) (fun s => s.modDie 0 fun x => { x with heaps := [(0, { free := [(0xA000, 1)] })] }) = true := by
  and_intros <;> decide +kernel

theorem witness_VersionEvents_waits :
    ((air [flying .vldEq { atVer 6 with st := .waitVer, left := 1 }]).opAt 1 = some (flying .vldEq { atVer 6 with st := .waitVer, left := 1 }) ∧
      ({ atVer 6 with st := .waitVer, left := 1 } : Acc).overdue = true ∧
      (air [flying .vldEq { atVer 6 with st := .back, left := 9 }]).opAt 1 = some (flying .vldEq { atVer 6 with st := .back, left := 9 })) ∧
    (let f : MemOp := { id := 1, kind := .vfloor, region := 0, fn := 7, pendSl := [47] }
     (region [f] 5 {}).opAt 1 = some f ∧ f.pendSl.contains 47 = true ∧ (region [f] 5 {}).routed (dieOf f.core) (47 / 48) = true ∧ f.left.get (47 / 48) 0 ≠ 1 ∧
      ((region [f] 5 {}).regions.get 0 {}).armed = true ∧ ((region [f] 5 {}).regions.get 0 {}).floors.has 47 = true ∧
      (air [f]).opAt 1 = some f ∧ ((air [f]).regions.get 0 {}).armed = false) ∧
    (∀ r, (((arming r).die 0).launches.get 0 {}).rgns = r) ∧
    ((arming []).die 0).launches.has 0 = true ∧ (((arming []).die 0).launches.get 0 {}).phase = .arm ∧ (arming []).regionsOk 0 0 [] = true ∧
    ((arming [{ num := 1, ngran := 0 }]).die 0).launches.has 0 = true ∧ (arming [{ num := 1, ngran := 0 }]).regionsOk 0 0 [{ num := 1, ngran := 0 }] = false ∧
    (arming [{ num := 1, ngran := 0 }]).armHeld 0 0 { num := 1, ngran := 0 } = false ∧ ((2 ^ 16 * 4095 + 63) / 2 ^ 28 = 0 ∧ field (2 ^ 16 * 4095 + 63) 6 10 = 0) ∧ ((region [] 5 {}).regions.get (64 * field 0 16 12 + field 0 0 6) {}).armed = true := by
  refine ⟨?_, ?_, fun _ => rfl, ?_⟩ <;> decide +kernel

/-- The placed wave, whose only path waits. -/
def waiting (k : WaitWord) (left : Nat) (w : Wave → Wave := id) (g : Group → Group := id) (c : Core → Core := id) : State :=
  one w (fun p => { p with status := .wait k 1#32 left }) g c

theorem witness_WaitEvents :
    let mw := waiting .mwait 0
    let jn := waiting (.join [atPage]) 0
    let bj := { jn with poison := [(64, 0)] }
    let tg := waiting (.tagAll 1#64) 0 (c := fun c => { c with tags := 1#64 })
    let ta := waiting (.tagAny 0#64) 0
    let qp := waiting (.qpush 7 5#32 3) 0 (g := fun g => { g with queues := [(7, { init := true, logn := 1, allow := 2 })] })
    let qo := waiting (.qpop 7 false 127 3) 0 (g := fun g => { g with queues := [(7, { init := true, logn := 1, tail := 1 })] })
    let mn := waiting (.mon [atPage]) 0
    ((mw.waiterAt 0 0 0).map (·.word) = some .mwait ∧ (mw.wave 0).woken 1#32 ≠ 0) ∧
    ((jn.waiterAt 0 0 0).map (fun x => (x.word, x.pend)) = some (.join [atPage], 1#32) ∧ underDir atPage.leaf.toNat atPage.pa = false ∧
      jn.badRead 64 0 = false ∧ jn.watchRead 0 atPage.leaf.toNat atPage.pa = some 0) ∧
    ((bj.waiterAt 0 0 0).map (fun x => (x.word, x.pend, x.gid)) = some (.join [atPage], 1#32, 0) ∧ bj.badRead 64 (bj.group 0).ctx = true ∧
      (bj.group 0).phase = .running) ∧
    ((tg.waiterAt 0 0 0).map (·.word) = some (.tagAll 1#64) ∧ (1#64 : W64) &&& ~~~(tg.core 0).tags = 0 ∧ (ta.waiterAt 0 0 0).map (·.word) = some (.tagAny 0#64)) ∧
    ((qp.waiterAt 0 0 0).map (·.gid) = some 0 ∧ (((qp.wave 0).pathOf 0).map (·.status)) = some (.wait (.qpush 7 5#32 3) 1#32 0) ∧
      (qp.queueWaiters 0 true 7).all (3 ≤ ·) = true ∧ ((qp.group 0).queues.get 7 {}).room = true) ∧
    ((qo.waiterAt 0 0 0).map (·.gid) = some 0 ∧ (((qo.wave 0).pathOf 0).map (·.status)) = some (.wait (.qpop 7 false 127 3) 1#32 0) ∧
      (qo.queueWaiters 0 false 7).all (3 ≤ ·) = true ∧ ((qo.group 0).queues.get 7 {}).empty = false) ∧
    (((waiting (.spawn [{ key := 1 }]) 0).core 0).acOrder.get 0 0 ≤ ((waiting (.spawn [{ key := 1 }]) 0).wave 0).wix + 1 ∧
      (let late := waiting (.spawn [{ key := 1 }]) 0 (c := fun c => { c with acOrder := [(0, 2)] })
       (late.waiterAt 0 0 0).map (·.word) = some (.spawn [{ key := 1 }]) ∧ (late.wave 0).wix + 1 < (late.core 0).acOrder.get 0 0)) ∧
    (∀ k ∈ [WaitWord.spawn [{ key := 1 }], .stagePush 1 [{ key := 1 }], .amsg [{ key := 1 }]], ((waiting k 0).waiterAt 0 0 0).map (·.word) = some k) ∧
    ((mn.waiterAt 0 0 0).map (fun x => (x.word, x.pend)) = some (.mon [atPage], 1#32) ∧ atPage.pa < hostBase ∧ atPage.leaf ≠ 0 ∧
      mn.routed 0 (servingDie 0 atPage.leaf.toNat atPage.pa) = true) := by decide +kernel

theorem witness_WaitEvents_groups :
    let tw := waiting .mwait 1 (w := fun w => { w with mons := [(0, { armed := true })] })
    let hl := one (g := fun g => { g with phase := .halting })
    let en := withLaunch (one (g := fun g => { g with phase := .halted, trap := some { code := 4, redir := true } })) fun l => { l with hnd := [(260, 0x3000#64)] }
    let out := fun (ph : GPhase) => one (w := fun w => { w with exited := 1#32, paths := [] }) (g := fun g => { g with phase := ph })
    let jw := ((out .retiring).modGroup 0 fun g => { g with joins := [(0, 0x5000#64)] }).modDie 0 fun x => { x with ptw := [(0, (0, 5))] }
    ((tw.wave 0).gid = some 0 ∧ (tw.expiry 0 0).map (fun e => (e.1.lanes, e.2)) = some (1#32, .mwait, 1#32) ∧ (tw.die 0).dbg = false ∧
      (tw.wave 0).wix = 0 ∧ (tw.group 0).phase = .running) ∧
    ((hl.wave 0).gid = some 0 ∧ (hl.group 0).phase = .halting ∧ (hl.die 0).dbg = false) ∧
    ((en.die (dieOf (en.group 0).core)).dbg = false ∧ (en.group 0).phase = .halted ∧ (en.group 0).trap = some { code := 4, redir := true } ∧
      (en.wave (waveKey (en.group 0).core ((en.group 0).slots.getD 0 0))).live ≠ 0 ∧ en.handlerOf (en.group 0) 4 ≠ 0) ∧
    (∀ ph ∈ [GPhase.ending, .retiring], (out ph).groups.has 0 = true ∧ (out ph).flagsZero ((out ph).group 0) = true ∧ ((out ph).die (dieOf ((out ph).group 0).core)).dbg = false ∧
      ((out ph).group 0).phase = ph ∧ (out ph).opsOver 0 = true ∧ (out ph).joinsReady 0 = true ∧ ((out ph).group 0).joins = []) ∧
    (jw.groups.has 0 = true ∧ jw.flagsZero (jw.group 0) = true ∧ (jw.die (dieOf (jw.group 0).core)).dbg = false ∧ (jw.group 0).phase = .retiring ∧ jw.opsOver 0 = true ∧ jw.joinsReady 0 = false) := by
  decide +kernel

end Sys2Proof.Tests
end

