-- ==== Sys2Proof/Tests/WitnessEngine.lean ====
section
/-! SUPPORT. For the statement about engine and matrix events: concrete states and operands that meet the
hypotheses of each clause together. -/

set_option Elab.async false

namespace Sys2Proof.Tests

open Sys2Proof.Machine

/-- A descriptor from its first words. -/
def descW (d : List Nat) : List W32 := (List.range 14).map fun i => BitVec.ofNat 32 (d.getD i 0)

/-- Scratchpad to scratchpad, 4 bytes from 0 to 128. -/
def copyEntry : Entry := { seq := 1, desc := descW [0x12000, 1, 4, 0, 0, 0, 0, 128] }

/-- One element from the scratchpad into memory at 0, which is mapped for the engine. -/
def redEntry : Entry := { seq := 1, st := .running, desc := descW [0x2000, 1, 0] }

/-- The chains of core 0 of the placed group. -/
def engine (f : Core → Core) : State := one (c := f)

/-- Page 0 stands in an extent of the launch. -/
def engMapped (f : Core → Core) : State :=
  (engine f).modLaunch 0 0 fun l => { l with exts := [{ va := 0, len := 4096, w := true }], pages := (0, dataLeaf) :: l.pages }

/-- An engine's access reaches its place, which is none of those that have no ordinary memory behind them. -/
def spanOk : Span → Bool
  | .ok ps => ps.all fun q => leafCC q.2.1 != 3 && !(hostBase ≤ q.1 && q.1 < fabBase) && !isCtl q.1
  | _ => false

/-- Tree 0 of die 0 in service, with router 5 the child of router 4 and two ports. -/
def treed (v : Tree) : State :=
  { dies := [(0, { ctl := [(0x500000, 1#64), (0x500100 + 16 * 5, BitVec.ofNat 64 (2 ^ 63 + 2 ^ 61 + 4 * 2 ^ 48 + 2 ^ 47 + 6 * 2 ^ 40))], trees := [(0, v)] })] }

/-- A contribution on its way to router 5 from the north. -/
def flit5 : Flit := { router := 5, port := 0, vals := [] }

/-- A command of the collective engine for tree 0. -/
def treeEntry : Entry := { seq := 1, desc := descW [0, 1, 16] }

/-- Core 0 with that command, and tree 0 with the header `h`, in which cluster 0 takes part. -/
def treeCmd (h : Nat) : State :=
  (engine fun c => { c with coll := { entries := [treeEntry] } }).modDie 0 fun x =>
    { x with ctl := x.ctl ++ [(0x500000, BitVec.ofNat 64 h), (0x500100 + 16 * clusterRouter 0, BitVec.ofNat 64 (2 ^ 63 + 2 ^ 61))] }

/-- A unit of a root router 5, whose sums go to page 0. -/
def rootUnit : RUnit := { router := 5, vals := [(4, [])], dsts := [(4, { count := 1 })] }

/-- Tree 0 with that unit, over the mapped page. -/
def rooted : State :=
  (engMapped id).modDie 0 fun x =>
    { x with ctl := x.ctl ++ [(0x500000, 1#64), (0x500100 + 16 * 5, BitVec.ofNat 64 (2 ^ 63 + 2 ^ 62 + 2 ^ 61))], trees := [(0, { units := [rootUnit] })] }

/-- An MMA, a clear and a drain at the head of the matrix chain. -/
def chained (o : MxOp) : State := { commander [] with cores := (commander []).cores.upd 0 {} fun c => { c with mchain := [o] } }

theorem witness_EngineEvents :
    let q := engine fun c => { c with copy := { entries := [copyEntry] } }
    let r := engine fun c => { c with copy := { entries := [{ copyEntry with st := .running }] } }
    let r2 := engine fun c => { c with copy := { entries := [{ copyEntry with st := .running }, { copyEntry with seq := 2, st := .running }] } }
    let x := engMapped fun c => { c with coll := { entries := [redEntry] } }
    let g := engine fun c => { c with gath := { tail := 1, entries := [{ seq := 1, st := .landed, flag := 11, tag := 63 }] } }
    let f := fun (d : Bool) (l : List (Nat × Nat)) => engine fun c => { c with follows := [{ landed := true, dead := d }], doomed := l }
    ((q.die 0).dbg = false ∧ ((q.core 0).chain 0).entries.find? (fun e => e.st == .queued) = some copyEntry ∧ q.engBusy 0 0 < engPlaces 0 ∧
      ctlOrder copyEntry.desc = false ∧ q.engTurn 0 0 = true) ∧
    (∀ h ∈ [0, 1], (((treeCmd h).core 0).chain 2).entries.find? (fun e => e.st == .queued) = some treeEntry ∧ (treeCmd h).engBusy 0 2 < engPlaces 2 ∧
      (treeCmd h).engTurn 0 2 = true ∧ bitN (dw treeEntry.desc 2) 4 = true ∧ field (dw treeEntry.desc 2) 8 4 = 0 ∧
      ((treeCmd h).die 0).treeOn 0 = (h == 1) ∧ entLocal (((treeCmd h).die 0).treeEnt 0 (clusterRouter 0)) = true ∧
      entV (((treeCmd h).die 0).treeEnt 0 (clusterRouter 0)) = true) ∧
    ((r.die 0).dbg = false ∧ (r.core 0).copy.entries.find? (fun e => e.seq == 1) = some { copyEntry with st := .running } ∧ ctlSsp copyEntry.desc = 1 ∧
      ctlDsp copyEntry.desc = 1 ∧ r.beatTurn 0 0 1 = true ∧ (cpyPieces copyEntry.desc 0).isSome = true ∧ r.inService 0 = true ∧ copyEntry.orphan = false ∧ r.groups.has 0 = true) ∧
    ((x.die 0).dbg = false ∧ (x.core 0).coll.entries.find? (fun e => e.seq == 1) = some redEntry ∧ redEntry.done.has 0 = false ∧
      bitN (dw redEntry.desc 2) 4 = false ∧ 0 < dw redEntry.desc 1 ∧ x.beatTurn 0 2 1 = true ∧
      spanOk ((x.tookTurn 0 2 1).spanIn 0 redEntry (ctlSsp redEntry.desc) (dw redEntry.desc 5 + 4 * 0) 4 false) = true ∧
      ctlSsp redEntry.desc ≠ 0 ∧ spanOk ((x.tookTurn 0 2 1).span 0 0 0 (dw64 redEntry.desc 7 + 4 * 0) 4 true true) = true) ∧
    ((r2.core 0).copy.entries.find? (fun e => e.seq == 2) = some { copyEntry with seq := 2, st := .running } ∧ r2.beatTurn 0 0 2 = false) ∧
    ((g.core 0).gath.entries.find? (fun e => e.seq == 1) = some { seq := 1, st := .landed, flag := 11, tag := 63 } ∧ (g.core 0).gath.fin = [] ∧
      (g.core 0).gath.named = [] ∧ (g.core 0).gath.done + 1 = 1 ∧ dw64 ([] : List W32) 9 = 0 ∧ (g.wave 0).gid = some 0) ∧
    (((treed { flits := [flit5] }).die 0).treeOn 0 = true ∧ (treed { flits := [flit5] }).tree 0 0 = { flits := [flit5] } ∧
      ({ flits := [flit5] } : Tree).last.get 5 (0, 0) = (0, 0) ∧ (({ flits := [flit5] } : Tree).unitsOf 5).length = 0 ∧
      ∃ p ∈ entPorts (((treed { flits := [flit5] }).die 0).treeEnt 0 5), p ≠ flit5.port) ∧
    ((treed { units := [{ router := 5 }] }).tree 0 0 = { units := [{ router := 5 }] } ∧
      entRoot (((treed { units := [{ router := 5 }] }).die 0).treeEnt 0 5) = false) ∧
    ((rooted.tree 0 0).units = [rootUnit] ∧ entRoot ((rooted.die 0).treeEnt 0 5) = true ∧ 32 * rootUnit.pkt < rootUnit.first.count ∧
      spanOk ((rooted.modUnit 0 0 rootUnit fun x => { x with full := true, mark := true }).span 0 rootUnit.first.ctx rootUnit.first.lid
        (rootUnit.first.dst + 128 * rootUnit.pkt) 128 true false) = true) ∧
    ((15 : Nat) < 16 ∧ ((treed {}).die 0).treeOn 15 = false ∧ ((treed {}).die 0).treeOn 0 = true ∧ bitN 1 0 = true ∧ bitN 2 0 = false) ∧
    (∀ d ∈ [false, true], ∀ l ∈ [[], [(0, 0)]], ((f d l).core 0).follows = [{ landed := true, dead := d }] ∧
      ((f d l).core 0).followReady { landed := true, dead := d } = true ∧ ((f d l).die 0).dbg = false ∧ ((f d l).core 0).doomed = l) := by
  and_intros <;> decide +kernel

theorem witness_EngineEvents_matrix :
    let o : MxOp := { kind := .mma, acc := 3, oba := 0, obb := 1 }
    let m := fun (k : MxKind) (ran amx : Bool) => ({ o with kind := k, ran := ran, amx := amx } : MxOp)
    let amx := (engMapped fun c => { c with mchain := [m .drain true true] })
    ((chained o).cc.mchain = [o] ∧ (chained o).inService 0 = true ∧ ((chained o).die 0).dbg = false ∧ ((chained o).core 0).mxHeld o = false ∧
      ((chained o).core 0).accBad.contains 3 = false ∧ ((chained o).operand 0 0 0 0).isSome = true ∧ ((chained o).operand 0 0 1 0).isSome = true ∧
      (chained { o with obb := 2 }).operand 0 0 2 0 = none ∧ ((chained { o with obb := 2 }).core 0).mxHeld { o with obb := 2 } = false) ∧
    (∀ r ∈ [false, true], ∀ b ∈ [[], [3]], let c := (chained { o with started := true, rerun := r }).modCore 0 fun x => { x with accBad := b }
      (c.core 0).nextCheck = some { o with started := true, rerun := r } ∧ c.inService 0 = true ∧ (c.die 0).dbg = false ∧
      (c.core 0).accBad.contains 3 = !b.isEmpty) ∧
    (∀ e ∈ [m .mzero false false, m .drain false false, m .drain true false], (chained e).cc.mchain = [e] ∧ ((chained e).core 0).mxHeld e = false ∧ e.paged = none) ∧
    ((amx.core 0).mchain = [m .drain true true] ∧ (amx.core 0).mxHeld (m .drain true true) = false ∧ amx.inService 0 = true ∧ (amx.die 0).dbg = false ∧
      (m .drain true true).amxOp = 0 ∧ amx.amxCheck (m .drain true true) = .ok 0x2000 dataLeaf.toNat ∧ amx.badRead (0x2000 / 128) (amx.group 0).ctx = false) ∧
    ((chained { m .drain true true with amxOp := 7 }).cc.mchain = [{ m .drain true true with amxOp := 7 }] ∧
      ((chained { m .drain true true with amxOp := 7 }).core 0).mxHeld { m .drain true true with amxOp := 7 } = false ∧
      ({ m .drain true true with amxOp := 7 } : MxOp).paged = none) := by
  decide +kernel

end Sys2Proof.Tests
end

