-- ==== Sys2Proof/Tests/WitnessQueue.lean ====
section
/-! SUPPORT. For the statements about user queues: concrete states and operands that meet the hypotheses of each clause
together. -/

set_option Elab.async false

namespace Sys2Proof.Tests

open Sys2Proof.Machine

/-- Tables of context 0 at 0x10000 that map the first 1 GiB at itself, writable and for users. -/
def tables : List (Nat × Nat × Nat) :=
  [(0x10000, 8, 2 ^ 63 + 0x11 * 64), (0x11000, 8, 2 ^ 63 + 0x12 * 64), (0x12000, 8, 2 ^ 63 + 2 ^ 46 + 2 ^ 4 + 2 ^ 3)]

/-- A running die 0 with these registers, the record of context 0 valid, and these numbers in memory. -/
def sys (regs : List (Nat × Nat)) (ws : List (Nat × Nat × Nat)) (f : Die → Die := id) : State :=
  { dies := [(0, f ((regs ++ [(0x900000, 0x10001)]).foldl (fun (x : Die) (r : Nat × Nat) => x.setReg r.1 r.2) { br := 4 }))]
    mem := (tables ++ ws).foldl (fun m w => Mem.store m w.1 w.2.1 w.2.2) [] }

/-- Queue `q` with a ring of 64 slots at 0x20000, whose entry of `n` slots stands at slot `i`. -/
def ringed (q i n : Nat) (ws : List (Nat × Nat × Nat)) (f : Die → Die := id) : State :=
  sys [(0x200000 + 32 * q, 0x20001), (0x200008 + 32 * q, 6)] (ws.map fun w => (0x20000 + 64 * (i % 64) + w.1, w.2.1, w.2.2)) fun x =>
    f { x with uqs := [(q, { st := .resident, rdidx := i, wridx := i + n })] }

/-- A queue register alone, in a run state. -/
def queued (q : Nat) (u : UQueue) : State := sys [(0x200000 + 32 * q, 0x20001), (0x200008 + 32 * q, 6)] [] fun x => { x with uqs := [(q, u)] }

/-- The head of a ring as a test finds it. -/
def headOk (s : State) (d q kind h va n : Nat) : Bool :=
  s.entryHead d q == .ok h va n && field h 0 8 == kind && (s.die d).allDone q && !((s.die d).uq q).closing

theorem atHead_of {s : State} {d q kind h va n : Nat} (hh : headOk s d q kind h va n = true) : s.AtHead d q kind h va n := by
  simp only [headOk, Bool.and_eq_true, Bool.not_eq_true', beq_iff_eq] at hh
  exact ⟨hh.1.1.1, hh.1.1.2, hh.1.2, hh.2⟩

/-- A launch record: one wave, 96 registers, a group level and a lane level of one element each, the only member. -/
def record (kind : Nat) : List (Nat × Nat × Nat) :=
  [(0, 8, kind + 8 * 2 ^ 8 + 0xABCD * 2 ^ 16), (8, 8, 0x1000), (0x10, 4, 4), (0x14, 4, 0x01000601), (0x1C, 4, 0x100), (0x20, 4, 0x10000),
    (0x28, 4, 0x10210), (0x2C, 4, 0x10000)]

/-- A job card whose base record stands at 0x21000: one record of 16 bytes. -/
def card : List (Nat × Nat × Nat) :=
  [(0, 8, 2 + 2 * 2 ^ 8), (8, 8, 0x1000), (0x10, 8, 0x21000), (0x20, 4, 1), (0x24, 4, 1), (0x28, 4, 1)]

/-- A wait for the word at 0x22000 to equal `v`. -/
def waiter (v : Nat) : State := ringed 0 0 1 [(0, 8, 4 + 2 ^ 8 + 7 * 2 ^ 16), (8, 8, 0x22000), (0x10, 8, v), (0x18, 8, 2 ^ 64 - 1)]

/-- A signal that stores 5 at 0x22000 and sends vector 2047. -/
def signaller : State :=
  ringed 0 0 1 [(0, 8, 5 + 2 ^ 8), (8, 8, 0x22000), (0x10, 8, 5), (0x18, 8, 4 * 2 ^ 4 + 2 ^ 8 + 2047 * 2 ^ 16)]

/-- What a check of the scheduler finds, as the clauses ask for it. -/
def schedOk (s : State) (va : Nat) (k : Want) : Bool := s.schedChk 0 0 va k == .ok va (leafAt (2 ^ 63 + 2 ^ 46 + 2 ^ 4 + 2 ^ 3) 2 va)

theorem schedOk_eq {s : State} {va : Nat} {k : Want} (h : schedOk s va k = true) : ∃ leaf, s.schedChk 0 0 va k = .ok va leaf :=
  ⟨_, by simpa [schedOk] using h⟩

/-- The tables of a state map the first 1 GiB at itself. -/
structure Flat (s : State) : Prop where
  l4 : s.entryAt 0x10000 = 2 ^ 63 + 0x11 * 64
  l3 : s.entryAt 0x11000 = 2 ^ 63 + 0x12 * 64
  l2 : s.entryAt 0x12000 = 2 ^ 63 + 2 ^ 46 + 2 ^ 4 + 2 ^ 3
  ptw : (s.die 0).ptw = []
  migr : (s.die 0).migr = []
  root : (s.die 0).ctxReg 0 0 = 0x10001

theorem Flat.walk {s : State} (h : Flat s) {va : Nat} (hv : va < 2 ^ 30) :
    s.walk 0 0 va = .leaf (2 ^ 63 + 2 ^ 46 + 2 ^ 4 + 2 ^ 3 + 2 + va / 4096 * 64) := by
  have h48 : va / 2 ^ 48 % 64 = 0 := by omega
  have h39 : va / 2 ^ 39 % 512 = 0 := by omega
  have h30 : va / 2 ^ 30 % 512 = 0 := by omega
  have hb1 : nonLeafBad s 0 (2 ^ 63 + 0x11 * 64) = false := by simp [nonLeafBad, State.tableAt, leafPfn, field, State.populated, hostBase, isCtl]
  have hb2 : nonLeafBad s 0 (2 ^ 63 + 0x12 * 64) = false := by simp [nonLeafBad, State.tableAt, leafPfn, field, State.populated, hostBase, isCtl]
  have hp0 : physOf 0 (field 0x10001 9 41 * 512) = some 0x10000 := by decide
  have hp1 : physOf 0 (leafPfn (2 ^ 63 + 0x11 * 64) * 4096) = some 0x11000 := by decide
  have hp2 : physOf 0 (leafPfn (2 ^ 63 + 0x12 * 64) * 4096) = some 0x12000 := by decide
  have v1 : leafV (2 ^ 63 + 0x11 * 64) = true ∧ leafLeaf (2 ^ 63 + 0x11 * 64) = false := by decide
  have v2 : leafV (2 ^ 63 + 0x12 * 64) = true ∧ leafLeaf (2 ^ 63 + 0x12 * 64) = false := by decide
  have v3 : leafV (2 ^ 63 + 2 ^ 46 + 2 ^ 4 + 2 ^ 3) = true ∧ leafLeaf (2 ^ 63 + 2 ^ 46 + 2 ^ 4 + 2 ^ 3) = true ∧
    leafBad 0 2 (2 ^ 63 + 2 ^ 46 + 2 ^ 4 + 2 ^ 3) = false ∧ leafContig (2 ^ 63 + 2 ^ 46 + 2 ^ 4 + 2 ^ 3) = false ∧
    leafPfn (2 ^ 63 + 2 ^ 46 + 2 ^ 4 + 2 ^ 3) = 0 := by decide
  have ha : leafAt (2 ^ 63 + 2 ^ 46 + 2 ^ 4 + 2 ^ 3) 2 va = 2 ^ 63 + 2 ^ 46 + 2 ^ 4 + 2 ^ 3 + 2 + va / 4096 * 64 := by
    simp only [leafAt, v3.2.2.2.2]; omega
  have ht : s.tableAt 0 (field 0x10001 9 41 * 512) = true := by simp [State.tableAt, field, State.populated, hostBase, isCtl]
  have hcv : (s.die 0).ctxValid 0 = true := by simp [Die.ctxValid, h.root]; decide
  simp only [State.walk, h.ptw, hcv, h.root, ht, hp0, List.any_nil, State.walkFrom, h.migr, List.contains_nil, if_true, if_false, Bool.not_true, Bool.false_eq_true,
    show (12 + 9 * 4) = 48 from rfl, h48, Nat.mul_zero, Nat.add_zero, h.l4, v1.1, v1.2, hb1, hp1, show (4:Nat) - 1 = 3 from rfl, show (12 + 9 * 3) = 39 from rfl,
    show ((3:Nat) = 4) = False from by decide, h39, h.l3, v2.1, v2.2, hb2, hp2, show (3:Nat) - 1 = 2 from rfl, show (12 + 9 * 2) = 30 from rfl,
    show ((2:Nat) = 4) = False from by decide, h30, h.l2, v3.1, v3.2.1, v3.2.2.1, v3.2.2.2.1, ha, show ((4:Nat) = 0) = False from by decide,
    show ((3:Nat) = 0) = False from by decide, or_false]


theorem Flat.chk {s : State} (h : Flat s) {va : Nat} (hv : va < 2 ^ 30) :
    s.schedAt 0 0 va { size := 1 } = some (va, 2 ^ 63 + 2 ^ 46 + 2 ^ 4 + 2 ^ 3 + 2 + va / 4096 * 64) := by
  have e1 : leafFab (2 ^ 63 + 2 ^ 46 + 2 ^ 4 + 2 ^ 3 + 2 + va / 4096 * 64) = false := by
    simp only [leafFab, bitN, beq_eq_false_iff_ne, ne_eq]; omega
  have e2 : leafPfn (2 ^ 63 + 2 ^ 46 + 2 ^ 4 + 2 ^ 3 + 2 + va / 4096 * 64) = va / 4096 := by simp only [leafPfn, field]; omega
  have e3 : leafCC (2 ^ 63 + 2 ^ 46 + 2 ^ 4 + 2 ^ 3 + 2 + va / 4096 * 64) = 0 := by simp only [leafCC, field]; omega
  have e4 : leafVer (2 ^ 63 + 2 ^ 46 + 2 ^ 4 + 2 ^ 3 + 2 + va / 4096 * 64) = false := by
    simp only [leafVer, bitN, beq_eq_false_iff_ne, ne_eq]; omega
  have e5 : va / 4096 * 4096 + va % 4096 = va := by omega
  have e6 : physOf 0 va = some va := by
    have : field va 48 2 = 0 := by simp only [field]; omega
    have h2 : va % 2 ^ 48 = va := Nat.mod_eq_of_lt (by omega)
    simp only [physOf, this, h2, Nat.zero_mul, Nat.zero_add]
  have e7 : s.populated va = true := by
    have : ¬ hostBase ≤ va := by simp only [hostBase]; omega
    simp only [State.populated, this, if_false, Bool.or_eq_true, decide_eq_true_eq]; left; left; omega
  have e8 : ¬ 2 ^ 54 ≤ va := by omega
  have e9 : ¬ va % (({ size := 1 } : Want).size) ≠ 0 := by simp only [ne_eq, not_not]; omega
  have e10 : s.reaches 0 (2 ^ 63 + 2 ^ 46 + 2 ^ 4 + 2 ^ 3 + 2 + va / 4096 * 64) va = true := by
    have h0 : va / 2 ^ 48 = 0 := by omega
    have h1 : va < hostBase := by simp only [hostBase]; omega
    simp only [State.reaches, State.routed, h0, h1, beq_self_eq_true, Bool.true_or, Bool.and_true, Bool.or_true, decide_true]
  rw [State.schedAt, State.schedChk, if_neg e8, if_neg e9, h.walk hv]
  generalize 2 ^ 63 + 2 ^ 46 + 2 ^ 4 + 2 ^ 3 + 2 + va / 4096 * 64 = w at *
  simp [State.checkLeaf, State.ownFull, leafPhys, e1, e2, e3, e4, e5, e6, e7, e10]

theorem Flat.read {s : State} (h : Flat s) (hk : (s.die 0).keygen = []) :
    ∀ (n va : Nat), va + n ≤ 2 ^ 30 → s.schedRead 0 0 va n = s.agentRead va 0 n
  | 0, _, _ => rfl
  | n + 1, va, hv => by
    have e1 : leafKey (2 ^ 63 + 2 ^ 46 + 2 ^ 4 + 2 ^ 3 + 2 + va / 4096 * 64) = 0 := by simp only [leafKey, field]; omega
    have e2 : s.keyId va 0 = 0 := by
      have : ¬ hostBase ≤ va := by simp only [hostBase]; omega
      simp only [State.keyId, this, if_false, show va / 2 ^ 48 = 0 from by omega, hk]; rfl
    simp only [State.schedRead, State.agentRead, h.chk (by omega : va < 2 ^ 30), e1, e2, h.read hk n (va + 1) (by omega)]

/-- The number that a list of stores makes. -/
def asNat (ws : List (Nat × Nat × Nat)) : Nat := (ws.map fun (w : Nat × Nat × Nat) => w.2.2 * 2 ^ (8 * w.1)).sum

/-- A record of a launch or pipeline at slot 56 of queue 5. -/
def record56 (ws : List (Nat × Nat × Nat)) : State := ringed 5 56 8 ws

theorem flat_record56 (k : Nat) (hk : k ∈ [1, 3]) : Flat (record56 (record k)) := by
  simp only [List.mem_cons, List.mem_nil_iff, or_false] at hk
  rcases hk with rfl | rfl <;> constructor <;> decide +kernel

/-- A wait-on-word that can be performed and finds 0. -/
def waits (s : State) (v : Nat) : Bool :=
  headOk s 0 0 4 (4 + 2 ^ 8 + 7 * 2 ^ 16) 0x20000 1 && schedOk s 0x22000 { size := 8 } && !s.badRead (0x22000 / 128) 0 &&
  !s.lineBusy (0x22000 / 128) && s.anyRead 0x22000 (s.keyId 0x22000 0) 8 == 0 &&
  waitOf (fun o k => s.schedRead 0 0 (0x20000 + o) k) 7 == some { tag := 7, va := 0x22000, value := BitVec.ofNat 64 v, mask := BitVec.allOnes 64 }

/-- A queue that has been pending for 1 ms. -/
def aged : UQueue := { st := .pending, boost := 2, pendFor := ageTicks }

theorem witness_QueueEvents :
    (((queued 1023 { st := .idle, rdidx := 1, wridx := 2 }).die 0).br = 4 ∧ ((queued 1023 { st := .idle, rdidx := 1, wridx := 2 }).die 0).qEn 1023 = true ∧
      ((queued 1023 { st := .idle, rdidx := 1, wridx := 2 }).die 0).qLogn 1023 = 6) ∧
    (((sys [(0x200008 + 32 * 1023, 20)] []).die 0).br = 4 ∧ ((sys [(0x200008 + 32 * 1023, 20)] []).die 0).qEn 1023 = false ∧
      ((sys [(0x200008 + 32 * 1023, 20)] []).die 0).qLogn 1023 = 20) ∧
    ((((queued 0 { st := .pending, boost := 2 }).die 0).uqs.filter fun e => e.2.st == .resident).length < 32 ∧
      (∃ e ∈ ((queued 0 { st := .pending, boost := 2 }).die 0).uqs, e.2.st = .pending) ∧
        ((queued 0 { st := .pending, boost := 2 }).die 0).qEn 0 = true ∧ (((queued 0 { st := .pending, boost := 2 }).die 0).uq 0).fault = none) ∧
    (((queued 0 aged).die 0).uq 0 = aged ∧ ageTicks ≤ aged.pendFor ∧ ((queued 0 aged).die 0).qPrio 0 + aged.boost < 3) ∧
    (((queued 0 { st := .resident }).die 0).uq 0 = { st := .resident } ∧ ({ st := .resident } : UQueue).isIdle = true ∧
      ((queued 0 { st := .resident }).die 0).cstate.get (((queued 0 { st := .resident }).die 0).qCtx 0) 0 = 0 ∧
      ((sys [] [] fun x => { x with cstate := [(0, 1)] }).die 0).cstate.get (((sys [] [] fun x => { x with cstate := [(0, 1)] }).die 0).qCtx 0) 0 = 1) ∧
    headOk (ringed 1023 48 16 [(0, 8, 0x0F + 16 * 2 ^ 8)]) 0 1023 0x0F (0x0F + 16 * 2 ^ 8) (0x20000 + 64 * 48) 16 = true ∧
    ((((queued 1023 { st := .idle }).die 0).uq 1023).fault = none ∧ (((queued 1023 { st := .idle }).die 0).uq 1023).wleft = 0 ∧
      (((queued 1023 { st := .resident, wleft := 5 }).die 0).uq 1023).wleft ≠ 0 ∧ ((queued 1023 { st := .resident, wleft := 5 }).die 0).qEn 1023 = true) := by
  and_intros <;> decide +kernel

/-- The ring with the card, and its base record. -/
def cardRing : State := ringed 0 0 2 (card ++ (record 0).map fun (w : Nat × Nat × Nat) => (0x1000 + w.1, w.2.1, w.2.2))

theorem flat_cardRing : Flat cardRing := by constructor <;> decide +kernel

/-! A launch and a pipeline whose records pass the first phase, a launch with no context slots whose record fails it, and a card. -/

theorem witness_QueueEvents_launch :
    headOk (record56 (record 1)) 0 5 1 (1 + 8 * 2 ^ 8 + 0xABCD * 2 ^ 16) 0x20E00 8 = true ∧ ((record56 (record 1)).die 0).meshDown = false ∧
    (record56 (record 1)).schedRead 0 0 0x20E00 512 = asNat (record 1) ∧
    (record56 (record 1)).recordBad 0 0 (fun o k => field (asNat (record 1)) (8 * o) (8 * k)) .launch = none ∧
    ((record56 (record 1)).die 0).freeLid 0 = some 0 := by
  refine ⟨?_, ?_, ((flat_record56 1 ?_).read ?_ _ _ ?_).trans ?_, ?_, ?_⟩ <;> decide +kernel

theorem witness_QueueEvents_pipeline :
    headOk (record56 (record 3)) 0 5 3 (3 + 8 * 2 ^ 8 + 0xABCD * 2 ^ 16) 0x20E00 8 = true ∧
    (record56 (record 3)).schedRead 0 0 0x20E00 512 = asNat (record 3) ∧
    (record56 (record 3)).recordBad 0 0 (fun o k => field (asNat (record 3)) (8 * o) (8 * k)) .pipeline = none := by
  refine ⟨?_, ((flat_record56 3 ?_).read ?_ _ _ ?_).trans ?_, ?_⟩ <;> decide +kernel

/-- A record of zeros but for its header fails the first phase, whichever kind. -/
theorem witness_QueueEvents_refused :
    headOk (record56 [(0, 8, 1 + 8 * 2 ^ 8)]) 0 5 1 (1 + 8 * 2 ^ 8) 0x20E00 8 = true ∧
    (record56 [(0, 8, 1 + 8 * 2 ^ 8)]).schedRead 0 0 0x20E00 512 = 1 + 8 * 2 ^ 8 ∧
    ∀ k ∈ [LKind.launch, LKind.pipeline],
      (record56 [(0, 8, 1 + 8 * 2 ^ 8)]).recordBad 0 0 (fun o n => field (1 + 8 * 2 ^ 8) (8 * o) (8 * n)) k = some (1, 0x10) := by
  have h : Flat (record56 [(0, 8, 1 + 8 * 2 ^ 8)]) := by constructor <;> decide +kernel
  refine ⟨?_, (h.read ?_ _ _ ?_).trans ?_, ?_⟩ <;> decide +kernel

theorem witness_QueueEvents_card :
    headOk cardRing 0 0 2 (2 + 2 * 2 ^ 8) 0x20000 2 = true ∧ (cardRing.die 0).meshDown = false ∧ ((cardRing.die 0).launches.filter fun e => e.2.kind == .card && !e.2.finished).length < 256 ∧
    cardRing.schedRead 0 0 0x20000 128 = asNat card ∧ cardRing.schedRead 0 0 0x21000 512 = asNat (record 0) ∧
    cardBad (fun o k => field (asNat card) (8 * o) (8 * k)) = [] ∧ field (asNat card) (8 * 0x10) 64 = 0x21000 ∧
    cardRing.baseObst 0 0 0x21000 = none ∧ cardRing.depaBusy 0 0 (field (asNat card) (8 * 0x30) 64) = false ∧ cardRing.recordBad 0 0 (fun o k => field (asNat (record 0)) (8 * o) (8 * k)) .card = none ∧
    (cardRing.die 0).freeLid 0 = some 0 := by
  refine ⟨?_, ?_, ?_, (flat_cardRing.read ?_ _ _ ?_).trans ?_, (flat_cardRing.read ?_ _ _ ?_).trans ?_, ?_, ?_, ?_, ?_, ?_, ?_⟩ <;> decide +kernel

/-- The ring with the card over a base record of zeros, which fails the first phase. -/
def badCard : State := ringed 0 0 2 card

theorem flat_badCard : Flat badCard := by constructor <;> decide +kernel

theorem witness_QueueEvents_badCard :
    headOk badCard 0 0 2 (2 + 2 * 2 ^ 8) 0x20000 2 = true ∧ (badCard.die 0).meshDown = false ∧ (badCard.die 0).launches = [] ∧
    badCard.schedRead 0 0 0x20000 128 = asNat card ∧ badCard.schedRead 0 0 0x21000 512 = 0 ∧ badCard.baseObst 0 0 0x21000 = none ∧
    badCard.recordBad 0 0 (fun o k => field 0 (8 * o) (8 * k)) .card ≠ none := by
  refine ⟨?_, ?_, ?_, (flat_badCard.read ?_ _ _ ?_).trans ?_, (flat_badCard.read ?_ _ _ ?_).trans ?_, ?_, ?_⟩ <;> decide +kernel

/-- A wait that holds and one that does not, a signal, and waits that a queue stands at. -/
theorem witness_QueueEvents_words :
    let again := queued 0 { st := .resident, waitE := some { hit := true, va := 0x22000 } }
    (waits (waiter 0) 0 = true ∧ waits (waiter 1) 1 = true ∧ ({ waiter 0 with poison := [(0x22000 / 128, 0)] }.badRead (0x22000 / 128) 0) = true) ∧
    (headOk signaller 0 0 5 (5 + 2 ^ 8) 0x20000 1 = true ∧ schedOk signaller 0x22000 { size := 8, write := true } = true ∧
      signaller.schedRead 0 0 0x20008 8 = 0x22000 ∧ signaller.schedRead 0 0 0x20018 8 = 4 * 2 ^ 4 + 2 ^ 8 + 2047 * 2 ^ 16 ∧
      signaller.schedRead 0 0 0x20020 8 = 0 ∧ signaller.lineBusy (0x22000 / 128) = false ∧ signaller.badRead (0x22000 / 128) 0 = false) ∧
    (((queued 0 { st := .idle, waitE := some { hit := true } }).die 0).uq 0 = { st := .idle, waitE := some { hit := true } } ∧
      (again.die 0).uq 0 = { st := .resident, waitE := some { hit := true, va := 0x22000 } } ∧ schedOk again 0x22000 { size := 8 } = true ∧
      again.lineBusy (0x22000 / 128) = false ∧ again.badRead (0x22000 / 128) 0 = false ∧
      { again with poison := [(0x22000 / 128, 0)] }.badRead (0x22000 / 128) 0 = true ∧
      ((queued 0 { waitE := some { left := 1 } }).die 0).uq 0 = { waitE := some { left := 1 } }) := by
  refine ⟨⟨?_, ?_⟩, ?_, ?_⟩ <;> decide +kernel

end Sys2Proof.Tests
end

