-- ==== Sys2Proof/Tests/WitnessControl.lean ====
section
/-! SUPPORT. For the statements about the commands of the control region, launches and plates: concrete states and operands
that meet the hypotheses of each clause together. -/

set_option Elab.async false

namespace Sys2Proof.Tests

open Sys2Proof.Machine

/-- A die that runs, with no context. -/
def plain (f : Die → Die := id) : State := { dies := [(0, f { br := 4 })] }

/-- An access of context 0 on its way to the first page. -/
def toPage0 : MemOp := { accs := [{ leaf := 1 }] }

/-- A launch whose code pins page 0. -/
def pinner : Launch := { codelen := 4, pages := [(0, 1)] }

/-- The root table of context 0 is under migration. -/
def migrating (f : Die → Die := id) : State := sys [] [] fun x => f { x with migr := [0x10] }

/-- A path of the placed wave that waits for page 3. -/
def parked : State := one (p := fun p => { p with status := .parked 0x3004 false })

/-- The record of that fault. -/
def faulty : Frec := { id := 7, ctx := 0, page := 3, written := true }

/-- Page 1 of the placed launch, mapped as the tables of context 0 map it. -/
def walked (core page : Nat) : Bool :=
  (sys [] []).walk (dieOf core) 0 (page * 4096) == .leaf (2 ^ 63 + 2 ^ 46 + 2 ^ 4 + 2 ^ 3 + 2 + page * 64)

/-- A sub-group whose walk has waited its limit. -/
def overdue : State := one (p := fun p => { p with status := .walk 0x3000 0 })

/-- The parked sub-group with its record. -/
def asked : State := parked.modDie 0 fun x => { x with faults := [faulty], launches := [] }

/-- Context 0 is valid on dies 0 and 3. -/
def both : State := { sys [] [] with dies := (sys [] []).dies ++ [(3, ({ br := 4 } : Die).setReg 0x900000 0x10001)] }

theorem witness_ControlEvents :
    (((sys [] []).die 0).pcmd = none ∧ (sys [] []).classRefused 0 64 = some 2 ∧ (sys [] []).classRefused 0 3 = none ∧
      ({ sys [] [] with ops := [toPage0] }).classRefused 0 3 = none ∧
      ({ sys [] [] with ops := [toPage0] }.goingTo fun pa => ((sys [] []).classRange 0).1 ≤ pa && pa < ((sys [] []).classRange 0).1 + ((sys [] []).classRange 0).2) = true ∧
      ((sys [] [] fun x => { x with pcmd := some 3 }).die 0).pcmd ≠ none ∧ ((sys [] []).die 0).br = 4 ∧
      (sys [] []).loc 0 ((sys [] []).die 0).classPage.2 ((sys [] []).die 0).classPage.1 ≠ .wait ∧ 64 / 64 ≠ 0 ∧
      (migrating.loc 0 (migrating.die 0).classPage.2 (migrating.die 0).classPage.1 = .wait ∧ (migrating.die 0).pcmd = none ∧ 3 / 64 = 0)) ∧
    ((plain.die 0).icmd = none ∧ field ((plain.die 0).reg 0xB00100) 54 10 = 0 ∧ plain.pinned 0 0 0 (2 ^ 32 - 1) = false ∧
      (plain.die 0).invRange (2 ^ 32 - 1) = (0, 0, 2 ^ 32 - 1) ∧ (plain.die 0).invRange 0 = (0, 0, 2 ^ 42) ∧
      (plain fun x => { x with launches := [(0, pinner)] }).pinned 0 0 0 1 = true ∧
      field ((plain fun x => x.setReg 0xB00100 (2 ^ 54)).die 0 |>.reg 0xB00100) 54 10 ≠ 0 ∧ ((plain fun x => { x with icmd := some 0 }).die 0).icmd ≠ none) ∧
    ((sys [] []).grantRes 0 0 0x30000 1 (3 * 2 ^ 16 + 1) = 0 ∧ (sys [] []).grantRes 0 0 0x30000 0 (3 * 2 ^ 16) = 4 ∧
      (sys [] []).grantWaits 0 0 (3 * 2 ^ 16 + 1) = false ∧ migrating.grantWaits 0 0 (3 * 2 ^ 16 + 1) = true ∧ ((sys [] []).die 0).hpend.has 0 = false) ∧
    (∀ n ∈ [1, 2 ^ 20], (plain.die 0).br = 4 ∧ (plain.die 0).pzero = none ∧ ((plain.die 0).reg 0xA00100) / 2 ^ 50 = 0 ∧ field ((plain.die 0).reg 0xA00100) 9 3 = 0 ∧
      plain.localRange 0 (0 * 2 ^ 48 + field ((plain.die 0).reg 0xA00100) 12 38 * 4096) (4096 * n) = true ∧
      ((plain fun x => { x with pzero := some (0, n - 1, n) }).die 0).pzero = some (0, n - 1, n) ∧ (plain fun x => { x with pzero := some (0, n - 1, n) }).Inv ∧
      (plain fun x => { x with pzero := some (0, n - 1, n) }).localRange 0 (0 * 2 ^ 48 + field 0 12 38 * 4096) (4096 * n) = true) ∧
    ¬ 2 ^ 20 + 1 ≤ 2 ^ 20 ∧
    (keyBad 4096 = true ∧ keyBad 0xDFF = false ∧ (plain.die 0).kcmd = none ∧ ((plain fun x => { x with kcmd := some (511, 3) }).die 0).kcmd = some (511, 3)) ∧
    ((both.die 0).br = 4 ∧ (both.die 0).ctxValid 0 = true ∧ bitN 0 0 = false ∧ (both.die 0).cstate.get 0 0 = 0 ∧ both.groupsOf 0 0 = [] ∧
      (both.die 0).ctxQueues 0 = [] ∧ (both.die 3).ctxValid 0 = true) ∧
    ((plain.die 0).ctxValid 4095 = false ∧ bitN 1 0 = true) := by
  unfold State.Inv
  and_intros <;> decide +kernel

theorem witness_ControlEvents_walks :
    (walked 63 (2 ^ 18 - 1) = true ∧ ({ sys [] [] with cores := [(63, { ctx := some 0 })] }.core 63).ctx = some 0 ∧
      (sys [] [] fun x => { x with ptw := [(0, (0, 3))] }).walk 0 0 (3 * 4096) = .wait ∧ (sys [] []).walk 0 0 (2 ^ 18 * 4096) ≠ .wait ∧
      overdue.waves.has 0 = true) ∧
    ((overdue.wave 0).saved = none ∧ ((overdue.wave 0).paths.find? fun p => p.lanes.getLsbD 0).map (·.status) = some (.walk 0x3000 0) ∧
      (overdue.wave 0).gid = some 0 ∧ (overdue.group 0).phase = .running ∧ (overdue.die 0).dbg = false) ∧
    ({ status := .walk 0x3000 0 } : Path).status = .walk 0x3000 0 := by decide +kernel

/-- The region-disarm command on an armed region whose pages no table holds back, and on one whose root table is under migration. -/
theorem witness_VersionEvents_disarm :
    let r : State → State := fun s => { s with regions := [(0, { base := 0, ngran := 128, armed := true })] }
    ((r (sys [] [])).regions.get 0 {}).armed = true ∧ ((sys [] []).die 0).dpend = none ∧ (r (sys [] [])).regionHeld 0 0 = false ∧
    (r migrating).regionHeld 0 0 = true ∧ (migrating.die 0).dpend = none ∧ (migrating.die 0).br = 4 := by decide +kernel

theorem witness_ControlEvents_answers :
    ((plain.die 0).faults.find? (fun g => g.id == 7 && g.written) = none ∧ (asked.die 0).faults.find? (fun g => g.id == 7 && g.written) = some faulty) ∧
    ((asked.parkedOn 0 0 3).length = 1 ∧ (∃ g ∈ asked.groupsOf 0 0, 0 ∈ g.2.keys) ∧ ∀ g ∈ asked.groupsOf 0 0, 0 ∈ g.2.keys → g.2.phase = .running) := by
  decide +kernel

/-- A die with one launch, whose tables also permit execution. -/
def launched (l : Launch) (ws : List (Nat × Nat × Nat) := []) : State :=
  sys [] ((0x12000, 8, 2 ^ 63 + 2 ^ 46 + 2 ^ 5 + 2 ^ 4 + 2 ^ 3) :: ws) fun x => { x with launches := [(0, l)] }

/-- One group of one wave at 0x1000. -/
def single : Launch := { entry := 0x1000, codelen := 4, levels := [{ dom := 2, scope := 1 }, {}] }

/-- A card that has dealt its one record. -/
def dealt (deca : W64) : Launch := { kind := .card, phase := .ready, cready := true, nrec := 1, dealt := 1, deca := deca }

/-- A federated barrier of this package, homed on a die, that needs `n`. -/
def fedWord (h n : Nat) : Nat := 1 + 2 ^ 9 * h + 2 ^ 11 * (Config.package % 512) + 2 ^ 32 * n
/-- A die with that barrier as its first. -/
def fed (h n : Nat) : State := plain fun x => x.setReg 0x700000 (fedWord h n)

theorem fed_reg (h n : Nat) : ((fed h n).die 0).fedReg 0 0 = fedWord h n % 2 ^ 64 := rfl

/-- Home here and on each other die; the last arrival when `n` is 1, one that is not the last when it is more. -/
theorem witness_LaunchEvents_fed (d n : Nat) (hd : d < 4) (hn : n < 2 ^ 32) :
    ((fed d n).die 0).fedMisuse 0 0 1 = false ∧ field (((fed d n).die 0).fedReg 0 0) 11 9 = Config.package % 512 ∧
    field (((fed d n).die 0).fedReg 0 0) 9 2 = d ∧ field (((fed d n).die 0).fedReg 0 0) 32 32 = n ∧ ((fed d n).die 0).fedCount.get 0 0 + 1 = 1 ∧
    ((fed d n).die 0).fedReg 0 8 = 0 ∧ (fed d n).populated 0 = true ∧ isCtl 0 = false := by
  have h : Config.package % 512 < 512 := Nat.mod_lt _ (by decide)
  have hp : (fed d n).populated 0 = true := by simp [State.populated, hostBase]
  refine ⟨?_, ?_, ?_, ?_, rfl, rfl, hp, by decide⟩
  · have h1 : bitN (fedWord d n % 2 ^ 64) 0 = true := by simp only [bitN, fedWord, beq_iff_eq]; omega
    have h2 : field (fedWord d n % 2 ^ 64) 20 12 = 0 := by simp only [field, fedWord]; omega
    simp only [Die.fedMisuse, fed_reg, h1, h2]; rfl
  all_goals simp only [fed_reg, fedWord, field]; omega

/-- What a launch meets in its second phase: pages that are missing, a check that is broken, or walks that wait. -/
def second (s : State) (l : Launch) (parks : Bool) (bad : Option (Nat × Nat)) (waits : Bool := false) : Bool :=
  (s.die 0).launches == [(0, l)] && decide (s.needsWith 0 l .park ≠ []) == parks && s.needsBad 0 l (fun _ => false) == bad &&
  decide (s.needsWith 0 l .wait ≠ []) == waits && !s.stageWaits 0 l

/-- What its tables then say is good. -/
def tablesGood (s : State) (l : Launch) : Bool :=
  !(s.readSpawn 0 l).2 && decide (l.regs * 128 * l.waves + l.spres * ((s.readSpawn 0 l).1.foldl (fun m e => max m e.regs) 0) * 128 ≤ 524288) &&
  (s.readHandlers 0 l).isEmpty && (s.readStages 0 l).2 == none

/-- A launch that asks for more registers than a core has. -/
def greedy : Launch := { single with regs := 4097 }

/-- A card whose counter at 0x22000 reads zero. -/
def waitCard : Launch := { single with kind := .card, depa := 0x22000 }

theorem witness_LaunchEvents :
    second (plain fun x => { x with launches := [(0, single)] }) single true none = true ∧
    second (sys [] [] fun x => { x with launches := [(0, single)] }) single false (some (5, 8)) = true ∧
    (second (launched single) single false none = true ∧ tablesGood (launched single) single = true) ∧
    second ((launched single).modDie 0 fun x => { x with ptw := [(0, (0, 1))] }) single false none true = true ∧
    (second (launched greedy) greedy false none = true ∧ ¬ greedy.regs * 128 * greedy.waves ≤ 524288) ∧
    (second (launched waitCard) waitCard false none = true ∧ tablesGood (launched waitCard) waitCard = true ∧
      (launched waitCard).depaZero 0 0 0x22000 = true ∧ (launched waitCard).depaBusy 0 0 0x22000 = false) ∧
    (∀ l ∈ [{ single with phase := .ready, next := 1 }, { single with kind := .pipeline, phase := .ready }], l.kind ≠ .card ∧ l.phase = .ready ∧
      l.fedAnn = false ∧ (launched l).runOver 0 0 l = true ∧ (l.kind = .launch → l.groups ≤ l.next)) ∧
    ((launched { kind := .card, phase := .arm, depPa := some 0x22000 }).lineBusy (0x22000 / 128) = false ∧
      (launched { kind := .card, phase := .arm, depPa := some 0x22000 }).agentRead 0x22000 ((launched { kind := .card, phase := .arm, depPa := some 0x22000 }).ownKey 0x22000) 4 = 0) := by
  and_intros <;> decide +kernel

/-- A card that has ended and one that has not, whose counter at 0x22000 reads `v`. -/
theorem witness_LaunchEvents_cards :
    ((launched { dealt 0 with finished := true }).runOver 0 0 { dealt 0 with finished := true } = true) ∧
    ((launched (dealt 0)).cardOver 0 0 (dealt 0) = true ∧ (dealt 0).faults = [] ∧ (launched (dealt 0)).runOver 0 0 (dealt 0) = true ∧
      (launched { dealt 0 with threads := 1 }).runOver 0 0 { dealt 0 with threads := 1 } = false ∧
      (launched { dealt 0 with threads := 1 }).cardOver 0 0 { dealt 0 with threads := 1 } = true) ∧
    ∀ v ∈ [0, 1],
      let s := launched (dealt 0x22000) [(0x22000, 4, v)]
      s.cardOver 0 0 (dealt 0x22000) = true ∧
      s.schedChk 0 0 0x22000 { size := 4, write := true, atom := some 0 } = .ok 0x22000 (leafAt (2 ^ 63 + 2 ^ 46 + 2 ^ 5 + 2 ^ 4 + 2 ^ 3) 2 0x22000) ∧
      s.lineBusy (0x22000 / 128) = false ∧ s.badRead (0x22000 / 128) 0 = false ∧ isCtl 0x22000 = false ∧ s.agentRead 0x22000 0 4 = v := by
  refine ⟨?_, ?_, ?_⟩ <;> decide +kernel

end Sys2Proof.Tests
end

