-- ==== Sys2Proof/Tests/WitnessSched.lean ====
section
/-! SUPPORT. For the statements about the scheduler and about plates, slices and bring-up: concrete states and operands that
meet the hypotheses of each clause together. -/

set_option Elab.async false

namespace Sys2Proof.Tests

open Sys2Proof.Machine

theorem some_of {α : Type} {o : Option α} (h : o.isSome = true) : ∃ u, o = some u := Option.isSome_iff_exists.mp h

/-- Core 0 belongs to context 0, and its die has a launch. -/
def cored (l : Launch) (c : Core) : State := { launched l with cores := [(0, { c with ctx := some 0 })] }

/-- A pipeline with one record in the ring of its only stage. -/
def piped : Launch := { single with kind := .pipeline, phase := .ready, stages := [{ tail := 1, maxc := 64, high := 1, left := 0 }] }

/-- One thread that waits for its core. -/
def bin (closed : Bool) : Bin := { threads := [{}], closed := closed, left := 0 }

/-- A launch that is ready to dispatch, on a die whose core 0 is its context's. -/
def ready : State := cored { single with phase := .ready } {}

/-- The same after 64 decisions at which class 4 could have been served. -/
def starved : State := ready.modDie 0 fun x => { x with starve := [(3, 64)] }

/-- A core full of waves that wait in MWAIT, a closed bin, and 2 MiB to evict into. -/
def stuck : State :=
  (((one (p := fun p => { p with status := .wait .mwait 1#32 0 }) (g := fun g => { g with slots := List.range 64 })
    (c := fun c => { c with bins := [bin true] })).modDie 0 fun x =>
      (x.setReg 0x900020 0x100000).setReg 0x900028 512).modDie 0 fun x => { x with stall := [(0, 1001)] })

/-- The same group with a reservation, and with a memory word of its own in flight. -/
def holding (n : Nat) : State := (stuck.modGroup 0 fun g => { g with resv := [(0, {})] }).modDie 0 fun x => { x with stall := [(0, n)] }
/-- It has to be saved later. -/
def busyOne : State := { stuck with ops := [{ id := 1, kind := .load, accs := [{}] }] }

/-- A die whose message unit holds a message for a die. -/
def posted (t : Nat) : State := { dies := [(0, { msgs := [{ msg := true, tdie := t }] })], groups := [(0, {})] }

/-- A context of die 0 in a state, with a deadline. -/
def ctxIn (st left : Nat) : State := plain fun x => { x with cstate := [(4095, st)], cleft := [(4095, left)] }

theorem witness_SchedulerEvents :
    ((plain.freeSlots 0 64).length = 64 ∧ (BitVec.allOnes 32 : Lanes) ≠ 0 ∧ (plain.freeSlots 0 1).length = 1 ∧
      plain.beginsAcquired { kind := .spawned, core := 255 } = true) ∧
    (∃ u, (ready.choose.2.classes 0 ready.choose.1).getD 3 none = some u) ∧ (∃ u, (starved.choose.2.classes 0 starved.choose.1).getD 3 none = some u) ∧
    ((∀ j, j < 3 → (ready.choose.2.classes 0 ready.choose.1).getD j none = none) ∧ (∀ j, j < 4 → (ready.die 0).starve.get j 0 < 64)) ∧
    ((∀ j, j < 3 → (starved.choose.2.classes 0 starved.choose.1).getD j none = none) ∧ 64 ≤ (starved.die 0).starve.get 3 0) ∧
    (∀ j, j < 4 → (plain.choose.2.classes 0 plain.choose.1).getD j none = none) ∧
    (((launched { single with phase := .ready }).core 63).ctx ≠ some 0 ∧ (launched { single with phase := .ready }).wantsCore 0 0 = true ∧
      (launched { single with phase := .ready }).groupsOn 63 = [] ∧ ((launched { single with phase := .ready }).core 63).idle = true ∧
      (launched { single with phase := .ready }).inService 63 = true ∧ ((launched { single with phase := .ready }).core 63).bins = []) ∧
    ((∃ m, ((posted 3).die 0).msgs = [m] ∧ m.tdie = 3) ∧ ((posted 3).die 3).msgs.length + (posted 3).msgsTo 3 < 256 ∧
      256 ≤ (((posted 3).modDie 3 fun x => { x with msgs := List.replicate 256 {} }).die 3).msgs.length) ∧
    ((posted 0).msgCore 0 { msg := true } = some 0 ∧ ∃ b, ((posted 0).core 0).huddle { msg := true } [] = some b) ∧
    ((((cored piped {}).modDie 0 fun x => { x with govLeft := 0 }).die 0).govLeft = 0 ∧ (((cored piped {}).die 0).launches.get 0 {}).stages.length = 1) ∧
    (((cored piped {}).die 0).serves ((cored piped {}).classes 0 0) = some 2 ∧ ∃ u, (cored piped {}).takeStage 0 0 0 1 = some u) ∧
    (((cored piped { bins := [bin false] }).core 0).bins[0]? = some (bin false) ∧ ((cored piped { bins := [bin true] }).core 0).bins[0]? = some (bin true) ∧
      (cored piped { bins := [bin true] }).placing 0 0 = true ∧ (cored piped { bins := [bin true] }).restoring 0 0 = false ∧
      (cored piped { bins := [bin true] }).fitsThreads 0 0 {} = true) ∧
    (∀ st ∈ [0, 1, 2], ((ctxIn st 1).die 0).cstate.get 4095 0 = st ∧ ((ctxIn st 1).die 0).cleft.get 4095 0 = 1) := by
  refine ⟨?_, some_of ?_, some_of ?_, ?_, ?_, ?_, ?_, ⟨⟨_, rfl, rfl⟩, ?_⟩, ⟨?_, some_of ?_⟩, ?_, ⟨?_, some_of ?_⟩, ?_, ?_⟩ <;> decide +kernel

/-- A deadlocked context with a group that can be evicted now, one that has to wait for its memory word, and none that can be. -/
theorem witness_SchedulerEvents_deadlock :
    (1000 < (stuck.die 0).stall.get 0 0 ∧ stuck.placing 0 0 = true ∧ stuck.deadlocked 0 0 = true ∧ (stuck.evictee 0 0).map (·.1) = some 0 ∧
      stuck.evictUsed 0 0 + (stuck.group 0).imageSize ≤ (stuck.evictArea 0 0).2 ∧ (stuck.evictGroup 0 0).isSome = true) ∧
    (busyOne.placing 0 0 = true ∧ busyOne.deadlocked 0 0 = true ∧ (busyOne.evictee 0 0).map (·.1) = some 0 ∧
      busyOne.evictUsed 0 0 + (busyOne.group 0).imageSize ≤ (busyOne.evictArea 0 0).2 ∧ busyOne.evictGroup 0 0 = none) ∧
    (∀ n ∈ [1001, 1002], 1000 < ((holding n).die 0).stall.get 0 0 ∧ (holding n).placing 0 0 = true ∧ (holding n).deadlocked 0 0 = true ∧
      (holding n).evictee 0 0 = none) ∧
    (let again := stuck.modDie 0 fun x => { x with stall := [(0, 1003)] }
     1000 < (again.die 0).stall.get 0 0 ∧ again.placing 0 0 = true ∧ again.oldestWaits 0 0 = true ∧ (again.evictee 0 0).map (·.1) = some 0 ∧
      (again.evictGroup 0 0).isSome = true) := by decide +kernel

end Sys2Proof.Tests
end

