-- ==== Sys2Proof/Tests/WitnessBoard.lean ====
section
/-! SUPPORT. For the statements about plates, links, ports, the host and the side band, and about the step: concrete states and
operands that meet the hypotheses of each clause together. -/

set_option Elab.async false

namespace Sys2Proof.Tests

open Sys2Proof.Machine

/-- Die 3 alone, changed. -/
def die3 (x : Die) : State := { dies := [(3, x)] }

/-- A reply that has waited too long at the port of plate 15. -/
def blocked : State := { die3 { br := 4 } with ops := [{ core := 240, kind := .load, accs := [{ st := .perf, port := 2000, flit := 1 }] }] }

theorem witness_PlateEvents :
    ((die3 { br := 4 }).canLose 15 = true ∧ blocked.canLose 15 = true ∧ (blocked.die 3).dbg = false ∧ blocked.portStuck 15 = true) ∧
    (((die3 { plates := [(15, 2)] }).die 3).plates.get 15 0 = 2 ∧ ∀ c ∈ plateCores 15, ((die3 { plates := [(15, 2)] }).core c).drained = true) ∧
    (25 ≤ ((die3 {}).die 3).liveSlices.length ∧ ((die3 {}).die 3).slices.get 47 0 = 0) ∧
    (((die3 { slices := (List.range 24).map fun i => (i, 2) }).die 3).liveSlices.length < 25 ∧
      ((die3 { slices := (List.range 24).map fun i => (i, 2) }).die 3).slices.get 47 0 = 0) ∧
    (((die3 { moving := [(1023, true)] }).holdsReads 3 = false ∧ ((die3 { moving := [(1023, true)] }).die 3).moving.get 1023 false = true) ∧ ∀ a, a < 1023 → ((die3 { moving := [(1023, true)] }).die 3).moving.get a false = false) ∧
    ((∀ b, b < 1024 → ((die3 { slices := [(47, 1)] }).die 3).moving.get b false = false) ∧ ((die3 { slices := [(47, 1)] }).holdsReads 3 = false ∧
      (die3 { slices := [(47, 1)], buckets := (List.range 21).map fun i => (48 * i + 47, 0) }).holdsReads 3 = false) ∧ ((die3 { slices := [(47, 1)] }).die 3).slices.get 47 0 = 1 ∧
      (∀ m, m < 47 → ((die3 { slices := [(47, 1)] }).die 3).slices.get m 0 ≠ 1) ∧
      ((die3 { slices := [(47, 1)] }).die 3).bucketsOf 47 ≠ [] ∧
      ((die3 { slices := [(47, 1)], buckets := (List.range 21).map fun i => (48 * i + 47, 0) }).die 3).bucketsOf 47 = []) ∧
    ((die3 { br := 4 }).die 3).br = 4 ∧
    (∀ b ∈ [0, 1, 2, 3], ((die3 { br := b, secver := 5 }).die 3).br = b ∧ ((die3 { br := b, secver := 5 }).die 3).secver ≤ 5 ∧ ((die3 { br := b, secver := 5 }).die 3).mxthr < 7 ∧
      ((die3 { br := b, secver := 5 }).die 3).acmhz = 3300) := by
  have h : ∀ a, a < 1023 → FMap.get [(1023, true)] a false = false := fun a ha => by
    simp only [FMap.get]
    split <;> first | rfl | omega
  refine ⟨?_, ?_, ?_, ?_, ⟨?_, h⟩, ⟨fun _ _ => rfl, ?_⟩, ?_⟩ <;> decide +kernel

/-- The link of dies 0 and 3 in a state, with time left to retrain. -/
def linked (st : LinkSt) (left : Nat := 0) : State := { dies := [(0, { br := 4, links := [(3, { st := st, sent := [(3, 1)], left := left })] })] }

/-- An access at a place of die 3 whose reply is overdue. -/
def overdueAcc : Acc := { pa := 3 * 2 ^ 48 + 0x2000, leaf := dataLeaf, cross := 1 }
/-- The operation of the placed wave with that access. -/
def far : MemOp := flying .load overdueAcc
/-- Its access of host memory. -/
def hosted : Acc := { pa := hostBase + 0x2000, leaf := dataLeaf }

/-- An operation without accesses: a fence with its read of length zero, or a VFLOOR of which one die's reply is overdue. -/
def bare (z : Nat) : MemOp := { id := 1, kind := .vfloor, zread := z, left := [(0, 1)] }

/-- A packet between dies that no route has carried in time. -/
def airborne : State := { die3 {} with pkts := [{ id := 7, left := 1 }] }

/-- An optical port in a state. -/
def porter (x : Port) : State := { dies := [(0, { ports := [(31, x)] })] }

/-- The first 1 GiB of die 0, versioned, as the tables of context 0 on die 3 map it. -/
def farTables : List (Nat × Nat) := [(0x10000, 2 ^ 63 + 0x11 * 64), (0x11000, 2 ^ 63 + 0x12 * 64), (0x12000, 2 ^ 63 + 2 ^ 60 + 2 ^ 46 + 2 ^ 42 + 2 ^ 4 + 2 ^ 3)]

/-- Die 0 up, and a region over the page at 0x2000 that is armed for context 0 of die 3. -/
def regioned : State :=
  { dies := [(0, { br := 4 }), (3, ({ br := 4 } : Die).setReg 0x900000 0x10001)]
    regions := [(0, { base := 0x2000, ngran := 128, armed := true })]
    mem := farTables.foldl (fun m w => Mem.store m (3 * 2 ^ 48 + w.1) 8 w.2) [] }

theorem witness_LinkEvents :
    ((linked .up).routed 3 0 = true ∧ ((linked .up).link 3 0).recv.get 3 0 + 1 ≤ ((linked .up).link 3 0).sent.get 3 0 ∧ ((linked .up).link 3 0).st = .up) ∧
    (((linked .retraining).link 0 3).st = .retraining ∧ ((linked .retraining).link 0 3).left = 0 ∧
      ((linked .retraining 1).link 0 3).st = .retraining ∧ ((linked .retraining 1).link 0 3).left ≠ 0 ∧ ((linked .retraining).link 0 1).st = .up ∧
      ((linked .retraining).link 1 3).st = .up) ∧
    ((air [far]).opAt 1 = some far ∧ overdueAcc.late = true ∧ far.awaits overdueAcc = true) ∧
    ((airborne.opAt 7 = none) ∧ (airborne.pkts.find? fun p => p.id == 7 && p.left == 1) = some { id := 7, left := 1 }) ∧
    (∀ z ∈ [0, 1, 2], (air [bare z]).opAt 1 = some (bare z) ∧ (bare z).accs = [] ∧ (bare z).halted = false ∧ (bare z).zread = z) ∧
    ((air [bare 2]).owedBefore (bare 2) = false ∧ (bare 0).left.find? (fun e => e.2 == 1) = some (0, 1)) ∧
    ((air [flying .load hosted]).opAt 1 = some (flying .load hosted) ∧ isHost hosted.pa = true ∧ (air [flying .load hosted]).accReady (flying .load hosted) hosted = true ∧
      ∃ u v, (air [flying .load hosted]).loadAt 0 0 hosted.leaf.toNat hosted.pa 4 0 true = .ok u v) ∧
    (((die3 {}).die 3).br ≠ 4 ∧ (die3 { br := 4 }).barOk 3 0x3000000000 1 = false ∧ ((die3 { br := 4 }).die 3).br = 4) ∧
    ((die3 { br := 4 }).slotHeld 3 ((die3 { br := 4 }).hostSlot 3) = false ∧ regioned.barOk 0 0x2000 4 = true ∧ regioned.versionedAt 0x2000 = true ∧
      regioned.slotHeld 0 (regioned.hostSlot 0) = false ∧ ∀ l ∈ linesOf 0x2000 4, regioned.lineBusy l = false) ∧
    (∀ n ∈ [1, 4, 8], (die3 { br := 4 }).barOk 3 (0x3000000000 - n) n = true ∧ (0x3000000000 - n) % n = 0 ∧
      (∀ l ∈ linesOf (3 * 2 ^ 48 + (0x3000000000 - n)) n, (die3 { br := 4 }).lineBusy l = false) ∧
      (die3 { br := 4 }).hostPoison (3 * 2 ^ 48 + (0x3000000000 - n)) ((die3 { br := 4 }).hostKey 3) n = false ∧ (die3 { br := 4 }).versionedAt (3 * 2 ^ 48 + (0x3000000000 - n)) = false ∧
      (die3 { br := 4 }).versionedAt (3 * 2 ^ 48 + (0x3000000000 - n) + n - 1) = false) ∧
    (((porter { idleLeft := 0, locked := 255, active := 255 }).port 31).queued = 0 ∧
      field ((porter { idleLeft := 0, locked := 255, active := 255 }).portReg 31) 12 4 < popByte ((porter { idleLeft := 0, locked := 255, active := 255 }).port 31).locked) ∧
    (((porter { queued := 9 }).port 31).locked ≠ 0xFF ∧ ((porter { queued := 9 }).port 31).relock = 0 ∧
      field ((porter { queued := 9 }).portReg 31) 16 8 < ((porter { queued := 9 }).port 31).queued) ∧
    (((porter { relock := 1 }).port 31).locked ≠ 0xFF ∧ ((porter { relock := 1 }).port 31).relock = 1) ∧
    (∀ q ∈ [0, 9], ((porter { queued := q }).port 31).queued = q ∧
      ∃ j, j < 8 ∧ j ≠ 7 ∧ ((porter { queued := q }).port 31).active.getLsbD j = true ∧ ((porter { queued := q }).port 31).failing.getLsbD j = false) := by
  refine ⟨?_, ?_, ?_, ?_, ?_, ?_, ⟨?_, ?_, ?_, reply_ok ?_⟩, ?_, ?_, ?_, ?_, ?_, ?_, ?_⟩ <;> decide +kernel

theorem witness_SideBandEvents :
    ((die3 {}).sideBusy = true ∧ (die3 { br := 4, sbWait := true }).sideBusy = true ∧ (die3 { br := 4 }).sideBusy = false ∧
      (die3 { br := 5, crash := some 1 }).sideBusy = false ∧ (die3 { br := 4, dbg := true }).sideBusy = false) ∧
    (∀ p ∈ [0, 1, 2, 3, 4], ∀ q < 16, ({ plates := [(15, p)] } : Die).plates.get q 0 ≤ 4) ∧
    ((die3 { br := 4, stail := 9, ctl := [(0x300200, 1#64)] }).sideBusy = false ∧
      field (((die3 { br := 4, stail := 9, ctl := [(0x300200, 1#64)] }).die 3).reg 0x300200) 0 5 = 1 ∧
      ((die3 { br := 4, stail := 9, ctl := [(0x300200, 1#64)] }).die 3).stail.toNat - 7 ≤ 2 ^ 1 ∧
      7 < ((die3 { br := 4, stail := 9, ctl := [(0x300200, 1#64)] }).die 3).stail.toNat) ∧
    (((die3 { br := 5, crash := some 1 }).die 3).crash = some 1 ∧ ((die3 { br := 5 }).die 3).crash = none ∧ ((die3 { br := 5, crash := some 1 }).die 3).br ≠ 0) ∧
    (((die3 { br := 4, dbg := true }).die 3).dbg = true ∧ ((die3 { br := 4 }).die 3).dbg = false) ∧
    ((die3 { br := 4, accepted := true }).die 3).accepted = true := by
  and_intros <;> decide +kernel

/-- A word placed at reset, with one die and one core, to be issued. -/
def issuing (w : Nat) : State := State.reset.placeWord w

/-- The same with its path outside a clause, at the placed word. -/
def outside : State := (issuing 0x00181840).modWave 0 fun w => { w with paths := w.paths.map fun p => { p with clause := none } }

/-- The state in which core 0 issues, once the move is taken from the agenda. -/
def selected (s : State) : Option State :=
  match s.oldest 0 (s.pipeSlots 0 0) with
  | none => none
  | some slot => (choosePath ((s.wave (waveKey 0 slot)).paths.filter fun q => s.pathReady 0 slot q) 0).map (s.select 0 slot)

/-- The word that the state issues next. -/
def nextIs (s : State) (w : Nat) : Bool :=
  match (selected s).map State.nextWord with
  | some (.word v, _) => v == w
  | _ => false

/-- A path whose place in a clause is not yet known. -/
def lost : State := (issuing 0).modWave 0 fun w => { w with paths := w.paths.map fun p => { p with clause := none, seek := true } }

theorem witness_StepRunsDecoded :
    (∀ w ∈ [0x00181840, 0x9C0000E0], (issuing w).agenda = [.issue 0 0 0] ∧ ((issuing w).core 0).f64Busy.get 0 0 = 0 ∧
      nextIs { issuing w with agenda := [] } w = true ∧ ∀ p ∈ ((issuing w).wave 0).paths, p.seek = false) ∧
    ((selected { lost with agenda := [] }).isSome = true ∧ (lost.wave 0).paths.all (·.seek) = true ∧ lost.agenda = [.issue 0 0 0]) ∧
    decodeNat 0x00181840 = some (.iadd 6 ⟨.vec, 3⟩ ⟨.vec, 4⟩) ∧ decodeNat 0x9C0000E0 = none ∧
    ({ issuing 0 with groups := [], waves := [], agenda := [] } : State).oldest 0 [] = none ∧
    (nextIs { outside with agenda := [] } 0x00181840 = true ∧ (outside.core 0).icache.get 0x1000 [] = [] ∧
      outside.codeLeaf 0 outside.cg 0x1000 = .leaf placedLeaf.toNat ∧ leafPhys 0 placedLeaf.toNat 0x1000 = some 0x1000 ∧ leafX placedLeaf.toNat = true ∧
      leafU placedLeaf.toNat = true ∧ outside.populated 0x1000 = true ∧ isCtl 0x1000 = false ∧ outside.badRead (0x1000 / 128) 0 = false ∧ ¬ (leafCC placedLeaf.toNat = 2 ∧ (outside.core 0).l1.has (0x1000 / 128) = true)) ∧
    ({ here with agenda := [.event (.dispatchDecision 0)] } : State).agenda = [.event (.dispatchDecision 0)] ∧ encodeNat (.dispatchDecision 0) = none ∧
    State.reset.agenda = [] := by
  refine ⟨?_, ?_, ?_, ?_, ?_, ?_, rfl, rfl, rfl⟩ <;> decide +kernel

theorem witness_StepsKeepInv : here.Inv ∧ (sys [] []).Inv := by
  unfold State.Inv
  decide +kernel

theorem witness_EncodeDecode :
    (Instr.clause 0 11 15 7 7).wf = true ∧ encodeNat (.clause 0 11 15 7 7) = some 0xFC002FFF ∧ decodeNat 0xFC002FFF = some (.clause 0 11 15 7 7) := by
  decide +kernel

end Sys2Proof.Tests
end

section
/-! SUPPORT. The reset state (R2, R432, R437, R439): what its accessors give, and the statement about it. -/

namespace Sys2Proof.Machine

@[simp] theorem State.reset_die (d : Nat) : State.reset.die d = {} := rfl
@[simp] theorem State.reset_core (c : Nat) : State.reset.core c = {} := rfl
@[simp] theorem State.reset_mem : State.reset.mem = [] := rfl

@[simp] theorem Mem.get_nil (a : Nat) : Mem.get [] a = 0 := rfl
@[simp] theorem Memory.wf_nil : Memory.wf [] = true := rfl

/-- The optical ports' registers are the highest ones that reset to a value other than zero (R427). -/
theorem ctlReset_eq_zero {off : Nat} (h : 0x820000 ≤ off) : ctlReset off = 0 := by
  have h1 : off ≠ 0x208000 := by omega
  have h2 : ¬ (0x400000 ≤ off ∧ off < 0x410000 ∧ off % 16 = 0) := by omega
  have h3 : off ≠ 0x701000 := by omega
  have h4 : ¬ (0x800000 ≤ off ∧ off < 0x820000 ∧ off % 65536 < 1024 ∧ off % 64 = 0) := by omega
  rw [ctlReset, if_neg h1, if_neg h2, if_neg h3, if_neg h4]

/-- The context records stand above every register that resets to another value, so each reads as zero until it is written
(R432). -/
theorem Die.ctxReg_of_ctl_nil {x : Die} (h : x.ctl = []) (ctx off : Nat) : x.ctxReg ctx off = 0 := by
  have hz : ctlReset (0x900000 + 128 * ctx + off) = 0 := ctlReset_eq_zero (by omega)
  simp [Die.ctxReg, Die.reg, h, hz]

theorem Die.ctxValid_of_ctl_nil {x : Die} (h : x.ctl = []) (ctx : Nat) : x.ctxValid ctx = false := by
  rw [Die.ctxValid, Die.ctxReg_of_ctl_nil h]
  rfl

theorem State.reset_ctxValid (d ctx : Nat) : (State.reset.die d).ctxValid ctx = false :=
  Die.ctxValid_of_ctl_nil rfl ctx

/-- An empty memory is in canonical form (log 3). -/
theorem State.inv_of_mem_nil {s : State} (h : s.mem = []) : s.Inv := by
  rw [State.Inv, h, Memory.wf_nil]

theorem State.reset_get_mem (a : Nat) : Mem.get State.reset.mem a = 0 := by
  rw [State.reset_mem, Mem.get_nil]

/-- Settles O57: the package's own parts are empty by the definition of reset; what needs an argument is that memory is in
canonical form and that no context record is valid. -/
theorem invAtReset : Obligations.InvAtReset := by
  refine ⟨State.inv_of_mem_nil State.reset_mem, State.reset_mem, rfl, rfl, rfl, rfl, fun n => ?_⟩
  have hbr : (State.reset.die n).br = 0 := by rw [State.reset_die]
  have hlaunches : (State.reset.die n).launches = [] := by rw [State.reset_die]
  exact ⟨hbr, hlaunches, fun ctx _ => State.reset_ctxValid n ctx, State.reset_core n, State.reset_get_mem⟩

end Sys2Proof.Machine
end

