-- ==== Sys2Proof/Proofs/Encoding.lean ====
section
/-! SUPPORT. The encoding (R25 to R27, R29, R36 to R42): the fields of a word one by one, then for each format that a word is
read back as it was written, and that what was read is written as the same word. -/

set_option Elab.async false

namespace Sys2Proof.Machine

open Sys2Proof.Laws

/-! A field of an enumerated type is read from its code, and its code is the number that it was read from. -/

theorem kindOf_code (n : Nat) : (kindOf n).code = n % 4 := by
  rcases (by omega : n % 4 = 0 ∨ n % 4 = 1 ∨ n % 4 = 2 ∨ n % 4 = 3) with h | h | h | h <;> simp [kindOf, h, Kind.code]
theorem ordOf_code (n : Nat) : (ordOf n).code = n % 4 := by
  rcases (by omega : n % 4 = 0 ∨ n % 4 = 1 ∨ n % 4 = 2 ∨ n % 4 = 3) with h | h | h | h <;> simp [ordOf, h, Ord.code]
theorem hintOf_code (n : Nat) : (hintOf n).code = n % 4 := by
  rcases (by omega : n % 4 = 0 ∨ n % 4 = 1 ∨ n % 4 = 2 ∨ n % 4 = 3) with h | h | h | h <;> simp [hintOf, h, Hint.code]
theorem ftyOf_code (n : Nat) : (ftyOf n).code = n % 4 := by
  rcases (by omega : n % 4 = 0 ∨ n % 4 = 1 ∨ n % 4 = 2 ∨ n % 4 = 3) with h | h | h | h <;> simp [ftyOf, h, FTy.code]
theorem rmOf_code (n : Nat) : (Sys2Proof.rmOf n).code = n % 4 := by
  rcases (by omega : n % 4 = 0 ∨ n % 4 = 1 ∨ n % 4 = 2 ∨ n % 4 = 3) with h | h | h | h <;> simp [Sys2Proof.rmOf, h, Rm.code]
theorem scopeOf_code (n : Nat) : (scopeOf n).code = n % 8 := by
  rcases (by omega : n % 8 = 0 ∨ n % 8 = 1 ∨ n % 8 = 2 ∨ n % 8 = 3 ∨ n % 8 = 4 ∨ n % 8 = 5 ∨ n % 8 = 6 ∨ n % 8 = 7) with
    h | h | h | h | h | h | h | h <;> simp [scopeOf, h, Scope.code]
theorem boolOf_code (n : Nat) : boolCode (boolOf n) = n % 2 := by
  rcases (by omega : n % 2 = 0 ∨ n % 2 = 1) with h | h <;> simp [boolOf, boolCode, h]

theorem kindOf_eq {n : Nat} {k : Kind} (h : n % 4 = k.code) : kindOf n = k := by cases k <;> simp [kindOf, h, Kind.code]
theorem ordOf_eq {n : Nat} {r : Ord} (h : n % 4 = r.code) : ordOf n = r := by cases r <;> simp [ordOf, h, Ord.code]
theorem hintOf_eq {n : Nat} {x : Hint} (h : n % 4 = x.code) : hintOf n = x := by cases x <;> simp [hintOf, h, Hint.code]
theorem ftyOf_eq {n : Nat} {t : FTy} (h : n % 4 = t.code) : ftyOf n = t := by cases t <;> simp [ftyOf, h, FTy.code]
theorem rmOf_eq {n : Nat} {r : Rm} (h : n % 4 = r.code) : Sys2Proof.rmOf n = r := by cases r <;> simp [Sys2Proof.rmOf, h, Rm.code]
theorem scopeOf_eq {n : Nat} {x : Scope} (h : n % 8 = x.code) : scopeOf n = x := by cases x <;> simp [scopeOf, h, Scope.code]
theorem boolOf_eq {n : Nat} {b : Bool} (h : n % 2 = boolCode b) : boolOf n = b := by cases b <;> simp [boolOf, h, boolCode]
theorem bits_eq {k n : Nat} {x : BitVec k} (h : n % 2 ^ k = x.toNat) : BitVec.ofNat k n = x :=
  BitVec.eq_of_toNat_eq (by rw [BitVec.toNat_ofNat, h])
theorem srcOf_eq {n t : Nat} {a : Src} (hn : n % 128 = a.name.toNat) (ht : t % 4 = a.kind.code) : srcOf n t = a := by
  rw [srcOf, kindOf_eq ht, bits_eq hn]

/-! The classes whose instructions a second field tells apart (R40, R41). -/

theorem decodeNat_4E {w : Nat} (h : w / 33554432 = 78) : decodeNat w = decode4E w := by rw [decodeNat, h]; rfl
theorem decodeNat_4F {w : Nat} (h : w / 33554432 = 79) : decodeNat w = decode4F w := by rw [decodeNat, h]; rfl
theorem decodeNat_50 {w : Nat} (h : w / 33554432 = 80) : decodeNat w = decode50 w := by rw [decodeNat, h]; rfl
theorem decodeNat_51 {w : Nat} (h : w / 33554432 = 81) : decodeNat w = decode51 w := by rw [decodeNat, h]; rfl
theorem decodeNat_52 {w : Nat} (h : w / 33554432 = 82) : decodeNat w = decode52 w := by rw [decodeNat, h]; rfl
theorem decodeNat_53 {w : Nat} (h : w / 33554432 = 83) : decodeNat w = decode53 w := by rw [decodeNat, h]; rfl
theorem decodeNat_54 {w : Nat} (h : w / 33554432 = 84) : decodeNat w = decode54 w := by rw [decodeNat, h]; rfl
theorem decodeNat_55 {w : Nat} (h : w / 33554432 = 85) : decodeNat w = decode55 w := by rw [decodeNat, h]; rfl
theorem decodeNat_64 {w : Nat} (h : w / 33554432 = 100) : decodeNat w = decode64 w := by rw [decodeNat, h]; rfl
theorem decodeNat_65 {w : Nat} (h : w / 33554432 = 101) : decodeNat w = decode65 w := by rw [decodeNat, h]; rfl

/-! What a decoded word is encoded as, by format: the word itself. -/

theorem word_src2 {w m B : Nat} (hB : B = 33554432 * m) (hm : w / 33554432 = m) :
    B + (BitVec.ofNat 7 (w / 262144)).toNat * 262144 + (srcOf (w / 2048) (w / 1)).name.toNat * 2048 + (srcOf (w / 2048) (w / 1)).kind.code * 1 +
      (srcOf (w / 16) (w / 4)).name.toNat * 16 + (srcOf (w / 16) (w / 4)).kind.code * 4 = w := by
  simp only [srcOf, BitVec.toNat_ofNat, kindOf_code]
  omega

theorem word_src1 {w m f B : Nat} (hB : B = 33554432 * m + 16 * f) (hm : w / 33554432 = m) (hf : w / 16 % 128 = f) (h0 : w / 4 % 4 = 0) :
    B + (BitVec.ofNat 7 (w / 262144)).toNat * 262144 + (srcOf (w / 2048) (w / 1)).name.toNat * 2048 + (srcOf (w / 2048) (w / 1)).kind.code * 1 = w := by
  simp only [srcOf, BitVec.toNat_ofNat, kindOf_code]
  omega

theorem word_src1_fty {w m f B : Nat} (hB : B = 33554432 * m + 16 * f) (hm : w / 33554432 = m) (hf : w / 16 % 128 = f) :
    B + (BitVec.ofNat 7 (w / 262144)).toNat * 262144 + (srcOf (w / 2048) (w / 1)).name.toNat * 2048 + (srcOf (w / 2048) (w / 1)).kind.code * 1 +
      (ftyOf (w / 4)).code * 4 = w := by
  simp only [srcOf, BitVec.toNat_ofNat, kindOf_code, ftyOf_code]
  omega

theorem word_src1_rm {w m f B : Nat} (hB : B = 33554432 * m + 16 * f) (hm : w / 33554432 = m) (hf : w / 16 % 128 = f) :
    B + (BitVec.ofNat 7 (w / 262144)).toNat * 262144 + (srcOf (w / 2048) (w / 1)).name.toNat * 2048 + (srcOf (w / 2048) (w / 1)).kind.code * 1 +
      (Sys2Proof.rmOf (w / 4)).code * 4 = w := by
  simp only [srcOf, BitVec.toNat_ofNat, kindOf_code, rmOf_code]
  omega

theorem word_regs {w m f B : Nat} (hB : B = 33554432 * m + 16 * f) (hm : w / 33554432 = m) (hf : w / 16 % 128 = f) (h0 : w / 1 % 16 = 0) :
    B + (BitVec.ofNat 7 (w / 262144)).toNat * 262144 + (BitVec.ofNat 7 (w / 2048)).toNat * 2048 = w := by
  simp only [BitVec.toNat_ofNat]
  omega

theorem word_regs_bool {w m f B : Nat} (hB : B = 33554432 * m + 16 * f) (hm : w / 33554432 = m) (hf : w / 16 % 128 = f)
    (h0 : w / 1 % 4 = 0 ∧ w / 8 % 2 = 0) :
    B + (BitVec.ofNat 7 (w / 262144)).toNat * 262144 + (BitVec.ofNat 7 (w / 2048)).toNat * 2048 + boolCode (boolOf (w / 4)) * 4 = w := by
  simp only [BitVec.toNat_ofNat, boolOf_code]
  omega

theorem word_mem {w m B : Nat} (hB : B = 33554432 * m) (hm : w / 33554432 = m) :
    B + (BitVec.ofNat 7 (w / 262144)).toNat * 262144 + (BitVec.ofNat 7 (w / 2048)).toNat * 2048 + (BitVec.ofNat 4 (w / 128)).toNat * 128 +
      (ordOf (w / 32)).code * 32 + (scopeOf (w / 4)).code * 4 + (hintOf (w / 1)).code * 1 = w := by
  simp only [BitVec.toNat_ofNat, ordOf_code, scopeOf_code, hintOf_code]
  omega

theorem word_atom {w m f B : Nat} (hB : B = 33554432 * m + 128 * f) (hm : w / 33554432 = m) (hf : w / 128 % 16 = f) :
    B + (BitVec.ofNat 7 (w / 262144)).toNat * 262144 + (BitVec.ofNat 7 (w / 2048)).toNat * 2048 +
      (ordOf (w / 32)).code * 32 + (scopeOf (w / 4)).code * 4 + (hintOf (w / 1)).code * 1 = w := by
  simp only [BitVec.toNat_ofNat, ordOf_code, scopeOf_code, hintOf_code]
  omega

theorem word_imm {w m B : Nat} (hB : B = 33554432 * m) (hm : w / 33554432 = m) :
    B + (BitVec.ofNat 7 (w / 262144)).toNat * 262144 + (BitVec.ofNat 18 (w / 1)).toNat * 1 = w := by
  simp only [BitVec.toNat_ofNat]
  omega

theorem word_fence {w f : Nat} (hm : w / 33554432 = 84) (hf : w / 16 % 128 = f) (h8 : f / 8 = 8) (h0 : w / 1 % 4 = 0 ∧ w / 2048 % 16384 = 0) :
    0xA8000400 + (scopeOf (w / 16)).code * 16 + (ordOf (w / 4)).code * 4 = w := by
  simp only [ordOf_code, scopeOf_code]
  omega

theorem word_fencex {w f : Nat} (hm : w / 33554432 = 84) (hf : w / 16 % 128 = f) (h8 : f / 8 = 9)
    (h0 : w / 1 % 16 = 0 ∧ w / 65536 % 4 = 0 ∧ w / 8388608 % 4 = 0) :
    0xA8000480 + (BitVec.ofNat 5 (w / 262144)).toNat * 262144 + (BitVec.ofNat 5 (w / 2048)).toNat * 2048 + (scopeOf (w / 16)).code * 16 = w := by
  simp only [BitVec.toNat_ofNat, scopeOf_code]
  omega

theorem word_engine {w f B : Nat} (hB : B = 33554432 * 84 + 16 * f + 1) (hm : w / 33554432 = 84) (hf : w / 16 % 128 = f)
    (h0 : w / 1 % 2 = 1 ∧ w / 4 % 4 = 0) :
    B + (BitVec.ofNat 7 (w / 262144)).toNat * 262144 + (BitVec.ofNat 7 (w / 2048)).toNat * 2048 + boolCode (boolOf (w / 2)) * 2 = w := by
  simp only [BitVec.toNat_ofNat, boolOf_code]
  omega

theorem word_drain {w f B : Nat} (hB : B = 33554432 * 83 + 16 * f + 1) (hm : w / 33554432 = 83) (hf : w / 16 % 128 = f) (h0 : w / 1 % 4 = 1) :
    B + (BitVec.ofNat 7 (w / 262144)).toNat * 262144 + (BitVec.ofNat 7 (w / 2048)).toNat * 2048 + boolCode (boolOf (w / 8)) * 8 +
      boolCode (boolOf (w / 4)) * 4 = w := by
  simp only [BitVec.toNat_ofNat, boolOf_code]
  omega

theorem word_drainSp {w f B : Nat} (hB : B = 33554432 * 83 + 16 * f + 1) (hm : w / 33554432 = 83) (hf : w / 16 % 128 = f)
    (h0 : w / 1 % 4 = 1 ∧ w / 262144 % 128 = 0) :
    B + (BitVec.ofNat 7 (w / 2048)).toNat * 2048 + boolCode (boolOf (w / 8)) * 8 + boolCode (boolOf (w / 4)) * 4 = w := by
  simp only [BitVec.toNat_ofNat, boolOf_code]
  omega

/-- A word whose reserved bits have to be zero is refused unless they are. -/
theorem of_ite_some {α : Type} {c : Prop} [Decidable c] {x y : α} (h : (if c then some x else none) = some y) : c ∧ x = y := by
  by_cases hc : c
  · exact ⟨hc, Option.some.inj ((if_pos hc).symm.trans h)⟩
  · exact absurd ((if_neg hc).symm.trans h) (by simp)

theorem encodeNat_of_decode4E {w : Nat} {i : Instr} (hm : w / 33554432 = 78) (h : decode4E w = some i) : encodeNat i = some w := by
  unfold decode4E at h
  split at h
  case h_1 hf | h_2 hf | h_3 hf | h_6 hf | h_7 hf | h_8 hf | h_9 hf | h_10 hf | h_11 hf | h_12 hf | h_13 hf | h_14 hf =>
    obtain ⟨h0, rfl⟩ := of_ite_some h
    exact congrArg some (word_src1 rfl hm hf h0)
  case h_4 hf | h_5 hf =>
    obtain ⟨h0, rfl⟩ := of_ite_some h
    exact congrArg some (by simp only [srcOf, BitVec.toNat_ofNat, kindOf_code, boolOf_code]; omega)
  case h_15 hf | h_16 hf | h_17 hf | h_18 hf | h_19 hf | h_20 hf | h_21 hf | h_22 hf | h_23 hf | h_24 hf | h_25 hf | h_26 hf | h_27 hf | h_28 hf =>
    cases h
    exact congrArg some (word_src1_fty rfl hm hf)
  case h_29 => cases h

theorem encodeNat_of_decode4F {w : Nat} {i : Instr} (hm : w / 33554432 = 79) (h : decode4F w = some i) : encodeNat i = some w := by
  unfold decode4F at h
  split at h
  case h_1 hf | h_2 hf | h_3 hf | h_6 hf | h_7 hf | h_8 hf | h_9 hf | h_10 hf | h_11 hf | h_12 hf | h_13 hf | h_14 hf =>
    obtain ⟨h0, rfl⟩ := of_ite_some h
    exact congrArg some (word_src1 rfl hm hf h0)
  case h_4 hf | h_5 hf =>
    obtain ⟨h0, rfl⟩ := of_ite_some h
    exact congrArg some (by simp only [srcOf, BitVec.toNat_ofNat, kindOf_code, boolOf_code]; omega)
  case h_15 => cases h

theorem encodeNat_of_decode50 {w : Nat} {i : Instr} (hm : w / 33554432 = 80) (h : decode50 w = some i) : encodeNat i = some w := by
  unfold decode50 at h
  split at h
  case h_1 hf | h_3 hf | h_4 hf | h_7 hf | h_8 hf | h_9 hf | h_10 hf | h_17 hf | h_18 hf | h_31 hf | h_32 hf | h_35 hf | h_36 hf =>
    obtain ⟨h0, rfl⟩ := of_ite_some h
    exact congrArg some (word_src1 rfl hm hf h0)
  case h_2 hf | h_5 hf | h_6 hf | h_11 hf | h_12 hf | h_13 hf | h_14 hf | h_15 hf | h_16 hf | h_19 hf | h_20 hf | h_21 hf | h_22 hf | h_23 hf
    | h_24 hf | h_25 hf | h_26 hf | h_27 hf | h_28 hf | h_29 hf | h_30 hf | h_33 hf | h_34 hf =>
    cases h
    exact congrArg some (word_src1_rm rfl hm hf)
  case h_37 hf | h_38 hf | h_39 hf | h_40 hf | h_41 hf | h_42 hf =>
    cases h
    exact congrArg some (word_src1_fty rfl hm hf)
  case h_43 => cases h

theorem encodeNat_of_decode51 {w : Nat} {i : Instr} (hm : w / 33554432 = 81) (h : decode51 w = some i) : encodeNat i = some w := by
  unfold decode51 at h
  split at h
  case h_1 hf | h_2 hf | h_3 hf | h_4 hf | h_5 hf | h_6 hf | h_7 hf | h_10 hf | h_11 hf | h_23 hf | h_24 hf | h_25 hf | h_26 hf | h_27 hf | h_28 hf
    | h_29 hf | h_30 hf | h_31 hf | h_32 hf | h_33 hf =>
    obtain ⟨h0, rfl⟩ := of_ite_some h
    exact congrArg some (word_regs rfl hm hf h0)
  case h_8 hf | h_9 hf | h_12 hf | h_13 hf | h_14 hf | h_15 hf | h_16 hf | h_17 hf | h_18 hf | h_19 hf | h_20 hf | h_21 hf | h_22 hf =>
    obtain ⟨h0, rfl⟩ := of_ite_some h
    exact congrArg some (word_regs_bool rfl hm hf h0)
  case h_34 => cases h

theorem encodeNat_of_decode52 {w : Nat} {i : Instr} (hm : w / 33554432 = 82) (h : decode52 w = some i) : encodeNat i = some w := by
  unfold decode52 at h
  split at h
  case h_1 hf | h_2 hf | h_8 hf | h_9 hf | h_11 hf | h_12 hf =>
    obtain ⟨h0, rfl⟩ := of_ite_some h
    exact congrArg some (word_src1 rfl hm hf h0)
  case h_3 hf | h_4 hf =>
    obtain ⟨h0, rfl⟩ := of_ite_some h
    exact congrArg some (by simp only [srcOf, BitVec.toNat_ofNat, kindOf_code]; omega)
  case h_5 hf =>
    obtain ⟨h0, rfl⟩ := of_ite_some h
    exact congrArg some (by omega)
  case h_6 hf | h_7 hf | h_10 hf =>
    obtain ⟨h0, rfl⟩ := of_ite_some h
    exact congrArg some (by simp only [srcOf, BitVec.toNat_ofNat, kindOf_code]; omega)
  case h_13 => cases h

theorem encodeNat_of_decode53 {w : Nat} {i : Instr} (hm : w / 33554432 = 83) (h : decode53 w = some i) : encodeNat i = some w := by
  unfold decode53 at h
  split at h
  case h_1 hf =>
    obtain ⟨h0, rfl⟩ := of_ite_some h
    exact congrArg some (by simp only [BitVec.toNat_ofNat]; omega)
  case h_2 hf =>
    obtain ⟨h0, rfl⟩ := of_ite_some h
    exact congrArg some (by simp only [BitVec.toNat_ofNat]; omega)
  case h_3 hf | h_5 hf =>
    obtain ⟨h0, rfl⟩ := of_ite_some h
    exact congrArg some (by simp only [srcOf, BitVec.toNat_ofNat, kindOf_code]; omega)
  case h_4 hf =>
    obtain ⟨h0, rfl⟩ := of_ite_some h
    exact congrArg some (by simp only [BitVec.toNat_ofNat]; omega)
  case h_6 hf | h_7 hf | h_8 hf | h_9 hf =>
    obtain ⟨h0, rfl⟩ := of_ite_some h
    exact congrArg some (word_drainSp rfl hm hf h0)
  case h_10 hf | h_11 hf =>
    obtain ⟨h0, rfl⟩ := of_ite_some h
    exact congrArg some (word_drain rfl hm hf h0)
  case h_12 hf | h_13 hf =>
    obtain ⟨h0, rfl⟩ := of_ite_some h
    exact congrArg some (by omega)
  case h_14 => cases h

theorem encodeNat_of_decode54 {w : Nat} {i : Instr} (hm : w / 33554432 = 84) (h : decode54 w = some i) : encodeNat i = some w := by
  unfold decode54 at h
  split at h
  case h_1 hf | h_2 hf | h_3 hf | h_4 hf =>
    obtain ⟨h0, rfl⟩ := of_ite_some h
    exact congrArg some (word_engine rfl hm hf h0)
  case h_5 hf | h_6 hf =>
    obtain ⟨h0, rfl⟩ := of_ite_some h
    exact congrArg some (by simp only [srcOf, BitVec.toNat_ofNat, kindOf_code]; omega)
  case h_7 hf | h_27 hf =>
    obtain ⟨h0, rfl⟩ := of_ite_some h
    exact congrArg some (word_src1 rfl hm hf h0)
  case h_8 hf | h_9 hf | h_10 hf | h_11 hf | h_12 hf | h_13 hf | h_14 hf | h_15 hf =>
    obtain ⟨h0, rfl⟩ := of_ite_some h
    exact congrArg some (word_fence hm hf rfl h0)
  case h_16 hf | h_17 hf | h_18 hf | h_19 hf | h_20 hf | h_21 hf | h_22 hf | h_23 hf =>
    obtain ⟨h0, rfl⟩ := of_ite_some h
    exact congrArg some (word_fencex hm hf rfl h0)
  case h_24 hf | h_25 hf =>
    obtain ⟨h0, rfl⟩ := of_ite_some h
    exact congrArg some (by simp only [BitVec.toNat_ofNat, hintOf_code, boolOf_code]; omega)
  case h_26 hf =>
    obtain ⟨h0, rfl⟩ := of_ite_some h
    exact congrArg some (by simp only [BitVec.toNat_ofNat, boolOf_code]; omega)
  case h_28 => cases h

theorem encodeNat_of_decode55 {w : Nat} {i : Instr} (hm : w / 33554432 = 85) (h : decode55 w = some i) : encodeNat i = some w := by
  unfold decode55 at h
  split at h
  case h_1 hf =>
    obtain ⟨h0, rfl⟩ := of_ite_some h
    exact congrArg some (by simp only [srcOf, BitVec.toNat_ofNat, kindOf_code]; omega)
  case h_2 hf | h_8 hf | h_9 hf =>
    obtain ⟨h0, rfl⟩ := of_ite_some h
    exact congrArg some (by omega)
  case h_3 hf =>
    split at h
    · cases h
      exact congrArg some (by omega)
    · obtain ⟨h0, rfl⟩ := of_ite_some h
      exact congrArg some (by omega)
  case h_4 hf =>
    obtain ⟨h0, rfl⟩ := of_ite_some h
    exact congrArg some (word_regs rfl hm hf h0)
  case h_5 hf =>
    obtain ⟨h0, rfl⟩ := of_ite_some h
    exact congrArg some (word_src1 rfl hm hf h0)
  case h_6 hf | h_7 hf =>
    obtain ⟨h0, rfl⟩ := of_ite_some h
    exact congrArg some (by simp only [BitVec.toNat_ofNat]; omega)
  case h_10 => cases h

theorem encodeNat_of_decode64 {w : Nat} {i : Instr} (hm : w / 33554432 = 100) (h : decode64 w = some i) : encodeNat i = some w := by
  unfold decode64 at h
  split at h
  case h_1 hf | h_2 hf | h_3 hf | h_4 hf | h_5 hf | h_6 hf | h_7 hf | h_8 hf | h_9 hf | h_10 hf =>
    cases h
    exact congrArg some (word_atom rfl hm hf)
  case h_11 => cases h

theorem encodeNat_of_decode65 {w : Nat} {i : Instr} (hm : w / 33554432 = 101) (h : decode65 w = some i) : encodeNat i = some w := by
  unfold decode65 at h
  split at h
  case h_1 hf | h_2 hf | h_3 hf | h_4 hf | h_5 hf | h_6 hf | h_7 hf | h_8 hf | h_9 hf | h_10 hf =>
    cases h
    exact congrArg some (word_atom rfl hm hf)
  case h_11 => cases h

/-- A decoded word is what its instruction is encoded as. -/
theorem encodeNat_of_decodeNat {w : Nat} {i : Instr} (h : decodeNat w = some i) : encodeNat i = some w := by
  unfold decodeNat at h
  split at h
  case h_1 hm | h_2 hm | h_3 hm | h_4 hm | h_5 hm | h_6 hm | h_7 hm | h_8 hm | h_9 hm | h_10 hm | h_11 hm | h_12 hm | h_13 hm | h_14 hm | h_15 hm
    | h_16 hm | h_17 hm | h_18 hm | h_19 hm | h_20 hm | h_21 hm | h_22 hm | h_23 hm | h_24 hm | h_25 hm | h_26 hm | h_27 hm | h_28 hm | h_29 hm
    | h_30 hm | h_31 hm | h_32 hm | h_33 hm | h_34 hm | h_35 hm | h_36 hm | h_37 hm | h_38 hm | h_39 hm | h_40 hm | h_41 hm | h_42 hm | h_43 hm
    | h_44 hm | h_45 hm | h_46 hm | h_47 hm | h_48 hm | h_49 hm | h_50 hm | h_51 hm | h_52 hm | h_53 hm | h_54 hm | h_55 hm | h_56 hm | h_57 hm
    | h_58 hm | h_59 hm | h_60 hm | h_61 hm | h_62 hm | h_63 hm | h_64 hm | h_65 hm | h_66 hm | h_67 hm | h_68 hm | h_69 hm | h_70 hm | h_71 hm
    | h_72 hm | h_77 hm | h_78 hm =>
    cases h
    exact congrArg some (word_src2 rfl hm)
  case h_73 hm | h_74 hm | h_75 hm =>
    cases h
    exact congrArg some (by simp only [srcOf, BitVec.toNat_ofNat, kindOf_code, ordOf_code]; omega)
  case h_76 hm =>
    obtain ⟨h0, rfl⟩ := of_ite_some h
    exact congrArg some (by simp only [srcOf, BitVec.toNat_ofNat, kindOf_code]; omega)
  case h_79 hm =>
    exact encodeNat_of_decode4E hm h
  case h_80 hm =>
    exact encodeNat_of_decode4F hm h
  case h_81 hm =>
    exact encodeNat_of_decode50 hm h
  case h_82 hm =>
    exact encodeNat_of_decode51 hm h
  case h_83 hm =>
    exact encodeNat_of_decode52 hm h
  case h_84 hm =>
    exact encodeNat_of_decode53 hm h
  case h_85 hm =>
    exact encodeNat_of_decode54 hm h
  case h_86 hm =>
    exact encodeNat_of_decode55 hm h
  case h_87 hm | h_88 hm | h_89 hm | h_90 hm | h_91 hm | h_92 hm | h_93 hm | h_94 hm | h_95 hm | h_96 hm | h_97 hm | h_98 hm | h_99 hm | h_100 hm =>
    cases h
    exact congrArg some (word_mem rfl hm)
  case h_101 hm =>
    exact encodeNat_of_decode64 hm h
  case h_102 hm =>
    exact encodeNat_of_decode65 hm h
  case h_103 hm | h_104 hm | h_105 hm | h_106 hm | h_112 hm | h_113 hm =>
    cases h
    exact congrArg some (word_imm rfl hm)
  case h_107 hm =>
    obtain ⟨h0, rfl⟩ := of_ite_some h
    exact congrArg some (by simp only [BitVec.toNat_ofNat]; omega)
  case h_108 hm =>
    obtain ⟨h0, rfl⟩ := of_ite_some h
    exact congrArg some (by simp only [BitVec.toNat_ofNat]; omega)
  case h_109 hm =>
    obtain ⟨h0, rfl⟩ := of_ite_some h
    exact congrArg some (by simp only [BitVec.toNat_ofNat]; omega)
  case h_110 hm =>
    obtain ⟨h0, rfl⟩ := of_ite_some h
    exact congrArg some (by simp only [BitVec.toNat_ofNat]; omega)
  case h_111 hm =>
    split at h <;> cases h <;> exact congrArg some (by simp only [BitVec.toNat_ofNat]; omega)
  case h_114 hm | h_115 hm | h_116 hm | h_117 hm =>
    obtain ⟨h0, rfl⟩ := of_ite_some h
    exact congrArg some (by simp only [BitVec.toNat_ofNat]; omega)
  case h_118 hm | h_119 hm =>
    cases h
    exact congrArg some (by simp only [BitVec.toNat_ofNat]; omega)
  case h_120 => cases h

/-! What an encoded instruction is decoded as, by format: the instruction itself. -/

/-- The instruction's word is below 2^32 and decodes to it. -/
def ReadBack (i : Instr) (w : Nat) : Prop := w < 2 ^ 32 ∧ decodeNat w = some i

theorem readBack_src2 {c : RName → Src → Src → Instr} {B : Nat} (hB : B % 33554432 = 0 ∧ B < 2 ^ 32)
    (dec : ∀ w, w / 33554432 = B / 33554432 → decodeNat w = some (c (BitVec.ofNat 7 (w / 262144)) (srcOf (w / 2048) (w / 1)) (srcOf (w / 16) (w / 4))))
    (d : RName) (a b : Src) :
    ReadBack (c d a b) (B + d.toNat * 262144 + a.name.toNat * 2048 + a.kind.code * 1 + b.name.toNat * 16 + b.kind.code * 4) := by
  have := d.isLt; have := a.name.isLt; have := b.name.isLt; have := Kind.code_lt a.kind; have := Kind.code_lt b.kind
  refine ⟨by omega, ?_⟩
  rw [dec _ (by omega), bits_eq (x := d) (by omega), srcOf_eq (a := a) (by omega) (by omega), srcOf_eq (a := b) (by omega) (by omega)]

theorem readBack_src1 {c : RName → Src → Instr} {B : Nat} (hB : B % 33554432 = B / 16 % 128 * 16 ∧ B < 2 ^ 32)
    (dec : ∀ w, w / 33554432 = B / 33554432 → w / 16 % 128 = B / 16 % 128 → w / 4 % 4 = 0 →
      decodeNat w = some (c (BitVec.ofNat 7 (w / 262144)) (srcOf (w / 2048) (w / 1))))
    (d : RName) (a : Src) : ReadBack (c d a) (B + d.toNat * 262144 + a.name.toNat * 2048 + a.kind.code * 1) := by
  have := d.isLt; have := a.name.isLt; have := Kind.code_lt a.kind
  refine ⟨by omega, ?_⟩
  rw [dec _ (by omega) (by omega) (by omega), bits_eq (x := d) (by omega), srcOf_eq (a := a) (by omega) (by omega)]

theorem readBack_src1_bool {c : RName → Src → Bool → Instr} {B : Nat} (hB : B % 33554432 = B / 16 % 128 * 16 ∧ B < 2 ^ 32)
    (dec : ∀ w, w / 33554432 = B / 33554432 → w / 16 % 128 = B / 16 % 128 → w / 8 % 2 = 0 →
      decodeNat w = some (c (BitVec.ofNat 7 (w / 262144)) (srcOf (w / 2048) (w / 1)) (boolOf (w / 4))))
    (d : RName) (a : Src) (x : Bool) :
    ReadBack (c d a x) (B + d.toNat * 262144 + a.name.toNat * 2048 + a.kind.code * 1 + boolCode x * 4) := by
  have := d.isLt; have := a.name.isLt; have := Kind.code_lt a.kind; have := boolCode_lt x
  refine ⟨by omega, ?_⟩
  rw [dec _ (by omega) (by omega) (by omega), bits_eq (x := d) (by omega), srcOf_eq (a := a) (by omega) (by omega), boolOf_eq (b := x) (by omega)]

theorem readBack_src1_fty {c : RName → Src → FTy → Instr} {B : Nat} (hB : B % 33554432 = B / 16 % 128 * 16 ∧ B < 2 ^ 32)
    (dec : ∀ w, w / 33554432 = B / 33554432 → w / 16 % 128 = B / 16 % 128 →
      decodeNat w = some (c (BitVec.ofNat 7 (w / 262144)) (srcOf (w / 2048) (w / 1)) (ftyOf (w / 4))))
    (d : RName) (a : Src) (t : FTy) :
    ReadBack (c d a t) (B + d.toNat * 262144 + a.name.toNat * 2048 + a.kind.code * 1 + t.code * 4) := by
  have := d.isLt; have := a.name.isLt; have := Kind.code_lt a.kind; have := FTy.code_lt t
  refine ⟨by omega, ?_⟩
  rw [dec _ (by omega) (by omega), bits_eq (x := d) (by omega), srcOf_eq (a := a) (by omega) (by omega), ftyOf_eq (t := t) (by omega)]

theorem readBack_src1_rm {c : RName → Src → Rm → Instr} {B : Nat} (hB : B % 33554432 = B / 16 % 128 * 16 ∧ B < 2 ^ 32)
    (dec : ∀ w, w / 33554432 = B / 33554432 → w / 16 % 128 = B / 16 % 128 →
      decodeNat w = some (c (BitVec.ofNat 7 (w / 262144)) (srcOf (w / 2048) (w / 1)) (Sys2Proof.rmOf (w / 4))))
    (d : RName) (a : Src) (r : Rm) :
    ReadBack (c d a r) (B + d.toNat * 262144 + a.name.toNat * 2048 + a.kind.code * 1 + r.code * 4) := by
  have := d.isLt; have := a.name.isLt; have := Kind.code_lt a.kind; have := Rm.code_lt r
  refine ⟨by omega, ?_⟩
  rw [dec _ (by omega) (by omega), bits_eq (x := d) (by omega), srcOf_eq (a := a) (by omega) (by omega), rmOf_eq (r := r) (by omega)]

theorem readBack_regs {c : RName → RName → Instr} {B : Nat} (hB : B % 33554432 = B / 16 % 128 * 16 ∧ B < 2 ^ 32)
    (dec : ∀ w, w / 33554432 = B / 33554432 → w / 16 % 128 = B / 16 % 128 → w / 1 % 16 = 0 →
      decodeNat w = some (c (BitVec.ofNat 7 (w / 262144)) (BitVec.ofNat 7 (w / 2048))))
    (d a : RName) : ReadBack (c d a) (B + d.toNat * 262144 + a.toNat * 2048) := by
  have := d.isLt; have := a.isLt
  refine ⟨by omega, ?_⟩
  rw [dec _ (by omega) (by omega) (by omega), bits_eq (x := d) (by omega), bits_eq (x := a) (by omega)]

theorem readBack_regs_bool {c : RName → RName → Bool → Instr} {B : Nat} (hB : B % 33554432 = B / 16 % 128 * 16 ∧ B < 2 ^ 32)
    (dec : ∀ w, w / 33554432 = B / 33554432 → w / 16 % 128 = B / 16 % 128 → w / 1 % 4 = 0 ∧ w / 8 % 2 = 0 →
      decodeNat w = some (c (BitVec.ofNat 7 (w / 262144)) (BitVec.ofNat 7 (w / 2048)) (boolOf (w / 4))))
    (d a : RName) (x : Bool) : ReadBack (c d a x) (B + d.toNat * 262144 + a.toNat * 2048 + boolCode x * 4) := by
  have := d.isLt; have := a.isLt; have := boolCode_lt x
  refine ⟨by omega, ?_⟩
  rw [dec _ (by omega) (by omega) (by omega), bits_eq (x := d) (by omega), bits_eq (x := a) (by omega), boolOf_eq (b := x) (by omega)]

theorem readBack_mem {c : RName → RName → BitVec 4 → Ord → Scope → Hint → Instr} {B : Nat} (hB : B % 33554432 = 0 ∧ B < 2 ^ 32)
    (dec : ∀ w, w / 33554432 = B / 33554432 → decodeNat w = some (c (BitVec.ofNat 7 (w / 262144)) (BitVec.ofNat 7 (w / 2048))
      (BitVec.ofNat 4 (w / 128)) (ordOf (w / 32)) (scopeOf (w / 4)) (hintOf (w / 1))))
    (t b : RName) (o : BitVec 4) (r : Ord) (x : Scope) (h : Hint) :
    ReadBack (c t b o r x h) (B + t.toNat * 262144 + b.toNat * 2048 + o.toNat * 128 + r.code * 32 + x.code * 4 + h.code * 1) := by
  have := t.isLt; have := b.isLt; have := o.isLt; have := Ord.code_lt r; have := Scope.code_lt x; have := Hint.code_lt h
  refine ⟨by omega, ?_⟩
  rw [dec _ (by omega), bits_eq (x := t) (by omega), bits_eq (x := b) (by omega), bits_eq (x := o) (by omega), ordOf_eq (r := r) (by omega),
    scopeOf_eq (x := x) (by omega), hintOf_eq (x := h) (by omega)]

theorem readBack_atom {c : RName → RName → Ord → Scope → Hint → Instr} {B : Nat} (hB : B % 33554432 = B / 128 % 16 * 128 ∧ B < 2 ^ 32)
    (dec : ∀ w, w / 33554432 = B / 33554432 → w / 128 % 16 = B / 128 % 16 →
      decodeNat w = some (c (BitVec.ofNat 7 (w / 262144)) (BitVec.ofNat 7 (w / 2048)) (ordOf (w / 32)) (scopeOf (w / 4)) (hintOf (w / 1))))
    (t b : RName) (r : Ord) (x : Scope) (h : Hint) :
    ReadBack (c t b r x h) (B + t.toNat * 262144 + b.toNat * 2048 + r.code * 32 + x.code * 4 + h.code * 1) := by
  have := t.isLt; have := b.isLt; have := Ord.code_lt r; have := Scope.code_lt x; have := Hint.code_lt h
  refine ⟨by omega, ?_⟩
  rw [dec _ (by omega) (by omega), bits_eq (x := t) (by omega), bits_eq (x := b) (by omega), ordOf_eq (r := r) (by omega),
    scopeOf_eq (x := x) (by omega), hintOf_eq (x := h) (by omega)]

theorem readBack_imm {c : RName → BitVec 18 → Instr} {B : Nat} (hB : B % 33554432 = 0 ∧ B < 2 ^ 32)
    (dec : ∀ w, w / 33554432 = B / 33554432 → decodeNat w = some (c (BitVec.ofNat 7 (w / 262144)) (BitVec.ofNat 18 (w / 1))))
    (d : RName) (i : BitVec 18) : ReadBack (c d i) (B + d.toNat * 262144 + i.toNat * 1) := by
  have := d.isLt; have := i.isLt
  refine ⟨by omega, ?_⟩
  rw [dec _ (by omega), bits_eq (x := d) (by omega), bits_eq (x := i) (by omega)]

theorem readBack_version {mk : RName → RName → Src → Ord → Instr} {B : Nat} (hB : B % 33554432 = 0 ∧ B < 2 ^ 32)
    (dec : ∀ w, w / 33554432 = B / 33554432 →
      decodeNat w = some (mk (BitVec.ofNat 7 (w / 262144)) (BitVec.ofNat 7 (w / 2048)) (srcOf (w / 16) (w / 4)) (ordOf (w / 1))))
    (d : RName) (a : RName) (b : Src) (o : Ord) : ReadBack (mk d a b o) (B + d.toNat * 262144 + a.toNat * 2048 + b.name.toNat * 16 + b.kind.code * 4 + o.code * 1) := by
  have := d.isLt; have := a.isLt; have := b.name.isLt; have := Kind.code_lt b.kind; have := Ord.code_lt o
  refine ⟨by omega, ?_⟩
  rw [dec _ (by omega), bits_eq (x := d) (by omega), bits_eq (x := a) (by omega), srcOf_eq (a := b) (by omega) (by omega), ordOf_eq (r := o) (by omega)]

theorem readBack_srcs {mk : Src → Src → Instr} {B : Nat} (hB : B % 33554432 = 0 ∧ B < 2 ^ 32)
    (dec : ∀ w, w / 33554432 = B / 33554432 → w / 262144 % 128 = 0 →
      decodeNat w = some (mk (srcOf (w / 2048) (w / 1)) (srcOf (w / 16) (w / 4))))
    (a : Src) (b : Src) : ReadBack (mk a b) (B + a.name.toNat * 2048 + a.kind.code * 1 + b.name.toNat * 16 + b.kind.code * 4) := by
  have := a.name.isLt; have := Kind.code_lt a.kind; have := b.name.isLt; have := Kind.code_lt b.kind
  refine ⟨by omega, ?_⟩
  rw [dec _ (by omega) (by omega), srcOf_eq (a := a) (by omega) (by omega), srcOf_eq (a := b) (by omega) (by omega)]

theorem readBack_src {mk : Src → Instr} {B : Nat} (hB : B % 33554432 = B / 16 % 128 * 16 ∧ B < 2 ^ 32)
    (dec : ∀ w, w / 33554432 = B / 33554432 → w / 16 % 128 = B / 16 % 128 → w / 4 % 4 = 0 ∧ w / 262144 % 128 = 0 →
      decodeNat w = some (mk (srcOf (w / 2048) (w / 1))))
    (a : Src) : ReadBack (mk a) (B + a.name.toNat * 2048 + a.kind.code * 1) := by
  have := a.name.isLt; have := Kind.code_lt a.kind
  refine ⟨by omega, ?_⟩
  rw [dec _ (by omega) (by omega) (by omega), srcOf_eq (a := a) (by omega) (by omega)]

theorem readBack_fixed {mk : Instr} {B : Nat} (hB : B % 33554432 = B / 16 % 128 * 16 ∧ B < 2 ^ 32)
    (dec : ∀ w, w / 33554432 = B / 33554432 → w / 16 % 128 = B / 16 % 128 → w / 1 % 16 = 0 ∧ w / 2048 % 16384 = 0 →
      decodeNat w = some mk)
    : ReadBack mk B := by
  refine ⟨by omega, ?_⟩
  rw [dec _ (by omega) (by omega) (by omega)]

theorem readBack_queue {mk : BitVec 3 → Src → Instr} {B : Nat} (hB : B % 33554432 = B / 16 % 128 * 16 ∧ B < 2 ^ 32)
    (dec : ∀ w, w / 33554432 = B / 33554432 → w / 16 % 128 = B / 16 % 128 → w / 4 % 4 = 0 ∧ w / 2097152 % 16 = 0 →
      decodeNat w = some (mk (BitVec.ofNat 3 (w / 262144)) (srcOf (w / 2048) (w / 1))))
    (q : BitVec 3) (a : Src) : ReadBack (mk q a) (B + q.toNat * 262144 + a.name.toNat * 2048 + a.kind.code * 1) := by
  have := q.isLt; have := a.name.isLt; have := Kind.code_lt a.kind
  refine ⟨by omega, ?_⟩
  rw [dec _ (by omega) (by omega) (by omega), bits_eq (x := q) (by omega), srcOf_eq (a := a) (by omega) (by omega)]

theorem readBack_mma {mk : BitVec 4 → BitVec 2 → BitVec 3 → BitVec 4 → Instr} {B : Nat} (hB : B % 33554432 = B / 16 % 128 * 16 ∧ B < 2 ^ 32)
    (dec : ∀ w, w / 33554432 = B / 33554432 → w / 16 % 128 = B / 16 % 128 → w / 1 % 16 = 0 ∧ w / 16777216 % 2 = 0 →
      decodeNat w = some (mk (BitVec.ofNat 4 (w / 1048576)) (BitVec.ofNat 2 (w / 262144)) (BitVec.ofNat 3 (w / 32768)) (BitVec.ofNat 4 (w / 2048))))
    (b : BitVec 4) (c : BitVec 2) (i : BitVec 3) (a : BitVec 4) : ReadBack (mk b c i a) (B + b.toNat * 1048576 + c.toNat * 262144 + i.toNat * 32768 + a.toNat * 2048) := by
  have := b.isLt; have := c.isLt; have := i.isLt; have := a.isLt
  refine ⟨by omega, ?_⟩
  rw [dec _ (by omega) (by omega) (by omega), bits_eq (x := b) (by omega), bits_eq (x := c) (by omega), bits_eq (x := i) (by omega), bits_eq (x := a) (by omega)]

theorem readBack_mzero {mk : BitVec 2 → Instr} {B : Nat} (hB : B % 33554432 = B / 16 % 128 * 16 ∧ B < 2 ^ 32)
    (dec : ∀ w, w / 33554432 = B / 33554432 → w / 16 % 128 = B / 16 % 128 → w / 1 % 16 = 0 ∧ w / 2048 % 128 = 0 ∧ w / 1048576 % 32 = 0 →
      decodeNat w = some (mk (BitVec.ofNat 2 (w / 262144))))
    (c : BitVec 2) : ReadBack (mk c) (B + c.toNat * 262144) := by
  have := c.isLt
  refine ⟨by omega, ?_⟩
  rw [dec _ (by omega) (by omega) (by omega), bits_eq (x := c) (by omega)]

theorem readBack_slot {mk : BitVec 4 → Src → Instr} {B : Nat} (hB : B % 33554432 = B / 16 % 128 * 16 ∧ B < 2 ^ 32)
    (dec : ∀ w, w / 33554432 = B / 33554432 → w / 16 % 128 = B / 16 % 128 → w / 4 % 4 = 0 ∧ w / 4194304 % 8 = 0 →
      decodeNat w = some (mk (BitVec.ofNat 4 (w / 262144)) (srcOf (w / 2048) (w / 1))))
    (n : BitVec 4) (a : Src) : ReadBack (mk n a) (B + n.toNat * 262144 + a.name.toNat * 2048 + a.kind.code * 1) := by
  have := n.isLt; have := a.name.isLt; have := Kind.code_lt a.kind
  refine ⟨by omega, ?_⟩
  rw [dec _ (by omega) (by omega) (by omega), bits_eq (x := n) (by omega), srcOf_eq (a := a) (by omega) (by omega)]

theorem readBack_obrel {mk : BitVec 4 → Instr} {B : Nat} (hB : B % 33554432 = B / 16 % 128 * 16 ∧ B < 2 ^ 32)
    (dec : ∀ w, w / 33554432 = B / 33554432 → w / 16 % 128 = B / 16 % 128 → w / 1 % 16 = 0 ∧ w / 2048 % 128 = 0 ∧ w / 4194304 % 8 = 0 →
      decodeNat w = some (mk (BitVec.ofNat 4 (w / 262144))))
    (n : BitVec 4) : ReadBack (mk n) (B + n.toNat * 262144) := by
  have := n.isLt
  refine ⟨by omega, ?_⟩
  rw [dec _ (by omega) (by omega) (by omega), bits_eq (x := n) (by omega)]

theorem readBack_drainSp {mk : RName → Bool → Bool → Instr} {B : Nat} (hB : B % 33554432 = B / 16 % 128 * 16 + 1 ∧ B < 2 ^ 32)
    (dec : ∀ w, w / 33554432 = B / 33554432 → w / 16 % 128 = B / 16 % 128 → w / 1 % 4 = 1 ∧ w / 262144 % 128 = 0 →
      decodeNat w = some (mk (BitVec.ofNat 7 (w / 2048)) (boolOf (w / 8)) (boolOf (w / 4))))
    (a : RName) (m : Bool) (c : Bool) : ReadBack (mk a m c) (B + a.toNat * 2048 + boolCode m * 8 + boolCode c * 4) := by
  have := a.isLt; have := boolCode_lt m; have := boolCode_lt c
  refine ⟨by omega, ?_⟩
  rw [dec _ (by omega) (by omega) (by omega), bits_eq (x := a) (by omega), boolOf_eq (b := m) (by omega), boolOf_eq (b := c) (by omega)]

theorem readBack_drain {mk : RName → RName → Bool → Bool → Instr} {B : Nat} (hB : B % 33554432 = B / 16 % 128 * 16 + 1 ∧ B < 2 ^ 32)
    (dec : ∀ w, w / 33554432 = B / 33554432 → w / 16 % 128 = B / 16 % 128 → w / 1 % 4 = 1 →
      decodeNat w = some (mk (BitVec.ofNat 7 (w / 262144)) (BitVec.ofNat 7 (w / 2048)) (boolOf (w / 8)) (boolOf (w / 4))))
    (d : RName) (a : RName) (m : Bool) (c : Bool) : ReadBack (mk d a m c) (B + d.toNat * 262144 + a.toNat * 2048 + boolCode m * 8 + boolCode c * 4) := by
  have := d.isLt; have := a.isLt; have := boolCode_lt m; have := boolCode_lt c
  refine ⟨by omega, ?_⟩
  rw [dec _ (by omega) (by omega) (by omega), bits_eq (x := d) (by omega), bits_eq (x := a) (by omega), boolOf_eq (b := m) (by omega), boolOf_eq (b := c) (by omega)]

theorem readBack_engine {mk : RName → RName → Bool → Instr} {B : Nat} (hB : B % 33554432 = B / 16 % 128 * 16 + 1 ∧ B < 2 ^ 32)
    (dec : ∀ w, w / 33554432 = B / 33554432 → w / 16 % 128 = B / 16 % 128 → w / 1 % 2 = 1 ∧ w / 4 % 4 = 0 →
      decodeNat w = some (mk (BitVec.ofNat 7 (w / 262144)) (BitVec.ofNat 7 (w / 2048)) (boolOf (w / 2))))
    (d : RName) (a : RName) (k : Bool) : ReadBack (mk d a k) (B + d.toNat * 262144 + a.toNat * 2048 + boolCode k * 2) := by
  have := d.isLt; have := a.isLt; have := boolCode_lt k
  refine ⟨by omega, ?_⟩
  rw [dec _ (by omega) (by omega) (by omega), bits_eq (x := d) (by omega), bits_eq (x := a) (by omega), boolOf_eq (b := k) (by omega)]

theorem readBack_prefetch {mk : RName → Hint → Bool → Instr} {B : Nat} (hB : B % 33554432 = B / 16 % 128 * 16 ∧ B < 2 ^ 32)
    (dec : ∀ w, w / 33554432 = B / 33554432 → w / 16 % 128 = B / 16 % 128 → w / 2 % 2 = 0 ∧ w / 262144 % 128 = 0 →
      decodeNat w = some (mk (BitVec.ofNat 7 (w / 2048)) (hintOf (w / 4)) (boolOf (w / 1))))
    (a : RName) (h : Hint) (x : Bool) : ReadBack (mk a h x) (B + a.toNat * 2048 + h.code * 4 + boolCode x * 1) := by
  have := a.isLt; have := Hint.code_lt h; have := boolCode_lt x
  refine ⟨by omega, ?_⟩
  rw [dec _ (by omega) (by omega) (by omega), bits_eq (x := a) (by omega), hintOf_eq (x := h) (by omega), boolOf_eq (b := x) (by omega)]

theorem readBack_demote {mk : RName → Bool → Instr} {B : Nat} (hB : B % 33554432 = B / 16 % 128 * 16 ∧ B < 2 ^ 32)
    (dec : ∀ w, w / 33554432 = B / 33554432 → w / 16 % 128 = B / 16 % 128 → w / 2 % 8 = 0 ∧ w / 262144 % 128 = 0 →
      decodeNat w = some (mk (BitVec.ofNat 7 (w / 2048)) (boolOf (w / 1))))
    (a : RName) (x : Bool) : ReadBack (mk a x) (B + a.toNat * 2048 + boolCode x * 1) := by
  have := a.isLt; have := boolCode_lt x
  refine ⟨by omega, ?_⟩
  rw [dec _ (by omega) (by omega) (by omega), bits_eq (x := a) (by omega), boolOf_eq (b := x) (by omega)]

theorem readBack_pair {mk : RName → Instr} {B : Nat} (hB : B % 33554432 = B / 16 % 128 * 16 + 1 ∧ B < 2 ^ 32)
    (dec : ∀ w, w / 33554432 = B / 33554432 → w / 16 % 128 = B / 16 % 128 → w / 1 % 16 = 1 ∧ w / 262144 % 128 = 0 →
      decodeNat w = some (mk (BitVec.ofNat 7 (w / 2048))))
    (a : RName) : ReadBack (mk a) (B + a.toNat * 2048) := by
  have := a.isLt
  refine ⟨by omega, ?_⟩
  rw [dec _ (by omega) (by omega) (by omega), bits_eq (x := a) (by omega)]

theorem readBack_wbase {mk : BitVec 18 → Instr} {B : Nat} (hB : B % 33554432 = 0 ∧ B < 2 ^ 32)
    (dec : ∀ w, w / 33554432 = B / 33554432 → w / 262144 % 128 = 0 →
      decodeNat w = some (mk (BitVec.ofNat 18 (w / 1))))
    (i : BitVec 18) : ReadBack (mk i) (B + i.toNat * 1) := by
  have := i.isLt
  refine ⟨by omega, ?_⟩
  rw [dec _ (by omega) (by omega), bits_eq (x := i) (by omega)]

theorem readBack_cbase {mk : BitVec 9 → Instr} {B : Nat} (hB : B % 33554432 = 0 ∧ B < 2 ^ 32)
    (dec : ∀ w, w / 33554432 = B / 33554432 → w / 512 % 65536 = 0 →
      decodeNat w = some (mk (BitVec.ofNat 9 (w / 1))))
    (i : BitVec 9) : ReadBack (mk i) (B + i.toNat * 1) := by
  have := i.isLt
  refine ⟨by omega, ?_⟩
  rw [dec _ (by omega) (by omega), bits_eq (x := i) (by omega)]

theorem readBack_bar {mk : BitVec 5 → BitVec 18 → Instr} {B : Nat} (hB : B % 33554432 = 0 ∧ B < 2 ^ 32)
    (dec : ∀ w, w / 33554432 = B / 33554432 → w / 8388608 % 4 = 0 →
      decodeNat w = some (mk (BitVec.ofNat 5 (w / 262144)) (BitVec.ofNat 18 (w / 1))))
    (k : BitVec 5) (n : BitVec 18) : ReadBack (mk k n) (B + k.toNat * 262144 + n.toNat * 1) := by
  have := k.isLt; have := n.isLt
  refine ⟨by omega, ?_⟩
  rw [dec _ (by omega) (by omega), bits_eq (x := k) (by omega), bits_eq (x := n) (by omega)]

theorem readBack_rcv {mk : RName → BitVec 4 → Instr} {B : Nat} (hB : B % 33554432 = 0 ∧ B < 2 ^ 32)
    (dec : ∀ w, w / 33554432 = B / 33554432 → w / 16 % 16384 = 0 →
      decodeNat w = some (mk (BitVec.ofNat 7 (w / 262144)) (BitVec.ofNat 4 (w / 1))))
    (s : RName) (b : BitVec 4) : ReadBack (mk s b) (B + s.toNat * 262144 + b.toNat * 1) := by
  have := s.isLt; have := b.isLt
  refine ⟨by omega, ?_⟩
  rw [dec _ (by omega) (by omega), bits_eq (x := s) (by omega), bits_eq (x := b) (by omega)]

theorem readBack_target {mk : RName → Instr} {B : Nat} (hB : B % 33554432 = 0 ∧ B < 2 ^ 32)
    (dec : ∀ w, w / 33554432 = B / 33554432 → w / 1 % 262144 = 0 →
      decodeNat w = some (mk (BitVec.ofNat 7 (w / 262144))))
    (c : RName) : ReadBack (mk c) (B + c.toNat * 262144) := by
  have := c.isLt
  refine ⟨by omega, ?_⟩
  rw [dec _ (by omega) (by omega), bits_eq (x := c) (by omega)]

theorem ReadBack.of_encodeNat {i : Instr} {v w : Nat} (hv : encodeNat i = some v) (h : encodeNat i = some w) (hb : ReadBack i v) :
    ReadBack i w := Option.some.inj (hv.symm.trans h) ▸ hb

/-- The bits of a field are read back from a sum whose other parts stand above and below them. -/
theorem bits_of_sum {m k hi lo : Nat} {x : BitVec m} (hlo : lo < k) (e : Nat) (he : e = (hi * 2 ^ m + x.toNat) * k + lo) :
    BitVec.ofNat m (e / k) = x := by
  refine bits_eq ?_
  rw [he, Nat.add_comm, Nat.add_mul_div_right _ _ (by omega), Nat.div_eq_of_lt hlo, Nat.zero_add, Nat.add_comm, Nat.add_mul_mod_self_right,
    Nat.mod_eq_of_lt x.isLt]

/-- A header's class is told by six bits alone, the seventh being the first bit of WAIT (R29). -/
theorem readBack_clause (w : BitVec 12) (a b : BitVec 4) (l n : BitVec 3) :
    ReadBack (.clause w a b l n) (0xFC000000 + w.toNat * 16384 + a.toNat * 1024 + b.toNat * 64 + l.toNat * 8 + n.toNat * 1) := by
  have := w.isLt; have := a.isLt; have := b.isLt; have := l.isLt; have := n.isLt
  have dec : ∀ v, v / 67108864 = 63 → decodeNat v = some (.clause (BitVec.ofNat 12 (v / 16384)) (BitVec.ofNat 4 (v / 1024))
      (BitVec.ofNat 4 (v / 64)) (BitVec.ofNat 3 (v / 8)) (BitVec.ofNat 3 (v / 1))) := fun v hv => by
    have hm : v / 33554432 = 126 ∨ v / 33554432 = 127 := by omega
    obtain h | h := hm <;> rw [decodeNat, h] <;> rfl
  have hw := bits_of_sum (x := w) (k := 16384) (hi := 63) (lo := a.toNat * 1024 + b.toNat * 64 + l.toNat * 8 + n.toNat) (by omega)
  have ha := bits_of_sum (x := a) (k := 1024) (hi := 63 * 4096 + w.toNat) (lo := b.toNat * 64 + l.toNat * 8 + n.toNat) (by omega)
  have hb := bits_of_sum (x := b) (k := 64) (hi := (63 * 4096 + w.toNat) * 16 + a.toNat) (lo := l.toNat * 8 + n.toNat) (by omega)
  have hl := bits_of_sum (x := l) (k := 8) (hi := ((63 * 4096 + w.toNat) * 16 + a.toNat) * 16 + b.toNat) (lo := n.toNat) (by omega)
  have hn := bits_of_sum (x := n) (k := 1) (hi := (((63 * 4096 + w.toNat) * 16 + a.toNat) * 16 + b.toNat) * 8 + l.toNat) (lo := 0) (by omega)
  generalize hv : 0xFC000000 + w.toNat * 16384 + a.toNat * 1024 + b.toNat * 64 + l.toNat * 8 + n.toNat * 1 = v
  refine ⟨by omega, ?_⟩
  rw [dec v (by omega), hw v (by rw [← hv]; ring), ha v (by rw [← hv]; ring), hb v (by rw [← hv]; ring),
    hl v (by rw [← hv]; ring), hn v (by rw [← hv]; ring)]

/-- The scope of a fence stands in the low bits of its function code (R132). -/
theorem readBack_fence (x : Scope) (o : Ord) : ReadBack (.fence x o) (0xA8000400 + x.code * 16 + o.code * 4) := by
  have := Scope.code_lt x; have := Ord.code_lt o
  have dec : ∀ w, w / 33554432 = 84 → w / 16 % 128 / 8 = 8 → w / 1 % 4 = 0 ∧ w / 2048 % 16384 = 0 →
      decodeNat w = some (.fence (scopeOf (w / 16)) (ordOf (w / 4))) := fun w hm hf h0 => by
    rw [decodeNat_54 hm, decode54]
    rcases (by omega : w / 16 % 128 = 64 ∨ w / 16 % 128 = 65 ∨ w / 16 % 128 = 66 ∨ w / 16 % 128 = 67 ∨ w / 16 % 128 = 68 ∨ w / 16 % 128 = 69 ∨
      w / 16 % 128 = 70 ∨ w / 16 % 128 = 71) with h | h | h | h | h | h | h | h <;> rw [h] <;> exact if_pos h0
  refine ⟨by omega, ?_⟩
  rw [dec _ (by omega) (by omega) (by omega), scopeOf_eq (x := x) (by omega), ordOf_eq (r := o) (by omega)]

theorem readBack_fencex (p q : BitVec 5) (x : Scope) :
    ReadBack (.fencex p q x) (0xA8000480 + p.toNat * 262144 + q.toNat * 2048 + x.code * 16) := by
  have := p.isLt; have := q.isLt; have := Scope.code_lt x
  have dec : ∀ w, w / 33554432 = 84 → w / 16 % 128 / 8 = 9 → w / 1 % 16 = 0 ∧ w / 65536 % 4 = 0 ∧ w / 8388608 % 4 = 0 →
      decodeNat w = some (.fencex (BitVec.ofNat 5 (w / 262144)) (BitVec.ofNat 5 (w / 2048)) (scopeOf (w / 16))) := fun w hm hf h0 => by
    rw [decodeNat_54 hm, decode54]
    rcases (by omega : w / 16 % 128 = 72 ∨ w / 16 % 128 = 73 ∨ w / 16 % 128 = 74 ∨ w / 16 % 128 = 75 ∨ w / 16 % 128 = 76 ∨ w / 16 % 128 = 77 ∨
      w / 16 % 128 = 78 ∨ w / 16 % 128 = 79) with h | h | h | h | h | h | h | h <;> rw [h] <;> exact if_pos h0
  refine ⟨by omega, ?_⟩
  rw [dec _ (by omega) (by omega) (by omega), bits_eq (x := p) (by omega), bits_eq (x := q) (by omega), scopeOf_eq (x := x) (by omega)]

/-- BNZ with the name 127 would be BRA; no legal BNZ has it (R36, R90). -/
theorem readBack_bnz (c : RName) (o : BitVec 18) (hc : c.toNat ≠ 127) : ReadBack (.bnz c o) (0xDC000000 + c.toNat * 262144 + o.toNat * 1) := by
  have := c.isLt; have := o.isLt
  have dec : ∀ w, w / 33554432 = 110 → w / 262144 % 128 ≠ 127 →
      decodeNat w = some (.bnz (BitVec.ofNat 7 (w / 262144)) (BitVec.ofNat 18 (w / 1))) := fun w hm h => by rw [decodeNat, hm]; exact if_neg h
  refine ⟨by omega, ?_⟩
  rw [dec _ (by omega) (by omega), bits_eq (x := c) (by omega), bits_eq (x := o) (by omega)]

theorem readBack_bra (o : BitVec 18) : ReadBack (.bra o) (0xDDFC0000 + o.toNat * 1) := by
  have := o.isLt
  have dec : ∀ w, w / 33554432 = 110 → w / 262144 % 128 = 127 → decodeNat w = some (.bra (BitVec.ofNat 18 (w / 1))) := fun w hm h => by
    rw [decodeNat, hm]; exact if_pos h
  refine ⟨by omega, ?_⟩
  rw [dec _ (by omega) (by omega), bits_eq (x := o) (by omega)]

/-- Every well-formed instruction with a word is read back from it. -/
theorem readBack_of_wf {i : Instr} {w : Nat} (hwf : i.wf = true) (hw : encodeNat i = some w) : ReadBack i w := by
  cases i with
  | clause w a b l n => exact .of_encodeNat rfl hw (readBack_clause w a b l n)
  | fence x o => exact .of_encodeNat rfl hw (readBack_fence x o)
  | fencex p q x => exact .of_encodeNat rfl hw (readBack_fencex p q x)
  | bra o => exact .of_encodeNat rfl hw (readBack_bra o)
  | bnz c o =>
    have hc : c.toNat < 124 := of_decide_eq_true hwf
    exact .of_encodeNat rfl hw (readBack_bnz c o (by omega))
  | eret | eretKill => exact .of_encodeNat rfl hw ⟨by decide, rfl⟩
  | iadd d a b | isub d a b | imul d a b | imulhS32 d a b | imulhZ32 d a b | imad d a b | iminS32 d a b | iminZ32 d a b | imaxS32 d a b
    | imaxZ32 d a b | andB d a b | orB d a b | xorB d a b | andn d a b | shl d a b | shr d a b | shra d a b | rotl d a b | bfx d a b | bfi d a b
    | cmpEq d a b | cmpNe d a b | cmpLtS32 d a b | cmpLtZ32 d a b | cmpLeS32 d a b | cmpLeZ32 d a b | sel d a b | iaddSatS32 d a b | adda d a b
    | adda64 d a b | suba d a b | cmpaLt d a b | faddF32 d a b | faddF64 d a b | faddF16 d a b | faddBf16 d a b | fsubF32 d a b | fsubF64 d a b
    | fsubF16 d a b | fsubBf16 d a b | fmulF32 d a b | fmulF64 d a b | fmulF16 d a b | fmulBf16 d a b | ffmaF32 d a b | ffmaF64 d a b | ffmaF16 d a b
    | ffmaBf16 d a b | ffmalF32 d a b | ffmalF64 d a b | ffmalF16 d a b | ffmalBf16 d a b | fminF32 d a b | fminF64 d a b | fminF16 d a b
    | fminBf16 d a b | fmaxF32 d a b | fmaxF64 d a b | fmaxF16 d a b | fmaxBf16 d a b | sadd d a b | ssub d a b | smul d a b | sand d a b | sor d a b
    | sxor d a b | sshl d a b | sshr d a b | scmpEq d a b | scmpLtS32 d a b | scmpLtZ32 d a b | sadda d a b | spld d a b | spst d a b =>
    exact .of_encodeNat rfl hw (readBack_src2 (by decide) (fun w hm => by rw [decodeNat, hm]; rfl) d a b)
  | vldEq d a b o | vldLe d a b o | vst d a b o =>
    exact .of_encodeNat rfl hw (readBack_version (by decide) (fun w hm => by rw [decodeNat, hm]; rfl) d a b o)
  | vfloor a b =>
    exact .of_encodeNat rfl hw (readBack_srcs (by decide) (fun w hm h0 => by rw [decodeNat, hm]; exact if_pos h0) a b)
  | mov d a | mov64 d a | notB d a | popc d a | clz d a | ctz d a | brev d a | bswap d a | sextS8 d a | sextS16 d a | zextZ8 d a | zextZ16 d a =>
    exact .of_encodeNat rfl hw (readBack_src1 (by decide) (fun w hm hf h0 => (decodeNat_4E hm).trans (by rw [decode4E, hf]; exact if_pos h0)) d a)
  | smov d a | smov64 d a | snot d a | spopc d a | sclz d a | sctz d a | sbrev d a | sbswap d a | ssextS8 d a | ssextS16 d a | szextZ8 d a
    | szextZ16 d a =>
    exact .of_encodeNat rfl hw (readBack_src1 (by decide) (fun w hm hf h0 => (decodeNat_4F hm).trans (by rw [decode4F, hf]; exact if_pos h0)) d a)
  | cvtF64F32 d a | cvtF32F16 d a | cvtF32Bf16 d a | cvtF32E4m3Lo d a | cvtF32E4m3Hi d a | cvtF32E5m2Lo d a | cvtF32E5m2Hi d a | cvtF32E5m3 d a
    | cvtE5m3F32 d a | cvtF64S32 d a | cvtF64Z32 d a | qpack d a | qunpk d a =>
    exact .of_encodeNat rfl hw (readBack_src1 (by decide) (fun w hm hf h0 => (decodeNat_50 hm).trans (by rw [decode50, hf]; exact if_pos h0)) d a)
  | spawn d a | spawnTry d a | qpop d a | qtry d a | stagepush d a | amsg d a =>
    exact .of_encodeNat rfl hw (readBack_src1 (by decide) (fun w hm hf h0 => (decodeNat_52 hm).trans (by rw [decode52, hf]; exact if_pos h0)) d a)
  | tagff d a | cld d a =>
    exact .of_encodeNat rfl hw (readBack_src1 (by decide) (fun w hm hf h0 => (decodeNat_54 hm).trans (by rw [decode54, hf]; exact if_pos h0)) d a)
  | wrsr n a =>
    exact .of_encodeNat rfl hw (readBack_src1 (by decide) (fun w hm hf h0 => (decodeNat_55 hm).trans (by rw [decode55, hf]; exact if_pos h0)) n a)
  | ineg d a s | iabsS32 d a s =>
    exact .of_encodeNat rfl hw (readBack_src1_bool (by decide) (fun w hm hf h0 => (decodeNat_4E hm).trans (by rw [decode4E, hf]; exact if_pos h0)) d a s)
  | sneg d a s | sabsS32 d a s =>
    exact .of_encodeNat rfl hw (readBack_src1_bool (by decide) (fun w hm hf h0 => (decodeNat_4F hm).trans (by rw [decode4F, hf]; exact if_pos h0)) d a s)
  | fneg d a t | fabs d a t | fsqrt d a t | frcp d a t | frsqrt d a t | fexp2 d a t | flog2 d a t | fsinpi d a t | fcospi d a t | ftanh d a t
    | frint d a t | ftrunc d a t | ffloor d a t | fceil d a t =>
    exact .of_encodeNat rfl hw (readBack_src1_fty (by decide) (fun w hm hf => (decodeNat_4E hm).trans (by rw [decode4E, hf]; rfl)) d a t)
  | fcmpEq d a t | fcmpNe d a t | fcmpLt d a t | fcmpLe d a t | fcmpUn d a t | fclass d a t =>
    exact .of_encodeNat rfl hw (readBack_src1_fty (by decide) (fun w hm hf => (decodeNat_50 hm).trans (by rw [decode50, hf]; rfl)) d a t)
  | cvtF32F64 d a r | cvtF16F32 d a r | cvtBf16F32 d a r | cvtE4m3F32Lo d a r | cvtE4m3F32Hi d a r | cvtE4m3F32NsatLo d a r | cvtE4m3F32NsatHi d a r
    | cvtE5m2F32Lo d a r | cvtE5m2F32Hi d a r | cvtS32F32 d a r | cvtZ32F32 d a r | cvtS64F32 d a r | cvtZ64F32 d a r | cvtS32F64 d a r
    | cvtZ32F64 d a r | cvtS64F64 d a r | cvtZ64F64 d a r | cvtF32S32 d a r | cvtF32Z32 d a r | cvtF32S64 d a r | cvtF32Z64 d a r | cvtF64S64 d a r
    | cvtF64Z64 d a r =>
    exact .of_encodeNat rfl hw (readBack_src1_rm (by decide) (fun w hm hf => (decodeNat_50 hm).trans (by rw [decode50, hf]; rfl)) d a r)
  | xall d a | xany d a | xeq d a | xbits d a | xget d a | xspread d a | xpermAbs d a | xpermFlip d a | xsame d a | redAdd d a | redMinS32 d a
    | redMinZ32 d a | redMaxS32 d a | redMaxZ32 d a | redAnd d a | redOr d a | redXor d a | redFaddF32 d a | redFminF32 d a | redFmaxF32 d a =>
    exact .of_encodeNat rfl hw (readBack_regs (by decide) (fun w hm hf h0 => (decodeNat_51 hm).trans (by rw [decode51, hf]; exact if_pos h0)) d a)
  | rdsr d n =>
    exact .of_encodeNat rfl hw (readBack_regs (by decide) (fun w hm hf h0 => (decodeNat_55 hm).trans (by rw [decode55, hf]; exact if_pos h0)) d n)
  | xpermLo d a w | xpermHi d a w | scanAdd d a w | scanMinS32 d a w | scanMinZ32 d a w | scanMaxS32 d a w | scanMaxZ32 d a w | scanAnd d a w
    | scanOr d a w | scanXor d a w | scanFaddF32 d a w | scanFminF32 d a w | scanFmaxF32 d a w =>
    exact .of_encodeNat rfl hw (readBack_regs_bool (by decide) (fun w hm hf h0 => (decodeNat_51 hm).trans (by rw [decode51, hf]; exact if_pos h0)) d a w)
  | join a | mon a =>
    exact .of_encodeNat rfl hw (readBack_src (by decide) (fun w hm hf h0 => (decodeNat_52 hm).trans (by rw [decode52, hf]; exact if_pos h0)) a)
  | tagwaitAny a | tagwaitAll a =>
    exact .of_encodeNat rfl hw (readBack_src (by decide) (fun w hm hf h0 => (decodeNat_54 hm).trans (by rw [decode54, hf]; exact if_pos h0)) a)
  | trap a =>
    exact .of_encodeNat rfl hw (readBack_src (by decide) (fun w hm hf h0 => (decodeNat_55 hm).trans (by rw [decode55, hf]; exact if_pos h0)) a)
  | mwait =>
    exact .of_encodeNat rfl hw (readBack_fixed (by decide) (fun w hm hf h0 => (decodeNat_52 hm).trans (by rw [decode52, hf]; exact if_pos h0)))
  | mtake | mpass =>
    exact .of_encodeNat rfl hw (readBack_fixed (by decide) (fun w hm hf h0 => (decodeNat_53 hm).trans (by rw [decode53, hf]; exact if_pos h0)))
  | bkpt | isync | yield =>
    exact .of_encodeNat rfl hw (readBack_fixed (by decide) (fun w hm hf h0 => (decodeNat_55 hm).trans (by rw [decode55, hf]; exact if_pos h0)))
  | qinit q a | qpush q a | allow q a =>
    exact .of_encodeNat rfl hw (readBack_queue (by decide) (fun w hm hf h0 => (decodeNat_52 hm).trans (by rw [decode52, hf]; exact if_pos h0)) q a)
  | mma b c i a =>
    exact .of_encodeNat rfl hw (readBack_mma (by decide) (fun w hm hf h0 => (decodeNat_53 hm).trans (by rw [decode53, hf]; exact if_pos h0)) b c i a)
  | mzero c =>
    exact .of_encodeNat rfl hw (readBack_mzero (by decide) (fun w hm hf h0 => (decodeNat_53 hm).trans (by rw [decode53, hf]; exact if_pos h0)) c)
  | obres n a | obimp n a =>
    exact .of_encodeNat rfl hw (readBack_slot (by decide) (fun w hm hf h0 => (decodeNat_53 hm).trans (by rw [decode53, hf]; exact if_pos h0)) n a)
  | obrel n =>
    exact .of_encodeNat rfl hw (readBack_obrel (by decide) (fun w hm hf h0 => (decodeNat_53 hm).trans (by rw [decode53, hf]; exact if_pos h0)) n)
  | mdrainF32Sp a m c | mdrainBf16Sp a m c | mdrainE4m3Sp a m c | mdrainE5m2Sp a m c =>
    exact .of_encodeNat rfl hw (readBack_drainSp (by decide) (fun w hm hf h0 => (decodeNat_53 hm).trans (by rw [decode53, hf]; exact if_pos h0)) a m c)
  | mdrainF32 d a m c | mdrainBf16 d a m c =>
    exact .of_encodeNat rfl hw (readBack_drain (by decide) (fun w hm hf h0 => (decodeNat_53 hm).trans (by rw [decode53, hf]; exact if_pos h0)) d a m c)
  | cpy d a k | cpym d a k | gath d a k | xred d a k =>
    exact .of_encodeNat rfl hw (readBack_engine (by decide) (fun w hm hf h0 => (decodeNat_54 hm).trans (by rw [decode54, hf]; exact if_pos h0)) d a k)
  | prefL1 a h x | prefLlc a h x =>
    exact .of_encodeNat rfl hw (readBack_prefetch (by decide) (fun w hm hf h0 => (decodeNat_54 hm).trans (by rw [decode54, hf]; exact if_pos h0)) a h x)
  | prefDemote a x =>
    exact .of_encodeNat rfl hw (readBack_demote (by decide) (fun w hm hf h0 => (decodeNat_54 hm).trans (by rw [decode54, hf]; exact if_pos h0)) a x)
  | gsave a | grest a =>
    exact .of_encodeNat rfl hw (readBack_pair (by decide) (fun w hm hf h0 => (decodeNat_55 hm).trans (by rw [decode55, hf]; exact if_pos h0)) a)
  | ldS8 t b o r s h | ldZ8 t b o r s h | ldS16 t b o r s h | ldZ16 t b o r s h | ldS32 t b o r s h | ld64 t b o r s h | st8 t b o r s h
    | st16 t b o r s h | st32 t b o r s h | st64 t b o r s h | sld32 t b o r s h | sld64 t b o r s h | sst32 t b o r s h | sst64 t b o r s h =>
    exact .of_encodeNat rfl hw (readBack_mem (by decide) (fun w hm => by rw [decodeNat, hm]; rfl) t b o r s h)
  | atomAdd32 t b r s h | atomMinS32 t b r s h | atomMinZ32 t b r s h | atomMaxS32 t b r s h | atomMaxZ32 t b r s h | atomAnd32 t b r s h
    | atomOr32 t b r s h | atomXor32 t b r s h | atomSwap32 t b r s h | atomCas32 t b r s h =>
    exact .of_encodeNat rfl hw (readBack_atom (by decide) (fun w hm hf => (decodeNat_64 hm).trans (by rw [decode64, hf]; rfl)) t b r s h)
  | atomAdd64 t b r s h | atomMinS64 t b r s h | atomMinZ64 t b r s h | atomMaxS64 t b r s h | atomMaxZ64 t b r s h | atomAnd64 t b r s h
    | atomOr64 t b r s h | atomXor64 t b r s h | atomSwap64 t b r s h | atomCas64 t b r s h =>
    exact .of_encodeNat rfl hw (readBack_atom (by decide) (fun w hm hf => (decodeNat_65 hm).trans (by rw [decode65, hf]; rfl)) t b r s h)
  | movi d i | movhi d i | smovi d i | smovhi d i | bz d i | call d i =>
    exact .of_encodeNat rfl hw (readBack_imm (by decide) (fun w hm => by rw [decodeNat, hm]; rfl) d i)
  | wbase i =>
    exact .of_encodeNat rfl hw (readBack_wbase (by decide) (fun w hm h0 => by rw [decodeNat, hm]; exact if_pos h0) i)
  | cbase i =>
    exact .of_encodeNat rfl hw (readBack_cbase (by decide) (fun w hm h0 => by rw [decodeNat, hm]; exact if_pos h0) i)
  | bar k n =>
    exact .of_encodeNat rfl hw (readBack_bar (by decide) (fun w hm h0 => by rw [decodeNat, hm]; exact if_pos h0) k n)
  | rcv s b =>
    exact .of_encodeNat rfl hw (readBack_rcv (by decide) (fun w hm h0 => by rw [decodeNat, hm]; exact if_pos h0) s b)
  | jmpi c | calli c | ret c | exit c =>
    exact .of_encodeNat rfl hw (readBack_target (by decide) (fun w hm h0 => by rw [decodeNat, hm]; exact if_pos h0) c)
  | _ => cases hw

/-- Exactly the events have no word. -/
theorem encodeNat_isNone (i : Instr) : (encodeNat i).isNone = noWord i := by cases i <;> rfl

/-- Settles O60: by format, an instruction's word holds its fields and the reserved bits, and the decoder reads them off. -/
theorem encodeDecode : Obligations.EncodeDecode := by
  refine ⟨fun i w hwf h => readBack_of_wf hwf h, fun w i _ h => encodeNat_of_decodeNat h, fun i w h => ?_, fun i => ?_⟩
  · rw [encode, h, Option.map_some]
  · rw [← encodeNat_isNone, Option.isNone_iff_eq_none]

/-- Settles O59: both directions are computed for each word. -/
theorem decodeWords : Obligations.DecodeWords := by
  unfold Obligations.DecodeWords
  decide +kernel

end Sys2Proof.Machine
end

