-- ==== Sys2Proof/Proofs/MemoryFrame.lean ====
section
/-! What leaves memory alone. Most of the model's updates change other parts of the state; here each has its frame rule
`(s.update …).mem = s.mem`, used by every proof that speaks of memory across an update. -/

set_option Elab.async false

namespace Sys2Proof.Machine

theorem State.foldl_mem {α : Type} {f : State → α → State} (hf : ∀ u x, (f u x).mem = u.mem) (l : List α) (s : State) :
    (l.foldl f s).mem = s.mem := by
  induction l generalizing s with
  | nil => rfl
  | cons x l ih => rw [List.foldl_cons, ih, hf]

theorem State.ite_mem {c : Prop} [Decidable c] {s t u : State} (ht : t.mem = s.mem) (hu : u.mem = s.mem) :
    (if c then t else u).mem = s.mem := by
  split
  · exact ht
  · exact hu

@[simp] theorem State.fall_mem (s : State) (gid : Nat) (t : Trap) : (s.fall gid t).mem = s.mem := rfl

@[simp] theorem State.endGroup_mem (s : State) (gid : Nat) : (s.endGroup gid).mem = s.mem := by
  have h : ∀ l : List Trap, (l.foldl (fun u h => u.fall gid h) s).mem = s.mem := fun l => State.foldl_mem (by intros; rfl) l s
  exact (State.foldl_mem (by intros; rfl) _ _).trans (h _)

@[simp] theorem State.touch_mem (s : State) (line : Nat) : (s.touch line).mem = s.mem := rfl
@[simp] theorem State.msi_mem (s : State) (d vec : Nat) : (s.msi d vec).mem = s.mem := rfl
@[simp] theorem State.haltGroup_mem (s : State) (gid : Nat) (t : Trap) (skids : Bool) : (s.haltGroup gid t skids).mem = s.mem :=
  State.foldl_mem (by intros; rfl) _ _
@[simp] theorem State.accept_mem (s : State) (d lid : Nat) (l : Launch) : (s.accept d lid l).mem = s.mem := rfl
@[simp] theorem State.addThread_mem (s : State) (d ctx lid : Nat) : (s.addThread d ctx lid).mem = s.mem := rfl
@[simp] theorem State.dropL1_mem (s : State) (core : Nat) : (s.dropL1 core).mem = s.mem := rfl

@[simp] theorem State.startGroup_mem (s : State) (core : Nat) (g : Group) (waves : Nat) (pc : W64) (launched : Lanes) (init : Wave → Wave) :
    (s.startGroup core g waves pc launched init).mem = s.mem := by
  unfold State.startGroup
  refine (State.foldl_mem (by intros; rfl) _ _).trans ?_
  simp only [State.modCore_mem, apply_ite State.mem, State.dropL1_mem, ite_self]

@[simp] theorem State.startThreads_mem (s : State) (d core : Nat) (ts : List Thread) :
    (s.startThreads d core ts).mem = s.mem := by simp [State.startThreads]
@[simp] theorem State.modUq_mem (s : State) (d q : Nat) (f : UQueue → UQueue) : (s.modUq d q f).mem = s.mem := rfl
@[simp] theorem State.advance_mem (s : State) (d q n : Nat) : (s.advance d q n).mem = s.mem := by
  simp [State.advance, apply_ite State.mem]

@[simp] theorem State.count_mem (t s : State) : (t.count s).mem = t.mem := by
  unfold State.count
  split <;> rfl

@[simp] theorem State.past_mem (s : State) (long : Bool) : (s.past long).mem = s.mem := rfl
@[simp] theorem State.afterFixed_mem (s : State) (g : Wave → Wave) : (s.afterFixed g).mem = s.mem := by simp [State.afterFixed]

@[simp] theorem State.dropLease_mem (s : State) (line : Nat) : (s.dropLease line).mem = s.mem := by
  unfold State.dropLease
  split <;> rfl

@[simp] theorem State.modCopy_mem (s : State) (line d : Nat) (f : Copy → Copy) : (s.modCopy line d f).mem = s.mem := rfl
@[simp] theorem State.answer_mem (s : State) (d st : Nat) (v : List Nat) : (s.answer d st v).mem = s.mem := rfl
@[simp] theorem State.drainRegs_mem (s : State) (core : Nat) (o : MxOp) : (s.drainRegs core o).mem = s.mem := rfl
@[simp] theorem State.modMx_mem (s : State) (core id : Nat) (f : MxOp → MxOp) : (s.modMx core id f).mem = s.mem := rfl
@[simp] theorem State.mxLeave_mem (s : State) (core : Nat) (o : MxOp) (flag : Nat) : (s.mxLeave core o flag).mem = s.mem := rfl
@[simp] theorem State.modPort_mem (s : State) (p : Nat) (f : Port → Port) : (s.modPort p f).mem = s.mem := rfl
@[simp] theorem State.fabSend_mem (s : State) (p flits : Nat) : (s.fabSend p flits).mem = s.mem := rfl

@[simp] theorem State.fabPacket_mem (s : State) (pa : Nat) : (s.fabPacket pa).mem = s.mem := by
  unfold State.fabPacket
  (repeat' split) <;> simp

@[simp] theorem State.hintAt_mem (s : State) (d line hint ctx : Nat) : (s.hintAt d line hint ctx).mem = s.mem := rfl
@[simp] theorem State.visit_mem (s : State) (d ctx hint : Nat) (ps : List (Nat × Nat × Nat)) : (s.visit d ctx hint ps).mem = s.mem := by
  simp [State.visit, apply_ite State.mem, State.foldl_mem]

@[simp] theorem State.followDone_mem (s : State) (core : Nat) (f : Follow) : (s.followDone core f).mem = s.mem := by
  unfold State.followDone
  split <;> rfl

@[simp] theorem State.copyEnded_mem (s : State) (core seq : Nat) (bad : Bool) : (s.copyEnded core seq bad).mem = s.mem := by
  unfold State.copyEnded
  (repeat' split) <;> simp [State.foldl_mem]

@[simp] theorem State.modEntry_mem (s : State) (core cls seq : Nat) (f : Entry → Entry) : (s.modEntry core cls seq f).mem = s.mem := rfl
@[simp] theorem State.modLink_mem (s : State) (a b : Nat) (f : Link → Link) : (s.modLink a b f).mem = s.mem := rfl

@[simp] theorem State.sendDir_mem (s : State) (m : DMsg) : (s.sendDir m).mem = s.mem := by
  unfold State.sendDir
  split <;> rfl

@[simp] theorem State.askFor_mem (s : State) (core leaf pa : Nat) (excl : Bool) : (s.askFor core leaf pa excl).mem = s.mem := by
  simp [State.askFor, apply_ite State.mem]
@[simp] theorem State.joinLine_mem (s : State) (line : Nat) (a : Asker) : (s.joinLine line a).mem = s.mem := rfl

@[simp] theorem State.joinAccess_mem (s : State) (o : MemOp) (a : Acc) : (s.joinAccess o a).mem = s.mem := by
  unfold State.joinAccess
  split <;> rfl

@[simp] theorem State.hinted_mem (s : State) (ctx core leaf pa hint : Nat) : (s.hinted ctx core leaf pa hint).mem = s.mem := by
  unfold State.hinted
  split <;> rfl

@[simp] theorem State.putGran_mem (s : State) (pa : Nat) (g : Gran) : (s.putGran pa g).mem = s.mem := rfl

@[simp] theorem State.useLine_mem (s : State) (pa : Nat) : (s.useLine pa).mem = s.mem := by
  unfold State.useLine
  split <;> rfl

@[simp] theorem State.usedLine_mem (s : State) (pa : Nat) : (s.usedLine pa).mem = s.mem := by simp [State.usedLine]
@[simp] theorem State.modOp_mem (s : State) (id : Nat) (f : MemOp → MemOp) : (s.modOp id f).mem = s.mem := rfl
@[simp] theorem State.modAccs_mem (s : State) (id : Nat) (p : Acc → Bool) (f : Acc → Acc) : (s.modAccs id p f).mem = s.mem := rfl
@[simp] theorem State.gotVer_mem (s : State) (o : MemOp) (a : Acc) (v : BitVec 256) (flit : Nat) :
    (s.gotVer o a v flit).mem = s.mem := by simp [State.gotVer]
@[simp] theorem State.unpark_mem (s : State) (d ctx page : Nat) (refused : Bool) : (s.unpark d ctx page refused).mem = s.mem :=
  State.foldl_mem (by intros; exact State.foldl_mem (by intros; rfl) _ _) _ _
@[simp] theorem State.sendPkt_mem (s : State) (src dst : Nat) (b : PktBody) : (s.sendPkt src dst b).mem = s.mem := rfl
@[simp] theorem State.dropLaunch_mem (s : State) (d key : Nat) : (s.dropLaunch d key).mem = s.mem :=
  State.ite_mem (State.foldl_mem (by intros; rfl) _ _) rfl
@[simp] theorem State.modTree_mem (s : State) (d t : Nat) (f : Tree → Tree) : (s.modTree d t f).mem = s.mem := rfl
@[simp] theorem State.unitDone_mem (s : State) (d t : Nat) (u : RUnit) : (s.unitDone d t u).mem = s.mem := rfl
@[simp] theorem State.modHeap_mem (s : State) (d ctx : Nat) (f : Heap → Heap) : (s.modHeap d ctx f).mem = s.mem := rfl
@[simp] theorem State.dropOwners_mem (s : State) (b n : Nat) : (s.dropOwners b n).mem = s.mem := rfl
@[simp] theorem State.disarmLines_mem (s : State) (p : Nat → Bool) : (s.disarmLines p).mem = s.mem := rfl
@[simp] theorem State.dropTlbs_mem (s : State) (d : Nat) (p : Nat → Nat → Nat → Bool) : (s.dropTlbs d p).mem = s.mem := rfl

@[simp] theorem State.l1Hit_mem (s : State) (core pa n v : Nat) : (s.l1Hit core pa n v).mem = s.mem := by
  unfold State.l1Hit
  split <;> rfl

@[simp] theorem State.dropOp_mem (s : State) (id : Nat) : (s.dropOp id).mem = s.mem := rfl

@[simp] theorem State.overOp_mem (s : State) (id : Nat) : (s.overOp id).mem = s.mem := by
  unfold State.overOp
  (repeat' split) <;> simp

@[simp] theorem State.await_mem (s : State) (w : WaitWord) (pend : Lanes) : (s.await w pend).mem = s.mem := rfl
@[simp] theorem State.barTest_mem (s : State) (gid k : Nat) : (s.barTest gid k).mem = s.mem := by
  exact State.ite_mem (State.foldl_mem (by intros; rfl) _ _) rfl
@[simp] theorem State.barTests_mem (s : State) (gid : Nat) : (s.barTests gid).mem = s.mem :=
  State.foldl_mem (fun u k => u.barTest_mem gid k) _ _
@[simp] theorem State.beatDone_mem (s : State) (core cls seq beat : Nat) : (s.beatDone core cls seq beat).mem = s.mem := rfl
@[simp] theorem State.bindPlates_mem (s : State) (d key g core : Nat) : (s.bindPlates d key g core).mem = s.mem := rfl
@[simp] theorem State.breakStall_mem (s : State) (core ctx : Nat) : (s.breakStall core ctx).mem = s.mem := rfl
@[simp] theorem State.cancelWaits_mem (s : State) (gid : Nat) : (s.cancelWaits gid).mem = s.mem :=
  State.foldl_mem (by intros; rfl) _ _
@[simp] theorem State.dropWatch_mem (s : State) (p : Nat → Nat → Nat → Nat → Bool) : (s.dropWatch p).mem = s.mem := rfl
@[simp] theorem State.passPtr_mem (s : State) (d core : Nat) : (s.passPtr d core).mem = s.mem := rfl
@[simp] theorem State.startChunk_mem (s : State) (key core index first n : Nat) (role : Option Nat) :
    (s.startChunk key core index first n role).mem = s.mem := by simp [State.startChunk]
@[simp] theorem State.startIndex_mem (s : State) (d key g core : Nat) (role : Option Nat) :
    (s.startIndex d key g core role).mem = s.mem := by simp [State.startIndex]
@[simp] theorem State.reflag_mem (s : State) (k : Nat) : (s.reflag k).mem = s.mem := rfl

@[simp] theorem State.contextResume_mem (s : State) (d ctx : Nat) : (s.contextResume d ctx).mem = s.mem := by
  unfold State.contextResume
  split <;> rfl

@[simp] theorem State.countUnit_mem (s : State) (d t : Nat) (u : RUnit) : (s.countUnit d t u).mem = s.mem :=
  State.foldl_mem (by intros; rfl) _ _

@[simp] theorem State.invFinish_mem (s : State) (d : Nat) : (s.invFinish d).mem = s.mem := by
  unfold State.invFinish
  split
  · rfl
  · dsimp only
    split <;> rfl

@[simp] theorem State.invalidate_mem (s : State) (d val : Nat) : (s.invalidate d val).mem = s.mem := by
  simp [State.invalidate, apply_ite State.mem]
@[simp] theorem State.pageZero_mem (s : State) (d n : Nat) : (s.pageZero d n).mem = s.mem := by
  simp [State.pageZero, apply_ite State.mem]

@[simp] theorem State.preemptDrain_mem (s : State) (d ctx : Nat) : (s.preemptDrain d ctx).mem = s.mem := by
  unfold State.preemptDrain
  split <;> rfl

@[simp] theorem State.handover_mem (s : State) (core gid : Nat) : (s.handover core gid).mem = s.mem := by
  unfold State.handover
  dsimp only
  split
  · rfl
  · split
    · exact State.foldl_mem (by intros; rfl) _ _
    · rfl

@[simp] theorem State.freeGroup_mem (s : State) (gid : Nat) : (s.freeGroup gid).mem = s.mem := by
  simp [State.freeGroup, apply_ite State.mem, State.foldl_mem]
@[simp] theorem State.descWrite_mem (s : State) (d q o m v : Nat) : (s.descWrite d q o m v).mem = s.mem := by
  simp [State.descWrite, apply_ite State.mem]

@[simp] theorem State.threadsOver_mem (s : State) (g : Group) : (s.threadsOver g).mem = s.mem := by
  unfold State.threadsOver
  split <;> rfl

@[simp] theorem State.loseGroup_mem (s : State) (gid : Nat) (g : Group) : (s.loseGroup gid g).mem = s.mem := by
  unfold State.loseGroup
  split <;> simp

@[simp] theorem State.poisonHeld_mem (s : State) (c : Nat) : (s.poisonHeld c).mem = s.mem := rfl

@[simp] theorem State.plateReset_mem (s : State) (p : Nat) : (s.plateReset p).mem = s.mem := by
  unfold State.plateReset
  split <;> rfl

@[simp] theorem State.grantNow_mem (s : State) (d ctx val : Nat) : (s.grantNow d ctx val).mem = s.mem := by
  simp [State.grantNow, apply_ite State.mem]

@[simp] theorem State.heapGrant_mem (s : State) (d ctx val : Nat) : (s.heapGrant d ctx val).mem = s.mem := by
  unfold State.heapGrant
  (repeat' split) <;> simp

@[simp] theorem State.rejoin_mem (s : State) (d : Nat) : (s.rejoin d).mem = s.mem := rfl
@[simp] theorem State.decided_mem (s u : State) (die k : Nat) (cs : List (Option State)) : (s.decided die k cs u).mem = u.mem := by
  simp [State.decided]

@[simp] theorem State.drainOne_mem (s : State) (core : Nat) (o : MxOp) (key : Nat) : (s.drainOne core o key).mem = s.mem := by
  unfold State.drainOne
  split <;> rfl

@[simp] theorem State.deliverOne_mem (s : State) (id lane reg : Nat) : (s.deliverOne id lane reg).mem = s.mem := by
  unfold State.deliverOne
  (repeat' split) <;> simp

@[simp] theorem State.demoteAt_mem (s : State) (d line ctx : Nat) : (s.demoteAt d line ctx).mem = s.mem := rfl

@[simp] theorem State.grantTo_mem (s : State) (line r : Nat) (st : Moesi) (fromHome noData : Bool) :
    (s.grantTo line r st fromHome noData).mem = s.mem := by
  unfold State.grantTo
  split <;> simp

@[simp] theorem State.modDir_mem (s : State) (line : Nat) (f : DirEnt → DirEnt) : (s.modDir line f).mem = s.mem := rfl
@[simp] theorem State.dirEnd_mem (s : State) (line : Nat) : (s.dirEnd line).mem = s.mem := by
  simp [State.dirEnd, apply_ite State.mem]
@[simp] theorem State.dirAnswer_mem (s : State) (line : Nat) (gone : Bool) : (s.dirAnswer line gone).mem = s.mem := by
  simp [State.dirAnswer, apply_ite State.mem]
@[simp] theorem State.tellAll_mem (s : State) (kind line : Nat) (ds : List Nat) :
    (s.tellAll kind line ds).mem = s.mem := by simp [State.tellAll, State.foldl_mem]
@[simp] theorem State.evictEntry_mem (s : State) (line : Nat) : (s.evictEntry line).mem = s.mem := by
  simp [State.evictEntry, apply_ite State.mem]

@[simp] theorem State.dirRoom_mem (s : State) (line pin : Nat) : (s.dirRoom line pin).mem = s.mem := by
  unfold State.dirRoom
  split <;> simp

@[simp] theorem State.gotMsg_mem (s : State) (k : Nat) : (s.gotMsg k).mem = s.mem := rfl
@[simp] theorem State.disarmAt_mem (s : State) (d : Nat) (p : Nat → Nat → Bool) : (s.disarmAt d p).mem = s.mem := rfl
@[simp] theorem State.mxDone_mem (s : State) (core : Nat) (o : MxOp) : (s.mxDone core o).mem = s.mem := rfl
@[simp] theorem State.mxDiscard_mem (s : State) (core gid acc : Nat) (but : Option Nat) : (s.mxDiscard core gid acc but).mem = s.mem :=
  State.foldl_mem (by intros; rfl) _ _

@[simp] theorem State.discardDoomed_mem (s : State) (gid : Nat) : (s.discardDoomed gid).mem = s.mem := by
  unfold State.discardDoomed
  dsimp only
  split
  · rfl
  · split <;> simp

@[simp] theorem State.evictCopy_mem (s : State) (d line : Nat) : (s.evictCopy d line).mem = s.mem := by
  simp [State.evictCopy, apply_ite State.mem]

@[simp] theorem State.noteWord_mem (s : State) (w : Nat) : (s.noteWord w).mem = s.mem := by
  unfold State.noteWord
  (repeat' split) <;> simp

@[simp] theorem State.putLanes_mem (s : State) (d : RName) (wide : Bool) (f : Nat → W64) : (s.putLanes d wide f).mem = s.mem := rfl
@[simp] theorem State.modQueue_mem (s : State) (gid q : Nat) (f : Queue → Queue) : (s.modQueue gid q f).mem = s.mem := rfl
@[simp] theorem State.tookOrder_mem (s : State) (place ord : Nat) : (s.tookOrder place ord).mem = s.mem := rfl

@[simp] theorem State.own_mem (s : State) (core leaf pa va : Nat) : (s.own core leaf pa va).mem = s.mem := by
  unfold State.own
  split <;> rfl

@[simp] theorem State.endCard_mem (s : State) (d key : Nat) : (s.endCard d key).mem = s.mem := by
  unfold State.endCard
  split <;> simp

@[simp] theorem State.dropAsked_mem (s : State) (d : Nat) (a : Acc) : (s.dropAsked d a).mem = s.mem := by
  unfold State.dropAsked
  split <;> rfl

@[simp] theorem State.mergeF_mem (s : State) (fl : Nat) : (s.mergeF fl).mem = s.mem := rfl
@[simp] theorem State.drainSp_mem (s : State) (core : Nat) (o : MxOp) : (s.drainSp core o).mem = s.mem := rfl

@[simp] theorem State.drainData_mem (s : State) (core : Nat) (o : MxOp) : (s.drainData core o).mem = s.mem := by
  have h : (if o.fn < 0x24 ∧ s.groups.has o.gid then s.drainSp core o else s).mem = s.mem := State.ite_mem (s.drainSp_mem core o) rfl
  exact State.ite_mem h h

@[simp] theorem State.sendAmx_mem (s : State) (core pa leaf : Nat) (o : MxOp) :
    (s.sendAmx core pa leaf o).mem = s.mem := by simp [State.sendAmx]
@[simp] theorem State.tookTurn_mem (s : State) (core cls seq : Nat) : (s.tookTurn core cls seq).mem = s.mem := rfl
@[simp] theorem State.exitTest_mem (s : State) (gid : Nat) : (s.exitTest gid).mem = s.mem :=
  State.ite_mem rfl (State.ite_mem rfl (State.ite_mem (State.foldl_mem (by intros; rfl) _ _) rfl))
@[simp] theorem State.redirect_mem (s : State) (gid key : Nat) (m : Lanes) (epc : W64) :
    (s.redirect gid key m epc).mem = s.mem := rfl

@[simp] theorem State.eretOp_mem (s : State) : s.eretOp.mem = s.mem := by
  unfold State.eretOp
  dsimp only
  split
  · refine (State.haltGroup_mem _ _ _ _).trans ((State.foldl_mem (by intros; rfl) _ _).trans ?_)
    simp [apply_ite State.mem]
  · refine (State.exitTest_mem _ _).trans ((State.foldl_mem (by intros; rfl) _ _).trans ?_)
    simp [apply_ite State.mem]

@[simp] theorem State.exitLanes_mem (s : State) (key : Nat) (gone : Lanes) : (s.exitLanes key gone).mem = s.mem := by
  simp [State.exitLanes]

@[simp] theorem State.fenceAt_mem (s : State) (rel acq wide : Bool) (ids tails : List Nat) :
    (s.fenceAt rel acq wide ids tails).mem = s.mem := by
  unfold State.fenceAt
  (repeat' split) <;> simp

@[simp] theorem State.hostRead_mem (s : State) : s.hostRead.mem = s.mem := rfl

@[simp] theorem State.fenceTo_mem (s : State) (rel acq : Bool) (scope : Nat) (wide : Bool) (ids tails : List Nat) :
    (s.fenceTo rel acq scope wide ids tails).mem = s.mem := by
  unfold State.fenceTo
  split <;> simp

@[simp] theorem State.sideband_mem (s : State) (st : Nat) (v : List Nat) : (s.sideband st v).mem = s.mem := by
  unfold State.sideband
  split <;> rfl

@[simp] theorem State.joinAsk_mem (s : State) (gid : Nat) : (s.joinAsk gid).mem = s.mem :=
  State.foldl_mem (fun u e => by
    split
    · exact u.askFor_mem _ _ _ _
    all_goals rfl) _ _

@[simp] theorem State.leaveMatrix_mem (s : State) (core gid : Nat) : (s.leaveMatrix core gid).mem = s.mem := by
  unfold State.leaveMatrix
  split <;> simp

@[simp] theorem State.usedLines_mem (s : State) (pa n : Nat) : (s.usedLines pa n).mem = s.mem := by
  unfold State.usedLines
  (repeat' split) <;> simp [State.foldl_mem]

@[simp] theorem State.sideUp_mem (s : State) (die : Nat) : (s.sideUp die).mem = s.mem := by
  unfold State.sideUp
  split <;> rfl

@[simp] theorem State.modLanePath_mem (s : State) (key lane : Nat) (f : Path → Path) : (s.modLanePath key lane f).mem = s.mem := rfl

@[simp] theorem State.joinLane_mem (s : State) (core slot lane : Nat) (a : Acc) : (s.joinLane core slot lane a).mem = s.mem := by
  unfold State.joinLane
  split <;> rfl

@[simp] theorem State.watchAgain_mem (s : State) (core slot lane gid : Nat) (a : Acc) :
    (s.watchAgain core slot lane gid a).mem = s.mem := by
  unfold State.watchAgain
  (repeat' split) <;> simp

@[simp] theorem State.takeLease_mem (s : State) (core line : Nat) : (s.takeLease core line).mem = s.mem := rfl

@[simp] theorem State.enterChain_mem (s : State) (flag : Nat) (o : MxOp) : (s.enterChain flag o).mem = s.mem := by
  unfold State.enterChain
  split <;> rfl

@[simp] theorem State.freshKeys_mem (s : State) (d : Nat) : (s.freshKeys d).mem = s.mem := rfl
@[simp] theorem State.finishLanes_mem (s : State) (core slot lane : Nat) (m : Lanes) : (s.finishLanes core slot lane m).mem = s.mem := rfl
@[simp] theorem State.hold_mem (s : State) (o : MemOp) (a : Acc) : (s.hold o a).mem = s.mem := rfl

@[simp] theorem State.spStep_mem (s : State) (o : MemOp) (a : Acc) : (s.spStep o a).mem = s.mem := by
  unfold State.spStep
  (repeat' split) <;> simp

@[simp] theorem State.fillTlb_mem (s : State) (core ctx page w : Nat) : (s.fillTlb core ctx page w).mem = s.mem := rfl

@[simp] theorem State.queuePerform_mem (s : State) (core slot lane : Nat) : (s.queuePerform core slot lane).mem = s.mem := by
  unfold State.queuePerform
  dsimp only
  split
  · rfl
  · split
    · split <;> simp
    · split <;> simp
    · rfl

@[simp] theorem State.putS_mem (s : State) (d : RName) (v : Sys2Proof.W32) : (s.putS d v).mem = s.mem := rfl
@[simp] theorem State.dropLate_mem (s : State) (d t router round pkt port : Nat) : (s.dropLate d t router round pkt port).mem = s.mem :=
  State.foldl_mem (by intros; rfl) _ _
@[simp] theorem State.modUnit_mem (s : State) (d t : Nat) (u : RUnit) (f : RUnit → RUnit) : (s.modUnit d t u f).mem = s.mem := rfl
@[simp] theorem State.placedLanes_mem (s : State) (core slot lane : Nat) (k : List Thread → WaitWord) (before left : List Thread) :
    (s.placedLanes core slot lane k before left).mem = s.mem := rfl
@[simp] theorem State.putS64_mem (s : State) (d : RName) (v : W64) : (s.putS64 d v).mem = s.mem := rfl
@[simp] theorem State.wakeVer_mem (s : State) (pa v : Nat) (x : BitVec 256) : (s.wakeVer pa v x).mem = s.mem := rfl
@[simp] theorem State.select_mem (s : State) (core slot : Nat) (p : Path) : (s.select core slot p).mem = s.mem := rfl

@[simp] theorem State.migrate_mem (s : State) (d page : Nat) (on : Bool) : (s.migrate d page on).mem = s.mem := by
  unfold State.migrate
  split <;> rfl

@[simp] theorem State.pass_mem (s : State) (rc ac : Nat) : (s.pass rc ac).mem = s.mem := rfl
@[simp] theorem State.quiet_mem (s : State) (who : Nat) (on : Bool) : (s.quiet who on).mem = s.mem := rfl
@[simp] theorem State.grantFinish_mem (s : State) (d ctx : Nat) : (s.grantFinish d ctx).mem = s.mem := by
  simp [State.grantFinish, apply_ite State.mem]

@[simp] theorem State.keyFinish_mem (s : State) (d : Nat) : (s.keyFinish d).mem = s.mem := by
  unfold State.keyFinish
  split <;> rfl

@[simp] theorem State.preempted_mem (s : State) (d ctx : Nat) : (s.preempted d ctx).mem = s.mem := by
  unfold State.preempted
  split <;> rfl

@[simp] theorem State.dropCode_mem (s : State) (frame : Nat) : (s.dropCode frame).mem = s.mem := rfl
@[simp] theorem State.setRoute_mem (s : State) (oid pkg : Nat) (mask : BitVec 16) : (s.setRoute oid pkg mask).mem = s.mem := rfl

end Sys2Proof.Machine
end

