-- ==== Sys2Proof/Proofs/MemoryInv.lean ====
section
/-! What writes memory, and keeps it canonical (log 3). Four functions write it: `State.rekeyBlock`, `State.wrKey`, `State.backKey`
and `State.backLine`, all through `Mem.put`. Every other function of this part reaches memory through those alone, so its lemma
names the functions it calls. A result that may be absent is told by an equation with `some`, a pair by its state. -/

set_option Elab.async false

namespace Sys2Proof.Machine

theorem State.inv_congr {s t : State} (e : t.mem = s.mem) (h : s.Inv) : t.Inv := by rw [State.Inv, e]; exact h

theorem State.foldl_inv {α : Type} {f : State → α → State} (hf : ∀ u x, u.Inv → (f u x).Inv) {l : List α} {s : State} (h : s.Inv) :
    (l.foldl f s).Inv := by
  induction l generalizing s with
  | nil => exact h
  | cons x l ih => exact ih (hf s x h)

theorem State.rekeyBlock_inv {s : State} (h : s.Inv) (b key : Nat) : (s.rekeyBlock b key).Inv := by
  unfold State.rekeyBlock
  dsimp only
  split
  · exact h
  · split
    · exact h
    · generalize List.range 16 = l
      exact Mem.puts_wf l (fun i => 16 * b + i) (fun _ i => s.rdByte (16 * b + i) key) h

theorem State.rekey_inv {s : State} (h : s.Inv) (pa n key : Nat) : (s.rekey pa n key).Inv :=
  State.foldl_inv (fun _ _ hu => State.rekeyBlock_inv hu _ _) h
theorem State.wrKey_inv {s : State} (h : s.Inv) (pa key n v : Nat) : (s.wrKey pa key n v).Inv :=
  Mem.store_wf _ _ _ (State.rekey_inv h pa n key)
theorem State.backKey_inv {s : State} (h : s.Inv) (pa key n v : Nat) : (s.backKey pa key n v).Inv :=
  Mem.store_wf _ _ _ (State.rekey_inv h pa n key)

theorem State.backLine_inv {s : State} (h : s.Inv) (line : Nat) (x : L1Line) : (s.backLine line x).Inv := by
  unfold State.backLine
  split
  · exact h
  · have hr := State.foldl_inv (f := fun (u : State) i => if x.dirty.getLsbD i then u.rekey (128 * line + i) 1 x.key else u)
      (l := List.range 128) (fun u i hu => by split; exacts [State.rekey_inv hu _ _ _, hu]) h
    refine List.foldlRecOn (motive := fun m => Memory.wf m = true) _ _ hr fun m hm i _ => ?_
    split
    · exact Mem.put_wf _ _ hm
    · exact hm

/-- Each starter of a placement keeps the memory canonical. -/
def StartersKeep (es : List Starter) : Prop := ∀ e ∈ es, ∀ (u : State) (c : Nat) (role : Option Nat), u.Inv → (e.2 u c role).Inv

theorem startersKeep_map {α : Type} {l : List α} {i : α → Nat} {f : α → State → Nat → Option Nat → State}
    (hf : ∀ a u c role, u.Inv → (f a u c role).Inv) : StartersKeep (l.map fun a => (i a, f a)) := by
  intro e he u c role hu
  obtain ⟨a, -, rfl⟩ := List.mem_map.mp he
  exact hf a u c role hu

theorem State.getD_inv {o : Option State} {s : State} (ho : ∀ t, o = some t → t.Inv) (h : s.Inv) : (o.getD s).Inv := by
  cases o with
  | none => exact h
  | some t => exact ho t rfl

theorem State.ite_inv {c : Prop} [Decidable c] {s t : State} (hs : s.Inv) (ht : t.Inv) : (if c then s else t).Inv := by
  split
  · exact hs
  · exact ht

theorem State.wrOwn_inv {s : State} (h : s.Inv) (pa n v : Nat) : (s.wrOwn pa n v).Inv := by
  unfold State.wrOwn
  grind only [State.Inv, State.wrKey_inv]

theorem State.logCtx_inv {s : State} (h : s.Inv) (d ctx kind flags body : Nat) : (s.logCtx d ctx kind flags body).Inv := by
  unfold State.logCtx
  grind only [State.Inv, State.modDie_mem, State.wrOwn_inv]

theorem State.logSys_inv {s : State} (h : s.Inv) (d kind flags ctx body : Nat) : (s.logSys d kind flags ctx body).Inv := by
  unfold State.logSys
  grind only [State.Inv, State.modDie_mem, State.msi_mem, State.wrOwn_inv]

theorem State.trapRecord_inv {s : State} (h : s.Inv) (gid : Nat) (t : Trap) (double : Bool) : (s.trapRecord gid t double).Inv := by
  unfold State.trapRecord
  grind only [State.Inv, State.logCtx_inv, State.logSys_inv]

theorem State.endWithError_inv {s : State} (h : s.Inv) (gid : Nat) (t : Trap) (double : Bool) : (s.endWithError gid t double).Inv := by
  unfold State.endWithError
  grind only [State.Inv, State.endGroup_mem, State.trapRecord_inv]

theorem State.trapA_inv {s : State} (h : s.Inv) (gid : Nat) (t : Trap) (own : Bool) : (s.trapA gid t own).Inv := by
  unfold State.trapA
  grind only [State.Inv, State.modGroup_mem, State.haltGroup_mem, State.endWithError_inv]

theorem State.engTrap_inv {s : State} (h : s.Inv) (gid slot code eaddr : Nat) (own : Bool) (flag : Nat) :
    (s.engTrap gid slot code eaddr own flag).Inv := by
  unfold State.engTrap
  grind only [State.Inv, State.trapA_inv]

theorem State.accRead_inv {s : State} (h : s.Inv) (core : Nat) (o : MxOp) : (s.accRead core o).Inv := by
  unfold State.accRead
  grind only [State.Inv, State.modCore_mem, State.engTrap_inv]

theorem State.admitBin_inv {s : State} (h : s.Inv) {z : State} (core k : Nat) (e : s.admitBin core k = some z) : z.Inv := by
  unfold State.admitBin at e
  grind only [State.Inv, State.modCore_mem, State.startThreads_mem]

theorem State.landData_inv {s : State} (h : s.Inv) (line : Nat) : (s.landData line).Inv := by
  unfold State.landData
  grind only [State.Inv, State.backKey_inv, State.foldl_inv]

theorem State.recallCopies_inv {s : State} (h : s.Inv) (line : Nat) : (s.recallCopies line).Inv := by
  unfold State.recallCopies
  grind only [State.Inv, State.backKey_inv, State.modCopy_mem, State.landData_inv, State.foldl_inv]

theorem State.settleLine_inv {s : State} (h : s.Inv) (line : Nat) : (s.settleLine line).Inv := by
  unfold State.settleLine
  grind only [State.Inv, State.dropLease_mem, State.recallCopies_inv]

theorem State.agentWrite_inv {s : State} (h : s.Inv) (pa n key v : Nat) : (s.agentWrite pa n key v).Inv := by
  unfold State.agentWrite
  grind only [State.Inv, State.settleLine_inv, State.wrKey_inv, State.foldl_inv]

theorem State.mxFail_inv {s : State} (h : s.Inv) (core : Nat) (o : MxOp) (code eaddr : Nat) : (s.mxFail core o code eaddr).Inv := by
  unfold State.mxFail
  grind only [State.Inv, State.mxLeave_mem, State.engTrap_inv]

theorem State.answerDrains_inv {s : State} (h : s.Inv) (d ctx page : Nat) (refused : Bool) (wix : Option Nat) :
    (s.answerDrains d ctx page refused wix).Inv := by
  unfold State.answerDrains
  grind only [State.Inv, State.drainRegs_mem, State.modMx_mem, State.mxFail_inv, State.foldl_inv]

theorem State.logCross_inv {s : State} (h : s.Inv) (d ctx va pa : Nat) : (s.logCross d ctx va pa).Inv := by
  unfold State.logCross
  grind only [State.Inv, State.logCtx_inv]

theorem State.deliverFault_inv {s : State} (h : s.Inv) (d : Nat) : (s.deliverFault d).Inv := by
  unfold State.deliverFault
  grind only [State.Inv, State.modDie_mem, State.msi_mem, State.wrOwn_inv]

theorem State.rewriteFault_inv {s : State} (h : s.Inv) (d : Nat) (f : Frec) : (s.rewriteFault d f).Inv := by
  unfold State.rewriteFault
  grind only [State.Inv, State.wrOwn_inv]

theorem State.raiseFault_inv {s : State} (h : s.Inv) (d ctx page src : Nat) (fetch write : Bool) :
    (s.raiseFault d ctx page src fetch write).Inv := by
  unfold State.raiseFault
  grind only [State.Inv, State.rewriteFault_inv, State.modDie_mem, State.deliverFault_inv]

theorem State.anyWrite_inv {s : State} (h : s.Inv) (pa n key v ctx : Nat) : (s.anyWrite pa n key v ctx).Inv := by
  unfold State.anyWrite
  grind only [State.Inv, State.agentWrite_inv]

theorem State.writeParts_inv {s : State} (h : s.Inv) (ctx v : Nat) (xs : List (Nat × Nat × Nat)) : (s.writeParts ctx v xs).Inv := by
  induction xs generalizing s v with
  | nil => exact h
  | cons p xs ih => exact ih (State.anyWrite_inv h _ _ _ _ _) _

theorem State.completionWords_inv {s : State} (h : s.Inv) (core cls fuel : Nat) : (s.completionWords core cls fuel).Inv := by
  induction fuel generalizing s with
  | zero => exact h
  | succ n ih =>
    unfold State.completionWords
    dsimp only
    (repeat' split)
    all_goals grind only [State.Inv, State.engTrap_inv, State.raiseFault_inv, State.logCross_inv, State.writeParts_inv,
      State.modCore_mem, State.visit_mem]

theorem State.completeEntry_inv {s : State} (h : s.Inv) (core cls seq : Nat) (err : Option (Nat × Nat)) :
    (s.completeEntry core cls seq err).Inv := by
  unfold State.completeEntry
  grind only [State.Inv, State.completionWords_inv, State.modCore_mem, State.copyEnded_mem, State.engTrap_inv, State.modWave_mem]

theorem State.answerEntries_inv {s : State} (h : s.Inv) (d ctx page : Nat) (refused : Bool) (wix : Option Nat) :
    (s.answerEntries d ctx page refused wix).Inv := by
  unfold State.answerEntries
  grind only [State.Inv, State.modEntry_mem, State.completeEntry_inv, State.foldl_inv]

theorem State.failAmx_inv {s : State} (h : s.Inv) (o : MemOp) : (s.failAmx o).Inv := by
  unfold State.failAmx
  grind only [State.Inv, State.mxFail_inv, State.foldl_inv]

theorem State.failAccs_inv {s : State} (h : s.Inv) (id code : Nat) (lanes : List Nat) : (s.failAccs id code lanes).Inv := by
  unfold State.failAccs
  grind only [State.Inv, State.trapA_inv, State.failAmx_inv]

theorem State.l1Drop_inv {s : State} (h : s.Inv) (core line : Nat) : (s.l1Drop core line).Inv := by
  unfold State.l1Drop
  grind only [State.Inv, State.modCore_mem, State.backLine_inv]

theorem State.l1Put_inv {s : State} (h : s.Inv) (core line : Nat) (x : L1Line) : (s.l1Put core line x).Inv := by
  unfold State.l1Put
  grind only [State.Inv, State.modCore_mem, State.l1Drop_inv]

theorem State.privFill_inv {s : State} (h : s.Inv) (core leaf pa : Nat) : (s.privFill core leaf pa).Inv := by
  unfold State.privFill
  grind only [State.Inv, State.l1Put_inv]

theorem State.loadAt_inv {s : State} (h : s.Inv) {z : State} (ctx core leaf pa n hint : Nat) (fill : Bool) {v : Nat} (e : s.loadAt ctx core leaf pa n hint fill = .ok z v) :
    z.Inv := by
  unfold State.loadAt at e
  grind only [State.Inv, State.usedLine_mem, State.privFill_inv, State.l1Put_inv, State.hinted_mem]

theorem State.loadStep_inv {s : State} (h : s.Inv) (o : MemOp) (a : Acc) (fromL1 : Bool) (flit : Nat) :
    (s.loadStep o a fromL1 flit).Inv := by
  unfold State.loadStep
  grind only [State.Inv, State.joinAccess_mem, State.askFor_mem, State.modAccs_mem, State.failAccs_inv, → State.loadAt_inv]

theorem State.failVer_inv {s : State} (h : s.Inv) (o : MemOp) (a : Acc) (code : Nat) : (s.failVer o a code).Inv := by
  unfold State.failVer
  grind only [State.Inv, State.failAccs_inv]

theorem State.readVer_inv {s : State} (h : s.Inv) (o : MemOp) (a : Acc) (v flit : Nat) : (s.readVer o a v flit).Inv := by
  unfold State.readVer
  grind only [State.Inv, State.gotVer_mem, State.failVer_inv]

theorem State.answerHeld_inv {s : State} (h : s.Inv) (flit : Nat) (o : MemOp) (a : Acc) : (s.answerHeld flit o a).Inv := by
  unfold State.answerHeld
  grind only [State.Inv, State.loadStep_inv, State.readVer_inv]

theorem State.answerLanes_inv {s : State} (h : s.Inv) (d ctx page : Nat) (refused : Bool) (ps : List Parked) :
    (s.answerLanes d ctx page refused ps).Inv := by
  unfold State.answerLanes
  grind only [State.Inv, State.trapA_inv, State.unpark_mem, State.foldl_inv]

theorem State.refuseRecord_inv {s : State} (h : s.Inv) (d ctx queue tag reason off : Nat) :
    (s.refuseRecord d ctx queue tag reason off).Inv := by
  unfold State.refuseRecord
  grind only [State.Inv, State.logCtx_inv]

theorem State.refuseLaunch_inv {s : State} (h : s.Inv) (d key : Nat) (r : Nat × Nat) : (s.refuseLaunch d key r).Inv := by
  unfold State.refuseLaunch
  grind only [State.Inv, State.dropLaunch_mem, State.refuseRecord_inv]

theorem State.answerLaunches_inv {s : State} (h : s.Inv) (d ctx page : Nat) (refused : Bool) :
    (s.answerLaunches d ctx page refused).Inv := by
  unfold State.answerLaunches
  grind only [State.Inv, State.modLaunch_mem, State.refuseLaunch_inv, State.foldl_inv]

theorem State.stopQueue_inv {s : State} (h : s.Inv) (d q tag v : Nat) : (s.stopQueue d q tag v).Inv := by
  unfold State.stopQueue
  grind only [State.Inv, State.modDie_mem, State.logCtx_inv]

theorem State.answerQueues_inv {s : State} (h : s.Inv) (d ctx page : Nat) (refused : Bool) : (s.answerQueues d ctx page refused).Inv := by
  unfold State.answerQueues
  grind only [State.Inv, State.stopQueue_inv, State.modUq_mem, State.refuseRecord_inv, State.advance_mem, State.foldl_inv]

theorem State.answerReissued_inv {s : State} (h : s.Inv) (d ctx page : Nat) (wix : Option Nat) : (s.answerReissued d ctx page wix).Inv := by
  unfold State.answerReissued
  grind only [State.Inv, State.failAccs_inv, State.foldl_inv]

theorem State.failUnit_inv {s : State} (h : s.Inv) (d t : Nat) (u : RUnit) (va : Nat) : (s.failUnit d t u va).Inv := by
  unfold State.failUnit
  grind only [State.Inv, State.completeEntry_inv, State.foldl_inv]

theorem State.answerTrees_inv {s : State} (h : s.Inv) (d ctx page : Nat) : (s.answerTrees d ctx page).Inv := by
  unfold State.answerTrees
  grind only [State.Inv, State.failUnit_inv, State.unitDone_mem, State.foldl_inv]

theorem State.skipWord_inv {s : State} (h : s.Inv) (core cls : Nat) : (s.skipWord core cls).Inv := by
  unfold State.skipWord
  grind only [State.Inv, State.modCore_mem, State.engTrap_inv]

theorem State.answerWords_inv {s : State} (h : s.Inv) (d ctx page : Nat) (refused : Bool) (wix : Option Nat) :
    (s.answerWords d ctx page refused wix).Inv := by
  unfold State.answerWords
  grind only [State.Inv, State.completionWords_inv, State.modCore_mem, State.skipWord_inv, State.foldl_inv]

theorem State.answerWave_inv {s : State} (h : s.Inv) (d ctx page : Nat) (refused : Bool) (ps : List Parked) (wix : Option Nat) :
    (s.answerWave d ctx page refused ps wix).Inv := by
  unfold State.answerWave
  grind only [State.Inv, State.answerLanes_inv, State.answerWords_inv, State.answerReissued_inv, State.answerDrains_inv,
    State.answerEntries_inv]

theorem State.heapPut_inv {s : State} (h : s.Inv) (a r : Nat) : (s.heapPut a r).Inv := by
  unfold State.heapPut
  grind only [State.Inv, State.agentWrite_inv]

theorem State.heapLink_inv {s : State} (h : s.Inv) (a nxt : Nat) : (s.heapLink a nxt).Inv := by
  unfold State.heapLink
  grind only [State.Inv, State.heapPut_inv]

theorem State.fromHeap_inv {s : State} (h : s.Inv) (pa : Nat) (g : Gran) (v : Nat) : (s.fromHeap pa g v).1.Inv := by
  unfold State.fromHeap
  grind only [State.Inv, State.modHeap_mem, State.heapLink_inv]

theorem State.refill_inv {s : State} (h : s.Inv) (pa : Nat) (g : Gran) (fuel : Nat) : (s.refill pa g fuel).1.Inv := by
  induction fuel generalizing s g with
  | zero => exact h
  | succ n ih =>
    unfold State.refill
    grind only [State.fromHeap_inv]

theorem State.applyFloor_inv {s : State} (h : s.Inv) (pa fl : Nat) : (s.applyFloor pa fl).Inv := by
  unfold State.applyFloor
  have hf (l : List Nat) (g : Gran) : (l.foldl (fun (q : State × Gran) v => q.1.fromHeap pa q.2 v) (s, g)).1.Inv :=
    List.foldlRecOn (motive := fun q : State × Gran => q.1.Inv) _ _ h fun q hq v _ => State.fromHeap_inv hq _ _ _
  exact State.inv_congr (State.putGran_mem _ _ _) (State.refill_inv (hf _ _) _ _ _)

theorem State.dropRange_inv {s : State} (h : s.Inv) (b n : Nat) : (s.dropRange b n).Inv := by
  unfold State.dropRange
  grind only [State.Inv, State.backLine_inv, State.recallCopies_inv, State.disarmLines_mem, State.foldl_inv]

theorem State.setClass_inv {s : State} (h : s.Inv) (d ctx va : Nat) (cc pin ver : Option Nat) : (s.setClass d ctx va cc pin ver).Inv := by
  unfold State.setClass
  grind only [State.Inv, State.dropRange_inv, State.dropTlbs_mem, State.agentWrite_inv, State.dropOwners_mem, State.foldl_inv]

theorem State.verPages_inv {s : State} (h : s.Inv) (ctx base ngran ver : Nat) : (s.verPages ctx base ngran ver).Inv := by
  unfold State.verPages
  grind only [State.Inv, State.setClass_inv, State.foldl_inv]

theorem State.armRegion_inv {s : State} (h : s.Inv) (d ctx : Nat) (r : RegionE) : (s.armRegion d ctx r).Inv := by
  unfold State.armRegion
  grind only [State.Inv, State.verPages_inv, State.foldl_inv]

theorem State.perform_inv {s : State} (h : s.Inv) {z : State} (core leaf pa n v : Nat) (e : s.perform core leaf pa n v = some z) :
    z.Inv := by
  unfold State.perform at e
  grind only [State.Inv, State.touch_mem, State.wrKey_inv, State.modCopy_mem]

theorem State.privPut_inv {s : State} (h : s.Inv) (core leaf pa n v : Nat) : (s.privPut core leaf pa n v).Inv := by
  unfold State.privPut
  grind only [State.Inv, State.touch_mem, State.modCore_mem, State.privFill_inv]

theorem State.storeAt_inv {s : State} (h : s.Inv) (o : MemOp) (a : Acc) (n v : Nat) {z} (e : s.storeAt o a n v = some z) : z.1.Inv := by
  unfold State.storeAt at e
  grind only [State.Inv, State.privPut_inv, State.wrKey_inv, → State.perform_inv, State.hinted_mem, State.l1Hit_mem]

theorem State.atomOne_inv {s : State} (h : s.Inv) (o : MemOp) (a : Acc) {z} (e : s.atomOne o a = some z) : z.1.Inv := by
  unfold State.atomOne at e
  grind only [State.Inv, → State.storeAt_inv, State.privFill_inv, State.hinted_mem]

theorem State.atomAll_inv {s : State} (h : s.Inv) {z : State} (o : MemOp) (xs : List Acc) (e : s.atomAll o xs = some z) : z.Inv := by
  induction xs generalizing s with
  | nil => cases e; exact h
  | cons a r ih =>
    unfold State.atomAll at e
    grind only [State.Inv, → State.atomOne_inv, State.modAccs_mem]

theorem State.sendHeld_inv {s : State} (h : s.Inv) (d line : Nat) : (s.sendHeld d line).Inv := by
  unfold State.sendHeld
  grind only [State.Inv, State.answerHeld_inv, State.modDie_mem, State.foldl_inv]

theorem State.atomStep_inv {s : State} (h : s.Inv) (o : MemOp) (a : Acc) : (s.atomStep o a).Inv := by
  unfold State.atomStep
  grind only [State.Inv, State.sendHeld_inv, State.askFor_mem, State.modCore_mem, State.failAccs_inv, State.overOp_mem, → State.atomAll_inv]

theorem State.trapP_inv {s : State} (h : s.Inv) (t : Trap) : (s.trapP t).Inv := by
  unfold State.trapP
  grind only [State.Inv, State.modCw_mem, State.haltGroup_mem, State.endWithError_inv]

theorem State.bankFail_inv {s : State} (h : s.Inv) (srcs : List Src) : (s.bankFail srcs).Inv := by
  unfold State.bankFail
  grind only [State.Inv, State.modCp_mem, State.trapP_inv, State.raiseFault_inv]

theorem State.msgPut_inv {s : State} (h : s.Inv) {z : State} (d : Nat) (t : Thread) (e : s.msgPut d t = some z) : z.Inv := by
  unfold State.msgPut at e
  grind only [State.Inv, State.agentWrite_inv, State.modDie_mem]

theorem State.spillPut_inv {s : State} (h : s.Inv) {z : State} (d : Nat) (t : Thread) (e : s.spillPut d t = some z) : z.Inv := by
  unfold State.spillPut at e
  grind only [State.Inv, State.agentWrite_inv, State.modDie_mem]

theorem State.overflow_inv {s : State} (h : s.Inv) {z : State} (d : Nat) (t : Thread) (e : s.overflow d t = some z) : z.Inv := by
  unfold State.overflow at e
  grind only [State.Inv, → State.spillPut_inv, → State.msgPut_inv]

theorem State.spillBin_inv {s : State} (h : s.Inv) {z : State} (d : Nat) (ts : List Thread) (e : s.spillBin d ts = some z) : z.Inv := by
  unfold State.spillBin at e
  revert z
  refine List.foldlRecOn (motive := fun o : Option State => ∀ {z}, o = some z → z.Inv) _ _ ?_ fun o ho t _ => ?_
  · grind only
  · grind only [→ State.overflow_inv]

theorem State.binsOut_inv {s : State} (h : s.Inv) (c : Nat) : (s.binsOut c).Inv := by
  unfold State.binsOut
  refine State.inv_congr (State.modCore_mem _ _ _) (List.foldlRecOn (motive := fun q : State × List Bin => q.1.Inv) _ _ h fun q hq b _ => ?_)
  grind only [→ State.spillBin_inv]

theorem State.chainPut_inv {s : State} (h : s.Inv) (pa : Nat) (g : Gran) (a v : Nat) (data : BitVec 256) :
    (s.chainPut pa g a v data).1.Inv := by
  unfold State.chainPut
  grind only [State.Inv, State.heapPut_inv, State.heapLink_inv]

theorem State.choose_inv {s : State} (h : s.Inv) : s.choose.2.Inv := by
  unfold State.choose
  grind only [State.Inv]

theorem State.classEnd_inv {s : State} (h : s.Inv) (d val : Nat) : (s.classEnd d val).Inv := by
  unfold State.classEnd
  grind only [State.Inv, State.modDie_mem, State.setClass_inv, State.foldl_inv]

theorem State.classStart_inv {s : State} (h : s.Inv) (d val : Nat) : (s.classStart d val).Inv := by
  unfold State.classStart
  grind only [State.Inv, State.dropWatch_mem, State.dropTlbs_mem, State.classEnd_inv, State.modDie_mem, State.foldl_inv]

theorem State.classFinish_inv {s : State} (h : s.Inv) (d : Nat) : (s.classFinish d).Inv := by
  unfold State.classFinish
  grind only [State.Inv, State.classEnd_inv, State.classStart_inv]

theorem State.l1Empty_inv {s : State} (h : s.Inv) (core : Nat) : (s.l1Empty core).Inv := by
  unfold State.l1Empty
  grind only [State.Inv, State.modCore_mem, State.backLine_inv, State.foldl_inv]

theorem State.clearCore_inv {s : State} (h : s.Inv) (core : Nat) (ctx : Option Nat) : (s.clearCore core ctx).Inv := by
  unfold State.clearCore
  grind only [State.Inv, State.l1Empty_inv, State.modCore_mem]

theorem State.passCore_inv {s : State} (h : s.Inv) {z : State} (core ctx : Nat) (e : s.passCore core ctx = some z) : z.Inv := by
  have hf (l : List Bin) : ∀ t, l.foldl (fun (o : Option State) b => match o with | some u => u.spillBin (dieOf core) b.threads | none => none)
      (some s) = some t → t.Inv := by
    refine List.foldlRecOn (motive := fun o : Option State => ∀ t, o = some t → t.Inv) _ _ ?_ fun o ho b _ => ?_
    · grind only
    · grind only [→ State.spillBin_inv]
  simp only [State.passCore] at e
  split at e
  · cases e
  · obtain ⟨u, hu, rfl⟩ := Option.map_eq_some_iff.mp e
    exact State.clearCore_inv (hf _ u hu) _ _

theorem State.gangOn_inv {s : State} (h : s.Inv) {cores : List Nat} {es : List Starter} (hes : StartersKeep es) {z : State} {l : Launch} {pass : Bool}
    (e : s.gangOn l pass cores es = some z) : z.Inv := by
  have hpass {s u : State} {c : Nat} (h : s.Inv)
      (e : (if (s.core c).ctx = some l.ctx then some s else if pass then s.passCore c l.ctx else none) = some u) : u.Inv := by
    grind only [→ State.passCore_inv]
  fun_induction State.gangOn s l pass cores es with
  | case1 => cases e; exact h
  | case2 => cases e
  | case3 s c cs x es hn ih => exact ih h hes e
  | case4 s c cs x es u hu hc ih =>
    obtain ⟨hx, hr⟩ := List.forall_mem_cons.mp hes
    exact ih (hx u _ _ (hpass h hu)) hr e
  | case5 s c cs x es u hu hc ih => exact ih h hes e

theorem State.placeGang_inv {s : State} (h : s.Inv) {es : List Starter} (hes : StartersKeep es) {z : State} {d : Nat} {l : Launch} {beside : List Nat}
    (e : s.placeGang d l beside es = some z) : z.Inv := by
  obtain ⟨k, -, hk⟩ := List.exists_of_findSome?_eq_some e
  grind only [State.Inv, → State.gangOn_inv, State.modDie_mem]

theorem State.placeOn_inv {s : State} (h : s.Inv) {es : List Starter} (hes : StartersKeep es) {z : State} {d : Nat} {l : Launch} {ok : Nat → Bool}
    (e : s.placeOn d l ok es = some z) : z.Inv := by
  obtain ⟨c, -, rfl⟩ := Option.map_eq_some_iff.mp e
  refine State.inv_congr (State.passPtr_mem _ _ _) ?_
  exact List.foldlRecOn (motive := State.Inv) _ _ h fun u hu x hx => hes x hx u _ _ hu

theorem State.placeTogether_inv {s : State} (h : s.Inv) {es : List Starter} (hes : StartersKeep es) {z : State} {d key : Nat} {l : Launch}
    (e : s.placeTogether d key l es = some z) : z.Inv := by
  unfold State.placeTogether at e
  grind only [State.placeGang_inv, State.placeOn_inv]

theorem State.placeChunk_inv {s : State} (h : s.Inv) {z : State} (d key : Nat) (e : s.placeChunk d key = some z) : z.Inv := by
  simp only [State.placeChunk] at e
  split at e
  · cases e
  · obtain ⟨u, hu, rfl⟩ := Option.map_eq_some_iff.mp e
    refine State.inv_congr (State.modLaunch_mem _ _ _ _) (State.placeTogether_inv h (startersKeep_map fun _ _ _ _ hv => ?_) hu)
    exact State.inv_congr (State.startChunk_mem _ _ _ _ _ _ _) hv

theorem State.placeIndex_inv {s : State} (h : s.Inv) (d key g : Nat) (waits : Nat → Bool) {z} (e : s.placeIndex d key g waits = some z) :
    z.1.Inv := by
  obtain ⟨u, hu, rfl⟩ := Option.map_eq_some_iff.mp e
  refine State.placeTogether_inv h (startersKeep_map fun _ _ _ _ hv => ?_) hu
  exact State.inv_congr (State.startIndex_mem _ _ _ _ _ _) hv

theorem State.reissueWave_inv {s : State} (h : s.Inv) (gid wix : Nat) (rd : Nat → Nat → Nat) : (s.reissueWave gid wix rd).Inv := by
  unfold State.reissueWave
  grind only [State.Inv, State.logCtx_inv, State.modWave_mem, State.foldl_inv]

theorem State.restoreImage_inv {s0 : State} (h : s0.Inv) (gid : Nat) (rd : Nat → Nat → Nat) : (s0.restoreImage gid rd).Inv := by
  unfold State.restoreImage
  grind only [State.Inv, State.modGroup_mem, State.modCore_mem, State.dropL1_mem, State.modWave_mem, State.reissueWave_inv,
    State.haltGroup_mem, State.foldl_inv]

theorem State.startSaved_inv {s : State} (h : s.Inv) (d key core : Nat) (r : Redo) (role : Option Nat) :
    (s.startSaved d key core r role).Inv := by
  unfold State.startSaved
  grind only [State.Inv, State.restoreImage_inv, State.bindPlates_mem, State.startGroup_mem]

theorem State.placeSaved_inv {s : State} (h : s.Inv) {z : State} (d key : Nat) (r : Redo) (e : s.placeSaved d key r = some z) : z.Inv := by
  simp only [State.placeSaved] at e
  split at e
  · obtain ⟨u, hu, rfl⟩ := Option.map_eq_some_iff.mp e
    refine State.inv_congr (State.modLaunch_mem _ _ _ _) (State.placeTogether_inv h (startersKeep_map fun _ _ _ _ hv => ?_) hu)
    exact State.startSaved_inv hv _ _ _ _ _
  · obtain ⟨c, -, rfl⟩ := Option.map_eq_some_iff.mp e
    exact State.inv_congr (by simp only [State.modLaunch_mem, State.passPtr_mem]) (State.startSaved_inv h d key c r none)

theorem State.placeNext_inv {s : State} (h : s.Inv) {z : State} (d key : Nat) (e : s.placeNext d key = some z) : z.Inv := by
  have hredo {gs : List Nat} {l : Launch} {recs : Nat → Nat × Nat} {u : State}
      (e : s.placeTogether d key l (gs.map fun i =>
        (i, fun u c role => if l.kind = .card then u.startChunk key c i (recs i).1 (recs i).2 role else u.startIndex d key i c role)) = some u) : u.Inv := by
    refine State.placeTogether_inv h (startersKeep_map fun _ _ _ _ hv => ?_) e
    grind only [State.Inv, State.startChunk_mem, State.startIndex_mem]
  simp only [State.placeNext] at e
  split at e
  · cases e
  split at e
  · exact State.placeSaved_inv h _ _ _ e
  split at e
  · cases e
  split at e
  · split at e
    · exact State.placeSaved_inv h _ _ _ e
    · obtain ⟨u, hu, rfl⟩ := Option.map_eq_some_iff.mp e
      exact State.inv_congr (State.modLaunch_mem _ _ _ _) (hredo hu)
  split at e
  · exact State.placeChunk_inv h _ _ e
  split at e
  · cases e
  split at e
  · cases e
  · obtain ⟨p, hp, rfl⟩ := Option.map_eq_some_iff.mp e
    exact State.inv_congr (State.modLaunch_mem _ _ _ _) (State.placeIndex_inv h _ _ _ _ hp)

theorem State.placeLaunch_inv {s : State} (h : s.Inv) {z : State} (d : Nat) (e : s.placeLaunch d = some z) : z.Inv := by
  obtain ⟨k, -, hk⟩ := List.exists_of_findSome?_eq_some e
  exact State.placeNext_inv h _ _ hk

theorem State.schedWrite_inv {s : State} (h : s.Inv) (d ctx va n v : Nat) : (s.schedWrite d ctx va n v).Inv := by
  induction n generalizing s va v with
  | zero => exact h
  | succ n ih =>
    unfold State.schedWrite
    grind only [State.agentWrite_inv]

theorem State.takeStage_inv {s : State} (h : s.Inv) {z : State} (d key stage n : Nat) (e : s.takeStage d key stage n = some z) : z.Inv := by
  unfold State.takeStage at e
  grind only [State.Inv, State.passPtr_mem, State.startGroup_mem, State.schedWrite_inv, State.modLaunch_mem, State.foldl_inv]

theorem State.placeStage_inv {s : State} (h : s.Inv) {z : State} (d n : Nat) (e : s.placeStage d n = some z) : z.Inv := by
  have hm := List.mem_of_getElem? e
  simp only [List.mem_flatten, List.mem_map] at hm
  grind only [State.takeStage_inv, = List.mem_flatten, = List.mem_map, = List.mem_filterMap]

theorem State.takeRing_inv {s : State} (h : s.Inv) {z : State} (d ctx : Nat) (msg : Bool) (e : s.takeRing d ctx msg = some z) : z.Inv := by
  unfold State.takeRing at e
  grind only [State.Inv, State.passPtr_mem, State.modDie_mem, State.startThreads_mem, State.foldl_inv]

theorem State.placeThreads_inv {s : State} (h : s.Inv) {z : State} (d : Nat) (msg : Bool) (n : Nat) (e : s.placeThreads d msg n = some z) :
    z.Inv := by
  have hm := List.mem_of_getElem? e
  simp only [List.mem_append, List.mem_flatten, List.mem_map, List.mem_filterMap] at hm
  grind only [State.admitBin_inv, State.takeRing_inv, = List.mem_filterMap]

theorem State.classes_inv {s : State} (h : s.Inv) (d n : Nat) {z : State} (e : some z ∈ s.classes d n) : z.Inv := by
  simp only [State.classes, List.mem_cons, List.not_mem_nil, or_false] at e
  grind only [State.placeThreads_inv, State.placeStage_inv, State.placeLaunch_inv]

theorem State.clauseWords_inv {s : State} (h : s.Inv) (a len : Nat) : (s.clauseWords a len).2.Inv := by
  unfold State.clauseWords
  grind only [State.Inv, State.choose_inv]

theorem State.clearDie_inv {s : State} (h : s.Inv) (d : Nat) : (s.clearDie d).Inv := by
  unfold State.clearDie
  grind only [State.Inv, State.l1Empty_inv, State.recallCopies_inv, State.foldl_inv]

theorem State.failChains_inv {s : State} (h : s.Inv) (core : Nat) : (s.failChains core).Inv := by
  unfold State.failChains
  grind only [State.Inv, State.completeEntry_inv, State.foldl_inv]

theorem State.contextReset_inv {s : State} (h : s.Inv) (d ctx reason : Nat) : (s.contextReset d ctx reason).Inv := by
  unfold State.contextReset
  grind only [State.Inv, State.l1Empty_inv, State.endGroup_mem, State.modCore_mem, State.failChains_inv, State.modDie_mem,
    State.logCtx_inv, State.modWave_mem, State.reflag_mem, State.foldl_inv]

theorem State.toHeap_inv {s : State} (h : s.Inv) (pa : Nat) (g : Gran) (v : Nat) (data : BitVec 256) {z} (e : s.toHeap pa g v data = some z) :
    z.1.Inv := by
  unfold State.toHeap at e
  grind only [State.Inv, State.modHeap_mem, State.chainPut_inv]

theorem State.spillLine_inv {s : State} (h : s.Inv) {z : State} (pa : Nat) (e : s.spillLine pa = some z) : z.Inv := by
  have hf (l : List (Nat × BitVec 256)) (g : Gran) : ∀ q, l.foldl (fun (o : Option (State × Gran)) e =>
      match o with | some (u, h) => u.toHeap pa h e.1 e.2 | none => none) (some (s, g)) = some q → q.1.Inv := by
    refine List.foldlRecOn (motive := fun o : Option (State × Gran) => ∀ q, o = some q → q.1.Inv) _ _ ?_ fun o ho b _ => ?_
    · grind only
    · grind only [→ State.toHeap_inv]
  simp only [State.spillLine] at e
  split at e
  · cases e
  split at e
  · next u g hu =>
    cases e
    exact State.inv_congr (State.putGran_mem _ _ _) (hf _ _ _ hu)
  · cases e

theorem State.getLine_inv {s : State} (h : s.Inv) {z : State} (place : Nat) (e : s.getLine place = some z) : z.Inv := by
  unfold State.getLine at e
  grind only [State.Inv, → State.spillLine_inv]

theorem State.create_inv {s : State} (h : s.Inv) {z : State} (pa pin kslot ctx num v : Nat) (data : BitVec 256) (e : s.create pa pin kslot ctx num v data = some z) :
    z.Inv := by
  unfold State.create at e
  grind only [State.Inv, State.touch_mem, → State.toHeap_inv, State.putGran_mem, → State.getLine_inv]

theorem State.failWaitsOf_inv {s : State} (h : s.Inv) (i code : Nat) (p : MemOp → Acc → Bool) : (s.failWaitsOf i code p).Inv := by
  unfold State.failWaitsOf
  grind only [State.Inv, State.failAccs_inv, State.foldl_inv]

theorem State.failWaits_inv {s : State} (h : s.Inv) (code : Nat) (p : MemOp → Acc → Bool) : (s.failWaits code p).Inv := by
  unfold State.failWaits
  grind only [State.Inv, State.failWaitsOf_inv, State.foldl_inv]

theorem State.writeBackGran_inv {s : State} (h : s.Inv) (pa : Nat) : (s.writeBackGran pa).Inv := by
  unfold State.writeBackGran
  grind only [State.Inv, State.modHeap_mem, State.backKey_inv, State.foldl_inv]

theorem State.disarmRegion_inv {s : State} (h : s.Inv) (ctx num : Nat) : (s.disarmRegion ctx num).Inv := by
  unfold State.disarmRegion
  grind only [State.Inv, State.writeBackGran_inv, State.failWaits_inv, State.verPages_inv, State.foldl_inv]

theorem State.disarmCommand_inv {s : State} (h : s.Inv) (d val : Nat) : (s.disarmCommand d val).Inv := by
  unfold State.disarmCommand
  grind only [State.Inv, State.modDie_mem, State.disarmRegion_inv]

theorem State.respond_inv {s : State} (h : s.Inv) (d rec : Nat) (refused : Bool) : (s.respond d rec refused).Inv := by
  unfold State.respond
  grind only [State.Inv, State.answerWave_inv, State.unpark_mem, State.modDie_mem, State.answerQueues_inv, State.answerTrees_inv,
    State.answerLaunches_inv, State.foldl_inv]

theorem State.fresp_inv {s : State} (h : s.Inv) (d val : Nat) : (s.fresp d val).Inv := by
  unfold State.fresp
  grind only [State.Inv, State.respond_inv]

theorem State.dropKey_inv {s : State} (h : s.Inv) (d slot : Nat) : (s.dropKey d slot).Inv := by
  unfold State.dropKey
  grind only [State.Inv, State.modDie_mem, State.recallCopies_inv, State.foldl_inv]

theorem State.keyStart_inv {s : State} (h : s.Inv) (d slot key : Nat) : (s.keyStart d slot key).Inv := by
  unfold State.keyStart
  grind only [State.Inv, State.dropKey_inv, State.modDie_mem]

theorem State.keyErase_inv {s : State} (h : s.Inv) (d val : Nat) : (s.keyErase d val).Inv := by
  unfold State.keyErase
  grind only [State.Inv, State.keyStart_inv, State.modDie_mem]

theorem State.keyLoad_inv {s : State} (h : s.Inv) (d val : Nat) : (s.keyLoad d val).Inv := by
  unfold State.keyLoad
  grind only [State.Inv, State.keyStart_inv, State.modDie_mem]

theorem State.pageClass_inv {s : State} (h : s.Inv) (d val : Nat) : (s.pageClass d val).Inv := by
  unfold State.pageClass
  grind only [State.Inv, State.modDie_mem, State.classStart_inv]

theorem State.ctlCommand_inv {s : State} (h : s.Inv) (d w size v : Nat) : (s.ctlCommand d w size v).Inv := by
  unfold State.ctlCommand
  grind only [State.Inv, State.keyErase_inv, State.pageClass_inv, State.invalidate_mem, State.pageZero_mem, State.keyLoad_inv,
    State.fresp_inv, State.disarmCommand_inv]

theorem State.evictGroup_inv {s : State} (h : s.Inv) {z : State} (d gid : Nat) (e : s.evictGroup d gid = some z) : z.Inv := by
  unfold State.evictGroup at e
  grind only [State.Inv, State.agentWrite_inv, State.modDie_mem, State.cancelWaits_mem, State.modLaunch_mem, State.freeGroup_mem,
    State.foldl_inv]

theorem State.saveGroups_inv {s : State} (h : s.Inv) (d ctx : Nat) : (s.saveGroups d ctx).Inv := by
  unfold State.saveGroups
  split
  · exact State.foldl_inv (fun u x hu => State.getD_inv (fun _ => State.evictGroup_inv hu _ _) hu) h
  · exact h

theorem State.preemptSave_inv {s : State} (h : s.Inv) (d ctx : Nat) : (s.preemptSave d ctx).Inv := by
  unfold State.preemptSave
  grind only [State.Inv, State.preemptDrain_mem, State.modDie_mem, State.saveGroups_inv]

theorem State.ctxCmd_inv {s : State} (h : s.Inv) (d ctx cmd : Nat) : (s.ctxCmd d ctx cmd).Inv := by
  unfold State.ctxCmd
  grind only [State.Inv, State.preemptDrain_mem, State.preemptSave_inv, State.contextResume_mem, State.contextReset_inv]

theorem State.ctxWrite_inv {s : State} (h : s.Inv) (d off val : Nat) : (s.ctxWrite d off val).Inv := by
  unfold State.ctxWrite
  grind only [State.Inv, State.modDie_mem, State.disarmRegion_inv, State.foldl_inv]

theorem State.deliverFaults_inv {s : State} (h : s.Inv) (d fuel : Nat) : (s.deliverFaults d fuel).Inv := by
  induction fuel generalizing s with
  | zero => exact h
  | succ n ih => exact ih (State.deliverFault_inv h d)

theorem State.orphanChain_inv {s : State} (h : s.Inv) (c cls : Nat) : (s.orphanChain c cls).Inv := by
  unfold State.orphanChain
  grind only [State.Inv, State.modCore_mem, State.completeEntry_inv, State.foldl_inv]

theorem State.plateRecord_inv {u : State} (h : u.Inv) (s : State) (p cause ctx : Nat) : (s.plateRecord u p cause ctx).Inv := by
  unfold State.plateRecord
  grind only [State.Inv, State.logCtx_inv, State.foldl_inv]

theorem State.plateRecords_inv {u : State} (h : u.Inv) (s : State) (p cause : Nat) : (s.plateRecords u p cause).Inv := by
  unfold State.plateRecords
  grind only [State.Inv, State.plateRecord_inv, State.logSys_inv, State.foldl_inv]

theorem State.plateLost_inv {s : State} (h : s.Inv) (p cause : Nat) : (s.plateLost p cause).Inv := by
  unfold State.plateLost
  grind only [State.Inv, State.binsOut_inv, State.modCore_mem, State.poisonHeld_mem, State.modDie_mem, State.plateRecords_inv,
    State.orphanChain_inv, State.choose_inv, State.loseGroup_mem, State.foldl_inv]

theorem State.plateCmd_inv {s : State} (h : s.Inv) (d p cmd : Nat) : (s.plateCmd d p cmd).Inv := by
  unfold State.plateCmd
  grind only [State.Inv, State.plateLost_inv, State.plateReset_mem]

theorem State.sliceRetire_inv {s : State} (h : s.Inv) (d slice : Nat) : (s.sliceRetire d slice).Inv := by
  unfold State.sliceRetire
  grind only [State.Inv, State.modDie_mem, State.logSys_inv]

theorem State.treeEnable_inv {s : State} (h : s.Inv) (d t val : Nat) : (s.treeEnable d t val).Inv := by
  unfold State.treeEnable
  grind only [State.Inv, State.modTree_mem, State.modDie_mem, State.completeEntry_inv, State.foldl_inv]

theorem State.ctlFields_inv {s : State} (h : s.Inv) (d w m v : Nat) : (s.ctlFields d w m v).Inv := by
  unfold State.ctlFields
  dsimp only
  repeat' with_reducible refine State.ite_inv ?_ ?_
  all_goals
    grind only [State.Inv, State.modCore_mem, State.modDie_mem, State.descWrite_mem, State.deliverFaults_inv, State.plateCmd_inv,
      State.ctxCmd_inv, State.treeEnable_inv, State.sliceRetire_inv, State.ctxWrite_inv]

theorem State.notify_inv {s : State} (h : s.Inv) (d q size v : Nat) : (s.notify d q size v).Inv := by
  unfold State.notify
  grind only [State.Inv, State.stopQueue_inv, State.modUq_mem]

theorem State.ctlWrite_inv {s : State} (h : s.Inv) (d off size val : Nat) : (s.ctlWrite d off size val).Inv := by
  unfold State.ctlWrite
  grind only [State.Inv, State.notify_inv, State.ctlCommand_inv, State.ctlFields_inv, State.heapGrant_mem]

theorem State.dirRequest_inv {s : State} (h : s.Inv) {t : State} (m : DMsg) (excl : Bool) (e : s.dirRequest m excl = some t) : t.Inv := by
  unfold State.dirRequest at e
  grind only [State.Inv, State.modDir_mem, State.grantTo_mem, State.tellAll_mem, State.modCopy_mem, State.sendDir_mem]

theorem State.disarmFinish_inv {s : State} (h : s.Inv) (d : Nat) : (s.disarmFinish d).Inv := by
  unfold State.disarmFinish
  grind only [State.Inv, State.modDie_mem, State.disarmRegion_inv]

theorem State.evictAt_inv {s : State} (h : s.Inv) (what unit key : Nat) : (s.evictAt what unit key).Inv := by
  unfold State.evictAt
  grind only [State.Inv, State.modCore_mem, State.modDie_mem, State.evictCopy_mem, State.l1Drop_inv]

theorem State.fedCounted_inv {s : State} (h : s.Inv) (d k n : Nat) : (s.fedCounted d k n).Inv := by
  unfold State.fedCounted
  grind only [State.Inv, State.modDie_mem, State.dropLease_mem, State.wrOwn_inv]

theorem State.fedHome_inv {s : State} (h : s.Inv) (d k ctx n : Nat) : (s.fedHome d k ctx n).Inv := by
  unfold State.fedHome
  grind only [State.Inv, State.logSys_inv, State.fedCounted_inv]

theorem State.fedArrive_inv {s : State} (h : s.Inv) (d k ctx n : Nat) : (s.fedArrive d k ctx n).Inv := by
  unfold State.fedArrive
  grind only [State.Inv, State.fedHome_inv, State.logSys_inv, State.sendPkt_mem]

theorem State.homeTimeout_inv {s : State} (h : s.Inv) (line : Nat) : (s.homeTimeout line).Inv := by
  unfold State.homeTimeout
  grind only [State.Inv, State.modDir_mem, State.modCopy_mem, State.landData_inv, State.disarmLines_mem]

theorem State.hostFail_inv {s : State} (h : s.Inv) (core cls seq beat : Nat) : (s.hostFail core cls seq beat).Inv := by
  unfold State.hostFail
  grind only [State.Inv, State.completeEntry_inv]

theorem State.fetchFail_inv {s : State} (h : s.Inv) (r : Fetched) (va : Nat) : (s.fetchFail r va).Inv := by
  unfold State.fetchFail
  grind only [State.Inv, State.modCp_mem, State.trapP_inv, State.raiseFault_inv]

theorem State.findPlace_inv {s : State} (h : s.Inv) : s.findPlace.Inv := by
  unfold State.findPlace
  grind only [State.Inv, State.modCp_mem, State.fetchFail_inv]

theorem State.nextWord_inv {s : State} (h : s.Inv) : s.nextWord.2.Inv := by
  unfold State.nextWord
  grind only [State.Inv, State.choose_inv]

theorem State.illegal_inv {s : State} (h : s.Inv) : s.illegal.Inv := by
  unfold State.illegal
  grind only [State.Inv, State.trapP_inv]

theorem State.queueTrap_inv {s : State} (h : s.Inv) {z : State} (q : Nat) (e : s.queueTrap q = .done z) : z.Inv := by
  unfold State.queueTrap at e
  grind only [State.Inv]

theorem State.sendAll_inv {s : State} (h : s.Inv) (d : Nat) (xs : List Thread) : (s.sendAll d xs).1.Inv := by
  induction xs generalizing s with
  | nil => exact h
  | cons t r ih =>
    unfold State.sendAll
    grind only [State.Inv, State.modDie_mem, State.addThread_mem]

theorem State.raiseMisses_inv {t : State} (h : t.Inv) (s : State) (ts : List Try) (write : Bool) : (s.raiseMisses t ts write).Inv := by
  unfold State.raiseMisses
  grind only [State.Inv, State.trapA_inv, State.raiseFault_inv, State.foldl_inv]

theorem State.sendWord_inv {s : State} (h : s.Inv) {z : State} (flag : Nat) (ts : List Try) (write : Bool) (op : MemOp) (mk : Try → Nat → W64 → Acc) (e : s.sendWord flag ts write op mk = .done z) :
    z.Inv := by
  unfold State.sendWord at e
  grind only [State.Inv, State.modCw_mem, State.own_mem, State.raiseMisses_inv, State.foldl_inv]

theorem State.trimLines_inv {s : State} (h : s.Inv) (place fuel : Nat) : (s.trimLines place fuel).Inv := by
  induction fuel generalizing s with
  | zero => exact h
  | succ n ih =>
    unfold State.trimLines
    grind only [→ State.spillLine_inv]

theorem State.floorMoved_inv {s : State} (h : s.Inv) (moved : List (Nat × Nat × Nat)) (place : Nat) : (s.floorMoved moved place).Inv := by
  unfold State.floorMoved
  grind only [State.Inv, State.trimLines_inv, State.applyFloor_inv, State.foldl_inv]

theorem State.moveBucket_inv {s : State} (h : s.Inv) (d b slice heir : Nat) : (s.moveBucket d b slice heir).Inv := by
  unfold State.moveBucket
  grind only [State.Inv, State.modDie_mem, State.floorMoved_inv, State.evictCopy_mem, State.disarmAt_mem, State.foldl_inv]

theorem State.sliceDone_inv {s : State} (h : s.Inv) (d slice : Nat) : (s.sliceDone d slice).Inv := by
  unfold State.sliceDone
  grind only [State.Inv, State.modDie_mem, State.floorMoved_inv, State.disarmAt_mem, State.logSys_inv, State.foldl_inv]

theorem State.logFar_inv {s : State} (h : s.Inv) (d ctx va : Nat) : (s.logFar d ctx va).Inv := by
  unfold State.logFar
  grind only [State.Inv, State.logCross_inv]

theorem spdmAsk_inv {s : State} (h : s.Inv) (die cmd arg : Nat) (values : List Nat) :
    ∃ z, spdmAsk die cmd arg values s = .next z ∧ z.Inv := by
  unfold spdmAsk
  grind only [State.Inv, State.answer_mem, State.modDie_mem]

theorem State.whenUp_inv {s u : State} (h : s.Inv) (hu : u.Inv) (d : Nat) : ∃ z, s.whenUp d u = .next z ∧ z.Inv := by
  unfold State.whenUp
  grind only [State.Inv]

theorem State.possTrap_inv {s : State} (h : s.Inv) {z : State} (e : s.possTrap = .done z) : z.Inv := by
  unfold State.possTrap at e
  grind only [State.Inv]

theorem State.failFloor_inv {s : State} (h : s.Inv) (o : MemOp) (va : Nat) : (s.failFloor o va).Inv := by
  unfold State.failFloor
  grind only [State.Inv, State.trapA_inv, State.modOp_mem]

theorem State.logLines_inv {s : State} (h : s.Inv) (o : MemOp) (as : List Acc) : (s.logLines o as).Inv := by
  unfold State.logLines
  grind only [State.Inv, State.logCross_inv, State.foldl_inv]

theorem State.losePkt_inv {s : State} (h : s.Inv) (id : Nat) : (s.losePkt id).Inv := by
  unfold State.losePkt
  grind only [State.Inv, State.modLaunch_mem, State.logCross_inv]

theorem State.received_inv {s : State} (h : s.Inv) (p : Pkt) : (s.received p).Inv := by
  unfold State.received
  grind only [State.Inv, State.fedHome_inv, State.modDie_mem]

theorem State.install_inv {s : State} (h : s.Inv) (line d key : Nat) (st : Moesi) (x : BitVec 1024) : (s.install line d key st x).Inv := by
  unfold State.install
  grind only [State.Inv, State.backKey_inv, State.modCopy_mem]

theorem State.drainEnd_inv {s : State} (h : s.Inv) (core : Nat) (o : MxOp) : (s.drainEnd core o).Inv := by
  unfold State.drainEnd
  grind only [State.Inv, State.mxDone_mem, State.drainRegs_mem, State.sendAmx_mem, State.modMx_mem, State.raiseFault_inv, State.mxFail_inv]

theorem State.dstWrite_inv {s : State} (h : s.Inv) (core : Nat) (e : Entry) (addr n v : Nat) (ps : List (Nat × Nat × Nat)) :
    (s.dstWrite core e addr n v ps).Inv := by
  unfold State.dstWrite
  grind only [State.Inv, State.modGroup_mem, State.modCore_mem, State.visit_mem, State.writeParts_inv, State.foldl_inv]

theorem State.pauseEntry_inv {s : State} (h : s.Inv) (core cls seq ctx va : Nat) (write : Bool) :
    (s.pauseEntry core cls seq ctx va write).Inv := by
  unfold State.pauseEntry
  grind only [State.Inv, State.modEntry_mem, State.raiseFault_inv]

theorem State.waitEntry_inv {s : State} (h : s.Inv) (core cls : Nat) (e : Entry) (va : Nat) (far : Option Nat) :
    (s.waitEntry core cls e va far).Inv := by
  unfold State.waitEntry
  grind only [State.Inv, State.modEntry_mem, State.logCross_inv, State.completeEntry_inv]

theorem State.stopBeat_inv {s : State} (h : s.Inv) (core cls : Nat) (e : Entry) (write : Bool) (xs : Span) :
    (s.stopBeat core cls e write xs).Inv := by
  unfold State.stopBeat
  grind only [State.Inv, State.pauseEntry_inv, State.joinLine_mem, State.completeEntry_inv, State.waitEntry_inv, State.foldl_inv]

theorem State.moveBeat_inv {s : State} (h : s.Inv) (core cls : Nat) (e : Entry) (beat : Nat) (bs : List Beat) :
    (s.moveBeat core cls e beat bs).Inv := by
  unfold State.moveBeat
  grind only [State.Inv, State.beatDone_mem, State.stopBeat_inv, State.visit_mem, State.dstWrite_inv, State.foldl_inv]

theorem State.gatherBeat_inv {s : State} (h : s.Inv) (core : Nat) (e : Entry) (i : Nat) : (s.gatherBeat core e i).Inv := by
  unfold State.gatherBeat
  grind only [State.Inv, State.moveBeat_inv, State.stopBeat_inv, State.visit_mem]

theorem State.packetBeat_inv {s : State} (h : s.Inv) (core : Nat) (e : Entry) (p : Nat) : (s.packetBeat core e p).Inv := by
  unfold State.packetBeat
  grind only [State.Inv, State.modTree_mem, State.beatDone_mem, State.stopBeat_inv, State.visit_mem]

theorem State.sideCmd_inv {s : State} (h : s.Inv) (die : Nat) {f : State → State} (hf : ∀ u, u.Inv → (f u).Inv) :
    ∃ z, s.sideCmd die f = .next z ∧ z.Inv := by
  unfold State.sideCmd
  grind only [State.Inv, State.answer_mem]

theorem State.imageFail_inv {s : State} (h : s.Inv) {z : State} (va : W64) (c : Chk) (a : Nat) (write : Bool) (e : s.imageFail va c a write = .done z) :
    z.Inv := by
  unfold State.imageFail at e
  grind only [State.Inv, State.modCp_mem, State.raiseFault_inv]

theorem State.joinDown_inv {s : State} (h : s.Inv) (gid : Nat) (va : W64) : (s.joinDown gid va).Inv := by
  unfold State.joinDown
  grind only [State.Inv, State.dropLease_mem, State.perform_inv, State.logCtx_inv, State.logCross_inv, State.getD_inv]

theorem State.imgWrite_inv {s : State} (h : s.Inv) (core : Nat) (g : Group) (va n v : Nat) : (s.imgWrite core g va n v).Inv := by
  unfold State.imgWrite
  grind only [State.Inv, State.agentWrite_inv, State.l1Drop_inv, State.foldl_inv]

theorem State.saveAt_inv {s : State} (h : s.Inv) (core gid va : Nat) : (s.saveAt core gid va).Inv := by
  unfold State.saveAt
  grind only [State.Inv, State.imgWrite_inv, State.cancelWaits_mem, State.foldl_inv]

theorem State.gsaveTry_inv {s : State} (h : s.Inv) {z : State} (va : W64) (e : s.gsaveTry va = .done z) : z.Inv := by
  unfold State.gsaveTry at e
  grind only [State.Inv, State.modCp_mem, State.leaveMatrix_mem, State.saveAt_inv, → State.imageFail_inv, State.await_mem]

theorem State.enterHandler_inv {s : State} (h : s.Inv) (gid : Nat) : (s.enterHandler gid).Inv := by
  unfold State.enterHandler
  grind only [State.Inv, State.modGroup_mem, State.modWave_mem, State.endWithError_inv]

theorem State.hostVersion_inv {s : State} (h : s.Inv) (d pa : Nat) : (s.hostVersion d pa).Inv := by
  unfold State.hostVersion
  grind only [State.Inv, State.logSys_inv]

theorem State.storeOne_inv {s : State} (h : s.Inv) (id : Nat) (a : Acc) : (s.storeOne id a).Inv := by
  unfold State.storeOne
  grind only [State.Inv, State.joinAccess_mem, State.modAccs_mem, → State.storeAt_inv]

theorem State.storeStep_inv {s : State} (h : s.Inv) (o : MemOp) (a : Acc) : (s.storeStep o a).Inv := by
  unfold State.storeStep
  grind only [State.Inv, State.sendHeld_inv, State.askFor_mem, State.storeOne_inv, State.overOp_mem, State.foldl_inv]

theorem State.queueHold_inv {s : State} (h : s.Inv) (d q va tag : Nat) : (s.queueHold d q va tag).Inv := by
  unfold State.queueHold
  grind only [State.Inv, State.stopQueue_inv, State.modUq_mem, State.logFar_inv]

theorem State.takeEntry_inv {s : State} (h : s.Inv) (d q kind : Nat) {f : Nat → Nat → Nat → State} (hf : ∀ a va n, (f a va n).Inv) :
    (s.takeEntry d q kind f).Inv := by
  unfold State.takeEntry
  grind only [State.Inv, State.stopQueue_inv, State.modUq_mem, State.queueHold_inv, State.raiseFault_inv]

theorem State.watchWord_inv {s : State} (h : s.Inv) {z : State} (a : Src) (mk : List Acc → WaitWord) (e : s.watchWord a mk = .done z) :
    z.Inv := by
  unfold State.watchWord at e
  grind only [State.Inv, State.modCw_mem, State.own_mem, State.raiseMisses_inv, State.foldl_inv]

/-- A refused record is passed over. -/
theorem State.refused_inv {s : State} (h : s.Inv) (d ctx q tag reason off n : Nat) : ((s.refuseRecord d ctx q tag reason off).advance d q n).Inv :=
  State.inv_congr (State.advance_mem ..) (State.refuseRecord_inv h ..)

/-- An accepted record is passed over. -/
theorem State.accepted_inv {s : State} (h : s.Inv) (d lid : Nat) (l : Launch) (q n : Nat) : ((s.accept d lid l).advance d q n).Inv :=
  State.inv_congr ((State.advance_mem ..).trans (State.accept_mem ..)) h

theorem State.takeLaunch_inv {s : State} (h : s.Inv) (d q : Nat) (kind : LKind) (code : Nat) : (s.takeLaunch d q kind code).Inv := by
  unfold State.takeLaunch
  dsimp only
  split
  · exact h
  refine State.takeEntry_inv h _ _ _ fun hd va n => ?_
  split
  · exact State.refused_inv h ..
  split
  · exact h
  · exact State.accepted_inv h ..

theorem State.grantLease_inv {s : State} (h : s.Inv) (o : MemOp) (a : Acc) : (s.grantLease o a).Inv := by
  unfold State.grantLease
  grind only [State.Inv, State.sendHeld_inv, State.takeLease_mem, State.l1Put_inv, State.hinted_mem]

theorem State.lateTraps_inv {s : State} (h : s.Inv) (gid : Nat) : (s.lateTraps gid).Inv := by
  unfold State.lateTraps
  grind only [State.Inv, State.fall_mem, State.modGroup_mem, State.haltGroup_mem, State.endWithError_inv]

theorem State.illegalTrap_inv {s : State} (h : s.Inv) {z : State} (e : s.illegalTrap = .done z) : z.Inv := by
  unfold State.illegalTrap at e
  grind only [State.Inv]

theorem State.errorReset_inv {s : State} (h : s.Inv) (d ctx : Nat) : (s.errorReset d ctx).Inv := by
  unfold State.errorReset
  grind only [State.Inv, State.contextReset_inv]

theorem State.softCount_inv {s : State} (h : s.Inv) (core : Nat) : (s.softCount core).Inv := by
  unfold State.softCount
  grind only [State.Inv, State.modCore_mem, State.logSys_inv]

theorem State.operandTrap_inv {s : State} (h : s.Inv) {z : State} (e : s.operandTrap = .done z) : z.Inv := by
  unfold State.operandTrap at e
  grind only [State.Inv]

theorem State.endHolds_inv {s : State} (h : s.Inv) (o : MemOp) (a : Acc) : (s.endHolds o a).Inv := by
  unfold State.endHolds
  grind only [State.Inv, State.sendHeld_inv]

theorem State.prefStep_inv {s : State} (h : s.Inv) (o : MemOp) (a : Acc) : (s.prefStep o a).Inv := by
  unfold State.prefStep
  grind only [State.Inv, State.joinAccess_mem, State.askFor_mem, State.demoteAt_mem, State.modAccs_mem, → State.loadAt_inv,
    State.overOp_mem, State.hinted_mem]

theorem State.writeUnit_inv {s : State} (h : s.Inv) (d t : Nat) (u : RUnit) : (s.writeUnit d t u).Inv := by
  unfold State.writeUnit
  grind only [State.Inv, State.countUnit_mem, State.modUnit_mem, State.failUnit_inv, State.visit_mem, State.raiseFault_inv,
    State.unitDone_mem, State.logCross_inv, State.writeParts_inv]

theorem State.forwardUnit_inv {s : State} (h : s.Inv) (d t r : Nat) : (s.forwardUnit d t r).Inv := by
  unfold State.forwardUnit
  grind only [State.Inv, State.modTree_mem, State.writeUnit_inv, State.unitDone_mem]

theorem State.ringAll_inv {s : State} (h : s.Inv) (d : Nat) (xs : List Thread) : (s.ringAll d xs).1.Inv := by
  induction xs generalizing s with
  | nil => exact h
  | cons t r ih =>
    unfold State.ringAll
    grind only [State.Inv, → State.overflow_inv, State.addThread_mem]

theorem State.stagePut_inv {s : State} (h : s.Inv) {z : State} (d ctx lid n : Nat) (t : Thread) (e : s.stagePut d ctx lid n t = some z) :
    z.Inv := by
  unfold State.stagePut at e
  grind only [State.Inv, State.schedWrite_inv, State.modLaunch_mem]

theorem State.stageAll_inv {s : State} (h : s.Inv) (d ctx lid n : Nat) (xs : List Thread) : (s.stageAll d ctx lid n xs).1.Inv := by
  induction xs generalizing s with
  | nil => exact h
  | cons t r ih =>
    unfold State.stageAll
    grind only [→ State.stagePut_inv]

theorem State.sliceError_inv {s : State} (h : s.Inv) (d n : Nat) : (s.sliceError d n).Inv := by
  unfold State.sliceError
  grind only [State.Inv, State.modDie_mem, State.sliceRetire_inv]

theorem State.entryPause_inv {s : State} (h : s.Inv) (d q va : Nat) (write : Bool) : (s.entryPause d q va write).Inv := by
  unfold State.entryPause
  grind only [State.Inv, State.modUq_mem, State.raiseFault_inv]

theorem State.placeThread_inv {s : State} (h : s.Inv) (core : Nat) (t : Thread) (shut : List (Nat × Nat × Bool)) {z} (e : s.placeThread core t shut = some z) :
    z.1.Inv := by
  unfold State.placeThread at e
  grind only [State.Inv, → State.overflow_inv, State.addThread_mem, State.modCore_mem]

theorem State.placeAll_inv {s : State} (h : s.Inv) (core : Nat) (shut : List (Nat × Nat × Bool)) (xs : List Thread) :
    (s.placeAll core shut xs).1.Inv := by
  induction xs generalizing s shut with
  | nil => exact h
  | cons t r ih =>
    unfold State.placeAll
    grind only [→ State.placeThread_inv]

theorem State.spawnChecked_inv {s : State} (d : RName) (a : Src) {f : List Thread → State} (hf : ∀ ts, (f ts).Inv) {z : State}
    (e : s.spawnChecked d a f = .done z) : z.Inv := by
  unfold State.spawnChecked at e
  grind only [State.Inv, State.foldl_inv]

theorem State.poisonLine_inv {s : State} (h : s.Inv) (line ctx array : Nat) : (s.poisonLine line ctx array).Inv := by
  unfold State.poisonLine
  grind only [State.Inv, State.logCtx_inv, State.logSys_inv]

theorem State.recheck_inv {s : State} (h : s.Inv) (o : MemOp) (a : Acc) : (s.recheck o a).Inv := by
  unfold State.recheck
  grind only [State.Inv, State.modAccs_mem, State.failAccs_inv, State.raiseFault_inv]

theorem State.vldEq_inv {s : State} (h : s.Inv) (o : MemOp) (a : Acc) : (s.vldEq o a).Inv := by
  unfold State.vldEq
  grind only [State.Inv, State.modAccs_mem, State.readVer_inv, State.failVer_inv]

theorem State.vldLe_inv {s : State} (h : s.Inv) (o : MemOp) (a : Acc) : (s.vldLe o a).Inv := by
  unfold State.vldLe
  grind only [State.Inv, State.readVer_inv, State.failVer_inv]

theorem State.vst_inv {s : State} (h : s.Inv) (o : MemOp) (a : Acc) : (s.vst o a).Inv := by
  unfold State.vst
  grind only [State.Inv, State.sendHeld_inv, State.modAccs_mem, State.failAccs_inv, State.wakeVer_mem, → State.create_inv,
    State.failVer_inv]

theorem State.setSpecial_inv {s : State} (h : s.Inv) {z : State} (n : Nat) (v : W32) (e : s.setSpecial n v = some z) : z.Inv := by
  unfold State.setSpecial at e
  grind only [State.Inv, State.modCg_mem, State.modCw_mem]

theorem State.outside_inv {s : State} (h : s.Inv) (pa n val : Nat) : (s.outside pa n val).Inv := by
  unfold State.outside
  grind only [State.Inv, State.wrKey_inv]

theorem State.resetFinish_inv {s : State} (h : s.Inv) (d ctx : Nat) : (s.resetFinish d ctx).Inv := by
  unfold State.resetFinish
  grind only [State.Inv, State.dropLaunch_mem, State.modDie_mem, State.clearCore_inv, State.foldl_inv]

theorem State.gsaveNow_inv {s : State} (h : s.Inv) (core slot lane : Nat) (va : W64) : (s.gsaveNow core slot lane va).Inv := by
  have h1 : (({ s with cur := { core := core, slot := slot } } : State).modWave (waveKey core slot) fun w =>
      { w with paths := (w.paths.filter fun p => p.lanes.getLsbD lane) ++ w.paths.filter fun p => !p.lanes.getLsbD lane }).Inv := h
  unfold State.gsaveNow
  dsimp only
  split
  · next e => exact State.gsaveTry_inv h1 _ e
  · exact State.trapP_inv h1 _

theorem State.resumeWord_inv {s : State} (h : s.Inv) (core slot lane : Nat) : (s.resumeWord core slot lane).Inv := by
  unfold State.resumeWord
  grind only [State.Inv, State.modGroup_mem, State.handover_mem, State.gsaveNow_inv, State.modCore_mem, State.finishLanes_mem,
    State.dropL1_mem]

theorem State.zeroFrame_inv {s : State} (h : s.Inv) (d : Nat) : (s.zeroFrame d).Inv := by
  unfold State.zeroFrame
  grind only [State.Inv, State.dropRange_inv, State.settleLine_inv, State.modDie_mem, State.wrKey_inv, State.dropCode_mem, State.foldl_inv]

theorem State.resume_inv {s : State} (h : s.Inv) (who what arg : Nat) : (s.resume who what arg).Inv := by
  unfold State.resume
  grind only [State.Inv, State.zeroFrame_inv, State.resumeWord_inv, State.invFinish_mem, State.disarmFinish_inv, State.preempted_mem,
    State.saveGroups_inv, State.resetFinish_inv, State.classFinish_inv, State.grantFinish_mem, State.keyFinish_mem]

theorem State.writeOwn_inv {s : State} (h : s.Inv) (pa n val : Nat) : (s.writeOwn pa n val).Inv := by
  unfold State.writeOwn
  grind only [State.Inv, State.sendHeld_inv, State.wrKey_inv, State.foldl_inv]

theorem State.nextMove_inv {s : State} (h : s.Inv) : s.nextMove.2.Inv := by
  unfold State.nextMove
  grind only [State.Inv]

theorem State.placeWord_inv {s : State} (h : s.Inv) (w : Nat) : (s.placeWord w).Inv := by
  unfold State.placeWord
  grind only [State.Inv, State.modCore_mem, State.modDie_mem, State.wrKey_inv]

theorem State.withFetchWord_inv {s : State} (h : s.Inv) (nbits w : Nat) : (s.withFetchWord nbits w).Inv := by
  unfold State.withFetchWord
  grind only [State.Inv, State.placeWord_inv]

theorem State.dirStep_inv {s : State} (h : s.Inv) (k kind : Nat) {f : DMsg → State → State} (hf : ∀ m u, u.Inv → (f m u).Inv) :
    ∃ z, s.dirStep k kind f = .next z ∧ z.Inv := by
  unfold State.dirStep
  grind only [State.Inv, State.sendHeld_inv, State.gotMsg_mem]

theorem State.verArrive_inv {s : State} (h : s.Inv) (id lane : Nat) (k : OpKind) {f : State → MemOp → Acc → State}
    (hf : ∀ u o a, u.Inv → (f u o a).Inv) : ∃ z, s.verArrive id lane k f = .next z ∧ z.Inv := by
  unfold State.verArrive
  dsimp only
  have hr : ∀ o a, (s.recheck o a).Inv := State.recheck_inv h
  have hv : ∀ o a o1 x, ((s.recheck o a).endHolds o1 x).Inv := fun o a => State.endHolds_inv (hr o a)
  (repeat' split) <;> refine ⟨_, rfl, ?_⟩
  all_goals grind only [State.Inv, State.choose_inv, State.hold_mem]

end Sys2Proof.Machine
end

