-- ==== Sys2Proof/Proofs/StepsKeepInv.lean ====
section
/-! No step stops the machine, and every step keeps memory canonical: first the issue rules that the words share, then the words and
events, then the choice of a move. -/

set_option Elab.async false

namespace Sys2Proof.Machine

/-- The step answers a next state, and its memory is canonical. -/
def OutKept (o : Out) : Prop := ∃ t, o = .next t ∧ t.Inv
/-- A word's result is a trap or a state whose memory is canonical. -/
def ResKept (r : Res) : Prop := ∀ t, r = .done t → t.Inv
theorem outKept_next {t : State} (h : t.Inv) : OutKept (.next t) := ⟨t, rfl, h⟩

theorem outKept_ite {c : Prop} [Decidable c] {o p : Out} (ho : OutKept o) (hp : OutKept p) : OutKept (if c then o else p) := by
  split
  · exact ho
  · exact hp

theorem resKept_done {t : State} (h : t.Inv) : ResKept (.done t) := fun _ e => Res.done.inj e ▸ h
theorem resKept_trap (t : Trap) : ResKept (.trap t) := fun _ e => nomatch e

theorem resKept_ite {c : Prop} [Decidable c] {r q : Res} (hr : ResKept r) (hq : ResKept q) : ResKept (if c then r else q) := by
  split
  · exact hr
  · exact hq

theorem outKept_of_eq {o p : Out} (e : o = p) (h : OutKept p) : OutKept o := e ▸ h

theorem State.dirArrive_kept {s : State} (hs : s.Inv) (k kind : Nat) : OutKept (s.dirArrive k kind) := by
  unfold State.dirArrive
  grind only [outKept_next, State.Inv, State.sendHeld_inv, State.gotMsg_mem, State.dirRoom_mem, State.evictEntry_mem,
    → State.dirRequest_inv]

theorem State.dirStep_kept {s : State} (hs : s.Inv) {f : DMsg → State → State} (hf : ∀ m u, u.Inv → (f m u).Inv) (k kind : Nat) :
    OutKept (s.dirStep k kind f) := by
  unfold State.dirStep
  grind only [outKept_next, State.Inv, State.sendHeld_inv, State.gotMsg_mem]

theorem enter_kept {s : State} (hs : s.Inv) {k : Clause → Out} (hk : ∀ c, OutKept (k c)) (ok : Bool) (srcs : List Src) :
    OutKept (enter ok srcs s k) := by
  unfold enter
  grind only [outKept_next, State.Inv, State.bankFail_inv, State.illegal_inv]

theorem issueFixed_kept {s : State} (hs : s.Inv) {f : State → Res} (hf : ∀ u, u.Inv → ResKept (f u)) (ok : Bool) (srcs : List Src) :
    OutKept (issueFixed ok srcs f s) := by
  refine enter_kept hs (fun _ => ?_) _ _
  split
  · next e => exact outKept_next (State.inv_congr (by simp only [State.count_mem, State.past_mem]) (hf _ hs _ e))
  · exact outKept_next (State.trapP_inv hs _)

theorem vecForm_kept {s : State} (hs : s.Inv) (ok : Bool) (srcs : List Src) (d : RName) (wide : Bool) (f : State → Nat → W64) :
    OutKept (vecForm ok srcs d wide f s) := by
  unfold vecForm
  grind only [resKept_done, resKept_trap, State.Inv, issueFixed_kept, State.putLanes_mem]

theorem issueTurn_kept {s : State} (hs : s.Inv) {f : State → Res} (hf : ∀ u, u.Inv → ResKept (f u)) (ok : Bool) (srcs : List Src) (rel go : Bool) (place ord : Nat) :
    OutKept (issueTurn ok srcs rel go place ord f s) := by
  refine enter_kept hs (fun _ => outKept_ite (outKept_next hs) ?_) _ _
  split
  · next e => exact outKept_next (State.inv_congr (State.count_mem _ _) (hf _ (State.inv_congr (State.tookOrder_mem _ _ _) hs) _ e))
  · exact outKept_next (State.trapP_inv hs _)

theorem issueWaiting_kept {s : State} (hs : s.Inv) {f : State → Res} (hf : ∀ u, u.Inv → ResKept (f u)) (ok : Bool) (srcs : List Src) (onL rel : Bool) :
    OutKept (issueWaiting ok srcs onL rel f s) := by
  refine enter_kept hs (fun _ => outKept_ite (outKept_next hs) ?_) _ _
  split
  · next e => exact outKept_next (State.inv_congr (State.count_mem _ _) (hf _ hs _ e))
  · exact outKept_next (State.trapP_inv hs _)

theorem vec2_kept {s : State} (hs : s.Inv) (op : W32 → W32 → W32) (d : RName) (a b : Src) : OutKept (vec2 op d a b s) := by
  unfold vec2
  grind only [State.Inv, vecForm_kept]

theorem issueLong_kept {s : State} (hs : s.Inv) {f : Nat → State → Res} (hf : ∀ n u, u.Inv → ResKept (f n u)) (ok writes onL rel : Bool) (srcs : List Src) :
    OutKept (issueLong ok writes onL rel srcs f s) := by
  refine enter_kept hs (fun _ => outKept_ite (outKept_next (State.illegal_inv hs)) (outKept_ite (outKept_next hs) ?_)) _ _
  split
  · next e => exact outKept_next (State.inv_congr (State.count_mem _ _) (hf _ _ hs _ e))
  · exact outKept_next (State.trapP_inv hs _)

theorem atomic_kept {s : State} (hs : s.Inv) (size fn : Nat) (t b : RName) (r : Ord) (sc : Scope) (h : Hint) :
    OutKept (atomic size fn t b r sc h s) := by
  unfold atomic
  grind only [resKept_done, resKept_trap, ResKept, State.Inv, → State.sendWord_inv, issueLong_kept]

theorem issueBarrier_kept {s : State} (hs : s.Inv) {f : State → Res} (hf : ∀ u, u.Inv → ResKept (f u)) (ok : Bool) :
    OutKept (issueBarrier ok f s) := by
  refine enter_kept hs (fun _ => ?_) _ _
  split
  · next e => exact outKept_next (State.inv_congr (State.count_mem _ _) (hf _ hs _ e))
  · exact outKept_next (State.trapP_inv hs _)

theorem vec3_kept {s : State} (hs : s.Inv) (op : W32 → W32 → W32 → W32) (d : RName) (a b : Src) : OutKept (vec3 op d a b s) := by
  unfold vec3
  grind only [State.Inv, vecForm_kept]

theorem issueTrap_kept {s : State} (hs : s.Inv) (ok : Bool) (srcs : List Src) (code : Nat) (eaddr : State → W64) :
    OutKept (issueTrap ok srcs code eaddr s) := by
  unfold issueTrap
  grind only [outKept_next, State.Inv, enter_kept, State.past_mem, State.trapP_inv, State.illegal_inv]

theorem issueControl_kept {s : State} (hs : s.Inv) {f : State → Res} (hf : ∀ u, u.Inv → ResKept (f u)) (ok : Bool) (srcs : List Src) :
    OutKept (issueControl ok srcs f s) := by
  refine enter_kept hs (fun _ => outKept_ite (outKept_next (State.illegal_inv hs)) ?_) _ _
  split
  · next e => exact outKept_next (State.inv_congr (State.count_mem _ _) (hf _ hs _ e))
  · exact outKept_next (State.trapP_inv hs _)

theorem branch_kept {s : State} (hs : s.Inv) (ok link : Bool) (sel : State → Nat → Bool) (o : BitVec 18) :
    OutKept (branch ok link sel o s) := by
  unfold branch
  grind only [resKept_done, resKept_trap, State.Inv, issueControl_kept, State.modCw_mem, State.foldl_inv]

theorem vec1_kept {s : State} (hs : s.Inv) (op : W32 → W32) (d : RName) (a : Src) : OutKept (vec1 op d a s) := by
  unfold vec1
  grind only [State.Inv, vecForm_kept]

theorem jump_kept {s : State} (hs : s.Inv) (link : Bool) (c : RName) : OutKept (jump link c s) := by
  unfold jump
  grind only [resKept_done, resKept_trap, State.Inv, issueControl_kept, State.modCw_mem, State.foldl_inv]

theorem spdmAsk_kept {s : State} (hs : s.Inv) (die cmd arg : Nat) (values : List Nat) : OutKept (spdmAsk die cmd arg values s) := by
  unfold spdmAsk
  grind only [outKept_next, State.Inv, State.answer_mem, State.modDie_mem]

theorem State.whenUp_kept {s u : State} (hs : s.Inv) (hu : u.Inv) (d : Nat) : OutKept (s.whenUp d u) := by
  unfold State.whenUp
  grind only [outKept_next, State.Inv]

theorem command_kept {s : State} (hs : s.Inv) (k : CmdKind) (d a : RName) (lit : Bool) : OutKept (command k d a lit s) := by
  unfold command
  grind only [outKept_next, resKept_done, resKept_trap, ResKept, State.Inv, State.modCg_mem, → State.possTrap_inv, State.modCore_mem,
    State.past_mem, State.modCw_mem, issueLong_kept, State.foldl_inv]

theorem vecFlt_kept {s : State} (hs : s.Inv) (ok : Bool) (srcs : List Src) (d : RName) (wide : Bool) (f : State → Nat → W64 × Nat) :
    OutKept (vecFlt ok srcs d wide f s) := by
  unfold vecFlt
  grind only [resKept_done, resKept_trap, State.Inv, issueFixed_kept, State.putLanes_mem, State.mergeF_mem, State.foldl_inv]

theorem cvtNarrow_kept {s : State} (hs : s.Inv) (f : Fmt) (w sh : Nat) (keep nsat : Bool) (r : Rm) (d : RName) (a : Src) :
    OutKept (cvtNarrow f w sh keep nsat r d a s) := by
  unfold cvtNarrow
  grind only [State.Inv, vecFlt_kept]

theorem cvt1_kept {s : State} (hs : s.Inv) (ok wide : Bool) (src : State → Nat → Nat) (g : Nat → Nat → Flt) (d : RName) (a : Src) :
    OutKept (cvt1 ok wide src g d a s) := by
  unfold cvt1
  grind only [State.Inv, vecFlt_kept]

theorem cvtWiden_kept {s : State} (hs : s.Inv) (f : Fmt) (shift w : Nat) (src : State → Nat → Nat) (d : RName) (a : Src) :
    OutKept (cvtWiden f shift w src d a s) := by
  unfold cvtWiden
  grind only [State.Inv, vecFlt_kept]

theorem State.sideCmd_kept {s : State} (hs : s.Inv) {f : State → State} (hf : ∀ u, u.Inv → (f u).Inv) (die : Nat) :
    OutKept (s.sideCmd die f) := by
  unfold State.sideCmd
  grind only [outKept_next, State.Inv, State.answer_mem]

theorem flt1_kept {s : State} (hs : s.Inv) (all : Bool) (g : FTy → Nat → Bool → Nat → Flt) (d : RName) (a : Src) (t : FTy) :
    OutKept (flt1 all g d a t s) := by
  unfold flt1
  grind only [State.Inv, vecFlt_kept]

theorem flt2_kept {s : State} (hs : s.Inv) (t : FTy) (g : Fmt → Nat → Bool → Nat → Nat → Flt) (d : RName) (a b : Src) :
    OutKept (flt2 t g d a b s) := by
  unfold flt2
  grind only [State.Inv, vecFlt_kept]

theorem fltCmp_kept {s : State} (hs : s.Inv) (cc : Nat) (d : RName) (a : Src) (t : FTy) : OutKept (fltCmp cc d a t s) := by
  unfold fltCmp
  grind only [State.Inv, vecFlt_kept]

theorem flt3_kept {s : State} (hs : s.Inv) (t : FTy) (d : RName) (a b : Src) : OutKept (flt3 t d a b s) := by
  unfold flt3
  grind only [State.Inv, vecFlt_kept]

theorem fltL_kept {s : State} (hs : s.Inv) (t : FTy) (d : RName) (a b : Src) : OutKept (fltL t d a b s) := by
  unfold fltL
  grind only [State.Inv, vecFlt_kept]

theorem loadV_kept {s : State} (hs : s.Inv) (size : Nat) (signed : Bool) (t b : RName) (o : BitVec 4) (r : Ord) (sc : Scope) (h : Hint) :
    OutKept (loadV size signed t b o r sc h s) := by
  unfold loadV
  grind only [resKept_done, resKept_trap, ResKept, State.Inv, → State.sendWord_inv, issueLong_kept]

theorem issueMx_kept {s : State} (hs : s.Inv) {f : Nat → State → Res} (hf : ∀ n u, u.Inv → ResKept (f n u)) (ok writes : Bool) :
    OutKept (issueMx ok writes f s) := by
  unfold issueMx
  grind only [outKept_next, resKept_done, resKept_trap, State.Inv, issueLong_kept]

theorem mdrain_kept {s : State} (hs : s.Inv) (ok : Bool) (fn : Nat) (d : Option RName) (a : RName) (amx clr : Bool) :
    OutKept (mdrain ok fn d a amx clr s) := by
  unfold mdrain
  grind only [resKept_done, resKept_trap, ResKept, State.Inv, State.enterChain_mem, → State.illegalTrap_inv, issueMx_kept]

theorem prefetch_kept {s : State} (hs : s.Inv) (fn : Nat) (a : RName) (h : Nat) (x : Bool) : OutKept (prefetch fn a h x s) := by
  unfold prefetch
  grind only [resKept_done, resKept_trap, ResKept, State.Inv, → State.sendWord_inv, State.past_mem, State.modCw_mem, issueLong_kept]

theorem redWord_kept {s : State} (hs : s.Inv) (op : State → Comb) (ident : W32) (d a : RName) : OutKept (redWord op ident d a s) := by
  unfold redWord
  grind only [resKept_done, resKept_trap, State.Inv, issueFixed_kept, State.putLanes_mem, State.mergeF_mem]

theorem sca1_kept {s : State} (hs : s.Inv) (op : W32 → W32) (d : RName) (a : Src) : OutKept (sca1 op d a s) := by
  unfold sca1
  grind only [resKept_done, resKept_trap, State.Inv, issueFixed_kept, State.putS_mem]

theorem sca2_kept {s : State} (hs : s.Inv) (op : W32 → W32 → W32) (d : RName) (a b : Src) : OutKept (sca2 op d a b s) := by
  unfold sca2
  grind only [resKept_done, resKept_trap, State.Inv, issueFixed_kept, State.putS_mem]

theorem scanWord_kept {s : State} (hs : s.Inv) (op : State → Comb) (ident : W32) (d a : RName) (e : Bool) :
    OutKept (scanWord op ident d a e s) := by
  unfold scanWord
  grind only [resKept_done, resKept_trap, State.Inv, issueFixed_kept, State.putLanes_mem, State.mergeF_mem]

theorem loadS_kept {s : State} (hs : s.Inv) (size : Nat) (t b : RName) (o : BitVec 4) (r : Ord) (sc : Scope) (h : Hint) :
    OutKept (loadS size t b o r sc h s) := by
  unfold loadS
  grind only [resKept_done, resKept_trap, ResKept, State.Inv, → State.sendWord_inv, issueLong_kept]

theorem storeS_kept {s : State} (hs : s.Inv) (size : Nat) (t b : RName) (o : BitVec 4) (r : Ord) (sc : Scope) (h : Hint) :
    OutKept (storeS size t b o r sc h s) := by
  unfold storeS
  grind only [resKept_done, resKept_trap, ResKept, State.Inv, → State.sendWord_inv, issueLong_kept]

theorem storeV_kept {s : State} (hs : s.Inv) (size : Nat) (t b : RName) (o : BitVec 4) (r : Ord) (sc : Scope) (h : Hint) :
    OutKept (storeV size t b o r sc h s) := by
  unfold storeV
  grind only [resKept_done, resKept_trap, ResKept, State.Inv, → State.sendWord_inv, issueLong_kept]

theorem versionWord_kept {s : State} (hs : s.Inv) (kind : OpKind) (write ok acq rel : Bool) (d a : RName) (b : Src) :
    OutKept (versionWord kind write ok acq rel d a b s) := by
  unfold versionWord
  grind only [resKept_done, resKept_trap, ResKept, State.Inv, → State.sendWord_inv, issueLong_kept, State.foldl_inv]

theorem State.verArrive_kept {s : State} (hs : s.Inv) {f : State → MemOp → Acc → State} (hf : ∀ u o a, u.Inv → (f u o a).Inv) (id lane : Nat) (k : OpKind) :
    OutKept (s.verArrive id lane k f) := by
  unfold State.verArrive
  dsimp only
  have hr : ∀ o a, (s.recheck o a).Inv := State.recheck_inv hs
  have hv : ∀ o a o1 x, ((s.recheck o a).endHolds o1 x).Inv := fun o a => State.endHolds_inv (hr o a)
  (repeat' split) <;> refine outKept_next ?_
  all_goals grind only [State.Inv, State.choose_inv, State.hold_mem]

theorem laneTest_kept {s : State} (hs : s.Inv) (f : (Nat → W32) → Lanes → W32) (d a : RName) : OutKept (laneTest f d a s) := by
  unfold laneTest
  grind only [resKept_done, resKept_trap, State.Inv, issueFixed_kept, State.modCw_mem, State.putS_mem]

theorem permute_kept {s : State} (hs : s.Inv) (src : Nat → W32 → Option Nat) (d a : RName) : OutKept (permute src d a s) := by
  unfold permute
  grind only [resKept_done, resKept_trap, State.Inv, issueFixed_kept, State.putLanes_mem, State.modCw_mem]

theorem execAck_kept {s : State} (hs : s.Inv) (k : Nat) : OutKept (execAck k s) := by
  unfold execAck
  grind only [State.Inv, State.dirStep_kept, State.dirAnswer_mem]

theorem execAllow_kept {s : State} (hs : s.Inv) (q : BitVec 3) (a : Src) : OutKept (execAllow q a s) := by
  unfold execAllow
  grind only [resKept_done, resKept_trap, ResKept, State.Inv, State.past_mem, → State.queueTrap_inv, State.modQueue_mem, issueTurn_kept]

theorem execAmsg_kept {s : State} (hs : s.Inv) (d : RName) (a : Src) : OutKept (execAmsg d a s) := by
  unfold execAmsg
  grind only [resKept_done, resKept_trap, State.Inv, State.past_mem, issueWaiting_kept, State.sendAll_inv, State.await_mem]

theorem execAmsgDelivery_kept {s : State} (hs : s.Inv) (die : Nat) : OutKept (execAmsgDelivery die s) := by
  unfold execAmsgDelivery
  dsimp only
  split
  · exact outKept_next hs
  refine outKept_ite (outKept_ite (outKept_next hs) (outKept_next hs)) ?_
  split
  · next u e =>
    split at e
    · obtain ⟨b, -, rfl⟩ := Option.map_eq_some_iff.mp e
      exact outKept_next hs
    · cases e
  · exact outKept_next (State.getD_inv (fun _ => State.msgPut_inv (State.inv_congr (State.modDie_mem _ _ _) hs) _ _) hs)

theorem execBar_kept {s : State} (hs : s.Inv) (k : BitVec 5) (n : BitVec 18) : OutKept (execBar k n s) := by
  unfold execBar
  grind only [outKept_next, resKept_done, resKept_trap, State.Inv, State.modCp_mem, State.modCg_mem, State.barTest_mem, issueBarrier_kept]

theorem execBinAdmit_kept {s : State} (hs : s.Inv) (core k : Nat) : OutKept (execBinAdmit core k s) := by
  unfold execBinAdmit
  grind only [outKept_next, State.Inv, State.modCore_mem, → State.spillBin_inv, → State.admitBin_inv]

theorem execBinWindowExpiry_kept {s : State} (hs : s.Inv) (core k : Nat) : OutKept (execBinWindowExpiry core k s) := by
  unfold execBinWindowExpiry
  grind only [outKept_next, State.Inv, State.modCore_mem]

theorem execBinv_kept {s : State} (hs : s.Inv) (k : Nat) : OutKept (execBinv k s) := by
  unfold execBinv
  grind only [State.Inv, State.dirStep_kept, State.modCopy_mem, State.sendDir_mem]

theorem execBucketHandover_kept {s : State} (hs : s.Inv) (die : Nat) : OutKept (execBucketHandover die s) := by
  unfold execBucketHandover
  grind only [outKept_next, State.Inv, State.moveBucket_inv, State.modDie_mem, State.sliceDone_inv]

theorem execCardComplete_kept {s : State} (hs : s.Inv) (die key : Nat) : OutKept (execCardComplete die key s) := by
  unfold execCardComplete
  grind only [outKept_next, State.Inv, State.dropLaunch_mem, State.agentWrite_inv, State.logCtx_inv, State.raiseFault_inv,
    State.modLaunch_mem, State.logFar_inv, State.endCard_mem]

theorem execCardReady_kept {s : State} (hs : s.Inv) (die key : Nat) : OutKept (execCardReady die key s) := by
  unfold execCardReady
  grind only [outKept_next, State.Inv, State.modLaunch_mem]

theorem execCbase_kept {s : State} (hs : s.Inv) (i : BitVec 9) : OutKept (execCbase i s) := by
  unfold execCbase
  grind only [resKept_done, resKept_trap, State.Inv, issueFixed_kept, State.modCw_mem]

theorem execClause_kept {s : State} (hs : s.Inv) (w : BitVec 12) (a b : BitVec 4) (l n : BitVec 3) : OutKept (execClause w a b l n s) := by
  unfold execClause
  grind only [outKept_next, State.Inv, State.modCp_mem, State.clauseWords_inv, State.modCore_mem, State.fetchFail_inv, State.illegal_inv]

theorem execCld_kept {s : State} (hs : s.Inv) (d : RName) (a : Src) : OutKept (execCld d a s) := by
  unfold execCld
  grind only [resKept_done, resKept_trap, ResKept, State.Inv, → State.sendWord_inv, issueLong_kept]

theorem execContextRecordWrite_kept {s : State} (hs : s.Inv) (die off val : Nat) : OutKept (execContextRecordWrite die off val s) := by
  unfold execContextRecordWrite
  grind only [State.Inv, State.whenUp_kept, State.ctxWrite_inv]

theorem execContextReset_kept {s : State} (hs : s.Inv) (die ctx : Nat) : OutKept (execContextReset die ctx s) := by
  unfold execContextReset
  grind only [outKept_next, resKept_done, resKept_trap, State.Inv, State.contextReset_inv]

theorem execContextResume_kept {s : State} (hs : s.Inv) (die ctx : Nat) : OutKept (execContextResume die ctx s) := by
  unfold execContextResume
  grind only [outKept_next, resKept_done, resKept_trap, State.Inv, State.contextResume_mem]

theorem execControlRegisterWrite_kept {s : State} (hs : s.Inv) (die off size val : Nat) :
    OutKept (execControlRegisterWrite die off size val s) := by
  unfold execControlRegisterWrite
  grind only [outKept_next, State.Inv, State.ctlWrite_inv]

theorem execCoreContextPass_kept {s : State} (hs : s.Inv) (core ctx : Nat) : OutKept (execCoreContextPass core ctx s) := by
  refine outKept_ite (outKept_next hs) (outKept_next (State.getD_inv (fun _ => State.passCore_inv hs _ _) hs))

theorem execCrossDieTimeout_kept {s : State} (hs : s.Inv) (id : Nat) : OutKept (execCrossDieTimeout id s) := by
  unfold execCrossDieTimeout
  grind only [outKept_next, State.Inv, State.failFloor_inv, State.failAccs_inv, State.losePkt_inv, State.logCross_inv,
    State.dropAsked_mem, State.logLines_inv, State.foldl_inv]

theorem execD2dPacket_kept {s : State} (hs : s.Inv) (src dst seq : Nat) : OutKept (execD2dPacket src dst seq s) := by
  unfold execD2dPacket
  grind only [outKept_next, State.Inv, State.modLink_mem, State.received_inv, State.foldl_inv]

theorem execData_kept {s : State} (hs : s.Inv) (k : Nat) : OutKept (execData k s) := by
  unfold execData
  grind only [State.Inv, State.dirStep_kept, State.modCopy_mem, State.install_inv]

theorem execDispatchDecision_kept {s : State} (hs : s.Inv) (die : Nat) : OutKept (execDispatchDecision die s) := by
  have hc : s.choose.2.Inv := State.choose_inv hs
  unfold execDispatchDecision
  dsimp only
  split
  · exact outKept_next (State.inv_congr (by simp only [State.rejoin_mem, State.modDie_mem]) hs)
  · next k _ =>
    refine outKept_next (State.inv_congr (State.decided_mem _ _ _ _ _) (State.getD_inv (fun t e => ?_) hs))
    refine State.classes_inv hc die s.choose.1 (List.mem_of_getElem? (i := k) ?_)
    rw [List.getD_eq_getElem?_getD, Option.getD_eq_iff] at e
    obtain e | ⟨-, e⟩ := e
    · exact e
    · cases e

theorem execDrainPortOperation_kept {s : State} (hs : s.Inv) (core id : Nat) : OutKept (execDrainPortOperation core id s) := by
  unfold execDrainPortOperation
  grind only [outKept_next, State.Inv, State.mxDone_mem, State.accRead_inv, State.modCore_mem, State.drainData_mem, State.drainEnd_inv]

theorem execEngineBeat_kept {s : State} (hs : s.Inv) (core cls seq beat : Nat) : OutKept (execEngineBeat core cls seq beat s) := by
  unfold execEngineBeat
  grind only [outKept_next, resKept_done, resKept_trap, State.Inv, State.packetBeat_inv, State.moveBeat_inv, State.gatherBeat_inv,
    State.tookTurn_mem]

theorem execEngineCommandComplete_kept {s : State} (hs : s.Inv) (core cls seq : Nat) :
    OutKept (execEngineCommandComplete core cls seq s) := by
  unfold execEngineCommandComplete
  grind only [outKept_next, State.Inv, State.completionWords_inv, State.completeEntry_inv]

theorem execEngineEntryStart_kept {s : State} (hs : s.Inv) (core cls : Nat) : OutKept (execEngineEntryStart core cls s) := by
  unfold execEngineEntryStart
  grind only [outKept_next, State.Inv, State.modTree_mem, State.modEntry_mem, State.modDie_mem, State.completeEntry_inv]

theorem execEnterDebugHalt_kept {s : State} (hs : s.Inv) (die : Nat) : OutKept (execEnterDebugHalt die s) := by
  unfold execEnterDebugHalt
  grind only [State.Inv, State.answer_mem, State.modDie_mem, State.sideCmd_kept]

theorem execEret_kept {s : State} (hs : s.Inv) : OutKept (execEret s) := by
  unfold execEret
  grind only [resKept_done, resKept_trap, State.Inv, State.eretOp_mem, issueControl_kept]

theorem execEretKill_kept {s : State} (hs : s.Inv) : OutKept (execEretKill s) := by
  unfold execEretKill
  grind only [resKept_done, resKept_trap, State.Inv, issueControl_kept, State.endGroup_mem]

theorem execExit_kept {s : State} (hs : s.Inv) (c : RName) : OutKept (execExit c s) := by
  unfold execExit
  grind only [resKept_done, resKept_trap, State.Inv, State.modCp_mem, issueControl_kept, State.exitLanes_mem]

theorem execFabricPacket_kept {s : State} (hs : s.Inv) (port flits : Nat) : OutKept (execFabricPacket port flits s) := by
  unfold execFabricPacket
  grind only [outKept_next, State.Inv, State.modPort_mem]

theorem execFaultDeliveryEnable_kept {s : State} (hs : s.Inv) (die val : Nat) : OutKept (execFaultDeliveryEnable die val s) := by
  unfold execFaultDeliveryEnable
  grind only [outKept_next, State.Inv, State.ctlWrite_inv]

theorem execFedAnnounce_kept {s : State} (hs : s.Inv) (die key : Nat) : OutKept (execFedAnnounce die key s) := by
  unfold execFedAnnounce
  grind only [outKept_next, State.Inv, State.modLaunch_mem, State.sendPkt_mem, State.foldl_inv]

theorem execFedBarrierArrival_kept {s : State} (hs : s.Inv) (die k ctx n : Nat) : OutKept (execFedBarrierArrival die k ctx n s) := by
  unfold execFedBarrierArrival
  grind only [outKept_next, State.Inv, State.fedArrive_inv]

theorem execFedBarrierEn_kept {s : State} (hs : s.Inv) (die k val : Nat) : OutKept (execFedBarrierEn die k val s) := by
  unfold execFedBarrierEn
  grind only [outKept_next, State.Inv, State.ctlWrite_inv]

theorem execFence_kept {s : State} (hs : s.Inv) (sc : Scope) (o : Ord) : OutKept (execFence sc o s) := by
  unfold execFence
  grind only [resKept_done, resKept_trap, State.Inv, State.fenceTo_mem, issueWaiting_kept]

theorem execFencex_kept {s : State} (hs : s.Inv) (p q : BitVec 5) (sc : Scope) : OutKept (execFencex p q sc s) := by
  unfold execFencex
  grind only [outKept_next, resKept_done, resKept_trap, State.Inv, State.fenceTo_mem, issueWaiting_kept]

theorem execFetchCrashRecord_kept {s : State} (hs : s.Inv) (die : Nat) : OutKept (execFetchCrashRecord die s) := by
  unfold execFetchCrashRecord
  grind only [outKept_next, State.Inv, State.sideband_mem]

theorem execFhead_kept {s : State} (hs : s.Inv) (die val : Nat) : OutKept (execFhead die val s) := by
  unfold execFhead
  grind only [outKept_next, State.Inv, State.ctlWrite_inv]

theorem execFollowOnIssue_kept {s : State} (hs : s.Inv) (core : Nat) : OutKept (execFollowOnIssue core s) := by
  unfold execFollowOnIssue
  grind only [outKept_next, State.Inv, State.modCore_mem, State.choose_inv, State.followDone_mem]

theorem execFrespRefuse_kept {s : State} (hs : s.Inv) (die rec : Nat) : OutKept (execFrespRefuse die rec s) := by
  unfold execFrespRefuse
  grind only [outKept_next, State.Inv, State.respond_inv]

theorem execFrespResolve_kept {s : State} (hs : s.Inv) (die rec : Nat) : OutKept (execFrespResolve die rec s) := by
  unfold execFrespResolve
  grind only [outKept_next, resKept_done, resKept_trap, State.Inv, State.respond_inv]

theorem execFwd_kept {s : State} (hs : s.Inv) (k : Nat) : OutKept (execFwd k s) := by
  unfold execFwd
  grind only [State.Inv, State.dirStep_kept, State.modCopy_mem, State.sendDir_mem]

theorem execGetStatus_kept {s : State} (hs : s.Inv) : OutKept (execGetStatus s) := by
  unfold execGetStatus
  grind only [outKept_next, State.Inv, State.sideband_mem]

theorem execGrant_kept {s : State} (hs : s.Inv) (k : Nat) : OutKept (execGrant k s) := by
  unfold execGrant
  grind only [State.Inv, State.dirStep_kept, State.modCopy_mem, State.install_inv]

theorem execGrest_kept {s : State} (hs : s.Inv) (a : RName) : OutKept (execGrest a s) := by
  unfold execGrest
  grind only [resKept_done, resKept_trap, ResKept, State.Inv, State.restoreImage_inv, issueControl_kept, → State.imageFail_inv]

theorem execGroupEnd_kept {s : State} (hs : s.Inv) (gid : Nat) : OutKept (execGroupEnd gid s) := by
  unfold execGroupEnd
  grind only [outKept_next, State.Inv, State.threadsOver_mem, State.freeGroup_mem]

theorem execGroupRetire_kept {s : State} (hs : s.Inv) (gid : Nat) : OutKept (execGroupRetire gid s) := by
  unfold execGroupRetire
  grind only [outKept_next, State.Inv, State.threadsOver_mem, State.joinAsk_mem, State.freeGroup_mem, State.joinDown_inv, State.foldl_inv]

theorem execGsave_kept {s : State} (hs : s.Inv) (a : RName) : OutKept (execGsave a s) := by
  unfold execGsave
  grind only [resKept_done, resKept_trap, ResKept, State.Inv, → State.gsaveTry_inv, issueWaiting_kept]

theorem execHandlerEntry_kept {s : State} (hs : s.Inv) (gid : Nat) : OutKept (execHandlerEntry gid s) := by
  unfold execHandlerEntry
  grind only [outKept_next, State.Inv, State.modGroup_mem, State.enterHandler_inv, State.discardDoomed_mem]

theorem execHeapGrant_kept {s : State} (hs : s.Inv) (die ctx val : Nat) : OutKept (execHeapGrant die ctx val s) := by
  unfold execHeapGrant
  grind only [State.Inv, State.heapGrant_mem, State.whenUp_kept]

theorem execHostAtomicop_kept {s : State} (hs : s.Inv) (die addr size op val cmp : Nat) :
    OutKept (execHostAtomicop die addr size op val cmp s) := by
  unfold execHostAtomicop
  grind only [outKept_next, State.Inv, State.answer_mem, State.hostVersion_inv, State.agentWrite_inv]

theorem execHostBar4Read_kept {s : State} (hs : s.Inv) (die addr size : Nat) : OutKept (execHostBar4Read die addr size s) := by
  unfold execHostBar4Read
  grind only [outKept_next, State.Inv, State.answer_mem, State.usedLines_mem]

theorem execHostCompletion_kept {s : State} (hs : s.Inv) (id : Nat) (good : Bool) : OutKept (execHostCompletion id good s) := by
  unfold execHostCompletion
  grind only [outKept_next, resKept_done, resKept_trap, State.Inv, State.atomStep_inv, State.modAccs_mem, State.failFloor_inv,
    State.failAccs_inv, State.modOp_mem, State.storeStep_inv, State.overOp_mem, State.loadStep_inv]

theorem execHostPostedWrite_kept {s : State} (hs : s.Inv) (die addr size val : Nat) :
    OutKept (execHostPostedWrite die addr size val s) := by
  unfold execHostPostedWrite
  grind only [outKept_next, State.Inv, State.hostVersion_inv, State.agentWrite_inv]

theorem execIdleQuantumExpiry_kept {s : State} (hs : s.Inv) (die q : Nat) : OutKept (execIdleQuantumExpiry die q s) := by
  unfold execIdleQuantumExpiry
  grind only [outKept_next, State.Inv, State.modUq_mem]

theorem execImageCheck_kept {s : State} (hs : s.Inv) (die : Nat) (rsa slh : Bool) (version hash : Nat) :
    OutKept (execImageCheck die rsa slh version hash s) := by
  unfold execImageCheck
  grind only [outKept_next, State.Inv, State.modDie_mem, State.sideUp_mem]

theorem execInv_kept {s : State} (hs : s.Inv) (k : Nat) : OutKept (execInv k s) := by
  unfold execInv
  grind only [State.Inv, State.dirStep_kept, State.modCopy_mem, State.sendDir_mem]

theorem execInvalidationCommand_kept {s : State} (hs : s.Inv) (die val : Nat) : OutKept (execInvalidationCommand die val s) := by
  unfold execInvalidationCommand
  grind only [State.Inv, State.invalidate_mem, State.whenUp_kept]

theorem execIsync_kept {s : State} (hs : s.Inv) : OutKept (execIsync s) := by
  unfold execIsync
  grind only [resKept_done, resKept_trap, State.Inv, State.modCore_mem, State.past_mem, State.modCw_mem, issueWaiting_kept]

theorem execJobCard_kept {s : State} (hs : s.Inv) (die q : Nat) : OutKept (execJobCard die q s) := by
  unfold execJobCard
  grind only [outKept_next, State.Inv, State.modUq_mem, State.takeEntry_inv, State.refuseRecord_inv, State.raiseFault_inv,
    State.accept_mem, State.advance_mem]

theorem execJoin_kept {s : State} (hs : s.Inv) (a : Src) : OutKept (execJoin a s) := by
  unfold execJoin
  grind only [resKept_done, resKept_trap, ResKept, State.Inv, issueWaiting_kept, → State.watchWord_inv, State.joinLane_mem, State.foldl_inv]

theorem execJoinZero_kept {s : State} (hs : s.Inv) (core slot lane : Nat) : OutKept (execJoinZero core slot lane s) := by
  unfold execJoinZero
  grind only [outKept_next, State.Inv, State.trapA_inv, State.watchAgain_mem, State.askFor_mem, State.joinLane_mem]

theorem execKeyErase_kept {s : State} (hs : s.Inv) (die val : Nat) : OutKept (execKeyErase die val s) := by
  unfold execKeyErase
  grind only [State.Inv, State.keyErase_inv, State.whenUp_kept]

theorem execKeyLoad_kept {s : State} (hs : s.Inv) (die val : Nat) : OutKept (execKeyLoad die val s) := by
  unfold execKeyLoad
  grind only [State.Inv, State.keyLoad_inv, State.whenUp_kept]

theorem execLaunch_kept {s : State} (hs : s.Inv) (die q : Nat) : OutKept (execLaunch die q s) := by
  unfold execLaunch
  grind only [outKept_next, State.Inv, State.takeLaunch_inv]

theorem execLaunchComplete_kept {s : State} (hs : s.Inv) (die key : Nat) : OutKept (execLaunchComplete die key s) := by
  unfold execLaunchComplete
  grind only [outKept_next, State.Inv, State.dropLaunch_mem]

theorem execLaunchTranslation_kept {s : State} (hs : s.Inv) (die key : Nat) : OutKept (execLaunchTranslation die key s) := by
  unfold execLaunchTranslation
  grind only [outKept_next, State.Inv, State.raiseFault_inv, State.modLaunch_mem, State.refuseLaunch_inv, State.foldl_inv]

theorem execLeaseRecall_kept {s : State} (hs : s.Inv) (core line : Nat) : OutKept (execLeaseRecall core line s) := by
  unfold execLeaseRecall
  grind only [outKept_next, State.Inv, State.dropLease_mem]

theorem execLeaseRequest_kept {s : State} (hs : s.Inv) (id lane : Nat) : OutKept (execLeaseRequest id lane s) := by
  unfold execLeaseRequest
  grind only [outKept_next, State.Inv, State.askFor_mem, State.joinLine_mem, State.grantLease_inv]

theorem execLeaveDebugHalt_kept {s : State} (hs : s.Inv) (die : Nat) : OutKept (execLeaveDebugHalt die s) := by
  unfold execLeaveDebugHalt
  grind only [State.Inv, State.answer_mem, State.modDie_mem, State.lateTraps_inv, State.sideCmd_kept, State.foldl_inv]

theorem execLinkDown_kept {s : State} (hs : s.Inv) (src dst : Nat) : OutKept (execLinkDown src dst s) := by
  unfold execLinkDown
  grind only [outKept_next, State.Inv, State.modLink_mem, State.logSys_inv]

theorem execLinkRetrain_kept {s : State} (hs : s.Inv) (src dst : Nat) : OutKept (execLinkRetrain src dst s) := by
  unfold execLinkRetrain
  grind only [outKept_next, State.Inv, State.modLink_mem]

theorem execLongLatencyComplete_kept {s : State} (hs : s.Inv) (id : Nat) : OutKept (execLongLatencyComplete id s) := by
  unfold execLongLatencyComplete
  grind only [outKept_next, resKept_done, resKept_trap, State.Inv, State.modAccs_mem, State.dropL1_mem, State.dropOp_mem, State.modWave_mem]

theorem execMapperSlotFill_kept {s : State} (hs : s.Inv) (die : Nat) : OutKept (execMapperSlotFill die s) := by
  unfold execMapperSlotFill
  grind only [outKept_next, State.Inv, State.modUq_mem, State.modDie_mem, State.foldl_inv]

theorem execMemoryTraining_kept {s : State} (hs : s.Inv) (die gib : Nat) : OutKept (execMemoryTraining die gib s) := by
  unfold execMemoryTraining
  grind only [outKept_next, State.Inv, State.modDie_mem]

theorem execMeshFlitRetry_kept {s : State} (hs : s.Inv) (_die : Nat) : OutKept (execMeshFlitRetry _die s) := by
  unfold execMeshFlitRetry
  grind only [outKept_next, State.Inv]

theorem execMeshLinkDown_kept {s : State} (hs : s.Inv) (die router dir : Nat) : OutKept (execMeshLinkDown die router dir s) := by
  unfold execMeshLinkDown
  grind only [outKept_next, resKept_done, resKept_trap, State.Inv, State.errorReset_inv, State.modDie_mem, State.logSys_inv,
    State.foldl_inv]

theorem execMma_kept {s : State} (hs : s.Inv) (b : BitVec 4) (c : BitVec 2) (i : BitVec 3) (a : BitVec 4) :
    OutKept (execMma b c i a s) := by
  unfold execMma
  grind only [resKept_done, resKept_trap, ResKept, State.Inv, State.enterChain_mem, issueMx_kept, → State.possTrap_inv]

theorem execMmaCheck_kept {s : State} (hs : s.Inv) (core : Nat) (pass : Bool) : OutKept (execMmaCheck core pass s) := by
  unfold execMmaCheck
  grind only [outKept_next, State.Inv, State.mxDone_mem, State.mxDiscard_mem, State.accRead_inv, State.modCore_mem, State.softCount_inv,
    State.mxFail_inv]

theorem execMmaStart_kept {s : State} (hs : s.Inv) (core : Nat) : OutKept (execMmaStart core s) := by
  unfold execMmaStart
  grind only [outKept_next, State.Inv, State.accRead_inv, State.modMx_mem, State.mxFail_inv]

theorem execModuleReset_kept {s : State} (hs : s.Inv) : OutKept (execModuleReset s) := by
  unfold execModuleReset
  grind only [outKept_next, resKept_done, resKept_trap, State.Inv, State.reset_mem, State.freshKeys_mem, State.foldl_inv]

theorem execMon_kept {s : State} (hs : s.Inv) (a : Src) : OutKept (execMon a s) := by
  unfold execMon
  grind only [resKept_done, resKept_trap, ResKept, State.Inv, issueWaiting_kept, → State.watchWord_inv]

theorem execMonitorTimeout_kept {s : State} (hs : s.Inv) (core slot lane : Nat) : OutKept (execMonitorTimeout core slot lane s) := by
  unfold execMonitorTimeout
  grind only [outKept_next, State.Inv, State.trapA_inv, State.modWave_mem]

theorem execMpass_kept {s : State} (hs : s.Inv) : OutKept (execMpass s) := by
  unfold execMpass
  grind only [resKept_done, resKept_trap, State.Inv, State.handover_mem, State.past_mem, issueWaiting_kept, State.await_mem]

theorem execMtake_kept {s : State} (hs : s.Inv) : OutKept (execMtake s) := by
  unfold execMtake
  grind only [resKept_done, resKept_trap, ResKept, State.Inv, → State.possTrap_inv, State.modCore_mem, State.past_mem, issueWaiting_kept,
    State.await_mem]

theorem execMwait_kept {s : State} (hs : s.Inv) : OutKept (execMwait s) := by
  unfold execMwait
  grind only [resKept_done, resKept_trap, State.Inv, State.past_mem, State.modCw_mem, issueWaiting_kept, State.await_mem]

theorem execMwaitWake_kept {s : State} (hs : s.Inv) (core slot lane : Nat) : OutKept (execMwaitWake core slot lane s) := by
  unfold execMwaitWake
  grind only [outKept_next, State.Inv, State.finishLanes_mem, State.modWave_mem]

theorem execMzero_kept {s : State} (hs : s.Inv) (c : BitVec 2) : OutKept (execMzero c s) := by
  unfold execMzero
  grind only [resKept_done, resKept_trap, ResKept, State.Inv, State.enterChain_mem, → State.illegalTrap_inv, issueMx_kept]

theorem execObimp_kept {s : State} (hs : s.Inv) (n : BitVec 4) (a : Src) : OutKept (execObimp n a s) := by
  unfold execObimp
  grind only [outKept_next, resKept_done, resKept_trap, ResKept, State.Inv, issueFixed_kept, → State.operandTrap_inv, State.modCg_mem]

theorem execObrel_kept {s : State} (hs : s.Inv) (n : BitVec 4) : OutKept (execObrel n s) := by
  unfold execObrel
  grind only [resKept_done, resKept_trap, ResKept, State.Inv, → State.illegalTrap_inv, State.modCg_mem, State.past_mem,
    issueWaiting_kept, State.await_mem]

theorem execObres_kept {s : State} (hs : s.Inv) (n : BitVec 4) (a : Src) : OutKept (execObres n a s) := by
  unfold execObres
  grind only [outKept_next, resKept_done, resKept_trap, ResKept, State.Inv, issueFixed_kept, → State.operandTrap_inv, State.modCg_mem]

theorem execOrderingPointAccess_kept {s : State} (hs : s.Inv) (id lane : Nat) : OutKept (execOrderingPointAccess id lane s) := by
  unfold execOrderingPointAccess
  grind only [outKept_next, State.Inv, State.atomStep_inv, State.endHolds_inv, State.storeStep_inv, State.loadStep_inv, State.choose_inv,
    State.spStep_mem, State.fabPacket_mem, State.prefStep_inv, State.hold_mem]

theorem execPad_kept {s : State} (hs : s.Inv) (die q : Nat) : OutKept (execPad die q s) := by
  unfold execPad
  grind only [outKept_next, State.Inv, State.takeEntry_inv, State.advance_mem]

theorem execPageClassCommand_kept {s : State} (hs : s.Inv) (die val : Nat) : OutKept (execPageClassCommand die val s) := by
  unfold execPageClassCommand
  grind only [State.Inv, State.pageClass_inv, State.whenUp_kept]

theorem execPageWalk_kept {s : State} (hs : s.Inv) (core page : Nat) : OutKept (execPageWalk core page s) := by
  unfold execPageWalk
  grind only [outKept_next, State.Inv, State.fillTlb_mem]

theorem execPageWalkTimeout_kept {s : State} (hs : s.Inv) (core slot lane : Nat) : OutKept (execPageWalkTimeout core slot lane s) := by
  unfold execPageWalkTimeout
  grind only [outKept_next, State.Inv, State.trapA_inv, State.modWave_mem]

theorem execPageZero_kept {s : State} (hs : s.Inv) (die val : Nat) : OutKept (execPageZero die val s) := by
  unfold execPageZero
  grind only [State.Inv, State.pageZero_mem, State.whenUp_kept]

theorem execPipeline_kept {s : State} (hs : s.Inv) (die q : Nat) : OutKept (execPipeline die q s) := by
  unfold execPipeline
  grind only [outKept_next, State.Inv, State.takeLaunch_inv]

theorem execPlateDeclareLost_kept {s : State} (hs : s.Inv) (plate : Nat) : OutKept (execPlateDeclareLost plate s) := by
  unfold execPlateDeclareLost
  grind only [outKept_next, State.Inv, State.plateLost_inv]

theorem execPlatePortError_kept {s : State} (hs : s.Inv) (plate : Nat) : OutKept (execPlatePortError plate s) := by
  unfold execPlatePortError
  grind only [outKept_next, State.Inv, State.plateLost_inv]

theorem execPlateResetReturn_kept {s : State} (hs : s.Inv) (plate : Nat) (pass : Bool) : OutKept (execPlateResetReturn plate pass s) := by
  unfold execPlateResetReturn
  grind only [outKept_next, resKept_done, resKept_trap, State.Inv, State.modDie_mem, State.clearCore_inv, State.foldl_inv]

theorem execPlateSelfTest_kept {s : State} (hs : s.Inv) (die failed : Nat) : OutKept (execPlateSelfTest die failed s) := by
  unfold execPlateSelfTest
  grind only [outKept_next, State.Inv, State.modDie_mem, State.sideUp_mem, State.foldl_inv]

theorem execPlateWatchdogExpiry_kept {s : State} (hs : s.Inv) (plate : Nat) : OutKept (execPlateWatchdogExpiry plate s) := by
  unfold execPlateWatchdogExpiry
  grind only [outKept_next, State.Inv, State.plateLost_inv]

theorem execPreemptDeadlineExpiry_kept {s : State} (hs : s.Inv) (die ctx : Nat) : OutKept (execPreemptDeadlineExpiry die ctx s) := by
  unfold execPreemptDeadlineExpiry
  grind only [outKept_next, resKept_done, resKept_trap, State.Inv, State.contextReset_inv]

theorem execPreemptDrain_kept {s : State} (hs : s.Inv) (die ctx : Nat) : OutKept (execPreemptDrain die ctx s) := by
  unfold execPreemptDrain
  grind only [outKept_next, State.Inv, State.preemptDrain_mem]

theorem execPreemptSave_kept {s : State} (hs : s.Inv) (die ctx : Nat) : OutKept (execPreemptSave die ctx s) := by
  unfold execPreemptSave
  grind only [outKept_next, State.Inv, State.preemptSave_inv]

theorem execQinit_kept {s : State} (hs : s.Inv) (q : BitVec 3) (a : Src) : OutKept (execQinit q a s) := by
  unfold execQinit
  grind only [resKept_done, resKept_trap, ResKept, State.Inv, State.past_mem, → State.queueTrap_inv, State.modQueue_mem, issueTurn_kept]

theorem execQpack_kept {s : State} (hs : s.Inv) (d : RName) (a : Src) : OutKept (execQpack d a s) := by
  unfold execQpack
  grind only [resKept_done, resKept_trap, State.Inv, issueFixed_kept, State.putLanes_mem, State.mergeF_mem]

theorem execQpop_kept {s : State} (hs : s.Inv) (d : RName) (a : Src) : OutKept (execQpop d a s) := by
  unfold execQpop
  grind only [resKept_done, resKept_trap, ResKept, State.Inv, State.queuePerform_mem, → State.queueTrap_inv, State.modQueue_mem,
    issueTurn_kept, State.await_mem]

theorem execQpush_kept {s : State} (hs : s.Inv) (q : BitVec 3) (a : Src) : OutKept (execQpush q a s) := by
  unfold execQpush
  grind only [resKept_done, resKept_trap, ResKept, State.Inv, State.queuePerform_mem, → State.queueTrap_inv, State.modQueue_mem,
    issueTurn_kept, State.await_mem]

theorem execQtry_kept {s : State} (hs : s.Inv) (d : RName) (a : Src) : OutKept (execQtry d a s) := by
  unfold execQtry
  grind only [resKept_done, resKept_trap, ResKept, State.Inv, State.past_mem, State.modCw_mem, → State.queueTrap_inv, State.modQueue_mem,
    issueTurn_kept, State.foldl_inv]

theorem execQueueDescriptorWrite_kept {s : State} (hs : s.Inv) (die off val : Nat) : OutKept (execQueueDescriptorWrite die off val s) := by
  unfold execQueueDescriptorWrite
  grind only [outKept_next, State.Inv, State.ctlWrite_inv]

theorem execQueuePriorityAge_kept {s : State} (hs : s.Inv) (die q : Nat) : OutKept (execQueuePriorityAge die q s) := by
  unfold execQueuePriorityAge
  grind only [outKept_next, State.Inv, State.modUq_mem]

theorem execQueueWordPerform_kept {s : State} (hs : s.Inv) (core slot lane : Nat) : OutKept (execQueueWordPerform core slot lane s) := by
  unfold execQueueWordPerform
  grind only [outKept_next, State.Inv, State.queuePerform_mem]

theorem execRcv_kept {s : State} (hs : s.Inv) (m : RName) (b : BitVec 4) : OutKept (execRcv m b s) := by
  unfold execRcv
  grind only [resKept_done, resKept_trap, State.Inv, State.modCw_mem, issueBarrier_kept]

theorem execRds_kept {s : State} (hs : s.Inv) (k : Nat) : OutKept (execRds k s) := by
  unfold execRds
  grind only [State.Inv, State.dirArrive_kept]

theorem execRdsr_kept {s : State} (hs : s.Inv) (d : RName) (n : BitVec 7) : OutKept (execRdsr d n s) := by
  unfold execRdsr
  grind only [resKept_done, resKept_trap, State.Inv, issueFixed_kept, State.putS_mem]

theorem execRdx_kept {s : State} (hs : s.Inv) (k : Nat) : OutKept (execRdx k s) := by
  unfold execRdx
  grind only [State.Inv, State.dirArrive_kept]

theorem execReadHoldExpiry_kept {s : State} (hs : s.Inv) (die line : Nat) : OutKept (execReadHoldExpiry die line s) := by
  unfold execReadHoldExpiry
  grind only [outKept_next, State.Inv, State.sendHeld_inv]

theorem execReadLog_kept {s : State} (hs : s.Inv) (die which index : Nat) : OutKept (execReadLog die which index s) := by
  unfold execReadLog
  grind only [outKept_next, State.Inv, State.sideband_mem]

theorem execReadPower_kept {s : State} (hs : s.Inv) (die : Nat) : OutKept (execReadPower die s) := by
  unfold execReadPower
  grind only [outKept_next, State.Inv, State.sideband_mem]

theorem execReductionContribution_kept {s : State} (hs : s.Inv) (die tree k : Nat) : OutKept (execReductionContribution die tree k s) := by
  unfold execReductionContribution
  grind only [outKept_next, State.Inv, State.modTree_mem, State.dropLate_mem, State.forwardUnit_inv]

theorem execReductionUnitTimeout_kept {s : State} (hs : s.Inv) (die tree router : Nat) :
    OutKept (execReductionUnitTimeout die tree router s) := by
  unfold execReductionUnitTimeout
  grind only [outKept_next, State.Inv, State.modUnit_mem, State.forwardUnit_inv]

theorem execRegionArming_kept {s : State} (hs : s.Inv) (die key : Nat) : OutKept (execRegionArming die key s) := by
  unfold execRegionArming
  grind only [outKept_next, State.Inv, State.armRegion_inv, State.modLaunch_mem, State.refuseLaunch_inv, State.foldl_inv]

theorem execRegionDisarm_kept {s : State} (hs : s.Inv) (die val : Nat) : OutKept (execRegionDisarm die val s) := by
  unfold execRegionDisarm
  grind only [State.Inv, State.whenUp_kept, State.disarmCommand_inv]

theorem execRegulatorSample_kept {s : State} (hs : s.Inv) (die power : Nat) : OutKept (execRegulatorSample die power s) := by
  unfold execRegulatorSample
  grind only [outKept_next, State.Inv, State.modDie_mem]

theorem execResetDie_kept {s : State} (hs : s.Inv) (die : Nat) : OutKept (execResetDie die s) := by
  unfold execResetDie
  grind only [resKept_done, resKept_trap, State.Inv, State.clearDie_inv, State.modDie_mem, State.sideCmd_kept, State.freshKeys_mem,
    State.contextReset_inv, State.foldl_inv]

theorem execRingSpaceResume_kept {s : State} (hs : s.Inv) (core slot lane : Nat) : OutKept (execRingSpaceResume core slot lane s) := by
  unfold execRingSpaceResume
  grind only [outKept_next, resKept_done, resKept_trap, State.Inv, State.stageAll_inv, State.placedLanes_mem, State.modCore_mem,
    State.ringAll_inv, State.sendAll_inv]

theorem execSadda_kept {s : State} (hs : s.Inv) (d : RName) (a b : Src) : OutKept (execSadda d a b s) := by
  unfold execSadda
  grind only [resKept_done, resKept_trap, State.Inv, issueFixed_kept, State.putS64_mem]

theorem execScrub_kept {s : State} (hs : s.Inv) (die array index : Nat) : OutKept (execScrub die array index s) := by
  unfold execScrub
  grind only [outKept_next, State.Inv, State.modDie_mem, State.sliceError_inv]

theorem execSignal_kept {s : State} (hs : s.Inv) (die q : Nat) : OutKept (execSignal die q s) := by
  refine outKept_next (State.takeEntry_inv hs _ _ _ fun h va n => ?_)
  dsimp only
  split
  · exact State.stopQueue_inv hs _ _ _ _
  split
  · exact State.entryPause_inv hs _ _ _ _
  · exact State.queueHold_inv hs _ _ _ _
  · grind only [State.Inv, State.stopQueue_inv, State.anyWrite_inv, State.msi_mem, State.advance_mem]
  · exact State.stopQueue_inv hs _ _ _ _

theorem execSliceRetireNow_kept {s : State} (hs : s.Inv) (die slice : Nat) : OutKept (execSliceRetireNow die slice s) := by
  unfold execSliceRetireNow
  grind only [outKept_next, State.Inv, State.sliceRetire_inv]

theorem execSmov64_kept {s : State} (hs : s.Inv) (d : RName) (a : Src) : OutKept (execSmov64 d a s) := by
  unfold execSmov64
  grind only [resKept_done, resKept_trap, State.Inv, issueFixed_kept, State.putS64_mem]

theorem execSmovhi_kept {s : State} (hs : s.Inv) (d : RName) (i : BitVec 18) : OutKept (execSmovhi d i s) := by
  unfold execSmovhi
  grind only [resKept_done, resKept_trap, State.Inv, issueFixed_kept, State.putS_mem]

theorem execSmovi_kept {s : State} (hs : s.Inv) (d : RName) (i : BitVec 18) : OutKept (execSmovi d i s) := by
  unfold execSmovi
  grind only [resKept_done, resKept_trap, State.Inv, issueFixed_kept, State.putS_mem]

theorem execSpawn_kept {s : State} (hs : s.Inv) (d : RName) (a : Src) : OutKept (execSpawn d a s) := by
  unfold execSpawn
  grind only [resKept_done, resKept_trap, ResKept, State.Inv, State.placeAll_inv, State.past_mem, → State.spawnChecked_inv,
    issueTurn_kept, State.await_mem]

theorem execSpawnDeadlockEviction_kept {s : State} (hs : s.Inv) (die ctx : Nat) : OutKept (execSpawnDeadlockEviction die ctx s) := by
  unfold execSpawnDeadlockEviction
  dsimp only
  refine outKept_ite (outKept_next hs) (outKept_ite (outKept_next (State.getD_inv (fun t e => ?_) hs)) (outKept_ite (outKept_next hs) (outKept_next ?_)))
  · obtain ⟨u, hu, rfl⟩ := Option.map_eq_some_iff.mp e
    exact State.inv_congr (State.modDie_mem _ _ _) (State.evictGroup_inv hs _ _ hu)
  · exact State.inv_congr (State.modDie_mem _ _ _) (State.logCtx_inv hs _ _ _ _ _)

theorem execSpawnTry_kept {s : State} (hs : s.Inv) (d : RName) (a : Src) : OutKept (execSpawnTry d a s) := by
  unfold execSpawnTry
  grind only [resKept_done, resKept_trap, ResKept, State.Inv, State.placeAll_inv, State.past_mem, State.modCw_mem,
    → State.spawnChecked_inv, issueTurn_kept]

theorem execSpld_kept {s : State} (hs : s.Inv) (d : RName) (a b : Src) : OutKept (execSpld d a b s) := by
  unfold execSpld
  grind only [resKept_done, resKept_trap, ResKept, State.Inv, → State.sendWord_inv, issueLong_kept]

theorem execSpst_kept {s : State} (hs : s.Inv) (d : RName) (a b : Src) : OutKept (execSpst d a b s) := by
  unfold execSpst
  grind only [resKept_done, resKept_trap, ResKept, State.Inv, → State.sendWord_inv, issueLong_kept]

theorem execStageGovernorTick_kept {s : State} (hs : s.Inv) (die : Nat) : OutKept (execStageGovernorTick die s) := by
  unfold execStageGovernorTick
  grind only [outKept_next, State.Inv, State.modDie_mem]

theorem execStagePartialTake_kept {s : State} (hs : s.Inv) (die key stage : Nat) : OutKept (execStagePartialTake die key stage s) := by
  unfold execStagePartialTake
  grind only [outKept_next, State.Inv, → State.classes_inv, State.decided_mem, → State.takeStage_inv]

theorem execStagepush_kept {s : State} (hs : s.Inv) (d : RName) (a : Src) : OutKept (execStagepush d a s) := by
  unfold execStagepush
  grind only [resKept_done, resKept_trap, State.Inv, State.stageAll_inv, State.past_mem, issueWaiting_kept, State.await_mem]

theorem execStoreAcknowledge_kept {s : State} (hs : s.Inv) (id lane : Nat) : OutKept (execStoreAcknowledge id lane s) := by
  unfold execStoreAcknowledge
  grind only [outKept_next, resKept_done, resKept_trap, State.Inv, State.modAccs_mem, State.overOp_mem]

theorem execTagff_kept {s : State} (hs : s.Inv) (d : RName) (a : Src) : OutKept (execTagff d a s) := by
  unfold execTagff
  grind only [resKept_done, resKept_trap, State.Inv, issueFixed_kept, State.putS_mem]

theorem execTagwaitAll_kept {s : State} (hs : s.Inv) (a : Src) : OutKept (execTagwaitAll a s) := by
  unfold execTagwaitAll
  grind only [resKept_done, resKept_trap, State.Inv, State.past_mem, issueWaiting_kept, State.await_mem]

theorem execTagwaitAny_kept {s : State} (hs : s.Inv) (a : Src) : OutKept (execTagwaitAny a s) := by
  unfold execTagwaitAny
  grind only [resKept_done, resKept_trap, State.Inv, State.past_mem, issueWaiting_kept, State.await_mem]

theorem execTagwaitSatisfied_kept {s : State} (hs : s.Inv) (core slot lane : Nat) : OutKept (execTagwaitSatisfied core slot lane s) := by
  unfold execTagwaitSatisfied
  grind only [outKept_next, State.Inv, State.finishLanes_mem]

theorem execThermalTrip_kept {s : State} (hs : s.Inv) (plate : Nat) : OutKept (execThermalTrip plate s) := by
  unfold execThermalTrip
  grind only [outKept_next, State.Inv, State.plateLost_inv]

theorem execTreeEnable_kept {s : State} (hs : s.Inv) (die tree val : Nat) : OutKept (execTreeEnable die tree val s) := by
  unfold execTreeEnable
  grind only [outKept_next, State.Inv, State.treeEnable_inv]

theorem execUncorrectableError_kept {s : State} (hs : s.Inv) (die array index : Nat) :
    OutKept (execUncorrectableError die array index s) := by
  unfold execUncorrectableError
  grind only [outKept_next, resKept_done, resKept_trap, State.Inv, State.poisonLine_inv, State.modCore_mem, State.errorReset_inv,
    State.modDie_mem, State.sliceError_inv, State.endWithError_inv]

theorem execVersionWaitTimeout_kept {s : State} (hs : s.Inv) (id lane : Nat) : OutKept (execVersionWaitTimeout id lane s) := by
  unfold execVersionWaitTimeout
  grind only [outKept_next, State.Inv, State.failAccs_inv]

theorem execVfloor_kept {s : State} (hs : s.Inv) (a b : Src) : OutKept (execVfloor a b s) := by
  unfold execVfloor
  grind only [outKept_next, resKept_done, resKept_trap, State.Inv, State.past_mem, State.modCw_mem, issueLong_kept]

theorem execVfloorApply_kept {s : State} (hs : s.Inv) (id place : Nat) : OutKept (execVfloorApply id place s) := by
  unfold execVfloorApply
  grind only [outKept_next, State.Inv, State.sendHeld_inv, State.failFloor_inv, State.modOp_mem, State.failWaitsOf_inv, State.overOp_mem,
    State.applyFloor_inv, State.foldl_inv]

theorem execVldEqAtSlice_kept {s : State} (hs : s.Inv) (id lane : Nat) : OutKept (execVldEqAtSlice id lane s) := by
  unfold execVldEqAtSlice
  grind only [State.Inv, State.vldEq_inv, State.verArrive_kept]

theorem execVldLeAtSlice_kept {s : State} (hs : s.Inv) (id lane : Nat) : OutKept (execVldLeAtSlice id lane s) := by
  unfold execVldLeAtSlice
  grind only [State.Inv, State.vldLe_inv, State.verArrive_kept]

theorem execVldReturnRetry_kept {s : State} (hs : s.Inv) (id lane : Nat) : OutKept (execVldReturnRetry id lane s) := by
  unfold execVldReturnRetry
  grind only [outKept_next, State.Inv, State.modAccs_mem]

theorem execVstAtSlice_kept {s : State} (hs : s.Inv) (id lane : Nat) : OutKept (execVstAtSlice id lane s) := by
  unfold execVstAtSlice
  grind only [State.Inv, State.verArrive_kept, State.vst_inv]

theorem execWaitOnWord_kept {s : State} (hs : s.Inv) (die q : Nat) : OutKept (execWaitOnWord die q s) := by
  unfold execWaitOnWord
  grind only [outKept_next, State.Inv, State.stopQueue_inv, State.modUq_mem, State.takeEntry_inv, State.queueHold_inv, State.advance_mem,
    State.entryPause_inv]

theorem execWaitOnWordRecheck_kept {s : State} (hs : s.Inv) (die q : Nat) : OutKept (execWaitOnWordRecheck die q s) := by
  unfold execWaitOnWordRecheck
  grind only [outKept_next, State.Inv, State.stopQueue_inv, State.modUq_mem, State.queueHold_inv, State.entryPause_inv]

theorem execWaitOnWordTimeout_kept {s : State} (hs : s.Inv) (die q : Nat) : OutKept (execWaitOnWordTimeout die q s) := by
  unfold execWaitOnWordTimeout
  grind only [outKept_next, State.Inv, State.stopQueue_inv]

theorem execWatchRecord_kept {s : State} (hs : s.Inv) (core slot lane : Nat) : OutKept (execWatchRecord core slot lane s) := by
  unfold execWatchRecord
  grind only [outKept_next, State.Inv, State.watchAgain_mem, State.finishLanes_mem, State.modWave_mem]

theorem execWaveHaltStop_kept {s : State} (hs : s.Inv) (core slot : Nat) : OutKept (execWaveHaltStop core slot s) := by
  unfold execWaveHaltStop
  grind only [outKept_next, State.Inv, State.modGroup_mem, State.modWave_mem]

theorem execWavelengthCrcFail_kept {s : State} (hs : s.Inv) (port wave : Nat) : OutKept (execWavelengthCrcFail port wave s) := by
  unfold execWavelengthCrcFail
  grind only [outKept_next, State.Inv, State.modPort_mem]

theorem execWavelengthPark_kept {s : State} (hs : s.Inv) (port : Nat) : OutKept (execWavelengthPark port s) := by
  unfold execWavelengthPark
  grind only [outKept_next, State.Inv, State.modPort_mem]

theorem execWavelengthRelock_kept {s : State} (hs : s.Inv) (port : Nat) : OutKept (execWavelengthRelock port s) := by
  unfold execWavelengthRelock
  grind only [outKept_next, State.Inv, State.modPort_mem]

theorem execWb_kept {s : State} (hs : s.Inv) (k : Nat) : OutKept (execWb k s) := by
  unfold execWb
  grind only [State.Inv, State.modDir_mem, State.dirStep_kept, State.backKey_inv, State.dirAnswer_mem]

theorem execWbase_kept {s : State} (hs : s.Inv) (i : BitVec 18) : OutKept (execWbase i s) := by
  unfold execWbase
  grind only [resKept_done, resKept_trap, State.Inv, issueFixed_kept, State.modCw_mem]

theorem execWridx_kept {s : State} (hs : s.Inv) (die q size val : Nat) : OutKept (execWridx die q size val s) := by
  unfold execWridx
  grind only [outKept_next, State.Inv, State.notify_inv]

theorem execWrsr_kept {s : State} (hs : s.Inv) (n : BitVec 7) (a : Src) : OutKept (execWrsr n a s) := by
  refine issueFixed_kept hs (fun u hu => resKept_done (State.getD_inv (fun _ => State.setSpecial_inv hu _ _) hu)) _ _

theorem execXget_kept {s : State} (hs : s.Inv) (d a : RName) : OutKept (execXget d a s) := by
  unfold execXget
  grind only [resKept_done, resKept_trap, State.Inv, issueFixed_kept, State.modCw_mem, State.putS_mem]

theorem execXredElement_kept {s : State} (hs : s.Inv) (core seq elem : Nat) : OutKept (execXredElement core seq elem s) := by
  unfold execXredElement
  grind only [outKept_next, resKept_done, resKept_trap, State.Inv, State.beatDone_mem, State.stopBeat_inv, State.visit_mem,
    State.writeParts_inv, State.tookTurn_mem, State.completeEntry_inv]

theorem execYield_kept {s : State} (hs : s.Inv) : OutKept (execYield s) := by
  unfold execYield
  grind only [resKept_done, resKept_trap, State.Inv, issueFixed_kept, State.modCp_mem]

theorem exec_kept {s : State} (hs : s.Inv) (i : Instr) : OutKept (exec i s) := by
  cases i with
  | clause => exact outKept_of_eq (exec_clause _ _ _ _ _ _) (execClause_kept hs _ _ _ _ _)
  | iadd => exact outKept_of_eq (exec_iadd _ _ _ _) (vec2_kept hs _ _ _ _)
  | isub => exact outKept_of_eq (exec_isub _ _ _ _) (vec2_kept hs _ _ _ _)
  | imul => exact outKept_of_eq (exec_imul _ _ _ _) (vec2_kept hs _ _ _ _)
  | imulhS32 => exact outKept_of_eq (exec_imulhS32 _ _ _ _) (vec2_kept hs _ _ _ _)
  | imulhZ32 => exact outKept_of_eq (exec_imulhZ32 _ _ _ _) (vec2_kept hs _ _ _ _)
  | imad => exact outKept_of_eq (exec_imad _ _ _ _) (vec3_kept hs _ _ _ _)
  | iminS32 => exact outKept_of_eq (exec_iminS32 _ _ _ _) (vec2_kept hs _ _ _ _)
  | iminZ32 => exact outKept_of_eq (exec_iminZ32 _ _ _ _) (vec2_kept hs _ _ _ _)
  | imaxS32 => exact outKept_of_eq (exec_imaxS32 _ _ _ _) (vec2_kept hs _ _ _ _)
  | imaxZ32 => exact outKept_of_eq (exec_imaxZ32 _ _ _ _) (vec2_kept hs _ _ _ _)
  | andB => exact outKept_of_eq (exec_andB _ _ _ _) (vec2_kept hs _ _ _ _)
  | orB => exact outKept_of_eq (exec_orB _ _ _ _) (vec2_kept hs _ _ _ _)
  | xorB => exact outKept_of_eq (exec_xorB _ _ _ _) (vec2_kept hs _ _ _ _)
  | andn => exact outKept_of_eq (exec_andn _ _ _ _) (vec2_kept hs _ _ _ _)
  | shl => exact outKept_of_eq (exec_shl _ _ _ _) (vec2_kept hs _ _ _ _)
  | shr => exact outKept_of_eq (exec_shr _ _ _ _) (vec2_kept hs _ _ _ _)
  | shra => exact outKept_of_eq (exec_shra _ _ _ _) (vec2_kept hs _ _ _ _)
  | rotl => exact outKept_of_eq (exec_rotl _ _ _ _) (vec2_kept hs _ _ _ _)
  | bfx => exact outKept_of_eq (exec_bfx _ _ _ _) (vec2_kept hs _ _ _ _)
  | bfi => exact outKept_of_eq (exec_bfi _ _ _ _) (vec3_kept hs _ _ _ _)
  | cmpEq => exact outKept_of_eq (exec_cmpEq _ _ _ _) (vec2_kept hs _ _ _ _)
  | cmpNe => exact outKept_of_eq (exec_cmpNe _ _ _ _) (vec2_kept hs _ _ _ _)
  | cmpLtS32 => exact outKept_of_eq (exec_cmpLtS32 _ _ _ _) (vec2_kept hs _ _ _ _)
  | cmpLtZ32 => exact outKept_of_eq (exec_cmpLtZ32 _ _ _ _) (vec2_kept hs _ _ _ _)
  | cmpLeS32 => exact outKept_of_eq (exec_cmpLeS32 _ _ _ _) (vec2_kept hs _ _ _ _)
  | cmpLeZ32 => exact outKept_of_eq (exec_cmpLeZ32 _ _ _ _) (vec2_kept hs _ _ _ _)
  | sel => exact outKept_of_eq (exec_sel _ _ _ _) (vec3_kept hs _ _ _ _)
  | iaddSatS32 => exact outKept_of_eq (exec_iaddSatS32 _ _ _ _) (vec2_kept hs _ _ _ _)
  | adda => exact outKept_of_eq (exec_adda _ _ _ _) (vecForm_kept hs _ _ _ _ _)
  | adda64 => exact outKept_of_eq (exec_adda64 _ _ _ _) (vecForm_kept hs _ _ _ _ _)
  | suba => exact outKept_of_eq (exec_suba _ _ _ _) (vecForm_kept hs _ _ _ _ _)
  | cmpaLt => exact outKept_of_eq (exec_cmpaLt _ _ _ _) (vecForm_kept hs _ _ _ _ _)
  | faddF32 => exact outKept_of_eq (exec_faddF32 _ _ _ _) (flt2_kept hs _ _ _ _ _)
  | faddF64 => exact outKept_of_eq (exec_faddF64 _ _ _ _) (flt2_kept hs _ _ _ _ _)
  | faddF16 => exact outKept_of_eq (exec_faddF16 _ _ _ _) (flt2_kept hs _ _ _ _ _)
  | faddBf16 => exact outKept_of_eq (exec_faddBf16 _ _ _ _) (flt2_kept hs _ _ _ _ _)
  | fsubF32 => exact outKept_of_eq (exec_fsubF32 _ _ _ _) (flt2_kept hs _ _ _ _ _)
  | fsubF64 => exact outKept_of_eq (exec_fsubF64 _ _ _ _) (flt2_kept hs _ _ _ _ _)
  | fsubF16 => exact outKept_of_eq (exec_fsubF16 _ _ _ _) (flt2_kept hs _ _ _ _ _)
  | fsubBf16 => exact outKept_of_eq (exec_fsubBf16 _ _ _ _) (flt2_kept hs _ _ _ _ _)
  | fmulF32 => exact outKept_of_eq (exec_fmulF32 _ _ _ _) (flt2_kept hs _ _ _ _ _)
  | fmulF64 => exact outKept_of_eq (exec_fmulF64 _ _ _ _) (flt2_kept hs _ _ _ _ _)
  | fmulF16 => exact outKept_of_eq (exec_fmulF16 _ _ _ _) (flt2_kept hs _ _ _ _ _)
  | fmulBf16 => exact outKept_of_eq (exec_fmulBf16 _ _ _ _) (flt2_kept hs _ _ _ _ _)
  | ffmaF32 => exact outKept_of_eq (exec_ffmaF32 _ _ _ _) (flt3_kept hs _ _ _ _)
  | ffmaF64 => exact outKept_of_eq (exec_ffmaF64 _ _ _ _) (flt3_kept hs _ _ _ _)
  | ffmaF16 => exact outKept_of_eq (exec_ffmaF16 _ _ _ _) (flt3_kept hs _ _ _ _)
  | ffmaBf16 => exact outKept_of_eq (exec_ffmaBf16 _ _ _ _) (flt3_kept hs _ _ _ _)
  | ffmalF32 => exact outKept_of_eq (exec_ffmalF32 _ _ _ _) (fltL_kept hs _ _ _ _)
  | ffmalF64 => exact outKept_of_eq (exec_ffmalF64 _ _ _ _) (fltL_kept hs _ _ _ _)
  | ffmalF16 => exact outKept_of_eq (exec_ffmalF16 _ _ _ _) (fltL_kept hs _ _ _ _)
  | ffmalBf16 => exact outKept_of_eq (exec_ffmalBf16 _ _ _ _) (fltL_kept hs _ _ _ _)
  | fminF32 => exact outKept_of_eq (exec_fminF32 _ _ _ _) (flt2_kept hs _ _ _ _ _)
  | fminF64 => exact outKept_of_eq (exec_fminF64 _ _ _ _) (flt2_kept hs _ _ _ _ _)
  | fminF16 => exact outKept_of_eq (exec_fminF16 _ _ _ _) (flt2_kept hs _ _ _ _ _)
  | fminBf16 => exact outKept_of_eq (exec_fminBf16 _ _ _ _) (flt2_kept hs _ _ _ _ _)
  | fmaxF32 => exact outKept_of_eq (exec_fmaxF32 _ _ _ _) (flt2_kept hs _ _ _ _ _)
  | fmaxF64 => exact outKept_of_eq (exec_fmaxF64 _ _ _ _) (flt2_kept hs _ _ _ _ _)
  | fmaxF16 => exact outKept_of_eq (exec_fmaxF16 _ _ _ _) (flt2_kept hs _ _ _ _ _)
  | fmaxBf16 => exact outKept_of_eq (exec_fmaxBf16 _ _ _ _) (flt2_kept hs _ _ _ _ _)
  | sadd => exact outKept_of_eq (exec_sadd _ _ _ _) (sca2_kept hs _ _ _ _)
  | ssub => exact outKept_of_eq (exec_ssub _ _ _ _) (sca2_kept hs _ _ _ _)
  | smul => exact outKept_of_eq (exec_smul _ _ _ _) (sca2_kept hs _ _ _ _)
  | sand => exact outKept_of_eq (exec_sand _ _ _ _) (sca2_kept hs _ _ _ _)
  | sor => exact outKept_of_eq (exec_sor _ _ _ _) (sca2_kept hs _ _ _ _)
  | sxor => exact outKept_of_eq (exec_sxor _ _ _ _) (sca2_kept hs _ _ _ _)
  | sshl => exact outKept_of_eq (exec_sshl _ _ _ _) (sca2_kept hs _ _ _ _)
  | sshr => exact outKept_of_eq (exec_sshr _ _ _ _) (sca2_kept hs _ _ _ _)
  | scmpEq => exact outKept_of_eq (exec_scmpEq _ _ _ _) (sca2_kept hs _ _ _ _)
  | scmpLtS32 => exact outKept_of_eq (exec_scmpLtS32 _ _ _ _) (sca2_kept hs _ _ _ _)
  | scmpLtZ32 => exact outKept_of_eq (exec_scmpLtZ32 _ _ _ _) (sca2_kept hs _ _ _ _)
  | sadda => exact outKept_of_eq (exec_sadda _ _ _ _) (execSadda_kept hs _ _ _)
  | vldEq => exact outKept_of_eq (exec_vldEq _ _ _ _ _) (versionWord_kept hs _ _ _ _ _ _ _ _)
  | vldLe => exact outKept_of_eq (exec_vldLe _ _ _ _ _) (versionWord_kept hs _ _ _ _ _ _ _ _)
  | vst => exact outKept_of_eq (exec_vst _ _ _ _ _) (versionWord_kept hs _ _ _ _ _ _ _ _)
  | vfloor => exact outKept_of_eq (exec_vfloor _ _ _) (execVfloor_kept hs _ _)
  | spld => exact outKept_of_eq (exec_spld _ _ _ _) (execSpld_kept hs _ _ _)
  | spst => exact outKept_of_eq (exec_spst _ _ _ _) (execSpst_kept hs _ _ _)
  | mov => exact outKept_of_eq (exec_mov _ _ _) (vec1_kept hs _ _ _)
  | mov64 => exact outKept_of_eq (exec_mov64 _ _ _) (vecForm_kept hs _ _ _ _ _)
  | notB => exact outKept_of_eq (exec_notB _ _ _) (vec1_kept hs _ _ _)
  | ineg => exact outKept_of_eq (exec_ineg _ _ _ _) (vec1_kept hs _ _ _)
  | iabsS32 => exact outKept_of_eq (exec_iabsS32 _ _ _ _) (vec1_kept hs _ _ _)
  | popc => exact outKept_of_eq (exec_popc _ _ _) (vec1_kept hs _ _ _)
  | clz => exact outKept_of_eq (exec_clz _ _ _) (vec1_kept hs _ _ _)
  | ctz => exact outKept_of_eq (exec_ctz _ _ _) (vec1_kept hs _ _ _)
  | brev => exact outKept_of_eq (exec_brev _ _ _) (vec1_kept hs _ _ _)
  | bswap => exact outKept_of_eq (exec_bswap _ _ _) (vec1_kept hs _ _ _)
  | sextS8 => exact outKept_of_eq (exec_sextS8 _ _ _) (vec1_kept hs _ _ _)
  | sextS16 => exact outKept_of_eq (exec_sextS16 _ _ _) (vec1_kept hs _ _ _)
  | zextZ8 => exact outKept_of_eq (exec_zextZ8 _ _ _) (vec1_kept hs _ _ _)
  | zextZ16 => exact outKept_of_eq (exec_zextZ16 _ _ _) (vec1_kept hs _ _ _)
  | fneg => exact outKept_of_eq (exec_fneg _ _ _ _) (flt1_kept hs _ _ _ _ _)
  | fabs => exact outKept_of_eq (exec_fabs _ _ _ _) (flt1_kept hs _ _ _ _ _)
  | fsqrt => exact outKept_of_eq (exec_fsqrt _ _ _ _) (flt1_kept hs _ _ _ _ _)
  | frcp => exact outKept_of_eq (exec_frcp _ _ _ _) (flt1_kept hs _ _ _ _ _)
  | frsqrt => exact outKept_of_eq (exec_frsqrt _ _ _ _) (flt1_kept hs _ _ _ _ _)
  | fexp2 => exact outKept_of_eq (exec_fexp2 _ _ _ _) (flt1_kept hs _ _ _ _ _)
  | flog2 => exact outKept_of_eq (exec_flog2 _ _ _ _) (flt1_kept hs _ _ _ _ _)
  | fsinpi => exact outKept_of_eq (exec_fsinpi _ _ _ _) (flt1_kept hs _ _ _ _ _)
  | fcospi => exact outKept_of_eq (exec_fcospi _ _ _ _) (flt1_kept hs _ _ _ _ _)
  | ftanh => exact outKept_of_eq (exec_ftanh _ _ _ _) (flt1_kept hs _ _ _ _ _)
  | frint => exact outKept_of_eq (exec_frint _ _ _ _) (flt1_kept hs _ _ _ _ _)
  | ftrunc => exact outKept_of_eq (exec_ftrunc _ _ _ _) (flt1_kept hs _ _ _ _ _)
  | ffloor => exact outKept_of_eq (exec_ffloor _ _ _ _) (flt1_kept hs _ _ _ _ _)
  | fceil => exact outKept_of_eq (exec_fceil _ _ _ _) (flt1_kept hs _ _ _ _ _)
  | smov => exact outKept_of_eq (exec_smov _ _ _) (sca1_kept hs _ _ _)
  | smov64 => exact outKept_of_eq (exec_smov64 _ _ _) (execSmov64_kept hs _ _)
  | snot => exact outKept_of_eq (exec_snot _ _ _) (sca1_kept hs _ _ _)
  | sneg => exact outKept_of_eq (exec_sneg _ _ _ _) (sca1_kept hs _ _ _)
  | sabsS32 => exact outKept_of_eq (exec_sabsS32 _ _ _ _) (sca1_kept hs _ _ _)
  | spopc => exact outKept_of_eq (exec_spopc _ _ _) (sca1_kept hs _ _ _)
  | sclz => exact outKept_of_eq (exec_sclz _ _ _) (sca1_kept hs _ _ _)
  | sctz => exact outKept_of_eq (exec_sctz _ _ _) (sca1_kept hs _ _ _)
  | sbrev => exact outKept_of_eq (exec_sbrev _ _ _) (sca1_kept hs _ _ _)
  | sbswap => exact outKept_of_eq (exec_sbswap _ _ _) (sca1_kept hs _ _ _)
  | ssextS8 => exact outKept_of_eq (exec_ssextS8 _ _ _) (sca1_kept hs _ _ _)
  | ssextS16 => exact outKept_of_eq (exec_ssextS16 _ _ _) (sca1_kept hs _ _ _)
  | szextZ8 => exact outKept_of_eq (exec_szextZ8 _ _ _) (sca1_kept hs _ _ _)
  | szextZ16 => exact outKept_of_eq (exec_szextZ16 _ _ _) (sca1_kept hs _ _ _)
  | cvtF64F32 => exact outKept_of_eq (exec_cvtF64F32 _ _ _) (cvt1_kept hs _ _ _ _ _ _)
  | cvtF32F64 => exact outKept_of_eq (exec_cvtF32F64 _ _ _ _) (cvt1_kept hs _ _ _ _ _ _)
  | cvtF32F16 => exact outKept_of_eq (exec_cvtF32F16 _ _ _) (cvtWiden_kept hs _ _ _ _ _ _)
  | cvtF32Bf16 => exact outKept_of_eq (exec_cvtF32Bf16 _ _ _) (cvtWiden_kept hs _ _ _ _ _ _)
  | cvtF16F32 => exact outKept_of_eq (exec_cvtF16F32 _ _ _ _) (cvtNarrow_kept hs _ _ _ _ _ _ _ _)
  | cvtBf16F32 => exact outKept_of_eq (exec_cvtBf16F32 _ _ _ _) (cvtNarrow_kept hs _ _ _ _ _ _ _ _)
  | cvtF32E4m3Lo => exact outKept_of_eq (exec_cvtF32E4m3Lo _ _ _) (cvtWiden_kept hs _ _ _ _ _ _)
  | cvtF32E4m3Hi => exact outKept_of_eq (exec_cvtF32E4m3Hi _ _ _) (cvtWiden_kept hs _ _ _ _ _ _)
  | cvtF32E5m2Lo => exact outKept_of_eq (exec_cvtF32E5m2Lo _ _ _) (cvtWiden_kept hs _ _ _ _ _ _)
  | cvtF32E5m2Hi => exact outKept_of_eq (exec_cvtF32E5m2Hi _ _ _) (cvtWiden_kept hs _ _ _ _ _ _)
  | cvtE4m3F32Lo => exact outKept_of_eq (exec_cvtE4m3F32Lo _ _ _ _) (cvtNarrow_kept hs _ _ _ _ _ _ _ _)
  | cvtE4m3F32Hi => exact outKept_of_eq (exec_cvtE4m3F32Hi _ _ _ _) (cvtNarrow_kept hs _ _ _ _ _ _ _ _)
  | cvtE4m3F32NsatLo => exact outKept_of_eq (exec_cvtE4m3F32NsatLo _ _ _ _) (cvtNarrow_kept hs _ _ _ _ _ _ _ _)
  | cvtE4m3F32NsatHi => exact outKept_of_eq (exec_cvtE4m3F32NsatHi _ _ _ _) (cvtNarrow_kept hs _ _ _ _ _ _ _ _)
  | cvtE5m2F32Lo => exact outKept_of_eq (exec_cvtE5m2F32Lo _ _ _ _) (cvtNarrow_kept hs _ _ _ _ _ _ _ _)
  | cvtE5m2F32Hi => exact outKept_of_eq (exec_cvtE5m2F32Hi _ _ _ _) (cvtNarrow_kept hs _ _ _ _ _ _ _ _)
  | cvtF32E5m3 => exact outKept_of_eq (exec_cvtF32E5m3 _ _ _) (cvt1_kept hs _ _ _ _ _ _)
  | cvtE5m3F32 => exact outKept_of_eq (exec_cvtE5m3F32 _ _ _) (cvt1_kept hs _ _ _ _ _ _)
  | cvtS32F32 => exact outKept_of_eq (exec_cvtS32F32 _ _ _ _) (cvt1_kept hs _ _ _ _ _ _)
  | cvtZ32F32 => exact outKept_of_eq (exec_cvtZ32F32 _ _ _ _) (cvt1_kept hs _ _ _ _ _ _)
  | cvtS64F32 => exact outKept_of_eq (exec_cvtS64F32 _ _ _ _) (cvt1_kept hs _ _ _ _ _ _)
  | cvtZ64F32 => exact outKept_of_eq (exec_cvtZ64F32 _ _ _ _) (cvt1_kept hs _ _ _ _ _ _)
  | cvtS32F64 => exact outKept_of_eq (exec_cvtS32F64 _ _ _ _) (cvt1_kept hs _ _ _ _ _ _)
  | cvtZ32F64 => exact outKept_of_eq (exec_cvtZ32F64 _ _ _ _) (cvt1_kept hs _ _ _ _ _ _)
  | cvtS64F64 => exact outKept_of_eq (exec_cvtS64F64 _ _ _ _) (cvt1_kept hs _ _ _ _ _ _)
  | cvtZ64F64 => exact outKept_of_eq (exec_cvtZ64F64 _ _ _ _) (cvt1_kept hs _ _ _ _ _ _)
  | cvtF32S32 => exact outKept_of_eq (exec_cvtF32S32 _ _ _ _) (cvt1_kept hs _ _ _ _ _ _)
  | cvtF32Z32 => exact outKept_of_eq (exec_cvtF32Z32 _ _ _ _) (cvt1_kept hs _ _ _ _ _ _)
  | cvtF32S64 => exact outKept_of_eq (exec_cvtF32S64 _ _ _ _) (cvt1_kept hs _ _ _ _ _ _)
  | cvtF32Z64 => exact outKept_of_eq (exec_cvtF32Z64 _ _ _ _) (cvt1_kept hs _ _ _ _ _ _)
  | cvtF64S32 => exact outKept_of_eq (exec_cvtF64S32 _ _ _) (cvt1_kept hs _ _ _ _ _ _)
  | cvtF64Z32 => exact outKept_of_eq (exec_cvtF64Z32 _ _ _) (cvt1_kept hs _ _ _ _ _ _)
  | cvtF64S64 => exact outKept_of_eq (exec_cvtF64S64 _ _ _ _) (cvt1_kept hs _ _ _ _ _ _)
  | cvtF64Z64 => exact outKept_of_eq (exec_cvtF64Z64 _ _ _ _) (cvt1_kept hs _ _ _ _ _ _)
  | qpack => exact outKept_of_eq (exec_qpack _ _ _) (execQpack_kept hs _ _)
  | qunpk => exact outKept_of_eq (exec_qunpk _ _ _) (vecForm_kept hs _ _ _ _ _)
  | fcmpEq => exact outKept_of_eq (exec_fcmpEq _ _ _ _) (fltCmp_kept hs _ _ _ _)
  | fcmpNe => exact outKept_of_eq (exec_fcmpNe _ _ _ _) (fltCmp_kept hs _ _ _ _)
  | fcmpLt => exact outKept_of_eq (exec_fcmpLt _ _ _ _) (fltCmp_kept hs _ _ _ _)
  | fcmpLe => exact outKept_of_eq (exec_fcmpLe _ _ _ _) (fltCmp_kept hs _ _ _ _)
  | fcmpUn => exact outKept_of_eq (exec_fcmpUn _ _ _ _) (fltCmp_kept hs _ _ _ _)
  | fclass => exact outKept_of_eq (exec_fclass _ _ _ _) (vecForm_kept hs _ _ _ _ _)
  | xall => exact outKept_of_eq (exec_xall _ _ _) (laneTest_kept hs _ _ _)
  | xany => exact outKept_of_eq (exec_xany _ _ _) (laneTest_kept hs _ _ _)
  | xeq => exact outKept_of_eq (exec_xeq _ _ _) (laneTest_kept hs _ _ _)
  | xbits => exact outKept_of_eq (exec_xbits _ _ _) (laneTest_kept hs _ _ _)
  | xget => exact outKept_of_eq (exec_xget _ _ _) (execXget_kept hs _ _)
  | xspread => exact outKept_of_eq (exec_xspread _ _ _) (vecForm_kept hs _ _ _ _ _)
  | xpermAbs => exact outKept_of_eq (exec_xpermAbs _ _ _) (permute_kept hs _ _ _)
  | xpermLo => exact outKept_of_eq (exec_xpermLo _ _ _ _) (permute_kept hs _ _ _)
  | xpermHi => exact outKept_of_eq (exec_xpermHi _ _ _ _) (permute_kept hs _ _ _)
  | xpermFlip => exact outKept_of_eq (exec_xpermFlip _ _ _) (permute_kept hs _ _ _)
  | xsame => exact outKept_of_eq (exec_xsame _ _ _) (vecForm_kept hs _ _ _ _ _)
  | scanAdd => exact outKept_of_eq (exec_scanAdd _ _ _ _) (scanWord_kept hs _ _ _ _ _)
  | scanMinS32 => exact outKept_of_eq (exec_scanMinS32 _ _ _ _) (scanWord_kept hs _ _ _ _ _)
  | scanMinZ32 => exact outKept_of_eq (exec_scanMinZ32 _ _ _ _) (scanWord_kept hs _ _ _ _ _)
  | scanMaxS32 => exact outKept_of_eq (exec_scanMaxS32 _ _ _ _) (scanWord_kept hs _ _ _ _ _)
  | scanMaxZ32 => exact outKept_of_eq (exec_scanMaxZ32 _ _ _ _) (scanWord_kept hs _ _ _ _ _)
  | scanAnd => exact outKept_of_eq (exec_scanAnd _ _ _ _) (scanWord_kept hs _ _ _ _ _)
  | scanOr => exact outKept_of_eq (exec_scanOr _ _ _ _) (scanWord_kept hs _ _ _ _ _)
  | scanXor => exact outKept_of_eq (exec_scanXor _ _ _ _) (scanWord_kept hs _ _ _ _ _)
  | scanFaddF32 => exact outKept_of_eq (exec_scanFaddF32 _ _ _ _) (scanWord_kept hs _ _ _ _ _)
  | scanFminF32 => exact outKept_of_eq (exec_scanFminF32 _ _ _ _) (scanWord_kept hs _ _ _ _ _)
  | scanFmaxF32 => exact outKept_of_eq (exec_scanFmaxF32 _ _ _ _) (scanWord_kept hs _ _ _ _ _)
  | redAdd => exact outKept_of_eq (exec_redAdd _ _ _) (redWord_kept hs _ _ _ _)
  | redMinS32 => exact outKept_of_eq (exec_redMinS32 _ _ _) (redWord_kept hs _ _ _ _)
  | redMinZ32 => exact outKept_of_eq (exec_redMinZ32 _ _ _) (redWord_kept hs _ _ _ _)
  | redMaxS32 => exact outKept_of_eq (exec_redMaxS32 _ _ _) (redWord_kept hs _ _ _ _)
  | redMaxZ32 => exact outKept_of_eq (exec_redMaxZ32 _ _ _) (redWord_kept hs _ _ _ _)
  | redAnd => exact outKept_of_eq (exec_redAnd _ _ _) (redWord_kept hs _ _ _ _)
  | redOr => exact outKept_of_eq (exec_redOr _ _ _) (redWord_kept hs _ _ _ _)
  | redXor => exact outKept_of_eq (exec_redXor _ _ _) (redWord_kept hs _ _ _ _)
  | redFaddF32 => exact outKept_of_eq (exec_redFaddF32 _ _ _) (redWord_kept hs _ _ _ _)
  | redFminF32 => exact outKept_of_eq (exec_redFminF32 _ _ _) (redWord_kept hs _ _ _ _)
  | redFmaxF32 => exact outKept_of_eq (exec_redFmaxF32 _ _ _) (redWord_kept hs _ _ _ _)
  | spawn => exact outKept_of_eq (exec_spawn _ _ _) (execSpawn_kept hs _ _)
  | spawnTry => exact outKept_of_eq (exec_spawnTry _ _ _) (execSpawnTry_kept hs _ _)
  | join => exact outKept_of_eq (exec_join _ _) (execJoin_kept hs _)
  | mon => exact outKept_of_eq (exec_mon _ _) (execMon_kept hs _)
  | mwait => exact outKept_of_eq (exec_mwait _) (execMwait_kept hs)
  | qinit => exact outKept_of_eq (exec_qinit _ _ _) (execQinit_kept hs _ _)
  | qpush => exact outKept_of_eq (exec_qpush _ _ _) (execQpush_kept hs _ _)
  | qpop => exact outKept_of_eq (exec_qpop _ _ _) (execQpop_kept hs _ _)
  | qtry => exact outKept_of_eq (exec_qtry _ _ _) (execQtry_kept hs _ _)
  | allow => exact outKept_of_eq (exec_allow _ _ _) (execAllow_kept hs _ _)
  | stagepush => exact outKept_of_eq (exec_stagepush _ _ _) (execStagepush_kept hs _ _)
  | amsg => exact outKept_of_eq (exec_amsg _ _ _) (execAmsg_kept hs _ _)
  | mma => exact outKept_of_eq (exec_mma _ _ _ _ _) (execMma_kept hs _ _ _ _)
  | mzero => exact outKept_of_eq (exec_mzero _ _) (execMzero_kept hs _)
  | obres => exact outKept_of_eq (exec_obres _ _ _) (execObres_kept hs _ _)
  | obrel => exact outKept_of_eq (exec_obrel _ _) (execObrel_kept hs _)
  | obimp => exact outKept_of_eq (exec_obimp _ _ _) (execObimp_kept hs _ _)
  | mdrainF32Sp => exact outKept_of_eq (exec_mdrainF32Sp _ _ _ _) (mdrain_kept hs _ _ _ _ _ _)
  | mdrainBf16Sp => exact outKept_of_eq (exec_mdrainBf16Sp _ _ _ _) (mdrain_kept hs _ _ _ _ _ _)
  | mdrainE4m3Sp => exact outKept_of_eq (exec_mdrainE4m3Sp _ _ _ _) (mdrain_kept hs _ _ _ _ _ _)
  | mdrainE5m2Sp => exact outKept_of_eq (exec_mdrainE5m2Sp _ _ _ _) (mdrain_kept hs _ _ _ _ _ _)
  | mdrainF32 => exact outKept_of_eq (exec_mdrainF32 _ _ _ _ _) (mdrain_kept hs _ _ _ _ _ _)
  | mdrainBf16 => exact outKept_of_eq (exec_mdrainBf16 _ _ _ _ _) (mdrain_kept hs _ _ _ _ _ _)
  | mtake => exact outKept_of_eq (exec_mtake _) (execMtake_kept hs)
  | mpass => exact outKept_of_eq (exec_mpass _) (execMpass_kept hs)
  | cpy => exact outKept_of_eq (exec_cpy _ _ _ _) (command_kept hs _ _ _ _)
  | cpym => exact outKept_of_eq (exec_cpym _ _ _ _) (command_kept hs _ _ _ _)
  | gath => exact outKept_of_eq (exec_gath _ _ _ _) (command_kept hs _ _ _ _)
  | xred => exact outKept_of_eq (exec_xred _ _ _ _) (command_kept hs _ _ _ _)
  | tagwaitAny => exact outKept_of_eq (exec_tagwaitAny _ _) (execTagwaitAny_kept hs _)
  | tagwaitAll => exact outKept_of_eq (exec_tagwaitAll _ _) (execTagwaitAll_kept hs _)
  | tagff => exact outKept_of_eq (exec_tagff _ _ _) (execTagff_kept hs _ _)
  | fence => exact outKept_of_eq (exec_fence _ _ _) (execFence_kept hs _ _)
  | fencex => exact outKept_of_eq (exec_fencex _ _ _ _) (execFencex_kept hs _ _ _)
  | prefL1 => exact outKept_of_eq (exec_prefL1 _ _ _ _) (prefetch_kept hs _ _ _ _)
  | prefLlc => exact outKept_of_eq (exec_prefLlc _ _ _ _) (prefetch_kept hs _ _ _ _)
  | prefDemote => exact outKept_of_eq (exec_prefDemote _ _ _) (prefetch_kept hs _ _ _ _)
  | cld => exact outKept_of_eq (exec_cld _ _ _) (execCld_kept hs _ _)
  | trap => exact outKept_of_eq (exec_trap _ _) (issueTrap_kept hs _ _ _ _)
  | bkpt => exact outKept_of_eq (exec_bkpt _) (issueTrap_kept hs _ _ _ _)
  | eret => exact outKept_of_eq (exec_eret _) (execEret_kept hs)
  | eretKill => exact outKept_of_eq (exec_eretKill _) (execEretKill_kept hs)
  | rdsr => exact outKept_of_eq (exec_rdsr _ _ _) (execRdsr_kept hs _ _)
  | wrsr => exact outKept_of_eq (exec_wrsr _ _ _) (execWrsr_kept hs _ _)
  | gsave => exact outKept_of_eq (exec_gsave _ _) (execGsave_kept hs _)
  | grest => exact outKept_of_eq (exec_grest _ _) (execGrest_kept hs _)
  | isync => exact outKept_of_eq (exec_isync _) (execIsync_kept hs)
  | yield => exact outKept_of_eq (exec_yield _) (execYield_kept hs)
  | ldS8 => exact outKept_of_eq (exec_ldS8 _ _ _ _ _ _ _) (loadV_kept hs _ _ _ _ _ _ _ _)
  | ldZ8 => exact outKept_of_eq (exec_ldZ8 _ _ _ _ _ _ _) (loadV_kept hs _ _ _ _ _ _ _ _)
  | ldS16 => exact outKept_of_eq (exec_ldS16 _ _ _ _ _ _ _) (loadV_kept hs _ _ _ _ _ _ _ _)
  | ldZ16 => exact outKept_of_eq (exec_ldZ16 _ _ _ _ _ _ _) (loadV_kept hs _ _ _ _ _ _ _ _)
  | ldS32 => exact outKept_of_eq (exec_ldS32 _ _ _ _ _ _ _) (loadV_kept hs _ _ _ _ _ _ _ _)
  | ld64 => exact outKept_of_eq (exec_ld64 _ _ _ _ _ _ _) (loadV_kept hs _ _ _ _ _ _ _ _)
  | st8 => exact outKept_of_eq (exec_st8 _ _ _ _ _ _ _) (storeV_kept hs _ _ _ _ _ _ _)
  | st16 => exact outKept_of_eq (exec_st16 _ _ _ _ _ _ _) (storeV_kept hs _ _ _ _ _ _ _)
  | st32 => exact outKept_of_eq (exec_st32 _ _ _ _ _ _ _) (storeV_kept hs _ _ _ _ _ _ _)
  | st64 => exact outKept_of_eq (exec_st64 _ _ _ _ _ _ _) (storeV_kept hs _ _ _ _ _ _ _)
  | sld32 => exact outKept_of_eq (exec_sld32 _ _ _ _ _ _ _) (loadS_kept hs _ _ _ _ _ _ _)
  | sld64 => exact outKept_of_eq (exec_sld64 _ _ _ _ _ _ _) (loadS_kept hs _ _ _ _ _ _ _)
  | sst32 => exact outKept_of_eq (exec_sst32 _ _ _ _ _ _ _) (storeS_kept hs _ _ _ _ _ _ _)
  | sst64 => exact outKept_of_eq (exec_sst64 _ _ _ _ _ _ _) (storeS_kept hs _ _ _ _ _ _ _)
  | atomAdd32 => exact outKept_of_eq (exec_atomAdd32 _ _ _ _ _ _) (atomic_kept hs _ _ _ _ _ _ _)
  | atomMinS32 => exact outKept_of_eq (exec_atomMinS32 _ _ _ _ _ _) (atomic_kept hs _ _ _ _ _ _ _)
  | atomMinZ32 => exact outKept_of_eq (exec_atomMinZ32 _ _ _ _ _ _) (atomic_kept hs _ _ _ _ _ _ _)
  | atomMaxS32 => exact outKept_of_eq (exec_atomMaxS32 _ _ _ _ _ _) (atomic_kept hs _ _ _ _ _ _ _)
  | atomMaxZ32 => exact outKept_of_eq (exec_atomMaxZ32 _ _ _ _ _ _) (atomic_kept hs _ _ _ _ _ _ _)
  | atomAnd32 => exact outKept_of_eq (exec_atomAnd32 _ _ _ _ _ _) (atomic_kept hs _ _ _ _ _ _ _)
  | atomOr32 => exact outKept_of_eq (exec_atomOr32 _ _ _ _ _ _) (atomic_kept hs _ _ _ _ _ _ _)
  | atomXor32 => exact outKept_of_eq (exec_atomXor32 _ _ _ _ _ _) (atomic_kept hs _ _ _ _ _ _ _)
  | atomSwap32 => exact outKept_of_eq (exec_atomSwap32 _ _ _ _ _ _) (atomic_kept hs _ _ _ _ _ _ _)
  | atomCas32 => exact outKept_of_eq (exec_atomCas32 _ _ _ _ _ _) (atomic_kept hs _ _ _ _ _ _ _)
  | atomAdd64 => exact outKept_of_eq (exec_atomAdd64 _ _ _ _ _ _) (atomic_kept hs _ _ _ _ _ _ _)
  | atomMinS64 => exact outKept_of_eq (exec_atomMinS64 _ _ _ _ _ _) (atomic_kept hs _ _ _ _ _ _ _)
  | atomMinZ64 => exact outKept_of_eq (exec_atomMinZ64 _ _ _ _ _ _) (atomic_kept hs _ _ _ _ _ _ _)
  | atomMaxS64 => exact outKept_of_eq (exec_atomMaxS64 _ _ _ _ _ _) (atomic_kept hs _ _ _ _ _ _ _)
  | atomMaxZ64 => exact outKept_of_eq (exec_atomMaxZ64 _ _ _ _ _ _) (atomic_kept hs _ _ _ _ _ _ _)
  | atomAnd64 => exact outKept_of_eq (exec_atomAnd64 _ _ _ _ _ _) (atomic_kept hs _ _ _ _ _ _ _)
  | atomOr64 => exact outKept_of_eq (exec_atomOr64 _ _ _ _ _ _) (atomic_kept hs _ _ _ _ _ _ _)
  | atomXor64 => exact outKept_of_eq (exec_atomXor64 _ _ _ _ _ _) (atomic_kept hs _ _ _ _ _ _ _)
  | atomSwap64 => exact outKept_of_eq (exec_atomSwap64 _ _ _ _ _ _) (atomic_kept hs _ _ _ _ _ _ _)
  | atomCas64 => exact outKept_of_eq (exec_atomCas64 _ _ _ _ _ _) (atomic_kept hs _ _ _ _ _ _ _)
  | movi => exact outKept_of_eq (exec_movi _ _ _) (vecForm_kept hs _ _ _ _ _)
  | movhi => exact outKept_of_eq (exec_movhi _ _ _) (vecForm_kept hs _ _ _ _ _)
  | smovi => exact outKept_of_eq (exec_smovi _ _ _) (execSmovi_kept hs _ _)
  | smovhi => exact outKept_of_eq (exec_smovhi _ _ _) (execSmovhi_kept hs _ _)
  | wbase => exact outKept_of_eq (exec_wbase _ _) (execWbase_kept hs _)
  | cbase => exact outKept_of_eq (exec_cbase _ _) (execCbase_kept hs _)
  | bar => exact outKept_of_eq (exec_bar _ _ _) (execBar_kept hs _ _)
  | rcv => exact outKept_of_eq (exec_rcv _ _ _) (execRcv_kept hs _ _)
  | bnz => exact outKept_of_eq (exec_bnz _ _ _) (branch_kept hs _ _ _ _)
  | bra => exact outKept_of_eq (exec_bra _ _) (branch_kept hs _ _ _ _)
  | bz => exact outKept_of_eq (exec_bz _ _ _) (branch_kept hs _ _ _ _)
  | call => exact outKept_of_eq (exec_call _ _ _) (branch_kept hs _ _ _ _)
  | jmpi => exact outKept_of_eq (exec_jmpi _ _) (jump_kept hs _ _)
  | calli => exact outKept_of_eq (exec_calli _ _) (jump_kept hs _ _)
  | ret => exact outKept_of_eq (exec_ret _ _) (jump_kept hs _ _)
  | exit => exact outKept_of_eq (exec_exit _ _) (execExit_kept hs _)
  | longLatencyComplete => exact outKept_of_eq (exec_longLatencyComplete _ _) (execLongLatencyComplete_kept hs _)
  | storeAcknowledge => exact outKept_of_eq (exec_storeAcknowledge _ _ _) (execStoreAcknowledge_kept hs _ _)
  | orderingPointAccess => exact outKept_of_eq (exec_orderingPointAccess _ _ _) (execOrderingPointAccess_kept hs _ _)
  | leaseRequest => exact outKept_of_eq (exec_leaseRequest _ _ _) (execLeaseRequest_kept hs _ _)
  | leaseRecall => exact outKept_of_eq (exec_leaseRecall _ _ _) (execLeaseRecall_kept hs _ _)
  | readHoldExpiry => exact outKept_of_eq (exec_readHoldExpiry _ _ _) (execReadHoldExpiry_kept hs _ _)
  | rds => exact outKept_of_eq (exec_rds _ _) (execRds_kept hs _)
  | rdx => exact outKept_of_eq (exec_rdx _ _) (execRdx_kept hs _)
  | fwd => exact outKept_of_eq (exec_fwd _ _) (execFwd_kept hs _)
  | inv => exact outKept_of_eq (exec_inv _ _) (execInv_kept hs _)
  | ack => exact outKept_of_eq (exec_ack _ _) (execAck_kept hs _)
  | data => exact outKept_of_eq (exec_data _ _) (execData_kept hs _)
  | grant => exact outKept_of_eq (exec_grant _ _) (execGrant_kept hs _)
  | binv => exact outKept_of_eq (exec_binv _ _) (execBinv_kept hs _)
  | wb => exact outKept_of_eq (exec_wb _ _) (execWb_kept hs _)
  | pageWalk => exact outKept_of_eq (exec_pageWalk _ _ _) (execPageWalk_kept hs _ _)
  | pageWalkTimeout => exact outKept_of_eq (exec_pageWalkTimeout _ _ _ _) (execPageWalkTimeout_kept hs _ _ _)
  | frespResolve => exact outKept_of_eq (exec_frespResolve _ _ _) (execFrespResolve_kept hs _ _)
  | frespRefuse => exact outKept_of_eq (exec_frespRefuse _ _ _) (execFrespRefuse_kept hs _ _)
  | vldEqAtSlice => exact outKept_of_eq (exec_vldEqAtSlice _ _ _) (execVldEqAtSlice_kept hs _ _)
  | vldLeAtSlice => exact outKept_of_eq (exec_vldLeAtSlice _ _ _) (execVldLeAtSlice_kept hs _ _)
  | vstAtSlice => exact outKept_of_eq (exec_vstAtSlice _ _ _) (execVstAtSlice_kept hs _ _)
  | versionWaitTimeout => exact outKept_of_eq (exec_versionWaitTimeout _ _ _) (execVersionWaitTimeout_kept hs _ _)
  | vldReturnRetry => exact outKept_of_eq (exec_vldReturnRetry _ _ _) (execVldReturnRetry_kept hs _ _)
  | vfloorApply => exact outKept_of_eq (exec_vfloorApply _ _ _) (execVfloorApply_kept hs _ _)
  | mwaitWake => exact outKept_of_eq (exec_mwaitWake _ _ _ _) (execMwaitWake_kept hs _ _ _)
  | joinZero => exact outKept_of_eq (exec_joinZero _ _ _ _) (execJoinZero_kept hs _ _ _)
  | tagwaitSatisfied => exact outKept_of_eq (exec_tagwaitSatisfied _ _ _ _) (execTagwaitSatisfied_kept hs _ _ _)
  | queueWordPerform => exact outKept_of_eq (exec_queueWordPerform _ _ _ _) (execQueueWordPerform_kept hs _ _ _)
  | ringSpaceResume => exact outKept_of_eq (exec_ringSpaceResume _ _ _ _) (execRingSpaceResume_kept hs _ _ _)
  | monitorTimeout => exact outKept_of_eq (exec_monitorTimeout _ _ _ _) (execMonitorTimeout_kept hs _ _ _)
  | waveHaltStop => exact outKept_of_eq (exec_waveHaltStop _ _ _) (execWaveHaltStop_kept hs _ _)
  | handlerEntry => exact outKept_of_eq (exec_handlerEntry _ _) (execHandlerEntry_kept hs _)
  | groupRetire => exact outKept_of_eq (exec_groupRetire _ _) (execGroupRetire_kept hs _)
  | groupEnd => exact outKept_of_eq (exec_groupEnd _ _) (execGroupEnd_kept hs _)
  | engineEntryStart => exact outKept_of_eq (exec_engineEntryStart _ _ _) (execEngineEntryStart_kept hs _ _)
  | engineBeat => exact outKept_of_eq (exec_engineBeat _ _ _ _ _) (execEngineBeat_kept hs _ _ _ _)
  | engineCommandComplete => exact outKept_of_eq (exec_engineCommandComplete _ _ _ _) (execEngineCommandComplete_kept hs _ _ _)
  | xredElement => exact outKept_of_eq (exec_xredElement _ _ _ _) (execXredElement_kept hs _ _ _)
  | reductionContribution => exact outKept_of_eq (exec_reductionContribution _ _ _ _) (execReductionContribution_kept hs _ _ _)
  | reductionUnitTimeout => exact outKept_of_eq (exec_reductionUnitTimeout _ _ _ _) (execReductionUnitTimeout_kept hs _ _ _)
  | followOnIssue => exact outKept_of_eq (exec_followOnIssue _ _) (execFollowOnIssue_kept hs _)
  | mmaStart => exact outKept_of_eq (exec_mmaStart _ _) (execMmaStart_kept hs _)
  | mmaCheck => exact outKept_of_eq (exec_mmaCheck _ _ _) (execMmaCheck_kept hs _ _)
  | drainPortOperation => exact outKept_of_eq (exec_drainPortOperation _ _ _) (execDrainPortOperation_kept hs _ _)
  | binWindowExpiry => exact outKept_of_eq (exec_binWindowExpiry _ _ _) (execBinWindowExpiry_kept hs _ _)
  | binAdmit => exact outKept_of_eq (exec_binAdmit _ _ _) (execBinAdmit_kept hs _ _)
  | dispatchDecision => exact outKept_of_eq (exec_dispatchDecision _ _) (execDispatchDecision_kept hs _)
  | coreContextPass => exact outKept_of_eq (exec_coreContextPass _ _ _) (execCoreContextPass_kept hs _ _)
  | spawnDeadlockEviction => exact outKept_of_eq (exec_spawnDeadlockEviction _ _ _) (execSpawnDeadlockEviction_kept hs _ _)
  | amsgDelivery => exact outKept_of_eq (exec_amsgDelivery _ _) (execAmsgDelivery_kept hs _)
  | stageGovernorTick => exact outKept_of_eq (exec_stageGovernorTick _ _) (execStageGovernorTick_kept hs _)
  | stagePartialTake => exact outKept_of_eq (exec_stagePartialTake _ _ _ _) (execStagePartialTake_kept hs _ _ _)
  | wridx => exact outKept_of_eq (exec_wridx _ _ _ _ _) (execWridx_kept hs _ _ _ _)
  | queueDescriptorWrite => exact outKept_of_eq (exec_queueDescriptorWrite _ _ _ _) (execQueueDescriptorWrite_kept hs _ _ _)
  | mapperSlotFill => exact outKept_of_eq (exec_mapperSlotFill _ _) (execMapperSlotFill_kept hs _)
  | queuePriorityAge => exact outKept_of_eq (exec_queuePriorityAge _ _ _) (execQueuePriorityAge_kept hs _ _)
  | idleQuantumExpiry => exact outKept_of_eq (exec_idleQuantumExpiry _ _ _) (execIdleQuantumExpiry_kept hs _ _)
  | launch => exact outKept_of_eq (exec_launch _ _ _) (execLaunch_kept hs _ _)
  | jobCard => exact outKept_of_eq (exec_jobCard _ _ _) (execJobCard_kept hs _ _)
  | pipeline => exact outKept_of_eq (exec_pipeline _ _ _) (execPipeline_kept hs _ _)
  | waitOnWord => exact outKept_of_eq (exec_waitOnWord _ _ _) (execWaitOnWord_kept hs _ _)
  | signal => exact outKept_of_eq (exec_signal _ _ _) (execSignal_kept hs _ _)
  | pad => exact outKept_of_eq (exec_pad _ _ _) (execPad_kept hs _ _)
  | launchTranslation => exact outKept_of_eq (exec_launchTranslation _ _ _) (execLaunchTranslation_kept hs _ _)
  | regionArming => exact outKept_of_eq (exec_regionArming _ _ _) (execRegionArming_kept hs _ _)
  | launchComplete => exact outKept_of_eq (exec_launchComplete _ _ _) (execLaunchComplete_kept hs _ _)
  | waitOnWordRecheck => exact outKept_of_eq (exec_waitOnWordRecheck _ _ _) (execWaitOnWordRecheck_kept hs _ _)
  | waitOnWordTimeout => exact outKept_of_eq (exec_waitOnWordTimeout _ _ _) (execWaitOnWordTimeout_kept hs _ _)
  | cardReady => exact outKept_of_eq (exec_cardReady _ _ _) (execCardReady_kept hs _ _)
  | cardComplete => exact outKept_of_eq (exec_cardComplete _ _ _) (execCardComplete_kept hs _ _)
  | pageClassCommand => exact outKept_of_eq (exec_pageClassCommand _ _ _) (execPageClassCommand_kept hs _ _)
  | invalidationCommand => exact outKept_of_eq (exec_invalidationCommand _ _ _) (execInvalidationCommand_kept hs _ _)
  | regionDisarm => exact outKept_of_eq (exec_regionDisarm _ _ _) (execRegionDisarm_kept hs _ _)
  | heapGrant => exact outKept_of_eq (exec_heapGrant _ _ _ _) (execHeapGrant_kept hs _ _ _)
  | pageZero => exact outKept_of_eq (exec_pageZero _ _ _) (execPageZero_kept hs _ _)
  | keyLoad => exact outKept_of_eq (exec_keyLoad _ _ _) (execKeyLoad_kept hs _ _)
  | keyErase => exact outKept_of_eq (exec_keyErase _ _ _) (execKeyErase_kept hs _ _)
  | contextRecordWrite => exact outKept_of_eq (exec_contextRecordWrite _ _ _ _) (execContextRecordWrite_kept hs _ _ _)
  | preemptDrain => exact outKept_of_eq (exec_preemptDrain _ _ _) (execPreemptDrain_kept hs _ _)
  | preemptSave => exact outKept_of_eq (exec_preemptSave _ _ _) (execPreemptSave_kept hs _ _)
  | contextResume => exact outKept_of_eq (exec_contextResume _ _ _) (execContextResume_kept hs _ _)
  | contextReset => exact outKept_of_eq (exec_contextReset _ _ _) (execContextReset_kept hs _ _)
  | preemptDeadlineExpiry => exact outKept_of_eq (exec_preemptDeadlineExpiry _ _ _) (execPreemptDeadlineExpiry_kept hs _ _)
  | plateWatchdogExpiry => exact outKept_of_eq (exec_plateWatchdogExpiry _ _) (execPlateWatchdogExpiry_kept hs _)
  | platePortError => exact outKept_of_eq (exec_platePortError _ _) (execPlatePortError_kept hs _)
  | thermalTrip => exact outKept_of_eq (exec_thermalTrip _ _) (execThermalTrip_kept hs _)
  | plateDeclareLost => exact outKept_of_eq (exec_plateDeclareLost _ _) (execPlateDeclareLost_kept hs _)
  | plateResetReturn => exact outKept_of_eq (exec_plateResetReturn _ _ _) (execPlateResetReturn_kept hs _ _)
  | sliceRetireNow => exact outKept_of_eq (exec_sliceRetireNow _ _ _) (execSliceRetireNow_kept hs _ _)
  | bucketHandover => exact outKept_of_eq (exec_bucketHandover _ _) (execBucketHandover_kept hs _)
  | treeEnable => exact outKept_of_eq (exec_treeEnable _ _ _ _) (execTreeEnable_kept hs _ _ _)
  | fedBarrierArrival => exact outKept_of_eq (exec_fedBarrierArrival _ _ _ _ _) (execFedBarrierArrival_kept hs _ _ _ _)
  | fedAnnounce => exact outKept_of_eq (exec_fedAnnounce _ _ _) (execFedAnnounce_kept hs _ _)
  | controlRegisterWrite => exact outKept_of_eq (exec_controlRegisterWrite _ _ _ _ _) (execControlRegisterWrite_kept hs _ _ _ _)
  | scrub => exact outKept_of_eq (exec_scrub _ _ _ _) (execScrub_kept hs _ _ _)
  | uncorrectableError => exact outKept_of_eq (exec_uncorrectableError _ _ _ _) (execUncorrectableError_kept hs _ _ _)
  | meshFlitRetry => exact outKept_of_eq (exec_meshFlitRetry _ _) (execMeshFlitRetry_kept hs _)
  | meshLinkDown => exact outKept_of_eq (exec_meshLinkDown _ _ _ _) (execMeshLinkDown_kept hs _ _ _)
  | d2dPacket => exact outKept_of_eq (exec_d2dPacket _ _ _ _) (execD2dPacket_kept hs _ _ _)
  | linkRetrain => exact outKept_of_eq (exec_linkRetrain _ _ _) (execLinkRetrain_kept hs _ _)
  | linkDown => exact outKept_of_eq (exec_linkDown _ _ _) (execLinkDown_kept hs _ _)
  | crossDieTimeout => exact outKept_of_eq (exec_crossDieTimeout _ _) (execCrossDieTimeout_kept hs _)
  | hostBar4Read => exact outKept_of_eq (exec_hostBar4Read _ _ _ _) (execHostBar4Read_kept hs _ _ _)
  | hostPostedWrite => exact outKept_of_eq (exec_hostPostedWrite _ _ _ _ _) (execHostPostedWrite_kept hs _ _ _ _)
  | hostAtomicop => exact outKept_of_eq (exec_hostAtomicop _ _ _ _ _ _ _) (execHostAtomicop_kept hs _ _ _ _ _ _)
  | hostCompletion => exact outKept_of_eq (exec_hostCompletion _ _ _) (execHostCompletion_kept hs _ _)
  | fabricPacket => exact outKept_of_eq (exec_fabricPacket _ _ _) (execFabricPacket_kept hs _ _)
  | wavelengthPark => exact outKept_of_eq (exec_wavelengthPark _ _) (execWavelengthPark_kept hs _)
  | wavelengthRelock => exact outKept_of_eq (exec_wavelengthRelock _ _) (execWavelengthRelock_kept hs _)
  | wavelengthCrcFail => exact outKept_of_eq (exec_wavelengthCrcFail _ _ _) (execWavelengthCrcFail_kept hs _ _)
  | getStatus => exact outKept_of_eq (exec_getStatus _) (execGetStatus_kept hs)
  | readPower => exact outKept_of_eq (exec_readPower _ _) (execReadPower_kept hs _)
  | readLog => exact outKept_of_eq (exec_readLog _ _ _ _) (execReadLog_kept hs _ _ _)
  | resetDie => exact outKept_of_eq (exec_resetDie _ _) (execResetDie_kept hs _)
  | fetchCrashRecord => exact outKept_of_eq (exec_fetchCrashRecord _ _) (execFetchCrashRecord_kept hs _)
  | enterDebugHalt => exact outKept_of_eq (exec_enterDebugHalt _ _) (execEnterDebugHalt_kept hs _)
  | leaveDebugHalt => exact outKept_of_eq (exec_leaveDebugHalt _ _) (execLeaveDebugHalt_kept hs _)
  | getVersion => exact outKept_of_eq (exec_getVersion _ _) (spdmAsk_kept hs _ _ _ _)
  | getCapabilities => exact outKept_of_eq (exec_getCapabilities _ _) (spdmAsk_kept hs _ _ _ _)
  | negotiateAlgorithms => exact outKept_of_eq (exec_negotiateAlgorithms _ _) (spdmAsk_kept hs _ _ _ _)
  | getDigests => exact outKept_of_eq (exec_getDigests _ _) (spdmAsk_kept hs _ _ _ _)
  | getCertificate => exact outKept_of_eq (exec_getCertificate _ _) (spdmAsk_kept hs _ _ _ _)
  | challenge => exact outKept_of_eq (exec_challenge _ _ _) (spdmAsk_kept hs _ _ _ _)
  | getMeasurements => exact outKept_of_eq (exec_getMeasurements _ _ _) (spdmAsk_kept hs _ _ _ _)
  | moduleReset => exact outKept_of_eq (exec_moduleReset _) (execModuleReset_kept hs)
  | imageCheck => exact outKept_of_eq (exec_imageCheck _ _ _ _ _ _) (execImageCheck_kept hs _ _ _ _ _)
  | memoryTraining => exact outKept_of_eq (exec_memoryTraining _ _ _) (execMemoryTraining_kept hs _ _)
  | plateSelfTest => exact outKept_of_eq (exec_plateSelfTest _ _ _) (execPlateSelfTest_kept hs _ _)
  | regulatorSample => exact outKept_of_eq (exec_regulatorSample _ _ _) (execRegulatorSample_kept hs _ _)
  | watchRecord => exact outKept_of_eq (exec_watchRecord _ _ _ _) (execWatchRecord_kept hs _ _ _)
  | fhead => exact outKept_of_eq (exec_fhead _ _ _) (execFhead_kept hs _ _)
  | faultDeliveryEnable => exact outKept_of_eq (exec_faultDeliveryEnable _ _ _) (execFaultDeliveryEnable_kept hs _ _)
  | fedBarrierEn => exact outKept_of_eq (exec_fedBarrierEn _ _ _ _) (execFedBarrierEn_kept hs _ _ _)

theorem State.runWord_kept {s : State} (hs : s.Inv) (f : Fetched) : OutKept (s.runWord f) := by
  have hn : ∀ w, (s.noteWord w).Inv := fun w => State.inv_congr (State.noteWord_mem _ _) hs
  unfold State.runWord
  split
  · split
    · exact exec_kept (hn _) _
    · exact outKept_next (State.illegal_inv (hn _))
  · exact outKept_next (State.fetchFail_inv hs _ _)

theorem State.issue_kept {s : State} (hs : s.Inv) (core pipe pick : Nat) : OutKept (s.issue core pipe pick) := by
  have ht : ∀ slot p, (s.select core slot p).Inv := fun slot p => State.inv_congr (State.select_mem _ _ _ _) hs
  unfold State.issue
  refine outKept_ite (outKept_next hs) ?_
  split
  · exact outKept_next hs
  dsimp only
  split
  · exact outKept_next hs
  · exact outKept_ite (outKept_next (State.findPlace_inv (ht _ _))) (State.runWord_kept (State.nextWord_inv (ht _ _)) _)

theorem State.doMove_kept {s : State} (hs : s.Inv) (m : Move) : OutKept (s.doMove m) := by
  cases m with
  | issue core pipe pick => exact State.issue_kept hs core pipe pick
  | event i => exact outKept_ite (exec_kept hs i) (outKept_next hs)
  | pass rc ac => exact outKept_next (State.inv_congr (State.pass_mem _ _ _) hs)
  | resume who what arg => exact outKept_next (State.resume_inv hs _ _ _)
  | deliver id lane reg => exact outKept_next (State.inv_congr (State.deliverOne_mem _ _ _ _) hs)
  | evict what unit key => exact outKept_next (State.evictAt_inv hs _ _ _)
  | migrate die page on => exact outKept_next (State.inv_congr (State.migrate_mem _ _ _ _) hs)
  | ctl die off size val => exact outKept_next (State.ctlWrite_inv hs _ _ _ _)
  | arrive die k ctx n => exact outKept_next (State.fedArrive_inv hs _ _ _ _)
  | hostFail core cls seq beat => exact outKept_next (State.hostFail_inv hs _ _ _ _)
  | outside pa n val => exact outKept_next (State.outside_inv hs _ _ _)
  | homeTimeout line => exact outKept_next (State.homeTimeout_inv hs _)
  | quiet who on => exact outKept_next (State.inv_congr (State.quiet_mem _ _ _) hs)
  | own pa n val => exact outKept_next (State.writeOwn_inv hs _ _ _)
  | route oid pkg mask => exact outKept_next (State.inv_congr (State.setRoute_mem _ _ _ _) hs)

theorem step_kept {s : State} (hs : s.Inv) : OutKept (step s) := State.doMove_kept (State.nextMove_inv hs) _

/-- Settles O56: every writer of memory writes through the stores of the canonical memory, which keep it canonical, and every
word and event answers a next state that those writers reach. -/
theorem stepsKeepInv : Obligations.StepsKeepInv :=
  ⟨fun _ hs => step_kept hs, fun i _ hs => exec_kept hs i⟩

end Sys2Proof.Machine
end

