-- ==== Sys2Proof/Proofs/IllegalWords.lean ====
section
/-! What the issue rules refuse: words with a forbidden field, words outside a clause, transfers out of place, and headers. -/

set_option Elab.async false

namespace Sys2Proof.Machine

/-- A word that the issue rules check: outside a clause it is illegal, and inside one it is when `ok` fails (R29, R44). -/
def Checks (ok : Bool) (s : State) (o : Out) : Prop :=
  (s.cp.clause = none → s.cw.paths ≠ [] → o = .next s.illegal) ∧ (s.cp.clause.isSome = true → ok = false → o = .next s.illegal)

theorem Checks.mono {ok ok' : Bool} {s : State} {o : Out} (h : Checks ok s o) (hk : ok' = false → ok = false) : Checks ok' s o :=
  ⟨h.1, fun hc hf => h.2 hc (hk hf)⟩

theorem Checks.of_eq {ok : Bool} {s : State} {o p : Out} (e : o = p) (h : Checks ok s p) : Checks ok s o := e ▸ h

theorem enter_checks (ok : Bool) (srcs : List Src) (s : State) (k : Clause → Out) : Checks ok s (enter ok srcs s k) := by
  constructor
  · intro hc hp
    rw [enter, hc]
    exact if_neg (by simpa using hp)
  · intro hc hf
    obtain ⟨c, hc⟩ := Option.isSome_iff_exists.mp hc
    rw [enter, hc]
    exact if_pos (by rw [hf]; rfl)

/-- A word that waits for room while it is well formed and in a clause is checked all the same. -/
theorem Checks.wait {ok full : Bool} {s : State} {o : Out} (h : Checks ok s o) :
    Checks ok s (if ok && s.cp.clause.isSome && full then .next s else o) := by
  constructor
  · intro hc hp
    rw [if_neg (by simp [hc])]
    exact h.1 hc hp
  · intro hc hf
    rw [if_neg (by simp [hf])]
    exact h.2 hc hf

theorem and_fails {a b : Bool} (h : a = false) : (a && b) = false := by rw [h, Bool.false_and]

/-- The approximated functions take no 64-bit type; of the others the type sets no rule of its own. -/
theorem approx_ok {d : RName} {a : Src} {t : FTy} (h : (dst32 d && src32 a && t != .f64) = false) :
    (dstTy t d && srcTy t a && (false || t != .f64)) = false := by
  cases t
  case f64 => simp
  all_goals simpa [dstTy, srcTy] using h

theorem rcv_ok {m : RName} (h : decide (m.toNat ≤ 96) = false) : decide (m.toNat < 97) = false := by
  simpa [Nat.lt_succ_iff] using h

theorem exit_ok {c : RName} (h : (vname c || c == 127) = false) : (vname c || c.toNat == 127) = false := by
  simpa [← BitVec.toNat_inj] using h

/-- Every word but a header is checked: it is illegal outside a clause, and inside one when R43 forbids a field. -/
theorem word_checks {i : Instr} {w : Nat} (s : State) (hw : encodeNat i = some w) (hh : ∀ x a b l n, i ≠ .clause x a b l n) :
    Checks i.wf s (exec i s) := by
  cases i with
  | clause x a b l n => exact absurd rfl (hh x a b l n)
  | iadd => exact .of_eq (exec_iadd _ _ _ _) (enter_checks _ _ _ _)
  | isub => exact .of_eq (exec_isub _ _ _ _) (enter_checks _ _ _ _)
  | imul => exact .of_eq (exec_imul _ _ _ _) (enter_checks _ _ _ _)
  | imulhS32 => exact .of_eq (exec_imulhS32 _ _ _ _) (enter_checks _ _ _ _)
  | imulhZ32 => exact .of_eq (exec_imulhZ32 _ _ _ _) (enter_checks _ _ _ _)
  | imad => exact .of_eq (exec_imad _ _ _ _) (enter_checks _ _ _ _)
  | iminS32 => exact .of_eq (exec_iminS32 _ _ _ _) (enter_checks _ _ _ _)
  | iminZ32 => exact .of_eq (exec_iminZ32 _ _ _ _) (enter_checks _ _ _ _)
  | imaxS32 => exact .of_eq (exec_imaxS32 _ _ _ _) (enter_checks _ _ _ _)
  | imaxZ32 => exact .of_eq (exec_imaxZ32 _ _ _ _) (enter_checks _ _ _ _)
  | andB => exact .of_eq (exec_andB _ _ _ _) (enter_checks _ _ _ _)
  | orB => exact .of_eq (exec_orB _ _ _ _) (enter_checks _ _ _ _)
  | xorB => exact .of_eq (exec_xorB _ _ _ _) (enter_checks _ _ _ _)
  | andn => exact .of_eq (exec_andn _ _ _ _) (enter_checks _ _ _ _)
  | shl => exact .of_eq (exec_shl _ _ _ _) (enter_checks _ _ _ _)
  | shr => exact .of_eq (exec_shr _ _ _ _) (enter_checks _ _ _ _)
  | shra => exact .of_eq (exec_shra _ _ _ _) (enter_checks _ _ _ _)
  | rotl => exact .of_eq (exec_rotl _ _ _ _) (enter_checks _ _ _ _)
  | bfx => exact .of_eq (exec_bfx _ _ _ _) (enter_checks _ _ _ _)
  | bfi => exact .of_eq (exec_bfi _ _ _ _) (enter_checks _ _ _ _)
  | cmpEq => exact .of_eq (exec_cmpEq _ _ _ _) (enter_checks _ _ _ _)
  | cmpNe => exact .of_eq (exec_cmpNe _ _ _ _) (enter_checks _ _ _ _)
  | cmpLtS32 => exact .of_eq (exec_cmpLtS32 _ _ _ _) (enter_checks _ _ _ _)
  | cmpLtZ32 => exact .of_eq (exec_cmpLtZ32 _ _ _ _) (enter_checks _ _ _ _)
  | cmpLeS32 => exact .of_eq (exec_cmpLeS32 _ _ _ _) (enter_checks _ _ _ _)
  | cmpLeZ32 => exact .of_eq (exec_cmpLeZ32 _ _ _ _) (enter_checks _ _ _ _)
  | sel => exact .of_eq (exec_sel _ _ _ _) (enter_checks _ _ _ _)
  | iaddSatS32 => exact .of_eq (exec_iaddSatS32 _ _ _ _) (enter_checks _ _ _ _)
  | adda => exact .of_eq (exec_adda _ _ _ _) (enter_checks _ _ _ _)
  | adda64 => exact .of_eq (exec_adda64 _ _ _ _) (enter_checks _ _ _ _)
  | suba => exact .of_eq (exec_suba _ _ _ _) (enter_checks _ _ _ _)
  | cmpaLt => exact .of_eq (exec_cmpaLt _ _ _ _) (enter_checks _ _ _ _)
  | faddF32 => exact .of_eq (exec_faddF32 _ _ _ _) (enter_checks _ _ _ _)
  | faddF64 => exact .of_eq (exec_faddF64 _ _ _ _) (enter_checks _ _ _ _)
  | faddF16 => exact .of_eq (exec_faddF16 _ _ _ _) (enter_checks _ _ _ _)
  | faddBf16 => exact .of_eq (exec_faddBf16 _ _ _ _) (enter_checks _ _ _ _)
  | fsubF32 => exact .of_eq (exec_fsubF32 _ _ _ _) (enter_checks _ _ _ _)
  | fsubF64 => exact .of_eq (exec_fsubF64 _ _ _ _) (enter_checks _ _ _ _)
  | fsubF16 => exact .of_eq (exec_fsubF16 _ _ _ _) (enter_checks _ _ _ _)
  | fsubBf16 => exact .of_eq (exec_fsubBf16 _ _ _ _) (enter_checks _ _ _ _)
  | fmulF32 => exact .of_eq (exec_fmulF32 _ _ _ _) (enter_checks _ _ _ _)
  | fmulF64 => exact .of_eq (exec_fmulF64 _ _ _ _) (enter_checks _ _ _ _)
  | fmulF16 => exact .of_eq (exec_fmulF16 _ _ _ _) (enter_checks _ _ _ _)
  | fmulBf16 => exact .of_eq (exec_fmulBf16 _ _ _ _) (enter_checks _ _ _ _)
  | ffmaF32 => exact .of_eq (exec_ffmaF32 _ _ _ _) (enter_checks _ _ _ _)
  | ffmaF64 => exact .of_eq (exec_ffmaF64 _ _ _ _) (enter_checks _ _ _ _)
  | ffmaF16 => exact .of_eq (exec_ffmaF16 _ _ _ _) (enter_checks _ _ _ _)
  | ffmaBf16 => exact .of_eq (exec_ffmaBf16 _ _ _ _) (enter_checks _ _ _ _)
  | ffmalF32 => exact .of_eq (exec_ffmalF32 _ _ _ _) (enter_checks _ _ _ _)
  | ffmalF64 => exact .of_eq (exec_ffmalF64 _ _ _ _) (enter_checks _ _ _ _)
  | ffmalF16 => exact .of_eq (exec_ffmalF16 _ _ _ _) (enter_checks _ _ _ _)
  | ffmalBf16 => exact .of_eq (exec_ffmalBf16 _ _ _ _) (enter_checks _ _ _ _)
  | fminF32 => exact .of_eq (exec_fminF32 _ _ _ _) (enter_checks _ _ _ _)
  | fminF64 => exact .of_eq (exec_fminF64 _ _ _ _) (enter_checks _ _ _ _)
  | fminF16 => exact .of_eq (exec_fminF16 _ _ _ _) (enter_checks _ _ _ _)
  | fminBf16 => exact .of_eq (exec_fminBf16 _ _ _ _) (enter_checks _ _ _ _)
  | fmaxF32 => exact .of_eq (exec_fmaxF32 _ _ _ _) (enter_checks _ _ _ _)
  | fmaxF64 => exact .of_eq (exec_fmaxF64 _ _ _ _) (enter_checks _ _ _ _)
  | fmaxF16 => exact .of_eq (exec_fmaxF16 _ _ _ _) (enter_checks _ _ _ _)
  | fmaxBf16 => exact .of_eq (exec_fmaxBf16 _ _ _ _) (enter_checks _ _ _ _)
  | sadd => exact .of_eq (exec_sadd _ _ _ _) (enter_checks _ _ _ _)
  | ssub => exact .of_eq (exec_ssub _ _ _ _) (enter_checks _ _ _ _)
  | smul => exact .of_eq (exec_smul _ _ _ _) (enter_checks _ _ _ _)
  | sand => exact .of_eq (exec_sand _ _ _ _) (enter_checks _ _ _ _)
  | sor => exact .of_eq (exec_sor _ _ _ _) (enter_checks _ _ _ _)
  | sxor => exact .of_eq (exec_sxor _ _ _ _) (enter_checks _ _ _ _)
  | sshl => exact .of_eq (exec_sshl _ _ _ _) (enter_checks _ _ _ _)
  | sshr => exact .of_eq (exec_sshr _ _ _ _) (enter_checks _ _ _ _)
  | scmpEq => exact .of_eq (exec_scmpEq _ _ _ _) (enter_checks _ _ _ _)
  | scmpLtS32 => exact .of_eq (exec_scmpLtS32 _ _ _ _) (enter_checks _ _ _ _)
  | scmpLtZ32 => exact .of_eq (exec_scmpLtZ32 _ _ _ _) (enter_checks _ _ _ _)
  | sadda => exact .of_eq (exec_sadda _ _ _ _) (enter_checks _ _ _ _)
  | vldEq => exact .of_eq (exec_vldEq _ _ _ _ _) (enter_checks _ _ _ _)
  | vldLe => exact .of_eq (exec_vldLe _ _ _ _ _) (enter_checks _ _ _ _)
  | vst => exact .of_eq (exec_vst _ _ _ _ _) (enter_checks _ _ _ _)
  | vfloor => exact .of_eq (exec_vfloor _ _ _) (enter_checks _ _ _ _)
  | spld => exact .of_eq (exec_spld _ _ _ _) (enter_checks _ _ _ _)
  | spst => exact .of_eq (exec_spst _ _ _ _) (enter_checks _ _ _ _)
  | mov => exact .of_eq (exec_mov _ _ _) (enter_checks _ _ _ _)
  | mov64 => exact .of_eq (exec_mov64 _ _ _) (enter_checks _ _ _ _)
  | notB => exact .of_eq (exec_notB _ _ _) (enter_checks _ _ _ _)
  | ineg => exact .of_eq (exec_ineg _ _ _ _) (enter_checks _ _ _ _)
  | iabsS32 => exact .of_eq (exec_iabsS32 _ _ _ _) (enter_checks _ _ _ _)
  | popc => exact .of_eq (exec_popc _ _ _) (enter_checks _ _ _ _)
  | clz => exact .of_eq (exec_clz _ _ _) (enter_checks _ _ _ _)
  | ctz => exact .of_eq (exec_ctz _ _ _) (enter_checks _ _ _ _)
  | brev => exact .of_eq (exec_brev _ _ _) (enter_checks _ _ _ _)
  | bswap => exact .of_eq (exec_bswap _ _ _) (enter_checks _ _ _ _)
  | sextS8 => exact .of_eq (exec_sextS8 _ _ _) (enter_checks _ _ _ _)
  | sextS16 => exact .of_eq (exec_sextS16 _ _ _) (enter_checks _ _ _ _)
  | zextZ8 => exact .of_eq (exec_zextZ8 _ _ _) (enter_checks _ _ _ _)
  | zextZ16 => exact .of_eq (exec_zextZ16 _ _ _) (enter_checks _ _ _ _)
  | fneg => exact .of_eq (exec_fneg _ _ _ _) (.mono (enter_checks _ _ _ _) and_fails)
  | fabs => exact .of_eq (exec_fabs _ _ _ _) (.mono (enter_checks _ _ _ _) and_fails)
  | fsqrt => exact .of_eq (exec_fsqrt _ _ _ _) (.mono (enter_checks _ _ _ _) and_fails)
  | frcp => exact .of_eq (exec_frcp _ _ _ _) (.mono (enter_checks _ _ _ _) and_fails)
  | frsqrt => exact .of_eq (exec_frsqrt _ _ _ _) (.mono (enter_checks _ _ _ _) approx_ok)
  | fexp2 => exact .of_eq (exec_fexp2 _ _ _ _) (.mono (enter_checks _ _ _ _) approx_ok)
  | flog2 => exact .of_eq (exec_flog2 _ _ _ _) (.mono (enter_checks _ _ _ _) approx_ok)
  | fsinpi => exact .of_eq (exec_fsinpi _ _ _ _) (.mono (enter_checks _ _ _ _) approx_ok)
  | fcospi => exact .of_eq (exec_fcospi _ _ _ _) (.mono (enter_checks _ _ _ _) approx_ok)
  | ftanh => exact .of_eq (exec_ftanh _ _ _ _) (.mono (enter_checks _ _ _ _) approx_ok)
  | frint => exact .of_eq (exec_frint _ _ _ _) (.mono (enter_checks _ _ _ _) and_fails)
  | ftrunc => exact .of_eq (exec_ftrunc _ _ _ _) (.mono (enter_checks _ _ _ _) and_fails)
  | ffloor => exact .of_eq (exec_ffloor _ _ _ _) (.mono (enter_checks _ _ _ _) and_fails)
  | fceil => exact .of_eq (exec_fceil _ _ _ _) (.mono (enter_checks _ _ _ _) and_fails)
  | smov => exact .of_eq (exec_smov _ _ _) (enter_checks _ _ _ _)
  | smov64 => exact .of_eq (exec_smov64 _ _ _) (enter_checks _ _ _ _)
  | snot => exact .of_eq (exec_snot _ _ _) (enter_checks _ _ _ _)
  | sneg => exact .of_eq (exec_sneg _ _ _ _) (enter_checks _ _ _ _)
  | sabsS32 => exact .of_eq (exec_sabsS32 _ _ _ _) (enter_checks _ _ _ _)
  | spopc => exact .of_eq (exec_spopc _ _ _) (enter_checks _ _ _ _)
  | sclz => exact .of_eq (exec_sclz _ _ _) (enter_checks _ _ _ _)
  | sctz => exact .of_eq (exec_sctz _ _ _) (enter_checks _ _ _ _)
  | sbrev => exact .of_eq (exec_sbrev _ _ _) (enter_checks _ _ _ _)
  | sbswap => exact .of_eq (exec_sbswap _ _ _) (enter_checks _ _ _ _)
  | ssextS8 => exact .of_eq (exec_ssextS8 _ _ _) (enter_checks _ _ _ _)
  | ssextS16 => exact .of_eq (exec_ssextS16 _ _ _) (enter_checks _ _ _ _)
  | szextZ8 => exact .of_eq (exec_szextZ8 _ _ _) (enter_checks _ _ _ _)
  | szextZ16 => exact .of_eq (exec_szextZ16 _ _ _) (enter_checks _ _ _ _)
  | cvtF64F32 => exact .of_eq (exec_cvtF64F32 _ _ _) (enter_checks _ _ _ _)
  | cvtF32F64 => exact .of_eq (exec_cvtF32F64 _ _ _ _) (enter_checks _ _ _ _)
  | cvtF32F16 => exact .of_eq (exec_cvtF32F16 _ _ _) (enter_checks _ _ _ _)
  | cvtF32Bf16 => exact .of_eq (exec_cvtF32Bf16 _ _ _) (enter_checks _ _ _ _)
  | cvtF16F32 => exact .of_eq (exec_cvtF16F32 _ _ _ _) (enter_checks _ _ _ _)
  | cvtBf16F32 => exact .of_eq (exec_cvtBf16F32 _ _ _ _) (enter_checks _ _ _ _)
  | cvtF32E4m3Lo => exact .of_eq (exec_cvtF32E4m3Lo _ _ _) (enter_checks _ _ _ _)
  | cvtF32E4m3Hi => exact .of_eq (exec_cvtF32E4m3Hi _ _ _) (enter_checks _ _ _ _)
  | cvtF32E5m2Lo => exact .of_eq (exec_cvtF32E5m2Lo _ _ _) (enter_checks _ _ _ _)
  | cvtF32E5m2Hi => exact .of_eq (exec_cvtF32E5m2Hi _ _ _) (enter_checks _ _ _ _)
  | cvtE4m3F32Lo => exact .of_eq (exec_cvtE4m3F32Lo _ _ _ _) (enter_checks _ _ _ _)
  | cvtE4m3F32Hi => exact .of_eq (exec_cvtE4m3F32Hi _ _ _ _) (enter_checks _ _ _ _)
  | cvtE4m3F32NsatLo => exact .of_eq (exec_cvtE4m3F32NsatLo _ _ _ _) (enter_checks _ _ _ _)
  | cvtE4m3F32NsatHi => exact .of_eq (exec_cvtE4m3F32NsatHi _ _ _ _) (enter_checks _ _ _ _)
  | cvtE5m2F32Lo => exact .of_eq (exec_cvtE5m2F32Lo _ _ _ _) (enter_checks _ _ _ _)
  | cvtE5m2F32Hi => exact .of_eq (exec_cvtE5m2F32Hi _ _ _ _) (enter_checks _ _ _ _)
  | cvtF32E5m3 => exact .of_eq (exec_cvtF32E5m3 _ _ _) (enter_checks _ _ _ _)
  | cvtE5m3F32 => exact .of_eq (exec_cvtE5m3F32 _ _ _) (enter_checks _ _ _ _)
  | cvtS32F32 => exact .of_eq (exec_cvtS32F32 _ _ _ _) (enter_checks _ _ _ _)
  | cvtZ32F32 => exact .of_eq (exec_cvtZ32F32 _ _ _ _) (enter_checks _ _ _ _)
  | cvtS64F32 => exact .of_eq (exec_cvtS64F32 _ _ _ _) (enter_checks _ _ _ _)
  | cvtZ64F32 => exact .of_eq (exec_cvtZ64F32 _ _ _ _) (enter_checks _ _ _ _)
  | cvtS32F64 => exact .of_eq (exec_cvtS32F64 _ _ _ _) (enter_checks _ _ _ _)
  | cvtZ32F64 => exact .of_eq (exec_cvtZ32F64 _ _ _ _) (enter_checks _ _ _ _)
  | cvtS64F64 => exact .of_eq (exec_cvtS64F64 _ _ _ _) (enter_checks _ _ _ _)
  | cvtZ64F64 => exact .of_eq (exec_cvtZ64F64 _ _ _ _) (enter_checks _ _ _ _)
  | cvtF32S32 => exact .of_eq (exec_cvtF32S32 _ _ _ _) (enter_checks _ _ _ _)
  | cvtF32Z32 => exact .of_eq (exec_cvtF32Z32 _ _ _ _) (enter_checks _ _ _ _)
  | cvtF32S64 => exact .of_eq (exec_cvtF32S64 _ _ _ _) (enter_checks _ _ _ _)
  | cvtF32Z64 => exact .of_eq (exec_cvtF32Z64 _ _ _ _) (enter_checks _ _ _ _)
  | cvtF64S32 => exact .of_eq (exec_cvtF64S32 _ _ _) (enter_checks _ _ _ _)
  | cvtF64Z32 => exact .of_eq (exec_cvtF64Z32 _ _ _) (enter_checks _ _ _ _)
  | cvtF64S64 => exact .of_eq (exec_cvtF64S64 _ _ _ _) (enter_checks _ _ _ _)
  | cvtF64Z64 => exact .of_eq (exec_cvtF64Z64 _ _ _ _) (enter_checks _ _ _ _)
  | qpack => exact .of_eq (exec_qpack _ _ _) (enter_checks _ _ _ _)
  | qunpk => exact .of_eq (exec_qunpk _ _ _) (enter_checks _ _ _ _)
  | fcmpEq => exact .of_eq (exec_fcmpEq _ _ _ _) (enter_checks _ _ _ _)
  | fcmpNe => exact .of_eq (exec_fcmpNe _ _ _ _) (enter_checks _ _ _ _)
  | fcmpLt => exact .of_eq (exec_fcmpLt _ _ _ _) (enter_checks _ _ _ _)
  | fcmpLe => exact .of_eq (exec_fcmpLe _ _ _ _) (enter_checks _ _ _ _)
  | fcmpUn => exact .of_eq (exec_fcmpUn _ _ _ _) (enter_checks _ _ _ _)
  | fclass => exact .of_eq (exec_fclass _ _ _ _) (enter_checks _ _ _ _)
  | xall => exact .of_eq (exec_xall _ _ _) (enter_checks _ _ _ _)
  | xany => exact .of_eq (exec_xany _ _ _) (enter_checks _ _ _ _)
  | xeq => exact .of_eq (exec_xeq _ _ _) (enter_checks _ _ _ _)
  | xbits => exact .of_eq (exec_xbits _ _ _) (enter_checks _ _ _ _)
  | xget => exact .of_eq (exec_xget _ _ _) (enter_checks _ _ _ _)
  | xspread => exact .of_eq (exec_xspread _ _ _) (enter_checks _ _ _ _)
  | xpermAbs => exact .of_eq (exec_xpermAbs _ _ _) (enter_checks _ _ _ _)
  | xpermLo => exact .of_eq (exec_xpermLo _ _ _ _) (enter_checks _ _ _ _)
  | xpermHi => exact .of_eq (exec_xpermHi _ _ _ _) (enter_checks _ _ _ _)
  | xpermFlip => exact .of_eq (exec_xpermFlip _ _ _) (enter_checks _ _ _ _)
  | xsame => exact .of_eq (exec_xsame _ _ _) (enter_checks _ _ _ _)
  | scanAdd => exact .of_eq (exec_scanAdd _ _ _ _) (enter_checks _ _ _ _)
  | scanMinS32 => exact .of_eq (exec_scanMinS32 _ _ _ _) (enter_checks _ _ _ _)
  | scanMinZ32 => exact .of_eq (exec_scanMinZ32 _ _ _ _) (enter_checks _ _ _ _)
  | scanMaxS32 => exact .of_eq (exec_scanMaxS32 _ _ _ _) (enter_checks _ _ _ _)
  | scanMaxZ32 => exact .of_eq (exec_scanMaxZ32 _ _ _ _) (enter_checks _ _ _ _)
  | scanAnd => exact .of_eq (exec_scanAnd _ _ _ _) (enter_checks _ _ _ _)
  | scanOr => exact .of_eq (exec_scanOr _ _ _ _) (enter_checks _ _ _ _)
  | scanXor => exact .of_eq (exec_scanXor _ _ _ _) (enter_checks _ _ _ _)
  | scanFaddF32 => exact .of_eq (exec_scanFaddF32 _ _ _ _) (enter_checks _ _ _ _)
  | scanFminF32 => exact .of_eq (exec_scanFminF32 _ _ _ _) (enter_checks _ _ _ _)
  | scanFmaxF32 => exact .of_eq (exec_scanFmaxF32 _ _ _ _) (enter_checks _ _ _ _)
  | redAdd => exact .of_eq (exec_redAdd _ _ _) (enter_checks _ _ _ _)
  | redMinS32 => exact .of_eq (exec_redMinS32 _ _ _) (enter_checks _ _ _ _)
  | redMinZ32 => exact .of_eq (exec_redMinZ32 _ _ _) (enter_checks _ _ _ _)
  | redMaxS32 => exact .of_eq (exec_redMaxS32 _ _ _) (enter_checks _ _ _ _)
  | redMaxZ32 => exact .of_eq (exec_redMaxZ32 _ _ _) (enter_checks _ _ _ _)
  | redAnd => exact .of_eq (exec_redAnd _ _ _) (enter_checks _ _ _ _)
  | redOr => exact .of_eq (exec_redOr _ _ _) (enter_checks _ _ _ _)
  | redXor => exact .of_eq (exec_redXor _ _ _) (enter_checks _ _ _ _)
  | redFaddF32 => exact .of_eq (exec_redFaddF32 _ _ _) (enter_checks _ _ _ _)
  | redFminF32 => exact .of_eq (exec_redFminF32 _ _ _) (enter_checks _ _ _ _)
  | redFmaxF32 => exact .of_eq (exec_redFmaxF32 _ _ _) (enter_checks _ _ _ _)
  | spawn => exact .of_eq (exec_spawn _ _ _) (enter_checks _ _ _ _)
  | spawnTry => exact .of_eq (exec_spawnTry _ _ _) (enter_checks _ _ _ _)
  | join => exact .of_eq (exec_join _ _) (enter_checks _ _ _ _)
  | mon => exact .of_eq (exec_mon _ _) (enter_checks _ _ _ _)
  | mwait => exact .of_eq (exec_mwait _) (enter_checks _ _ _ _)
  | qinit => exact .of_eq (exec_qinit _ _ _) (enter_checks _ _ _ _)
  | qpush => exact .of_eq (exec_qpush _ _ _) (enter_checks _ _ _ _)
  | qpop => exact .of_eq (exec_qpop _ _ _) (enter_checks _ _ _ _)
  | qtry => exact .of_eq (exec_qtry _ _ _) (enter_checks _ _ _ _)
  | allow => exact .of_eq (exec_allow _ _ _) (enter_checks _ _ _ _)
  | stagepush => exact .of_eq (exec_stagepush _ _ _) (enter_checks _ _ _ _)
  | amsg => exact .of_eq (exec_amsg _ _ _) (enter_checks _ _ _ _)
  | mma => exact .of_eq (exec_mma _ _ _ _ _) (enter_checks _ _ _ _).wait
  | mzero => exact .of_eq (exec_mzero _ _) (enter_checks _ _ _ _).wait
  | obres => exact .of_eq (exec_obres _ _ _) (enter_checks _ _ _ _)
  | obrel => exact .of_eq (exec_obrel _ _) (enter_checks _ _ _ _)
  | obimp => exact .of_eq (exec_obimp _ _ _) (enter_checks _ _ _ _)
  | mdrainF32Sp => exact .of_eq (exec_mdrainF32Sp _ _ _ _) (enter_checks _ _ _ _).wait
  | mdrainBf16Sp => exact .of_eq (exec_mdrainBf16Sp _ _ _ _) (enter_checks _ _ _ _).wait
  | mdrainE4m3Sp => exact .of_eq (exec_mdrainE4m3Sp _ _ _ _) (enter_checks _ _ _ _).wait
  | mdrainE5m2Sp => exact .of_eq (exec_mdrainE5m2Sp _ _ _ _) (enter_checks _ _ _ _).wait
  | mdrainF32 => exact .of_eq (exec_mdrainF32 _ _ _ _ _) (enter_checks _ _ _ _).wait
  | mdrainBf16 => exact .of_eq (exec_mdrainBf16 _ _ _ _ _) (enter_checks _ _ _ _).wait
  | mtake => exact .of_eq (exec_mtake _) (enter_checks _ _ _ _)
  | mpass => exact .of_eq (exec_mpass _) (enter_checks _ _ _ _)
  | cpy => exact .of_eq (exec_cpy _ _ _ _) (enter_checks _ _ _ _).wait
  | cpym => exact .of_eq (exec_cpym _ _ _ _) (enter_checks _ _ _ _).wait
  | gath => exact .of_eq (exec_gath _ _ _ _) (enter_checks _ _ _ _).wait
  | xred => exact .of_eq (exec_xred _ _ _ _) (enter_checks _ _ _ _).wait
  | tagwaitAny => exact .of_eq (exec_tagwaitAny _ _) (enter_checks _ _ _ _)
  | tagwaitAll => exact .of_eq (exec_tagwaitAll _ _) (enter_checks _ _ _ _)
  | tagff => exact .of_eq (exec_tagff _ _ _) (enter_checks _ _ _ _)
  | fence => exact .of_eq (exec_fence _ _ _) (enter_checks _ _ _ _)
  | fencex => exact .of_eq (exec_fencex _ _ _ _) (enter_checks _ _ _ _)
  | prefL1 => exact .of_eq (exec_prefL1 _ _ _ _) (enter_checks _ _ _ _)
  | prefLlc => exact .of_eq (exec_prefLlc _ _ _ _) (enter_checks _ _ _ _)
  | prefDemote => exact .of_eq (exec_prefDemote _ _ _) (enter_checks _ _ _ _)
  | cld => exact .of_eq (exec_cld _ _ _) (enter_checks _ _ _ _)
  | trap => exact .of_eq (exec_trap _ _) (enter_checks _ _ _ _)
  | bkpt => exact .of_eq (exec_bkpt _) (enter_checks _ _ _ _)
  | eret => exact .of_eq (exec_eret _) (.mono (enter_checks _ _ _ _) nofun)
  | eretKill => exact .of_eq (exec_eretKill _) (.mono (enter_checks _ _ _ _) nofun)
  | rdsr => exact .of_eq (exec_rdsr _ _ _) (.mono (enter_checks _ _ _ _) and_fails)
  | wrsr => exact .of_eq (exec_wrsr _ _ _) (.mono (enter_checks _ _ _ _) and_fails)
  | gsave => exact .of_eq (exec_gsave _ _) (.mono (enter_checks _ _ _ _) and_fails)
  | grest => exact .of_eq (exec_grest _ _) (.mono (enter_checks _ _ _ _) fun h => and_fails (and_fails (and_fails h)))
  | isync => exact .of_eq (exec_isync _) (enter_checks _ _ _ _)
  | yield => exact .of_eq (exec_yield _) (enter_checks _ _ _ _)
  | ldS8 => exact .of_eq (exec_ldS8 _ _ _ _ _ _ _) (enter_checks _ _ _ _)
  | ldZ8 => exact .of_eq (exec_ldZ8 _ _ _ _ _ _ _) (enter_checks _ _ _ _)
  | ldS16 => exact .of_eq (exec_ldS16 _ _ _ _ _ _ _) (enter_checks _ _ _ _)
  | ldZ16 => exact .of_eq (exec_ldZ16 _ _ _ _ _ _ _) (enter_checks _ _ _ _)
  | ldS32 => exact .of_eq (exec_ldS32 _ _ _ _ _ _ _) (enter_checks _ _ _ _)
  | ld64 => exact .of_eq (exec_ld64 _ _ _ _ _ _ _) (enter_checks _ _ _ _)
  | st8 => exact .of_eq (exec_st8 _ _ _ _ _ _ _) (enter_checks _ _ _ _)
  | st16 => exact .of_eq (exec_st16 _ _ _ _ _ _ _) (enter_checks _ _ _ _)
  | st32 => exact .of_eq (exec_st32 _ _ _ _ _ _ _) (enter_checks _ _ _ _)
  | st64 => exact .of_eq (exec_st64 _ _ _ _ _ _ _) (enter_checks _ _ _ _)
  | sld32 => exact .of_eq (exec_sld32 _ _ _ _ _ _ _) (enter_checks _ _ _ _)
  | sld64 => exact .of_eq (exec_sld64 _ _ _ _ _ _ _) (enter_checks _ _ _ _)
  | sst32 => exact .of_eq (exec_sst32 _ _ _ _ _ _ _) (enter_checks _ _ _ _)
  | sst64 => exact .of_eq (exec_sst64 _ _ _ _ _ _ _) (enter_checks _ _ _ _)
  | atomAdd32 => exact .of_eq (exec_atomAdd32 _ _ _ _ _ _) (enter_checks _ _ _ _)
  | atomMinS32 => exact .of_eq (exec_atomMinS32 _ _ _ _ _ _) (enter_checks _ _ _ _)
  | atomMinZ32 => exact .of_eq (exec_atomMinZ32 _ _ _ _ _ _) (enter_checks _ _ _ _)
  | atomMaxS32 => exact .of_eq (exec_atomMaxS32 _ _ _ _ _ _) (enter_checks _ _ _ _)
  | atomMaxZ32 => exact .of_eq (exec_atomMaxZ32 _ _ _ _ _ _) (enter_checks _ _ _ _)
  | atomAnd32 => exact .of_eq (exec_atomAnd32 _ _ _ _ _ _) (enter_checks _ _ _ _)
  | atomOr32 => exact .of_eq (exec_atomOr32 _ _ _ _ _ _) (enter_checks _ _ _ _)
  | atomXor32 => exact .of_eq (exec_atomXor32 _ _ _ _ _ _) (enter_checks _ _ _ _)
  | atomSwap32 => exact .of_eq (exec_atomSwap32 _ _ _ _ _ _) (enter_checks _ _ _ _)
  | atomCas32 => exact .of_eq (exec_atomCas32 _ _ _ _ _ _) (enter_checks _ _ _ _)
  | atomAdd64 => exact .of_eq (exec_atomAdd64 _ _ _ _ _ _) (enter_checks _ _ _ _)
  | atomMinS64 => exact .of_eq (exec_atomMinS64 _ _ _ _ _ _) (enter_checks _ _ _ _)
  | atomMinZ64 => exact .of_eq (exec_atomMinZ64 _ _ _ _ _ _) (enter_checks _ _ _ _)
  | atomMaxS64 => exact .of_eq (exec_atomMaxS64 _ _ _ _ _ _) (enter_checks _ _ _ _)
  | atomMaxZ64 => exact .of_eq (exec_atomMaxZ64 _ _ _ _ _ _) (enter_checks _ _ _ _)
  | atomAnd64 => exact .of_eq (exec_atomAnd64 _ _ _ _ _ _) (enter_checks _ _ _ _)
  | atomOr64 => exact .of_eq (exec_atomOr64 _ _ _ _ _ _) (enter_checks _ _ _ _)
  | atomXor64 => exact .of_eq (exec_atomXor64 _ _ _ _ _ _) (enter_checks _ _ _ _)
  | atomSwap64 => exact .of_eq (exec_atomSwap64 _ _ _ _ _ _) (enter_checks _ _ _ _)
  | atomCas64 => exact .of_eq (exec_atomCas64 _ _ _ _ _ _) (enter_checks _ _ _ _)
  | movi => exact .of_eq (exec_movi _ _ _) (enter_checks _ _ _ _)
  | movhi => exact .of_eq (exec_movhi _ _ _) (enter_checks _ _ _ _)
  | smovi => exact .of_eq (exec_smovi _ _ _) (enter_checks _ _ _ _)
  | smovhi => exact .of_eq (exec_smovhi _ _ _) (enter_checks _ _ _ _)
  | wbase => exact .of_eq (exec_wbase _ _) (.mono (enter_checks _ _ _ _) nofun)
  | cbase => exact .of_eq (exec_cbase _ _) (enter_checks _ _ _ _)
  | bar => exact .of_eq (exec_bar _ _ _) (.mono (enter_checks _ _ _ _).wait nofun)
  | rcv => exact .of_eq (exec_rcv _ _ _) (.mono (enter_checks _ _ _ _) rcv_ok)
  | bnz => exact .of_eq (exec_bnz _ _ _) (enter_checks _ _ _ _)
  | bra => exact .of_eq (exec_bra _ _) (enter_checks _ _ _ _)
  | bz => exact .of_eq (exec_bz _ _ _) (enter_checks _ _ _ _)
  | call => exact .of_eq (exec_call _ _ _) (.mono (enter_checks _ _ _ _) exit_ok)
  | jmpi => exact .of_eq (exec_jmpi _ _) (enter_checks _ _ _ _)
  | calli => exact .of_eq (exec_calli _ _) (enter_checks _ _ _ _)
  | ret => exact .of_eq (exec_ret _ _) (enter_checks _ _ _ _)
  | exit => exact .of_eq (exec_exit _ _) (.mono (enter_checks _ _ _ _) exit_ok)
  | longLatencyComplete | storeAcknowledge | orderingPointAccess | leaseRequest | leaseRecall | readHoldExpiry | rds | rdx | fwd
    | inv | ack | data | grant | binv | wb | pageWalk | pageWalkTimeout | frespResolve | frespRefuse | vldEqAtSlice | vldLeAtSlice
    | vstAtSlice | versionWaitTimeout | vldReturnRetry | vfloorApply | mwaitWake | joinZero | tagwaitSatisfied | queueWordPerform
    | ringSpaceResume | monitorTimeout | waveHaltStop | handlerEntry | groupRetire | groupEnd | engineEntryStart | engineBeat
    | engineCommandComplete | xredElement | reductionContribution | reductionUnitTimeout | followOnIssue | mmaStart | mmaCheck
    | drainPortOperation | binWindowExpiry | binAdmit | dispatchDecision | coreContextPass | spawnDeadlockEviction | amsgDelivery
    | stageGovernorTick | stagePartialTake | wridx | queueDescriptorWrite | mapperSlotFill | queuePriorityAge | idleQuantumExpiry
    | launch | jobCard | pipeline | waitOnWord | signal | pad | launchTranslation | regionArming | launchComplete | waitOnWordRecheck
    | waitOnWordTimeout | cardReady | cardComplete | pageClassCommand | invalidationCommand | regionDisarm | heapGrant | pageZero
    | keyLoad | keyErase | contextRecordWrite | preemptDrain | preemptSave | contextResume | contextReset | preemptDeadlineExpiry
    | plateWatchdogExpiry | platePortError | thermalTrip | plateDeclareLost | plateResetReturn | sliceRetireNow | bucketHandover
    | treeEnable | fedBarrierArrival | fedAnnounce | controlRegisterWrite | scrub | uncorrectableError | meshFlitRetry | meshLinkDown
    | d2dPacket | linkRetrain | linkDown | crossDieTimeout | hostBar4Read | hostPostedWrite | hostAtomicop | hostCompletion
    | fabricPacket | wavelengthPark | wavelengthRelock | wavelengthCrcFail | getStatus | readPower | readLog | resetDie
    | fetchCrashRecord | enterDebugHalt | leaveDebugHalt | getVersion | getCapabilities | negotiateAlgorithms | getDigests
    | getCertificate | challenge | getMeasurements | moduleReset | imageCheck | memoryTraining | plateSelfTest | regulatorSample
    | watchRecord | fhead | faultDeliveryEnable | fedBarrierEn => nomatch hw

theorem State.bound_nil (s : State) : s.bound [] = true := rfl

theorem enter_illegal {ok : Bool} {srcs : List Src} {s : State} {k : Clause → Out} {c : Clause} (hc : s.cp.clause = some c)
    (hb : s.bound srcs = true) (hk : k c = .next s.illegal) : enter ok srcs s k = .next s.illegal := by
  rw [enter, hc]
  cases ok with
  | false => rfl
  | true => exact (if_neg (by simp)).trans ((if_neg (by simp [hb])).trans hk)

/-- A control transfer closes its clause (R43). -/
theorem issueControl_illegal {ok : Bool} {srcs : List Src} {f : State → Res} {s : State} {c : Clause} (hc : s.cp.clause = some c)
    (hp : c.pos + 1 < c.len) (hb : s.bound srcs = true) : issueControl ok srcs f s = .next s.illegal :=
  enter_illegal hc hb (if_pos hp)

theorem issueTrap_illegal {ok : Bool} {srcs : List Src} {code : Nat} {eaddr : State → W64} {s : State} {c : Clause}
    (hc : s.cp.clause = some c) (hp : c.pos + 1 < c.len) (hb : s.bound srcs = true) : issueTrap ok srcs code eaddr s = .next s.illegal :=
  enter_illegal hc hb (if_pos hp)

/-- A long-latency word that writes a register has a flag (R34). -/
theorem issueLong_illegal {ok onL rel : Bool} {srcs : List Src} {f : Nat → State → Res} {s : State} {c : Clause} (hc : s.cp.clause = some c)
    (hs : c.sel = 15) (hb : s.bound srcs = true) : issueLong ok true onL rel srcs f s = .next s.illegal :=
  enter_illegal hc hb (if_pos (by rw [hs]; rfl))

theorem issueMx_illegal {ok : Bool} {f : Nat → State → Res} {s : State} {c : Clause} (hc : s.cp.clause = some c)
    (hs : c.sel = 15) (hm : s.cc.mchain.length < 32) : issueMx ok true f s = .next s.illegal :=
  (if_neg (by simp; omega)).trans (issueLong_illegal hc hs s.bound_nil)

section
variable {s : State} {c : Clause} (hc : s.cp.clause = some c)
include hc

theorem branch_illegal (hp : c.pos + 1 < c.len) (ok link : Bool) (sel : State → Nat → Bool) (o : BitVec 18) :
    branch ok link sel o s = .next s.illegal := by
  unfold branch
  exact issueControl_illegal hc hp s.bound_nil

theorem jump_illegal (hp : c.pos + 1 < c.len) (link : Bool) (r : RName) : jump link r s = .next s.illegal := by
  unfold jump
  exact issueControl_illegal hc hp s.bound_nil

variable (hs : c.sel = 15)
include hs

theorem loadV_illegal (size : Nat) (signed : Bool) (t b : RName) (o : BitVec 4) (r : Ord) (sc : Scope) (h : Hint) :
    loadV size signed t b o r sc h s = .next s.illegal := by
  unfold loadV
  exact issueLong_illegal hc hs s.bound_nil

theorem loadS_illegal (size : Nat) (t b : RName) (o : BitVec 4) (r : Ord) (sc : Scope) (h : Hint) :
    loadS size t b o r sc h s = .next s.illegal := by
  unfold loadS
  exact issueLong_illegal hc hs s.bound_nil

theorem atomic_illegal (size fn : Nat) (t b : RName) (r : Ord) (sc : Scope) (h : Hint) : atomic size fn t b r sc h s = .next s.illegal := by
  unfold atomic
  exact issueLong_illegal hc hs s.bound_nil

theorem versionRead_illegal {b : Src} (hb : s.bound [b] = true) (kind : OpKind) (ok acq rel : Bool) (d a : RName) :
    versionWord kind false ok acq rel d a b s = .next s.illegal := by
  unfold versionWord
  exact issueLong_illegal hc hs hb

theorem drain_illegal (hm : s.cc.mchain.length < 32) (ok : Bool) (fn : Nat) (d a : RName) (amx clr : Bool) :
    mdrain ok fn (some d) a amx clr s = .next s.illegal := by
  unfold mdrain
  exact issueMx_illegal hc hs hm

end

theorem Wave.flagsClear_iff {w : Wave} {m : BitVec 12} :
    w.flagsClear m = true ↔ ∀ i < 12, m.getLsbD i = true → w.flags.get i 0 = 0 := by
  simp only [Wave.flagsClear, List.all_eq_true, List.mem_range, Bool.or_eq_true, Bool.not_eq_true', beq_iff_eq]
  exact forall₂_congr fun i _ => by cases m.getLsbD i <;> simp

/-- Fetching a clause takes one free choice at most (log 13). -/
theorem clauseWords_state (s : State) (h len : Nat) : (s.clauseWords h len).2 = s ∨ (s.clauseWords h len).2 = s.choose.2 := by
  unfold State.clauseWords
  dsimp only
  split
  · exact .inl rfl
  split
  · exact .inl rfl
  split
  · exact .inl rfl
  · exact .inr rfl

/-- A clause's words are all as memory holds them, or all as the core fetched them before (R169). -/
theorem clauseWords_words (s : State) (h len : Nat) :
    (s.clauseWords h len).1.1 = (s.fetchAll s.cur.core s.cg (s.cp.pc.toNat + 4) len).1 ∨
      s.cc.oldClause s.cp.pc.toNat h len = some (s.clauseWords h len).1.1 := by
  unfold State.clauseWords
  dsimp only
  split
  · exact .inl rfl
  next ws e =>
  split
  · exact .inr e
  split
  · exact .inl rfl
  dsimp only
  split
  · exact .inr e
  · exact .inl rfl

section
variable {w : BitVec 12} {a b : BitVec 4} {l n : BitVec 3} {s : State}

theorem execClause_inside (hc : s.cp.clause.isSome = true) : execClause w a b l n s = .next s.illegal := if_pos hc

variable (hc : s.cp.clause = none) (hp : s.cw.paths ≠ []) (ha : okSet a = true) (hb : okSet b = true)
include hc hp

theorem execClause_badSet (h : (okSet a && okSet b) = false) : execClause w a b l n s = .next s.illegal := by
  simp [execClause, hc, hp, h]

include ha hb

theorem execClause_waits (h : s.cw.flagsClear w = false) : execClause w a b l n s = .next s := by
  simp [execClause, hc, hp, ha, hb, h]

variable (hf : s.cw.flagsClear w = true)
  (hl : (s.clauseWords (headerNat w a b l n) (l.toNat + 1)).1.1.length = l.toNat + 1)
include hf hl

theorem execClause_bind
    (hn : ((s.clauseWords (headerNat w a b l n) (l.toNat + 1)).1.1.filter fun x => (wordLat x).isLong).length < n.toNat) :
    execClause w a b l n s = .next (s.clauseWords (headerNat w a b l n) (l.toNat + 1)).2.illegal := by
  simp [execClause, hc, hp, ha, hb, hf, hl, hn]

/-- A header that starts its clause stands at the clause's first word (R29, R30). -/
theorem execClause_starts
    (hn : n.toNat ≤ ((s.clauseWords (headerNat w a b l n) (l.toNat + 1)).1.1.filter fun x => (wordLat x).isLong).length) :
    ∃ t, execClause w a b l n s = .next t ∧ t.mem = s.mem ∧ t.cw = s.cw.modPath fun p => { p with
      pc := p.pc + 4
      clause := some { waitM := w, setA := a.toNat, setB := b.toNat, len := l.toNat + 1, bind := n.toNat
                       words := (s.clauseWords (headerNat w a b l n) (l.toNat + 1)).1.1.map (BitVec.ofNat 32) } } := by
  have ht := clauseWords_state s (headerNat w a b l n) (l.toNat + 1)
  refine ⟨_, by simp [execClause, hc, hp, ha, hb, hf, hl, Nat.not_lt.mpr hn]; rfl, ?_, ?_⟩
  · obtain e | e := ht <;> simp [e]
  · obtain e | e := ht <;> simp [e]

end

/-- What a halt changes of the waves: their SKID, and whether they may issue on (R222). -/
theorem haltGroup_waves (s : State) (gid : Nat) (t : Trap) (skids : Bool) (k : Nat) :
    { (s.haltGroup gid t skids).wave k with skid := (s.wave k).skid, stopped := (s.wave k).stopped, skidAc := (s.wave k).skidAc } = s.wave k := by
  unfold State.haltGroup
  refine List.foldlRecOn (motive := fun u : State =>
    { u.wave k with skid := (s.wave k).skid, stopped := (s.wave k).stopped, skidAc := (s.wave k).skidAc } = s.wave k) _ _ rfl fun u hu i _ => ?_
  rw [State.wave_modWave]
  split
  · next e => subst e; exact hu
  · exact hu

theorem haltGroup_groups (s : State) (gid : Nat) (t : Trap) (skids : Bool) :
    (s.haltGroup gid t skids).groups = (s.modGroup gid fun g => { g with phase := .halting, trap := some t }).groups :=
  List.foldlRecOn (motive := fun u : State => u.groups = _) _ _ rfl fun _ hu _ _ => hu

theorem haltGroup_ops (s : State) (gid : Nat) (t : Trap) (skids : Bool) : (s.haltGroup gid t skids).ops = s.ops :=
  List.foldlRecOn (motive := fun u : State => u.ops = s.ops) _ _ rfl fun _ hu _ _ => hu

/-- The trap of a running group begins its halt (R222). -/
theorem illegal_halts {s : State} {gid : Nat} (hg : s.cw.gid = some gid) (hp : s.cg.phase = .admitted ∨ s.cg.phase = .running) :
    s.illegal = s.haltGroup gid (s.trapHere 0 0 s.memb) true := by
  have hid : s.cgid = gid := by rw [State.cgid, hg]; rfl
  rw [State.illegal, State.trapP, hid]
  obtain e | e := hp <;> rw [e]

/-- A control transfer that does not close its clause is illegal (R43). -/
theorem transfer_illegal {i : Instr} {s : State} {c : Clause} (hc : s.cp.clause = some c) (hp : c.pos + 1 < c.len)
    (h : (∃ r o, i = .bnz r o ∨ i = .bz r o ∨ i = .bra o ∨ i = .call r o) ∨
      (∃ r, i = .jmpi r ∨ i = .calli r ∨ i = .ret r ∨ i = .exit r ∨ i = .grest r) ∨
      i = .bkpt ∨ i = .eret ∨ i = .eretKill ∨ ∃ a, i = .trap a ∧ s.bound [a] = true) : exec i s = .next s.illegal := by
  obtain ⟨r, o, rfl | rfl | rfl | rfl⟩ | ⟨r, rfl | rfl | rfl | rfl | rfl⟩ | rfl | rfl | rfl | ⟨a, rfl, hb⟩ := h
  · exact (exec_bnz ..).trans (branch_illegal hc hp _ _ _ _)
  · exact (exec_bz ..).trans (branch_illegal hc hp _ _ _ _)
  · exact (exec_bra ..).trans (branch_illegal hc hp _ _ _ _)
  · exact (exec_call ..).trans (branch_illegal hc hp _ _ _ _)
  · exact (exec_jmpi ..).trans (jump_illegal hc hp _ _)
  · exact (exec_calli ..).trans (jump_illegal hc hp _ _)
  · exact (exec_ret ..).trans (jump_illegal hc hp _ _)
  · exact (exec_exit ..).trans (issueControl_illegal hc hp s.bound_nil)
  · exact (exec_grest ..).trans (issueControl_illegal hc hp s.bound_nil)
  · exact (exec_bkpt ..).trans (issueTrap_illegal hc hp s.bound_nil)
  · exact (exec_eret ..).trans (issueControl_illegal hc hp s.bound_nil)
  · exact (exec_eretKill ..).trans (issueControl_illegal hc hp s.bound_nil)
  · exact (exec_trap ..).trans (issueTrap_illegal hc hp hb)

/-- A load, an atomic or another long-latency word that writes a register is illegal without a flag (R34, R43). -/
theorem noFlag_illegal {i : Instr} {s : State} {c : Clause} (hc : s.cp.clause = some c) (hs : c.sel = 15)
    (h : (∃ e ∈ ([.ldS8, .ldZ8, .ldS16, .ldZ16, .ldS32, .ld64, .sld32, .sld64] :
          List (RName → RName → BitVec 4 → Ord → Scope → Hint → Instr)), ∃ t b o r sc h, i = e t b o r sc h) ∨
      (∃ e ∈ ([.atomAdd32, .atomMinS32, .atomMinZ32, .atomMaxS32, .atomMaxZ32, .atomAnd32, .atomOr32, .atomXor32, .atomSwap32, .atomCas32,
          .atomAdd64, .atomMinS64, .atomMinZ64, .atomMaxS64, .atomMaxZ64, .atomAnd64, .atomOr64, .atomXor64, .atomSwap64, .atomCas64] :
          List (RName → RName → Ord → Scope → Hint → Instr)), ∃ t b r sc h, i = e t b r sc h) ∨
      (∃ d a b, i = .spld d a b ∧ s.bound [a, b] = true) ∨ (∃ d a, i = .cld d a ∧ s.bound [a] = true) ∨
      (∃ d a b o, (i = .vldEq d a b o ∨ i = .vldLe d a b o) ∧ s.bound [b] = true) ∨
      (s.cc.mchain.length < 32 ∧ ∃ d a m z, i = .mdrainF32 d a m z ∨ i = .mdrainBf16 d a m z)) : exec i s = .next s.illegal := by
  obtain ⟨e, he, t, b, o, r, sc, h, rfl⟩ | ⟨e, he, t, b, r, sc, h, rfl⟩ | ⟨d, a, b, rfl, hb⟩ | ⟨d, a, rfl, hb⟩ |
    ⟨d, a, b, o, rfl | rfl, hb⟩ | ⟨hm, d, a, m, z, rfl | rfl⟩ := h
  · simp only [List.mem_cons, List.not_mem_nil, or_false] at he
    obtain rfl | rfl | rfl | rfl | rfl | rfl | rfl | rfl := he
    · exact (exec_ldS8 ..).trans (loadV_illegal hc hs _ _ _ _ _ _ _ _)
    · exact (exec_ldZ8 ..).trans (loadV_illegal hc hs _ _ _ _ _ _ _ _)
    · exact (exec_ldS16 ..).trans (loadV_illegal hc hs _ _ _ _ _ _ _ _)
    · exact (exec_ldZ16 ..).trans (loadV_illegal hc hs _ _ _ _ _ _ _ _)
    · exact (exec_ldS32 ..).trans (loadV_illegal hc hs _ _ _ _ _ _ _ _)
    · exact (exec_ld64 ..).trans (loadV_illegal hc hs _ _ _ _ _ _ _ _)
    · exact (exec_sld32 ..).trans (loadS_illegal hc hs _ _ _ _ _ _ _)
    · exact (exec_sld64 ..).trans (loadS_illegal hc hs _ _ _ _ _ _ _)
  · simp only [List.mem_cons, List.not_mem_nil, or_false] at he
    obtain rfl | rfl | rfl | rfl | rfl | rfl | rfl | rfl | rfl | rfl | rfl | rfl | rfl | rfl | rfl | rfl | rfl | rfl | rfl | rfl := he
    · exact (exec_atomAdd32 ..).trans (atomic_illegal hc hs _ _ _ _ _ _ _)
    · exact (exec_atomMinS32 ..).trans (atomic_illegal hc hs _ _ _ _ _ _ _)
    · exact (exec_atomMinZ32 ..).trans (atomic_illegal hc hs _ _ _ _ _ _ _)
    · exact (exec_atomMaxS32 ..).trans (atomic_illegal hc hs _ _ _ _ _ _ _)
    · exact (exec_atomMaxZ32 ..).trans (atomic_illegal hc hs _ _ _ _ _ _ _)
    · exact (exec_atomAnd32 ..).trans (atomic_illegal hc hs _ _ _ _ _ _ _)
    · exact (exec_atomOr32 ..).trans (atomic_illegal hc hs _ _ _ _ _ _ _)
    · exact (exec_atomXor32 ..).trans (atomic_illegal hc hs _ _ _ _ _ _ _)
    · exact (exec_atomSwap32 ..).trans (atomic_illegal hc hs _ _ _ _ _ _ _)
    · exact (exec_atomCas32 ..).trans (atomic_illegal hc hs _ _ _ _ _ _ _)
    · exact (exec_atomAdd64 ..).trans (atomic_illegal hc hs _ _ _ _ _ _ _)
    · exact (exec_atomMinS64 ..).trans (atomic_illegal hc hs _ _ _ _ _ _ _)
    · exact (exec_atomMinZ64 ..).trans (atomic_illegal hc hs _ _ _ _ _ _ _)
    · exact (exec_atomMaxS64 ..).trans (atomic_illegal hc hs _ _ _ _ _ _ _)
    · exact (exec_atomMaxZ64 ..).trans (atomic_illegal hc hs _ _ _ _ _ _ _)
    · exact (exec_atomAnd64 ..).trans (atomic_illegal hc hs _ _ _ _ _ _ _)
    · exact (exec_atomOr64 ..).trans (atomic_illegal hc hs _ _ _ _ _ _ _)
    · exact (exec_atomXor64 ..).trans (atomic_illegal hc hs _ _ _ _ _ _ _)
    · exact (exec_atomSwap64 ..).trans (atomic_illegal hc hs _ _ _ _ _ _ _)
    · exact (exec_atomCas64 ..).trans (atomic_illegal hc hs _ _ _ _ _ _ _)
  · exact (exec_spld ..).trans (issueLong_illegal hc hs hb)
  · exact (exec_cld ..).trans (issueLong_illegal hc hs hb)
  · exact (exec_vldEq ..).trans (versionRead_illegal hc hs hb _ _ _ _ _ _)
  · exact (exec_vldLe ..).trans (versionRead_illegal hc hs hb _ _ _ _ _ _)
  · exact (exec_mdrainF32 ..).trans (drain_illegal hc hs hm _ _ _ _ _ _)
  · exact (exec_mdrainBf16 ..).trans (drain_illegal hc hs hm _ _ _ _ _ _)

/-- Settles O19: a header outside a clause first waits for the flags of WAIT, then takes its words from memory or from the core's
earlier fetch, and starts the clause. -/
theorem clauseHeader : Obligations.ClauseHeader := by
  intro w a b l n s hp
  refine ⟨fun hc => execClause_inside hc, fun hc ha hb => ⟨?_, ?_⟩⟩
  · rintro ⟨i, hi, hw, hne⟩
    refine execClause_waits hc hp ha hb (Bool.eq_false_iff.mpr fun hf => hne ?_)
    exact Wave.flagsClear_iff.mp hf i hi hw
  · intro ws hf
    refine ⟨clauseWords_words _ _ _, ?_⟩
    rintro rfl hl hn
    obtain ⟨t, ht, hm, hcw⟩ := execClause_starts hc hp ha hb (Wave.flagsClear_iff.mpr hf) hl hn
    obtain ⟨p, r, hpr⟩ := List.exists_cons_of_ne_nil hp
    refine ⟨t, ht, hm, ?_, ?_, ?_⟩
    · rw [hcw]; rfl
    · rw [hcw, Wave.modPath, hpr]; rfl
    · rw [State.cp, hcw, Wave.modPath, State.cp, hpr]; rfl

/-- Settles O26: the issue rules refuse each word whose own check fails, and the trap of a running group begins its halt. -/
theorem illegalWords : Obligations.IllegalWords := by
  refine ⟨fun i w s hw hwf hc => ?_, ?_, fun w a b l n s hc hp h => execClause_badSet hc hp h, ?_, ?_, ?_, ?_⟩
  · by_cases hh : ∃ x a b l n, i = .clause x a b l n
    · obtain ⟨x, a, b, l, n, rfl⟩ := hh
      exact execClause_inside hc
    · exact (word_checks s hw fun x a b l n e => hh ⟨x, a, b, l, n, e⟩).2 hc hwf
  · exact fun i s c hc hp h => transfer_illegal hc hp h
  · intro w a b l n s hc hp ha hb hf got hl hn
    exact ⟨_, clauseWords_state _ _ _, execClause_bind hc hp ha hb (Wave.flagsClear_iff.mpr hf) hl hn⟩
  · exact fun i s c hc hs h => noFlag_illegal hc hs h
  · intro i w s hw hh hc hp
    exact (word_checks s hw hh).1 hc hp
  · intro s gid hg hp
    dsimp only
    rw [illegal_halts hg hp]
    refine ⟨?_, ?_, State.haltGroup_mem _ _ _ _, haltGroup_ops _ _ _ _, haltGroup_waves _ _ _ _⟩
    · rw [State.group, haltGroup_groups]
      exact congrArg Group.phase (State.group_modGroup_self s gid _)
    · rw [State.group, haltGroup_groups]
      exact congrArg Group.trap (State.group_modGroup_self s gid _)

end Sys2Proof.Machine
end

