-- ==== Sys2Proof/Proofs/SpecialRegisters.lean ====
section
/-! RDSR and WRSR: the special registers that a wave may read and write (R23, R166). -/

set_option Elab.async false

namespace Sys2Proof.Machine

theorem sdst32_of_sgen {d : RName} (h : sgen d = true) : sdst32 d = true := by
  simp only [sgen, sdst32, decide_eq_true_eq] at *
  simp [h]

/-- A word outside its field rules is illegal in its clause. -/
theorem issueFixed_illegal {ok : Bool} {srcs ss : List Src} {f : State → Res} {s : State} (h : s.CanIssue ss) (hok : ok = false) :
    issueFixed ok srcs f s = .next s.illegal :=
  (enter_checks ok srcs s _).2 h.1 hok

theorem execRdsr_completes {s : State} {d : RName} {n : BitVec 7} {v : W32} (h : s.CanIssue []) (hd : sgen d = true)
    (hv : s.special n.toNat = some v) : ∃ u, execRdsr d n s = .next u ∧ ScaWord s u d false (v.setWidth 64) := by
  have hok : (sgen d && (s.special n.toNat).isSome) = true := by rw [hd, hv]; rfl
  obtain ⟨u, hu, hw⟩ := sca_completes (f := fun s => (s.special n.toNat).getD 0) hok (sdst32_of_sgen hd) h
  rw [hv] at hw
  exact ⟨u, hu, hw⟩

theorem execRdsr_illegal {s : State} {d : RName} {n : BitVec 7} (h : s.CanIssue []) (hv : s.special n.toNat = none) :
    execRdsr d n s = .next s.illegal :=
  issueFixed_illegal h (by rw [hv, Option.isSome_none, Bool.and_false])

theorem execWrsr_eq {s t : State} {a : Src} {n : BitVec 7} (h : s.CanIssue [a]) (ha : ssrc32 a = true)
    (ht : s.setSpecial n.toNat (s.src32 a 0) = some t) : execWrsr n a s = .next ((t.past false).count s) :=
  issueFixed_eq (by rw [ha, ht]; rfl) h (by rw [ht]; rfl)

theorem execWrsr_illegal {s : State} {a : Src} {n : BitVec 7} (h : s.CanIssue [a])
    (ht : s.setSpecial n.toNat (s.src32 a 0) = none) : execWrsr n a s = .next s.illegal :=
  issueFixed_illegal h (by rw [ht, Option.isSome_none, Bool.and_false])

/-- The numbers that R23 and R166 leave unassigned. -/
theorem special_unassigned {s : State} {n : Nat} (h : 7 ≤ n ∧ n < 32 ∨ 40 ≤ n) : s.special n = none := by
  unfold State.special
  dsimp only
  split
  case h_16 => rfl
  all_goals omega

/-- What WRSR does not write: the read-only registers, and a handler register out of its mode or its range. -/
theorem setSpecial_none {s : State} {n : BitVec 7} {v : W32} (h6 : n ≠ 6)
    (h : ¬(s.inHandler = true ∧ (n = 0x21 ∨ n = 0x22 ∨ n = 0x26 ∨ n = 0x27 ∧ v.toNat % 32 < s.cg.slots.length))) :
    s.setSpecial n.toNat v = none := by
  have hn : ∀ k : BitVec 7, n.toNat = k.toNat → n = k := fun k e => BitVec.eq_of_toNat_eq e
  unfold State.setSpecial
  dsimp only
  split
  case h_1 e => exact absurd (hn 6 e) h6
  case h_2 e => exact if_neg fun hh => h ⟨hh, .inl (hn 0x21 e)⟩
  case h_3 e => exact if_neg fun hh => h ⟨hh, .inr (.inl (hn 0x22 e))⟩
  case h_4 e => exact if_neg fun hh => h ⟨hh, .inr (.inr (.inl (hn 0x26 e)))⟩
  case h_5 e =>
    refine if_neg fun hh => ?_
    obtain ⟨hh, hv⟩ := Bool.and_eq_true_iff.mp hh
    exact h ⟨hh, .inr (.inr (.inr ⟨hn 0x27 e, of_decide_eq_true hv⟩))⟩
  case h_6 => rfl

/-- A word that changes its group alone and moves past itself. -/
theorem pastWord_modCg (s : State) (f : Group → Group) :
    PastWord s (((s.modCg f).past false).count s) false ∧ (((s.modCg f).past false).count s).mem = s.mem ∧
      (((s.modCg f).past false).count s).cg = f s.cg := by
  have hcw : (((s.modCg f).past false).count s).cw =
      { s.cw.modPath (fun p => p.past false) with skid := s.cw.skid + if s.cg.phase = .halting then 1 else 0 } := by
    unfold State.count
    split
    · simp
    · simp; rfl
  refine ⟨⟨by rw [hcw], by rw [hcw]⟩, by simp, ?_⟩
  rw [State.cg, State.cgid, hcw]
  have hg : ∀ k, (((s.modCg f).past false).count s).group k = (s.modCg f).group k := fun k => by
    unfold State.count
    split <;> rfl
  exact (hg _).trans (s.group_modCg_self f)

/-- Settles O24: RDSR and WRSR reach each special register of R23 and R166 in the modes that may, and refuse the others. -/
theorem specialRegisterWords : Obligations.SpecialRegisterWords := by
  intro s h
  refine ⟨?_, ?_, fun d n hn => execRdsr_illegal h (special_unassigned hn), fun a ha hb => ⟨?_, ?_, ?_, ?_⟩⟩
  · intro e he d hd
    simp only [List.mem_cons, List.not_mem_nil, or_false] at he
    obtain rfl | rfl | rfl | rfl | rfl | rfl | rfl := he <;> exact execRdsr_completes h hd rfl
  · intro e he d hd
    have hread : s.inHandler = true → s.special e.1.toNat = some e.2 := fun hh => by
      simp only [List.mem_cons, List.not_mem_nil, or_false] at he
      obtain rfl | rfl | rfl | rfl | rfl | rfl | rfl | rfl := he <;> exact if_pos hh
    have hout : s.inHandler = false → s.special e.1.toNat = none := fun hh => by
      simp only [List.mem_cons, List.not_mem_nil, or_false] at he
      obtain rfl | rfl | rfl | rfl | rfl | rfl | rfl | rfl := he <;> exact if_neg (Bool.eq_false_iff.mp hh)
    exact ⟨fun hh => execRdsr_completes h hd (hread hh), fun hh => execRdsr_illegal h (hout hh)⟩
  · exact execWrsr_eq ⟨h.1, hb⟩ ha rfl
  · intro tr hh htr e he
    have hset : ∃ f : Group → Group, s.setSpecial e.1.toNat (s.src32 a 0) = some (s.modCg f) ∧
        f s.cg = { s.cg with trap := some { e.2 with redir := true, moved := true } } := by
      simp only [List.mem_cons, List.not_mem_nil, or_false] at he
      obtain rfl | rfl | rfl := he <;> exact ⟨_, if_pos hh, by rw [htr]; rfl⟩
    obtain ⟨f, hf, hcg⟩ := hset
    obtain ⟨hpast, hmem, hg⟩ := pastWord_modCg s f
    exact ⟨_, execWrsr_eq ⟨h.1, hb⟩ ha hf, hpast, hmem, hg.trans hcg⟩
  · intro hh hv
    obtain ⟨hpast, hmem, hg⟩ := pastWord_modCg s fun g => { g with skidsel := (s.src32 a 0).toNat % 32 }
    exact ⟨_, execWrsr_eq ⟨h.1, hb⟩ ha (if_pos (by rw [hh, decide_eq_true hv]; rfl)), hpast, hmem, hg⟩
  · exact fun n h6 hn => execWrsr_illegal ⟨h.1, hb⟩ (setSpecial_none h6 hn)

end Sys2Proof.Machine
end

