-- ==== Sys2Proof/Proofs/LineWrite.lean ====
section
/-! What a write under a key leaves: the bytes of memory as they read under that key (R239), and the bytes of a copy of a line. -/

set_option Elab.async false

namespace Sys2Proof.Machine

/-! Reads under a key depend on their cipher block alone. -/

theorem State.rawBlock_congr {s t : State} {b : Nat} (hm : ∀ x, x / 16 = b → Mem.get t.mem x = Mem.get s.mem x) :
    t.rawBlock b = s.rawBlock b := by
  refine List.foldl_ext _ _ _ fun v i hi => ?_
  rw [hm _ (by have := List.mem_range.mp hi; omega)]

theorem State.rdByte_congr {s t : State} {x : Nat} (key : Nat) (hk : t.lineKey.get (x / 16) 0 = s.lineKey.get (x / 16) 0)
    (hm : ∀ y, y / 16 = x / 16 → Mem.get t.mem y = Mem.get s.mem y) : t.rdByte x key = s.rdByte x key := by
  unfold State.rdByte
  rw [hk, hm x rfl, State.rawBlock_congr hm]

/-- A block that is held under a key reads under it as it stands. -/
theorem State.rdByte_held {s : State} {x key : Nat} (h : s.lineKey.get (x / 16) 0 = key + 1) : s.rdByte x key = Mem.get s.mem x :=
  if_pos (.inr (.inr h))

/-! A block is brought under a key. -/

theorem State.rekeyBlock_lineKey (s : State) {b : Nat} (hb : 16 * b < hostBase) (key j : Nat) :
    (s.rekeyBlock b key).lineKey.get j 0 = if j = b then key + 1 else s.lineKey.get j 0 := by
  unfold State.rekeyBlock
  dsimp only
  split
  · next h =>
    split
    · next hj => rw [hj]; exact h.resolve_left (Nat.not_le.mpr hb)
    · rfl
  · split <;> exact FMap.get_set ..

/-- Bytes put one after another from an address on. -/
theorem Mem.get_puts {m : List Host.Cell} (h : Memory.wf m = true) (a x : Nat) (b : Nat → Byte) (n : Nat) :
    Mem.get ((List.range n).foldl (fun m i => Mem.put m (a + i) (b i)) m) x = if a ≤ x ∧ x < a + n then b (x - a) else Mem.get m x := by
  induction n with
  | zero => exact (if_neg (by omega)).symm
  | succ n ih =>
    rw [List.range_succ, List.foldl_append, List.foldl_cons, List.foldl_nil,
      Mem.get_put _ _ _ (Mem.puts_wf _ (fun i => a + i) (fun _ i => b i) h), ih]
    by_cases hx : x = a + n
    · rw [if_pos hx, if_pos (by omega), hx, Nat.add_sub_cancel_left]
    · rw [if_neg hx]
      exact if_congr (by omega) rfl rfl

theorem State.rekeyBlock_get {s : State} (h : s.Inv) {b x : Nat} (hx : x / 16 ≠ b) (key : Nat) :
    Mem.get (s.rekeyBlock b key).mem x = Mem.get s.mem x := by
  have hp := Mem.get_puts h (16 * b) x (fun i => s.rdByte (16 * b + i) key) 16
  rw [if_neg (by omega)] at hp
  unfold State.rekeyBlock
  dsimp only
  revert hp
  generalize List.range 16 = l
  intro hp
  split
  · rfl
  · split
    · rfl
    · exact hp

theorem State.rekeyBlock_rdByte {s : State} (h : s.Inv) {b : Nat} (hb : 16 * b < hostBase) (key x : Nat) :
    (s.rekeyBlock b key).rdByte x key = s.rdByte x key := by
  by_cases hx : x / 16 = b
  · rw [State.rdByte_held (by rw [State.rekeyBlock_lineKey s hb, if_pos hx])]
    have hp := Mem.get_puts h (16 * b) x (fun i => s.rdByte (16 * b + i) key) 16
    rw [if_pos (by omega), show 16 * b + (x - 16 * b) = x by omega] at hp
    unfold State.rekeyBlock
    dsimp only
    revert hp
    generalize List.range 16 = l
    intro hp
    split
    · next hk => exact (State.rdByte_held (hx ▸ hk.resolve_left (Nat.not_le.mpr hb))).symm
    · split
      · next h0 => exact (if_pos (.inr (.inl (hx ▸ h0)))).symm
      · exact hp
  · exact State.rdByte_congr key (by rw [State.rekeyBlock_lineKey s hb, if_neg hx]) fun y hy =>
      State.rekeyBlock_get h (hy ▸ hx) key

/-! Several blocks. -/

theorem State.rekeyBlock_rest (s : State) (b key : Nat) : { s.rekeyBlock b key with mem := s.mem, lineKey := s.lineKey } = s := by
  unfold State.rekeyBlock
  dsimp only
  split
  · rfl
  · split <;> rfl

theorem State.rekey_rest (s : State) (pa n key : Nat) : { s.rekey pa n key with mem := s.mem, lineKey := s.lineKey } = s := by
  unfold State.rekey
  refine List.foldlRecOn (motive := fun (u : State) => ({ u with mem := s.mem, lineKey := s.lineKey } : State) = s) _ _ rfl fun u hu i _ => ?_
  have hr := u.rekeyBlock_rest (pa / 16 + i) key
  exact (congrArg (fun v => ({ v with mem := s.mem, lineKey := s.lineKey } : State)) hr).trans hu

/-- The blocks that `State.rekey` brings under a key. -/
theorem State.rekey_blocks {s : State} (h : s.Inv) {pa n : Nat} (key : Nat) (hpa : pa + n ≤ hostBase) :
    (∀ j, (s.rekey pa n key).lineKey.get j 0 =
      if pa / 16 ≤ j ∧ j < (pa + n + 15) / 16 then key + 1 else s.lineKey.get j 0) ∧
    (∀ x, ¬(pa / 16 ≤ x / 16 ∧ x / 16 < (pa + n + 15) / 16) → Mem.get (s.rekey pa n key).mem x = Mem.get s.mem x) ∧
    ∀ x, (s.rekey pa n key).rdByte x key = s.rdByte x key := by
  have key : ∀ k, 16 * (pa / 16 + k) < hostBase + 16 →
      let u := (List.range k).foldl (fun u i => u.rekeyBlock (pa / 16 + i) key) s
      u.Inv ∧ (∀ j, u.lineKey.get j 0 = if pa / 16 ≤ j ∧ j < pa / 16 + k then key + 1 else s.lineKey.get j 0) ∧
        (∀ x, ¬(pa / 16 ≤ x / 16 ∧ x / 16 < pa / 16 + k) → Mem.get u.mem x = Mem.get s.mem x) ∧ ∀ x, u.rdByte x key = s.rdByte x key := by
    intro k hk
    induction k with
    | zero => exact ⟨h, fun j => (if_neg (by omega)).symm, fun _ _ => rfl, fun _ => rfl⟩
    | succ k ih =>
      obtain ⟨hi, hkey, hget, hrd⟩ := ih (by omega)
      have hb : 16 * (pa / 16 + k) < hostBase := by omega
      rw [List.range_succ, List.foldl_append, List.foldl_cons, List.foldl_nil]
      refine ⟨State.rekeyBlock_inv hi _ _, fun j => ?_, fun x hx => ?_, fun x => ?_⟩
      · rw [State.rekeyBlock_lineKey _ hb, hkey]
        by_cases hj : j = pa / 16 + k
        · rw [if_pos hj, if_pos (by omega)]
        · rw [if_neg hj]
          exact if_congr (by omega) rfl rfl
      · rw [State.rekeyBlock_get hi (by omega), hget x (by omega)]
      · rw [State.rekeyBlock_rdByte hi hb, hrd]
  obtain ⟨-, hkey, hget, hrd⟩ := key ((pa + n + 15) / 16 - pa / 16) (by unfold hostBase at *; omega)
  have he : pa / 16 + ((pa + n + 15) / 16 - pa / 16) = (pa + n + 15) / 16 := by omega
  rw [he] at hkey hget
  exact ⟨hkey, hget, hrd⟩

/-! A write under a key. -/

@[simp] theorem State.wrKey_ops (s : State) (pa key n v : Nat) : (s.wrKey pa key n v).ops = s.ops :=
  (congrArg State.ops (s.rekey_rest pa n key) :)
@[simp] theorem State.wrKey_cores (s : State) (pa key n v : Nat) : (s.wrKey pa key n v).cores = s.cores :=
  (congrArg State.cores (s.rekey_rest pa n key) :)

/-- A state whose memory and keys are those that a write under a key leaves. -/
structure Written (s t : State) (pa key n v : Nat) : Prop where
  mem : t.mem = (s.wrKey pa key n v).mem
  lineKey : t.lineKey = (s.wrKey pa key n v).lineKey

theorem Written.lineWrite {s t : State} {pa key n v : Nat} (hw : Written s t pa key n v) (h : s.Inv) (hpa : pa < hostBase)
    (hn : pa % 128 + n ≤ 128) : LineWrite s t pa key n v := by
  have hb : pa + n ≤ hostBase := by unfold hostBase at *; omega
  obtain ⟨hkey, hget, hrd⟩ := State.rekey_blocks h key hb
  have hmem : ∀ x, Mem.get t.mem x =
      if pa ≤ x ∧ x < pa + n then BitVec.ofNat 8 (v / 256 ^ (x - pa)) else Mem.get (s.rekey pa n key).mem x := fun x => by
    rw [hw.mem]
    exact Mem.get_store _ _ _ _ (State.rekey_inv h _ _ _)
  have hlk : t.lineKey = (s.rekey pa n key).lineKey := hw.lineKey
  refine ⟨fun i hi => ?_, fun x hx ho => ?_, fun x hx => ?_⟩
  · rw [State.rdByte_held (by rw [hlk, hkey, if_pos (by omega)]), hmem, if_pos (by omega), Nat.add_sub_cancel_left]
  · rw [← hrd x]
    by_cases hin : pa / 16 ≤ x / 16 ∧ x / 16 < (pa + n + 15) / 16
    · have hk := (hkey (x / 16)).trans (if_pos hin)
      rw [State.rdByte_held (hlk ▸ hk), State.rdByte_held hk, hmem, if_neg (by omega)]
    · exact State.rdByte_congr key (by rw [hlk]) fun y hy => by rw [hmem, if_neg (by omega)]
  · rw [hmem, if_neg (by omega), hget x (by omega)]

/-! A copy of a line. -/

theorem lineBytes_testBit (d : BitVec 1024) {i j : Nat} (hj : j < 8) : (lineBytes d i 1).testBit j = d.getLsbD (8 * i + j) := by
  unfold lineBytes field
  rw [Nat.testBit_mod_two_pow, decide_eq_true (by omega : j < 8 * 1), Nat.testBit_div_two_pow, Bool.true_and, BitVec.getLsbD,
    Nat.add_comm]

theorem lineBytes_lt (d : BitVec 1024) (i : Nat) : lineBytes d i 1 < 2 ^ 8 := Nat.mod_lt _ (by decide)

/-- Bytes put into a copy. -/
theorem copyWrite_putBytes (old : BitVec 1024) {off n v : Nat} (hv : v < 2 ^ (8 * n)) :
    CopyWrite old (putBytes old off n v) off n v := by
  intro i hi
  refine Nat.eq_of_testBit_eq fun j => ?_
  by_cases hj : j < 8
  · have hp : 8 * i + j < 1024 := by omega
    rw [lineBytes_testBit _ hj]
    unfold putBytes
    rw [Nat.mod_eq_of_lt hv, BitVec.getLsbD_or, BitVec.getLsbD_and, BitVec.getLsbD_not, BitVec.getLsbD_ofNat, BitVec.getLsbD_ofNat,
      decide_eq_true hp, Nat.testBit_mul_two_pow, Nat.testBit_mul_two_pow, Nat.testBit_two_pow_sub_one]
    by_cases hin : off ≤ i ∧ i < off + n
    · have h256 : 256 ^ (i - off) = 2 ^ (8 * (i - off)) := by rw [Nat.pow_mul]
      rw [if_pos hin, show (256 : Nat) = 2 ^ 8 from rfl, ← Nat.pow_mul, Nat.testBit_mod_two_pow, Nat.testBit_div_two_pow,
        decide_eq_true hj, decide_eq_true (by omega : 8 * i + j ≥ 8 * off), decide_eq_true (by omega : 8 * i + j - 8 * off < 8 * n)]
      simp [show 8 * i + j - 8 * off = j + 8 * (i - off) by omega]
    · rw [if_neg hin, lineBytes_testBit _ hj]
      rcases Nat.lt_or_ge i off with hlo | hhi
      · simp [decide_eq_false (by omega : ¬8 * off ≤ 8 * i + j)]
      · have hz : v.testBit (8 * i + j - 8 * off) = false :=
          Nat.testBit_lt_two_pow (Nat.lt_of_lt_of_le hv (Nat.pow_le_pow_right (by decide) (by omega)))
        simp [hz, decide_eq_false (by omega : ¬8 * i + j - 8 * off < 8 * n)]
  · have hsmall : ∀ x < 2 ^ 8, Nat.testBit x j = false := fun x hx =>
      Nat.testBit_lt_two_pow (Nat.lt_of_lt_of_le hx (Nat.pow_le_pow_right (by decide) (by omega)))
    rw [hsmall _ (lineBytes_lt _ _)]
    split
    · exact (hsmall _ (Nat.mod_lt _ (by decide))).symm
    · exact (hsmall _ (lineBytes_lt _ _)).symm

end Sys2Proof.Machine
end

