-- ==== Sys2Proof/Proofs/OrderingPoint.lean ====
section
/-! Memory words after issue: one access at its ordering point, leases, held reads, acknowledgement and completion (R116 to R131,
R241 to R245). -/

set_option Elab.async false

namespace Sys2Proof.Machine

/-! What serving an access leaves: the operations in flight and the waves. -/

theorem State.core_congr {s t : State} (h : t.cores = s.cores) (c : Nat) : t.core c = s.core c := by rw [State.core, h, State.core]

theorem State.copy_congr {s t : State} (h : t.copies = s.copies) (line d : Nat) : t.copy line d = s.copy line d := by
  rw [State.copy, h, State.copy]

theorem State.backLine_rest (s : State) (line : Nat) (x : L1Line) : ({ s.backLine line x with mem := s.mem, lineKey := s.lineKey } : State) = s := by
  unfold State.backLine
  split
  · rfl
  · refine List.foldlRecOn (motive := fun (u : State) => ({ u with mem := s.mem, lineKey := s.lineKey } : State) = s) _ _ rfl fun u hu i _ => ?_
    split
    · exact (congrArg (fun v => ({ v with mem := s.mem, lineKey := s.lineKey } : State)) (u.rekey_rest _ 1 x.key)).trans hu
    · exact hu

@[simp] theorem State.backLine_ops (s : State) (line : Nat) (x : L1Line) : (s.backLine line x).ops = s.ops :=
  (congrArg State.ops (s.backLine_rest line x) :)
@[simp] theorem State.backLine_waves (s : State) (line : Nat) (x : L1Line) : (s.backLine line x).waves = s.waves :=
  (congrArg State.waves (s.backLine_rest line x) :)
@[simp] theorem State.backLine_core (s : State) (line : Nat) (x : L1Line) (c : Nat) : (s.backLine line x).core c = s.core c :=
  State.core_congr (congrArg State.cores (s.backLine_rest line x) :) c

@[simp] theorem State.l1Drop_ops (s : State) (core line : Nat) : (s.l1Drop core line).ops = s.ops := by
  unfold State.l1Drop
  split <;> simp
@[simp] theorem State.l1Drop_waves (s : State) (core line : Nat) : (s.l1Drop core line).waves = s.waves := by
  unfold State.l1Drop
  split <;> simp
@[simp] theorem State.l1Drop_leases (s : State) (core line : Nat) : ((s.l1Drop core line).core core).leases = (s.core core).leases := by
  unfold State.l1Drop
  split <;> simp

/-- A line enters the L1, after another has left it when it is full. -/
theorem State.l1Put_eq (s : State) (core line : Nat) (x : L1Line) : ∃ u : State,
    s.l1Put core line x = u.modCore core (fun c => { c with l1 := c.l1.set line x }) ∧ u.ops = s.ops ∧ u.waves = s.waves ∧
      (u.core core).leases = (s.core core).leases ∧
      ((s.core core).l1.has line = true ∨ (s.core core).l1.length < 2048 → u = s) := by
  unfold State.l1Put
  dsimp only
  refine ⟨_, rfl, ?_⟩
  split
  · exact ⟨rfl, rfl, rfl, fun _ => rfl⟩
  · next h =>
    split
    · exact ⟨s.l1Drop_ops _ _, s.l1Drop_waves _ _, s.l1Drop_leases _ _, fun h' => absurd h' h⟩
    · exact ⟨rfl, rfl, rfl, fun h' => absurd h' h⟩

@[simp] theorem State.l1Put_ops (s : State) (core line : Nat) (x : L1Line) : (s.l1Put core line x).ops = s.ops := by
  obtain ⟨u, hu, ho, -⟩ := s.l1Put_eq core line x
  exact hu ▸ ho
@[simp] theorem State.l1Put_waves (s : State) (core line : Nat) (x : L1Line) : (s.l1Put core line x).waves = s.waves := by
  obtain ⟨u, hu, -, hw, -⟩ := s.l1Put_eq core line x
  exact hu ▸ hw
@[simp] theorem State.l1Put_leases (s : State) (core line : Nat) (x : L1Line) :
    ((s.l1Put core line x).core core).leases = (s.core core).leases := by
  obtain ⟨u, hu, -, -, hl, -⟩ := s.l1Put_eq core line x
  rw [hu, State.core_modCore_self]
  exact hl
theorem State.l1Put_l1 (s : State) (core line : Nat) (x : L1Line) : ∃ m : FMap L1Line, ((s.l1Put core line x).core core).l1 = m.set line x := by
  obtain ⟨u, hu, -⟩ := s.l1Put_eq core line x
  rw [hu, State.core_modCore_self]
  exact ⟨_, rfl⟩

@[simp] theorem State.privFill_ops (s : State) (core leaf pa : Nat) : (s.privFill core leaf pa).ops = s.ops := by
  unfold State.privFill
  dsimp only
  split <;> simp
@[simp] theorem State.privFill_waves (s : State) (core leaf pa : Nat) : (s.privFill core leaf pa).waves = s.waves := by
  unfold State.privFill
  dsimp only
  split <;> simp

/-- A hint changes the priorities of a slice alone. -/
theorem State.hinted_rest (s : State) (ctx core leaf pa hint : Nat) : ({ s.hinted ctx core leaf pa hint with dies := s.dies } : State) = s := by
  unfold State.hinted State.hintAt
  split <;> rfl

@[simp] theorem State.hinted_ops (s : State) (ctx core leaf pa hint : Nat) : (s.hinted ctx core leaf pa hint).ops = s.ops :=
  (congrArg State.ops (s.hinted_rest ctx core leaf pa hint) :)
@[simp] theorem State.hinted_waves (s : State) (ctx core leaf pa hint : Nat) : (s.hinted ctx core leaf pa hint).waves = s.waves :=
  (congrArg State.waves (s.hinted_rest ctx core leaf pa hint) :)
@[simp] theorem State.hinted_cores (s : State) (ctx core leaf pa hint : Nat) : (s.hinted ctx core leaf pa hint).cores = s.cores :=
  (congrArg State.cores (s.hinted_rest ctx core leaf pa hint) :)
@[simp] theorem State.hinted_copy (s : State) (ctx core leaf pa hint line d : Nat) :
    (s.hinted ctx core leaf pa hint).copy line d = s.copy line d :=
  State.copy_congr (congrArg State.copies (s.hinted_rest ctx core leaf pa hint) :) line d
@[simp] theorem State.hinted_lineKey (s : State) (ctx core leaf pa hint : Nat) : (s.hinted ctx core leaf pa hint).lineKey = s.lineKey :=
  (congrArg State.lineKey (s.hinted_rest ctx core leaf pa hint) :)

theorem State.l1Hit_rest (s : State) (core pa n v : Nat) : ({ s.l1Hit core pa n v with cores := s.cores } : State) = s := by
  unfold State.l1Hit
  split <;> rfl

@[simp] theorem State.l1Hit_ops (s : State) (core pa n v : Nat) : (s.l1Hit core pa n v).ops = s.ops :=
  (congrArg State.ops (s.l1Hit_rest core pa n v) :)
@[simp] theorem State.l1Hit_copy (s : State) (core pa n v line d : Nat) : (s.l1Hit core pa n v).copy line d = s.copy line d :=
  State.copy_congr (congrArg State.copies (s.l1Hit_rest core pa n v) :) line d
@[simp] theorem State.l1Hit_lineKey (s : State) (core pa n v : Nat) : (s.l1Hit core pa n v).lineKey = s.lineKey :=
  (congrArg State.lineKey (s.l1Hit_rest core pa n v) :)

/-- A use of a version line changes its record and the next stamp. -/
theorem State.usedLine_kept (s : State) (pa : Nat) : (s.usedLine pa).ops = s.ops ∧ (s.usedLine pa).waves = s.waves := by
  unfold State.usedLine State.useLine
  split <;> exact ⟨rfl, rfl⟩

/-- A load at its ordering point leaves the operations and the waves. -/
theorem State.loadAt_kept {s u : State} {ctx core leaf pa n hint v : Nat} {fill : Bool}
    (h : s.loadAt ctx core leaf pa n hint fill = .ok u v) : u.ops = s.ops ∧ u.waves = s.waves := by
  unfold State.loadAt at h
  dsimp only at h
  split at h
  · cases h; exact ⟨rfl, rfl⟩
  split at h
  · cases h
  split at h
  · split at h
    · cases h; exact s.usedLine_kept pa
    · cases h
  split at h
  · cases h; simp
  split at h
  · cases h; exact ⟨rfl, rfl⟩
  split at h
  · cases h
  split at h
  · cases h
  · cases h
    split <;> simp

@[simp] theorem State.touch_ops (s : State) (line : Nat) : (s.touch line).ops = s.ops := rfl
@[simp] theorem State.touch_copy (s : State) (line k d : Nat) : (s.touch line).copy k d = s.copy k d := rfl
@[simp] theorem State.modCopy_ops (s : State) (line d : Nat) (f : Copy → Copy) : (s.modCopy line d f).ops = s.ops := rfl
@[simp] theorem State.touch_core (s : State) (line c : Nat) : (s.touch line).core c = s.core c := rfl

theorem State.copy_modCopy_self (s : State) (line d : Nat) (f : Copy → Copy) : (s.modCopy line d f).copy line d = f (s.copy line d) := by
  unfold State.modCopy State.copy
  dsimp only
  split
  · next h => rw [FMap.get_del, if_pos rfl, h]
  · exact FMap.get_set_self ..

/-! A word with one access. -/

theorem State.opAt_congr {s t : State} (h : t.ops = s.ops) (k : Nat) : t.opAt k = s.opAt k := by rw [State.opAt, h, State.opAt]

/-- A word that raises a flag is not over before its flag falls (R30). -/
theorem State.overOp_of_flag {s : State} {id : Nat} {o : MemOp} (h : s.opAt id = some o) (hf : o.flag < 12) : s.overOp id = s := by
  unfold State.overOp
  rw [h]
  exact if_neg fun hc => by omega

/-- A word whose one access is ready at its ordering point. -/
structure OneAccess (s : State) (id : Nat) (o : MemOp) (a : Acc) : Prop where
  op : s.opAt id = some o
  accs : o.accs = [a]
  ready : s.accReady o a = true

namespace OneAccess

variable {s : State} {id : Nat} {o : MemOp} {a : Acc}

theorem pend (h : OneAccess s id o a) : a.st = .pend := by
  have hr := h.ready
  unfold State.accReady at hr
  simp only [Bool.and_eq_true, beq_iff_eq] at hr
  exact hr.1.1.1.1.1

theorem atAddr (h : OneAccess s id o a) : o.atAddr a = [a] := by simp [MemOp.atAddr, h.accs, h.pend]

theorem all_ready (h : OneAccess s id o a) : (o.atAddr a).all (fun x => s.accReady o x) = true := by simp [h.atAddr, h.ready]

theorem lastAt (h : OneAccess s id o a) : o.lastAt a = a.data.toNat := by simp [MemOp.lastAt, h.atAddr]

theorem find (h : OneAccess s id o a) : (o.accs.find? fun x => x.lane == a.lane) = some a := by simp [h.accs]

/-- The word after its access has changed. -/
theorem opAt_modAccs (h : OneAccess s id o a) {u : State} (hu : u.ops = s.ops) {p : Acc → Bool} (hp : p a = true) (f : Acc → Acc) :
    (u.modAccs id p f).opAt id = some { o with accs := [f a] } := by
  rw [State.opAt_modAccs, State.opAt_congr hu, h.op]
  simp [h.accs, hp]

theorem opAt_modAccs_ne {u : State} (hu : u.ops = s.ops) (p : Acc → Bool) (f : Acc → Acc) {k : Nat} (hk : k ≠ id) :
    (u.modAccs id p f).opAt k = s.opAt k := by
  rw [State.opAt_modAccs, State.opAt_congr hu]
  simp [hk]

end OneAccess

/-! Loads. -/

/-- A load of one access that no L1 serves takes the value of its ordering point. -/
theorem State.loadStep_ok {s : State} {id : Nat} {o : MemOp} {a : Acc} (h : OneAccess s id o a) {u : State} {v flit : Nat}
    (hl : s.loadAt o.ctx o.core a.leaf.toNat a.pa o.size o.hint (o.hint != 3) = .ok u v) : ∃ f, s.loadStep o a false flit =
      u.modAccs id (fun x => x.st == .pend && x.pa == a.pa) fun x => { x with st := .perf, data := BitVec.ofNat 256 v, flit := f } := by
  have hid := State.opAt_id h.op
  unfold State.loadStep
  rw [h.all_ready, hl, hid]
  exact ⟨_, rfl⟩

/-- What a load that its ordering point serves leaves. -/
theorem State.loadStep_opAt {s : State} {id : Nat} {o : MemOp} {a : Acc} (h : OneAccess s id o a) {u : State} {v flit : Nat}
    (hl : s.loadAt o.ctx o.core a.leaf.toNat a.pa o.size o.hint (o.hint != 3) = .ok u v) :
    ∃ f, (s.loadStep o a false flit).waves = s.waves ∧
      (s.loadStep o a false flit).opAt id = some { o with accs := [{ a with st := .perf, data := BitVec.ofNat 256 v, flit := f }] } ∧
      ∀ k, k ≠ id → (s.loadStep o a false flit).opAt k = s.opAt k := by
  obtain ⟨f, hf⟩ := State.loadStep_ok (flit := flit) h hl
  obtain ⟨hops, hwaves⟩ := State.loadAt_kept hl
  rw [hf]
  exact ⟨f, hwaves, h.opAt_modAccs hops (by simp [h.pend]) _, fun k hk => OneAccess.opAt_modAccs_ne hops _ _ hk⟩

/-- Places of the package's own memory are reached by no packet of the fabric. -/
theorem State.fabPacket_device {s : State} {pa : Nat} (h : pa < hostBase) : s.fabPacket pa = s :=
  if_neg (by unfold hostBase at h; unfold fabBase; omega)

theorem isHost_device {pa : Nat} (h : pa < hostBase) : isHost pa = false := by
  unfold isHost
  rw [decide_eq_false (by omega), Bool.false_and]

theorem State.sendHeld_nil {s : State} {d line : Nat} (h : s.heldOn d line = []) : s.sendHeld d line = s := by
  unfold State.sendHeld
  rw [h]

/-- An access to the package's own memory at its ordering point, by the kind of its word. -/
theorem OneAccess.exec_device {s : State} {id : Nat} {o : MemOp} {a : Acc} (h : OneAccess s id o a) (hpa : a.pa < hostBase) :
    (o.kind = .load → s.l1Serves o a = false → s.mayHold o a = false →
      (s.die (dieOf o.core)).heldReads.contains (holdId id a.lane) = false → s.heldOn (dieOf o.core) (a.pa / 128) = [] →
      exec (.orderingPointAccess id a.lane) s = .next (s.loadStep o a false (1 + holdId id a.lane))) ∧
    (o.kind = .store → exec (.orderingPointAccess id a.lane) s = .next (s.storeStep o a)) ∧
    (o.kind = .atom → exec (.orderingPointAccess id a.lane) s = .next (s.atomStep o a)) ∧
    (o.kind = .spld ∨ o.kind = .spst → s.groups.has o.gid = true → exec (.orderingPointAccess id a.lane) s = .next (s.spStep o a)) := by
  have hexec : exec (.orderingPointAccess id a.lane) s = execOrderingPointAccess id a.lane s := rfl
  unfold execOrderingPointAccess at hexec
  rw [h.op] at hexec
  dsimp only at hexec
  rw [h.find] at hexec
  dsimp only at hexec
  rw [h.ready, State.fabPacket_device hpa, isHost_device hpa] at hexec
  rw [hexec]
  refine ⟨fun hk h1 hh hr hn => ?_, fun hk => ?_, fun hk => ?_, fun hk hg => ?_⟩
  · have hend : s.endHolds o a = s := by
      unfold State.endHolds
      rw [hn]
      rfl
    simp only [hk, h1, hh, hr, hend, Bool.not_true, Bool.false_eq_true, if_false, Bool.or_self, Bool.false_and]
  · simp [hk]
  · simp [hk]
  · obtain hk | hk := hk <;> simp [hk, hg]

/-! Stores. -/

section
variable {s : State} {o : MemOp} {a : Acc} {n v : Nat}

theorem State.storeAt_uncached (hctl : isCtl a.pa = false) (hcc : leafCC a.leaf.toNat = 3) :
    s.storeAt o a n v = some (s.wrKey a.pa (s.keyId a.pa (leafKey a.leaf.toNat)) n v, false) := by
  simp [State.storeAt, hctl, hcc]

theorem State.storeAt_ownPage (hctl : isCtl a.pa = false) (hcc : leafCC a.leaf.toNat = 2) :
    s.storeAt o a n v = some (s.privPut o.core a.leaf.toNat a.pa n v, true) := by
  simp [State.storeAt, hctl, hcc]

theorem State.storeAt_coherent (hctl : isCtl a.pa = false) (hcc : leafCC a.leaf.toNat < 2) (hl : s.leaseOk o.core (a.pa / 128) = true)
    {u : State} (hp : s.perform o.core a.leaf.toNat a.pa n v = some u) : s.storeAt o a n v =
      some ((u.hinted o.ctx o.core a.leaf.toNat a.pa o.hint).l1Hit o.core a.pa n v, s.leasedBy (a.pa / 128) == some o.core) := by
  have h2 : leafCC a.leaf.toNat ≠ 2 := by omega
  have h3 : leafCC a.leaf.toNat ≠ 3 := by omega
  simp [State.storeAt, hctl, h2, h3, hl, hp]

end

/-- A page that no directory keeps is under none. -/
theorem underDir_of_ne {leaf pa : Nat} (h : leafCC leaf ≠ 1) : underDir leaf pa = false := by
  unfold underDir
  rw [beq_eq_false_iff_ne.mpr h, Bool.false_and, Bool.false_and]

theorem State.perform_memory {s : State} {core leaf pa : Nat} (n v : Nat) (h : underDir leaf pa = true →
      s.dirWrites (pa / 128) (dieOf core) (s.keyId pa (leafKey leaf)) = true ∧ s.holds (pa / 128) (dieOf core) (s.keyId pa (leafKey leaf)) = false) :
    s.perform core leaf pa n v = some (s.wrKey pa (s.keyId pa (leafKey leaf)) n v) := by
  unfold State.perform
  dsimp only
  split
  · next hd => simp [h hd]
  · rfl

theorem underDir_device {leaf pa : Nat} (hcc : leafCC leaf = 1) (hpa : pa < hostBase) (hctl : isCtl pa = false) : underDir leaf pa = true := by
  simp [underDir, hcc, hpa, hctl]

theorem State.perform_copy {s : State} {core leaf pa : Nat} (n v : Nat) (hd : underDir leaf pa = true)
    (hw : s.dirWrites (pa / 128) (dieOf core) (s.keyId pa (leafKey leaf)) = true)
    (hh : s.holds (pa / 128) (dieOf core) (s.keyId pa (leafKey leaf)) = true) : s.perform core leaf pa n v =
      some ((s.modCopy (pa / 128) (dieOf core) fun c => { c with st := .mo, data := putBytes c.data (pa % 128) n v }).touch (pa / 128)) := by
  simp [State.perform, hd, hw, hh]

/-- The hint and the L1's copy add nothing to what a write leaves in memory. -/
theorem State.written_hinted (s : State) (ctx core leaf pa hint key n v : Nat) :
    Written s (((s.wrKey pa key n v).hinted ctx core leaf pa hint).l1Hit core pa n v) pa key n v :=
  ⟨by simp, by simp⟩

/-- A store or an atomic on a page that no directory keeps leaves the memory of a write under the page's key. -/
theorem State.storeAt_memory {s : State} {o : MemOp} {a : Acc} (n v : Nat) (hctl : isCtl a.pa = false)
    (hcc : leafCC a.leaf.toNat = 3 ∨ leafCC a.leaf.toNat = 0 ∧ s.leaseOk o.core (a.pa / 128) = true) :
    ∃ t b, s.storeAt o a n v = some (t, b) ∧ (b = true ↔ leafCC a.leaf.toNat = 0 ∧ s.leasedBy (a.pa / 128) = some o.core) ∧
      t.ops = s.ops ∧ Written s t a.pa (s.keyId a.pa (leafKey a.leaf.toNat)) n v := by
  obtain hc | ⟨hc, hl⟩ := hcc
  · exact ⟨_, _, State.storeAt_uncached hctl hc, by simp [hc], by simp, rfl, rfl⟩
  · have hp := s.perform_memory (core := o.core) (leaf := a.leaf.toNat) (pa := a.pa) n v fun hd => absurd hd (by simp [underDir_of_ne, hc])
    exact ⟨_, _, State.storeAt_coherent hctl (by omega) hl hp, by simp [hc], by simp, s.written_hinted ..⟩

/-- The store of a word with one access, once its slice may write the line. -/
theorem OneAccess.storeStep_eq {s t : State} {id : Nat} {o : MemOp} {a : Acc} {b : Bool} (h : OneAccess s id o a) (hf : o.flag < 12)
    (hd : underDir a.leaf.toNat a.pa = true → s.dirWrites (a.pa / 128) (dieOf o.core) (s.keyId a.pa (leafKey a.leaf.toNat)) = true)
    (hp : s.poison.has (a.pa / 128) = false) (hn : s.heldOn (servingDie o.core a.leaf.toNat a.pa) (a.pa / 128) = [])
    (hst : s.storeAt o a o.size (a.data.toNat % 2 ^ (8 * o.size)) = some (t, b)) (ht : t.ops = s.ops) :
    s.storeStep o a =
      t.modAccs id (fun x => x.st == .pend && x.pa == a.pa) fun x => { x with st := if b then .done else .perf } := by
  have hdir : (underDir a.leaf.toNat a.pa && !s.dirWrites (a.pa / 128) (dieOf o.core) (s.keyId a.pa (leafKey a.leaf.toNat))) = false := by
    cases hu : underDir a.leaf.toNat a.pa
    · rfl
    · rw [hd hu]; rfl
  have hone : s.storeOne o.id a =
      t.modAccs id (fun x => x.st == .pend && x.pa == a.pa) fun x => { x with st := if b then .done else .perf } := by
    unfold State.storeOne
    rw [State.opAt_id h.op, h.op]
    dsimp only
    rw [h.lastAt, hst]
  unfold State.storeStep
  simp only [h.all_ready, hdir, State.sendHeld_nil hn, hp, ite_self, hone, List.isEmpty_nil, Bool.not_true, Bool.false_eq_true, if_false, if_true]
  rw [State.opAt_id h.op]
  exact State.overOp_of_flag (h.opAt_modAccs ht (by simp [h.pend]) _) hf

/-- What a store of a word with one access leaves: the access performed or complete, and what the write left. -/
theorem OneAccess.exec_store {s t : State} {id : Nat} {o : MemOp} {a : Acc} {b : Bool} (h : OneAccess s id o a) (hk : o.kind = .store)
    (hpa : a.pa < hostBase) (hf : o.flag < 12)
    (hd : underDir a.leaf.toNat a.pa = true → s.dirWrites (a.pa / 128) (dieOf o.core) (s.keyId a.pa (leafKey a.leaf.toNat)) = true)
    (hp : s.poison.has (a.pa / 128) = false) (hn : s.heldOn (servingDie o.core a.leaf.toNat a.pa) (a.pa / 128) = [])
    (hst : s.storeAt o a o.size (a.data.toNat % 2 ^ (8 * o.size)) = some (t, b)) (ht : t.ops = s.ops) :
    ∃ u, exec (.orderingPointAccess id a.lane) s = .next u ∧
      u.opAt id = some { o with accs := [{ a with st := if b then .done else .perf }] } ∧ ({ u with ops := t.ops } : State) = t := by
  refine ⟨_, (h.exec_device hpa).2.1 hk, ?_⟩
  rw [h.storeStep_eq hf hd hp hn hst ht]
  exact ⟨h.opAt_modAccs ht (by simp [h.pend]) _, rfl⟩

/-- Bytes put into a line of the core's own page (R241), which the L1 holds or takes in without a write-back. -/
theorem State.privPut_kept {s : State} {core leaf pa n v : Nat} (hv : v < 2 ^ (8 * n))
    (hl : (s.core core).l1.has (pa / 128) = true ∨ (s.core core).l1.length < 2048) :
    (s.privPut core leaf pa n v).ops = s.ops ∧ (s.privPut core leaf pa n v).mem = s.mem ∧
      CopyWrite (if (s.core core).l1.has (pa / 128) then ((s.core core).l1.get (pa / 128) {}).data
          else BitVec.ofNat 1024 (s.rdKey (128 * (pa / 128)) (s.keyId pa (leafKey leaf)) 128))
        (((s.privPut core leaf pa n v).core core).l1.get (pa / 128) {}).data (pa % 128) n v := by
  have hfill : (s.privFill core leaf pa).mem = s.mem ∧ (((s.privFill core leaf pa).core core).l1.get (pa / 128) {}).data =
      if (s.core core).l1.has (pa / 128) then ((s.core core).l1.get (pa / 128) {}).data
          else BitVec.ofNat 1024 (s.rdKey (128 * (pa / 128)) (s.keyId pa (leafKey leaf)) 128) := by
    unfold State.privFill
    dsimp only
    split
    · exact ⟨rfl, rfl⟩
    · obtain ⟨u, hu, -, -, -, hs⟩ := s.l1Put_eq core (pa / 128)
        { data := BitVec.ofNat 1024 (s.rdKey (128 * (pa / 128)) (s.keyId pa (leafKey leaf)) 128), priv := true, key := s.keyId pa (leafKey leaf) }
      rw [hu, hs hl]
      simp
  obtain ⟨hmem, hdata⟩ := hfill
  refine ⟨s.privFill_ops .., hmem, ?_⟩
  rw [← hdata]
  unfold State.privPut
  dsimp only
  simp only [State.touch_core, State.core_modCore_self, FMap.get_upd_self]
  exact copyWrite_putBytes _ hv

end Sys2Proof.Machine
end

