-- ==== Sys2Proof/Proofs/Delivery.lean ====
section
/-! The scratchpad's bytes (R129), and the registers that a word which has completed writes (R33). -/

set_option Elab.async false

namespace Sys2Proof.Machine

/-! The scratchpad. -/

theorem Group.spPut_seed (g : Group) (a n v : Nat) : (g.spPut a n v).seed = g.seed := by
  induction n generalizing g a v with
  | zero => rfl
  | succ n ih => exact ih ..

theorem Group.spPut_scratch (g : Group) (a n v y : Nat) (d : Byte) :
    (g.spPut a n v).scratch.get y d = if a ≤ y ∧ y < a + n then BitVec.ofNat 8 (v / 256 ^ (y - a)) else g.scratch.get y d := by
  induction n generalizing g a v with
  | zero => exact (if_neg (by omega)).symm
  | succ n ih =>
    rw [Group.spPut, ih, FMap.get_set]
    by_cases hy : y = a
    · rw [if_neg (by omega), if_pos hy, if_pos (by omega), hy, Nat.sub_self, Nat.pow_zero, Nat.div_one]
    · rw [if_neg hy]
      by_cases hin : a + 1 ≤ y ∧ y < a + 1 + n
      · rw [if_pos hin, if_pos (by omega), show y - a = y - (a + 1) + 1 by omega, Nat.pow_succ', Nat.div_div_eq_div_mul]
      · rw [if_neg hin, if_neg (by omega)]

theorem Group.spGet_bytes {g : Group} {a n v : Nat} (h : ∀ i < n, ∀ d, g.scratch.get (a + i) d = BitVec.ofNat 8 (v / 256 ^ i)) :
    g.spGet a n = v % 256 ^ n := by
  induction n generalizing a v with
  | zero => exact (Nat.mod_one v).symm
  | succ n ih =>
    have hrest := ih (a := a + 1) (v := v / 256) fun i hi d => by
      rw [show a + 1 + i = a + (i + 1) by omega, h (i + 1) (by omega), Nat.pow_succ', Nat.div_div_eq_div_mul]
    have h0 := h 0 (by omega)
    rw [Nat.add_zero, Nat.pow_zero, Nat.div_one] at h0
    rw [Group.spGet, hrest, h0, BitVec.toNat_ofNat, show 256 ^ (n + 1) = 256 * 256 ^ n from Nat.pow_succ']
    exact Nat.mod_mul.symm

theorem Group.spGet_spPut (g : Group) (a n v : Nat) : (g.spPut a n v).spGet a n = v % 256 ^ n :=
  Group.spGet_bytes fun i hi d => by rw [g.spPut_scratch, if_pos (by omega), Nat.add_sub_cancel_left]

theorem Group.spGet_spPut_ne (g : Group) {a n y : Nat} (v : Nat) (h : y < a ∨ a + n ≤ y) : (g.spPut a n v).spGet y 1 = g.spGet y 1 := by
  rw [Group.spGet, Group.spGet, g.spPut_scratch, g.spPut_seed, if_neg (by omega)]
  rfl

/-! Registers. -/

/-- A flag falls by one (R30). -/
theorem Wave.lower_flags (w : Wave) (f k : Nat) : (w.lower f).flags.get k 0 = w.flags.get k 0 - if k = f ∧ k < 12 then 1 else 0 := by
  unfold Wave.lower
  by_cases hf : f < 12
  · rw [if_pos hf]
    dsimp only
    rw [FMap.get_upd]
    by_cases hk : k = f
    · rw [if_pos hk, if_pos ⟨hk, hk ▸ hf⟩, hk]
    · rw [if_neg hk, if_neg fun h : k = f ∧ k < 12 => hk h.1, Nat.sub_zero]
  · rw [if_neg hf, if_neg fun h : k = f ∧ k < 12 => hf (h.1 ▸ h.2), Nat.sub_zero]

@[simp] theorem Wave.lower_main (w : Wave) (f : Nat) : (w.lower f).main = w.main := by
  unfold Wave.lower
  split <;> rfl

@[simp] theorem MemOp.deliver_flags (o : MemOp) (a : Acc) (i : Nat) (w : Wave) : (o.deliver a i w).flags = w.flags := by
  unfold MemOp.deliver Wave.setReg
  dsimp only
  split
  · rfl
  · split <;> rfl

theorem MemOp.deliver_main {o : MemOp} (hs : o.sca = false) (ho : o.opfile = false) (a : Acc) (i : Nat) (w : Wave) :
    (o.deliver a i w).main = w.main.set (32 * (o.reg + i) + a.lane) ((o.value a).extractLsb' (32 * i) 32) := by
  unfold MemOp.deliver Wave.setReg
  rw [hs, ho]
  rfl

theorem MemOp.deliverAll_flags (o : MemOp) (w : Wave) : (o.deliverAll w).flags = w.flags := by
  refine List.foldlRecOn (motive := fun v : Wave => v.flags = w.flags) _ _ rfl fun v hv a _ => ?_
  split
  · refine List.foldlRecOn (motive := fun u : Wave => u.flags = w.flags) _ _ hv fun u hu i _ => ?_
    split
    · exact hu
    · exact (o.deliver_flags a i u).trans hu
  · exact hv

section
variable {o : MemOp} (hs : o.sca = false) (ho : o.opfile = false)
include hs ho

/-- The registers of one lane: each has its word of the value, and those of the other lanes stand. -/
theorem MemOp.deliver_lane {a : Acc} (hg : a.gone = 0) (hl : a.lane < 32) (n : Nat) (w : Wave) :
    let u := (List.range n).foldl (fun u i => if a.gone.getLsbD i then u else o.deliver a i u) w
    (∀ i < n, u.main.get (32 * (o.reg + i) + a.lane) 0 = (o.value a).extractLsb' (32 * i) 32) ∧
      ∀ k, k % 32 ≠ a.lane → u.main.get k 0 = w.main.get k 0 := by
  induction n with
  | zero => exact ⟨fun i hi => absurd hi (by omega), fun _ _ => rfl⟩
  | succ n ih =>
    obtain ⟨hin, hout⟩ := ih
    dsimp only at hin hout ⊢
    rw [List.range_succ, List.foldl_append, List.foldl_cons, List.foldl_nil, if_neg (by simp [hg]), MemOp.deliver_main hs ho]
    refine ⟨fun i hi => ?_, fun k hk => ?_⟩
    · rw [FMap.get_set]
      by_cases hin' : i = n
      · rw [hin', if_pos rfl]
      · rw [if_neg (by omega), hin i (by omega)]
    · rw [FMap.get_set_ne _ _ _ _ _ (by omega), hout k hk]

/-- The registers of the lanes of a list, each lane once. -/
theorem MemOp.deliver_lanes {l : List Acc} (hl : ∀ a ∈ l, a.gone = 0 ∧ a.lane < 32) (hd : (l.map (·.lane)).Nodup) (w : Wave) :
    let u := l.foldl
      (fun v a => if o.hasData a then (List.range o.nregs).foldl (fun u i => if a.gone.getLsbD i then u else o.deliver a i u) v else v) w
    (∀ a ∈ l, o.hasData a = true → ∀ i < o.nregs, u.main.get (32 * (o.reg + i) + a.lane) 0 = (o.value a).extractLsb' (32 * i) 32) ∧
      ∀ k, (∀ a ∈ l, k % 32 ≠ a.lane) → u.main.get k 0 = w.main.get k 0 := by
  induction l generalizing w with
  | nil => exact ⟨fun _ ha => absurd ha List.not_mem_nil, fun _ _ => rfl⟩
  | cons b l ih =>
    obtain ⟨hgone, hlane⟩ := hl b List.mem_cons_self
    obtain ⟨hb, hd⟩ := List.nodup_cons.mp hd
    have hfirst := MemOp.deliver_lane hs ho hgone hlane o.nregs w
    obtain ⟨hin, hout⟩ := ih (fun a ha => hl a (List.mem_cons_of_mem _ ha)) hd
      (if o.hasData b then (List.range o.nregs).foldl (fun u i => if b.gone.getLsbD i then u else o.deliver b i u) w else w)
    dsimp only at hfirst hin hout ⊢
    rw [List.foldl_cons]
    refine ⟨fun a ha hdata i hi => ?_, fun k hk => ?_⟩
    · obtain rfl | ha := List.mem_cons.mp ha
      · rw [hout _ fun c hc => by
          have hne : c.lane ≠ a.lane := fun e => hb (List.mem_map.mpr ⟨c, hc, e⟩)
          omega, if_pos hdata]
        exact hfirst.1 i hi
      · exact hin a ha hdata i hi
    · rw [hout k fun a ha => hk a (List.mem_cons_of_mem _ ha)]
      split
      · exact hfirst.2 k (hk b List.mem_cons_self)
      · rfl

end

end Sys2Proof.Machine
end

