-- ==== Sys2Proof/Proofs/MemoryEvents.lean ====
section
/-! Stores, atomics and the scratchpad at their ordering point, leases, held reads and completion: O44. -/

set_option Elab.async false

namespace Sys2Proof.Machine

theorem store_value_lt (a : Acc) (n : Nat) : a.data.toNat % 2 ^ (8 * n) < 2 ^ (8 * n) := Nat.mod_lt _ (Nat.two_pow_pos _)

section
variable {s : State} {id : Nat} {o : MemOp} {a : Acc}

/-- A store of one access on a page that no directory keeps. -/
theorem store_memory (h : OneAccess s id o a) (hi : s.Inv) (hk : o.kind = .store) (hf : o.flag < 12) (hpa : a.pa < hostBase)
    (hctl : isCtl a.pa = false) (hp : s.poison.has (a.pa / 128) = false)
    (hn : s.heldOn (servingDie o.core a.leaf.toNat a.pa) (a.pa / 128) = []) (hsz : a.pa % 128 + o.size ≤ 128)
    (hcc : leafCC a.leaf.toNat = 3 ∨ leafCC a.leaf.toNat = 0 ∧ s.leaseOk o.core (a.pa / 128) = true) :
    ∃ t, exec (.orderingPointAccess id a.lane) s = .next t ∧
      t.opAt id = some { o with accs := [{ a with
        st := if leafCC a.leaf.toNat = 0 ∧ s.leasedBy (a.pa / 128) = some o.core then .done else .perf }] } ∧
      LineWrite s t a.pa (s.keyId a.pa (leafKey a.leaf.toNat)) o.size (a.data.toNat % 2 ^ (8 * o.size)) := by
  obtain ⟨u, b, hst, hb, hops, hw⟩ := State.storeAt_memory o.size (a.data.toNat % 2 ^ (8 * o.size)) hctl hcc
  obtain ⟨t, ht, hop, hrest⟩ := h.exec_store hk hpa hf (fun hd => absurd hd (by rw [underDir_of_ne (by omega)]; decide)) hp hn hst hops
  have hw' : Written s t a.pa _ o.size _ := ⟨(congrArg State.mem hrest :).trans hw.mem, (congrArg State.lineKey hrest :).trans hw.lineKey⟩
  refine ⟨t, ht, ?_, hw'.lineWrite hi hpa hsz⟩
  rw [hop]
  simp only [hb]

/-- A store of one access on a page of the core alone (R241), whose line the L1 holds or has room for. -/
theorem store_ownPage (h : OneAccess s id o a) (hk : o.kind = .store) (hf : o.flag < 12) (hpa : a.pa < hostBase)
    (hctl : isCtl a.pa = false) (hp : s.poison.has (a.pa / 128) = false)
    (hn : s.heldOn (servingDie o.core a.leaf.toNat a.pa) (a.pa / 128) = []) (hcc : leafCC a.leaf.toNat = 2)
    (hl : (s.core o.core).l1.has (a.pa / 128) = true ∨ (s.core o.core).l1.length < 2048) :
    ∃ t, exec (.orderingPointAccess id a.lane) s = .next t ∧ t.opAt id = some { o with accs := [{ a with st := .done }] } ∧ t.mem = s.mem ∧
      CopyWrite (if (s.core o.core).l1.has (a.pa / 128) then ((s.core o.core).l1.get (a.pa / 128) {}).data
          else BitVec.ofNat 1024 (s.rdKey (128 * (a.pa / 128)) (s.keyId a.pa (leafKey a.leaf.toNat)) 128))
        ((t.core o.core).l1.get (a.pa / 128) {}).data (a.pa % 128) o.size (a.data.toNat % 2 ^ (8 * o.size)) := by
  obtain ⟨hops, hmem, hcopy⟩ := State.privPut_kept (leaf := a.leaf.toNat) (store_value_lt a o.size) hl
  obtain ⟨t, ht, hop, hrest⟩ := h.exec_store hk hpa hf (fun hd => absurd hd (by rw [underDir_of_ne (by omega)]; decide)) hp hn
    (State.storeAt_ownPage hctl hcc) hops
  refine ⟨t, ht, hop, (congrArg State.mem hrest :).trans hmem, ?_⟩
  rw [State.core_congr (t := t) (congrArg State.cores hrest :)]
  exact hcopy

/-- A store of one access on a hardware-coherent page that its die's slice may write: into the slice's copy, or to memory. -/
theorem store_directory (h : OneAccess s id o a) (hi : s.Inv) (hk : o.kind = .store) (hf : o.flag < 12) (hpa : a.pa < hostBase)
    (hctl : isCtl a.pa = false) (hp : s.poison.has (a.pa / 128) = false)
    (hn : s.heldOn (servingDie o.core a.leaf.toNat a.pa) (a.pa / 128) = []) (hsz : a.pa % 128 + o.size ≤ 128) (hcc : leafCC a.leaf.toNat = 1)
    (hl : s.leaseOk o.core (a.pa / 128) = true)
    (hw : s.dirWrites (a.pa / 128) (dieOf o.core) (s.keyId a.pa (leafKey a.leaf.toNat)) = true) :
    ∃ t, exec (.orderingPointAccess id a.lane) s = .next t ∧
      t.opAt id = some { o with accs := [{ a with st := if s.leasedBy (a.pa / 128) = some o.core then .done else .perf }] } ∧
      (s.holds (a.pa / 128) (dieOf o.core) (s.keyId a.pa (leafKey a.leaf.toNat)) = true → t.mem = s.mem ∧
        (t.copy (a.pa / 128) (dieOf o.core)).st = .mo ∧
        CopyWrite (s.copy (a.pa / 128) (dieOf o.core)).data (t.copy (a.pa / 128) (dieOf o.core)).data (a.pa % 128) o.size
          (a.data.toNat % 2 ^ (8 * o.size))) ∧
      (s.holds (a.pa / 128) (dieOf o.core) (s.keyId a.pa (leafKey a.leaf.toNat)) = false →
        LineWrite s t a.pa (s.keyId a.pa (leafKey a.leaf.toNat)) o.size (a.data.toNat % 2 ^ (8 * o.size))) := by
  cases hh : s.holds (a.pa / 128) (dieOf o.core) (s.keyId a.pa (leafKey a.leaf.toNat))
  · have hst := State.storeAt_coherent hctl (by omega) hl
      (s.perform_memory (leaf := a.leaf.toNat) o.size (a.data.toNat % 2 ^ (8 * o.size)) fun _ => ⟨hw, hh⟩)
    obtain ⟨t, ht, hop, hrest⟩ := h.exec_store hk hpa hf (fun _ => hw) hp hn hst (by simp)
    have hu := s.written_hinted o.ctx o.core a.leaf.toNat a.pa o.hint (s.keyId a.pa (leafKey a.leaf.toNat)) o.size (a.data.toNat % 2 ^ (8 * o.size))
    have hw' : Written s t a.pa _ o.size _ := ⟨(congrArg State.mem hrest :).trans hu.mem, (congrArg State.lineKey hrest :).trans hu.lineKey⟩
    refine ⟨t, ht, ?_, nofun, fun _ => hw'.lineWrite hi hpa hsz⟩
    rw [hop]
    simp only [beq_iff_eq]
  · have hst := State.storeAt_coherent hctl (by omega) hl
      (State.perform_copy o.size (a.data.toNat % 2 ^ (8 * o.size)) (underDir_device hcc hpa hctl) hw hh)
    obtain ⟨t, ht, hop, hrest⟩ := h.exec_store hk hpa hf (fun _ => hw) hp hn hst (by simp)
    have hcopy := State.copy_congr (t := t) (congrArg State.copies hrest :) (a.pa / 128) (dieOf o.core)
    rw [State.l1Hit_copy, State.hinted_copy, State.touch_copy, State.copy_modCopy_self] at hcopy
    refine ⟨t, ht, ?_, fun _ => ⟨(congrArg State.mem hrest :).trans (by simp), by rw [hcopy], ?_⟩, nofun⟩
    · rw [hop]
      simp only [beq_iff_eq]
    · rw [hcopy]
      exact copyWrite_putBytes _ (store_value_lt a o.size)

/-! Atomics. -/

theorem atomNew_eq {fn : Nat} (hf : fn < 10) (size old x cmp : Nat) : atomNew fn size old x cmp = AtomWrites fn (8 * size) old x cmp := by
  unfold atomNew AtomWrites
  interval_cases fn <;> rfl

/-- One lane of an atomic on a page that no directory keeps. -/
theorem atomOne_memory (hf : o.fn < 10) (hctl : isCtl a.pa = false)
    (hcc : leafCC a.leaf.toNat = 3 ∨ leafCC a.leaf.toNat = 0 ∧ s.leasedBy (a.pa / 128) = some o.core) :
    let key := s.keyId a.pa (leafKey a.leaf.toNat)
    let new := AtomWrites o.fn (8 * o.size) (s.rdKey a.pa key o.size) (a.data.toNat % 2 ^ (8 * o.size)) (a.aux.toNat % 2 ^ (8 * o.size))
    ∃ u, s.atomOne o a = some (u, s.rdKey a.pa key o.size, new.isSome) ∧ u.ops = s.ops ∧ (new = none → u.mem = s.mem) ∧
      ∀ v, new = some v → Written s u a.pa key o.size v := by
  dsimp only
  have h2 : leafCC a.leaf.toNat ≠ 2 := by omega
  have hs : s.served o.core a.leaf.toNat a.pa o.size = some (s.rdKey a.pa (s.keyId a.pa (leafKey a.leaf.toNat)) o.size) := by
    unfold State.served
    rw [underDir_of_ne (by omega)]
    rfl
  unfold State.atomOne
  simp only [h2, hctl, hs, if_false, Bool.false_eq_true, atomNew_eq hf]
  cases hnew : AtomWrites o.fn (8 * o.size) _ _ _ with
  | none => exact ⟨_, rfl, by simp, fun _ => by simp, nofun⟩
  | some v =>
    obtain ⟨u, b, hst, -, hops, hw⟩ := State.storeAt_memory (s := s) (o := o) (a := a) o.size v hctl (hcc.imp_right fun ⟨hc, hl⟩ => ⟨hc, by simp [State.leaseOk, hl]⟩)
    dsimp only
    rw [hst]
    exact ⟨u, rfl, hops, nofun, fun w e => Option.some.inj e ▸ hw⟩

theorem OneAccess.exec_atom {u : State} {v : Nat} {wrote : Bool} (h : OneAccess s id o a) (hk : o.kind = .atom) (hpa : a.pa < hostBase)
    (hf : o.flag < 12) (hbad : s.badRead (a.pa / 128) o.ctx = false)
    (hl : s.needsLease o a = true → (s.core o.core).leases.contains (a.pa / 128) = true)
    (hn : s.heldOn (servingDie o.core a.leaf.toNat a.pa) (a.pa / 128) = []) (hu : s.atomOne o a = some (u, v, wrote)) (hops : u.ops = s.ops) :
    ∃ t, exec (.orderingPointAccess id a.lane) s = .next t ∧
      t.opAt id = some { o with accs := [{ a with st := if wrote then .done else .perf, data := BitVec.ofNat 256 v }] } ∧
      ({ t with ops := u.ops, cores := u.cores } : State) = u := by
  obtain rfl := State.opAt_id h.op
  have has : (o.accs.filter fun x => x.st == .pend && x.pa / 128 == a.pa / 128) = [a] := by simp [h.accs, h.pend]
  have hlease : ¬(s.needsLease o a = true ∧ (!(s.core o.core).leases.contains (a.pa / 128)) = true) := fun ⟨h1, h2⟩ => by
    rw [hl h1] at h2
    exact absurd h2 (by decide)
  have hall : s.atomAll o [a] = some (u.modAccs o.id (fun x => x.lane == a.lane) fun x =>
      { x with st := if wrote then .done else .perf, data := BitVec.ofNat 256 v }) := by
    unfold State.atomAll
    rw [hu]
    rfl
  have hop := h.opAt_modAccs hops (p := fun x => x.lane == a.lane) (by simp) fun x =>
    { x with st := if wrote then .done else .perf, data := BitVec.ofNat 256 v }
  refine ⟨_, (h.exec_device hpa).2.2.1 hk, ?_⟩
  unfold State.atomStep
  simp only [has, List.all_cons, List.all_nil, h.ready, Bool.and_true, Bool.not_true, Bool.false_eq_true, if_false, hbad, hlease, hpa, if_true,
    State.sendHeld_nil hn, hall]
  have hops' := fun f => (State.opAt_congr (State.modCore_ops _ o.core f) o.id).trans hop
  rw [State.overOp_of_flag (hops' _) hf]
  exact ⟨hops' _, rfl⟩

/-! The scratchpad. -/

theorem OneAccess.spst_writes (h : OneAccess s id o a) (hk : o.kind = .spst) (hf : o.flag < 12) (hpa : a.pa < hostBase) (hg : s.groups.has o.gid = true) :
    ∃ t, exec (.orderingPointAccess id a.lane) s = .next t ∧ t.mem = s.mem ∧ t.opAt id = some { o with accs := [{ a with st := .done }] } ∧
      (t.group o.gid).spGet (a.pa % 2 ^ 48) 4 = a.data.toNat % 2 ^ 32 ∧
      ∀ y, y < a.pa % 2 ^ 48 ∨ a.pa % 2 ^ 48 + 4 ≤ y → (t.group o.gid).spGet y 1 = (s.group o.gid).spGet y 1 := by
  obtain rfl := State.opAt_id h.op
  have hop := h.opAt_modAccs (u := s.modGroup o.gid fun g => g.spPut (a.pa % 2 ^ 48) 4 a.data.toNat) rfl
    (p := fun x => x.st == .pend && x.pa == a.pa) (by simp [h.pend]) fun x => { x with st := .done }
  have hstep : s.spStep o a = (s.modGroup o.gid fun g => g.spPut (a.pa % 2 ^ 48) 4 a.data.toNat).modAccs o.id
      (fun x => x.st == .pend && x.pa == a.pa) fun x => { x with st := .done } := by
    unfold State.spStep
    simp only [h.all_ready, hk, h.lastAt, Bool.not_true, Bool.false_eq_true, if_false, if_true]
    exact State.overOp_of_flag hop hf
  refine ⟨_, (h.exec_device hpa).2.2.2 (.inr hk) hg, ?_⟩
  rw [hstep]
  have hgrp := s.group_modGroup_self o.gid fun g => g.spPut (a.pa % 2 ^ 48) 4 a.data.toNat
  refine ⟨rfl, hop, ?_, fun y hy => ?_⟩
  · exact (congrArg (Group.spGet · _ 4) hgrp).trans (Group.spGet_spPut ..)
  · exact (congrArg (Group.spGet · y 1) hgrp).trans (Group.spGet_spPut_ne _ _ hy)

theorem OneAccess.spld_reads (h : OneAccess s id o a) (hk : o.kind = .spld) (hpa : a.pa < hostBase) (hg : s.groups.has o.gid = true) :
    ∃ t, exec (.orderingPointAccess id a.lane) s = .next t ∧ ({ t with ops := s.ops } : State) = s ∧
      t.opAt id = some { o with accs := [{ a with st := .perf, data := BitVec.ofNat 256 ((s.group o.gid).spGet (a.pa % 2 ^ 48) 4) }] } := by
  obtain rfl := State.opAt_id h.op
  refine ⟨_, (h.exec_device hpa).2.2.2 (.inl hk) hg, ?_⟩
  have hne : o.kind ≠ .spst := by rw [hk]; decide
  unfold State.spStep
  simp only [h.all_ready, hne, Bool.not_true, Bool.false_eq_true, if_false]
  exact ⟨rfl, h.opAt_modAccs rfl (by simp [h.pend]) _⟩

/-! Acknowledgement. -/

theorem storeAcknowledge_completes (hop : s.opAt id = some o) (ha : a ∈ o.accs) (hk : o.kind = .store) (hst : a.st = .perf) (hl : a.late = false) :
    ∃ t, exec (.storeAcknowledge id a.lane) s = .next t ∧ ({ t with ops := s.ops } : State) = s ∧
      (∀ e, t.opAt id = some e → ∀ x ∈ e.accs, x.lane = a.lane → x.st ≠ .perf) ∧ ∀ k, k ≠ id → t.opAt k = s.opAt k := by
  have hany : (o.accs.any fun x => x.lane == a.lane && x.st == .perf && !x.late) = true :=
    List.any_eq_true.mpr ⟨a, ha, by simp [hst, hl]⟩
  have hexec : exec (.storeAcknowledge id a.lane) s =
      .next ((s.modAccs id (fun x => x.lane == a.lane && x.st == .perf) fun x => { x with st := .done }).overOp id) := by
    show execStoreAcknowledge id a.lane s = _
    unfold execStoreAcknowledge
    rw [hop]
    exact if_pos ⟨.inl hk, hany⟩
  refine ⟨_, hexec, ?_, fun e he x hx hlane hperf => ?_, fun k hk => ?_⟩
  · obtain h | h := State.overOp_cases (s.modAccs id (fun x => x.lane == a.lane && x.st == .perf) fun x => { x with st := .done }) id <;>
      rw [h] <;> rfl
  · obtain h | h := State.overOp_cases (s.modAccs id (fun x => x.lane == a.lane && x.st == .perf) fun x => { x with st := .done }) id
    · rw [h, State.opAt_modAccs, hop] at he
      cases he
      dsimp only at hx
      rw [if_pos rfl] at hx
      obtain ⟨y, -, rfl⟩ := List.mem_map.mp hx
      split at hperf
      · cases hperf
      · next hn =>
        rw [if_neg hn] at hlane
        exact hn (by simp [hlane, hperf])
    · rw [h, State.opAt_dropOp, if_pos rfl] at he
      cases he
  · rw [State.opAt_overOp _ _ _ hk, OneAccess.opAt_modAccs_ne rfl _ _ hk]

/-! Leases. -/

theorem State.leases_of_leasedBy_none {line : Nat} (h : s.leasedBy line = none) (c : Nat) : (s.core c).leases.contains line = false := by
  unfold State.leasedBy at h
  rw [Option.map_eq_none_iff, List.find?_eq_none] at h
  unfold State.core
  generalize s.cores = m at h ⊢
  induction m with
  | nil => rfl
  | cons e m ih =>
    rw [FMap.get]
    split
    · exact Bool.eq_false_iff.mpr (h e List.mem_cons_self)
    · exact ih fun x hx => h x (List.mem_cons_of_mem _ hx)

theorem leaseRequest_grants (h : OneAccess s id o a) (hk : o.kind = .atom) (hneed : s.needsLease o a = true) (hcc : leafCC a.leaf.toNat = 0)
    (hl : s.leasedBy (a.pa / 128) = none) (hq : (s.lineQueue (a.pa / 128)).headD (.lease o.core) = .lease o.core)
    (hbad : s.badRead (a.pa / 128) o.ctx = false) (hn : s.heldOn (a.pa / 2 ^ 48) (a.pa / 128) = []) :
    ∃ t, exec (.leaseRequest id a.lane) s = .next t ∧ t.ops = s.ops ∧ (t.core o.core).l1.has (a.pa / 128) = true ∧
      (t.core o.core).leases =
        (if 128 ≤ (s.core o.core).leases.length then (s.core o.core).leases.tail else (s.core o.core).leases) ++ [a.pa / 128] := by
  have hud : underDir a.leaf.toNat a.pa = false := underDir_of_ne (by omega)
  have hexec : exec (.leaseRequest id a.lane) s = .next (s.grantLease o a) := by
    show execLeaseRequest id a.lane s = _
    unfold execLeaseRequest
    rw [h.op]
    dsimp only
    rw [h.find]
    simp only [hk, h.ready, hneed, State.leases_of_leasedBy_none hl, hbad, hl, hq, hud, ne_eq, not_true_eq_false, Bool.not_true,
      Bool.false_eq_true, false_and, or_self, if_false]
  have hs : s.served o.core a.leaf.toNat (128 * (a.pa / 128)) 128 =
      some (s.rdKey (128 * (a.pa / 128)) (s.keyId (128 * (a.pa / 128)) (leafKey a.leaf.toNat)) 128) := by
    unfold State.served
    rw [underDir_of_ne (by omega)]
    rfl
  refine ⟨_, hexec, ?_⟩
  unfold State.grantLease
  have hserve : servingDie o.core a.leaf.toNat a.pa = a.pa / 2 ^ 48 := by
    unfold servingDie
    rw [hud]
    rfl
  simp only [hserve, State.sendHeld_nil hn, ite_self, hs]
  refine ⟨by simp [State.takeLease], ?_, ?_⟩
  · obtain ⟨m, hm⟩ := State.l1Put_l1 ((s.hinted o.ctx o.core a.leaf.toNat a.pa o.hint).takeLease o.core (a.pa / 128)) o.core (a.pa / 128)
      { data := BitVec.ofNat 1024 (s.rdKey (128 * (a.pa / 128)) (s.keyId (128 * (a.pa / 128)) (leafKey a.leaf.toNat)) 128)
        key := s.keyId a.pa (leafKey a.leaf.toNat) }
    refine (congrArg (FMap.has · (a.pa / 128)) hm).trans ?_
    rw [FMap.has_set, beq_self_eq_true, Bool.true_or]
  · refine (State.l1Put_leases ..).trans ?_
    rw [State.takeLease, State.core_modCore_self, State.core_congr (s.hinted_cores ..)]

theorem State.mem_joinLine (s : State) (line : Nat) (x : Asker) : (line, x) ∈ (s.joinLine line x).lreqs := by
  unfold State.joinLine
  dsimp only
  split
  · next h =>
    obtain ⟨e, he, hx⟩ := List.mem_map.mp (List.contains_iff_mem.mp h)
    obtain ⟨hmem, hstands⟩ := List.mem_filter.mp he
    obtain ⟨hline, hstands⟩ := Bool.and_eq_true_iff.mp hstands
    obtain ⟨l, y⟩ := e
    obtain rfl : l = line := by simpa using hline
    obtain rfl : y = x := hx
    exact List.mem_append_left _ (List.mem_filter.mpr ⟨hmem, hstands⟩)
  · exact List.mem_append_right _ List.mem_cons_self

theorem leaseRequest_waits (h : OneAccess s id o a) (hk : o.kind = .atom) (hneed : s.needsLease o a = true)
    (hc : (s.core o.core).leases.contains (a.pa / 128) = false) (hbad : s.badRead (a.pa / 128) o.ctx = false)
    (hl : s.leasedBy (a.pa / 128) ≠ none ∨ (s.lineQueue (a.pa / 128)).headD (.lease o.core) ≠ .lease o.core) :
    ∃ t, exec (.leaseRequest id a.lane) s = .next t ∧ ({ t with lreqs := s.lreqs } : State) = s ∧ (a.pa / 128, .lease o.core) ∈ t.lreqs := by
  have hexec : exec (.leaseRequest id a.lane) s = .next (s.joinLine (a.pa / 128) (.lease o.core)) := by
    show execLeaseRequest id a.lane s = _
    unfold execLeaseRequest
    rw [h.op]
    dsimp only
    rw [h.find]
    simp only [hk, h.ready, hneed, hc, hbad, ne_eq, not_true_eq_false, Bool.not_true, Bool.false_eq_true, or_self, if_false]
    exact if_pos hl
  exact ⟨_, hexec, rfl, s.mem_joinLine ..⟩

theorem leaseRecall_surrenders {core line : Nat} (hl : s.leasedBy line = some core) (hc : (s.core core).leases.contains line = true)
    (hd : s.atomDue line = false) :
    ∃ t, exec (.leaseRecall core line) s = .next t ∧ ({ t with cores := s.cores } : State) = s ∧
      (t.core core).leases = (s.core core).leases.filter (· != line) ∧ ∀ k, k ≠ core → t.core k = s.core k := by
  have hexec : exec (.leaseRecall core line) s =
      .next (s.modCore core fun x => { x with leases := x.leases.filter (· != line), grants := x.grants.del line }) := by
    show execLeaseRecall core line s = _
    unfold execLeaseRecall State.dropLease
    rw [hl, hc, hd]
    rfl
  exact ⟨_, hexec, rfl, by rw [State.core_modCore_self], fun k hk => State.core_modCore_ne _ _ _ _ hk⟩

/-! Held reads. -/

theorem readHoldExpiry_answers {die v : Nat} {u : State} (h : OneAccess s o.id o a) (hk : o.kind = .load)
    (hn : s.heldOn die (a.pa / 128) = [(o, a)])
    (hl : s.loadAt o.ctx o.core a.leaf.toNat a.pa o.size o.hint (o.hint != 3) = .ok u v) :
    ∃ t f, exec (.readHoldExpiry die (a.pa / 128)) s = .next t ∧ t.waves = s.waves ∧ ¬ holdId o.id a.lane ∈ (t.die die).heldReads ∧
      t.opAt o.id = some { o with accs := [{ a with st := .perf, data := BitVec.ofNat 256 v, flit := f }] } := by
  have hne : o.kind ≠ .vldEq := by rw [hk]; decide
  obtain ⟨f, hwaves, hop, -⟩ := State.loadStep_opAt (flit := 1 + holdId o.id a.lane) h hl
  have hexec : exec (.readHoldExpiry die (a.pa / 128)) s =
      .next ((s.loadStep o a false (1 + holdId o.id a.lane)).modDie die fun x =>
        { x with heldReads := x.heldReads.filter fun h => !([(o, a)] : List (MemOp × Acc)).any fun e => holdId e.1.id e.2.lane == h }) := by
    show execReadHoldExpiry die (a.pa / 128) s = _
    unfold execReadHoldExpiry State.sendHeld
    rw [hn]
    simp only [List.isEmpty_cons, List.foldl_cons, List.foldl_nil, State.answerHeld, hne, if_false, Bool.false_eq_true]
  refine ⟨_, f, hexec, hwaves, ?_, (State.opAt_congr (State.modDie_ops ..) _).trans hop⟩
  rw [State.die_modDie_self]
  simp

/-! Completion. -/

theorem longLatencyComplete_writes (hop : s.opAt id = some o) (hset : o.settled = true)
    (hw : (s.wave (waveKey o.core o.slot)).gid = some o.gid) (hh : o.halted = false)
    (ha : ∀ a ∈ o.accs, a.st ≠ .failed ∧ a.gone = 0 ∧ a.lane < 32) (hd : (o.accs.map (·.lane)).Nodup) :
    ∃ t, exec (.longLatencyComplete id) s = .next t ∧ t.opAt id = none ∧ t.mem = s.mem ∧
      (∀ k, k ≠ waveKey o.core o.slot → t.wave k = s.wave k) ∧
      (∀ f, (t.wave (waveKey o.core o.slot)).flags.get f 0 =
        (s.wave (waveKey o.core o.slot)).flags.get f 0 - if f = o.flag ∧ f < 12 then 1 else 0) ∧
      (o.sca = false → o.opfile = false → ∀ a ∈ o.accs, o.hasData a = true → ∀ i, i < o.nregs →
        (t.wave (waveKey o.core o.slot)).main.get (32 * (o.reg + i) + a.lane) 0 = (o.value a).extractLsb' (32 * i) 32) := by
  have hfail : (o.accs.any fun a => a.st == .failed) = false :=
    List.any_eq_false.mpr fun a hm hf => (ha a hm).1 (beq_iff_eq.mp hf)
  obtain ⟨u, hu⟩ : ∃ u, u =
    ((s.modWave (waveKey o.core o.slot) fun w => o.deliverAll w).modWave (waveKey o.core o.slot) fun w => w.lower o.flag).dropOp id := ⟨_, rfl⟩
  have hexec : exec (.longLatencyComplete id) s = .next (if o.acq && s.acqDrops o.core o.scope then u.dropL1 o.core else u) := by
    show execLongLatencyComplete id s = _
    unfold execLongLatencyComplete
    rw [hop, hu]
    dsimp only
    rw [hset, hw, hh, hfail]
    simp only [Bool.not_true, Bool.false_eq_true, if_false, ne_eq, not_true_eq_false, Bool.or_self]
  -- an acquire empties the L1, which holds no register and no byte of memory
  have hkept : ∀ b : Bool, (if b then u.dropL1 o.core else u).ops = u.ops ∧ (if b then u.dropL1 o.core else u).mem = u.mem ∧
      (if b then u.dropL1 o.core else u).waves = u.waves := fun b => by cases b <;> exact ⟨rfl, rfl, rfl⟩
  obtain ⟨hops, hmem, hwaves⟩ := hkept (o.acq && s.acqDrops o.core o.scope)
  refine ⟨_, hexec, ?_⟩
  generalize (if (o.acq && s.acqDrops o.core o.scope) = true then u.dropL1 o.core else u) = t at hops hmem hwaves
  have hwave : ∀ k, t.wave k = u.wave k := fun k => by rw [State.wave, hwaves, State.wave]
  have hself : t.wave (waveKey o.core o.slot) = (o.deliverAll (s.wave (waveKey o.core o.slot))).lower o.flag := by
    rw [hwave, hu]
    exact (State.wave_modWave_self ..).trans (congrArg (Wave.lower · o.flag) (State.wave_modWave_self ..))
  refine ⟨?_, ?_, fun k hk => ?_, fun f => ?_, fun hs ho a hm hdata i hi => ?_⟩
  · rw [State.opAt_congr hops, hu, State.opAt_dropOp, if_pos rfl]
  · rw [hmem, hu]
    rfl
  · rw [hwave, hu]
    exact (State.wave_modWave_ne _ _ _ _ hk).trans (State.wave_modWave_ne _ _ _ _ hk)
  · rw [hself, Wave.lower_flags, o.deliverAll_flags]
  · rw [hself, Wave.lower_main]
    exact (MemOp.deliver_lanes hs ho (fun a hm => (ha a hm).2) hd _).1 a hm hdata i hi

end

/-- Settles O44: each event by the rule for its word above. -/
theorem memoryEvents : Obligations.MemoryEvents := by
  refine ⟨?_, ?_, ?_, ?_, ?_, ?_, ?_, ?_, ?_, ?_⟩
  · intro s id o a u v hop haccs hk hr hpa h1 hh hheld hn hl
    have h : OneAccess s id o a := ⟨hop, haccs, hr⟩
    obtain ⟨f, hw, ho, hne⟩ := State.loadStep_opAt (flit := 1 + holdId id a.lane) h hl
    exact ⟨_, f, (h.exec_device hpa).1 hk h1 hh hheld hn, hw, ho, hne⟩
  · intro s id o a hi hop haccs hk hf hr hpa hctl hp hn hsz
    have h : OneAccess s id o a := ⟨hop, haccs, hr⟩
    exact ⟨store_memory h hi hk hf hpa hctl hp hn hsz, store_ownPage h hk hf hpa hctl hp hn,
      store_directory h hi hk hf hpa hctl hp hn hsz⟩
  · intro s id o a hi hop haccs hk hf hfn _ hr hpa hctl hcc hbad hn hsz
    have h : OneAccess s id o a := ⟨hop, haccs, hr⟩
    have hserve : servingDie o.core a.leaf.toNat a.pa = a.pa / 2 ^ 48 := by
      unfold servingDie
      rw [underDir_of_ne (by omega)]
      rfl
    have hlease : s.needsLease o a = true → (s.core o.core).leases.contains (a.pa / 128) = true := fun hneed => by
      obtain hc | ⟨-, -, hc⟩ := hcc
      · simp [State.needsLease, hc] at hneed
      · exact hc
    obtain ⟨u, hu, hops, hnone, hsome⟩ := atomOne_memory hfn hctl (hcc.imp_right fun ⟨h0, hl, _⟩ => ⟨h0, hl⟩)
    obtain ⟨t, ht, ho, hrest⟩ := h.exec_atom hk hpa hf hbad hlease (hserve.symm ▸ hn) hu hops
    have hmem : t.mem = u.mem := (congrArg State.mem hrest :)
    refine ⟨t, ht, ?_, fun e => hmem.trans (hnone e), fun v e => ?_⟩
    · rw [ho]
      cases AtomWrites o.fn (8 * o.size) _ _ _ <;> rfl
    · have hw := hsome v e
      exact Written.lineWrite ⟨hmem.trans hw.mem, (congrArg State.lineKey hrest :).trans hw.lineKey⟩ hi hpa hsz
  · intro s id o a hop haccs hf hr hpa hg
    have h : OneAccess s id o a := ⟨hop, haccs, hr⟩
    exact ⟨fun hk => h.spst_writes hk hf hpa hg, fun hk => h.spld_reads hk hpa hg⟩
  · exact fun s id o a => storeAcknowledge_completes
  · exact fun s id o a hop haccs hk hr hneed hcc => leaseRequest_grants ⟨hop, haccs, hr⟩ hk hneed hcc
  · exact fun s id o a hop haccs hk hr => leaseRequest_waits ⟨hop, haccs, hr⟩ hk
  · exact fun s core line => leaseRecall_surrenders
  · exact fun s die o a u v hop haccs hk hn hr => readHoldExpiry_answers ⟨hop, haccs, hr⟩ hk hn
  · exact fun s id o => longLatencyComplete_writes

end Sys2Proof.Machine
end

