-- ==== Sys2Proof/Proofs/ScanReduce.lean ====
section
/-! Scans and reductions: the words (O14), and what the integer networks compute (O15). -/

set_option Elab.async false

namespace Sys2Proof.Machine

/-! The words. -/

/-- A SCAN and a RED instruction over the same operation both run its network over the executing lanes (R70, R71, R148). -/
theorem scanReduceWord_completes {scan : RName → RName → Bool → Instr} {red : RName → RName → Instr} {op : State → Comb}
    {ident : W32} (hscan : ∀ d a x s, exec (scan d a x) s = scanWord op ident d a x s)
    (hred : ∀ d a s, exec (red d a) s = redWord op ident d a s) {d a : RName} {s : State} (hd : dst32 d = true)
    (ha : vname a = true) (hc : s.CanIssue []) :
    (∀ x, let r := network (scanStep (op s)) (if x then shiftIn (s.contrib a) else s.contrib a)
      ∃ t, exec (scan d a x) s = .next t ∧
        VecWord s t d false (fun n => ((r.1.getD n none).getD ident).setWidth 64) (BitVec.ofNat 32 (r.2 % 32))) ∧
    (let r := network (redStep (op s)) (s.contrib a)
      ∃ t, exec (red d a) s = .next t ∧
        VecWord s t d false (fun _ => ((r.1.getD 0 none).getD ident).setWidth 64) (BitVec.ofNat 32 (r.2 % 32))) :=
  ⟨fun x => hscan d a x s ▸ scanWord_completes hd ha hc, hred d a s ▸ redWord_completes hd ha hc⟩

/-- Settles O14: each pair of words is the shared scan and reduction word over its own operation and identity. -/
theorem scanReduceWords : Obligations.ScanReduceWords := by
  unfold Obligations.ScanReduceWords
  intro e he d a s hd ha hc
  simp only [List.mem_cons, List.not_mem_nil, or_false] at he
  rcases he with rfl | rfl | rfl | rfl | rfl | rfl | rfl | rfl | rfl | rfl | rfl
  all_goals exact scanReduceWord_completes (fun _ _ _ _ => rfl) (fun _ _ _ => rfl) hd ha hc

/-! Folds of the present values of a list. -/

section
variable {op : W32 → W32 → W32}

theorem presentFold_cons_none (l : List (Option W32)) : presentFold op (none :: l) = presentFold op l := rfl

theorem presentFold_nil : presentFold op [] = none := rfl

theorem presentFold_singleton (x : Option W32) : presentFold op [x] = x := by cases x <;> rfl

/-- A fold sees only the present values. -/
theorem presentFold_congr {a b : List (Option W32)} (h : a.reduceOption = b.reduceOption) : presentFold op a = presentFold op b := by
  unfold presentFold
  rw [show a.filterMap id = b.filterMap id from h]

/-- The fold of two lists in a row is the combination of their folds, an absent one being skipped. -/
theorem presentFold_append (assoc : Std.Associative op) (a b : List (Option W32)) :
    presentFold op (a ++ b) = (presentFold op a).merge op (presentFold op b) := by
  unfold presentFold
  rw [List.filterMap_append]
  cases a.filterMap id with
  | nil => cases b.filterMap id <;> rfl
  | cons x r =>
    cases b.filterMap id with
    | nil => simp
    | cons y q =>
      rw [List.cons_append]
      simp only [List.foldl_append, List.foldl_cons, List.foldl_assoc, Option.merge_some_some]

/-- What a network combines of two lanes, and that an integer operation raises no flag. -/
theorem combine_pure (x y : Option W32) : combine (fun a b => (op a b, 0)) x y = (x.merge op y, 0) := by
  cases x <;> cases y <;> rfl

/-! The lanes from one number up to another. -/

/-- The values of the lanes from `i` up to, but without, `j`. -/
def lanesFrom (v : List (Option W32)) (i j : Nat) : List (Option W32) := (v.take j).drop i

theorem lanesFrom_append (v : List (Option W32)) {i j k : Nat} (hij : i ≤ j) (hjk : j ≤ k) :
    lanesFrom v i j ++ lanesFrom v j k = lanesFrom v i k := by
  unfold lanesFrom
  have hsplit : v.take k = v.take j ++ (v.take k).drop j := by
    conv_lhs => rw [← List.take_append_drop j (v.take k), List.take_take, Nat.min_eq_left hjk]
  obtain hj | hj := Nat.le_total j v.length
  · conv_rhs => rw [hsplit, List.drop_append_of_le_length (by simpa [hj] using hij)]
  · rw [List.drop_eq_nil_of_le (i := j) (as := v.take k) (by rw [List.length_take]; omega), List.append_nil, List.take_of_length_le hj,
      List.take_of_length_le (hj.trans hjk)]

theorem presentFold_lanesFrom_one (v : List (Option W32)) (n : Nat) : presentFold op (lanesFrom v n (n + 1)) = v.getD n none := by
  unfold lanesFrom
  rw [List.drop_take, Nat.add_sub_cancel_left]
  obtain h | h := Nat.lt_or_ge n v.length
  · rw [List.drop_eq_getElem_cons h, List.take_succ_cons, List.take_zero, presentFold_singleton, List.getD_eq_getElem _ _ h]
  · simp [List.drop_eq_nil_of_le h, presentFold_nil, h]

/-- The fold of two neighbouring ranges of lanes. -/
theorem merge_lanesFrom (assoc : Std.Associative op) (v : List (Option W32)) {i j k : Nat} (hij : i ≤ j) (hjk : j ≤ k) :
    (presentFold op (lanesFrom v i j)).merge op (presentFold op (lanesFrom v j k)) = presentFold op (lanesFrom v i k) := by
  rw [← presentFold_append assoc, lanesFrom_append v hij hjk]

/-! The networks: what holds at distance 1 of the inputs and is carried from each distance to the next holds at the end. -/

theorem network_carries {step : List (Option W32) → Nat → List (Option W32) × Nat} {P : Nat → List (Option W32) → Prop}
    {v : List (Option W32)} (h1 : P 1 v) (hstep : ∀ d u, P d u → P (2 * d) (step u d).1) : P 32 (network step v).1 :=
  hstep 16 _ (hstep 8 _ (hstep 4 _ (hstep 2 _ (hstep 1 _ h1))))

theorem network_no_flags {step : List (Option W32) → Nat → List (Option W32) × Nat} (h : ∀ u d, (step u d).2 = 0)
    (v : List (Option W32)) : (network step v).2 = 0 := by
  simp only [network, List.foldl_cons, List.foldl_nil, h, orF, Nat.or_self]

theorem foldl_orF_zero {l : List Nat} (h : ∀ x ∈ l, x = 0) : l.foldl orF 0 = 0 := by
  induction l with
  | nil => rfl
  | cons x r ih =>
    rw [List.foldl_cons, h x (List.mem_cons_self ..)]
    exact ih fun y hy => h y (List.mem_cons_of_mem _ hy)

theorem scanStep_no_flags (v : List (Option W32)) (d : Nat) : (scanStep (fun x y => (op x y, 0)) v d).2 = 0 := by
  refine foldl_orF_zero fun x hx => ?_
  simp only [List.map_map, List.mem_map, Function.comp_apply, combine_pure] at hx
  obtain ⟨n, -, rfl⟩ := hx
  split <;> rfl

theorem redStep_no_flags (v : List (Option W32)) (d : Nat) : (redStep (fun x y => (op x y, 0)) v d).2 = 0 := by
  refine foldl_orF_zero fun x hx => ?_
  simp only [List.map_map, List.mem_map, Function.comp_apply, combine_pure] at hx
  obtain ⟨n, -, rfl⟩ := hx
  split <;> rfl

theorem getD_map_range (f : Nat → Option W32) (n : Nat) : ((List.range 32).map f).getD n none = if n < 32 then f n else none := by
  simp [List.getD_eq_getElem?_getD, List.getElem?_map]
  split <;> simp [*]

theorem scanStep_lane (u : List (Option W32)) (d : Nat) {n : Nat} (hn : n < 32) :
    (scanStep (fun x y => (op x y, 0)) u d).1.getD n none =
      if d ≤ n then (u.getD (n - d) none).merge op (u.getD n none) else u.getD n none := by
  simp only [scanStep, List.map_map, combine_pure]
  rw [getD_map_range, if_pos hn, Function.comp_apply]
  split <;> rfl

theorem redStep_lane (u : List (Option W32)) (d n : Nat) :
    (redStep (fun x y => (op x y, 0)) u d).1.getD n none =
      if n < 32 then (if n % (2 * d) = 0 then (u.getD n none).merge op (u.getD (n + d) none) else u.getD n none) else none := by
  simp only [redStep, List.map_map, combine_pure]
  rw [getD_map_range]
  refine if_congr Iff.rfl ?_ rfl
  rw [Function.comp_apply]
  split <;> rfl

/-- Before its step at distance `d`, a lane of the scan holds the fold of the `d` lanes that end at it (R71). -/
def ScanHolds (op : W32 → W32 → W32) (v : List (Option W32)) (d : Nat) (u : List (Option W32)) : Prop :=
  ∀ n < 32, u.getD n none = presentFold op (lanesFrom v (n + 1 - d) (n + 1))

/-- Before its step at distance `d`, a lane of the tree whose number `d` divides holds the fold of the `d` lanes from it (R70). -/
def TreeHolds (op : W32 → W32 → W32) (v : List (Option W32)) (d : Nat) (u : List (Option W32)) : Prop :=
  ∀ n, n % d = 0 → u.getD n none = presentFold op (lanesFrom v n (n + d))

theorem scanHolds_step (assoc : Std.Associative op) {v : List (Option W32)} (d : Nat) (u : List (Option W32))
    (h : ScanHolds op v d u) : ScanHolds op v (2 * d) (scanStep (fun x y => (op x y, 0)) u d).1 := by
  intro n hn
  rw [scanStep_lane u d hn]
  split
  case isTrue hd =>
    rw [h (n - d) (by omega), h n hn, show n - d + 1 = n + 1 - d by omega, show n + 1 - d - d = n + 1 - 2 * d by omega]
    exact merge_lanesFrom assoc v (by omega) (by omega)
  case isFalse hd => rw [h n hn, show n + 1 - d = n + 1 - 2 * d by omega]

theorem treeHolds_step (assoc : Std.Associative op) {v : List (Option W32)} (hv : v.length = 32) (d : Nat)
    (u : List (Option W32)) (h : TreeHolds op v d u) : TreeHolds op v (2 * d) (redStep (fun x y => (op x y, 0)) u d).1 := by
  intro n hn
  have hnd : n % d = 0 := Nat.mod_eq_zero_of_dvd ((Nat.dvd_mul_left d 2).trans (Nat.dvd_of_mod_eq_zero hn))
  rw [redStep_lane, if_pos hn]
  split
  case isTrue h32 =>
    rw [h n hnd, h (n + d) (by rw [Nat.add_mod_right, hnd]), show n + 2 * d = n + d + d by omega]
    exact merge_lanesFrom assoc v (by omega) (by omega)
  case isFalse h32 =>
    rw [lanesFrom, List.drop_eq_nil_of_le (by simp; omega), presentFold_nil]

theorem scan_lane (assoc : Std.Associative op) (v : List (Option W32)) {n : Nat} (hn : n < 32) :
    (network (scanStep fun x y => (op x y, 0)) v).1.getD n none = presentFold op (v.take (n + 1)) := by
  have h1 : ScanHolds op v 1 v := fun n _ => (presentFold_lanesFrom_one v n).symm
  rw [network_carries h1 (scanHolds_step assoc) n hn, show n + 1 - 32 = 0 by omega]
  rfl

theorem tree_lane_zero (assoc : Std.Associative op) {v : List (Option W32)} (hv : v.length = 32) :
    (network (redStep fun x y => (op x y, 0)) v).1.getD 0 none = presentFold op v := by
  have h1 : TreeHolds op v 1 v := fun n _ => (presentFold_lanesFrom_one v n).symm
  rw [network_carries h1 (treeHolds_step assoc hv) 0 rfl, lanesFrom, List.drop_zero, List.take_of_length_le (by omega)]

end

/-! The exclusive input. -/

theorem getLastD_filter_isSome (l : List (Option W32)) : (l.filter Option.isSome).getLastD none = l.reduceOption.getLast? := by
  induction l using List.reverseRecOn with
  | nil => rfl
  | append_singleton l x ih =>
    cases x with
    | none => simpa [List.reduceOption_append] using ih
    | some x => simp [List.reduceOption_append, List.filter_append]

theorem reduceOption_take_succ (v : List (Option W32)) (n : Nat) :
    (v.take (n + 1)).reduceOption = (v.take n).reduceOption ++ (v.getD n none).toList := by
  rw [List.take_add_one, List.reduceOption_append]
  congr 1
  rw [List.getD_eq_getElem?_getD]
  cases v[n]? with
  | none => rfl
  | some x => cases x <;> rfl

/-- The exclusive input hands each present value on to the next present lane: its present values up to a lane are those of the
lanes up to it but for the last. -/
theorem reduceOption_shiftIn (v : List (Option W32)) {n : Nat} (hn : n ≤ 32) :
    ((shiftIn v).take n).reduceOption = (v.take n).reduceOption.dropLast := by
  induction n with
  | zero => rfl
  | succ n ih =>
    have hlane : (shiftIn v).getD n none = if (v.getD n none).isSome then (v.take n).reduceOption.getLast? else none := by
      rw [shiftIn, getD_map_range, if_pos (by omega), getLastD_filter_isSome]
    rw [reduceOption_take_succ, reduceOption_take_succ v, ih (by omega), hlane]
    cases v.getD n none with
    | none => simp
    | some x =>
      rw [Option.toList_some, List.dropLast_concat, Option.isSome_some, if_pos rfl]
      cases hlast : (v.take n).reduceOption.getLast? with
      | none => simp [List.getLast?_eq_none_iff.1 hlast]
      | some y => exact List.dropLast_append_getLast? y hlast

theorem presentFold_shiftIn {op : W32 → W32 → W32} (v : List (Option W32)) {n : Nat} (hn : n < 32) (hv : (v.getD n none).isSome = true) :
    presentFold op ((shiftIn v).take (n + 1)) = presentFold op (v.take n) := by
  obtain ⟨x, hx⟩ := Option.isSome_iff_exists.1 hv
  refine presentFold_congr ?_
  rw [reduceOption_shiftIn v (by omega), reduceOption_take_succ, hx, Option.toList_some, List.dropLast_concat]

/-! The operations. -/

/-- Of two values with equal keys the upper one is taken, so the order of combining does not matter. -/
theorem lesser_assoc (key : W32 → Int) : Std.Associative fun a b : W32 => if key a < key b then a else b :=
  ⟨fun a b c => by grind⟩

theorem greater_assoc (key : W32 → Int) : Std.Associative fun a b : W32 => if key a < key b then b else a :=
  ⟨fun a b c => by grind⟩

theorem minS_eq : minS = fun a b => if a.toInt < b.toInt then a else b := by
  funext a b
  simp [minS, BitVec.slt_iff_toInt_lt]

theorem maxS_eq : maxS = fun a b => if a.toInt < b.toInt then b else a := by
  funext a b
  simp [maxS, BitVec.slt_iff_toInt_lt]

theorem minZ_eq : minZ = fun a b => if (a.toNat : Int) < b.toNat then a else b := by
  funext a b
  simp [minZ, BitVec.ult_iff_toNat_lt]

theorem maxZ_eq : maxZ = fun a b => if (a.toNat : Int) < b.toNat then b else a := by
  funext a b
  simp [maxZ, BitVec.ult_iff_toNat_lt]

/-- The integer operations of R148 are associative. -/
theorem combining_assoc {op : W32 → W32 → W32}
    (h : op ∈ ([(· + ·), minS, minZ, maxS, maxZ, (· &&& ·), (· ||| ·), (· ^^^ ·)] : List (W32 → W32 → W32))) : Std.Associative op := by
  simp only [List.mem_cons, List.not_mem_nil, or_false] at h
  rcases h with rfl | rfl | rfl | rfl | rfl | rfl | rfl | rfl
  · exact ⟨BitVec.add_assoc⟩
  · exact minS_eq ▸ lesser_assoc BitVec.toInt
  · exact minZ_eq ▸ lesser_assoc fun a => a.toNat
  · exact maxS_eq ▸ greater_assoc BitVec.toInt
  · exact maxZ_eq ▸ greater_assoc fun a => a.toNat
  · exact ⟨BitVec.and_assoc⟩
  · exact ⟨BitVec.or_assoc⟩
  · exact ⟨BitVec.xor_assoc⟩

/-- Settles O15: by associativity, both networks double the range of lanes whose fold they hold at each distance. -/
theorem integerScansFold : Obligations.IntegerScansFold := by
  unfold Obligations.IntegerScansFold
  intro op hop v hv
  have assoc := combining_assoc hop
  refine ⟨fun n hn => scan_lane assoc v hn, fun n hn hsome => ?_, tree_lane_zero assoc hv,
    network_no_flags scanStep_no_flags v, network_no_flags redStep_no_flags v⟩
  rw [scan_lane assoc (shiftIn v) hn, presentFold_shiftIn v hn hsome]

end Sys2Proof.Machine
end

