-- ==== Sys2Proof/Proofs/Rounding.lean ====
section
/-! The one rounding (R53 to R55, R58): what it picks on the grid of a binade, how the patterns of a format lie on that grid, and
that the delivered pattern is the value which the direction asks for (O8). -/

set_option Elab.async false

namespace Sys2Proof.Machine

/-! Rounding to an integer. -/

/-- `r` is what a direction picks for a value `u` between the integers `n` and `n + 1`, and `nx` tells whether `u` is not `n`. -/
structure Rounded (rm : Nat) (neg : Bool) (u : ℚ) (n r : Nat) (nx : Bool) : Prop where
  floor_le : (n : ℚ) ≤ u
  lt_succ : u < n + 1
  pick : r = n ∨ r = n + 1 ∧ (n : ℚ) < u
  flag : nx = true ↔ (n : ℚ) ≠ u
  near : rm = 0 → |(r : ℚ) - u| ≤ 1 / 2 ∧ (|(r : ℚ) - u| = 1 / 2 → r % 2 = 0)
  toward : rm = 1 ∨ rm = (if neg then 2 else 3) → r = n
  away : rm = (if neg then 3 else 2) → u ≤ r

section
variable {rm : Nat} {neg : Bool} {u : ℚ} {n r : Nat} {nx : Bool}

theorem Rounded.exact : Rounded rm neg n n n false where
  floor_le := le_rfl
  lt_succ := lt_add_one _
  pick := .inl rfl
  flag := by simp
  near := fun _ => by simp
  toward := fun _ => rfl
  away := fun _ => le_rfl

/-- The delivered integer is the value exactly when the lower integer is. -/
theorem Rounded.flag_iff (h : Rounded rm neg u n r nx) : nx = true ↔ (r : ℚ) ≠ u := by
  rw [h.flag]
  obtain rfl | ⟨rfl, hlt⟩ := h.pick
  · rfl
  · have := h.lt_succ
    push_cast
    exact ⟨fun _ => by linarith, fun _ => by linarith⟩

/-- The remainder `k` over the divisor `d` decides the direction. -/
theorem Rounded.of_remainder {k d : Nat} {up : Bool} (hkd : k < d) (hu : u = n + (k : ℚ) / d)
    (hup : up = true → k ≠ 0) (hnear : rm = 0 → (up = true ↔ d < 2 * k ∨ 2 * k = d ∧ n % 2 = 1))
    (htoward : rm = 1 ∨ rm = (if neg then 2 else 3) → up = false) (haway : rm = (if neg then 3 else 2) → k ≠ 0 → up = true) :
    Rounded rm neg u n (if up then n + 1 else n) (k != 0) := by
  have hd : (0 : ℚ) < d := by exact_mod_cast (Nat.zero_le k).trans_lt hkd
  have hk0 : 0 ≤ (k : ℚ) / d := by positivity
  have hk1 : (k : ℚ) / d < 1 := by rw [div_lt_one hd]; exact_mod_cast hkd
  have hpos : 0 < (k : ℚ) / d ↔ k ≠ 0 := by
    rw [div_pos_iff_of_pos_right hd, Nat.cast_pos, Nat.pos_iff_ne_zero]
  have hhalf : 1 / 2 < (k : ℚ) / d ↔ d < 2 * k := by
    rw [lt_div_iff₀ hd, ← Nat.cast_lt (α := ℚ)]
    push_cast
    constructor <;> intro h <;> linarith
  have htie : (k : ℚ) / d = 1 / 2 ↔ 2 * k = d := by
    rw [div_eq_iff hd.ne', ← Nat.cast_inj (R := ℚ)]
    push_cast
    constructor <;> intro h <;> linarith
  have hflag : (k != 0) = true ↔ (n : ℚ) ≠ u := by
    rw [bne_iff_ne, ← hpos, hu]
    exact ⟨fun h => by linarith, fun h => lt_of_le_of_ne hk0 fun h0 => h (by linarith)⟩
  cases up with
  | false =>
    refine ⟨by linarith, by linarith, .inl rfl, hflag, fun hrm => ?_, fun _ => rfl, fun hrm => ?_⟩
    · have hn := hnear hrm
      simp only [Bool.false_eq_true, false_iff, not_or, not_and] at hn
      have hle : (k : ℚ) / d ≤ 1 / 2 := not_lt.1 (mt hhalf.1 hn.1)
      have habs : |(n : ℚ) - u| = (k : ℚ) / d := by rw [hu, abs_sub_comm, abs_of_nonneg] <;> linarith
      simp only [Bool.false_eq_true, if_false, habs]
      exact ⟨hle, fun h => by have := hn.2 (htie.1 h); omega⟩
    · have hk : k = 0 := by_contra fun hk => Bool.false_ne_true (haway hrm hk)
      simp [hu, hk]
  | true =>
    have hk := hpos.2 (hup rfl)
    refine ⟨by linarith, by linarith, .inr ⟨rfl, by linarith⟩, hflag, fun hrm => ?_, fun hrm => ?_, fun _ => ?_⟩
    · have hor := (hnear hrm).1 rfl
      have hge : 1 / 2 ≤ (k : ℚ) / d := hor.elim (fun h => (hhalf.2 h).le) fun h => (htie.2 h.1).ge
      have habs : |((n + 1 : Nat) : ℚ) - u| = 1 - (k : ℚ) / d := by
        rw [hu, abs_of_nonneg] <;> push_cast <;> linarith
      simp only [if_true, habs]
      refine ⟨by linarith, fun h => ?_⟩
      have ht : 2 * k = d := htie.1 (by linarith)
      omega
    · exact absurd (htoward hrm) (by simp)
    · simp only [if_true]
      push_cast
      linarith

/-- To nearest: no value outside the gap is nearer, and of two as near the even one is taken. -/
theorem Rounded.nearest (h : Rounded rm neg u n r nx) (hrm : rm = 0) {v : ℚ} (hv : v ≤ n ∨ (n : ℚ) + 1 ≤ v) :
    |(r : ℚ) - u| ≤ |v - u| ∧ (|(r : ℚ) - u| = |v - u| → (r : ℚ) = v ∨ r % 2 = 0) := by
  obtain ⟨hhalf, htie⟩ := h.near hrm
  have hlo := h.floor_le
  have hhi := h.lt_succ
  obtain rfl | ⟨rfl, hlt⟩ := h.pick
  · rw [abs_of_nonpos (show (r : ℚ) - u ≤ 0 by linarith)] at hhalf htie ⊢
    obtain hv | hv := hv
    · rw [abs_of_nonpos (show v - u ≤ 0 by linarith)]
      exact ⟨by linarith, fun heq => .inl (by linarith)⟩
    · rw [abs_of_nonneg (show 0 ≤ v - u by linarith)]
      exact ⟨by linarith, fun heq => .inr (htie (by linarith))⟩
  · push_cast at hhalf htie ⊢
    rw [abs_of_nonneg (show 0 ≤ (n : ℚ) + 1 - u by linarith)] at hhalf htie ⊢
    obtain hv | hv := hv
    · rw [abs_of_nonpos (show v - u ≤ 0 by linarith)]
      exact ⟨by linarith, fun heq => .inr (htie (by linarith))⟩
    · rw [abs_of_nonneg (show 0 ≤ v - u by linarith)]
      exact ⟨by linarith, fun heq => .inl (by linarith)⟩

/-- Toward zero: the adjacent value below. -/
theorem Rounded.below (h : Rounded rm neg u n r nx) (hrm : rm = 1 ∨ rm = (if neg then 2 else 3)) {v : ℚ}
    (hv : v ≤ n ∨ (n : ℚ) + 1 ≤ v) : (r : ℚ) ≤ u ∧ (v ≤ u → v ≤ r) := by
  rw [h.toward hrm]
  exact ⟨h.floor_le, fun hvu => hv.elim id fun hv => absurd h.lt_succ (by linarith)⟩

/-- Away from zero: the adjacent value above. -/
theorem Rounded.above (h : Rounded rm neg u n r nx) (hrm : rm = (if neg then 3 else 2)) {v : ℚ}
    (hv : v ≤ n ∨ (n : ℚ) + 1 ≤ v) : u ≤ r ∧ (u ≤ v → (r : ℚ) ≤ v) := by
  refine ⟨h.away hrm, fun huv => ?_⟩
  obtain rfl | ⟨rfl, hlt⟩ := h.pick
  · linarith [h.floor_le]
  · push_cast
    exact hv.elim (fun hv => absurd hlt (by linarith)) id

/-- What the rounding of m · 2^e to a multiple of 2^q picks, in multiples of 2^q (R53). -/
theorem roundAt_rounded (rm : Nat) (neg : Bool) (m : Nat) (e q : Int) :
    ∃ n, Rounded rm neg (m * 2 ^ (e - q)) n (roundAt rm neg m e q).1 (roundAt rm neg m e q).2 := by
  unfold roundAt
  split
  case isTrue hq =>
    refine ⟨m * 2 ^ (e - q).toNat, ?_⟩
    have hu : (m : ℚ) * 2 ^ (e - q) = ((m * 2 ^ (e - q).toNat : Nat) : ℚ) := by
      push_cast
      rw [← zpow_natCast, Int.toNat_of_nonneg (by omega)]
    rw [hu]
    exact Rounded.exact
  case isFalse hq =>
    refine ⟨m / 2 ^ (q - e).toNat, ?_⟩
    have hk : ((q - e).toNat : Int) = q - e := Int.toNat_of_nonneg (by omega)
    have hu : (m : ℚ) * 2 ^ (e - q) = (m / 2 ^ (q - e).toNat : Nat) + ((m % 2 ^ (q - e).toNat : Nat) : ℚ) / (2 ^ (q - e).toNat : Nat) := by
      have hm : (m : ℚ) = (2 ^ (q - e).toNat : Nat) * (m / 2 ^ (q - e).toNat : Nat) + (m % 2 ^ (q - e).toNat : Nat) := by
        exact_mod_cast (Nat.div_add_mod m _).symm
      have hd : ((2 ^ (q - e).toNat : Nat) : ℚ) = 2 ^ (q - e) := by
        push_cast
        rw [← zpow_natCast, hk]
      rw [show e - q = -(q - e) by omega, zpow_neg, ← hd]
      have h0 : ((2 ^ (q - e).toNat : Nat) : ℚ) ≠ 0 := by positivity
      rw [← div_eq_mul_inv, div_eq_iff h0]
      conv_lhs => rw [hm]
      field_simp
    refine Rounded.of_remainder (Nat.mod_lt _ (Nat.two_pow_pos _)) hu ?_ ?_ ?_ ?_
    all_goals
      generalize m % 2 ^ (q - e).toNat = k
      generalize m / 2 ^ (q - e).toNat = j
      have hd := Nat.two_pow_pos (q - e).toNat
      generalize 2 ^ (q - e).toNat = d at hd
    · split <;> simp <;> omega
    · rintro rfl
      simp
    · rintro (rfl | h)
      · rfl
      · cases neg <;> simp_all
    · intro h hk
      cases neg <;> simp_all

end

/-! Values of magnitudes. -/

theorem dyadic_nonneg (m : Nat) (e : Int) : 0 ≤ dyadic m e := by unfold dyadic; positivity

/-- A magnitude in multiples of 2^q. -/
theorem dyadic_eq_mul (m : Nat) (e q : Int) : dyadic m e = m * 2 ^ (e - q) * 2 ^ q := by
  rw [dyadic, mul_assoc, ← zpow_add₀ (by norm_num), Int.sub_add_cancel]

theorem dyadic_lt_leadE (m : Nat) (e : Int) : dyadic m e < 2 ^ (leadE m e + 1) := by
  have h : (m : ℚ) < 2 ^ (m.log2 + 1) := by exact_mod_cast Nat.lt_log2_self
  unfold dyadic leadE
  rw [show e + (m.log2 : Int) + 1 = ((m.log2 + 1 : Nat) : Int) + e by push_cast; ring, zpow_add₀ (by norm_num), zpow_natCast]
  exact mul_lt_mul_of_pos_right h (by positivity)

theorem leadE_le_dyadic {m : Nat} (hm : 0 < m) (e : Int) : (2 : ℚ) ^ leadE m e ≤ dyadic m e := by
  have h : (2 : ℚ) ^ m.log2 ≤ m := by exact_mod_cast Nat.log2_self_le hm.ne'
  unfold dyadic leadE
  rw [add_comm, zpow_add₀ (by norm_num), zpow_natCast]
  exact mul_le_mul_of_nonneg_right h (by positivity)

/-! The magnitudes of a format's patterns (R45, R46). -/

/-- The significand of a pattern without its sign. -/
def Fmt.sig (f : Fmt) (b : Nat) : Nat := if b / 2 ^ f.fw = 0 then b % 2 ^ f.fw else 2 ^ f.fw + b % 2 ^ f.fw
/-- The exponent that goes with it. -/
def Fmt.exp (f : Fmt) (b : Nat) : Int :=
  if b / 2 ^ f.fw = 0 then f.emin - f.fw else ((b / 2 ^ f.fw : Nat) : Int) - f.bias - f.fw
/-- The magnitude of a pattern without its sign. -/
def Fmt.val (f : Fmt) (b : Nat) : ℚ := dyadic (f.sig b) (f.exp b)

/-- What a format has to satisfy for its patterns up to the largest finite one to be finite. -/
structure Fmt.Sound (f : Fmt) : Prop where
  fw_pos : 0 < f.fw
  maxb_lt : f.maxb < 2 ^ f.mag
  below_inf : f.hasInf = true → f.maxb / 2 ^ f.fw < 2 ^ f.ew - 1

section
variable {f : Fmt}

/-- A finite pattern is its sign with the magnitude of the rest. -/
theorem Fmt.decode_eq_fin {x n : Nat} {neg : Bool} {g : Int} (h : f.decode x = .fin neg n g) : dyadic n g = f.val (x % 2 ^ f.mag) := by
  unfold Fmt.val Fmt.sig Fmt.exp
  unfold Fmt.decode at h
  simp only at h
  split at h
  · split at h <;> cases h
  · split at h
    · cases h
    · split at h
      all_goals
        rename_i he
        cases h
        simp only [he, if_true, if_false]

/-- Every pattern up to the largest finite one is finite, with either sign that the format has. -/
theorem Fmt.decode_sign_add (hf : f.Sound) {neg : Bool} (hs : neg = true → f.signed = true) {b : Nat} (hb : b ≤ f.maxb) :
    f.decode (f.sign neg + b) = .fin neg (f.sig b) (f.exp b) := by
  have hlt : b < 2 ^ f.mag := hb.trans_lt hf.maxb_lt
  have hmod : (f.sign neg + b) % 2 ^ f.mag = b := by
    unfold Fmt.sign
    split
    · rw [Nat.add_mod_left, Nat.mod_eq_of_lt hlt]
    · rw [Nat.zero_add, Nat.mod_eq_of_lt hlt]
  have hneg : (f.signed && bitN (f.sign neg + b) f.mag) = neg := by
    unfold Fmt.sign bitN
    cases neg with
    | false => simp [Nat.div_eq_of_lt hlt]
    | true => simp [hs rfl, Nat.add_div_left _ (Nat.two_pow_pos f.mag), Nat.div_eq_of_lt hlt]
  have hinf : ¬ (f.hasInf = true ∧ b / 2 ^ f.fw = 2 ^ f.ew - 1) := fun ⟨h1, h2⟩ => by
    have h3 := hf.below_inf h1
    have h4 : b / 2 ^ f.fw ≤ f.maxb / 2 ^ f.fw := Nat.div_le_div_right hb
    omega
  have hnan : ¬ ((!f.hasInf) = true ∧ b = f.maxb + 1) := fun h => by omega
  unfold Fmt.decode Fmt.sig Fmt.exp
  simp only [hmod, hneg, if_neg hinf, if_neg hnan]
  split <;> rfl

/-- The pattern at place `r` of a binade's grid has the value `r` grid steps; the place at its end begins the next binade. -/
theorem Fmt.val_grid (t r : Nat) (hr : r ≤ 2 ^ (f.fw + 1)) (ht : t = 0 ∨ 2 ^ f.fw ≤ r) :
    f.val (t * 2 ^ f.fw + r) = r * 2 ^ (t + f.emin - f.fw) := by
  have hpos : 0 < 2 ^ f.fw := Nat.two_pow_pos _
  have hpow : 2 ^ (f.fw + 1) = 2 * 2 ^ f.fw := by rw [Nat.pow_succ']
  have hemin : f.emin = 1 - (f.bias : Int) := rfl
  unfold Fmt.val Fmt.sig Fmt.exp dyadic
  obtain hlt | hge := Nat.lt_or_ge r (2 ^ f.fw)
  · obtain rfl : t = 0 := by omega
    simp [Nat.div_eq_of_lt hlt, Nat.mod_eq_of_lt hlt]
  · obtain ⟨k, rfl⟩ := Nat.exists_eq_add_of_le hge
    rw [show t * 2 ^ f.fw + (2 ^ f.fw + k) = k + 2 ^ f.fw * (t + 1) by ring, Nat.add_mul_div_left _ _ hpos, Nat.add_mul_mod_self_left]
    obtain hk | hk := Nat.lt_or_ge k (2 ^ f.fw)
    · rw [Nat.div_eq_of_lt hk, Nat.mod_eq_of_lt hk, if_neg (by omega), if_neg (by omega), hemin]
      congr 2
      push_cast
      ring
    · obtain rfl : k = 2 ^ f.fw := by omega
      rw [Nat.div_self hpos, Nat.mod_self, if_neg (by omega), if_neg (by omega), hemin]
      push_cast
      rw [show (1 + ((t : Int) + 1)) - f.bias - f.fw = 1 + (t + (1 - f.bias) - f.fw) by ring, zpow_add₀ (by norm_num)]
      ring

/-- Patterns are ordered as their values are. -/
theorem Fmt.val_strictMono : StrictMono f.val := by
  refine strictMono_nat_of_lt_succ fun b => ?_
  have hpow : 2 ^ (f.fw + 1) = 2 * 2 ^ f.fw := by rw [Nat.pow_succ']
  have hpos : 0 < 2 ^ f.fw := Nat.two_pow_pos _
  obtain ⟨t, r, rfl, hr, ht⟩ : ∃ t r, b = t * 2 ^ f.fw + r ∧ r < 2 ^ (f.fw + 1) ∧ (t = 0 ∨ 2 ^ f.fw ≤ r) := by
    have hb := Nat.div_add_mod' b (2 ^ f.fw)
    have hm := Nat.mod_lt b hpos
    obtain h0 | h0 := Nat.eq_zero_or_pos (b / 2 ^ f.fw)
    · exact ⟨0, b, by omega, by rw [h0] at hb; omega, .inl rfl⟩
    · obtain ⟨t, ht⟩ := Nat.exists_eq_add_of_le' h0
      refine ⟨t, 2 ^ f.fw + b % 2 ^ f.fw, ?_, by omega, .inr (by omega)⟩
      rw [ht, Nat.add_mul] at hb
      omega
  rw [Nat.add_assoc, Fmt.val_grid t r hr.le ht, Fmt.val_grid t (r + 1) hr (by omega)]
  push_cast
  have : (0 : ℚ) < 2 ^ (t + f.emin - f.fw) := by positivity
  linarith

/-- The grid on which a value is rounded: the binade number `t` with its step, and the places `n` and `r` of the value's lower neighbour
and of its rounding. -/
structure Fmt.OnGrid (f : Fmt) (rm : Nat) (neg : Bool) (q : ℚ) (t n r : Nat) (nx : Bool) : Prop where
  rounded : Rounded rm neg (q / 2 ^ (t + f.emin - f.fw)) n r nx
  place : n < 2 ^ (f.fw + 1)
  binade : t = 0 ∨ 2 ^ f.fw ≤ n

section
variable {rm t n r : Nat} {neg nx : Bool} {q : ℚ} (h : f.OnGrid rm neg q t n r nx)
include h

theorem Fmt.OnGrid.val_lower : f.val (t * 2 ^ f.fw + n) = n * 2 ^ (t + f.emin - f.fw) := Fmt.val_grid t n h.place.le h.binade

theorem Fmt.OnGrid.val_upper : f.val (t * 2 ^ f.fw + (n + 1)) = (n + 1) * 2 ^ (t + f.emin - f.fw) := by
  have := Fmt.val_grid (f := f) t (n + 1) h.place (h.binade.imp_right (·.trans (Nat.le_succ n)))
  push_cast at this
  exact this

theorem Fmt.OnGrid.val_result : f.val (t * 2 ^ f.fw + r) = r * 2 ^ (t + f.emin - f.fw) := by
  obtain rfl | ⟨rfl, -⟩ := h.rounded.pick
  · exact h.val_lower
  · rw [h.val_upper]
    push_cast
    rfl

theorem Fmt.OnGrid.val_lower_le : f.val (t * 2 ^ f.fw + n) ≤ q := by
  rw [h.val_lower, ← le_div_iff₀ (by positivity)]
  exact h.rounded.floor_le

theorem Fmt.OnGrid.lt_val_upper : q < f.val (t * 2 ^ f.fw + (n + 1)) := by
  rw [h.val_upper, ← div_lt_iff₀ (by positivity)]
  exact h.rounded.lt_succ

/-- No pattern's value lies between the value's two neighbours. -/
theorem Fmt.OnGrid.no_value_between (b : Nat) :
    f.val b / 2 ^ (t + f.emin - f.fw) ≤ n ∨ (n : ℚ) + 1 ≤ f.val b / 2 ^ (t + f.emin - f.fw) := by
  rw [div_le_iff₀ (by positivity), le_div_iff₀ (by positivity), ← h.val_lower, ← h.val_upper]
  obtain hb | hb := Nat.lt_or_ge (t * 2 ^ f.fw + n) b
  · exact .inr (Fmt.val_strictMono.monotone hb)
  · exact .inl (Fmt.val_strictMono.monotone hb)

/-- The delivered pattern is the rounding of the value, as long as it is finite (R53, R58). -/
theorem Fmt.OnGrid.rounds (hf : f.Sound) (hs : neg = true → f.signed = true) (hle : t * 2 ^ f.fw + r ≤ f.maxb) {fl : Nat}
    (hfl : fl / fNX % 2 = 1 ↔ nx = true) : f.Rounds rm neg q (f.sign neg + (t * 2 ^ f.fw + r), fl) := by
  have hstep : (0 : ℚ) < 2 ^ (t + f.emin - f.fw) := by positivity
  have hresult := h.val_result
  have hR := h.rounded
  have hgap := h.no_value_between
  have hscale : ∀ x : ℚ, x = x / 2 ^ (t + f.emin - f.fw) * 2 ^ (t + f.emin - f.fw) := fun x => (div_mul_cancel₀ x hstep.ne').symm
  generalize (2 : ℚ) ^ (t + f.emin - f.fw) = S at hstep hresult hR hgap hscale
  have heven : r % 2 = 0 → (f.sign neg + (t * 2 ^ f.fw + r)) % 2 = 0 := fun hr => by
    have h1 : 2 ∣ f.sign neg := by
      unfold Fmt.sign
      split
      · exact dvd_pow_self 2 (by have := hf.fw_pos; unfold Fmt.mag; omega)
      · exact dvd_zero 2
    have h2 : 2 ∣ t * 2 ^ f.fw := (dvd_pow_self 2 hf.fw_pos.ne').mul_left t
    omega
  refine ⟨_, _, f.decode_sign_add hf hs hle, ?_, fun y a g hy => ?_⟩
  · rw [hfl, hR.flag_iff]
    show _ ↔ f.val _ ≠ q
    rw [hresult, ne_eq, ne_eq, ← eq_div_iff hstep.ne']
  · rw [Fmt.decode_eq_fin hy, show dyadic (f.sig _) (f.exp _) = r * S from hresult]
    have hv := hgap (y % 2 ^ f.mag)
    rw [hscale (f.val (y % 2 ^ f.mag)), hscale q]
    generalize f.val (y % 2 ^ f.mag) / S = v at hv ⊢
    generalize q / S = u at hR ⊢
    simp only [← sub_mul, abs_mul, abs_of_pos hstep, mul_le_mul_iff_of_pos_right hstep, mul_left_inj' hstep.ne']
    refine ⟨fun hrm => ?_, fun hrm => hR.below hrm hv, fun hrm => hR.above hrm hv⟩
    obtain ⟨hnearest, htie⟩ := hR.nearest hrm hv
    exact ⟨hnearest, fun heq => (htie heq).imp_right heven⟩

/-- What is rounded past the largest finite pattern lies above its value (R54). -/
theorem Fmt.OnGrid.overflow (hlt : f.maxb < t * 2 ^ f.fw + r) : f.val f.maxb < q := by
  obtain rfl | ⟨rfl, hn⟩ := h.rounded.pick
  · exact (Fmt.val_strictMono hlt).trans_le h.val_lower_le
  · refine lt_of_le_of_lt (Fmt.val_strictMono.monotone (show f.maxb ≤ t * 2 ^ f.fw + n by omega)) ?_
    rwa [h.val_lower, ← lt_div_iff₀ (by positivity)]

/-- Rounded away from zero, a value is at most what is delivered. -/
theorem Fmt.OnGrid.le_val_result (hrm : rm = (if neg then 3 else 2)) : q ≤ f.val (t * 2 ^ f.fw + r) := by
  rw [h.val_result, ← div_le_iff₀ (by positivity)]
  exact h.rounded.away hrm

end

end

/-- The one rounding of a nonzero value, as its place on a grid. -/
theorem Fmt.round_onGrid (f : Fmt) (rm : Nat) (neg : Bool) {m : Nat} (hm : 0 < m) (e : Int) :
    ∃ t n r nx, f.OnGrid rm neg (dyadic m e) t n r nx ∧
      f.round rm false neg m e =
        if f.maxb < t * 2 ^ f.fw + r then (f.ovfl rm neg, fOF + fNX)
        else (f.sign neg + (t * 2 ^ f.fw + r), if nx then fNX + (if f.tiny rm neg m e then fUF else 0) else 0) := by
  obtain ⟨t, ht⟩ : ∃ t : Nat, max (leadE m e) f.emin = t + f.emin := ⟨(max (leadE m e) f.emin - f.emin).toNat, by omega⟩
  obtain ⟨n, hR⟩ := roundAt_rounded rm neg m e (t + f.emin - f.fw)
  have hu : dyadic m e / 2 ^ (t + f.emin - f.fw) = m * 2 ^ (e - (t + f.emin - f.fw)) := by
    rw [dyadic_eq_mul m e (t + f.emin - f.fw), mul_div_cancel_right₀]
    positivity
  refine ⟨t, n, (roundAt rm neg m e (t + f.emin - f.fw)).1, (roundAt rm neg m e (t + f.emin - f.fw)).2, ⟨hu ▸ hR, ?_, ?_⟩, ?_⟩
  · have hlt : (n : ℚ) < 2 ^ (f.fw + 1) := by
      refine hR.floor_le.trans_lt ?_
      rw [← hu, div_lt_iff₀ (by positivity), ← zpow_natCast, ← zpow_add₀ (by norm_num)]
      refine (dyadic_lt_leadE m e).trans_le (zpow_le_zpow_right₀ (by norm_num) ?_)
      push_cast
      omega
    exact_mod_cast hlt
  · refine t.eq_zero_or_pos.imp_right fun hpos => ?_
    have hlt : (2 : ℚ) ^ f.fw < n + 1 := by
      refine lt_of_le_of_lt ?_ hR.lt_succ
      rw [← hu, le_div_iff₀ (by positivity), ← zpow_natCast, ← zpow_add₀ (by norm_num)]
      refine le_trans (zpow_le_zpow_right₀ (by norm_num) ?_) (leadE_le_dyadic hm e)
      omega
    exact Nat.lt_succ_iff.1 (by exact_mod_cast hlt)
  · have hplace : (t + f.emin - f.fw + f.fw + f.bias - 1).toNat = t := by
      unfold Fmt.emin
      omega
    simp only [Fmt.round, Bool.false_and, Bool.false_eq_true, if_false, if_neg hm.ne', ht, hplace]

/-- The formats of R45 are sound. -/
theorem Fmt.sound_of_mem {f : Fmt} (h : f ∈ [fmt64, fmt32, fmt16, fmtB16, fmtE4M3, fmtE5M2, fmtE5M3]) : f.Sound := by
  simp only [List.mem_cons, List.not_mem_nil, or_false] at h
  rcases h with rfl | rfl | rfl | rfl | rfl | rfl | rfl
  all_goals exact ⟨by decide, by decide, by decide⟩

/-- The one rounding, as long as it raises no OF. -/
theorem Fmt.round_rounds {f : Fmt} (hf : f.Sound) {neg : Bool} (hs : neg = true → f.signed = true) {rm m : Nat} (hm : 0 < m) {e : Int}
    (hof : (f.round rm false neg m e).2 / fOF % 2 = 0) : f.Rounds rm neg (dyadic m e) (f.round rm false neg m e) := by
  obtain ⟨t, n, r, nx, hgrid, hround⟩ := f.round_onGrid rm neg hm e
  rw [hround] at hof ⊢
  split at hof
  case isTrue hlt => exact absurd hof (show ¬ (fOF + fNX) / fOF % 2 = 0 by decide)
  case isFalse hle =>
    rw [if_neg hle]
    refine hgrid.rounds hf hs (Nat.le_of_not_lt hle) ?_
    cases nx <;> cases f.tiny rm neg m e <;> simp [fNX, fUF]

/-- The one rounding, where it raises OF (R54). -/
theorem Fmt.round_overflow {f : Fmt} {neg : Bool} {rm m : Nat} (hm : 0 < m) {e : Int}
    (hof : (f.round rm false neg m e).2 / fOF % 2 = 1) :
    f.round rm false neg m e = (f.ovfl rm neg, fOF + fNX) ∧ f.val f.maxb < dyadic m e := by
  obtain ⟨t, n, r, nx, hgrid, hround⟩ := f.round_onGrid rm neg hm e
  rw [hround] at hof ⊢
  split at hof
  case isTrue hlt => exact ⟨if_pos hlt, hgrid.overflow hlt⟩
  case isFalse hle =>
    refine absurd hof ?_
    cases nx <;> cases f.tiny rm neg m e <;> simp [fNX, fUF, fOF]

/-- Rounded away from zero, only a value above the largest finite one overflows. -/
theorem Fmt.round_overflow_of_lt {f : Fmt} {neg : Bool} {rm m : Nat} (hm : 0 < m) {e : Int} (hrm : rm = (if neg then 3 else 2))
    (hlt : f.val f.maxb < dyadic m e) : f.round rm false neg m e = (f.ovfl rm neg, fOF + fNX) := by
  obtain ⟨t, n, r, nx, hgrid, hround⟩ := f.round_onGrid rm neg hm e
  rw [hround, if_pos]
  by_contra hle
  exact absurd ((hgrid.le_val_result hrm).trans (Fmt.val_strictMono.monotone (Nat.le_of_not_lt hle))) (not_le.2 hlt)

/-- Settles O8: a value is rounded on the grid of its binade, whose two places around it are neighbouring patterns of the format. -/
theorem roundingIsCorrect : Obligations.RoundingIsCorrect := by
  unfold Obligations.RoundingIsCorrect
  intro f hf rm _ neg m e hm r hof
  have hsigned : f.signed = true := by
    simp only [List.mem_cons, List.not_mem_nil, or_false] at hf
    rcases hf with rfl | rfl | rfl | rfl | rfl | rfl <;> rfl
  have hmem : f ∈ [fmt64, fmt32, fmt16, fmtB16, fmtE4M3, fmtE5M2, fmtE5M3] := List.mem_append_left [fmtE5M3] hf
  exact Fmt.round_rounds (Fmt.sound_of_mem hmem) (fun _ => hsigned) hm hof

end Sys2Proof.Machine
end

