-- ==== Sys2Proof/Proofs/Conversions.lean ====
section
/-! The conversion words and what their conversions deliver for finite operands (R61 to R65, R106 to R108): O10. -/

set_option Elab.async false

namespace Sys2Proof.Machine

/-! The words. Each row of a table is a word that runs one of the shared conversions. -/

theorem wideOk_of_dst {d : RName} {wide : Bool} (h : (if wide then dst64 d else dst32 d) = true) : wideOk d wide := by
  cases wide with
  | false => exact wideOk_false d
  | true => exact wideOk_of_dst64 h

/-- A conversion of one element (R108). -/
theorem cvt1Word_completes {i : Instr} {wide pair : Bool} {src : State → Nat → Nat} {g : Nat → Nat → Flt} {d : RName} {a : Src} {s : State}
    (hi : exec i s = cvt1 ((if wide then dst64 d else dst32 d) && (if pair then Sys2Proof.src64 a else Sys2Proof.src32 a)) wide src g d a s)
    (hd : (if wide then dst64 d else dst32 d) = true) (ha : (if pair then Sys2Proof.src64 a else Sys2Proof.src32 a) = true)
    (hc : s.CanIssue [a]) :
    ∃ t, exec i s = .next t ∧
      VecWord s t d wide (fun n => BitVec.ofNat 64 (g s.rm (src s n)).1) (s.flagsOf fun n => (g s.rm (src s n)).2) :=
  hi ▸ cvt1_completes (Bool.and_eq_true_iff.2 ⟨hd, ha⟩) (wideOk_of_dst hd) hc

/-- A conversion of two elements into a pair of FP32 (R108). -/
theorem cvtWidenWord_completes {i : Instr} {f : Fmt} {sh w : Nat} {src : State → Nat → Nat} {d : RName} {a : Src} {s : State}
    (hi : exec i s = cvtWiden f sh w src d a s) (hd : dst64 d = true) (ha : Sys2Proof.src32 a = true) (hc : s.CanIssue [a]) :
    let x := fun n => src s n / 2 ^ sh
    let lo := fun n => cvtF f fmt32 0 false (x n % 2 ^ w)
    let hi := fun n => cvtF f fmt32 0 false (x n / 2 ^ w % 2 ^ w)
    ∃ t, exec i s = .next t ∧
      VecWord s t d true (fun n => BitVec.ofNat 64 ((lo n).1 + 2 ^ 32 * (hi n).1)) (s.flagsOf fun n => orF (lo n).2 (hi n).2) :=
  hi ▸ vecFlt_completes (Bool.and_eq_true_iff.2 ⟨hd, ha⟩) hc (wideOk_of_dst64 hd)

/-- A conversion of a pair of FP32 into two elements of D (R108). -/
theorem cvtNarrowWord_completes {i : Instr} {f : Fmt} {w sh : Nat} {keep nsat : Bool} {rm : Rm} {d : RName} {a : Src} {s : State}
    (hi : exec i s = cvtNarrow f w sh keep nsat rm d a s) (hd : (if keep then dstR d else dst32 d) = true)
    (ha : Sys2Proof.src64 a = true) (hc : s.CanIssue [a]) :
    let lo := fun n => cvtF fmt32 f (rmOf rm s.rm) nsat (s.srcPairF32 a n % 2 ^ 32)
    let hi := fun n => cvtF fmt32 f (rmOf rm s.rm) nsat (s.srcPairF32 a n / 2 ^ 32)
    let old := fun n => if keep then (s.cw.readV d.toNat n).toNat else 0
    ∃ t, exec i s = .next t ∧
      VecWord s t d false
        (fun n => BitVec.ofNat 64 (((lo n).1 + 2 ^ w * (hi n).1) * 2 ^ sh + (old n % 2 ^ sh + old n / 2 ^ (sh + 2 * w) * 2 ^ (sh + 2 * w))))
        (s.flagsOf fun n => orF (lo n).2 (hi n).2) :=
  hi ▸ vecFlt_completes (Bool.and_eq_true_iff.2 ⟨hd, ha⟩) hc (wideOk_false d)

/-! What is delivered. -/

/-- Every format of R45 but E5M3 has a sign. -/
theorem Fmt.signed_of_mem {f : Fmt} (h : f ∈ [fmt64, fmt32, fmt16, fmtB16, fmtE4M3, fmtE5M2]) : f.signed = true := by
  simp only [List.mem_cons, List.not_mem_nil, or_false] at h
  rcases h with rfl | rfl | rfl | rfl | rfl | rfl <;> rfl

/-- The rounding to a format with infinities, with FTZ off (R53, R54). -/
theorem Fmt.round_delivers {f : Fmt} (hf : f.Sound) (hinf : f.hasInf = true) {neg : Bool} (hs : neg = true → f.signed = true)
    (rm : Nat) {m : Nat} (hm : 0 < m) (e : Int) : f.Delivers rm false neg (dyadic m e) (f.round rm false neg m e) := by
  refine .inr ⟨by simp, Fmt.round_rounds hf hs hm, fun hof => ?_⟩
  obtain ⟨hround, hlt⟩ := Fmt.round_overflow hm hof
  refine ⟨?_, fun n g hmax => ?_⟩
  · rw [hround]
    simp only [Fmt.ovfl, hinf, Bool.true_and, Bool.or_eq_true, Bool.and_eq_true, beq_iff_eq, Bool.not_eq_true']
    cases neg <;> simp
  · rw [Fmt.decode_eq_fin hmax, Nat.mod_eq_of_lt hf.maxb_lt]
    exact hlt

theorem cvtF_fin {src : Fmt} {x m : Nat} {neg : Bool} {e : Int} (hx : src.decode x = .fin neg m e) (dst : Fmt) (rm : Nat) (nsat : Bool) :
    cvtF src dst rm nsat x =
      if dst.hasInf = false ∧ nsat = true ∧ (dst.round rm false neg m e).2 / fOF % 2 = 1 then (dst.nan, (dst.round rm false neg m e).2)
      else dst.round rm false neg m e := by
  simp only [cvtF, hx, Bool.and_eq_true, Bool.not_eq_true', beq_iff_eq, and_assoc]

theorem Fmt.round_zero (f : Fmt) (rm : Nat) (ftz neg : Bool) (e : Int) : f.round rm ftz neg 0 e = (f.sign neg, 0) := rfl

/-- To a format with infinities. -/
theorem cvtF_delivers {src dst : Fmt} {x m : Nat} {neg : Bool} {e : Int} (hx : src.decode x = .fin neg m e)
    (hdst : dst ∈ [fmt64, fmt32, fmt16, fmtB16, fmtE5M2]) (rm : Nat) :
    (0 < m → dst.Delivers rm false neg (dyadic m e) (cvtF src dst rm false x)) ∧ (m = 0 → cvtF src dst rm false x = (dst.sign neg, 0)) := by
  rw [cvtF_fin hx, if_neg (by simp)]
  have hprops : dst.Sound ∧ dst.hasInf = true ∧ dst.signed = true := by
    simp only [List.mem_cons, List.not_mem_nil, or_false] at hdst
    rcases hdst with rfl | rfl | rfl | rfl | rfl
    all_goals exact ⟨Fmt.sound_of_mem (by simp), rfl, rfl⟩
  obtain ⟨hsound, hinf, hsigned⟩ := hprops
  exact ⟨fun hm => Fmt.round_delivers hsound hinf (fun _ => hsigned) rm hm e, fun h0 => by rw [h0, Fmt.round_zero]⟩

theorem fmtE4M3_val_maxb : fmtE4M3.val fmtE4M3.maxb = 448 := by
  rw [Fmt.val, show fmtE4M3.sig fmtE4M3.maxb = 14 by decide, show fmtE4M3.exp fmtE4M3.maxb = 5 by decide, dyadic]
  norm_num

theorem fmtE5M3_val_maxb : fmtE5M3.val fmtE5M3.maxb = 114688 := by
  rw [Fmt.val, show fmtE5M3.sig fmtE5M3.maxb = 14 by decide, show fmtE5M3.exp fmtE5M3.maxb = 13 by decide, dyadic]
  norm_num

/-- To E4M3, past whose largest value a conversion saturates or, with .NSAT, gives the NaN (R62). -/
theorem cvtF_E4M3 {src : Fmt} {x m : Nat} {neg : Bool} {e : Int} (hx : src.decode x = .fin neg m e) (rm : Nat) (nsat : Bool) :
    let r := cvtF src fmtE4M3 rm nsat x
    (m = 0 → r = (fmtE4M3.sign neg, 0)) ∧ (0 < m → r.2 / fOF % 2 = 0 → fmtE4M3.Rounds rm neg (dyadic m e) r) ∧
      (r.2 / fOF % 2 = 1 → r = (if nsat then 0x7F else fmtE4M3.sign neg + 0x7E, fOF + fNX) ∧ 448 < dyadic m e) := by
  have hsound : fmtE4M3.Sound := Fmt.sound_of_mem (by simp)
  obtain rfl | hm := m.eq_zero_or_pos
  · have hr : cvtF src fmtE4M3 rm nsat x = (fmtE4M3.sign neg, 0) := by
      rw [cvtF_fin hx, Fmt.round_zero, if_neg (by simp)]
    rw [hr]
    exact ⟨fun _ => rfl, fun h => absurd h (lt_irrefl 0), fun h => absurd h (by simp)⟩
  · rw [cvtF_fin hx]
    refine ⟨fun h => absurd h hm.ne', fun _ hof => ?_, fun hof => ?_⟩
    · have hfl : (fmtE4M3.round rm false neg m e).2 / fOF % 2 = 0 := by
        split at hof <;> exact hof
      rw [if_neg fun h => by omega]
      exact Fmt.round_rounds hsound (fun _ => rfl) hm hfl
    · have hfl : (fmtE4M3.round rm false neg m e).2 / fOF % 2 = 1 := by
        split at hof <;> exact hof
      obtain ⟨hround, hlt⟩ := Fmt.round_overflow hm hfl
      rw [fmtE4M3_val_maxb] at hlt
      refine ⟨?_, hlt⟩
      rw [hround] at hfl ⊢
      cases nsat with
      | false => rw [if_neg (by simp)]; rfl
      | true => rw [if_pos ⟨rfl, rfl, hfl⟩]; rfl

theorem ruE5M3_eq (neg : Bool) (m : Nat) (e : Int) :
    ruE5M3 (.fin neg m e) = if m = 0 then (0, 0) else if neg then (0xFF, fNV + fNX) else fmtE5M3.round 2 false false m e := rfl

/-- To E5M3, upward (R65). -/
theorem ruE5M3_fin (neg : Bool) (m : Nat) (e : Int) :
    (m = 0 → ruE5M3 (.fin neg m e) = (0, 0)) ∧ (0 < m → neg = true → ruE5M3 (.fin neg m e) = (0xFF, fNV + fNX)) ∧
      (0 < m → neg = false → let r := ruE5M3 (.fin neg m e)
        (dyadic m e ≤ 114688 → fmtE5M3.Rounds 2 false (dyadic m e) r) ∧ (114688 < dyadic m e → r = (0xFE, fOF + fNX))) := by
  rw [ruE5M3_eq]
  refine ⟨fun h0 => if_pos h0, fun hm hneg => by rw [if_neg hm.ne', if_pos hneg], fun hm hneg => ?_⟩
  rw [if_neg hm.ne', if_neg (by simp [hneg])]
  rw [← fmtE5M3_val_maxb]
  refine ⟨fun hle => Fmt.round_rounds (Fmt.sound_of_mem (by simp)) (by simp) hm ?_, fun hlt => Fmt.round_overflow_of_lt hm rfl hlt⟩
  refine (Nat.mod_two_eq_zero_or_one _).resolve_right fun hof => ?_
  exact absurd (Fmt.round_overflow hm hof).2 (not_lt.2 hle)

/-- What a direction picks of a magnitude, with the sign, is an integer of the direction. -/
theorem Rounded.intRounds {rm : Nat} {neg : Bool} {u : ℚ} {n r : Nat} {nx : Bool} (hu : 0 ≤ u) (h : Rounded rm neg u n r nx) :
    IntRounds rm (if neg then -u else u) (if neg then -(r : ℤ) else r) := by
  have hlo := h.floor_le
  have hhi := h.lt_succ
  have hpick : (r : ℚ) = n ∨ (r : ℚ) = n + 1 ∧ (n : ℚ) < u := h.pick.imp (congrArg _) (.imp_left fun hr => by rw [hr]; push_cast; rfl)
  have htoward : rm = 1 ∨ rm = (if neg then 2 else 3) → (r : ℚ) = n := fun hrm => congrArg _ (h.toward hrm)
  have haway := h.away
  have hr : (0 : ℚ) ≤ r := r.cast_nonneg
  refine ⟨fun hrm => ?_, fun hrm => ?_, fun hrm => ?_, fun hrm => ?_⟩
  · obtain ⟨hhalf, htie⟩ := h.near hrm
    cases neg
    · simp only [Bool.false_eq_true, if_false, Int.cast_natCast]
      exact ⟨hhalf, fun heq => by have := htie heq; omega⟩
    · simp only [if_true, Int.cast_neg, Int.cast_natCast, neg_sub_neg, abs_sub_comm u]
      exact ⟨hhalf, fun heq => by have := htie heq; omega⟩
  · have hn := htoward (.inl hrm)
    have habs : |(((if neg then -(r : ℤ) else r : ℤ)) : ℚ)| = r ∧ |(if neg then -u else u)| = u := by
      cases neg <;> simp [abs_of_nonneg hu]
    rw [habs.1, habs.2]
    refine ⟨by linarith, by linarith, ?_⟩
    cases neg <;> simp <;> positivity
  · cases neg
    · have := haway hrm
      simp only [Bool.false_eq_true, if_false, Int.cast_natCast]
      rcases hpick with hp | ⟨hp, hlt⟩ <;> constructor <;> linarith
    · have := htoward (.inr hrm)
      simp only [if_true, Int.cast_neg, Int.cast_natCast]
      constructor <;> linarith
  · cases neg
    · have := htoward (.inr hrm)
      simp only [Bool.false_eq_true, if_false, Int.cast_natCast]
      constructor <;> linarith
    · have := haway hrm
      simp only [if_true, Int.cast_neg, Int.cast_natCast]
      rcases hpick with hp | ⟨hp, hlt⟩ <;> constructor <;> linarith

/-- To an integer: the integer of the direction, or the nearer limit with NV alone (R63). -/
theorem toInt_rounds {src : Fmt} {x m : Nat} {neg : Bool} {e : Int} (hx : src.decode x = .fin neg m e) (w : Nat) (signed : Bool) (rm : Nat) :
    let lo : ℤ := if signed then -(2 ^ (w - 1)) else 0
    let hi : ℤ := if signed then 2 ^ (w - 1) - 1 else 2 ^ w - 1
    ∃ v, IntRounds rm (signedDy neg m e) v ∧ toInt src w signed rm x =
      if v < lo then ((lo % 2 ^ w).toNat, fNV) else if hi < v then ((hi % 2 ^ w).toNat, fNV)
      else ((v % 2 ^ w).toNat, if (v : ℚ) = signedDy neg m e then 0 else fNX) := by
  intro lo hi
  have hlo : lo ≤ 0 := by unfold lo; split <;> simp
  have hpow : ∀ k : Nat, (1 : ℤ) ≤ 2 ^ k := fun k => one_le_pow₀ one_le_two
  have hhi : 0 ≤ hi := by unfold hi; split <;> linarith [hpow w, hpow (w - 1)]
  obtain ⟨n, hR⟩ := roundAt_rounded rm neg m e 0
  rw [Int.sub_zero] at hR
  have hu : signedDy neg m e = if neg then -(m * 2 ^ e : ℚ) else m * 2 ^ e := rfl
  have hint := hu ▸ hR.intRounds (dyadic_nonneg m e)
  have hflag : (((if neg then -((roundAt rm neg m e 0).1 : ℤ) else (roundAt rm neg m e 0).1 : ℤ) : ℚ) = signedDy neg m e) ↔
      ¬ (roundAt rm neg m e 0).2 = true := by
    rw [hR.flag_iff, hu, not_not]
    cases neg <;> simp
  have hsign : if neg then (if neg then -((roundAt rm neg m e 0).1 : ℤ) else (roundAt rm neg m e 0).1) ≤ 0
      else 0 ≤ (if neg then -((roundAt rm neg m e 0).1 : ℤ) else (roundAt rm neg m e 0).1) := by
    cases neg <;> simp
  refine ⟨_, hint, ?_⟩
  simp only [toInt, hx]
  generalize (if neg then -((roundAt rm neg m e 0).1 : ℤ) else (roundAt rm neg m e 0).1) = v at hflag hsign ⊢
  generalize (roundAt rm neg m e 0).2 = nx at hflag ⊢
  show (if v < lo ∨ hi < v then ((((if neg then lo else hi) % 2 ^ w).toNat, fNV) : Flt) else ((v % 2 ^ w).toNat, if nx then fNX else 0)) = _
  clear_value lo hi
  by_cases h1 : v < lo
  · have hneg : neg = true := by
      cases neg with
      | false => exact absurd hsign (by simp; omega)
      | true => rfl
    rw [if_pos (.inl h1), if_pos h1, if_pos hneg]
  · rw [if_neg h1]
    by_cases h2 : hi < v
    · have hneg : ¬ neg = true := by
        rintro rfl
        exact absurd hsign (by simp; omega)
      rw [if_pos (.inr h2), if_pos h2, if_neg hneg]
    · rw [if_neg (by tauto), if_neg h2]
      cases nx <;> simp [hflag]

/-- From an integer (R64). -/
theorem fromInt_delivers {dst : Fmt} (hdst : dst ∈ [fmt64, fmt32]) (rm : Nat) (v : ℤ) :
    (v ≠ 0 → dst.Delivers rm false (v < 0) |(v : ℚ)| (fromInt dst rm v)) ∧ fromInt dst rm 0 = (0, 0) := by
  have hprops : dst.Sound ∧ dst.hasInf = true ∧ dst.signed = true := by
    simp only [List.mem_cons, List.not_mem_nil, or_false] at hdst
    rcases hdst with rfl | rfl
    all_goals exact ⟨Fmt.sound_of_mem (by simp), rfl, rfl⟩
  obtain ⟨hsound, hinf, hsigned⟩ := hprops
  refine ⟨fun hv => ?_, by simp [fromInt, Fmt.round_zero, Fmt.sign]⟩
  have habs : |(v : ℚ)| = dyadic v.natAbs 0 := by
    rw [dyadic, zpow_zero, mul_one, Nat.cast_natAbs, Int.cast_abs]
  rw [habs]
  exact Fmt.round_delivers hsound hinf (fun _ => hsigned) rm (Int.natAbs_pos.2 hv) 0

/-- Settles O10: each word is one of the shared conversions, and each conversion is one rounding. -/
theorem conversionWords : Obligations.ConversionWords := by
  unfold Obligations.ConversionWords
  refine ⟨fun e he d a s hd ha hc => ?_, fun e he d a rm s hd ha hc => ?_, fun e he d a s hd ha hc => ?_,
    fun e he d a rm s hd ha hc => ?_, fun src _ x neg m e hx rm _ => ?_, fun dst hdst rm _ v => fromInt_delivers hdst rm v⟩
  · refine cvt1Word_completes (src := fun s n => e.2.2.2.1 s a n) (g := fun _ x => e.2.2.2.2 0 x) ?_ hd ha hc
    simp only [List.mem_cons, List.not_mem_nil, or_false] at he
    rcases he with rfl | rfl | rfl | rfl | rfl
    all_goals rfl
  · refine cvt1Word_completes (src := fun s n => e.2.2.2.1 s a n) (g := fun m x => e.2.2.2.2 (rmOf rm m) x) ?_ hd ha hc
    simp only [List.mem_cons, List.not_mem_nil, or_false] at he
    rcases he with rfl | rfl | rfl | rfl | rfl | rfl | rfl | rfl | rfl | rfl | rfl | rfl | rfl | rfl | rfl
    all_goals rfl
  · refine cvtWidenWord_completes (src := fun s n => e.2.2.2.2 s a n) ?_ hd ha hc
    simp only [List.mem_cons, List.not_mem_nil, or_false] at he
    rcases he with rfl | rfl | rfl | rfl | rfl | rfl
    all_goals rfl
  · refine cvtNarrowWord_completes ?_ hd ha hc
    simp only [List.mem_cons, List.not_mem_nil, or_false] at he
    rcases he with rfl | rfl | rfl | rfl | rfl | rfl | rfl | rfl
    all_goals rfl
  · obtain ⟨hzero, hbelow, hupward⟩ := ruE5M3_fin neg m e
    rw [hx]
    exact ⟨fun dst hdst => cvtF_delivers hx hdst rm, cvtF_E4M3 hx rm, hzero, hbelow, hupward,
      fun w _ signed => toInt_rounds hx w signed rm⟩

end Sys2Proof.Machine
end

