-- ==== Sys2Proof/Proofs/EngineChains.lean ====
section
/-! The copy, gather and collective engines: starting an entry, beats, and the end of a command (R174 to R181, R321, R326). -/

set_option Elab.async false

namespace Sys2Proof.Machine

/-! Starting an entry. -/

/-- The oldest queued entry can be taken; an ORDER entry only as the oldest of its chain (R174). -/
theorem Chain.takeable_eq {h : Chain} {e : Entry} (hq : h.entries.find? (fun x => x.st == .queued) = some e)
    (ho : ctlOrder e.desc = true → h.entries.head?.map (·.seq) = some e.seq) : h.takeable = some e := by
  unfold Chain.takeable
  rw [hq]
  refine if_neg ?_
  rw [Bool.and_eq_true, bne_iff_ne]
  exact fun hc => hc.2 (ho hc.1)

/-- An engine with a place takes the entry whose turn it is: a tree command takes its round, or ends where its tree is out of
service (R174, R321, R404, R406). -/
theorem engineEntryStart_takes {s : State} {core cls : Nat} {e : Entry} (hcls : cls < 3) (hdbg : (s.die (dieOf core)).dbg = false)
    (htake : ((s.core core).chain cls).takeable = some e) (hbusy : s.engBusy core cls < engPlaces cls) (hturn : s.engTurn core cls = true) :
    let u := s.modDie (dieOf core) fun x => { x with engNext := x.engNext.set (engKey core cls) (core % engSize cls + 1) }
    let tree := cls = 2 ∧ bitN (dw e.desc 2) 4 = true
    let n := field (dw e.desc 2) 8 4
    let k := core % 64 / 4
    let ent := (s.die (dieOf core)).treeEnt n (clusterRouter k)
    let on := (s.die (dieOf core)).treeOn n = true ∧ entLocal ent = true ∧ entV ent = true
    (¬ tree → exec (.engineEntryStart core cls) s = .next (u.modEntry core cls e.seq fun x => { x with st := .running })) ∧
    (tree → on → exec (.engineEntryStart core cls) s = .next ((u.modEntry core cls e.seq fun x =>
      { x with st := .running, round := (s.tree (dieOf core) n).rounds.get k 0 }).modTree (dieOf core) n fun v =>
        { v with rounds := v.rounds.set k ((s.tree (dieOf core) n).rounds.get k 0 + 1) })) ∧
    (tree → ¬ on → exec (.engineEntryStart core cls) s = .next (u.completeEntry core cls e.seq (some (0x1D, dw64 e.desc 7)))) := by
  intro u tree n k ent on
  have hgo : (3 ≤ cls || (s.die (dieOf core)).dbg || engPlaces cls ≤ s.engBusy core cls || !s.engTurn core cls) = false := by
    simp [hdbg, hturn, hcls, hbusy]
  have hoff : (!(s.die (dieOf core)).treeOn n || !entLocal ent || !entV ent) = true ↔ ¬ on := by
    simp only [on, Bool.or_eq_true, Bool.not_eq_true', ← Bool.not_eq_true, not_and_or, or_assoc]
  rw [exec_engineEntryStart]
  unfold execEngineEntryStart
  rw [htake]
  simp only [hgo, Bool.false_eq_true, if_false]
  refine ⟨fun ht => if_neg ht, fun ht hon => ?_, fun ht hon => ?_⟩
  · exact (if_pos ht).trans (if_neg (mt hoff.1 (not_not.2 hon)))
  · exact (if_pos ht).trans (if_pos (hoff.2 hon))

/-! Beats. -/

/-- A beat out of turn does nothing (R321). -/
theorem engineBeat_waits {s : State} {core cls seq beat : Nat} {e : Entry}
    (hfind : ((s.core core).chain cls).entries.find? (fun x => x.seq == seq) = some e) (hturn : s.beatTurn core cls seq = false) :
    exec (.engineBeat core cls seq beat) s = .next s := by
  rw [exec_engineBeat, execEngineBeat, hfind]
  exact if_pos (.inr (.inr (.inr (.inr (by rw [hturn]; rfl)))))

/-- A write to the scratchpad of a group on a plate in service (R176, R337). -/
theorem State.dstWrite_scratchpad {s : State} {core : Nat} {e : Entry} (hdsp : ctlDsp e.desc = 1) (hin : s.inService core = true)
    (horphan : e.orphan = false) (hgroup : s.groups.has e.gid = true) (a n v : Nat) (ps : List (Nat × Nat × Nat)) :
    s.dstWrite core e a n v ps = s.modGroup e.gid fun g => g.spPut a n v := by
  rw [State.dstWrite, hdsp]
  exact if_pos (by rw [hin, horphan, hgroup]; rfl)

theorem FMap.has_upd {α : Type} {m : FMap α} {k : Nat} (h : m.has k = true) (d : α) (f : α → α) : (m.upd k d f).has k = true := by
  rw [FMap.upd, FMap.has_set, h, Bool.or_true]

/-- What beats write one after another into a scratchpad, each with a value of its own. -/
theorem State.dstWrites_scratchpad {core : Nat} {e : Entry} (hdsp : ctlDsp e.desc = 1) (horphan : e.orphan = false) (val : Beat → Nat)
    (bs : List Beat) {s : State} (hin : s.inService core = true) (hgroup : s.groups.has e.gid = true) :
    let t := bs.foldl (fun u b => u.dstWrite core e b.dst b.len (val b) []) s
    t.mem = s.mem ∧ t.group e.gid = bs.foldl (fun (g : Group) b => g.spPut b.dst b.len (val b)) (s.group e.gid) := by
  induction bs generalizing s with
  | nil => exact ⟨rfl, rfl⟩
  | cons b bs ih =>
    rw [List.foldl_cons, List.foldl_cons, State.dstWrite_scratchpad hdsp hin horphan hgroup]
    obtain ⟨hm, hg⟩ := ih (s := s.modGroup e.gid fun g => g.spPut b.dst b.len (val b)) hin
      (by rw [State.modGroup_groups]; exact FMap.has_upd hgroup _ _)
    exact ⟨hm, hg.trans (by rw [State.group_modGroup_self])⟩

/-- Between scratchpad ranges a beat meets no page: it reads its values, then writes them (R176). -/
theorem State.moveBeat_scratchpad (s : State) {core : Nat} {e : Entry} (hssp : ctlSsp e.desc = 1) (hdsp : ctlDsp e.desc = 1) (beat : Nat)
    (bs : List Beat) :
    s.moveBeat core 0 e beat bs =
      (bs.foldl (fun u b => u.dstWrite core e b.dst b.len (s.srcVal e b.srcs (b.srcs.map fun _ => Span.ok [])) []) s).beatDone core 0 e.seq
        beat := by
  have hspan : ∀ va n w, s.spanIn core e 1 va n w = .ok [] := fun _ _ _ => rfl
  have hreads : ∀ x ∈ (bs.map fun b => b.srcs.map fun _ => Span.ok []).flatten, x = Span.ok [] := fun x hx => by
    simp only [List.mem_flatten, List.mem_map] at hx
    obtain ⟨l, ⟨b, -, rfl⟩, hx⟩ := hx
    exact List.eq_of_mem_map_const hx
  have hvisits : ∀ (l : List Span), (∀ x ∈ l, x = Span.ok []) →
      l.find? (fun x => !x.isOk) = none ∧ l.foldl (fun u r => u.visit (dieOf core) e.ctx (ctlHint e.desc) r.parts) s = s := fun l hl => by
    induction l with
    | nil => exact ⟨rfl, rfl⟩
    | cons x l ih =>
      obtain rfl := hl x (List.mem_cons_self ..)
      exact ih fun y hy => hl y (List.mem_cons_of_mem _ hy)
  unfold State.moveBeat
  simp only [hssp, hdsp, hspan, (hvisits _ hreads).1, (hvisits _ hreads).2]
  have hwrites : (bs.map fun _ => Span.ok []).find? (fun x => !x.isOk) = none := by
    simp [Span.isOk]
  rw [hwrites]
  rw [List.zip_map', ← List.map_prod_left_eq_zip, List.foldl_map]
  rfl

/-- What a command reads of a scratchpad depends on the groups alone. -/
theorem State.srcVal_scratchpad {s t : State} {e : Entry} (hssp : ctlSsp e.desc = 1) (hg : t.groups = s.groups) (srcs : List (Nat × Nat))
    (ps : List Span) : t.srcVal e srcs ps = s.srcVal e srcs ps := by
  induction srcs generalizing ps with
  | nil => rfl
  | cons q srcs ih =>
    cases ps with
    | nil => rfl
    | cons p ps =>
      have hread : t.srcRead e q.1 q.2 p.parts = s.srcRead e q.1 q.2 p.parts := by
        simp only [State.srcRead, hssp, if_true, State.group, hg]
      show t.srcRead e q.1 q.2 p.parts + _ = s.srcRead e q.1 q.2 p.parts + _
      rw [hread, ih]

/-- A beat of a copy between scratchpad ranges (R176). -/
theorem engineBeat_copies {s : State} {core seq beat : Nat} {e : Entry} {bs : List Beat} (hdbg : (s.die (dieOf core)).dbg = false)
    (hfind : (s.core core).copy.entries.find? (fun x => x.seq == seq) = some e) (hst : e.st = .running) (hdone : e.done.has beat = false)
    (hturn : s.beatTurn core 0 seq = true) (hssp : ctlSsp e.desc = 1) (hdsp : ctlDsp e.desc = 1) (hbs : cpyPieces e.desc beat = some bs)
    (hin : s.inService core = true) (horphan : e.orphan = false) (hgroup : s.groups.has e.gid = true) :
    ∃ t, exec (.engineBeat core 0 seq beat) s = .next t ∧ t.mem = s.mem ∧ t.group e.gid = bs.foldl
      (fun (g : Group) b => g.spPut b.dst b.len (s.srcVal e b.srcs (b.srcs.map fun _ => Span.ok []))) (s.group e.gid) := by
  have hgo : ¬ (e.st ≠ .running ∨ e.done.has beat = true ∨ (s.die (dieOf core)).dbg = true ∨ 3 ≤ 0 ∨ (!s.beatTurn core 0 seq) = true) := by
    simp [hst, hdone, hdbg, hturn]
  have hexec : exec (.engineBeat core 0 seq beat) s = .next ((s.tookTurn core 0 seq).moveBeat core 0 e beat bs) := by
    rw [exec_engineBeat, execEngineBeat, show ((s.core core).chain 0).entries.find? (fun x => x.seq == seq) = some e from hfind]
    refine (if_neg hgo).trans ?_
    rw [hbs]
    rfl
  have hin' : (s.tookTurn core 0 seq).inService core = true := by
    rw [State.inService, State.tookTurn, State.die_modDie_self]
    exact hin
  obtain ⟨hmem, hg⟩ := State.dstWrites_scratchpad hdsp horphan (fun b => s.srcVal e b.srcs (b.srcs.map fun _ => Span.ok [])) bs hin' hgroup
  refine ⟨_, hexec, ?_⟩
  rw [State.moveBeat_scratchpad _ hssp hdsp]
  have hval : ∀ srcs ps, (s.tookTurn core 0 seq).srcVal e srcs ps = s.srcVal e srcs ps := fun _ _ =>
    State.srcVal_scratchpad (s := s) (t := s.tookTurn core 0 seq) hssp rfl ..
  simp only [hval]
  exact ⟨hmem, hg⟩

/-- An element of a reduction to memory is combined at its place (R178, R326). -/
theorem xredElement_combines {s u : State} {core seq elem src : Nat} {e : Entry} {rp ps : List (Nat × Nat × Nat)}
    (hu : s.tookTurn core 2 seq = u) (hsrc : (if ctlSsp e.desc = 0 then dw64 e.desc 5 else dw e.desc 5) + 4 * elem = src)
    (hdbg : (s.die (dieOf core)).dbg = false) (hfind : (s.core core).coll.entries.find? (fun x => x.seq == seq) = some e)
    (hst : e.st = .running) (hdone : e.done.has elem = false) (hturn : s.beatTurn core 2 seq = true) (htree : bitN (dw e.desc 2) 4 = false)
    (hlt : elem < dw e.desc 1) (hrp : u.spanIn core e (ctlSsp e.desc) src 4 false = .ok rp)
    (hps : u.span (dieOf core) e.ctx e.lid (dw64 e.desc 7 + 4 * elem) 4 true true = .ok ps)
    (hplain : ∀ q ∈ ps, leafCC q.2.1 ≠ 3 ∧ ¬ (hostBase ≤ q.1 ∧ q.1 < fabBase) ∧ isCtl q.1 = false) :
    ∃ t, exec (.xredElement core seq elem) s = .next t ∧
      t.mem = ((u.visit (dieOf core) e.ctx (ctlHint e.desc) (rp ++ ps)).writeParts e.ctx
        (xredOp (field (dw e.desc 2) 0 4) (BitVec.ofNat 32 (u.readParts ps)) (BitVec.ofNat 32 (u.srcRead e src 4 rp))).toNat ps).mem := by
  have hgo : ¬ (e.st ≠ .running ∨ e.done.has elem = true ∨ (s.die (dieOf core)).dbg = true ∨ bitN (dw e.desc 2) 4 = true ∨
      dw e.desc 1 ≤ elem ∨ (!s.beatTurn core 2 seq) = true) := by
    simp [hst, hdone, hdbg, hturn, htree, hlt]
  have hany : (ps.any fun q => leafCC q.2.1 == 3 || (hostBase ≤ q.1 && q.1 < fabBase) || isCtl q.1) = false := by
    rw [List.any_eq_false]
    intro q hq
    obtain ⟨hcc, hhost, hctl⟩ := hplain q hq
    simpa [hcc, hctl] using hhost
  have hexec : exec (.xredElement core seq elem) s = .next (((u.visit (dieOf core) e.ctx (ctlHint e.desc) (rp ++ ps)).writeParts e.ctx
      (xredOp (field (dw e.desc 2) 0 4) (BitVec.ofNat 32 (u.readParts ps)) (BitVec.ofNat 32 (u.srcRead e src 4 rp))).toNat ps).beatDone
        core 2 seq elem) := by
    rw [exec_xredElement, execXredElement, hfind]
    refine (if_neg hgo).trans ?_
    rw [hu, hsrc]
    dsimp only
    rw [hrp]
    dsimp only
    rw [hps]
    dsimp only
    rw [hany, if_neg Bool.false_ne_true]
  exact ⟨_, hexec, State.beatDone_mem ..⟩

/-! The end of a command. -/

@[simp] theorem Core.chain_modChain (c : Core) (cls : Nat) (f : Chain → Chain) : (c.modChain cls f).chain cls = f (c.chain cls) :=
  match cls with
  | 0 => rfl
  | 1 => rfl
  | _ + 2 => rfl

@[simp] theorem Core.modChain_tags (c : Core) (cls : Nat) (f : Chain → Chain) : (c.modChain cls f).tags = c.tags := by
  unfold Core.modChain
  split <;> rfl

/-- An entry that completes next in order and names no completion word raises CHDONE alone (R179). -/
theorem Chain.reach_next {h : Chain} (hnamed : h.named = []) {d : Done} (hfin : h.fin = [d]) (hseq : d.seq = h.done + 1) (hval : d.val = 0)
    (hcmpl : d.cmpl = 0) : h.reach = { h with done := d.seq, fin := [] } := by
  have hreach : reachDone h.fin h.fin.length h.done = d.seq := by
    rw [hfin, hseq]
    simp [reachDone, hseq]
  unfold Chain.reach
  rw [hreach]
  simp [hfin, hnamed, hseq, hval, hcmpl]

/-- CHDONE rises over the one entry that has completed, which names no completion word: none is written (R179). -/
theorem State.completionWords_reach {s : State} {core cls : Nat} {h : Chain} {d : Done} (hh : (s.core core).chain cls = h)
    (hnamed : h.named = []) (hfin : h.fin = [d]) (hseq : d.seq = h.done + 1) (hval : d.val = 0) (hcmpl : d.cmpl = 0) :
    let t := s.modCore core fun c => c.modChain cls Chain.reach
    t.completionWords core cls ((t.core core).chain cls).fin.length = t ∧ (t.core core).chain cls = { h with done := d.seq, fin := [] } := by
  intro t
  have ht : (t.core core).chain cls = { h with done := d.seq, fin := [] } := by
    rw [State.core_modCore_self, Core.chain_modChain, hh, Chain.reach_next hnamed hfin hseq hval hcmpl]
  refine ⟨?_, ht⟩
  rw [ht]
  rfl

/-- A completed command's tag is set (R181). -/
theorem getLsbD_or_twoPow (v : W64) {n : Nat} (h : n < 64) : (v ||| BitVec.ofNat 64 (2 ^ n)).getLsbD n = true := by
  rw [BitVec.getLsbD_or, BitVec.getLsbD_ofNat, Nat.testBit_two_pow_self, decide_eq_true h, Bool.and_self, Bool.or_true]

/-- What the chain keeps of a completed entry until CHDONE reaches it (R179). -/
def Entry.ending (e : Entry) (seq : Nat) : Done :=
  { seq := seq, cmpl := BitVec.ofNat 64 (dw64 e.desc 9), gid := e.gid, slot := e.slot, ctx := e.ctx, lid := e.lid, own := e.own, hint := ctlHint e.desc }

/-- A core whose entry has ended without error: the entry stands among the completed ones, and its tag is set (R179, R181). -/
def Core.entryEnded (c : Core) (cls seq : Nat) (e : Entry) : Core :=
  let c1 := c.modChain cls fun h => { h with entries := h.entries.filter fun x => x.seq != seq, fin := insertDone (e.ending seq) h.fin, err := h.err || false }
  { c1 with tags := if e.tag < 64 ∧ !e.orphan then c1.tags ||| BitVec.ofNat 64 (2 ^ e.tag) else c1.tags }

theorem Core.entryEnded_chain (c : Core) (cls seq : Nat) (e : Entry) : (c.entryEnded cls seq e).chain cls =
    { c.chain cls with entries := (c.chain cls).entries.filter fun x => x.seq != seq, fin := insertDone (e.ending seq) (c.chain cls).fin } :=
  (Core.chain_modChain c cls _).trans (by rw [Bool.or_false])

theorem Core.entryEnded_tag (c : Core) (cls seq : Nat) {e : Entry} (htag : e.tag < 64) (horphan : e.orphan = false) :
    (c.entryEnded cls seq e).tags.getLsbD e.tag = true := by
  unfold Core.entryEnded
  dsimp only
  rw [if_pos ⟨htag, by rw [horphan]; rfl⟩]
  exact getLsbD_or_twoPow _ htag

/-- The state in which an entry has ended without error, its flag lowered, and CHDONE has still to rise. -/
def State.entryEnded (s : State) (core cls seq : Nat) (e : Entry) : State :=
  (s.modCore core fun c => c.entryEnded cls seq e).modWave (waveKey core e.slot) fun w =>
    if w.gid = some e.gid ∧ !e.orphan then w.lower e.flag else w

/-- An entry that is not the copy of a CPYM ends without error. -/
theorem State.completeEntry_ok {s : State} {core cls seq : Nat} {e : Entry}
    (hfind : ((s.core core).chain cls).entries.find? (fun x => x.seq == seq) = some e) (hcpym : cls = 0 → e.cpym = false) :
    s.completeEntry core cls seq none =
      let t := (s.entryEnded core cls seq e).modCore core fun c => c.modChain cls Chain.reach
      t.completionWords core cls ((t.core core).chain cls).fin.length := by
  have hplain : ¬ (cls = 0 ∧ e.cpym = true) := fun hc => by simp [hcpym hc.1] at hc
  unfold State.completeEntry
  rw [hfind]
  dsimp only
  rw [if_neg hplain]
  rfl

/-- A landed command that nothing holds back completes: it leaves its chain, CHDONE rises to it, and its tag and its flag tell so
(R178, R179, R181). -/
theorem engineCommandComplete_ends {s : State} {core cls seq : Nat} {e : Entry} {h : Chain} (hh : (s.core core).chain cls = h)
    (hseq : seq ≠ 0) (hfind : h.entries.find? (fun x => x.seq == seq) = some e) (hst : e.st = .landed) (hlate : e.late = false)
    (hcpym : cls = 0 → e.cpym = false) (horphan : e.orphan = false) (hfin : h.fin = []) (hnamed : h.named = []) (hdone : h.done + 1 = seq)
    (hword : dw64 e.desc 9 = 0) (hgid : (s.wave (waveKey core e.slot)).gid = some e.gid) (hflag : e.flag < 12) :
    ∃ t, exec (.engineCommandComplete core cls seq) s = .next t ∧ t.mem = s.mem ∧
      (t.core core).chain cls = { h with done := seq, fin := [], entries := h.entries.filter fun x => x.seq != seq } ∧
      (e.tag < 64 → (t.core core).tags.getLsbD e.tag = true) ∧
      (t.wave (waveKey core e.slot)).flags.get e.flag 0 = (s.wave (waveKey core e.slot)).flags.get e.flag 0 - 1 := by
  have hcore : (s.entryEnded core cls seq e).core core = (s.core core).entryEnded cls seq e := by
    rw [State.entryEnded, State.core_modWave, State.core_modCore_self]
  have hchain : ((s.entryEnded core cls seq e).core core).chain cls =
      { h with entries := h.entries.filter fun x => x.seq != seq, fin := [e.ending seq] } := by
    rw [hcore, Core.entryEnded_chain, hh, hfin]
    rfl
  have hexec : exec (.engineCommandComplete core cls seq) s = .next (s.completeEntry core cls seq none) := by
    rw [exec_engineCommandComplete, execEngineCommandComplete, if_neg hseq, hh, hfind]
    refine (if_neg (not_not.2 hst)).trans ?_
    rw [hlate, if_neg Bool.false_ne_true]
  obtain ⟨hwords, hreached⟩ := State.completionWords_reach hchain hnamed rfl hdone.symm rfl
    (by rw [Entry.ending, hword]; rfl)
  rw [State.completeEntry_ok (hh ▸ hfind) hcpym, hwords] at hexec
  refine ⟨_, hexec, rfl, hreached, fun htag => ?_, ?_⟩
  · rw [State.core_modCore_self, Core.modChain_tags, hcore]
    exact Core.entryEnded_tag _ _ _ htag horphan
  · rw [State.wave_modCore, State.entryEnded, State.wave_modWave_self, if_pos ⟨hgid, by rw [horphan]; rfl⟩, Wave.lower_flags, if_pos ⟨rfl, hflag⟩]
    rfl

end Sys2Proof.Machine
end

