-- ==== Sys2Proof/Proofs/ReductionTrees.lean ====
section
/-! The reduction trees: contributions, units whose time has run out, the root's write, and enabling a tree (R72, R178, R403 to R406). -/

set_option Elab.async false

namespace Sys2Proof.Machine

/-! What leaves the trees of every die as they are. -/

/-- Every die has the trees that it had. -/
structure State.SameTrees (s t : State) : Prop where
  trees : ∀ d, (t.die d).trees = (s.die d).trees

theorem State.SameTrees.refl (s : State) : s.SameTrees s := ⟨fun _ => rfl⟩

theorem State.SameTrees.trans {s t u : State} (h : s.SameTrees t) (h' : t.SameTrees u) : s.SameTrees u :=
  ⟨fun d => (h'.trees d).trans (h.trees d)⟩

theorem State.SameTrees.of_dies {s t : State} (h : t.dies = s.dies) : s.SameTrees t := ⟨fun d => by rw [State.die, h, State.die]⟩

theorem State.SameTrees.tree {s t : State} (h : s.SameTrees t) (d n : Nat) : t.tree d n = s.tree d n := by
  rw [State.tree, h.trees, State.tree]

/-- Steps that each leave the trees leave them together. -/
theorem State.SameTrees.foldl {α : Type} {f : State → α → State} (hf : ∀ u a, State.SameTrees u (f u a)) (l : List α) (s : State) :
    s.SameTrees (l.foldl f s) :=
  List.foldlRecOn (motive := fun u => s.SameTrees u) _ _ (.refl s) fun u hu a _ => hu.trans (hf u a)

theorem State.modDie_sameTrees (s : State) (d : Nat) {f : Die → Die} (hf : ∀ x, (f x).trees = x.trees) : s.SameTrees (s.modDie d f) := by
  refine ⟨fun j => ?_⟩
  by_cases hj : j = d
  · rw [hj, State.die_modDie_self, hf]
  · rw [State.die_modDie_ne _ _ _ _ hj]

theorem State.fabPacket_sameTrees (s : State) (pa : Nat) : s.SameTrees (s.fabPacket pa) := by
  unfold State.fabPacket
  split
  · split
    · exact State.modDie_sameTrees _ _ fun _ => rfl
    · exact .refl _
  · exact .refl _

theorem State.dropLease_sameTrees (s : State) (line : Nat) : s.SameTrees (s.dropLease line) := by
  unfold State.dropLease
  split
  · exact .of_dies rfl
  · exact .refl _

theorem State.hintAt_sameTrees (s : State) (d line hint ctx : Nat) : s.SameTrees (s.hintAt d line hint ctx) :=
  State.modDie_sameTrees _ _ fun _ => rfl

theorem State.visit_sameTrees (s : State) (d ctx hint : Nat) (ps : List (Nat × Nat × Nat)) : s.SameTrees (s.visit d ctx hint ps) := by
  refine State.SameTrees.foldl (fun u p => ?_) ps s
  split
  · exact State.fabPacket_sameTrees ..
  · refine State.SameTrees.foldl (fun v l => ?_) _ u
    split
    · exact (State.dropLease_sameTrees ..).trans (State.hintAt_sameTrees ..)
    · exact State.dropLease_sameTrees ..

/-! Writes. -/

theorem FMap.get_mapVal {α : Type} (m : FMap α) (f : α → α) (k : Nat) {d : α} (hd : f d = d) :
    FMap.get (m.map fun e => (e.1, f e.2)) k d = f (m.get k d) := by
  induction m with
  | nil => exact hd.symm
  | cons e m ih =>
    by_cases he : e.1 = k
    · simp [FMap.get, he]
    · simpa [FMap.get, he] using ih

/-- What a write to a watched line changes of a die (R344, R351). -/
def State.touchDie (s : State) (line : Nat) (x : Die) : Die :=
  { x with
    launches := x.launches.map fun (k, l) => (k, s.watchCard line l)
    uqs := x.uqs.map fun (q, u) =>
      (q, match u.waitE with
          | some e => if e.pa / 128 = line then { u with waitE := some { e with hit := true } } else u
          | none => u) }

theorem State.touch_sameTrees (s : State) (line : Nat) : s.SameTrees (s.touch line) := by
  refine ⟨fun d => ?_⟩
  have hdie : (s.touch line).die d = s.touchDie line (s.die d) := FMap.get_mapVal s.dies (s.touchDie line) d (d := {}) rfl
  rw [hdie]
  rfl

theorem State.wrKey_sameTrees (s : State) (pa key n v : Nat) : s.SameTrees (s.wrKey pa key n v) := by
  unfold State.wrKey
  refine .trans ?_ (State.touch_sameTrees _ _)
  exact .of_dies (congrArg State.dies (s.rekey_rest pa n key) :)

theorem State.backKey_dies (s : State) (pa key n v : Nat) : (s.backKey pa key n v).dies = s.dies :=
  (congrArg State.dies (s.rekey_rest pa n key) :)

theorem State.landData_dies (s : State) (line : Nat) : (s.landData line).dies = s.dies := by
  have hkept := fun (u : State) pa key n v => State.backKey_dies u pa key n v
  refine List.foldlRecOn (motive := fun u : State => u.dies = s.dies) _ _ ?_ fun u hu d _ => ?_
  · refine List.foldlRecOn (motive := fun u : State => u.dies = s.dies) _ _ rfl fun u hu m _ => ?_
    split
    · exact (hkept ..).trans hu
    · exact hu
  · split
    · exact (hkept ..).trans hu
    · exact hu

theorem State.modCopy_dies (s : State) (line d : Nat) (f : Copy → Copy) : (s.modCopy line d f).dies = s.dies := rfl

theorem State.recallCopies_dies (s : State) (line : Nat) : (s.recallCopies line).dies = s.dies := by
  unfold State.recallCopies
  split
  · rfl
  · refine List.foldlRecOn (motive := fun u : State => u.dies = s.dies) _ _ ?_ fun u hu d _ =>
      (u.modCopy_dies line d _).trans hu
    dsimp only
    split
    · exact (State.backKey_dies ..).trans (State.landData_dies ..)
    · exact State.landData_dies ..

theorem State.agentWrite_sameTrees (s : State) (pa n key v : Nat) : s.SameTrees (s.agentWrite pa n key v) :=
  State.SameTrees.foldl (fun u l =>
    ((u.dropLease_sameTrees l).trans (.of_dies (State.recallCopies_dies ..))).trans (State.wrKey_sameTrees ..)) _ s

theorem State.anyWrite_sameTrees (s : State) (pa n key v ctx : Nat) : s.SameTrees (s.anyWrite pa n key v ctx) := by
  unfold State.anyWrite
  split
  · exact .of_dies rfl
  · exact s.agentWrite_sameTrees pa n key v

theorem State.writeParts_sameTrees (s : State) (ctx v : Nat) (ps : List (Nat × Nat × Nat)) : s.SameTrees (s.writeParts ctx v ps) := by
  induction ps generalizing s v with
  | nil => exact .refl _
  | cons p ps ih => exact (State.anyWrite_sameTrees ..).trans (ih ..)

theorem State.countUnit_sameTrees (s : State) (d t : Nat) (u : RUnit) : s.SameTrees (s.countUnit d t u) := by
  refine State.SameTrees.foldl (fun v c => ?_) _ s
  exact .of_dies rfl

/-! Units of a tree. -/

@[simp] theorem State.tree_modTree_self (s : State) (d t : Nat) (f : Tree → Tree) : (s.modTree d t f).tree d t = f (s.tree d t) := by
  rw [State.tree, State.modTree, State.die_modDie_self]
  exact FMap.get_upd_self ..

theorem Tree.unitsOf_none {v : Tree} {r : Nat} (h : v.unitsOf r = []) : v.units.filter (fun u => u.router == r) = [] := by
  have hlen := congrArg List.length h
  rw [Tree.unitsOf, List.length_mergeSort] at hlen
  exact List.length_eq_zero_iff.1 hlen

theorem Tree.unitsOf_one {v : Tree} {r : Nat} {u : RUnit} (h : v.units.filter (fun u => u.router == r) = [u]) : v.unitsOf r = [u] := by
  rw [Tree.unitsOf, h]
  exact List.mergeSort_singleton _

theorem Tree.unitsOf_single {v : Tree} {r : Nat} {u : RUnit} (h : v.units = [u]) (hr : u.router = r) : v.unitsOf r = [u] := by
  refine Tree.unitsOf_one ?_
  rw [h]
  exact List.filter_cons_of_pos (p := fun u : RUnit => u.router == r) (beq_iff_eq.2 hr)

/-- A unit that is not complete is not forwarded. -/
theorem State.forwardUnit_waits {s : State} {d t r : Nat} {u : RUnit} (hunits : (s.tree d t).unitsOf r = [u]) (hfull : u.full = false) :
    s.forwardUnit d t r = s := by
  rw [State.forwardUnit, hunits, List.head?_cons]
  dsimp only
  rw [hfull]
  rfl

/-- The contribution that a flit brings to its unit. -/
def Flit.contrib (f : Flit) : Contrib := { dst := f.dst, core := f.core, count := f.count, ctx := f.ctx, lid := f.lid, hint := f.hint }

/-- The unit that the first flit of a packet makes at its router, in a tree whose units wait `left` ticks (R404). -/
def Flit.unit (f : Flit) (left : Nat) (full : Bool) : RUnit :=
  { router := f.router, round := f.round, pkt := f.pkt, left := left, vals := [(f.port, f.vals)], mark := f.mark, full := full
    dsts := [(f.port, f.contrib)] }

/-- A flit has reached its router. -/
def Tree.arrive (v : Tree) : Tree := { v with flits := v.flits.eraseIdx 0 }

/-- The unit of a flit stands at its router. -/
def Tree.openUnit (v : Tree) (f : Flit) (left : Nat) (full : Bool) : Tree :=
  { v with units := f.unit left full :: v.units.filter fun x => x.router != f.router || x.round != f.round || x.pkt != f.pkt }

theorem Tree.openUnit_unitsOf {v : Tree} {f : Flit} (h : v.unitsOf f.router = []) (left : Nat) (full : Bool) :
    (v.openUnit f left full).unitsOf f.router = [f.unit left full] := by
  refine Tree.unitsOf_one ?_
  refine (List.filter_cons_of_pos (p := fun u : RUnit => u.router == f.router) (beq_self_eq_true _)).trans ?_
  rw [List.filter_comm, Tree.unitsOf_none h]
  rfl

/-- A flit without a unit, at a router that awaits another port too, opens its unit (R404). -/
theorem reductionContribution_opens {s : State} {die tree : Nat} {f : Flit} {rest : List Flit} (hon : (s.die die).treeOn tree = true)
    (hflits : (s.tree die tree).flits = f :: rest) (hlast : (s.tree die tree).last.get f.router (0, 0) = (0, 0))
    (hnone : (s.tree die tree).unitsOf f.router = []) (hport : ∃ p ∈ entPorts ((s.die die).treeEnt tree f.router), p ≠ f.port) :
    ∃ t, exec (.reductionContribution die tree 0) s = .next t ∧ t.mem = s.mem ∧ (t.tree die tree).flits = rest ∧
      (t.tree die tree).unitsOf f.router = [f.unit ((s.die die).treeTout tree) false] := by
  have hpartial : ((entPorts ((s.die die).treeEnt tree f.router)).all fun p => FMap.has [(f.port, f.vals)] p) = false := by
    obtain ⟨p, hp, hne⟩ := hport
    exact List.all_eq_false.2 ⟨p, hp, by simp [FMap.has, Ne.symm hne]⟩
  let left := (s.die die).treeTout tree
  let t := (s.modTree die tree Tree.arrive).modTree die tree fun v => v.openUnit f left false
  have htree : t.tree die tree = (s.tree die tree).arrive.openUnit f left false := by
    rw [State.tree_modTree_self, State.tree_modTree_self]
  have hunits : (t.tree die tree).unitsOf f.router = [f.unit left false] := by
    rw [htree]
    exact Tree.openUnit_unitsOf hnone _ _
  refine ⟨t, ?_, rfl, ?_, hunits⟩
  · rw [exec_reductionContribution, execReductionContribution, hflits, List.getElem?_cons_zero]
    dsimp only
    rw [hlast, hnone, hon]
    show Host.Outcome.next (((s.modTree die tree Tree.arrive).modTree die tree fun v => v.openUnit f left
      ((entPorts ((s.die die).treeEnt tree f.router)).all fun p => FMap.has [(f.port, f.vals)] p)).forwardUnit die tree f.router) = _
    rw [hpartial]
    exact congrArg Host.Outcome.next (State.forwardUnit_waits hunits rfl)
  · rw [htree]
    show (s.tree die tree).flits.eraseIdx 0 = rest
    rw [hflits]
    rfl

/-! Units whose time has run out (R404, R405). -/

/-- A unit whose time has run out. -/
def RUnit.timedOut (u : RUnit) : RUnit := { u with full := true, mark := true }

/-- What a unit sends to the parent of its router (R404). -/
def RUnit.flit (u : RUnit) (tree router port : Nat) : Flit :=
  { tree := tree, router := router, port := port, round := u.round, pkt := u.pkt, vals := u.sums, mark := u.mark, dst := u.first.dst
    core := u.first.core, count := u.first.count, ctx := u.first.ctx, lid := u.first.lid, hint := u.first.hint }

theorem State.modUnit_units {s : State} {d t : Nat} {u : RUnit} (hunits : (s.tree d t).units = [u]) (f : RUnit → RUnit) :
    ((s.modUnit d t u f).tree d t).units = [f u] := by
  rw [State.modUnit, State.tree_modTree_self]
  dsimp only
  rw [hunits]
  simp

theorem State.modUnit_flits (s : State) (d t : Nat) (u : RUnit) (f : RUnit → RUnit) :
    ((s.modUnit d t u f).tree d t).flits = (s.tree d t).flits := by
  rw [State.modUnit, State.tree_modTree_self]

theorem State.unitDone_units {s : State} {d t : Nat} {u : RUnit} (hunits : (s.tree d t).units = [u]) : ((s.unitDone d t u).tree d t).units = [] := by
  rw [State.unitDone, State.tree_modTree_self]
  dsimp only
  rw [hunits]
  simp

/-- A change of a tree changes no entry of it. -/
theorem State.treeEnt_modTree (s : State) (d t : Nat) (f : Tree → Tree) (n r : Nat) :
    ((s.modTree d t f).die d).treeEnt n r = (s.die d).treeEnt n r := by
  rw [State.modTree, State.die_modDie_self]
  rfl

/-- The one unit of a tree, at its router and out of time, goes on marked: to the parent, or, at the root, to memory (R404, R405). -/
theorem reductionUnitTimeout_goesOn {s : State} {die tree router : Nat} {u : RUnit} (hunits : (s.tree die tree).units = [u])
    (hrouter : u.router = router) (hfull : u.full = false) (hleft : u.left = 0) :
    let ent := (s.die die).treeEnt tree router
    let v := s.modUnit die tree u fun x => { x with full := true, mark := true }
    (entRoot ent = false → ∃ t f, exec (.reductionUnitTimeout die tree router) s = .next t ∧ t.mem = s.mem ∧
      (t.tree die tree).units = [] ∧ (t.tree die tree).flits = (s.tree die tree).flits ++ [f] ∧
      f.router = entParent ent ∧ f.round = u.round ∧ f.pkt = u.pkt ∧ f.vals = u.sums ∧ f.mark = true ∧ f.dst = u.first.dst) ∧
    (∀ ps, entRoot ent = true → 32 * u.pkt < u.first.count →
      v.span die u.first.ctx u.first.lid (u.first.dst + 128 * u.pkt) 128 true false = .ok ps →
      ∃ t, exec (.reductionUnitTimeout die tree router) s = .next t ∧ (t.tree die tree).units = [] ∧
        t.mem = ((v.visit die u.first.ctx u.first.hint ps).writeParts u.first.ctx (packWords u.sums) ps).mem) := by
  intro ent v
  have hof : (s.tree die tree).unitsOf router = [u] := Tree.unitsOf_single hunits hrouter
  have hv : (v.tree die tree).units = [u.timedOut] := State.modUnit_units hunits _
  have hvof : (v.tree die tree).unitsOf router = [u.timedOut] := Tree.unitsOf_single hv hrouter
  have hflits : (v.tree die tree).flits = (s.tree die tree).flits := State.modUnit_flits ..
  have hent : (v.die die).treeEnt tree router = ent := State.treeEnt_modTree ..
  have hexec : exec (.reductionUnitTimeout die tree router) s = .next (v.forwardUnit die tree router) := by
    rw [exec_reductionUnitTimeout, execReductionUnitTimeout, hof, List.head?_cons]
    dsimp only
    rw [hfull, hleft]
    rfl
  rw [hexec, State.forwardUnit, hvof, List.head?_cons]
  dsimp only
  rw [hent]
  refine ⟨fun hroot => ?_, fun ps hroot hcount hspan => ?_⟩
  · rw [hroot]
    let port := ((List.range 4).find? fun p => entChild ((v.die die).treeEnt tree (entParent ent)) p == some router).getD 0
    let f := u.timedOut.flit tree (entParent ent) port
    refine ⟨(v.unitDone die tree u.timedOut).modTree die tree fun w => { w with flits := w.flits ++ [f] }, f, rfl, rfl, ?_, ?_, rfl, rfl, rfl, rfl, rfl, rfl⟩
    · rw [State.tree_modTree_self]
      exact State.unitDone_units hv
    · rw [State.tree_modTree_self]
      dsimp only
      rw [State.unitDone, State.tree_modTree_self]
      dsimp only
      rw [hflits]
  · rw [hroot]
    have hwrite : v.writeUnit die tree u.timedOut =
        (((v.visit die u.first.ctx u.first.hint ps).writeParts u.first.ctx (packWords u.sums) ps).unitDone die tree u.timedOut).countUnit die
          tree u.timedOut := by
      have hspan' : v.span die u.timedOut.first.ctx u.timedOut.first.lid (u.timedOut.first.dst + 128 * u.timedOut.pkt) 128 true false = .ok ps :=
        hspan
      unfold State.writeUnit
      refine (if_neg (Nat.not_le.2 hcount)).trans ?_
      rw [hspan']
      rfl
    refine ⟨_, congrArg Host.Outcome.next hwrite, ?_, ?_⟩
    · rw [(State.countUnit_sameTrees ..).tree]
      refine State.unitDone_units ?_
      rw [((State.visit_sameTrees ..).trans (State.writeParts_sameTrees ..)).tree]
      exact hv
    · rw [State.countUnit_mem, State.unitDone_mem]

/-! Enabling a tree (R403, R404, R406). -/

theorem Die.treeCheck_le (x : Die) (t : Nat) : x.treeCheck t ≤ 4 := by
  unfold Die.treeCheck
  dsimp only
  split
  · decide
  · split
    · decide
    · split
      · decide
      · split <;> decide

/-- A header that is stored reads back. -/
theorem Die.treeHdr_setReg (x : Die) (t : Nat) {v : Nat} (hv : v < 2 ^ 64) : (x.setReg (0x500000 + 2048 * t) v).treeHdr t = v := by
  rw [Die.treeHdr, Die.reg, Die.setReg, FMap.get_set_self, BitVec.toNat_ofNat, Nat.mod_eq_of_lt hv]

/-- The kept half of a header with low bits below it is a word. -/
theorem keep_add_lt {val low : Nat} (hval : val < 2 ^ 64) (hlow : low < 2 ^ 32) : val / 2 ^ 32 * 2 ^ 32 + low < 2 ^ 64 := by
  omega

theorem State.treeHdr_modTree (s : State) (d t : Nat) (f : Tree → Tree) (n : Nat) : ((s.modTree d t f).die d).treeHdr n = (s.die d).treeHdr n := by
  rw [State.modTree, State.die_modDie_self]
  rfl

/-- A write to a tree's header: it enables the tree after its checks, disables it with its unfinished commands ended, or leaves one in
service as it is (R403, R404, R406). -/
theorem treeEnable_writes (s : State) (die : Nat) {tree val : Nat} (htree : tree < 16) (hval : val < 2 ^ 64) :
    let keep := val / 2 ^ 32 * 2 ^ 32
    let res := 16 * field ((s.die die).treeHdr tree) 4 4
    ((s.die die).treeOn tree = false → ∃ t, exec (.treeEnable die tree val) s = .next t ∧ t.mem = s.mem ∧
      (t.die die).treeHdr tree = keep + if bitN val 0 then 16 * (s.die die).treeCheck tree + (if (s.die die).treeCheck tree = 0 then 1 else 0) else res) ∧
    ((s.die die).treeOn tree = true → bitN val 0 = true → exec (.treeEnable die tree val) s = .next s) ∧
    ((s.die die).treeOn tree = true → bitN val 0 = false → ∃ u, u.mem = s.mem ∧ (u.die die).treeHdr tree = keep + res ∧ u.tree die tree = {} ∧
      exec (.treeEnable die tree val) s = .next (((s.treeCmds die tree).filter fun c => c.2.st != .landed).foldl
        (fun (w : State) c => w.completeEntry c.1 2 c.2.seq (some (0x1D, dw64 c.2.desc 7))) u)) := by
  intro keep res
  have hres : keep + res < 2 ^ 64 := keep_add_lt hval (by
    have : field ((s.die die).treeHdr tree) 4 4 < 2 ^ 4 := Nat.mod_lt _ (by decide)
    omega)
  have hres' : keep + field ((s.die die).treeHdr tree) 4 4 * 16 = keep + res := by rw [Nat.mul_comm]
  rw [exec_treeEnable, execTreeEnable, Nat.mod_eq_of_lt htree, Nat.mod_eq_of_lt hval]
  unfold State.treeEnable
  dsimp only
  refine ⟨fun hoff => ?_, fun hon hen => ?_, fun hon hdis => ?_⟩
  · rw [hoff, if_neg Bool.false_ne_true]
    cases hbit : bitN val 0 with
    | true =>
      have hcheck : keep + (16 * (s.die die).treeCheck tree + if (s.die die).treeCheck tree = 0 then 1 else 0) < 2 ^ 64 := keep_add_lt hval (by
        have := (s.die die).treeCheck_le tree
        split <;> omega)
      refine ⟨_, rfl, rfl, ?_⟩
      rw [if_pos rfl, State.treeHdr_modTree, State.die_modDie_self, Nat.add_assoc, Die.treeHdr_setReg _ _ hcheck]
      rfl
    | false =>
      refine ⟨_, rfl, rfl, ?_⟩
      rw [if_neg Bool.false_ne_true, State.die_modDie_self]
      exact (Die.treeHdr_setReg _ _ (hres' ▸ hres)).trans hres'
  · rw [hon, hen]
    rfl
  · rw [hon, hdis]
    refine ⟨_, ?_, ?_, ?_, rfl⟩
    · rfl
    · rw [State.treeHdr_modTree, State.die_modDie_self]
      exact (Die.treeHdr_setReg _ _ (hres' ▸ hres)).trans hres'
    · rw [State.tree_modTree_self]

end Sys2Proof.Machine
end

