-- ==== Sys2Proof/Proofs/MatrixEngine.lean ====
section
/-! The matrix engine: follow-ons, MMA with its check, MZERO and the drains (R68, R191 to R198, R332, R333, R335, R336). -/

set_option Elab.async false

namespace Sys2Proof.Machine

/-! What records, halts and traps leave of a core. -/

theorem State.wrOwn_cores (s : State) (pa n v : Nat) : (s.wrOwn pa n v).cores = s.cores := by
  unfold State.wrOwn
  split
  · rfl
  · exact State.wrKey_cores ..

theorem State.logCtx_cores (s : State) (d ctx kind flags body : Nat) : (s.logCtx d ctx kind flags body).cores = s.cores := by
  unfold State.logCtx
  dsimp only
  split
  · split
    · exact State.wrOwn_cores ..
    · rfl
  · rfl

theorem State.logSys_cores (s : State) (d kind flags ctx body : Nat) : (s.logSys d kind flags ctx body).cores = s.cores := by
  unfold State.logSys
  dsimp only
  split
  · split
    · exact State.wrOwn_cores ..
    · exact State.wrOwn_cores ..
  · rfl

theorem State.trapRecord_cores (s : State) (gid : Nat) (t : Trap) (double : Bool) : (s.trapRecord gid t double).cores = s.cores := by
  unfold State.trapRecord
  dsimp only
  split
  · exact State.logCtx_cores ..
  · exact (State.logSys_cores ..).trans (State.logCtx_cores ..)

theorem State.haltGroup_cores (s : State) (gid : Nat) (t : Trap) (skids : Bool) : (s.haltGroup gid t skids).cores = s.cores :=
  List.foldlRecOn (motive := fun u : State => u.cores = s.cores) _ _ rfl fun _ hu _ _ => hu

/-- A change of a core that leaves its accumulators leaves them on every core. -/
theorem State.modCore_acc (s : State) (k : Nat) {f : Core → Core} (hf : ∀ c, (f c).acc = c.acc) (j : Nat) :
    ((s.modCore k f).core j).acc = (s.core j).acc := by
  by_cases hj : j = k
  · rw [hj, State.core_modCore_self, hf]
  · rw [State.core_modCore_ne _ _ _ _ hj]

/-- A core whose group has ended: its pending follow-ons are discarded (R225, R226). -/
def Core.groupLeft (c : Core) (gid : Nat) : Core :=
  { c with follows := c.follows.filter fun f => f.gid != gid, doomed := c.doomed.filter fun e => e.1 != gid }

theorem State.endGroup_acc (s : State) (gid c : Nat) : ((s.endGroup gid).core c).acc = (s.core c).acc := by
  have hheld : ∀ l : List Trap, (l.foldl (fun u h => u.fall gid h) s).cores = s.cores := fun l =>
    List.foldlRecOn (motive := fun u : State => u.cores = s.cores) _ _ rfl fun _ hu _ _ => hu
  refine (State.modCore_acc _ (s.group gid).core (f := (·.groupLeft gid)) (fun _ => rfl) c).trans (congrArg Core.acc (State.core_congr (s := s) ?_ c))
  exact List.foldlRecOn (motive := fun u : State => u.cores = s.cores) _ _ (hheld _) fun _ hu _ _ => hu

theorem State.endWithError_acc (s : State) (gid : Nat) (t : Trap) (double : Bool) (c : Nat) :
    ((s.endWithError gid t double).core c).acc = (s.core c).acc :=
  (State.endGroup_acc ..).trans (congrArg Core.acc (State.core_congr (State.trapRecord_cores ..) c))

theorem State.trapA_acc (s : State) (gid : Nat) (t : Trap) (own : Bool) (c : Nat) : ((s.trapA gid t own).core c).acc = (s.core c).acc := by
  have hhalt := congrArg Core.acc (State.core_congr (s.haltGroup_cores gid t true) c)
  have hend := s.endWithError_acc gid t true c
  unfold State.trapA
  dsimp only
  split
  · rfl
  · rfl
  · split
    · rfl
    · split
      · rfl
      · exact hend
  · rfl
  · split
    · rfl
    · exact hhalt

theorem State.engTrap_acc (s : State) (gid slot code eaddr : Nat) (own : Bool) (flag c : Nat) :
    ((s.engTrap gid slot code eaddr own flag).core c).acc = (s.core c).acc := by
  unfold State.engTrap
  split
  · exact State.trapA_acc ..
  · rfl

/-! Operations of the chain. -/

/-- The identity that is given next belongs to no core. -/
theorem State.core_modId (s : State) (n core : Nat) : ({ s with nextId := n } : State).core core = s.core core := rfl

/-- An operation that leaves the chain changes nothing else of its core. -/
theorem State.mxDone_core (s : State) (core : Nat) (o : MxOp) :
    (s.mxDone core o).core core = { s.core core with mchain := (s.core core).mchain.filter fun x => x.id != o.id } := by
  rw [State.mxDone, State.mxLeave, State.core_modWave, State.core_modCore_self]

theorem State.softCount_core (s : State) (core : Nat) : (s.softCount core).core core = { s.core core with mxSoft := satInc (s.core core).mxSoft } := by
  unfold State.softCount
  dsimp only
  split
  · rw [State.core_congr (State.logSys_cores ..), State.core_modCore_self]
  · rw [State.core_modCore_self]

/-- An accumulator without an uncorrectable error is read as it stands (R333). -/
theorem State.accRead_good {s : State} {core : Nat} {o : MxOp} (h : (s.core core).accBad.contains o.acc = false) : s.accRead core o = s :=
  if_neg (by rw [h]; exact Bool.false_ne_true)

/-- An accumulator with an uncorrectable error reads as the canonical NaN (R333). -/
theorem State.accRead_bad {s : State} {core : Nat} {o : MxOp} (h : (s.core core).accBad.contains o.acc = true) :
    ((s.accRead core o).core core).acc = (s.core core).acc.setRow (4096 * o.acc) (List.replicate 4096 0x7FC00000#32) := by
  rw [State.accRead, if_pos h, State.engTrap_acc, State.core_modCore_self]
  rfl

/-! Follow-ons (R194). -/

/-- The follow-ons of a CPYM that are over leave their core. -/
theorem State.followDone_core (s : State) (core : Nat) (f : Follow) :
    (s.followDone core f).core core = { s.core core with follows := (s.core core).follows.filter fun x => x.seq != f.seq } := by
  unfold State.followDone
  dsimp only
  split
  · rw [State.core_modGroup, State.core_modCore_self]
  · rw [State.core_modCore_self]

/-- The operation that a follow-on puts into the chain (R194). -/
def Follow.mma (f : Follow) (id : Nat) : MxOp :=
  { id := id, kind := .mma, gid := f.gid, slot := f.slot, acc := field f.word.toNat 0 2, oba := field f.word.toNat 2 4
    obb := field f.word.toNat 6 4, tile := field f.word.toNat 10 3 + f.next, seq := f.seq, isFollow := true }

/-- A follow-on that is due enters the chain, or, discarded, leaves with those of its CPYM (R191, R194, R198, R332). -/
theorem followOnIssue_takes {s : State} {core : Nat} {f : Follow} (hfollows : (s.core core).follows = [f])
    (hready : (s.core core).followReady f = true) (hdbg : (s.die (dieOf core)).dbg = false) :
    let gone := f.dead || (s.core core).doomed.contains (f.gid, field f.word.toNat 0 2)
    (gone = false → ∃ t o, exec (.followOnIssue core) s = .next t ∧ t.mem = s.mem ∧ (t.core core).mchain = enterMx o (s.core core).mchain ∧
      o.kind = .mma ∧ o.isFollow = true ∧ o.gid = f.gid ∧ o.seq = f.seq ∧ o.acc = field f.word.toNat 0 2 ∧ o.oba = field f.word.toNat 2 4 ∧
      o.obb = field f.word.toNat 6 4 ∧ o.tile = field f.word.toNat 10 3 + f.next ∧
      (t.core core).follows = (if f.next = field f.word.toNat 13 3 then [] else [{ f with next := f.next + 1 }])) ∧
    (gone = true → ∃ t, exec (.followOnIssue core) s = .next t ∧ t.mem = s.mem ∧ (t.core core).follows = [] ∧
      (t.core core).mchain = (s.core core).mchain) := by
  intro gone
  have hpick : ((s.core core).follows.filter fun f => (s.core core).followReady f) = [f] := by
    rw [hfollows, List.filter_cons_of_pos hready, List.filter_nil]
  rw [exec_followOnIssue, execFollowOnIssue]
  dsimp only
  rw [hpick, List.length_singleton, Nat.mod_one, List.getElem?_cons_zero]
  dsimp only
  rw [hdbg, if_neg Bool.false_ne_true]
  refine ⟨fun hgone => ?_, fun hgone => ?_⟩
  · rw [if_neg (show ¬ gone = true by rw [hgone]; exact Bool.false_ne_true)]
    by_cases hlast : f.next = field f.word.toNat 13 3
    · rw [if_pos hlast]
      refine ⟨_, f.mma s.nextId, rfl, State.followDone_mem .., ?_, rfl, rfl, rfl, rfl, rfl, rfl, rfl, rfl, ?_⟩
      · rw [State.followDone_core, State.core_modCore_self]
        rfl
      · rw [State.followDone_core, State.core_modCore_self, if_pos hlast]
        show ((s.core core).follows.map fun (x : Follow) => if x.seq = f.seq then { x with next := x.next + 1 } else x).filter
          (fun x => x.seq != f.seq) = []
        rw [hfollows]
        simp
    · rw [if_neg hlast]
      refine ⟨_, f.mma s.nextId, rfl, rfl, ?_, rfl, rfl, rfl, rfl, rfl, rfl, rfl, rfl, ?_⟩
      · rw [State.core_modCore_self]
        rfl
      · rw [State.core_modCore_self, if_neg hlast]
        show ((s.core core).follows.map fun (x : Follow) => if x.seq = f.seq then { x with next := x.next + 1 } else x) = _
        rw [hfollows]
        simp
  · rw [if_pos hgone]
    refine ⟨_, rfl, State.followDone_mem .., ?_, ?_⟩
    · rw [State.followDone_core]
      show (s.core core).follows.filter (fun x => x.seq != f.seq) = []
      rw [hfollows]
      simp
    · rw [State.followDone_core]
      rfl

/-! MMA (R68, R189 to R191, R332, R335). -/

/-- The first of the chain, an MMA that nothing holds back, starts and reads its operands; a stale one takes 0x1F (R191, R332). -/
theorem mmaStart_reads {s : State} {core : Nat} {o : MxOp} {rest : List MxOp} (hchain : (s.core core).mchain = o :: rest) (hkind : o.kind = .mma)
    (hstarted : o.started = false) (hin : s.inService core = true) (hdbg : (s.die (dieOf core)).dbg = false)
    (hheld : (s.core core).mxHeld o = false) :
    (∀ a b, (s.core core).accBad.contains o.acc = false → s.operand core o.gid o.oba o.tile = some a → s.operand core o.gid o.obb o.tile = some b →
      exec (.mmaStart core) s = .next { (s.modMx core o.id fun x =>
        { x with started := true, turn := s.nextId, a := a.2, b := b.2, fa := a.1, fb := b.1 }) with nextId := s.nextId + 1 }) ∧
    (s.operand core o.gid o.oba o.tile = none ∨ s.operand core o.gid o.obb o.tile = none →
      exec (.mmaStart core) s = .next (s.mxFail core o 0x1F 0)) := by
  have hfind : (s.core core).mchain.find? (fun o => o.kind == .mma && !o.started) = some o := by
    rw [hchain, List.find?_cons_of_pos (by rw [hkind, hstarted]; rfl)]
  have hbefore : (s.core core).mchain.takeWhile (fun x => x.id != o.id) = [] := by
    rw [hchain, List.takeWhile_cons_of_neg (by simp)]
  rw [exec_mmaStart, execMmaStart]
  dsimp only
  rw [hfind]
  dsimp only
  rw [hbefore, hheld, hin, hdbg]
  refine ⟨fun a b hgood ha hb => ?_, fun hstale => ?_⟩
  · rw [ha, hb, State.accRead_good hgood]
    rfl
  · cases ha : s.operand core o.gid o.oba o.tile with
    | none => rfl
    | some a =>
      rw [hstale.resolve_left (by rw [ha]; exact Option.some_ne_none a)]
      rfl

/-- A second mismatch is counted, and the follow-ons of its group on the accumulator are to be discarded (R198, R336). -/
def State.mxSecond (s : State) (core : Nat) (o : MxOp) : State :=
  s.modCore core fun c =>
    { c with
      mxHard := if c.mxHard = 0xFFFF#16 then c.mxHard else c.mxHard + 1
      doomed := if s.groups.has o.gid then (o.gid, o.acc) :: c.doomed else c.doomed }

/-- The MMA whose check is next: a pass updates the accumulator; a mismatch reruns it and squashes the later starts; a second mismatch
takes the matrix error (R198, R333, R335, R336). -/
theorem mmaCheck_answers {s : State} {core : Nat} {o : MxOp} (hnext : (s.core core).nextCheck = some o) (hin : s.inService core = true)
    (hdbg : (s.die (dieOf core)).dbg = false) :
    (∃ t, exec (.mmaCheck core true) s = .next t ∧
      let v := s.accRead core o
      (o.rerun = false → t.mem = v.mem) ∧ (t.core core).mchain = (v.core core).mchain.filter (fun x => x.id != o.id) ∧
      (t.core core).acc = (v.core core).acc.setRow (4096 * o.acc) (mmaUpdate o.fa o.fb o.a o.b ((v.core core).accRow o.acc)) ∧
      ((s.core core).accBad.contains o.acc = false → v = s) ∧
      ((s.core core).accBad.contains o.acc = true → (v.core core).acc = (s.core core).acc.setRow (4096 * o.acc) (List.replicate 4096 0x7FC00000#32))) ∧
    (o.rerun = false → ∃ t, exec (.mmaCheck core false) s = .next t ∧ t.mem = s.mem ∧ (t.core core).acc = (s.core core).acc ∧
      (t.core core).mchain = (s.core core).mchain.map fun x =>
        if x.id = o.id then { x with rerun := true, turn := s.nextId }
        else if x.acc = o.acc ∧ x.kind = .mma then { x with started := false } else x) ∧
    (o.rerun = true → ∃ u : State, u.mem = s.mem ∧ (u.core core).acc = (s.core core).acc ∧
      (u.core core).mxHard = (if (s.core core).mxHard = 0xFFFF#16 then 0xFFFF#16 else (s.core core).mxHard + 1) ∧
      exec (.mmaCheck core false) s = .next ((u.mxDiscard core o.gid o.acc (some o.id)).mxFail core o 0x21 o.acc)) := by
  have hcheck : ∀ pass, exec (.mmaCheck core pass) s = execMmaCheck core pass s := fun pass => exec_mmaCheck core pass s
  simp only [hcheck, execMmaCheck, hnext, hin, hdbg]
  refine ⟨⟨_, rfl, ?_, ?_, ?_, State.accRead_good, State.accRead_bad⟩, fun hfirst => ?_, fun hagain => ?_⟩
  · intro hfirst
    rw [State.mxDone_mem, hfirst]
    rfl
  · rw [State.mxDone_core]
    dsimp only
    split
    · rw [State.softCount_core, State.core_modCore_self]
      rfl
    · rw [State.core_modCore_self]
      rfl
  · rw [State.mxDone_core]
    dsimp only
    split
    · rw [State.softCount_core, State.core_modCore_self]
      rfl
    · rw [State.core_modCore_self]
      rfl
  · rw [hfirst]
    refine ⟨_, rfl, rfl, ?_, ?_⟩
    · rw [State.core_modId, State.core_modCore_self]
    · rw [State.core_modId, State.core_modCore_self]
  · rw [hagain]
    refine ⟨s.mxSecond core o, rfl, ?_, ?_, rfl⟩
    · rw [State.mxSecond, State.core_modCore_self]
    · rw [State.mxSecond, State.core_modCore_self]
      dsimp only
      split
      · next hsat => exact hsat
      · rfl

/-! MZERO and the drains (R192, R195 to R197, R332, R333). -/

/-- The first of the chain, an MZERO or a drain that nothing holds back, takes its next step (R192, R195 to R197). -/
theorem drainPortOperation_takes {s : State} {core : Nat} {o : MxOp} {rest : List MxOp} (hchain : (s.core core).mchain = o :: rest)
    (hin : s.inService core = true) (hdbg : (s.die (dieOf core)).dbg = false) (hheld : (s.core core).mxHeld o = false) (hpaged : o.paged = none) :
    (o.kind = .mzero → ∃ t, exec (.drainPortOperation core o.id) s = .next t ∧ t.mem = s.mem ∧
      (t.core core).mchain = (s.core core).mchain.filter (fun x => x.id != o.id) ∧
      (t.core core).acc = (s.core core).acc.setRow (4096 * o.acc) (List.replicate 4096 0)) ∧
    (o.kind = .drain → o.ran = false → (s.core core).accBad.contains o.acc = false →
      exec (.drainPortOperation core o.id) s = .next (s.drainData core o)) ∧
    (o.kind = .drain → o.ran = true → o.amx = false → exec (.drainPortOperation core o.id) s = .next ((s.drainRegs core o).mxDone core o)) ∧
    (∀ pa leaf, o.kind = .drain → o.ran = true → o.amx = true → o.amxOp = 0 → s.amxCheck o = .ok pa leaf →
      s.badRead (pa / 128) (s.group o.gid).ctx = false →
      exec (.drainPortOperation core o.id) s = .next ((s.drainRegs core o).sendAmx core pa leaf o)) ∧
    (o.kind = .drain → o.ran = true → o.amx = true → o.amxOp ≠ 0 →
      exec (.drainPortOperation core o.id) s = .next
        (if s.ops.any fun x => x.id == o.amxOp && x.accs.any fun a => a.st == .pend then s else s.mxDone core o)) := by
  have hfind : (s.core core).mchain.find? (fun x => x.id == o.id) = some o := by
    rw [hchain, List.find?_cons_of_pos (by simp)]
  have hbefore : (s.core core).mchain.takeWhile (fun x => x.id != o.id) = [] := by
    rw [hchain, List.takeWhile_cons_of_neg (by simp)]
  have hexec : o.kind ≠ .mma → exec (.drainPortOperation core o.id) s =
      if o.kind = .mzero then
        .next ((s.modCore core fun c => { (c.accSet o.acc (List.replicate 4096 0)) with accBad := c.accBad.filter (· != o.acc) }).mxDone core o)
      else if o.ran then .next (s.drainEnd core o)
      else .next ((s.accRead core o).drainData core o) := fun hkind => by
    rw [exec_drainPortOperation, execDrainPortOperation]
    dsimp only
    rw [hfind]
    dsimp only
    rw [hbefore, hheld, hin, hdbg, hpaged, beq_false_of_ne hkind]
    rfl
  have hdrain : o.kind = .drain → exec (.drainPortOperation core o.id) s =
      if o.ran then .next (s.drainEnd core o) else .next ((s.accRead core o).drainData core o) := fun hkind => by
    rw [hexec (by rw [hkind]; decide), if_neg (by rw [hkind]; decide)]
  refine ⟨fun hkind => ?_, fun hkind hran hgood => ?_, fun hkind hran hamx => ?_, fun pa leaf hkind hran hamx hop hcheck hread => ?_,
    fun hkind hran hamx hop => ?_⟩
  · rw [hexec (by rw [hkind]; decide), if_pos hkind]
    refine ⟨_, rfl, State.mxDone_mem .., ?_, ?_⟩
    · rw [State.mxDone_core, State.core_modCore_self]
      rfl
    · rw [State.mxDone_core, State.core_modCore_self]
      rfl
  · rw [hdrain hkind, hran, if_neg Bool.false_ne_true, State.accRead_good hgood]
  · rw [hdrain hkind, if_pos hran, State.drainEnd, hamx]
    rfl
  · rw [hdrain hkind, if_pos hran, State.drainEnd, hamx, hop, hcheck]
    dsimp only
    rw [hread]
    rfl
  · rw [hdrain hkind, if_pos hran, State.drainEnd, hamx, if_neg (by decide), if_pos hop]

end Sys2Proof.Machine
end

