-- ==== Sys2Proof/Proofs/EngineSteps.lean ====
section
/-! The events of the engines, the reduction trees and the matrix engine, together. -/

set_option Elab.async false

namespace Sys2Proof.Machine

/-- Settles O48: each event by the lemma of its engine. -/
theorem engineEvents : Obligations.EngineEvents := by
  unfold Obligations.EngineEvents
  refine ⟨fun s core cls e hcls hdbg hfind horder hbusy hturn => ?_, fun s core seq beat e bs hdbg hfind hst hdone hturn hssp hdsp hbs hin horphan hgroup => ?_,
    fun s core seq elem e rp ps hdbg hfind hst hdone hturn htree hlt => ?_, fun s core cls seq beat e hfind hturn => ?_,
    fun s core cls seq e _ hseq => ?_, fun s die tree f rest hon => ?_, fun s die tree router u hunits hrouter hfull hleft => ?_,
    fun s die tree val htree hval => ?_, fun s core f hfollows hready hdbg => ?_, fun s core o rest hchain hkind hstarted hin hdbg hheld => ?_,
    fun s core o hnext hin hdbg => ?_, fun s core o rest hchain hin hdbg hheld hpaged => ?_⟩
  · exact engineEntryStart_takes hcls hdbg (Chain.takeable_eq hfind horder) hbusy hturn
  · exact engineBeat_copies hdbg hfind hst hdone hturn hssp hdsp hbs hin horphan hgroup
  · exact xredElement_combines rfl rfl hdbg hfind hst hdone hturn htree hlt
  · exact engineBeat_waits hfind hturn
  · exact engineCommandComplete_ends rfl hseq
  · exact reductionContribution_opens hon
  · exact reductionUnitTimeout_goesOn hunits hrouter hfull hleft
  · exact treeEnable_writes s die htree hval
  · exact followOnIssue_takes hfollows hready hdbg
  · exact mmaStart_reads hchain hkind hstarted hin hdbg hheld
  · exact mmaCheck_answers hnext hin hdbg
  · exact drainPortOperation_takes hchain hin hdbg hheld hpaged

end Sys2Proof.Machine
end

