-- ==== Sys2Proof/Proofs/IntegerOps.lean ====
section
/-! The integer operations by value: sums, products, shifts, bit fields, counts and moves of bits, address pairs (R79 to R82, R84, R86). -/

set_option Elab.async false

namespace Sys2Proof.Machine

theorem ones_if (c : Bool) {p : Prop} [Decidable p] (h : c = true ↔ p) : ones c = if p then 0xFFFFFFFF#32 else 0 := by
  by_cases hp : p
  · rw [if_pos hp, h.2 hp]; rfl
  · rw [if_neg hp, Bool.eq_false_iff.2 fun hc => hp (h.1 hc)]; rfl

/-! Sums, products and their high halves (R79). -/

theorem add_value (x y : W32) : x + y = BitVec.ofNat 32 (x.toNat + y.toNat) := by
  rw [BitVec.ofNat_add, BitVec.ofNat_toNat, BitVec.ofNat_toNat, BitVec.setWidth_eq, BitVec.setWidth_eq]

theorem sub_value (x y : W32) : x - y = BitVec.ofInt 32 ((x.toNat : Int) - y.toNat) := by
  apply BitVec.eq_of_toNat_eq
  rw [BitVec.toNat_sub, BitVec.toNat_ofInt]
  omega

theorem mul_value (x y : W32) : x * y = BitVec.ofNat 32 (x.toNat * y.toNat) :=
  BitVec.eq_of_toNat_eq (by rw [BitVec.toNat_mul, BitVec.toNat_ofNat])

theorem mulhZ_value (x y : W32) : mulhZ x y = BitVec.ofNat 32 (x.toNat * y.toNat / 2 ^ 32) := by
  have h : x.toNat * y.toNat < 2 ^ 32 * 2 ^ 32 := Nat.mul_lt_mul'' x.isLt y.isLt
  apply BitVec.eq_of_toNat_eq
  simp only [mulhZ, BitVec.toNat_setWidth, BitVec.toNat_ushiftRight, BitVec.toNat_mul, BitVec.toNat_ofNat, Nat.shiftRight_eq_div_pow]
  rw [Nat.mod_eq_of_lt (show x.toNat < 2 ^ 64 by omega), Nat.mod_eq_of_lt (show y.toNat < 2 ^ 64 by omega),
    Nat.mod_eq_of_lt (a := x.toNat * y.toNat) (by omega)]

/-- The high half of a 64-bit number is its quotient by 2^32. -/
theorem highHalf_ofInt (z : Int) : ((BitVec.ofInt 64 z) >>> 32).setWidth 32 = BitVec.ofInt 32 (z / 2 ^ 32) := by
  apply BitVec.eq_of_toNat_eq
  rw [BitVec.toNat_setWidth, BitVec.toNat_ushiftRight, BitVec.toNat_ofInt, BitVec.toNat_ofInt, Nat.shiftRight_eq_div_pow]
  omega

theorem mulhS_value (x y : W32) : mulhS x y = BitVec.ofInt 32 (x.toInt * y.toInt / 2 ^ 32) := by
  rw [← highHalf_ofInt, BitVec.ofInt_mul]
  rfl

theorem addSat_value (x y : W32) : addSat x y = BitVec.ofInt 32 (max (-2 ^ 31) (min (2 ^ 31 - 1) (x.toInt + y.toInt))) := by
  unfold addSat
  dsimp only
  split
  · next h => rw [show max (-2 ^ 31) (min (2 ^ 31 - 1) (x.toInt + y.toInt)) = -2 ^ 31 by omega]; rfl
  · split
    · next h => rw [show max (-2 ^ 31) (min (2 ^ 31 - 1) (x.toInt + y.toInt)) = 2 ^ 31 - 1 by omega]; rfl
    · next h1 h2 => rw [show max (-2 ^ 31) (min (2 ^ 31 - 1) (x.toInt + y.toInt)) = x.toInt + y.toInt by omega]

theorem imad_value (x y z : W32) : x * y + z = BitVec.ofNat 32 (x.toNat * y.toNat + z.toNat) := by
  rw [mul_value, BitVec.ofNat_add, BitVec.ofNat_toNat, BitVec.setWidth_eq]

/-! The smaller and the larger (R79). -/

/-- A choice by < is the choice by ≤ when equal keys offer equal values. -/
theorem ite_lt_eq_ite_le {α : Type} [LinearOrder α] {f : W32 → α} (hf : Function.Injective f) {c : Bool} {x y u v : W32}
    (hc : c = true ↔ f x < f y) (huv : x = y → u = v) : (if c then u else v) = if f x ≤ f y then u else v := by
  rcases lt_trichotomy (f x) (f y) with h | h | h
  · rw [if_pos (hc.2 h), if_pos h.le]
  · rw [if_neg fun e => (hc.1 e).ne h, if_pos h.le, huv (hf h)]
  · rw [if_neg fun e => (hc.1 e).not_gt h, if_neg h.not_ge]

theorem toInt_injective : Function.Injective (BitVec.toInt : W32 → Int) := fun _ _ => BitVec.eq_of_toInt_eq
theorem toNat_injective : Function.Injective (BitVec.toNat : W32 → Nat) := fun _ _ => BitVec.eq_of_toNat_eq

theorem minS_value (x y : W32) : minS x y = if x.toInt ≤ y.toInt then x else y :=
  ite_lt_eq_ite_le toInt_injective BitVec.slt_iff_toInt_lt id
theorem maxS_value (x y : W32) : maxS x y = if x.toInt ≤ y.toInt then y else x :=
  ite_lt_eq_ite_le toInt_injective BitVec.slt_iff_toInt_lt Eq.symm
theorem minZ_value (x y : W32) : minZ x y = if x.toNat ≤ y.toNat then x else y :=
  ite_lt_eq_ite_le toNat_injective BitVec.ult_iff_lt id
theorem maxZ_value (x y : W32) : maxZ x y = if x.toNat ≤ y.toNat then y else x :=
  ite_lt_eq_ite_le toNat_injective BitVec.ult_iff_lt Eq.symm

/-! Shifts (R80). -/

theorem shlOp_value (x y : W32) : shlOp x y = if y.toNat < 32 then BitVec.ofNat 32 (x.toNat * 2 ^ y.toNat) else 0 := by
  unfold shlOp
  split
  · apply BitVec.eq_of_toNat_eq
    rw [BitVec.toNat_shiftLeft, BitVec.toNat_ofNat, Nat.shiftLeft_eq]
  · rfl

theorem shrOp_value (x y : W32) : shrOp x y = if y.toNat < 32 then BitVec.ofNat 32 (x.toNat / 2 ^ y.toNat) else 0 := by
  unfold shrOp
  split
  · rw [← Nat.shiftRight_eq_div_pow, ← BitVec.toNat_ushiftRight, BitVec.ofNat_toNat, BitVec.setWidth_eq]
  · rfl

theorem shraOp_value (x y : W32) : shraOp x y =
    if y.toNat < 32 then BitVec.ofInt 32 (x.toInt / 2 ^ y.toNat) else if x.getLsbD 31 then 0xFFFFFFFF#32 else 0 := by
  unfold shraOp
  split
  · rw [BitVec.sshiftRight, Int.shiftRight_eq_div_pow]
    norm_cast
  · rfl

theorem rotlOp_value (x y : W32) : rotlOp x y = (x <<< (y.toNat % 32)) ||| (x >>> (32 - y.toNat % 32)) := by
  unfold rotlOp BitVec.rotateLeft BitVec.rotateLeftAux
  rw [Nat.mod_mod]

/-! Bit fields (R81). -/

theorem fieldMask_getLsbD (b : W32) {i : Nat} (hi : i < 32) :
    (fieldMask b).getLsbD i = decide (i < min (b.toNat / 256 % 64) 32) := by
  have hlen : min (field b.toNat 8 6) 32 = min (b.toNat / 256 % 64) 32 := rfl
  rw [fieldMask, hlen, BitVec.getLsbD_ofNat, Nat.testBit_two_pow_sub_one, decide_eq_true hi, Bool.true_and]

theorem bfxOp_getLsbD (a b : W32) {i : Nat} (hi : i < 32) :
    (bfxOp a b).getLsbD i = (decide (i < min (b.toNat / 256 % 64) 32) && a.getLsbD (b.toNat % 32 + i)) := by
  rw [bfxOp, BitVec.getLsbD_and, fieldMask_getLsbD b hi, BitVec.getLsbD_ushiftRight, Bool.and_comm]

theorem bfiOp_getLsbD (a b d : W32) {i : Nat} (hi : i < 32) :
    (bfiOp a b d).getLsbD i =
      if b.toNat % 32 ≤ i ∧ i < b.toNat % 32 + min (b.toNat / 256 % 64) 32 then a.getLsbD (i - b.toNat % 32) else d.getLsbD i := by
  have hm := fieldMask_getLsbD b (i := i - b.toNat % 32) (by omega)
  simp only [bfiOp, BitVec.getLsbD_or, BitVec.getLsbD_and, BitVec.getLsbD_not, BitVec.getLsbD_shiftLeft, hm, hi, decide_true, Bool.true_and]
  by_cases h1 : i < b.toNat % 32
  · rw [if_neg (by omega)]; simp [h1]
  · by_cases h2 : i - b.toNat % 32 < min (b.toNat / 256 % 64) 32
    · rw [if_pos (by omega)]; simp [h1, h2]
    · rw [if_neg (by omega)]; simp [h1, h2]

/-! Counts of bits (R84). -/

theorem popcOp_toNat (a : W32) : (popcOp a).toNat = ((List.range 32).filter fun i => a.getLsbD i).length := by
  have h := lanesOf_length a
  rw [popcOp, BitVec.toNat_ofNat, laneCount, Nat.mod_eq_of_lt (by omega)]
  rfl

/-- The first of 32 places at which a test holds, 32 for none. -/
def firstPlace (p : Nat → Bool) : Nat := ((List.range 32).find? p).getD 32

theorem firstPlace_spec (p : Nat → Bool) :
    firstPlace p ≤ 32 ∧ (∀ i < firstPlace p, p i = false) ∧ (firstPlace p < 32 → p (firstPlace p) = true) := by
  unfold firstPlace
  cases h : (List.range 32).find? p with
  | none => exact ⟨le_rfl, fun i hi => by simpa using List.find?_range_eq_none.1 h i hi, fun h => absurd h (lt_irrefl _)⟩
  | some k =>
    obtain ⟨hp, hk, hlt⟩ := List.find?_range_eq_some.1 h
    exact ⟨(List.mem_range.1 hk).le, fun i hi => by simpa using hlt i hi, fun _ => hp⟩

theorem clzOp_toNat (a : W32) : (clzOp a).toNat = firstPlace fun i => a.getLsbD (31 - i) := by
  have h : clzOp a = BitVec.ofNat 32 (firstPlace fun i => a.getLsbD (31 - i)) := by
    unfold clzOp firstPlace
    cases (List.range 32).find? fun i => a.getLsbD (31 - i) <;> rfl
  rw [h, BitVec.toNat_ofNat, Nat.mod_eq_of_lt (by have := (firstPlace_spec fun i => a.getLsbD (31 - i)).1; omega)]

theorem ctzOp_toNat (a : W32) : (ctzOp a).toNat = firstPlace fun i => a.getLsbD i := by
  have h : ctzOp a = BitVec.ofNat 32 (firstPlace fun i => a.getLsbD i) := by
    unfold ctzOp firstPlace
    cases (List.range 32).find? fun i => a.getLsbD i <;> rfl
  rw [h, BitVec.toNat_ofNat, Nat.mod_eq_of_lt (by have := (firstPlace_spec fun i => a.getLsbD i).1; omega)]

/-! Moves of bits (R84). -/

theorem foldl_laneBit_getLsbD (l : List Nat) (m : Lanes) {n : Nat} (hn : n < 32) :
    (l.foldl (fun m k => m ||| laneBit k) m).getLsbD n = true ↔ m.getLsbD n = true ∨ n ∈ l := by
  induction l generalizing m with
  | nil => simp
  | cons k r ih => rw [List.foldl_cons, ih, BitVec.getLsbD_or, laneBit_getLsbD hn, Bool.or_eq_true, decide_eq_true_iff, List.mem_cons, or_assoc]

theorem mem_maskOf (l : List Nat) {n : Nat} (hn : n < 32) : (maskOf l).getLsbD n = true ↔ n ∈ l := by
  rw [maskOf, foldl_laneBit_getLsbD l 0 hn]
  simp

theorem brevOp_getLsbD (a : W32) {i : Nat} (hi : i < 32) : (brevOp a).getLsbD i = a.getLsbD (31 - i) := by
  refine Bool.eq_iff_iff.2 ?_
  simp only [brevOp, mem_maskOf _ hi, List.mem_map, mem_lanesOf]
  constructor
  · rintro ⟨k, ⟨hk, hb⟩, rfl⟩
    rwa [show 31 - (31 - k) = k by omega]
  · exact fun h => ⟨31 - i, ⟨by omega, h⟩, by omega⟩

theorem bswapOp_getLsbD (a : W32) {i : Nat} (hi : i < 32) : (bswapOp a).getLsbD i = a.getLsbD (8 * (3 - i / 8) + i % 8) := by
  have hb : i / 8 = 0 ∨ i / 8 = 1 ∨ i / 8 = 2 ∨ i / 8 = 3 := by omega
  rcases hb with h | h | h | h
  all_goals
    simp only [bswapOp, BitVec.getLsbD_append, BitVec.getLsbD_extractLsb', h]
    grind

/-! Narrow values and signs (R84). -/

theorem sext8_toInt (a : W32) : (sext8 a).toInt = (a.setWidth 8).toInt := BitVec.toInt_signExtend_of_le (by decide)
theorem sext16_toInt (a : W32) : (sext16 a).toInt = (a.setWidth 16).toInt := BitVec.toInt_signExtend_of_le (by decide)

theorem zext8_toNat (a : W32) : (zext8 a).toNat = a.toNat % 2 ^ 8 := by
  rw [zext8, BitVec.toNat_and]
  exact Nat.and_two_pow_sub_one_eq_mod _ 8

theorem zext16_toNat (a : W32) : (zext16 a).toNat = a.toNat % 2 ^ 16 := by
  rw [zext16, BitVec.toNat_and]
  exact Nat.and_two_pow_sub_one_eq_mod _ 16

theorem negOp_value (a : W32) : negOp false a = BitVec.ofInt 32 (-a.toInt) := by
  rw [BitVec.ofInt_neg, BitVec.ofInt_toInt]
  exact BitVec.zero_sub a

theorem negOp_sat_toInt (a : W32) : (negOp true a).toInt = min (-a.toInt) (2 ^ 31 - 1) := by
  unfold negOp
  split
  · next h => rw [show a = 0x80000000#32 by simpa using h]; rfl
  · next h =>
    have ha : a.toInt ≠ -2 ^ 31 := fun e => h (by simpa using BitVec.eq_of_toInt_eq (y := 0x80000000#32) e)
    have hlo := a.le_toInt
    have hhi := a.toInt_lt
    rw [show 0 - a = -a from BitVec.zero_sub a, BitVec.toInt_neg, Int.bmod_def]
    omega

theorem absOp_value (a : W32) : absOp false a = BitVec.ofInt 32 |a.toInt| := by
  unfold absOp
  rw [BitVec.msb_eq_toInt]
  split
  · next h => rw [negOp_value, abs_of_neg (by simpa using h)]
  · next h => rw [abs_of_nonneg (by simpa using h), BitVec.ofInt_toInt]

theorem absOp_sat_toInt (a : W32) : (absOp true a).toInt = min |a.toInt| (2 ^ 31 - 1) := by
  unfold absOp
  rw [BitVec.msb_eq_toInt]
  split
  · next h => rw [negOp_sat_toInt, abs_of_neg (by simpa using h)]
  · next h =>
    have := a.toInt_lt
    rw [abs_of_nonneg (by simpa using h)]
    omega

/-! Address pairs (R82) and immediates (R86). -/

theorem adda_value (x : W64) (y : W32) : x + y.signExtend 64 = BitVec.ofInt 64 (x.toNat + y.toInt) := by
  rw [BitVec.ofInt_add, BitVec.ofInt_natCast, BitVec.ofNat_toNat, BitVec.setWidth_eq]
  rfl

theorem adda64_value (x y : W64) : x + y = BitVec.ofNat 64 (x.toNat + y.toNat) := by
  rw [BitVec.ofNat_add, BitVec.ofNat_toNat, BitVec.ofNat_toNat, BitVec.setWidth_eq, BitVec.setWidth_eq]

theorem suba_value (x y : W64) : x - y = BitVec.ofInt 64 (x.toNat - y.toNat) := by
  apply BitVec.eq_of_toNat_eq
  rw [BitVec.toNat_sub, BitVec.toNat_ofInt]
  omega

theorem cmpaLt_value (x y : W64) : (ones (x.ult y)).setWidth 64 = if x.toNat < y.toNat then 0xFFFFFFFF#64 else 0 := by
  rw [ones_if _ (BitVec.ult_iff_lt)]
  change ((if x.toNat < y.toNat then 0xFFFFFFFF#32 else 0) : W32).setWidth 64 = _
  split <;> rfl

theorem movhi_value (i : BitVec 18) (v : W32) :
    (i ++ v.setWidth 14 : W32) = BitVec.ofNat 32 (i.toNat * 2 ^ 14 + v.toNat % 2 ^ 14) := by
  apply BitVec.eq_of_toNat_eq
  rw [BitVec.toNat_append, BitVec.toNat_setWidth, BitVec.toNat_ofNat, ← Nat.shiftLeft_add_eq_or_of_lt (Nat.mod_lt _ (by decide)),
    Nat.shiftLeft_eq]
  have := i.isLt
  omega

end Sys2Proof.Machine
end

