-- ==== Sys2Proof/Proofs/IntegerWords.lean ====
section
/-! Integer, shift, bit-field, address-pair, unary and scalar words (R75 to R86). -/

set_option Elab.async false

namespace Sys2Proof.Machine

/-! Words that deliver a value (R75, R77, R78). -/

/-- A vector word of two sources completes with any value that its operation is known to have. -/
theorem vec2_word {c : RName → Src → Src → Instr} {op g : W32 → W32 → W32} (hc : ∀ d a b s, exec (c d a b) s = vec2 op d a b s)
    (hg : ∀ x y, op x y = g x y) {d : RName} {a b : Src} {s : State} (hd : dst32 d = true) (ha : Sys2Proof.src32 a = true)
    (hb : Sys2Proof.src32 b = true) (hs : s.CanIssue [a, b]) :
    ∃ t, exec (c d a b) s = .next t ∧ VecWord s t d false (fun n => (g (s.src32 a n) (s.src32 b n)).setWidth 64) 0 := by
  obtain rfl : op = g := funext₂ hg
  rw [hc]
  exact vec2_completes hd ha hb hs

theorem vec3_word {c : RName → Src → Src → Instr} {op g : W32 → W32 → W32 → W32} (hc : ∀ d a b s, exec (c d a b) s = vec3 op d a b s)
    (hg : ∀ x y z, op x y z = g x y z) {d : RName} {a b : Src} {s : State} (hd : dstR d = true) (ha : Sys2Proof.src32 a = true)
    (hb : Sys2Proof.src32 b = true) (hs : s.CanIssue [a, b]) :
    ∃ t, exec (c d a b) s = .next t ∧
      VecWord s t d false (fun n => (g (s.src32 a n) (s.src32 b n) (s.cw.readV d.toNat n)).setWidth 64) 0 := by
  obtain rfl : op = g := funext₃ hg
  rw [hc]
  exact vec3_completes hd ha hb hs

/-- A vector word of one source completes with a value that stands in any relation to the source that its operation keeps. -/
theorem vec1_word {c : RName → Src → Instr} {op : W32 → W32} {P : W32 → W32 → Prop} (hc : ∀ d a s, exec (c d a) s = vec1 op d a s)
    (hP : ∀ x, P x (op x)) {d : RName} {a : Src} {s : State} (hd : dst32 d = true) (ha : Sys2Proof.src32 a = true) (hs : s.CanIssue [a]) :
    ∃ t, ∃ r : Nat → W32, exec (c d a) s = .next t ∧ VecWord s t d false (fun n => (r n).setWidth 64) 0 ∧ ∀ n, P (s.src32 a n) (r n) := by
  obtain ⟨t, ht, hw⟩ := vec1_completes (op := op) hd ha hs
  exact ⟨t, fun n => op (s.src32 a n), (hc d a s).trans ht, hw, fun n => hP _⟩

theorem sca2_word {c : RName → Src → Src → Instr} {op g : W32 → W32 → W32} (hc : ∀ d a b s, exec (c d a b) s = sca2 op d a b s)
    (hg : ∀ x y, op x y = g x y) {d : RName} {a b : Src} {s : State} (hd : sdst32 d = true) (ha : ssrc32 a = true)
    (hb : ssrc32 b = true) (hs : s.CanIssue [a, b]) :
    ∃ t, exec (c d a b) s = .next t ∧ ScaWord s t d false ((g (s.src32 a 0) (s.src32 b 0)).setWidth 64) := by
  obtain rfl : op = g := funext₂ hg
  rw [hc]
  exact sca2_completes hd ha hb hs

theorem sca1_word {c : RName → Src → Instr} {op : W32 → W32} {P : W32 → W32 → Prop} (hc : ∀ d a s, exec (c d a) s = sca1 op d a s)
    (hP : ∀ x, P x (op x)) {d : RName} {a : Src} {s : State} (hd : sdst32 d = true) (ha : ssrc32 a = true) (hs : s.CanIssue [a]) :
    ∃ t, ∃ r : W32, exec (c d a) s = .next t ∧ ScaWord s t d false (r.setWidth 64) ∧ P (s.src32 a 0) r := by
  obtain ⟨t, ht, hw⟩ := sca1_completes (op := op) hd ha hs
  exact ⟨t, op (s.src32 a 0), (hc d a s).trans ht, hw, hP _⟩

/-- A vector form completes with any value that it is known to have in the state at issue. -/
theorem vecForm_word {i : Instr} {ok : Bool} {srcs : List Src} {d : RName} {wide : Bool} {f : State → Nat → W64} {g : Nat → W64} {s : State}
    (hi : exec i s = vecForm ok srcs d wide f s) (hg : ∀ n, f s n = g n) (hok : ok = true) (hs : s.CanIssue srcs) (hw : wideOk d wide) :
    ∃ t, exec i s = .next t ∧ VecWord s t d wide g 0 := by
  obtain rfl : f s = g := funext hg
  rw [hi]
  exact vecForm_completes hok hs hw

/-! The values by which more than one statement tells a unary word (R84, R85). -/

theorem notB_getLsbD (a : W32) : ∀ i < 32, (~~~a).getLsbD i = !a.getLsbD i := fun i hi => by
  rw [BitVec.getLsbD_not, decide_eq_true hi, Bool.true_and]

theorem clzOp_counts (a : W32) : (clzOp a).toNat ≤ 32 ∧ (∀ i < (clzOp a).toNat, a.getLsbD (31 - i) = false) ∧
    ((clzOp a).toNat < 32 → a.getLsbD (31 - (clzOp a).toNat) = true) := by
  rw [clzOp_toNat]
  exact firstPlace_spec _

theorem ctzOp_counts (a : W32) : (ctzOp a).toNat ≤ 32 ∧ (∀ i < (ctzOp a).toNat, a.getLsbD i = false) ∧
    ((ctzOp a).toNat < 32 → a.getLsbD (ctzOp a).toNat = true) := by
  rw [ctzOp_toNat]
  exact firstPlace_spec _

theorem cmpEq_value (x y : W32) : ones (x == y) = if x = y then 0xFFFFFFFF#32 else 0 := ones_if _ beq_iff_eq
theorem cmpNe_value (x y : W32) : ones (x != y) = if x ≠ y then 0xFFFFFFFF#32 else 0 := ones_if _ bne_iff_ne
theorem cmpLtS_value (x y : W32) : ones (x.slt y) = if x.toInt < y.toInt then 0xFFFFFFFF#32 else 0 := ones_if _ BitVec.slt_iff_toInt_lt
theorem cmpLtZ_value (x y : W32) : ones (x.ult y) = if x.toNat < y.toNat then 0xFFFFFFFF#32 else 0 := ones_if _ BitVec.ult_iff_lt
theorem cmpLeS_value (x y : W32) : ones (x.sle y) = if x.toInt ≤ y.toInt then 0xFFFFFFFF#32 else 0 := ones_if _ BitVec.sle_iff_toInt_le
theorem cmpLeZ_value (x y : W32) : ones (x.ule y) = if x.toNat ≤ y.toNat then 0xFFFFFFFF#32 else 0 := ones_if _ BitVec.ule_iff_le
theorem sel_value (x y z : W32) : (if z ≠ 0 then x else y) = if z = 0 then y else x := ite_not ..

/-- Settles O1: one value lemma for each word, in the order of the statement's list. -/
theorem integerVectorWords : Obligations.IntegerVectorWords := by
  refine ⟨fun e he d a b s hd ha hb hs => ?_, fun e he d a b s hd ha hb hs => ?_⟩ <;>
    simp only [List.mem_cons, List.not_mem_nil, or_false] at he
  · obtain rfl | rfl | rfl | rfl | rfl | rfl | rfl | rfl | rfl | rfl | rfl | rfl | rfl | rfl | rfl | rfl | rfl | rfl | rfl | rfl := he
    · exact vec2_word exec_iadd add_value hd ha hb hs
    · exact vec2_word exec_isub sub_value hd ha hb hs
    · exact vec2_word exec_imul mul_value hd ha hb hs
    · exact vec2_word exec_imulhS32 mulhS_value hd ha hb hs
    · exact vec2_word exec_imulhZ32 mulhZ_value hd ha hb hs
    · exact vec2_word exec_iminS32 minS_value hd ha hb hs
    · exact vec2_word exec_iminZ32 minZ_value hd ha hb hs
    · exact vec2_word exec_imaxS32 maxS_value hd ha hb hs
    · exact vec2_word exec_imaxZ32 maxZ_value hd ha hb hs
    · exact vec2_word exec_andB (fun _ _ => rfl) hd ha hb hs
    · exact vec2_word exec_orB (fun _ _ => rfl) hd ha hb hs
    · exact vec2_word exec_xorB (fun _ _ => rfl) hd ha hb hs
    · exact vec2_word exec_andn (fun _ _ => rfl) hd ha hb hs
    · exact vec2_word exec_cmpEq cmpEq_value hd ha hb hs
    · exact vec2_word exec_cmpNe cmpNe_value hd ha hb hs
    · exact vec2_word exec_cmpLtS32 cmpLtS_value hd ha hb hs
    · exact vec2_word exec_cmpLtZ32 cmpLtZ_value hd ha hb hs
    · exact vec2_word exec_cmpLeS32 cmpLeS_value hd ha hb hs
    · exact vec2_word exec_cmpLeZ32 cmpLeZ_value hd ha hb hs
    · exact vec2_word exec_iaddSatS32 addSat_value hd ha hb hs
  · obtain rfl | rfl := he
    · exact vec3_word exec_imad imad_value hd ha hb hs
    · exact vec3_word exec_sel sel_value hd ha hb hs

/-- Settles O2: the value lemma of each shift. -/
theorem shiftWords : Obligations.ShiftWords := by
  intro e he d a b s hd ha hb hs
  simp only [List.mem_cons, List.not_mem_nil, or_false] at he
  obtain rfl | rfl | rfl | rfl := he
  · exact vec2_word exec_shl shlOp_value hd ha hb hs
  · exact vec2_word exec_shr shrOp_value hd ha hb hs
  · exact vec2_word exec_shra shraOp_value hd ha hb hs
  · exact vec2_word exec_rotl rotlOp_value hd ha hb hs

/-- Settles O3: both words complete with the value of their operation, whose bits are read off its masks. -/
theorem bitFieldWords : Obligations.BitFieldWords := by
  intro d a b s ha hb hs pos len
  constructor
  · intro hd
    obtain ⟨t, ht, hw⟩ := vec2_completes (op := bfxOp) hd ha hb hs
    exact ⟨t, fun n => bfxOp (s.src32 a n) (s.src32 b n), (exec_bfx d a b s).trans ht, hw, fun n i hi => bfxOp_getLsbD _ _ hi⟩
  · intro hd
    obtain ⟨t, ht, hw⟩ := vec3_completes (op := bfiOp) hd ha hb hs
    exact ⟨t, fun n => bfiOp (s.src32 a n) (s.src32 b n) (s.cw.readV d.toNat n), (exec_bfi d a b s).trans ht, hw,
      fun n i hi => bfiOp_getLsbD _ _ _ hi⟩

/-- Settles O4: each address form is a vector form with the value of 64-bit arithmetic. -/
theorem addressPairWords : Obligations.AddressPairWords := by
  intro d a b s ha hs
  refine ⟨fun hd hb => ?_, fun hd hb => ⟨?_, ?_⟩, fun hd hb => ?_⟩
  · exact vecForm_word (exec_adda d a b s) (fun n => adda_value _ _) (by simp [hd, ha, hb]) hs (wideOk_of_dst64 hd)
  · exact vecForm_word (exec_adda64 d a b s) (fun n => adda64_value _ _) (by simp [hd, ha, hb]) hs (wideOk_of_dst64 hd)
  · exact vecForm_word (exec_suba d a b s) (fun n => suba_value _ _) (by simp [hd, ha, hb]) hs (wideOk_of_dst64 hd)
  · exact vecForm_word (exec_cmpaLt d a b s) (fun n => cmpaLt_value _ _) (by simp [hd, ha, hb]) hs (wideOk_false d)

/-- Settles O5: the bits or the integer of each unary result, in the order of the statement's list, then MOV64 and the immediates. -/
theorem unaryVectorWords : Obligations.UnaryVectorWords := by
  refine ⟨fun e he d a s hd ha hs => ?_, fun d a s hd ha hs => ?_, fun d i s hs => ⟨fun hd => ?_, fun hd => ?_⟩⟩
  · simp only [List.mem_cons, List.not_mem_nil, or_false] at he
    obtain rfl | rfl | rfl | rfl | rfl | rfl | rfl | rfl | rfl | rfl | rfl | rfl | rfl | rfl | rfl := he
    · exact vec1_word exec_mov (P := fun x r => r = x) (fun _ => rfl) hd ha hs
    · exact vec1_word exec_notB notB_getLsbD hd ha hs
    · exact vec1_word exec_popc popcOp_toNat hd ha hs
    · exact vec1_word exec_clz clzOp_counts hd ha hs
    · exact vec1_word exec_ctz ctzOp_counts hd ha hs
    · exact vec1_word exec_brev (fun x _ => brevOp_getLsbD x) hd ha hs
    · exact vec1_word exec_bswap (fun x _ => bswapOp_getLsbD x) hd ha hs
    · exact vec1_word exec_sextS8 sext8_toInt hd ha hs
    · exact vec1_word exec_sextS16 sext16_toInt hd ha hs
    · exact vec1_word exec_zextZ8 zext8_toNat hd ha hs
    · exact vec1_word exec_zextZ16 zext16_toNat hd ha hs
    · exact vec1_word (c := (.ineg · · false)) (fun d a s => exec_ineg d a false s) negOp_value hd ha hs
    · exact vec1_word (c := (.ineg · · true)) (fun d a s => exec_ineg d a true s) negOp_sat_toInt hd ha hs
    · exact vec1_word (c := (.iabsS32 · · false)) (fun d a s => exec_iabsS32 d a false s) absOp_value hd ha hs
    · exact vec1_word (c := (.iabsS32 · · true)) (fun d a s => exec_iabsS32 d a true s) absOp_sat_toInt hd ha hs
  · exact vecForm_word (exec_mov64 d a s) (fun _ => rfl) (by simp [hd, ha]) hs (wideOk_of_dst64 hd)
  · exact vecForm_word (exec_movi d i s) (fun _ => rfl) hd hs (wideOk_false d)
  · exact vecForm_word (exec_movhi d i s) (fun n => congrArg _ (movhi_value i _)) hd hs (wideOk_false d)

/-- A scalar word completes with any value that it is known to have in the state at issue. -/
theorem sca_word {i : Instr} {ok : Bool} {srcs : List Src} {d : RName} {f : State → W32} {v : W32} {s : State}
    (hi : exec i s = issueFixed ok srcs (fun s => .done (s.putS d (f s))) s) (hv : f s = v) (hok : ok = true) (hd : sdst32 d = true)
    (hs : s.CanIssue srcs) : ∃ t, exec i s = .next t ∧ ScaWord s t d false (v.setWidth 64) := by
  rw [hi, ← hv]
  exact sca_completes hok hd hs

theorem sca64_word {i : Instr} {ok : Bool} {srcs : List Src} {d : RName} {f : State → W64} {v : W64} {s : State}
    (hi : exec i s = issueFixed ok srcs (fun s => .done (s.putS64 d (f s))) s) (hv : f s = v) (hok : ok = true) (hd : sdst64 d = true)
    (hs : s.CanIssue srcs) : ∃ t, exec i s = .next t ∧ ScaWord s t d true v := by
  rw [hi, ← hv]
  exact sca64_completes hok hd hs

/-- Settles O6: each scalar word by the value lemma of its vector form. -/
theorem scalarWords : Obligations.ScalarWords := by
  refine ⟨fun e he d a b s hd ha hb hs => ?_, fun e he d a s hd ha hs => ?_,
    fun d a b s hd ha => ⟨fun hb hs => ?_, fun hs => ?_⟩, fun d i s hd hs => ⟨?_, ?_⟩⟩
  · simp only [List.mem_cons, List.not_mem_nil, or_false] at he
    obtain rfl | rfl | rfl | rfl | rfl | rfl | rfl | rfl | rfl | rfl | rfl := he
    · exact sca2_word exec_sadd add_value hd ha hb hs
    · exact sca2_word exec_ssub sub_value hd ha hb hs
    · exact sca2_word exec_smul mul_value hd ha hb hs
    · exact sca2_word exec_sand (fun _ _ => rfl) hd ha hb hs
    · exact sca2_word exec_sor (fun _ _ => rfl) hd ha hb hs
    · exact sca2_word exec_sxor (fun _ _ => rfl) hd ha hb hs
    · exact sca2_word exec_sshl shlOp_value hd ha hb hs
    · exact sca2_word exec_sshr shrOp_value hd ha hb hs
    · exact sca2_word exec_scmpEq cmpEq_value hd ha hb hs
    · exact sca2_word exec_scmpLtS32 cmpLtS_value hd ha hb hs
    · exact sca2_word exec_scmpLtZ32 cmpLtZ_value hd ha hb hs
  · simp only [List.mem_cons, List.not_mem_nil, or_false] at he
    obtain rfl | rfl | rfl | rfl | rfl | rfl | rfl | rfl | rfl | rfl | rfl | rfl | rfl | rfl | rfl := he
    · exact sca1_word exec_smov (P := fun x r => r = x) (fun _ => rfl) hd ha hs
    · exact sca1_word exec_snot notB_getLsbD hd ha hs
    · exact sca1_word exec_spopc popcOp_toNat hd ha hs
    · exact sca1_word exec_sclz clzOp_counts hd ha hs
    · exact sca1_word exec_sctz ctzOp_counts hd ha hs
    · exact sca1_word exec_sbrev (fun x _ => brevOp_getLsbD x) hd ha hs
    · exact sca1_word exec_sbswap (fun x _ => bswapOp_getLsbD x) hd ha hs
    · exact sca1_word exec_ssextS8 sext8_toInt hd ha hs
    · exact sca1_word exec_ssextS16 sext16_toInt hd ha hs
    · exact sca1_word exec_szextZ8 zext8_toNat hd ha hs
    · exact sca1_word exec_szextZ16 zext16_toNat hd ha hs
    · exact sca1_word (c := (.sneg · · false)) (fun d a s => exec_sneg d a false s) negOp_value hd ha hs
    · exact sca1_word (c := (.sneg · · true)) (fun d a s => exec_sneg d a true s) negOp_sat_toInt hd ha hs
    · exact sca1_word (c := (.sabsS32 · · false)) (fun d a s => exec_sabsS32 d a false s) absOp_value hd ha hs
    · exact sca1_word (c := (.sabsS32 · · true)) (fun d a s => exec_sabsS32 d a true s) absOp_sat_toInt hd ha hs
  · exact sca64_word (exec_sadda d a b s) (adda_value _ _) (by simp [hd, ha, hb]) hd hs
  · exact sca64_word (exec_smov64 d a s) rfl (by simp [hd, ha]) hd hs
  · exact sca_word (exec_smovi d i s) rfl hd hd hs
  · exact sca_word (exec_smovhi d i s) (movhi_value i _) hd hd hs

end Sys2Proof.Machine
end

