-- ==== Sys2Proof/Proofs/ControlTransfers.lean ====
section
/-! Branches, calls and jumps: each lane goes to its own target (R76, R89 to R91). -/

set_option Elab.async false

namespace Sys2Proof.Machine

/-! The lanes of a set by target (R90). -/

/-- A lane that joins a path changes no target. -/
theorem byTarget_merge_targets (a : W64) (m : Lanes) (es : List (W64 × Lanes)) :
    (es.map fun e => if e.1 = a then (e.1, e.2 ||| m) else e).map (·.1) = es.map (·.1) := by
  rw [List.map_map]
  refine List.map_congr_left fun e _ => ?_
  dsimp only [Function.comp]
  split <;> rfl

/-- The targets of the new paths are those of the lanes. -/
theorem mem_byTarget_targets (tgt : Nat → W64) (l : List Nat) (a : W64) : a ∈ (byTarget tgt l).map (·.1) ↔ ∃ n ∈ l, tgt n = a := by
  induction l with
  | nil => simp [byTarget]
  | cons m r ih =>
    rw [byTarget]
    split
    · next h =>
      have hm : tgt m ∈ (byTarget tgt r).map (·.1) := by
        obtain ⟨e, he, h⟩ := List.any_eq_true.1 h
        exact List.mem_map.2 ⟨e, he, by simpa using h⟩
      rw [byTarget_merge_targets, ih]
      constructor
      · rintro ⟨n, hn, rfl⟩
        exact ⟨n, List.mem_cons_of_mem _ hn, rfl⟩
      · rintro ⟨n, hn, rfl⟩
        obtain rfl | hn := List.mem_cons.1 hn
        · exact ih.1 hm
        · exact ⟨n, hn, rfl⟩
    · rw [List.map_cons, List.mem_cons, ih]
      simp [eq_comm]

theorem byTarget_targets_nodup (tgt : Nat → W64) (l : List Nat) : ((byTarget tgt l).map (·.1)).Nodup := by
  induction l with
  | nil => simp [byTarget]
  | cons m r ih =>
    rw [byTarget]
    split
    · rwa [byTarget_merge_targets]
    · next h =>
      refine List.nodup_cons.2 ⟨fun hm => h ?_, ih⟩
      obtain ⟨e, he, h⟩ := List.mem_map.1 hm
      exact List.any_eq_true.2 ⟨e, he, by simpa using h⟩

/-- A new path holds exactly the lanes of its target. -/
theorem byTarget_lanes (tgt : Nat → W64) {l : List Nat} {e : W64 × Lanes} (he : e ∈ byTarget tgt l) {n : Nat} (hn : n < 32) :
    e.2.getLsbD n = true ↔ n ∈ l ∧ tgt n = e.1 := by
  induction l generalizing e with
  | nil => simp [byTarget] at he
  | cons m r ih =>
    rw [byTarget] at he
    split at he
    · obtain ⟨e', he', rfl⟩ := List.mem_map.1 he
      have h := ih he'
      by_cases hm : e'.1 = tgt m
      · rw [if_pos hm, BitVec.getLsbD_or, laneBit_getLsbD hn, Bool.or_eq_true, h, decide_eq_true_iff, List.mem_cons]
        grind
      · rw [if_neg hm, h, List.mem_cons]
        grind
    · next hno =>
      have hnew : ∀ e' ∈ byTarget tgt r, e'.1 ≠ tgt m := fun e' he' h => hno (List.any_eq_true.2 ⟨e', he', by simpa using h⟩)
      obtain rfl | he := List.mem_cons.1 he
      · rw [laneBit_getLsbD hn, decide_eq_true_iff, List.mem_cons]
        refine ⟨fun h => ⟨.inl h, by rw [h]⟩, fun ⟨h, ht⟩ => h.resolve_right fun hr => ?_⟩
        obtain ⟨e', he', h'⟩ := List.mem_map.1 ((mem_byTarget_targets tgt r _).2 ⟨n, hr, rfl⟩)
        exact hnew e' he' (h'.trans ht)
      · rw [ih he, List.mem_cons]
        have := hnew e he
        grind

theorem byTarget_nonempty (tgt : Nat → W64) {l : List Nat} (hl : ∀ n ∈ l, n < 32) {e : W64 × Lanes} (he : e ∈ byTarget tgt l) : e.2 ≠ 0 := by
  obtain ⟨n, hn, ht⟩ := (mem_byTarget_targets tgt l e.1).1 (List.mem_map_of_mem he)
  intro h0
  have := (byTarget_lanes tgt he (hl n hn)).2 ⟨hn, ht⟩
  rw [h0] at this
  simp at this

/-! The link pair (R90, R91). -/

/-- The link pair o14:o15 of each lane of a list takes an address. -/
def Wave.link (w : Wave) (a : W64) (ls : List Nat) : Wave := ls.foldl (fun w n => w.setV64 110 n a) w

theorem Wave.setV64_link (w : Wave) (n : Nat) (a : W64) :
    w.setV64 110 n a = { w with opf := (w.opf.set (32 * 14 + n) (a.setWidth 32)).set (32 * 15 + n) ((a >>> 32).setWidth 32) } := rfl

theorem Wave.link_rest (w : Wave) (a : W64) (ls : List Nat) : { w.link a ls with opf := w.opf } = w :=
  List.foldlRecOn (motive := fun v : Wave => { v with opf := w.opf } = w) _ _ rfl fun v hv n _ => by rw [Wave.setV64_link]; exact hv

theorem Wave.link_opf_ne (w : Wave) (a : W64) {ls : List Nat} {k : Nat} (h : ∀ n ∈ ls, k ≠ 32 * 14 + n ∧ k ≠ 32 * 15 + n) (x : W32) :
    (w.link a ls).opf.get k x = w.opf.get k x :=
  List.foldlRecOn (motive := fun v : Wave => v.opf.get k x = w.opf.get k x) _ _ rfl fun v hv n hn => by
    obtain ⟨h14, h15⟩ := h n hn
    rw [Wave.setV64_link, FMap.get_set_ne _ _ _ _ _ h15, FMap.get_set_ne _ _ _ _ _ h14, hv]

theorem Wave.link_opf (w : Wave) (a : W64) {ls : List Nat} (hl : ∀ n ∈ ls, n < 32) {n : Nat} (hn : n ∈ ls) (x : W32) :
    (w.link a ls).opf.get (32 * 14 + n) x = a.setWidth 32 ∧ (w.link a ls).opf.get (32 * 15 + n) x = (a >>> 32).setWidth 32 := by
  induction ls generalizing w with
  | nil => simp at hn
  | cons m r ih =>
    have hr : ∀ k ∈ r, k < 32 := fun k hk => hl k (List.mem_cons_of_mem _ hk)
    have hstep : w.link a (m :: r) = (w.setV64 110 m a).link a r := rfl
    rw [hstep]
    by_cases hnr : n ∈ r
    · exact ih _ hr hnr
    · obtain rfl : n = m := (List.mem_cons.1 hn).resolve_right hnr
      have hn32 : n < 32 := hl n hn
      have hne : ∀ k ∈ r, k ≠ n := fun k hk h => hnr (h ▸ hk)
      have hlo : ∀ k ∈ r, 32 * 14 + n ≠ 32 * 14 + k ∧ 32 * 14 + n ≠ 32 * 15 + k := fun k hk => by
        have := hne k hk; have := hr k hk; omega
      have hhi : ∀ k ∈ r, 32 * 15 + n ≠ 32 * 14 + k ∧ 32 * 15 + n ≠ 32 * 15 + k := fun k hk => by
        have := hne k hk; have := hr k hk; omega
      rw [Wave.link_opf_ne _ _ hlo, Wave.link_opf_ne _ _ hhi, Wave.setV64_link]
      exact ⟨by rw [FMap.get_set_ne _ _ _ _ _ (by omega), FMap.get_set_self], FMap.get_set_self ..⟩

theorem Wave.link_readV64 (w : Wave) (a : W64) {ls : List Nat} (hl : ∀ n ∈ ls, n < 32) {n : Nat} (hn : n ∈ ls) :
    (w.link a ls).readV64 110 n = a := by
  have hread : (w.link a ls).readV64 110 n = (w.link a ls).readV 111 n ++ (w.link a ls).readV 110 n := rfl
  rw [hread, show (w.link a ls).readV 111 n = (a >>> 32).setWidth 32 from (w.link_opf a hl hn _).2,
    show (w.link a ls).readV 110 n = a.setWidth 32 from (w.link_opf a hl hn _).1, hi_append_lo]

/-! A transfer that completes (R34, R76, R90). -/

/-- A path inside a clause is the first of its wave. -/
theorem paths_eq_cons {s : State} (h : s.cp.clause.isSome = true) : s.cw.paths = s.cp :: s.cw.paths.tail := by
  cases hp : s.cw.paths with
  | nil => simp [State.cp, hp] at h
  | cons p r => simp [State.cp, hp]

theorem Wave.transfer_eq {w : Wave} {p : Path} {r : List Path} (tgt : Nat → W64) (h : w.paths = p :: r) :
    w.transfer tgt = { w with
      paths := (byTarget tgt (lanesOf p.lanes)).map (fun e => { p with lanes := e.2, pc := e.1, clause := none, age := 0 }) ++ r } := by
  unfold Wave.transfer
  rw [h]

/-- A control transfer that links the lanes of a list and sends every executing lane to its target. -/
theorem transfer_done {s : State} {ls : List Nat} {takes : Nat → Prop} (tgt : Nat → W64) (hc : s.cp.clause.isSome = true)
    (hls : ∀ n, n ∈ ls ↔ s.runs n ∧ takes n) :
    Linked s ((s.modCw fun w => (w.link (s.cp.pc + 4) ls).transfer tgt).count s) takes ∧
      Transferred s ((s.modCw fun w => (w.link (s.cp.pc + 4) ls).transfer tgt).count s) tgt := by
  have hl : ∀ n ∈ ls, n < 32 := fun n hn => ((hls n).1 hn).1.1
  have hrest := s.cw.link_rest (s.cp.pc + 4) ls
  have hpaths : (s.cw.link (s.cp.pc + 4) ls).paths = s.cp :: s.cw.paths.tail := (congrArg Wave.paths hrest :).trans (paths_eq_cons hc)
  have hskid : (s.cw.link (s.cp.pc + 4) ls).skid = s.cw.skid := (congrArg Wave.skid hrest :)
  rw [State.count_modCw]
  generalize hg : (fun w : Wave => ({ (w.link (s.cp.pc + 4) ls).transfer tgt with
    skid := ((w.link (s.cp.pc + 4) ls).transfer tgt).skid + if s.cg.phase = .halting then 1 else 0 } : Wave)) = g
  have hcw : (s.modCw g).cw = { s.cw.link (s.cp.pc + 4) ls with
      paths := (byTarget tgt (lanesOf s.memb)).map (fun e => { s.cp with lanes := e.2, pc := e.1, clause := none, age := 0 }) ++ s.cw.paths.tail
      skid := s.cw.skid + if s.cg.phase = .halting then 1 else 0 } := by
    rw [State.cw_modCw, ← hg, ← hskid]
    dsimp only
    rw [Wave.transfer_eq tgt hpaths]
    rfl
  refine ⟨⟨fun n hn ht => ?_, fun k x hk => ?_, ?_⟩, ⟨OnlyWave.modCw s g, ?_, _, by rw [hcw], ?_, fun n => ?_, ?_⟩⟩
  · rw [hcw]
    exact s.cw.link_readV64 _ hl ((hls n).2 ⟨hn, ht⟩)
  · rw [hcw]
    exact s.cw.link_opf_ne _ (fun n hn => hk n ((hls n).1 hn).1 ((hls n).1 hn).2) x
  · rw [hcw]
    calc _ = { ({ s.cw.link (s.cp.pc + 4) ls with opf := s.cw.opf } : Wave) with paths := s.cw.paths, skid := s.cw.skid } := rfl
      _ = s.cw := by rw [hrest]
  · rw [hcw]
  · rw [List.map_map]
    exact byTarget_targets_nodup tgt _
  · constructor
    · intro hn
      obtain ⟨e, he, ht⟩ := List.mem_map.1 ((mem_byTarget_targets tgt _ _).2 ⟨n, (s.runs_iff n).2 hn, rfl⟩)
      exact ⟨hn.1, _, List.mem_map_of_mem he, (byTarget_lanes tgt he hn.1).2 ⟨(s.runs_iff n).2 hn, ht.symm⟩⟩
    · rintro ⟨hn, p, hp, hb⟩
      obtain ⟨e, he, rfl⟩ := List.mem_map.1 hp
      exact (s.runs_iff n).1 ((byTarget_lanes tgt he hn).1 hb).1
  · intro p hp
    obtain ⟨e, he, rfl⟩ := List.mem_map.1 hp
    exact ⟨byTarget_nonempty tgt (fun n hn => ((mem_lanesOf _ n).1 hn).1) he, rfl, rfl, rfl,
      fun n hn hb => ((byTarget_lanes tgt he hn).1 hb).2.symm⟩

/-- A control transfer that closes its clause and traps. -/
theorem issueControl_trap {ok : Bool} {srcs : List Src} {f : State → Res} {s : State} {t : Trap} (hok : ok = true) (h : s.CanIssue srcs)
    (hl : s.Closes) (hf : f s = .trap t) : issueControl ok srcs f s = .next (s.trapP t) := by
  obtain ⟨c, hc, hb⟩ := CanIssue_clause h
  simp [issueControl, enter, hc, hok, hb, hf, Nat.not_lt.2 (hl c hc)]

/-! Branches (R89, R90). -/

theorem target_eq (s : State) (o : BitVec 18) : s.target o = s.cp.pc + BitVec.ofInt 64 (4 * o.toInt) := by
  rw [State.target, BitVec.ofInt_mul]
  rfl

theorem cond_iff (s : State) (c : RName) (n : Nat) : s.cond c n = true ↔ c = 127#7 ∨ s.cw.readV c.toNat n ≠ 0 := by
  simp [State.cond, ← BitVec.toNat_inj]

/-- A register's name is not the code that selects every lane. -/
theorem ne_all_of_vname {c : RName} (h : vname c = true) : c ≠ 127#7 := by
  rintro rfl
  simp [vname] at h

theorem branch_completes {ok link : Bool} {sel : State → Nat → Bool} {o : BitVec 18} {s : State} (hok : ok = true) (hs : s.CanIssue [])
    (hl : s.Closes) :
    ∃ t, branch ok link sel o s = .next t ∧ Linked s t (fun n => link = true ∧ sel s n = true) ∧
      Transferred s t fun n => if sel s n then s.cp.pc + BitVec.ofInt 64 (4 * o.toInt) else s.cp.pc + 4 := by
  have hls : ∀ n, n ∈ (if link then (lanesOf s.memb).filter (sel s) else []) ↔ s.runs n ∧ link = true ∧ sel s n = true := fun n => by
    cases link <;> simp [State.runs_iff]
  refine ⟨_, issueControl_eq hok hs hl rfl, ?_⟩
  rw [target_eq]
  have h := transfer_done (fun n => if sel s n then s.cp.pc + BitVec.ofInt 64 (4 * o.toInt) else s.cp.pc + 4) hs.1 hls
  cases link <;> exact h

/-- A link condition may be told in other words. -/
theorem Linked.of_iff {s t : State} {p q : Nat → Prop} (h : Linked s t p) (hpq : ∀ n, p n ↔ q n) : Linked s t q := by
  obtain rfl : p = q := funext fun n => propext (hpq n)
  exact h

/-- The same for targets. -/
theorem Transferred.of_eq {s t : State} {f g : Nat → W64} (h : Transferred s t f) (hfg : ∀ n, f n = g n) : Transferred s t g := by
  obtain rfl : f = g := funext hfg
  exact h

/-- Settles O16: each branch is a transfer whose lanes select it by their own condition. -/
theorem branchWords : Obligations.BranchWords := by
  intro c o s hs hl
  refine ⟨fun hc => ?_, fun hc => ?_, ?_, fun hc => ?_⟩
  · have hsel : ∀ n, s.cond c n = true ↔ s.cw.readV c.toNat n ≠ 0 := fun n => (cond_iff s c n).trans (or_iff_right (ne_all_of_vname hc))
    obtain ⟨t, ht, hlink, htr⟩ := branch_completes (link := false) (sel := fun s n => s.cond c n) (o := o) hc hs hl
    exact ⟨t, (exec_bnz ..).trans ht, hlink.of_iff (by simp), htr.of_eq fun n => if_congr (hsel n) rfl rfl⟩
  · have hsel : ∀ n, (!s.cond c n) = true ↔ s.cw.readV c.toNat n = 0 := fun n => by
      rw [Bool.not_eq_true', Bool.eq_false_iff, ne_eq, cond_iff, or_iff_right (ne_all_of_vname hc), not_not]
    obtain ⟨t, ht, hlink, htr⟩ := branch_completes (link := false) (sel := fun s n => !s.cond c n) (o := o) hc hs hl
    exact ⟨t, (exec_bz ..).trans ht, hlink.of_iff (by simp), htr.of_eq fun n => if_congr (hsel n) rfl rfl⟩
  · obtain ⟨t, ht, hlink, htr⟩ := branch_completes (ok := true) (link := false) (sel := fun _ _ => true) (o := o) rfl hs hl
    exact ⟨t, (exec_bra ..).trans ht, hlink.of_iff (by simp), htr⟩
  · have hok : (vname c || c.toNat == 127) = true := by
      rcases hc with hc | rfl
      · rw [hc, Bool.true_or]
      · rfl
    obtain ⟨t, ht, hlink, htr⟩ := branch_completes (link := true) (sel := fun s n => s.cond c n) (o := o) hok hs hl
    exact ⟨t, _, (exec_call ..).trans ht, hlink.of_iff fun n => (and_iff_right rfl).trans (cond_iff s c n), htr,
      fun n _ => ⟨fun h => if_pos ((cond_iff s c n).2 h), fun h => if_neg fun hc => h ((cond_iff s c n).1 hc)⟩⟩

/-! Jumps (R91). -/

theorem jump_completes {link : Bool} {c : RName} {s : State} (hc : vaddr c = true) (hs : s.CanIssue []) (hl : s.Closes)
    (ha : ∀ n, s.runs n → (s.cw.readV64 c.toNat n).toNat % 4 = 0) :
    ∃ t, jump link c s = .next t ∧ Linked s t (fun _ => link = true) ∧ Transferred s t fun n => s.cw.readV64 c.toNat n := by
  have hbad : ((lanesOf s.memb).filter fun n => (s.cw.readV64 c.toNat n).toNat % 4 != 0) = [] := by
    refine List.filter_eq_nil_iff.2 fun n hn => ?_
    simpa using ha n ((s.runs_iff n).1 hn)
  have hls : ∀ n, n ∈ (if link then lanesOf s.memb else []) ↔ s.runs n ∧ link = true := fun n => by
    cases link <;> simp [State.runs_iff]
  have h := transfer_done (fun n => s.cw.readV64 c.toNat n) hs.1 hls
  refine ⟨_, issueControl_eq hc hs hl (if_neg (not_not.2 hbad)), ?_⟩
  cases link <;> exact h

theorem jump_traps {link : Bool} {c : RName} {s : State} (hc : vaddr c = true) (hs : s.CanIssue []) (hl : s.Closes)
    (ha : ∃ n, s.runs n ∧ (s.cw.readV64 c.toNat n).toNat % 4 ≠ 0) :
    ∃ m : Lanes, (∀ n < 32, m.getLsbD n = (s.memb.getLsbD n && (s.cw.readV64 c.toNat n).toNat % 4 != 0)) ∧
      jump link c s = .next (s.trapP (s.trapHere 0 0 m)) := by
  obtain ⟨n, hn, hodd⟩ := ha
  refine ⟨_, fun k hk => ?_, issueControl_trap hc hs hl
    (if_pos (List.ne_nil_of_mem (List.mem_filter.2 ⟨(s.runs_iff n).2 hn, by simpa using hodd⟩)))⟩
  refine Bool.eq_iff_iff.2 ?_
  rw [mem_maskOf _ hk, List.mem_filter, mem_lanesOf, Bool.and_eq_true, and_iff_right hk]

/-- Settles O17: each jump is a transfer to the address that the lane's pair holds, or a trap of the lanes whose address is misaligned. -/
theorem jumpWords : Obligations.JumpWords := by
  intro e he c s hc hs hl
  have hexec : exec (e.1 c) s = jump e.2 c s := by
    simp only [List.mem_cons, List.not_mem_nil, or_false] at he
    obtain rfl | rfl | rfl := he
    · exact exec_jmpi ..
    · exact exec_calli ..
    · exact exec_ret ..
  rw [hexec]
  exact ⟨jump_completes hc hs hl, jump_traps hc hs hl⟩

end Sys2Proof.Machine
end

