-- ==== Sys2Proof/Proofs/Reconvergence.lean ====
section
/-! Reconvergence barriers and RCV (R93, R94). -/

set_option Elab.async false

namespace Sys2Proof.Machine

/-! Releases of reconvergence barriers (R93). -/

/-- A property of paths that joining keeps holds of the joined paths. -/
theorem forall_joinPath {P : Path → Prop} (hj : ∀ q p : Path, P q → P p → P { q with lanes := q.lanes ||| p.lanes, hold := q.hold ++ p.hold })
    {ps : List Path} {p : Path} (hps : ∀ q ∈ ps, P q) (hp : P p) : ∀ q ∈ joinPath ps p, P q := by
  induction ps with
  | nil => simpa [joinPath] using hp
  | cons q r ih =>
    obtain ⟨hq, hr⟩ := List.forall_mem_cons.1 hps
    rw [joinPath]
    split
    · exact List.forall_mem_cons.2 ⟨hj q p hq hp, hr⟩
    · exact List.forall_mem_cons.2 ⟨hq, ih hr⟩

/-- What holds of the paths that do not wait at a barrier, and of the released ones, holds of every path after its release. -/
theorem forall_releaseRb {P : Path → Prop} (hj : ∀ q p : Path, P q → P p → P { q with lanes := q.lanes ||| p.lanes, hold := q.hold ++ p.hold })
    {b : Nat} {ps : List Path} (hkeep : ∀ p ∈ ps, p.status ≠ .rcv b → P p)
    (hfree : ∀ p ∈ ps, p.status = .rcv b → P { p.past false with age := 0, status := .run }) : ∀ q ∈ releaseRb b ps, P q := by
  intro q hq
  rw [releaseRb, List.mem_append] at hq
  rcases hq with hq | hq
  · obtain ⟨hm, hs⟩ := List.mem_filter.1 hq
    exact hkeep q hm (by simpa using hs)
  · refine List.foldlRecOn (motive := fun qs : List Path => ∀ q ∈ qs, P q) _ _ (by simp) (fun qs hqs p hp => ?_) q hq
    obtain ⟨p', hp', rfl⟩ := List.mem_map.1 hp
    obtain ⟨hm, hs⟩ := List.mem_filter.1 hp'
    exact forall_joinPath hj hqs (hfree p' hm (by simpa using hs))

/-- A reconvergence barrier releases or stands. -/
theorem Wave.rbTest_cases (w : Wave) (b : Nat) :
    w.rbTest b = w ∨ w.rbTest b =
      Wave.mapPaths { w with rbs := w.rbs.set b { w.rbs.get b {} with arrived := 0, withdrawn := 0 } } (releaseRb b) := by
  unfold Wave.rbTest
  dsimp only
  split
  · exact .inr rfl
  · exact .inl rfl

/-- A test of a reconvergence barrier changes the barriers and the paths of its wave, and nothing else. -/
theorem Wave.rbTest_rest (w : Wave) (b : Nat) : { w.rbTest b with paths := w.paths, saved := w.saved, rbs := w.rbs } = w := by
  obtain h | h := w.rbTest_cases b
  · rw [h]
  · rw [h]; rfl

/-- The lanes of a barrier's mask that are still to come (R93, R94). -/
def RBar.missing (r : RBar) (w : Wave) : Lanes := r.mask &&& ~~~(r.arrived ||| w.exited ||| ~~~w.launched ||| r.withdrawn)

/-- A barrier that is in use and misses no lane releases. -/
theorem Wave.rbTest_frees {w : Wave} {b : Nat} {r : RBar} (hr : w.rbs.get b {} = r) (hin : r.arrived ||| r.withdrawn ≠ 0)
    (hm : r.missing w = 0) :
    w.rbTest b = Wave.mapPaths { w with rbs := w.rbs.set b { r with arrived := 0, withdrawn := 0 } } (releaseRb b) := by
  subst hr
  exact if_pos ⟨hin, hm⟩

/-- A barrier that misses a lane stands. -/
theorem Wave.rbTest_waits {w : Wave} {b : Nat} {r : RBar} (hr : w.rbs.get b {} = r) (hm : r.missing w ≠ 0) : w.rbTest b = w := by
  subst hr
  exact if_neg fun h => hm h.2

/-! RCV (R93, R94). -/

/-- A barrier word that traps. -/
theorem issueBarrier_trap {ok : Bool} {f : State → Res} {s : State} {t : Trap} (hok : ok = true) (h : s.CanIssue [])
    (hf : f s = .trap t) : issueBarrier ok f s = .next (s.trapP t) := by
  obtain ⟨c, hc, hb⟩ := CanIssue_clause h
  simp [issueBarrier, enter, hc, hok, hb, hf]

/-- The wave whose issuing path has met RCV: lanes `p` wait at barrier `b`, the others stand past the word (R93). -/
def Wave.splitRcv (w : Wave) (h : Path) (rest : List Path) (p : Lanes) (b : Nat) : Wave :=
  { w with
    paths := (if h.lanes &&& ~~~p = 0 then [] else [{ h.past false with lanes := h.lanes &&& ~~~p }]) ++ rest ++
      (if p = 0 then [] else [{ h with lanes := p, status := .rcv b }]) }

/-- The barrier that has recorded the lanes which come by RCV (R93). -/
def State.rcvBar (s : State) (mask : Lanes) (b : Nat) : RBar :=
  { s.cw.rbs.get b {} with mask := mask, arrived := (s.cw.rbs.get b {}).arrived ||| (s.memb &&& mask) }

/-- The wave with that barrier, its lanes inside the mask waiting (R93). -/
def State.rcvWave (s : State) (mask : Lanes) (b : Nat) : Wave :=
  { s.cw.splitRcv s.cp s.cw.paths.tail (s.memb &&& mask) b with rbs := s.cw.rbs.set b (s.rcvBar mask b) }

/-- The wave after RCV whose mask agrees: without a lane in the mask only the path moves on, with one the barrier is tested (R93). -/
def State.afterRcv (s : State) (mask : Lanes) (b : Nat) : Wave :=
  if s.memb &&& mask = 0 then s.cw.splitRcv s.cp s.cw.paths.tail (s.memb &&& mask) b else (s.rcvWave mask b).rbTest b

/-- Lanes come to a barrier at which others wait with another mask (R94). -/
def State.rcvDisagrees (s : State) (mask : Lanes) (b : Nat) : Prop :=
  s.memb &&& mask ≠ 0 ∧ (s.cw.rbs.get b {}).arrived ≠ 0 ∧ mask ≠ (s.cw.rbs.get b {}).mask

theorem execRcv_traps {m : RName} {b : BitVec 4} {s : State} (hs : s.CanIssue []) (hm : m.toNat < 97)
    (h : s.rcvDisagrees (s.readS m.toNat) b.toNat) :
    execRcv m b s = .next (s.trapP (s.trapHere 2 0 s.memb)) :=
  issueBarrier_trap (decide_eq_true hm) hs (if_pos h)

theorem execRcv_completes {m : RName} {b : BitVec 4} {s : State} (hs : s.CanIssue []) (hm : m.toNat < 97)
    (h : ¬ s.rcvDisagrees (s.readS m.toNat) b.toNat) :
    ∃ t k, execRcv m b s = .next t ∧ OnlyWave s t ∧ t.cw = { s.afterRcv (s.readS m.toNat) b.toNat with skid := k } := by
  refine ⟨_, (s.afterRcv (s.readS m.toNat) b.toNat).skid + if s.cg.phase = .halting then 1 else 0,
    issueBarrier_eq (decide_eq_true hm) hs (if_neg h), ?_, ?_⟩
  · rw [State.count_modCw]
    exact OnlyWave.modCw s _
  · rw [State.count_modCw, State.cw_modCw]
    dsimp only
    rw [paths_eq_cons hs.1]
    rfl

/-- RCV changes nothing of its wave but the paths, the barriers and the count of the skid. -/
theorem State.afterRcv_rest (s : State) (mask : Lanes) (b k : Nat) :
    { s.afterRcv mask b with paths := s.cw.paths, rbs := s.cw.rbs, saved := s.cw.saved, skid := k } = { s.cw with skid := k } := by
  unfold State.afterRcv
  split
  · rfl
  · obtain h | h := (s.rcvWave mask b).rbTest_cases b <;> rw [h] <;> rfl

/-- With no lane in the mask the path moves on as it is. -/
theorem State.afterRcv_passes {s : State} {mask : Lanes} (b : Nat) (hn : s.memb ≠ 0) (hp : s.memb &&& mask = 0) :
    (s.afterRcv mask b).paths = s.cp.past false :: s.cw.paths.tail ∧ (s.afterRcv mask b).rbs = s.cw.rbs := by
  have hall : s.cp.lanes &&& ~~~(0 : Lanes) = s.cp.lanes := by
    rw [show ~~~(0 : Lanes) = BitVec.allOnes 32 from BitVec.not_zero, BitVec.and_allOnes]
  have hne : s.cp.lanes ≠ 0 := hn
  rw [State.afterRcv, if_pos hp, hp]
  refine ⟨?_, rfl⟩
  simp only [Wave.splitRcv, hall, if_neg hne, if_true, List.append_nil]
  rfl

section
variable {s : State} {mask : Lanes} {b : Nat} (hp : s.memb &&& mask ≠ 0)
include hp

/-- While a lane of the mask is still to come, the lanes inside wait and are recorded. -/
theorem State.afterRcv_waits (hm : (s.rcvBar mask b).missing s.cw ≠ 0) : s.afterRcv mask b = s.rcvWave mask b := by
  rw [State.afterRcv, if_neg hp]
  exact Wave.rbTest_waits (FMap.get_set_self ..) hm

/-- When every lane of the mask has come, the barrier is empty and its lanes are released. -/
theorem State.afterRcv_frees (hm : (s.rcvBar mask b).missing s.cw = 0) :
    (s.afterRcv mask b).rbs.get b {} = { mask := mask, arrived := 0, withdrawn := 0 } ∧
      ∀ q ∈ (s.afterRcv mask b).paths, q.status ≠ .rcv b := by
  have hin : (s.cw.rbs.get b {}).arrived ||| (s.memb &&& mask) ||| (s.cw.rbs.get b {}).withdrawn ≠ 0 := fun h =>
    hp (BitVec.or_eq_zero_iff.1 (BitVec.or_eq_zero_iff.1 h).1).2
  rw [State.afterRcv, if_neg hp, Wave.rbTest_frees (w := s.rcvWave mask b) (FMap.get_set_self ..) hin hm]
  refine ⟨FMap.get_set_self .., forall_releaseRb (P := fun q => q.status ≠ .rcv b) (fun q p hq _ => hq) (fun p _ h => h) ?_⟩
  exact fun p _ _ => nofun

end

/-- Settles O21: RCV with a mask that disagrees traps; otherwise its lanes pass, wait or are released by what the mask still misses. -/
theorem reconvergenceWord : Obligations.ReconvergenceWord := by
  intro m b s hs hn hm
  dsimp only
  refine ⟨fun h => (exec_rcv ..).trans (execRcv_traps hs hm h), fun h => ?_⟩
  have hok : ¬ s.rcvDisagrees (s.readS m.toNat) b.toNat := by
    rintro ⟨h1, h2, h3⟩
    exact h.elim h1 (Or.elim · h2 h3)
  obtain ⟨t, k, ht, hwave, hcw⟩ := execRcv_completes (b := b) hs hm hok
  refine ⟨t, (exec_rcv ..).trans ht, hwave, ?_, fun hp => ?_, fun hp hmiss => ?_, fun hp hmiss => ?_⟩
  · rw [hcw]
    exact s.afterRcv_rest _ _ s.cw.skid
  · rw [hcw]
    exact State.afterRcv_passes _ hn hp
  · rw [hcw, State.afterRcv_waits hp hmiss]
    refine ⟨FMap.get_set_self .., ?_, fun hout => ?_⟩
    · simp only [State.rcvWave, Wave.splitRcv, if_neg hp]
      exact List.mem_append_right _ (List.mem_singleton.2 rfl)
    · have hout' : s.cp.lanes &&& ~~~(s.memb &&& s.readS m.toNat) ≠ 0 := hout
      simp only [State.rcvWave, Wave.splitRcv, if_neg hout']
      exact List.mem_append_left _ (List.mem_append_left _ (List.mem_singleton.2 rfl))
  · rw [hcw]
    exact State.afterRcv_frees hp hmiss

end Sys2Proof.Machine
end

