-- ==== Sys2Proof/Proofs/GroupBarrier.lean ====
section
/-! The slots of the group barrier and BAR (R95, R96). -/

set_option Elab.async false

namespace Sys2Proof.Machine

/-! One change of the waves of a list (R95). -/

/-- Changing the waves of a list changes no other part of the machine. -/
theorem foldl_modWave_rest (ks : List Nat) (f : Wave → Wave) (s : State) :
    { ks.foldl (fun u k => u.modWave k f) s with waves := s.waves } = s :=
  List.foldlRecOn (motive := fun u : State => { u with waves := s.waves } = s) _ _ rfl fun _ hu _ _ => hu

/-- A change that made twice is made once reaches each wave of a list, however often the list names it. -/
theorem foldl_modWave_wave {f : Wave → Wave} (hf : ∀ w, f (f w) = f w) (ks : List Nat) (s : State) (k : Nat) :
    (ks.foldl (fun u k => u.modWave k f) s).wave k = if k ∈ ks then f (s.wave k) else s.wave k := by
  induction ks generalizing s with
  | nil => simp
  | cons j r ih =>
    rw [List.foldl_cons, ih, State.wave_modWave]
    by_cases hj : k = j
    · subst hj
      simp [hf]
    · simp [hj]

/-- A path that waits at a slot of the group barrier leaves it (R95). -/
def Path.offBar (k : Nat) (p : Path) : Path := if p.status = .bar k then { p.past false with age := 0, status := .run } else p

@[simp] theorem Path.offBar_lanes (k : Nat) (p : Path) : (p.offBar k).lanes = p.lanes := by
  unfold Path.offBar
  split <;> rfl

theorem Path.offBar_status (k : Nat) (p : Path) : (p.offBar k).status ≠ .bar k := by
  unfold Path.offBar
  split
  · nofun
  · next h => exact h

theorem Path.offBar_offBar (k : Nat) (p : Path) : (p.offBar k).offBar k = p.offBar k := if_neg (p.offBar_status k)

theorem Wave.mapPaths_twice {f : Path → Path} (hf : ∀ p, f (f p) = f p) (w : Wave) :
    (w.mapPaths (·.map f)).mapPaths (·.map f) = w.mapPaths (·.map f) := by
  have hff : f ∘ f = f := funext hf
  simp [Wave.mapPaths, List.map_map, hff, Function.comp_def]

/-! The test of a slot of the group barrier (R95). -/

/-- A slot that is not full stands. -/
theorem State.barTest_waits {s : State} {gid k : Nat} {b : Bar} (hb : (s.group gid).bars.get k {} = b)
    (h : ¬ (if b.count = 0 then s.liveCount gid else b.count) ≤ b.arrived) : s.barTest gid k = s := by
  subst hb
  exact if_neg fun hc => h hc.2

/-- A full slot is emptied, its phase flips, and every path that waits at it leaves it. -/
theorem State.barTest_frees {s : State} {gid k : Nat} {b : Bar} (hb : (s.group gid).bars.get k {} = b) (h0 : 0 < b.arrived)
    (h : (if b.count = 0 then s.liveCount gid else b.count) ≤ b.arrived) :
    s.barTest gid k = (s.group gid).keys.foldl (fun u key => u.modWave key fun w => w.mapPaths (·.map (Path.offBar k)))
      (s.modGroup gid fun g => { g with bars := g.bars.set k { b with arrived := 0, phase := !b.phase } }) := by
  subst hb
  exact if_pos ⟨h0, h⟩

/-! What counting a word and moving a path leave unchanged. -/

@[simp] theorem State.group_count (t s : State) (g : Nat) : (t.count s).group g = t.group g := by
  unfold State.count
  split <;> rfl

@[simp] theorem State.ck_count (t s : State) : (t.count s).ck = t.ck := by
  unfold State.count
  split <;> rfl

/-- Counting a word changes the count of a wave's skid alone. -/
theorem State.wave_count (t s : State) (k : Nat) : ∃ n, (t.count s).wave k = { t.wave k with skid := n } := by
  unfold State.count
  split
  · rw [State.modCw, State.wave_modWave]
    split
    · next h => exact ⟨_, by rw [h]⟩
    · exact ⟨_, rfl⟩
  · exact ⟨_, rfl⟩

theorem State.wave_modCp (s : State) (f : Path → Path) (k : Nat) :
    (s.modCp f).wave k = if k = s.ck then (s.wave k).modPath f else s.wave k := by
  rw [State.modCp, State.modCw, State.wave_modWave]
  split
  · next h => rw [h]
  · rfl

/-- The live lanes of a group are counted from its waves' launched and exited lanes. -/
theorem State.liveCount_congr {s t : State} {gid : Nat} (hk : (t.group gid).keys = (s.group gid).keys)
    (hl : ∀ k, (t.wave k).live = (s.wave k).live) : t.liveCount gid = s.liveCount gid := by
  unfold State.liveCount
  rw [hk]
  simp only [hl]

theorem laneCount_pos {m : Lanes} (h : m ≠ 0) : 0 < laneCount m := by
  refine List.length_pos_iff.2 fun hnil => h (BitVec.eq_of_getLsbD_eq fun n hn => ?_)
  have : n ∉ lanesOf m := by rw [hnil]; exact List.not_mem_nil
  rw [mem_lanesOf] at this
  simpa [hn] using this

/-! BAR (R95, R96). -/

/-- The slot that has counted the lanes which come by BAR (R95). -/
def State.slotWith (s : State) (k n : Nat) : Bar :=
  { s.cg.bars.get k {} with count := n, arrived := (s.cg.bars.get k {}).arrived + laneCount s.memb }

/-- The state in which BAR's lanes have come to their slot and its path waits there. -/
def State.atSlot (s : State) (k n : Nat) : State :=
  (s.modCg fun g => { g with bars := g.bars.set k (s.slotWith k n) }).modCp fun p => { p with status := .bar k }

section
variable (s : State) (k n : Nat)

theorem State.atSlot_group : (s.atSlot k n).group s.cgid = { s.cg with bars := s.cg.bars.set k (s.slotWith k n) } := by
  rw [State.atSlot, State.group_modCp, State.group_modCg_self]

theorem State.atSlot_wave (key : Nat) : (s.atSlot k n).wave key =
    if key = s.ck then (s.wave key).modPath fun p => { p with status := .bar k } else s.wave key := by
  rw [State.atSlot, State.wave_modCp, State.wave_modCg, State.ck_modCg]

theorem State.atSlot_lanes (key : Nat) : ((s.atSlot k n).wave key).paths.map (·.lanes) = (s.wave key).paths.map (·.lanes) := by
  rw [State.atSlot_wave]
  split
  · rw [Wave.modPath_paths]
    cases (s.wave key).paths <;> rfl
  · rfl

theorem State.atSlot_liveCount : (s.atSlot k n).liveCount s.cgid = s.liveCount s.cgid := by
  refine State.liveCount_congr ?_ fun key => ?_
  · rw [State.atSlot_group]
    rfl
  · rw [State.atSlot_wave]
    split <;> rfl

end

section
variable {k : BitVec 5} {n : BitVec 18} {s : State} (hs : s.CanIssue []) (hu : s.unacked s.cur.core s.cur.slot = 0)
  (hk : k.toNat < s.cg.nbar) (hn : n.toNat ≤ 32 * s.cg.slots.length)
include hs hu hk hn

theorem execBar_traps (h : (s.cg.bars.get k.toNat {}).arrived ≠ 0 ∧ (s.cg.bars.get k.toNat {}).count ≠ n.toNat) :
    execBar k n s = .next (s.trapP (s.trapHere 2 0 s.memb)) := by
  rw [execBar, if_neg (by simp [hu])]
  exact issueBarrier_trap (by simp [hk, hn]) hs (if_pos h)

theorem execBar_completes (h : ¬((s.cg.bars.get k.toNat {}).arrived ≠ 0 ∧ (s.cg.bars.get k.toNat {}).count ≠ n.toNat)) :
    execBar k n s = .next (((s.atSlot k.toNat n.toNat).barTest s.cgid k.toNat).count s) := by
  rw [execBar, if_neg (by simp [hu])]
  exact issueBarrier_eq (by simp [hk, hn]) hs (if_neg h)

end

/-- The current group of a state whose current wave keeps its group. -/
theorem State.cg_eq {s t : State} (hg : (t.wave t.ck).gid = s.cw.gid) : t.cg = t.group s.cgid := by
  rw [State.cg, State.cgid, State.cw, hg]
  rfl

/-- BAR below the full count: the slot has counted its lanes, and its path waits there. -/
theorem State.atSlot_stands {s : State} (k n : Nat) (hs : s.cp.clause.isSome = true) :
    ((s.atSlot k n).count s).cg.bars.get k {} = s.slotWith k n ∧
      ((s.atSlot k n).count s).cw.paths = { s.cp with status := .bar k } :: s.cw.paths.tail := by
  obtain ⟨x, hx⟩ := (s.atSlot k n).wave_count s s.ck
  rw [State.atSlot_wave, if_pos rfl] at hx
  have hck : ((s.atSlot k n).count s).ck = s.ck := State.ck_count ..
  constructor
  · rw [State.cg_eq (s := s) (by rw [hck, hx]; rfl), State.group_count, State.atSlot_group]
    exact FMap.get_set_self ..
  · rw [State.cw, hck, hx]
    exact (Wave.modPath_paths ..).trans (by rw [show (s.wave s.ck).paths = _ from paths_eq_cons hs])

section
variable {s u : State} {k n : Nat} {b : Bar}
  (hu : u = s.cg.keys.foldl (fun u key => u.modWave key fun w => w.mapPaths (·.map (Path.offBar k)))
    ((s.atSlot k n).modGroup s.cgid fun g => { g with bars := g.bars.set k b }))
include hu

theorem released_wave (key : Nat) : u.wave key =
    if key ∈ s.cg.keys then ((s.atSlot k n).wave key).mapPaths (·.map (Path.offBar k)) else (s.atSlot k n).wave key := by
  rw [hu, foldl_modWave_wave (Wave.mapPaths_twice (Path.offBar_offBar k)), State.wave_modGroup]

theorem released_rest : { u with waves := (s.atSlot k n).waves } =
    (s.atSlot k n).modGroup s.cgid fun g => { g with bars := g.bars.set k b } := by
  rw [hu]
  exact foldl_modWave_rest ..

/-- The full slot is empty with its phase flipped. -/
theorem released_bar : (u.count s).cg.bars.get k {} = b := by
  obtain ⟨x, hx⟩ := u.wave_count s s.ck
  have hck : (u.count s).ck = s.ck := (State.ck_count ..).trans (congrArg State.ck (released_rest hu) :)
  have hgid : ((u.count s).wave (u.count s).ck).gid = s.cw.gid := by
    rw [hck, hx, released_wave hu, State.atSlot_wave, if_pos rfl]
    split <;> rfl
  have hgroups : u.groups = ((s.atSlot k n).modGroup s.cgid fun g => { g with bars := g.bars.set k b }).groups :=
    (congrArg State.groups (released_rest hu) :)
  rw [State.cg_eq hgid, State.group_count, State.group, hgroups]
  exact (congrArg (fun g : Group => g.bars.get k {}) (State.group_modGroup_self ..)).trans (FMap.get_set_self ..)

/-- No path of the group waits at the full slot, and every path holds its lanes. -/
theorem released_paths {key : Nat} (hkey : key ∈ s.cg.keys) : (∀ p ∈ ((u.count s).wave key).paths, p.status ≠ .bar k) ∧
    ((u.count s).wave key).paths.map (·.lanes) = (s.wave key).paths.map (·.lanes) := by
  obtain ⟨x, hx⟩ := u.wave_count s key
  rw [released_wave hu, if_pos hkey] at hx
  rw [hx, ← s.atSlot_lanes k n key]
  simp [Wave.mapPaths, Path.offBar_status, Function.comp_def]

end

/-- Settles O20: BAR with a count that disagrees traps; otherwise its lanes are counted and wait, or the full slot is released. -/
theorem groupBarrierWord : Obligations.GroupBarrierWord := by
  intro k n s hs hm hu hk hn
  dsimp only
  refine ⟨fun h => (exec_bar ..).trans (execBar_traps hs hu hk hn h), fun h => ?_⟩
  refine ⟨_, (exec_bar ..).trans (execBar_completes hs hu hk hn fun hc => h.elim hc.1 hc.2), ?_, fun hfull => ?_, fun hfull => ?_⟩
  · rw [State.count_mem, State.barTest_mem]
    rfl
  all_goals
    have hbar := congrArg (fun g : Group => g.bars.get k.toNat {}) (s.atSlot_group k.toNat n.toNat)
    replace hbar := hbar.trans (FMap.get_set_self ..)
    rw [← s.atSlot_liveCount k.toNat n.toNat] at hfull
  · rw [State.barTest_waits hbar hfull]
    exact State.atSlot_stands _ _ hs.1
  · have hrel := State.barTest_frees hbar (Nat.add_pos_right _ (laneCount_pos hm)) hfull
    rw [State.atSlot_group] at hrel
    exact ⟨released_bar hrel, fun key hkey => released_paths hrel hkey⟩

end Sys2Proof.Machine
end

