-- ==== Sys2Proof/Proofs/LaneExits.lean ====
section
/-! EXIT: lanes leave their wave, and a group left without lanes begins to retire (R92, R226). -/

set_option Elab.async false

namespace Sys2Proof.Machine

/-! Paths that lose lanes (R92). -/

/-- A path without lanes holds none of them. -/
theorem Path.without_lanes {p q : Path} {m : Lanes} (h : p.without m = some q) {n : Nat} (hn : m.getLsbD n = true) :
    q.lanes.getLsbD n = false := by
  have hrest : (p.lanes &&& ~~~m).getLsbD n = false := by simp [hn]
  unfold Path.without at h
  dsimp only at h
  split at h
  · next h0 =>
    obtain rfl := Option.some.inj h
    have := congrArg (BitVec.getLsbD · n) h0
    simpa [hn] using this
  · split at h
    · exact nomatch h
    · split at h
      · split at h <;> (obtain rfl := Option.some.inj h; exact hrest)
      · obtain rfl := Option.some.inj h
        exact hrest

/-- Testing the reconvergence barriers changes the barriers and the paths of the wave, and nothing else. -/
theorem Wave.rbTests_rest (w : Wave) : { w.rbTests with paths := w.paths, saved := w.saved, rbs := w.rbs } = w :=
  List.foldlRecOn (motive := fun v : Wave => { v with paths := w.paths, saved := w.saved, rbs := w.rbs } = w) _ _ rfl fun v hv b _ =>
    (congrArg (fun x : Wave => { x with paths := w.paths, saved := w.saved, rbs := w.rbs }) (v.rbTest_rest b) :).trans hv

/-- A lane that no path of a wave holds is in none after the tests of the reconvergence barriers. -/
theorem Wave.rbTests_lanes {w : Wave} {n : Nat} (h : ∀ p ∈ w.paths, p.lanes.getLsbD n = false) :
    ∀ p ∈ w.rbTests.paths, p.lanes.getLsbD n = false := by
  refine List.foldlRecOn (motive := fun v : Wave => ∀ p ∈ v.paths, p.lanes.getLsbD n = false) _ _ h fun v hv b _ => ?_
  obtain hb | hb := v.rbTest_cases b <;> rw [hb]
  · exact hv
  · refine forall_releaseRb (P := fun p => p.lanes.getLsbD n = false) (fun q p hq hp => ?_) (fun p hp _ => hv p hp) fun p hp _ => hv p hp
    rw [BitVec.getLsbD_or, hq, hp]
    rfl

/-! What lanes that exit leave of the machine (R92). -/

/-- The part of a wave that lanes which exit leave alone: its registers and all else but the exited lanes, the paths, the
reconvergence barriers, the flags and the count of the skid. -/
def Wave.kept (w : Wave) : Wave := { w with exited := 0, paths := [], saved := none, rbs := {}, flags := {}, skid := 0 }

/-- A state whose group barriers have been tested: paths may have left their slots, with the lanes that they held. -/
structure BarsTested (s t : State) : Prop where
  cur : t.cur = s.cur
  group : ∀ g, { t.group g with bars := (s.group g).bars } = s.group g
  wave : ∀ k, { t.wave k with paths := (s.wave k).paths, saved := (s.wave k).saved } = s.wave k
  lanes : ∀ k, (t.wave k).paths.map (·.lanes) = (s.wave k).paths.map (·.lanes)

theorem BarsTested.refl (s : State) : BarsTested s s := ⟨rfl, fun _ => rfl, fun _ => rfl, fun _ => rfl⟩

theorem BarsTested.trans {s t u : State} (h : BarsTested s t) (k : BarsTested t u) : BarsTested s u where
  cur := k.cur.trans h.cur
  group g := (congrArg (fun x : Group => { x with bars := (s.group g).bars }) (k.group g) :).trans (h.group g)
  wave j := (congrArg (fun x : Wave => { x with paths := (s.wave j).paths, saved := (s.wave j).saved }) (k.wave j) :).trans (h.wave j)
  lanes j := (k.lanes j).trans (h.lanes j)

/-- What does not read the paths of a wave is as before. -/
theorem BarsTested.wave_eq {s t : State} (h : BarsTested s t) {α : Type} (f : Wave → α) (k : Nat)
    (hf : ∀ (w : Wave) ps sv, f { w with paths := ps, saved := sv } = f w) : f (t.wave k) = f (s.wave k) :=
  (hf _ _ _).symm.trans (congrArg f (h.wave k))

/-- The release of a slot, whatever the slot becomes. -/
theorem barsTested_release (s : State) (gid k : Nat) (b : Bar) (keys : List Nat) :
    BarsTested s (keys.foldl (fun u key => u.modWave key fun w => w.mapPaths (·.map (Path.offBar k)))
      (s.modGroup gid fun g => { g with bars := g.bars.set k b })) := by
  set u := s.modGroup gid fun g => { g with bars := g.bars.set k b } with hu
  have hrest := foldl_modWave_rest keys (fun w => w.mapPaths (·.map (Path.offBar k))) u
  have hwave := foldl_modWave_wave (f := fun w => w.mapPaths (·.map (Path.offBar k))) (Wave.mapPaths_twice (Path.offBar_offBar k)) keys u
  refine ⟨(congrArg State.cur hrest :), fun g => ?_, fun j => ?_, fun j => ?_⟩
  · rw [State.group, (congrArg State.groups hrest :), ← State.group, hu, State.group_modGroup]
    split
    · next h => rw [h]
    · rfl
  · rw [hwave]
    split <;> rfl
  · rw [hwave]
    split
    · exact (List.map_map ..).trans (List.map_congr_left fun p _ => p.offBar_lanes k)
    · rfl

theorem barsTested_barTest (s : State) (gid k : Nat) : BarsTested s (s.barTest gid k) := by
  by_cases h : 0 < ((s.group gid).bars.get k {}).arrived ∧
      (if ((s.group gid).bars.get k {}).count = 0 then s.liveCount gid else ((s.group gid).bars.get k {}).count) ≤
        ((s.group gid).bars.get k {}).arrived
  · rw [State.barTest_frees rfl h.1 h.2]
    exact barsTested_release ..
  · rw [show s.barTest gid k = s from if_neg h]
    exact .refl s

theorem barsTested_barTests (s : State) (gid : Nat) : BarsTested s (s.barTests gid) :=
  List.foldlRecOn (motive := BarsTested s) _ _ (.refl s) fun u hu k _ => hu.trans (barsTested_barTest u gid k)

/-! The test whether a group is left without lanes (R226). -/

theorem foldl_fall_rest (ts : List Trap) (gid : Nat) (s : State) :
    { ts.foldl (fun u h => u.fall gid h) s with waves := s.waves } = s :=
  List.foldlRecOn (motive := fun u : State => { u with waves := s.waves } = s) _ _ rfl fun _ hu _ _ => hu

/-- Flags that fall are all that changes of a wave. -/
theorem foldl_fall_wave (ts : List Trap) (gid : Nat) (s : State) (k : Nat) :
    { (ts.foldl (fun u h => u.fall gid h) s).wave k with flags := (s.wave k).flags } = s.wave k := by
  refine List.foldlRecOn (motive := fun u : State => { u.wave k with flags := (s.wave k).flags } = s.wave k) _ _ rfl fun u hu t _ => ?_
  rw [State.fall, State.wave_modWave]
  split
  · next h =>
    rw [← h, Wave.lower]
    split
    · exact hu
    · exact hu
  · exact hu

/-- What the test of a group changes, `ph` being the group's phase before: of the waves flags, and these in the handler alone; of
the group no wave, and its phase when no lane is left. -/
structure ExitTested (gid : Nat) (ph : GPhase) (s t : State) : Prop where
  cur : t.cur = s.cur
  keys : (t.group gid).keys = (s.group gid).keys
  wave : ∀ k, { t.wave k with flags := (s.wave k).flags } = s.wave k
  flags : ph ≠ .handler → t.waves = s.waves
  phase : ph = .running ∨ ph = .admitted ∨ ph = .handler → (t.group gid).phase = if s.liveCount gid = 0 then .retiring else ph

/-- What does not read the flags of a wave is as before. -/
theorem ExitTested.wave_eq {gid : Nat} {ph : GPhase} {s t : State} (h : ExitTested gid ph s t) {α : Type} (f : Wave → α) (k : Nat)
    (hf : ∀ (w : Wave) fl, f { w with flags := fl } = f w) : f (t.wave k) = f (s.wave k) :=
  (hf _ _).symm.trans (congrArg f (h.wave k))

theorem exitTested_left {s : State} {gid : Nat} (hl : s.liveCount gid ≠ 0) :
    ExitTested gid (s.group gid).phase s (s.exitTest gid) := by
  rw [State.exitTest, if_pos hl]
  exact ⟨rfl, rfl, fun _ => rfl, fun _ => rfl, fun _ => (if_neg hl).symm⟩

theorem exitTested_running {s : State} {gid : Nat} (hl : s.liveCount gid = 0)
    (hp : (s.group gid).phase = .running ∨ (s.group gid).phase = .admitted) :
    ExitTested gid (s.group gid).phase s (s.exitTest gid) := by
  rw [State.exitTest, if_neg (not_not.2 hl), if_pos hp]
  refine ⟨rfl, ?_, fun _ => rfl, fun _ => rfl, fun _ => ?_⟩
  · rw [State.group_modGroup_self]
    rfl
  · rw [State.group_modGroup_self, if_pos hl]

theorem exitTested_handler {s : State} {gid : Nat} (hl : s.liveCount gid = 0) (hp : (s.group gid).phase = .handler) :
    ExitTested gid (s.group gid).phase s (s.exitTest gid) := by
  rw [State.exitTest, if_neg (not_not.2 hl), if_neg (by rw [hp]; exact Or.rec nofun nofun), if_pos hp]
  have hrest := foldl_fall_rest (s.group gid).held gid s
  have hgroup : (((s.group gid).held.foldl (fun u h => u.fall gid h) s).modGroup gid fun g =>
      { g with phase := .retiring, trap := none, held := [] }).group gid = { s.group gid with phase := .retiring, trap := none, held := [] } := by
    rw [State.group_modGroup_self, State.group, (congrArg State.groups hrest :)]
    rfl
  refine ⟨(congrArg State.cur hrest :), ?_, foldl_fall_wave _ gid s, fun h => absurd hp h, fun _ => ?_⟩
  · exact (congrArg Group.keys hgroup :)
  · rw [if_pos hl]
    exact (congrArg Group.phase hgroup :)

theorem exitTested (s : State) (gid : Nat) : ExitTested gid (s.group gid).phase s (s.exitTest gid) := by
  by_cases hl : s.liveCount gid = 0
  · by_cases hp : (s.group gid).phase = .running ∨ (s.group gid).phase = .admitted
    · exact exitTested_running hl hp
    · by_cases hh : (s.group gid).phase = .handler
      · exact exitTested_handler hl hh
      · rw [State.exitTest, if_neg (not_not.2 hl), if_neg hp, if_neg hh]
        exact ⟨rfl, rfl, fun _ => rfl, fun _ => rfl, fun h => absurd h (by tauto)⟩
  · exact exitTested_left hl

/-! Lanes of a wave exit (R92). -/

/-- Every path of a wave, those put aside at handler entry included. -/
def Wave.allPaths (w : Wave) : List Path := w.paths ++ (match w.saved with | some v => v.paths | none => [])

/-- The wave whose lanes exit, before the group's barrier slots are tested; `ps` are its paths before. -/
def Wave.dropLanes (w : Wave) (ps : List Path) (gone : Lanes) : Wave :=
  (Wave.mapPaths { w with exited := w.exited ||| gone, rbs := leaveRbs ps gone w.rbs false } fun ps =>
    ps.filterMap fun p => p.without gone).rbTests

section
variable (w : Wave) (ps : List Path) (gone : Lanes)

theorem Wave.dropLanes_exited : (w.dropLanes ps gone).exited = w.exited ||| gone :=
  (congrArg Wave.exited (Wave.rbTests_rest _) :)

theorem Wave.dropLanes_kept : (w.dropLanes ps gone).kept = w.kept :=
  (congrArg Wave.kept (Wave.rbTests_rest _) :)

theorem Wave.dropLanes_flags : (w.dropLanes ps gone).flags = w.flags :=
  (congrArg Wave.flags (Wave.rbTests_rest _) :)

theorem Wave.dropLanes_lanes {n : Nat} (hn : gone.getLsbD n = true) :
    ∀ p ∈ (w.dropLanes ps gone).paths, p.lanes.getLsbD n = false :=
  Wave.rbTests_lanes fun p hp => by
    obtain ⟨q, -, hq⟩ := List.mem_filterMap.1 hp
    exact Path.without_lanes hq hn

end

/-- The state whose lanes have exited, before the group's barrier slots and the group itself are tested. -/
def State.dropLanes (s : State) (key gid : Nat) (gone : Lanes) : State :=
  let ps := (s.wave key).allPaths
  let s1 := (s.modWave key fun w => w.dropLanes ps gone).modGroup gid fun g => { g with bars := leaveBars ps gone g.bars }
  { s1 with
    ops := s1.ops.map fun o =>
      if (waveKey o.core o.slot == key && o.gid == gid) then o.discard gone ((s.wave key).exited ||| gone) else o }

theorem State.exitLanes_eq {s : State} {key gid : Nat} (gone : Lanes) (hg : (s.wave key).gid = some gid) :
    s.exitLanes key gone = ((s.dropLanes key gid gone).barTests gid).exitTest gid := by
  obtain rfl : gid = (s.wave key).gid.getD 0 := by rw [hg]; rfl
  rfl

theorem State.dropLanes_wave (s : State) (key gid : Nat) (gone : Lanes) :
    (s.dropLanes key gid gone).wave key = (s.wave key).dropLanes (s.wave key).allPaths gone :=
  s.wave_modWave_self key fun w => w.dropLanes (s.wave key).allPaths gone

theorem State.dropLanes_phase (s : State) (key gid : Nat) (gone : Lanes) :
    ((s.dropLanes key gid gone).group gid).phase = (s.group gid).phase :=
  (congrArg Group.phase (State.group_modGroup_self (s.modWave key fun w => w.dropLanes (s.wave key).allPaths gone) gid
    fun g => { g with bars := leaveBars (s.wave key).allPaths gone g.bars }) :)

/-- What lanes that exit change: they are exited and in no path; flags fall in the handler alone; the phase is as the test finds. -/
structure LanesExited (key gid : Nat) (gone : Lanes) (s t : State) : Prop where
  cur : t.cur = s.cur
  exited : (t.wave key).exited = (s.wave key).exited ||| gone
  kept : (t.wave key).kept = (s.wave key).kept
  flags : (s.group gid).phase ≠ .handler → (t.wave key).flags = (s.wave key).flags
  lanes : ∀ n, gone.getLsbD n = true → ∀ p ∈ (t.wave key).paths, p.lanes.getLsbD n = false
  phase : (s.group gid).phase = .running ∨ (s.group gid).phase = .admitted ∨ (s.group gid).phase = .handler →
    (t.group gid).phase = if t.liveCount gid = 0 then .retiring else (s.group gid).phase

/-- The tests of the barrier slots and of the group keep what the lanes that exited left. -/
theorem lanesExited_of_tests {s d b t : State} {key gid : Nat} {gone : Lanes} (hcur : d.cur = s.cur)
    (hw : d.wave key = (s.wave key).dropLanes (s.wave key).allPaths gone) (hp : (d.group gid).phase = (s.group gid).phase)
    (hb : BarsTested d b) (ht : ExitTested gid (b.group gid).phase b t) : LanesExited key gid gone s t := by
  have hphase : (b.group gid).phase = (s.group gid).phase := (congrArg Group.phase (hb.group gid)).trans hp
  rw [hphase] at ht
  refine ⟨ht.cur.trans (hb.cur.trans hcur), ?_, ?_, fun h => ?_, fun n hn p hmem => ?_, fun h => ?_⟩
  · rw [ht.wave_eq Wave.exited key fun _ _ => rfl, hb.wave_eq Wave.exited key fun _ _ _ => rfl, hw, Wave.dropLanes_exited]
  · rw [ht.wave_eq Wave.kept key fun _ _ => rfl, hb.wave_eq Wave.kept key fun _ _ _ => rfl, hw, Wave.dropLanes_kept]
  · rw [State.wave, ht.flags h, ← State.wave, hb.wave_eq Wave.flags key fun _ _ _ => rfl, hw, Wave.dropLanes_flags]
  · rw [ht.wave_eq Wave.paths key fun _ _ => rfl] at hmem
    have hl := List.mem_map_of_mem (f := fun p : Path => p.lanes) hmem
    rw [hb.lanes key, hw] at hl
    obtain ⟨q, hq, hql⟩ := List.mem_map.1 hl
    rw [← hql]
    exact Wave.dropLanes_lanes _ _ _ hn q hq
  · rw [ht.phase h, State.liveCount_congr ht.keys fun k => ht.wave_eq Wave.live k fun _ _ => rfl]

theorem lanesExited {s : State} {key gid : Nat} (gone : Lanes) (hg : (s.wave key).gid = some gid) :
    LanesExited key gid gone s (s.exitLanes key gone) := by
  rw [State.exitLanes_eq gone hg]
  exact lanesExited_of_tests (d := s.dropLanes key gid gone) (b := (s.dropLanes key gid gone).barTests gid) rfl
    (s.dropLanes_wave ..) (s.dropLanes_phase ..) (barsTested_barTests _ gid) (exitTested _ gid)

/-- Counting the word changes nothing of it. -/
theorem LanesExited.count {key gid : Nat} {gone : Lanes} {s t : State} (h : LanesExited key gid gone s t) (u : State) :
    LanesExited key gid gone s (t.count u) := by
  obtain ⟨x, hx⟩ := t.wave_count u key
  have hlive : (t.count u).liveCount gid = t.liveCount gid :=
    State.liveCount_congr (by rw [State.group_count]) fun k => by obtain ⟨y, hy⟩ := t.wave_count u k; rw [hy]; rfl
  have hcur : (t.count u).cur = t.cur := by unfold State.count; split <;> rfl
  refine ⟨hcur.trans h.cur, ?_, ?_, ?_, ?_, ?_⟩
  · rw [hx]; exact h.exited
  · rw [hx]; exact h.kept
  · rw [hx]; exact h.flags
  · rw [hx]; exact h.lanes
  · rw [State.group_count, hlive]; exact h.phase

/-- The path that moved past the word before makes no difference. -/
theorem LanesExited.of_modCp {gid : Nat} {gone : Lanes} {s t : State} {f : Path → Path} (h : LanesExited s.ck gid gone (s.modCp f) t) :
    LanesExited s.ck gid gone s t := by
  have hw : (s.modCp f).wave s.ck = s.cw.modPath f := s.cw_modCp f
  refine ⟨h.cur, ?_, ?_, fun hp => ?_, h.lanes, h.phase⟩
  · rw [h.exited, hw]; rfl
  · rw [h.kept, hw]; rfl
  · rw [h.flags hp, hw]; rfl

/-- Settles O18: EXIT is the exit of the lanes that select it, in the wave whose path has moved past the word. -/
theorem exitWord : Obligations.ExitWord := by
  intro c s gid hc hs hl hg
  dsimp only
  have hok : (vname c || c.toNat == 127) = true := by
    obtain hc | rfl := hc
    · rw [hc, Bool.true_or]
    · rfl
  have hgone : ∀ n, n < 32 → ((maskOf ((lanesOf s.memb).filter fun n => s.cond c n)).getLsbD n = true ↔
      s.runs n ∧ (c = 127#7 ∨ s.cw.readV c.toNat n ≠ 0)) := fun n hn => by
    rw [mem_maskOf _ hn, List.mem_filter, s.runs_iff, cond_iff]
  have hgid : ((s.modCp fun p => p.past false).wave s.ck).gid = some gid := (congrArg Wave.gid (s.cw_modCp _)).trans hg
  have hphase : s.cg.phase = (s.group gid).phase := by rw [State.cg, State.cgid, hg]; rfl
  refine ⟨_, (exec_exit c s).trans (issueControl_eq hok hs hl rfl), ?_, ?_⟩
  · rw [State.count_mem, State.exitLanes_mem]
    rfl
  have hx := ((lanesExited (maskOf ((lanesOf s.memb).filter fun n => s.cond c n)) hgid).of_modCp).count s
  generalize State.count _ s = t at hx ⊢
  have hck : t.cw = t.wave s.ck := by rw [State.cw, State.ck, hx.cur]; rfl
  rw [hck, hphase]
  refine ⟨fun n hn => ?_, fun p hp n hn => hx.lanes n ((hgone n hn.1.1).2 hn) p hp, ?_, hx.phase⟩
  · rw [hx.exited, BitVec.getLsbD_or, Bool.or_eq_true, hgone n hn]
    rfl
  · have hk := hx.kept
    exact ⟨(congrArg Wave.main hk :), (congrArg Wave.opf hk :), (congrArg Wave.lastq hk :), (congrArg Wave.sregs hk :),
      (congrArg Wave.xstat hk :), (congrArg Wave.fpmode hk :), (congrArg Wave.fpstat hk :), hx.flags⟩

end Sys2Proof.Machine
end

