-- ==== Sys2Proof/Proofs/WindowWords.lean ====
section
/-! WBASE, CBASE, ISYNC and YIELD (R87, R88, R169, R170). -/

set_option Elab.async false

namespace Sys2Proof.Machine

/-! ISYNC (R169). -/

/-- A path whose fetched words are dropped. -/
def Path.refetch (p : Path) : Path := { p with clause := p.clause.map fun c => { c with words := [] } }

theorem Path.refetch_words (p : Path) : ∀ c, p.refetch.clause = some c → c.words = [] := by
  intro c hc
  obtain ⟨d, -, rfl⟩ := Option.map_eq_some_iff.1 hc
  rfl

/-- Moving past a word fetches nothing. -/
theorem Path.past_words {p : Path} {long : Bool} (h : ∀ c, p.clause = some c → c.words = []) :
    ∀ c, (p.past long).clause = some c → c.words = [] := by
  intro c hc
  unfold Path.past at hc
  cases hp : p.clause with
  | none => rw [hp] at hc; exact nomatch hc
  | some d =>
    rw [hp] at hc
    dsimp only at hc
    split at hc
    · obtain rfl := Option.some.inj hc
      exact h d hp
    · exact nomatch hc

/-- The wave after ISYNC: every path without its fetched words, the issuing one past the word. -/
def Wave.refetchPast (w : Wave) : Wave := (w.mapPaths (·.map Path.refetch)).modPath fun p => p.past false

theorem Wave.refetchPast_words (w : Wave) : ∀ p ∈ w.refetchPast.paths, ∀ c, p.clause = some c → c.words = [] := by
  unfold Wave.refetchPast Wave.mapPaths
  rw [Wave.modPath_paths]
  cases w.paths with
  | nil => nofun
  | cons q r =>
    refine List.forall_mem_cons.2 ⟨Path.past_words q.refetch_words, fun p hp => ?_⟩
    obtain ⟨p', -, rfl⟩ := List.mem_map.1 hp
    exact p'.refetch_words

/-- Each path holds the lanes, stands at the address and has the status as if nothing were fetched anew. -/
theorem Wave.refetchPast_places (w : Wave) : w.refetchPast.paths.map (fun p => (p.lanes, p.pc, p.status)) =
    (w.modPath fun p => p.past false).paths.map fun p => (p.lanes, p.pc, p.status) := by
  unfold Wave.refetchPast Wave.mapPaths
  rw [Wave.modPath_paths, Wave.modPath_paths]
  cases w.paths with
  | nil => rfl
  | cons q r =>
    refine congrArg (List.cons _) ?_
    exact List.map_map ..

theorem execIsync_completes {s : State} (hs : s.CanIssue []) : ∃ t n, execIsync s = .next t ∧ t.mem = s.mem ∧
    t.core s.cur.core = { s.core s.cur.core with icache := [] } ∧ t.cw = { s.cw.refetchPast with skid := n } := by
  refine ⟨_, s.cw.skid + if s.cg.phase = .halting then 1 else 0, issueWaiting_eq rfl hs nofun nofun rfl, ?_⟩
  rw [State.past, State.modCp, State.modCw_modCw, State.count_modCw, State.core_modCw, State.cw_modCw]
  exact ⟨rfl, s.core_modCore_self .., rfl⟩

theorem execYield_completes {s : State} (hs : s.CanIssue []) : ∃ t n, execYield s = .next t ∧ OnlyWave s t ∧
    t.cw = { (s.cw.modPath fun p => { p with yielded := true }).modPath (fun p => p.past false) with skid := n } := by
  refine ⟨_, s.cw.skid + if s.cg.phase = .halting then 1 else 0, issueFixed_eq rfl hs rfl, ?_⟩
  rw [State.modCp, State.fixedDone]
  exact ⟨OnlyWave.modCw s _, s.cw_modCw _⟩

/-- Settles O25: each word is the fixed-latency effect that its rule names, and ISYNC drops what is fetched. -/
theorem windowAndIssueWords : Obligations.WindowAndIssueWords := by
  intro s hs
  refine ⟨fun i hi => ?_, fun i hi => ?_, fun i => ?_, ?_, ?_⟩
  · exact (exec_wbase i s).trans (issueFixed_eq (by simpa using hi) hs rfl)
  · exact (exec_wbase i s).trans (issueFixed_illegal hs (by simpa using hi))
  · exact (exec_cbase i s).trans (issueFixed_eq rfl hs rfl)
  · obtain ⟨t, n, ht, hmem, hcore, hcw⟩ := execIsync_completes hs
    refine ⟨t, (exec_isync s).trans ht, hmem, hcore, ?_⟩
    rw [hcw]
    exact ⟨rfl, s.cw.refetchPast_places, s.cw.refetchPast_words⟩
  · obtain ⟨t, n, ht, honly, hcw⟩ := execYield_completes hs
    refine ⟨t, (exec_yield s).trans ht, honly, ?_⟩
    rw [hcw]
    refine ⟨rfl, ?_⟩
    rw [Wave.modPath_paths, Wave.modPath_paths, Wave.modPath_paths]
    cases s.cw.paths <;> rfl

end Sys2Proof.Machine
end

