-- ==== Sys2Proof/Proofs/WaitTimeouts.lean ====
section
/-! A time-out whose trap is held: the die of the group and the die of the wave (R225, R381, R423). -/

set_option Elab.async false

namespace Sys2Proof.Machine

/-- A wave of core 0 waits for a tag past its time, and its group's home core lies on the second die, which is in debug halt. -/
def timedOutAway : State where
  waves := FMap.set {} 0 { gid := some 0, paths := [{ lanes := 1#32, status := .wait (.tagAny 1#64) 1#32 1 }] }
  groups := FMap.set {} 0 { core := 64, phase := .running }
  dies := FMap.set {} 1 { dbg := true }

/-- The wave's wait has expired, in a path of lane 0. -/
theorem timedOutAway_expiry : timedOutAway.expiry 0 0 =
    some ({ lanes := 1#32, status := .wait (.tagAny 1#64) 1#32 1 }, .tagAny 1#64, 1#32) := rfl

/-- The trap of the time-out is held while the group's die is in debug halt, and the group runs on (R423). -/
theorem timedOutAway_runs : ∃ t, exec (.monitorTimeout 0 0 0) timedOutAway = .next t ∧ (t.group 0).phase = .running := ⟨_, rfl, rfl⟩

theorem haltGroup_phase (s : State) (gid : Nat) (t : Trap) (skids : Bool) : ((s.haltGroup gid t skids).group gid).phase = .halting := by
  rw [State.group, haltGroup_groups]
  exact congrArg Group.phase (s.group_modGroup_self gid _)

/-- Refutes O47: it gives the halt of a time-out whenever the die of the wave's core is not in debug halt, but the model looks at the
die of the group's core, so with the two on different dies (a state that no launch makes) the trap is held and nothing halts. -/
theorem not_waitEvents : ¬ Obligations.WaitEvents := by
  rintro ⟨-, htimeout, -⟩
  obtain ⟨u, -, hu⟩ := htimeout timedOutAway 0 0 0 0 _ _ _ rfl timedOutAway_expiry rfl rfl nofun rfl
  obtain ⟨t, ht, hrun⟩ := timedOutAway_runs
  obtain rfl := Host.Outcome.next.inj (ht.symm.trans hu)
  rw [haltGroup_phase] at hrun
  exact nomatch hrun

end Sys2Proof.Machine
end

