-- ==== Sys2Proof/Proofs/FloatDelivery.lean ====
section
/-! What the one rounding delivers in an arithmetic format, with FTZ and overflow (R53 to R56), for an exact value of which the model
holds only how it compares with the multiples of a step. -/

set_option Elab.async false

namespace Sys2Proof.Machine

/-! Values that a rounding cannot tell apart. -/

/-- Two values compare alike with every multiple of 2^g. -/
def Alike (g : Int) (u v : ℝ) : Prop :=
  ∀ k : ℤ, ((k : ℝ) * 2 ^ g ≤ u ↔ (k : ℝ) * 2 ^ g ≤ v) ∧ (u ≤ (k : ℝ) * 2 ^ g ↔ v ≤ (k : ℝ) * 2 ^ g)

section
variable {g h : Int} {u v w : ℝ}

theorem Alike.refl (g : Int) (u : ℝ) : Alike g u u := fun _ => ⟨Iff.rfl, Iff.rfl⟩

theorem Alike.trans (h1 : Alike g u v) (h2 : Alike g v w) : Alike g u w :=
  fun k => ⟨(h1 k).1.trans (h2 k).1, (h1 k).2.trans (h2 k).2⟩

theorem Alike.mono (h1 : Alike g u v) (hgh : g ≤ h) : Alike h u v := by
  obtain ⟨j, rfl⟩ := Int.le.dest hgh
  intro k
  have hk : (k : ℝ) * 2 ^ (g + j : ℤ) = ((k * 2 ^ j : ℤ) : ℝ) * 2 ^ g := by
    rw [zpow_add₀ two_ne_zero, zpow_natCast]
    push_cast
    ring
  rw [hk]
  exact h1 _

/-- Both values divided by a power of two. -/
theorem Alike.div (h1 : Alike g u v) (a : Int) : Alike (g - a) (u / 2 ^ a) (v / 2 ^ a) := by
  intro k
  have hk : (k : ℝ) * 2 ^ (g - a) = (k : ℝ) * 2 ^ g / 2 ^ a := by rw [zpow_sub₀ two_ne_zero, mul_div_assoc]
  rw [hk]
  simp only [div_le_div_iff_of_pos_right (zpow_pos (two_pos (α := ℝ)) a)]
  exact h1 k

/-- Two values between the same neighbouring multiples. -/
theorem Alike.of_between {n : ℤ} (hu : (n : ℝ) * 2 ^ g < u) (hu' : u < (n + 1) * 2 ^ g) (hv : (n : ℝ) * 2 ^ g < v)
    (hv' : v < (n + 1) * 2 ^ g) : Alike g u v := by
  intro k
  have hS : (0 : ℝ) < 2 ^ g := by positivity
  obtain hk | hk := le_or_gt k n
  · have hle : (k : ℝ) * 2 ^ g ≤ n * 2 ^ g := mul_le_mul_of_nonneg_right (by exact_mod_cast hk) hS.le
    exact ⟨iff_of_true (by linarith) (by linarith), iff_of_false (by linarith) (by linarith)⟩
  · have hle : ((n : ℝ) + 1) * 2 ^ g ≤ k * 2 ^ g := mul_le_mul_of_nonneg_right (by exact_mod_cast hk) hS.le
    exact ⟨iff_of_false (by linarith) (by linarith), iff_of_true (by linarith) (by linarith)⟩

/-- The comparisons with a multiple that is written another way. -/
theorem Alike.le_iff (h1 : Alike g u v) (k : ℤ) {c : ℝ} (hc : c = k * 2 ^ g) : c ≤ u ↔ c ≤ v := hc ▸ (h1 k).1

theorem Alike.ge_iff (h1 : Alike g u v) (k : ℤ) {c : ℝ} (hc : c = k * 2 ^ g) : u ≤ c ↔ v ≤ c := hc ▸ (h1 k).2

/-- The comparisons with a power of two that is a multiple. -/
theorem Alike.zpow_le_iff (h1 : Alike g u v) {l : Int} (hl : g ≤ l) : (2 : ℝ) ^ l ≤ u ↔ 2 ^ l ≤ v := by
  obtain ⟨j, rfl⟩ := Int.le.dest hl
  exact h1.le_iff (2 ^ j) (by rw [zpow_add₀ two_ne_zero, zpow_natCast]; push_cast; ring)

end

/-- A value between two neighbouring multiples of 2^(g + 1), or at the lower one, as it compares with all of them: twice the lower
multiple, with a sticky bit for a value above it. -/
theorem alike_of_sticky {n : Nat} {g : Int} {v : ℝ} {exact : Prop} [Decidable exact] (hle : (n : ℝ) * 2 ^ (g + 1) ≤ v)
    (hlt : v < (n + 1) * 2 ^ (g + 1)) (hexact : exact ↔ v = n * 2 ^ (g + 1)) :
    Alike (g + 1) (dyadic (2 * n + if exact then 0 else 1) g : ℚ) v := by
  have hS : (0 : ℝ) < 2 ^ g := by positivity
  rw [zpow_add_one₀ two_ne_zero] at hle hlt hexact
  by_cases he : exact
  · rw [if_pos he, hexact.1 he, dyadic]
    push_cast
    rw [show (2 * (n : ℝ) + 0) * 2 ^ g = n * (2 ^ g * 2) by ring]
    exact Alike.refl _ _
  · have hne := lt_of_le_of_ne hle (Ne.symm (mt hexact.2 he))
    rw [if_neg he, dyadic]
    push_cast
    refine Alike.of_between (n := n) ?_ ?_ ?_ ?_ <;> rw [zpow_add_one₀ two_ne_zero] <;> push_cast <;> linarith

/-! The exponent of the leading bit. -/

theorem exponent_lt {K : Type} [Field K] [LinearOrder K] [IsStrictOrderedRing K] {x : K} {a b : Int} (ha : 2 ^ a ≤ x) (hb : x < 2 ^ b) :
    a < b := (zpow_lt_zpow_iff_right₀ one_lt_two).1 (ha.trans_lt hb)

theorem leadE_eq_of_le_of_lt {m : Nat} {e l : Int} (hle : (2 : ℚ) ^ l ≤ dyadic m e) (hlt : dyadic m e < 2 ^ (l + 1)) : leadE m e = l := by
  have hm : 0 < m := by
    rw [Nat.pos_iff_ne_zero]
    rintro rfl
    rw [dyadic, Nat.cast_zero, zero_mul] at hle
    exact absurd hle (not_le.2 (by positivity))
  have h1 := exponent_lt hle (dyadic_lt_leadE m e)
  have h2 := exponent_lt (leadE_le_dyadic hm e) hlt
  omega

theorem lt_leadE_iff {m : Nat} (hm : 0 < m) (e l : Int) : leadE m e < l ↔ dyadic m e < 2 ^ l := by
  exact ⟨fun h => (dyadic_lt_leadE m e).trans_le (zpow_le_zpow_right₀ one_le_two (by omega)), exponent_lt (leadE_le_dyadic hm e)⟩

/-! Rounding of a value that is told by its comparisons. -/

section
variable {rm : Nat} {neg : Bool} {u v : ℚ} {n r : Nat} {nx : Bool}

/-- The rounding to an integer looks at comparisons with halves alone. -/
theorem Rounded.alike (h : Rounded rm neg u n r nx) (hv : Alike (-1) (u : ℝ) v) : Rounded rm neg v n r nx := by
  have hle : ∀ k : ℤ, ((k : ℚ) / 2 ≤ u ↔ (k : ℚ) / 2 ≤ v) ∧ (u ≤ (k : ℚ) / 2 ↔ v ≤ (k : ℚ) / 2) := fun k => by
    have := hv k
    rw [zpow_neg_one, ← div_eq_mul_inv] at this
    exact_mod_cast this
  have hint : ∀ k : ℤ, ((k : ℚ) ≤ u ↔ (k : ℚ) ≤ v) ∧ (u ≤ (k : ℚ) ↔ v ≤ (k : ℚ)) := fun k => by
    have := hle (k * 2)
    push_cast at this
    rwa [mul_div_cancel_right₀ _ two_ne_zero] at this
  have hn := hint n
  have hn1 := hint (n + 1)
  have hr := hint r
  have hlo := hle (2 * r - 1)
  have hhi := hle (2 * r + 1)
  push_cast at hn hn1 hr hlo hhi
  have hlt : (n : ℚ) < u ↔ (n : ℚ) < v := by rw [← not_le, ← not_le, hn.2]
  refine ⟨hn.1.1 h.floor_le, ?_, h.pick.imp_right (.imp_right hlt.1), ?_, fun hrm => ?_, h.toward, fun hrm => hr.2.1 (h.away hrm)⟩
  · rw [← not_le, ← hn1.1, not_le]
    exact h.lt_succ
  · rw [h.flag, ← h.floor_le.lt_iff_ne, ← (hn.1.1 h.floor_le).lt_iff_ne, hlt]
  · obtain ⟨hhalf, htie⟩ := h.near hrm
    have h2 : ∀ w : ℚ, |(r : ℚ) - w| ≤ 1 / 2 ↔ (2 * (r : ℚ) - 1) / 2 ≤ w ∧ w ≤ (2 * (r : ℚ) + 1) / 2 := fun w => by
      rw [abs_le]
      constructor <;> rintro ⟨h1, h2⟩ <;> constructor <;> linarith
    have h3 : ∀ w : ℚ, 1 / 2 ≤ |(r : ℚ) - w| ↔ w ≤ (2 * (r : ℚ) - 1) / 2 ∨ (2 * (r : ℚ) + 1) / 2 ≤ w := fun w => by
      rw [le_abs]
      exact or_congr ⟨fun h1 => by linarith, fun h1 => by linarith⟩ ⟨fun h1 => by linarith, fun h1 => by linarith⟩
    rw [h2, hlo.1, hhi.2, ← h2] at hhalf
    refine ⟨hhalf, fun heq => htie (le_antisymm (h.near hrm).1 ((h3 u).2 ?_))⟩
    rw [hlo.2, hhi.1, ← h3]
    exact heq.ge

end

/-! The formats of the arithmetic words. -/

/-- A format with a sign and infinities, whose largest finite pattern stands just below infinity; of its sizes, what the functions of
R102 to R104 need to give finite results where they are exact. -/
structure Fmt.Arith (f : Fmt) : Prop extends f.Sound where
  hasInf : f.hasInf = true
  signed : f.signed = true
  maxb_succ : f.maxb + 1 = (2 ^ f.ew - 1) * 2 ^ f.fw
  top : 2 ^ f.ew = 2 * f.bias + 2
  fw_lt : f.fw + 1 < f.bias
  fw_le : f.fw ≤ 52
  range_le : f.bias + f.fw ≤ 2 ^ (f.fw + 1)
  range_lt : f.bias + f.fw < 2 ^ 20

theorem Fmt.arith_of_mem {f : Fmt} (h : f ∈ [fmt64, fmt32, fmt16, fmtB16]) : f.Arith := by
  simp only [List.mem_cons, List.not_mem_nil, or_false] at h
  rcases h with rfl | rfl | rfl | rfl
  all_goals exact ⟨⟨by decide, by decide, by decide⟩, rfl, rfl, by decide, by decide, by decide, by decide, by decide, by decide⟩

section
variable {f : Fmt}

theorem Fmt.emin_eq (f : Fmt) : f.emin = 1 - (f.bias : Int) := rfl

/-- The pattern of a power of two among the normals. -/
theorem Fmt.val_mul_two_pow (f : Fmt) {k : Nat} (hk : 0 < k) : f.val (k * 2 ^ f.fw) = 2 ^ ((k : Int) - f.bias) := by
  obtain ⟨t, rfl⟩ := Nat.exists_eq_add_of_lt hk
  have h := Fmt.val_grid (f := f) t (2 ^ f.fw) (Nat.pow_le_pow_right two_pos (Nat.le_succ _)) (.inr le_rfl)
  rw [Nat.zero_add, Nat.add_mul, Nat.one_mul, h, Nat.cast_pow, Nat.cast_ofNat, ← zpow_natCast, ← zpow_add₀ two_ne_zero, f.emin_eq]
  congr 1
  push_cast
  ring

theorem Fmt.val_zero (f : Fmt) : f.val 0 = 0 := by
  simp [Fmt.val, Fmt.sig, dyadic]

theorem Fmt.val_min_normal (f : Fmt) : f.val (2 ^ f.fw) = 2 ^ f.emin := by
  simpa [f.emin_eq] using f.val_mul_two_pow one_pos

/-- The significand of a pattern fills one bit more than its fraction. -/
theorem Fmt.sig_lt (f : Fmt) (b : Nat) : f.sig b < 2 ^ (f.fw + 1) := by
  have hlt := Nat.mod_lt b (Nat.two_pow_pos f.fw)
  unfold Fmt.sig
  rw [Nat.pow_succ]
  split <;> omega

theorem Fmt.emin_le_exp (f : Fmt) (b : Nat) : f.emin - f.fw ≤ f.exp b := by
  unfold Fmt.exp Fmt.emin
  generalize b / 2 ^ f.fw = d
  split <;> omega

/-- What a finite pattern decodes to, by its magnitude. -/
theorem Fmt.Arith.decode_fin (hf : f.Arith) {x n : Nat} {neg : Bool} {g : Int} (h : f.decode x = .fin neg n g) :
    x % 2 ^ f.mag ≤ f.maxb ∧ n = f.sig (x % 2 ^ f.mag) ∧ g = f.exp (x % 2 ^ f.mag) := by
  have hmax := hf.maxb_succ
  have hpos := Nat.two_pow_pos f.fw
  have hlt := Nat.mod_lt x (Nat.two_pow_pos f.mag)
  unfold Fmt.sig Fmt.exp
  unfold Fmt.decode at h
  simp only [hf.hasInf, true_and, Bool.not_true, Bool.false_eq_true, false_and, if_false] at h
  split at h
  · split at h <;> cases h
  · next hne =>
    have hexp : x % 2 ^ f.mag / 2 ^ f.fw < 2 ^ f.ew := by
      rw [Nat.div_lt_iff_lt_mul hpos, ← Nat.pow_add]
      exact hlt
    have hle : x % 2 ^ f.mag < (2 ^ f.ew - 1) * 2 ^ f.fw := (Nat.div_lt_iff_lt_mul hpos).1 (by omega)
    refine ⟨by omega, ?_⟩
    split at h
    all_goals
      next he =>
      cases h
      simp only [he, if_true, if_false, and_self]

/-- A finite value of an arithmetic format: its significand, its exponent, and the largest finite value. -/
theorem Fmt.Arith.fin_bounds (hf : f.Arith) {x n : Nat} {neg : Bool} {g : Int} (h : f.decode x = .fin neg n g) :
    n < 2 ^ (f.fw + 1) ∧ f.emin - f.fw ≤ g ∧ dyadic n g ≤ f.val f.maxb := by
  obtain ⟨hle, rfl, rfl⟩ := hf.decode_fin h
  exact ⟨f.sig_lt _, f.emin_le_exp _, Fmt.val_strictMono.monotone hle⟩

theorem Fmt.Arith.decode_sign_add (hf : f.Arith) (neg : Bool) {b : Nat} (hb : b ≤ f.maxb) :
    f.decode (f.sign neg + b) = .fin neg (f.sig b) (f.exp b) := Fmt.decode_sign_add hf.toSound (fun _ => hf.signed) hb

/-- The largest finite value stands between the highest two powers of two. -/
theorem Fmt.Arith.val_maxb (hf : f.Arith) : 2 ^ (f.bias : Int) ≤ f.val f.maxb ∧ f.val f.maxb < 2 ^ ((f.bias : Int) + 1) := by
  have hmax := hf.maxb_succ
  have htop := hf.top
  have hpos := Nat.two_pow_pos f.fw
  have h1 := f.val_mul_two_pow (k := 2 * f.bias + 1) (by omega)
  have h0 : f.val (2 * f.bias * 2 ^ f.fw) ≤ f.val f.maxb := by
    refine Fmt.val_strictMono.monotone ?_
    rw [show 2 ^ f.ew - 1 = 2 * f.bias + 1 by omega, Nat.add_mul] at hmax
    omega
  have hb : 0 < f.bias := Nat.zero_lt_of_lt hf.fw_lt
  rw [f.val_mul_two_pow (by omega)] at h0
  refine ⟨by convert h0 using 2; push_cast; ring, ?_⟩
  have hlt : f.val f.maxb < f.val ((2 * f.bias + 1) * 2 ^ f.fw) := Fmt.val_strictMono (by
    rw [show 2 ^ f.ew - 1 = 2 * f.bias + 1 by omega] at hmax
    omega)
  rw [h1] at hlt
  convert hlt using 2
  push_cast
  ring

/-! The grid on which a value is rounded. -/

section
variable {rm t n r m : Nat} {neg nx : Bool} {q : ℚ} {e : Int}

/-- The binade in which a value is rounded is that of its leading bit, or the lowest. -/
theorem Fmt.OnGrid.binade_eq (hm : 0 < m) (h : f.OnGrid rm neg (dyadic m e) t n r nx) : max (leadE m e) f.emin = t + f.emin := by
  have hlo := h.val_lower_le
  have hhi := h.lt_val_upper
  rw [h.val_lower] at hlo
  rw [h.val_upper] at hhi
  have hplace : (n : ℚ) + 1 ≤ 2 ^ ((f.fw : Int) + 1) := by exact_mod_cast h.place
  have hlt : dyadic m e < 2 ^ ((t : Int) + f.emin + 1) := by
    refine hhi.trans_le ((mul_le_mul_of_nonneg_right hplace (by positivity)).trans_eq ?_)
    rw [← zpow_add₀ two_ne_zero]
    congr 1
    ring
  have hlead := (lt_leadE_iff hm e _).2 hlt
  obtain rfl | hn := h.binade
  · omega
  · have hn' : (2 : ℚ) ^ (f.fw : Int) ≤ n := by exact_mod_cast hn
    have hge : (2 : ℚ) ^ ((t : Int) + f.emin) ≤ dyadic m e := by
      refine le_trans (le_trans (le_of_eq ?_) (mul_le_mul_of_nonneg_right hn' (by positivity))) hlo
      rw [← zpow_add₀ two_ne_zero]
      congr 1
      ring
    have := mt (lt_leadE_iff hm e _).1 (not_lt.2 hge)
    omega

/-- A value that compares alike with the halves of the grid's step lies on the same grid. -/
theorem Fmt.OnGrid.alike {p : ℚ} (h : f.OnGrid rm neg p t n r nx) (hq : Alike (t + f.emin - f.fw - 1) (p : ℝ) q) :
    f.OnGrid rm neg q t n r nx := by
  refine ⟨h.rounded.alike ?_, h.place, h.binade⟩
  have := hq.div (t + f.emin - f.fw)
  rw [show (t : Int) + f.emin - f.fw - 1 - (t + f.emin - f.fw) = -1 by ring] at this
  push_cast
  exact this

/-- On the grid, a value of the format is its own rounding. -/
theorem Fmt.OnGrid.exact {b : Nat} (h : f.OnGrid rm neg (f.val b) t n r nx) : t * 2 ^ f.fw + r = b ∧ nx = false := by
  have h1 : t * 2 ^ f.fw + n ≤ b := Fmt.val_strictMono.le_iff_le.1 h.val_lower_le
  have h2 : b < t * 2 ^ f.fw + (n + 1) := Fmt.val_strictMono.lt_iff_lt.1 h.lt_val_upper
  obtain rfl : b = t * 2 ^ f.fw + n := by omega
  have heq : (n : ℚ) = f.val (t * 2 ^ f.fw + n) / 2 ^ (t + f.emin - f.fw) := by
    rw [h.val_lower, mul_div_cancel_right₀]
    positivity
  have hr : r = n := h.rounded.pick.resolve_right fun hp => absurd heq hp.2.ne
  exact ⟨by rw [hr], Bool.eq_false_iff.2 fun hnx => h.rounded.flag.1 hnx heq⟩

end

/-! Tininess and exact values. -/

section
variable {rm m : Nat} {neg ftz : Bool} {e : Int}

/-- A tiny value lies below the smallest normal (R55). -/
theorem Fmt.tiny_lt (hm : 0 < m) (h : f.tiny rm neg m e = true) : dyadic m e < 2 ^ f.emin := by
  rw [← lt_leadE_iff hm]
  simp only [Fmt.tiny, Bool.or_eq_true, decide_eq_true_eq, Bool.and_eq_true, beq_iff_eq] at h
  omega

/-- FTZ replaces tiny results alone (R56). -/
theorem Fmt.round_ftz (f : Fmt) (hm : 0 < m) :
    f.round rm ftz neg m e = if ftz = true ∧ f.tiny rm neg m e = true then (f.sign neg, fUF + fNX) else f.round rm false neg m e := by
  simp only [Fmt.round, if_neg hm.ne', Bool.and_eq_true, Bool.false_eq_true, false_and, if_false]

/-- A value of the format is delivered as it is, with no flag; under FTZ this holds of the normals. -/
theorem Fmt.round_val {b : Nat} (hm : 0 < m) (hb : b ≤ f.maxb) (hval : dyadic m e = f.val b) (hnormal : ftz = true → 2 ^ f.fw ≤ b) :
    f.round rm ftz neg m e = (f.sign neg + b, 0) := by
  have hno : ¬ (ftz = true ∧ f.tiny rm neg m e = true) := fun ⟨hftz, htiny⟩ => by
    refine absurd (Fmt.tiny_lt hm htiny) (not_lt.2 ?_)
    rw [hval, ← f.val_min_normal]
    exact Fmt.val_strictMono.monotone (hnormal hftz)
  rw [f.round_ftz hm, if_neg hno]
  obtain ⟨t, n, r, nx, hgrid, hround⟩ := f.round_onGrid rm neg hm e
  rw [hval] at hgrid
  obtain ⟨rfl, rfl⟩ := hgrid.exact
  rw [hround, if_neg (not_lt.2 hb)]
  rfl

/-- What a format of `fw` fraction bits can hold: a significand with one bit more, an exponent above the lowest, and no more than the
largest finite value. -/
theorem Fmt.exists_pattern (hm : m < 2 ^ (f.fw + 1)) (he : f.emin - f.fw ≤ e) (hmax : dyadic m e ≤ f.val f.maxb) :
    ∃ b ≤ f.maxb, f.val b = dyadic m e := by
  obtain rfl | hpos := m.eq_zero_or_pos
  · exact ⟨0, Nat.zero_le _, by simp [Fmt.val_zero, dyadic]⟩
  obtain ⟨t, n, r, nx, hgrid, -⟩ := f.round_onGrid 0 false hpos e
  have hbin := hgrid.binade_eq hpos
  have hlead : leadE m e ≤ e + f.fw := by
    have := (Nat.log2_lt hpos.ne').2 hm
    unfold leadE
    omega
  obtain ⟨j, hj⟩ := Int.le.dest (show (t : Int) + f.emin - f.fw ≤ e by omega)
  have hu : dyadic m e / 2 ^ (t + f.emin - f.fw) = ((m * 2 ^ j : Nat) : ℚ) := by
    rw [div_eq_iff (by positivity), dyadic, ← hj, zpow_add₀ two_ne_zero, zpow_natCast]
    push_cast
    ring
  have hR := hgrid.rounded
  rw [hu] at hR
  have h1 : n ≤ m * 2 ^ j := by exact_mod_cast hR.floor_le
  have h2 : m * 2 ^ j < n + 1 := by exact_mod_cast hR.lt_succ
  have hval : f.val (t * 2 ^ f.fw + n) = dyadic m e := by
    rw [hgrid.val_lower, show n = m * 2 ^ j by omega, ← hu, div_mul_cancel₀]
    positivity
  exact ⟨_, Fmt.val_strictMono.le_iff_le.1 (hval.trans_le hmax), hval⟩

end

/-! What is delivered. -/

/-- A rounding to one bit more that reaches the next power of two reaches it with one bit less as well (R55). -/
theorem Rounded.reaches {rm : Nat} (hrm : rm < 4) {neg : Bool} {u : ℚ} {n r n' r' k : Nat} {nx nx' : Bool} (hu : u < k)
    (h : Rounded rm neg u n r nx) (h' : Rounded rm neg (2 * u) n' r' nx') (hr : 2 * k ≤ r') : k ≤ r := by
  have hr' : (2 * k : ℚ) ≤ r' := by exact_mod_cast hr
  have hpick : (r' : ℚ) ≤ n' + 1 := by
    obtain rfl | ⟨rfl, -⟩ := h'.pick
    · exact (lt_add_one _).le
    · push_cast
      rfl
  have hlo := h'.floor_le
  by_contra hlt
  have hrk : (r : ℚ) + 1 ≤ k := by exact_mod_cast not_le.1 hlt
  obtain h0 | h1 | h2 : rm = 0 ∨ (rm = 1 ∨ rm = (if neg then 2 else 3)) ∨ rm = (if neg then 3 else 2) := by
    cases neg <;> simp <;> omega
  · have h3 := (abs_le.1 (h.near h0).1).1
    have h4 := (abs_le.1 (h'.near h0).1).2
    linarith
  · rw [h'.toward h1] at hr'
    linarith
  · have := h.away h2
    have hn : (n' : ℚ) + 1 ≤ 2 * k := by
      have : (n' : ℚ) < (2 * k : Nat) := by push_cast; linarith
      exact_mod_cast this
    linarith

section
variable {rm m t n r : Nat} {neg nx : Bool} {q : ℚ} {e : Int}

/-- A value that is not tiny is rounded to a normal, or above. -/
theorem Fmt.OnGrid.normal (hrm : rm < 4) (hm : 0 < m) (h : f.OnGrid rm neg (dyadic m e) t n r nx) (htiny : ¬ f.tiny rm neg m e = true) :
    2 ^ f.fw ≤ t * 2 ^ f.fw + r := by
  have hbin := h.binade_eq hm
  obtain rfl | ht := t.eq_zero_or_pos
  · rw [Nat.zero_mul, Nat.zero_add]
    have hR := h.rounded
    simp only [Fmt.tiny, Bool.or_eq_true, decide_eq_true_eq, Bool.and_eq_true, beq_iff_eq, not_or, not_and, not_lt] at htiny
    obtain hlead | hlead : leadE m e = f.emin ∨ leadE m e = f.emin - 1 := by omega
    · have hn : (2 : ℚ) ^ f.fw < n + 1 := by
        refine lt_of_le_of_lt ?_ hR.lt_succ
        rw [le_div_iff₀ (by positivity), ← zpow_natCast, ← zpow_add₀ two_ne_zero]
        refine le_trans (le_of_eq ?_) (leadE_le_dyadic hm e)
        rw [hlead]
        congr 1
        push_cast
        ring
      have hn' : 2 ^ f.fw ≤ n := Nat.lt_succ_iff.1 (by exact_mod_cast hn)
      obtain rfl | ⟨rfl, -⟩ := hR.pick <;> omega
    · obtain ⟨n', hR'⟩ := roundAt_rounded rm neg m e (leadE m e - f.fw)
      have hdouble : (m : ℚ) * 2 ^ (e - (leadE m e - f.fw)) = 2 * (dyadic m e / 2 ^ (((0 : Nat) : Int) + f.emin - f.fw)) := by
        rw [dyadic, hlead, mul_div_assoc, ← zpow_sub₀ two_ne_zero, show e - (f.emin - 1 - f.fw) = e - (((0 : Nat) : Int) + f.emin - f.fw) + 1 by
          push_cast; ring, zpow_add_one₀ two_ne_zero]
        ring
      rw [hdouble] at hR'
      refine hR.reaches hrm ?_ hR' ((Nat.pow_succ').symm.le.trans (htiny.2 hlead))
      rw [div_lt_iff₀ (by positivity), Nat.cast_pow, Nat.cast_ofNat, ← zpow_natCast, ← zpow_add₀ two_ne_zero]
      refine (dyadic_lt_leadE m e).trans_eq ?_
      rw [hlead]
      congr 1
      push_cast
      ring
  · have : 1 * 2 ^ f.fw ≤ t * 2 ^ f.fw := Nat.mul_le_mul_right _ ht
    omega

end

theorem Fmt.Arith.sign_add_mod (hf : f.Arith) (neg : Bool) {b : Nat} (hb : b ≤ f.maxb + 1) : (f.sign neg + b) % 2 ^ f.mag = b := by
  have hlt : b < 2 ^ f.mag := by
    have := Nat.two_pow_pos f.fw
    have h2 : f.maxb + 1 + 2 ^ f.fw = 2 ^ f.mag := by
      rw [hf.maxb_succ, Fmt.mag, Nat.pow_add, ← Nat.succ_mul, Nat.succ_eq_add_one, Nat.sub_add_cancel (Nat.two_pow_pos _)]
    omega
  unfold Fmt.sign
  split
  · rw [Nat.add_mod_left, Nat.mod_eq_of_lt hlt]
  · rw [Nat.zero_add, Nat.mod_eq_of_lt hlt]

/-- On overflow: infinity, or the largest finite value where the direction is away from it (R54). -/
theorem Fmt.Arith.ovfl_eq (hf : f.Arith) (rm : Nat) (neg : Bool) :
    f.ovfl rm neg = if rm = 0 ∨ rm = (if neg then 3 else 2) then f.inf neg else f.sign neg + f.maxb := by
  simp only [Fmt.ovfl, hf.hasInf, Bool.true_and, Bool.or_eq_true, Bool.and_eq_true, beq_iff_eq, Bool.not_eq_true']
  cases neg <;> simp

theorem Fmt.Arith.inf_eq (hf : f.Arith) (neg : Bool) : f.inf neg = f.sign neg + (f.maxb + 1) := by
  rw [Fmt.inf, hf.maxb_succ]

theorem Fmt.Arith.min_normal_le (hf : f.Arith) : 2 ^ f.fw ≤ f.maxb := by
  refine Fmt.val_strictMono.le_iff_le.1 (f.val_min_normal.trans_le (le_trans ?_ hf.val_maxb.1))
  have := hf.fw_pos
  have := hf.fw_lt
  exact zpow_le_zpow_right₀ one_le_two (by rw [f.emin_eq]; omega)

/-- The rounding of m · 2^e is what an arithmetic word delivers for a value that it stands for (R53, R54, R56). -/
theorem Fmt.Arith.round_delivers (hf : f.Arith) {rm : Nat} (hrm : rm < 4) (ftz neg : Bool) {m : Nat} (hm : 0 < m) {e : Int} {q : ℚ}
    (hq : Alike (max (leadE m e) f.emin - f.fw - 1) (dyadic m e : ℚ) q) : f.Delivers rm ftz neg q (f.round rm ftz neg m e) := by
  rw [f.round_ftz hm]
  split
  case isTrue h =>
    refine .inl ⟨h.1, rfl, ?_⟩
    have htiny := Fmt.tiny_lt hm h.2
    have hiff := hq.zpow_le_iff (l := f.emin) (by have := (lt_leadE_iff hm e _).2 htiny; omega)
    rw [← not_le, ← Rat.cast_le (K := ℝ)] at htiny ⊢
    simp only [dyadic, Nat.cast_one, one_mul, Rat.cast_zpow, Rat.cast_ofNat] at htiny hiff ⊢
    exact mt hiff.2 htiny
  case isFalse h =>
    obtain ⟨t, n, r, nx, hgrid, hround⟩ := f.round_onGrid rm neg hm e
    have hq' := hgrid.alike (q := q) (hgrid.binade_eq hm ▸ hq)
    have hnormal : ftz = true → 2 ^ f.fw ≤ t * 2 ^ f.fw + r := fun hftz => hgrid.normal hrm hm fun htiny => h ⟨hftz, htiny⟩
    rw [hround]
    split
    case isTrue hlt =>
      refine .inr ⟨fun _ => ?_, fun hof => absurd hof (show ¬ (fOF + fNX) / fOF % 2 = 0 by decide), fun _ => ⟨?_, fun k g hmax => ?_⟩⟩
      · have := hf.min_normal_le
        rw [hf.ovfl_eq, hf.inf_eq]
        by_cases hdir : rm = 0 ∨ rm = (if neg then 3 else 2)
        · rw [if_pos hdir, hf.sign_add_mod neg le_rfl]
          omega
        · rwa [if_neg hdir, hf.sign_add_mod neg (Nat.le_succ _)]
      · rw [hf.ovfl_eq]
      · rw [Fmt.decode_eq_fin hmax, Nat.mod_eq_of_lt hf.maxb_lt]
        exact hq'.overflow hlt
    case isFalse hle =>
      refine .inr ⟨fun hftz => ?_, fun _ => ?_, fun hof => absurd hof ?_⟩
      · rw [hf.sign_add_mod neg (by omega)]
        exact hnormal hftz
      · refine hq'.rounds hf.toSound (fun _ => hf.signed) (Nat.le_of_not_lt hle) ?_
        cases nx <;> cases f.tiny rm neg m e <;> simp [fNX, fUF]
      · cases nx <;> cases f.tiny rm neg m e <;> simp [fNX, fUF, fOF]

end

end Sys2Proof.Machine
end

