-- ==== Sys2Proof/Proofs/FloatArithmetic.lean ====
section
/-! FADD, FSUB, FMUL, FMIN, FMAX, FFMA and FFMAL: the words, and on finite operands the rounding of the exact result (R97 to R101). -/

set_option Elab.async false

namespace Sys2Proof.Machine

/-! The words. -/

theorem flt2Word_completes {i : Instr} {t : FTy} {g : Fmt → Nat → Bool → Nat → Nat → Flt} {d : RName} {a b : Src} {s : State}
    (hi : exec i s = flt2 t g d a b s) (hd : dstTy t d = true) (ha : srcTy t a = true) (hb : srcTy t b = true) (hc : s.CanIssue [a, b]) :
    let r := fun n => mapEls t (fun x y _ => g (fmtOf t) s.rm (s.ftzT t) x y) (s.srcT t a n) (s.srcT t b n) 0
    ∃ u, exec i s = .next u ∧ VecWord s u d (t == .f64) (fun n => (r n).1) (s.flagsOf fun n => (r n).2) :=
  hi ▸ flt2_completes hd ha hb hc

theorem flt3Word_completes {i : Instr} {t : FTy} {d : RName} {a b : Src} {s : State} (hi : exec i s = flt3 t d a b s)
    (hd : dstRTy t d = true) (ha : srcTy t a = true) (hb : srcTy t b = true) (hc : s.CanIssue [a, b]) :
    let r := fun n => mapEls t (fmaF (fmtOf t) s.rm (s.ftzT t)) (s.srcT t a n) (s.srcT t b n) (s.dstT t d n)
    ∃ u, exec i s = .next u ∧ VecWord s u d (t == .f64) (fun n => (r n).1) (s.flagsOf fun n => (r n).2) :=
  hi ▸ flt3_completes hd ha hb hc

theorem fltLWord_completes {i : Instr} {t : FTy} {d : RName} {a b : Src} {s : State} (hi : exec i s = fltL t d a b s)
    (hd : dstTy t d = true) (ha : srcTy t a = true) (hb : srcTy t b = true) (hc : s.CanIssue [a, b]) :
    let r := fun n => mapEls t (fmaF (fmtOf t) s.rm (s.ftzT t)) (s.srcT t a n) (s.srcT t b n) (s.cw.lastq.get n 0)
    ∃ u, exec i s = .next u ∧ VecWord s u d (t == .f64) (fun n => (r n).1) (s.flagsOf fun n => (r n).2) :=
  hi ▸ fltL_completes hd ha hb hc

/-! Signed values, and their exact sums and products. -/

theorem dyadic_eq_zero {m : Nat} {e : Int} : dyadic m e = 0 ↔ m = 0 := by
  unfold dyadic
  rw [mul_eq_zero, or_iff_left (by positivity), Nat.cast_eq_zero]

theorem signedDy_eq_zero {neg : Bool} {m : Nat} {e : Int} : signedDy neg m e = 0 ↔ m = 0 := by
  unfold signedDy
  split <;> simp [dyadic_eq_zero]

theorem abs_signedDy (neg : Bool) (m : Nat) (e : Int) : |signedDy neg m e| = dyadic m e := by
  unfold signedDy
  split
  · rw [abs_neg, abs_of_nonneg (dyadic_nonneg m e)]
  · exact abs_of_nonneg (dyadic_nonneg m e)

theorem signedDy_bne (neg sub : Bool) (m : Nat) (e : Int) : signedDy (neg != sub) m e = if sub then -signedDy neg m e else signedDy neg m e := by
  cases neg <;> cases sub <;> simp [signedDy]

theorem signedDy_mul (a b : Bool) (m n : Nat) (e k : Int) : signedDy a m e * signedDy b n k = signedDy (a != b) (m * n) (e + k) := by
  have h : dyadic m e * dyadic n k = dyadic (m * n) (e + k) := by
    simp only [dyadic, zpow_add₀ (two_ne_zero (α := ℚ))]
    push_cast
    ring
  cases a <;> cases b <;> simp [signedDy, h]

/-- A signed value as an integer number of steps of 2^q. -/
theorem finAt_mul (neg : Bool) (m : Nat) {e q : Int} (hq : q ≤ e) : (finAt neg m e q : ℚ) * 2 ^ q = signedDy neg m e := by
  have h : (m : ℚ) * 2 ^ (e - q).toNat * 2 ^ q = dyadic m e := by
    rw [← zpow_natCast, Int.toNat_of_nonneg (by omega), ← dyadic_eq_mul]
  unfold finAt signedDy
  rw [← h]
  cases neg <;> push_cast <;> simp

/-- The sign of a zero sum (R53). -/
theorem FVal.add_fin_zero (rm : Nat) {a b : Bool} {m n : Nat} {e k : Int} (h : signedDy a m e + signedDy b n k = 0) :
    FVal.add rm (.fin a m e) (.fin b n k) = some (.fin (if a = b then a else rm == 3) 0 0) := by
  have ht : finAt a m e (min e k) + finAt b n k (min e k) = 0 := by
    rw [← finAt_mul a m (min_le_left e k), ← finAt_mul b n (min_le_right e k), ← add_mul, mul_eq_zero, or_iff_left (by positivity)] at h
    exact_mod_cast h
  have hzero : a = b → m = 0 ∧ n = 0 := by
    rintro rfl
    have hm := dyadic_nonneg m e
    have hn := dyadic_nonneg n k
    rw [← dyadic_eq_zero (e := e), ← dyadic_eq_zero (e := k)]
    cases a <;> simp only [signedDy, if_true, Bool.false_eq_true, if_false] at h <;> constructor <;> linarith
  simp only [FVal.add, if_pos ht]
  by_cases hab : a = b
  · rw [if_pos ⟨(hzero hab).1, (hzero hab).2, hab⟩, if_pos hab]
  · rw [if_neg fun h => hab h.2.2, if_neg hab]

/-- A sum that is not zero is exact. -/
theorem FVal.add_fin_ne_zero (rm : Nat) {a b : Bool} {m n : Nat} {e k : Int} (h : signedDy a m e + signedDy b n k ≠ 0) :
    ∃ j q, 0 < j ∧ FVal.add rm (.fin a m e) (.fin b n k) = some (.fin (signedDy a m e + signedDy b n k < 0) j q) ∧
      dyadic j q = |signedDy a m e + signedDy b n k| := by
  have hpos : (0 : ℚ) < 2 ^ min e k := by positivity
  have hsum : ((finAt a m e (min e k) + finAt b n k (min e k) : Int) : ℚ) * 2 ^ min e k = signedDy a m e + signedDy b n k := by
    rw [Int.cast_add, add_mul, finAt_mul a m (min_le_left e k), finAt_mul b n (min_le_right e k)]
  have hadd : FVal.add rm (.fin a m e) (.fin b n k) =
      if finAt a m e (min e k) + finAt b n k (min e k) = 0 then some (.fin (if m = 0 ∧ n = 0 ∧ a = b then a else rm == 3) 0 0)
      else some (.fin (finAt a m e (min e k) + finAt b n k (min e k) < 0) (finAt a m e (min e k) + finAt b n k (min e k)).natAbs (min e k)) := rfl
  rw [hadd]
  generalize finAt a m e (min e k) + finAt b n k (min e k) = t at hsum
  rw [← hsum] at h ⊢
  have ht : t ≠ 0 := by
    rintro rfl
    simp at h
  refine ⟨t.natAbs, min e k, Int.natAbs_pos.2 ht, ?_, ?_⟩
  · rw [if_neg ht]
    congr 2
    rw [decide_eq_decide, mul_neg_iff, or_iff_right fun hc => absurd hc.2 (not_lt.2 hpos.le), and_iff_left hpos, Int.cast_lt_zero]
  · rw [dyadic, abs_mul, abs_of_pos hpos, Nat.cast_natAbs, Int.cast_abs]

/-! What is delivered. -/

theorem Fmt.deliver_fin (f : Fmt) (rm : Nat) (ftz neg : Bool) (m : Nat) (e : Int) :
    f.deliver rm ftz (.fin neg m e) = f.round rm ftz neg m e := rfl

/-- A finite sum is delivered as its rounding, a zero with the sign of R53. -/
theorem Fmt.Arith.sum_delivers {f : Fmt} (hf : f.Arith) {rm : Nat} (hrm : rm < 4) (ftz : Bool) {a b : Bool} {m n : Nat} {e k : Int} {r : Flt}
    (hr : ∀ v, FVal.add rm (.fin a m e) (.fin b n k) = some v → r = f.deliver rm ftz v) :
    let T := signedDy a m e + signedDy b n k
    (T ≠ 0 → f.Delivers rm ftz (T < 0) |T| r) ∧ (T = 0 → r = (f.sign (if a = b then a else rm = 3), 0)) := by
  refine ⟨fun hT => ?_, fun hT => ?_⟩
  · obtain ⟨j, q, hj, hadd, habs⟩ := FVal.add_fin_ne_zero rm hT
    rw [hr _ hadd, Fmt.deliver_fin, ← habs]
    exact hf.round_delivers hrm ftz _ hj (Alike.refl _ _)
  · rw [hr _ (FVal.add_fin_zero rm hT), Fmt.deliver_fin, Fmt.round_zero, beq_eq_decide]

/-- A finite product is delivered as its rounding. -/
theorem Fmt.Arith.product_delivers {f : Fmt} (hf : f.Arith) {rm : Nat} (hrm : rm < 4) (ftz : Bool) (a b : Bool) (m n : Nat) (e k : Int) :
    let X := signedDy a m e
    let Y := signedDy b n k
    (X * Y ≠ 0 → f.Delivers rm ftz (a != b) |X * Y| (f.deliver rm ftz (.fin (a != b) (m * n) (e + k)))) ∧
      (X * Y = 0 → f.deliver rm ftz (.fin (a != b) (m * n) (e + k)) = (f.sign (a != b), 0)) := by
  intro X Y
  rw [show X * Y = _ from signedDy_mul a b m n e k, abs_signedDy, Fmt.deliver_fin, ne_eq, signedDy_eq_zero]
  exact ⟨fun h => hf.round_delivers hrm ftz _ (Nat.pos_of_ne_zero h) (Alike.refl _ _), fun h => by rw [h, Fmt.round_zero]⟩

section
variable {f : Fmt} {rm : Nat} {ftz : Bool} {x y nx ny mx my} {ex ey : Int}

theorem addF_fin (hx : f.decode (f.flush ftz x) = .fin nx mx ex) (hy : f.decode (f.flush ftz y) = .fin ny my ey) (sub : Bool) {v : FVal}
    (hv : FVal.add rm (.fin nx mx ex) (.fin (ny != sub) my ey) = some v) : addF sub f rm ftz x y = f.deliver rm ftz v := by
  simp only [addF, hx, hy, FVal.negIf, hv]
  rfl

theorem mulF_fin (hx : f.decode (f.flush ftz x) = .fin nx mx ex) (hy : f.decode (f.flush ftz y) = .fin ny my ey) :
    mulF f rm ftz x y = f.deliver rm ftz (.fin (nx != ny) (mx * my) (ex + ey)) := by
  simp only [mulF, hx, hy]
  rfl

theorem fmaF_fin (hx : f.decode (f.flush ftz x) = .fin nx mx ex) (hy : f.decode (f.flush ftz y) = .fin ny my ey) {z nz mz} {ez : Int}
    (hz : f.decode (f.flush ftz z) = .fin nz mz ez) {v : FVal}
    (hv : FVal.add rm (.fin (nx != ny) (mx * my) (ex + ey)) (.fin nz mz ez) = some v) : fmaF f rm ftz x y z = f.deliver rm ftz v := by
  have hmul : FVal.mul (.fin nx mx ex) (.fin ny my ey) = some (.fin (nx != ny) (mx * my) (ex + ey)) := rfl
  simp only [fmaF, hx, hy, hz, hmul, hv]
  rfl

end

/-- Settles O7: each word is one of the three shared forms; on finite operands the model adds and multiplies exactly and rounds once. -/
theorem floatArithmeticWords : Obligations.FloatArithmeticWords := by
  unfold Obligations.FloatArithmeticWords
  refine ⟨fun e he d a b s hd ha hb hc => ?_, fun e he d a b s hd ha hb hc => ?_, fun e he d a b s hd ha hb hc => ?_,
    fun f hf rm hrm ftz x y nx mx ex ny my ey hx hy => ?_⟩
  · refine flt2Word_completes (g := e.2.2) ?_ hd ha hb hc
    simp only [List.mem_cons, List.not_mem_nil, or_false] at he
    rcases he with rfl | rfl | rfl | rfl | rfl | rfl | rfl | rfl | rfl | rfl | rfl | rfl | rfl | rfl | rfl | rfl | rfl | rfl | rfl | rfl
    all_goals rfl
  · refine flt3Word_completes ?_ hd ha hb hc
    simp only [List.mem_cons, List.not_mem_nil, or_false] at he
    rcases he with rfl | rfl | rfl | rfl
    all_goals rfl
  · refine fltLWord_completes ?_ hd ha hb hc
    simp only [List.mem_cons, List.not_mem_nil, or_false] at he
    rcases he with rfl | rfl | rfl | rfl
    all_goals rfl
  · have hf := Fmt.arith_of_mem hf
    obtain ⟨hprod, hzero⟩ := hf.product_delivers hrm ftz nx ny mx my ex ey
    rw [← mulF_fin hx hy] at hprod hzero
    refine ⟨fun sub => ?_, hprod, hzero, fun z nz mz ez hz => ?_⟩
    · have hsum := hf.sum_delivers hrm ftz (fun v => addF_fin hx hy sub (v := v))
      rw [signedDy_bne] at hsum
      cases sub
      · exact hsum
      · rwa [if_pos rfl, ← sub_eq_add_neg] at hsum
    · have hsum := hf.sum_delivers hrm ftz (fun v => fmaF_fin hx hy hz (v := v))
      have hsign : (if (nx != ny) = nz then nx != ny else decide (rm = 3)) = if (nx != ny) = nz then nz else decide (rm = 3) :=
        ite_congr rfl id fun _ => rfl
      rwa [← signedDy_mul, hsign] at hsum

end Sys2Proof.Machine
end

