-- ==== Sys2Proof/Proofs/QuantBlocks.lean ====
section
/-! QPACK and QUNPK: one block of 32 values across the wave (R109, R110). -/

set_option Elab.async false

namespace Sys2Proof.Machine

/-- The 32 values that QPACK packs: a lane outside the executing set gives +0 (R109). -/
def State.packed (s : State) (a : Src) : List Nat := (List.range 32).map fun i => if s.memb.getLsbD i then s.srcF32 a i else 0

theorem exec_qpack_eq (d : RName) (a : Src) (s : State) :
    exec (.qpack d a) s = issueFixed (dst64 d && Sys2Proof.src32 a) [a] (fun s => .done ((s.putLanes d true fun n =>
      BitVec.ofNat 64 ((qpackOp (s.packed a)).1 / 2 ^ (32 * (n % 4)) % 2 ^ 32 + 2 ^ 32 * (qpackOp (s.packed a)).2.1)).mergeF
        (qpackOp (s.packed a)).2.2)) s := rfl

/-- Settles O11: QPACK is a form whose flags are raised once for the wave, and QUNPK one that raises none. -/
theorem quantBlockWords : Obligations.QuantBlockWords := by
  unfold Obligations.QuantBlockWords
  refine ⟨fun d a s hd ha hc => ?_, fun d a s hd ha hc => ?_⟩
  · rw [exec_qpack_eq]
    exact vecOnce_completes (k := fun s => (qpackOp (s.packed a)).2.2) (Bool.and_eq_true_iff.2 ⟨hd, ha⟩) hc (wideOk_of_dst64 hd)
  · rw [exec_qunpk, execQunpk]
    exact vecForm_completes (Bool.and_eq_true_iff.2 ⟨hd, ha⟩) hc (wideOk_false d)

end Sys2Proof.Machine
end

