-- ==== Sys2Proof/Proofs/FloatRoots.lean ====
section
/-! Reciprocals and square roots (R102 to R105): the model computes some bits of each with a sticky bit below, which compares as the
exact result does with everything that a rounding looks at. -/

set_option Elab.async false

namespace Sys2Proof.Machine

/-! Reciprocals. -/

theorem leadE_ge {m p : Nat} (h : 2 ^ p ≤ m) (e : Int) : e + p ≤ leadE m e := by
  have hm : 0 < m := (Nat.two_pow_pos p).trans_le h
  have := (Nat.le_log2 hm.ne').2 h
  unfold leadE
  omega

/-- The model's reciprocal, to `p` bits and more. -/
theorem rcpDy_alike (p : Nat) {m : Nat} (hm : 0 < m) (e : Int) :
    0 < (rcpDy p m e).1 ∧ Alike (leadE (rcpDy p m e).1 (rcpDy p m e).2 - p) (dyadic (rcpDy p m e).1 (rcpDy p m e).2 : ℚ) (1 / dyadic m e : ℚ) := by
  obtain ⟨k, hk⟩ : ∃ k, k = Nat.log2 m + p + 4 := ⟨_, rfl⟩
  obtain ⟨q, hq⟩ : ∃ q, q = 2 ^ k / m := ⟨_, rfl⟩
  have hr : rcpDy p m e = (2 * q + if q * m = 2 ^ k then 0 else 1, -e - k - 1) := by rw [hq, hk]; rfl
  have hdiv := Nat.div_add_mod (2 ^ k) m
  have hmod := Nat.mod_lt (2 ^ k) hm
  rw [← hq, Nat.mul_comm] at hdiv
  have hbig : 2 ^ (p + 3) ≤ q := by
    rw [hq, Nat.le_div_iff_mul_le hm, hk, show m.log2 + p + 4 = (p + 3) + (m.log2 + 1) by omega, Nat.pow_add 2 (p + 3)]
    exact Nat.mul_le_mul_left _ Nat.lt_log2_self.le
  have hbits : 2 ^ (p + 4) ≤ 2 * q + if q * m = 2 ^ k then 0 else 1 := by
    rw [Nat.pow_succ]
    omega
  have hrecip : ((1 / dyadic m e : ℚ) : ℝ) = 2 ^ k / m * 2 ^ (-e - k : Int) := by
    rw [dyadic, zpow_sub₀ two_ne_zero, zpow_neg, zpow_natCast]
    push_cast
    field_simp
  have hm' : (0 : ℝ) < m := by exact_mod_cast hm
  have halike : Alike (-e - k - 1 + 1) (dyadic (2 * q + if q * m = 2 ^ k then 0 else 1) (-e - k - 1) : ℚ) (1 / dyadic m e : ℚ) := by
    refine alike_of_sticky ?_ ?_ ?_ <;> rw [hrecip, Int.sub_add_cancel]
    · refine mul_le_mul_of_nonneg_right ((le_div_iff₀ hm').2 ?_) (by positivity)
      exact_mod_cast (show q * m ≤ 2 ^ k by omega)
    · refine mul_lt_mul_of_pos_right ((div_lt_iff₀ hm').2 ?_) (by positivity)
      exact_mod_cast (show 2 ^ k < (q + 1) * m by rw [Nat.add_mul]; omega)
    · rw [mul_left_inj' (by positivity), div_eq_iff hm'.ne', eq_comm]
      exact_mod_cast Iff.rfl
  rw [hr]
  have hlead := leadE_ge hbits (-e - k - 1)
  exact ⟨(Nat.two_pow_pos _).trans_le hbits, halike.mono (by push_cast at hlead ⊢; omega)⟩

/-! Square roots. -/

theorem isqrtFrom_eq_sqrt {n k r : Nat} (hle : r * r ≤ n) (hlt : n < (r + 2 ^ k) * (r + 2 ^ k)) : isqrtFrom n k r = Nat.sqrt n := by
  induction k generalizing r with
  | zero => exact Nat.eq_sqrt.2 ⟨hle, hlt⟩
  | succ k ih =>
    rw [Nat.pow_succ] at hlt
    unfold isqrtFrom
    split
    case isTrue h => exact ih h (by rwa [Nat.add_assoc, ← Nat.mul_two])
    case isFalse h => exact ih hle (not_le.1 h)

/-- The bit by bit square root. -/
theorem isqrtFrom_log2 (n : Nat) : isqrtFrom n (Nat.log2 n / 2 + 1) 0 = Nat.sqrt n := by
  refine isqrtFrom_eq_sqrt (Nat.zero_le _) ?_
  rw [Nat.zero_add, ← Nat.pow_add]
  exact Nat.lt_log2_self.trans_le (Nat.pow_le_pow_right two_pos (by omega))

/-- The model's square root, to `p` bits and more. -/
theorem sqrtDy_alike (p : Nat) {m : Nat} (hm : 0 < m) (e : Int) :
    0 < (sqrtDy p m e).1 ∧ Alike (leadE (sqrtDy p m e).1 (sqrtDy p m e).2 - p) (dyadic (sqrtDy p m e).1 (sqrtDy p m e).2 : ℚ)
      (√(dyadic m e : ℚ)) := by
  obtain ⟨k, hk⟩ : ∃ k : Nat, k = if (e - (2 * p + 4 : Nat)) % 2 = 0 then 2 * p + 4 else 2 * p + 4 + 1 := ⟨_, rfl⟩
  obtain ⟨n, hn⟩ : ∃ n, n = m * 2 ^ k := ⟨_, rfl⟩
  have hr : sqrtDy p m e = (2 * n.sqrt + if n.sqrt * n.sqrt = n then 0 else 1, (e - k) / 2 - 1) := by
    rw [← isqrtFrom_log2, hn, hk]
    rfl
  have hk2 : 2 * p + 4 ≤ k ∧ (e - k) % 2 = 0 := by
    push_cast at hk
    rw [hk]
    split <;> constructor <;> push_cast <;> omega
  have hhalf : e = k + (e - k) / 2 + (e - k) / 2 := by omega
  have hbig : 2 ^ (p + 2) ≤ n.sqrt := by
    rw [Nat.le_sqrt, ← Nat.pow_add, hn]
    exact (Nat.pow_le_pow_right two_pos (by omega)).trans (Nat.le_mul_of_pos_left _ hm)
  have hbits : 2 ^ (p + 3) ≤ 2 * n.sqrt + if n.sqrt * n.sqrt = n then 0 else 1 := by
    rw [Nat.pow_succ]
    omega
  have hroot : √((dyadic m e : ℚ) : ℝ) = √n * 2 ^ ((e - k) / 2) := by
    have hS : (0 : ℝ) ≤ 2 ^ ((e - k) / 2) := by positivity
    rw [← Real.sqrt_mul_self hS, ← Real.sqrt_mul (by positivity)]
    congr 1
    rw [dyadic, hn]
    push_cast
    conv_lhs => rw [hhalf, zpow_add₀ two_ne_zero, zpow_add₀ two_ne_zero, zpow_natCast]
    ring
  have halike : Alike ((e - k) / 2 - 1 + 1) (dyadic (2 * n.sqrt + if n.sqrt * n.sqrt = n then 0 else 1) ((e - k) / 2 - 1) : ℚ)
      (√(dyadic m e : ℚ)) := by
    refine alike_of_sticky ?_ ?_ ?_ <;> rw [hroot, Int.sub_add_cancel]
    · refine mul_le_mul_of_nonneg_right (Real.le_sqrt_of_sq_le ?_) (by positivity)
      exact_mod_cast Nat.sqrt_le' n
    · refine mul_lt_mul_of_pos_right ((Real.sqrt_lt' (by positivity)).2 ?_) (by positivity)
      exact_mod_cast Nat.lt_succ_sqrt' n
    · rw [mul_left_inj' (by positivity), Real.sqrt_eq_iff_mul_self_eq n.cast_nonneg (Nat.cast_nonneg _)]
      exact_mod_cast eq_comm
  rw [hr]
  have hlead := leadE_ge hbits ((e - k) / 2 - 1)
  exact ⟨(Nat.two_pow_pos _).trans_le hbits, halike.mono (by push_cast at hlead ⊢; omega)⟩

/-! Values told by their comparisons: where they lie, and roots of them. -/

/-- A value lies in the binade of what stands for it. -/
theorem Alike.binade {m p : Nat} {e : Int} {v : ℝ} (hm : 0 < m) (h : Alike (leadE m e - p) (dyadic m e : ℚ) v) :
    (2 : ℝ) ^ leadE m e ≤ v ∧ v < 2 ^ (leadE m e + 1) := by
  rw [← not_le, ← h.zpow_le_iff (show leadE m e - p ≤ leadE m e by omega),
    ← h.zpow_le_iff (show leadE m e - p ≤ leadE m e + 1 by omega), not_le]
  have h1 := leadE_le_dyadic hm e
  have h2 := dyadic_lt_leadE m e
  rw [← Rat.cast_le (K := ℝ)] at h1
  rw [← Rat.cast_lt (K := ℝ)] at h2
  push_cast at h1 h2
  exact ⟨h1, h2⟩

theorem zpow_le_sqrt_iff {q : ℚ} {l : Int} : (2 : ℝ) ^ l ≤ √(q : ℝ) ↔ (2 : ℚ) ^ (2 * l) ≤ q := by
  rw [Real.le_sqrt' (by positivity), ← zpow_natCast, ← zpow_mul, mul_comm, ← Rat.cast_le (K := ℝ)]
  push_cast
  rfl

theorem sqrt_lt_zpow_iff {q : ℚ} {l : Int} : √(q : ℝ) < 2 ^ l ↔ q < 2 ^ (2 * l) := by
  rw [Real.sqrt_lt' (by positivity), ← zpow_natCast, ← zpow_mul, mul_comm, ← Rat.cast_lt (K := ℝ)]
  push_cast
  rfl

/-- A value that stands for a root compares with a multiple as the root's square does. -/
theorem Alike.le_root_iff {g : Int} {v X c : ℚ} (h : Alike g (v : ℝ) (√X)) {k : ℤ} (hc : c = k * 2 ^ g) (h0 : 0 ≤ c)
    (hX : 0 ≤ X) :
    (c ≤ v ↔ c ^ 2 ≤ X) ∧ (v ≤ c ↔ X ≤ c ^ 2) := by
  have hc' : (c : ℝ) = k * 2 ^ g := by
    rw [hc]
    push_cast
    rfl
  have h0' : (0 : ℝ) ≤ c := by exact_mod_cast h0
  have hle := h.le_iff k hc'
  have hge := h.ge_iff k hc'
  rw [Real.le_sqrt h0' (by exact_mod_cast hX)] at hle
  rw [Real.sqrt_le_left h0'] at hge
  exact ⟨by exact_mod_cast hle, by exact_mod_cast hge⟩

/-- The rounding of a root, told by squares: `X` is the square of the rounded value, and `w` lies outside the gap around it. -/
theorem Rounded.root {rm n r : Nat} {nx : Bool} {u X w : ℚ} (h : Rounded rm false u n r nx)
    (hX : ∀ c : ℚ, 0 ≤ c → (∃ k : ℤ, c = k / 2) → (c ≤ u ↔ c ^ 2 ≤ X) ∧ (u ≤ c ↔ X ≤ c ^ 2)) (hw : 0 ≤ w) (hgap : w ≤ n ∨ (n : ℚ) + 1 ≤ w) :
    (rm = 0 → (w < r → (w + r) ^ 2 ≤ 4 * X) ∧ (r < w → 4 * X ≤ (r + w) ^ 2)) ∧
      (rm = 1 ∨ rm = 3 → (r : ℚ) ^ 2 ≤ X ∧ (w ^ 2 ≤ X → w ≤ r)) ∧ (rm = 2 → X ≤ (r : ℚ) ^ 2 ∧ (X ≤ w ^ 2 → (r : ℚ) ≤ w)) := by
  have hn0 : (0 : ℚ) ≤ n := n.cast_nonneg
  have hr0 : (0 : ℚ) ≤ r := r.cast_nonneg
  have hn := hX n hn0 ⟨2 * n, by push_cast; ring⟩
  have hn1 := hX (n + 1) (by linarith) ⟨2 * n + 2, by push_cast; ring⟩
  have hr := hX r hr0 ⟨2 * r, by push_cast; ring⟩
  have hpick : (r : ℚ) = n ∨ (r : ℚ) = n + 1 ∧ (n : ℚ) < u := h.pick.imp (congrArg _) (.imp_left fun hr => by rw [hr]; push_cast; rfl)
  have hlo := h.floor_le
  refine ⟨fun hrm => ?_, fun hrm => ?_, fun hrm => ?_⟩
  · obtain ⟨h1, h2⟩ := abs_le.1 (h.near hrm).1
    refine ⟨fun hlt => ?_, fun hlt => ?_⟩
    · obtain hp | ⟨hp, -⟩ := hpick
      · have := hr.1.1 (by linarith)
        nlinarith
      · have := (hX (r - 1 / 2) (by linarith) ⟨2 * r - 1, by push_cast; ring⟩).1.1 (by linarith)
        have : w ≤ n := hgap.resolve_right (by linarith)
        nlinarith
    · obtain hp | ⟨hp, -⟩ := hpick
      · have := (hX (r + 1 / 2) (by linarith) ⟨2 * r + 1, by push_cast; ring⟩).2.1 (by linarith)
        have : (n : ℚ) + 1 ≤ w := hgap.resolve_left (by linarith)
        nlinarith
      · have := hr.2.1 (by linarith [h.lt_succ])
        nlinarith
  · have hrn : (r : ℚ) = n := congrArg _ (h.toward hrm)
    rw [hrn]
    refine ⟨hn.1.1 hlo, fun hwX => hgap.resolve_right fun hge => ?_⟩
    have hup : X < ((n : ℚ) + 1) ^ 2 := not_le.1 (mt hn1.1.2 (not_le.2 h.lt_succ))
    nlinarith
  · have hur := h.away hrm
    refine ⟨hr.2.1 hur, fun hXw => ?_⟩
    by_contra hlt
    rw [not_le] at hlt
    obtain hp | ⟨hp, hnu⟩ := hpick
    · have := hr.1.1 (by linarith)
      nlinarith
    · have hlow : (n : ℚ) ^ 2 < X := not_le.1 (mt hn.2.2 (not_le.2 hnu))
      have : w ≤ n := hgap.resolve_right (by linarith)
      nlinarith

/-! FRCP and FSQRT on finite operands. -/

section
variable {f : Fmt} {rm x m : Nat} {ftz neg : Bool} {e : Int}

theorem rcpF_zero (hx : f.decode (f.flush ftz x) = .fin neg 0 e) : rcpF f rm ftz x = (f.inf neg, fDZ) := by
  simp only [rcpF, hx, if_true]

theorem rcpF_fin (hx : f.decode (f.flush ftz x) = .fin neg m e) (hm : 0 < m) :
    rcpF f rm ftz x = f.round rm ftz neg (rcpDy (f.fw + 2) m e).1 (rcpDy (f.fw + 2) m e).2 := by
  simp only [rcpF, hx, if_neg hm.ne']

theorem sqrtF_zero (hx : f.decode (f.flush ftz x) = .fin neg 0 e) : sqrtF f rm ftz x = (f.sign neg, 0) := by
  simp only [sqrtF, hx, if_true]

theorem sqrtF_neg (hx : f.decode (f.flush ftz x) = .fin true m e) (hm : 0 < m) : sqrtF f rm ftz x = (f.nan, fNV) := by
  simp only [sqrtF, hx, if_neg hm.ne', if_true]

theorem sqrtF_fin (hx : f.decode (f.flush ftz x) = .fin false m e) (hm : 0 < m) :
    sqrtF f rm ftz x = f.round rm ftz false (sqrtDy (f.fw + 2) m e).1 (sqrtDy (f.fw + 2) m e).2 := by
  simp only [sqrtF, hx, if_neg hm.ne', Bool.false_eq_true, if_false]

/-- The reciprocal is delivered as the rounding of the exact one. -/
theorem Fmt.Arith.rcpF_delivers (hf : f.Arith) (hrm : rm < 4) (hx : f.decode (f.flush ftz x) = .fin neg m e) (hm : 0 < m) :
    f.Delivers rm ftz neg (1 / dyadic m e) (rcpF f rm ftz x) := by
  obtain ⟨hpos, halike⟩ := rcpDy_alike (f.fw + 2) hm e
  rw [rcpF_fin hx hm]
  exact hf.round_delivers hrm ftz neg hpos (halike.mono (by push_cast; omega))

/-- The root of a value of the format is a normal and does not overflow. -/
theorem Fmt.Arith.root_bounds (hf : f.Arith) (hx : f.decode x = .fin neg m e) (hm : 0 < m) {M p : Nat} {E : Int} (hM : 0 < M)
    (hv : Alike (leadE M E - p) (dyadic M E : ℚ) (√(dyadic m e : ℚ))) : f.emin ≤ leadE M E ∧ dyadic M E < 2 ^ (f.bias : Int) := by
  have hfw := hf.fw_pos
  have hlt := hf.fw_lt
  have hemin := f.emin_eq
  obtain ⟨-, he, hmax⟩ := hf.fin_bounds hx
  have hX : dyadic m e < 2 ^ (2 * (f.bias : Int)) :=
    (hmax.trans_lt hf.val_maxb.2).trans_le (zpow_le_zpow_right₀ one_le_two (by omega))
  have hX' : 2 ^ (2 * f.emin) ≤ dyadic m e := by
    refine (zpow_le_zpow_right₀ one_le_two ?_).trans (leadE_le_dyadic hm e)
    unfold leadE
    omega
  obtain ⟨hlo, hhi⟩ := hv.binade hM
  have h1 := exponent_lt hlo (sqrt_lt_zpow_iff.2 hX)
  have h2 := exponent_lt (zpow_le_sqrt_iff.2 hX') hhi
  exact ⟨by omega, (lt_leadE_iff hM E _).1 h1⟩

/-- The square root is the rounding of the exact one, told by squares. -/
theorem Fmt.Arith.sqrtF_rounds (hf : f.Arith) (hx : f.decode (f.flush ftz x) = .fin false m e) (hm : 0 < m) :
    ∃ k j, let r := sqrtF f rm ftz x; let v := dyadic k j
      f.decode r.1 = .fin false k j ∧ (r.2 / fNX % 2 = 1 ↔ v ^ 2 ≠ dyadic m e) ∧ r.2 / fOF % 2 = 0 ∧
      ∀ y n g, f.decode y = .fin false n g → let w := dyadic n g
        (rm = 0 → (w < v → (w + v) ^ 2 ≤ 4 * dyadic m e) ∧ (v < w → 4 * dyadic m e ≤ (v + w) ^ 2)) ∧
        (rm = 1 ∨ rm = 3 → v ^ 2 ≤ dyadic m e ∧ (w ^ 2 ≤ dyadic m e → w ≤ v)) ∧
        (rm = 2 → dyadic m e ≤ v ^ 2 ∧ (dyadic m e ≤ w ^ 2 → v ≤ w)) := by
  obtain ⟨hpos, halike⟩ := sqrtDy_alike (f.fw + 2) hm e
  rw [sqrtF_fin hx hm]
  generalize (sqrtDy (f.fw + 2) m e).1 = M at hpos halike
  generalize (sqrtDy (f.fw + 2) m e).2 = E at halike
  obtain ⟨t, n, r, nx, hgrid, hround⟩ := f.round_onGrid rm false hpos E
  obtain ⟨hnormal, hsmall⟩ := hf.root_bounds hx hm hpos halike
  have hle : ¬ f.maxb < t * 2 ^ f.fw + r := fun hlt => absurd ((hgrid.overflow hlt).trans hsmall) (not_lt.2 hf.val_maxb.1)
  have htiny : ¬ (ftz = true ∧ f.tiny rm false M E = true) := fun h => by
    have := (lt_leadE_iff hpos E _).2 (Fmt.tiny_lt hpos h.2)
    omega
  have hbin := hgrid.binade_eq hpos
  have hresult := hgrid.val_result
  have hgap := hgrid.no_value_between
  have hR := hgrid.rounded
  rw [f.round_ftz hpos, if_neg htiny, hround, if_neg hle]
  generalize hS : (2 : ℚ) ^ (t + f.emin - f.fw) = S at hresult hgap hR
  have hS0 : 0 < S := hS ▸ by positivity
  have hcmp : ∀ c : ℚ, 0 ≤ c → (∃ k : ℤ, c = k / 2) →
      (c ≤ dyadic M E / S ↔ c ^ 2 ≤ dyadic m e / S ^ 2) ∧ (dyadic M E / S ≤ c ↔ dyadic m e / S ^ 2 ≤ c ^ 2) := by
    rintro c h0 ⟨k, rfl⟩
    have hstep := halike.mono (h := t + f.emin - f.fw - 1) (by push_cast; omega)
    have h := hstep.le_root_iff (k := k) (c := k / 2 * S) (by rw [← hS, zpow_sub_one₀ two_ne_zero]; ring) (by positivity) (dyadic_nonneg m e)
    rwa [le_div_iff₀ hS0, div_le_iff₀ hS0, le_div_iff₀ (by positivity), div_le_iff₀ (by positivity), ← mul_pow]
  have hX : dyadic m e = dyadic m e / S ^ 2 * S ^ 2 := (div_mul_cancel₀ _ (by positivity)).symm
  refine ⟨_, _, hf.decode_sign_add false (not_lt.1 hle), ?_, ?_, fun y k g hy => ?_⟩
  · have hflag : (if nx = true then fNX + (if f.tiny rm false M E = true then fUF else 0) else 0) / fNX % 2 = 1 ↔ nx = true := by
      cases nx <;> cases f.tiny rm false M E <;> simp [fNX, fUF]
    have heq := hcmp r r.cast_nonneg ⟨2 * r, by push_cast; ring⟩
    rw [hflag, hR.flag_iff, show dyadic (f.sig _) (f.exp _) = r * S from hresult, ne_eq, ne_eq, le_antisymm_iff, heq.1, heq.2,
      ← le_antisymm_iff, mul_pow, eq_div_iff (by positivity)]
  · cases nx <;> cases f.tiny rm false M E <;> simp [fNX, fUF, fOF]
  · have hw : dyadic k g = f.val (y % 2 ^ f.mag) / S * S := by rw [Fmt.decode_eq_fin hy, div_mul_cancel₀ _ hS0.ne']
    have hw0 : 0 ≤ f.val (y % 2 ^ f.mag) / S := div_nonneg (dyadic_nonneg _ _) hS0.le
    rw [show dyadic (f.sig _) (f.exp _) = r * S from hresult, hw, hX]
    simp only [← add_mul, mul_pow, ← mul_assoc, mul_le_mul_iff_of_pos_right (pow_pos hS0 2), mul_le_mul_iff_of_pos_right hS0,
      mul_lt_mul_iff_of_pos_right hS0]
    exact hR.root hcmp hw0 (hgap _)

end

end Sys2Proof.Machine
end

