-- ==== Sys2Proof/Proofs/FloatIntegral.lean ====
section
/-! Results that are exact: what a format holds is delivered as it is; roundings to integral values and compares (R102, R105, R111). -/

set_option Elab.async false

namespace Sys2Proof.Machine

section
variable {f : Fmt} {rm x m : Nat} {ftz neg : Bool} {e : Int}

/-- What the format can hold is delivered without a flag; under FTZ, a zero or a normal. -/
theorem Fmt.Arith.round_exact (hf : f.Arith) (rm : Nat) (neg : Bool) (hm : m < 2 ^ (f.fw + 1)) (he : f.emin - f.fw ≤ e)
    (hmax : dyadic m e ≤ f.val f.maxb) (hnormal : ftz = true → m = 0 ∨ 2 ^ f.emin ≤ dyadic m e) :
    ∃ k j, f.decode (f.round rm ftz neg m e).1 = .fin neg k j ∧ dyadic k j = dyadic m e ∧ (f.round rm ftz neg m e).2 = 0 := by
  obtain ⟨b, hb, hval⟩ := Fmt.exists_pattern hm he hmax
  have hround : f.round rm ftz neg m e = (f.sign neg + b, 0) := by
    obtain rfl | hpos := m.eq_zero_or_pos
    · obtain rfl : b = 0 := Fmt.val_strictMono.injective (hval.trans (by rw [f.val_zero, dyadic_eq_zero]))
      rfl
    · refine Fmt.round_val hpos hb hval.symm fun hftz => (Fmt.val_strictMono (f := f)).le_iff_le.1 ?_
      rw [f.val_min_normal, hval]
      exact (hnormal hftz).resolve_left hpos.ne'
  rw [hround]
  exact ⟨_, _, hf.decode_sign_add neg hb, hval, rfl⟩

/-- A power of two within the range of the format. -/
theorem Fmt.Arith.round_two_pow (hf : f.Arith) (rm : Nat) (neg : Bool) {k : Int} (hlo : (if ftz then f.emin else f.emin - f.fw) ≤ k)
    (hhi : k ≤ f.bias) :
    ∃ a b, f.decode (f.round rm ftz neg 1 k).1 = .fin neg a b ∧ dyadic a b = 2 ^ k ∧ (f.round rm ftz neg 1 k).2 = 0 := by
  have hone : dyadic 1 k = 2 ^ k := by rw [dyadic, Nat.cast_one, one_mul]
  rw [← hone]
  refine hf.round_exact rm neg (Nat.one_lt_two_pow (Nat.succ_ne_zero _)) ?_ ?_ fun hftz => .inr ?_
  · split at hlo <;> omega
  · rw [hone]
    exact (zpow_le_zpow_right₀ one_le_two hhi).trans hf.val_maxb.1
  · rw [if_pos hftz] at hlo
    rw [hone]
    exact zpow_le_zpow_right₀ one_le_two hlo

/-- ±1. -/
theorem Fmt.Arith.round_one (hf : f.Arith) (rm : Nat) (ftz neg : Bool) : f.round rm ftz neg 1 0 = (f.sign neg + f.bias * 2 ^ f.fw, 0) := by
  have hbias : 0 < f.bias := Nat.zero_lt_of_lt hf.fw_lt
  have hval : dyadic 1 0 = f.val (f.bias * 2 ^ f.fw) := by
    rw [f.val_mul_two_pow hbias, sub_self, dyadic, Nat.cast_one, one_mul]
  refine Fmt.round_val one_pos (Fmt.val_strictMono.le_iff_le.1 (le_trans ?_ hf.val_maxb.1)) hval
    fun _ => Nat.le_mul_of_pos_left _ hbias
  rw [f.val_mul_two_pow hbias, sub_self]
  exact zpow_le_zpow_right₀ one_le_two (by omega)

/-! Roundings to integral values. -/

theorem rintF_fin (hx : f.decode (f.flush ftz x) = .fin neg m e) (nx : Bool) : rintF nx f rm ftz x =
    ((f.round 0 false neg (roundAt rm neg m e 0).1 0).1, if nx && (roundAt rm neg m e 0).2 then fNX else 0) := by
  simp only [rintF, hx]

/-- A finite value rounded to an integer stays within the format. -/
theorem Fmt.Arith.round_roundAt (hf : f.Arith) (hx : f.decode x = .fin neg m e) (rm : Nat) :
    ∃ k j, f.decode (f.round 0 false neg (roundAt rm neg m e 0).1 0).1 = .fin neg k j ∧ dyadic k j = (roundAt rm neg m e 0).1 := by
  obtain ⟨hm, he, hmax⟩ := hf.fin_bounds hx
  have hfw := hf.fw_lt
  have hemin := f.emin_eq
  obtain ⟨n, hR⟩ := roundAt_rounded rm neg m e 0
  rw [Int.sub_zero] at hR
  generalize hr : (roundAt rm neg m e 0).1 = r at hR ⊢
  have hr0 : dyadic r 0 = r := by rw [dyadic, zpow_zero, mul_one]
  have hpattern : ∃ b ≤ f.maxb, f.val b = dyadic r 0 := by
    obtain h0 | h0 := le_or_gt 0 e
    · obtain ⟨b, hb, hval⟩ := Fmt.exists_pattern hm he hmax
      refine ⟨b, hb, hval.trans ?_⟩
      rw [hr0, ← hr, roundAt, if_pos h0, dyadic, Int.sub_zero]
      push_cast
      rw [← zpow_natCast, Int.toNat_of_nonneg h0]
    · have hu : (m : ℚ) * 2 ^ e < (2 ^ f.fw : Nat) := by
        have h1 : (m : ℚ) < 2 ^ ((f.fw : Int) + 1) := by exact_mod_cast hm
        refine (mul_lt_mul_of_pos_right h1 (by positivity)).trans_le ?_
        rw [← zpow_add₀ two_ne_zero, Nat.cast_pow, Nat.cast_ofNat, ← zpow_natCast]
        exact zpow_le_zpow_right₀ one_le_two (by omega)
      have hn : n < 2 ^ f.fw := by exact_mod_cast hR.floor_le.trans_lt hu
      have hle : r ≤ 2 ^ f.fw := by obtain h | ⟨h, -⟩ := hR.pick <;> omega
      refine Fmt.exists_pattern (by rw [Nat.pow_succ]; omega) (by omega) (le_trans ?_ hf.val_maxb.1)
      rw [hr0]
      have hle' : (r : ℚ) ≤ 2 ^ (f.fw : Int) := by exact_mod_cast hle
      exact hle'.trans (zpow_le_zpow_right₀ one_le_two (by omega))
  obtain ⟨b, hb, hval⟩ := hpattern
  obtain rfl | hpos := r.eq_zero_or_pos
  · exact ⟨_, _, hf.decode_sign_add neg (Nat.zero_le _), f.val_zero.trans Nat.cast_zero.symm⟩
  · rw [Fmt.round_val hpos hb hval.symm (by simp)]
    exact ⟨_, _, hf.decode_sign_add neg hb, hval.trans hr0⟩

/-- A rounding to an integral value gives the integer of its direction, with the sign of the operand (R105). -/
theorem Fmt.Arith.rintF_rounds (hf : f.Arith) (hx : f.decode (f.flush ftz x) = .fin neg m e) (rm : Nat) (nx : Bool) :
    ∃ v k j, let r := rintF nx f rm ftz x
      IntRounds rm (signedDy neg m e) v ∧ f.decode r.1 = .fin neg k j ∧ dyadic k j = |(v : ℚ)| ∧
        r.2 = if nx = true ∧ (v : ℚ) ≠ signedDy neg m e then fNX else 0 := by
  obtain ⟨k, j, hdec, hval⟩ := hf.round_roundAt hx rm
  obtain ⟨n, hR⟩ := roundAt_rounded rm neg m e 0
  rw [Int.sub_zero, ← dyadic] at hR
  rw [rintF_fin hx]
  generalize (roundAt rm neg m e 0).1 = r at hdec hval hR ⊢
  generalize (roundAt rm neg m e 0).2 = b at hR ⊢
  have hflag : b = true ↔ ((if neg then -(r : ℤ) else r : ℤ) : ℚ) ≠ signedDy neg m e := by
    rw [hR.flag_iff]
    cases neg <;> simp [signedDy]
  refine ⟨if neg then -(r : ℤ) else r, k, j, hR.intRounds (dyadic_nonneg m e), hdec, ?_, ?_⟩
  · rw [hval]
    cases neg <;> simp
  · simp only [Bool.and_eq_true, hflag]

/-! Compares. -/

theorem FVal.cmp_fin (a b : Bool) (m n : Nat) (e k : Int) : FVal.cmp (.fin a m e) (.fin b n k) =
    if signedDy a m e < signedDy b n k then -1 else if signedDy a m e = signedDy b n k then 0 else 1 := by
  have hpos : (0 : ℚ) < 2 ^ min e k := by positivity
  have hdiff : signedDy a m e - signedDy b n k = ((finAt a m e (min e k) - finAt b n k (min e k) : Int) : ℚ) * 2 ^ min e k := by
    rw [Int.cast_sub, sub_mul, finAt_mul a m (min_le_left e k), finAt_mul b n (min_le_right e k)]
  have hcmp : FVal.cmp (.fin a m e) (.fin b n k) = if finAt a m e (min e k) - finAt b n k (min e k) < 0 then -1
      else if finAt a m e (min e k) - finAt b n k (min e k) = 0 then 0 else 1 := rfl
  rw [hcmp]
  generalize finAt a m e (min e k) - finAt b n k (min e k) = t at hdiff
  have hlt : signedDy a m e < signedDy b n k ↔ t < 0 := by
    rw [← sub_neg, hdiff, mul_neg_iff, or_iff_right fun h => absurd h.2 (not_lt.2 hpos.le), and_iff_left hpos, Int.cast_lt_zero]
  have heq : signedDy a m e = signedDy b n k ↔ t = 0 := by
    rw [← sub_eq_zero, hdiff, mul_eq_zero, or_iff_left hpos.ne', Int.cast_eq_zero]
  simp only [hlt, heq]

/-- A compare of finite operands is that of their values, and raises no flag (R111). -/
theorem cmpF_fin {y n : Nat} {neg' : Bool} {k : Int} (hx : f.decode (f.flush ftz x) = .fin neg m e)
    (hy : f.decode (f.flush ftz y) = .fin neg' n k) :
    let X := signedDy neg m e
    let Y := signedDy neg' n k
    ((cmpF 0 f ftz x y).1 = true ↔ X = Y) ∧ ((cmpF 1 f ftz x y).1 = true ↔ X ≠ Y) ∧ ((cmpF 2 f ftz x y).1 = true ↔ X < Y) ∧
      ((cmpF 3 f ftz x y).1 = true ↔ X ≤ Y) ∧ (cmpF 4 f ftz x y).1 = false ∧ ∀ c, (cmpF c f ftz x y).2 = 0 := by
  intro X Y
  have hcmp := FVal.cmp_fin neg neg' m n e k
  have hnan : ∀ (b : Bool) (i : Nat) (j : Int), (FVal.fin b i j).isNan = false := fun _ _ _ => rfl
  have hnv : ∀ (b : Bool) (i : Nat) (j : Int), (FVal.fin b i j).nv = 0 := fun _ _ _ => rfl
  simp only [cmpF, hx, hy, hcmp, hnan, hnv]
  rw [show signedDy neg m e = X from rfl, show signedDy neg' n k = Y from rfl]
  obtain h | h | h := lt_trichotomy X Y
  · simp [h, h.ne, h.le, orF]
  · simp [h, orF]
  · simp [h.not_gt, h.ne', not_le.2 h, orF]

end

end Sys2Proof.Machine
end

