-- ==== Sys2Proof/Proofs/FloatApproximations.lean ====
section
/-! The approximated functions (R104, R105; log 5): their exact cases, and that every delivery lies within its bound of the reference
value, which for FRSQRT stands for the exact result. -/

set_option Elab.async false

namespace Sys2Proof.Machine

/-! The bound. -/

/-- A pattern's value lies within `bound` ulp of an exact value (R104). -/
def Fmt.Within (f : Fmt) (bound y : Nat) (neg : Bool) (m : Nat) (e : Int) : Prop :=
  ∃ n a b, f.decode y = .fin n a b ∧ |signedDy n a b - signedDy neg m e| ≤ bound * 2 ^ f.ulpE m e

section
variable {f : Fmt} {ftz neg : Bool} {m : Nat} {e : Int}

/-- Rounding does not leave the range that holds the exact value. -/
theorem Fmt.OnGrid.le_maxb {rm t n r : Nat} {nx : Bool} {q : ℚ} (h : f.OnGrid rm neg q t n r nx) (hq : q ≤ f.val f.maxb) :
    t * 2 ^ f.fw + r ≤ f.maxb := by
  obtain rfl | ⟨rfl, hlt⟩ := h.rounded.pick
  · exact Fmt.val_strictMono.le_iff_le.1 (h.val_lower_le.trans hq)
  · rw [lt_div_iff₀ (by positivity), ← h.val_lower] at hlt
    exact Fmt.val_strictMono.lt_iff_lt.1 (hlt.trans_le hq)

/-- The nearest value lies within half an ulp. -/
theorem Fmt.Arith.nearest_within (hf : f.Arith) {bound : Nat} (hb : 0 < bound) (hm : 0 < m) (hmax : dyadic m e ≤ f.val f.maxb) :
    f.Within bound (f.round 0 false neg m e).1 neg m e := by
  obtain ⟨t, n, r, nx, hgrid, hround⟩ := f.round_onGrid 0 neg hm e
  have hle := hgrid.le_maxb hmax
  have hulp : f.ulpE m e = t + f.emin - f.fw := by rw [Fmt.ulpE, hgrid.binade_eq hm]
  have hnear := (hgrid.rounded.near rfl).1
  have hresult := hgrid.val_result
  rw [hround, if_neg (not_lt.2 hle)]
  refine ⟨neg, _, _, hf.decode_sign_add neg hle, ?_⟩
  rw [hulp]
  have hS : (0 : ℚ) < 2 ^ (t + f.emin - f.fw) := by positivity
  generalize (2 : ℚ) ^ (t + f.emin - f.fw) = S at hnear hresult hS ⊢
  have habs : |signedDy neg (f.sig (t * 2 ^ f.fw + r)) (f.exp (t * 2 ^ f.fw + r)) - signedDy neg m e| = |f.val (t * 2 ^ f.fw + r) - dyadic m e| := by
    cases neg
    · rfl
    · simp only [signedDy, if_true, neg_sub_neg]
      exact abs_sub_comm _ _
  have hdiff : f.val (t * 2 ^ f.fw + r) - dyadic m e = ((r : ℚ) - dyadic m e / S) * S := by
    rw [hresult, sub_mul, div_mul_cancel₀ _ hS.ne']
  rw [habs, hdiff, abs_mul, abs_of_pos hS]
  have hb1 : (1 : ℚ) ≤ bound := by exact_mod_cast hb
  exact mul_le_mul_of_nonneg_right (hnear.trans (by linarith)) hS.le

/-- A candidate that passes the model's test lies within the bound. -/
theorem Fmt.within_of_test {bound y a : Nat} {n : Bool} {b : Int} (hy : f.decode y = .fin n a b)
    (htest : (finAt n a b (min (min b e) (f.ulpE m e)) - finAt neg m e (min (min b e) (f.ulpE m e))).natAbs ≤
      bound * 2 ^ (f.ulpE m e - min (min b e) (f.ulpE m e)).toNat) : f.Within bound y neg m e := by
  refine ⟨n, a, b, hy, ?_⟩
  obtain ⟨q, hq⟩ : ∃ q, q = min (min b e) (f.ulpE m e) := ⟨_, rfl⟩
  rw [← hq] at htest
  rw [← finAt_mul n a (show q ≤ b by omega), ← finAt_mul neg m (show q ≤ e by omega), ← sub_mul, abs_mul,
    abs_of_pos (show (0 : ℚ) < 2 ^ q by positivity),
    show f.ulpE m e = (f.ulpE m e - q).toNat + q by omega, zpow_add₀ two_ne_zero, ← mul_assoc, zpow_natCast]
  refine mul_le_mul_of_nonneg_right ?_ (by positivity)
  rw [← Int.cast_sub, ← Int.cast_abs, ← Nat.cast_natAbs]
  exact_mod_cast htest

/-- The delivery of an approximated function: overflow, a flushed tiny value, or a value within the bound (R105). -/
theorem Fmt.Arith.approxF_cases (hf : f.Arith) {bound : Nat} (hb : 0 < bound) (fn ty x : Nat) (hm : 0 < m) :
    f.val f.maxb < dyadic m e ∧ approxF f ftz bound fn ty x neg m e = (f.inf neg, fOF + fNX) ∨
      (ftz = true ∧ f.tiny 0 neg m e = true) ∧ approxF f ftz bound fn ty x neg m e = (f.sign neg, fUF + fNX) ∨
      ∃ y, approxF f ftz bound fn ty x neg m e = (y, fNX + if f.tiny 0 neg m e then fUF else 0) ∧ f.Within bound y neg m e := by
  have hmaxb : f.decode f.maxb = .fin false (f.sig f.maxb) (f.exp f.maxb) := by
    have := hf.decode_sign_add false le_rfl
    rwa [Fmt.sign, Bool.false_and, if_neg Bool.false_ne_true, Nat.zero_add] at this
  have hcmp : 0 < (FVal.fin false m e).cmp (.fin false (f.sig f.maxb) (f.exp f.maxb)) ↔ f.val f.maxb < dyadic m e := by
    rw [FVal.cmp_fin]
    show (0 < if dyadic m e < f.val f.maxb then _ else if dyadic m e = f.val f.maxb then _ else _) ↔ _
    obtain h | h | h := lt_trichotomy (dyadic m e) (f.val f.maxb)
    · simp [h, h.not_gt]
    · simp [h]
    · simp [h, h.not_gt, h.ne']
  simp only [approxF, hmaxb, decide_eq_true_eq, hcmp]
  by_cases hovf : f.val f.maxb < dyadic m e
  · exact .inl ⟨hovf, if_pos hovf⟩
  rw [if_neg hovf]
  by_cases hflush : ftz = true ∧ f.tiny 0 neg m e = true
  · exact .inr (.inl ⟨hflush, by simp [hflush]⟩)
  rw [if_neg fun h => hflush (Bool.and_eq_true_iff.1 h).symm]
  refine .inr (.inr ⟨_, rfl, ?_⟩)
  have hnear := hf.nearest_within (neg := neg) hb hm (not_lt.1 hovf)
  generalize hy : f.decode (Config.approx fn ty x % 2 ^ (f.mag + 1)) = v
  cases v with
  | nan => exact hnear
  | inf => exact hnear
  | fin n a b =>
    dsimp only
    split
    case isTrue hok => exact Fmt.within_of_test hy (of_decide_eq_true hok)
    case isFalse => exact hnear

/-- Within the range of the normals, only NX is raised. -/
theorem Fmt.Arith.approxF_normal (hf : f.Arith) {bound : Nat} (hb : 0 < bound) (fn ty x : Nat) (hm : 0 < m) (hlo : 2 ^ f.emin ≤ dyadic m e)
    (hhi : dyadic m e ≤ f.val f.maxb) :
    ∃ y, approxF f ftz bound fn ty x neg m e = (y, fNX) ∧ f.Within bound y neg m e := by
  have htiny : ¬ f.tiny 0 neg m e = true := fun h => absurd (Fmt.tiny_lt hm h) (not_lt.2 hlo)
  obtain ⟨h, -⟩ | ⟨h, -⟩ | ⟨y, hy, hwithin⟩ := hf.approxF_cases (ftz := ftz) (neg := neg) hb fn ty x hm
  · exact absurd h (not_lt.2 hhi)
  · exact absurd h.2 htiny
  · exact ⟨y, by rw [hy, if_neg htiny]; rfl, hwithin⟩

/-- A delivery that neither overflows nor is flushed lies within the bound. -/
theorem Fmt.Arith.approxF_within (hf : f.Arith) {bound : Nat} (hb : 0 < bound) (fn ty x : Nat) (hm : 0 < m)
    (hof : (approxF f ftz bound fn ty x neg m e).2 / fOF % 2 = 0)
    (hkept : ftz = true → approxF f ftz bound fn ty x neg m e ≠ (f.sign neg, fUF + fNX)) :
    f.Within bound (approxF f ftz bound fn ty x neg m e).1 neg m e := by
  obtain ⟨-, h⟩ | ⟨⟨hftz, -⟩, h⟩ | ⟨y, hy, hwithin⟩ := hf.approxF_cases (ftz := ftz) (neg := neg) hb fn ty x hm
  · rw [h] at hof
    exact absurd hof (show ¬ (fOF + fNX) / fOF % 2 = 0 by decide)
  · exact absurd h (hkept hftz)
  · rwa [hy]

end

/-! Powers of two and whole numbers among the operands. -/

theorem pow2Of_eq_some_iff (m : Nat) (e k : Int) : pow2Of m e = some k ↔ dyadic m e = 2 ^ k := by
  have hlead : (2 : ℚ) ^ leadE m e = (2 ^ m.log2 : Nat) * 2 ^ e := by
    rw [leadE, add_comm, zpow_add₀ two_ne_zero, zpow_natCast]
    push_cast
    rfl
  have hiff : m = 2 ^ m.log2 ↔ dyadic m e = 2 ^ leadE m e := by
    rw [hlead, dyadic, mul_left_inj' (by positivity), Nat.cast_inj]
  unfold pow2Of
  constructor
  · intro h
    split at h
    · next h' => exact Option.some.inj h ▸ hiff.1 h'
    · cases h
  · intro h
    have hk : leadE m e = k := leadE_eq_of_le_of_lt h.ge (h.trans_lt (zpow_lt_zpow_right₀ one_lt_two (lt_add_one k)))
    rw [if_pos (hiff.2 (hk.symm ▸ h)), hk]

/-- A whole number is its own rounding. -/
theorem roundAt_whole (rm : Nat) (neg : Bool) {m : Nat} {e q : Int} {k : Nat} (h : (m : ℚ) * 2 ^ (e - q) = k) :
    roundAt rm neg m e q = (k, false) := by
  obtain ⟨n, hR⟩ := roundAt_rounded rm neg m e q
  rw [h] at hR
  have h1 : n ≤ k := by exact_mod_cast hR.floor_le
  have h2 : k < n + 1 := by exact_mod_cast hR.lt_succ
  obtain rfl : n = k := by omega
  exact Prod.ext (hR.pick.resolve_right fun h => lt_irrefl _ h.2) (Bool.eq_false_iff.2 fun h => hR.flag.1 h rfl)

/-- A number halfway between two whole ones is rounded inexactly. -/
theorem roundAt_half (rm : Nat) (neg : Bool) {m : Nat} {e q : Int} {k : Nat} (h : (m : ℚ) * 2 ^ (e - q) = k + 1 / 2) :
    (roundAt rm neg m e q).2 = true := by
  obtain ⟨n, hR⟩ := roundAt_rounded rm neg m e q
  rw [h] at hR
  refine hR.flag.2 fun hn => ?_
  have : 2 * n = 2 * k + 1 := by
    have : (2 * n : ℚ) = 2 * k + 1 := by linarith
    exact_mod_cast this
  omega

section
variable {f : Fmt} {ty x m : Nat} {ftz neg : Bool} {e : Int}

/-- The rounding toward zero that tells whether an operand is whole. -/
theorem roundAt_eq_of_whole {k : Nat} (h : dyadic m e = k) : roundAt 1 neg m e 0 = (k, false) :=
  roundAt_whole 1 neg (by rw [Int.sub_zero]; exact h)

theorem roundAt_of_half {k : Nat} (h : dyadic m e = k + 1 / 2) :
    (roundAt 1 neg m e 0).2 = true ∧ roundAt 1 neg m (e + 1) 0 = (2 * k + 1, false) := by
  refine ⟨roundAt_half 1 neg (k := k) (by rw [Int.sub_zero]; exact h), roundAt_whole 1 neg ?_⟩
  rw [Int.sub_zero, zpow_add_one₀ two_ne_zero, ← mul_assoc, ← dyadic, h]
  push_cast
  ring

/-! What each function does with a finite operand. -/

theorem approxFn_rsqrt_zero (hx : f.decode (f.flush ftz x) = .fin neg 0 e) : approxFn 0x24 ty f ftz x = (f.inf neg, fDZ) := by
  simp only [approxFn, hx, if_true]

theorem approxFn_rsqrt_neg (hx : f.decode (f.flush ftz x) = .fin true m e) (hm : 0 < m) : approxFn 0x24 ty f ftz x = (f.nan, fNV) := by
  simp only [approxFn, hx, if_neg hm.ne', if_true]

theorem approxFn_rsqrt_pow (hx : f.decode (f.flush ftz x) = .fin false m e) (hm : 0 < m) {k : Int} (h : pow2Of m e = some (2 * k)) :
    approxFn 0x24 ty f ftz x = f.round 0 ftz false 1 (-k) := by
  simp only [approxFn, hx, if_neg hm.ne', h, Int.mul_emod_right, if_true, Bool.false_eq_true, if_false]
  rw [Int.mul_ediv_cancel_left _ two_ne_zero]

/-- The value from which FRSQRT takes its distance: a root of a reciprocal, each to 200 bits. -/
def rsqrtRef (m : Nat) (e : Int) : Nat × Int := sqrtDy 200 (rcpDy 200 m e).1 (rcpDy 200 m e).2

theorem approxFn_rsqrt (hx : f.decode (f.flush ftz x) = .fin false m e) (hm : 0 < m) (h : ∀ k : Int, pow2Of m e ≠ some (2 * k)) :
    approxFn 0x24 ty f ftz x =
      approxF f ftz (apBound f 0x24) 0x24 ty (f.flush ftz x) false (rsqrtRef m e).1 (rsqrtRef m e).2 := by
  simp only [approxFn, hx, if_neg hm.ne', Bool.false_eq_true, if_false]
  cases hp : pow2Of m e with
  | none => rfl
  | some k =>
    have hk : ¬ k % 2 = 0 := fun hk => h (k / 2) (by rw [hp]; congr 1; omega)
    simp only [if_neg hk]
    rfl

theorem approxFn_exp2_zero (hx : f.decode (f.flush ftz x) = .fin neg 0 e) : approxFn 0x25 ty f ftz x = f.round 0 ftz false 1 0 := by
  simp only [approxFn, hx, if_true]

theorem approxFn_exp2_whole (hx : f.decode (f.flush ftz x) = .fin neg m e) (hm : 0 < m) (hlead : leadE m e ≤ 20) {k : ℤ}
    (hk : signedDy neg m e = k) (hexact : (f.round 0 false false 1 k).2 = 0) :
    approxFn 0x25 ty f ftz x = f.round 0 ftz false 1 k := by
  have habs : dyadic m e = k.natAbs := by rw [← abs_signedDy neg, hk, Nat.cast_natAbs, Int.cast_abs]
  have hsign : (if neg then -(k.natAbs : ℤ) else k.natAbs) = k := by
    have h : ((if neg then -(k.natAbs : ℤ) else k.natAbs : ℤ) : ℚ) = k := by
      rw [← hk, signedDy, habs]
      cases neg <;> simp
    exact_mod_cast h
  simp only [approxFn, hx, if_neg hm.ne', if_neg (not_lt.2 hlead), roundAt_eq_of_whole habs, hsign, hexact, Bool.not_false, and_self, if_true]

theorem approxFn_log2_zero (hx : f.decode (f.flush ftz x) = .fin neg 0 e) : approxFn 0x26 ty f ftz x = (f.inf true, fDZ) := by
  simp only [approxFn, hx, if_true]

theorem approxFn_log2_neg (hx : f.decode (f.flush ftz x) = .fin true m e) (hm : 0 < m) : approxFn 0x26 ty f ftz x = (f.nan, fNV) := by
  simp only [approxFn, hx, if_neg hm.ne', if_true]

theorem approxFn_log2_pow (hx : f.decode (f.flush ftz x) = .fin false m e) (hm : 0 < m) {k : Int} (h : pow2Of m e = some k) :
    approxFn 0x26 ty f ftz x = f.round 0 ftz (k < 0) k.natAbs 0 := by
  simp only [approxFn, hx, if_neg hm.ne', h, Bool.false_eq_true, if_false, intVal, Fmt.deliver]

theorem approxFn_sinpi_whole (hx : f.decode (f.flush ftz x) = .fin neg m e) {k : Nat} (hk : dyadic m e = k) :
    approxFn 0x27 ty f ftz x = (f.sign neg, 0) := by
  simp only [approxFn, hx, roundAt_eq_of_whole hk, Bool.not_false, if_true]

theorem approxFn_sinpi_half (hx : f.decode (f.flush ftz x) = .fin neg m e) {k : Nat} (hk : dyadic m e = k + 1 / 2) :
    approxFn 0x27 ty f ftz x = f.round 0 ftz ((k % 2 == 1) != neg) 1 0 := by
  obtain ⟨hwhole, hhalf⟩ := roundAt_of_half (neg := neg) hk
  simp only [approxFn, hx, hwhole, hhalf, Bool.not_false, Bool.not_true, Bool.false_eq_true, if_true, if_false,
    show (2 * k + 1) / 2 = k by omega]

theorem approxFn_cospi_whole (hx : f.decode (f.flush ftz x) = .fin neg m e) {k : Nat} (hk : dyadic m e = k) :
    approxFn 0x28 ty f ftz x = f.round 0 ftz (k % 2 == 1) 1 0 := by
  simp only [approxFn, hx, roundAt_eq_of_whole hk, Bool.not_false, if_true]

theorem approxFn_cospi_half (hx : f.decode (f.flush ftz x) = .fin neg m e) {k : Nat} (hk : dyadic m e = k + 1 / 2) :
    approxFn 0x28 ty f ftz x = (f.sign false, 0) := by
  obtain ⟨hwhole, hhalf⟩ := roundAt_of_half (neg := neg) hk
  simp only [approxFn, hx, hwhole, hhalf, Bool.not_false, Bool.not_true, Bool.false_eq_true, if_true, if_false]

theorem approxFn_tanh_zero (hx : f.decode (f.flush ftz x) = .fin neg 0 e) : approxFn 0x29 ty f ftz x = (f.sign neg, 0) := by
  simp only [approxFn, hx, if_true]

theorem approxFn_tanh_large (hx : f.decode (f.flush ftz x) = .fin neg m e) (h : 10 ≤ dyadic m e) :
    approxFn 0x29 ty f ftz x = f.round 0 ftz neg 1 0 := by
  have hm : m ≠ 0 := fun h0 => by rw [dyadic_eq_zero.2 h0] at h; linarith
  have hten : dyadic 10 0 = 10 := by rw [dyadic, zpow_zero, mul_one]; rfl
  have hcmp : 0 ≤ (FVal.fin false m e).cmp (.fin false 10 0) := by
    rw [FVal.cmp_fin]
    simp only [signedDy, Bool.false_eq_true, if_false, hten, if_neg (not_lt.2 h)]
    split <;> decide
  simp only [approxFn, hx, if_neg hm, if_pos hcmp]

end

/-! Where the exact cases lie in a format. -/

section
variable {f : Fmt} {ty x m : Nat} {ftz neg : Bool} {e : Int}

/-- The binade of a finite value that is not zero. -/
theorem Fmt.Arith.binade_bounds (hf : f.Arith) (hx : f.decode x = .fin neg m e) (hm : 0 < m) :
    2 ^ (f.emin - f.fw) ≤ dyadic m e ∧ dyadic m e < 2 ^ ((f.bias : Int) + 1) := by
  obtain ⟨-, he, hmax⟩ := hf.fin_bounds hx
  refine ⟨?_, hmax.trans_lt hf.val_maxb.2⟩
  refine (zpow_le_zpow_right₀ one_le_two ?_).trans (leadE_le_dyadic hm e)
  unfold leadE
  omega

/-- The exponent of a power of two that the format holds. -/
theorem Fmt.Arith.exponent_bounds (hf : f.Arith) (hx : f.decode x = .fin neg m e) {k : Int} (hk : dyadic m e = 2 ^ k) :
    f.emin - f.fw ≤ k ∧ k ≤ f.bias := by
  have hm : 0 < m := Nat.pos_of_ne_zero fun h => by
    rw [dyadic_eq_zero.2 h] at hk
    exact (zpow_ne_zero k two_ne_zero) hk.symm
  obtain ⟨hlo, hhi⟩ := hf.binade_bounds hx hm
  rw [hk] at hlo hhi
  have h1 := exponent_lt hlo (zpow_lt_zpow_right₀ one_lt_two (lt_add_one k))
  have h2 := exponent_lt le_rfl hhi
  omega

theorem pos_of_dyadic_eq_zpow {b : ℚ} (hb : 0 < b) {k : Int} (h : dyadic m e = b ^ k) : 0 < m :=
  Nat.pos_of_ne_zero fun h0 => (zpow_pos hb k).ne' (h.symm.trans (dyadic_eq_zero.2 h0))

/-- FRSQRT of 4^k is 2^−k. -/
theorem Fmt.Arith.rsqrt_pow (hf : f.Arith) (hx : f.decode (f.flush ftz x) = .fin false m e) {k : ℤ} (hk : dyadic m e = 4 ^ k) :
    ∃ a b, f.decode (approxFn 0x24 ty f ftz x).1 = .fin false a b ∧ dyadic a b = 2 ^ (-k) ∧ (approxFn 0x24 ty f ftz x).2 = 0 := by
  have hm := pos_of_dyadic_eq_zpow four_pos hk
  rw [show (4 : ℚ) = 2 ^ (2 : ℤ) by norm_num, ← zpow_mul] at hk
  obtain ⟨hlo, hhi⟩ := hf.exponent_bounds hx hk
  have hemin := f.emin_eq
  have hfw := hf.fw_lt
  have hpos := hf.fw_pos
  rw [approxFn_rsqrt_pow hx hm ((pow2Of_eq_some_iff m e _).2 hk)]
  exact hf.round_two_pow 0 false (by split <;> omega) (by omega)

/-- FLOG2 of 2^k is k. -/
theorem Fmt.Arith.log2_pow (hf : f.Arith) (hx : f.decode (f.flush ftz x) = .fin false m e) {k : ℤ} (hk : dyadic m e = 2 ^ k) :
    ∃ a b, f.decode (approxFn 0x26 ty f ftz x).1 = .fin (k < 0) a b ∧ dyadic a b = |(k : ℚ)| ∧ (approxFn 0x26 ty f ftz x).2 = 0 := by
  have hm := pos_of_dyadic_eq_zpow two_pos hk
  obtain ⟨hlo, hhi⟩ := hf.exponent_bounds hx hk
  have hemin := f.emin_eq
  have hfw := hf.fw_lt
  have hpos := hf.fw_pos
  have hrange := hf.range_le
  have habs : dyadic k.natAbs 0 = |(k : ℚ)| := by rw [dyadic, zpow_zero, mul_one, Nat.cast_natAbs, Int.cast_abs]
  rw [approxFn_log2_pow hx hm ((pow2Of_eq_some_iff m e k).2 hk), ← habs]
  have hsmall : k.natAbs < 2 ^ (f.fw + 1) := by omega
  refine hf.round_exact 0 _ hsmall (by omega) (le_trans ?_ hf.val_maxb.1) fun _ => ?_
  · have h1 : (k.natAbs : ℚ) ≤ 2 ^ ((f.fw : Int) + 1) := by exact_mod_cast hsmall.le
    rw [dyadic, zpow_zero, mul_one]
    exact h1.trans (zpow_le_zpow_right₀ one_le_two (by omega))
  · refine k.natAbs.eq_zero_or_pos.imp_right fun hpos => ?_
    have h1 : (1 : ℚ) ≤ k.natAbs := by exact_mod_cast hpos
    rw [dyadic, zpow_zero, mul_one]
    exact (zpow_le_one_of_nonpos₀ one_le_two (by omega)).trans h1

/-- FEXP2 of a whole number whose power the format holds. -/
theorem Fmt.Arith.exp2_whole (hf : f.Arith) (hx : f.decode (f.flush false x) = .fin neg m e) {k : ℤ} (hk : signedDy neg m e = k)
    {y b : Nat} {c : Int} (hy : f.decode y = .fin false b c) (hpow : dyadic b c = 2 ^ k) :
    ∃ b' c', f.decode (approxFn 0x25 ty f false x).1 = .fin false b' c' ∧ dyadic b' c' = 2 ^ k ∧ (approxFn 0x25 ty f false x).2 = 0 := by
  obtain ⟨hlo, hhi⟩ := hf.exponent_bounds hy hpow
  have hemin := f.emin_eq
  have hrange := hf.range_lt
  have hround := hf.round_two_pow (ftz := false) 0 false (by simpa using hlo) hhi
  have hexact : (f.round 0 false false 1 k).2 = 0 := by
    obtain ⟨_, _, -, -, h⟩ := hround
    exact h
  obtain rfl | hm := m.eq_zero_or_pos
  · have hk0 : k = 0 := by
      rw [signedDy_eq_zero.2 rfl] at hk
      exact_mod_cast hk.symm
    rw [approxFn_exp2_zero hx, ← hk0]
    exact hround
  · have hlead : leadE m e ≤ 20 := by
      have habs : dyadic m e = k.natAbs := by rw [← abs_signedDy neg, hk, Nat.cast_natAbs, Int.cast_abs]
      have hlt : dyadic m e < 2 ^ (21 : ℤ) := by
        rw [habs]
        exact_mod_cast (show k.natAbs < 2 ^ 21 by omega)
      have := (lt_leadE_iff hm e _).2 hlt
      omega
    rw [approxFn_exp2_whole hx hm hlead hk hexact]
    exact hround

/-! FRSQRT within 1 ulp of the exact result. -/

theorem Alike.sqrt {g h : Int} {u v : ℝ} (huv : Alike g u v) (hgh : g ≤ 2 * h) (hu : 0 ≤ u) (hv : 0 ≤ v) : Alike h √u √v := by
  intro k
  obtain hk | hk := lt_or_ge k 0
  · have hneg : (k : ℝ) * 2 ^ h < 0 := mul_neg_of_neg_of_pos (by exact_mod_cast hk) (by positivity)
    have hu' := u.sqrt_nonneg
    have hv' := v.sqrt_nonneg
    exact ⟨iff_of_true (by linarith) (by linarith), iff_of_false (by linarith) (by linarith)⟩
  · have hnonneg : (0 : ℝ) ≤ k * 2 ^ h := mul_nonneg (by exact_mod_cast hk) (by positivity)
    have hsq : ((k : ℝ) * 2 ^ h) ^ 2 = (k ^ 2 : ℤ) * 2 ^ (2 * h) := by
      rw [mul_pow, ← zpow_natCast ((2 : ℝ) ^ h), ← zpow_mul, mul_comm h]
      push_cast
      rfl
    have hmono := huv.mono hgh
    rw [Real.le_sqrt hnonneg hu, Real.le_sqrt hnonneg hv, Real.sqrt_le_left hnonneg, Real.sqrt_le_left hnonneg]
    exact ⟨hmono.le_iff _ hsq, hmono.ge_iff _ hsq⟩

/-- The reference of FRSQRT stands for the exact result. -/
theorem rsqrtRef_alike (hm : 0 < m) (e : Int) :
    0 < (rsqrtRef m e).1 ∧ Alike (leadE (rsqrtRef m e).1 (rsqrtRef m e).2 - 98) (dyadic (rsqrtRef m e).1 (rsqrtRef m e).2 : ℚ)
      (√(1 / dyadic m e : ℚ)) := by
  obtain ⟨hpos, hrcp⟩ := rcpDy_alike 200 hm e
  obtain ⟨hpos', hroot⟩ := sqrtDy_alike 200 hpos (rcpDy 200 m e).2
  unfold rsqrtRef
  refine ⟨hpos', (hroot.mono (by push_cast; omega)).trans (hrcp.sqrt ?_ ?_ ?_)⟩
  · have := exponent_lt (leadE_le_dyadic hpos (rcpDy 200 m e).2) (sqrt_lt_zpow_iff.1 (hroot.binade hpos').2)
    push_cast
    omega
  · exact_mod_cast dyadic_nonneg _ _
  · have := dyadic_nonneg m e
    positivity

/-- The reference of FRSQRT is a normal of the format's range. -/
theorem Fmt.Arith.rsqrtRef_bounds (hf : f.Arith) (hx : f.decode x = .fin neg m e) (hm : 0 < m) :
    2 ^ f.emin ≤ dyadic (rsqrtRef m e).1 (rsqrtRef m e).2 ∧ dyadic (rsqrtRef m e).1 (rsqrtRef m e).2 ≤ f.val f.maxb := by
  have hemin := f.emin_eq
  have hfw := hf.fw_lt
  have hpos := hf.fw_pos
  obtain ⟨hlo, hhi⟩ := hf.binade_bounds hx hm
  obtain ⟨hR, halike⟩ := rsqrtRef_alike hm e
  obtain ⟨hb1, hb2⟩ := halike.binade hR
  have hX : 0 < dyadic m e := lt_of_lt_of_le (by positivity) hlo
  have hlow : 2 ^ (2 * f.emin) ≤ 1 / dyadic m e := by
    rw [le_div_iff₀ hX, ← le_div_iff₀' (by positivity), one_div, ← zpow_neg]
    exact hhi.le.trans (zpow_le_zpow_right₀ one_le_two (by omega))
  have hhigh : 1 / dyadic m e < 2 ^ (2 * (f.bias : Int)) := by
    rw [div_lt_iff₀ hX, ← div_lt_iff₀' (by positivity), one_div, ← zpow_neg]
    exact (zpow_lt_zpow_right₀ one_lt_two (by omega)).trans_le hlo
  have h1 := exponent_lt (zpow_le_sqrt_iff.2 hlow) hb2
  have h2 := exponent_lt hb1 (sqrt_lt_zpow_iff.2 hhigh)
  exact ⟨not_lt.1 (mt (lt_leadE_iff hR _ _).2 (by omega)), ((lt_leadE_iff hR _ _).1 h2).le.trans hf.val_maxb.1⟩

/-- A value of the format that reaches a power of two is a multiple of the step below it. -/
theorem Fmt.Arith.eq_mul_step (hf : f.Arith) (hx : f.decode x = .fin neg m e) {l : Int} (hl : 2 ^ l ≤ dyadic m e) :
    ∃ k : ℤ, dyadic m e = k * 2 ^ (l - f.fw) := by
  have hm : 0 < m := Nat.pos_of_ne_zero fun h => absurd (hl.trans_eq (dyadic_eq_zero.2 h)) (not_le.2 (by positivity))
  have hlead := mt (lt_leadE_iff hm e l).1 (not_lt.2 hl)
  have hbits := (Nat.log2_lt hm.ne').2 (hf.fin_bounds hx).1
  unfold leadE at hlead
  obtain ⟨j, hj⟩ := Int.le.dest (show l - f.fw ≤ e by omega)
  refine ⟨m * 2 ^ j, ?_⟩
  rw [dyadic, ← hj, zpow_add₀ two_ne_zero, zpow_natCast]
  push_cast
  ring

/-- Within 1 ulp of a positive normal there are positive values alone, and they reach half its binade's power of two. -/
theorem Fmt.Arith.pos_of_within (hf : f.Arith) {y : Nat} (hm : 0 < m) (hlo : f.emin ≤ leadE m e) (h : f.Within 1 y false m e) :
    ∃ a b, f.decode y = .fin false a b ∧ 2 ^ (leadE m e - 1) ≤ dyadic a b ∧ |dyadic a b - dyadic m e| ≤ 2 ^ (leadE m e - f.fw) := by
  obtain ⟨n, a, b, hy, hdist⟩ := h
  have hpos := hf.fw_pos
  rw [Fmt.ulpE, max_eq_left hlo, Nat.cast_one, one_mul, show signedDy false m e = dyadic m e from rfl] at hdist
  have hR := leadE_le_dyadic hm e
  have hstep : (2 : ℚ) ^ (leadE m e - f.fw) ≤ 2 ^ (leadE m e - 1) := zpow_le_zpow_right₀ one_le_two (by omega)
  have hhalf : (2 : ℚ) ^ leadE m e = 2 ^ (leadE m e - 1) + 2 ^ (leadE m e - 1) := by
    rw [← mul_two, ← zpow_add_one₀ two_ne_zero, Int.sub_add_cancel]
  have hge : (2 : ℚ) ^ (leadE m e - 1) ≤ signedDy n a b := by
    have := (abs_le.1 hdist).1
    linarith
  cases n with
  | false => exact ⟨a, b, hy, hge, hdist⟩
  | true =>
    have h1 := dyadic_nonneg a b
    have h2 : (0 : ℚ) < 2 ^ (leadE m e - 1) := by positivity
    exact absurd hge (not_le.2 (by simp only [signedDy, if_true]; linarith))

/-- The binade of 1/√X, told by powers of four. -/
theorem rsqrt_binade {X : ℚ} (hX : 0 < X) {l j : ℤ} (hl : (2 : ℝ) ^ l ≤ √(1 / X : ℚ)) (hl' : √(1 / X : ℚ) < (2 : ℝ) ^ (l + 1))
    (hj : 4 ^ j * X ≤ 1) (hj' : 1 < 4 ^ (j + 1) * X) : j = l := by
  have hfour : ∀ i : ℤ, (4 : ℚ) ^ i = 2 ^ (2 * i) := fun i => by rw [zpow_mul]; norm_num
  rw [hfour, ← le_div_iff₀ hX] at hj
  rw [hfour, ← div_lt_iff₀ hX] at hj'
  have h1 := exponent_lt (zpow_le_sqrt_iff.2 hj) hl'
  have h2 := exponent_lt hl (sqrt_lt_zpow_iff.2 hj')
  omega

/-- FRSQRT lies within 1 ulp of the exact result, told by squares (R104). -/
theorem Fmt.Arith.rsqrt_within (hf : f.Arith) (hx : f.decode (f.flush ftz x) = .fin false m e) (hm : 0 < m)
    (hne : ¬ ∃ k : ℤ, dyadic m e = 4 ^ k) :
    ∃ a b, f.decode (approxFn 0x24 ty f ftz x).1 = .fin false a b ∧
      ∀ j : ℤ, 4 ^ j * dyadic m e ≤ 1 → 1 < 4 ^ (j + 1) * dyadic m e → let u : ℚ := 2 ^ (j - f.fw)
        (u ≤ dyadic a b → (dyadic a b - u) ^ 2 * dyadic m e ≤ 1) ∧ 1 ≤ (dyadic a b + u) ^ 2 * dyadic m e := by
  have hpow : ∀ k : Int, pow2Of m e ≠ some (2 * k) := fun k h =>
    hne ⟨k, by rw [(pow2Of_eq_some_iff m e _).1 h, zpow_mul]; norm_num⟩
  have hbound : apBound f 0x24 = 1 := by simp [apBound]
  have hX : 0 < dyadic m e := lt_of_lt_of_le (by positivity) (leadE_le_dyadic hm e)
  obtain ⟨hR, halike⟩ := rsqrtRef_alike hm e
  obtain ⟨hlo, hhi⟩ := hf.rsqrtRef_bounds hx hm
  rw [approxFn_rsqrt hx hm hpow, hbound]
  generalize (rsqrtRef m e).1 = M at hR halike hlo hhi ⊢
  generalize (rsqrtRef m e).2 = E at halike hlo hhi ⊢
  obtain ⟨y, hy, hwithin⟩ := hf.approxF_normal (ftz := ftz) (neg := false) one_pos 0x24 ty (f.flush ftz x) hR hlo hhi
  have hlead : f.emin ≤ leadE M E := not_lt.1 (mt (lt_leadE_iff hR E _).1 (not_lt.2 hlo))
  obtain ⟨a, b, hdec, hhalf, hdist⟩ := hf.pos_of_within hR hlead hwithin
  obtain ⟨k, hk⟩ := hf.eq_mul_step hdec hhalf
  rw [hy]
  refine ⟨a, b, hdec, fun j hj hj' => ?_⟩
  obtain ⟨hb1, hb2⟩ := halike.binade (p := 98) hR
  obtain rfl := rsqrt_binade hX hb1 hb2 hj hj'
  intro u
  have hu : u = 2 * 2 ^ (leadE M E - 1 - f.fw) := by
    rw [← zpow_one_add₀ two_ne_zero]
    show (2 : ℚ) ^ _ = _
    congr 1
    ring
  have hstep := halike.mono (h := leadE M E - 1 - f.fw) (by have := hf.fw_le; omega)
  have hu0 : 0 < u := by positivity
  have hw0 := dyadic_nonneg a b
  obtain ⟨hd1, hd2⟩ := abs_le.1 hdist
  rw [← le_div_iff₀ hX, ← div_le_iff₀ hX]
  refine ⟨fun hle => ?_, ?_⟩
  · exact (hstep.le_root_iff (k := k - 2) (by rw [hk, hu]; push_cast; ring) (by linarith) (by positivity)).1.1 (by linarith)
  · exact (hstep.le_root_iff (k := k + 2) (by rw [hk, hu]; push_cast; ring) (by linarith) (by positivity)).2.1 (by linarith)

end

end Sys2Proof.Machine
end

