-- ==== Sys2Proof/Proofs/FloatUnary.lean ====
section
/-! The unary words, the compares and FCLASS, and what they give for finite operands (R102 to R105, R111, R112). -/

set_option Elab.async false

namespace Sys2Proof.Machine

/-! The words. -/

theorem flt1Word_completes {i : Instr} {g : Fmt → Nat → Bool → Nat → Flt} {t : FTy} {d : RName} {a : Src} {s : State}
    (hi : exec i s = flt1 true (fun t => g (fmtOf t)) d a t s) (hd : dstTy t d = true) (ha : srcTy t a = true) (hc : s.CanIssue [a]) :
    let r := fun n => mapEls t (fun x _ _ => g (fmtOf t) s.rm (s.ftzT t) x) (s.srcT t a n) 0 0
    ∃ u, exec i s = .next u ∧ VecWord s u d (t == .f64) (fun n => (r n).1) (s.flagsOf fun n => (r n).2) :=
  hi ▸ flt1_completes (g := fun t => g (fmtOf t)) hd ha rfl hc

/-! A type that is not .F64 stands in single registers, and FTZ acts on it as the wave has it (R56, R97). -/

theorem dstTy_of_ne {t : FTy} (ht : t ≠ .f64) (d : RName) : dstTy t d = dst32 d := if_neg ht

theorem srcTy_of_ne {t : FTy} (ht : t ≠ .f64) (a : Src) : srcTy t a = Sys2Proof.src32 a := if_neg ht

theorem State.ftzT_of_ne {t : FTy} (ht : t ≠ .f64) (s : State) : s.ftzT t = s.ftz := by
  rw [State.ftzT, bne_iff_ne.2 ht, Bool.true_and]

/-- An approximated function excludes .F64 (R102). -/
theorem approxWord_completes {i : Instr} {fn : Nat} {t : FTy} {d : RName} {a : Src} {s : State}
    (hi : exec i s = flt1 false (fun t _ => approxFn fn (tyNum t) (fmtOf t)) d a t s) (ht : t ≠ .f64) (hd : dst32 d = true)
    (ha : Sys2Proof.src32 a = true) (hc : s.CanIssue [a]) :
    let r := fun n => mapEls t (fun x _ _ => approxFn fn (tyNum t) (fmtOf t) s.ftz x) (s.srcT t a n) 0 0
    ∃ u, exec i s = .next u ∧ VecWord s u d false (fun n => (r n).1) (s.flagsOf fun n => (r n).2) := by
  have h := flt1_completes (all := false) (g := fun t _ => approxFn fn (tyNum t) (fmtOf t)) (t := t) (d := d) (a := a)
    ((dstTy_of_ne ht d).trans hd) ((srcTy_of_ne ht a).trans ha) (bne_iff_ne.2 ht) hc
  rw [← hi, State.ftzT_of_ne ht, beq_eq_false_iff_ne.2 ht] at h
  exact h

theorem fltCmpWord_completes {i : Instr} {cc : Nat} {t : FTy} {d : RName} {a : Src} {s : State} (hi : exec i s = fltCmp cc d a t s)
    (hd : dstRTy t d = true) (ha : srcTy t a = true) (hc : s.CanIssue [a]) :
    let c := fun x y => cmpF cc (fmtOf t) (s.ftzT t) x y
    let r := fun n => mapEls t (fun x y _ => (if (c x y).1 then tyOnes t else 0, (c x y).2)) (s.dstT t d n) (s.srcT t a n) 0
    ∃ u, exec i s = .next u ∧ VecWord s u d (t == .f64) (fun n => (r n).1) (s.flagsOf fun n => (r n).2) :=
  hi ▸ fltCmp_completes hd ha hc

theorem arith_of_approximated {e : Fmt × Nat} (h : e ∈ [(fmt32, 0), (fmt16, 2), (fmtB16, 3)]) : e.1.Arith := by
  simp only [List.mem_cons, List.not_mem_nil, or_false] at h
  rcases h with rfl | rfl | rfl
  all_goals exact Fmt.arith_of_mem (by simp)

/-- Settles O9: each word is one of the shared forms; the values are those of exact results told by squares, multiples and bounds. -/
theorem floatUnaryWords : Obligations.FloatUnaryWords := by
  unfold Obligations.FloatUnaryWords
  refine ⟨fun e he d a ty s hd ha hc => ?_, fun e he d a ty s ht hd ha hc => ?_, fun e he d a ty s hd ha hc => ?_,
    fun d a ty s hd ha hc => ?_, fun f hf rm hrm ftz x neg m e hx => ?_, fun e he ftz x neg m g hx => ?_⟩
  · refine flt1Word_completes (g := e.2) ?_ hd ha hc
    simp only [List.mem_cons, List.not_mem_nil, or_false] at he
    rcases he with rfl | rfl | rfl | rfl | rfl | rfl | rfl | rfl
    all_goals rfl
  · refine approxWord_completes (fn := e.2) ?_ ht hd ha hc
    simp only [List.mem_cons, List.not_mem_nil, or_false] at he
    rcases he with rfl | rfl | rfl | rfl | rfl | rfl
    all_goals rfl
  · refine fltCmpWord_completes (cc := e.2) ?_ hd ha hc
    simp only [List.mem_cons, List.not_mem_nil, or_false] at he
    rcases he with rfl | rfl | rfl | rfl | rfl
    all_goals rfl
  · rw [exec_fclass, execFclass]
    exact vecForm_completes (Bool.and_eq_true_iff.2 ⟨hd, ha⟩) hc (wideOk_false d)
  · have hf := Fmt.arith_of_mem hf
    refine ⟨?_, hf.rcpF_delivers hrm hx, ?_, ?_, hf.rintF_rounds hx rm, fun y ny my ey hy => cmpF_fin hx hy⟩
    · rintro rfl
      exact ⟨rcpF_zero hx, sqrtF_zero hx⟩
    · rintro hm rfl
      exact sqrtF_neg hx hm
    · rintro hm rfl
      exact hf.sqrtF_rounds hx hm
  · have hf := arith_of_approximated he
    refine ⟨?_, ?_, ?_, ?_, ?_, fun k => ⟨fun hk => ⟨approxFn_sinpi_whole hx hk, ?_⟩, fun hk => ⟨?_, approxFn_cospi_half hx hk⟩⟩,
      fun h => ?_, ?_, fun bound fn ty neg' k j hb hk hof hkept => hf.approxF_within hb fn ty x hk hof hkept⟩
    · rintro rfl
      have hzero : dyadic 0 g = (0 : Nat) := by rw [dyadic_eq_zero.2 rfl, Nat.cast_zero]
      exact ⟨approxFn_rsqrt_zero hx, (approxFn_exp2_zero hx).trans (hf.round_one ..), approxFn_log2_zero hx, approxFn_sinpi_whole hx hzero,
        (approxFn_cospi_whole hx hzero).trans (hf.round_one ..), approxFn_tanh_zero hx⟩
    · rintro hm rfl
      exact ⟨approxFn_rsqrt_neg hx hm, approxFn_log2_neg hx hm⟩
    · rintro k rfl hk
      exact hf.rsqrt_pow hx hk
    · rintro k rfl hk
      exact hf.log2_pow hx hk
    · rintro k y b c hk rfl hy hpow
      exact hf.exp2_whole hx hk hy hpow
    · exact (approxFn_cospi_whole hx hk).trans (hf.round_one ..)
    · exact (approxFn_sinpi_half hx hk).trans (hf.round_one ..)
    · exact (approxFn_tanh_large hx h).trans (hf.round_one ..)
    · rintro hm rfl hne
      exact hf.rsqrt_within hx hm hne

end Sys2Proof.Machine
end

