-- ==== Sys2Proof/Proofs/PreciseTraps.lean ====
section
/-! Long-latency words that fail a precise check: the trap that ranks first, and its lanes (R44, R115). -/

set_option Elab.async false

namespace Sys2Proof.Machine

/-- The effect of a long-latency word that nothing holds back, when it goes on its way. -/
theorem issueLong_done {ok writes onL rel : Bool} {srcs : List Src} {f : Nat → State → Res} {s t : State} {sel : Nat} (hok : ok = true)
    (hs : s.CanSend srcs writes onL rel sel) (hf : f sel s = .done t) : issueLong ok writes onL rel srcs f s = .next (t.count s) := by
  obtain ⟨c, hc, -⟩ := CanIssue_clause hs.issue
  obtain rfl := hs.named c hc
  exact issueLong_eq hok hs.issue hc hs.flagged hs.room hs.free hs.acked hf

/-- The effect of a long-latency word that nothing holds back, when it traps. -/
theorem issueLong_traps {ok writes onL rel : Bool} {srcs : List Src} {f : Nat → State → Res} {s : State} {t : Trap} {sel : Nat}
    (hok : ok = true) (hs : s.CanSend srcs writes onL rel sel) (hf : f sel s = .trap t) :
    issueLong ok writes onL rel srcs f s = .next (s.trapP t) := by
  obtain ⟨c, hc, hb⟩ := CanIssue_clause hs.issue
  obtain rfl := hs.named c hc
  have hw : (writes && c.sel == 15) = false := by
    cases writes <;> simp [hs.flagged]
  have hfull : (decide (c.sel < 12) && decide (63 ≤ s.cw.flags.get c.sel 0)) = false := by
    by_cases h : c.sel < 12
    · simp [Nat.not_le.2 (hs.room h)]
    · simp [h]
  have hheld : (onL && s.held s.cp) = false := by
    cases onL <;> simp [hs.free]
  have hacked : (rel && s.unacked s.cur.core s.cur.slot != 0) = false := by
    cases rel <;> simp [hs.acked]
  simp [issueLong, enter, hc, hok, hb, hw, hfull, hheld, hacked, hf]

/-! The failure that ranks first. -/

theorem Chk.code_eq_some {k : Chk} {c : Nat} : k.code = some c ↔ k = .trap c := by
  cases k <;> simp [Chk.code]

/-- The first failure is the least code. -/
theorem firstTrap_eq_min? (ts : List Try) : firstTrap ts = (ts.filterMap fun t => t.chk.code).min? := by
  induction ts using List.reverseRecOn with
  | nil => rfl
  | append_singleton l t ih =>
    unfold firstTrap at ih ⊢
    rw [List.foldl_concat, ih, List.filterMap_append]
    cases h : t.chk.code with
    | none => cases l.filterMap fun t => t.chk.code <;> simp [h]
    | some c =>
      cases l.filterMap fun t => t.chk.code with
      | nil => simp [h]
      | cons a as =>
        have hone : [t].filterMap (fun t => t.chk.code) = [c] := by simp [h]
        rw [hone, List.cons_append, List.min?_cons', List.min?_cons', List.foldl_concat]
        exact congrArg some (Nat.min_comm ..)

theorem firstTrap_eq_some {ts : List Try} {c : Nat} :
    firstTrap ts = some c ↔ (∃ t ∈ ts, t.chk = .trap c) ∧ ∀ t ∈ ts, ∀ c', t.chk = .trap c' → c ≤ c' := by
  rw [firstTrap_eq_min?, List.min?_eq_some_iff]
  simp only [List.mem_filterMap, Chk.code_eq_some]
  exact and_congr_right fun _ => ⟨fun h t ht c' hc => h c' ⟨t, ht, hc⟩, fun h c' ⟨t, ht, hc⟩ => h t ht c' hc⟩

/-- A word one of whose accesses fails a precise check takes the trap of the first failure. -/
theorem sendWord_traps {s : State} {flag c : Nat} {ts : List Try} {write : Bool} {op : MemOp} {mk : Try → Nat → W64 → Acc}
    (h : firstTrap ts = some c) : s.sendWord flag ts write op mk = .trap (s.accessTrap ts c) := by
  rw [State.sendWord, h]

/-- The owner tables turn no access into a failed one, nor a failed one into another. -/
theorem ownRoom_failed (core c : Nat) (ts : List Try) (s : State) :
    (s.ownRoom core ts).filter (fun t => t.chk.code == some c) = ts.filter fun t => t.chk.code == some c := by
  induction ts generalizing s with
  | nil => rfl
  | cons t r ih =>
    unfold State.ownRoom
    split
    · next pa leaf h =>
      have hok : t.chk.code = none := by rw [h]; rfl
      split
      · rw [List.filter_cons_of_neg (by simp [Chk.code]), List.filter_cons_of_neg (by simp [hok]), ih]
      · rw [List.filter_cons_of_neg (by simp [hok]), List.filter_cons_of_neg (by simp [hok]), ih]
    · simp only [List.filter_cons, ih]

theorem mem_ownRoom_failed {core c : Nat} {ts : List Try} {s : State} {t : Try} :
    t ∈ s.ownRoom core ts ∧ t.chk = .trap c ↔ t ∈ ts ∧ t.chk = .trap c := by
  have h := congrArg (t ∈ ·) (ownRoom_failed core c ts s)
  simpa only [List.mem_filter, beq_iff_eq, Chk.code_eq_some, eq_iff_iff] using h

theorem firstTrap_ownRoom {core c : Nat} {ts : List Try} {s : State} : firstTrap (s.ownRoom core ts) = some c ↔ firstTrap ts = some c := by
  simp only [firstTrap_eq_some]
  refine and_congr (exists_congr fun t => mem_ownRoom_failed) (forall_congr' fun t => ?_)
  have h := fun c' => mem_ownRoom_failed (core := core) (c := c') (ts := ts) (s := s) (t := t)
  exact ⟨fun g ht c' hc => g ((h c').2 ⟨ht, hc⟩).1 c' hc, fun g ht c' hc => g ((h c').1 ⟨ht, hc⟩).1 c' hc⟩

theorem accessTrap_ownRoom (s u : State) (core c : Nat) (ts : List Try) : s.accessTrap (u.ownRoom core ts) c = s.accessTrap ts c := by
  simp only [State.accessTrap, ownRoom_failed]

/-! One access for each executing lane. -/

/-- The lane that stands first among those with a property. -/
theorem find?_lanesOf {m : Lanes} {p : Nat → Bool} {n : Nat} (hn : n ∈ lanesOf m) (hp : p n = true)
    (hlow : ∀ k ∈ lanesOf m, p k = true → n ≤ k) : (lanesOf m).find? p = some n := by
  have h32 := (mem_lanesOf m n).1 hn
  rw [lanesOf, List.find?_filter, List.find?_range_eq_some]
  refine ⟨by simp [h32.2, hp], List.mem_range.2 h32.1, fun k hk => ?_⟩
  by_contra h
  simp only [Bool.not_eq_true, Bool.not_eq_false', decide_eq_true_eq] at h
  have := hlow k ((mem_lanesOf m k).2 ⟨by omega, by simp_all⟩) (by simp_all)
  omega

section
variable {s : State} {T : Nat → Try} {c : Nat} (hl : ∀ n, (T n).lanes = laneBit n)

/-- The first failure of a word is the least code of its executing lanes. -/
theorem firstTrap_lanes {n : Nat} (hn : s.runs n) (hc : (T n).chk = .trap c) (hmin : ∀ k c', s.runs k → (T k).chk = .trap c' → c ≤ c') :
    firstTrap ((lanesOf s.memb).map T) = some c := by
  rw [firstTrap_eq_some]
  refine ⟨⟨T n, List.mem_map_of_mem ((s.runs_iff n).2 hn), hc⟩, fun t ht c' hc' => ?_⟩
  obtain ⟨k, hk, rfl⟩ := List.mem_map.1 ht
  exact hmin k c' ((s.runs_iff k).1 hk) hc'

include hl in
/-- EMASK holds exactly the executing lanes with the failure. -/
theorem accessTrap_emask {k : Nat} (hk : k < 32) : (s.accessTrap ((lanesOf s.memb).map T) c).emask.getLsbD k =
    (s.memb.getLsbD k && (T k).chk == .trap c) := by
  unfold State.accessTrap State.trapHere
  dsimp only
  rw [foldl_or_getLsbD, List.any_filter, List.any_map, show (0 : Lanes).getLsbD k = false from BitVec.getLsbD_zero, Bool.false_or,
    Bool.eq_iff_iff, List.any_eq_true]
  simp only [Function.comp, hl, laneBit_getLsbD hk, Bool.and_eq_true, beq_iff_eq, Chk.code_eq_some, decide_eq_true_eq, mem_lanesOf]
  constructor
  · rintro ⟨n, ⟨-, hm⟩, hc, rfl⟩
    exact ⟨hm, hc⟩
  · rintro ⟨hm, hc⟩
    exact ⟨k, ⟨hk, hm⟩, hc, rfl⟩

/-- EADDR holds the address of the lowest lane with the failure. -/
theorem accessTrap_eaddr {n : Nat} (hn : s.runs n) (hc : (T n).chk = .trap c) (hlow : ∀ k, s.runs k → (T k).chk = .trap c → n ≤ k) :
    (s.accessTrap ((lanesOf s.memb).map T) c).eaddr = (T n).va := by
  have hfind : (lanesOf s.memb).find? (fun k => (T k).chk.code == some c) = some n := by
    refine find?_lanesOf ((s.runs_iff n).2 hn) (by simp [Chk.code_eq_some, hc]) fun k hk h => ?_
    exact hlow k ((s.runs_iff k).1 hk) (by simpa [Chk.code_eq_some] using h)
  unfold State.accessTrap State.trapHere
  dsimp only
  rw [List.head?_filter, List.find?_map, Function.comp_def, hfind]
  rfl

end

end Sys2Proof.Machine
end

