-- ==== Sys2Proof/Proofs/MemoryWords.lean ====
section
/-! Memory words that send one access for each executing lane, or one for the word (R114 to R130, R135, R141). -/

set_option Elab.async false

namespace Sys2Proof.Machine

/-! A word of one access for each executing lane, whatever its checks are. -/

section
variable {ok writes onL rel : Bool} {srcs : List Src} {s : State} {sel : Nat} {T : Nat → Try} {write : Bool} {op : MemOp}
  {mk : Try → Nat → W64 → Acc} {f : Nat → State → Res} (hok : ok = true) (hs : s.CanSend srcs writes onL rel sel)

include hok hs

/-- When every lane's access passes, one operation is sent with them all (R30, R115). -/
theorem issueLong_sendsLanes {at' : Nat → Nat × Nat} (hl : ∀ n, (T n).lanes = laneBit n) (hm : s.memb ≠ 0)
    (hf : f sel s = s.sendWord sel ((lanesOf s.memb).map T) write op mk) (hc : ∀ n, s.runs n → (T n).chk = .ok (at' n).1 (at' n).2) :
    ∃ u, issueLong ok writes onL rel srcs f s = .next u ∧ SentOp s u sel (if op.acq then [s.nextId] else [])
      (s.opOf sel ((lanesOf s.memb).map fun n => mk (T n) (at' n).1 (BitVec.ofNat 64 (at' n).2)) op) := by
  have hpass : ∀ n, s.runs n → (T n).chk.isOk = true := fun n hn => by rw [hc n hn]; rfl
  have hall : ∀ t ∈ (lanesOf s.memb).map T, t.chk.isOk = true := by
    intro t ht
    obtain ⟨n, hn, rfl⟩ := List.mem_map.1 ht
    exact hpass n ((s.runs_iff n).1 hn)
  obtain ⟨u, hu, hsent⟩ := sendWord_sends (flag := sel) (write := write) (op := op) (mk := mk) hall (lanesWith_tries hl hpass) hm
  rw [sentAccs_lanes fun n hn => hc n ((s.runs_iff n).1 hn)] at hsent
  exact ⟨_, issueLong_done hok hs (hf.trans hu), hsent⟩

/-- When some lane's access fails a precise check, the word takes the trap of the failure that ranks first (R115). -/
theorem issueLong_trapsLanes {n c : Nat} (hf : f sel s = s.sendWord sel ((lanesOf s.memb).map T) write op mk) (hn : s.runs n)
    (hc : (T n).chk = .trap c) (hmin : ∀ k c', s.runs k → (T k).chk = .trap c' → c ≤ c') :
    issueLong ok writes onL rel srcs f s = .next (s.trapP (s.accessTrap ((lanesOf s.memb).map T) c)) :=
  issueLong_traps hok hs (hf.trans (sendWord_traps (firstTrap_lanes hn hc hmin)))

end

/-! Loads, stores and atomics. -/

/-- Settles O27: each word is the load or the store of its size. -/
theorem vectorLoadStoreWords : Obligations.VectorLoadStoreWords := by
  refine ⟨fun e he t b o r sc h s sel at' ht hb ho hs hr => ?_, fun e he t b o r sc h s sel at' ht hb ho hs hr => ?_⟩ <;>
    simp only [List.mem_cons, List.not_mem_nil, or_false] at he
  · obtain rfl | rfl | rfl | rfl | rfl | rfl := he <;> exact loadV_sends ht hb ho hs hr
  · obtain rfl | rfl | rfl | rfl := he <;> exact storeV_sends ht hb ho hs hr

/-- Settles O28: each word is the scalar load or store of its size. -/
theorem scalarLoadStoreWords : Obligations.ScalarLoadStoreWords := by
  intro t b o r sc h s sel pa leaf hb hm
  refine ⟨fun e he ht ho hs hr => ?_, fun e he ht ho hs hr => ?_⟩ <;>
    simp only [List.mem_cons, List.not_mem_nil, or_false] at he
  · obtain rfl | rfl := he <;> exact loadS_sends ht hb ho hm hs hr
  · obtain rfl | rfl := he <;> exact storeS_sends ht hb ho hm hs hr

/-- Settles O29: each word is the atomic of its size and code. -/
theorem atomicWords : Obligations.AtomicWords := by
  intro e he t b r sc h s sel at' ht hb hs word hr
  simp only [List.mem_cons, List.not_mem_nil, or_false] at he
  obtain rfl | rfl | rfl | rfl | rfl | rfl | rfl | rfl | rfl | rfl | rfl | rfl | rfl | rfl | rfl | rfl | rfl | rfl | rfl | rfl := he <;>
    exact atomic_sends ht hb hs hr

/-- An issue ends in the precise trap of code `c` at an address, for exactly the executing lanes that fail (R115). -/
def State.TrapsWith (s : State) (o : Out) (c : Nat) (addr : W64) (fails : Nat → Bool) : Prop :=
  ∃ tr, o = .next (s.trapP tr) ∧ tr.code = c ∧ tr.eaddr = addr ∧ tr.epc = s.cp.pc ∧
    ∀ k < 32, tr.emask.getLsbD k = (s.memb.getLsbD k && fails k)

/-- A vector word one of whose accesses fails takes the trap of the failure that ranks first, at the lowest lane with it. -/
theorem issueLong_trapsTries {ok writes onL rel : Bool} {srcs : List Src} {s : State} {sel : Nat} {va : Nat → W64} {k : Want}
    {write : Bool} {op : MemOp} {mk : Try → Nat → W64 → Acc} {f : Nat → State → Res} (hok : ok = true)
    (hs : s.CanSend srcs writes onL rel sel) (hf : f sel s = s.sendWord sel (s.tries va k) write op mk) {n c : Nat} (hn : s.runs n)
    (hc : s.check s.cur.core s.cg (va n) k = .trap c)
    (hmin : ∀ j c', s.runs j → s.check s.cur.core s.cg (va j) k = .trap c' → c ≤ c' ∧ (c' = c → n ≤ j)) :
    s.TrapsWith (issueLong ok writes onL rel srcs f s) c (va n) fun j => s.check s.cur.core s.cg (va j) k == .trap c := by
  let T : Nat → Try := fun n => { lane := n, lanes := laneBit n, va := va n, chk := s.check s.cur.core s.cg (va n) k }
  have hfirst : firstTrap (s.tries va k) = some c :=
    firstTrap_ownRoom.2 (firstTrap_lanes (T := T) hn hc fun j c' hj hc' => (hmin j c' hj hc').1)
  have htrap : s.accessTrap (s.tries va k) c = s.accessTrap ((lanesOf s.memb).map T) c := accessTrap_ownRoom ..
  refine ⟨_, issueLong_traps hok hs (hf.trans (sendWord_traps hfirst)), rfl, ?_, rfl, fun j hj => ?_⟩
  · rw [htrap]
    exact accessTrap_eaddr hn hc fun j hj hc' => (hmin j c hj hc').2 rfl
  · rw [htrap]
    exact accessTrap_emask (fun _ => rfl) hj

section
variable {size : Nat} {t b : RName} {o : BitVec 4} {r : Ord} {sc : Scope} {h : Hint} {s : State} {sel n c : Nat}

theorem loadV_traps {signed : Bool} (ht : (if size = 8 then ldst64 t else ldst t) = true) (hb : vaddr b = true) (ho : loadOrd r = true)
    (hs : s.CanSend [] true true false sel) (hn : s.runs n)
    (hc : s.check s.cur.core s.cg (s.cw.readV64 b.toNat n + BitVec.ofInt 64 (o.toInt * size)) { size := size } = .trap c)
    (hmin : ∀ k c', s.runs k →
      s.check s.cur.core s.cg (s.cw.readV64 b.toNat k + BitVec.ofInt 64 (o.toInt * size)) { size := size } = .trap c' →
      c ≤ c' ∧ (c' = c → n ≤ k)) :
    s.TrapsWith (loadV size signed t b o r sc h s) c (s.cw.readV64 b.toNat n + BitVec.ofInt 64 (o.toInt * size)) fun k =>
      s.check s.cur.core s.cg (s.cw.readV64 b.toNat k + BitVec.ofInt 64 (o.toInt * size)) { size := size } == .trap c := by
  simp only [loadV, fmAddr_eq]
  exact issueLong_trapsTries (by rw [ht, hb, ho]; rfl) hs rfl hn hc hmin

theorem storeV_traps (ht : (if size = 8 then stsrc64 t else vname t) = true) (hb : vaddr b = true) (ho : storeOrd r = true)
    (hs : s.CanSend [] false true (isRel r) sel) (hn : s.runs n)
    (hc : s.check s.cur.core s.cg (s.cw.readV64 b.toNat n + BitVec.ofInt 64 (o.toInt * size)) { size := size, write := true } = .trap c)
    (hmin : ∀ k c', s.runs k →
      s.check s.cur.core s.cg (s.cw.readV64 b.toNat k + BitVec.ofInt 64 (o.toInt * size)) { size := size, write := true } = .trap c' →
      c ≤ c' ∧ (c' = c → n ≤ k)) :
    s.TrapsWith (storeV size t b o r sc h s) c (s.cw.readV64 b.toNat n + BitVec.ofInt 64 (o.toInt * size)) fun k =>
      s.check s.cur.core s.cg (s.cw.readV64 b.toNat k + BitVec.ofInt 64 (o.toInt * size)) { size := size, write := true } == .trap c := by
  simp only [storeV, fmAddr_eq]
  exact issueLong_trapsTries (by rw [ht, hb, ho]; rfl) hs rfl hn hc hmin

end

/-- Settles O32: the lanes' checks of each load and store are those of its size. -/
theorem accessTraps : Obligations.AccessTraps := by
  intro e he t b o r sc h s sel ht hb ho hs _ _ n c hn hc hmin
  simp only [List.mem_cons, List.not_mem_nil, or_false] at he
  obtain rfl | rfl | rfl | rfl | rfl | rfl | he := he
  iterate 6 exact loadV_traps ht hb ho hs hn hc hmin
  obtain rfl | rfl | rfl | rfl := he <;> exact storeV_traps ht hb ho hs hn hc hmin

end Sys2Proof.Machine
end

