-- ==== Sys2Proof/Proofs/VersionWords.lean ====
section
/-! Version words, VFLOOR, and the words of the scratchpad and the constant space (R129, R130, R135, R141). -/

set_option Elab.async false

namespace Sys2Proof.Machine

/-! VFLOOR (R141). -/

@[simp] theorem Wave.raise_paths (w : Wave) (f : Nat) : (w.raise f).paths = w.paths := by
  unfold Wave.raise
  split <;> rfl

@[simp] theorem Wave.raise_skid (w : Wave) (f : Nat) : (w.raise f).skid = w.skid := by
  unfold Wave.raise
  split <;> rfl

theorem Wave.raise_rest (w : Wave) (f : Nat) : { w.raise f with flags := w.flags } = w := by
  unfold Wave.raise
  split <;> rfl

theorem Wave.raise_flags (w : Wave) (f k : Nat) : (w.raise f).flags.get k 0 = w.flags.get k 0 + if k = f ∧ k < 12 then 1 else 0 := by
  unfold Wave.raise
  split
  · next h =>
    rw [FMap.get_upd]
    by_cases hk : k = f <;> simp [hk, h]
  · next h =>
    rw [if_neg]
    · rfl
    · rintro ⟨rfl, hk⟩
      exact h hk

/-- Counting a word that has issued changes its wave alone. -/
theorem State.count_rest (t s : State) : { t.count s with waves := t.waves } = t := by
  unfold State.count
  split <;> rfl

/-- The issuing wave past its word with its flag raised, memory and the other waves as they were: the word, counted, has issued. -/
theorem sentWord_of_cw {s u : State} {sel : Nat} {hold : List Nat} (hcur : u.cur = s.cur) (hmem : u.mem = s.mem)
    (hne : ∀ k, k ≠ s.ck → u.wave k = s.wave k)
    (hcw : u.cw = (s.cw.modPath fun p => { p.past true with hold := hold ++ p.hold }).raise sel) : SentWord s (u.count s) sel hold := by
  have hck : u.ck = s.ck := by rw [State.ck, hcur, State.ck]
  have hcount : (u.count s).cw = { u.cw with skid := u.cw.skid + if s.cg.phase = .halting then 1 else 0 } := by
    unfold State.count
    split
    · rw [State.cw_modCw]
    · rfl
  rw [hcw] at hcount
  refine ⟨fun k hk => ?_, (State.count_mem ..).trans hmem, ?_, ?_, fun f => ?_, ?_⟩
  · rw [← hne k hk]
    unfold State.count
    split
    · exact State.wave_modCw_ne u _ k (hck ▸ hk)
    · rfl
  · rw [hcount]
    exact Wave.raise_paths ..
  · rw [hcount]
    exact congrArg (· + _) (Wave.raise_skid ..)
  · rw [hcount]
    exact Wave.raise_flags ..
  · rw [hcount]
    exact congrArg (fun w : Wave => { w with paths := s.cw.paths, skid := s.cw.skid }) (Wave.raise_rest _ sel)

/-- One operation more, with the word's flag raised and its path past it: the word is sent. -/
theorem sentOp_raise (s : State) (sel : Nat) (o : MemOp) :
    SentOp s (({ (s.past true).modCw (fun w => w.raise sel) with ops := s.ops ++ [o], nextId := s.nextId + 1 } : State).count s) sel [] o := by
  have hrest := State.count_rest { (s.past true).modCw (fun w => w.raise sel) with ops := s.ops ++ [o], nextId := s.nextId + 1 } s
  have hpast : (s.past true).modCw (fun w => w.raise sel) = s.modCw fun w => (w.modPath fun p => p.past true).raise sel := State.modCw_modCw ..
  have hcw := s.cw_modCw fun w => (w.modPath fun p => p.past true).raise sel
  have hne := s.wave_modCw_ne fun w => (w.modPath fun p => p.past true).raise sel
  rw [hpast] at hrest ⊢
  exact ⟨sentWord_of_cw rfl rfl hne hcw, (congrArg State.ops hrest :), (congrArg State.nextId hrest :)⟩

section
variable {a b : Src} {s : State} {sel : Nat} (ha : scaLit a = true) (hb : ssrc32 b = true) (hs : s.CanSend [b] false false false sel)

include ha hb hs

/-- On an armed region VFLOOR sends one operation that every home slice of the region has still to apply. -/
theorem execVfloor_sends (hn : (s.src32 a 0).toNat < 64) (harmed : (s.regions.get (64 * s.cg.ctx + (s.src32 a 0).toNat) {}).armed = true) :
    ∃ u o, execVfloor a b s = .next u ∧ SentOp s u sel [] o ∧ o.kind = .vfloor ∧ o.region = 64 * s.cg.ctx + (s.src32 a 0).toNat ∧
      o.fn = (s.src32 b 0).toNat ∧ o.pendSl = (s.regions.get (64 * s.cg.ctx + (s.src32 a 0).toNat) {}).floors.map (·.1) ∧ o.flag = sel ∧
      o.id = s.nextId := by
  have h : ¬ (63 < (s.src32 a 0).toNat ∨ !(s.regions.get (64 * s.cg.ctx + (s.src32 a 0).toNat) {}).armed) := by
    rw [harmed]
    simp only [Bool.not_true, Bool.false_eq_true, or_false]
    omega
  unfold execVfloor
  refine ⟨_, _, issueLong_done (by rw [ha, hb]; rfl) hs (if_neg h), sentOp_raise s sel _, ?_⟩
  exact ⟨rfl, rfl, rfl, rfl, rfl, rfl⟩

theorem execVfloor_traps (h : 63 < (s.src32 a 0).toNat ∨ (s.regions.get (64 * s.cg.ctx + (s.src32 a 0).toNat) {}).armed = false) :
    execVfloor a b s = .next (s.trapP (s.trapHere 0x13 0 s.memb)) := by
  unfold execVfloor
  exact issueLong_traps (by rw [ha, hb]; rfl) hs (if_pos (by simpa using h))

end

/-- Settles O30: VLD and VST by the lanes' accesses, VFLOOR by whether its region is armed. -/
theorem versionWords : Obligations.VersionWords := by
  refine ⟨fun e he d a b r s sel at' hd ha hb ho hs hr => ?_, fun a b s sel ha hb hs => ⟨fun h => ?_, fun h => ?_⟩⟩
  · simp only [List.mem_cons, List.not_mem_nil, or_false] at he
    obtain rfl | rfl | rfl := he <;> exact versionWord_sends (by rw [hd, ha, hb]; exact ho) hs hr
  · exact execVfloor_sends ha hb hs h.1 h.2
  · exact execVfloor_traps ha hb hs h

end Sys2Proof.Machine
end

