-- ==== Sys2Proof/Proofs/ScratchpadWords.lean ====
section
/-! The words of the scratchpad and of the constant space (R24, R129, R130). -/

set_option Elab.async false

namespace Sys2Proof.Machine

/-! The scratchpad (R129). -/

/-- The access of one lane to the scratchpad, with its checks. -/
def State.spTry (s : State) (a b : Src) (n : Nat) : Try :=
  let x := s.src32 a n + s.src32 b n
  { lane := n, lanes := laneBit n, va := x.setWidth 64
    chk := if x.toNat % 4 ≠ 0 then .trap 4 else if s.cg.spsize ≤ x.toNat then .trap 0x0A else .ok x.toNat 0 }

theorem spTries_eq (s : State) (a b : Src) : s.spTries a b = (lanesOf s.memb).map (s.spTry a b) := rfl

section
variable {s : State} {a b : Src} {n : Nat}

theorem spTry_misaligned : (s.spTry a b n).chk = .trap 4 ↔ (s.src32 a n + s.src32 b n).toNat % 4 ≠ 0 := by
  unfold State.spTry
  dsimp only
  split
  · simp_all
  · split <;> simp_all

theorem spTry_beyond (h : (s.src32 a n + s.src32 b n).toNat % 4 = 0) :
    (s.spTry a b n).chk = .trap 0x0A ↔ s.cg.spsize ≤ (s.src32 a n + s.src32 b n).toNat := by
  unfold State.spTry
  dsimp only
  rw [if_neg (not_not_intro h)]
  split <;> simp_all

theorem spTry_ok (h : (s.src32 a n + s.src32 b n).toNat % 4 = 0) (hlt : (s.src32 a n + s.src32 b n).toNat < s.cg.spsize) :
    (s.spTry a b n).chk = .ok (s.src32 a n + s.src32 b n).toNat 0 := by
  unfold State.spTry
  dsimp only
  rw [if_neg (not_not_intro h), if_neg (Nat.not_le.2 hlt)]

theorem spTry_code {c : Nat} (h : (s.spTry a b n).chk = .trap c) : c = 4 ∨ c = 0x0A := by
  unfold State.spTry at h
  dsimp only at h
  split at h
  · exact .inl (Chk.trap.inj h).symm
  · split at h
    · exact .inr (Chk.trap.inj h).symm
    · exact nomatch h

end

section
variable {ok writes onL rel : Bool} {srcs : List Src} {s : State} {sel : Nat} {a b : Src} {write : Bool} {op : MemOp}
  {mk : Try → Nat → W64 → Acc} {f : Nat → State → Res} (hok : ok = true) (hs : s.CanSend srcs writes onL rel sel)
  (hf : f sel s = s.sendWord sel (s.spTries a b) write op mk)

include hok hs hf

/-- An offset that is no multiple of 4 traps first, in exactly the lanes with such an offset. -/
theorem spTries_trapsMisaligned (h : ∃ n, s.runs n ∧ (s.src32 a n + s.src32 b n).toNat % 4 ≠ 0) :
    ∃ tr, issueLong ok writes onL rel srcs f s = .next (s.trapP tr) ∧ tr.code = 4 ∧ tr.epc = s.cp.pc ∧
      ∀ n < 32, tr.emask.getLsbD n = (s.memb.getLsbD n && (s.src32 a n + s.src32 b n).toNat % 4 != 0) := by
  obtain ⟨n, hn, hmis⟩ := h
  rw [spTries_eq] at hf
  have hmin : ∀ k c', s.runs k → (s.spTry a b k).chk = .trap c' → 4 ≤ c' := fun k c' _ hc => by
    obtain rfl | rfl := spTry_code hc <;> decide
  refine ⟨_, issueLong_trapsLanes hok hs hf hn (spTry_misaligned.2 hmis) hmin, rfl, rfl, fun k hk => ?_⟩
  rw [accessTrap_emask (fun _ => rfl) hk]
  refine congrArg _ ?_
  rw [Bool.eq_iff_iff, beq_iff_eq, bne_iff_ne, spTry_misaligned]

/-- With every offset a multiple of 4 an offset at or above SPSIZE traps, in exactly the lanes with such an offset. -/
theorem spTries_trapsBeyond (h4 : ∀ n, s.runs n → (s.src32 a n + s.src32 b n).toNat % 4 = 0)
    (h : ∃ n, s.runs n ∧ s.cg.spsize ≤ (s.src32 a n + s.src32 b n).toNat) :
    ∃ tr, issueLong ok writes onL rel srcs f s = .next (s.trapP tr) ∧ tr.code = 0x0A ∧ tr.epc = s.cp.pc ∧
      ∀ n < 32, tr.emask.getLsbD n = (s.memb.getLsbD n && decide (s.cg.spsize ≤ (s.src32 a n + s.src32 b n).toNat)) := by
  obtain ⟨n, hn, hfar⟩ := h
  rw [spTries_eq] at hf
  have hmin : ∀ k c', s.runs k → (s.spTry a b k).chk = .trap c' → 0x0A ≤ c' := fun k c' hk hc => by
    obtain rfl | rfl := spTry_code hc
    · exact absurd (h4 k hk) (spTry_misaligned.1 hc)
    · exact Nat.le_refl _
  refine ⟨_, issueLong_trapsLanes hok hs hf hn ((spTry_beyond (h4 n hn)).2 hfar) hmin, rfl, rfl, fun k hk => ?_⟩
  rw [accessTrap_emask (fun _ => rfl) hk, Bool.eq_iff_iff, Bool.and_eq_true, Bool.and_eq_true, beq_iff_eq, decide_eq_true_eq]
  exact and_congr_right fun hm => spTry_beyond (h4 k ⟨hk, hm⟩)

/-- With every offset a multiple of 4 below SPSIZE the word sends one access for each lane. -/
theorem spTries_sends (hm : s.memb ≠ 0)
    (h : ∀ n, s.runs n → (s.src32 a n + s.src32 b n).toNat % 4 = 0 ∧ (s.src32 a n + s.src32 b n).toNat < s.cg.spsize) :
    ∃ u, issueLong ok writes onL rel srcs f s = .next u ∧ SentOp s u sel (if op.acq then [s.nextId] else [])
      (s.opOf sel ((lanesOf s.memb).map fun n => mk (s.spTry a b n) (s.src32 a n + s.src32 b n).toNat 0) op) :=
  issueLong_sendsLanes (at' := fun n => ((s.src32 a n + s.src32 b n).toNat, 0)) hok hs (fun _ => rfl) hm hf
    fun n hn => spTry_ok (h n hn).1 (h n hn).2

end

/-! The constant space (R130). -/

section
variable {d : RName} {a : Src} {s : State} {sel : Nat} (hd : ldst d = true) (ha : src32 a = true)
  (hs : s.CanSend [a] true true false sel)

include hd ha hs

theorem execCld_traps (h : ∃ n, s.runs n ∧ (65536 ≤ (s.src32 a n).toNat ∨
    (s.launchOf s.cg).cbanks.has ((s.src32 a n).toNat / 16384) = false)) :
    execCld d a s = .next (s.trapP (s.trapHere 1 0 s.memb)) := by
  unfold execCld
  refine issueLong_traps (by rw [hd, ha]; rfl) hs (if_pos ?_)
  obtain ⟨n, hn, hbad⟩ := h
  exact List.any_eq_true.2 ⟨n, (s.runs_iff n).2 hn, by simpa using hbad⟩

theorem execCld_sends {va : Nat → W64} {pl : Nat → Nat × Nat} (hm : s.memb ≠ 0) (hva : va = fun n =>
      (s.launchOf s.cg).cbanks.get ((s.src32 a n).toNat / 16384) 0 + BitVec.ofNat 64 (4 * ((s.src32 a n).toNat % 16384)))
    (h : ∀ n, s.runs n → (s.src32 a n).toNat < 65536 ∧ (s.launchOf s.cg).cbanks.has ((s.src32 a n).toNat / 16384) = true ∧
      s.bankChk s.cur.core s.cg (va n).toNat = .ok (pl n).1 (pl n).2) :
    ∃ u, execCld d a s = .next u ∧ SentOp s u sel [] (s.opOf sel ((lanesOf s.memb).map fun n =>
      { lane := n, va := va n, pa := (pl n).1, leaf := BitVec.ofNat 64 (pl n).2 })
      { kind := .cld, opfile := inOpf d, reg := s.reach d }) := by
  subst hva
  have hgood : ¬ ((lanesOf s.memb).any fun n => decide (65536 ≤ (s.src32 a n).toNat) ||
      !(s.launchOf s.cg).cbanks.has ((s.src32 a n).toNat / 16384)) = true := by
    rw [List.any_eq_true]
    rintro ⟨n, hn, hbad⟩
    obtain ⟨hlt, hbank, -⟩ := h n ((s.runs_iff n).1 hn)
    simp [hbank, Nat.not_le.2 hlt] at hbad
  unfold execCld
  exact issueLong_sendsLanes (op := { kind := .cld, opfile := inOpf d, reg := s.reach d })
    (T := fun n => { lane := n, lanes := laneBit n, va := _, chk := s.bankChk s.cur.core s.cg _ })
    (mk := fun y pa leaf => { lane := y.lane, va := y.va, pa := pa, leaf := leaf })
    (by rw [hd, ha]; rfl) hs (fun _ => rfl) hm (if_neg hgood) fun n hn => (h n hn).2.2

end

section
variable {d : RName} {a b : Src} {s : State} {sel : Nat} (ha : src32 a = true) (hb : src32 b = true)

include ha hb

theorem spld_ok (hd : ldst d = true) : (ldst d && src32 a && src32 b) = true := by rw [hd, ha, hb]; rfl
theorem spst_ok (hd : vname d = true) : (vname d && src32 a && src32 b) = true := by rw [hd, ha, hb]; rfl

end

/-- Settles O31: the offsets decide among the three outcomes of a scratchpad word, the word numbers between the two of CLD. -/
theorem scratchpadAndConstantWords : Obligations.ScratchpadAndConstantWords := by
  refine ⟨fun d a b s ha hb hm => ⟨fun h => ⟨fun sel hd hs => ?_, fun sel hd hs => ?_⟩, fun e he sel hd hs => ?_⟩,
    fun d a s sel hd ha hm hs => ⟨fun pl h => ?_, fun h => ?_⟩⟩
  · rw [exec_spld, execSpld]
    exact spTries_sends (op := { kind := .spld, opfile := inOpf d, reg := s.reach d })
      (mk := fun y pa _ => { lane := y.lane, va := y.va, pa := pa + dieOf s.cur.core * 2 ^ 48 }) (spld_ok ha hb hd) hs rfl hm h
  · rw [exec_spst, execSpst]
    exact spTries_sends (op := { kind := .spst })
      (mk := fun y pa _ =>
        { lane := y.lane, va := y.va, pa := pa + dieOf s.cur.core * 2 ^ 48, data := (s.cw.readV d.toNat y.lane).setWidth 256 })
      (spst_ok ha hb hd) hs rfl hm h
  · simp only [List.mem_cons, List.not_mem_nil, or_false] at he
    obtain rfl | rfl := he
    · simp only [exec_spld, execSpld]
      exact ⟨spTries_trapsMisaligned (spld_ok ha hb hd) hs rfl, spTries_trapsBeyond (spld_ok ha hb hd) hs rfl⟩
    · simp only [exec_spst, execSpst]
      exact ⟨spTries_trapsMisaligned (spst_ok ha hb hd) hs rfl, spTries_trapsBeyond (spst_ok ha hb hd) hs rfl⟩
  · exact execCld_sends hd ha hs hm rfl h
  · exact execCld_traps hd ha hs h

end Sys2Proof.Machine
end

