-- ==== Sys2Proof/Proofs/Prefetches.lean ====
section
/-! Prefetches: the accesses that pass their checks are sent, the others are dropped (R131). -/

set_option Elab.async false

namespace Sys2Proof.Machine

/-! Which accesses the owner tables let pass. -/

/-- An access that passes after the owner tables passed before them. -/
theorem mem_of_mem_ownRoom {core : Nat} {t : Try} (hok : t.chk.isOk = true) {ts : List Try} {s : State} (h : t ∈ s.ownRoom core ts) :
    t ∈ ts := by
  induction ts generalizing s with
  | nil => exact h
  | cons x r ih =>
    unfold State.ownRoom at h
    split at h
    · split at h
      · obtain rfl | h := List.mem_cons.1 h
        · exact nomatch hok
        · exact List.mem_cons_of_mem _ (ih h)
      · exact List.mem_cons.2 ((List.mem_cons.1 h).imp_right ih)
    · exact List.mem_cons.2 ((List.mem_cons.1 h).imp_right ih)

/-- An access whose page has room passes the owner tables, after at most 31 others of its word. -/
theorem mem_ownRoom {core pa leaf : Nat} {s : State} {t : Try} (hok : t.chk = .ok pa leaf) (hroom : s.OwnRoom leaf pa t.va.toNat)
    {ts : List Try} {v : State} {j : Nat} (ht : t ∈ ts) (hj : j + ts.length ≤ 32)
    (hcount : ∀ l p a, v.ownCount l p a ≤ s.ownCount l p a + j)
    (howners : ∀ d k, (s.die d).owners.has k = true → (v.die d).owners.has k = true) : t ∈ v.ownRoom core ts := by
  induction ts generalizing v j with
  | nil => exact ht
  | cons x r ih =>
    rw [List.length_cons] at hj
    have hnext : ∀ l p a, v.ownCount l p a ≤ s.ownCount l p a + (j + 1) := fun l p a => (hcount l p a).trans (by omega)
    unfold State.ownRoom
    obtain rfl | hr := List.mem_cons.1 ht
    · have hfull : v.ownFull leaf pa t.va.toNat = false := by
        unfold State.ownFull
        obtain h | h | h := hroom
        · simp [h]
        · simp only [howners _ _ h, Bool.not_true, Bool.and_false, Bool.false_and]
        · have hlt : ¬ 4096 ≤ v.ownCount leaf pa t.va.toNat := by
            have := hcount leaf pa t.va.toNat
            omega
          simp [hlt]
      simp only [hok, hfull]
      exact List.mem_cons_self
    · split
      · split
        · exact List.mem_cons_of_mem _ (ih hr (by omega) hnext howners)
        · refine List.mem_cons_of_mem _ (ih (j := j + 1) hr (by omega) (fun l p a => ?_) fun d k h => owners_own _ _ _ _ _ _ _ (howners d k h))
          exact (ownCount_own ..).trans (Nat.add_le_add_right (hcount l p a) 1)
      · exact List.mem_cons_of_mem _ (ih hr (by omega) hnext howners)

/-! Sending the accesses that pass. -/

/-- Dividing a wave changes its paths alone. -/
theorem Wave.divide_rest (w : Wave) (ts : List Try) (q : Path → Path) : { w.divide ts q with paths := w.paths } = w := by
  unfold Wave.divide
  split <;> rfl

/-- Taking pages into the owner tables changes no memory, wave or operation. -/
theorem owns_kept (core : Nat) (accs : List Acc) (v : State) :
    let u := accs.foldl (fun u a => if a.pa < hostBase then u.own core a.leaf.toNat a.pa a.va.toNat else u) v
    u.mem = v.mem ∧ u.cur = v.cur ∧ u.waves = v.waves ∧ u.ops = v.ops := by
  have h := owns_rest (fun a => (core, a.leaf.toNat, a.pa, a.va.toNat)) accs v
  exact ⟨(congrArg State.mem h :), (congrArg State.cur h :), (congrArg State.waves h :), (congrArg State.ops h :)⟩

/-- Accesses that all pass are sent as one operation of their lanes; without a lane nothing is sent and no flag is raised. -/
theorem sendWord_passing {s : State} {flag : Nat} {ts : List Try} {write : Bool} {op : MemOp} {mk : Try → Nat → W64 → Acc}
    (h : ∀ t ∈ ts, t.chk.isOk = true) :
    ∃ u q, s.sendWord flag ts write op mk = .done u ∧ u.mem = s.mem ∧ u.cur = s.cur ∧
      u.waves = (s.modCw fun w => (w.divide ts q).raise (if lanesWith ts Chk.isOk = 0 then 15 else flag)).waves ∧
      u.ops = s.ops ++ if lanesWith ts Chk.isOk = 0 then [] else [{ s.opOf flag (sentAccs ts mk) op with lanes := lanesWith ts Chk.isOk }] := by
  have hno : ∀ c : Chk, c.isOk = false → ∀ t ∈ ts, (t.chk == c) = false := fun c hc t ht => by
    rw [beq_eq_false_iff_ne]
    rintro rfl
    rw [h t ht] at hc
    cases hc
  have hpark : pagesWith ts .park = [] := pagesWith_none (hno _ rfl)
  have htable : ts.find? (fun x => x.chk == .table) = none := List.find?_eq_none.2 fun t ht => by simp [hno .table rfl t ht]
  unfold State.sendWord State.raiseMisses
  rw [firstTrap_isOk h, hpark, htable]
  by_cases hz : lanesWith ts Chk.isOk = 0
  · simp only [hz, if_true, List.foldl_nil, List.append_nil]
    exact ⟨_, fun p => { p.past true with hold := if op.acq then s.nextId :: p.hold else p.hold }, rfl, owns_kept _ _ _⟩
  · simp only [hz, if_false, List.foldl_nil]
    exact ⟨_, fun p => { p.past true with hold := if op.acq then s.nextId :: p.hold else p.hold }, rfl, owns_kept _ _ _⟩

/-- A wave whose flag is raised, with other paths. -/
theorem Wave.raise_setPaths (w : Wave) (f : Nat) (ps : List Path) : { w.raise f with paths := ps } = ({ w with paths := ps } : Wave).raise f := by
  unfold Wave.raise
  split <;> rfl

/-! The word. -/

/-- The accesses of a prefetch that pass every check. -/
def State.prefTries (s : State) (a : RName) (x : Bool) : List Try :=
  (if x then s.try1 (s.readS64 a.toNat) { size := 1 } else s.tries (fun n => s.cw.readV64 a.toNat n) { size := 1 }).filter fun t => t.chk.isOk

/-- The operation that a prefetch sends for the accesses that pass. -/
def State.prefOp (s : State) (sel fn : Nat) (a : RName) (h : Nat) (x : Bool) : MemOp :=
  { s.opOf sel (sentAccs (s.prefTries a x) fun y pa leaf => { lane := y.lane, va := y.va, pa := pa, leaf := leaf })
      { kind := .pref, fn := fn, hint := h, sca := x } with
    lanes := lanesWith (s.prefTries a x) Chk.isOk }

section
variable {fn h sel : Nat} {a : RName} {x : Bool} {s : State} (hok : (if x then spair a else vaddr a) = true)
  (hs : s.CanSend [] false true false sel)

include hok hs

/-- With no access left nothing is sent: the path moves past the word. -/
theorem prefetch_drops (hnone : s.prefTries a x = []) : prefetch fn a h x s = .next ((s.past true).count s) := by
  refine issueLong_done hok hs ?_
  have hnone : ((if x then s.try1 (s.readS64 a.toNat) { size := 1 } else s.tries (fun n => s.cw.readV64 a.toNat n) { size := 1 }).filter
    fun t => t.chk.isOk) = [] := hnone
  obtain ⟨u, q, hu, -⟩ := sendWord_passing (s := s) (flag := sel) (ts := []) (write := false)
    (op := { kind := .pref, fn := fn, hint := h, sca := x }) (mk := fun y pa leaf => { lane := y.lane, va := y.va, pa := pa, leaf := leaf }) nofun
  dsimp only
  rw [hnone, hu]
  rfl

/-- The accesses that pass are sent as one operation; without a lane in the executing set nothing is. -/
theorem prefetch_sends (hsome : s.prefTries a x ≠ []) : ∃ u, prefetch fn a h x s = .next u ∧
    SentWord s u (if lanesWith (s.prefTries a x) Chk.isOk = 0 then 15 else sel) [] ∧
    u.ops = s.ops ++ if lanesWith (s.prefTries a x) Chk.isOk = 0 then [] else [s.prefOp sel fn a h x] := by
  obtain ⟨u, q, hu, hmem, hcur, hwaves, hops⟩ := sendWord_passing (s := s) (flag := sel) (ts := s.prefTries a x) (write := false)
    (op := { kind := .pref, fn := fn, hint := h, sca := x }) (mk := fun y pa leaf => { lane := y.lane, va := y.va, pa := pa, leaf := leaf })
    fun t ht => (List.mem_filter.1 ht).2
  have hck : u.ck = s.ck := by rw [State.ck, hcur, State.ck]
  have hwave : ∀ k, u.wave k = (s.modCw _).wave k := fun k => by rw [State.wave, hwaves, State.wave]
  obtain ⟨p, r, hpr⟩ : ∃ p r, s.cw.paths = p :: r := by
    cases hp : s.cw.paths with
    | nil => exact absurd hs.issue.1 (by simp [State.cp, hp])
    | cons p r => exact ⟨p, r, rfl⟩
  refine ⟨_, issueLong_done (t := u.modCw fun w => { w with paths := { s.cp.past true with lanes := s.cp.lanes } :: s.cw.paths.tail }) hok hs ?_,
    sentWord_of_cw hcur hmem (fun k hk => ?_) ?_, ?_⟩
  · unfold State.prefTries at hu hsome
    dsimp only
    rw [hu]
    exact congrArg Res.done (if_neg (by simpa using hsome))
  · rw [State.wave_modCw_ne u _ k (hck ▸ hk), hwave, State.wave_modCw_ne s _ k hk]
  · rw [State.cw_modCw, State.cw, hck, hwave]
    have hrest := congrArg (fun w : Wave => { w with paths := { s.cp.past true with lanes := s.cp.lanes } :: s.cw.paths.tail })
      (s.cw.divide_rest (s.prefTries a x) q)
    have hself := s.wave_modCw_self fun w => (w.divide (s.prefTries a x) q).raise (if lanesWith (s.prefTries a x) Chk.isOk = 0 then 15 else sel)
    rw [hself, Wave.raise_setPaths]
    refine congrArg (Wave.raise · _) (hrest.trans ?_)
    unfold Wave.modPath State.cp
    rw [hpr]
    rfl
  · have hrest := State.count_rest (u.modCw fun w => { w with paths := { s.cp.past true with lanes := s.cp.lanes } :: s.cw.paths.tail }) s
    exact (congrArg State.ops hrest :).trans hops

/-- A prefetch issues, whatever becomes of its accesses. -/
theorem prefetch_issues : ∃ u, prefetch fn a h x s = .next u ∧
    SentWord s u (if lanesWith (s.prefTries a x) Chk.isOk = 0 then 15 else sel) [] ∧
    u.ops = s.ops ++ (if lanesWith (s.prefTries a x) Chk.isOk = 0 then [] else [s.prefOp sel fn a h x]) ∧
    (s.prefTries a x = [] → u.cw.flags = s.cw.flags) := by
  by_cases hnone : s.prefTries a x = []
  · have hz : lanesWith (s.prefTries a x) Chk.isOk = 0 := by rw [hnone]; rfl
    have hcw : ((s.past true).count s).cw = { s.cw.modPath fun p => p.past true with
        skid := s.cw.skid + if s.cg.phase = .halting then 1 else 0 } := by
      rw [State.past, State.modCp, State.count_modCw]
      exact s.cw_modCw _
    refine ⟨_, prefetch_drops hok hs hnone, ?_, ?_, fun _ => by rw [hcw]; rfl⟩
    · rw [if_pos hz]
      exact sentWord_of_cw rfl rfl (s.wave_modCw_ne _) (s.cw_modCw _)
    · rw [if_pos hz, List.append_nil]
      exact (congrArg State.ops (State.count_rest (s.past true) s) :)
  · obtain ⟨u, hu, hsent, hops⟩ := prefetch_sends hok hs hnone
    exact ⟨u, hu, hsent, hops, fun h => absurd h hnone⟩

end

/-! The accesses that a prefetch sends. -/

theorem mem_sentAccs {ts : List Try} {mk : Try → Nat → W64 → Acc} {x : Acc} (h : x ∈ sentAccs ts mk) :
    ∃ t ∈ ts, ∃ pa leaf, t.chk = .ok pa leaf ∧ x = mk t pa (BitVec.ofNat 64 leaf) := by
  obtain ⟨t, ht, he⟩ := List.mem_filterMap.1 h
  split at he
  · next pa leaf hk => exact ⟨t, ht, pa, leaf, hk, (Option.some.inj he).symm⟩
  · exact nomatch he

theorem sentAccs_mem {ts : List Try} {mk : Try → Nat → W64 → Acc} {t : Try} {pa leaf : Nat} (ht : t ∈ ts) (hk : t.chk = .ok pa leaf) :
    mk t pa (BitVec.ofNat 64 leaf) ∈ sentAccs ts mk :=
  List.mem_filterMap.2 ⟨t, ht, by rw [hk]⟩

/-- A lane of an access that passes is a lane of the word. -/
theorem lanesWith_getLsbD {ts : List Try} {t : Try} {k : Nat} (ht : t ∈ ts) (hk : t.chk.isOk = true) (hl : t.lanes.getLsbD k = true) :
    (lanesWith ts Chk.isOk).getLsbD k = true := by
  unfold lanesWith
  rw [foldl_or_getLsbD, Bool.or_eq_true, List.any_eq_true]
  exact .inr ⟨t, List.mem_filter.2 ⟨ht, hk⟩, hl⟩

theorem lanes_ne_zero {m : Lanes} {k : Nat} (h : m.getLsbD k = true) : m ≠ 0 := by
  rintro rfl
  simp at h

section
variable {s : State} {a : RName} {x : Bool}

/-- The access of a prefetch that the checks of R115 are made for: the executing lane's, or the one of a scalar form. -/
def State.prefTry (s : State) (a : RName) (x : Bool) (n : Nat) : Try :=
  let va := if x then s.readS64 a.toNat else s.cw.readV64 a.toNat n
  { lane := n, lanes := if x then s.memb else laneBit n, va := va, chk := s.check s.cur.core s.cg va { size := 1 } }

theorem mem_prefTries {t : Try} (ht : t ∈ s.prefTries a x) :
    t.chk.isOk = true ∧ ∃ n, (if x then n = 0 else s.runs n) ∧ t = s.prefTry a x n := by
  obtain ⟨ht, hk⟩ := List.mem_filter.1 ht
  refine ⟨hk, ?_⟩
  cases x with
  | true => exact ⟨0, rfl, List.mem_singleton.1 ht⟩
  | false =>
    obtain ⟨n, hn, rfl⟩ := List.mem_map.1 (mem_of_mem_ownRoom hk ht)
    exact ⟨n, (s.runs_iff n).1 hn, rfl⟩

/-- The access of a scalar form that passes is sent. -/
theorem prefTry_mem_scalar (h : (s.prefTry a true 0).chk.isOk = true) : s.prefTry a true 0 ∈ s.prefTries a true :=
  List.mem_filter.2 ⟨List.mem_singleton.2 rfl, h⟩

/-- The access of an executing lane that passes, with room for its page, is sent. -/
theorem prefTry_mem_lane {n pa leaf : Nat} (hn : s.runs n) (hk : (s.prefTry a false n).chk = .ok pa leaf)
    (hroom : s.OwnRoom leaf pa (s.cw.readV64 a.toNat n).toNat) : s.prefTry a false n ∈ s.prefTries a false := by
  refine List.mem_filter.2 ⟨mem_ownRoom (j := 0) hk hroom ?_ ?_ (fun _ _ _ => Nat.le_refl _) fun _ _ h => h, by rw [hk]; rfl⟩
  · exact List.mem_map.2 ⟨n, (s.runs_iff n).2 hn, rfl⟩
  · rw [List.length_map, Nat.zero_add]
    exact lanesOf_length s.memb

/-- Each access that is sent is one of the word's own, and it passed. -/
theorem prefOp_accs {fn h sel : Nat} {c : Acc} (hc : c ∈ (s.prefOp sel fn a h x).accs) :
    (if x then c.lane = 0 else s.runs c.lane) ∧ c.va = (if x then s.readS64 a.toNat else s.cw.readV64 a.toNat c.lane) ∧
      ∃ leaf, s.check s.cur.core s.cg (if x then s.readS64 a.toNat else s.cw.readV64 a.toNat c.lane) { size := 1 } = .ok c.pa leaf := by
  obtain ⟨d, hd, rfl⟩ := List.mem_map.1 hc
  obtain ⟨t, ht, pa, leaf, hk, rfl⟩ := mem_sentAccs hd
  obtain ⟨-, n, hn, rfl⟩ := mem_prefTries ht
  exact ⟨hn, rfl, leaf, hk⟩

/-- The operation holds an access of each lane whose access is sent. -/
theorem prefOp_holds {fn h sel n : Nat} (ht : s.prefTry a x n ∈ s.prefTries a x) : ∃ c ∈ (s.prefOp sel fn a h x).accs, c.lane = n := by
  have hk := (mem_prefTries ht).1
  cases hc : (s.prefTry a x n).chk with
  | ok pa leaf => exact ⟨_, List.mem_map_of_mem (sentAccs_mem ht hc), rfl⟩
  | _ => rw [hc] at hk; exact nomatch hk

/-- A word of which an access is sent holds a lane. -/
theorem prefTries_lanes {n : Nat} (hm : s.memb ≠ 0) (hn : n < 32) (ht : s.prefTry a x n ∈ s.prefTries a x) :
    lanesWith (s.prefTries a x) Chk.isOk ≠ 0 := by
  have hk := (mem_prefTries ht).1
  cases x with
  | true =>
    obtain ⟨k, hk32, hbit⟩ : ∃ k < 32, s.memb.getLsbD k = true := by
      by_contra hall
      push Not at hall
      exact hm (BitVec.eq_of_getLsbD_eq fun k hk => by simpa using hall k hk)
    exact lanes_ne_zero (lanesWith_getLsbD (k := k) ht hk hbit)
  | false => exact lanes_ne_zero (lanesWith_getLsbD (k := n) ht hk ((laneBit_getLsbD hn).trans (decide_eq_true rfl)))

end

/-- What O33 says of a prefetch, for any of the three words. -/
theorem prefetch_word {fn h sel : Nat} {a : RName} {x : Bool} {s : State} (hok : (if x then spair a else vaddr a) = true)
    (hs : s.CanSend [] false true false sel) :
    let va := fun (n : Nat) => if x then s.readS64 a.toNat else s.cw.readV64 a.toNat n
    let ok := fun (n : Nat) => ∃ pa leaf : Nat, s.check s.cur.core s.cg (va n) { size := 1 } = .ok pa leaf
    let room := fun (n : Nat) => ∃ pa leaf : Nat, s.check s.cur.core s.cg (va n) { size := 1 } = .ok pa leaf ∧ s.OwnRoom leaf pa (va n).toNat
    ∃ u : State, prefetch fn a h x s = .next u ∧ u.mem = s.mem ∧ (∀ k, k ≠ s.ck → u.wave k = s.wave k) ∧
      { u.cw with paths := s.cw.paths, flags := s.cw.flags, skid := s.cw.skid } = s.cw ∧
      u.cw.paths = (s.cw.modPath fun p => p.past true).paths ∧
      ((if x then ok 0 else ∃ n, s.runs n ∧ room n) → s.memb ≠ 0 →
        (∀ f, u.cw.flags.get f 0 = s.cw.flags.get f 0 + if f = sel ∧ f < 12 then 1 else 0) ∧
        ∃ o : MemOp, u.ops = s.ops ++ [o] ∧ o.kind = .pref ∧ o.fn = fn ∧ o.flag = sel ∧ o.sca = x ∧
          (∀ a ∈ o.accs, (if x then a.lane = 0 else s.runs a.lane) ∧ a.va = va a.lane ∧
            ∃ leaf : Nat, s.check s.cur.core s.cg (va a.lane) { size := 1 } = .ok a.pa leaf) ∧
          (x = false → ∀ n, s.runs n → room n → ∃ a ∈ o.accs, a.lane = n)) ∧
      (¬ (if x then ok 0 else ∃ n, s.runs n ∧ ok n) → u.ops = s.ops ∧ u.cw.flags = s.cw.flags) := by
  intro va ok room
  obtain ⟨u, hu, hsent, hops, hdrop⟩ := prefetch_issues (fn := fn) (h := h) hok hs
  obtain ⟨hwaves, hmem, hpaths, -, hflag, hwave⟩ := hsent
  have hlane : ∀ n, s.runs n → room n → x = false → s.prefTry a x n ∈ s.prefTries a x := by
    rintro n hn ⟨pa, leaf, hk, hroom⟩ rfl
    exact prefTry_mem_lane hn hk hroom
  refine ⟨u, hu, hmem, hwaves, hwave, hpaths, fun hsome hm => ?_, fun hnone => ?_⟩
  · have hstay : lanesWith (s.prefTries a x) Chk.isOk ≠ 0 := by
      cases x with
      | true =>
        obtain ⟨pa, leaf, hk⟩ := hsome
        exact prefTries_lanes hm (by decide) (prefTry_mem_scalar (show (s.check ..).isOk = true by rw [hk]; rfl))
      | false =>
        obtain ⟨n, hn, hroom⟩ := hsome
        exact prefTries_lanes hm hn.1 (hlane n hn hroom rfl)
    rw [if_neg hstay] at hops
    simp only [hstay, if_false] at hflag
    exact ⟨hflag, _, hops, rfl, rfl, rfl, rfl, fun c hc => prefOp_accs hc, fun hx n hn hroom => prefOp_holds (hlane n hn hroom hx)⟩
  · have hempty : s.prefTries a x = [] := by
      refine List.eq_nil_iff_forall_not_mem.2 fun t ht => hnone ?_
      obtain ⟨hk, n, hn, rfl⟩ := mem_prefTries ht
      have hpass : ok n := by
        cases hc : (s.prefTry a x n).chk with
        | ok pa leaf => exact ⟨pa, leaf, hc⟩
        | _ => rw [hc] at hk; exact nomatch hk
      cases x with
      | true =>
        obtain rfl : n = 0 := hn
        exact hpass
      | false => exact ⟨n, hn, hpass⟩
    refine ⟨?_, hdrop hempty⟩
    rw [hempty] at hops
    exact hops.trans (List.append_nil _)

/-- Settles O33: each prefetch is one `prefetch`, vector or scalar, whose failing accesses are dropped. -/
theorem prefetchWords : Obligations.PrefetchWords := by
  intro e he a h x s sel hok hs
  simp only [List.mem_cons, List.not_mem_nil, or_false] at he
  obtain rfl | rfl | rfl := he <;> exact prefetch_word hok hs

end Sys2Proof.Machine
end

