-- ==== Sys2Proof/Proofs/Fences.lean ====
section
/-! Fences: a fence completes when what it waits for is over, and leaves its path waiting otherwise (R132 to R134). -/

set_option Elab.async false

namespace Sys2Proof.Machine

/-- A word that moves past itself from a state with the same issuing wave. -/
theorem pastWord_of_cw {s v : State} (h : v.cw = s.cw) :
    PastWord s ((v.past false).count s) false ∧
      { ((v.past false).count s).cw with paths := s.cw.paths, skid := s.cw.skid } = s.cw := by
  have hcw : ((v.past false).count s).cw =
      { s.cw.modPath (fun p => p.past false) with skid := s.cw.skid + if s.cg.phase = .halting then 1 else 0 } := by
    rw [State.past, State.modCp, State.count_modCw, State.cw_modCw, h]
    rfl
  exact ⟨⟨by rw [hcw], by rw [hcw]⟩, by rw [hcw]; rfl⟩

/-- What a path that waits in its word has changed: its own status, and the wave's skid. -/
theorem await_waits {s v : State} {w : WaitWord} (h : v.cw = s.cw) (hp : s.cp.clause.isSome = true) (hw : w.timed = false) :
    ((v.await w s.memb).count s).cp = { s.cp with status := .wait w s.memb 0 } ∧
      ((v.await w s.memb).count s).cw.paths.tail = s.cw.paths.tail := by
  have hmod : ∀ f : Path → Path, (s.cw.modPath f).paths = f s.cp :: s.cw.paths.tail := fun f => by
    rw [Wave.modPath, paths_eq_cons hp]; rfl
  rw [State.await, State.modCp, State.count_modCw, State.cp, State.cw_modCw, h, hw, hmod]
  exact ⟨congrArg (fun n => { s.cp with status := .wait w s.memb n }) (if_pos (.inr rfl)), rfl⟩

theorem State.fenceAt_done {s : State} {rel acq wide : Bool} {ids tails : List Nat}
    (h : s.fenceDone s.cur.core s.cur.slot rel ids tails = true) :
    s.fenceAt rel acq wide ids tails = (if acq && wide then s.dropL1 s.cur.core else s).past false := if_pos h

theorem State.fenceAt_waits {s : State} {rel acq wide : Bool} {ids tails : List Nat}
    (h : s.fenceDone s.cur.core s.cur.slot rel ids tails = false) :
    s.fenceAt rel acq wide ids tails = s.await (.fence rel acq wide ids tails) s.memb :=
  if_neg (by simp [h])

theorem State.fenceTo_near {s : State} {rel acq wide : Bool} {scope : Nat} {ids tails : List Nat} (h : ¬ (rel = true ∧ scope = 7)) :
    s.fenceTo rel acq scope wide ids tails = s.fenceAt rel acq wide ids tails :=
  if_neg (by simpa using h)

/-- A release at .HOST waits for the zero-length read that it has just sent (R415). -/
theorem State.fenceTo_host {s : State} {rel acq wide : Bool} {scope : Nat} {ids tails : List Nat} (h : rel = true ∧ scope = 7) :
    s.fenceTo rel acq scope wide ids tails = s.hostRead.await (.fence rel acq wide (s.nextId :: ids) tails) s.memb := by
  have hwait : s.hostRead.fenceDone s.cur.core s.cur.slot rel (s.nextId :: ids) tails = false := by
    simp [State.fenceDone, State.hostRead]
  rw [State.fenceTo, if_pos (by simpa using h)]
  exact State.fenceAt_waits hwait

/-- The core after a fence that has completed: its L1 is dropped exactly when the acquire says so. -/
theorem State.core_fenced (s : State) (drop : Bool) :
    (((if drop then s.dropL1 s.cur.core else s).past false).count s).core s.cur.core =
      if drop = true then { s.core s.cur.core with l1 := (s.core s.cur.core).l1.filter fun x => x.2.priv, leases := [], grants := [] }
      else s.core s.cur.core := by
  rw [State.past, State.modCp, State.count_modCw, State.core_modCw]
  cases drop
  · rfl
  · exact s.core_modCore_self ..

/-- What a fence word does, whatever it waits for (R132, R133). -/
theorem fence_word {s : State} {e : Out} {ok onL rel acq wide : Bool} {scope : Nat} {ids tails : List Nat} {f : State → Res}
    (hs : s.CanIssue []) (hh : s.held s.cp = false) (hok : ok = true) (he : e = issueWaiting ok [] onL false f s)
    (hf : f s = .done (s.fenceTo rel acq scope wide ids tails)) :
    let far := rel = true ∧ scope = 7
    (¬ far → s.fenceDone s.cur.core s.cur.slot rel ids tails = true → ∃ t, e = .next t ∧ PastWord s t false ∧
      t.mem = s.mem ∧ { t.cw with paths := s.cw.paths, skid := s.cw.skid } = s.cw ∧
      t.core s.cur.core = if acq = true ∧ wide = true then { s.core s.cur.core with l1 := (s.core s.cur.core).l1.filter fun x => x.2.priv, leases := [], grants := [] }
        else s.core s.cur.core) ∧
    (¬ far → s.fenceDone s.cur.core s.cur.slot rel ids tails = false → ∃ t, e = .next t ∧ OnlyWave s t ∧
      t.cp = { s.cp with status := .wait (.fence rel acq wide ids tails) s.memb 0 } ∧ t.cw.paths.tail = s.cw.paths.tail) ∧
    (far → ∃ t m, e = .next t ∧ t.mem = s.mem ∧ (∀ k, k ≠ s.ck → t.wave k = s.wave k) ∧ t.ops = s.ops ++ [m] ∧
      m.id = s.nextId ∧ m.accs = [] ∧ m.zread = (s.die (dieOf s.cur.core)).cdTicks ∧ m.core = s.cur.core ∧ m.slot = s.cur.slot ∧
      t.cp = { s.cp with status := .wait (.fence rel acq wide (s.nextId :: ids) tails) s.memb 0 } ∧ t.cw.paths.tail = s.cw.paths.tail) := by
  have hi : e = .next ((s.fenceTo rel acq scope wide ids tails).count s) :=
    he.trans (issueWaiting_eq hok hs (fun _ => hh) nofun hf)
  refine ⟨fun hn hd => ?_, fun hn hd => ?_, fun hf => ?_⟩
  · rw [State.fenceTo_near hn, State.fenceAt_done hd] at hi
    have hcw : (if acq && wide then s.dropL1 s.cur.core else s).cw = s.cw := by split <;> rfl
    obtain ⟨hpast, hrest⟩ := pastWord_of_cw hcw
    refine ⟨_, hi, hpast, ?_, hrest, ?_⟩
    · rw [State.past, State.modCp, State.count_modCw]
      split <;> rfl
    · simpa using s.core_fenced (acq && wide)
  · rw [State.fenceTo_near hn, State.fenceAt_waits hd] at hi
    refine ⟨_, hi, ?_, await_waits rfl hs.1 rfl⟩
    rw [State.await, State.modCp, State.count_modCw]
    exact OnlyWave.modCw s _
  · rw [State.fenceTo_host hf] at hi
    have hcount : ∃ g, (s.hostRead.await (.fence rel acq wide (s.nextId :: ids) tails) s.memb).count s = s.hostRead.modCw g := by
      rw [State.await, State.modCp, State.count_modCw]
      exact ⟨_, rfl⟩
    obtain ⟨g, hg⟩ := hcount
    obtain ⟨hcp, htail⟩ := await_waits (v := s.hostRead) (w := .fence rel acq wide (s.nextId :: ids) tails) rfl hs.1 rfl
    refine ⟨_, _, hi, by rw [hg]; rfl, fun k hk => by rw [hg]; exact s.hostRead.wave_modCw_ne g k hk, by rw [hg]; rfl,
      rfl, rfl, rfl, rfl, rfl, hcp, htail⟩

/-- Settles O34: FENCE and FENCEX are one fence at the issuing path, with the operations and commands that each of them waits for. -/
theorem fenceWords : Obligations.FenceWords := by
  intro e he sc o p q s ho hp hq hs hh
  simp only [List.mem_cons, List.not_mem_nil, or_false] at he
  obtain rfl | rfl := he
  · exact fence_word hs hh (by simpa using ho) (exec_fence sc o s) rfl
  · exact fence_word hs hh (by simpa using ⟨hp, hq⟩) (exec_fencex p q sc s) rfl

end Sys2Proof.Machine
end

