-- ==== Sys2Proof/Proofs/VersionAccesses.lean ====
section
/-! Version accesses at their slice: what VLD.EQ, VLD.LE and VST come to once nothing holds them back, and the
time-outs and retries of those that wait (R136 to R139, R294). -/

set_option Elab.async false

namespace Sys2Proof.Machine

/-- A version access that its slice serves now: it stands at the head of its word's lane, can be performed in time, and no read is held on
its line (R136, R245). -/
structure VersionArrives (s : State) (id : Nat) (o : MemOp) (a : Acc) : Prop where
  op : s.opAt id = some o
  acc : (o.accs.find? fun x => x.lane == a.lane) = some a
  ready : s.accReady o a = true
  timely : a.overdue = false
  leaf : a.leaf ≠ 0
  single : (s.die (dieOf o.core)).heldReads.contains (holdId id a.lane) = false
  near : s.heldOn (dieOf o.core) (a.pa / 128) = []
  home : s.heldOn (a.pa / 2 ^ 48) (a.pa / 128) = []
  free : s.mayHold o a = false

namespace VersionArrives

variable {s : State} {id : Nat} {o : MemOp} {a : Acc}

theorem verArrive (h : VersionArrives s id o a) {k : OpKind} (hk : o.kind = k) (f : State → MemOp → Acc → State) :
    s.verArrive id a.lane k f = .next (f s o a) := by
  have hpend : a.st = .pend := by
    have hr := h.ready
    simp only [State.accReady, Bool.and_eq_true, beq_iff_eq] at hr
    exact hr.1.1.1.1.1
  have hcheck : s.recheck o a = s := if_pos h.leaf
  have hends : s.endHolds o a = s := by simp [State.endHolds, h.near]
  have hleaf : a.leaf ≠ 0#64 := h.leaf
  have hsingle : holdId id a.lane ∉ (s.die (dieOf o.core)).heldReads := by simpa using h.single
  simp [State.verArrive, h.op, h.acc, hk, h.ready, h.timely, hcheck, hpend, hleaf, hsingle, hends, h.free]

theorem vldEq_exec (h : VersionArrives s id o a) (hk : o.kind = .vldEq) : exec (.vldEqAtSlice id a.lane) s = .next (s.vldEq o a) :=
  h.verArrive hk _

theorem vldLe_exec (h : VersionArrives s id o a) (hk : o.kind = .vldLe) : exec (.vldLeAtSlice id a.lane) s = .next (s.vldLe o a) :=
  h.verArrive hk _

theorem vst_exec (h : VersionArrives s id o a) (hk : o.kind = .vst) : exec (.vstAtSlice id a.lane) s = .next (s.vst o a) :=
  h.verArrive hk _

theorem failVer_eq (h : VersionArrives s id o a) (code : Nat) :
    s.failVer o a code = s.failAccs id code ((s.sameVer o a).map (·.lane)) := by
  rw [State.failVer, State.opAt_id h.op]

/-- An access that changes only accesses of its own word. -/
theorem opAt_changed (h : VersionArrives s id o a) {u : State} (hu : u.ops = s.ops) (p : Acc → Bool) (f : Acc → Acc) :
    (∀ k, k ≠ id → (u.modAccs o.id p f).opAt k = s.opAt k) ∧
      (u.modAccs o.id p f).opAt id = some { o with accs := o.accs.map fun x => if p x then f x else x } := by
  obtain rfl := State.opAt_id h.op
  refine ⟨fun k hk => ?_, ?_⟩
  · rw [State.opAt_modAccs, State.opAt_congr hu]
    simp [hk]
  · rw [State.opAt_modAccs, State.opAt_congr hu, h.op, Option.map_some, if_pos rfl]

end VersionArrives

/-! Reads of a version. -/

theorem State.useLine_rest (s : State) (pa : Nat) : { s.useLine pa with grans := s.grans, nextId := s.nextId } = s := by
  unfold State.useLine
  split <;> rfl

theorem State.useLine_ops (s : State) (pa : Nat) : (s.useLine pa).ops = s.ops := by
  unfold State.useLine
  split <;> rfl

theorem State.readVer_fails {s : State} {o : MemOp} {a : Acc} {v : Nat} (flit : Nat)
    (h : (s.badRead (a.pa / 128) o.ctx || !s.chainOk (s.gran a.pa) v) = true) : s.readVer o a v flit = s.failVer o a 0x0D := if_pos h

theorem State.readVer_gets {s : State} {o : MemOp} {a : Acc} {v : Nat} (flit : Nat)
    (h : (s.badRead (a.pa / 128) o.ctx || !s.chainOk (s.gran a.pa) v) = false) :
    s.readVer o a v flit = s.gotVer o a (s.verData a.pa (s.keyId a.pa (leafKey a.leaf.toNat)) (s.gran a.pa) v) flit :=
  if_neg (by simp [h])

/-- What a read of an existing version comes to (R137, R291, R292). -/
theorem VersionArrives.reads {s : State} {id : Nat} {o : MemOp} {a : Acc} (h : VersionArrives s id o a) {e : Out} {v : Nat}
    (he : e = .next (s.readVer o a v (1 + holdId o.id a.lane))) :
    let g := s.gran a.pa
    let same := s.sameVer o a
    ((s.badRead (a.pa / 128) o.ctx || !s.chainOk g v) = true → e = .next (s.failAccs id 0x0D (same.map (·.lane)))) ∧
      ((s.badRead (a.pa / 128) o.ctx || !s.chainOk g v) = false → ∃ t, e = .next t ∧
        { t with ops := s.ops, grans := s.grans, nextId := s.nextId } = s ∧ (∀ k, k ≠ id → t.opAt k = s.opAt k) ∧
        t.opAt id = some { o with
          accs := o.accs.map fun x => if same.contains x then
            { x with st := .perf, data := s.verData a.pa (s.keyId a.pa (leafKey a.leaf.toNat)) g v, flit := 1 + holdId id a.lane } else x }) := by
  refine ⟨fun hb => by rw [he, State.readVer_fails _ hb, h.failVer_eq], fun hb => ?_⟩
  obtain ⟨hne, hid⟩ := h.opAt_changed (s.useLine_ops a.pa) (fun x => (s.sameVer o a).contains x) fun x =>
    { x with st := .perf, data := s.verData a.pa (s.keyId a.pa (leafKey a.leaf.toNat)) (s.gran a.pa) v, flit := 1 + holdId o.id a.lane }
  refine ⟨_, by rw [he, State.readVer_gets _ hb, State.gotVer], ?_, hne, hid.trans ?_⟩
  · exact (congrArg (fun u : State => { u with ops := s.ops }) (s.useLine_rest a.pa) :)
  · rw [State.opAt_id h.op]

/-! VLD.EQ and VLD.LE. -/

section
variable {s : State} {o : MemOp} {a : Acc} {p : Place}

theorem State.vldEq_unarmed (h : s.verPlace o a = none) : s.vldEq o a = s.failVer o a 0x13 := by
  rw [State.vldEq, h]

theorem State.vldLe_unarmed (h : s.verPlace o a = none) : s.vldLe o a = s.failVer o a 0x13 := by
  rw [State.vldLe, h]

theorem State.vst_unarmed (h : s.verPlace o a = none) : s.vst o a = s.failVer o a 0x13 := by
  rw [State.vst, h]

theorem State.vldEq_reclaimed (h : s.verPlace o a = some p) (hb : a.aux.toNat < p.floor) : s.vldEq o a = s.failVer o a 0x0E := by
  rw [State.vldEq, h]
  exact if_pos hb

theorem State.vldEq_exists (h : s.verPlace o a = some p) (hb : p.floor ≤ a.aux.toNat) (hv : (s.gran a.pa).hasV a.aux.toNat = true) :
    s.vldEq o a = s.readVer o a a.aux.toNat (1 + holdId o.id a.lane) := by
  rw [State.vldEq, h]
  exact (if_neg (Nat.not_lt.2 hb)).trans (if_pos hv)

theorem State.vldEq_bad (h : s.verPlace o a = some p) (hb : p.floor ≤ a.aux.toNat) (hv : (s.gran a.pa).hasV a.aux.toNat = false)
    (hc : s.chainOk (s.gran a.pa) a.aux.toNat = false) : s.vldEq o a = s.failVer o a 0x0D := by
  rw [State.vldEq, h]
  exact (if_neg (Nat.not_lt.2 hb)).trans ((if_neg (by simp [hv])).trans (if_pos (by simp [hc])))

theorem State.vldEq_waits (h : s.verPlace o a = some p) (hb : p.floor ≤ a.aux.toNat) (hv : (s.gran a.pa).hasV a.aux.toNat = false)
    (hc : s.chainOk (s.gran a.pa) a.aux.toNat = true) :
    s.vldEq o a = s.modAccs o.id (fun x => (s.sameVer o a).contains x) fun x =>
      x.park (s.verTout o p.num) !(((s.sameVer o a).take (2048 - s.waitersAt p.home)).contains x) := by
  rw [State.vldEq, h]
  exact (if_neg (Nat.not_lt.2 hb)).trans ((if_neg (by simp [hv])).trans (if_neg (by simp [hc])))

theorem Acc.park_not (x : Acc) (tout : Nat) (fits : Bool) : x.park tout (!fits) =
    { x with
      st := if fits then .waitVer else .back, left := if x.left = 0 then tout + 1 else x.left, back := if fits then 0 else 100 } := by
  cases fits <;> rfl

theorem State.vldLe_none (h : s.verPlace o a = some p) (hv : (s.gran a.pa).atMost a.aux.toNat = none) :
    s.vldLe o a = s.failVer o a (if s.chainOk (s.gran a.pa) a.aux.toNat then 0x0E else 0x0D) := by
  rw [State.vldLe, h]
  dsimp only
  rw [hv]

theorem State.vldLe_some (h : s.verPlace o a = some p) {v : Nat} (hv : (s.gran a.pa).atMost a.aux.toNat = some v) :
    s.vldLe o a = s.readVer o a v (1 + holdId o.id a.lane) := by
  rw [State.vldLe, h]
  dsimp only
  rw [hv]

end

/-! Time-outs and retries. -/

theorem versionWaitTimeout_fails {s : State} {id : Nat} {o : MemOp} (hop : s.opAt id = some o) {a : Acc} (ha : a ∈ o.accs)
    (hd : a.overdue = true) :
    exec (.versionWaitTimeout id a.lane) s = .next (s.failAccs id 0x12 ((o.accs.filter Acc.overdue).map (·.lane))) := by
  have hany : ((o.accs.filter Acc.overdue).any fun x => x.lane == a.lane) = true :=
    List.any_eq_true.2 ⟨a, List.mem_filter.2 ⟨ha, hd⟩, by simp⟩
  rw [exec_versionWaitTimeout, execVersionWaitTimeout, hop]
  exact if_pos hany

theorem vldReturnRetry_sends {s : State} {id : Nat} {o : MemOp} (hop : s.opAt id = some o) (lane : Nat) :
    ∃ t, exec (.vldReturnRetry id lane) s = .next t ∧ { t with ops := s.ops } = s ∧ (∀ k, k ≠ id → t.opAt k = s.opAt k) ∧
      t.opAt id = some { o with accs := o.accs.map fun x =>
        if x.lane = lane ∧ x.st = .back ∧ x.back = 0 ∧ x.left ≠ 1 then s.sent o.core { x with st := .pend } else x } := by
  have hexec : exec (.vldReturnRetry id lane) s = .next (s.modAccs id
      (fun x => x.lane == lane && x.st == .back && x.back == 0 && x.left != 1) fun x => s.sent o.core { x with st := .pend }) := by
    rw [exec_vldReturnRetry, execVldReturnRetry, hop]
  refine ⟨_, hexec, rfl, fun k hk => ?_, ?_⟩
  · rw [State.opAt_modAccs]
    simp [hk]
  · rw [State.opAt_modAccs, hop]
    simp [and_assoc]

end Sys2Proof.Machine
end

