-- ==== Sys2Proof/Proofs/VersionFloors.lean ====
section
/-! Floors: which versions a granule keeps when its home slice applies a floor (R141, R297). -/

set_option Elab.async false

namespace Sys2Proof.Machine

/-! The versions of a granule. -/

theorem Gran.hasV_eq (g : Gran) (v : Nat) : g.hasV v = (g.slots.has v || (FMap.has g.heap v || (g.image && v == 0))) := by
  have hmap : ∀ {α : Type} (l : List (Nat × α)), (l.map (·.1)).contains v = FMap.has l v := fun l => by
    rw [Bool.eq_iff_iff]
    simp [FMap.has]
  rw [Gran.hasV, Gran.all, List.contains_append, List.contains_append, hmap, hmap, Bool.or_assoc]
  cases g.image <;> simp
  rfl

theorem FMap.has_filter {α : Type} (m : FMap α) (p : Nat → Bool) (k : Nat) :
    FMap.has (m.filter fun e => p e.1) k = (m.has k && p k) := by
  rw [Bool.eq_iff_iff]
  simp only [FMap.has, List.any_filter, Bool.and_eq_true, List.any_eq_true, beq_iff_eq]
  constructor
  · rintro ⟨e, he, hp, rfl⟩
    exact ⟨⟨e, he, rfl⟩, hp⟩
  · rintro ⟨⟨e, he, rfl⟩, hp⟩
    exact ⟨e, he, hp, rfl⟩

/-! A version's record leaves the chain. -/

theorem State.fromHeap_slots (s : State) (pa : Nat) (g : Gran) (v : Nat) : (s.fromHeap pa g v).2.slots = g.slots := by
  unfold State.fromHeap
  split <;> rfl

theorem State.fromHeap_image (s : State) (pa : Nat) (g : Gran) (v : Nat) : (s.fromHeap pa g v).2.image = g.image := by
  unfold State.fromHeap
  split <;> rfl

theorem State.fromHeap_has (s : State) (pa : Nat) (g : Gran) (v w : Nat) :
    FMap.has (s.fromHeap pa g v).2.heap w = (FMap.has g.heap w && w != v) := by
  unfold State.fromHeap
  split
  next h =>
    by_cases hw : w = v
    · subst hw
      simpa [FMap.has] using h
    · simp [hw]
  next e h =>
    dsimp only
    rw [FMap.has, List.any_append]
    change (FMap.has (g.heap.filter fun x => v < x.1) w || FMap.has (g.heap.filter fun x => x.1 < v) w) = _
    rw [FMap.has_filter g.heap (fun x => v < x), FMap.has_filter g.heap (fun x => x < v), ← Bool.and_or_distrib_left]
    congr 1
    rw [Bool.eq_iff_iff]
    simp only [Bool.or_eq_true, decide_eq_true_eq, bne_iff_ne]
    omega

/-- What the records of several versions leave when they go. -/
theorem foldl_fromHeap (pa : Nat) (l : List Nat) (q : State × Gran) :
    let r := l.foldl (fun (q : State × Gran) v => q.1.fromHeap pa q.2 v) q
    r.2.slots = q.2.slots ∧ r.2.image = q.2.image ∧ ∀ w, FMap.has r.2.heap w = (FMap.has q.2.heap w && !l.contains w) := by
  induction l generalizing q with
  | nil => simp
  | cons v l ih =>
    obtain ⟨hs, hi, hh⟩ := ih (q.1.fromHeap pa q.2 v)
    refine ⟨hs.trans (State.fromHeap_slots ..), hi.trans (State.fromHeap_image ..), fun w => ?_⟩
    rw [List.foldl_cons, hh, State.fromHeap_has, List.contains_cons, Bool.not_or, Bool.and_assoc]
    rfl

/-- Versions that return to slots are still there. -/
theorem State.refill_hasV (n : Nat) (s : State) (pa : Nat) (g : Gran) (w : Nat) : (s.refill pa g n).2.hasV w = g.hasV w := by
  induction n generalizing s g with
  | zero => rfl
  | succ n ih =>
    unfold State.refill
    split
    · rfl
    next v a r hheap =>
      split
      · have hv : FMap.has g.heap v = true := by rw [hheap]; simp [FMap.has]
        rw [ih, Gran.hasV_eq, Gran.hasV_eq]
        dsimp only
        rw [FMap.has_set, State.fromHeap_slots, State.fromHeap_image, State.fromHeap_has]
        by_cases hw : w = v
        · simp [hw, hv]
        · simp [bne, beq_false_of_ne hw]
      · rfl

@[simp] theorem State.gran_putGran_self (s : State) (pa : Nat) (g : Gran) : (s.putGran pa g).gran pa = g := FMap.get_set_self ..

/-- Whether a granule keeps a version under a floor: at or above it, or the newest below it (R297). -/
def Gran.keeps (g : Gran) (fl v : Nat) : Bool := fl ≤ v || some v == if fl = 0 then none else g.atMost (fl - 1)

theorem Gran.keeps_iff (g : Gran) (fl v : Nat) : g.keeps fl v = true ↔ fl ≤ v ∨ fl ≠ 0 ∧ g.atMost (fl - 1) = some v := by
  rw [Gran.keeps, Bool.or_eq_true, decide_eq_true_eq, beq_iff_eq]
  split
  next h => simp [h]
  next h => rw [eq_comm]; exact or_congr_right (and_iff_right h).symm

theorem State.applyFloor_hasV (s : State) (pa fl v : Nat) : ((s.applyFloor pa fl).gran pa).hasV v = true ↔
    (s.gran pa).hasV v = true ∧ (fl ≤ v ∨ fl ≠ 0 ∧ (s.gran pa).atMost (fl - 1) = some v) := by
  let gone := ((s.gran pa).heap.map (·.1)).filter fun v => !(s.gran pa).keeps fl v
  obtain ⟨hs, hi, hh⟩ := foldl_fromHeap pa gone (s, s.gran pa)
  have hgone : gone.contains v = (FMap.has (s.gran pa).heap v && !(s.gran pa).keeps fl v) := by
    rw [Bool.eq_iff_iff]
    simp [gone, FMap.has]
  have happly : ((s.applyFloor pa fl).gran pa).hasV v = ((s.gran pa).hasV v && (s.gran pa).keeps fl v) := by
    rw [State.applyFloor, State.gran_putGran_self, State.refill_hasV, Gran.hasV_eq, Gran.hasV_eq]
    change (FMap.has ((gone.foldl _ (s, s.gran pa)).2.slots.filter fun e => (s.gran pa).keeps fl e.1) v ||
      (FMap.has (gone.foldl _ (s, s.gran pa)).2.heap v || ((s.gran pa).image && (s.gran pa).keeps fl 0) && v == 0)) = _
    rw [FMap.has_filter _ ((s.gran pa).keeps fl), hs, hh, hgone]
    by_cases hv : v = 0
    · subst hv
      cases (s.gran pa).keeps fl 0 <;> simp
    · rw [beq_false_of_ne hv]
      cases (s.gran pa).keeps fl v <;> simp
  rw [happly, Bool.and_eq_true, Gran.keeps_iff]

end Sys2Proof.Machine
end

