-- ==== Sys2Proof/Proofs/VersionFrames.lean ====
section
/-! What the writes of an agent, the records of a heap and the page-class change leave alone: no operation in flight changes, no region is
armed, disarmed or gets another floor; and no trap changes a region. -/

set_option Elab.async false

namespace Sys2Proof.Machine

/-- The operations in flight and the regions are as before. -/
structure SameWords (s t : State) : Prop where
  ops : t.ops = s.ops
  regions : t.regions = s.regions

namespace SameWords

theorem refl (s : State) : SameWords s s := ⟨rfl, rfl⟩

theorem trans {s t u : State} (h : SameWords s t) (k : SameWords t u) : SameWords s u := ⟨k.ops.trans h.ops, k.regions.trans h.regions⟩

theorem foldl {α : Type} {f : State → α → State} (hf : ∀ u x, SameWords u (f u x)) (l : List α) (s : State) : SameWords s (l.foldl f s) :=
  List.foldlRecOn (motive := SameWords s) l f (refl s) fun u hu x _ => hu.trans (hf u x)

theorem ite {c : Prop} [Decidable c] {s t u : State} (ht : SameWords s t) (hu : SameWords s u) : SameWords s (if c then t else u) := by
  split
  · exact ht
  · exact hu

/-! Writes. -/

theorem rekeyBlock (s : State) (b key : Nat) : SameWords s (s.rekeyBlock b key) := by
  unfold State.rekeyBlock
  exact .ite (refl s) (.ite ⟨rfl, rfl⟩ ⟨rfl, rfl⟩)

theorem rekey (s : State) (pa n key : Nat) : SameWords s (s.rekey pa n key) := foldl (fun u _ => rekeyBlock u _ _) _ s

theorem backKey (s : State) (pa key n v : Nat) : SameWords s (s.backKey pa key n v) := (rekey s pa n key).trans ⟨rfl, rfl⟩

theorem wrKey (s : State) (pa key n v : Nat) : SameWords s (s.wrKey pa key n v) := (rekey s pa n key).trans ⟨rfl, rfl⟩

theorem landData (s : State) (line : Nat) : SameWords s (s.landData line) := by
  unfold State.landData
  refine trans (trans (foldl (fun u m => ?_) s.dmsgs s) (foldl (fun u d => ?_) (List.range 4) _)) ⟨rfl, rfl⟩
  · split
    · exact backKey u _ _ _ _
    · exact refl u
  · split
    · exact backKey u _ _ _ _
    · exact refl u

theorem modCopy (s : State) (line d : Nat) (f : Copy → Copy) : SameWords s (s.modCopy line d f) := ⟨rfl, rfl⟩

theorem recallCopies (s : State) (line : Nat) : SameWords s (s.recallCopies line) := by
  unfold State.recallCopies
  refine .ite (refl s) ((landData s line).trans (trans ?_ (foldl (fun u d => modCopy u line d _) _ _)))
  exact (SameWords.ite (backKey _ _ _ _ _) (refl _)).trans ⟨rfl, rfl⟩

theorem dropLease (s : State) (line : Nat) : SameWords s (s.dropLease line) := by
  unfold State.dropLease
  split
  · exact ⟨rfl, rfl⟩
  · exact refl s

theorem settleLine (s : State) (line : Nat) : SameWords s (s.settleLine line) := (dropLease s line).trans (recallCopies _ line)

theorem agentWrite (s : State) (pa n key v : Nat) : SameWords s (s.agentWrite pa n key v) :=
  foldl (fun u l => (settleLine u l).trans (wrKey _ _ _ _ _)) _ s

/-! Heap records and granules. -/

theorem heapPut (s : State) (a r : Nat) : SameWords s (s.heapPut a r) := agentWrite s _ _ _ _

theorem heapLink (s : State) (a nxt : Nat) : SameWords s (s.heapLink a nxt) := by
  unfold State.heapLink
  exact .ite (heapPut s _ _) (refl s)

theorem modHeap (s : State) (d ctx : Nat) (f : Heap → Heap) : SameWords s (s.modHeap d ctx f) := ⟨rfl, rfl⟩

theorem putGran (s : State) (pa : Nat) (g : Gran) : SameWords s (s.putGran pa g) := ⟨rfl, rfl⟩

theorem chainPut (s : State) (pa : Nat) (g : Gran) (a v : Nat) (data : BitVec 256) : SameWords s (s.chainPut pa g a v data).1 := by
  unfold State.chainPut
  dsimp only
  split
  · exact (heapPut s _ _).trans (heapLink _ _ _)
  · exact heapPut s _ _

theorem toHeap {s u : State} {pa v : Nat} {g h : Gran} {data : BitVec 256} (e : s.toHeap pa g v data = some (u, h)) : SameWords s u := by
  unfold State.toHeap at e
  dsimp only at e
  split at e
  · cases e
  next a hp _ =>
    have hu : _ = u := congrArg Prod.fst (Option.some.inj e)
    rw [← hu]
    exact (modHeap s _ _ _).trans (chainPut _ _ _ _ _ _)

theorem fromHeap (s : State) (pa : Nat) (g : Gran) (v : Nat) : SameWords s (s.fromHeap pa g v).1 := by
  unfold State.fromHeap
  split
  · exact refl s
  · dsimp only
    split
    · exact (heapLink s _ _).trans (modHeap _ _ _ _)
    · exact modHeap s _ _ _

theorem refill (n : Nat) (s : State) (pa : Nat) (g : Gran) : SameWords s (s.refill pa g n).1 := by
  induction n generalizing s g with
  | zero => exact refl s
  | succ n ih =>
    unfold State.refill
    split
    · exact refl s
    · split
      · exact (fromHeap s pa g _).trans (ih _ _)
      · exact refl s

theorem applyFloor (s : State) (pa fl : Nat) : SameWords s (s.applyFloor pa fl) := by
  have hgone : ∀ l : List Nat, SameWords s (l.foldl (fun (q : State × Gran) v => q.1.fromHeap pa q.2 v) (s, s.gran pa)).1 := fun l =>
    List.foldlRecOn (motive := fun q : State × Gran => SameWords s q.1) l _ (refl s) fun q hq v _ => hq.trans (fromHeap q.1 pa q.2 v)
  exact ((hgone _).trans (refill 4 _ pa _)).trans (putGran _ _ _)

theorem spillLine {s u : State} {pa : Nat} (e : s.spillLine pa = some u) : SameWords s u := by
  unfold State.spillLine at e
  dsimp only at e
  split at e
  · cases e
  · split at e
    next x w h heq =>
      have hu : _ = u := Option.some.inj e
      rw [← hu]
      refine trans (List.foldlRecOn (motive := fun o => ∀ q, o = some q → SameWords s q.1) _ _ ?_ ?_ _ heq) (putGran _ _ _)
      · exact fun q hq => Option.some.inj hq ▸ refl s
      · intro o ho e _ q hq
        cases o with
        | none => cases hq
        | some p => exact (ho p rfl).trans (toHeap hq)
    · cases e

theorem getLine {s u : State} {place : Nat} (e : s.getLine place = some u) : SameWords s u := by
  unfold State.getLine at e
  split at e
  · exact Option.some.inj e ▸ refl s
  · exact spillLine e

theorem writeBackGran (s : State) (pa : Nat) : SameWords s (s.writeBackGran pa) := by
  refine trans ?_ (trans (foldl (fun u e => modHeap u _ _ _) _ _) ⟨rfl, rfl⟩)
  split
  · exact .ite (refl s) (backKey s _ _ _ _)
  · exact refl s

/-! The page-class change. -/

theorem backLine (s : State) (line : Nat) (x : L1Line) : SameWords s (s.backLine line x) := by
  unfold State.backLine
  exact .ite (refl s) (trans (foldl (fun u i => .ite (rekey u _ _ _) (refl u)) _ s) ⟨rfl, rfl⟩)

theorem dropTlbs (s : State) (d : Nat) (p : (ctx page leaf : Nat) → Bool) : SameWords s (s.dropTlbs d p) := ⟨rfl, rfl⟩

theorem dropRange (s : State) (b n : Nat) : SameWords s (s.dropRange b n) := by
  unfold State.dropRange
  refine trans ?_ (foldl (fun u (e : Nat × DirEnt) => recallCopies u e.1) _ _)
  refine trans (foldl (fun u c => foldl (fun v e => ?_) _ u) s.cores s) ⟨rfl, rfl⟩
  exact .ite (backLine v _ _) (refl v)

theorem setClass (s : State) (d ctx va : Nat) (cc pin ver : Option Nat) : SameWords s (s.setClass d ctx va cc pin ver) := by
  unfold State.setClass
  split
  · dsimp only
    refine trans (trans ?_ (foldl (fun u a => agentWrite u _ _ _ _) _ _)) ⟨rfl, rfl⟩
    refine trans (trans ?_ (dropRange _ _ _)) ⟨rfl, rfl⟩
    exact foldl (fun u x => dropTlbs u x _) (List.range 4) s
  · exact refl s

theorem verPages (s : State) (ctx base ngran ver : Nat) : SameWords s (s.verPages ctx base ngran ver) := by
  refine foldl (fun v d => foldl (fun u p => ?_) _ v) _ s
  split
  · exact .ite (refl u) (setClass u _ _ _ _ _ _)
  · exact refl u

end SameWords

/-! Traps. -/

theorem State.foldl_regions {α : Type} {f : State → α → State} (hf : ∀ u x, (f u x).regions = u.regions) (l : List α) (s : State) :
    (l.foldl f s).regions = s.regions :=
  List.foldlRecOn (motive := fun u => u.regions = s.regions) l f rfl fun u hu x _ => (hf u x).trans hu

theorem State.wrOwn_regions (s : State) (pa n v : Nat) : (s.wrOwn pa n v).regions = s.regions := by
  unfold State.wrOwn
  split
  · rfl
  · exact (SameWords.wrKey s _ _ _ _).regions

theorem State.logCtx_regions (s : State) (d ctx kind flags body : Nat) : (s.logCtx d ctx kind flags body).regions = s.regions := by
  unfold State.logCtx
  dsimp only
  split
  · split
    · exact s.wrOwn_regions _ _ _
    · rfl
  · rfl

theorem State.logSys_regions (s : State) (d kind flags ctx body : Nat) : (s.logSys d kind flags ctx body).regions = s.regions := by
  unfold State.logSys
  dsimp only
  split
  · split <;> exact s.wrOwn_regions _ _ _
  · rfl

theorem State.haltGroup_regions (s : State) (gid : Nat) (t : Trap) (skids : Bool) : (s.haltGroup gid t skids).regions = s.regions :=
  State.foldl_regions (by intros; rfl) _ _

theorem State.trapRecord_regions (s : State) (gid : Nat) (t : Trap) (double : Bool) : (s.trapRecord gid t double).regions = s.regions := by
  unfold State.trapRecord
  dsimp only
  split
  · exact s.logCtx_regions ..
  · exact (State.logSys_regions ..).trans (s.logCtx_regions ..)

theorem State.endGroup_regions (s : State) (gid : Nat) : (s.endGroup gid).regions = s.regions :=
  (State.foldl_regions (by intros; rfl) _ _).trans (State.foldl_regions (f := fun u h => u.fall gid h) (by intros; rfl) _ s)

theorem State.endWithError_regions (s : State) (gid : Nat) (t : Trap) (double : Bool) : (s.endWithError gid t double).regions = s.regions :=
  (State.endGroup_regions _ gid).trans (s.trapRecord_regions gid t double)

theorem State.trapA_regions (s : State) (gid : Nat) (t : Trap) (own : Bool) : (s.trapA gid t own).regions = s.regions := by
  unfold State.trapA
  split
  · rfl
  · rfl
  · split
    · rfl
    · split
      · rfl
      · exact s.endWithError_regions ..
  · rfl
  · split
    · rfl
    · exact s.haltGroup_regions ..

theorem State.engTrap_regions (s : State) (gid slot code eaddr : Nat) (own : Bool) (flag : Nat) :
    (s.engTrap gid slot code eaddr own flag).regions = s.regions := by
  unfold State.engTrap
  split
  · exact s.trapA_regions ..
  · rfl

theorem State.mxFail_regions (s : State) (core : Nat) (o : MxOp) (code eaddr : Nat) : (s.mxFail core o code eaddr).regions = s.regions :=
  State.engTrap_regions ..

theorem State.failAmx_regions (s : State) (o : MemOp) : (s.failAmx o).regions = s.regions :=
  State.foldl_regions (fun _ _ => State.mxFail_regions ..) _ _

theorem State.failAccs_regions (s : State) (id code : Nat) (lanes : List Nat) : (s.failAccs id code lanes).regions = s.regions := by
  unfold State.failAccs
  split
  · rfl
  · split
    · exact s.failAmx_regions _
    · dsimp only
      split
      · rfl
      · exact State.trapA_regions ..

theorem State.failWaitsOf_regions (s : State) (i code : Nat) (p : MemOp → Acc → Bool) : (s.failWaitsOf i code p).regions = s.regions := by
  refine State.foldl_regions (fun u o => ?_) _ s
  dsimp only
  split
  · rfl
  · exact u.failAccs_regions ..

theorem State.failFloor_regions (s : State) (o : MemOp) (va : Nat) : (s.failFloor o va).regions = s.regions := State.trapA_regions ..

theorem State.overOp_regions (s : State) (id : Nat) : (s.overOp id).regions = s.regions := by
  rcases s.overOp_cases id with h | h <;> rw [h]
  rfl

end Sys2Proof.Machine
end

