-- ==== Sys2Proof/Proofs/VersionCreation.lean ====
section
/-! The creation of a version: VST makes it once, and completes the accesses that wait for it (R136, R137, R138, R290). -/

set_option Elab.async false

namespace Sys2Proof.Machine

/-! The created version exists. -/

theorem Gran.hasV_of_slots {g : Gran} {v : Nat} (h : g.slots.has v = true) : g.hasV v = true := by
  rw [Gran.hasV_eq, h, Bool.true_or]

theorem Gran.hasV_of_heap {g : Gran} {v : Nat} (h : FMap.has g.heap v = true) : g.hasV v = true := by
  rw [Gran.hasV_eq, h, Bool.true_or, Bool.or_true]

theorem FMap.has_set_self {α : Type} (m : FMap α) (k : Nat) (v : α) : (m.set k v).has k = true := by
  rw [FMap.has_set, beq_self_eq_true, Bool.true_or]

theorem State.toHeap_hasV {s u : State} {pa v : Nat} {g h : Gran} {data : BitVec 256} (e : s.toHeap pa g v data = some (u, h)) :
    h.hasV v = true := by
  unfold State.toHeap at e
  dsimp only at e
  split at e
  · cases e
  · have hh : _ = h := congrArg Prod.snd (Option.some.inj e)
    refine Gran.hasV_of_heap ?_
    rw [← hh]
    simp [State.chainPut, FMap.has]

/-- A granule is put back with a version more, and its line counts as used and written. -/
def State.withGran (s : State) (pa : Nat) (g : Gran) : State :=
  ({ (s.putGran pa g) with nextId := s.nextId + 1 } : State).touch (pa / 128)

theorem State.gran_withGran (s : State) (pa : Nat) (g : Gran) : (s.withGran pa g).gran pa = g := FMap.get_set_self ..

theorem State.create_eq {s t : State} {pa pin kslot ctx num v : Nat} {data : BitVec 256}
    (e : s.create pa pin kslot ctx num v data = some t) : ∃ u g, SameWords s u ∧ g.hasV v = true ∧ t = u.withGran pa g := by
  unfold State.create at e
  dsimp only at e
  split at e
  · split at e
    · cases e
    next u hu =>
      exact ⟨u, _, .getLine hu, Gran.hasV_of_slots (by simp [FMap.has]), (Option.some.inj e).symm⟩
  · split at e
    · exact ⟨s, _, .refl s, Gran.hasV_of_slots (FMap.has_set_self ..), (Option.some.inj e).symm⟩
    · split at e
      · cases e
      · split at e
        · split at e
          next u h hu => exact ⟨u, h, .toHeap hu, State.toHeap_hasV hu, (Option.some.inj e).symm⟩
          · cases e
        · split at e
          next u h hu => exact ⟨u, _, .toHeap hu, Gran.hasV_of_slots (FMap.has_set_self ..), (Option.some.inj e).symm⟩
          · cases e

theorem State.create_ops {s t : State} {pa pin kslot ctx num v : Nat} {data : BitVec 256}
    (e : s.create pa pin kslot ctx num v data = some t) : t.ops = s.ops := by
  obtain ⟨u, g, hu, -, rfl⟩ := State.create_eq e
  exact hu.ops

theorem State.create_hasV {s t : State} {pa pin kslot ctx num v : Nat} {data : BitVec 256}
    (e : s.create pa pin kslot ctx num v data = some t) : (t.gran pa).hasV v = true := by
  obtain ⟨u, g, -, hv, rfl⟩ := State.create_eq e
  rw [State.gran_withGran]
  exact hv

/-! VST. -/

/-- An access that waits in time for a version of a granule has it (R138). -/
def Acc.woken (x : Acc) (id pa v : Nat) (data : BitVec 256) : Acc :=
  if x.st = .waitVer ∧ x.left ≠ 1 ∧ x.pa = pa ∧ x.aux.toNat = v then { x with st := .perf, data := data, flit := 1 + holdId id x.lane } else x

theorem State.opAt_wakeVer (s : State) (pa v : Nat) (data : BitVec 256) (k : Nat) :
    (s.wakeVer pa v data).opAt k = (s.opAt k).map fun o => { o with accs := o.accs.map fun x => x.woken o.id pa v data } := by
  rw [State.opAt, State.opAt]
  exact List.find?_map ..

/-- A VST has created its version: the lane that names it first is done, and the accesses that waited for it have it. -/
def State.vstDone (u : State) (o : MemOp) (a c : Acc) : State :=
  (u.modAccs o.id (fun x => x.lane == c.lane) fun x => { x with st := .perf }).wakeVer a.pa a.aux.toNat c.data

section
variable {s : State} {o : MemOp} {a c : Acc} {p : Place} {r : List Acc}

/-- A VST on an armed region whose line no read is held on, with the accesses that name its version (R136). -/
structure VstFinds (s : State) (o : MemOp) (a : Acc) (p : Place) (c : Acc) (r : List Acc) : Prop where
  place : s.verPlace o a = some p
  same : s.sameVer o a = c :: r
  home : s.heldOn (a.pa / 2 ^ 48) (a.pa / 128) = []

namespace VstFinds

theorem bad (h : VstFinds s o a p c r) (hc : s.chainOk (s.gran a.pa) a.aux.toNat = false) : s.vst o a = s.failVer o a 0x0D := by
  simp only [State.vst, h.place, h.same, State.sendHeld_nil h.home]
  exact if_pos (by rw [hc]; rfl)

theorem collides (h : VstFinds s o a p c r) (hc : s.chainOk (s.gran a.pa) a.aux.toNat = true)
    (hv : (s.gran a.pa).hasV a.aux.toNat = true) : s.vst o a = s.failVer o a 0x0F := by
  simp only [State.vst, h.place, h.same, State.sendHeld_nil h.home]
  exact (if_neg (by simp [hc])).trans (if_pos hv)

theorem reclaimed (h : VstFinds s o a p c r) (hc : s.chainOk (s.gran a.pa) a.aux.toNat = true)
    (hv : (s.gran a.pa).hasV a.aux.toNat = false) (hb : a.aux.toNat < p.floor) : s.vst o a = s.failVer o a 0x10 := by
  simp only [State.vst, h.place, h.same, State.sendHeld_nil h.home]
  exact (if_neg (by simp [hc])).trans ((if_neg (by simp [hv])).trans (if_pos hb))

section
variable (h : VstFinds s o a p c r) (hc : s.chainOk (s.gran a.pa) a.aux.toNat = true)
  (hv : (s.gran a.pa).hasV a.aux.toNat = false) (hb : p.floor ≤ a.aux.toNat)
include h hc hv hb

theorem full (hm : s.create a.pa (leafPin a.leaf.toNat) (leafKey a.leaf.toNat) o.ctx p.num a.aux.toNat c.data = none) :
    s.vst o a = s.failVer o a 0x11 := by
  simp only [State.vst, h.place, h.same, State.sendHeld_nil h.home, hm]
  exact (if_neg (by simp [hc])).trans ((if_neg (by simp [hv])).trans (if_neg (Nat.not_lt.2 hb)))

theorem badPlace {u : State} (hm : s.create a.pa (leafPin a.leaf.toNat) (leafKey a.leaf.toNat) o.ctx p.num a.aux.toNat c.data = some u)
    (hk : s.createOk a.pa (leafPin a.leaf.toNat) a.aux.toNat = false) : s.vst o a = s.failVer o a 0x0D := by
  simp only [State.vst, h.place, h.same, State.sendHeld_nil h.home, hm, hk]
  exact (if_neg (by simp [hc])).trans ((if_neg (by simp [hv])).trans (if_neg (Nat.not_lt.2 hb)))

theorem creates {u : State} (hm : s.create a.pa (leafPin a.leaf.toNat) (leafKey a.leaf.toNat) o.ctx p.num a.aux.toNat c.data = some u)
    (hk : s.createOk a.pa (leafPin a.leaf.toNat) a.aux.toNat = true) :
    s.vst o a = if r = [] then u.vstDone o a c else (u.vstDone o a c).failAccs o.id 0x0F (r.map (·.lane)) := by
  simp only [State.vst, h.place, h.same, State.sendHeld_nil h.home, hm, hk, List.isEmpty_iff]
  exact (if_neg (by simp [hc])).trans ((if_neg (by simp [hv])).trans (if_neg (Nat.not_lt.2 hb)))

end
end VstFinds
end

theorem State.gran_vstDone (u : State) (o : MemOp) (a c : Acc) (pa : Nat) : (u.vstDone o a c).gran pa = u.gran pa := rfl

theorem State.opAt_vstDone {s u : State} {id : Nat} {o : MemOp} {a c : Acc} (hid : o.id = id) (hu : u.ops = s.ops) {k : Nat} {e : MemOp}
    (hk : s.opAt k = some e) : (u.vstDone o a c).opAt k = some { e with accs := e.accs.map fun x =>
      if k = id ∧ x.lane = c.lane then { x with st := .perf }
      else if x.st = .waitVer ∧ x.left ≠ 1 ∧ x.pa = a.pa ∧ x.aux.toNat = a.aux.toNat then
        { x with st := .perf, data := c.data, flit := 1 + holdId e.id x.lane } else x } := by
  subst hid
  rw [State.vstDone, State.opAt_wakeVer, State.opAt_modAccs, State.opAt_congr hu, hk]
  by_cases h : k = o.id
  · rw [Option.map_some, if_pos h, Option.map_some, List.map_map]
    refine congrArg (fun l => some { e with accs := l }) (List.map_congr_left fun x _ => ?_)
    by_cases hl : x.lane = c.lane
    · simp [hl, h, Acc.woken]
    · simp [hl, Acc.woken]
  · rw [Option.map_some, if_neg h, Option.map_some]
    refine congrArg (fun l => some { e with accs := l }) (List.map_congr_left fun x _ => ?_)
    rw [if_neg fun hc => h hc.1]
    rfl

end Sys2Proof.Machine
end

