-- ==== Sys2Proof/Proofs/VersionRegions.lean ====
section
/-! Regions: a floor rises at its slice, and regions are armed and disarmed (R141, R285, R287, R288, R297). -/

set_option Elab.async false

namespace Sys2Proof.Machine

/-! Floors. -/

/-- A VFLOOR whose floor a home slice has still to apply, with the slice within reach and no time-out expired (R141, R422). -/
structure FloorArrives (s : State) (id : Nat) (o : MemOp) (place : Nat) : Prop where
  op : s.opAt id = some o
  kind : o.kind = .vfloor
  due : o.pendSl.contains place = true
  routed : s.routed (dieOf o.core) (place / 48) = true
  timely : o.left.get (place / 48) 0 ≠ 1

theorem FloorArrives.goes {s : State} {id : Nat} {o : MemOp} {place : Nat} (h : FloorArrives s id o place) :
    ¬ (o.kind ≠ .vfloor ∨ (!o.pendSl.contains place) = true ∨ (!s.routed (dieOf o.core) (place / 48)) = true ∨
      o.left.get (place / 48) 0 = 1) := by
  rw [h.due, h.routed]
  simp [h.kind, h.timely]

theorem FloorArrives.raises {s : State} {id : Nat} {o : MemOp} {place : Nat} (h : FloorArrives s id o place)
    (ha : (s.regions.get o.region {}).armed = true) (hp : (s.regions.get o.region {}).floors.has place = true) :
    ∃ t, exec (.vfloorApply id place) s = .next t ∧
      (t.regions.get o.region {}).floors.get place 0 = max o.fn ((s.regions.get o.region {}).floors.get place 0) := by
  refine ⟨_, by simp only [exec_vfloorApply, execVfloorApply, h.op]; rw [if_neg h.goes, if_neg (by simp [ha, hp])], ?_⟩
  rw [apply_ite State.regions, State.overOp_regions, ite_self, State.foldl_regions,
    (SameWords.foldl (fun u pa => SameWords.applyFloor u pa _) _ _).regions]
  · dsimp only
    rw [FMap.get_set_self, FMap.get_set_self]
  · intro u i
    split
    · split
      · exact (State.failFloor_regions ..).trans (u.failWaitsOf_regions ..)
      · exact u.failWaitsOf_regions ..
    · exact u.failWaitsOf_regions ..

theorem FloorArrives.passes {s : State} {id : Nat} {o : MemOp} {place : Nat} (h : FloorArrives s id o place)
    (hr : (s.regions.get o.region {}).armed = false ∨ (s.regions.get o.region {}).floors.has place = false) :
    ∃ t, exec (.vfloorApply id place) s = .next t ∧ { t with ops := s.ops } = s := by
  refine ⟨_, by simp only [exec_vfloorApply, execVfloorApply, h.op]; rw [if_neg h.goes, if_pos (by simpa using hr)], ?_⟩
  rcases State.overOp_cases _ id with hc | hc <;> rw [hc] <;> rfl

/-! Arming. -/

theorem State.armRegion_armed (s : State) (d ctx : Nat) (r : RegionE) : ((s.armRegion d ctx r).regions.get (64 * ctx + r.num) {}).armed = true := by
  unfold State.armRegion
  split
  next h => exact h
  · dsimp only
    rw [FMap.get_set_self]

/-- Arming a region ends no other. -/
theorem State.armRegion_keeps {s : State} (d ctx : Nat) (r : RegionE) {k : Nat} (h : (s.regions.get k {}).armed = true) :
    ((s.armRegion d ctx r).regions.get k {}).armed = true := by
  unfold State.armRegion
  split
  · exact h
  · dsimp only
    rw [FMap.get_set, (SameWords.verPages s _ _ _ _).regions]
    split
    · rfl
    · exact h

theorem foldl_armRegion_keeps (d ctx : Nat) (l : List RegionE) {s : State} {k : Nat} (h : (s.regions.get k {}).armed = true) :
    ((l.foldl (fun u r => u.armRegion d ctx r) s).regions.get k {}).armed = true :=
  List.foldlRecOn (motive := fun u : State => (u.regions.get k {}).armed = true) l _ h fun _ hu r _ => State.armRegion_keeps d ctx r hu

theorem foldl_armRegion_armed (d ctx : Nat) (l : List RegionE) (s : State) {r : RegionE} (hr : r ∈ l) :
    ((l.foldl (fun u r => u.armRegion d ctx r) s).regions.get (64 * ctx + r.num) {}).armed = true := by
  induction l generalizing s with
  | nil => cases hr
  | cons x l ih =>
    rcases List.mem_cons.1 hr with rfl | hr
    · exact foldl_armRegion_keeps d ctx l (s.armRegion_armed d ctx r)
    · exact ih _ hr

/-- A packet to another die changes no launch. -/
theorem State.launches_sendPkt (s : State) (a b : Nat) (x : PktBody) (d : Nat) :
    ((s.sendPkt a b x).die d).launches = (s.die d).launches := by
  change ((s.modLink a b _).die d).launches = _
  rw [State.modLink, State.die_modDie]
  split
  next h => rw [h]
  · rfl

/-- A launch that leaves its die is in the table no more (R347). -/
theorem State.dropLaunch_has (s : State) (d key : Nat) : ((s.dropLaunch d key).die d).launches.has key = false := by
  have hdel : ((s.modDie d fun x => { x with launches := x.launches.del key }).die d).launches.has key = false := by
    rw [State.die_modDie_self]
    simp [FMap.has, FMap.del]
  unfold State.dropLaunch
  dsimp only
  split
  · exact List.foldlRecOn (motive := fun u : State => (u.die d).launches.has key = false) _ _ hdel fun u hu e _ =>
      (congrArg (FMap.has · key) (u.launches_sendPkt d e _ d)).trans hu
  · exact hdel

/-- A launch whose regions can be looked at now (R255, R285). -/
structure LaunchArms (s : State) (die key : Nat) (l : Launch) : Prop where
  launch : (s.die die).launches.get key {} = l
  has : (s.die die).launches.has key = true
  phase : l.phase = .arm
  walked : l.wleft = 1 ∨ ∀ r ∈ l.rgns, s.armHeld die l.ctx r = false

namespace LaunchArms

variable {s : State} {die key : Nat} {l : Launch}

theorem here (h : LaunchArms s die key l) : ¬ ((!(s.die die).launches.has key) = true ∨ l.phase ≠ .arm) := by
  simp [h.has, h.phase]

theorem ready (h : LaunchArms s die key l) : ¬ (l.wleft ≠ 1 ∧ (l.rgns.any fun r => s.armHeld die l.ctx r) = true) := by
  rcases h.walked with hw | hw
  · exact fun hc => hc.1 hw
  · simpa using fun _ => hw

theorem arms (h : LaunchArms s die key l) (hok : s.regionsOk die key l.rgns = true)
    (hfree : ∀ r ∈ l.rgns, s.regionBusy die l.ctx r = false) :
    ∃ t, exec (.regionArming die key) s = .next t ∧ ((t.die die).launches.get key {}).phase = .ready ∧
      ∀ r ∈ l.rgns, (t.regions.get (64 * l.ctx + r.num) {}).armed = true := by
  have hbusy : ¬ (l.rgns.any fun r => s.regionBusy die l.ctx r) = true := by simpa using hfree
  refine ⟨_, by rw [exec_regionArming, execRegionArming, h.launch, if_neg h.here, if_neg h.ready, if_neg (by simp [hok]), if_neg hbusy], ?_, ?_⟩
  · rw [State.modLaunch, State.die_modDie_self, FMap.get_upd_self]
  · exact fun r hr => foldl_armRegion_armed die _ _ s hr

theorem refuses (h : LaunchArms s die key l) (hok : s.regionsOk die key l.rgns = false) :
    ∃ t, exec (.regionArming die key) s = .next t ∧ (t.die die).launches.has key = false := by
  refine ⟨_, by rw [exec_regionArming, execRegionArming, h.launch, if_neg h.here, if_neg h.ready, if_pos (by simp [hok])], ?_⟩
  exact State.dropLaunch_has _ die key

end LaunchArms

/-! Disarming. -/

theorem State.disarmRegion_has (s : State) (ctx num : Nat) : (s.disarmRegion ctx num).regions.has (64 * ctx + num) = false := by
  unfold State.disarmRegion
  dsimp only
  rw [(SameWords.verPages _ _ _ _ _).regions, (SameWords.foldl (fun u (e : Nat × Gran) => SameWords.writeBackGran u e.1) _ _).regions]
  simp [FMap.has, FMap.del]

/-- The command register's context and region, as the number of the region (R288). -/
theorem region_div_mod (val : Nat) : (64 * field val 16 12 + field val 0 6) / 64 = field val 16 12 ∧
    (64 * field val 16 12 + field val 0 6) % 64 = field val 0 6 := by
  have : field val 0 6 < 64 := Nat.mod_lt _ (by decide)
  omega

/-- A region-disarm command on a die that is up, with no other waiting (R288, R439). -/
structure DisarmGoes (s : State) (die : Nat) : Prop where
  up : (s.die die).br = 4
  free : (s.die die).dpend = none

namespace DisarmGoes

variable {s : State} {die val : Nat}

/-- What a command on a good value of the register comes to. -/
theorem exec_eq (h : DisarmGoes s die) : exec (.regionDisarm die val) s = .next (s.disarmCommand die val) := if_pos h.up

theorem bad (h : DisarmGoes s die) (hb : val / 2 ^ 28 ≠ 0 ∨ field val 6 10 ≠ 0) :
    s.disarmCommand die val = s.modDie die fun x => { x with disst := 2 } := by
  rw [State.disarmCommand, if_neg (by simp [h.free]), if_pos hb]

theorem unarmed (h : DisarmGoes s die) (hb : ¬ (val / 2 ^ 28 ≠ 0 ∨ field val 6 10 ≠ 0))
    (ha : (s.regions.get (64 * field val 16 12 + field val 0 6) {}).armed = false) :
    s.disarmCommand die val = s.modDie die fun x => { x with disst := 1 } := by
  rw [State.disarmCommand, if_neg (by simp [h.free]), if_neg hb, if_pos (by simp [ha])]

theorem waits (h : DisarmGoes s die) (hb : ¬ (val / 2 ^ 28 ≠ 0 ∨ field val 6 10 ≠ 0))
    (ha : (s.regions.get (64 * field val 16 12 + field val 0 6) {}).armed = true)
    (hw : s.regionHeld (field val 16 12) (field val 0 6) = true) :
    s.disarmCommand die val = s.modDie die fun x => { x with dpend := some (val, 10001) } := by
  rw [State.disarmCommand, if_neg (by simp [h.free]), if_neg hb, if_neg (by simp [ha]), if_pos hw]

theorem disarms (h : DisarmGoes s die) (hb : ¬ (val / 2 ^ 28 ≠ 0 ∨ field val 6 10 ≠ 0))
    (ha : (s.regions.get (64 * field val 16 12 + field val 0 6) {}).armed = true)
    (hw : s.regionHeld (field val 16 12) (field val 0 6) = false) :
    s.disarmCommand die val = (s.disarmRegion (field val 16 12) (field val 0 6)).modDie die fun x => { x with disst := 0 } := by
  rw [State.disarmCommand, if_neg (by simp [h.free]), if_neg hb, if_neg (by simp [ha]), if_neg (by simp [hw])]

end DisarmGoes

end Sys2Proof.Machine
end

