-- ==== Sys2Proof/Proofs/VersionEvents.lean ====
section
/-! Version accesses at the slice, their waits, floors, and regions (R136 to R141, R285 to R297). -/

set_option Elab.async false

namespace Sys2Proof.Machine

/-- An event that fails the accesses of a word for one version. -/
theorem VersionArrives.traps {s t : State} {id code : Nat} {o : MemOp} {a : Acc} {e : Out} (h : VersionArrives s id o a) (he : e = .next t)
    (ht : t = s.failVer o a code) : e = .next (s.failAccs id code ((s.sameVer o a).map (·.lane))) := by
  rw [he, ht, h.failVer_eq]

/-- VLD.EQ of a version that does not exist yet waits at the slice, or at its core where the slice has no room (R138, R294). -/
theorem VersionArrives.parks {s : State} {id : Nat} {o : MemOp} {a : Acc} {p : Place} (h : VersionArrives s id o a) (hk : o.kind = .vldEq)
    (hp : s.verPlace o a = some p) (hb : p.floor ≤ a.aux.toNat) (hv : (s.gran a.pa).hasV a.aux.toNat = false)
    (hc : s.chainOk (s.gran a.pa) a.aux.toNat = true) :
    let fit := (s.sameVer o a).take (2048 - s.waitersAt p.home)
    ∃ t, exec (.vldEqAtSlice id a.lane) s = .next t ∧ { t with ops := s.ops } = s ∧ (∀ k, k ≠ id → t.opAt k = s.opAt k) ∧
      t.opAt id = some { o with accs := o.accs.map fun x => if (s.sameVer o a).contains x then
        { x with st := if fit.contains x then .waitVer else .back, left := if x.left = 0 then s.verTout o p.num + 1 else x.left
                 back := if fit.contains x then 0 else 100 } else x } := by
  intro fit
  obtain ⟨hne, hid⟩ := h.opAt_changed (u := s) rfl (fun x => (s.sameVer o a).contains x) fun x =>
    x.park (s.verTout o p.num) !(fit.contains x)
  refine ⟨_, (h.vldEq_exec hk).trans (congrArg _ (State.vldEq_waits hp hb hv hc)), rfl, hne, hid.trans ?_⟩
  simp only [Acc.park_not]

/-- A region-disarm command that does not wait: its status, the region it ends, and the memory that a refused one leaves (R287, R288). -/
theorem DisarmGoes.answers {s : State} {die val : Nat} (h : DisarmGoes s die)
    (hw : (val / 2 ^ 28 ≠ 0 ∨ field val 6 10 ≠ 0) ∨ (s.regions.get (64 * field val 16 12 + field val 0 6) {}).armed = false ∨
      s.regionHeld (field val 16 12) (field val 0 6) = false) :
    ∃ t, exec (.regionDisarm die val) s = .next t ∧
      (t.die die).disst = (if val / 2 ^ 28 ≠ 0 ∨ field val 6 10 ≠ 0 then 2
        else if (s.regions.get (64 * field val 16 12 + field val 0 6) {}).armed then 0 else 1) ∧
      (¬ (val / 2 ^ 28 ≠ 0 ∨ field val 6 10 ≠ 0) → (s.regions.get (64 * field val 16 12 + field val 0 6) {}).armed = true →
        t.regions.has (64 * field val 16 12 + field val 0 6) = false) ∧
      ((val / 2 ^ 28 ≠ 0 ∨ field val 6 10 ≠ 0) ∨ (s.regions.get (64 * field val 16 12 + field val 0 6) {}).armed = false → t.mem = s.mem) := by
  by_cases hb : val / 2 ^ 28 ≠ 0 ∨ field val 6 10 ≠ 0
  · refine ⟨_, h.exec_eq.trans (congrArg _ (h.bad hb)), ?_, fun hn => absurd hb hn, fun _ => rfl⟩
    rw [State.die_modDie_self, if_pos hb]
  · cases ha : (s.regions.get (64 * field val 16 12 + field val 0 6) {}).armed with
    | false =>
      refine ⟨_, h.exec_eq.trans (congrArg _ (h.unarmed hb ha)), ?_, nofun, fun _ => rfl⟩
      rw [State.die_modDie_self, if_neg hb]
      rfl
    | true =>
      have hfree : s.regionHeld (field val 16 12) (field val 0 6) = false := (hw.resolve_left hb).resolve_left (by simp [ha])
      refine ⟨_, h.exec_eq.trans (congrArg _ (h.disarms hb ha hfree)), ?_, fun _ _ => s.disarmRegion_has _ _, fun hn => ?_⟩
      · rw [State.die_modDie_self, if_neg hb]
        rfl
      · exact absurd (hn.resolve_left hb) (by simp)

/-- Settles O46: each event is served by the case of its rule, once nothing holds it back. -/
theorem versionEvents : Obligations.VersionEvents := by
  refine ⟨fun s id o a hop hacc hready htime hleaf hsingle hnear hhome hfree => ?_, fun s id o hop => ⟨fun a ha hd => ?_, fun lane => ?_⟩,
    fun s id o place hop hk hdue hrt ht => ?_, State.applyFloor_hasV, fun s die key hhas hphase hwalk => ⟨fun hok hfree => ?_, fun hok => ?_⟩,
    fun s die val hup hpend => ?_⟩
  · have h : VersionArrives s id o a := ⟨hop, hacc, hready, htime, hleaf, hsingle, hnear, hhome, hfree⟩
    refine ⟨fun e he hk hp => ?_, fun p hp hk => ?_, fun p hp hk => ?_, fun p c r hp hk hs => ?_⟩
    · simp only [List.mem_cons, List.not_mem_nil, or_false] at he
      obtain rfl | rfl | rfl := he
      · exact h.traps (h.vldEq_exec hk) (State.vldEq_unarmed hp)
      · exact h.traps (h.vldLe_exec hk) (State.vldLe_unarmed hp)
      · exact h.traps (h.vst_exec hk) (State.vst_unarmed hp)
    · refine ⟨fun hb => ?_, fun hb hv => ?_, fun hb hv hc => ?_, fun hb hv hc => h.parks hk hp hb hv hc⟩
      · exact h.traps (h.vldEq_exec hk) (State.vldEq_reclaimed hp hb)
      · exact h.reads ((h.vldEq_exec hk).trans (congrArg _ (State.vldEq_exists hp hb hv)))
      · exact h.traps (h.vldEq_exec hk) (State.vldEq_bad hp hb hv hc)
    · refine ⟨fun hn => ?_, fun v hv => ?_⟩
      · exact h.traps (h.vldLe_exec hk) (State.vldLe_none hp hn)
      · exact h.reads ((h.vldLe_exec hk).trans (congrArg _ (State.vldLe_some hp hv)))
    · have hf : VstFinds s o a p c r := ⟨hp, hs, hhome⟩
      refine ⟨fun hc => ?_, fun hc hv => ?_, fun hc hv hb => ?_, fun hc hv hb => ⟨fun hm => ?_, fun hm hko => ?_, fun hm hko => ?_⟩⟩
      · exact h.traps (h.vst_exec hk) (hf.bad hc)
      · exact h.traps (h.vst_exec hk) (hf.collides hc hv)
      · exact h.traps (h.vst_exec hk) (hf.reclaimed hc hv hb)
      · exact h.traps (h.vst_exec hk) (hf.full hc hv hb hm)
      · obtain ⟨u, hu⟩ := Option.ne_none_iff_exists'.1 hm
        exact h.traps (h.vst_exec hk) (hf.badPlace hc hv hb hu hko)
      · obtain ⟨u, hu⟩ := Option.ne_none_iff_exists'.1 hm
        refine ⟨u.vstDone o a c, ?_, ?_, fun k e hke => State.opAt_vstDone (State.opAt_id hop) (State.create_ops hu) hke⟩
        · rw [h.vst_exec hk, hf.creates hc hv hb hu hko, State.opAt_id hop]
        · rw [State.gran_vstDone]
          exact State.create_hasV hu
  · exact versionWaitTimeout_fails hop ha hd
  · exact vldReturnRetry_sends hop lane
  · have h : FloorArrives s id o place := ⟨hop, hk, hdue, hrt, ht⟩
    by_cases hr : (s.regions.get o.region {}).armed = false ∨ (s.regions.get o.region {}).floors.has place = false
    · obtain ⟨t, hx, hs⟩ := h.passes hr
      exact ⟨t, hx, fun ha hp => absurd hr (by simp [ha, hp]), fun _ => hs⟩
    · obtain ⟨ha, hp⟩ : (s.regions.get o.region {}).armed = true ∧ (s.regions.get o.region {}).floors.has place = true := by simpa using hr
      obtain ⟨t, hx, hs⟩ := h.raises ha hp
      exact ⟨t, hx, fun _ _ => hs, fun hn => absurd hn hr⟩
  · exact LaunchArms.arms ⟨rfl, hhas, hphase, hwalk⟩ hok hfree
  · exact LaunchArms.refuses ⟨rfl, hhas, hphase, hwalk⟩ hok
  · have h : DisarmGoes s die := ⟨hup, hpend⟩
    obtain ⟨hctx, hnum⟩ := region_div_mod val
    intro k bad
    rw [show k / 64 = _ from hctx, show k % 64 = _ from hnum]
    exact ⟨h.answers, fun hb ha hw => h.exec_eq.trans (congrArg _ (h.waits hb ha hw))⟩

end Sys2Proof.Machine
end

