-- ==== Sys2Proof/Proofs/LaneWords.lean ====
section
/-! Cross-lane words: the tests with XGET (O12), and the permutes with XSPREAD and XSAME (O13). -/

set_option Elab.async false

namespace Sys2Proof.Machine

/-! Moving a value into a scalar register with a report (R146, R147). -/

/-- A scalar result with a report in XSTAT, as one change of the issuing wave. -/
theorem putS_report (s : State) {d : RName} (hd : sgen d = true) (r : W32) (bad : Prop) [Decidable bad] :
    (((s.putS d r).modCw fun w => w.report s.memb (if bad then 0 else s.memb)).past false).count s =
      s.afterFixed fun w => { w with
        sregs := w.sregs.set d.toNat r, xstat := (w.xstat &&& ~~~s.memb) ||| if bad then 0 else s.memb } := by
  have hset : ∀ w : Wave, w.setS d.toNat r = { w with sregs := w.sregs.set d.toNat r } := fun w => if_pos (by simpa [sgen] using hd)
  have hin : (if bad then 0 else s.memb) &&& s.memb = if bad then 0 else s.memb := by split <;> simp
  simp only [State.putS, State.modCw_modCw, Wave.report, hset, hin]
  rfl

/-- A lane test puts its value in place of the mask and reports whether the mask names an outside lane (R146, R147). -/
theorem laneTest_completes {f : (Nat → W32) → Lanes → W32} {d a : RName} {s : State} (hd : sgen d = true) (ha : vname a = true)
    (hs : s.CanIssue []) :
    laneTest f d a s = .next (s.afterFixed fun w => { w with
      sregs := w.sregs.set d.toNat (f (s.seen a) (s.readS d.toNat))
      xstat := (w.xstat &&& ~~~s.memb) ||| if s.readS d.toNat &&& ~~~s.memb = 0 then 0 else s.memb }) := by
  rw [← putS_report s hd]
  exact issueFixed_eq (by simp [hd, ha]) hs rfl

theorem execXget_completes {d a : RName} {s : State} (hd : sgen d = true) (ha : vname a = true) (hs : s.CanIssue []) :
    execXget d a s = .next (s.afterFixed fun w => { w with
      sregs := w.sregs.set d.toNat (s.seen a ((s.readS d.toNat).toNat % 32))
      xstat := (w.xstat &&& ~~~s.memb) ||| if s.memb.getLsbD ((s.readS d.toNat).toNat % 32) then 0 else s.memb }) := by
  rw [← putS_report s hd]
  exact issueFixed_eq (by simp [hd, ha]) hs rfl

/-! What the tests give (R146). -/

/-- A test whose two values mean that a property holds and that it does not. -/
theorem test_value {b : Bool} {p q : Prop} (hp : b = true → p) (hq : b = false → q) :
    (if b then 1 else 0) = 1#32 ∧ p ∨ (if b then 1 else 0) = 0#32 ∧ q := by
  cases b with
  | true => exact .inl ⟨rfl, hp rfl⟩
  | false => exact .inr ⟨rfl, hq rfl⟩

theorem all_lanesOf_eq_true {m : Lanes} {p : Nat → Bool} (h : (lanesOf m).all p = true) : ∀ n < 32, m.getLsbD n = true → p n = true :=
  fun n hn hm => List.all_eq_true.1 h n ((mem_lanesOf m n).2 ⟨hn, hm⟩)

theorem all_lanesOf_eq_false {m : Lanes} {p : Nat → Bool} (h : (lanesOf m).all p = false) :
    ∃ n < 32, m.getLsbD n = true ∧ p n = false := by
  obtain ⟨n, hn, hp⟩ := List.all_eq_false.1 h
  obtain ⟨hlt, hm⟩ := (mem_lanesOf m n).1 hn
  exact ⟨n, hlt, hm, Bool.eq_false_iff.2 hp⟩

/-- The lowest lane of a set that is not empty is its lane below which it holds none. -/
theorem lowLane_spec {m : Lanes} (hm : m ≠ 0) :
    lowLane m < 32 ∧ m.getLsbD (lowLane m) = true ∧ ∀ n < lowLane m, m.getLsbD n = false := by
  obtain ⟨n, hn, hmn⟩ : ∃ n < 32, m.getLsbD n = true := by
    by_contra h
    exact hm (BitVec.eq_of_getLsbD_eq fun n hn => by simpa using fun hb => h ⟨n, hn, hb⟩)
  have hfind : (List.range 32).find? (fun n => m.getLsbD n) = some (lowLane m) := by
    have hne : lanesOf m ≠ [] := List.ne_nil_of_mem ((mem_lanesOf m n).2 ⟨hn, hmn⟩)
    rw [lowLane, ← List.head?_filter]
    show (lanesOf m).head? = _
    rw [List.head?_eq_some_head hne, List.headD_eq_head?_getD, List.head?_eq_some_head hne]
    rfl
  obtain ⟨hlow, hmem, hbelow⟩ := List.find?_range_eq_some.1 hfind
  exact ⟨List.mem_range.1 hmem, hlow, fun k hk => by simpa using hbelow k hk⟩

theorem lowLane_mem {m : Lanes} {n : Nat} (hmn : m.getLsbD n = true) :
    lowLane m < 32 ∧ m.getLsbD (lowLane m) = true := by
  have hm : m ≠ 0 := fun h => by simp [h] at hmn
  exact ⟨(lowLane_spec hm).1, (lowLane_spec hm).2.1⟩

theorem xall_value (x : Nat → W32) (m : Lanes) :
    let r : W32 := if (lanesOf m).all (fun n => x n != 0) then 1 else 0
    r = 1#32 ∧ (∀ n < 32, m.getLsbD n = true → x n ≠ 0) ∨ r = 0 ∧ ∃ n < 32, m.getLsbD n = true ∧ x n = 0 :=
  test_value (fun h n hn hm => bne_iff_ne.1 (all_lanesOf_eq_true h n hn hm)) fun h => by simpa using all_lanesOf_eq_false h

theorem xany_value (x : Nat → W32) (m : Lanes) :
    let r : W32 := if (lanesOf m).any (fun n => x n != 0) then 1 else 0
    r = 1#32 ∧ (∃ n < 32, m.getLsbD n = true ∧ x n ≠ 0) ∨ r = 0 ∧ ∀ n < 32, m.getLsbD n = true → x n = 0 := by
  refine test_value (fun h => ?_) fun h n hn hm => ?_
  · obtain ⟨n, hn, hx⟩ := List.any_eq_true.1 h
    obtain ⟨hlt, hm⟩ := (mem_lanesOf m n).1 hn
    exact ⟨n, hlt, hm, bne_iff_ne.1 hx⟩
  · simpa using List.any_eq_false.1 h n ((mem_lanesOf m n).2 ⟨hn, hm⟩)

/-- Agreeing with the lowest lane is agreeing with one another. -/
theorem xeq_value (x : Nat → W32) (m : Lanes) :
    let r : W32 := if (lanesOf m).all (fun n => x n == x (lowLane m)) then 1 else 0
    r = 1#32 ∧ (∀ n < 32, ∀ k < 32, m.getLsbD n = true → m.getLsbD k = true → x n = x k) ∨
      r = 0 ∧ ∃ n < 32, ∃ k < 32, m.getLsbD n = true ∧ m.getLsbD k = true ∧ x n ≠ x k := by
  refine test_value (fun h n hn k hk hmn hmk => ?_) fun h => ?_
  · have heq := all_lanesOf_eq_true h
    exact (eq_of_beq (heq n hn hmn)).trans (eq_of_beq (heq k hk hmk)).symm
  · obtain ⟨n, hn, hmn, hne⟩ := all_lanesOf_eq_false h
    obtain ⟨hk, hmk⟩ := lowLane_mem hmn
    exact ⟨n, hn, lowLane m, hk, hmn, hmk, by simpa using hne⟩

theorem xbits_value (x : Nat → W32) (m : Lanes) (n : Nat) (hn : n < 32) :
    (maskOf ((lanesOf m).filter fun n => x n != 0)).getLsbD n = (m.getLsbD n && x n != 0) := by
  rw [Bool.eq_iff_iff, mem_maskOf _ hn, List.mem_filter, mem_lanesOf, Bool.and_eq_true, and_iff_right hn]

/-- Settles O12: each word is the shared lane test with its own function, whose value is what R146 says. -/
theorem laneTestWords : Obligations.LaneTestWords := by
  refine ⟨fun e he d a s hd ha hs => ?_, fun d a s hd ha hs => (exec_xget ..).trans (execXget_completes hd ha hs)⟩
  simp only [List.mem_cons, List.not_mem_nil, or_false] at he
  obtain rfl | rfl | rfl | rfl := he
  · exact ⟨_, xall_value (s.seen a) _, (exec_xall ..).trans (laneTest_completes hd ha hs)⟩
  · exact ⟨_, xany_value (s.seen a) _, (exec_xany ..).trans (laneTest_completes hd ha hs)⟩
  · exact ⟨_, xeq_value (s.seen a) _, (exec_xeq ..).trans (laneTest_completes hd ha hs)⟩
  · exact ⟨_, xbits_value (s.seen a) _, (exec_xbits ..).trans (laneTest_completes hd ha hs)⟩

/-! Permutes (R146, R147). -/

/-- A change of the issuing wave is told by what it makes of that wave. -/
theorem State.modCw_congr {s : State} {f g : Wave → Wave} (h : f s.cw = g s.cw) : s.modCw f = s.modCw g :=
  congrArg (fun w : Wave => ({ s with waves := s.waves.set s.ck w } : State)) h

/-- What a vector form without flags leaves. -/
theorem putLanes_done (s : State) {d : RName} (f : Nat → W64) :
    VecWord s (((s.putLanes d false f).past false).count s) d false f 0 := by
  have h := vecDone s d false f 0 (wideOk_false d)
  rwa [show (s.modCw fun w => let v := w.results d false (lanesOf s.memb) f; ({ v with fpstat := v.fpstat ||| 0 } : Wave)) =
    s.putLanes d false f from State.modCw_congr (by simp)] at h

/-- A report on top of the results of a vector form changes XSTAT alone. -/
theorem report_putLanes (s : State) {d : RName} {f : Nat → W64} {bad : Lanes} (hbad : bad &&& s.memb = bad) :
    ((((s.putLanes d false f).modCw fun w => w.report s.memb bad).past false).count s) =
      (((s.putLanes d false f).past false).count s).modCw fun w => { w with xstat := (s.cw.xstat &&& ~~~s.memb) ||| bad } := by
  have hx : (s.cw.results d false (lanesOf s.memb) f).xstat = s.cw.xstat :=
    (congrArg Wave.xstat (s.cw.results_spec d false (lanesOf s.memb) f (wideOk_false d) (lanesOf_nodup _)
      fun l h => ((mem_lanesOf _ _).1 h).1).rest :)
  rw [State.putLanes, State.modCw_modCw, State.fixedDone, State.fixedDone, State.modCw_modCw]
  refine State.modCw_congr ?_
  simp only [Wave.report, hbad, hx]
  rfl

/-- A source lane of a permute as far as the executing set holds it (R146). -/
def State.within (s : State) (src : Option Nat) : Option Nat := src.filter fun k => s.memb.getLsbD k

/-- What a permute takes from a source lane, 0 where there is none (R146). -/
def State.taken (s : State) (a : RName) (src : Option Nat) : W32 := match src with | some k => s.seen a k | none => 0

/-- Whether a permute finds its source lane in the executing set (R147). -/
def State.finds (s : State) (src : Option Nat) : Bool := match src with | some k => s.memb.getLsbD k | none => false

theorem taken_within (s : State) (a : RName) (src : Option Nat) :
    (s.taken a src).setWidth 64 = (match s.within src with | some k => (s.cw.readV a.toNat k).setWidth 64 | none => 0 : W64) := by
  cases src with
  | none => rfl
  | some k => cases h : s.memb.getLsbD k <;> simp only [State.taken, State.seen, State.within, Option.filter, h] <;> rfl

theorem isNone_within (s : State) (src : Option Nat) : (s.within src).isNone = !s.finds src := by
  cases src with
  | none => rfl
  | some k => cases h : s.memb.getLsbD k <;> simp [State.within, State.finds, h]

/-- A permute gives each executing lane A of its source lane, 0 where that is outside the set, which it reports (R146, R147). -/
theorem permute_completes {src : Nat → Nat → Option Nat} {d a : RName} {s : State} (hd : dstR d = true) (ha : vname a = true)
    (hs : s.CanIssue []) :
    let from' := fun n => s.within (src n (s.cw.readV d.toNat n).toNat)
    ∃ t u bad, permute (fun n v => src n v.toNat) d a s = .next t ∧
      VecWord s u d false (fun n => match from' n with | some k => (s.cw.readV a.toNat k).setWidth 64 | none => 0) 0 ∧
      (∀ n < 32, bad.getLsbD n = (s.memb.getLsbD n && (from' n).isNone)) ∧
      t = u.modCw fun w => { w with xstat := (s.cw.xstat &&& ~~~s.memb) ||| bad } := by
  let at' := fun n => src n (s.cw.readV d.toNat n).toNat
  let bad := maskOf ((lanesOf s.memb).filter fun n => !s.finds (at' n))
  have hbad : ∀ n < 32, bad.getLsbD n = (s.memb.getLsbD n && (s.within (at' n)).isNone) := fun n hn => by
    rw [Bool.eq_iff_iff, mem_maskOf _ hn, List.mem_filter, mem_lanesOf, Bool.and_eq_true, isNone_within, and_iff_right hn]
  have hin : bad &&& s.memb = bad := BitVec.eq_of_getLsbD_eq fun n hn => by
    rw [BitVec.getLsbD_and, hbad n hn, Bool.and_right_comm, Bool.and_self]
  have hdone : permute (fun n v => src n v.toNat) d a s = .next ((((s.putLanes d false fun n => (s.taken a (at' n)).setWidth 64).modCw
      fun w => w.report s.memb bad).past false).count s) := issueFixed_eq (by simp [hd, ha]) hs rfl
  refine ⟨_, _, bad, hdone, ?_, hbad, report_putLanes s hin⟩
  simpa only [taken_within] using putLanes_done s fun n => (s.taken a (at' n)).setWidth 64

/-! XSPREAD and XSAME (R146). -/

theorem execXspread_completes {d a : RName} {s : State} (hd : dst32 d = true) (ha : vname a = true) (hs : s.CanIssue []) :
    ∃ t, execXspread d a s = .next t ∧
      ∃ low, (s.memb ≠ 0 → s.runs low ∧ ∀ n < low, s.memb.getLsbD n = false) ∧
        VecWord s t d false (fun _ => if s.memb.getLsbD low then (s.cw.readV a.toNat low).setWidth 64 else 0) 0 := by
  obtain ⟨t, ht, hv⟩ := vecForm_completes (srcs := []) (f := fun s _ => (s.seen a (lowLane s.memb)).setWidth 64) (ok := dst32 d && vname a)
    (by simp [hd, ha]) hs (wideOk_false d)
  refine ⟨t, ht, lowLane s.memb, fun hm => ?_, ?_⟩
  · obtain ⟨hlt, hmem, hbelow⟩ := lowLane_spec hm
    exact ⟨⟨hlt, hmem⟩, hbelow⟩
  · convert hv using 2
    rw [State.seen]
    split <;> rfl

theorem execXsame_completes {d a : RName} {s : State} (hd : dst32 d = true) (ha : vname a = true) (hs : s.CanIssue []) :
    ∃ t, ∃ r : Nat → W32, execXsame d a s = .next t ∧ VecWord s t d false (fun n => (r n).setWidth 64) 0 ∧
      ∀ n k, s.runs n → k < 32 → (r n).getLsbD k = (s.memb.getLsbD k && s.cw.readV a.toNat k == s.cw.readV a.toNat n) := by
  obtain ⟨t, ht, hv⟩ := vecForm_completes (srcs := []) (ok := dst32 d && vname a)
    (f := fun s n => (maskOf ((lanesOf s.memb).filter fun k => s.seen a k == s.seen a n)).setWidth 64)
    (by simp [hd, ha]) hs (wideOk_false d)
  refine ⟨t, _, ht, hv, fun n k hn hk => ?_⟩
  have hseen : ∀ {m}, s.memb.getLsbD m = true → s.seen a m = s.cw.readV a.toNat m := fun hm => if_pos hm
  rw [Bool.eq_iff_iff, mem_maskOf _ hk, List.mem_filter, mem_lanesOf, Bool.and_eq_true, and_iff_right hk]
  exact and_congr_right fun hm => by rw [hseen hm, hseen hn.2]

/-- Settles O13: the permutes are one form over their source functions. -/
theorem lanePermuteWords : Obligations.LanePermuteWords := by
  refine ⟨fun e he d a s hd ha hs => ?_, fun d a s hd ha hs =>
    ⟨(exec_xspread d a s) ▸ execXspread_completes hd ha hs, (exec_xsame d a s) ▸ execXsame_completes hd ha hs⟩⟩
  have h := permute_completes (src := e.2) hd ha hs
  suffices hexec : exec (e.1 d a) s = permute (fun n v => e.2 n v.toNat) d a s from hexec ▸ h
  simp only [List.mem_cons, List.not_mem_nil, or_false] at he
  obtain rfl | rfl | rfl | rfl | rfl | rfl := he
  · exact exec_xpermAbs d a s
  · exact exec_xpermFlip d a s
  · exact exec_xpermLo d a false s
  · exact exec_xpermLo d a true s
  · exact exec_xpermHi d a false s
  · exact exec_xpermHi d a true s

end Sys2Proof.Machine
end

