-- ==== Sys2Proof/Proofs/SoftwareTraps.lean ====
section
/-! TRAP and BKPT (O22): the halt that they begin, and the end of the group in its handler (R164, R222, R225). -/

set_option Elab.async false

namespace Sys2Proof.Machine

theorem waveKey_inj {core a b : Nat} (h : waveKey core a = waveKey core b) : a = b := Nat.add_left_cancel h

/-- What the last change of a wave in a run over distinct keys makes of it stands when the run is over. -/
theorem foldl_modWave_at {P : Wave → Prop} {key : Nat → Nat} {f : State → Nat → Wave → Wave} {i : Nat} (hP : ∀ u w, P (f u i w))
    {l : List Nat} (hi : i ∈ l) (hkey : ∀ j ∈ l, key j = key i → j = i) (s : State) :
    P ((l.foldl (fun u j => u.modWave (key j) (f u j)) s).wave (key i)) := by
  induction l using List.reverseRecOn with
  | nil => simp at hi
  | append_singleton l j ih =>
    rw [List.foldl_append, List.foldl_cons, List.foldl_nil]
    by_cases hj : key j = key i
    · obtain rfl := hkey j (by simp) hj
      rw [State.wave_modWave_self]
      exact hP _ _
    · rw [State.wave_modWave_ne _ _ _ _ (Ne.symm hj)]
      have hne : i ≠ j := fun h => hj (h ▸ rfl)
      exact ih ((List.mem_append.1 hi).resolve_right (by simpa using hne)) fun k hk => hkey k (by simp [hk])

/-- The slots of a group of distinct waves tell the waves apart. -/
theorem slotKey_inj {g : Group} (hn : g.slots.Nodup) {i j : Nat} (hi : i < g.slots.length) (hj : j < g.slots.length)
    (h : waveKey g.core (g.slots.getD i 0) = waveKey g.core (g.slots.getD j 0)) : i = j := by
  have h := waveKey_inj h
  rw [List.getD_eq_getElem _ _ hi, List.getD_eq_getElem _ _ hj] at h
  exact (List.Nodup.getElem_inj_iff hn).1 h

/-- The wave that raises a trap stops before its next word with SKID 0 (R222). -/
theorem haltGroup_raiser {s : State} {gid : Nat} {t : Trap} (skids : Bool) (hn : (s.group gid).slots.Nodup)
    (hi : t.wave < (s.group gid).slots.length) :
    let w := (s.haltGroup gid t skids).wave (waveKey (s.group gid).core ((s.group gid).slots.getD t.wave 0))
    w.stopped = true ∧ w.skid = 0 :=
  foldl_modWave_at (P := fun w => w.stopped = true ∧ w.skid = 0)
    (key := fun i => waveKey (s.group gid).core ((s.group gid).slots.getD i 0)) (i := t.wave) (fun _ _ => by simp) (List.mem_range.2 hi)
    (fun _ hj => slotKey_inj hn (List.mem_range.1 hj) hi) _

theorem haltGroup_trap (s : State) (gid : Nat) (t : Trap) (skids : Bool) : ((s.haltGroup gid t skids).group gid).trap = some t := by
  rw [State.group, haltGroup_groups]
  exact congrArg Group.trap (s.group_modGroup_self gid _)

/-- A group that has ended: no trap is left to be handled, and no follow-on is pending (R225, R226). -/
def Group.over (g : Group) : Group := { g with phase := .ending, trap := none, held := [], follow := 0 }

/-- A wave whose group has ended: every launched lane has exited (R226). -/
def Wave.over (w : Wave) : Wave := { w with exited := w.launched, paths := [], saved := none, stopped := false, skidAc := 0 }

theorem endGroup_group (s : State) (gid : Nat) : (s.endGroup gid).group gid = (s.group gid).over := by
  have hheld : ((s.group gid).held.foldl (fun u h => u.fall gid h) s).groups = s.groups :=
    (congrArg State.groups (foldl_fall_rest (s.group gid).held gid s) :)
  have hwaves : ∀ u : State, ((s.group gid).keys.foldl (fun u k => u.modWave k Wave.over) u).groups = u.groups := fun u =>
    (congrArg State.groups (foldl_modWave_rest (s.group gid).keys Wave.over u) :)
  have hend : (s.endGroup gid).groups = (s.modGroup gid Group.over).groups :=
    congrArg (fun m : FMap Group => m.upd gid {} Group.over) ((hwaves _).trans hheld)
  rw [State.group, hend]
  exact State.group_modGroup_self s gid _

theorem endGroup_phase (s : State) (gid : Nat) : ((s.endGroup gid).group gid).phase = .ending := by
  rw [endGroup_group]
  rfl

theorem issueTrap_eq {ok : Bool} {srcs : List Src} {code : Nat} {eaddr : State → W64} {s : State} (hok : ok = true) (h : s.CanIssue srcs)
    (hl : s.Closes) (hp : s.cg.phase ≠ .halting) :
    issueTrap ok srcs code eaddr s = .next ((s.past false).trapP
      { code := code, epc := s.cp.pc + 4, eaddr := eaddr s, emask := s.memb, wave := s.cw.wix }) := by
  obtain ⟨c, hc, hb⟩ := CanIssue_clause h
  simp [issueTrap, enter, hc, hok, hb, hp, Nat.not_lt.2 (hl c hc)]

@[simp] theorem State.cgid_past (s : State) (l : Bool) : (s.past l).cgid = s.cgid := by rw [State.cgid, State.cw_past]; rfl
@[simp] theorem State.cg_past (s : State) (l : Bool) : (s.past l).cg = s.cg := by rw [State.cg, State.cgid_past]; rfl

/-- A trap that is taken outside a halt and outside the handler begins the group's halt (R222). -/
theorem trapP_halts {s : State} (t : Trap) (hh : s.cg.phase ≠ .halting) (hr : s.cg.phase ≠ .handler) :
    s.trapP t = s.haltGroup s.cgid t true := by
  unfold State.trapP
  split
  · contradiction
  · contradiction
  · rfl

theorem trapP_ends {s : State} (t : Trap) (hr : s.cg.phase = .handler) : s.trapP t = s.endWithError s.cgid t true := by
  rw [State.trapP, hr]

/-- The halt of a word that has moved its path on changes of every wave no more than its paths and its place in the halt. -/
theorem past_halt_waves (s : State) (gid : Nat) (t : Trap) (k : Nat) :
    { ((s.past false).haltGroup gid t true).wave k with
      paths := (s.wave k).paths, skid := (s.wave k).skid, stopped := (s.wave k).stopped, skidAc := (s.wave k).skidAc } = s.wave k := by
  have hpast : { (s.past false).wave k with paths := (s.wave k).paths } = s.wave k := by
    rw [State.past, State.wave_modCp]
    split <;> rfl
  have hhalt := haltGroup_waves (s.past false) gid t true k
  calc _ = { ({ ((s.past false).haltGroup gid t true).wave k with
              skid := ((s.past false).wave k).skid, stopped := ((s.past false).wave k).stopped
              skidAc := ((s.past false).wave k).skidAc } : Wave) with
            paths := (s.wave k).paths, skid := (s.wave k).skid, stopped := (s.wave k).stopped, skidAc := (s.wave k).skidAc } := rfl
    _ = { ({ (s.past false).wave k with paths := (s.wave k).paths } : Wave) with
            skid := (s.wave k).skid, stopped := (s.wave k).stopped, skidAc := (s.wave k).skidAc } := by rw [hhalt]
    _ = s.wave k := by rw [hpast]

/-- Settles O22: both words move their path on and take a trap, which halts the group or ends it. -/
theorem softwareTraps : Obligations.SoftwareTraps := by
  intro e he a s ha hs hl
  have hexec : s.cg.phase ≠ .halting → exec (e.1 a) s = .next ((s.past false).trapP
      { code := e.2.1, epc := s.cp.pc + 4, eaddr := e.2.2 a s, emask := s.memb, redir := true, wave := s.cw.wix }) := fun hp => by
    simp only [List.mem_cons, List.not_mem_nil, or_false] at he
    obtain rfl | rfl := he
    · exact (exec_trap ..).trans (issueTrap_eq ha hs hl hp)
    · exact (exec_bkpt ..).trans (issueTrap_eq rfl ⟨hs.1, s.bound_nil⟩ hl hp)
  refine ⟨fun hh hr => ⟨_, hexec hh, ?_⟩, fun hr => ⟨_, hexec (by simp [hr]), ?_⟩⟩
  · rw [trapP_halts _ (by rwa [State.cg_past]) (by rwa [State.cg_past]), State.cgid_past]
    exact ⟨State.haltGroup_mem .., haltGroup_phase .., haltGroup_trap .., fun hn hi => haltGroup_raiser true hn hi, past_halt_waves s _ _⟩
  · rw [trapP_ends _ (by rwa [State.cg_past]), State.cgid_past]
    exact endGroup_phase ..

end Sys2Proof.Machine
end

