-- ==== Sys2Proof/Proofs/TrapReturns.lean ====
section
/-! ERET and ERET.KILL (O23): the program gets its state and its lanes back, or its group ends (R165, R224 to R226, R374). -/

set_option Elab.async false

namespace Sys2Proof.Machine

/-! What a return leaves of the waves. -/

/-- A wave but for what a return moves: its paths, barriers and flags, and its place in a halt. -/
def Wave.base (w : Wave) : Wave :=
  { w with paths := [], saved := w.saved.map fun v => { v with paths := [] }, rbs := {}, flags := {}, skid := 0, stopped := false, skidAc := 0 }

theorem Wave.base_mapPaths (w : Wave) (f : List Path → List Path) : (w.mapPaths f).base = w.base := by
  cases h : w.saved <;> simp [Wave.base, Wave.mapPaths, h]

theorem Wave.base_rbTests (w : Wave) : w.rbTests.base = w.base := by
  refine List.foldlRecOn (motive := fun v : Wave => v.base = w.base) _ _ rfl fun v hv b _ => ?_
  obtain h | h := v.rbTest_cases b <;> rw [h]
  · exact hv
  · rw [Wave.base_mapPaths]
    exact hv

/-- A wave goes on after a return: its stopped lanes are ready, and its reconvergence barriers are tested (R93, R165, R221). -/
def Wave.resumed (w : Wave) : Wave := { (w.mapPaths (·.map Path.release)).rbTests with stopped := false, skidAc := 0 }

theorem Wave.base_resumed (w : Wave) : w.resumed.base = w.base :=
  (Wave.base_rbTests _).trans (w.base_mapPaths _)

/-- The handler's wave with the program's state that its entry put aside (R225). -/
def Wave.unsave (w : Wave) : Wave :=
  match w.saved with
  | none => w
  | some v => { w with
      paths := v.paths, fpmode := v.fpmode, fpstat := v.fpstat, xstat := v.xstat, wbase := v.wbase, cbase := v.cbase, saved := none }

theorem Wave.unsave_eq {w : Wave} {v : Saved} (h : w.saved = some v) : w.unsave = { w with
    paths := v.paths, fpmode := v.fpmode, fpstat := v.fpstat, xstat := v.xstat, wbase := v.wbase, cbase := v.cbase, saved := none } := by
  rw [Wave.unsave, h]

/-- States that differ in memory words, in the paths, barriers and flags of waves, and in the barrier slots of groups. -/
structure Regrouped (s t : State) : Prop where
  cur : t.cur = s.cur
  group : ∀ g, { t.group g with bars := (s.group g).bars } = s.group g
  base : ∀ k, (t.wave k).base = (s.wave k).base

theorem Regrouped.refl (s : State) : Regrouped s s := ⟨rfl, fun _ => rfl, fun _ => rfl⟩

theorem Regrouped.trans {s t u : State} (h : Regrouped s t) (k : Regrouped t u) : Regrouped s u where
  cur := k.cur.trans h.cur
  group g := (congrArg (fun x : Group => { x with bars := (s.group g).bars }) (k.group g) :).trans (h.group g)
  base j := (k.base j).trans (h.base j)

theorem regrouped_modWave (s : State) (k : Nat) {f : Wave → Wave} (hf : ∀ w, (f w).base = w.base) : Regrouped s (s.modWave k f) where
  cur := rfl
  group _ := rfl
  base j := by
    rw [State.wave_modWave]
    split
    · next h => rw [h, hf]
    · rfl

theorem regrouped_resumed (s : State) (ks : List Nat) : Regrouped s (ks.foldl (fun u k => u.modWave k Wave.resumed) s) :=
  List.foldlRecOn (motive := Regrouped s) _ _ (.refl s) fun _ hu k _ => hu.trans (regrouped_modWave _ k Wave.base_resumed)

/-- Paths of which the lanes of a mask that do not stand at an address are set down there (R165). -/
def State.setDown (s : State) (g : Group) (m : Lanes) (epc : W64) (ps : List Path) : List Path :=
  (ps.filterMap fun p => if p.pc != epc then p.without m else some p) ++
    ((ps.filter fun p => p.pc != epc).filter fun p => p.lanes &&& m != 0).map fun p =>
      s.placed g.core g { p with lanes := p.lanes &&& m, pc := epc, age := 0, status := .run }

theorem redirect_eq (s : State) (gid key : Nat) (m : Lanes) (epc : W64) :
    let out := (s.wave key).paths.filter fun p => p.pc != epc
    s.redirect gid key m epc = (s.modWave key fun w => { w with
      paths := s.setDown (s.group gid) m epc (s.wave key).paths, rbs := leaveRbs out m w.rbs true }).modGroup gid fun g =>
        { g with bars := leaveBars out m g.bars } := rfl

theorem regrouped_bars (s : State) (gid : Nat) (f : FMap Bar → FMap Bar) :
    Regrouped s (s.modGroup gid fun g => { g with bars := f g.bars }) where
  cur := rfl
  base _ := rfl
  group g := by
    rw [State.group_modGroup]
    split
    · next h => rw [h]
    · rfl

theorem regrouped_redirect (s : State) (gid key : Nat) (m : Lanes) (epc : W64) : Regrouped s (s.redirect gid key m epc) := by
  rw [redirect_eq]
  exact (regrouped_modWave s key fun _ => by rfl).trans (regrouped_bars _ gid _)

/-- The trap that the handler returns from (R23). -/
def State.handled (s : State) : Trap := s.cg.trap.getD {}

/-- The last steps of a return: the waves of the group go on, and the first held trap begins a halt (R165, R224). -/
def State.eretEnd (s u : State) : State :=
  let v := (s.cg.keys.foldl (fun u k => u.modWave k Wave.resumed) u).modGroup s.cgid fun g =>
    { g with phase := .running, trap := none, held := g.held.tail }
  match s.cg.held with
  | h :: _ => (v.fall s.cgid h).haltGroup s.cgid h false
  | [] => v.exitTest s.cgid

/-- Key of the wave that raised the trap. -/
def State.raiserKey (s : State) : Nat := waveKey s.cg.core (s.cg.slots.getD s.handled.wave 0)

/-- The program's state comes back, and EMASK's lanes are set down where the trap moves them (R165, R374). -/
def State.eretMoved (s : State) : State :=
  if s.handled.redir && !(s.handled.op ≠ 0 ∧ !s.handled.moved) then
    (s.modCw Wave.unsave).redirect s.cgid s.raiserKey s.handled.emask s.handled.epc
  else s.modCw Wave.unsave

/-- The memory word of the trap is settled (R139, R374). -/
def State.eretSettled (s u : State) : State :=
  if s.handled.op = 0 then u else { u with
    ops := u.ops.map fun o => if o.id = s.handled.op then u.resend (o.settle s.handled.code s.handled.own) else o }

/-- Lanes whose time-out was taken issue their word again (R374). -/
def State.eretRenewed (s u : State) : State :=
  if s.handled.code = 0x15 then
    u.modWave s.raiserKey fun w => { w with paths := (w.paths.map fun p => p.renew s.handled.own).flatten }
  else u

theorem eretOp_eq (s : State) : s.eretOp = s.eretEnd (s.eretRenewed (s.eretSettled s.eretMoved)) := rfl

theorem regrouped_eretRenewed (s : State) : Regrouped (s.modCw Wave.unsave) (s.eretRenewed (s.eretSettled s.eretMoved)) := by
  have hmoved : Regrouped (s.modCw Wave.unsave) s.eretMoved := by
    unfold State.eretMoved
    split
    · exact regrouped_redirect ..
    · exact .refl _
  have hsettled : ∀ u, Regrouped u (s.eretSettled u) := fun u => by
    unfold State.eretSettled
    split
    · exact .refl u
    · exact ⟨rfl, fun _ => rfl, fun _ => rfl⟩
  have hrenewed : ∀ u, Regrouped u (s.eretRenewed u) := fun u => by
    unfold State.eretRenewed
    split
    · exact regrouped_modWave u _ fun _ => rfl
    · exact .refl u
  exact hmoved.trans ((hsettled _).trans (hrenewed _))

/-- The wave that a return resumes, unless a time-out made lanes issue again. -/
theorem eretRenewed_waves {s : State} (hcode : s.handled.code ≠ 0x15) :
    (s.eretRenewed (s.eretSettled s.eretMoved)).waves = s.eretMoved.waves := by
  rw [State.eretRenewed, if_neg hcode, State.eretSettled]
  split <;> rfl

/-! The end of a return. -/

/-- The group and its waves go on (R165, R224). -/
def State.eretGoes (s u : State) : State :=
  (s.cg.keys.foldl (fun u k => u.modWave k Wave.resumed) u).modGroup s.cgid fun g =>
    { g with phase := .running, trap := none, held := g.held.tail }

theorem eretEnd_free (s u : State) (h : s.cg.held = []) : s.eretEnd u = (s.eretGoes u).exitTest s.cgid := by
  rw [State.eretEnd, h]
  rfl

theorem eretEnd_held (s u : State) {h : Trap} {r : List Trap} (hh : s.cg.held = h :: r) :
    s.eretEnd u = ((s.eretGoes u).fall s.cgid h).haltGroup s.cgid h false := by
  rw [State.eretEnd, hh]
  rfl

theorem eretGoes_group (s u : State) :
    (s.eretGoes u).group s.cgid = { u.group s.cgid with phase := .running, trap := none, held := (u.group s.cgid).held.tail } := by
  rw [State.eretGoes, State.group_modGroup_self, State.group, (congrArg State.groups (foldl_modWave_rest s.cg.keys Wave.resumed u) :)]
  rfl

theorem eretGoes_base (s u : State) (k : Nat) : ((s.eretGoes u).wave k).base = (u.wave k).base := (regrouped_resumed u s.cg.keys).base k

theorem haltGroup_base (s : State) (gid : Nat) (t : Trap) (skids : Bool) (k : Nat) :
    ((s.haltGroup gid t skids).wave k).base = (s.wave k).base :=
  (congrArg Wave.base (haltGroup_waves s gid t skids k) :)

theorem fall_base (s : State) (gid : Nat) (t : Trap) (k : Nat) : ((s.fall gid t).wave k).base = (s.wave k).base :=
  (congrArg Wave.base (foldl_fall_wave [t] gid s k) :)

theorem haltGroup_cur (s : State) (gid : Nat) (t : Trap) (skids : Bool) : (s.haltGroup gid t skids).cur = s.cur :=
  List.foldlRecOn (motive := fun u : State => u.cur = s.cur) _ _ rfl fun _ hu _ _ => hu

/-- The last steps of a return stay on the issuing wave, and change of the waves only what a return moves. -/
theorem eretEnd_base (s u : State) : (s.eretEnd u).cur = u.cur ∧ ∀ k, ((s.eretEnd u).wave k).base = (u.wave k).base := by
  have hcur : (s.eretGoes u).cur = u.cur := (regrouped_resumed u s.cg.keys).cur
  cases hh : s.cg.held with
  | nil =>
    have hexit := exitTested (s.eretGoes u) s.cgid
    rw [eretEnd_free s u hh]
    exact ⟨hexit.cur.trans hcur, fun k => (hexit.wave_eq Wave.base k fun _ _ => rfl).trans (eretGoes_base s u k)⟩
  | cons h r =>
    rw [eretEnd_held s u hh]
    exact ⟨(haltGroup_cur ..).trans hcur,
      fun k => (haltGroup_base ..).trans ((fall_base ..).trans (eretGoes_base s u k))⟩

/-- With no held trap the last steps of a return leave the waves as they go on. -/
theorem eretEnd_waves (s u : State) (hh : s.cg.held = []) :
    (s.eretEnd u).waves = (s.cg.keys.foldl (fun u k => u.modWave k Wave.resumed) u).waves := by
  rw [eretEnd_free s u hh]
  refine ((exitTested (s.eretGoes u) s.cgid).flags ?_).trans rfl
  rw [eretGoes_group]
  nofun

/-! Where the lanes stand. -/

/-- A lane stands at an address in a path with a place in its clause, in a state. -/
def Wave.LaneAt (w : Wave) (n : Nat) (pc : W64) (place : Option Clause → Prop) (st : Status → Prop) : Prop :=
  ∃ p ∈ w.paths, p.lanes.getLsbD n = true ∧ p.pc = pc ∧ place p.clause ∧ st p.status

/-- A lane that issues, or that does as soon as its halt ends (R220). -/
def Ready (st : Status) : Prop := st = .run ∨ st = .stay

section
variable {n : Nat} {pc : W64} {place : Option Clause → Prop}

theorem Wave.LaneAt.ready {w : Wave} (h : w.LaneAt n pc place (· = .run)) : w.LaneAt n pc place Ready :=
  let ⟨p, hp, hn, hpc, hc, hst⟩ := h
  ⟨p, hp, hn, hpc, hc, .inl hst⟩

/-- Testing the reconvergence barriers moves no lane that waits at none. -/
theorem Wave.LaneAt.rbTests {w : Wave} (h : w.LaneAt n pc place (· = .run)) : w.rbTests.LaneAt n pc place (· = .run) := by
  refine List.foldlRecOn (motive := fun v : Wave => v.LaneAt n pc place (· = .run)) _ _ h fun v hv b _ => ?_
  obtain hb | hb := v.rbTest_cases b <;> rw [hb]
  · exact hv
  · obtain ⟨p, hp, hn, hpc, hc, hst⟩ := hv
    exact ⟨p, List.mem_append_left _ (List.mem_filter.2 ⟨hp, by simp [hst]⟩), hn, hpc, hc, hst⟩

theorem Path.release_ready {p : Path} (h : Ready p.status) : p.release = { p with status := .run } := by
  unfold Path.release
  obtain h | h := h
  · rw [if_neg (by simp [h]), ← h]
  · rw [if_pos h]

/-- A wave that goes on has its ready lanes running where they stood (R165, R220). -/
theorem Wave.LaneAt.resumed {w : Wave} (h : w.LaneAt n pc place Ready) : w.resumed.LaneAt n pc place (· = .run) := by
  have hrel : (w.mapPaths (·.map Path.release)).LaneAt n pc place (· = .run) := by
    obtain ⟨p, hp, hn, hpc, hc, hst⟩ := h
    exact ⟨p.release, List.mem_map_of_mem hp, by rw [Path.release_ready hst]; exact ⟨hn, hpc, hc, rfl⟩⟩
  exact hrel.rbTests

/-- A change of each wave of a list, made once or more, brings about what it makes of one wave. -/
theorem foldl_modWave_reaches {f : Wave → Wave} {P Q : Wave → Prop} (hPQ : ∀ w, P w → Q (f w)) (hQP : ∀ w, Q w → P w) {ks : List Nat}
    {k : Nat} (hk : k ∈ ks) {s : State} (h : P (s.wave k)) : Q ((ks.foldl (fun u k => u.modWave k f) s).wave k) := by
  suffices H : P ((ks.foldl (fun u k => u.modWave k f) s).wave k) ∧ (k ∈ ks → Q ((ks.foldl (fun u k => u.modWave k f) s).wave k)) from
    H.2 hk
  clear hk
  induction ks using List.reverseRecOn with
  | nil => exact ⟨h, nofun⟩
  | append_singleton l j ih =>
    rw [List.foldl_append, List.foldl_cons, List.foldl_nil]
    by_cases hj : k = j
    · subst hj
      rw [State.wave_modWave_self]
      exact ⟨hQP _ (hPQ _ ih.1), fun _ => hPQ _ ih.1⟩
    · rw [State.wave_modWave_ne _ _ _ _ hj]
      exact ⟨ih.1, fun hk => ih.2 ((List.mem_append.1 hk).resolve_right (by simpa using hj))⟩

/-- Every ready lane of a wave of the group runs on where it stands when the return is over. -/
theorem eretEnd_resumes {s u : State} (hh : s.cg.held = []) {k : Nat} (hk : k ∈ s.cg.keys) (h : (u.wave k).LaneAt n pc place Ready) :
    ((s.eretEnd u).wave k).LaneAt n pc place (· = .run) := by
  rw [State.wave, eretEnd_waves s u hh]
  exact foldl_modWave_reaches (P := fun w => w.LaneAt n pc place Ready) (fun _ => Wave.LaneAt.resumed) (fun _ => Wave.LaneAt.ready) hk h

end

theorem eretEnd_stopped {s u : State} (hh : s.cg.held = []) {k : Nat} (hk : k ∈ s.cg.keys) : ((s.eretEnd u).wave k).stopped = false := by
  rw [State.wave, eretEnd_waves s u hh]
  exact foldl_modWave_reaches (P := fun _ => True) (Q := fun w => w.stopped = false) (fun _ _ => rfl) (fun _ _ => trivial) hk trivial

/-! Lanes that a return sets down. -/

@[simp] theorem placed_fields (s : State) (core : Nat) (g : Group) (p : Path) :
    (s.placed core g p).lanes = p.lanes ∧ (s.placed core g p).pc = p.pc ∧ (s.placed core g p).status = p.status := by
  unfold State.placed
  split <;> exact ⟨rfl, rfl, rfl⟩

/-- A ready path outside whose mask some lane stands is left with its place. -/
theorem without_keeps {p : Path} {m : Lanes} {n : Nat} (hn : p.lanes.getLsbD n = true) (hm : m.getLsbD n = false) (hst : Ready p.status) :
    ∃ q, p.without m = some q ∧ q.lanes.getLsbD n = true ∧ q.pc = p.pc ∧ q.clause = p.clause ∧ Ready q.status := by
  have hn32 : n < 32 := BitVec.lt_of_getLsbD hn
  have hrest : (p.lanes &&& ~~~m).getLsbD n = true := by rw [BitVec.getLsbD_and, BitVec.getLsbD_not, hn, hm]; simp [hn32]
  unfold Path.without
  dsimp only
  split
  · exact ⟨p, rfl, hn, rfl, rfl, hst⟩
  · rw [if_neg fun h => by rw [h] at hrest; simp at hrest]
    split
    · next w _ _ hw => obtain h | h := hst <;> simp [h] at hw
    · exact ⟨_, rfl, hrest, rfl, rfl, hst⟩

section
variable {s : State} {g : Group} {m : Lanes} {epc : W64} {ps : List Path} {q : Path} {n : Nat}
  (hq : q ∈ ps) (hn : q.lanes.getLsbD n = true) (hst : Ready q.status)
include hq hn hst

/-- A lane of the mask is set down at the address, unless it stands there (R165). -/
theorem setDown_moves (hm : m.getLsbD n = true) :
    ∃ p ∈ s.setDown g m epc ps, p.lanes.getLsbD n = true ∧ p.pc = epc ∧ Ready p.status := by
  by_cases hpc : q.pc = epc
  · exact ⟨q, List.mem_append_left _ (List.mem_filterMap.2 ⟨q, hq, by simp [hpc]⟩), hn, hpc, hst⟩
  · have hin : (q.lanes &&& m).getLsbD n = true := by simp [hn, hm]
    have hne : (q.lanes &&& m != 0) = true := bne_iff_ne.2 fun h => by rw [h] at hin; simp at hin
    refine ⟨_, List.mem_append_right _ (List.mem_map_of_mem
      (List.mem_filter.2 ⟨List.mem_filter.2 ⟨hq, bne_iff_ne.2 hpc⟩, hne⟩)), ?_⟩
    obtain ⟨hlanes, hat, hstatus⟩ := placed_fields s g.core g { q with lanes := q.lanes &&& m, pc := epc, age := 0, status := .run }
    rw [hlanes, hat, hstatus]
    exact ⟨hin, rfl, .inl rfl⟩

/-- A lane outside the mask stays at its place. -/
theorem setDown_keeps (hm : m.getLsbD n = false) :
    ∃ p ∈ s.setDown g m epc ps, p.lanes.getLsbD n = true ∧ p.pc = q.pc ∧ p.clause = q.clause ∧ Ready p.status := by
  by_cases hpc : q.pc = epc
  · exact ⟨q, List.mem_append_left _ (List.mem_filterMap.2 ⟨q, hq, by simp [hpc]⟩), hn, rfl, rfl, hst⟩
  · obtain ⟨p, hp, hrest⟩ := without_keeps hn hm hst
    exact ⟨p, List.mem_append_left _ (List.mem_filterMap.2 ⟨q, hq, by simp [hpc, hp]⟩), hrest⟩

end

/-! The two words. -/

/-- Outside handler mode a return is illegal (R163). -/
theorem return_illegal {s : State} (hs : s.CanIssue []) (f : State → Res) (hh : s.inHandler = false) :
    issueControl s.inHandler [] f s = .next s.illegal := by
  obtain ⟨c, hc, -⟩ := CanIssue_clause hs
  simp [issueControl, enter, hc, hh]

/-- In handler mode a return does what it does, and is not counted in the skid of a halt. -/
theorem return_completes {s t : State} {f : State → Res} (hs : s.CanIssue []) (hl : s.Closes) (hh : s.inHandler = true) (hf : f s = .done t) :
    issueControl s.inHandler [] f s = .next t := by
  have hp : s.cg.phase = .handler := by simp only [State.inHandler, Bool.and_eq_true, beq_iff_eq] at hh; exact hh.1
  rw [issueControl_eq hh hs hl hf, State.count, if_neg (by simp [hp])]

/-- The group and its waves before the last steps of a return. -/
theorem eret_before (s : State) : ∃ u, s.eretOp = s.eretEnd u ∧ Regrouped (s.modCw Wave.unsave) u ∧
    (s.handled.code ≠ 0x15 → u.waves = s.eretMoved.waves) :=
  ⟨_, eretOp_eq s, regrouped_eretRenewed s, eretRenewed_waves⟩

theorem eret_ck (s : State) : s.eretOp.ck = s.ck := by
  obtain ⟨u, hu, hreg, -⟩ := eret_before s
  rw [State.ck, hu, (eretEnd_base s u).1, hreg.cur]
  rfl

/-- The handler's wave has the program's modes back (R225). -/
theorem eret_modes {s : State} {v : Saved} (hv : s.cw.saved = some v) :
    s.eretOp.cw.fpmode = v.fpmode ∧ s.eretOp.cw.fpstat = v.fpstat ∧ s.eretOp.cw.xstat = v.xstat ∧ s.eretOp.cw.wbase = v.wbase ∧
      s.eretOp.cw.cbase = v.cbase ∧ s.eretOp.cw.saved = none := by
  obtain ⟨u, hu, hreg, -⟩ := eret_before s
  have h : s.eretOp.cw.base = s.cw.unsave.base := by
    rw [State.cw, eret_ck, hu, (eretEnd_base s u).2, hreg.base, State.wave_modCw_self]
  rw [Wave.unsave_eq hv] at h
  exact ⟨congrArg Wave.fpmode h, congrArg Wave.fpstat h, congrArg Wave.xstat h, congrArg Wave.wbase h, congrArg Wave.cbase h,
    by simpa [Wave.base] using congrArg Wave.saved h⟩

/-- A return keeps the group's waves and its held traps until it goes on. -/
theorem eret_before_group {s u : State} (h : Regrouped (s.modCw Wave.unsave) u) :
    (u.group s.cgid).keys = s.cg.keys ∧ (u.group s.cgid).held = s.cg.held :=
  ⟨(congrArg Group.keys (h.group s.cgid) :), (congrArg Group.held (h.group s.cgid) :)⟩

theorem unsave_live (s : State) (k : Nat) : ((s.modCw Wave.unsave).wave k).live = (s.wave k).live := by
  rw [State.modCw, State.wave_modWave]
  split
  · next h =>
    rw [h, Wave.unsave]
    split <;> rfl
  · rfl

/-- With no held trap and a live lane left the group runs again (R165). -/
theorem eret_runs {s : State} (hh : s.cg.held = []) (hl : s.liveCount s.cgid ≠ 0) :
    (s.eretOp.group s.cgid).phase = .running ∧ (s.eretOp.group s.cgid).trap = none := by
  obtain ⟨u, hu, hreg, -⟩ := eret_before s
  have hlive : (s.eretGoes u).liveCount s.cgid = s.liveCount s.cgid := by
    refine State.liveCount_congr ?_ fun k => ?_
    · rw [eretGoes_group]
      exact (eret_before_group hreg).1
    · exact (congrArg Wave.live ((eretGoes_base s u k).trans (hreg.base k)) :).trans (unsave_live s k)
  rw [hu, eretEnd_free s u hh, State.exitTest, if_pos (hlive ▸ hl), eretGoes_group]
  exact ⟨rfl, rfl⟩

/-- A held trap begins a halt at once, and the others stay held (R224). -/
theorem eret_halts {s : State} {h : Trap} {r : List Trap} (hh : s.cg.held = h :: r) :
    (s.eretOp.group s.cgid).phase = .halting ∧ (s.eretOp.group s.cgid).trap = some h ∧ (s.eretOp.group s.cgid).held = r := by
  obtain ⟨u, hu, hreg, -⟩ := eret_before s
  rw [hu, eretEnd_held s u hh]
  refine ⟨haltGroup_phase .., haltGroup_trap .., ?_⟩
  have hrest : (((s.eretGoes u).fall s.cgid h).group s.cgid).held = r := by
    show ((s.eretGoes u).group s.cgid).held = r
    rw [eretGoes_group]
    exact (congrArg List.tail ((eret_before_group hreg).2.trans hh) :)
  rw [State.group, haltGroup_groups]
  exact (congrArg Group.held (State.group_modGroup_self _ s.cgid _)).trans hrest

/-! Lanes after a return whose trap holds no word of memory (R165, R374). -/

section
variable {s : State} {v : Saved} {tr : Trap} (htr : s.cg.trap = some tr) (hop : tr.op = 0 ∨ tr.moved = true)
  (hraiser : waveKey s.cg.core (s.cg.slots.getD tr.wave 0) = s.ck)
include htr hop hraiser

/-- The lanes of the handler's own wave move exactly when the trap redirects. -/
theorem eretMoved_eq : s.eretMoved =
    if tr.redir = true then (s.modCw Wave.unsave).redirect s.cgid s.ck tr.emask tr.epc else s.modCw Wave.unsave := by
  have hown : ¬ (tr.op ≠ 0 ∧ (!tr.moved) = true) := by
    rintro ⟨h0, hm⟩
    obtain h | h := hop
    · exact h0 h
    · simp [h] at hm
  have hhandled : s.handled = tr := by rw [State.handled, htr]; rfl
  have hkey : s.raiserKey = s.ck := by rw [State.raiserKey, hhandled, hraiser]
  rw [State.eretMoved, hhandled, hkey, decide_eq_false hown, Bool.not_false, Bool.and_true]

theorem eretMoved_paths (hv : s.cw.saved = some v) : (s.eretMoved.wave s.ck).paths =
    if tr.redir = true then (s.modCw Wave.unsave).setDown s.cg tr.emask tr.epc v.paths else v.paths := by
  have hpaths : ((s.modCw Wave.unsave).wave s.ck).paths = v.paths := by rw [State.wave_modCw_self, Wave.unsave_eq hv]
  rw [eretMoved_eq htr hop hraiser]
  split
  · rw [redirect_eq, State.wave_modGroup, State.wave_modWave_self, hpaths]
    rfl
  · exact hpaths

theorem eretMoved_others {k : Nat} (hk : k ≠ s.ck) : s.eretMoved.wave k = s.wave k := by
  rw [eretMoved_eq htr hop hraiser]
  split
  · rw [redirect_eq, State.wave_modGroup, State.wave_modWave_ne _ _ _ _ hk, s.wave_modCw_ne _ _ hk]
  · exact s.wave_modCw_ne _ _ hk

end

/-- Every ready lane of the group runs where the return has set it down. -/
theorem eret_resumes {s : State} {k n : Nat} {pc : W64} {place : Option Clause → Prop} (hh : s.cg.held = []) (hcode : s.handled.code ≠ 0x15)
    (hk : k ∈ s.cg.keys) (h : (s.eretMoved.wave k).LaneAt n pc place Ready) : (s.eretOp.wave k).LaneAt n pc place (· = .run) := by
  obtain ⟨u, hu, -, hw⟩ := eret_before s
  rw [hu]
  refine eretEnd_resumes hh hk ?_
  rwa [State.wave, hw hcode]

/-- A wave of a group that has ended (R226). -/
theorem endGroup_wave (s : State) (gid : Nat) {k : Nat} (hk : k ∈ (s.group gid).keys) :
    ((s.endGroup gid).wave k).exited = ((s.endGroup gid).wave k).launched ∧ ((s.endGroup gid).wave k).paths = [] :=
  foldl_modWave_reaches (f := Wave.over) (P := fun _ => True) (Q := fun w => w.exited = w.launched ∧ w.paths = [])
    (fun _ _ => ⟨rfl, rfl⟩) (fun _ _ => trivial) hk trivial

/-- Settles O23: a return takes the modes back, sets the lanes down and lets every ready lane run; the other word ends the group. -/
theorem returnFromTrap : Obligations.ReturnFromTrap := by
  intro s hs hl
  refine ⟨fun hh => ⟨(exec_eret s).trans (return_illegal hs _ hh), (exec_eretKill s).trans (return_illegal hs _ hh)⟩, fun hh => ⟨?_, ?_⟩⟩
  · refine ⟨_, (exec_eret s).trans (return_completes hs hl hh rfl), s.eretOp_mem, fun v hv => eret_modes hv, ?_, eret_runs, fun h r => eret_halts⟩
    intro v tr hv htr hheld hop hcode hck hraiser
    have hcode : s.handled.code ≠ 0x15 := by rwa [State.handled, htr]
    have hpaths := eretMoved_paths htr hop hraiser hv
    refine ⟨fun n hn q hq hlane hst => ⟨fun hr hm => ?_, fun hr => ?_⟩, fun k hk => ⟨?_, fun hne q hq n hlane hst => ?_⟩⟩
    · rw [if_pos hr] at hpaths
      obtain ⟨p, hp, hpn, hpc, hready⟩ := setDown_moves (s := s.modCw Wave.unsave) (g := s.cg) (epc := tr.epc) hq hlane hst hm
      obtain ⟨p, hp, hpn, hpc, -, hrun⟩ := eret_resumes (place := fun _ => True) hheld hcode hck
        ⟨p, hpaths ▸ hp, hpn, hpc, trivial, hready⟩
      rw [State.cw, eret_ck]
      exact ⟨p, hp, hpn, hpc, hrun⟩
    · rw [State.cw, eret_ck]
      refine eret_resumes (place := (· = q.clause)) hheld hcode hck ?_
      by_cases hredir : tr.redir = true
      · rw [if_pos hredir] at hpaths
        have hm : tr.emask.getLsbD n = false := hr.resolve_left (by simp [hredir])
        rw [Wave.LaneAt, hpaths]
        exact setDown_keeps hq hlane hst hm
      · rw [if_neg hredir] at hpaths
        exact ⟨q, hpaths ▸ hq, hlane, rfl, rfl, hst⟩
    · obtain ⟨u, hu, -⟩ := eret_before s
      rw [hu]
      exact eretEnd_stopped hheld hk
    · refine eret_resumes (place := (· = q.clause)) hheld hcode hk ?_
      rw [eretMoved_others htr hop hraiser hne]
      exact ⟨q, hq, hlane, rfl, rfl, hst⟩
  · exact ⟨_, (exec_eretKill s).trans (return_completes hs hl hh rfl), s.endGroup_mem _, endGroup_phase .., fun k hk => endGroup_wave s _ hk⟩

end Sys2Proof.Machine
end

