-- ==== Sys2Proof/Proofs/TurnReads.lean ====
section
/-! What a word reads once its place of the core has taken it in its turn: as before (R160, R300). -/

set_option Elab.async false

namespace Sys2Proof.Machine

/-! Translation looks at no core but for its TLB (R252 to R255). -/

theorem walkFrom_modCore (s : State) (c : Nat) (f : Core → Core) (d va fuel : Nat) (base lvl : Nat) :
    (s.modCore c f).walkFrom d va base lvl fuel = s.walkFrom d va base lvl fuel := by
  induction fuel generalizing base lvl with
  | zero => rfl
  | succ n ih =>
    simp only [State.walkFrom, ih]
    rfl

theorem walk_modCore (s : State) (c : Nat) (f : Core → Core) (d ctx va : Nat) : (s.modCore c f).walk d ctx va = s.walk d ctx va := by
  simp only [State.walk, walkFrom_modCore]
  rfl

section
variable (s : State) (place ord : Nat)

theorem core_tookOrder (k : Nat) : { (s.tookOrder place ord).core k with acOrder := (s.core k).acOrder } = s.core k := by
  rw [State.tookOrder, State.core_modCore]
  split
  · next h => rw [h]
  · rfl

theorem translate_tookOrder (core ctx va : Nat) : (s.tookOrder place ord).translate core ctx va = s.translate core ctx va := by
  have htlb : ((s.tookOrder place ord).core core).tlb = (s.core core).tlb := (congrArg Core.tlb (core_tookOrder s place ord core) :)
  have hwalk : (s.tookOrder place ord).walk (dieOf core) ctx va = s.walk (dieOf core) ctx va := walk_modCore ..
  rw [State.translate, htlb, hwalk]
  rfl

theorem bankChk_tookOrder (core : Nat) (g : Group) (va : Nat) : (s.tookOrder place ord).bankChk core g va = s.bankChk core g va := by
  rw [State.bankChk, translate_tookOrder]
  rfl

theorem agentRead_modCore (c : Nat) (f : Core → Core) (pa key n : Nat) : (s.modCore c f).agentRead pa key n = s.agentRead pa key n := by
  induction n generalizing pa with
  | zero => rfl
  | succ n ih =>
    rw [State.agentRead, ih]
    rfl

theorem codeWord_tookOrder (core leaf pa : Nat) : (s.tookOrder place ord).codeWord core leaf pa = s.codeWord core leaf pa := by
  have hl1 : ((s.tookOrder place ord).core core).l1 = (s.core core).l1 := (congrArg Core.l1 (core_tookOrder s place ord core) :)
  have hread : ∀ key, (s.tookOrder place ord).agentRead pa key 4 = s.agentRead pa key 4 := fun key => agentRead_modCore ..
  rw [State.codeWord, hl1, hread]
  rfl

theorem cword_tookOrder (n : Nat) : (s.tookOrder place ord).cword n = s.cword n := by
  simp only [State.cword, bankChk_tookOrder, codeWord_tookOrder]
  rfl

theorem readS_tookOrder (n : Nat) : (s.tookOrder place ord).readS n = s.readS n := by
  have htags : (s.tookOrder place ord).cc.tags = s.cc.tags := (congrArg Core.tags (core_tookOrder s place ord s.cur.core) :)
  rw [State.readS, htags]
  rfl

theorem readS64_tookOrder (n : Nat) : (s.tookOrder place ord).readS64 n = s.readS64 n := by
  have htags : (s.tookOrder place ord).cc.tags = s.cc.tags := (congrArg Core.tags (core_tookOrder s place ord s.cur.core) :)
  rw [State.readS64, htags, readS_tookOrder, readS_tookOrder]
  rfl

theorem src32_tookOrder (x : Src) (n : Nat) : (s.tookOrder place ord).src32 x n = s.src32 x n := by
  simp only [State.src32, readS_tookOrder, cword_tookOrder]
  rfl

theorem src64_tookOrder (x : Src) (n : Nat) : (s.tookOrder place ord).src64 x n = s.src64 x n := by
  simp only [State.src64, readS64_tookOrder, cword_tookOrder]
  rfl

end

end Sys2Proof.Machine
end

