-- ==== Sys2Proof/Proofs/SpawnWords.lean ====
section
/-! SPAWN and SPAWN.TRY (O35): the lanes' threads, their placement, and the failure that ranks first (R149 to R151). -/

set_option Elab.async false

namespace Sys2Proof.Machine

/-- The trap of a word that takes its turn. -/
theorem issueTurn_trap {ok rel go : Bool} {srcs : List Src} {place ord : Nat} {f : State → Res} {s : State} {t : Trap} (hok : ok = true)
    (hg : go = true) (h : s.CanTurn srcs rel place ord) (hf : f (s.tookOrder place ord) = .trap t) :
    issueTurn ok srcs rel go place ord f s = .next (s.trapP t) := by
  obtain ⟨hi, hh, hr, ho⟩ := h
  obtain ⟨c, hc, hb⟩ := CanIssue_clause hi
  cases rel <;> simp_all [issueTurn, enter]

/-! The failure that ranks first (R150). -/

/-- Taking the least of a list's ranks one by one. -/
theorem foldl_least {α : Type} {F : Option Nat → α → Option Nat} {r : α → Nat} (h0 : ∀ e, F none e = some (r e))
    (h1 : ∀ x e, F (some x) e = some (min x (r e))) (l : List α) : l.foldl F none = (l.map r).min? := by
  have hsome : ∀ (l : List α) x, l.foldl F (some x) = some ((l.map r).foldl min x) := fun l => by
    induction l with
    | nil => exact fun _ => rfl
    | cons e l ih => exact fun x => by rw [List.foldl_cons, h1, ih]; rfl
  cases l with
  | nil => rfl
  | cons e l => rw [List.foldl_cons, h0, hsome]; rfl

/-- The first entry of a list in the order of its keys is the one with the least key. -/
theorem headD_of_least {β : Type} {l : List (Nat × β)} (hl : l.Pairwise fun x y => x.1 < y.1) {x : Nat × β} (hx : x ∈ l)
    (hmin : ∀ y ∈ l, x.1 ≤ y.1) (d : Nat × β) : l.headD d = x := by
  cases l with
  | nil => simp at hx
  | cons y l =>
    obtain rfl | hx := List.mem_cons.1 hx
    · rfl
    · have hlt := List.rel_of_pairwise_cons hl hx
      exact absurd (hmin y List.mem_cons_self) (Nat.not_le.2 hlt)

theorem lanesOf_sorted (m : Lanes) : (lanesOf m).Pairwise (· < ·) := List.Pairwise.filter _ List.pairwise_lt_range

section
variable {s : State} {d : RName} {a : Src}

/-- The lanes that fail a check, with their failures, in lane order. -/
def State.spawnBad (s : State) (d : RName) (a : Src) : List (Nat × Nat × Nat) :=
  (lanesOf s.memb).filterMap fun n => (s.spawnFail d a n).map fun r => (n, r)

theorem mem_spawnBad {e : Nat × Nat × Nat} : e ∈ s.spawnBad d a ↔ s.runs e.1 ∧ s.spawnFail d a e.1 = some e.2 := by
  obtain ⟨n, r⟩ := e
  simp only [State.spawnBad, List.mem_filterMap, Option.map_eq_some_iff, Prod.mk.injEq, s.runs_iff]
  constructor
  · rintro ⟨m, hm, r', hr, rfl, rfl⟩
    exact ⟨hm, hr⟩
  · exact fun ⟨hm, hr⟩ => ⟨n, hm, r, hr, rfl, rfl⟩

theorem spawnBad_sorted : (s.spawnBad d a).Pairwise fun x y => x.1 < y.1 := by
  refine List.Pairwise.filterMap _ (fun n m hlt x hx y hy => ?_) (lanesOf_sorted s.memb)
  obtain ⟨r, -, rfl⟩ := Option.map_eq_some_iff.1 hx
  obtain ⟨r', -, rfl⟩ := Option.map_eq_some_iff.1 hy
  exact hlt

/-- The trap of a SPAWN word whose failures of rank `k` are the first ones, lane `n` being the lowest of them, with code `c`. -/
def State.spawnTrap (s : State) (d : RName) (a : Src) (n k c : Nat) : Trap :=
  s.trapHere c (if k = 0 then 0 else s.pairAt (d.toNat + 4) n) (maskOf (((s.spawnBad d a).filter fun e => e.2.1 == k).map (·.1)))

theorem spawnChecked_done (f : List Thread → State) (h : ∀ n, s.runs n → s.spawnFail d a n = none) :
    s.spawnChecked d a f = .done (f ((lanesOf s.memb).filterMap fun n => s.spawnThread d a n)) := by
  have hbad : s.spawnBad d a = [] := List.eq_nil_iff_forall_not_mem.2 fun e he => by
    obtain ⟨hn, hf⟩ := mem_spawnBad.1 he
    simp [h _ hn] at hf
  have hbad : (lanesOf s.memb).filterMap (fun n => (s.spawnFail d a n).map fun r => (n, r)) = [] := hbad
  rw [State.spawnChecked, hbad]
  rfl

theorem spawnChecked_trap (f : List Thread → State) {n k c : Nat} (hn : s.runs n) (hf : s.spawnFail d a n = some (k, c))
    (hmin : ∀ m k' c', s.runs m → s.spawnFail d a m = some (k', c') → k ≤ k' ∧ (k' = k → n ≤ m)) :
    s.spawnChecked d a f = .trap (s.spawnTrap d a n k c) := by
  have hmem : (n, k, c) ∈ s.spawnBad d a := mem_spawnBad.2 ⟨hn, hf⟩
  have hrank : ((s.spawnBad d a).map fun e => e.2.1).min? = some k := by
    refine List.min?_eq_some_iff.2 ⟨List.mem_map_of_mem (f := fun e : Nat × Nat × Nat => e.2.1) hmem, fun b hb => ?_⟩
    obtain ⟨⟨m, k', c'⟩, he, rfl⟩ := List.mem_map.1 hb
    obtain ⟨hm, hf'⟩ := mem_spawnBad.1 he
    exact (hmin m k' c' hm hf').1
  have hfirst : ((s.spawnBad d a).filter fun e => e.2.1 == k).headD (0, 0, 0) = (n, k, c) := by
    refine headD_of_least (List.Pairwise.filter _ spawnBad_sorted) (List.mem_filter.2 ⟨hmem, by simp⟩) (fun y hy => ?_) _
    obtain ⟨he, hk⟩ := List.mem_filter.1 hy
    obtain ⟨hm, hf'⟩ := mem_spawnBad.1 he
    exact (hmin y.1 y.2.1 y.2.2 hm hf').2 (eq_of_beq hk)
  have hleast : ∀ F : Option Nat → Nat × Nat × Nat → Option Nat, (∀ e, F none e = some e.2.1) →
      (∀ x e, F (some x) e = some (min x e.2.1)) → (s.spawnBad d a).foldl F none = some k := fun F h0 h1 => (foldl_least h0 h1 _).trans hrank
  unfold State.spawnBad at hleast hfirst
  rw [State.spawnChecked, hleast _ (fun _ => rfl) fun _ _ => rfl]
  dsimp only
  rw [hfirst]
  rfl

theorem spawnFail_tookOrder (place ord n : Nat) : (s.tookOrder place ord).spawnFail d a n = s.spawnFail d a n := by
  rw [State.spawnFail, src64_tookOrder]
  rfl

theorem spawnThread_tookOrder (place ord n : Nat) : (s.tookOrder place ord).spawnThread d a n = s.spawnThread d a n := by
  rw [State.spawnThread, src64_tookOrder]
  rfl

theorem spawnTrap_emask {n k c m : Nat} (hm : m < 32) : (s.spawnTrap d a n k c).emask.getLsbD m =
    (s.memb.getLsbD m && (s.spawnFail d a m).any fun x => x.1 == k) := by
  have hmem : m ∈ ((s.spawnBad d a).filter fun e => e.2.1 == k).map (·.1) ↔
      s.memb.getLsbD m = true ∧ (s.spawnFail d a m).any (fun x => x.1 == k) = true := by
    rw [Option.any_eq_true]
    constructor
    · intro h
      obtain ⟨e, he, rfl⟩ := List.mem_map.1 h
      obtain ⟨hbad, hk⟩ := List.mem_filter.1 he
      obtain ⟨hruns, hf⟩ := mem_spawnBad.1 hbad
      exact ⟨hruns.2, e.2, hf, hk⟩
    · rintro ⟨hin, r, hf, hk⟩
      exact List.mem_map.2 ⟨(m, r), List.mem_filter.2 ⟨mem_spawnBad.2 ⟨⟨hm, hin⟩, hf⟩, hk⟩, rfl⟩
  rw [Bool.eq_iff_iff, State.spawnTrap, State.trapHere, mem_maskOf _ hm, hmem, Bool.and_eq_true]

/-- What a lane's thread holds (R150). -/
theorem spawnThread_holds {n : Nat} {t : Thread} (h : s.spawnThread d a n = some t) :
    t.key = (s.src64 a n).toNat ∧ t.key ≠ 0 ∧ t.join = s.cw.readV64 (d.toNat + 4) n ∧ t.lane = n ∧
      ∃ x, (s.launchOf s.cg).spawnE t.key = some x ∧ t.pay = (List.range x.words).map fun i => s.cw.readV (d.toNat + i) n := by
  unfold State.spawnThread at h
  dsimp only at h
  split at h
  · exact nomatch h
  · next x hx =>
    split at h
    · exact nomatch h
    · next hkey =>
      cases h
      exact ⟨rfl, hkey, rfl, rfl, x, hx, rfl⟩

/-! The two words. -/

/-- What a word does with the threads that are left when it has placed all it can: its path waits with their lanes (R150, R161, R162). -/
def afterPlacing (word : List Thread → WaitWord) (p : State × List Thread) : State :=
  match p with
  | (u, []) => u.past false
  | (u, r) => u.await (word r) (maskOf (r.map (·.lane)))

theorem afterPlacing_all {word : List Thread → WaitWord} {p : State × List Thread} (h : p.2 = []) :
    afterPlacing word p = p.1.past false := by
  obtain ⟨u, r⟩ := p
  cases r with
  | nil => rfl
  | cons => exact nomatch h

theorem afterPlacing_left {word : List Thread → WaitWord} {p : State × List Thread} (h : p.2 ≠ []) :
    afterPlacing word p = p.1.await (word p.2) (maskOf (p.2.map (·.lane))) := by
  obtain ⟨u, r⟩ := p
  cases r with
  | nil => exact absurd rfl h
  | cons => rfl

section
variable (hok : (oct d && addrSrc a) = true) (hs : s.CanTurn [] true 0 (s.cw.wix + 1))
include hok hs

theorem execSpawn_places (h : ∀ n, s.runs n → s.spawnFail d a n = none) :
    let r := (s.tookOrder 0 (s.cw.wix + 1)).placeAll s.cur.core [] ((lanesOf s.memb).filterMap fun n => s.spawnThread d a n)
    (r.2 = [] → execSpawn d a s = .next ((r.1.past false).count s)) ∧
    (r.2 ≠ [] → execSpawn d a s = .next ((r.1.await (.spawn r.2) (maskOf (r.2.map (·.lane)))).count s)) := by
  intro r
  have hdone := fun f => spawnChecked_done (s := s.tookOrder 0 (s.cw.wix + 1)) (d := d) (a := a) f fun n hn =>
    (spawnFail_tookOrder ..).trans (h n hn)
  simp only [spawnThread_tookOrder] at hdone
  exact ⟨fun hr => issueTurn_eq hok rfl hs ((hdone _).trans (congrArg Res.done (afterPlacing_all (word := .spawn) hr))),
    fun hr => issueTurn_eq hok rfl hs ((hdone _).trans (congrArg Res.done (afterPlacing_left (word := .spawn) hr)))⟩

theorem execSpawnTry_places (h : ∀ n, s.runs n → s.spawnFail d a n = none) :
    let r := (s.tookOrder 0 (s.cw.wix + 1)).placeAll s.cur.core [] ((lanesOf s.memb).filterMap fun n => s.spawnThread d a n)
    execSpawnTry d a s = .next (((r.1.modCw fun w => w.report s.memb (maskOf (r.2.map (·.lane)))).past false).count s) := by
  intro r
  have hdone := fun f => spawnChecked_done (s := s.tookOrder 0 (s.cw.wix + 1)) (d := d) (a := a) f fun n hn =>
    (spawnFail_tookOrder ..).trans (h n hn)
  simp only [spawnThread_tookOrder] at hdone
  exact issueTurn_eq hok rfl hs (hdone _)

end

end

/-- Settles O35: the checks of the lanes decide between the placement of their threads in lane order and the trap of the first failure. -/
theorem spawnWords : Obligations.SpawnWords := by
  intro d a s hd ha hs
  have hok : (oct d && addrSrc a) = true := by rw [hd, ha]; rfl
  refine ⟨fun h => ?_, fun n t => spawnThread_holds, fun n k c hn hf hmin => ?_⟩
  · obtain ⟨hall, hleft⟩ := execSpawn_places hok hs h
    exact ⟨fun hr => (exec_spawn ..).trans (hall hr), fun hr => (exec_spawn ..).trans (hleft hr),
      (exec_spawnTry ..).trans (execSpawnTry_places hok hs h)⟩
  · have htrap := fun f => spawnChecked_trap (s := s.tookOrder 0 (s.cw.wix + 1)) (d := d) (a := a) f hn ((spawnFail_tookOrder ..).trans hf)
      fun m k' c' hm hf' => hmin m k' c' hm ((spawnFail_tookOrder ..).symm.trans hf')
    refine ⟨_, (exec_spawn ..).trans (issueTurn_trap hok rfl hs (htrap _)), (exec_spawnTry ..).trans (issueTurn_trap hok rfl hs (htrap _)),
      rfl, rfl, fun m hm => ?_⟩
    rw [spawnTrap_emask hm, spawnFail_tookOrder]
    rfl

end Sys2Proof.Machine
end

