-- ==== Sys2Proof/Proofs/JoinWords.lean ====
section
/-! JOIN, MON and MWAIT (O36): where they wait, and which lanes they complete (R143, R154 to R156). -/

set_option Elab.async false

namespace Sys2Proof.Machine

/-! A word all of whose accesses pass their checks leaves its path whole. -/

section
variable {ts : List Try} (hok : ∀ t ∈ ts, t.chk.isOk = true)
include hok

theorem not_with {c : Chk} (hc : c.isOk = false) : ∀ t ∈ ts, (t.chk == c) = false := by
  intro t ht
  refine Bool.eq_false_iff.2 fun h => ?_
  have hk := hok t ht
  rw [eq_of_beq h, hc] at hk
  exact nomatch hk

/-- Lanes that all pass their checks go on in one path (R76, R115). -/
theorem divide_ok {w : Wave} {p : Path} {r : List Path} {q : Path → Path} (hp : w.paths = p :: r)
    (hl : lanesWith ts Chk.isOk = p.lanes) (hne : p.lanes ≠ 0) (hq : (q p).lanes = p.lanes) : w.divide ts q = w.modPath q := by
  have hpark : pagesWith ts .park = [] := pagesWith_none (not_with hok rfl)
  have hwait : pagesWith ts .wait = [] := pagesWith_none (not_with hok rfl)
  have htab : lanesWith ts (· == .table) = 0 := lanesWith_none (not_with hok rfl)
  have hqp : ({ q p with lanes := p.lanes } : Path) = q p := by rw [← hq]
  unfold Wave.divide Wave.modPath
  simp only [hp, hpark, hwait, htab, hl, if_neg hne, if_true, List.map_nil, List.append_nil, List.singleton_append, hqp]

theorem raiseMisses_ok (s t : State) (write : Bool) : s.raiseMisses t ts write = t := by
  have hfind : ts.find? (fun x => x.chk == .table) = none :=
    List.find?_eq_none.2 fun t ht => by rw [not_with hok rfl t ht]; exact Bool.false_ne_true
  rw [State.raiseMisses, pagesWith_none (not_with hok rfl), hfind]
  rfl

end

/-! JOIN and MON (R154, R155). -/

/-- The watched places of a word whose lanes reach them. -/
def State.watched (s : State) (a : Src) (at' : Nat → Nat × Nat) : List Acc :=
  (lanesOf s.memb).map fun n => { lane := n, va := s.src64 a n, pa := (at' n).1, leaf := BitVec.ofNat 64 (at' n).2 }

section
variable {s : State} {a : Src} {at' : Nat → Nat × Nat} (hr : s.Reaches (fun n => s.src64 a n) { size := 4 } at')
include hr

theorem tries_ok : ∀ t ∈ s.tries (fun n => s.src64 a n) { size := 4 }, t.chk.isOk = true := by
  intro t ht
  rw [tries_reaches hr] at ht
  obtain ⟨n, hn, rfl⟩ := List.mem_map.1 ht
  dsimp only
  rw [(hr.2 n ((s.runs_iff n).1 hn)).1]
  rfl

theorem lanesWith_reaches : lanesWith (s.tries (fun n => s.src64 a n) { size := 4 }) Chk.isOk = s.memb := by
  rw [tries_reaches hr]
  exact lanesWith_tries (fun _ => rfl) fun n hn => by rw [(hr.2 n hn).1]; rfl

theorem sentAccs_watched : sentAccs (s.tries (fun n => s.src64 a n) { size := 4 })
    (fun t pa leaf => { lane := t.lane, va := t.va, pa := pa, leaf := leaf }) = s.watched a at' := by
  rw [tries_reaches hr]
  exact sentAccs_lanes fun n hn => (hr.2 n ((s.runs_iff n).1 hn)).1

omit hr in
theorem maskOf_watched : maskOf ((s.watched a at').map (·.lane)) = s.memb := by
  have hlanes : (s.watched a at').map (·.lane) = lanesOf s.memb := by simp [State.watched, List.map_map, Function.comp_def]
  refine BitVec.eq_of_getLsbD_eq fun n hn => ?_
  rw [Bool.eq_iff_iff, hlanes, mem_maskOf _ hn, mem_lanesOf, and_iff_right hn]

/-- A word whose lanes reach their places waits there; only owner tables of the dies may change besides (R154, R155, R241). -/
theorem watchWord_waits (hs : s.cp.clause.isSome = true) (mk : List Acc → WaitWord) : ∃ u, s.watchWord a mk = .done u ∧
    { u with dies := s.dies } = s.modCp fun p => { p with
      status := .wait (mk (s.watched a at')) s.memb (if s.cw.mwtime = 0 ∨ !(mk (s.watched a at')).timed then 0 else s.cw.mwtime.toNat + 1) } := by
  have hok := tries_ok hr
  unfold State.watchWord
  extract_lets ts accs stay left s1 s2
  have haccs : accs = s.watched a at' := sentAccs_watched hr
  have hstay : stay = s.memb := (congrArg (fun l : List Acc => maskOf (l.map (·.lane))) haccs :).trans maskOf_watched
  have hs1 : s1 = s.modCp fun p => { p with status := .wait (mk (s.watched a at')) s.memb left } := by
    rw [← haccs, ← hstay]
    exact State.modCw_congr (divide_ok hok (paths_eq_cons hs) (lanesWith_reaches hr) hr.1 rfl)
  have hs2 : { s2 with dies := s1.dies } = s1 := owns_rest (fun x => (s.cur.core, x.leaf.toNat, x.pa, x.va.toNat)) accs s1
  rw [firstTrap_isOk hok]
  refine ⟨s2, congrArg Res.done (raiseMisses_ok hok s s2 false), ?_⟩
  rw [← haccs]
  rw [← haccs] at hs1
  exact hs1 ▸ hs2

end

/-- MON waits at its places (R155). -/
theorem execMon_waits {s : State} {a : Src} {at' : Nat → Nat × Nat} (ha : addrSrc a = true) (hs : s.CanIssue []) (hh : s.held s.cp = false)
    (hr : s.Reaches (fun n => s.src64 a n) { size := 4 } at') :
    ∃ u : State, { u with dies := s.dies } = s.modCp (fun p => { p with status := .wait (.mon (s.watched a at')) s.memb 0 }) ∧
      execMon a s = .next (u.count s) := by
  obtain ⟨u, hu, hrest⟩ := watchWord_waits hr hs.1 .mon
  rw [if_pos (.inr rfl)] at hrest
  exact ⟨u, hrest, issueWaiting_eq (onL := true) (rel := false) ha hs (fun _ => hh) nofun hu⟩

/-- JOIN waits at its places and then looks at each lane's counter (R154). -/
theorem execJoin_waits {s : State} {a : Src} {at' : Nat → Nat × Nat} (ha : addrSrc a = true) (hs : s.CanIssue []) (hh : s.held s.cp = false)
    (hr : s.Reaches (fun n => s.src64 a n) { size := 4 } at') :
    ∃ u : State, { u with dies := s.dies } = s.modCp (fun p => { p with
        status := .wait (.join (s.watched a at')) s.memb (if s.cw.mwtime = 0 then 0 else s.cw.mwtime.toNat + 1) }) ∧
      execJoin a s = .next (((s.watched a at').foldl (fun v x => v.joinLane s.cur.core s.cur.slot x.lane x) u).count s) := by
  obtain ⟨u, hu, hrest⟩ := watchWord_waits hr hs.1 .join
  simp only [WaitWord.timed, Bool.not_true, Bool.false_eq_true, or_false] at hrest
  have hcp : u.cp.status = .wait (.join (s.watched a at')) s.memb (if s.cw.mwtime = 0 then 0 else s.cw.mwtime.toNat + 1) := by
    rw [show u.cp = _ from (congrArg State.cp hrest :), State.cp, State.cw_modCp, Wave.modPath_paths, paths_eq_cons hs.1]
    rfl
  refine ⟨u, hrest, issueWaiting_eq (onL := true) (rel := false) ha hs (fun _ => hh) nofun ?_⟩
  rw [hu]
  dsimp only
  rw [hcp]

/-! MWAIT (R156). -/

/-- A lane whose MWAIT completes. -/
def Wave.lifted (w : Wave) (n : Nat) : Prop := (w.mons.get n {}).trig = true ∨ (w.mons.get n {}).armed = false

theorem woken_getLsbD (w : Wave) (m : Lanes) {n : Nat} (hn : n < 32) :
    (w.woken m).getLsbD n = true ↔ m.getLsbD n = true ∧ w.lifted n := by
  rw [Wave.woken, mem_maskOf _ hn, List.mem_filter, mem_lanesOf, and_iff_right hn, Wave.lifted, Bool.or_eq_true, Bool.not_eq_true']

theorem left_getLsbD (w : Wave) (m : Lanes) {n : Nat} (hn : n < 32) :
    (m &&& ~~~w.woken m).getLsbD n = true ↔ m.getLsbD n = true ∧ ¬ w.lifted n := by
  rw [BitVec.getLsbD_and, BitVec.getLsbD_not, Bool.and_eq_true, Bool.and_eq_true, Bool.not_eq_true', ← Bool.not_eq_true, woken_getLsbD w m hn]
  simp only [hn, decide_true, true_and]
  tauto

theorem FMap.get_of_not_has {α : Type} {m : FMap α} {k : Nat} (h : m.has k = false) (d : α) : m.get k d = d := by
  induction m with
  | nil => rfl
  | cons e r ih =>
    rw [FMap.has, List.any_cons, Bool.or_eq_false_iff] at h
    have hne : e.1 ≠ k := by simpa using h.1
    exact (if_neg hne).trans (ih h.2)

/-- A list of monitors is disarmed (R156). -/
def disarmAll (l : List Nat) (m : FMap Mon) : FMap Mon :=
  l.foldl (fun f n => if f.has n then f.set n { (f.get n {}) with armed := false, trig := false } else f) m

/-- Disarming reaches each monitor of the list. -/
theorem disarmAll_disarms {l : List Nat} {n : Nat} (hn : n ∈ l) (m : FMap Mon) :
    ((disarmAll l m).get n {}).armed = false ∧ ((disarmAll l m).get n {}).trig = false := by
  induction l using List.reverseRecOn with
  | nil => simp at hn
  | append_singleton l k ih =>
    rw [disarmAll, List.foldl_append, List.foldl_cons, List.foldl_nil, ← disarmAll]
    by_cases hk : n = k
    · subst hk
      split
      · simp
      · next hhas => simp [FMap.get_of_not_has (Bool.not_eq_true _ ▸ hhas)]
    · have hl : n ∈ l := (List.mem_append.1 hn).resolve_right (by simpa using hk)
      split
      · rw [FMap.get_set_ne _ _ _ _ _ hk]
        exact ih hl
      · exact ih hl

section
variable {s : State} (hs : s.CanIssue [])
include hs

/-- MWAIT completes when the monitor of every executing lane is triggered or not armed (R156). -/
theorem execMwait_completes (h : ∀ n, s.runs n → s.cw.lifted n) : ∃ t, execMwait s = .next t ∧ OnlyWave s t ∧ PastWord s t false ∧
    { t.cw with mons := s.cw.mons, paths := s.cw.paths, skid := s.cw.skid } = s.cw ∧
      ∀ n, s.runs n → (t.cw.mons.get n {}).armed = false ∧ (t.cw.mons.get n {}).trig = false := by
  have hleft : s.memb &&& ~~~s.cw.woken s.memb = 0 := BitVec.eq_of_getLsbD_eq fun n hn => by
    rw [Bool.eq_iff_iff, left_getLsbD _ _ hn]
    simpa using fun hm => h n ⟨hn, hm⟩
  have hdone : execMwait s = .next (((s.modCw fun w => w.disarm (s.cw.woken s.memb)).past false).count s) :=
    issueWaiting_eq rfl hs nofun nofun (congrArg Res.done (if_pos hleft))
  rw [State.fixedDone] at hdone
  refine ⟨_, hdone, OnlyWave.modCw .., ⟨?_, ?_⟩, ?_, fun n hn => ?_⟩
  · rw [State.cw_modCw]
    rfl
  · rw [State.cw_modCw]
    rfl
  · rw [State.cw_modCw]
    rfl
  · rw [State.cw_modCw]
    exact disarmAll_disarms ((mem_lanesOf _ n).2 ⟨hn.1, (woken_getLsbD _ _ hn.1).2 ⟨hn.2, h n hn⟩⟩) _

/-- Otherwise MWAIT waits with the other lanes (R156, R381). -/
theorem execMwait_waits (h : ∃ n, s.runs n ∧ ¬ s.cw.lifted n) : ∃ t m, execMwait s = .next t ∧ OnlyWave s t ∧
    (∀ n < 32, m.getLsbD n = true ↔ s.runs n ∧ ¬ s.cw.lifted n) ∧
    t.cp = { s.cp with status := .wait .mwait m (if s.cw.mwtime = 0 then 0 else s.cw.mwtime.toNat + 1) } := by
  have hbits : ∀ n < 32, (s.memb &&& ~~~s.cw.woken s.memb).getLsbD n = true ↔ s.runs n ∧ ¬ s.cw.lifted n := fun n hn => by
    rw [left_getLsbD _ _ hn, State.runs, and_iff_right hn]
  have hleft : s.memb &&& ~~~s.cw.woken s.memb ≠ 0 := fun h0 => by
    obtain ⟨n, hn, hno⟩ := h
    have hb := (hbits n hn.1).2 ⟨hn, hno⟩
    rw [h0] at hb
    simp at hb
  have hdone : execMwait s = .next (((s.modCw fun w => w.disarm (s.cw.woken s.memb)).await .mwait (s.memb &&& ~~~s.cw.woken s.memb)).count s) :=
    issueWaiting_eq rfl hs nofun nofun (congrArg Res.done (if_neg hleft))
  rw [State.await, State.modCp, State.modCw_modCw, State.count_modCw] at hdone
  refine ⟨_, _, hdone, OnlyWave.modCw .., hbits, ?_⟩
  have hmw : (s.modCw fun w => w.disarm (s.cw.woken s.memb)).cw.mwtime = s.cw.mwtime := by rw [State.cw_modCw]; rfl
  have hpaths : (s.cw.disarm (s.cw.woken s.memb)).paths = s.cp :: s.cw.paths.tail := paths_eq_cons hs.1
  rw [State.cp, State.cw_modCw, hmw]
  dsimp only
  rw [Wave.modPath_paths, hpaths]
  simp only [WaitWord.timed, Bool.not_true, Bool.false_eq_true, or_false]
  rfl

end

/-- Settles O36: JOIN and MON wait at the places that their lanes reach, JOIN looks at its counters, and MWAIT at its monitors. -/
theorem joinAndMonitorWords : Obligations.JoinAndMonitorWords := by
  refine ⟨fun a s at' ha hs hh hr => ?_, fun v core slot lane x => ⟨fun h => ?_, fun h => ?_⟩, fun p w m left h => ?_, fun s hs => ⟨fun h => ?_, fun h => ?_⟩⟩
  · exact ⟨(exec_mon a s) ▸ execMon_waits ha hs hh hr, (exec_join a s) ▸ execJoin_waits ha hs hh hr⟩
  · exact if_pos ⟨h.1, by simp [h.2]⟩
  · exact if_neg fun hc => h hc.1
  · rw [Path.finish, h]
    simp
  · exact (exec_mwait s) ▸ execMwait_completes hs h
  · exact (exec_mwait s) ▸ execMwait_waits hs h

end Sys2Proof.Machine
end

