-- ==== Sys2Proof/Proofs/StageWords.lean ====
section
/-! STAGEPUSH and AMSG (O38): records and messages taken in lane order, and what traps instead (R161, R162). -/

set_option Elab.async false

namespace Sys2Proof.Machine

/-- A waiting word that traps (R143). -/
theorem issueWaiting_trap {ok : Bool} {srcs : List Src} {onL rel : Bool} {f : State → Res} {s : State} {t : Trap} (hok : ok = true)
    (h : s.CanIssue srcs) (hh : onL = true → s.held s.cp = false) (hr : rel = true → s.unacked s.cur.core s.cur.slot = 0)
    (hf : f s = .trap t) : issueWaiting ok srcs onL rel f s = .next (s.trapP t) := by
  obtain ⟨c, hc, hb⟩ := CanIssue_clause h
  cases onL <;> cases rel <;> simp_all [issueWaiting, enter]

/-- The effect of a word that hands over one record for each lane. -/
def handOver (word : List Thread → WaitWord) (p : State × List Thread) : Res :=
  match p with
  | (u, []) => .done (u.past false)
  | (u, r) => .done (u.await (word r) (maskOf (r.map (·.lane))))

theorem handOver_eq (word : List Thread → WaitWord) (p : State × List Thread) : handOver word p = .done (afterPlacing word p) := by
  obtain ⟨u, r⟩ := p
  cases r <;> rfl

/-- A word that has handed over all it can completes, or waits with the lanes that are left (R143). -/
theorem handOver_completes {ok : Bool} {srcs : List Src} {f : State → Res} {s : State} {word : List Thread → WaitWord}
    {r : State × List Thread} (hok : ok = true) (h : s.CanIssue srcs) (hh : s.held s.cp = false) (hu : s.unacked s.cur.core s.cur.slot = 0)
    (hf : f s = handOver word r) :
    (r.2 = [] → issueWaiting ok srcs true true f s = .next ((r.1.past false).count s)) ∧
    (r.2 ≠ [] → issueWaiting ok srcs true true f s = .next ((r.1.await (word r.2) (maskOf (r.2.map (·.lane)))).count s)) := by
  have hdone : issueWaiting ok srcs true true f s = .next ((afterPlacing word r).count s) :=
    issueWaiting_eq hok h (fun _ => hh) (fun _ => hu) (hf.trans (handOver_eq word r))
  exact ⟨fun hr => afterPlacing_all (word := word) hr ▸ hdone, fun hr => afterPlacing_left (word := word) hr ▸ hdone⟩

section
variable {d : RName} {a : Src} {s : State} (hh : s.held s.cp = false) (hu : s.unacked s.cur.core s.cur.slot = 0)
include hh hu

theorem execStagepush_traps (hok : (quad d && scaLit a) = true) (hs : s.CanIssue [])
    (hn : 7 < (s.src32 a 0).toNat ∨ s.stageOf s.cg (s.src32 a 0).toNat = none) :
    execStagepush d a s = .next (s.trapP (s.trapHere 0x17 (BitVec.ofNat 64 (s.src32 a 0).toNat) s.memb)) :=
  issueWaiting_trap hok hs (fun _ => hh) (fun _ => hu) (if_pos (hn.imp_right fun h => by rw [h]; rfl))

theorem execStagepush_hands (hok : (quad d && scaLit a) = true) (hs : s.CanIssue []) (hn : (s.src32 a 0).toNat ≤ 7)
    (hstage : s.stageOf s.cg (s.src32 a 0).toNat ≠ none) :
    let n := (s.src32 a 0).toNat
    let r := s.stageAll (dieOf s.cur.core) s.cg.ctx s.cg.lid n ((lanesOf s.memb).map fun l =>
      { lane := l, ctx := s.cg.ctx, lid := s.cg.lid, pay := (List.range 4).map fun i => s.cw.readV (d.toNat + i) l })
    (r.2 = [] → execStagepush d a s = .next ((r.1.past false).count s)) ∧
    (r.2 ≠ [] → execStagepush d a s = .next ((r.1.await (.stagePush n r.2) (maskOf (r.2.map (·.lane)))).count s)) :=
  handOver_completes hok hs hh hu (if_neg (by simp [hn, Option.isNone_iff_eq_none, hstage]))

theorem execAmsg_traps (hok : (hexa d && src32 a) = true) (hs : s.CanIssue [a]) {n : Nat} (hn : s.runs n)
    (hbad : s.msgOk s.cg (s.src32 a n).toNat = false) (hlow : ∀ m < n, s.runs m → s.msgOk s.cg (s.src32 a m).toNat = true) :
    execAmsg d a s = .next (s.trapP (s.trapHere 0x18 (BitVec.ofNat 64 (s.src32 a n).toNat) s.memb)) := by
  have hfind : (lanesOf s.memb).find? (fun n => !s.msgOk s.cg (s.src32 a n).toNat) = some n := by
    refine find?_lanesOf ((s.runs_iff n).2 hn) (by simp [hbad]) fun k hk hb => ?_
    by_contra hlt
    simp [hlow k (Nat.lt_of_not_le hlt) ((s.runs_iff k).1 hk)] at hb
  refine issueWaiting_trap hok hs (fun _ => hh) (fun _ => hu) ?_
  dsimp only
  rw [hfind]

/-- The message that a lane sends (R162). -/
def State.msgOf (s : State) (d : RName) (a : Src) (n : Nat) : Thread :=
  let v := (s.src32 a n).toNat
  let die := (msgDie v).getD 0
  { key := v % 256, msg := true, ctx := s.cg.ctx, lane := n, wave := s.ck, desc := s.src32 a n, tdie := die
    lid := if die = dieOf s.cur.core then s.cg.lid else
      (s.memberOn die s.cg.ctx (s.launchOf s.cg).entry.toNat (s.launchOf s.cg).fedn).getD s.cg.lid
    pay := (List.range (v / 2 ^ 8 % 32)).map fun i => s.cw.readV (d.toNat + i) n }

theorem execAmsg_hands (hok : (hexa d && src32 a) = true) (hs : s.CanIssue [a])
    (hgood : ∀ n, s.runs n → s.msgOk s.cg (s.src32 a n).toNat = true) :
    let r := s.sendAll (dieOf s.cur.core) ((lanesOf s.memb).map (s.msgOf d a))
    (r.2 = [] → execAmsg d a s = .next ((r.1.past false).count s)) ∧
    (r.2 ≠ [] → execAmsg d a s = .next ((r.1.await (.amsg r.2) (maskOf (r.2.map (·.lane)))).count s)) := by
  have hfind : (lanesOf s.memb).find? (fun n => !s.msgOk s.cg (s.src32 a n).toNat) = none :=
    List.find?_eq_none.2 fun n hn => by simp [hgood n ((s.runs_iff n).1 hn)]
  refine handOver_completes hok hs hh hu ?_
  dsimp only
  rw [hfind]
  simp only [field, pow_zero, Nat.div_one]
  rfl

end

/-- Settles O38: both words hand over what they can in lane order, unless the stage or a descriptor is bad. -/
theorem stageAndMessageWords : Obligations.StageAndMessageWords := by
  intro d a s hs hh hu
  refine ⟨fun hd ha => ?_, fun hd ha => ?_⟩
  · have hok : (quad d && scaLit a) = true := by rw [hd, ha]; rfl
    have hs0 : s.CanIssue [] := ⟨hs.1, s.bound_nil⟩
    rw [exec_stagepush]
    exact ⟨execStagepush_traps hh hu hok hs0, execStagepush_hands hh hu hok hs0⟩
  · have hok : (hexa d && src32 a) = true := by rw [hd, ha]; rfl
    rw [exec_amsg]
    exact ⟨fun n hn hbad hlow => execAmsg_traps hh hu hok hs hn hbad hlow, execAmsg_hands hh hu hok hs⟩

end Sys2Proof.Machine
end

