-- ==== Sys2Proof/Proofs/QueueOps.lean ====
section
/-! What the queue words do to the scratchpad's queues and to the waits at them (R157 to R160). -/

set_option Elab.async false

namespace Sys2Proof.Machine

/-! A word that has moved on, told by the wave and the group that it leaves. -/

@[simp] theorem State.cg_count (t s : State) : (t.count s).cg = t.cg := by
  obtain ⟨n, hn⟩ := t.wave_count s t.ck
  have hgid : ((t.count s).wave (t.count s).ck).gid = t.cw.gid := by
    rw [State.ck_count, hn]
    rfl
  rw [State.cg_eq hgid, State.group_count]
  rfl

theorem State.cw_count (t s : State) : (t.count s).cw = { t.cw with skid := t.cw.skid + if s.cg.phase = .halting then 1 else 0 } := by
  unfold State.count
  split
  · rw [State.cw_modCw]
  · rfl

/-- A path that has moved on in a wave whose SKID stands, counted. -/
theorem pastWord_count {s u : State} (hp : u.cw.paths = (s.cw.modPath fun p => p.past false).paths) (hk : u.cw.skid = s.cw.skid) :
    PastWord s (u.count s) false := by
  refine ⟨?_, ?_⟩
  · rw [State.cw_count]
    exact hp
  · rw [State.cw_count, ← hk]

/-! One value in a register of every lane of a set. -/

/-- Write a value to a register of every lane of a list. -/
def Wave.setAll (w : Wave) (opf : Bool) (reg : Nat) (h : W32) (ls : List Nat) : Wave := ls.foldl (fun w n => w.setReg opf reg n h) w

theorem Wave.setAll_rest (w : Wave) (opf : Bool) (reg : Nat) (h : W32) (ls : List Nat) :
    { w.setAll opf reg h ls with main := w.main, opf := w.opf } = w :=
  List.foldlRecOn (motive := fun v : Wave => { v with main := w.main, opf := w.opf } = w) _ _ rfl fun v hv n _ => by
    rw [Wave.setReg]
    split <;> exact hv

/-- A destination's register in the file that holds it (R14, R87). -/
def Wave.regOf (w : Wave) (d : RName) : Nat := if inOpf d then d.toNat - 96 else w.wbase + d.toNat

section
variable {d : RName} (hd : d.toNat < 112)
include hd

theorem Wave.setV_eq (w : Wave) (n : Nat) (h : W32) : w.setV d.toNat n h = w.setReg (inOpf d) (w.regOf d) n h := by
  by_cases h96 : d.toNat < 96
  · have hin : inOpf d = false := decide_eq_false (Nat.not_le.2 h96)
    simp [Wave.setV, Wave.setReg, Wave.regOf, hin, h96]
  · have hin : inOpf d = true := decide_eq_true (Nat.not_lt.1 h96)
    simp [Wave.setV, Wave.setReg, Wave.regOf, hin, h96, hd]

theorem Wave.setAll_setV (w : Wave) (h : W32) (ls : List Nat) :
    ls.foldl (fun w n => w.setV d.toNat n h) w = w.setAll (inOpf d) (w.regOf d) h ls := by
  induction ls generalizing w with
  | nil => rfl
  | cons n ls ih =>
    have hreg : (w.setV d.toNat n h).regOf d = w.regOf d := by rw [Wave.regOf, Wave.setV_wbase]; rfl
    rw [List.foldl_cons, ih, hreg, w.setV_eq hd, Wave.setAll, Wave.setAll, List.foldl_cons]

theorem Wave.setV_readV (w : Wave) {n l : Nat} (hn : n < 32) (hl : l < 32) (h : W32) :
    (w.setV d.toNat l h).readV d.toNat n = if n = l then h else w.readV d.toNat n := by
  unfold Wave.readV
  rw [Wave.setV_main, Wave.setV_opf, Wave.setV_wbase, Wave.setV_seed]
  split
  · next h96 => exact if_congr ⟨fun hk => (key_inj hn hl hk.2).2, fun hk => ⟨h96, by rw [hk]⟩⟩ rfl rfl
  · next h96 =>
    exact if_congr ⟨fun hk => (key_inj hn hl hk.2.2).2, fun hk => ⟨Nat.not_lt.1 h96, hd, by rw [hk]⟩⟩ rfl rfl

/-- Each lane of the list reads the value. -/
theorem Wave.setAll_readV (w : Wave) (h : W32) {ls : List Nat} (hls : ∀ l ∈ ls, l < 32) {n : Nat} (hn : n ∈ ls) :
    (w.setAll (inOpf d) (w.regOf d) h ls).readV d.toNat n = h := by
  rw [← w.setAll_setV hd]
  induction ls using List.reverseRecOn with
  | nil => simp at hn
  | append_singleton ls l ih =>
    rw [List.foldl_append, List.foldl_cons, List.foldl_nil, Wave.setV_readV hd _ (hls n hn) (hls l (by simp))]
    split
    · rfl
    · next hne => exact ih (fun k hk => hls k (by simp [hk])) ((List.mem_append.1 hn).resolve_right (by simpa using hne))

end

/-! Words that wait at a queue (R160). -/

theorem mem_queueWaiters {s : State} {gid q t : Nat} {push : Bool} : t ∈ s.queueWaiters gid push q ↔
    ∃ k ∈ (s.group gid).keys, ∃ p ∈ (s.wave k).allPaths, p.queueTicket push q = some t := by
  rw [State.queueWaiters, List.mem_filterMap]
  constructor
  · rintro ⟨p, hp, ht⟩
    obtain ⟨l, hl, hpl⟩ := List.mem_flatten.1 hp
    obtain ⟨k, hk, rfl⟩ := List.mem_map.1 hl
    exact ⟨k, hk, p, hpl, ht⟩
  · rintro ⟨k, hk, p, hp, ht⟩
    exact ⟨p, List.mem_flatten.2 ⟨_, List.mem_map_of_mem hk, hp⟩, ht⟩

/-- A path that comes to wait at a queue at which no word of its kind waits is the only one there. -/
theorem queueWaiters_alone {s u : State} {gid q t : Nat} {push : Bool} {p : Path} {r : List Path} (hg : (u.group gid).keys = (s.group gid).keys)
    (hnone : s.queueWaiters gid push q = []) (hothers : ∀ k, k ≠ s.ck → u.wave k = s.wave k) (hsaved : (u.wave s.ck).saved = s.cw.saved)
    (hpaths : (u.wave s.ck).paths = p :: r) (hr : ∀ x ∈ r, x ∈ s.cw.paths) (hp : p.queueTicket push q = some t) :
    ∀ x ∈ u.queueWaiters gid push q, x = t := by
  intro x hx
  obtain ⟨k, hk, y, hy, hyx⟩ := mem_queueWaiters.1 hx
  have hold : ∀ y ∈ (s.wave k).allPaths, y.queueTicket push q ≠ some x := fun y hy h => by
    have hin : x ∈ s.queueWaiters gid push q := mem_queueWaiters.2 ⟨k, hg ▸ hk, y, hy, h⟩
    simp [hnone] at hin
  by_cases hck : k = s.ck
  · subst hck
    rw [Wave.allPaths, hpaths, hsaved, List.cons_append, List.mem_cons] at hy
    obtain rfl | hy := hy
    · exact Option.some.inj (hyx.symm.trans hp)
    · refine absurd hyx (hold y (List.mem_append.2 ?_))
      exact (List.mem_append.1 hy).imp_left (hr y)
  · rw [hothers k hck] at hy
    exact absurd hyx (hold y hy)

/-! A word that comes to a queue and is performed at once (R159, R160). -/

/-- A path that waits at a word with the lanes of a set. -/
def Path.awaiting (p : Path) (word : WaitWord) (m : Lanes) (left : Nat) : Path := { p with status := .wait word m left }

/-- The path waits at a queue with a ticket, which the queue has given out. -/
def State.awaitAt (s : State) (word : WaitWord) (q : Nat) (f : Queue → Queue) : State := (s.await word s.memb).modQueue s.cgid q f

theorem queuePerform_push {s : State} {lane q t left : Nat} {v : W32} {p : Path} {m : Lanes} (hp : s.cw.pathOf lane = some p)
    (hst : p.status = .wait (.qpush q v t) m left) (hfirst : ∀ x ∈ s.queueWaiters s.cgid true q, x = t)
    (hroom : (s.cg.queues.get q {}).room = true) :
    let x := s.cg.queues.get q {}
    s.queuePerform s.cur.core s.cur.slot lane = ((s.modGroup s.cgid fun g => g.spPut (x.slot x.tail) 4 v.toNat).modQueue s.cgid q fun y =>
      { y with tail := y.tail + 1, allow := y.allow - 1 }).modLanePath s.ck lane fun p => p.finish p.lanes := by
  intro x
  have hp : (s.wave (waveKey s.cur.core s.cur.slot)).pathOf lane = some p := hp
  have hall : (s.queueWaiters s.cgid true q).all (t ≤ ·) = true := List.all_eq_true.2 fun x hx => by simp [hfirst x hx]
  rw [State.queuePerform, hp]
  dsimp only
  rw [hst]
  exact if_pos (Bool.and_eq_true_iff.2 ⟨hall, hroom⟩)

theorem queuePerform_pop {s : State} {lane q reg t left : Nat} {opf : Bool} {p : Path} {m : Lanes} (hp : s.cw.pathOf lane = some p)
    (hst : p.status = .wait (.qpop q opf reg t) m left) (hfirst : ∀ x ∈ s.queueWaiters s.cgid false q, x = t)
    (hfull : (s.cg.queues.get q {}).empty = false) :
    let x := s.cg.queues.get q {}
    s.queuePerform s.cur.core s.cur.slot lane = ((s.modWave s.ck fun w =>
        w.setAll opf reg (BitVec.ofNat 32 (s.cg.spGet (x.slot x.head) 4)) (lanesOf p.lanes)).modQueue s.cgid q fun y =>
      { y with head := y.head + 1 }).modLanePath s.ck lane fun p => p.finish p.lanes := by
  intro x
  have hp : (s.wave (waveKey s.cur.core s.cur.slot)).pathOf lane = some p := hp
  have hall : (s.queueWaiters s.cgid false q).all (t ≤ ·) = true := List.all_eq_true.2 fun x hx => by simp [hfirst x hx]
  rw [State.queuePerform, hp]
  dsimp only
  rw [hst]
  exact if_pos (Bool.and_eq_true_iff.2 ⟨hall, congrArg Bool.not hfull⟩)

theorem skid_modLanePath (s : State) (lane : Nat) (f : Path → Path) : (s.modLanePath s.ck lane f).cw.skid = s.cw.skid :=
  (congrArg Wave.skid (State.wave_modWave_self s s.ck _) :)

/-- A change of the wave's path leaves its group. -/
@[simp] theorem cg_modLanePath (s : State) (lane : Nat) (f : Path → Path) : (s.modLanePath s.ck lane f).cg = s.cg := by
  have hgid : ((s.modLanePath s.ck lane f).wave s.ck).gid = s.cw.gid := by
    rw [State.modLanePath, State.wave_modWave_self]
    rfl
  exact State.cg_eq hgid

/-- A change of a wave that stays in its group leaves that group's queues to be changed. -/
theorem cg_modQueue_modWave {s : State} {g : Wave → Wave} (hg : ((s.modWave s.ck g).wave s.ck).gid = s.cw.gid) (q : Nat) (f : Queue → Queue) :
    ((s.modWave s.ck g).modQueue s.cgid q f).cg = { s.cg with queues := s.cg.queues.upd q {} f } :=
  (State.cg_eq (s := s) (t := (s.modWave s.ck g).modQueue s.cgid q f) hg).trans (State.group_modGroup_self ..)

section
variable {s : State} (hc : s.cp.clause.isSome = true) (word : WaitWord) (q : Nat) (f : Queue → Queue)
include hc

/-- How long a word of a path waits at most (R381). -/
def State.patience (s : State) (word : WaitWord) : Nat := if s.cw.mwtime = 0 ∨ !word.timed then 0 else s.cw.mwtime.toNat + 1

omit hc in
theorem awaitAt_cw : (s.awaitAt word q f).cw = s.cw.modPath fun p => p.awaiting word s.memb (s.patience word) :=
  s.cw_modCp fun p => p.awaiting word s.memb (s.patience word)

theorem awaitAt_paths : (s.awaitAt word q f).cw.paths = s.cp.awaiting word s.memb (s.patience word) :: s.cw.paths.tail := by
  rw [awaitAt_cw, Wave.modPath_paths, paths_eq_cons hc]
  rfl

omit hc in
@[simp] theorem awaitAt_cg : (s.awaitAt word q f).cg = { s.cg with queues := s.cg.queues.upd q {} f } := by
  have hgid : ((s.awaitAt word q f).wave s.ck).gid = s.cw.gid := by
    rw [show (s.awaitAt word q f).wave s.ck = _ from awaitAt_cw word q f]
    rfl
  exact (State.cg_eq hgid).trans (State.group_modGroup_self ..)

variable (hm : s.memb ≠ 0)
include hm

theorem awaitAt_pathOf : (s.awaitAt word q f).cw.pathOf (lowLane s.memb) = some (s.cp.awaiting word s.memb (s.patience word)) := by
  rw [Wave.pathOf, awaitAt_paths hc]
  exact List.find?_cons_of_pos (lowLane_spec hm).2.1

omit hm in
/-- No word but the arriving one waits at the queue. -/
theorem awaitAt_alone {push : Bool} {t : Nat} (hnone : s.queueWaiters s.cgid push q = [])
    (hp : (s.cp.awaiting word s.memb (s.patience word)).queueTicket push q = some t) :
    ∀ x ∈ (s.awaitAt word q f).queueWaiters s.cgid push q, x = t := by
  refine queueWaiters_alone (p := s.cp.awaiting word s.memb (s.patience word)) (r := s.cw.paths.tail) ?_ hnone
    (fun k hk => ?_) ?_ (awaitAt_paths hc word q f) (fun x => List.mem_of_mem_tail) hp
  · exact (congrArg Group.keys (State.group_modGroup_self (s.await word s.memb) ..) :)
  · exact (State.wave_modCw_ne s (fun w => w.modPath _) k hk :)
  · exact (congrArg Wave.saved (awaitAt_cw (s := s) word q f) :)

variable (hrun : s.cp.status = .run) (htail : ∀ p ∈ s.cw.paths.tail, p.lanes &&& s.memb = 0)
include hrun htail

/-- The word that waits for the whole set completes: its path goes on, and the others stand. -/
theorem finish_paths {u : State} {left : Nat} (hu : (u.wave s.ck).paths = s.cp.awaiting word s.memb left :: s.cw.paths.tail) :
    ((u.modLanePath s.ck (lowLane s.memb) fun p => p.finish p.lanes).wave s.ck).paths = (s.cw.modPath fun p => p.past false).paths := by
  have hlow := (lowLane_spec hm).2.1
  have hhead : (s.cp.awaiting word s.memb left).finish s.memb = s.cp.past false := by
    rw [Path.awaiting, Path.finish, Path.past, Path.past, ← hrun]
    simp
  have hrest : s.cw.paths.tail.map (fun p => if p.lanes.getLsbD (lowLane s.memb) then p.finish p.lanes else p) = s.cw.paths.tail := by
    refine (List.map_congr_left fun p hp => if_neg fun hin => ?_).trans (List.map_id _)
    have hboth := congrArg (·.getLsbD (lowLane s.memb)) (htail p hp)
    simp [hin, hlow] at hboth
  rw [State.modLanePath, State.wave_modWave_self, Wave.modPath_paths, paths_eq_cons hc]
  dsimp only
  rw [hu, List.map_cons, hrest, ← hhead]
  exact congrArg (· :: s.cw.paths.tail) (if_pos hlow)

end

end Sys2Proof.Machine
end

