-- ==== Sys2Proof/Proofs/QueueWords.lean ====
section
/-! QINIT, QPUSH, QPOP, QTRY and ALLOW (O37): each acts on its queue in its turn, or traps, or changes nothing (R157 to R160). -/

set_option Elab.async false

namespace Sys2Proof.Machine

/-- A write to the scratchpad does not meet the queues (R129, R157). -/
theorem Group.spPut_withQueues (g : Group) (m : FMap Queue) (a n v : Nat) :
    ({ g with queues := m } : Group).spPut a n v = { g.spPut a n v with queues := m } := by
  induction n generalizing g a v with
  | zero => rfl
  | succ n ih => exact ih { g with scratch := g.scratch.set a (BitVec.ofNat 8 v) } ..

theorem Group.spGet_withQueues (g : Group) (m : FMap Queue) (a n : Nat) : ({ g with queues := m } : Group).spGet a n = g.spGet a n := by
  induction n generalizing a with
  | zero => rfl
  | succ n ih => rw [Group.spGet, Group.spGet, ih]

/-! A push and a pop that are performed as they come. -/

section
variable {s : State} (hc : s.cp.clause.isSome = true) (hm : s.memb ≠ 0) (hrun : s.cp.status = .run)
  (htail : ∀ p ∈ s.cw.paths.tail, p.lanes &&& s.memb = 0) {q : Nat}
include hc hm hrun htail

theorem push_performs {v : W32} (hnone : s.queueWaiters s.cgid true q = []) (hroom : (s.cg.queues.get q {}).room = true) :
    let x := s.cg.queues.get q {}
    let u := (s.awaitAt (.qpush q v x.pushed) q fun y => { y with pushed := y.pushed + 1 }).queuePerform s.cur.core s.cur.slot (lowLane s.memb)
    u.cw.paths = (s.cw.modPath fun p => p.past false).paths ∧ u.cw.skid = s.cw.skid ∧ u.mem = s.mem ∧
      u.cg = { s.cg.spPut (x.slot x.tail) 4 v.toNat with
        queues := s.cg.queues.set q { x with tail := x.tail + 1, allow := x.allow - 1, pushed := x.pushed + 1 } } := by
  intro x u
  let word : WaitWord := .qpush q v x.pushed
  let bump : Queue → Queue := fun y => { y with pushed := y.pushed + 1 }
  have hcw := awaitAt_cw (s := s) word q bump
  have hgid : (s.awaitAt word q bump).cgid = s.cgid := (congrArg (fun w : Wave => w.gid.getD 0) hcw :)
  have hcg := awaitAt_cg (s := s) word q bump
  have hx : (s.awaitAt word q bump).cg.queues.get q {} = bump x := by rw [hcg]; exact FMap.get_upd_self ..
  have hu := queuePerform_push (awaitAt_pathOf hc word q bump hm) rfl
    (hgid.symm ▸ awaitAt_alone hc word q bump hnone (if_pos (by simp))) (by rw [hx]; exact hroom)
  extract_lets y at hu
  have hy : y = bump x := hx
  clear_value y
  subst hy
  have hu : u = _ := hu
  refine ⟨?_, ?_, (congrArg State.mem hu :), ?_⟩
  · rw [hu]
    exact finish_paths hc word hm hrun htail (awaitAt_paths hc word q bump)
  · rw [hu]
    exact (skid_modLanePath ..).trans (congrArg Wave.skid hcw :)
  · rw [hu]
    refine (cg_modLanePath ..).trans ((State.group_modGroup_self ..).trans ?_)
    rw [State.group_modGroup_self, show (s.awaitAt word q bump).group (s.awaitAt word q bump).cgid = _ from hcg]
    simp only [Group.spPut_withQueues, FMap.upd_upd]
    rfl

theorem pop_performs {d : RName} (hd : d.toNat < 112) (hnone : s.queueWaiters s.cgid false q = [])
    (hfull : (s.cg.queues.get q {}).empty = false) :
    let x := s.cg.queues.get q {}
    let u := (s.awaitAt (.qpop q (inOpf d) (s.reach d) x.popped) q fun y => { y with popped := y.popped + 1 }).queuePerform
      s.cur.core s.cur.slot (lowLane s.memb)
    u.cw.paths = (s.cw.modPath fun p => p.past false).paths ∧ u.cw.skid = s.cw.skid ∧ u.mem = s.mem ∧
      (∀ n, s.runs n → u.cw.readV d.toNat n = BitVec.ofNat 32 (s.cg.spGet (x.slot x.head) 4)) ∧
      u.cg = { s.cg with queues := s.cg.queues.set q { x with head := x.head + 1, popped := x.popped + 1 } } := by
  intro x u
  let word : WaitWord := .qpop q (inOpf d) (s.reach d) x.popped
  let bump : Queue → Queue := fun y => { y with popped := y.popped + 1 }
  have hcw := awaitAt_cw (s := s) word q bump
  have hgid : (s.awaitAt word q bump).cgid = s.cgid := (congrArg (fun w : Wave => w.gid.getD 0) hcw :)
  have hcg := awaitAt_cg (s := s) word q bump
  have hx : (s.awaitAt word q bump).cg.queues.get q {} = bump x := by rw [hcg]; exact FMap.get_upd_self ..
  have hget : (s.awaitAt word q bump).cg.spGet (x.slot x.head) 4 = s.cg.spGet (x.slot x.head) 4 := by
    rw [hcg]
    exact Group.spGet_withQueues ..
  have hu := queuePerform_pop (awaitAt_pathOf hc word q bump hm) rfl
    (hgid.symm ▸ awaitAt_alone hc word q bump hnone (if_pos (by simp))) (by rw [hx]; exact hfull)
  extract_lets y at hu
  have hy : y = bump x := hx
  clear_value y
  subst hy
  have hu : u = _ := hu
  rw [show (bump x).slot (bump x).head = x.slot x.head from rfl, hget] at hu
  generalize BitVec.ofNat 32 (s.cg.spGet (x.slot x.head) 4) = h at hu ⊢
  have hset : (((s.awaitAt word q bump).modWave (s.awaitAt word q bump).ck fun w => w.setAll (inOpf d) (s.reach d) h (lanesOf s.memb)).wave s.ck) =
      (s.awaitAt word q bump).cw.setAll (inOpf d) (s.reach d) h (lanesOf s.memb) := State.wave_modWave_self ..
  have hrest := (s.awaitAt word q bump).cw.setAll_rest (inOpf d) (s.reach d) h (lanesOf s.memb)
  refine ⟨?_, ?_, (congrArg State.mem hu :), fun n hn => ?_, ?_⟩
  · rw [hu]
    exact finish_paths hc word hm hrun htail
      ((congrArg Wave.paths hset :).trans ((congrArg Wave.paths hrest :).trans (awaitAt_paths hc word q bump)))
  · rw [hu]
    exact (skid_modLanePath ..).trans ((congrArg Wave.skid hset :).trans ((congrArg Wave.skid hrest :).trans (congrArg Wave.skid hcw :)))
  · have hreg : (s.awaitAt word q bump).cw.regOf d = s.reach d := (congrArg (Wave.regOf · d) hcw :)
    have hread := Wave.setAll_readV hd (s.awaitAt word q bump).cw h (fun l hl => ((mem_lanesOf _ l).1 hl).1) ((s.runs_iff n).2 hn)
    rw [hreg, ← hset] at hread
    rw [hu]
    exact (congrArg (Wave.readV · d.toNat n) (State.wave_modWave_self ..) :).trans hread
  · have hg := (congrArg Wave.gid hset :).trans (congrArg Wave.gid hrest :)
    rw [hu]
    refine (cg_modLanePath ..).trans ((cg_modQueue_modWave hg q _).trans ?_)
    rw [hcg]
    simp only [FMap.upd_upd]
    rfl

end

/-! The five words. -/

/-- A word that is not free to act, or too late for its place in this ac, changes nothing (R160). -/
theorem issueTurn_waits {ok rel go : Bool} {srcs : List Src} {place ord : Nat} {f : State → Res} {s : State} (hok : ok = true)
    (h : s.CanIssue srcs) (hw : go = false ∨ s.inOrder place ord = false) : issueTurn ok srcs rel go place ord f s = .next s := by
  obtain ⟨c, hc, hb⟩ := CanIssue_clause h
  cases hw <;> simp_all [issueTurn, enter]

/-- A word that has changed its queue alone and moved on. -/
theorem queueWord_done (s : State) (place ord q : Nat) (f : Queue → Queue) :
    let t := (((s.tookOrder place ord).modQueue s.cgid q f).past false).count s
    PastWord s t false ∧ t.mem = s.mem ∧ t.cg = { s.cg with queues := s.cg.queues.upd q {} f } := by
  have hcw : (((s.tookOrder place ord).modQueue s.cgid q f).past false).cw = s.cw.modPath fun p => p.past false := State.cw_past ..
  refine ⟨pastWord_count (congrArg Wave.paths hcw :) (congrArg Wave.skid hcw :), by simp, ?_⟩
  rw [State.cg_count, State.cg_past]
  exact State.group_modGroup_self ..

/-- A descriptor that QINIT takes, with no word waiting at the queue (R158). -/
def State.initGood (s : State) (q v : Nat) : Prop :=
  v / 2 ^ 24 = 0 ∧ v / 2 ^ 19 % 2 = 0 ∧ 1 ≤ v / 2 ^ 20 % 16 ∧ v / 2 ^ 20 % 16 ≤ 10 ∧ v % 2 ^ 19 % 4 = 0 ∧
    s.queueWaiters s.cgid true q = [] ∧ s.queueWaiters s.cgid false q = []

theorem field_base (v : Nat) : field v 0 19 = v % 2 ^ 19 := by simp [field]

theorem initBad_iff (s : State) (q : Nat) (v : W32) :
    (field v.toNat 24 8 ≠ 0 ∨ field v.toNat 19 1 ≠ 0 ∨ field v.toNat 20 4 = 0 ∨ 10 < field v.toNat 20 4 ∨ field v.toNat 0 19 % 4 ≠ 0 ∨
      s.queueWaiters s.cgid true q ≠ [] ∨ s.queueWaiters s.cgid false q ≠ []) ↔ ¬ s.initGood q v.toNat := by
  have h24 : field v.toNat 24 8 = v.toNat / 2 ^ 24 := Nat.mod_eq_of_lt (by have := v.isLt; omega)
  rw [h24, field_base, State.initGood]
  simp only [not_and_or, Nat.not_le, Nat.lt_one_iff, ne_eq]
  rfl

/-- What QINIT makes of a queue (R158). -/
def Queue.made (v : Nat) (x : Queue) : Queue :=
  { x with init := true, base := v % 2 ^ 19, logn := v / 2 ^ 20 % 16, head := 0, tail := 0, allow := 2 ^ (v / 2 ^ 20 % 16) }

theorem Queue.not_uninit {x : Queue} (h : x.init = true) : ¬ (!x.init) = true := by rw [h]; exact Bool.false_ne_true

/-- A queue word has moved on, with its queue changed and nothing else of its group (R157 to R160). -/
def State.QueueSet (s t : State) (q : Nat) (x : Queue) : Prop :=
  PastWord s t false ∧ t.mem = s.mem ∧ t.cg = { s.cg with queues := s.cg.queues.set q x }

section
variable {s : State} (hh : s.held s.cp = false) {a : Src} (ha : src32 a = true) {q : BitVec 3} (hs : s.CanIssue [a])
  (ho : s.inOrder (s.queuePlace q.toNat) s.queueOrd = true) {v : W32} (hv : s.src32 a (lowLane s.memb) = v)
include hh ha hs ho hv

section
variable (hfree : s.queueFree q.toNat = true)
include hfree

theorem execQinit_completes (hgood : s.initGood q.toNat v.toNat) (hfit : v.toNat % 2 ^ 19 + 4 * 2 ^ (v.toNat / 2 ^ 20 % 16) ≤ s.cg.spsize) :
    ∃ t, execQinit q a s = .next t ∧ s.QueueSet t q.toNat ((s.cg.queues.get q.toNat {}).made v.toNat) := by
  refine ⟨_, issueTurn_eq (rel := false) ha hfree ⟨hs, hh, nofun, ho⟩ ?_, queueWord_done s (s.queuePlace q.toNat) s.queueOrd q.toNat (Queue.made v.toNat)⟩
  have hbad := mt (initBad_iff s q.toNat v).1 (not_not_intro hgood)
  dsimp only
  rw [src32_tookOrder, show s.src32 a (lowLane (s.tookOrder ..).memb) = v from hv]
  rw [field_base] at hbad ⊢
  exact (if_neg hbad).trans (if_neg (Nat.not_lt.2 hfit))

theorem execQinit_bad (hgood : ¬ s.initGood q.toNat v.toNat) :
    execQinit q a s = .next (s.trapP (s.trapHere 0x16 (BitVec.ofNat 64 q.toNat) s.memb)) := by
  refine issueTurn_trap (rel := false) ha hfree ⟨hs, hh, nofun, ho⟩ ?_
  dsimp only
  rw [src32_tookOrder, show s.src32 a (lowLane (s.tookOrder ..).memb) = v from hv]
  exact if_pos ((initBad_iff s q.toNat v).2 hgood)

theorem execQinit_large (hgood : s.initGood q.toNat v.toNat) (hfit : s.cg.spsize < v.toNat % 2 ^ 19 + 4 * 2 ^ (v.toNat / 2 ^ 20 % 16)) :
    execQinit q a s = .next (s.trapP (s.trapHere 0x0A (BitVec.ofNat 64 (v.toNat % 2 ^ 19)) s.memb)) := by
  refine issueTurn_trap (rel := false) ha hfree ⟨hs, hh, nofun, ho⟩ ?_
  have hbad := mt (initBad_iff s q.toNat v).1 (not_not_intro hgood)
  dsimp only
  rw [src32_tookOrder, show s.src32 a (lowLane (s.tookOrder ..).memb) = v from hv]
  rw [field_base] at hbad ⊢
  exact (if_neg hbad).trans (if_pos hfit)

theorem execAllow_adds (hi : (s.cg.queues.get q.toNat {}).init = true)
    (hcap : (s.cg.queues.get q.toNat {}).allow + v.toNat ≤ 2 ^ (s.cg.queues.get q.toNat {}).logn) :
    ∃ t, execAllow q a s = .next t ∧
      s.QueueSet t q.toNat { s.cg.queues.get q.toNat {} with allow := (s.cg.queues.get q.toNat {}).allow + v.toNat } := by
  refine ⟨_, issueTurn_eq (rel := false) ha hfree ⟨hs, hh, nofun, ho⟩ ?_,
    queueWord_done s (s.queuePlace q.toNat) s.queueOrd q.toNat fun y => { y with allow := y.allow + v.toNat }⟩
  dsimp only
  rw [src32_tookOrder, show s.src32 a (lowLane (s.tookOrder ..).memb) = v from hv]
  exact if_neg (not_or.2 ⟨Queue.not_uninit hi, Nat.not_lt.2 hcap⟩)

theorem execAllow_traps (h : (s.cg.queues.get q.toNat {}).init = false ∨
      2 ^ (s.cg.queues.get q.toNat {}).logn < (s.cg.queues.get q.toNat {}).allow + v.toNat) :
    execAllow q a s = .next (s.trapP (s.trapHere 0x16 (BitVec.ofNat 64 q.toNat) s.memb)) := by
  refine issueTurn_trap (rel := false) ha hfree ⟨hs, hh, nofun, ho⟩ ?_
  dsimp only
  rw [src32_tookOrder, show s.src32 a (lowLane (s.tookOrder ..).memb) = v from hv]
  exact if_pos (h.imp_left fun h => congrArg Bool.not h)

end

section
variable (hu : s.unacked s.cur.core s.cur.slot = 0)
include hu

theorem execQpush_performs (hm : s.memb ≠ 0) (hrun : s.cp.status = .run) (htail : ∀ p ∈ s.cw.paths.tail, p.lanes &&& s.memb = 0)
    (hi : (s.cg.queues.get q.toNat {}).init = true) (hroom : (s.cg.queues.get q.toNat {}).room = true)
    (hnone : s.queueWaiters s.cgid true q.toNat = []) :
    let x := s.cg.queues.get q.toNat {}
    ∃ t, execQpush q a s = .next t ∧ PastWord s t false ∧ t.mem = s.mem ∧
      t.cg.queues = s.cg.queues.set q.toNat { x with tail := x.tail + 1, allow := x.allow - 1, pushed := x.pushed + 1 } ∧
      t.cg.spGet (x.slot x.tail) 4 = v.toNat := by
  intro x
  have hperf := push_performs (s := s.tookOrder (s.queuePlace q.toNat) s.queueOrd) hs.1 hm hrun htail (v := v) hnone hroom
  obtain ⟨hpaths, hskid, hmem, hcg⟩ := hperf
  refine ⟨_, issueTurn_eq (rel := true) ha rfl ⟨hs, hh, fun _ => hu, ho⟩ ?_, pastWord_count hpaths hskid, (State.count_mem ..).trans hmem, ?_, ?_⟩
  · dsimp only
    rw [src32_tookOrder, show s.src32 a (lowLane (s.tookOrder ..).memb) = v from hv]
    exact if_neg (Queue.not_uninit hi)
  · rw [State.cg_count, hcg]
    rfl
  · rw [State.cg_count, hcg]
    exact (Group.spGet_withQueues ..).trans ((Group.spGet_spPut ..).trans (Nat.mod_eq_of_lt v.isLt))

omit hv in
theorem execQpush_traps (hi : (s.cg.queues.get q.toNat {}).init = false) :
    execQpush q a s = .next (s.trapP (s.trapHere 0x16 (BitVec.ofNat 64 q.toNat) s.memb)) :=
  issueTurn_trap (rel := true) ha rfl ⟨hs, hh, fun _ => hu, ho⟩ (if_pos (congrArg Bool.not hi))

end

end

/-- A wave whose lanes of a set have taken a handle with QTRY (R159). -/
def Wave.taken (w : Wave) (d : Nat) (m : Lanes) (h : W32) : Wave := ((lanesOf m).foldl (fun w n => w.setV d n h) w).report m 0

section
variable {d : RName} (hd : d.toNat < 112) (w : Wave) (m : Lanes) (h : W32)
include hd

theorem Wave.taken_rest : { w.taken d.toNat m h with main := w.main, opf := w.opf, xstat := w.xstat } = w := by
  rw [Wave.taken, w.setAll_setV hd]
  exact (congrArg (fun v : Wave => { v with xstat := w.xstat }) (w.setAll_rest (inOpf d) (w.regOf d) h (lanesOf m)) :)

theorem Wave.taken_xstat : (w.taken d.toNat m h).xstat = w.xstat &&& ~~~m := by
  have hrep : ∀ v : Wave, (v.report m 0).xstat = v.xstat &&& ~~~m := fun v => by simp [Wave.report]
  rw [Wave.taken, w.setAll_setV hd, hrep]
  exact (congrArg (fun v : Wave => v.xstat &&& ~~~m) (w.setAll_rest (inOpf d) (w.regOf d) h (lanesOf m)) :)

theorem Wave.taken_readV {m : Lanes} {n : Nat} (hn : n ∈ lanesOf m) : (w.taken d.toNat m h).readV d.toNat n = h := by
  rw [Wave.taken, w.setAll_setV hd]
  exact w.setAll_readV hd h (fun l hl => ((mem_lanesOf _ l).1 hl).1) hn

end

section
variable {s : State} (hh : s.held s.cp = false) {d : RName} {a : Src} (ha : (ldst d && scaLit a) = true) (hs : s.CanIssue [])
  {q : Nat} (hq : (s.src32 a 0).toNat = q) (ho : s.inOrder (s.queuePlace q) s.queueOrd = true)
include hh ha hs hq ho

theorem execQpop_performs (hd : d.toNat < 112) (hm : s.memb ≠ 0) (hrun : s.cp.status = .run) (htail : ∀ p ∈ s.cw.paths.tail, p.lanes &&& s.memb = 0)
    (hq8 : q < 8) (hi : (s.cg.queues.get q {}).init = true) (hfull : (s.cg.queues.get q {}).empty = false)
    (hnone : s.queueWaiters s.cgid false q = []) :
    let x := s.cg.queues.get q {}
    ∃ t, execQpop d a s = .next t ∧ PastWord s t false ∧ t.mem = s.mem ∧
      (∀ n, s.runs n → t.cw.readV d.toNat n = BitVec.ofNat 32 (s.cg.spGet (x.slot x.head) 4)) ∧
      t.cg.queues = s.cg.queues.set q { x with head := x.head + 1, popped := x.popped + 1 } := by
  intro x
  obtain ⟨hpaths, hskid, hmem, hread, hcg⟩ :=
    pop_performs (s := s.tookOrder (s.queuePlace q) s.queueOrd) hs.1 hm hrun htail hd hnone hfull
  subst hq
  refine ⟨_, issueTurn_eq (rel := false) ha rfl ⟨hs, hh, nofun, ho⟩ ?_, pastWord_count hpaths hskid, (State.count_mem ..).trans hmem,
    fun n hn => ?_, ?_⟩
  · dsimp only
    rw [src32_tookOrder]
    exact if_neg (not_or.2 ⟨Nat.not_lt.2 (Nat.le_of_lt_succ hq8), Queue.not_uninit hi⟩)
  · rw [State.cw_count]
    exact hread n hn
  · rw [State.cg_count, hcg]
    rfl

theorem execQpop_traps (h : 7 < q ∨ (s.cg.queues.get q {}).init = false) :
    execQpop d a s = .next (s.trapP (s.trapHere 0x16 (BitVec.ofNat 64 q) s.memb)) := by
  subst hq
  refine issueTurn_trap (rel := false) ha rfl ⟨hs, hh, nofun, ho⟩ ?_
  dsimp only
  rw [src32_tookOrder]
  exact if_pos (h.imp_right fun h => congrArg Bool.not h)

section
variable (hfree : s.queueFree q = true)
include hfree

theorem execQtry_takes (hd : d.toNat < 112) (hq8 : q < 8) (hi : (s.cg.queues.get q {}).init = true)
    (hfull : (s.cg.queues.get q {}).empty = false) :
    let x := s.cg.queues.get q {}
    ∃ t, execQtry d a s = .next t ∧ PastWord s t false ∧ t.mem = s.mem ∧
      (∀ n, s.runs n → t.cw.readV d.toNat n = BitVec.ofNat 32 (s.cg.spGet (x.slot x.head) 4)) ∧
      t.cg.queues = s.cg.queues.set q { x with head := x.head + 1 } ∧ t.cw.xstat = s.cw.xstat &&& ~~~s.memb := by
  intro x
  let h := BitVec.ofNat 32 (s.cg.spGet (x.slot x.head) 4)
  let u := (((s.tookOrder (s.queuePlace q) s.queueOrd).modCw fun w => w.taken d.toNat s.memb h).modQueue s.cgid q fun y =>
    { y with head := y.head + 1 })
  have hrest := s.cw.taken_rest hd s.memb h
  have hcw : u.cw = s.cw.taken d.toNat s.memb h := State.cw_modCw (s.tookOrder (s.queuePlace q) s.queueOrd) fun w => w.taken d.toNat s.memb h
  have hpast : (u.past false).cw = (s.cw.taken d.toNat s.memb h).modPath fun p => p.past false := by rw [State.cw_past, hcw]
  have hgid : u.cw.gid = s.cw.gid := by rw [hcw]; exact (congrArg Wave.gid hrest :)
  have hcg : u.cg = { s.cg with queues := s.cg.queues.upd q {} fun y => { y with head := y.head + 1 } } :=
    cg_modQueue_modWave (s := s.tookOrder (s.queuePlace q) s.queueOrd) (g := fun w => w.taken d.toNat s.memb h) hgid q _
  subst hq
  refine ⟨_, issueTurn_eq (t := u.past false) (rel := false) ha hfree ⟨hs, hh, nofun, ho⟩ ?_, pastWord_count ?_ ?_, State.count_mem ..,
    fun n hn => ?_, ?_, ?_⟩
  · dsimp only
    rw [src32_tookOrder]
    exact (if_neg (not_or.2 ⟨Nat.not_lt.2 (Nat.le_of_lt_succ hq8), Queue.not_uninit hi⟩)).trans (if_neg (ne_true_of_eq_false hfull))
  · rw [hpast]
    exact (congrArg (fun w : Wave => (w.modPath fun p => p.past false).paths) hrest :)
  · rw [hpast]
    exact (congrArg Wave.skid hrest :)
  · rw [State.cw_count, hpast]
    exact s.cw.taken_readV hd h ((mem_lanesOf _ n).2 hn)
  · rw [State.cg_count, State.cg_past, hcg]
    rfl
  · rw [State.cw_count, hpast]
    exact s.cw.taken_xstat hd s.memb h

theorem execQtry_empty (hq8 : q < 8) (hi : (s.cg.queues.get q {}).init = true) (he : (s.cg.queues.get q {}).empty = true) :
    execQtry d a s = .next ((s.tookOrder (s.queuePlace q) s.queueOrd).afterFixed fun w => { w with xstat := (w.xstat &&& ~~~s.memb) ||| s.memb }) := by
  have hrep : (fun w : Wave => w.report s.memb s.memb) = fun w => { w with xstat := (w.xstat &&& ~~~s.memb) ||| s.memb } :=
    funext fun w => by rw [Wave.report, BitVec.and_self]
  subst hq
  rw [← hrep]
  refine issueTurn_eq (rel := false) ha hfree ⟨hs, hh, nofun, ho⟩ ?_
  dsimp only
  rw [src32_tookOrder]
  exact (if_neg (not_or.2 ⟨Nat.not_lt.2 (Nat.le_of_lt_succ hq8), Queue.not_uninit hi⟩)).trans (if_pos he)

theorem execQtry_traps (h : 7 < q ∨ (s.cg.queues.get q {}).init = false) :
    execQtry d a s = .next (s.trapP (s.trapHere 0x16 (BitVec.ofNat 64 q) s.memb)) := by
  subst hq
  refine issueTurn_trap (rel := false) ha hfree ⟨hs, hh, nofun, ho⟩ ?_
  dsimp only
  rw [src32_tookOrder]
  exact if_pos (h.imp_right fun h => congrArg Bool.not h)

end
end

/-- Settles O37: each queue word acts on its queue in its turn, traps on a state that the spec refuses, or waits unchanged. -/
theorem queueWords : Obligations.QueueWords := by
  intro s hm hrun hh htail low stop
  refine ⟨fun q a ha hs ho => ?_, fun d a hd ha hs ho => ?_, fun q a ha hs => ⟨fun ho => ?_, fun hfree => ?_⟩⟩
  · intro v n base x good
    refine ⟨fun hfree hgood hfit => ?_, fun hfree hgood => ?_, fun hfree hgood hfit => ?_, fun hi hroom hu hnone => ?_, fun hi hu => ?_,
      fun hfree hi hcap => ?_, fun hfree h => ?_⟩
    · exact execQinit_completes hh ha hs ho rfl hfree hgood hfit
    · exact execQinit_bad hh ha hs ho rfl hfree hgood
    · exact execQinit_large hh ha hs ho rfl hfree hgood hfit
    · obtain ⟨t, ht, hp, hmem, hqs, hget⟩ := execQpush_performs hh ha hs ho rfl hu hm hrun htail hi hroom hnone
      exact ⟨t, ht, hp, hmem, by rw [hqs, FMap.get_set_self], hget, fun k hk => by rw [hqs, FMap.get_set_ne _ _ _ _ _ hk]⟩
    · exact execQpush_traps hh ha hs ho hu hi
    · exact execAllow_adds hh ha hs ho rfl hfree hi hcap
    · exact execAllow_traps hh ha hs ho rfl hfree h
  · intro q x h
    have hok : (ldst d && scaLit a) = true := by rw [hd, ha]; rfl
    have hs0 : s.CanIssue [] := ⟨hs.1, s.bound_nil⟩
    refine ⟨fun hq8 hi hnone hfull => ⟨?_, fun hfree => ?_⟩, fun hq8 hi he hfree => ?_, fun h => ⟨?_, fun hfree => ?_⟩⟩
    · obtain ⟨t, ht, hp, hmem, hread, hqs⟩ := execQpop_performs hh hok hs0 rfl ho (of_decide_eq_true hd) hm hrun htail hq8 hi hfull hnone
      exact ⟨t, ht, hp, hmem, hread, by rw [hqs, FMap.get_set_self]⟩
    · obtain ⟨t, ht, hp, hmem, hread, hqs, hx⟩ := execQtry_takes hh hok hs0 rfl ho hfree (of_decide_eq_true hd) hq8 hi hfull
      exact ⟨t, ht, hp, hmem, hread, by rw [hqs, FMap.get_set_self], hx⟩
    · exact execQtry_empty hh hok hs0 rfl ho hfree hq8 hi he
    · exact execQpop_traps hh hok hs0 rfl ho h
    · exact execQtry_traps hh hok hs0 rfl ho hfree h
  · exact ⟨(exec_qinit ..).trans (issueTurn_waits ha hs (.inr ho)), (exec_qpush ..).trans (issueTurn_waits ha hs (.inr ho)),
      (exec_allow ..).trans (issueTurn_waits ha hs (.inr ho))⟩
  · exact ⟨(exec_allow ..).trans (issueTurn_waits ha hs (.inl hfree)), (exec_qinit ..).trans (issueTurn_waits ha hs (.inl hfree))⟩

end Sys2Proof.Machine
end

