-- ==== Sys2Proof/Proofs/ImageWords.lean ====
section
/-! GSAVE and GREST as words (R167, R168): when they act, when they wait, and what traps. -/

set_option Elab.async false

namespace Sys2Proof.Machine

/-- A word that may not issue here is illegal (R43). -/
theorem enter_refused {ok : Bool} {srcs : List Src} {s : State} {k : Clause → Out} (hs : s.CanIssue []) (hok : ok = false) :
    enter ok srcs s k = .next s.illegal := by
  obtain ⟨c, hc, -⟩ := CanIssue_clause hs
  simp [enter, hc, hok]

/-- A word is counted in the skid of a halt alone (R222). -/
theorem count_not_halting {s : State} (hp : s.cg.phase ≠ .halting) (t : State) : t.count s = t := if_neg hp

theorem inHandler_phase {s : State} (h : s.inHandler = true) : s.cg.phase ≠ .halting := by
  have hp : s.cg.phase = .handler := by simp only [State.inHandler, Bool.and_eq_true, beq_iff_eq] at h; exact h.1
  simp [hp]

section
variable {s : State} {a : RName} (hs : s.CanIssue [])
include hs

theorem execGsave_illegal (h : s.inHandler = false) : execGsave a s = .next s.illegal :=
  enter_refused hs (by rw [h, Bool.and_false])

section
variable (ha : spair a = true) (hh : s.held s.cp = false) (hin : s.inHandler = true)
include ha hh hin

theorem execGsave_traps (h : (s.readS64 a.toNat).toNat % 256 ≠ 0 ∨ 14 < s.cg.held.length) :
    execGsave a s = .next (s.trapP (s.trapHere 0x1B (s.readS64 a.toNat) s.memb)) :=
  issueWaiting_trap (onL := true) (rel := false) (by rw [ha, hin]; rfl) hs (fun _ => hh) nofun (if_pos h)

section
variable (hva : (s.readS64 a.toNat).toNat % 256 = 0) (hheld : s.cg.held.length ≤ 14)
  (hchk : s.imageChk (s.readS64 a.toNat).toNat s.cg.imageSize true = none)
include hva hheld hchk

/-- GSAVE at a good place: the image, or the wait for the group's own work (R167). -/
theorem execGsave_goes {t : State} (ht : (if s.canSave s.cgid && s.matrixOver s.cgid then
      .done (((s.saveAt s.cur.core s.cgid (s.readS64 a.toNat).toNat).leaveMatrix s.cur.core s.cgid).modCp fun p => { p.past false with status := .run })
    else .done (s.await (.gsave (s.readS64 a.toNat)) s.memb) : Res) = .done t) : execGsave a s = .next t := by
  have hbad : ¬ ((s.readS64 a.toNat).toNat % 256 ≠ 0 ∨ 14 < s.cg.held.length) := not_or.2 ⟨not_not_intro hva, Nat.not_lt.2 hheld⟩
  have hdone : execGsave a s = .next (t.count s) := by
    refine issueWaiting_eq (onL := true) (rel := false) (by rw [ha, hin]; rfl) hs (fun _ => hh) nofun ?_
    rw [State.gsaveTry, if_neg hbad, hchk]
    exact ht
  rw [hdone, count_not_halting (inHandler_phase hin)]

theorem execGsave_saves (h : (s.canSave s.cgid && s.matrixOver s.cgid) = true) : execGsave a s =
    .next (((s.saveAt s.cur.core s.cgid (s.readS64 a.toNat).toNat).leaveMatrix s.cur.core s.cgid).modCp fun p => { p.past false with status := .run }) :=
  execGsave_goes hs ha hh hin hva hheld hchk (if_pos h)

theorem execGsave_waits (h : (s.canSave s.cgid && s.matrixOver s.cgid) = false) : ∃ t, execGsave a s = .next t ∧ OnlyWave s t ∧
    t.cw.paths = (s.cw.modPath fun p => { p with status := .wait (.gsave (s.readS64 a.toNat)) s.memb 0 }).paths := by
  refine ⟨_, execGsave_goes hs ha hh hin hva hheld hchk (if_neg (ne_true_of_eq_false h)), OnlyWave.modCw .., ?_⟩
  rw [State.await, State.cw_modCp, if_pos (.inr rfl)]

end
end

/-! GREST (R168). -/

theorem execGrest_illegal (h : s.cg.restore = false ∨ s.cg.fresh = false) : execGrest a s = .next s.illegal :=
  enter_refused hs (by rcases h with h | h <;> simp [h])

section
variable (ha : spair a = true) (hl : s.Closes) (hrest : s.cg.restore = true) (hfresh : s.cg.fresh = true)
  (hpos : ∀ c, s.cp.clause = some c → c.pos = 0)
include ha hrest hfresh hpos

theorem grest_legal : (spair a && s.cg.restore && s.cg.fresh && (s.cp.clause.getD {}).pos == 0) = true := by
  obtain ⟨c, hc, -⟩ := CanIssue_clause hs
  simp [ha, hrest, hfresh, hc, hpos c hc]

include hl

theorem execGrest_misaligned (hva : (s.readS64 a.toNat).toNat % 256 ≠ 0) :
    execGrest a s = .next (s.trapP (s.trapHere 0x1B (s.readS64 a.toNat) s.memb)) :=
  issueControl_trap (grest_legal hs ha hrest hfresh hpos) hs hl (if_pos hva)

section
variable (hva : (s.readS64 a.toNat).toNat % 256 = 0) (hchk : s.imageChk (s.readS64 a.toNat).toNat s.cg.imageSize false = none)
include hva hchk

theorem execGrest_unfit (hfit : s.cg.imageFits (fun o n => s.imgRead s.cur.core s.cg ((s.readS64 a.toNat).toNat + o) n) = false) :
    execGrest a s = .next (s.trapP (s.trapHere 0x1B (s.readS64 a.toNat) s.memb)) := by
  refine issueControl_trap (grest_legal hs ha hrest hfresh hpos) hs hl ?_
  dsimp only
  rw [if_neg (not_not_intro hva), hchk]
  exact if_pos (congrArg Bool.not hfit)

theorem execGrest_restores (hp : s.cg.phase ≠ .halting)
    (hfit : s.cg.imageFits (fun o n => s.imgRead s.cur.core s.cg ((s.readS64 a.toNat).toNat + o) n) = true) :
    execGrest a s = .next (s.restoreImage s.cgid fun o n => s.imgRead s.cur.core s.cg ((s.readS64 a.toNat).toNat + o) n) := by
  have hdone : execGrest a s =
      .next ((s.restoreImage s.cgid fun o n => s.imgRead s.cur.core s.cg ((s.readS64 a.toNat).toNat + o) n).count s) := by
    refine issueControl_eq (grest_legal hs ha hrest hfresh hpos) hs hl ?_
    dsimp only
    rw [if_neg (not_not_intro hva), hchk]
    exact if_neg fun h => by simp [hfit] at h
  rw [hdone, count_not_halting hp]

end
end
end

end Sys2Proof.Machine
end

