-- ==== Sys2Proof/Proofs/ImageWaves.lean ====
section
/-! A wave's block of a group image gives the saved wave back (R382, R384). -/

set_option Elab.async false

namespace Sys2Proof.Machine

/-- The value of a key that a table lists once. -/
theorem FMap.get_of_mem {α : Type} {m : FMap α} {k : Nat} {v : α} (hmem : (k, v) ∈ m) (huniq : ∀ e ∈ m, e.1 = k → e.2 = v) (d : α) :
    m.get k d = v := by
  induction m with
  | nil => exact absurd hmem List.not_mem_nil
  | cons e r ih =>
    by_cases he : e.1 = k
    · exact (if_pos he).trans (huniq e List.mem_cons_self he)
    · have hr : (k, v) ∈ r := (List.mem_cons.1 hmem).resolve_left fun h => he (by rw [← h])
      exact (if_neg he).trans (ih hr fun x hx => huniq x (List.mem_cons_of_mem _ hx))

/-- A table over the numbers below a bound. -/
theorem FMap.get_tabulated {α : Type} {n i : Nat} (hi : i < n) (f : Nat → α) (d : α) :
    FMap.get ((List.range n).map fun i => (i, f i)) i d = f i := by
  refine FMap.get_of_mem (k := i) (v := f i) (List.mem_map.2 ⟨i, List.mem_range.2 hi, rfl⟩) (fun e he hk => ?_) d
  obtain ⟨j, -, rfl⟩ := List.mem_map.1 he
  exact congrArg f hk

/-- A table over rows of one value for each lane. -/
theorem FMap.get_rows {α : Type} {m r l : Nat} (hr : r < m) (hl : l < 32) (f : Nat → Nat → α) (d : α) :
    FMap.get ((List.range m).map fun r => (List.range 32).map fun l => (32 * r + l, f r l)).flatten (32 * r + l) d = f r l := by
  refine FMap.get_of_mem (List.mem_flatten.2 ⟨_, List.mem_map.2 ⟨r, List.mem_range.2 hr, rfl⟩, List.mem_map.2 ⟨l, List.mem_range.2 hl, rfl⟩⟩)
    (fun e he hk => ?_) d
  obtain ⟨row, hrow, he⟩ := List.mem_flatten.1 he
  obtain ⟨r', -, rfl⟩ := List.mem_map.1 hrow
  obtain ⟨l', hl', rfl⟩ := List.mem_map.1 he
  obtain ⟨rfl, rfl⟩ := key_inj (List.mem_range.1 hl') hl hk
  rfl

/-! The block. -/

/-- A block of an image holds a wave: each field reads as R382 says. -/
structure Wave.InBlock (w : Wave) (regs : Nat) (epc : Nat → Option W64) (rd : Nat → Nat → Nat) : Prop where
  pc : ∀ n < 32, rd (16 * n) 8 = (w.lanePc epc n).toNat
  state : ∀ n < 32, rd (16 * n + 8) 1 = (w.laneState n).1
  sreg : ∀ i < 96, rd (0x200 + 4 * i) 4 = (w.sregs.get i (leftReg w.seed 2 i)).toNat
  saved : ∀ x, w.saved = some x → rd 0x380 4 = x.xstat.toNat ∧ rd 0x384 4 = x.fpmode.toNat ∧ rd 0x388 4 = x.fpstat.toNat ∧
    rd 0x38C 4 = x.wbase ∧ rd 0x390 4 = x.cbase.toNat
  modes : w.saved = none → rd 0x380 4 = w.xstat.toNat ∧ rd 0x384 4 = w.fpmode.toNat ∧ rd 0x388 4 = w.fpstat.toNat ∧
    rd 0x38C 4 = w.wbase ∧ rd 0x390 4 = w.cbase.toNat
  mwtime : rd 0x394 4 = w.mwtime.toNat
  flag : ∀ f < 12, rd (0x398 + f) 1 = w.flags.get f 0
  mask : ∀ b < 16, rd (0x3C0 + 16 * b) 4 = (w.rbs.get b {}).mask.toNat
  arrived : ∀ b < 16, rd (0x3C4 + 16 * b) 4 = (w.rbs.get b {}).arrived.toNat
  withdrawn : ∀ b < 16, rd (0x3C8 + 16 * b) 4 = (w.rbs.get b {}).withdrawn.toNat
  opf : ∀ l < 32, ∀ r < 16, rd (0x800 + 64 * l + 4 * r) 4 = (w.opf.get (32 * r + l) (leftReg w.seed 1 (32 * r + l))).toNat
  lastq : ∀ l < 32, ∀ e < 4, rd (0x1000 + 8 * (4 * l + e)) 8 = (w.lastq.get (32 * e + l) 0).toNat
  main : ∀ r < regs, ∀ l < 32, rd (0x3000 + 128 * r + 4 * l) 4 = (w.main.get (32 * r + l) (leftReg w.seed 0 (32 * r + l))).toNat

theorem wavePieces_inBlock {s : State} {gid wix : Nat} {epc : Nat → Option W64} {rd : Nat → Nat → Nat}
    (h : ∀ e ∈ s.wavePieces gid wix epc, rd (e.1 - (1280 + wix * waveBlock (s.group gid).regs)) e.2.1 = e.2.2) :
    (s.wave (waveKey (s.group gid).core ((s.group gid).slots.getD wix 0))).InBlock (s.group gid).regs epc rd := by
  unfold State.wavePieces at h
  simp only [List.forall_mem_map, List.forall_mem_append, List.forall_mem_flatten, List.forall_mem_cons, List.mem_range,
    Nat.add_sub_cancel_left] at h
  generalize s.wave (waveKey (s.group gid).core ((s.group gid).slots.getD wix 0)) = w at h ⊢
  obtain ⟨⟨⟨⟨⟨⟨⟨hlanes, hsr⟩, hmodes, hflags⟩, hrbs⟩, hof⟩, hlq⟩, -⟩, hmf⟩ := h
  obtain ⟨hx, hm, hst, hwb, hcb, hmw, -⟩ := hmodes
  refine { pc := fun n hn => (hlanes n hn).1, state := fun n hn => (hlanes n hn).2.1, sreg := hsr, saved := fun x h => ?_, modes := fun h => ?_,
           mwtime := hmw, flag := hflags, mask := fun b hb => (hrbs b hb).1, arrived := fun b hb => (hrbs b hb).2.1,
           withdrawn := fun b hb => (hrbs b hb).2.2.1, opf := hof, lastq := hlq, main := hmf }
  · rw [h] at hx hm hst hwb hcb
    exact ⟨hx, hm, hst, hwb, hcb⟩
  · rw [h] at hx hm hst hwb hcb
    exact ⟨hx, hm, hst, hwb, hcb⟩

/-! Paths (R76, R213). -/

section
variable {key : Nat → Nat} {mk : Nat → Path} {l : List Nat}

/-- Every path of an image starts as that of one of its lanes. -/
theorem imagePaths_made {e : Nat × Path} (he : e ∈ imagePaths key mk l) : ∃ m ∈ l, e.1 = key m ∧ e.2.pc = (mk m).pc := by
  induction l generalizing e with
  | nil => exact absurd he List.not_mem_nil
  | cons n r ih =>
    have hold : ∀ e ∈ imagePaths key mk r, ∃ m ∈ n :: r, e.1 = key m ∧ e.2.pc = (mk m).pc := fun e he => by
      obtain ⟨m, hm, h⟩ := ih he
      exact ⟨m, List.mem_cons_of_mem _ hm, h⟩
    rw [imagePaths] at he
    split at he
    · obtain ⟨x, hx, rfl⟩ := List.mem_map.1 he
      split
      · exact hold x hx
      · exact hold x hx
    · obtain rfl | he := List.mem_cons.1 he
      · exact ⟨n, List.mem_cons_self, rfl, rfl⟩
      · exact hold e he

/-- Every lane of an image stands in the path of its key. -/
theorem imagePaths_holds (hl : ∀ n ∈ l, n < 32) {n : Nat} (hn : n ∈ l) : ∃ e ∈ imagePaths key mk l, e.1 = key n ∧ e.2.lanes.getLsbD n = true := by
  induction l with
  | nil => exact absurd hn List.not_mem_nil
  | cons m r ih =>
    have hm : m < 32 := hl m List.mem_cons_self
    have hself : (laneBit m).getLsbD m = true := by rw [laneBit_getLsbD hm]; exact decide_eq_true rfl
    have hold : n ∈ r → ∃ e ∈ imagePaths key mk r, e.1 = key n ∧ e.2.lanes.getLsbD n = true := ih fun k hk => hl k (List.mem_cons_of_mem _ hk)
    rw [imagePaths]
    split
    · next hany =>
      obtain ⟨x, hx, hk, hbit⟩ : ∃ x ∈ imagePaths key mk r, x.1 = key n ∧ (n = m ∨ x.2.lanes.getLsbD n = true) := by
        obtain rfl | hr := List.mem_cons.1 hn
        · obtain ⟨x, hx, hk⟩ := List.any_eq_true.1 hany
          exact ⟨x, hx, eq_of_beq hk, .inl rfl⟩
        · obtain ⟨x, hx, hk, hbit⟩ := hold hr
          exact ⟨x, hx, hk, .inr hbit⟩
      refine ⟨_, List.mem_map_of_mem hx, ?_⟩
      split
      · refine ⟨hk, ?_⟩
        rw [BitVec.getLsbD_or]
        obtain rfl | hbit := hbit
        · rw [hself, Bool.or_true]
        · rw [hbit, Bool.true_or]
      · next hne => exact ⟨hk, hbit.resolve_left fun h => hne (by rw [hk, h])⟩
    · obtain rfl | hr := List.mem_cons.1 hn
      · exact ⟨_, List.mem_cons_self, rfl, hself⟩
      · obtain ⟨x, hx, h⟩ := hold hr
        exact ⟨x, List.mem_cons_of_mem _ hx, h⟩

end

/-- The paths that a block gives: a lane's key tells its PC. -/
theorem restoreWave_paths (rd : Nat → Nat → Nat) (regs : Nat) (w : Wave) : ∃ key mk,
    (restoreWave rd regs w).paths = (imagePaths key mk ((List.range 32).filter fun n => rd (16 * n + 8) 1 < 4)).map (·.2) ∧
    ∀ n, (mk n).pc = BitVec.ofNat 64 (rd (16 * n) 8) ∧ (mk n).pc = BitVec.ofNat 64 (key n) := by
  refine ⟨_, _, rfl, fun n => ⟨rfl, BitVec.eq_of_toNat_eq ?_⟩⟩
  simp only [BitVec.toNat_ofNat]
  omega

/-! STATE of a lane (R382). -/

section
variable (w : Wave) (n : Nat)

theorem laneState_program (hl : w.launched.getLsbD n = true) (he : w.exited.getLsbD n = false) : (w.laneState n).1 < 4 := by
  rw [Wave.laneState, hl, he]
  simp only [Bool.not_true, Bool.false_eq_true, if_false]
  split <;> simp

theorem laneState_eq_five : (w.laneState n).1 = 5 ↔ w.launched.getLsbD n = false := by
  cases hl : w.launched.getLsbD n
  · simp [Wave.laneState, hl]
  · cases he : w.exited.getLsbD n
    · have := laneState_program w n hl he
      simp only [Bool.true_eq_false, iff_false]
      omega
    · simp [Wave.laneState, hl, he]

theorem laneState_eq_four : (w.laneState n).1 = 4 ↔ w.launched.getLsbD n = true ∧ w.exited.getLsbD n = true := by
  cases hl : w.launched.getLsbD n
  · simp [Wave.laneState, hl]
  · cases he : w.exited.getLsbD n
    · have := laneState_program w n hl he
      simp only [Bool.false_eq_true, and_false, iff_false]
      omega
    · simp [Wave.laneState, hl, he]

end

/-! The wave that comes back. -/

section
variable {w : Wave} {regs : Nat} {epc : Nat → Option W64} {rd : Nat → Nat → Nat} (h : w.InBlock regs epc rd) (w0 : Wave)
include h

theorem restoreWave_main {n r : Nat} (hn : n < 32) (hr : r < regs) (x : W32) :
    (restoreWave rd regs w0).main.get (32 * r + n) x = w.main.get (32 * r + n) (leftReg w.seed 0 (32 * r + n)) := by
  refine (FMap.get_rows hr hn (fun r l => BitVec.ofNat 32 (rd (0x3000 + 128 * r + 4 * l) 4)) x).trans ?_
  rw [h.main r hr n hn, BitVec.ofNat_toNat, BitVec.setWidth_eq]

theorem restoreWave_opf {n r : Nat} (hn : n < 32) (hr : r < 16) (x : W32) :
    (restoreWave rd regs w0).opf.get (32 * r + n) x = w.opf.get (32 * r + n) (leftReg w.seed 1 (32 * r + n)) := by
  refine (FMap.get_rows hr hn (fun r l => BitVec.ofNat 32 (rd (0x800 + 64 * l + 4 * r) 4)) x).trans ?_
  rw [h.opf n hn r hr, BitVec.ofNat_toNat, BitVec.setWidth_eq]

theorem restoreWave_lastq {n e : Nat} (hn : n < 32) (he : e < 4) (x : W64) :
    (restoreWave rd regs w0).lastq.get (32 * e + n) x = w.lastq.get (32 * e + n) 0 := by
  refine (FMap.get_rows he hn (fun e l => BitVec.ofNat 64 (rd (0x1000 + 8 * (4 * l + e)) 8)) x).trans ?_
  rw [h.lastq n hn e he, BitVec.ofNat_toNat, BitVec.setWidth_eq]

theorem restoreWave_sregs {i : Nat} (hi : i < 96) (x : W32) :
    (restoreWave rd regs w0).sregs.get i x = w.sregs.get i (leftReg w.seed 2 i) := by
  refine (FMap.get_tabulated hi (fun i => BitVec.ofNat 32 (rd (0x200 + 4 * i) 4)) x).trans ?_
  rw [h.sreg i hi, BitVec.ofNat_toNat, BitVec.setWidth_eq]

theorem restoreWave_flags {f : Nat} (hf : f < 12) (x : Nat) : (restoreWave rd regs w0).flags.get f x = w.flags.get f 0 :=
  (FMap.get_tabulated hf (fun f => rd (0x398 + f) 1) x).trans (h.flag f hf)

theorem restoreWave_rbs {b : Nat} (hb : b < 16) (x : RBar) : (restoreWave rd regs w0).rbs.get b x = w.rbs.get b {} := by
  refine (FMap.get_tabulated hb (fun b => ({ mask := BitVec.ofNat 32 (rd (0x3C0 + 16 * b) 4), arrived := BitVec.ofNat 32 (rd (0x3C4 + 16 * b) 4)
                                             withdrawn := BitVec.ofNat 32 (rd (0x3C8 + 16 * b) 4) } : RBar)) x).trans ?_
  rw [h.mask b hb, h.arrived b hb, h.withdrawn b hb]
  simp only [BitVec.ofNat_toNat, BitVec.setWidth_eq]

theorem restoreWave_mwtime : (restoreWave rd regs w0).mwtime = w.mwtime := by
  show BitVec.ofNat 32 (rd 0x394 4) = _
  rw [h.mwtime, BitVec.ofNat_toNat, BitVec.setWidth_eq]

theorem restoreWave_launched : (restoreWave rd regs w0).launched = w.launched := by
  refine BitVec.eq_of_getLsbD_eq fun n hn => Bool.eq_iff_iff.2 ((mem_maskOf _ hn).trans ?_)
  rw [List.mem_filter, List.mem_range, and_iff_right hn, bne_iff_ne]
  dsimp only
  rw [h.state n hn, ne_eq, laneState_eq_five, Bool.not_eq_false]

theorem restoreWave_exited : (restoreWave rd regs w0).exited = w.launched &&& w.exited := by
  refine BitVec.eq_of_getLsbD_eq fun n hn => Bool.eq_iff_iff.2 ((mem_maskOf _ hn).trans ?_)
  rw [List.mem_filter, List.mem_range, and_iff_right hn, beq_iff_eq]
  dsimp only
  rw [h.state n hn, laneState_eq_four, BitVec.getLsbD_and, Bool.and_eq_true]

omit h in
/-- The modes of the program, from what handler entry put aside or from the wave itself (R225). -/
theorem restoreWave_modes {xstat fpmode fpstat : W32} {wbase : Nat} {cbase : BitVec 9}
    (hm : rd 0x380 4 = xstat.toNat ∧ rd 0x384 4 = fpmode.toNat ∧ rd 0x388 4 = fpstat.toNat ∧ rd 0x38C 4 = wbase ∧ rd 0x390 4 = cbase.toNat) :
    let v := restoreWave rd regs w0
    v.xstat = xstat ∧ v.fpmode = fpmode &&& 7 ∧ v.fpstat = fpstat &&& 31 ∧ v.wbase = wbase ∧ v.cbase = cbase := by
  obtain ⟨hx, hf, hst, hwb, hcb⟩ := hm
  simp [restoreWave, hx, hf, hst, hwb, hcb]

/-- A live lane goes on at the PC that the image holds (R144, R384). -/
theorem restoreWave_pc {n : Nat} (hn : n < 32) (hlive : w.live.getLsbD n = true) :
    ∃ p ∈ (restoreWave rd regs w0).paths, p.lanes.getLsbD n = true ∧ p.pc = w.lanePc epc n := by
  rw [Wave.live, BitVec.getLsbD_and, BitVec.getLsbD_not, Bool.and_eq_true, Bool.and_eq_true, Bool.not_eq_true'] at hlive
  obtain ⟨hl, -, he⟩ := hlive
  obtain ⟨key, mk, hpaths, hpc⟩ := restoreWave_paths rd regs w0
  have hin : n ∈ (List.range 32).filter fun n => rd (16 * n + 8) 1 < 4 := by
    rw [List.mem_filter, List.mem_range, h.state n hn]
    exact ⟨hn, decide_eq_true (laneState_program w n hl he)⟩
  obtain ⟨e, hmem, hkey, hbit⟩ := imagePaths_holds (key := key) (mk := mk) (fun k hk => List.mem_range.1 (List.mem_filter.1 hk).1) hin
  obtain ⟨m, -, hm, hem⟩ := imagePaths_made hmem
  refine ⟨e.2, hpaths ▸ List.mem_map_of_mem hmem, hbit, ?_⟩
  calc e.2.pc = BitVec.ofNat 64 (key m) := hem.trans (hpc m).2
    _ = BitVec.ofNat 64 (rd (16 * n) 8) := by rw [← hm, hkey, ← (hpc n).2, (hpc n).1]
    _ = w.lanePc epc n := by rw [h.pc n hn, BitVec.ofNat_toNat, BitVec.setWidth_eq]

end

end Sys2Proof.Machine
end

