-- ==== Sys2Proof/Proofs/ImageGroups.lean ====
section
/-! The group that an image gives back, and O40 (R167, R168, R382 to R384). -/

set_option Elab.async false

namespace Sys2Proof.Machine

/-! What logs and reissued words leave of the groups. -/

theorem wrOwn_groups (s : State) (pa n v : Nat) : (s.wrOwn pa n v).groups = s.groups := by
  unfold State.wrOwn
  split
  · rfl
  · exact (congrArg State.groups (s.rekey_rest pa n _) :)

theorem logCtx_groups (s : State) (d ctx kind flags body : Nat) : (s.logCtx d ctx kind flags body).groups = s.groups := by
  unfold State.logCtx
  dsimp only
  split
  · split
    · exact wrOwn_groups ..
    · rfl
  · rfl

theorem reissueWave_groups (s : State) (gid wix : Nat) (rd : Nat → Nat → Nat) : (s.reissueWave gid wix rd).groups = s.groups := by
  unfold State.reissueWave
  dsimp only
  split
  · rfl
  · exact logCtx_groups ..

/-! The group that an image makes (R384). -/

/-- The barrier slots of an image. -/
def imgBars (rd : Nat → Nat → Nat) : FMap Bar := (List.range 32).map fun k =>
  (k, { count := field (rd (0x100 + 8 * k) 8) 0 11, arrived := field (rd (0x100 + 8 * k) 8) 16 11, phase := bitN (rd (0x100 + 8 * k) 8) 32 })

/-- The queues of an image. -/
def imgQueues (rd : Nat → Nat → Nat) : FMap Queue := (List.range 8).map fun k =>
  (k, { base := rd (0x200 + 16 * k) 4, head := BitVec.ofNat 32 (rd (0x204 + 16 * k) 4), tail := BitVec.ofNat 32 (rd (0x208 + 16 * k) 4)
        allow := rd (0x20C + 16 * k) 2, logn := rd (0x20E + 16 * k) 1, init := bitN (rd (0x20F + 16 * k) 1) 0 })

/-- The scratchpad of an image, which stands behind the blocks of the waves. -/
def Group.imgScratch (g : Group) (rd : Nat → Nat → Nat) : FMap Byte :=
  (List.range g.spsize).map fun a => (a, BitVec.ofNat 8 (rd (1280 + g.slots.length * waveBlock g.regs + a) 1))

/-- The restored group holds the image's barriers, queues and scratchpad; a held trap changes only its phase and its traps. -/
theorem restoreImage_group (u : State) (gid : Nat) (rd : Nat → Nat → Nat) : ∃ p tr held, (u.restoreImage gid rd).group gid =
    { u.group gid with restore := false, fresh := false, phase := p, trap := tr, held := held
                       bars := imgBars rd, queues := imgQueues rd, scratch := (u.group gid).imgScratch rd } := by
  unfold State.restoreImage
  extract_lets g s n wrd base s1 held s2 s2a s3
  have hs1 : s1.groups = u.groups := List.foldlRecOn (motive := fun v : State => v.groups = u.groups) _ _ rfl fun v hv _ _ => hv
  have hs3 : s3.groups = s2.groups :=
    List.foldlRecOn (motive := fun v : State => v.groups = s2.groups) _ _ rfl fun v hv i _ => (reissueWave_groups v gid i _).trans hv
  have hs2 : s3.group gid = { u.group gid with restore := false, fresh := false, phase := .running, trap := none, held := held.tail
                                               bars := imgBars rd, queues := imgQueues rd, scratch := (u.group gid).imgScratch rd } := by
    rw [State.group, hs3]
    refine (State.group_modGroup_self ..).trans ?_
    rw [State.group]
    dsimp only
    rw [hs1]
    rfl
  cases held with
  | nil => exact ⟨_, _, _, hs2⟩
  | cons h r =>
    refine ⟨.halting, some h, held.tail, ?_⟩
    dsimp only
    rw [State.group, haltGroup_groups]
    refine (State.group_modGroup_self ..).trans ?_
    rw [hs2]

/-! The image. -/

/-- An image holds a group: its header, and each field of its barriers and queues (R382). -/
structure Group.InImage (g : Group) (rd : Nat → Nat → Nat) : Prop where
  version : rd 0 4 = 1
  size : rd 4 4 = g.imageSize
  ctx : rd 8 2 = g.ctx
  slots : rd 0xA 1 = g.slots.length
  regs : rd 0xB 1 = g.regs / 16
  nbar : rd 0xC 1 = g.nbar
  spsize : rd 0xE 2 = g.spsize / 256
  bar : ∀ k < 32, rd (0x100 + 8 * k) 8 = (g.bars.get k {}).count + 2 ^ 16 * (g.bars.get k {}).arrived + if (g.bars.get k {}).phase then 2 ^ 32 else 0
  qbase : ∀ k < 8, rd (0x200 + 16 * k) 4 = (g.queues.get k {}).base
  qhead : ∀ k < 8, rd (0x204 + 16 * k) 4 = (g.queues.get k {}).head.toNat
  qtail : ∀ k < 8, rd (0x208 + 16 * k) 4 = (g.queues.get k {}).tail.toNat
  qallow : ∀ k < 8, rd (0x20C + 16 * k) 2 = (g.queues.get k {}).allow
  qlogn : ∀ k < 8, rd (0x20E + 16 * k) 1 = (g.queues.get k {}).logn
  qinit : ∀ k < 8, rd (0x20F + 16 * k) 1 = if (g.queues.get k {}).init then 1 else 0

theorem imagePieces_inImage {s : State} {gid : Nat} {rd : Nat → Nat → Nat} (h : ∀ e ∈ s.imagePieces gid, rd e.1 e.2.1 = e.2.2) :
    (s.group gid).InImage rd := by
  unfold State.imagePieces at h
  simp only [List.forall_mem_map, List.forall_mem_append, List.forall_mem_flatten, List.forall_mem_cons, List.mem_range] at h
  obtain ⟨⟨⟨⟨⟨hhead, -⟩, hbars⟩, hqs⟩, -⟩, -⟩ := h
  obtain ⟨hversion, hsize, hctx, hslots, hregs, hnbar, hspsize, -⟩ := hhead
  exact { version := hversion, size := hsize, ctx := hctx, slots := hslots, regs := hregs, nbar := hnbar, spsize := hspsize, bar := hbars
          qbase := fun k hk => (hqs k hk).1, qhead := fun k hk => (hqs k hk).2.1, qtail := fun k hk => (hqs k hk).2.2.1
          qallow := fun k hk => (hqs k hk).2.2.2.1, qlogn := fun k hk => (hqs k hk).2.2.2.2.1, qinit := fun k hk => (hqs k hk).2.2.2.2.2.1 }

section
variable {g h : Group} {rd : Nat → Nat → Nat} (hi : g.InImage rd)
include hi

/-- An image fits a group of the shape of the one it holds (R384). -/
theorem imageFits_shape (hctx : h.ctx = g.ctx) (hslots : h.slots.length = g.slots.length) (hregs : h.regs = g.regs) (hnbar : h.nbar = g.nbar)
    (hsp : h.spsize = g.spsize) : h.imageFits rd = true := by
  have hsize : h.imageSize = g.imageSize := by rw [Group.imageSize, hslots, hregs, hsp]; rfl
  rw [Group.imageFits, hi.version, hi.size, hi.ctx, hi.slots, hi.regs, hi.nbar, hi.spsize, hsize, hctx, hslots, hregs, hnbar, hsp]
  simp only [beq_self_eq_true, Bool.and_self]

theorem imgBars_get {k : Nat} (hk : k < 32) (hc : (g.bars.get k {}).count < 2 ^ 11) (ha : (g.bars.get k {}).arrived < 2 ^ 11) :
    (imgBars rd).get k {} = g.bars.get k {} := by
  have hget : (imgBars rd).get k {} = _ := FMap.get_tabulated hk _ _
  rw [hget, hi.bar k hk]
  generalize g.bars.get k {} = b at hc ha ⊢
  obtain ⟨count, arrived, phase⟩ := b
  dsimp only at hc ha
  cases phase <;> simp [field, bitN] <;> omega

theorem imgQueues_get {k : Nat} (hk : k < 8) : (imgQueues rd).get k {} = { g.queues.get k {} with pushed := 0, popped := 0 } := by
  have hget : (imgQueues rd).get k {} = _ := FMap.get_tabulated hk _ _
  rw [hget, hi.qbase k hk, hi.qhead k hk, hi.qtail k hk, hi.qallow k hk, hi.qlogn k hk, hi.qinit k hk]
  have hinit : ∀ b : Bool, bitN (if b then 1 else 0) 0 = b := by decide
  simp only [BitVec.ofNat_toNat, BitVec.setWidth_eq, hinit]

end

/-- One byte of the scratchpad. -/
theorem spGet_one (g : Group) (a : Nat) : g.spGet a 1 = (g.scratch.get a ((leftReg g.seed 3 a).setWidth 8)).toNat := rfl

theorem spGet_imgScratch {g h : Group} {rd : Nat → Nat → Nat} {x : Nat} (hs : h.scratch = g.imgScratch rd) (hx : x < g.spsize) {v : Nat}
    (hv : v < 256) (hrd : rd (1280 + g.slots.length * waveBlock g.regs + x) 1 = v) : h.spGet x 1 = v := by
  have hget : h.scratch.get x ((leftReg h.seed 3 x).setWidth 8) = _ := (congrArg (fun m : FMap Byte => m.get x _) hs :).trans (FMap.get_tabulated hx _ _)
  rw [spGet_one, hget, hrd, BitVec.toNat_ofNat, Nat.mod_eq_of_lt hv]

/-- Settles O40: the two words act or trap by their checks, each block gives its wave back, and the header, the fields of the group and the
bytes behind them give the group back. -/
theorem saveAndRestoreWords : Obligations.SaveAndRestoreWords := by
  intro a s ha hs va
  refine ⟨fun hh hin => ⟨fun hva hheld hchk => ⟨fun hgo => ?_, fun hgo => ?_⟩, fun h => ?_⟩, fun hin => ?_, ?_, fun h => ?_, ?_, ?_⟩
  · exact ⟨_, (exec_gsave ..).trans (execGsave_saves hs ha hh hin hva hheld hchk hgo), rfl⟩
  · exact (exec_gsave a s) ▸ execGsave_waits hs ha hh hin hva hheld hchk hgo
  · exact (exec_gsave ..).trans (execGsave_traps hs ha hh hin h)
  · exact (exec_gsave ..).trans (execGsave_illegal hs hin)
  · intro hl hrest hfresh hpos hp rd
    refine ⟨fun hva hchk hfit => ?_, fun hva => ?_, fun hva hchk hfit => ?_⟩
    · exact (exec_grest ..).trans (execGrest_restores hs ha hl hrest hfresh hpos hva hchk hp hfit)
    · exact (exec_grest ..).trans (execGrest_misaligned hs ha hl hrest hfresh hpos hva)
    · exact (exec_grest ..).trans (execGrest_unfit hs ha hl hrest hfresh hpos hva hchk hfit)
  · exact (exec_grest ..).trans (execGrest_illegal hs h)
  · intro wix epc rd w0 g h w v
    have hb : w.InBlock g.regs epc rd := wavePieces_inBlock h
    exact ⟨fun n hn => ⟨fun r hr => restoreWave_main hb w0 hn hr, fun r hr => restoreWave_opf hb w0 hn hr, fun e he => restoreWave_lastq hb w0 hn he⟩,
      fun i hi => restoreWave_sregs hb w0 hi, fun f hf => restoreWave_flags hb w0 hf, fun b hr => restoreWave_rbs hb w0 hr, restoreWave_mwtime hb w0,
      restoreWave_launched hb w0, restoreWave_exited hb w0, fun x hx => restoreWave_modes w0 (hb.saved x hx),
      fun hx => restoreWave_modes w0 (hb.modes hx), fun n hn => restoreWave_pc hb w0 hn⟩
  · intro u gid rd g h base hpieces hscratch hctx hslots hregs hnbar hsp t
    have hi : g.InImage rd := imagePieces_inImage hpieces
    obtain ⟨p, tr, held, ht⟩ := restoreImage_group u gid rd
    refine ⟨imageFits_shape hi hctx hslots hregs hnbar hsp, fun k hk hc harr => ?_, fun k hk => ?_, fun x hx => ?_⟩
    · exact (congrArg (fun x : Group => x.bars.get k {}) ht :).trans (imgBars_get hi hk hc harr)
    · exact (congrArg (fun x : Group => x.queues.get k {}) ht :).trans (imgQueues_get hi hk)
    · have hscr : t.scratch = h.imgScratch rd := (congrArg Group.scratch ht :)
      refine spGet_imgScratch hscr (hsp ▸ hx) (spGet_one g x ▸ BitVec.isLt _) ?_
      rw [hslots, hregs]
      exact hscratch x hx

end Sys2Proof.Machine
end
